-- ==== Sys2Proof/Word.lean ====
section
/-! DEFINITION. Word types, the sparse-table type and the plainest bit arithmetic of the model (R11, "Terms, units and numbers": bit 0 is least significant, byte 0 holds bits [7:0]). -/

namespace Sys2Proof

/-- A register word. -/
abbrev Word := BitVec 32

/-- One line of host data, 64 bytes (byte 0 in bits [7:0]). -/
abbrev Line := BitVec 512

/-- A sparse table: cells in strictly rising key order, none of them equal to what an unlisted key reads as. -/
structure Tab (α : Type) where
  cells : List (Nat × α) := []
deriving DecidableEq, Repr, Inhabited

/-- Bits [lo + w − 1 : lo] of a number. -/
def nbits (x lo w : Nat) : Nat := x / 2 ^ lo % 2 ^ w

/-- `x` with bits [lo + w − 1 : lo] replaced by the low bits of `v`. -/
def nput (x lo w v : Nat) : Nat :=
  x - nbits x lo w * 2 ^ lo + v % 2 ^ w * 2 ^ lo

end Sys2Proof
end

