-- ==== Sys2Proof/Syntax.lean ====
section
/-! DEFINITION. The commands the block takes from outside and the events of its own units, one constructor per row of the opcode table, with the operands a command carries. The block fetches nothing: a command names the instance it acts on (a port, a packet in flight, a channel, a descriptor by ring and index) and carries what the outside supplies with it (a beat, an error pattern, a reading). -/

namespace Sys2Proof

/-- What the check bits of a packet's flits show (R169, Table 5-7): nothing, a corrected error (in the header word or in another word), an uncorrectable word of the line bytes, an uncorrectable header or operation word where it lands, or an uncorrectable header word at the router of this place on its route (0 for the first). -/
inductive FlitErr where
  | none | corrected (header : Bool) | line | operation | header (hop : Nat)
deriving DecidableEq, Repr, Inhabited

/-- A packet of one operation flit that lands (R163): its number in transit, and what its check bits show. -/
structure Landing where
  pkt : Nat
  err : FlitErr := .none
deriving DecidableEq, Repr, Inhabited

/-- A Cexus channel whose DQ bus is free, and whether the frame of the transfer that starts is damaged on its way to the die (R279). -/
structure BusTurn where
  ch : Nat
  lost : Bool := false
deriving DecidableEq, Repr, Inhabited

/-- What one poll of a DIMM's hub sensor gives (R238, R257). -/
inductive HubReading where
  | absent | celsius (t : Nat) | noAnswer
deriving DecidableEq, Repr, Inhabited

/-- What the channel engine observes of a die's BSY_N pin at a check (Table 9-11). -/
inductive DieSeen where
  | stayedHigh | stayedLow | inTime
deriving DecidableEq, Repr, Inhabited

/-- What one read of a table word gives (R415, R416). -/
inductive SramOutcome where
  | clean | corrected | uncorrectable
deriving DecidableEq, Repr, Inhabited

/-- An eye that a step of training has swept (Tables 8-1, 9-9): the step, the place as the channel's TRAIN register records it, its width in delay steps and its range of reference voltage in Vref steps. -/
structure EyeFound where
  step : Nat := 0
  place : Nat := 0
  width : Nat := 0
  vref : Nat := 0
deriving DecidableEq, Repr, Inhabited

/-- A die that has failed a training step twice (R301): the step, the result code of Table 9-10 and the lane. -/
structure DieFail where
  die : Nat := 0
  step : Nat := 0
  result : Nat := 0
  lane : Nat := 0
deriving DecidableEq, Repr, Inhabited

/-- What training finds: the eyes it swept and the settings it found, by offset in the channel's trim groups; of a Cexus channel also the dies that failed a step twice, the identify bytes of each die, and the TEMP readings of step 9 with their valid bits. -/
structure Found where
  eyes : List EyeFound := []
  trims : List (Nat × Word) := []
  fails : List DieFail := []
  ident : List (Nat × List (BitVec 8)) := []
  temps : List (Nat × BitVec 8 × Bool) := []
deriving DecidableEq, Repr, Inhabited

/-- What the devices answer to a self-test, a retraining or a post-package repair: whether it passed, the two result words and where it failed; of a retraining also what it found. -/
structure TestResult where
  pass : Bool := true
  r0 : Nat := 0
  r1 : Nat := 0
  code : Nat := 0
  found : Found := {}
deriving DecidableEq, Repr, Inhabited

/-- What LOAD reads from the serial memory (R506): whether the device answers with the SFDP signature, the log2 of its bytes, whether it lists 1-1-4 read, and the bytes of the two image copies and of the two life-cycle record slots. -/
structure BootOutcome where
  sfdp : Bool := true
  density : Nat := 0
  quad : Bool := false
  copyA : List (BitVec 8) := []
  copyB : List (BitVec 8) := []
  lc0 : List (BitVec 8) := []
  lc1 : List (BitVec 8) := []
deriving DecidableEq, Repr, Inhabited

/-- What the SPD contents of a DIMM say (R258): whether the module is an RDIMM, device width, bank groups and banks per bank group; density code, row address bits, physical ranks, 3DS dies; lowest tCK in femtoseconds; CAS latencies supported; minimum times in picoseconds. -/
structure SpdValues where
  rdimm : Bool := true
  width : Nat := 4
  groups : Nat := 8
  banks : Nat := 4
  density : Nat := 0
  rows : Nat := 16
  pranks : Nat := 1
  lranks : Nat := 1
  tckMin : Nat := 0
  cls : List Nat := []
  tAA : Nat := 0
  tRCD : Nat := 0
  tRP : Nat := 0
  tRAS : Nat := 0
  tRC : Nat := 0
  tWR : Nat := 0
  tRFC1 : Nat := 0
  tRFC2 : Nat := 0
  tRFCsb : Nat := 0
  tREFSBRD : Nat := 0
  tRRDL : Nat := 0
  tCCDL : Nat := 0
  tCCDLWR : Nat := 0
  tFAW : Nat := 0
  tRTP : Nat := 0
  tWTRS : Nat := 0
  tWTRL : Nat := 0
deriving DecidableEq, Repr, Inhabited

/-- What TRAIN finds of one DIMM over the sideband (R256, R257): presence, whether its SPD read fails after its retries, whether its check fails, its bytes and what they say. -/
structure DimmFound where
  ch : Nat := 0
  slot : Nat := 0
  present : Bool := false
  nack : Bool := false
  crcBad : Bool := false
  bytes : List (BitVec 8) := []
  spd : SpdValues := {}
deriving DecidableEq, Repr, Inhabited

/-- What MOUNT reads from the dies beside what State holds: the codes at which each superblock copy is corrected, and those of the journal blocks listed by sequence (R379; a block not listed is corrected at every code), the scores of each stripe group's reference rows (R381, R384), and the patch records whose media line cannot be read (R420). -/
structure MountFound where
  sbA : List Nat := List.range 16
  sbB : List Nat := List.range 16
  blocks : List (Nat × List Nat) := []
  scores : List (List Nat) := []
  badPatches : List Nat := []
deriving DecidableEq, Repr, Inhabited

/-- What training one channel gives (R261, R301): the result code, the step and the place of the failure, the time in ms; what it found; for a DDR5 channel what mode register 58 reports, as DDR5_n_RFM shows it. A result other than zero of a Cexus channel is that of a whole channel failed in step 1, 3 or 4. -/
structure TrainResult where
  media : Bool := false
  ch : Nat := 0
  result : Nat := 0
  step : Nat := 0
  place : Nat := 0
  time : Nat := 0
  found : Found := {}
  rfm : Nat := 0
deriving DecidableEq, Repr, Inhabited

/-- The wake events of HUSH (R488). -/
inductive WakeEvent where
  | header (port : Nat) | register | doorbell (ring : Nat) | timer | key | pwrfail | thermal
deriving DecidableEq, Repr, Inhabited

/-- The end of a serial-memory operation (R513, R519, R521): done, done with read-back bytes that differ, or still busy at its limit of 2 s. -/
inductive SpiEnd where
  | done | mismatch | timeout
deriving DecidableEq, Repr, Inhabited


/-- The commands of the block: one constructor per row of the opcode table, in the table's order. The rule named after each is the row's rule. -/
inductive Instr where
  /-- READ (R37): A READ header accepted on a request port is checked, regulated and sent toward its staging slice to return the line. -/
  | read (port pool : Nat) (hdr : BitVec 128)
  /-- WRITE (R40): A WRITE header with its two data units is checked, encrypted and sent as a LINE_WR to its staging slice. -/
  | write (port pool : Nat) (hdr : BitVec 128)
  /-- WRITE_MASKED (R41): A WRITE_MASKED is checked and starts a merge that reads the current ciphertext, merges one half on plaintext and writes the full line back. -/
  | writeMasked (port pool : Nat) (hdr : BitVec 128)
  /-- PREFETCH (R58): A PREFETCH header brings the line into staging and completes without data. -/
  | prefetch (port pool : Nat) (hdr : BitVec 128)
  /-- FLUSH (R109): A FLUSH request waits for earlier writes of its context on the port, then goes to the context engine. -/
  | flush (port pool : Nat) (hdr : BitVec 128)
  /-- FLUSH_ALL (R86): A FLUSH_ALL request waits for earlier writes on its port, then goes to the flush point of the service router. -/
  | flushAll (port pool : Nat) (hdr : BitVec 128)
  /-- DATA_BEAT (R55): A DATA beat on ingress is matched to its open request, spends a data credit and is parity-checked. -/
  | dataBeat (port pool : Nat) (data : BitVec 256) (dpar : BitVec 32)
  /-- BAD_KIND (R89): A beat with KIND 0b11 is discarded and makes any request awaiting data short. -/
  | badKind (port : Nat)
  /-- REOPEN (R70): A write of 1 to PORT_n_CTRL.reopen closes the port and reopens it after its last request completes. -/
  | reopen (port : Nat)
  /-- PORT_READY (R70): An opening port raises READY and returns the full count of every pool. -/
  | portReady (port : Nat)
  /-- BUCKET_REFILL (R133): Every 256 port cycles each token bucket rises by its effective rate and held requests are tested again. -/
  | bucketRefill (port : Nat)
  /-- REWRITE_CHECK (R208): A write lacking its line-carrying ticket for 64 ns sends a rewrite check that may pin its way and bind a ticket. -/
  | rewriteCheck (port ord : Nat)
  /-- CTX_RECORD_FETCH (R96): A context-cache miss fetches the record from the context engine and replaces an entry of the set. -/
  | ctxRecordFetch (pkt : Landing)
  /-- LINE_REQ (R199): A LINE_REQ at a staging slice looks up the set header and serves a hit or starts a fill. -/
  | lineReq (pkt : Nat) (err : FlitErr)
  /-- LINE_WR (R203): A LINE_WR at a staging slice writes the line into its way, making it valid-dirty, or waits for a way. -/
  | lineWr (pkt : Nat) (err : FlitErr)
  /-- FILL_REQ (R37): A FILL_REQ at the hinge unit reads the hinge and pip entries and answers zero or forwards the read to the media router. -/
  | fillReq (pkt : Landing)
  /-- FILL_FWD (R316): A FILL_FWD at a media scheduler chooses the direct, detour or stripe-buffer path and issues its frames. -/
  | fillFwd (pkt : Landing)
  /-- FILL_DATA (R201): Fill data at a staging slice is staged valid-clean in a chosen way and serves the requests of the fill-table entry. -/
  | fillData (pkt : Nat) (err : FlitErr)
  /-- ZERO (R38): A zero-line indication reaches a slice or cluster and the read completes with 64 zero bytes. -/
  | zero (pkt : Landing)
  /-- LINE_RET (R83): A LINE_RET at a cluster is decrypted and the READ completion and DATA beat leave egress. -/
  | lineRet (pkt : Nat) (err : FlitErr)
  /-- DONE (R165): A DONE packet at a requester completes the request with the status in aux. -/
  | done (pkt : Landing)
  /-- TICKET (R178): A TICKET packet returns one to sixteen tickets of one pool to its holder. -/
  | ticket (pkt : Landing)
  /-- SLOT_MODE_ENTER (R172): A router output enters slot mode when a head flit has waited ready and unchosen for 512 transit cycles. -/
  | slotModeEnter (router output waited : Nat)
  /-- SLOT_MODE_EXIT (R172): A router output returns to normal mode after 8,192 transit cycles with no wait over 128. -/
  | slotModeExit (router output quiet worst : Nat)
  /-- ISOLATION (R183): The power manager asserts isolation of a fenced domain once every ticket and credit on its boundary is free. -/
  | isolation (domain : Nat)
  /-- DESTAGE_START (R211): The destager of a slice chooses the next stripe, marks its ways busy and asks for placement. -/
  | destageStart (slice : Nat)
  /-- DESTAGE (R330): DESTAGE packets of a stripe at a media group take a stripe-buffer entry, form parity and load the dies. -/
  | destage (pkt : Nat) (err : FlitErr)
  /-- STRIPE_WRITTEN (R212): The media group reports a stripe written and the slice cleans or empties its ways and lowers its counts. -/
  | stripeWritten (slice group : Nat)
  /-- PLACEMENT_REQUEST (R345): The hinge unit answers a placement request, leaving the fresh state, updating newest and pinning the stripe. -/
  | placementRequest (slice : Nat)
  /-- FLUSH_ARRIVAL (R112): A FLUSH or FLUSH_ALL reaching the context engine or flush point completes at once in staged mode or closes the durability epoch. -/
  | flushArrival (pkt : Landing)
  /-- EPOCH_ADVANCE (R112): The durability epoch advances once the next epoch is no longer live. -/
  | epochAdvance
  /-- EPOCH_ACK (R214): A staging slice acknowledges a new durability epoch value received over the sideband. -/
  | epochAck (slice : Nat)
  /-- FLUSH_EPOCH_COMPLETE (R112): A media-mode FLUSH or FLUSH_ALL completes when no way of its epoch or older is dirty and its journal blocks are durable. -/
  | flushEpochComplete (waiter : Nat)
  /-- EVAC_COMPLETE (R217): Slice k has no dirty way and no older request, so the partner releases held requests and the channel leaves service. -/
  | evacComplete
  /-- RESTORE_COMPLETE (R217): The partner has no dirty way of position k, so slice k serves it again and the SELFTEST completes. -/
  | restoreComplete
  /-- DDR5_COMMAND_ISSUE (R226): In each controller cycle a subchannel issues at most one DDR5 command chosen under the turn table and timing rules. -/
  | ddr5CommandIssue (ch sub : Nat)
  /-- DDR5_READ_RETURN (R395): A DDR5 read burst is captured and decoded by the RS(80,64) code. -/
  | ddr5ReadReturn (ch sub : Nat) (err : BitVec 640)
  /-- REFRESH_DUE (R235): A rank's refresh timer falls due and a REFab or group of REFsb issues at the next turn boundary. -/
  | refreshDue (ch sub rank : Nat)
  /-- ROW_CLOSE_IDLE (R228): A bank idle for close_idle controller cycles is closed with PRE. -/
  | rowCloseIdle (ch sub rank bank : Nat)
  /-- THERM_POLL (R238): Every period the engine reads mode register 4 and the DIMM hub sensors and sets the refresh rate. -/
  | thermPoll (ch : Nat) (mr4 : List Nat) (hub0 hub1 : HubReading)
  /-- ALERT_BACKOFF (R241): ALERT_N held low as a back-off request precharges the DIMM's ranks and issues RFMab commands. -/
  | alertBackoff (ch sub dimm : Nat)
  /-- CRC_ALERT (R270): A short ALERT_N pulse with write CRC on replays every held WR of the DIMM's subchannel. -/
  | crcAlert (ch sub dimm : Nat)
  /-- DDR5_SCHED_WRITE (R229): A write to DDR5_n_SCHED or DDR5_n_THERM is range-checked and refused with sched_cfg or takes effect. -/
  | ddr5SchedWrite (ch : Nat) (therm : Bool) (value : Word)
  /-- OSC_RETRAIN (R264): Every retrain period a rank takes one oscillator blackout to run the DQS interval oscillator. -/
  | oscRetrain (ch sub rank : Nat)
  /-- OSC_RESULT (R265): The oscillator count read by MRR moves the device's write offset toward its target. -/
  | oscResult (ch sub rank dev count : Nat)
  /-- TRAIN_STEP_TIMEOUT (R262): A training step overrunning 4 ms fails with TIMEOUT. -/
  | trainStepTimeout (media : Bool) (ch step unit : Nat)
  /-- BSY_N_RISE (R281): A die's BSY_N is seen high, ending a sensing, program, suspension or other array operation. -/
  | bsyNRise (ch die : Nat)
  /-- MEDIA_LINE_RECEIVED (R397): A 48-beat media line arrives on DQ and is settled through the inner code, outer code, generation and address checks. -/
  | mediaLineReceived (ch : Nat) (err : BitVec 768)
  /-- DQ_TRANSFER (R324): A free DQ bus starts the next transfer in the order of the current turn. -/
  | dqTransfer (ch : BusTurn)
  /-- PHASE_START (R312): A media phase begins, opening the protected window of the dies at that die position. -/
  | phaseStart (group : Nat)
  /-- PROGRAM_SLOT (R313): At media cycle 720q plus 2d of its window a die receives PROGRAM, RESUME or CALIBRATE. -/
  | programSlot (ch die : Nat)
  /-- PROGRAM_COMPLETE (R330): A die's program completes and the stripe is written once all nine programs pass. -/
  | programComplete (ch die : Nat) (pfail : BitVec 8)
  /-- LINK_CHECK (R303): Every link period one die's write offset is probed in a blackout of the channel's own phase. -/
  | linkCheck (ch : Nat) (below above : Bool)
  /-- ZQ_CALIBRATE (R304): Every zq_period the next die receives CALIBRATE in its own window. -/
  | zqCalibrate (ch : Nat)
  /-- MEDIA_TEMP_POLL (R305): Every temp_period each die receives TEMP and its reading goes to the drift unit and thermal zones. -/
  | mediaTempPoll (ch die : Nat) (temp : BitVec 8) (valid : Bool)
  /-- DIE_LATE_CHECK (R307): A die that does not raise or lower BSY_N in time is handled as late and may become failed. -/
  | dieLateCheck (ch die : Nat) (seen : DieSeen)
  /-- MOVE_START (R349): A free move slot takes the highest-priority due work and begins a region move or re-point. -/
  | moveStart
  /-- MOVE_STRIPE_WRITTEN (R350): A copied stripe is written at the target and the move's cursor advances. -/
  | moveStripeWritten (slot : Nat)
  /-- SWEEP (R356): A slot writes blank lines to every stripe of a sweep region and returns it to free with generation 0. -/
  | sweep (slot : Nat)
  /-- FORMAT (R356): A slot writes blank lines to every stripe of a raw region and moves it to free or in use. -/
  | format (slot : Nat)
  /-- POOL_SCAN (R346): The pool scan visits one pip entry per free core cycle and rebuilds the pool cache. -/
  | poolScan
  /-- REGION_SCAN (R354): The region scan visits hinge entries and finds regions due for wear, retire, cold and age moves. -/
  | regionScan
  /-- JOURNAL_FLUSH_TIMER (R364): A journal block is written 100 µs after its first entry. -/
  | journalFlushTimer
  /-- JOURNAL_BLOCK_WRITTEN (R364): A journal block write completes and blocks become durable. -/
  | journalBlockWritten
  /-- CHECKPOINT_END (R365): The checkpoint copy is written and the superblock naming the new slot is written. -/
  | checkpointEnd
  /-- HNG_CMD_READ (R370): A write of 1 to HNG_CMD.read copies the selected hinge or pip entry into HNG_DATA_0 and HNG_DATA_1. -/
  | hngCmdRead
  /-- CTX_CMD_READ (R130): A write of 1 to CTX_CMD.read copies the record in force and the write count into CTX_DATA_0 to 4 and CTX_WRCNT. -/
  | ctxCmdRead
  /-- AGE_EPOCH_TICK (R371): The epoch timer ends a period and E_a advances unless held, then the reference row is rewritten. -/
  | ageEpochTick
  /-- DRIFT_CALIBRATE (R383): Every cal_min minutes a stripe group is calibrated from its reference rows. -/
  | driftCalibrate (group : Nat) (scores : List Nat)
  /-- DDR5_SCRUB (R411): The DDR5 scrubber reads one row of headers and ways under a grant and applies their outcomes. -/
  | ddr5Scrub (ch : Nat) (errs : List (BitVec 640))
  /-- CEXUS_SCRUB (R413): The Cexus scrubber reads 64 media lines of one die under a grant and queues repairs. -/
  | cexusScrub (ch : Nat) (errs : List (BitVec 768))
  /-- SRAM_SCRUB (R415): The SRAM scrubber reads one table word per idle core cycle and writes back corrected words. -/
  | sramScrub (table index : Nat) (outcome : SramOutcome)
  /-- SCRUB_OVERDUE (R414): The age of a scrub lap reaches its limit and the overdue flag is set. -/
  | scrubOverdue (media : Bool) (ch : Nat)
  /-- REPAIR (R408): A queued repair rebuilds or poisons a line and rewrites its stripe as a partial-stripe rewrite. `place`: its place in the queue, the oldest at 0 (log 50). -/
  | repair (place : Nat)
  /-- MNT_GRANT (R427): The maintenance arbiter grants a requester by rank or as the bye. -/
  | mntGrant (media : Bool) (ch : Nat)
  /-- MNT_RANK_WRITE (R428): A write to MNT_RANK changes requester ranks from the next decision. -/
  | mntRankWrite (value : Word)
  /-- MNT_BYE_WRITE (R428): A write to MNT_BYE changes the bye interval or is refused with MNT_ERR.cfg. -/
  | mntByeWrite (value : Word)
  /-- LATCH (R553): Every latch round the core copies staged values into a bank and switches epoch, or defers. -/
  | latch
  /-- RECHECK (R151): Gathered capacity causes are rechecked in the next latch round, dropping entries and scaling rates. -/
  | recheck
  /-- BW_WINDOW_END (R157): At the end of a bandwidth window the per-port counts and histograms are copied and restarted. -/
  | bwWindowEnd
  /-- DESCRIPTOR_FETCH (R447): The ring engine reserves a CQ slot and fetches a descriptor from an SQ. -/
  | descriptorFetch (ring : Nat)
  /-- FETCH_RETURN (R452): A descriptor read returns on the ring-master port and the descriptor is dispatched or the ring enters error. -/
  | fetchReturn (ring index : Nat) (err : Bool) (desc : BitVec 512)
  /-- COMPLETION_WRITTEN (R451): A completion or notice entry's write response returns and interrupt coalescing is applied. -/
  | completionWritten (ring : Nat) (err : Bool)
  /-- SQ_DOORBELL (R448): A write to RNG_r_SQ_TAIL makes SQ entries available or is discarded. -/
  | sqDoorbell (ring : Nat) (tail : Word)
  /-- CQ_DOORBELL (R449): A write to RNG_r_CQ_HEAD frees CQ slots or is discarded. -/
  | cqDoorbell (ring : Nat) (head : Word)
  /-- NT_DOORBELL (R469): A write to RNG_NT_HEAD frees notice-ring entries. -/
  | ntDoorbell (head : Word)
  /-- RING_RESET (R468): A write of 1 to RNG_r_CTRL.reset stops the ring and completes its unbegun descriptors RING_RESET. -/
  | ringReset (ring : Nat)
  /-- RING_RESET_COMPLETE (R468): Every descriptor of a resetting ring has completed and its indices return to zero. -/
  | ringResetComplete (ring : Nat)
  /-- NOTICE_RING_RESET (R474): A write of 1 to RNG_NT_CTRL.reset returns the notice tail, head and lost field to zero. -/
  | noticeRingReset
  /-- IRQ_TIMER (R472): A ring's coalescing timer expires and its interrupt message is sent. -/
  | irqTimer (ring : Nat)
  /-- IRQ_MASK_WRITE (R473): A write to RNG_IRQ_MASK_k sets masks and sends held messages of unmasked vectors. -/
  | irqMaskWrite (k : Nat) (value : Word)
  /-- NOP (R458): The NOP descriptor completes DONE. -/
  | nop (ring index : Nat)
  /-- CTX_OPEN (R101): The CTX_OPEN descriptor checks and stages the opening of a closed context. -/
  | ctxOpen (ring index : Nat)
  /-- CTX_MODIFY (R101): The CTX_MODIFY descriptor stages the masked fields of an open context. -/
  | ctxModify (ring index : Nat)
  /-- CTX_CLOSE (R103): The CTX_CLOSE descriptor makes an open context closing at the next latch. -/
  | ctxClose (ring index : Nat)
  /-- CTX_CLOSE_FINISH (R103): A closing context's owc_map becomes zero and its record is zeroed and the close completes. -/
  | ctxCloseFinish (handle : Nat)
  /-- KEY_BIND (R101): The KEY_BIND descriptor stages a new key slot for a range of open contexts. -/
  | keyBind (ring index : Nat)
  /-- FLUSH_DESCRIPTOR (R459): The FLUSH descriptor flushes one context's completed writes under its durability mode. -/
  | flushDescriptor (ring index : Nat)
  /-- FLUSH_ALL_DESCRIPTOR (R459): The FLUSH_ALL descriptor makes every completed write durable on media. -/
  | flushAllDescriptor (ring index : Nat)
  /-- TRIM (R357): The TRIM descriptor trims a run of regions by emptying their staged lines and advancing their generations. -/
  | trim (ring index : Nat)
  /-- PREFETCH_DESCRIPTOR (R460): The PREFETCH descriptor brings up to 4,096 lines of one region into staging. -/
  | prefetchDescriptor (ring index : Nat)
  /-- CHANGESET (R146): The CHANGESET descriptor checks port classes, buckets, sets and floors under admission and stages them. -/
  | changeset (ring index : Nat)
  /-- TURN_TABLE_LOAD (R462): The TURN_TABLE_LOAD descriptor checks a turn-table image for the named channels and stages it. -/
  | turnTableLoad (ring index : Nat)
  /-- SCRUB_PASS (R458): The SCRUB_PASS descriptor reports a channel's scrub lap. -/
  | scrubPass (ring index : Nat)
  /-- SELFTEST_DRAM_PATTERN (R463): A SELFTEST of kind 0x01 writes and reads every code word of an evacuated DDR5 channel. -/
  | selftestDramPattern (ring index : Nat) (result : TestResult)
  /-- SELFTEST_DRAM_READ_MARGIN (R268): A SELFTEST of kind 0x02 sweeps the read capture point of one rank in blackouts. -/
  | selftestDramReadMargin (ring index : Nat) (result : TestResult)
  /-- SELFTEST_DRAM_WRITE_MARGIN (R463): A SELFTEST of kind 0x03 sweeps the write delay of one rank of an evacuated channel. -/
  | selftestDramWriteMargin (ring index : Nat) (result : TestResult)
  /-- SELFTEST_ECS_READOUT (R463): A SELFTEST of kind 0x04 reads the ECS error counts of one rank. -/
  | selftestEcsReadout (ring index : Nat) (result : TestResult)
  /-- SELFTEST_MEDIA_PATTERN (R463): A SELFTEST of kind 0x10 writes and reads every die line below the keep area, leaving blank lines. -/
  | selftestMediaPattern (ring index : Nat) (result : TestResult)
  /-- SELFTEST_MEDIA_READ_MARGIN (R463): A SELFTEST of kind 0x11 reads a die's reference rows at all 16 codes. -/
  | selftestMediaReadMargin (ring index : Nat) (result : TestResult)
  /-- SELFTEST_CODEC (R422): A SELFTEST of kind 0x20 passes the production vectors through every powered codec. -/
  | selftestCodec (ring index : Nat) (result : TestResult)
  /-- RETRAIN_DDR5 (R267): The RETRAIN descriptor for a DDR5 channel runs training steps 6 to 11 on every rank. -/
  | retrainDdr5 (ring index : Nat) (result : TestResult)
  /-- RETRAIN_CEXUS (R306): The RETRAIN descriptor for a Cexus channel reruns read and write centring or full training. -/
  | retrainCexus (ring index : Nat) (result : TestResult)
  /-- DRIFT_CAL (R390): The DRIFT_CAL descriptor runs epoch advances and calibrates the named groups. -/
  | driftCal (ring index : Nat)
  /-- REGION_MOVE (R369): The REGION_MOVE descriptor starts a driver move of a region to a chosen or named target. -/
  | regionMove (ring index : Nat)
  /-- REBUILD (R359): The REBUILD descriptor moves every region out of a stripe group with a failed die. -/
  | rebuild (ring index : Nat)
  /-- PATCH_ADD (R248): The PATCH_ADD descriptor adds a DRAM code word to the channel's patch table. -/
  | patchAdd (ring index : Nat) (err : BitVec 640)
  /-- PATCH_ADD_MEDIA (R418): The PATCH_ADD descriptor with media set adds a media line to the channel's patch table. -/
  | patchAddMedia (ring index : Nat)
  /-- PPR_REPAIR (R272): The PATCH_ADD descriptor with ppr set runs sPPR or hPPR on a DRAM row in SERVICE. -/
  | pprRepair (ring index : Nat) (result : TestResult)
  /-- POISON_SET (R405): The POISON_SET descriptor places lines as poisoned in staging and optionally on media. -/
  | poisonSet (ring index : Nat)
  /-- POISON_CLEAR (R406): The POISON_CLEAR descriptor turns poisoned lines of one region into zero lines. -/
  | poisonClear (ring index : Nat)
  /-- CHECKPOINT (R365): The CHECKPOINT descriptor starts or waits for a checkpoint. -/
  | checkpoint (ring index : Nat)
  /-- LEDGER_AUDIT (R440): The LEDGER_AUDIT descriptor samples the ledger at a latch and checks every invariant. -/
  | ledgerAudit (ring index : Nat)
  /-- IMAGE_WRITE (R521): The IMAGE_WRITE descriptor checks a boot image and writes it into the other copy of the SPI NOR device. -/
  | imageWrite (ring index : Nat)
  /-- MODE_REQUEST_RUN (R464): A MODE_REQUEST naming RUN leaves SERVICE or DRAIN for RUN where permitted. -/
  | modeRequestRun (ring index : Nat)
  /-- MODE_REQUEST_HUSH (R486): A MODE_REQUEST naming HUSH enters HUSH once the block is idle. -/
  | modeRequestHush (ring index : Nat)
  /-- MODE_REQUEST_DRAIN (R464): A MODE_REQUEST naming DRAIN starts DRAIN and completes when it is done. -/
  | modeRequestDrain (ring index : Nat)
  /-- MODE_REQUEST_SERVICE (R477): A MODE_REQUEST naming SERVICE enters SERVICE once every accepted request has completed. -/
  | modeRequestService (ring index : Nat)
  /-- SANITIZE (R465): The SANITIZE descriptor trims every region, optionally blanks all media and initialises every set header. -/
  | sanitize (ring index : Nat)
  /-- ABORT (R434): The ABORT descriptor stops its target before its commit point or reports it already done. -/
  | abort (ring index : Nat)
  /-- KEY_LOAD (R127): A KEY_LOAD message on the key port loads a key slot. -/
  | keyLoad (words : List Word)
  /-- KEY_ERASE (R127): A KEY_ERASE message puts a loaded slot into erasing. -/
  | keyErase (words : List Word)
  /-- ERASE_ALL (R127): An ERASE_ALL message erases every key slot. -/
  | eraseAll (words : List Word)
  /-- KEY_ERASE_DONE (R120): The older epoch retires and erasing slots are zeroed, empty and answered ACCEPTED. -/
  | keyEraseDone
  /-- HELLO_ACK (R125): A HELLO_ACK message makes the key port ready. -/
  | helloAck (words : List Word)
  /-- LC_CHANGE (R519): An accepted LC_CHANGE wipes key slots and writes the life-cycle record with pending set. -/
  | lcChange (words : List Word)
  /-- KEY_MESSAGE_BAD (R126): A key-port message that is one word, fails its CRC or has an unknown type receives an error RESULT. -/
  | keyMessageBad (words : List Word)
  /-- HELLO_ACK_LATE (R125): HELLO_ACK has not arrived 200 ms after a HELLO sent outside LOAD and ack_late is set. -/
  | helloAckLate
  /-- RESET (R477): RST_N low, or loss of the AON supply or REFCLK, puts the block in RESET. -/
  | reset
  /-- LOAD (R512): RST_N rises with REFCLK running and LOAD powers domains, wipes SRAM and key slots and reads the boot image. -/
  | load (image : BootOutcome)
  /-- LOAD_COMPLETE (R512): With a valid copy held and HELLO_ACK answered, the block enters TRAIN. -/
  | loadComplete (dimms : List DimmFound)
  /-- LOAD_HELLO_TIMEOUT (R513): No HELLO_ACK within 200 ms of HELLO ends LOAD in failure. -/
  | loadHelloTimeout
  /-- TRAIN_COMPLETE (R477): Every channel has trained and the block enters MOUNT. -/
  | trainComplete (results : List TrainResult)
  /-- MOUNT_COMPLETE (R147): MOUNT work ends, the admission check runs and the block enters RUN at the latch. -/
  | mountComplete (found : MountFound)
  /-- HUSH_IDLE_TIMER (R486): No header or register write for hush_idle ms starts HUSH entry. -/
  | hushIdleTimer
  /-- HUSH_ENTRY_COMPLETE (R487): Programs and journal are done, media and DRAM sleep and core domains power off. -/
  | hushEntryComplete
  /-- WAKE (R488): A wake event in HUSH powers up domains and restarts PLLs. -/
  | wake (event : WakeEvent)
  /-- WAKE_COMPLETE (R488): Self-refresh exit and PLL lock are done, fences fall and the block is in RUN. -/
  | wakeComplete
  /-- PWRFAIL (R491): PWRFAIL_N low for 16 AON cycles begins DRAIN. -/
  | pwrfail
  /-- DRAIN_COMPLETE (R489): No dirty way remains and ports are closed, the superblock is written clean and DRAIN_DONE is asserted. -/
  | drainComplete
  /-- THERMAL_READING (R494): A thermal-port reading updates its sensor and may reach the shutdown level. -/
  | thermalReading (sensor : Nat) (temp : BitVec 8) (valid : Bool)
  /-- ZONE_EVALUATE (R496): At the end of a sampling round a zone's excess is evaluated and its throttle step changed. -/
  | zoneEvaluate (zone : Nat)
  /-- BUDGET_EVALUATE (R499): At the end of a slow round the V72 power estimate is compared with the budget. -/
  | budgetEvaluate (estimate : Nat)
  /-- PD_UP_ACK (R576): The enclosing chip acknowledges a power-up request and the domain is switched on. -/
  | pdUpAck (domain : Nat)
  /-- EVENT_TAKEN (R533): The event packer takes an event and makes an item, adds it to a summary count or tallies it lost. -/
  | eventTaken
  /-- SUMMARY_BUILD (R538): Eight µs after a summary count became non-zero a summary item is built. -/
  | summaryBuild
  /-- EVT_POP (R537): EVT_POP pops the oldest event line from the FIFO. -/
  | evtPop
  /-- LEVEL_SAMPLE (R530): Every period the dirty-level and media-queue histograms are sampled. -/
  | levelSample
  /-- TELE_CNT_LO_READ (R526): A read of TELE_CNT_n_LO returns the low word and captures the high bits for its attribute. -/
  | teleCntLoRead (n : Nat) (user : Bool)
  /-- USER_ACCESS (R532): A register access with the user attribute is served in the user window or denied. -/
  | userAccess (write : Bool) (addr : Nat) (value : Word)
  /-- REGISTER_WRITE (R14): A register-port write to a register without a row of its own acts by its field access codes. -/
  | registerWrite (addr : Nat) (value : Word)
  /-- UNMAPPED_ACCESS (R545): An access to an address naming no register reads zero and sets GLB_ERR.unmapped. -/
  | unmappedAccess (write : Bool) (addr : Nat) (value : Word)
  /-- BIT_ALIAS_WRITE (R550): A write to the bit-alias space acts on one bit of a register by its access code. -/
  | bitAliasWrite (addr : Nat) (value : Word)
  /-- DEADBOLT (R559): A write to GLB_DEADBOLT bolts RWB fields of the named groups until RST_N. -/
  | deadbolt (value : Word)
  /-- LATCH_HOLD (R556): A write to GLB_LATCH_CTRL.hold keeps register-staged values staged across latches or releases them. -/
  | latchHold (value : Word)
  /-- UNIT_RESET_TELE (R561): A write of 1 to GLB_UNIT_RESET.tele fences and resets PD_TELE. -/
  | unitResetTele
  /-- UNIT_RESET_RINGS (R561): A write of 1 to GLB_UNIT_RESET.rings fences and resets PD_RINGS. -/
  | unitResetRings
  /-- EXTEST (R585): The EXTEST instruction drives PHY and sideband pins from the boundary chain while RST_N is low. -/
  | extest (pins : Nat)
  /-- SAMPLE_PRELOAD (R585): The SAMPLE/PRELOAD instruction samples the boundary chain. -/
  | samplePreload (pins : Nat)
  /-- IDCODE (R586): The IDCODE instruction selects the identity register. -/
  | idcode
  /-- PRODUCTION_SCAN (R585): The production scan instruction runs scan test where the life cycle and GLB_TEST.open permit it. -/
  | productionScan
  /-- SRAM_SELF_TEST (R585): The SRAM self-test instruction tests every SRAM where permitted. -/
  | sramSelfTest
  /-- CODEC_VECTORS (R421): The codec vectors instruction runs the production vector set through the codecs where permitted. -/
  | codecVectors
  /-- BYPASS (R585): The BYPASS instruction, or any refused or unlisted encoding, selects the one-bit bypass register. -/
  | bypass (code : Nat)
  /-- TAP_RESET (R584): TRST_N resets the test access port only. -/
  | tapReset
  /-- PWRFAIL_GLITCH (R491): PWRFAIL_N returns high before it has been low for 16 AON cycles, so the pulse is ignored and PWR_ERR.pwrfail_glitch is set. -/
  | pwrfailGlitch
  /-- PAYLOAD_READ_RETURN (R452): A descriptor payload read (CHANGESET buffer, turn-table image, image buffer) returns on the ring-master port, letting the descriptor proceed or completing it FAILED with RNG_r_ERR.payload. -/
  | payloadReadReturn (ring index : Nat) (err : Bool) (data : BitVec 512)
  /-- SERIAL_MEMORY_OPERATION_END (R521): A serial-memory read, sector erase or page program finishes (or is still busy at its 2 s limit), advancing LOAD's image check, an IMAGE_WRITE or the life-cycle record write. -/
  | serialMemoryOperationEnd (op : SpiEnd)
  /-- TRAIN_OVERRUN (R478): Training overruns 60 ms, so TRAIN ends in failure and the block enters SERVICE. -/
  | trainOverrun
  /-- INT_MSG_DELIVERY (R571): The enclosing chip raises INT_MSG_READY and the oldest queued interrupt message is delivered, freeing a place in the queue of 64. -/
  | intMsgDelivery
  /-- KEY_OUT_WORD_TAKEN (R574): The root of trust takes a key-port outbound word with KEY_OUT_READY high, completing the sending of a HELLO or RESULT. -/
  | keyOutWordTaken
deriving DecidableEq, Repr, Inhabited

end Sys2Proof
end

