-- ==== Sys2Proof/Decode.lean ====
section
/-! DEFINITION. The command a word spells. The opcode table gives no row any bits (commands reach this block as beats, register accesses, packets, pin events and descriptors, not as words), so no word spells a command. -/

namespace Sys2Proof

/-- The command spelt by a word of the table's bits: none, since the table gives its rows no bits. -/
def decodeTableWord (_nbits _w : Nat) : Option Instr := none

end Sys2Proof
end

