-- ==== Sys2Proof/Machine/Crypt.lean ====
section
/-! DEFINITION. XTS-AES-256 over one 64-byte line (R116: IEEE 1619 with FIPS 197), and the CRC-32C of "Standards referenced". Bytes are numbers below 256, byte 0 first. -/

namespace Sys2Proof.Machine

/-- The bytes of a number, least significant first. -/
def toBytes : Nat → Nat → List Nat
  | 0, _ => []
  | n + 1, x => x % 256 :: toBytes n (x / 256)

/-- The number whose bytes, least significant first, are given. -/
def fromBytes : List Nat → Nat
  | [] => 0
  | b :: t => b + 256 * fromBytes t

/-- The S-box of FIPS 197, entry x in bits [8x + 7 : 8x]. -/
def aesSboxBits : Nat := 0x16bb54b00f2d99416842e6bf0d89a18cdf2855cee9871e9b948ed9691198f8e19e1dc186b95735610ef6034866b53e708a8bbd4b1f74dde8c6b4a61c2e2578ba08ae7a65eaf4566ca94ed58d6d37c8e779e4959162acd3c25c2406490a3a32e0db0b5ede14b8ee4688902a22dc4f816073195d643d7ea7c41744975fec130ccdd2f3ff1021dab6bcf5389d928f40a351a89f3c507f02f94585334d43fbaaefd0cf584c4a39becb6a5bb1fc20ed00d153842fe329b3d63b52a05a6e1b1a2c830975b227ebe28012079a059618c323c7041531d871f1e5a534ccf73f362693fdb7c072a49cafa2d4adf04759fa7dc982ca76abd7fe2b670130c56f6bf27b777c63

/-- The inverse S-box of FIPS 197, entry x in bits [8x + 7 : 8x]. -/
def aesInvSboxBits : Nat := 0x7d0c2155631469e126d677ba7e042b17619953833cbbebc8b0f52aae4d3be0a0ef9cc9939f7ae52d0d4ab519a97f51605fec8027591012b131c7078833a8dd1ff45acd78fec0db9a2079d2c64b3e56fc1bbe18aa0e62b76f89c5291d711af1476edf751ce837f9e28535ade72274ac9673e6b4f0cecff297eadc674f4111913a6b8a130103bdafc1020f3fca8f1e2cd00645b3b80558e4f70ad3bc8c00abd890849d8da75746155edab9edfd5048706c92b6655dcc5ca4d41698688664f6f87225d18b6d49a25b76b224d92866a12e084ec3fa420b954cee3d23c2a632947b54cbe9dec444438e3487ff2f9b8239e37cfbd7f3819ea340bf38a53630d56a0952

/-- SubBytes of one byte. -/
def aesSub (x : Nat) : Nat := nbits aesSboxBits (8 * x) 8

/-- InvSubBytes of one byte. -/
def aesInvSub (x : Nat) : Nat := nbits aesInvSboxBits (8 * x) 8

/-- Multiplication by x in GF(2^8) modulo 0x11B. -/
def aesDouble (a : Nat) : Nat := if a < 128 then 2 * a else (2 * a - 256) ^^^ 0x1B

/-- Multiplication by a constant below 16 in GF(2^8). -/
def aesMul (k a : Nat) : Nat :=
  let a2 := aesDouble a
  let a4 := aesDouble a2
  let a8 := aesDouble a4
  (if nbits k 0 1 = 1 then a else 0) ^^^ (if nbits k 1 1 = 1 then a2 else 0) ^^^
    (if nbits k 2 1 = 1 then a4 else 0) ^^^ (if nbits k 3 1 = 1 then a8 else 0)

/-- Byte i of a state or key. -/
def byteAt (l : List Nat) (i : Nat) : Nat := l.getD i 0

/-- Exclusive OR of two byte lists. -/
def xorBytes (a b : List Nat) : List Nat := List.zipWith (fun x y => x ^^^ y) a b

/-- The next four bytes of the AES-256 key schedule: word number `i` from the schedule so far. -/
def aesNextWord (i : Nat) (w : List Nat) (rcon : Nat) : List Nat :=
  let n := w.length
  let t := w.drop (n - 4)
  let old := (w.drop (n - 32)).take 4
  let t := if i % 8 = 0 then
      [aesSub (byteAt t 1) ^^^ rcon, aesSub (byteAt t 2), aesSub (byteAt t 3), aesSub (byteAt t 0)]
    else if i % 8 = 4 then t.map aesSub
    else t
  xorBytes old t

/-- Extend a key schedule by `n` words, the next being word `i`. -/
def aesExpand : Nat → Nat → List Nat → Nat → List Nat
  | 0, _, w, _ => w
  | n + 1, i, w, rcon =>
    aesExpand n (i + 1) (w ++ aesNextWord i w rcon) (if i % 8 = 0 then aesDouble rcon else rcon)

/-- The 240 bytes of the AES-256 key schedule (FIPS 197, KeyExpansion with Nk = 8). -/
def aesSchedule (key : List Nat) : List Nat := aesExpand 52 8 key 1

/-- Round key r. -/
def aesRoundKey (w : List Nat) (r : Nat) : List Nat := (w.drop (16 * r)).take 16

/-- ShiftRows. -/
def aesShift (s : List Nat) : List Nat := (List.range 16).map fun i => byteAt s ((i + 4 * (i % 4)) % 16)

/-- InvShiftRows. -/
def aesInvShift (s : List Nat) : List Nat := (List.range 16).map fun i => byteAt s ((i + 12 * (i % 4)) % 16)

/-- A column mixing with first row coefficients c0, c1, c2, c3. -/
def aesMix (c : List Nat) (s : List Nat) : List Nat :=
  (List.range 16).map fun i =>
    let col := i / 4 * 4
    ((List.range 4).map fun k => aesMul (byteAt c ((k + 4 - i % 4) % 4)) (byteAt s (col + k))).foldl (fun x y => x ^^^ y) 0

/-- The inner rounds of the cipher, from round r on for n rounds. -/
def aesRounds (w : List Nat) : Nat → Nat → List Nat → List Nat
  | 0, _, s => s
  | n + 1, r, s => aesRounds w n (r + 1) (xorBytes (aesMix [2, 3, 1, 1] (aesShift (s.map aesSub))) (aesRoundKey w r))

/-- AES-256 encryption of one block of 16 bytes under a key schedule. -/
def aesEnc (w : List Nat) (b : List Nat) : List Nat :=
  let s := aesRounds w 13 1 (xorBytes b (aesRoundKey w 0))
  xorBytes (aesShift (s.map aesSub)) (aesRoundKey w 14)

/-- The inner rounds of the inverse cipher, from round r down. -/
def aesInvRounds (w : List Nat) : Nat → List Nat → List Nat
  | 0, s => s
  | r + 1, s => aesInvRounds w r (aesMix [14, 11, 13, 9] (xorBytes ((aesInvShift s).map aesInvSub) (aesRoundKey w (r + 1))))

/-- AES-256 decryption of one block of 16 bytes under a key schedule. -/
def aesDec (w : List Nat) (b : List Nat) : List Nat :=
  let s := aesInvRounds w 13 (xorBytes b (aesRoundKey w 14))
  xorBytes ((aesInvShift s).map aesInvSub) (aesRoundKey w 0)

/-- Multiplication of a tweak by the primitive element of GF(2^128) (IEEE 1619). -/
def xtsDouble (t : Nat) : Nat :=
  let d := 2 * t
  if d < 2 ^ 128 then d else (d - 2 ^ 128) ^^^ 0x87

/-- The four blocks of a line under an XTS pass with the block function given. -/
def xtsBlocks (f : List Nat → List Nat) : Nat → Nat → List Nat → List Nat
  | 0, _, _ => []
  | n + 1, t, l =>
    let tb := toBytes 16 t
    xorBytes (f (xorBytes (l.take 16) tb)) tb ++ xtsBlocks f n (xtsDouble t) (l.drop 16)

/-- The first tweak: the logical line address under K2 (R116). -/
def xtsTweak (key : BitVec 512) (lla : Nat) : Nat :=
  fromBytes (aesEnc (aesSchedule (toBytes 32 (key.toNat / 2 ^ 256))) (toBytes 16 lla))

/-- Encrypt a line under a slot's key (R116). -/
def xtsEncrypt (key : BitVec 512) (lla : Nat) (x : BitVec 512) : BitVec 512 :=
  let w := aesSchedule (toBytes 32 key.toNat)
  BitVec.ofNat 512 (fromBytes (xtsBlocks (aesEnc w) 4 (xtsTweak key lla) (toBytes 64 x.toNat)))

/-- Decrypt a line under a slot's key (R116). -/
def xtsDecrypt (key : BitVec 512) (lla : Nat) (x : BitVec 512) : BitVec 512 :=
  let w := aesSchedule (toBytes 32 key.toNat)
  BitVec.ofNat 512 (fromBytes (xtsBlocks (aesDec w) 4 (xtsTweak key lla) (toBytes 64 x.toNat)))

/-- Eight steps of the reflected CRC-32C division. -/
def crcStep : Nat → Nat → Nat
  | 0, c => c
  | n + 1, c => crcStep n (if c % 2 = 1 then (c / 2) ^^^ 0x82F63B78 else c / 2)

/-- CRC-32C of a byte string: Castagnoli polynomial 0x1EDC6F41 reflected, initial value all ones, final inversion. -/
def crc32c (bytes : List Nat) : Nat :=
  (bytes.foldl (fun c b => crcStep 8 (c ^^^ b)) 0xFFFFFFFF) ^^^ 0xFFFFFFFF

end Sys2Proof.Machine
end

