-- ==== Sys2Proof/Machine/RegMap.lean ====
section
/-! DEFINITION. The register map: every register the spec's register tables name (Table 19-2 and the tables of each chapter), with its byte address, strides, access masks (R14), reset value (R558) and the domain that holds it; and every field as a named bit range. -/

namespace Sys2Proof.Machine

/-- The registers of the map, one constructor per row of the register tables (instances are indices). -/
inductive Reg where
  | PORT_n_CFG
  | PORT_n_CREDIT_HDR
  | PORT_n_CREDIT_DATA
  | PORT_n_CTRL
  | PORT_n_STATE
  | PORT_n_ERR
  | PORT_n_ERRCNT
  | PORT_n_ORD
  | CTX_IDX
  | CTX_CMD
  | CTX_STAT
  | CTX_DATA_0
  | CTX_DATA_1
  | CTX_DATA_2
  | CTX_DATA_3
  | CTX_DATA_4
  | CTX_WRCNT
  | KEY_PORT_STATE
  | KEY_LOADED
  | KEY_SLOT_MAP_k
  | RGL_PORT_p_CLASS
  | RGL_PORT_p_TOKEN_0
  | RGL_PORT_p_TOKEN_1
  | RGL_PORT_p_TOKEN_2
  | RGL_PORT_p_TOKEN_3
  | RGL_PORT_p_SCALE
  | RGL_PORT_p_HELD
  | RGL_PORT_p_BW_RD
  | RGL_PORT_p_BW_WR
  | RGL_PORT_p_BW_HELD
  | RGL_PSET_k_LO
  | RGL_PSET_k_HI
  | RGL_BW_WINDOW
  | RGL_OVB_STATE
  | RGL_ERR
  | RGL_OVH_IDX
  | RGL_OVH_DATA
  | RGL_TT_IDX
  | RGL_TT_DATA
  | STG_GEOM
  | STG_HASH
  | STG_BUDGET
  | STG_DESTAGE
  | STG_EPOCH
  | STG_EVAC
  | STG_HOME_LO
  | STG_HOME_HI
  | STG_TOTAL_DIRTY
  | STG_ERR
  | STG_SEALED
  | STG_SLICE_c_DIRTY
  | STG_SLICE_c_SHARE
  | STG_SLICE_c_BOOK
  | STG_SLICE_c_QUEUE
  | DDR5_n_GEOM
  | DDR5_n_STATE
  | DDR5_n_REF
  | DDR5_n_SCHED
  | DDR5_n_THERM
  | DDR5_n_RFM
  | DDR5_n_BOUND
  | DDR5_n_ALERT
  | DDR5_n_ERR
  | DDR5_n_TIM_k
  | DDR5_n_PATCH_u_e_LO
  | DDR5_n_PATCH_u_e_HI
  | DDR5_n_PHY_CFG
  | DDR5_n_PHY_STATE
  | DDR5_n_TRAIN
  | DDR5_n_RETRAIN
  | DDR5_n_PHY_ERR
  | DDR5_n_CRC
  | DDR5_n_MARGIN
  | DDR5_n_SPD_IDX
  | DDR5_n_SPD_DATA
  | DDR5_n_HUB
  | DDR5_n_OSC_u_r
  | CEX_n_STATE
  | CEX_n_CFG
  | CEX_n_LINK
  | CEX_n_TRAIN
  | CEX_n_ERR
  | CEX_n_SUSP
  | CEX_n_LATE
  | CEX_n_DIE_d
  | CEX_n_ID_IDX
  | CEX_n_ID_DATA
  | MS_g_STATE
  | MS_g_CFG
  | MS_g_BOUND
  | MS_g_READS
  | MS_g_CUTS
  | MS_g_WRITES
  | MS_g_ERR
  | HNG_IDX
  | HNG_CMD
  | HNG_STAT
  | HNG_DATA_0
  | HNG_DATA_1
  | HNG_CFG
  | HNG_WEAR
  | HNG_CKPT
  | HNG_POOL
  | HNG_RAW
  | HNG_RETIRED
  | HNG_DEAD
  | HNG_JRNL
  | HNG_JSEQ
  | HNG_MOVES
  | HNG_ERR
  | HNG_SLOT_s_A
  | HNG_SLOT_s_B
  | HNG_SLOT_s_C
  | HNG_SLOT_s_D
  | HNG_GROUP_s
  | DRF_EPOCH
  | DRF_CFG
  | DRF_BKT_LO
  | DRF_BKT_HI
  | DRF_WEAR
  | DRF_WOFS_w
  | DRF_TEMP
  | DRF_MAP_IDX
  | DRF_MAP_DATA
  | DRF_AGE_IDX
  | DRF_AGE_DATA
  | DRF_STAT
  | DRF_REROLL
  | DRF_SPLIT
  | DRF_ERR
  | INT_CFG
  | INT_ERR
  | INT_POISON
  | INT_PLOG_LO
  | INT_PLOG_HI
  | INT_REPAIR
  | INT_RQ
  | INT_SRAM
  | INT_SCRUB_DDR_LIMIT
  | INT_SCRUB_CEX_LIMIT
  | INT_CODEC
  | INT_DDR_n_LAP
  | INT_DDR_n_PROG
  | INT_DDR_n_CNT
  | INT_DDR_n_DEV
  | INT_DDR_n_CAND_LO
  | INT_DDR_n_CAND_HI
  | INT_DDR_n_ERR
  | INT_CEX_n_LAP
  | INT_CEX_n_PROG
  | INT_CEX_n_CNT
  | INT_CEX_n_PFAIL
  | INT_CEX_n_ERR
  | INT_CEX_n_PATCH_e_LO
  | INT_CEX_n_PATCH_e_HI
  | MNT_IDX
  | MNT_RANK
  | MNT_BYE
  | MNT_STATE
  | MNT_GRANTS
  | MNT_WAIT
  | MNT_LONGEST
  | MNT_FLOOR
  | MNT_ERR
  | LDG_STATE
  | LDG_EPOCH_k
  | LDG_AUDIT
  | LDG_AUDIT_INST
  | LDG_AUDIT_DIFF
  | LDG_PORT_IDX
  | LDG_PORT_ACC
  | LDG_PORT_DONE
  | LDG_ERR
  | RNG_r_SQ_BASE_LO
  | RNG_r_SQ_BASE_HI
  | RNG_r_CQ_BASE_LO
  | RNG_r_CQ_BASE_HI
  | RNG_r_CFG
  | RNG_r_IRQ
  | RNG_r_SQ_TAIL
  | RNG_r_CQ_HEAD
  | RNG_r_STATE
  | RNG_r_CQ_TAIL
  | RNG_r_CTRL
  | RNG_r_ERR
  | RNG_NT_BASE_LO
  | RNG_NT_BASE_HI
  | RNG_NT_CFG
  | RNG_NT_IRQ
  | RNG_NT_HEAD
  | RNG_NT_TAIL
  | RNG_NT_LOST
  | RNG_NT_CTRL
  | RNG_NT_ERR
  | RNG_IRQ_MASK_k
  | RNG_IRQ_PEND_k
  | RNG_ERR_VEC
  | PWR_MODE
  | PWR_CFG
  | PWR_THERM
  | PWR_BUDGET
  | PWR_ESTIMATE
  | PWR_DRAIN
  | PWR_DOMAIN_LO
  | PWR_DOMAIN_HI
  | PWR_FENCE_LO
  | PWR_FENCE_HI
  | PWR_ERR
  | PWR_ZONE_z_CFG
  | PWR_ZONE_z_STATE
  | PWR_SENSOR_i
  | BOOT_STATE
  | BOOT_SEQ_A
  | BOOT_SEQ_B
  | BOOT_VER
  | BOOT_SPI
  | BOOT_WRITE
  | LC_STATE
  | TELE_WIN
  | TELE_CNT_n_LO
  | TELE_CNT_n_HI
  | TELE_LAT_p_BIN_i
  | TELE_LAT_p_MIN
  | TELE_LAT_p_MAX
  | TELE_LAT_p_COUNT
  | TELE_DRT_c_BIN_i
  | TELE_MQ_g_BIN_i
  | TELE_CFG
  | TELE_LVL_CFG
  | TELE_EVT_STATE
  | TELE_ERR
  | TELE_AON_LOST
  | TELE_CSEL_n
  | TELE_OVF_k
  | TELE_HIST_CFG_p
  | BLOCK_ID
  | BLOCK_CAP
  | GLB_STATUS
  | GLB_DEADBOLT
  | GLB_TEST
  | GLB_LATCH
  | GLB_LATCH_CTRL
  | GLB_UNIT_RESET
  | GLB_ERR
  | GLB_UNMAPPED
  | GLB_SCRATCH_k
deriving DecidableEq, Repr

/-- How many instances a register has along one index: fixed, or one of the counts of Table 0-1. -/
inductive Dim where
  | one | ports | ddr | cexus | groups | stripes | k (n : Nat)
deriving DecidableEq, Repr

/-- The domain that holds a register, for R558 and R482. -/
inductive RDom where
  | aon | keys | core | rings | tele | integ | cluster | dram | media | mediaG
deriving DecidableEq, Repr

/-- One row of a register table: address of instance (0, 0), the two strides and counts, the reset value, the holding domain, the DEADBOLT group (Table 19-2) and the bits under each access code (Table 0-4). -/
structure RDef where
  base : Nat
  s1 : Nat
  n1 : Dim
  s2 : Nat
  n2 : Dim
  reset : Nat
  dom : RDom
  group : Nat
  rw : Nat := 0
  rws : Nat := 0
  w1c : Nat := 0
  w1s : Nat := 0
  wo : Nat := 0
  rwb : Nat := 0

/-- The row of each register. -/
def Reg.info : Reg → RDef
  | .PORT_n_CFG => { base := 0x100000, s1 := 0x1000, n1 := .ports, s2 := 0x0, n2 := .one, reset := 0x0, dom := .cluster, group := 1, rws := 0x3 }
  | .PORT_n_CREDIT_HDR => { base := 0x100004, s1 := 0x1000, n1 := .ports, s2 := 0x0, n2 := .one, reset := 0x20202020, dom := .cluster, group := 1, rws := 0xFFFFFFFF }
  | .PORT_n_CREDIT_DATA => { base := 0x100008, s1 := 0x1000, n1 := .ports, s2 := 0x0, n2 := .one, reset := 0x30303030, dom := .cluster, group := 1, rws := 0xFFFFFFFF }
  | .PORT_n_CTRL => { base := 0x10000C, s1 := 0x1000, n1 := .ports, s2 := 0x0, n2 := .one, reset := 0x0, dom := .cluster, group := 1, wo := 0x1 }
  | .PORT_n_STATE => { base := 0x100010, s1 := 0x1000, n1 := .ports, s2 := 0x0, n2 := .one, reset := 0x0, dom := .cluster, group := 1 }
  | .PORT_n_ERR => { base := 0x100014, s1 := 0x1000, n1 := .ports, s2 := 0x0, n2 := .one, reset := 0x0, dom := .cluster, group := 1, w1c := 0x3FF }
  | .PORT_n_ERRCNT => { base := 0x100018, s1 := 0x1000, n1 := .ports, s2 := 0x0, n2 := .one, reset := 0x0, dom := .cluster, group := 1 }
  | .PORT_n_ORD => { base := 0x10001C, s1 := 0x1000, n1 := .ports, s2 := 0x0, n2 := .one, reset := 0x0, dom := .cluster, group := 1 }
  | .CTX_IDX => { base := 0x200000, s1 := 0x0, n1 := .one, s2 := 0x0, n2 := .one, reset := 0x0, dom := .core, group := 3, rw := 0xFFFFF }
  | .CTX_CMD => { base := 0x200004, s1 := 0x0, n1 := .one, s2 := 0x0, n2 := .one, reset := 0x0, dom := .core, group := 3, wo := 0x1 }
  | .CTX_STAT => { base := 0x200008, s1 := 0x0, n1 := .one, s2 := 0x0, n2 := .one, reset := 0x0, dom := .core, group := 3 }
  | .CTX_DATA_0 => { base := 0x200010, s1 := 0x0, n1 := .one, s2 := 0x0, n2 := .one, reset := 0x0, dom := .core, group := 3 }
  | .CTX_DATA_1 => { base := 0x200014, s1 := 0x0, n1 := .one, s2 := 0x0, n2 := .one, reset := 0x0, dom := .core, group := 3 }
  | .CTX_DATA_2 => { base := 0x200018, s1 := 0x0, n1 := .one, s2 := 0x0, n2 := .one, reset := 0x0, dom := .core, group := 3 }
  | .CTX_DATA_3 => { base := 0x20001C, s1 := 0x0, n1 := .one, s2 := 0x0, n2 := .one, reset := 0x0, dom := .core, group := 3 }
  | .CTX_DATA_4 => { base := 0x200020, s1 := 0x0, n1 := .one, s2 := 0x0, n2 := .one, reset := 0x0, dom := .core, group := 3 }
  | .CTX_WRCNT => { base := 0x200024, s1 := 0x0, n1 := .one, s2 := 0x0, n2 := .one, reset := 0x0, dom := .core, group := 3 }
  | .KEY_PORT_STATE => { base := 0x200030, s1 := 0x0, n1 := .one, s2 := 0x0, n2 := .one, reset := 0x0, dom := .core, group := 3 }
  | .KEY_LOADED => { base := 0x200034, s1 := 0x0, n1 := .one, s2 := 0x0, n2 := .one, reset := 0x0, dom := .core, group := 3 }
  | .KEY_SLOT_MAP_k => { base := 0x200100, s1 := 0x4, n1 := (.k 32), s2 := 0x0, n2 := .one, reset := 0x0, dom := .keys, group := 3 }
  | .RGL_PORT_p_CLASS => { base := 0x140000, s1 := 0x40, n1 := .ports, s2 := 0x0, n2 := .one, reset := 0x2, dom := .cluster, group := 2, rws := 0xC }
  | .RGL_PORT_p_TOKEN_0 => { base := 0x140004, s1 := 0x40, n1 := .ports, s2 := 0x0, n2 := .one, reset := 0x10000, dom := .cluster, group := 2 }
  | .RGL_PORT_p_TOKEN_1 => { base := 0x140008, s1 := 0x40, n1 := .ports, s2 := 0x0, n2 := .one, reset := 0x10000, dom := .cluster, group := 2 }
  | .RGL_PORT_p_TOKEN_2 => { base := 0x14000C, s1 := 0x40, n1 := .ports, s2 := 0x0, n2 := .one, reset := 0x11000, dom := .cluster, group := 2, rws := 0x3FF1FFF }
  | .RGL_PORT_p_TOKEN_3 => { base := 0x140010, s1 := 0x40, n1 := .ports, s2 := 0x0, n2 := .one, reset := 0x11000, dom := .cluster, group := 2, rws := 0x3FF1FFF }
  | .RGL_PORT_p_SCALE => { base := 0x140014, s1 := 0x40, n1 := .ports, s2 := 0x0, n2 := .one, reset := 0x88, dom := .cluster, group := 2 }
  | .RGL_PORT_p_HELD => { base := 0x140018, s1 := 0x40, n1 := .ports, s2 := 0x0, n2 := .one, reset := 0x0, dom := .cluster, group := 2 }
  | .RGL_PORT_p_BW_RD => { base := 0x14001C, s1 := 0x40, n1 := .ports, s2 := 0x0, n2 := .one, reset := 0x0, dom := .cluster, group := 2 }
  | .RGL_PORT_p_BW_WR => { base := 0x140020, s1 := 0x40, n1 := .ports, s2 := 0x0, n2 := .one, reset := 0x0, dom := .cluster, group := 2 }
  | .RGL_PORT_p_BW_HELD => { base := 0x140024, s1 := 0x40, n1 := .ports, s2 := 0x0, n2 := .one, reset := 0x0, dom := .cluster, group := 2 }
  | .RGL_PSET_k_LO => { base := 0x141000, s1 := 0x8, n1 := (.k 16), s2 := 0x0, n2 := .one, reset := 0x0, dom := .core, group := 2 }
  | .RGL_PSET_k_HI => { base := 0x141004, s1 := 0x8, n1 := (.k 16), s2 := 0x0, n2 := .one, reset := 0x0, dom := .core, group := 2 }
  | .RGL_BW_WINDOW => { base := 0x141080, s1 := 0x0, n1 := .one, s2 := 0x0, n2 := .one, reset := 0xF7, dom := .core, group := 2, rws := 0xFFFF }
  | .RGL_OVB_STATE => { base := 0x141084, s1 := 0x0, n1 := .one, s2 := 0x0, n2 := .one, reset := 0x0, dom := .core, group := 2 }
  | .RGL_ERR => { base := 0x141088, s1 := 0x0, n1 := .one, s2 := 0x0, n2 := .one, reset := 0x0, dom := .core, group := 2, w1c := 0x3 }
  | .RGL_OVH_IDX => { base := 0x14108C, s1 := 0x0, n1 := .one, s2 := 0x0, n2 := .one, reset := 0x0, dom := .core, group := 2, rw := 0xFF }
  | .RGL_OVH_DATA => { base := 0x141090, s1 := 0x0, n1 := .one, s2 := 0x0, n2 := .one, reset := 0x0, dom := .core, group := 2 }
  | .RGL_TT_IDX => { base := 0x141094, s1 := 0x0, n1 := .one, s2 := 0x0, n2 := .one, reset := 0x0, dom := .core, group := 2, rw := 0x7FFF }
  | .RGL_TT_DATA => { base := 0x141098, s1 := 0x0, n1 := .one, s2 := 0x0, n2 := .one, reset := 0x0, dom := .core, group := 2 }
  | .STG_GEOM => { base := 0x300000, s1 := 0x0, n1 := .one, s2 := 0x0, n2 := .one, reset := 0x0, dom := .core, group := 4 }
  | .STG_HASH => { base := 0x300004, s1 := 0x0, n1 := .one, s2 := 0x0, n2 := .one, reset := 0x0, dom := .core, group := 4 }
  | .STG_BUDGET => { base := 0x300008, s1 := 0x0, n1 := .one, s2 := 0x0, n2 := .one, reset := 0x100, dom := .core, group := 4, rws := 0x1FFF }
  | .STG_DESTAGE => { base := 0x30000C, s1 := 0x0, n1 := .one, s2 := 0x0, n2 := .one, reset := 0x64C, dom := .core, group := 4, rws := 0xFFFFF }
  | .STG_EPOCH => { base := 0x300010, s1 := 0x0, n1 := .one, s2 := 0x0, n2 := .one, reset := 0x0, dom := .core, group := 4 }
  | .STG_EVAC => { base := 0x300014, s1 := 0x0, n1 := .one, s2 := 0x0, n2 := .one, reset := 0x0, dom := .core, group := 4 }
  | .STG_HOME_LO => { base := 0x300018, s1 := 0x0, n1 := .one, s2 := 0x0, n2 := .one, reset := 0x76543210, dom := .core, group := 4 }
  | .STG_HOME_HI => { base := 0x30001C, s1 := 0x0, n1 := .one, s2 := 0x0, n2 := .one, reset := 0xFEDCBA98, dom := .core, group := 4 }
  | .STG_TOTAL_DIRTY => { base := 0x300020, s1 := 0x0, n1 := .one, s2 := 0x0, n2 := .one, reset := 0x0, dom := .core, group := 4 }
  | .STG_ERR => { base := 0x300024, s1 := 0x0, n1 := .one, s2 := 0x0, n2 := .one, reset := 0x0, dom := .core, group := 4, w1c := 0x3 }
  | .STG_SEALED => { base := 0x300028, s1 := 0x0, n1 := .one, s2 := 0x0, n2 := .one, reset := 0x0, dom := .core, group := 4 }
  | .STG_SLICE_c_DIRTY => { base := 0x301000, s1 := 0x10, n1 := .ddr, s2 := 0x0, n2 := .one, reset := 0x0, dom := .dram, group := 4 }
  | .STG_SLICE_c_SHARE => { base := 0x301004, s1 := 0x10, n1 := .ddr, s2 := 0x0, n2 := .one, reset := 0x0, dom := .dram, group := 4 }
  | .STG_SLICE_c_BOOK => { base := 0x301008, s1 := 0x10, n1 := .ddr, s2 := 0x0, n2 := .one, reset := 0x0, dom := .dram, group := 4 }
  | .STG_SLICE_c_QUEUE => { base := 0x30100C, s1 := 0x10, n1 := .ddr, s2 := 0x0, n2 := .one, reset := 0x0, dom := .dram, group := 4 }
  | .DDR5_n_GEOM => { base := 0x400000, s1 := 0x10000, n1 := .ddr, s2 := 0x0, n2 := .one, reset := 0x0, dom := .dram, group := 5 }
  | .DDR5_n_STATE => { base := 0x400004, s1 := 0x10000, n1 := .ddr, s2 := 0x0, n2 := .one, reset := 0x0, dom := .dram, group := 5 }
  | .DDR5_n_REF => { base := 0x400008, s1 := 0x10000, n1 := .ddr, s2 := 0x0, n2 := .one, reset := 0x0, dom := .dram, group := 5 }
  | .DDR5_n_SCHED => { base := 0x40000C, s1 := 0x10000, n1 := .ddr, s2 := 0x0, n2 := .one, reset := 0x4043020, dom := .dram, group := 5, rw := 0xFFFFFFF }
  | .DDR5_n_THERM => { base := 0x400010, s1 := 0x10000, n1 := .ddr, s2 := 0x0, n2 := .one, reset := 0x155, dom := .dram, group := 5, rw := 0xFFF }
  | .DDR5_n_RFM => { base := 0x400014, s1 := 0x10000, n1 := .ddr, s2 := 0x0, n2 := .one, reset := 0x0, dom := .dram, group := 5 }
  | .DDR5_n_BOUND => { base := 0x400018, s1 := 0x10000, n1 := .ddr, s2 := 0x0, n2 := .one, reset := 0x0, dom := .dram, group := 5 }
  | .DDR5_n_ALERT => { base := 0x40001C, s1 := 0x10000, n1 := .ddr, s2 := 0x0, n2 := .one, reset := 0x0, dom := .dram, group := 5 }
  | .DDR5_n_ERR => { base := 0x400020, s1 := 0x10000, n1 := .ddr, s2 := 0x0, n2 := .one, reset := 0x0, dom := .dram, group := 5, w1c := 0x1F }
  | .DDR5_n_TIM_k => { base := 0x400040, s1 := 0x10000, n1 := .ddr, s2 := 0x4, n2 := (.k 8), reset := 0x0, dom := .dram, group := 5, rw := 0xFFFFFFFF }
  | .DDR5_n_PATCH_u_e_LO => { base := 0x401000, s1 := 0x10000, n1 := .ddr, s2 := 0x8, n2 := (.k 16), reset := 0x0, dom := .dram, group := 5 }
  | .DDR5_n_PATCH_u_e_HI => { base := 0x401004, s1 := 0x10000, n1 := .ddr, s2 := 0x8, n2 := (.k 16), reset := 0x0, dom := .dram, group := 5 }
  | .DDR5_n_PHY_CFG => { base := 0x408000, s1 := 0x10000, n1 := .ddr, s2 := 0x0, n2 := .one, reset := 0x61313, dom := .dram, group := 5, rw := 0xF3F3F }
  | .DDR5_n_PHY_STATE => { base := 0x408004, s1 := 0x10000, n1 := .ddr, s2 := 0x0, n2 := .one, reset := 0x0, dom := .dram, group := 5 }
  | .DDR5_n_TRAIN => { base := 0x408008, s1 := 0x10000, n1 := .ddr, s2 := 0x0, n2 := .one, reset := 0x0, dom := .dram, group := 5 }
  | .DDR5_n_RETRAIN => { base := 0x40800C, s1 := 0x10000, n1 := .ddr, s2 := 0x0, n2 := .one, reset := 0x808, dom := .dram, group := 5, rw := 0x3FFF }
  | .DDR5_n_PHY_ERR => { base := 0x408010, s1 := 0x10000, n1 := .ddr, s2 := 0x0, n2 := .one, reset := 0x0, dom := .dram, group := 5, w1c := 0xFF }
  | .DDR5_n_CRC => { base := 0x408014, s1 := 0x10000, n1 := .ddr, s2 := 0x0, n2 := .one, reset := 0x0, dom := .dram, group := 5 }
  | .DDR5_n_MARGIN => { base := 0x408018, s1 := 0x10000, n1 := .ddr, s2 := 0x0, n2 := .one, reset := 0x0, dom := .dram, group := 5 }
  | .DDR5_n_SPD_IDX => { base := 0x40801C, s1 := 0x10000, n1 := .ddr, s2 := 0x0, n2 := .one, reset := 0x0, dom := .dram, group := 5, rw := 0x1FF }
  | .DDR5_n_SPD_DATA => { base := 0x408020, s1 := 0x10000, n1 := .ddr, s2 := 0x0, n2 := .one, reset := 0x0, dom := .dram, group := 5 }
  | .DDR5_n_HUB => { base := 0x408024, s1 := 0x10000, n1 := .ddr, s2 := 0x0, n2 := .one, reset := 0x0, dom := .dram, group := 5 }
  | .DDR5_n_OSC_u_r => { base := 0x408100, s1 := 0x10000, n1 := .ddr, s2 := 0x4, n2 := (.k 16), reset := 0x0, dom := .dram, group := 5 }
  | .CEX_n_STATE => { base := 0x500000, s1 := 0x1000, n1 := .cexus, s2 := 0x0, n2 := .one, reset := 0x0, dom := .media, group := 6 }
  | .CEX_n_CFG => { base := 0x500004, s1 := 0x1000, n1 := .cexus, s2 := 0x0, n2 := .one, reset := 0x61313, dom := .media, group := 6, rw := 0xF3F3F }
  | .CEX_n_LINK => { base := 0x500008, s1 := 0x1000, n1 := .cexus, s2 := 0x0, n2 := .one, reset := 0x120604, dom := .media, group := 6, rw := 0xFFFFFF }
  | .CEX_n_TRAIN => { base := 0x50000C, s1 := 0x1000, n1 := .cexus, s2 := 0x0, n2 := .one, reset := 0x0, dom := .media, group := 6 }
  | .CEX_n_ERR => { base := 0x500010, s1 := 0x1000, n1 := .cexus, s2 := 0x0, n2 := .one, reset := 0x0, dom := .media, group := 6, w1c := 0x1F }
  | .CEX_n_SUSP => { base := 0x500014, s1 := 0x1000, n1 := .cexus, s2 := 0x0, n2 := .one, reset := 0x0, dom := .media, group := 6 }
  | .CEX_n_LATE => { base := 0x500018, s1 := 0x1000, n1 := .cexus, s2 := 0x0, n2 := .one, reset := 0x0, dom := .media, group := 6 }
  | .CEX_n_DIE_d => { base := 0x500020, s1 := 0x1000, n1 := .cexus, s2 := 0x4, n2 := (.k 8), reset := 0x0, dom := .media, group := 6 }
  | .CEX_n_ID_IDX => { base := 0x500040, s1 := 0x1000, n1 := .cexus, s2 := 0x0, n2 := .one, reset := 0x0, dom := .media, group := 6, rw := 0xFF }
  | .CEX_n_ID_DATA => { base := 0x500044, s1 := 0x1000, n1 := .cexus, s2 := 0x0, n2 := .one, reset := 0x0, dom := .media, group := 6 }
  | .MS_g_STATE => { base := 0x550000, s1 := 0x100, n1 := .groups, s2 := 0x0, n2 := .one, reset := 0x0, dom := .mediaG, group := 7 }
  | .MS_g_CFG => { base := 0x550004, s1 := 0x100, n1 := .groups, s2 := 0x0, n2 := .one, reset := 0x41, dom := .mediaG, group := 7, rw := 0xFFF }
  | .MS_g_BOUND => { base := 0x550008, s1 := 0x100, n1 := .groups, s2 := 0x0, n2 := .one, reset := 0x0, dom := .mediaG, group := 7 }
  | .MS_g_READS => { base := 0x55000C, s1 := 0x100, n1 := .groups, s2 := 0x0, n2 := .one, reset := 0x0, dom := .mediaG, group := 7 }
  | .MS_g_CUTS => { base := 0x550010, s1 := 0x100, n1 := .groups, s2 := 0x0, n2 := .one, reset := 0x0, dom := .mediaG, group := 7 }
  | .MS_g_WRITES => { base := 0x550014, s1 := 0x100, n1 := .groups, s2 := 0x0, n2 := .one, reset := 0x0, dom := .mediaG, group := 7 }
  | .MS_g_ERR => { base := 0x550018, s1 := 0x100, n1 := .groups, s2 := 0x0, n2 := .one, reset := 0x0, dom := .mediaG, group := 7, w1c := 0x7 }
  | .HNG_IDX => { base := 0x600000, s1 := 0x0, n1 := .one, s2 := 0x0, n2 := .one, reset := 0x0, dom := .core, group := 8, rw := 0xFFFFFF }
  | .HNG_CMD => { base := 0x600004, s1 := 0x0, n1 := .one, s2 := 0x0, n2 := .one, reset := 0x0, dom := .core, group := 8, wo := 0x1 }
  | .HNG_STAT => { base := 0x600008, s1 := 0x0, n1 := .one, s2 := 0x0, n2 := .one, reset := 0x0, dom := .core, group := 8 }
  | .HNG_DATA_0 => { base := 0x60000C, s1 := 0x0, n1 := .one, s2 := 0x0, n2 := .one, reset := 0x0, dom := .core, group := 8 }
  | .HNG_DATA_1 => { base := 0x600010, s1 := 0x0, n1 := .one, s2 := 0x0, n2 := .one, reset := 0x0, dom := .core, group := 8 }
  | .HNG_CFG => { base := 0x600014, s1 := 0x0, n1 := .one, s2 := 0x0, n2 := .one, reset := 0x1000003, dom := .core, group := 8, rws := 0xFFFF0003 }
  | .HNG_WEAR => { base := 0x600018, s1 := 0x0, n1 := .one, s2 := 0x0, n2 := .one, reset := 0x4000800, dom := .core, group := 8, rws := 0xFFFFFFFF }
  | .HNG_CKPT => { base := 0x60001C, s1 := 0x0, n1 := .one, s2 := 0x0, n2 := .one, reset := 0x10000, dom := .core, group := 8, rws := 0xFFFFFF }
  | .HNG_POOL => { base := 0x600020, s1 := 0x0, n1 := .one, s2 := 0x0, n2 := .one, reset := 0x0, dom := .core, group := 8 }
  | .HNG_RAW => { base := 0x600024, s1 := 0x0, n1 := .one, s2 := 0x0, n2 := .one, reset := 0x0, dom := .core, group := 8 }
  | .HNG_RETIRED => { base := 0x600028, s1 := 0x0, n1 := .one, s2 := 0x0, n2 := .one, reset := 0x0, dom := .core, group := 8 }
  | .HNG_DEAD => { base := 0x60002C, s1 := 0x0, n1 := .one, s2 := 0x0, n2 := .one, reset := 0x0, dom := .core, group := 8 }
  | .HNG_JRNL => { base := 0x600030, s1 := 0x0, n1 := .one, s2 := 0x0, n2 := .one, reset := 0x0, dom := .core, group := 8 }
  | .HNG_JSEQ => { base := 0x600034, s1 := 0x0, n1 := .one, s2 := 0x0, n2 := .one, reset := 0x0, dom := .core, group := 8 }
  | .HNG_MOVES => { base := 0x600038, s1 := 0x0, n1 := .one, s2 := 0x0, n2 := .one, reset := 0x0, dom := .core, group := 8 }
  | .HNG_ERR => { base := 0x60003C, s1 := 0x0, n1 := .one, s2 := 0x0, n2 := .one, reset := 0x0, dom := .core, group := 8, w1c := 0x7F }
  | .HNG_SLOT_s_A => { base := 0x600040, s1 := 0x10, n1 := (.k 16), s2 := 0x0, n2 := .one, reset := 0x0, dom := .core, group := 8 }
  | .HNG_SLOT_s_B => { base := 0x600044, s1 := 0x10, n1 := (.k 16), s2 := 0x0, n2 := .one, reset := 0x0, dom := .core, group := 8 }
  | .HNG_SLOT_s_C => { base := 0x600048, s1 := 0x10, n1 := (.k 16), s2 := 0x0, n2 := .one, reset := 0x0, dom := .core, group := 8 }
  | .HNG_SLOT_s_D => { base := 0x60004C, s1 := 0x10, n1 := (.k 16), s2 := 0x0, n2 := .one, reset := 0x0, dom := .core, group := 8 }
  | .HNG_GROUP_s => { base := 0x600200, s1 := 0x4, n1 := .stripes, s2 := 0x0, n2 := .one, reset := 0x3C, dom := .core, group := 8 }
  | .DRF_EPOCH => { base := 0x600400, s1 := 0x0, n1 := .one, s2 := 0x0, n2 := .one, reset := 0x0, dom := .core, group := 8 }
  | .DRF_CFG => { base := 0x600404, s1 := 0x0, n1 := .one, s2 := 0x0, n2 := .one, reset := 0x1F00078, dom := .core, group := 8, rws := 0xFFFFFFF }
  | .DRF_BKT_LO => { base := 0x600408, s1 := 0x0, n1 := .one, s2 := 0x0, n2 := .one, reset := 0x18828C41, dom := .core, group := 8, rws := 0x3FFFFFFF }
  | .DRF_BKT_HI => { base := 0x60040C, s1 := 0x0, n1 := .one, s2 := 0x0, n2 := .one, reset := 0x2D2, dom := .core, group := 8, rws := 0x3FF }
  | .DRF_WEAR => { base := 0x600410, s1 := 0x0, n1 := .one, s2 := 0x0, n2 := .one, reset := 0xAC6722, dom := .core, group := 8, rws := 0xFFFFFF }
  | .DRF_WOFS_w => { base := 0x600414, s1 := 0x4, n1 := (.k 3), s2 := 0x0, n2 := .one, reset := 0x0, dom := .core, group := 8, rws := 0xFFFFFFFF }
  | .DRF_TEMP => { base := 0x600420, s1 := 0x0, n1 := .one, s2 := 0x0, n2 := .one, reset := 0x465005F, dom := .core, group := 8, rws := 0xFFFFFFF }
  | .DRF_MAP_IDX => { base := 0x600424, s1 := 0x0, n1 := .one, s2 := 0x0, n2 := .one, reset := 0x0, dom := .core, group := 8, rw := 0xFF }
  | .DRF_MAP_DATA => { base := 0x600428, s1 := 0x0, n1 := .one, s2 := 0x0, n2 := .one, reset := 0x0, dom := .core, group := 8 }
  | .DRF_AGE_IDX => { base := 0x60042C, s1 := 0x0, n1 := .one, s2 := 0x0, n2 := .one, reset := 0x0, dom := .core, group := 8, rw := 0x1F }
  | .DRF_AGE_DATA => { base := 0x600430, s1 := 0x0, n1 := .one, s2 := 0x0, n2 := .one, reset := 0x0, dom := .core, group := 8 }
  | .DRF_STAT => { base := 0x600434, s1 := 0x0, n1 := .one, s2 := 0x0, n2 := .one, reset := 0x0, dom := .core, group := 8 }
  | .DRF_REROLL => { base := 0x600438, s1 := 0x0, n1 := .one, s2 := 0x0, n2 := .one, reset := 0x0, dom := .core, group := 8 }
  | .DRF_SPLIT => { base := 0x60043C, s1 := 0x0, n1 := .one, s2 := 0x0, n2 := .one, reset := 0x0, dom := .core, group := 8 }
  | .DRF_ERR => { base := 0x600440, s1 := 0x0, n1 := .one, s2 := 0x0, n2 := .one, reset := 0x0, dom := .core, group := 8, w1c := 0x7F }
  | .INT_CFG => { base := 0x700000, s1 := 0x0, n1 := .one, s2 := 0x0, n2 := .one, reset := 0x4000, dom := .integ, group := 9, rws := 0xFF01 }
  | .INT_ERR => { base := 0x700004, s1 := 0x0, n1 := .one, s2 := 0x0, n2 := .one, reset := 0x0, dom := .integ, group := 9, w1c := 0xFF }
  | .INT_POISON => { base := 0x700008, s1 := 0x0, n1 := .one, s2 := 0x0, n2 := .one, reset := 0x0, dom := .integ, group := 9 }
  | .INT_PLOG_LO => { base := 0x70000C, s1 := 0x0, n1 := .one, s2 := 0x0, n2 := .one, reset := 0x0, dom := .integ, group := 9 }
  | .INT_PLOG_HI => { base := 0x700010, s1 := 0x0, n1 := .one, s2 := 0x0, n2 := .one, reset := 0x0, dom := .integ, group := 9 }
  | .INT_REPAIR => { base := 0x700014, s1 := 0x0, n1 := .one, s2 := 0x0, n2 := .one, reset := 0x0, dom := .integ, group := 9 }
  | .INT_RQ => { base := 0x700018, s1 := 0x0, n1 := .one, s2 := 0x0, n2 := .one, reset := 0x0, dom := .integ, group := 9 }
  | .INT_SRAM => { base := 0x70001C, s1 := 0x0, n1 := .one, s2 := 0x0, n2 := .one, reset := 0x0, dom := .integ, group := 9 }
  | .INT_SCRUB_DDR_LIMIT => { base := 0x700020, s1 := 0x0, n1 := .one, s2 := 0x0, n2 := .one, reset := 0x15180, dom := .integ, group := 9, rws := 0xFFFFFF }
  | .INT_SCRUB_CEX_LIMIT => { base := 0x700024, s1 := 0x0, n1 := .one, s2 := 0x0, n2 := .one, reset := 0x127500, dom := .integ, group := 9, rws := 0xFFFFFF }
  | .INT_CODEC => { base := 0x700028, s1 := 0x0, n1 := .one, s2 := 0x0, n2 := .one, reset := 0x0, dom := .integ, group := 9 }
  | .INT_DDR_n_LAP => { base := 0x700100, s1 := 0x20, n1 := .ddr, s2 := 0x0, n2 := .one, reset := 0x0, dom := .dram, group := 9 }
  | .INT_DDR_n_PROG => { base := 0x700104, s1 := 0x20, n1 := .ddr, s2 := 0x0, n2 := .one, reset := 0x0, dom := .dram, group := 9 }
  | .INT_DDR_n_CNT => { base := 0x700108, s1 := 0x20, n1 := .ddr, s2 := 0x0, n2 := .one, reset := 0x0, dom := .dram, group := 9 }
  | .INT_DDR_n_DEV => { base := 0x70010C, s1 := 0x20, n1 := .ddr, s2 := 0x0, n2 := .one, reset := 0x0, dom := .dram, group := 9 }
  | .INT_DDR_n_CAND_LO => { base := 0x700110, s1 := 0x20, n1 := .ddr, s2 := 0x0, n2 := .one, reset := 0x0, dom := .dram, group := 9 }
  | .INT_DDR_n_CAND_HI => { base := 0x700114, s1 := 0x20, n1 := .ddr, s2 := 0x0, n2 := .one, reset := 0x0, dom := .dram, group := 9 }
  | .INT_DDR_n_ERR => { base := 0x700118, s1 := 0x20, n1 := .ddr, s2 := 0x0, n2 := .one, reset := 0x0, dom := .dram, group := 9, w1c := 0xF }
  | .INT_CEX_n_LAP => { base := 0x700400, s1 := 0x20, n1 := .cexus, s2 := 0x0, n2 := .one, reset := 0x0, dom := .media, group := 9 }
  | .INT_CEX_n_PROG => { base := 0x700404, s1 := 0x20, n1 := .cexus, s2 := 0x0, n2 := .one, reset := 0x0, dom := .media, group := 9 }
  | .INT_CEX_n_CNT => { base := 0x700408, s1 := 0x20, n1 := .cexus, s2 := 0x0, n2 := .one, reset := 0x0, dom := .media, group := 9 }
  | .INT_CEX_n_PFAIL => { base := 0x70040C, s1 := 0x20, n1 := .cexus, s2 := 0x0, n2 := .one, reset := 0x0, dom := .media, group := 9 }
  | .INT_CEX_n_ERR => { base := 0x700410, s1 := 0x20, n1 := .cexus, s2 := 0x0, n2 := .one, reset := 0x0, dom := .media, group := 9, w1c := 0x3 }
  | .INT_CEX_n_PATCH_e_LO => { base := 0x701000, s1 := 0x80, n1 := .cexus, s2 := 0x8, n2 := (.k 16), reset := 0x0, dom := .media, group := 9 }
  | .INT_CEX_n_PATCH_e_HI => { base := 0x701004, s1 := 0x80, n1 := .cexus, s2 := 0x8, n2 := (.k 16), reset := 0x0, dom := .media, group := 9 }
  | .MNT_IDX => { base := 0x704000, s1 := 0x0, n1 := .one, s2 := 0x0, n2 := .one, reset := 0x0, dom := .integ, group := 9, rw := 0x7FF }
  | .MNT_RANK => { base := 0x704004, s1 := 0x0, n1 := .one, s2 := 0x0, n2 := .one, reset := 0x13BA1, dom := .integ, group := 9, rw := 0x3FFFF }
  | .MNT_BYE => { base := 0x704008, s1 := 0x0, n1 := .one, s2 := 0x0, n2 := .one, reset := 0x4, dom := .integ, group := 9, rw := 0xF }
  | .MNT_STATE => { base := 0x70400C, s1 := 0x0, n1 := .one, s2 := 0x0, n2 := .one, reset := 0x7, dom := .integ, group := 9 }
  | .MNT_GRANTS => { base := 0x704010, s1 := 0x0, n1 := .one, s2 := 0x0, n2 := .one, reset := 0x0, dom := .integ, group := 9 }
  | .MNT_WAIT => { base := 0x704014, s1 := 0x0, n1 := .one, s2 := 0x0, n2 := .one, reset := 0x0, dom := .integ, group := 9 }
  | .MNT_LONGEST => { base := 0x704018, s1 := 0x0, n1 := .one, s2 := 0x0, n2 := .one, reset := 0x0, dom := .integ, group := 9 }
  | .MNT_FLOOR => { base := 0x70401C, s1 := 0x0, n1 := .one, s2 := 0x0, n2 := .one, reset := 0x4, dom := .integ, group := 9 }
  | .MNT_ERR => { base := 0x704020, s1 := 0x0, n1 := .one, s2 := 0x0, n2 := .one, reset := 0x0, dom := .integ, group := 9, w1c := 0x1 }
  | .LDG_STATE => { base := 0xA80000, s1 := 0x0, n1 := .one, s2 := 0x0, n2 := .one, reset := 0x0, dom := .tele, group := 13 }
  | .LDG_EPOCH_k => { base := 0xA80004, s1 := 0x4, n1 := (.k 4), s2 := 0x0, n2 := .one, reset := 0x0, dom := .tele, group := 13 }
  | .LDG_AUDIT => { base := 0xA80014, s1 := 0x0, n1 := .one, s2 := 0x0, n2 := .one, reset := 0x0, dom := .tele, group := 13 }
  | .LDG_AUDIT_INST => { base := 0xA80018, s1 := 0x0, n1 := .one, s2 := 0x0, n2 := .one, reset := 0x0, dom := .tele, group := 13 }
  | .LDG_AUDIT_DIFF => { base := 0xA8001C, s1 := 0x0, n1 := .one, s2 := 0x0, n2 := .one, reset := 0x0, dom := .tele, group := 13 }
  | .LDG_PORT_IDX => { base := 0xA80020, s1 := 0x0, n1 := .one, s2 := 0x0, n2 := .one, reset := 0x0, dom := .tele, group := 13, rw := 0x3F }
  | .LDG_PORT_ACC => { base := 0xA80024, s1 := 0x0, n1 := .one, s2 := 0x0, n2 := .one, reset := 0x0, dom := .tele, group := 13 }
  | .LDG_PORT_DONE => { base := 0xA80028, s1 := 0x0, n1 := .one, s2 := 0x0, n2 := .one, reset := 0x0, dom := .tele, group := 13 }
  | .LDG_ERR => { base := 0xA8002C, s1 := 0x0, n1 := .one, s2 := 0x0, n2 := .one, reset := 0x0, dom := .tele, group := 13, w1c := 0x3 }
  | .RNG_r_SQ_BASE_LO => { base := 0x800000, s1 := 0x40, n1 := (.k 64), s2 := 0x0, n2 := .one, reset := 0x0, dom := .rings, group := 10, rws := 0xFFFFF000 }
  | .RNG_r_SQ_BASE_HI => { base := 0x800004, s1 := 0x40, n1 := (.k 64), s2 := 0x0, n2 := .one, reset := 0x0, dom := .rings, group := 10, rws := 0xFFFFFFFF }
  | .RNG_r_CQ_BASE_LO => { base := 0x800008, s1 := 0x40, n1 := (.k 64), s2 := 0x0, n2 := .one, reset := 0x0, dom := .rings, group := 10, rws := 0xFFFFF000 }
  | .RNG_r_CQ_BASE_HI => { base := 0x80000C, s1 := 0x40, n1 := (.k 64), s2 := 0x0, n2 := .one, reset := 0x0, dom := .rings, group := 10, rws := 0xFFFFFFFF }
  | .RNG_r_CFG => { base := 0x800010, s1 := 0x40, n1 := (.k 64), s2 := 0x0, n2 := .one, reset := 0x840, dom := .rings, group := 10, rws := 0xFF3FF1 }
  | .RNG_r_IRQ => { base := 0x800014, s1 := 0x40, n1 := (.k 64), s2 := 0x0, n2 := .one, reset := 0x1, dom := .rings, group := 10, rws := 0xFFFFFF }
  | .RNG_r_SQ_TAIL => { base := 0x800018, s1 := 0x40, n1 := (.k 64), s2 := 0x0, n2 := .one, reset := 0x0, dom := .rings, group := 10, rw := 0xFFFF }
  | .RNG_r_CQ_HEAD => { base := 0x80001C, s1 := 0x40, n1 := (.k 64), s2 := 0x0, n2 := .one, reset := 0x0, dom := .rings, group := 10, rw := 0xFFFF }
  | .RNG_r_STATE => { base := 0x800020, s1 := 0x40, n1 := (.k 64), s2 := 0x0, n2 := .one, reset := 0x0, dom := .rings, group := 10 }
  | .RNG_r_CQ_TAIL => { base := 0x800024, s1 := 0x40, n1 := (.k 64), s2 := 0x0, n2 := .one, reset := 0x0, dom := .rings, group := 10 }
  | .RNG_r_CTRL => { base := 0x800028, s1 := 0x40, n1 := (.k 64), s2 := 0x0, n2 := .one, reset := 0x0, dom := .rings, group := 10, wo := 0x1 }
  | .RNG_r_ERR => { base := 0x80002C, s1 := 0x40, n1 := (.k 64), s2 := 0x0, n2 := .one, reset := 0x0, dom := .rings, group := 10, w1c := 0x1F }
  | .RNG_NT_BASE_LO => { base := 0x801000, s1 := 0x0, n1 := .one, s2 := 0x0, n2 := .one, reset := 0x0, dom := .rings, group := 10, rws := 0xFFFFF000 }
  | .RNG_NT_BASE_HI => { base := 0x801004, s1 := 0x0, n1 := .one, s2 := 0x0, n2 := .one, reset := 0x0, dom := .rings, group := 10, rws := 0xFFFFFFFF }
  | .RNG_NT_CFG => { base := 0x801008, s1 := 0x0, n1 := .one, s2 := 0x0, n2 := .one, reset := 0x40, dom := .rings, group := 10, rws := 0xFF01F1 }
  | .RNG_NT_IRQ => { base := 0x80100C, s1 := 0x0, n1 := .one, s2 := 0x0, n2 := .one, reset := 0x1, dom := .rings, group := 10, rws := 0xFFFFFF }
  | .RNG_NT_HEAD => { base := 0x801010, s1 := 0x0, n1 := .one, s2 := 0x0, n2 := .one, reset := 0x0, dom := .rings, group := 10, rw := 0xFFFF }
  | .RNG_NT_TAIL => { base := 0x801014, s1 := 0x0, n1 := .one, s2 := 0x0, n2 := .one, reset := 0x0, dom := .rings, group := 10 }
  | .RNG_NT_LOST => { base := 0x801018, s1 := 0x0, n1 := .one, s2 := 0x0, n2 := .one, reset := 0x0, dom := .rings, group := 10 }
  | .RNG_NT_CTRL => { base := 0x80101C, s1 := 0x0, n1 := .one, s2 := 0x0, n2 := .one, reset := 0x0, dom := .rings, group := 10, wo := 0x1 }
  | .RNG_NT_ERR => { base := 0x801020, s1 := 0x0, n1 := .one, s2 := 0x0, n2 := .one, reset := 0x0, dom := .rings, group := 10, w1c := 0x7 }
  | .RNG_IRQ_MASK_k => { base := 0x802000, s1 := 0x4, n1 := (.k 8), s2 := 0x0, n2 := .one, reset := 0x0, dom := .rings, group := 10, rw := 0xFFFFFFFF }
  | .RNG_IRQ_PEND_k => { base := 0x802020, s1 := 0x4, n1 := (.k 8), s2 := 0x0, n2 := .one, reset := 0x0, dom := .rings, group := 10 }
  | .RNG_ERR_VEC => { base := 0x802040, s1 := 0x0, n1 := .one, s2 := 0x0, n2 := .one, reset := 0x0, dom := .rings, group := 10, rws := 0xFF }
  | .PWR_MODE => { base := 0x900000, s1 := 0x0, n1 := .one, s2 := 0x0, n2 := .one, reset := 0x0, dom := .aon, group := 11 }
  | .PWR_CFG => { base := 0x900004, s1 := 0x0, n1 := .one, s2 := 0x0, n2 := .one, reset := 0x0, dom := .aon, group := 11, rws := 0x1FFFF }
  | .PWR_THERM => { base := 0x900008, s1 := 0x0, n1 := .one, s2 := 0x0, n2 := .one, reset := 0x40A05, dom := .aon, group := 11, rws := 0xFFFFF }
  | .PWR_BUDGET => { base := 0x90000C, s1 := 0x0, n1 := .one, s2 := 0x0, n2 := .one, reset := 0x0, dom := .aon, group := 11, rws := 0xFF }
  | .PWR_ESTIMATE => { base := 0x900010, s1 := 0x0, n1 := .one, s2 := 0x0, n2 := .one, reset := 0x0, dom := .aon, group := 11 }
  | .PWR_DRAIN => { base := 0x900014, s1 := 0x0, n1 := .one, s2 := 0x0, n2 := .one, reset := 0x0, dom := .aon, group := 11 }
  | .PWR_DOMAIN_LO => { base := 0x900018, s1 := 0x0, n1 := .one, s2 := 0x0, n2 := .one, reset := 0x1, dom := .aon, group := 11 }
  | .PWR_DOMAIN_HI => { base := 0x90001C, s1 := 0x0, n1 := .one, s2 := 0x0, n2 := .one, reset := 0x0, dom := .aon, group := 11 }
  | .PWR_FENCE_LO => { base := 0x900020, s1 := 0x0, n1 := .one, s2 := 0x0, n2 := .one, reset := 0x0, dom := .aon, group := 11 }
  | .PWR_FENCE_HI => { base := 0x900024, s1 := 0x0, n1 := .one, s2 := 0x0, n2 := .one, reset := 0x0, dom := .aon, group := 11 }
  | .PWR_ERR => { base := 0x900028, s1 := 0x0, n1 := .one, s2 := 0x0, n2 := .one, reset := 0x0, dom := .aon, group := 11, w1c := 0x3F }
  | .PWR_ZONE_z_CFG => { base := 0x900100, s1 := 0x8, n1 := (.k 13), s2 := 0x0, n2 := .one, reset := 0x5A6935F, dom := .aon, group := 11, rws := 0xFFFFFFF }
  | .PWR_ZONE_z_STATE => { base := 0x900104, s1 := 0x8, n1 := (.k 13), s2 := 0x0, n2 := .one, reset := 0x0, dom := .aon, group := 11 }
  | .PWR_SENSOR_i => { base := 0x900200, s1 := 0x4, n1 := (.k 32), s2 := 0x0, n2 := .one, reset := 0xF, dom := .aon, group := 11, rws := 0xF }
  | .BOOT_STATE => { base := 0x100, s1 := 0x0, n1 := .one, s2 := 0x0, n2 := .one, reset := 0x0, dom := .aon, group := 0 }
  | .BOOT_SEQ_A => { base := 0x104, s1 := 0x0, n1 := .one, s2 := 0x0, n2 := .one, reset := 0x0, dom := .aon, group := 0 }
  | .BOOT_SEQ_B => { base := 0x108, s1 := 0x0, n1 := .one, s2 := 0x0, n2 := .one, reset := 0x0, dom := .aon, group := 0 }
  | .BOOT_VER => { base := 0x10C, s1 := 0x0, n1 := .one, s2 := 0x0, n2 := .one, reset := 0x0, dom := .aon, group := 0 }
  | .BOOT_SPI => { base := 0x110, s1 := 0x0, n1 := .one, s2 := 0x0, n2 := .one, reset := 0x0, dom := .aon, group := 0 }
  | .BOOT_WRITE => { base := 0x114, s1 := 0x0, n1 := .one, s2 := 0x0, n2 := .one, reset := 0x0, dom := .aon, group := 0 }
  | .LC_STATE => { base := 0x118, s1 := 0x0, n1 := .one, s2 := 0x0, n2 := .one, reset := 0x0, dom := .aon, group := 0 }
  | .TELE_WIN => { base := 0xA00000, s1 := 0x0, n1 := .one, s2 := 0x0, n2 := .one, reset := 0x0, dom := .tele, group := 12 }
  | .TELE_CNT_n_LO => { base := 0xA01000, s1 := 0x8, n1 := (.k 1472), s2 := 0x0, n2 := .one, reset := 0x0, dom := .tele, group := 12 }
  | .TELE_CNT_n_HI => { base := 0xA01004, s1 := 0x8, n1 := (.k 1472), s2 := 0x0, n2 := .one, reset := 0x0, dom := .tele, group := 12 }
  | .TELE_LAT_p_BIN_i => { base := 0xA04000, s1 := 0x100, n1 := .ports, s2 := 0x4, n2 := (.k 32), reset := 0x0, dom := .tele, group := 12 }
  | .TELE_LAT_p_MIN => { base := 0xA04080, s1 := 0x100, n1 := .ports, s2 := 0x0, n2 := .one, reset := 0xFFFFFFFF, dom := .tele, group := 12 }
  | .TELE_LAT_p_MAX => { base := 0xA04084, s1 := 0x100, n1 := .ports, s2 := 0x0, n2 := .one, reset := 0x0, dom := .tele, group := 12 }
  | .TELE_LAT_p_COUNT => { base := 0xA04088, s1 := 0x100, n1 := .ports, s2 := 0x0, n2 := .one, reset := 0x0, dom := .tele, group := 12 }
  | .TELE_DRT_c_BIN_i => { base := 0xA08000, s1 := 0x40, n1 := .ddr, s2 := 0x4, n2 := (.k 16), reset := 0x0, dom := .tele, group := 12 }
  | .TELE_MQ_g_BIN_i => { base := 0xA08400, s1 := 0x40, n1 := .groups, s2 := 0x4, n2 := (.k 16), reset := 0x0, dom := .tele, group := 12 }
  | .TELE_CFG => { base := 0xA10000, s1 := 0x0, n1 := .one, s2 := 0x0, n2 := .one, reset := 0x0, dom := .tele, group := 12, rwb := 0x1 }
  | .TELE_LVL_CFG => { base := 0xA10004, s1 := 0x0, n1 := .one, s2 := 0x0, n2 := .one, reset := 0x201, dom := .tele, group := 12, rws := 0x7FF }
  | .TELE_EVT_STATE => { base := 0xA10008, s1 := 0x0, n1 := .one, s2 := 0x0, n2 := .one, reset := 0x0, dom := .tele, group := 12 }
  | .TELE_ERR => { base := 0xA1000C, s1 := 0x0, n1 := .one, s2 := 0x0, n2 := .one, reset := 0x0, dom := .tele, group := 12, w1c := 0xF }
  | .TELE_AON_LOST => { base := 0xA10010, s1 := 0x0, n1 := .one, s2 := 0x0, n2 := .one, reset := 0x0, dom := .aon, group := 12 }
  | .TELE_CSEL_n => { base := 0xA11000, s1 := 0x4, n1 := (.k 1472), s2 := 0x0, n2 := .one, reset := 0x0, dom := .tele, group := 12, rws := 0x3 }
  | .TELE_OVF_k => { base := 0xA13000, s1 := 0x4, n1 := (.k 46), s2 := 0x0, n2 := .one, reset := 0x0, dom := .tele, group := 12, w1c := 0xFFFFFFFF }
  | .TELE_HIST_CFG_p => { base := 0xA14000, s1 := 0x4, n1 := .ports, s2 := 0x0, n2 := .one, reset := 0x28050F0, dom := .tele, group := 12, rws := 0xFFFFFF7 }
  | .BLOCK_ID => { base := 0x0, s1 := 0x0, n1 := .one, s2 := 0x0, n2 := .one, reset := 0x7A50111, dom := .aon, group := 0 }
  | .BLOCK_CAP => { base := 0x4, s1 := 0x0, n1 := .one, s2 := 0x0, n2 := .one, reset := 0x8481040, dom := .aon, group := 0 }
  | .GLB_STATUS => { base := 0x8, s1 := 0x0, n1 := .one, s2 := 0x0, n2 := .one, reset := 0x0, dom := .aon, group := 0 }
  | .GLB_DEADBOLT => { base := 0x10, s1 := 0x0, n1 := .one, s2 := 0x0, n2 := .one, reset := 0x0, dom := .aon, group := 0, w1s := 0x3FFF }
  | .GLB_TEST => { base := 0x14, s1 := 0x0, n1 := .one, s2 := 0x0, n2 := .one, reset := 0x1, dom := .aon, group := 0, rwb := 0x1 }
  | .GLB_LATCH => { base := 0x20, s1 := 0x0, n1 := .one, s2 := 0x0, n2 := .one, reset := 0x0, dom := .aon, group := 0 }
  | .GLB_LATCH_CTRL => { base := 0x24, s1 := 0x0, n1 := .one, s2 := 0x0, n2 := .one, reset := 0x0, dom := .aon, group := 0, rw := 0x1 }
  | .GLB_UNIT_RESET => { base := 0x28, s1 := 0x0, n1 := .one, s2 := 0x0, n2 := .one, reset := 0x0, dom := .aon, group := 0, wo := 0x3 }
  | .GLB_ERR => { base := 0x2C, s1 := 0x0, n1 := .one, s2 := 0x0, n2 := .one, reset := 0x0, dom := .aon, group := 0, w1c := 0x3 }
  | .GLB_UNMAPPED => { base := 0x30, s1 := 0x0, n1 := .one, s2 := 0x0, n2 := .one, reset := 0x0, dom := .aon, group := 0 }
  | .GLB_SCRATCH_k => { base := 0x40, s1 := 0x4, n1 := (.k 4), s2 := 0x0, n2 := .one, reset := 0x0, dom := .aon, group := 0, rw := 0xFFFFFFFF }

/-- Part 0 of the list of all registers. -/
def Reg.all0 : List Reg :=
  [.PORT_n_CFG, .PORT_n_CREDIT_HDR, .PORT_n_CREDIT_DATA, .PORT_n_CTRL, .PORT_n_STATE, .PORT_n_ERR, .PORT_n_ERRCNT, .PORT_n_ORD, .CTX_IDX, .CTX_CMD, .CTX_STAT, .CTX_DATA_0, .CTX_DATA_1, .CTX_DATA_2, .CTX_DATA_3, .CTX_DATA_4, .CTX_WRCNT, .KEY_PORT_STATE, .KEY_LOADED, .KEY_SLOT_MAP_k, .RGL_PORT_p_CLASS, .RGL_PORT_p_TOKEN_0, .RGL_PORT_p_TOKEN_1, .RGL_PORT_p_TOKEN_2, .RGL_PORT_p_TOKEN_3, .RGL_PORT_p_SCALE, .RGL_PORT_p_HELD, .RGL_PORT_p_BW_RD, .RGL_PORT_p_BW_WR, .RGL_PORT_p_BW_HELD, .RGL_PSET_k_LO, .RGL_PSET_k_HI, .RGL_BW_WINDOW, .RGL_OVB_STATE, .RGL_ERR, .RGL_OVH_IDX, .RGL_OVH_DATA, .RGL_TT_IDX, .RGL_TT_DATA, .STG_GEOM, .STG_HASH, .STG_BUDGET, .STG_DESTAGE, .STG_EPOCH, .STG_EVAC, .STG_HOME_LO, .STG_HOME_HI, .STG_TOTAL_DIRTY, .STG_ERR, .STG_SEALED]
/-- Part 1 of the list of all registers. -/
def Reg.all1 : List Reg :=
  [.STG_SLICE_c_DIRTY, .STG_SLICE_c_SHARE, .STG_SLICE_c_BOOK, .STG_SLICE_c_QUEUE, .DDR5_n_GEOM, .DDR5_n_STATE, .DDR5_n_REF, .DDR5_n_SCHED, .DDR5_n_THERM, .DDR5_n_RFM, .DDR5_n_BOUND, .DDR5_n_ALERT, .DDR5_n_ERR, .DDR5_n_TIM_k, .DDR5_n_PATCH_u_e_LO, .DDR5_n_PATCH_u_e_HI, .DDR5_n_PHY_CFG, .DDR5_n_PHY_STATE, .DDR5_n_TRAIN, .DDR5_n_RETRAIN, .DDR5_n_PHY_ERR, .DDR5_n_CRC, .DDR5_n_MARGIN, .DDR5_n_SPD_IDX, .DDR5_n_SPD_DATA, .DDR5_n_HUB, .DDR5_n_OSC_u_r, .CEX_n_STATE, .CEX_n_CFG, .CEX_n_LINK, .CEX_n_TRAIN, .CEX_n_ERR, .CEX_n_SUSP, .CEX_n_LATE, .CEX_n_DIE_d, .CEX_n_ID_IDX, .CEX_n_ID_DATA, .MS_g_STATE, .MS_g_CFG, .MS_g_BOUND, .MS_g_READS, .MS_g_CUTS, .MS_g_WRITES, .MS_g_ERR, .HNG_IDX, .HNG_CMD, .HNG_STAT, .HNG_DATA_0, .HNG_DATA_1, .HNG_CFG]
/-- Part 2 of the list of all registers. -/
def Reg.all2 : List Reg :=
  [.HNG_WEAR, .HNG_CKPT, .HNG_POOL, .HNG_RAW, .HNG_RETIRED, .HNG_DEAD, .HNG_JRNL, .HNG_JSEQ, .HNG_MOVES, .HNG_ERR, .HNG_SLOT_s_A, .HNG_SLOT_s_B, .HNG_SLOT_s_C, .HNG_SLOT_s_D, .HNG_GROUP_s, .DRF_EPOCH, .DRF_CFG, .DRF_BKT_LO, .DRF_BKT_HI, .DRF_WEAR, .DRF_WOFS_w, .DRF_TEMP, .DRF_MAP_IDX, .DRF_MAP_DATA, .DRF_AGE_IDX, .DRF_AGE_DATA, .DRF_STAT, .DRF_REROLL, .DRF_SPLIT, .DRF_ERR, .INT_CFG, .INT_ERR, .INT_POISON, .INT_PLOG_LO, .INT_PLOG_HI, .INT_REPAIR, .INT_RQ, .INT_SRAM, .INT_SCRUB_DDR_LIMIT, .INT_SCRUB_CEX_LIMIT, .INT_CODEC, .INT_DDR_n_LAP, .INT_DDR_n_PROG, .INT_DDR_n_CNT, .INT_DDR_n_DEV, .INT_DDR_n_CAND_LO, .INT_DDR_n_CAND_HI, .INT_DDR_n_ERR, .INT_CEX_n_LAP, .INT_CEX_n_PROG]
/-- Part 3 of the list of all registers. -/
def Reg.all3 : List Reg :=
  [.INT_CEX_n_CNT, .INT_CEX_n_PFAIL, .INT_CEX_n_ERR, .INT_CEX_n_PATCH_e_LO, .INT_CEX_n_PATCH_e_HI, .MNT_IDX, .MNT_RANK, .MNT_BYE, .MNT_STATE, .MNT_GRANTS, .MNT_WAIT, .MNT_LONGEST, .MNT_FLOOR, .MNT_ERR, .LDG_STATE, .LDG_EPOCH_k, .LDG_AUDIT, .LDG_AUDIT_INST, .LDG_AUDIT_DIFF, .LDG_PORT_IDX, .LDG_PORT_ACC, .LDG_PORT_DONE, .LDG_ERR, .RNG_r_SQ_BASE_LO, .RNG_r_SQ_BASE_HI, .RNG_r_CQ_BASE_LO, .RNG_r_CQ_BASE_HI, .RNG_r_CFG, .RNG_r_IRQ, .RNG_r_SQ_TAIL, .RNG_r_CQ_HEAD, .RNG_r_STATE, .RNG_r_CQ_TAIL, .RNG_r_CTRL, .RNG_r_ERR, .RNG_NT_BASE_LO, .RNG_NT_BASE_HI, .RNG_NT_CFG, .RNG_NT_IRQ, .RNG_NT_HEAD, .RNG_NT_TAIL, .RNG_NT_LOST, .RNG_NT_CTRL, .RNG_NT_ERR, .RNG_IRQ_MASK_k, .RNG_IRQ_PEND_k, .RNG_ERR_VEC, .PWR_MODE, .PWR_CFG, .PWR_THERM]
/-- Part 4 of the list of all registers. -/
def Reg.all4 : List Reg :=
  [.PWR_BUDGET, .PWR_ESTIMATE, .PWR_DRAIN, .PWR_DOMAIN_LO, .PWR_DOMAIN_HI, .PWR_FENCE_LO, .PWR_FENCE_HI, .PWR_ERR, .PWR_ZONE_z_CFG, .PWR_ZONE_z_STATE, .PWR_SENSOR_i, .BOOT_STATE, .BOOT_SEQ_A, .BOOT_SEQ_B, .BOOT_VER, .BOOT_SPI, .BOOT_WRITE, .LC_STATE, .TELE_WIN, .TELE_CNT_n_LO, .TELE_CNT_n_HI, .TELE_LAT_p_BIN_i, .TELE_LAT_p_MIN, .TELE_LAT_p_MAX, .TELE_LAT_p_COUNT, .TELE_DRT_c_BIN_i, .TELE_MQ_g_BIN_i, .TELE_CFG, .TELE_LVL_CFG, .TELE_EVT_STATE, .TELE_ERR, .TELE_AON_LOST, .TELE_CSEL_n, .TELE_OVF_k, .TELE_HIST_CFG_p, .BLOCK_ID, .BLOCK_CAP, .GLB_STATUS, .GLB_DEADBOLT, .GLB_TEST, .GLB_LATCH, .GLB_LATCH_CTRL, .GLB_UNIT_RESET, .GLB_ERR, .GLB_UNMAPPED, .GLB_SCRATCH_k]
/-- Every register, in table order. -/
def Reg.all : List Reg := Reg.all0 ++ Reg.all1 ++ Reg.all2 ++ Reg.all3 ++ Reg.all4

/-- A field: its register, lowest bit and width. -/
structure Fld where
  reg : Reg
  lo : Nat
  w : Nat
deriving DecidableEq, Repr

def F.PORT_n_CFG_enable : Fld := ⟨.PORT_n_CFG, 0, 1⟩
def F.PORT_n_CFG_flush_all : Fld := ⟨.PORT_n_CFG, 1, 1⟩
def F.PORT_n_CREDIT_HDR_pool_0 : Fld := ⟨.PORT_n_CREDIT_HDR, 0, 8⟩
def F.PORT_n_CREDIT_DATA_pool_0 : Fld := ⟨.PORT_n_CREDIT_DATA, 0, 8⟩
def F.PORT_n_CREDIT_HDR_pool_1 : Fld := ⟨.PORT_n_CREDIT_HDR, 8, 8⟩
def F.PORT_n_CREDIT_DATA_pool_1 : Fld := ⟨.PORT_n_CREDIT_DATA, 8, 8⟩
def F.PORT_n_CREDIT_HDR_pool_2 : Fld := ⟨.PORT_n_CREDIT_HDR, 16, 8⟩
def F.PORT_n_CREDIT_DATA_pool_2 : Fld := ⟨.PORT_n_CREDIT_DATA, 16, 8⟩
def F.PORT_n_CREDIT_HDR_pool_3 : Fld := ⟨.PORT_n_CREDIT_HDR, 24, 8⟩
def F.PORT_n_CREDIT_DATA_pool_3 : Fld := ⟨.PORT_n_CREDIT_DATA, 24, 8⟩
def F.PORT_n_CTRL_reopen : Fld := ⟨.PORT_n_CTRL, 0, 1⟩
def F.PORT_n_STATE_state : Fld := ⟨.PORT_n_STATE, 0, 2⟩
def F.PORT_n_STATE_hdr_used : Fld := ⟨.PORT_n_STATE, 8, 8⟩
def F.PORT_n_STATE_data_used : Fld := ⟨.PORT_n_STATE, 16, 8⟩
def F.PORT_n_ERR_hdr_check : Fld := ⟨.PORT_n_ERR, 0, 1⟩
def F.PORT_n_ERR_overrun : Fld := ⟨.PORT_n_ERR, 1, 1⟩
def F.PORT_n_ERR_stray_data : Fld := ⟨.PORT_n_ERR, 2, 1⟩
def F.PORT_n_ERR_bad_kind : Fld := ⟨.PORT_n_ERR, 3, 1⟩
def F.PORT_n_ERR_data_parity : Fld := ⟨.PORT_n_ERR, 4, 1⟩
def F.PORT_n_ERR_short_data : Fld := ⟨.PORT_n_ERR, 5, 1⟩
def F.PORT_n_ERR_dup_tag : Fld := ⟨.PORT_n_ERR, 6, 1⟩
def F.PORT_n_ERR_malformed : Fld := ⟨.PORT_n_ERR, 7, 1⟩
def F.PORT_n_ERR_credit_cfg : Fld := ⟨.PORT_n_ERR, 8, 1⟩
def F.PORT_n_ERR_not_ready : Fld := ⟨.PORT_n_ERR, 9, 1⟩
def F.PORT_n_ERRCNT_rejected : Fld := ⟨.PORT_n_ERRCNT, 0, 16⟩
def F.PORT_n_ERRCNT_malformed : Fld := ⟨.PORT_n_ERRCNT, 16, 16⟩
def F.PORT_n_ORD_next : Fld := ⟨.PORT_n_ORD, 0, 16⟩
def F.CTX_IDX_handle : Fld := ⟨.CTX_IDX, 0, 20⟩
def F.CTX_CMD_read : Fld := ⟨.CTX_CMD, 0, 1⟩
def F.CTX_STAT_busy : Fld := ⟨.CTX_STAT, 0, 1⟩
def F.CTX_STAT_staged : Fld := ⟨.CTX_STAT, 1, 1⟩
def F.CTX_WRCNT_count : Fld := ⟨.CTX_WRCNT, 0, 14⟩
def F.KEY_PORT_STATE_state : Fld := ⟨.KEY_PORT_STATE, 0, 2⟩
def F.KEY_PORT_STATE_ack_late : Fld := ⟨.KEY_PORT_STATE, 2, 1⟩
def F.KEY_PORT_STATE_last_seq : Fld := ⟨.KEY_PORT_STATE, 8, 8⟩
def F.KEY_PORT_STATE_last_result : Fld := ⟨.KEY_PORT_STATE, 16, 8⟩
def F.KEY_PORT_STATE_last_type : Fld := ⟨.KEY_PORT_STATE, 24, 8⟩
def F.KEY_LOADED_count : Fld := ⟨.KEY_LOADED, 0, 11⟩
def F.KEY_SLOT_MAP_k_loaded : Fld := ⟨.KEY_SLOT_MAP_k, 0, 32⟩
def F.RGL_PORT_p_CLASS_class : Fld := ⟨.RGL_PORT_p_CLASS, 0, 2⟩
def F.RGL_PORT_p_CLASS_c2_prio : Fld := ⟨.RGL_PORT_p_CLASS, 2, 2⟩
def F.RGL_PORT_p_TOKEN_0_rate : Fld := ⟨.RGL_PORT_p_TOKEN_0, 0, 12⟩
def F.RGL_PORT_p_TOKEN_1_rate : Fld := ⟨.RGL_PORT_p_TOKEN_1, 0, 12⟩
def F.RGL_PORT_p_TOKEN_2_rate : Fld := ⟨.RGL_PORT_p_TOKEN_2, 0, 12⟩
def F.RGL_PORT_p_TOKEN_3_rate : Fld := ⟨.RGL_PORT_p_TOKEN_3, 0, 12⟩
def F.RGL_PORT_p_TOKEN_0_unlimited : Fld := ⟨.RGL_PORT_p_TOKEN_0, 12, 1⟩
def F.RGL_PORT_p_TOKEN_1_unlimited : Fld := ⟨.RGL_PORT_p_TOKEN_1, 12, 1⟩
def F.RGL_PORT_p_TOKEN_2_unlimited : Fld := ⟨.RGL_PORT_p_TOKEN_2, 12, 1⟩
def F.RGL_PORT_p_TOKEN_3_unlimited : Fld := ⟨.RGL_PORT_p_TOKEN_3, 12, 1⟩
def F.RGL_PORT_p_TOKEN_0_depth : Fld := ⟨.RGL_PORT_p_TOKEN_0, 16, 10⟩
def F.RGL_PORT_p_TOKEN_1_depth : Fld := ⟨.RGL_PORT_p_TOKEN_1, 16, 10⟩
def F.RGL_PORT_p_TOKEN_2_depth : Fld := ⟨.RGL_PORT_p_TOKEN_2, 16, 10⟩
def F.RGL_PORT_p_TOKEN_3_depth : Fld := ⟨.RGL_PORT_p_TOKEN_3, 16, 10⟩
def F.RGL_PORT_p_SCALE_c0 : Fld := ⟨.RGL_PORT_p_SCALE, 0, 4⟩
def F.RGL_PORT_p_SCALE_c1 : Fld := ⟨.RGL_PORT_p_SCALE, 4, 4⟩
def F.RGL_PORT_p_BW_RD_count : Fld := ⟨.RGL_PORT_p_BW_RD, 0, 32⟩
def F.RGL_PORT_p_BW_WR_count : Fld := ⟨.RGL_PORT_p_BW_WR, 0, 32⟩
def F.RGL_PORT_p_BW_HELD_count : Fld := ⟨.RGL_PORT_p_BW_HELD, 0, 32⟩
def F.RGL_PSET_k_LO_ports : Fld := ⟨.RGL_PSET_k_LO, 0, 32⟩
def F.RGL_PSET_k_HI_ports : Fld := ⟨.RGL_PSET_k_HI, 0, 32⟩
def F.RGL_BW_WINDOW_rounds : Fld := ⟨.RGL_BW_WINDOW, 0, 16⟩
def F.RGL_OVB_STATE_overbooked : Fld := ⟨.RGL_OVB_STATE, 0, 1⟩
def F.RGL_OVB_STATE_unmet : Fld := ⟨.RGL_OVB_STATE, 1, 1⟩
def F.RGL_OVB_STATE_pending : Fld := ⟨.RGL_OVB_STATE, 2, 1⟩
def F.RGL_OVB_STATE_channels : Fld := ⟨.RGL_OVB_STATE, 8, 8⟩
def F.RGL_OVB_STATE_ports : Fld := ⟨.RGL_OVB_STATE, 16, 8⟩
def F.RGL_OVB_STATE_cause : Fld := ⟨.RGL_OVB_STATE, 24, 4⟩
def F.RGL_ERR_token_cfg : Fld := ⟨.RGL_ERR, 0, 1⟩
def F.RGL_ERR_c2_prio_cfg : Fld := ⟨.RGL_ERR, 1, 1⟩
def F.RGL_OVH_IDX_channel : Fld := ⟨.RGL_OVH_IDX, 0, 7⟩
def F.RGL_OVH_IDX_media : Fld := ⟨.RGL_OVH_IDX, 7, 1⟩
def F.RGL_OVH_DATA_ref : Fld := ⟨.RGL_OVH_DATA, 0, 8⟩
def F.RGL_OVH_DATA_maint : Fld := ⟨.RGL_OVH_DATA, 8, 8⟩
def F.RGL_OVH_DATA_thr : Fld := ⟨.RGL_OVH_DATA, 16, 8⟩
def F.RGL_OVH_DATA_usable : Fld := ⟨.RGL_OVH_DATA, 24, 7⟩
def F.RGL_OVH_DATA_in_service : Fld := ⟨.RGL_OVH_DATA, 31, 1⟩
def F.RGL_TT_IDX_channel : Fld := ⟨.RGL_TT_IDX, 0, 7⟩
def F.RGL_TT_IDX_media : Fld := ⟨.RGL_TT_IDX, 7, 1⟩
def F.RGL_TT_IDX_entry : Fld := ⟨.RGL_TT_IDX, 8, 7⟩
def F.RGL_TT_DATA_entry : Fld := ⟨.RGL_TT_DATA, 0, 8⟩
def F.RGL_TT_DATA_dropped : Fld := ⟨.RGL_TT_DATA, 8, 1⟩
def F.STG_GEOM_rows_log2 : Fld := ⟨.STG_GEOM, 0, 5⟩
def F.STG_GEOM_rk_log2 : Fld := ⟨.STG_GEOM, 5, 3⟩
def F.STG_GEOM_sets_log2 : Fld := ⟨.STG_GEOM, 8, 5⟩
def F.STG_HASH_seed : Fld := ⟨.STG_HASH, 0, 32⟩
def F.STG_BUDGET_units : Fld := ⟨.STG_BUDGET, 0, 13⟩
def F.STG_DESTAGE_high : Fld := ⟨.STG_DESTAGE, 0, 4⟩
def F.STG_DESTAGE_full_age : Fld := ⟨.STG_DESTAGE, 4, 16⟩
def F.STG_EPOCH_e : Fld := ⟨.STG_EPOCH, 0, 4⟩
def F.STG_EPOCH_live : Fld := ⟨.STG_EPOCH, 4, 16⟩
def F.STG_EPOCH_advance_wait : Fld := ⟨.STG_EPOCH, 20, 1⟩
def F.STG_EVAC_state : Fld := ⟨.STG_EVAC, 0, 2⟩
def F.STG_EVAC_channel : Fld := ⟨.STG_EVAC, 2, 4⟩
def F.STG_EVAC_partner : Fld := ⟨.STG_EVAC, 6, 4⟩
def F.STG_EVAC_hold : Fld := ⟨.STG_EVAC, 10, 1⟩
def F.STG_TOTAL_DIRTY_lines : Fld := ⟨.STG_TOTAL_DIRTY, 0, 32⟩
def F.STG_ERR_budget_cfg : Fld := ⟨.STG_ERR, 0, 1⟩
def F.STG_ERR_sealed : Fld := ⟨.STG_ERR, 1, 1⟩
def F.STG_SEALED_set : Fld := ⟨.STG_SEALED, 0, 27⟩
def F.STG_SEALED_channel : Fld := ⟨.STG_SEALED, 27, 4⟩
def F.STG_SEALED_valid : Fld := ⟨.STG_SEALED, 31, 1⟩
def F.STG_SLICE_c_DIRTY_lines : Fld := ⟨.STG_SLICE_c_DIRTY, 0, 32⟩
def F.STG_SLICE_c_SHARE_lines : Fld := ⟨.STG_SLICE_c_SHARE, 0, 32⟩
def F.STG_SLICE_c_BOOK_booked : Fld := ⟨.STG_SLICE_c_BOOK, 0, 8⟩
def F.STG_SLICE_c_BOOK_pinned : Fld := ⟨.STG_SLICE_c_BOOK, 8, 8⟩
def F.STG_SLICE_c_QUEUE_full_list : Fld := ⟨.STG_SLICE_c_QUEUE, 0, 13⟩
def F.STG_SLICE_c_QUEUE_urgent : Fld := ⟨.STG_SLICE_c_QUEUE, 13, 6⟩
def F.STG_SLICE_c_QUEUE_fills : Fld := ⟨.STG_SLICE_c_QUEUE, 19, 7⟩
def F.DDR5_n_GEOM_rate : Fld := ⟨.DDR5_n_GEOM, 0, 4⟩
def F.DDR5_n_GEOM_dimms_log2 : Fld := ⟨.DDR5_n_GEOM, 4, 1⟩
def F.DDR5_n_GEOM_pranks_log2 : Fld := ⟨.DDR5_n_GEOM, 5, 1⟩
def F.DDR5_n_GEOM_lranks_log2 : Fld := ⟨.DDR5_n_GEOM, 6, 2⟩
def F.DDR5_n_GEOM_rows_log2 : Fld := ⟨.DDR5_n_GEOM, 8, 5⟩
def F.DDR5_n_GEOM_density : Fld := ⟨.DDR5_n_GEOM, 13, 2⟩
def F.DDR5_n_STATE_state : Fld := ⟨.DDR5_n_STATE, 0, 3⟩
def F.DDR5_n_STATE_rate_2x : Fld := ⟨.DDR5_n_STATE, 3, 1⟩
def F.DDR5_n_STATE_rate_4x : Fld := ⟨.DDR5_n_STATE, 4, 1⟩
def F.DDR5_n_STATE_drain : Fld := ⟨.DDR5_n_STATE, 5, 1⟩
def F.DDR5_n_STATE_backoff : Fld := ⟨.DDR5_n_STATE, 6, 1⟩
def F.DDR5_n_STATE_ref : Fld := ⟨.DDR5_n_STATE, 8, 8⟩
def F.DDR5_n_REF_mode : Fld := ⟨.DDR5_n_REF, 0, 2⟩
def F.DDR5_n_SCHED_close_idle : Fld := ⟨.DDR5_n_SCHED, 0, 8⟩
def F.DDR5_n_SCHED_wq_high : Fld := ⟨.DDR5_n_SCHED, 8, 6⟩
def F.DDR5_n_SCHED_wq_low : Fld := ⟨.DDR5_n_SCHED, 14, 6⟩
def F.DDR5_n_SCHED_wq_age : Fld := ⟨.DDR5_n_SCHED, 20, 8⟩
def F.DDR5_n_THERM_limit : Fld := ⟨.DDR5_n_THERM, 0, 8⟩
def F.DDR5_n_THERM_period : Fld := ⟨.DDR5_n_THERM, 8, 4⟩
def F.DDR5_n_THERM_temp_max : Fld := ⟨.DDR5_n_THERM, 12, 8⟩
def F.DDR5_n_RFM_required : Fld := ⟨.DDR5_n_RFM, 0, 1⟩
def F.DDR5_n_RFM_raaimt : Fld := ⟨.DDR5_n_RFM, 1, 8⟩
def F.DDR5_n_RFM_raammt : Fld := ⟨.DDR5_n_RFM, 9, 10⟩
def F.DDR5_n_RFM_abo_count : Fld := ⟨.DDR5_n_RFM, 19, 3⟩
def F.DDR5_n_BOUND_ns : Fld := ⟨.DDR5_n_BOUND, 0, 10⟩
def F.DDR5_n_BOUND_kind : Fld := ⟨.DDR5_n_BOUND, 10, 1⟩
def F.DDR5_n_BOUND_pset : Fld := ⟨.DDR5_n_BOUND, 11, 4⟩
def F.DDR5_n_BOUND_over : Fld := ⟨.DDR5_n_BOUND, 15, 1⟩
def F.DDR5_n_BOUND_w : Fld := ⟨.DDR5_n_BOUND, 16, 8⟩
def F.DDR5_n_ALERT_backoffs : Fld := ⟨.DDR5_n_ALERT, 0, 16⟩
def F.DDR5_n_ALERT_rfms : Fld := ⟨.DDR5_n_ALERT, 16, 16⟩
def F.DDR5_n_ERR_sched_cfg : Fld := ⟨.DDR5_n_ERR, 0, 1⟩
def F.DDR5_n_ERR_over : Fld := ⟨.DDR5_n_ERR, 1, 1⟩
def F.DDR5_n_ERR_rate_4x : Fld := ⟨.DDR5_n_ERR, 2, 1⟩
def F.DDR5_n_ERR_backoff : Fld := ⟨.DDR5_n_ERR, 3, 1⟩
def F.DDR5_n_ERR_patch_full : Fld := ⟨.DDR5_n_ERR, 4, 1⟩
def F.DDR5_n_PATCH_u_e_LO_valid : Fld := ⟨.DDR5_n_PATCH_u_e_LO, 0, 1⟩
def F.DDR5_n_PATCH_u_e_LO_poisoned : Fld := ⟨.DDR5_n_PATCH_u_e_LO, 1, 1⟩
def F.DDR5_n_PATCH_u_e_LO_rank : Fld := ⟨.DDR5_n_PATCH_u_e_LO, 2, 4⟩
def F.DDR5_n_PATCH_u_e_LO_bank : Fld := ⟨.DDR5_n_PATCH_u_e_LO, 6, 5⟩
def F.DDR5_n_PATCH_u_e_LO_burst : Fld := ⟨.DDR5_n_PATCH_u_e_LO, 11, 7⟩
def F.DDR5_n_PATCH_u_e_HI_row : Fld := ⟨.DDR5_n_PATCH_u_e_HI, 0, 18⟩
def F.DDR5_n_PHY_CFG_rd_min : Fld := ⟨.DDR5_n_PHY_CFG, 0, 6⟩
def F.DDR5_n_PHY_CFG_wr_min : Fld := ⟨.DDR5_n_PHY_CFG, 8, 6⟩
def F.DDR5_n_PHY_CFG_vref_min : Fld := ⟨.DDR5_n_PHY_CFG, 16, 4⟩
def F.DDR5_n_PHY_STATE_write_crc : Fld := ⟨.DDR5_n_PHY_STATE, 0, 1⟩
def F.DDR5_n_PHY_STATE_i3c : Fld := ⟨.DDR5_n_PHY_STATE, 1, 1⟩
def F.DDR5_n_PHY_STATE_dimms : Fld := ⟨.DDR5_n_PHY_STATE, 2, 2⟩
def F.DDR5_n_TRAIN_step : Fld := ⟨.DDR5_n_TRAIN, 0, 4⟩
def F.DDR5_n_TRAIN_result : Fld := ⟨.DDR5_n_TRAIN, 4, 4⟩
def F.DDR5_n_TRAIN_subch : Fld := ⟨.DDR5_n_TRAIN, 8, 1⟩
def F.DDR5_n_TRAIN_rank : Fld := ⟨.DDR5_n_TRAIN, 9, 2⟩
def F.DDR5_n_TRAIN_device : Fld := ⟨.DDR5_n_TRAIN, 11, 4⟩
def F.DDR5_n_TRAIN_lane : Fld := ⟨.DDR5_n_TRAIN, 15, 2⟩
def F.DDR5_n_TRAIN_time : Fld := ⟨.DDR5_n_TRAIN, 24, 8⟩
def F.DDR5_n_RETRAIN_period : Fld := ⟨.DDR5_n_RETRAIN, 0, 8⟩
def F.DDR5_n_RETRAIN_limit : Fld := ⟨.DDR5_n_RETRAIN, 8, 6⟩
def F.DDR5_n_PHY_ERR_spd_nack : Fld := ⟨.DDR5_n_PHY_ERR, 0, 1⟩
def F.DDR5_n_PHY_ERR_spd_crc : Fld := ⟨.DDR5_n_PHY_ERR, 1, 1⟩
def F.DDR5_n_PHY_ERR_hub_lost : Fld := ⟨.DDR5_n_PHY_ERR, 2, 1⟩
def F.DDR5_n_PHY_ERR_train_fail : Fld := ⟨.DDR5_n_PHY_ERR, 3, 1⟩
def F.DDR5_n_PHY_ERR_drift : Fld := ⟨.DDR5_n_PHY_ERR, 4, 1⟩
def F.DDR5_n_PHY_ERR_osc_zero : Fld := ⟨.DDR5_n_PHY_ERR, 5, 1⟩
def F.DDR5_n_PHY_ERR_crc_fail : Fld := ⟨.DDR5_n_PHY_ERR, 6, 1⟩
def F.DDR5_n_PHY_ERR_ppr_fail : Fld := ⟨.DDR5_n_PHY_ERR, 7, 1⟩
def F.DDR5_n_CRC_replays : Fld := ⟨.DDR5_n_CRC, 0, 16⟩
def F.DDR5_n_CRC_alerts : Fld := ⟨.DDR5_n_CRC, 16, 16⟩
def F.DDR5_n_MARGIN_left : Fld := ⟨.DDR5_n_MARGIN, 0, 8⟩
def F.DDR5_n_MARGIN_right : Fld := ⟨.DDR5_n_MARGIN, 8, 8⟩
def F.DDR5_n_MARGIN_rank : Fld := ⟨.DDR5_n_MARGIN, 16, 2⟩
def F.DDR5_n_MARGIN_subch : Fld := ⟨.DDR5_n_MARGIN, 18, 1⟩
def F.DDR5_n_MARGIN_device : Fld := ⟨.DDR5_n_MARGIN, 19, 4⟩
def F.DDR5_n_SPD_IDX_slot : Fld := ⟨.DDR5_n_SPD_IDX, 0, 1⟩
def F.DDR5_n_SPD_IDX_word : Fld := ⟨.DDR5_n_SPD_IDX, 1, 8⟩
def F.DDR5_n_SPD_DATA_bytes : Fld := ⟨.DDR5_n_SPD_DATA, 0, 32⟩
def F.DDR5_n_HUB_temp_0 : Fld := ⟨.DDR5_n_HUB, 0, 8⟩
def F.DDR5_n_HUB_temp_1 : Fld := ⟨.DDR5_n_HUB, 8, 8⟩
def F.DDR5_n_HUB_lost_0 : Fld := ⟨.DDR5_n_HUB, 16, 1⟩
def F.DDR5_n_HUB_lost_1 : Fld := ⟨.DDR5_n_HUB, 17, 1⟩
def F.DDR5_n_OSC_u_r_drift : Fld := ⟨.DDR5_n_OSC_u_r, 0, 8⟩
def F.DDR5_n_OSC_u_r_device : Fld := ⟨.DDR5_n_OSC_u_r, 8, 4⟩
def F.DDR5_n_OSC_u_r_runs : Fld := ⟨.DDR5_n_OSC_u_r, 16, 16⟩
def F.CEX_n_STATE_state : Fld := ⟨.CEX_n_STATE, 0, 2⟩
def F.CEX_n_STATE_failed : Fld := ⟨.CEX_n_STATE, 4, 8⟩
def F.CEX_n_STATE_susp : Fld := ⟨.CEX_n_STATE, 12, 8⟩
def F.CEX_n_STATE_pgm : Fld := ⟨.CEX_n_STATE, 20, 8⟩
def F.CEX_n_CFG_rd_min : Fld := ⟨.CEX_n_CFG, 0, 6⟩
def F.CEX_n_CFG_wr_min : Fld := ⟨.CEX_n_CFG, 8, 6⟩
def F.CEX_n_CFG_vref_min : Fld := ⟨.CEX_n_CFG, 16, 4⟩
def F.CEX_n_LINK_period : Fld := ⟨.CEX_n_LINK, 0, 8⟩
def F.CEX_n_LINK_probe : Fld := ⟨.CEX_n_LINK, 8, 6⟩
def F.CEX_n_LINK_zq_period : Fld := ⟨.CEX_n_LINK, 14, 6⟩
def F.CEX_n_LINK_temp_period : Fld := ⟨.CEX_n_LINK, 20, 4⟩
def F.CEX_n_TRAIN_step : Fld := ⟨.CEX_n_TRAIN, 0, 4⟩
def F.CEX_n_TRAIN_result : Fld := ⟨.CEX_n_TRAIN, 4, 4⟩
def F.CEX_n_TRAIN_die : Fld := ⟨.CEX_n_TRAIN, 8, 3⟩
def F.CEX_n_TRAIN_lane : Fld := ⟨.CEX_n_TRAIN, 11, 5⟩
def F.CEX_n_TRAIN_time : Fld := ⟨.CEX_n_TRAIN, 16, 8⟩
def F.CEX_n_ERR_late : Fld := ⟨.CEX_n_ERR, 0, 1⟩
def F.CEX_n_ERR_ca_par : Fld := ⟨.CEX_n_ERR, 1, 1⟩
def F.CEX_n_ERR_drift : Fld := ⟨.CEX_n_ERR, 2, 1⟩
def F.CEX_n_ERR_temp_invalid : Fld := ⟨.CEX_n_ERR, 3, 1⟩
def F.CEX_n_ERR_train_fail : Fld := ⟨.CEX_n_ERR, 4, 1⟩
def F.CEX_n_SUSP_count : Fld := ⟨.CEX_n_SUSP, 0, 16⟩
def F.CEX_n_SUSP_longest : Fld := ⟨.CEX_n_SUSP, 16, 16⟩
def F.CEX_n_LATE_late : Fld := ⟨.CEX_n_LATE, 0, 16⟩
def F.CEX_n_LATE_parity : Fld := ⟨.CEX_n_LATE, 16, 16⟩
def F.CEX_n_DIE_d_temp : Fld := ⟨.CEX_n_DIE_d, 0, 8⟩
def F.CEX_n_DIE_d_wdrift : Fld := ⟨.CEX_n_DIE_d, 8, 8⟩
def F.CEX_n_DIE_d_rdrift : Fld := ⟨.CEX_n_DIE_d, 16, 8⟩
def F.CEX_n_DIE_d_temp_valid : Fld := ⟨.CEX_n_DIE_d, 24, 1⟩
def F.CEX_n_DIE_d_failed : Fld := ⟨.CEX_n_DIE_d, 25, 1⟩
def F.CEX_n_DIE_d_busy : Fld := ⟨.CEX_n_DIE_d, 26, 1⟩
def F.CEX_n_ID_IDX_die : Fld := ⟨.CEX_n_ID_IDX, 0, 3⟩
def F.CEX_n_ID_IDX_word : Fld := ⟨.CEX_n_ID_IDX, 3, 5⟩
def F.CEX_n_ID_DATA_bytes : Fld := ⟨.CEX_n_ID_DATA, 0, 32⟩
def F.MS_g_STATE_phase : Fld := ⟨.MS_g_STATE, 0, 4⟩
def F.MS_g_STATE_degraded : Fld := ⟨.MS_g_STATE, 4, 8⟩
def F.MS_g_STATE_stripes : Fld := ⟨.MS_g_STATE, 12, 6⟩
def F.MS_g_CFG_batch_min : Fld := ⟨.MS_g_CFG, 0, 4⟩
def F.MS_g_CFG_batch_wait : Fld := ⟨.MS_g_CFG, 4, 8⟩
def F.MS_g_BOUND_ns : Fld := ⟨.MS_g_BOUND, 0, 10⟩
def F.MS_g_BOUND_n_a : Fld := ⟨.MS_g_BOUND, 10, 3⟩
def F.MS_g_BOUND_over : Fld := ⟨.MS_g_BOUND, 15, 1⟩
def F.MS_g_READS_detours : Fld := ⟨.MS_g_READS, 0, 16⟩
def F.MS_g_READS_parallel : Fld := ⟨.MS_g_READS, 16, 16⟩
def F.MS_g_CUTS_cuts : Fld := ⟨.MS_g_CUTS, 0, 16⟩
def F.MS_g_CUTS_drops : Fld := ⟨.MS_g_CUTS, 16, 16⟩
def F.MS_g_WRITES_full : Fld := ⟨.MS_g_WRITES, 0, 16⟩
def F.MS_g_WRITES_partial : Fld := ⟨.MS_g_WRITES, 16, 16⟩
def F.MS_g_ERR_over : Fld := ⟨.MS_g_ERR, 0, 1⟩
def F.MS_g_ERR_rmw_poison : Fld := ⟨.MS_g_ERR, 1, 1⟩
def F.MS_g_ERR_cut : Fld := ⟨.MS_g_ERR, 2, 1⟩
def F.HNG_IDX_index : Fld := ⟨.HNG_IDX, 0, 23⟩
def F.HNG_IDX_table : Fld := ⟨.HNG_IDX, 23, 1⟩
def F.HNG_CMD_read : Fld := ⟨.HNG_CMD, 0, 1⟩
def F.HNG_STAT_busy : Fld := ⟨.HNG_STAT, 0, 1⟩
def F.HNG_DATA_0_data : Fld := ⟨.HNG_DATA_0, 0, 32⟩
def F.HNG_DATA_1_data : Fld := ⟨.HNG_DATA_1, 0, 32⟩
def F.HNG_CFG_auto_rebuild : Fld := ⟨.HNG_CFG, 0, 1⟩
def F.HNG_CFG_format_bg : Fld := ⟨.HNG_CFG, 1, 1⟩
def F.HNG_CFG_reserve : Fld := ⟨.HNG_CFG, 16, 16⟩
def F.HNG_WEAR_step : Fld := ⟨.HNG_WEAR, 0, 16⟩
def F.HNG_WEAR_spread : Fld := ⟨.HNG_WEAR, 16, 16⟩
def F.HNG_CKPT_blocks : Fld := ⟨.HNG_CKPT, 0, 24⟩
def F.HNG_POOL_count : Fld := ⟨.HNG_POOL, 0, 18⟩
def F.HNG_RAW_count : Fld := ⟨.HNG_RAW, 0, 23⟩
def F.HNG_RETIRED_count : Fld := ⟨.HNG_RETIRED, 0, 23⟩
def F.HNG_DEAD_count : Fld := ⟨.HNG_DEAD, 0, 23⟩
def F.HNG_JRNL_since : Fld := ⟨.HNG_JRNL, 0, 24⟩
def F.HNG_JRNL_ckpt : Fld := ⟨.HNG_JRNL, 24, 1⟩
def F.HNG_JRNL_slot : Fld := ⟨.HNG_JRNL, 25, 1⟩
def F.HNG_JSEQ_seq : Fld := ⟨.HNG_JSEQ, 0, 32⟩
def F.HNG_MOVES_count : Fld := ⟨.HNG_MOVES, 0, 32⟩
def F.HNG_ERR_pool_low : Fld := ⟨.HNG_ERR, 0, 1⟩
def F.HNG_ERR_pool_empty : Fld := ⟨.HNG_ERR, 1, 1⟩
def F.HNG_ERR_rebuild_short : Fld := ⟨.HNG_ERR, 2, 1⟩
def F.HNG_ERR_group_lost : Fld := ⟨.HNG_ERR, 3, 1⟩
def F.HNG_ERR_retired : Fld := ⟨.HNG_ERR, 4, 1⟩
def F.HNG_ERR_sb_copy : Fld := ⟨.HNG_ERR, 5, 1⟩
def F.HNG_ERR_cfg : Fld := ⟨.HNG_ERR, 6, 1⟩
def F.HNG_SLOT_s_A_region : Fld := ⟨.HNG_SLOT_s_A, 0, 22⟩
def F.HNG_SLOT_s_A_cause : Fld := ⟨.HNG_SLOT_s_A, 22, 4⟩
def F.HNG_SLOT_s_A_active : Fld := ⟨.HNG_SLOT_s_A, 31, 1⟩
def F.HNG_SLOT_s_B_cursor : Fld := ⟨.HNG_SLOT_s_B, 0, 15⟩
def F.HNG_SLOT_s_B_jcursor : Fld := ⟨.HNG_SLOT_s_B, 16, 15⟩
def F.HNG_SLOT_s_C_prn : Fld := ⟨.HNG_SLOT_s_C, 0, 23⟩
def F.HNG_SLOT_s_D_prn : Fld := ⟨.HNG_SLOT_s_D, 0, 23⟩
def F.HNG_GROUP_s_state : Fld := ⟨.HNG_GROUP_s, 0, 2⟩
def F.HNG_GROUP_s_failed : Fld := ⟨.HNG_GROUP_s, 2, 4⟩
def F.HNG_GROUP_s_remaining : Fld := ⟨.HNG_GROUP_s, 6, 17⟩
def F.DRF_EPOCH_e : Fld := ⟨.DRF_EPOCH, 0, 8⟩
def F.DRF_EPOCH_held : Fld := ⟨.DRF_EPOCH, 8, 1⟩
def F.DRF_EPOCH_minutes : Fld := ⟨.DRF_EPOCH, 16, 16⟩
def F.DRF_CFG_epoch_min : Fld := ⟨.DRF_CFG, 0, 16⟩
def F.DRF_CFG_tally_max : Fld := ⟨.DRF_CFG, 16, 5⟩
def F.DRF_CFG_cal_min : Fld := ⟨.DRF_CFG, 21, 7⟩
def F.DRF_BKT_LO_l1_l6 : Fld := ⟨.DRF_BKT_LO, 0, 30⟩
def F.DRF_BKT_HI_l7 : Fld := ⟨.DRF_BKT_HI, 0, 5⟩
def F.DRF_BKT_HI_reroll_age : Fld := ⟨.DRF_BKT_HI, 5, 5⟩
def F.DRF_WOFS_w_ofs : Fld := ⟨.DRF_WOFS_w, 0, 32⟩
def F.DRF_TEMP_prog_hi : Fld := ⟨.DRF_TEMP, 0, 8⟩
def F.DRF_TEMP_prog_lo : Fld := ⟨.DRF_TEMP, 8, 8⟩
def F.DRF_TEMP_hyst : Fld := ⟨.DRF_TEMP, 16, 4⟩
def F.DRF_TEMP_fast : Fld := ⟨.DRF_TEMP, 20, 8⟩
def F.DRF_MAP_IDX_group : Fld := ⟨.DRF_MAP_IDX, 0, 6⟩
def F.DRF_MAP_IDX_wear : Fld := ⟨.DRF_MAP_IDX, 6, 2⟩
def F.DRF_MAP_DATA_codes : Fld := ⟨.DRF_MAP_DATA, 0, 32⟩
def F.DRF_AGE_IDX_value : Fld := ⟨.DRF_AGE_IDX, 0, 5⟩
def F.DRF_AGE_DATA_count : Fld := ⟨.DRF_AGE_DATA, 0, 23⟩
def F.DRF_STAT_deferred : Fld := ⟨.DRF_STAT, 0, 10⟩
def F.DRF_STAT_cal : Fld := ⟨.DRF_STAT, 10, 1⟩
def F.DRF_REROLL_age : Fld := ⟨.DRF_REROLL, 0, 16⟩
def F.DRF_REROLL_tally : Fld := ⟨.DRF_REROLL, 16, 16⟩
def F.DRF_SPLIT_third : Fld := ⟨.DRF_SPLIT, 0, 16⟩
def F.DRF_SPLIT_retries : Fld := ⟨.DRF_SPLIT, 16, 16⟩
def F.DRF_ERR_held : Fld := ⟨.DRF_ERR, 0, 1⟩
def F.DRF_ERR_third_age : Fld := ⟨.DRF_ERR, 1, 1⟩
def F.DRF_ERR_cfg : Fld := ⟨.DRF_ERR, 2, 1⟩
def F.DRF_ERR_ref_bad : Fld := ⟨.DRF_ERR, 3, 1⟩
def F.DRF_ERR_edge : Fld := ⟨.DRF_ERR, 4, 1⟩
def F.DRF_ERR_temp_blind : Fld := ⟨.DRF_ERR, 5, 1⟩
def F.DRF_ERR_hot : Fld := ⟨.DRF_ERR, 6, 1⟩
def F.INT_CFG_auto_patch : Fld := ⟨.INT_CFG, 0, 1⟩
def F.INT_CFG_dev_limit : Fld := ⟨.INT_CFG, 8, 8⟩
def F.INT_ERR_addr : Fld := ⟨.INT_ERR, 0, 1⟩
def F.INT_ERR_repair_full : Fld := ⟨.INT_ERR, 1, 1⟩
def F.INT_ERR_patch_rec : Fld := ⟨.INT_ERR, 2, 1⟩
def F.INT_ERR_patch_load : Fld := ⟨.INT_ERR, 3, 1⟩
def F.INT_ERR_sram : Fld := ⟨.INT_ERR, 4, 1⟩
def F.INT_ERR_codec : Fld := ⟨.INT_ERR, 5, 1⟩
def F.INT_ERR_late_detour : Fld := ⟨.INT_ERR, 6, 1⟩
def F.INT_ERR_cfg : Fld := ⟨.INT_ERR, 7, 1⟩
def F.INT_POISON_made : Fld := ⟨.INT_POISON, 0, 16⟩
def F.INT_POISON_set : Fld := ⟨.INT_POISON, 16, 16⟩
def F.INT_PLOG_LO_lla_lo : Fld := ⟨.INT_PLOG_LO, 0, 32⟩
def F.INT_PLOG_HI_lla_hi : Fld := ⟨.INT_PLOG_HI, 0, 7⟩
def F.INT_PLOG_HI_source : Fld := ⟨.INT_PLOG_HI, 7, 4⟩
def F.INT_PLOG_HI_valid : Fld := ⟨.INT_PLOG_HI, 31, 1⟩
def F.INT_REPAIR_rebuilt : Fld := ⟨.INT_REPAIR, 0, 16⟩
def F.INT_REPAIR_poisoned : Fld := ⟨.INT_REPAIR, 16, 16⟩
def F.INT_RQ_used : Fld := ⟨.INT_RQ, 0, 7⟩
def F.INT_RQ_dropped : Fld := ⟨.INT_RQ, 16, 16⟩
def F.INT_SRAM_corrected : Fld := ⟨.INT_SRAM, 0, 16⟩
def F.INT_SRAM_uncorr : Fld := ⟨.INT_SRAM, 16, 16⟩
def F.INT_SCRUB_DDR_LIMIT_seconds : Fld := ⟨.INT_SCRUB_DDR_LIMIT, 0, 24⟩
def F.INT_SCRUB_CEX_LIMIT_seconds : Fld := ⟨.INT_SCRUB_CEX_LIMIT, 0, 24⟩
def F.INT_CODEC_ran : Fld := ⟨.INT_CODEC, 0, 1⟩
def F.INT_CODEC_fail : Fld := ⟨.INT_CODEC, 1, 1⟩
def F.INT_CODEC_kind : Fld := ⟨.INT_CODEC, 2, 2⟩
def F.INT_CODEC_instance : Fld := ⟨.INT_CODEC, 4, 7⟩
def F.INT_DDR_n_LAP_seconds : Fld := ⟨.INT_DDR_n_LAP, 0, 24⟩
def F.INT_CEX_n_LAP_seconds : Fld := ⟨.INT_CEX_n_LAP, 0, 24⟩
def F.INT_DDR_n_PROG_done : Fld := ⟨.INT_DDR_n_PROG, 0, 10⟩
def F.INT_CEX_n_PROG_done : Fld := ⟨.INT_CEX_n_PROG, 0, 10⟩
def F.INT_DDR_n_PROG_age : Fld := ⟨.INT_DDR_n_PROG, 10, 22⟩
def F.INT_CEX_n_PROG_age : Fld := ⟨.INT_CEX_n_PROG, 10, 22⟩
def F.INT_DDR_n_CNT_device : Fld := ⟨.INT_DDR_n_CNT, 0, 16⟩
def F.INT_DDR_n_CNT_general : Fld := ⟨.INT_DDR_n_CNT, 16, 8⟩
def F.INT_DDR_n_CNT_uncorr : Fld := ⟨.INT_DDR_n_CNT, 24, 8⟩
def F.INT_DDR_n_DEV_device : Fld := ⟨.INT_DDR_n_DEV, 0, 4⟩
def F.INT_DDR_n_DEV_subch : Fld := ⟨.INT_DDR_n_DEV, 4, 1⟩
def F.INT_DDR_n_DEV_rank : Fld := ⟨.INT_DDR_n_DEV, 5, 4⟩
def F.INT_DDR_n_CAND_LO_valid : Fld := ⟨.INT_DDR_n_CAND_LO, 0, 1⟩
def F.INT_DDR_n_CAND_LO_subch : Fld := ⟨.INT_DDR_n_CAND_LO, 1, 1⟩
def F.INT_DDR_n_CAND_LO_rank : Fld := ⟨.INT_DDR_n_CAND_LO, 2, 4⟩
def F.INT_DDR_n_CAND_LO_bank : Fld := ⟨.INT_DDR_n_CAND_LO, 6, 5⟩
def F.INT_DDR_n_CAND_LO_burst : Fld := ⟨.INT_DDR_n_CAND_LO, 11, 7⟩
def F.INT_DDR_n_CAND_HI_row : Fld := ⟨.INT_DDR_n_CAND_HI, 0, 18⟩
def F.INT_DDR_n_ERR_overdue : Fld := ⟨.INT_DDR_n_ERR, 0, 1⟩
def F.INT_DDR_n_ERR_device_suspect : Fld := ⟨.INT_DDR_n_ERR, 1, 1⟩
def F.INT_DDR_n_ERR_general : Fld := ⟨.INT_DDR_n_ERR, 2, 1⟩
def F.INT_DDR_n_ERR_candidate : Fld := ⟨.INT_DDR_n_ERR, 3, 1⟩
def F.INT_CEX_n_CNT_outer : Fld := ⟨.INT_CEX_n_CNT, 0, 16⟩
def F.INT_CEX_n_CNT_uncorr : Fld := ⟨.INT_CEX_n_CNT, 16, 8⟩
def F.INT_CEX_n_CNT_poisoned : Fld := ⟨.INT_CEX_n_CNT, 24, 8⟩
def F.INT_CEX_n_PFAIL_retries : Fld := ⟨.INT_CEX_n_PFAIL, 0, 16⟩
def F.INT_CEX_n_PFAIL_hard : Fld := ⟨.INT_CEX_n_PFAIL, 16, 16⟩
def F.INT_CEX_n_ERR_overdue : Fld := ⟨.INT_CEX_n_ERR, 0, 1⟩
def F.INT_CEX_n_ERR_patch_full : Fld := ⟨.INT_CEX_n_ERR, 1, 1⟩
def F.INT_CEX_n_PATCH_e_LO_valid : Fld := ⟨.INT_CEX_n_PATCH_e_LO, 0, 1⟩
def F.INT_CEX_n_PATCH_e_LO_die : Fld := ⟨.INT_CEX_n_PATCH_e_LO, 1, 3⟩
def F.INT_CEX_n_PATCH_e_HI_d : Fld := ⟨.INT_CEX_n_PATCH_e_HI, 0, 31⟩
def F.MNT_IDX_channel : Fld := ⟨.MNT_IDX, 0, 7⟩
def F.MNT_IDX_media : Fld := ⟨.MNT_IDX, 7, 1⟩
def F.MNT_IDX_req : Fld := ⟨.MNT_IDX, 8, 3⟩
def F.MNT_BYE_n : Fld := ⟨.MNT_BYE, 0, 4⟩
def F.MNT_STATE_holder : Fld := ⟨.MNT_STATE, 0, 3⟩
def F.MNT_STATE_waiting : Fld := ⟨.MNT_STATE, 4, 6⟩
def F.MNT_STATE_masked : Fld := ⟨.MNT_STATE, 10, 6⟩
def F.MNT_STATE_count : Fld := ⟨.MNT_STATE, 16, 4⟩
def F.MNT_GRANTS_count : Fld := ⟨.MNT_GRANTS, 0, 32⟩
def F.MNT_WAIT_cycles : Fld := ⟨.MNT_WAIT, 0, 32⟩
def F.MNT_LONGEST_cycles : Fld := ⟨.MNT_LONGEST, 0, 32⟩
def F.MNT_FLOOR_turns : Fld := ⟨.MNT_FLOOR, 0, 5⟩
def F.MNT_ERR_cfg : Fld := ⟨.MNT_ERR, 0, 1⟩
def F.LDG_STATE_epoch : Fld := ⟨.LDG_STATE, 0, 2⟩
def F.LDG_STATE_old_live : Fld := ⟨.LDG_STATE, 2, 1⟩
def F.LDG_STATE_deferred : Fld := ⟨.LDG_STATE, 3, 1⟩
def F.LDG_STATE_defers : Fld := ⟨.LDG_STATE, 4, 12⟩
def F.LDG_EPOCH_k_count : Fld := ⟨.LDG_EPOCH_k, 0, 14⟩
def F.LDG_AUDIT_ran : Fld := ⟨.LDG_AUDIT, 0, 1⟩
def F.LDG_AUDIT_fail : Fld := ⟨.LDG_AUDIT, 1, 1⟩
def F.LDG_AUDIT_invariant : Fld := ⟨.LDG_AUDIT, 2, 4⟩
def F.LDG_AUDIT_INST_instance : Fld := ⟨.LDG_AUDIT_INST, 0, 20⟩
def F.LDG_AUDIT_DIFF_diff : Fld := ⟨.LDG_AUDIT_DIFF, 0, 32⟩
def F.LDG_PORT_IDX_port : Fld := ⟨.LDG_PORT_IDX, 0, 6⟩
def F.LDG_PORT_ACC_count : Fld := ⟨.LDG_PORT_ACC, 0, 32⟩
def F.LDG_PORT_DONE_count : Fld := ⟨.LDG_PORT_DONE, 0, 32⟩
def F.LDG_ERR_mismatch : Fld := ⟨.LDG_ERR, 0, 1⟩
def F.LDG_ERR_latch_late : Fld := ⟨.LDG_ERR, 1, 1⟩
def F.RNG_r_SQ_BASE_LO_base : Fld := ⟨.RNG_r_SQ_BASE_LO, 12, 20⟩
def F.RNG_r_CQ_BASE_LO_base : Fld := ⟨.RNG_r_CQ_BASE_LO, 12, 20⟩
def F.RNG_NT_BASE_LO_base : Fld := ⟨.RNG_NT_BASE_LO, 12, 20⟩
def F.RNG_r_SQ_BASE_HI_base : Fld := ⟨.RNG_r_SQ_BASE_HI, 0, 32⟩
def F.RNG_r_CQ_BASE_HI_base : Fld := ⟨.RNG_r_CQ_BASE_HI, 0, 32⟩
def F.RNG_NT_BASE_HI_base : Fld := ⟨.RNG_NT_BASE_HI, 0, 32⟩
def F.RNG_r_CFG_enable : Fld := ⟨.RNG_r_CFG, 0, 1⟩
def F.RNG_r_CFG_sq_log2 : Fld := ⟨.RNG_r_CFG, 4, 5⟩
def F.RNG_r_CFG_cq_log2 : Fld := ⟨.RNG_r_CFG, 9, 5⟩
def F.RNG_r_CFG_vector : Fld := ⟨.RNG_r_CFG, 16, 8⟩
def F.RNG_NT_CFG_enable : Fld := ⟨.RNG_NT_CFG, 0, 1⟩
def F.RNG_NT_CFG_log2 : Fld := ⟨.RNG_NT_CFG, 4, 5⟩
def F.RNG_NT_CFG_vector : Fld := ⟨.RNG_NT_CFG, 16, 8⟩
def F.RNG_r_IRQ_count : Fld := ⟨.RNG_r_IRQ, 0, 8⟩
def F.RNG_NT_IRQ_count : Fld := ⟨.RNG_NT_IRQ, 0, 8⟩
def F.RNG_r_IRQ_usec : Fld := ⟨.RNG_r_IRQ, 8, 16⟩
def F.RNG_NT_IRQ_usec : Fld := ⟨.RNG_NT_IRQ, 8, 16⟩
def F.RNG_r_SQ_TAIL_tail : Fld := ⟨.RNG_r_SQ_TAIL, 0, 16⟩
def F.RNG_r_CQ_HEAD_head : Fld := ⟨.RNG_r_CQ_HEAD, 0, 16⟩
def F.RNG_NT_HEAD_head : Fld := ⟨.RNG_NT_HEAD, 0, 16⟩
def F.RNG_r_STATE_state : Fld := ⟨.RNG_r_STATE, 0, 2⟩
def F.RNG_r_STATE_outstanding : Fld := ⟨.RNG_r_STATE, 2, 6⟩
def F.RNG_r_STATE_fetch : Fld := ⟨.RNG_r_STATE, 16, 16⟩
def F.RNG_r_CQ_TAIL_tail : Fld := ⟨.RNG_r_CQ_TAIL, 0, 16⟩
def F.RNG_NT_TAIL_tail : Fld := ⟨.RNG_NT_TAIL, 0, 16⟩
def F.RNG_r_CQ_TAIL_phase : Fld := ⟨.RNG_r_CQ_TAIL, 16, 1⟩
def F.RNG_NT_TAIL_phase : Fld := ⟨.RNG_NT_TAIL, 16, 1⟩
def F.RNG_r_CTRL_reset : Fld := ⟨.RNG_r_CTRL, 0, 1⟩
def F.RNG_NT_CTRL_reset : Fld := ⟨.RNG_NT_CTRL, 0, 1⟩
def F.RNG_r_ERR_doorbell : Fld := ⟨.RNG_r_ERR, 0, 1⟩
def F.RNG_r_ERR_fetch : Fld := ⟨.RNG_r_ERR, 1, 1⟩
def F.RNG_r_ERR_write : Fld := ⟨.RNG_r_ERR, 2, 1⟩
def F.RNG_r_ERR_payload : Fld := ⟨.RNG_r_ERR, 3, 1⟩
def F.RNG_r_ERR_cfg : Fld := ⟨.RNG_r_ERR, 4, 1⟩
def F.RNG_NT_ERR_doorbell : Fld := ⟨.RNG_NT_ERR, 0, 1⟩
def F.RNG_NT_ERR_write : Fld := ⟨.RNG_NT_ERR, 1, 1⟩
def F.RNG_NT_ERR_cfg : Fld := ⟨.RNG_NT_ERR, 2, 1⟩
def F.RNG_NT_LOST_count : Fld := ⟨.RNG_NT_LOST, 0, 32⟩
def F.RNG_IRQ_MASK_k_mask : Fld := ⟨.RNG_IRQ_MASK_k, 0, 32⟩
def F.RNG_IRQ_PEND_k_pend : Fld := ⟨.RNG_IRQ_PEND_k, 0, 32⟩
def F.RNG_ERR_VEC_vector : Fld := ⟨.RNG_ERR_VEC, 0, 8⟩
def F.PWR_MODE_mode : Fld := ⟨.PWR_MODE, 0, 3⟩
def F.PWR_MODE_prev : Fld := ⟨.PWR_MODE, 4, 3⟩
def F.PWR_MODE_cause : Fld := ⟨.PWR_MODE, 8, 4⟩
def F.PWR_MODE_drain_done : Fld := ⟨.PWR_MODE, 12, 1⟩
def F.PWR_MODE_therm_off : Fld := ⟨.PWR_MODE, 13, 1⟩
def F.PWR_MODE_shutdown : Fld := ⟨.PWR_MODE, 14, 1⟩
def F.PWR_MODE_pwrfail : Fld := ⟨.PWR_MODE, 15, 1⟩
def F.PWR_CFG_hush_idle : Fld := ⟨.PWR_CFG, 0, 16⟩
def F.PWR_CFG_hush_keys_off : Fld := ⟨.PWR_CFG, 16, 1⟩
def F.PWR_THERM_offset : Fld := ⟨.PWR_THERM, 0, 8⟩
def F.PWR_THERM_fast_band : Fld := ⟨.PWR_THERM, 8, 8⟩
def F.PWR_THERM_stale : Fld := ⟨.PWR_THERM, 16, 4⟩
def F.PWR_BUDGET_watts : Fld := ⟨.PWR_BUDGET, 0, 8⟩
def F.PWR_ESTIMATE_watts : Fld := ⟨.PWR_ESTIMATE, 0, 8⟩
def F.PWR_ESTIMATE_step : Fld := ⟨.PWR_ESTIMATE, 8, 4⟩
def F.PWR_DRAIN_ms : Fld := ⟨.PWR_DRAIN, 0, 16⟩
def F.PWR_DRAIN_units : Fld := ⟨.PWR_DRAIN, 16, 16⟩
def F.PWR_ERR_cfg : Fld := ⟨.PWR_ERR, 0, 1⟩
def F.PWR_ERR_sensor : Fld := ⟨.PWR_ERR, 1, 1⟩
def F.PWR_ERR_zone_blind : Fld := ⟨.PWR_ERR, 2, 1⟩
def F.PWR_ERR_unclean : Fld := ⟨.PWR_ERR, 3, 1⟩
def F.PWR_ERR_budget : Fld := ⟨.PWR_ERR, 4, 1⟩
def F.PWR_ERR_pwrfail_glitch : Fld := ⟨.PWR_ERR, 5, 1⟩
def F.PWR_ZONE_z_CFG_t_high : Fld := ⟨.PWR_ZONE_z_CFG, 0, 8⟩
def F.PWR_ZONE_z_CFG_hyst : Fld := ⟨.PWR_ZONE_z_CFG, 8, 4⟩
def F.PWR_ZONE_z_CFG_t_crit : Fld := ⟨.PWR_ZONE_z_CFG, 12, 8⟩
def F.PWR_ZONE_z_CFG_t_media : Fld := ⟨.PWR_ZONE_z_CFG, 20, 8⟩
def F.PWR_ZONE_z_STATE_excess : Fld := ⟨.PWR_ZONE_z_STATE, 0, 8⟩
def F.PWR_ZONE_z_STATE_step : Fld := ⟨.PWR_ZONE_z_STATE, 8, 4⟩
def F.PWR_ZONE_z_STATE_own : Fld := ⟨.PWR_ZONE_z_STATE, 12, 4⟩
def F.PWR_ZONE_z_STATE_failed : Fld := ⟨.PWR_ZONE_z_STATE, 16, 1⟩
def F.PWR_ZONE_z_STATE_blind : Fld := ⟨.PWR_ZONE_z_STATE, 17, 1⟩
def F.PWR_ZONE_z_STATE_fast : Fld := ⟨.PWR_ZONE_z_STATE, 18, 1⟩
def F.PWR_SENSOR_i_zone : Fld := ⟨.PWR_SENSOR_i, 0, 4⟩
def F.PWR_SENSOR_i_temp : Fld := ⟨.PWR_SENSOR_i, 8, 8⟩
def F.PWR_SENSOR_i_valid : Fld := ⟨.PWR_SENSOR_i, 16, 1⟩
def F.PWR_SENSOR_i_failed : Fld := ⟨.PWR_SENSOR_i, 17, 1⟩
def F.BOOT_STATE_copy : Fld := ⟨.BOOT_STATE, 0, 1⟩
def F.BOOT_STATE_fallback : Fld := ⟨.BOOT_STATE, 1, 1⟩
def F.BOOT_STATE_a_code : Fld := ⟨.BOOT_STATE, 2, 4⟩
def F.BOOT_STATE_b_code : Fld := ⟨.BOOT_STATE, 6, 4⟩
def F.BOOT_STATE_fail : Fld := ⟨.BOOT_STATE, 10, 2⟩
def F.BOOT_STATE_next : Fld := ⟨.BOOT_STATE, 12, 1⟩
def F.BOOT_SEQ_A_seq : Fld := ⟨.BOOT_SEQ_A, 0, 32⟩
def F.BOOT_SEQ_B_seq : Fld := ⟨.BOOT_SEQ_B, 0, 32⟩
def F.BOOT_VER_version : Fld := ⟨.BOOT_VER, 0, 32⟩
def F.BOOT_SPI_density_log2 : Fld := ⟨.BOOT_SPI, 0, 5⟩
def F.BOOT_SPI_quad : Fld := ⟨.BOOT_SPI, 5, 1⟩
def F.BOOT_SPI_addr4 : Fld := ⟨.BOOT_SPI, 6, 1⟩
def F.BOOT_WRITE_busy : Fld := ⟨.BOOT_WRITE, 0, 1⟩
def F.BOOT_WRITE_sectors : Fld := ⟨.BOOT_WRITE, 1, 8⟩
def F.BOOT_WRITE_fault : Fld := ⟨.BOOT_WRITE, 9, 3⟩
def F.LC_STATE_state : Fld := ⟨.LC_STATE, 0, 2⟩
def F.LC_STATE_recorded : Fld := ⟨.LC_STATE, 2, 2⟩
def F.LC_STATE_pending : Fld := ⟨.LC_STATE, 4, 1⟩
def F.LC_STATE_record : Fld := ⟨.LC_STATE, 5, 1⟩
def F.TELE_CNT_n_LO_count : Fld := ⟨.TELE_CNT_n_LO, 0, 32⟩
def F.TELE_CNT_n_HI_count : Fld := ⟨.TELE_CNT_n_HI, 0, 16⟩
def F.TELE_LAT_p_BIN_i_count : Fld := ⟨.TELE_LAT_p_BIN_i, 0, 32⟩
def F.TELE_DRT_c_BIN_i_count : Fld := ⟨.TELE_DRT_c_BIN_i, 0, 32⟩
def F.TELE_MQ_g_BIN_i_count : Fld := ⟨.TELE_MQ_g_BIN_i, 0, 32⟩
def F.TELE_LAT_p_MIN_cycles : Fld := ⟨.TELE_LAT_p_MIN, 0, 32⟩
def F.TELE_LAT_p_MAX_cycles : Fld := ⟨.TELE_LAT_p_MAX, 0, 32⟩
def F.TELE_LAT_p_COUNT_count : Fld := ⟨.TELE_LAT_p_COUNT, 0, 32⟩
def F.TELE_CFG_user_read : Fld := ⟨.TELE_CFG, 0, 1⟩
def F.TELE_LVL_CFG_period : Fld := ⟨.TELE_LVL_CFG, 0, 8⟩
def F.TELE_LVL_CFG_qshift : Fld := ⟨.TELE_LVL_CFG, 8, 3⟩
def F.TELE_EVT_STATE_occupancy : Fld := ⟨.TELE_EVT_STATE, 0, 7⟩
def F.TELE_EVT_STATE_summary : Fld := ⟨.TELE_EVT_STATE, 7, 1⟩
def F.TELE_EVT_STATE_held : Fld := ⟨.TELE_EVT_STATE, 8, 1⟩
def F.TELE_EVT_STATE_tally : Fld := ⟨.TELE_EVT_STATE, 16, 16⟩
def F.TELE_ERR_underrun : Fld := ⟨.TELE_ERR, 0, 1⟩
def F.TELE_ERR_user_denied : Fld := ⟨.TELE_ERR, 1, 1⟩
def F.TELE_ERR_cfg : Fld := ⟨.TELE_ERR, 2, 1⟩
def F.TELE_ERR_lost : Fld := ⟨.TELE_ERR, 3, 1⟩
def F.TELE_AON_LOST_count : Fld := ⟨.TELE_AON_LOST, 0, 16⟩
def F.TELE_CSEL_n_level : Fld := ⟨.TELE_CSEL_n, 0, 1⟩
def F.TELE_CSEL_n_chain : Fld := ⟨.TELE_CSEL_n, 1, 1⟩
def F.TELE_OVF_k_ovf : Fld := ⟨.TELE_OVF_k, 0, 32⟩
def F.TELE_HIST_CFG_p_log : Fld := ⟨.TELE_HIST_CFG_p, 0, 1⟩
def F.TELE_HIST_CFG_p_cmd : Fld := ⟨.TELE_HIST_CFG_p, 1, 2⟩
def F.TELE_HIST_CFG_p_classes : Fld := ⟨.TELE_HIST_CFG_p, 4, 4⟩
def F.TELE_HIST_CFG_p_base : Fld := ⟨.TELE_HIST_CFG_p, 8, 12⟩
def F.TELE_HIST_CFG_p_width : Fld := ⟨.TELE_HIST_CFG_p, 20, 8⟩
def F.BLOCK_ID_variant : Fld := ⟨.BLOCK_ID, 0, 4⟩
def F.BLOCK_ID_stepping : Fld := ⟨.BLOCK_ID, 4, 4⟩
def F.BLOCK_ID_revision : Fld := ⟨.BLOCK_ID, 8, 8⟩
def F.BLOCK_ID_family : Fld := ⟨.BLOCK_ID, 16, 16⟩
def F.BLOCK_CAP_ports : Fld := ⟨.BLOCK_CAP, 0, 8⟩
def F.BLOCK_CAP_ddr5 : Fld := ⟨.BLOCK_CAP, 8, 8⟩
def F.BLOCK_CAP_cexus : Fld := ⟨.BLOCK_CAP, 16, 8⟩
def F.BLOCK_CAP_clusters : Fld := ⟨.BLOCK_CAP, 24, 8⟩
def F.GLB_STATUS_mode : Fld := ⟨.GLB_STATUS, 0, 3⟩
def F.GLB_STATUS_lc : Fld := ⟨.GLB_STATUS, 3, 2⟩
def F.GLB_STATUS_drain_done : Fld := ⟨.GLB_STATUS, 5, 1⟩
def F.GLB_STATUS_therm_off : Fld := ⟨.GLB_STATUS, 6, 1⟩
def F.GLB_STATUS_unit_reset : Fld := ⟨.GLB_STATUS, 7, 1⟩
def F.GLB_DEADBOLT_bolt : Fld := ⟨.GLB_DEADBOLT, 0, 14⟩
def F.GLB_TEST_open : Fld := ⟨.GLB_TEST, 0, 1⟩
def F.GLB_LATCH_pending : Fld := ⟨.GLB_LATCH, 0, 1⟩
def F.GLB_LATCH_deferred : Fld := ⟨.GLB_LATCH, 1, 1⟩
def F.GLB_LATCH_hold : Fld := ⟨.GLB_LATCH, 2, 1⟩
def F.GLB_LATCH_switching : Fld := ⟨.GLB_LATCH, 3, 1⟩
def F.GLB_LATCH_epoch : Fld := ⟨.GLB_LATCH, 4, 2⟩
def F.GLB_LATCH_advances : Fld := ⟨.GLB_LATCH, 16, 16⟩
def F.GLB_LATCH_CTRL_hold : Fld := ⟨.GLB_LATCH_CTRL, 0, 1⟩
def F.GLB_UNIT_RESET_tele : Fld := ⟨.GLB_UNIT_RESET, 0, 1⟩
def F.GLB_UNIT_RESET_rings : Fld := ⟨.GLB_UNIT_RESET, 1, 1⟩
def F.GLB_ERR_unmapped : Fld := ⟨.GLB_ERR, 0, 1⟩
def F.GLB_ERR_unit_reset : Fld := ⟨.GLB_ERR, 1, 1⟩
def F.GLB_UNMAPPED_write : Fld := ⟨.GLB_UNMAPPED, 0, 1⟩
def F.GLB_UNMAPPED_addr : Fld := ⟨.GLB_UNMAPPED, 2, 24⟩
def F.GLB_UNMAPPED_valid : Fld := ⟨.GLB_UNMAPPED, 31, 1⟩
def F.GLB_SCRATCH_k_data : Fld := ⟨.GLB_SCRATCH_k, 0, 32⟩
def F.DRF_WEAR_w1 : Fld := ⟨.DRF_WEAR, 0, 8⟩
def F.DRF_WEAR_w2 : Fld := ⟨.DRF_WEAR, 8, 8⟩
def F.DRF_WEAR_w3 : Fld := ⟨.DRF_WEAR, 16, 8⟩
def F.MNT_RANK_rank_0 : Fld := ⟨.MNT_RANK, 0, 3⟩
def F.MNT_RANK_rank_1 : Fld := ⟨.MNT_RANK, 3, 3⟩
def F.MNT_RANK_rank_2 : Fld := ⟨.MNT_RANK, 6, 3⟩
def F.MNT_RANK_rank_3 : Fld := ⟨.MNT_RANK, 9, 3⟩
def F.MNT_RANK_rank_4 : Fld := ⟨.MNT_RANK, 12, 3⟩
def F.MNT_RANK_rank_5 : Fld := ⟨.MNT_RANK, 15, 3⟩

end Sys2Proof.Machine
end

