-- ==== Sys2Proof/Machine/Tab.lean ====
section
/-! DEFINITION. Operations over sparse tables. A table reads as a default where no cell is listed, and a write of the default removes the cell, so equal tables are equal data. -/

namespace Sys2Proof.Machine

variable {α : Type}

/-- The value listed for a key, if any. -/
def tabFind (k : Nat) : List (Nat × α) → Option α
  | [] => none
  | (a, v) :: t => if a = k then some v else tabFind k t

/-- Drop every cell of a key. -/
def tabErase (k : Nat) : List (Nat × α) → List (Nat × α)
  | [] => []
  | (a, v) :: t => if a = k then tabErase k t else (a, v) :: tabErase k t

/-- Put a cell at its place in rising key order, replacing the cell of the key if there is one. -/
def tabInsert (k : Nat) (v : α) : List (Nat × α) → List (Nat × α)
  | [] => [(k, v)]
  | (a, w) :: t =>
    if k < a then (k, v) :: (a, w) :: t
    else if k = a then (k, v) :: t
    else (a, w) :: tabInsert k v t

/-- The value of a key, `d` where none is listed. -/
def tabGetD (t : Tab α) (k : Nat) (d : α) : α := (tabFind k t.cells).getD d

/-- Write a key of a table whose unlisted keys read as `d`. -/
def tabPutD [DecidableEq α] (t : Tab α) (k : Nat) (d v : α) : Tab α :=
  if v = d then ⟨tabErase k t.cells⟩ else ⟨tabInsert k v t.cells⟩

/-- The value of a key of a table whose unlisted keys read as `default`. -/
def tabGet [Inhabited α] (t : Tab α) (k : Nat) : α := tabGetD t k default

/-- Write a key of a table whose unlisted keys read as `default`. -/
def tabPut [DecidableEq α] [Inhabited α] (t : Tab α) (k : Nat) (v : α) : Tab α := tabPutD t k default v

/-- Every listed key. -/
def tabKeys (t : Tab α) : List Nat := t.cells.map Prod.fst

/-- The empty table. -/
def tabNil : Tab α := ⟨[]⟩

/-- Drop every cell whose key fails the test. -/
def tabFilter (t : Tab α) (p : Nat → Bool) : Tab α := ⟨t.cells.filter fun c => p c.1⟩

/-- Insert into a list sorted by `le`. -/
def insertBy (le : α → α → Bool) (x : α) : List α → List α
  | [] => [x]
  | y :: t => if le y x then y :: insertBy le x t else x :: y :: t

/-- Insertion sort, which keeps equal elements in their order. -/
def sortedBy (le : α → α → Bool) (l : List α) : List α := l.foldl (fun s x => insertBy le x s) []

/-- The canonical form: keys strictly rising. -/
abbrev tabSorted (l : List (Nat × α)) : Prop := (l.map Prod.fst).Pairwise (· < ·)

/-- A table is in canonical form: keys strictly rising, and no cell lists what an unlisted key reads as. -/
def tabCanon (d : α) (t : Tab α) : Prop := tabSorted t.cells ∧ ∀ c ∈ t.cells, c.2 ≠ d

end Sys2Proof.Machine
end

