-- ==== Sys2Proof/Machine/State.lean ====
section
/-! DEFINITION. The state of the block as plain data: every register, table, queue, counter, mode and latch the spec gives it, the packets and commands under way, the faults and refusals, and the state after reset. -/

namespace Sys2Proof.Machine

/-- The build variants (R6, Table 0-1). -/
inductive Variant where
  | v72 | v36 | v18
deriving DecidableEq, Repr, Inhabited

/-- The eight modes (Table 15-7). -/
inductive Mode where
  | reset | load | train | mount | run | hush | drain | service
deriving DecidableEq, Repr, Inhabited

/-! ### Outputs -/

/-- What a PHY pin does: driven to a level, high-impedance, stopped, or in use. -/
inductive PinLevel where
  | low | high | hiZ | stopped | live
deriving DecidableEq, Repr, Inhabited

/-- The PHY pins of a channel (R583): RESET_N, CK, the chip selects, and all others. -/
structure PhyPins where
  resetN : PinLevel := .low
  ck : PinLevel := .low
  cs : PinLevel := .hiZ
  others : PinLevel := .hiZ
deriving DecidableEq, Repr, Inhabited

/-- What the block presents to the outside while it carries out one command. -/
inductive Out where
  /-- An egress beat: KIND (R79), completion word (R78) and data lanes. -/
  | beat (port kind : Nat) (word : BitVec 64) (data : BitVec 256)
  /-- Credits returned on the egress sideband (R68). -/
  | credit (port pool : Nat) (data : Bool) (count : Nat)
  /-- READY of a port (R69). -/
  | ready (port : Nat) (up : Bool)
  /-- A 64-byte read on the ring-master port (R451). -/
  | ringRead (addr : Nat)
  /-- A 32-byte write on the ring-master port (R451). -/
  | ringWrite (addr : Nat) (entry : BitVec 256)
  /-- An interrupt message (R471). -/
  | intMsg (word : Word)
  /-- The response of a register-port access (R541). -/
  | regData (value : Word)
  /-- A line of the event port with its tag and underrun (R537). -/
  | evtLine (line : BitVec 256) (tag : Nat) (underrun : Bool)
  /-- A word of the key port's outbound stream with its LAST mark (R574). -/
  | keyWord (word : Word) (last : Bool)
  /-- A DDR5 command on a subchannel: its name's code, rank, bank, row and column (R226); of a mode-register command the register and its setting stand for row and column. -/
  | ddr5 (ch sub code rank bank row col : Nat)
  /-- The sixteen beats of a WR's burst, CB[7:0] above DQ[31:0] (R246). -/
  | burst (ch sub : Nat) (beats : List (BitVec 40))
  /-- A Cexus command frame: the dies whose CS_N is low, whether in safe framing, and the four CA beats with CAPAR above CA[7:0] (R278 to R282, R298). -/
  | cexus (ch : Nat) (mask : BitVec 8) (slow : Bool) (beats : List (BitVec 9))
  /-- The 48 beats that Vipra drives after a LOAD or a TLOAD (R296). -/
  | dq (ch : Nat) (beats : List (BitVec 16))
  /-- CS_N of a die high for 256 CK, low for one rising edge, then high: the die leaves its echo mode (R299). -/
  | leaveEcho (ch die : Nat)
  /-- The PHY pins of a channel take new levels (R289, R583). -/
  | pins (media : Bool) (ch : Nat) (levels : PhyPins)
  /-- A serial-memory operation: kind, address (R521). -/
  | spi (op addr : Nat)
  /-- A bit shifted or a register selected on the test access port (R584). -/
  | tap (value : Nat)
deriving DecidableEq, Repr, Inhabited

/-! ### Request ports -/

/-- Where an accepted request stands between its header and its completion. -/
inductive Phase where
  /-- awaits DATA beats (R55) -/
  | data
  /-- whole, and not yet judged: it waits in its slot while the pipelines of its cluster are stopped (R71) -/
  | arrived
  /-- repeats an outstanding tag and completes after its holder (R64) -/
  | dup
  /-- in the queue of its class at the token bucket (R135) -/
  | bucket
  /-- awaits the context check: a record fetch, or a free way of the context-cache set (R96) -/
  | check
  /-- has passed the checks; awaits its ordering predecessors and tickets (R74, R84) -/
  | ready
  /-- injected into transit -/
  | sent
deriving DecidableEq, Repr, Inhabited

/-- One accepted request that has not completed. -/
structure Req where
  ord : Nat := 0
  hdr : BitVec 128 := 0
  pool : Nat := 0
  phase : Phase := .data
  data : List (BitVec 256) := []
  dataPools : List Nat := []
  bad : Bool := false
  cls : Nat := 0
  label : Bool := false
  prio : Nat := 0
  epoch : Option Nat := none
  keySlot : Nat := 0
  dur : Nat := 0
  order : Nat := 0
  counted : Bool := false
  hdrSlot : Bool := true
  tickets : List Nat := []
  held : Bool := false
  acc : Nat := 0
  waitFrom : Nat := 0
  /-- a rewrite check of R208 is outstanding -/
  checkOut : Bool := false
  /-- a bound ticket has been granted (R208) -/
  bound : Bool := false
  /-- record fetch: 0 none, 1 in flight, 2 arrived, 3 waiting for its ticket (R96, R176) -/
  fetch : Nat := 0
  /-- a FLUSH past its close point, no longer counted under its epoch (R436) -/
  closed : Bool := false
deriving DecidableEq, Repr, Inhabited

/-- What the ingress of a port does with the next DATA beat (R73, Table 2-9). -/
inductive Ingress where
  /-- no request is open: a DATA beat is stray -/
  | idle
  /-- the request of this ordinal awaits DATA beats -/
  | taking (ord : Nat)
  /-- DATA beats of a header rejected for HCHK: discarded, each judged for its pool -/
  | dropJudged
  /-- DATA beats after a credit overrun: discarded, no credit returned -/
  | dropLost
deriving DecidableEq, Repr, Inhabited

/-- One request port: state of Table 2-3, ordinals, credits, the open requests in ingress order and its four token buckets. -/
structure Port where
  state : Nat := 0
  reopen : Bool := false
  next : Nat := 0
  ingress : Ingress := .idle
  hdrCred : Tab Nat := ⟨[]⟩
  dataCred : Tab Nat := ⟨[]⟩
  hdrHold : Tab Nat := ⟨[]⟩
  dataHold : Tab Nat := ⟨[]⟩
  reqs : List Req := []
  level : Tab Int := ⟨[]⟩
  rdLines : Nat := 0
  wrLines : Nat := 0
  heldCycles : Nat := 0
  accepted : Nat := 0
  done : Nat := 0
deriving DecidableEq, Repr, Inhabited

/-! ### Contexts and keys -/

/-- One entry of a cluster's context cache: the handle it holds and the cluster's share of its outstanding-write count (R94, R96). The fields of the record are those of the engine's banks, which the engine keeps the caches in step with (R97). -/
structure CtxEntry where
  handle : Nat := 0
  share : Nat := 0
deriving DecidableEq, Repr, Inhabited

/-- A key slot: 0 empty, 1 loaded, 2 erasing (Table 3-3); its 512 bits; and whether requests of an even or odd epoch may use it. -/
structure KeySlot where
  state : Nat := 0
  key : BitVec 512 := 0
  even : Bool := false
  odd : Bool := false
deriving DecidableEq, Repr, Inhabited

/-- The key port (R123 to R128): whether HELLO_ACK has been taken since the last HELLO (0 awaiting, 1 ready); the erase it waits for (the header answered, the slot, 1,024 for every slot, and whether its latch has been taken); whether a HELLO sent outside LOAD awaits its answer and its lateness has not been reported; the outbound words with their LAST marks; and KEY_PORT_STATE[31:8] as the RESULT among them will leave it. -/
structure KeyPort where
  state : Nat := 0
  erase : Option (Nat × Nat × Bool) := none
  hello : Bool := false
  outq : List (Word × Bool) := []
  result : Option Nat := none
deriving DecidableEq, Repr, Inhabited

/-! ### Transit network -/

/-- Packet types (Table 5-5). -/
inductive PktType where
  | lineReq | lineWr | lineRet | done | fillReq | fillFwd | fillData | zero | destage | ctx | flush | service | ticket
deriving DecidableEq, Repr, Inhabited

/-- What a LINE_REQ asks of the slice. -/
inductive ReqKind where
  | read | prefetch | merge | check | ringPrefetch
deriving DecidableEq, Repr, Inhabited

/-- A packet in flight: header-word fields of Table 5-4 and the contents its two endpoints use. -/
structure Pkt where
  id : Nat := 0
  typ : PktType := .lineReq
  src : Nat := 0
  dst : Nat := 0
  prio : Nat := 0
  epoch : Nat := 0
  aux : Nat := 0
  /-- the ticket pool whose slot it fills, or that a TICKET returns -/
  pool : Nat := 0
  port : Nat := 0
  ord : Nat := 0
  lla : Nat := 0
  kind : ReqKind := .read
  data : BitVec 512 := 0
  poison : Bool := false
  merge : Bool := false
  bound : Bool := false
  m : Bool := false
  x : Bool := false
  zline : Bool := false
  cls : Nat := 0
  /-- physical placement, for FILL_FWD and DESTAGE: stripe group, die position, die line address, generation, read-reference code -/
  group : Nat := 0
  pos : Nat := 0
  dla : Nat := 0
  gen : Nat := 0
  code : Nat := 0
  prn : Nat := 0
  handle : Nat := 0
  tag : Nat := 0
  /-- when it began to wait at the hinge unit for a FILL_FWD ticket (AON cycles, plus one; 0 where it does not) -/
  waits : Nat := 0
deriving DecidableEq, Repr, Inhabited

/-- The routers of Table 5-1. -/
inductive Router where
  | cluster (n : Nat) | hub (k : Nat) | dram (k : Nat) | media (g : Nat) | service
deriving DecidableEq, Repr, Inhabited

/-- What a link or a bridge joins: a router, the bridge of a port, or the bridge of another endpoint by its number (R160, R162, R179). -/
inductive Node where
  | router (r : Router) | port (p : Nat) | unit (e : Nat)
deriving DecidableEq, Repr, Inhabited

/-- A flit (R163): the packet it belongs to (the model's own mark), control byte, header word (zero but on a head), payload, the check bits of its five words, and the transit cycle from which it can be read. -/
structure Flit where
  pkt : Nat := 0
  ctrl : BitVec 8 := 0
  word : BitVec 64 := 0
  payload : BitVec 256 := 0
  check : BitVec 75 := 0
  from_ : Nat := 0
deriving DecidableEq, Repr, Inhabited

/-- The way a packet takes out of a router: output number, the node there, and the link. -/
structure Exit where
  out : Nat := 0
  node : Node := .unit 0
  link : Nat := 0
deriving DecidableEq, Repr, Inhabited

/-- One priority of a router input or of a bridge (R174, R179): between which nodes and on which link it stands, its flits, the credits its sender has spent, and the exit of a packet whose head has left. -/
structure Lane where
  src : Node := .unit 0
  dst : Node := .unit 0
  link : Nat := 0
  prio : Nat := 0
  flits : List Flit := []
  used : Nat := 0
  going : Option Exit := none
deriving DecidableEq, Repr, Inhabited

/-- One router output (R171, R172), by link × 8 + priority the input whose packet has started (plus one) and the input last served, by input × 8 + priority the transit cycles for which a head flit has been ready and unchosen, and in slot mode the cycles since entry and those without a wait above 128. -/
structure OutPort where
  started : Tab Nat := ⟨[]⟩
  last : Tab Nat := ⟨[]⟩
  waits : Tab Nat := ⟨[]⟩
  frame : Nat := 0
  quiet : Nat := 0
deriving DecidableEq, Repr, Inhabited

/-- The inside of the transit network: transit cycles passed, packets not yet in their source's bridge, router inputs and bridges, credits on their way back (the cycle of their return, and the lane), outputs by router × 32 + output, and inputs stopped by an uncorrectable header word (R169). -/
structure Transit where
  cyc : Nat := 0
  queue : List Nat := []
  lanes : List Lane := []
  due : List (Nat × Node × Node × Nat × Nat) := []
  outs : Tab OutPort := ⟨[]⟩
  shut : List (Node × Node × Nat) := []
deriving DecidableEq, Repr, Inhabited

/-! ### Staging store -/

/-- Why a way is marked busy (R196): a read, a destage or a merge lock. A write in the queue and a pin make it busy too, and are found where they stand. -/
inductive BusyWhy where
  | read | destage | merge
deriving DecidableEq, Repr, Inhabited

/-- An entry of a slice's header cache (R196): the set, its header in the layout of Table 6-2, and the busy marks of its ways. -/
structure HdrEntry where
  set : Nat := 0
  hdr : BitVec 512 := 0
  busy : List (Nat × BusyWhy) := []
  loaded : Bool := false
  /-- ref or hand changed since the last header write (R197) -/
  soft : Bool := false
deriving DecidableEq, Repr, Inhabited

/-- A requester of a fill: a port request, or a descriptor of the ring engine. -/
structure Asker where
  src : Nat := 0
  port : Nat := 0
  ord : Nat := 0
  kind : ReqKind := .read
  prio : Nat := 0
  epoch : Nat := 0
  cls : Nat := 0
deriving DecidableEq, Repr, Inhabited

/-- An entry of the fill table (R200): the line, its requesters (up to four) and whether a write overtook it (Table 1-6). -/
structure Fill where
  lla : Nat := 0
  askers : List Asker := []
  /-- an early fill (R325): the media group answers the slice only; while `pending` its header is not known; `got` is what has come back, kept until the line is staged -/
  early : Bool := false
  pending : Bool := false
  got : Option (Pkt × Nat) := none
  dead : Bool := false
deriving DecidableEq, Repr, Inhabited

/-- Where a stripe under destage stands: placement to be asked, asked, answered, or sent whole. -/
inductive JobPhase where
  | asking | placed | sent
deriving DecidableEq, Repr, Inhabited

/-- A stripe being destaged by a slice (R212). -/
structure Destage where
  set : Nat := 0
  tag : Nat := 0
  stripe : Nat := 0
  /-- the ways and their lines in stripe -/
  ways : List (Nat × Nat) := []
  /-- ways written since the destager read them, with the epoch of that write (R44, R111) -/
  dirtied : List (Nat × Nat) := []
  /-- ways whose DRAM read has not been queued, and whose read has not returned -/
  toRead : List Nat := []
  reading : List Nat := []
  /-- lines read: line in stripe, data, poison -/
  ready : List (Nat × BitVec 512 × Bool) := []
  /-- lines in stripe sent to the media group -/
  sent : List Nat := []
  phase : JobPhase := .asking
  group : Nat := 0
  prn : Nat := 0
  dla : Nat := 0
  gen : Nat := 0
  /-- its region is leaving the fresh state (R331) -/
  fresh : Bool := false
  /-- destaged for a POISON_SET with media = 1: its ways are emptied afterwards (R405) -/
  empties : List Nat := []
deriving DecidableEq, Repr, Inhabited

/-- One staging slice. -/
structure Slice where
  cache : List HdrEntry := []
  /-- packets in reserved slots that wait for a header, a lock, a fill, a way or a hold, in arrival order -/
  waitq : List Pkt := []
  fills : List Fill := []
  /-- merge locks: line, port, ordinal (R204) -/
  locks : List (Nat × Nat × Nat) := []
  /-- pins: line, port, ordinal (R208) -/
  pins : List (Nat × Nat × Nat) := []
  dirty : Nat := 0
  epochs : Tab Nat := ⟨[]⟩
  tally : Tab Nat := ⟨[]⟩
  withheld : Tab Nat := ⟨[]⟩
  share : Nat := 0
  ceiling : Nat := 0
  /-- full-stripe list: set, tag, time in µs (R211), and full stripes that wait for a place on it -/
  full : List (Nat × Nat × Nat) := []
  fullWait : List (Nat × Nat × Nat) := []
  /-- packets whose header was not cached when they arrived -/
  missed : List Nat := []
  /-- packets that wait for a fill-table entry or for the tickets of a fill, first to wait first (R176, R200) -/
  fillWait : List Nat := []
  urgent : List Nat := []
  walk : Nat := 0
  jobs : List Destage := []
  sealed : List Nat := []
  epochSeen : Nat := 0
  /-- stripes to be destaged at once for POISON_SET: set, tag, ways to be emptied afterwards (R405) -/
  forced : List (Nat × Nat × List Nat) := []
  /-- contents of the staging DRAM: the line of the code word at line number set × 16 + i -/
  dram : Tab (BitVec 512) := ⟨[]⟩
deriving DecidableEq, Repr, Inhabited

/-- A FLUSH or FLUSH_ALL that waits for its epoch (R112): its target epoch, the journal block below which all must be durable, and who asked: a request, or a descriptor. -/
structure FlushWait where
  id : Nat := 0
  target : Nat := 0
  journal : Nat := 0
  /-- `journal` covers the entries of the destages it waits for -/
  swept : Bool := false
  port : Nat := 0
  ord : Nat := 0
  handle : Nat := 0
  /-- transit priority of the request, which its DONE carries (R170) -/
  prio : Nat := 2
  /-- advances of E since its target was in force -/
  age : Nat := 0
  all : Bool := false
  desc : Option (Nat × Nat) := none
deriving DecidableEq, Repr, Inhabited

/-- The store-wide part of the staging store: E, the advance under way, acknowledgements, flush waiters, evacuation. -/
structure Staging where
  e : Nat := 0
  /-- advances that wait under R112 step 3 -/
  advanceWait : Bool := false
  /-- slices that have not acknowledged the epoch in force (R214) -/
  unacked : List Nat := []
  waiters : List FlushWait := []
  nextWaiter : Nat := 0
  /-- evacuation: state of STG_EVAC, channel, hold, and the descriptor it serves (Table 6-8) -/
  evac : Nat := 0
  evacCh : Nat := 0
  evacHold : Bool := false
  /-- latches that had advanced when the hold began -/
  evacAt : Nat := 0
  evacDesc : Option (Nat × Nat) := none
  /-- line ranges whose requests the slices hold: first line, count (R357, R406) -/
  holds : List (Nat × Nat) := []
  seed : Nat := 0
  rowsLog2 : Nat := 0
  rkLog2 : Nat := 0
deriving DecidableEq, Repr, Inhabited

/-! ### Rings -/

/-- A descriptor fetched and not completed. -/
structure Desc where
  idx : Nat := 0
  bits : BitVec 512 := 0
  /-- place in its chain, 0 for the first -/
  pos : Nat := 0
  begun : Bool := false
  committed : Bool := false
  /-- what others have reported to a descriptor under way, oldest first: statuses, line answers, a journal sequence -/
  prog : List Nat := []
  /-- its own counters -/
  own : List Nat := []
  /-- payload bytes read so far (CHANGESET, TURN_TABLE_LOAD, IMAGE_WRITE), 64 bytes a read -/
  payload : List (BitVec 512) := []
  /-- completes at the next advancing latch with this status -/
  atLatch : Option Nat := none
  r0 : Nat := 0
  r1 : Nat := 0
deriving DecidableEq, Repr, Inhabited

/-- A 32-byte write waiting for its response: ring (64 for the notice ring), address, entry, whether an interrupt message follows at once, and whether it is a RING_RESET entry. -/
structure RingWrite where
  ring : Nat := 0
  addr : Nat := 0
  entry : BitVec 256 := 0
  irq : Bool := false
deriving DecidableEq, Repr, Inhabited

/-- One ring pair: 0 off, 1 running, 2 resetting, 3 error. -/
structure Ring where
  state : Nat := 0
  tail : Nat := 0
  head : Nat := 0
  fetch : Nat := 0
  cqTail : Nat := 0
  /-- CQ slots written and not yet freed by the driver -/
  cqUsed : Nat := 0
  /-- false while phase 1 is written, true while phase 0 is (R446) -/
  flip : Bool := false
  fetching : List Nat := []
  /-- fetches returned out of ring order, held until those before them return -/
  arrived : List (Nat × BitVec 512) := []
  /-- members fetched of a chain whose end has not been fetched, and whether that chain has been aborted (R457, R467) -/
  runLen : Nat := 0
  runDead : Bool := false
  /-- a descriptor read has failed (R452) -/
  fetchErr : Bool := false
  descs : List Desc := []
  /-- entries written since the last message, and when their timer ends (µs) (R472) -/
  pend : Nat := 0
  due : Nat := 0
deriving DecidableEq, Repr, Inhabited

/-- A notice held until the notice ring is first enabled (R469): type, time, payload. -/
structure Notice where
  typ : Nat := 0
  time : Nat := 0
  payload : Nat := 0
deriving DecidableEq, Repr, Inhabited

/-- The ring engine: ring pairs, the notice ring and the interrupt messages. -/
structure Rings where
  ring : Tab Ring := ⟨[]⟩
  ntState : Nat := 0
  ntHead : Nat := 0
  ntTail : Nat := 0
  ntUsed : Nat := 0
  ntFlip : Bool := false
  ntLostField : Nat := 0
  ntLost : Nat := 0
  ntEnabledOnce : Bool := false
  ntHeld : List Notice := []
  ntPend : Nat := 0
  ntDue : Nat := 0
  writes : List RingWrite := []
  /-- outstanding reads in issue order: ring, index, and 0 for a descriptor, 1 for a payload, 2 for a descriptor fetch and 3 for a payload read that is no longer wanted -/
  reads : List (Nat × Nat × Nat) := []
  /-- held messages: vector, source -/
  heldMsgs : List (Nat × Nat) := []
  /-- interrupt messages queued for the port (R571) -/
  msgs : List Word := []
deriving DecidableEq, Repr, Inhabited

/-! ### Telemetry -/

/-- An event handed to the packer: code, instance, time in µs and the words of Table 18-3. -/
structure Event where
  code : Nat := 0
  inst : Nat := 0
  time : Nat := 0
  words : List Word := []
deriving DecidableEq, Repr, Inhabited

/-- A line of the event FIFO: 256 bits, valid bytes, last-of-item, truncated (R536), and the events it delivers when it is the last line of an item. -/
structure EvtLine where
  line : BitVec 256 := 0
  tag : Nat := 0
  evts : Nat := 0
deriving DecidableEq, Repr, Inhabited

/-- A word waiting for its line: whether it ends an item, whether that item was truncated (R535), and the events its item delivers. -/
structure PackWord where
  w : Word := 0
  ends : Bool := false
  trunc : Bool := false
  evts : Nat := 0
deriving DecidableEq, Repr, Inhabited

/-- Telemetry: counters, captures, histograms and the event packer. -/
structure Tele where
  counters : Tab Nat := ⟨[]⟩
  /-- signals that were 1 at the end of the last tick, for edge counting (R524) -/
  high : List Nat := []
  /-- bits captured by the last TELE_CNT_n_LO read of the driver and of user reads: counter and bits [47:32] -/
  capDriver : Option (Nat × Nat) := none
  capUser : Option (Nat × Nat) := none
  inq : List Event := []
  fifo : List EvtLine := []
  /-- lines that found the FIFO full (Table 18-4) -/
  heldLines : List EvtLine := []
  /-- the line last popped -/
  lastLine : Option EvtLine := none
  /-- words of the line being packed -/
  packing : List PackWord := []
  /-- summary counts by code, and when the first of them became non-zero (AON cycles) -/
  sums : Tab Nat := ⟨[]⟩
  sumAt : Option Nat := none
  /-- lost tally not yet delivered (R535) -/
  lost : Nat := 0
  /-- live histograms: least and greatest latency by 2 × port, bins by port × 64 + bin with the count at bin 32, dirty-level bins by slice × 16, queue bins by group × 16 -/
  lat : Tab (Nat × Nat) := ⟨[]⟩
  liveBins : Tab Nat := ⟨[]⟩
  drt : Tab Nat := ⟨[]⟩
  mq : Tab Nat := ⟨[]⟩
  /-- windows copied (TELE_WIN) -/
  wins : Nat := 0
  /-- the counts of headers accepted and completions sent that each port stood at when a reset of PD_TELE cleared the ledger's registers (R443) -/
  ldgBase : Tab (Nat × Nat) := ⟨[]⟩
deriving DecidableEq, Repr, Inhabited

/-! ### Registers, latch, ledger -/

/-- The register stores: current values (RW, RO, W1C, RWB), the staged copies and the two banks of RWS fields, and the values staged by CHANGESET (R553). -/
structure Regs where
  cur : Tab Word := ⟨[]⟩
  staged : Tab Word := ⟨[]⟩
  bankA : Tab Word := ⟨[]⟩
  bankB : Tab Word := ⟨[]⟩
  descStaged : List (Nat × Word) := []
  epoch : Nat := 0
  pending : Bool := false
  deferred : Bool := false
  defers : Nat := 0
  lateSeen : Bool := false
  advances : Nat := 0
  /-- banked changes other than register values wait for the latch: turn tables, key slots, evacuation steps -/
  banked : Bool := false
deriving DecidableEq, Repr, Inhabited

/-! ### DDR5 channel engines -/

/-- What a DDR5 read is for. -/
inductive DUse where
  /-- a set header -/
  | header
  /-- a way, for a READ or the read half of a merge -/
  | way (w : Nat) (pkt : Pkt)
  /-- the preferred way read beside a header (R192), for the packet of this number -/
  | ahead (w pkt : Nat)
  /-- a way of the stripe under destage -/
  | destage (stripe w : Nat)
  /-- a write -/
  | write
deriving DecidableEq, Repr, Inhabited

/-- One line access of a subchannel queue (R225): line number in the slice, data of a write, class, priority, port (64 for none), turn and cycle of entry, and its place in the order of arrival. -/
structure DAcc where
  line : Nat := 0
  data : BitVec 512 := 0
  cls : Nat := 2
  prio : Nat := 0
  port : Nat := 64
  entered : Nat := 0
  seq : Nat := 0
  /-- its row was opened for it: the column command is no hit on an open row -/
  opened : Bool := false
  /-- a replay of a held WR (R270) -/
  replay : Bool := false
  /-- the line comes from a patch entry, whose spare copy is poisoned (R247, R248) -/
  patched : Bool := false
  bad : Bool := false
  use : DUse := .write
  /-- a WR that carries a way written as valid-dirty or poisoned (R271) -/
  dirty : Bool := false
deriving DecidableEq, Repr, Inhabited

/-- A command laid down for a later controller cycle (R235, R236, R240, R241, R243): its cycle, code, rank, bank field, row and column field; the banks it closes, or stalls for `len` cycles; for how long the rank then takes no command but PRE (`busy`), or no ACT (`noAct`); the last cycle, plus one, at which its banks may still be activated before it (0: no such limit); whether it lowers activation counts; and whether it is refresh management of R240. -/
structure Laid where
  at_ : Nat := 0
  code : Nat := 0
  rank : Nat := 0
  bank : Nat := 0
  row : Nat := 0
  col : Nat := 0
  banks : List Nat := []
  len : Nat := 0
  busy : Nat := 0
  noAct : Nat := 0
  limit : Nat := 0
  refresh : Bool := false
  managed : Bool := false
deriving DecidableEq, Repr, Inhabited

/-- A DRAM patch entry (R247): its line and the spare copy. -/
structure Patch where
  line : Nat := 0
  poisoned : Bool := false
  spare : BitVec 512 := 0
deriving DecidableEq, Repr, Inhabited

/-- One subchannel. Times are controller cycles of `cyc`, stored plus one so that zero means never; banks are keyed rank × 32 + bank index. -/
structure Sub where
  cyc : Nat := 0
  seq : Nat := 0
  rq : List DAcc := []
  wq : List DAcc := []
  /-- writes that the slice holds until an entry of the write queue frees (R225) -/
  held : List DAcc := []
  /-- the turn under way: its entry, whether its first group has been served, and entries of C0 and C1 turns of this round whose service moves to an open turn (R142) -/
  entry : Nat := 0
  served : Bool := false
  owed : List Nat := []
  /-- commands laid down for later cycles -/
  laid : List Laid := []
  /-- when each rank's refresh falls due (R235) -/
  refAt : Tab Nat := ⟨[]⟩
  /-- delay steps by which tracking has moved a device's capture point since its trim word was set (R263), by rank × 16 + device -/
  tracked : List (Nat × Int) := []
  /-- reads whose RD has issued -/
  inflight : List DAcc := []
  /-- open rows, plus one -/
  openRow : Tab Nat := ⟨[]⟩
  tAct : Tab Nat := ⟨[]⟩
  tPre : Tab Nat := ⟨[]⟩
  tRd : Tab Nat := ⟨[]⟩
  tWr : Tab Nat := ⟨[]⟩
  /-- end of the last bank stall of a bank (R236) -/
  stallEnd : Tab Nat := ⟨[]⟩
  /-- until when a rank takes no command but PRE; until when it takes no ACT (tREFSBRD); the end of the back-off under way -/
  rankBusy : Tab Nat := ⟨[]⟩
  actBusy : Tab Nat := ⟨[]⟩
  backoffEnd : Nat := 0
  /-- the ACTs of the last tFAW: rank, time -/
  acts : List (Nat × Nat) := []
  /-- column commands of the current turn: the turn, how many -/
  colTurn : Nat := 0
  colCount : Nat := 0
  drain : Bool := false
  raa : Tab Nat := ⟨[]⟩
  /-- ranks with a postponed refresh (R236) -/
  postponed : List Nat := []
  patches : List Patch := []
  /-- WRs held for replay while write CRC is on, and the replays made of each (R270) -/
  crcHeld : List DAcc := []
  crcTries : Tab Nat := ⟨[]⟩
deriving DecidableEq, Repr, Inhabited

/-- One DDR5 channel engine: its two subchannels, the turn table in force with its dropped entries, the table that a latch has brought in and the next round takes, the polls since the refresh rate last rose, the SPD copies of its two slots, and its training and calibration. -/
structure Ddr where
  sub0 : Sub := {}
  sub1 : Sub := {}
  /-- turn-table entries; an image not loaded is all open -/
  table : List Nat := []
  dropped : List Nat := []
  nextTable : Option (List Nat) := none
  polls : Nat := 0
  spd0 : List (BitVec 8) := []
  spd1 : List (BitVec 8) := []
  /-- b of R265: the write offset that training found, by subchannel, rank and device (`oscKey`) -/
  bases : List (Nat × Int) := []
  /-- calibration: the next rank in turn (rank × 2 + subchannel), and when the last request was raised (AON cycles) (R264) -/
  calNext : Nat := 0
  calAt : Nat := 0
  /-- when TRAIN began on the channel (AON cycles) -/
  trainAt : Nat := 0
  /-- refresh interval of the next refresh, as a factor: 1, 2 or 4 -/
  rate : Nat := 1
  /-- SCRUB walk: next set, and when the lap began (µs plus one; 0 before the first) (R411, R414) -/
  scrubSet : Nat := 0
  scrubAt : Nat := 0
  /-- laps completed; the 16 most recent corrected locations, each with the lap in which it was corrected; corrections by device in the lap under way; and whether this lap has been reported overdue -/
  laps : Nat := 0
  cands : List (Nat × Nat) := []
  devCount : Tab Nat := ⟨[]⟩
  overdue : Bool := false
  /-- the training step that has failed once and is run again (R261) -/
  tries : Nat := 0
deriving DecidableEq, Repr, Inhabited

/-! ### Hinge unit, drift unit and keep area -/

/-- Due work for the move slots (Table 11-4): its cause code, the logical region, the physical region of a sweep or format or the named target of a driver move, the descriptor that waits for it, and whether a placement answer waits for this format (R356). -/
structure Work where
  cause : Nat := 0
  region : Nat := 0
  prn : Nat := 0
  named : Bool := false
  desc : Option (Nat × Nat) := none
  urgent : Bool := false
deriving DecidableEq, Repr, Inhabited

/-- A move slot (R348 to R352): region, cause, source, target, cursor, the last cursor in the journal, the next stripe to copy, the stripes in flight and those written ahead of the cursor. -/
structure MoveSlot where
  cause : Nat := 0
  region : Nat := 0
  src : Nat := 0
  tgt : Nat := 0
  cursor : Nat := 0
  jcursor : Nat := 0
  /-- a stripe has been destaged at the target at or above the last MOVE_CURSOR in the journal (R351) -/
  exposed : Bool := false
  next : Nat := 0
  flying : List Nat := []
  written : List Nat := []
  desc : Option (Nat × Nat) := none
deriving DecidableEq, Repr, Inhabited

/-- A journal entry (Table 11-9). -/
structure JEntry where
  typ : Nat := 0
  idx : Nat := 0
  value : Nat := 0
  aux : Nat := 0
deriving DecidableEq, Repr, Inhabited

/-- A journal block (Table 11-8). -/
structure JBlock where
  seq : Nat := 0
  entries : List JEntry := []
deriving DecidableEq, Repr, Inhabited

/-- The superblock (Table 11-10): sequence, replay start, checkpoint slot, clean mark, tail, writer's variant, failed dies (9s + q) and patch records. -/
structure Superblock where
  seq : Nat := 0
  j0 : Nat := 0
  slot : Nat := 0
  clean : Bool := false
  tail : Nat := 0
  variant : Nat := 0
  failed : List Nat := []
  patches : List (BitVec 64) := []
deriving DecidableEq, Repr, Inhabited

/-- A checkpoint slot's copy of the hinge and pip tables; entries not listed are those of a first boot. -/
structure Ckpt where
  hinge : Tab Nat := ⟨[]⟩
  pip : Tab Nat := ⟨[]⟩
  epoch : Nat := 0
deriving DecidableEq, Repr, Inhabited

/-- The keep area of the dies, which no reset clears: both superblock copies, both checkpoint slots, the journal blocks and the epoch each reference row was written in (plus one), by stripe group × 32 + row. -/
structure Keep where
  sbA : Option Superblock := none
  sbB : Option Superblock := none
  ckA : Ckpt := {}
  ckB : Ckpt := {}
  blocks : List JBlock := []
  refRows : Tab Nat := ⟨[]⟩
deriving DecidableEq, Repr, Inhabited

/-- The hinge unit. Table entries not listed are those of a first boot (R368) made in age epoch `bootEpoch`. -/
structure Hinge where
  mounted : Bool := false
  bootEpoch : Nat := 0
  hinge : Tab Nat := ⟨[]⟩
  pip : Tab Nat := ⟨[]⟩
  /-- regions in state 0 or 1 that have joined the pool, raw regions and occupied regions, by stripe group -/
  poolN : Tab Nat := ⟨[]⟩
  rawN : Tab Nat := ⟨[]⟩
  occN : Tab Nat := ⟨[]⟩
  retired : Nat := 0
  dead : Nat := 0
  /-- released regions that have not joined the pool: region, sequence of the block that holds the release (R352) -/
  limbo : List (Nat × Nat) := []
  /-- pinned stripes: region × 16,384 + stripe, once for each pin (R351) -/
  pins : List Nat := []
  due : List Work := []
  slots : Tab MoveSlot := ⟨[]⟩
  /-- active slots -/
  active : List Nat := []
  /-- regions released since the pool scan under way began (R346) -/
  freed : List Nat := []
  poolPos : Nat := 0
  poolAcc : List (Nat × Nat) := []
  poolTop : Option (Nat × Nat) := none
  cache : List (Nat × Nat) := []
  cacheTop : Option (Nat × Nat) := none
  regPos : Nat := 0
  /-- lowest wear of an in-use region found in this pass, and its region -/
  regLow : Option (Nat × Nat) := none
  lowArmed : Bool := true
  moves : Nat := 0
  /-- journal: next sequence, entries of the open block, when its first entry came (AON cycles), blocks being written, sequence of the first block not durable -/
  seq : Nat := 0
  open_ : List JEntry := []
  openAt : Nat := 0
  writing : List JBlock := []
  since : Nat := 0
  /-- block number below which the journal must be durable for stripes destaged at the target of a move (R112, R351) -/
  expSeq : Nat := 0
  ckptOn : Bool := false
  ckptSlot : Nat := 0
  ckptJ0 : Nat := 0
  ckptDescs : List (Nat × Nat) := []
  failed : List Nat := []
  /-- hinge words (region div 2) and pip entries that an uncorrectable SRAM error has put out of use (Table 13-5) -/
  badHinge : List Nat := []
  badPip : List Nat := []
  /-- regions chosen as targets and held for a trim that re-points (R357) -/
  trimHeld : List Nat := []
  /-- rebuild under way by stripe group: regions whose moves are not yet ended -/
  rebuilding : List Nat := []
  rebuildShort : List Nat := []
deriving DecidableEq, Repr, Inhabited

/-- The drift unit: E_a, whether an advance is held, the AON cycle the period began, advances owed, the map by stripe group × 4 + wear bucket, read pointers by stripe group × 32 + row, counts of R372 by oldest value, deferred dies (channel × 8 + die), and calibrations due: stripe group and whether with a sweep. -/
structure Drift where
  e : Nat := 0
  held : Bool := false
  periodAt : Nat := 0
  owed : Nat := 0
  map : Tab Nat := ⟨[]⟩
  pointer : Tab Nat := ⟨[]⟩
  ages : Tab Nat := ⟨[]⟩
  deferred : List Nat := []
  /-- those of them that were found too cold (R388) -/
  cold : List Nat := []
  cals : List (Nat × Bool) := []
deriving DecidableEq, Repr, Inhabited

/-! ### Media -/

/-- The content of one die line: line bytes, metadata word, and whether its bytes are undefined (R287, R289, R409). A line never written reads as a blank line. -/
structure MLine where
  data : BitVec 512 := 0
  metaWord : Nat := 0xFFFF
  bad : Bool := false
  /-- hard-failed with no patch entry (R409) -/
  hard : Bool := false
deriving DecidableEq, Repr, Inhabited

/-- Die states (R284). -/
inductive DieSt where
  | idle | sensing | programming | suspended | other
deriving DecidableEq, Repr, Inhabited

/-- The array operation a die runs, other than a program (R281): READ of a line at the code it has captured, IDENTIFY, CALIBRATE, RESET or initialisation. -/
inductive ChipOp where
  | none | read (dla code : Nat) | identify | calibrate | reset
deriving DecidableEq, Repr, Inhabited

/-- The inside of a die (R284 to R294): the array operation; the slots of a program that runs or stands suspended, whether it is suspended, and a SUSPEND not yet taken; the read register, or that it holds the identify record; the load slots (slot, address, line) and the training slot; the upper-address and reference registers; the features; the framing and the echo mode in force; and the status bits that are not seen from these. -/
structure Chip where
  op : ChipOp := .none
  pgm : Nat := 0
  susp : Bool := false
  asked : Bool := false
  reg : Option MLine := none
  ident : Bool := false
  slots : List (Nat × Nat × MLine) := []
  train : BitVec 768 := 0
  padr : Nat := 0
  refs : Tab Nat := ⟨[]⟩
  drive : Nat := 0x21
  vrefDq : Nat := 30
  vrefCa : Nat := 30
  seed : Nat := 0
  safe : Bool := true
  echo : Nat := 0
  cmdErr : Bool := false
  caPar : Bool := false
  initDone : Bool := false
  pdone : Bool := false
  pfail : Nat := 0
deriving DecidableEq, Repr, Inhabited

/-- A READ that waits at a die, or is being served by it: the scheduler's read, which attempt, the die line, the reference code, and what orders it. -/
structure DRead where
  rid : Nat := 0
  detour : Bool := false
  pos : Nat := 0
  dla : Nat := 0
  code : Nat := 0
  cls : Nat := 0
  prio : Nat := 0
  port : Nat := 64
  seq : Nat := 0
  /-- may use a die in its window (R321) -/
  cut : Bool := false
  /-- the maintenance requester under whose grant it runs (Table 14-1); 7 for none -/
  owner : Nat := 7
deriving DecidableEq, Repr, Inhabited

/-- One die: its state, whether a program is running or suspended in it, whether SUSPEND has been sent, when the operation under way began (AON cycles), the read being sensed, the result awaiting DOUT, the waiting reads, the loaded slots (slot, stripe-buffer entry, round of loading), the slots of the running program; and the die itself, with what it was before the last array-operation frame and that frame (Table 9-11). -/
structure Die where
  st : DieSt := .idle
  pgm : Bool := false
  suspSent : Bool := false
  since : Nat := 0
  cur : Option DRead := none
  result : Option DRead := none
  queue : List DRead := []
  slots : List (Nat × Nat × Nat) := []
  running : List (Nat × Nat) := []
  chip : Chip := {}
  prior : Chip := {}
  last : Nat × Nat := (0, 0)
  /-- a program has started in the window under way (R313) -/
  started : Bool := false
  /-- CALIBRATE waits for this die (R304), and is under way -/
  zqDue : Bool := false
  calibrating : Bool := false
  /-- the frame has been sent once more, and the slots missing before a PROGRAM have been loaded once more (Table 9-11) -/
  resent : Bool := false
  reloaded : Bool := false
  /-- times (µs) of late cases within the last second (R307) -/
  lateAt : List Nat := []
deriving DecidableEq, Repr, Inhabited

/-- A transfer that waits for a DQ bus: a DOUT of a die's result, or a LOAD of one line of a stripe-buffer entry. -/
structure Xfer where
  load : Bool := false
  die : Nat := 0
  buf : Nat := 0
  pos : Nat := 0
  cls : Nat := 0
  prio : Nat := 0
  port : Nat := 64
  seq : Nat := 0
deriving DecidableEq, Repr, Inhabited

/-- One Cexus channel: its dies, the transfers waiting for its bus, the DOUT on the bus, the media patch table (die, D, spare), identify bytes and the next dies of the link check and temperature poll. -/
structure Cex where
  dies : Tab Die := ⟨[]⟩
  xq : List Xfer := []
  cur : Option Xfer := none
  patches : List (Nat × Nat × MLine) := []
  ident : Tab (List (BitVec 8)) := ⟨[]⟩
  /-- dies found failed at TRAIN, which enter MOUNT as failed dies (R301) -/
  failed : List Nat := []
  linkDie : Nat := 0
  /-- when the last link check ran, and when training began (AON cycles) (R303, R301) -/
  linkAt : Nat := 0
  trainAt : Nat := 0
  /-- baselines of the offsets, by the address of their trim words (R300 step 9) -/
  bases : List (Nat × Int) := []
  zqDie : Nat := 0
  scrubDie : Nat := 0
  scrubSlot : Nat := 0
  scrubLine : Nat := 0
  /-- what the hinge unit answered for the slot under way: its region (plus one), generation and codes (R413) -/
  scrubRegion : Nat := 0
  scrubGen : Nat := 0
  scrubCode : Nat := 0
  scrubAt : Nat := 0
  overdue : Bool := false
  /-- training step that has failed once on a die and is run again (R301) -/
  tries : Tab Nat := ⟨[]⟩
  /-- dies that have sent a TEMP reading since power-up (R305) -/
  polled : List Nat := []
deriving DecidableEq, Repr, Inhabited

/-- Who asked for a media read: a fill, an absent line of a stripe-buffer entry, a line that a move copies into an entry of a group, or PATCH_ADD. -/
inductive MUse where
  | fill
  | absent (buf j : Nat)
  | copy (grp buf j : Nat)
  | patch (ring idx : Nat)
  /-- the eight other lines of a repair, for its entry of the stripe buffer (R408) -/
  | mend (buf : Nat)
deriving DecidableEq, Repr, Inhabited

/-- One attempt of a read: its code, positions not yet read, lines read, positions found uncorrectable, whether it waits (R320, R332, R398), whether it is over, and what it gave: a line, or a zero-line indication. -/
structure Attempt where
  on : Bool := false
  code : Nat := 0
  need : List Nat := []
  got : List (Nat × MLine) := []
  bad : List Nat := []
  blocked : Bool := false
  ended : Bool := false
  ok : Bool := false
  zero : Bool := false
  line : MLine := {}
deriving DecidableEq, Repr, Inhabited

/-- A read at a media scheduler: the FILL_FWD it came as (or an internal one), its two paths, and how it was begun. -/
structure MRead where
  id : Nat := 0
  pkt : Pkt := {}
  use : MUse := .fill
  direct : Attempt := {}
  detour : Attempt := {}
  /-- code of the oldest bucket, where the region is split (R322) -/
  old : Option Nat := none
  parallel : Bool := false
  /-- the detour path was taken from the start (R398) -/
  detourFirst : Bool := false
  /-- the retry at the oldest code has been made (R322) -/
  retried : Bool := false
  /-- waits for the stripe-buffer entry of its stripe to hold its line (R323) -/
  atBuf : Bool := false
deriving DecidableEq, Repr, Inhabited

/-- Who fills a stripe-buffer entry: a destage, a move, a repair of a line (R408), or POISON_CLEAR with the lines it names (R406). -/
inductive BufUse where
  | destage (slice : Nat)
  | move (slot stripe : Nat)
  | repair (pos source lla : Nat) (rebuilt : Bool)
  | clear (ring idx : Nat) (named : List Nat)
deriving DecidableEq, Repr, Inhabited

/-- A stripe-buffer entry (R329): the stripe, its placement, its lines (eight data lines and the parity line at index 8), which of them it holds, those still to be read, the positions still to be programmed and the failures of each. -/
structure SBuf where
  id : Nat := 0
  use : BufUse := .destage 0
  group : Nat := 0
  dla : Nat := 0
  prn : Nat := 0
  gen : Nat := 0
  stripe : Nat := 0
  want : Nat := 0
  fresh : Bool := false
  lines : Tab MLine := ⟨[]⟩
  held : List Nat := []
  /-- lines that POISON_CLEAR has found poisoned -/
  cleared : List Nat := []
  formed : Bool := false
  todo : List Nat := []
  fails : Tab Nat := ⟨[]⟩
deriving DecidableEq, Repr, Inhabited

/-- A channel group's scheduler: phase, when it began, rounds, arrival count, reads, stripe buffer, numbers of the next read and entry. -/
structure Grp where
  phase : Nat := 0
  phaseAt : Nat := 0
  round : Nat := 0
  seq : Nat := 0
  reads : List MRead := []
  bufs : List SBuf := []
  nextRead : Nat := 0
  nextBuf : Nat := 0
  /-- media turn table, dropped entries, and the image the next round takes, by die position -/
  table : Tab (List Nat) := ⟨[]⟩
  nextTable : Tab (List Nat) := ⟨[]⟩
  dropped : Tab (List Nat) := ⟨[]⟩
deriving DecidableEq, Repr, Inhabited

/-- A queued repair (R407): physical region, generation, stripe, die position, die line address, source, logical line address. -/
structure Repair where
  prn : Nat := 0
  gen : Nat := 0
  group : Nat := 0
  dla : Nat := 0
  pos : Nat := 0
  source : Nat := 0
  lla : Nat := 0
deriving DecidableEq, Repr, Inhabited

/-! ### Admission, maintenance arbiters, power, boot and test access -/

/-- The outcome of an admission check or recheck (R151): the dropped image indices by channel (128 added for a Cexus channel), the eighths taken off each scale by port × 2 + class, whether a port-set rule is broken, and whether a set still fails. -/
structure Recheck where
  drops : Tab (List Nat) := ⟨[]⟩
  scales : Tab Nat := ⟨[]⟩
  broken : Bool := false
  unmet : Bool := false
deriving DecidableEq, Repr, Inhabited

/-- Admission (R146 to R153): causes gathered in this latch round and those due for the recheck of this round (bits 0 to 2 of Table 4-5 as RGL_OVB_STATE.cause orders them, bit 4 a change of service), the steps that the due recheck counts with, its result where it has run, the outcome in force, and turn-table images staged: media, channels, image. -/
structure Adm where
  gathered : Nat := 0
  due : Nat := 0
  dueSteps : List Nat := []
  result : Option Recheck := none
  cur : Recheck := {}
  tables : List (Bool × List Nat × List Nat) := []
  /-- maintenance floors in force, by channel (128 added for a Cexus channel) -/
  floors : Tab Nat := ⟨[]⟩
deriving DecidableEq, Repr, Inhabited

/-- One maintenance arbiter (R425 to R430): ranks, bye interval, holder (7 none), when each waiting requester raised its request (AON cycles, plus one), grants given, grants since the last bye, whether a new interval has made the next grant the bye, and the counts of R430 by requester. -/
structure Arb where
  rank : Nat := 0x13BA1
  bye : Nat := 4
  holder : Nat := 7
  raised : Tab Nat := ⟨[]⟩
  number : Nat := 0
  sinceBye : Nat := 0
  byeNext : Bool := false
  grants : Tab Nat := ⟨[]⟩
  waits : Tab Nat := ⟨[]⟩
  longest : Tab Nat := ⟨[]⟩
deriving DecidableEq, Repr, Inhabited

/-- A ledger audit under way (R440): its descriptor, the latches it has seen, and what the check found. -/
structure Audit where
  ring : Nat := 0
  idx : Nat := 0
  stage : Nat := 0
  found : Option (Nat × Nat × Int) := none
deriving DecidableEq, Repr, Inhabited

/-- A MODE_REQUEST or another transition under way: the target, the descriptor that asked, and the cause code it will record. -/
structure Trans where
  target : Mode := .run
  desc : Option (Nat × Nat) := none
  cause : Nat := 0
deriving DecidableEq, Repr, Inhabited

/-- A thermal zone (R496): rounds since own(z) last changed. -/
structure Zone where
  rounds : Nat := 8
deriving DecidableEq, Repr, Inhabited

/-- A thermal-port sensor (R501): when its last reading arrived (AON cycles, plus one), and consecutive valid readings since it failed. -/
structure Sensor where
  at_ : Nat := 0
  good : Nat := 0
deriving DecidableEq, Repr, Inhabited

/-- A register-port access that waits for the wake of HUSH (R482, R544): whether it writes, whether it has the user attribute, address and value. -/
structure RegAcc where
  write : Bool := false
  user : Bool := false
  addr : Nat := 0
  value : Word := 0
deriving DecidableEq, Repr, Inhabited

/-- Power, modes and heat. -/
structure Pwr where
  trans : Option Trans := none
  /-- domains whose power-up waits for PD_UP_ACK -/
  rising : List Nat := []
  /-- HUSH entry under way (Table 16-5) -/
  hushing : Bool := false
  /-- a wake is under way (Table 16-6), and the cause of the DRAIN that is to follow it, 0 for none -/
  waking : Bool := false
  wakeDrain : Nat := 0
  /-- register accesses that wait for the wake, oldest first -/
  held : List RegAcc := []
  /-- notices that have arisen while the ring engine was held (R482) -/
  notices : List Notice := []
  /-- the DRAIN under way or last made: when it began (AON cycles), and the lines written to media during it -/
  drainAt : Nat := 0
  drainLines : Nat := 0
  /-- PWRFAIL_N is low -/
  pwrfail : Bool := false
  /-- when the last header beat or register write arrived (AON cycles), for the idle timer (R486) -/
  activeAt : Nat := 0
  zones : Tab Zone := ⟨[]⟩
  sensors : Tab Sensor := ⟨[]⟩
  budgetStep : Nat := 0
  /-- unit resets under way, in their order: PD_RINGS (4) or PD_TELE (5), and when the domain was put in reset (AON cycles, plus one), 0 while its fence is not yet quiet (R561) -/
  unitResets : List (Nat × Nat) := []
deriving DecidableEq, Repr, Inhabited

/-- A serial-memory operation under way (R521): what it is for. -/
inductive SpiUse where
  | none | read | imageErase | imageProgram | imageHeader | imageVerify | lcErase | lcProgram
deriving DecidableEq, Repr, Inhabited

/-- A life-cycle record to be written (R519): its state, and the header of the LC_CHANGE that asked for it. -/
structure LcWrite where
  state : Nat := 0
  hdr : Nat := 0
deriving DecidableEq, Repr, Inhabited

/-- Boot and life cycle: the image copies in the serial memory as LOAD found them and as later operations have left them, the image in use, the record in force, and the IMAGE_WRITE and record write under way. -/
structure Boot where
  sfdp : Bool := false
  density : Nat := 0
  copyA : List (BitVec 8) := []
  copyB : List (BitVec 8) := []
  /-- the image in use, and whether a valid copy is held -/
  image : List (BitVec 8) := []
  held : Bool := false
  /-- operation under way, and the one that follows the record write -/
  spi : SpiUse := .none
  later : SpiUse := .none
  /-- byte offset of the operation under way of an image write, its bytes, its descriptor and its copy -/
  offset : Nat := 0
  written : List (BitVec 8) := []
  writeDesc : Option (Nat × Nat) := none
  writeCopy : Nat := 0
  lcNew : Option LcWrite := none
  /-- the record found or written last: whether there is one, its slot, count, state and pending bit -/
  lcHas : Bool := false
  lcSlot : Nat := 0
  lcCount : Nat := 0
  lcState : Nat := 0
  lcPending : Bool := false
  /-- when LOAD began (AON cycles) -/
  loadAt : Nat := 0
  /-- what the presence probe and the SPD reads of TRAIN find -/
  dimms : List DimmFound := []
  /-- MOUNT took a superblock with clean = 0 (R480) -/
  unclean : Bool := false
deriving DecidableEq, Repr, Inhabited

/-- The test access port (R584 to R586): the instruction in force and the boundary chain's last sample. -/
structure Tap where
  instr : Nat := 2
  chain : Nat := 0
deriving DecidableEq, Repr, Inhabited

/-! ### The whole -/

/-- The part of the state few commands change: the mode machine, the latches that only a reset clears, and the life-cycle state. -/
structure Ctl where
  mode : Mode := .reset
  prev : Mode := .reset
  /-- bits of GLB_DEADBOLT set since RST_N (R16, R559) -/
  bolts : BitVec 14 := 0
  /-- PWR_MODE.shutdown, latched until RST_N (R503) -/
  shutdown : Bool := false
  drainDone : Bool := false
  thermOff : Bool := false
  /-- life-cycle state in force (R516) -/
  lc : Nat := 0
  cause : Nat := 0
  /-- LOAD, TRAIN or MOUNT has ended in failure (R478) -/
  failed : Bool := false
deriving DecidableEq, Repr, Inhabited

/-- Every unit of the block. -/
structure Units where
  /-- the build variant (R5), which nothing changes -/
  v : Variant := .v72
  /-- AON cycles of 10 ns since the last power-up of PD_AON -/
  now : Nat := 0
  /-- how many free values have been taken (the model's own field) -/
  fresh : Nat := 0
  /-- what the last command presented to the outside -/
  out : List Out := []
  regs : Regs := {}
  ports : Tab Port := ⟨[]⟩
  /-- context caches: cluster × 1,024 + set, most recent first (R96) -/
  cache : Tab (List CtxEntry) := ⟨[]⟩
  /-- context records of the bank of even and of odd epochs (R99) -/
  ctxEven : Tab (BitVec 160) := ⟨[]⟩
  ctxOdd : Tab (BitVec 160) := ⟨[]⟩
  /-- record changes staged by descriptors, oldest first (R98) -/
  ctxStaged : List (Nat × BitVec 160) := []
  flushSeq : Tab Nat := ⟨[]⟩
  keys : Tab KeySlot := ⟨[]⟩
  keyPort : KeyPort := {}
  net : List Pkt := []
  nextPkt : Nat := 0
  /-- where the flits of the packets in flight stand, and the routers' own state -/
  transit : Transit := {}
  /-- inputs stopped by a block fault (Table 5-7), by endpoint number -/
  stopped : List Nat := []
  /-- tickets not free at their holder, by pool -/
  tickets : Tab Nat := ⟨[]⟩
  /-- router outputs in slot mode (R172), by router × 32 + output -/
  slotMode : List Nat := []
  slices : Tab Slice := ⟨[]⟩
  stg : Staging := {}
  rings : Rings := {}
  tele : Tele := {}
  /-- state of each power domain (Table 16-4): 0 off, 1 on, 2 held, 3 retained -/
  pd : Tab Nat := ⟨[]⟩
  /-- domains whose fence stands -/
  fences : List Nat := []
  ddr : Tab Ddr := ⟨[]⟩
  hng : Hinge := {}
  drf : Drift := {}
  keep : Keep := {}
  /-- contents of the dies, by (channel × 8 + die) × 2^31 + D; no reset clears them -/
  media : Tab MLine := ⟨[]⟩
  cex : Tab Cex := ⟨[]⟩
  grp : Tab Grp := ⟨[]⟩
  repairs : List Repair := []
  /-- patch records of both kinds in the order the patches were added (R419) -/
  patchLog : List Nat := []
  adm : Adm := {}
  /-- maintenance arbiters, by channel (128 added for a Cexus channel) -/
  arbs : Tab Arb := ⟨[]⟩
  audit : Option Audit := none
  pwr : Pwr := {}
  boot : Boot := {}
  tap : Tap := {}
  /-- context-record words (handle div 2) that an uncorrectable SRAM error has put out of use (Table 13-5) -/
  badCtx : List Nat := []
  /-- the handle that CTX_CMD read last, for CTX_STAT.staged -/
  ctxRead : Option Nat := none
deriving DecidableEq, Repr, Inhabited

/-- Why a step could stop with a fault. No meaning of this model raises one: every command has an effect, or has none because its condition does not hold. -/
inductive Fault where
  /-- Raised by nothing; kept so that the type names what a fault would be. Safe. -/
  | none
deriving DecidableEq, Repr

/-- Why a step can be refused. -/
inductive Refusal where
  /-- Raised only by an arm of the dispatcher whose command has no meaning yet. Safe. -/
  | notModelled (mnemonic : String)
deriving DecidableEq, Repr

/-- The state of the block and the queue of commands that wait, first in, first out. -/
structure State where
  pending : List Instr := []
  ctl : Ctl := {}
  u : Units := {}
deriving DecidableEq, Repr

/-- The block right after RST_N has fallen and risen: mode RESET, every register at its Reset column, every table and queue empty, no command waiting. -/
def State.reset : State := {}

end Sys2Proof.Machine
end

