-- ==== Sys2Proof/Machine/Operands.lean ====
section
/-! DEFINITION. The operand forms of a request: the fields of a header unit, the rules a header must meet, and the completion word (Tables 2-1, 2-2 and 2-7). -/

namespace Sys2Proof.Machine

/-! ### Header unit (Table 2-1) -/

/-- Bits of a header unit. -/
def hBits (h : BitVec 128) (lo w : Nat) : Nat := nbits h.toNat lo w
/-- CMD. -/
def hCmd (h : BitVec 128) : Nat := hBits h 0 4
/-- P, poison. -/
def hP (h : BitVec 128) : Nat := hBits h 6 1
/-- H, half select. -/
def hH (h : BitVec 128) : Nat := hBits h 7 1
/-- TAG. -/
def hTag (h : BitVec 128) : Nat := hBits h 8 12
/-- CTX. -/
def hCtx (h : BitVec 128) : Nat := hBits h 20 20
/-- LLA. -/
def hLla (h : BitVec 128) : Nat := hBits h 40 39
/-- MASK. -/
def hMask (h : BitVec 128) : Nat := hBits h 80 32

/-- Exclusive OR of bytes 0 to n − 1 of a number. -/
def xorBytesOf (x n : Nat) : Nat := (List.range n).foldl (fun a i => a ^^^ nbits x (8 * i) 8) 0

/-- HCHK matches bytes 0 to 14. -/
def hcheckOk (h : BitVec 128) : Bool := xorBytesOf h.toNat 15 == hBits h 120 8

/-- Data units of a command (Table 2-2). -/
def dataUnits (cmd : Nat) : Nat := if cmd = 2 then 2 else if cmd = 3 then 1 else 0

/-- READ, WRITE, WRITE_MASKED or PREFETCH: a command that names a line. -/
def isLineCmd (cmd : Nat) : Bool := 1 ≤ cmd && cmd ≤ 4
/-- WRITE or WRITE_MASKED. -/
def isWriteCmd (cmd : Nat) : Bool := cmd == 2 || cmd == 3
/-- READ or PREFETCH. -/
def isReadCmd (cmd : Nat) : Bool := cmd == 1 || cmd == 4
/-- FLUSH or FLUSH_ALL. -/
def isFlushCmd (cmd : Nat) : Bool := cmd == 5 || cmd == 6

/-- A reserved field or command, or a field restricted to other commands, is set (R21, R57, R58). -/
def headerMalformed (h : BitVec 128) : Bool :=
  let c := hCmd h
  c == 0 || 6 < c || hBits h 4 2 != 0 || hBits h 79 1 != 0 || hBits h 112 8 != 0 ||
  (hP h == 1 && !isWriteCmd c) || (hH h == 1 && c != 3) || (hMask h != 0 && c != 3) ||
  (hCtx h != 0 && c == 6) || (hLla h != 0 && isFlushCmd c)

/-! ### Completion word (Table 2-7) -/

/-- The completion word: STATUS, TAG, D, Z, M, X, POOL, ORD and the check byte. -/
def completionWord (status tag d z m x pool ord : Nat) : BitVec 64 :=
  let w := status + tag * 2 ^ 4 + d * 2 ^ 16 + z * 2 ^ 17 + m * 2 ^ 18 + x * 2 ^ 19 + pool * 2 ^ 20 + ord * 2 ^ 24
  BitVec.ofNat 64 (w + xorBytesOf w 7 * 2 ^ 56)

end Sys2Proof.Machine
end

