-- ==== Sys2Proof/Config.lean ====
section
/-! DEFINITION. What an implementation fixes and the free values: constants with no body, so that no proof can see what they are. Each is applied to the plain counter `fresh` of State (or to the operands it depends on) and is marked in the assumption log. -/

namespace Sys2Proof.Config

/-- A number the spec leaves open; the argument is the model's counter of free values. -/
opaque freeNat : Nat → Nat

/-- A decision the spec leaves open. -/
opaque freeBool : Nat → Bool

/-- A line whose content the spec leaves open. -/
opaque freeLine : Nat → BitVec 512

/-- A bridge shows this packet one transit cycle later than its two (R179): by the transit cycle and the packet. -/
opaque bridgeLate : Nat → Nat → Bool

/-- The payload of an operation word, which is private to its two endpoints (R165), by packet. -/
opaque opWord : Nat → BitVec 256

/-- The buffer slot that a ticket reserves (R164): by pool and packet. -/
opaque slotOf : Nat → Nat → Nat

/-- The longest CRC alert latency, in nCK, that the JEDEC standard gives for a rate code of DDR5_n_GEOM (R270). -/
opaque crcLatency : Nat → Nat

/-- The window, in controller cycles, that the JEDEC standard allows the host after ALERT_N asks for a back-off, by rate code (R241). -/
opaque aboWindow : Nat → Nat

/-- The added preamble and postamble of mode register 8, in nCK (Table 7-3). -/
opaque mr8Extra : Nat

/-- tXS_DLL in nCK, as the JEDEC standard gives it for a rate code of DDR5_n_GEOM (R259). -/
opaque txsDll : Nat → Nat

/-- The delay range of a device's write offset (R266). -/
opaque oscRange : Nat → Int × Int

/-- A trim word as training left it, by its address (R275, R310). -/
opaque trimWord : Nat → BitVec 32

/-- Zafeah's manufacturer code, as the delivery view gives it (R586). -/
opaque manufacturer : BitVec 11

/-- What a test-access instruction leaves in an SRAM word: by the moment (the counter of free values), the SRAM and the word (R585). -/
opaque lostLine : Nat → Nat → Nat → BitVec 512

/-- What a test-access instruction leaves in a table held in SRAM, as cells (R585). -/
opaque lostCells : Nat → Nat → List (Nat × Nat)

end Sys2Proof.Config
end

