-- ==== Sys2Proof/Machine/Ops.lean ====
section
/-! DEFINITION. The operations every unit shares: counts of the variants, register access by field and by bank, free values, outputs, power domains and fences, and the lifts that make a meaning of an effect. -/

namespace Sys2Proof.Machine

/-! ### Variant figures (Table 0-1) -/

/-- The figure of V72, of V36 or of V18. -/
def pick {α : Type} (v : Variant) (a b c : α) : α :=
  match v with
  | .v72 => a
  | .v36 => b
  | .v18 => c

/-- Request ports (Table 0-1). -/
def nPorts (v : Variant) : Nat := pick v 64 32 16
/-- Port clusters (Table 0-1). -/
def nClusters (v : Variant) : Nat := pick v 8 4 2
/-- DDR5 channels (Table 0-1). -/
def nDdr (v : Variant) : Nat := pick v 16 8 4
/-- Cexus channels (Table 0-1). -/
def nCexus (v : Variant) : Nat := pick v 72 36 18
/-- Channel groups (Table 0-1). -/
def nGroups (v : Variant) : Nat := pick v 8 4 2
/-- Stripe groups (Table 0-1). -/
def nStripes (v : Variant) : Nat := pick v 64 32 16
/-- Logical regions (Table 0-1). -/
def nRegions (v : Variant) : Nat := pick v 4194304 2097152 1048576
/-- Physical regions (Table 0-1). -/
def nPhys (v : Variant) : Nat := nRegions v + 2048 * nStripes v
/-- Contexts (Table 0-1). -/
def nCtx (v : Variant) : Nat := pick v 1048576 524288 262144
/-- Logical address width (Table 0-1). -/
def laWidth (v : Variant) : Nat := pick v 45 44 43
/-- BLOCK_ID.variant (Table 0-1). -/
def variantCode (v : Variant) : Nat := pick v 1 2 3

/-- A privileged port is the last of its cluster ("Build variants"). -/
def privileged (p : Nat) : Bool := p % 8 == 7

/-! ### Registers -/

/-- Instances along one index of a register. -/
def Dim.count (v : Variant) : Dim → Nat
  | .one => 1
  | .ports => nPorts v
  | .ddr => nDdr v
  | .cexus => nCexus v
  | .groups => nGroups v
  | .stripes => nStripes v
  | .k n => n

/-- The same count on V72, which fixes the address map. -/
def Dim.full (d : Dim) : Nat := d.count .v72

/-- Byte address of instance (i, j) of a register. -/
def regAddr (r : Reg) (i j : Nat) : Nat := r.info.base + i * r.info.s1 + j * r.info.s2

/-- Reset value of an instance (Reset columns, R558). -/
def regReset (v : Variant) (r : Reg) (i : Nat) : Nat :=
  match r with
  | .BLOCK_ID => pick v 0x07A50111 0x07A50112 0x07A50113
  | .BLOCK_CAP => pick v 0x08481040 0x04240820 0x02120410
  | .PORT_n_CFG => if privileged i then 2 else 0
  | .STG_BUDGET => pick v 0x100 0x80 0x40
  | .STG_HOME_LO => pick v 0x76543210 0x76543210 0x3210
  | .STG_HOME_HI => pick v 0xFEDCBA98 0 0
  | .TELE_LAT_p_MIN => 0xFFFFFFFF
  | .DDR5_n_TIM_k => 0
  | r => r.info.reset

/-- A register's stored value. -/
def rawReg (u : Units) (r : Reg) (i j : Nat := 0) : Nat :=
  (tabGetD u.regs.cur (regAddr r i j) (BitVec.ofNat 32 (regReset u.v r i))).toNat

/-- Store a register's value. -/
def putReg (u : Units) (r : Reg) (i j x : Nat) : Units :=
  { u with regs := { u.regs with
      cur := tabPutD u.regs.cur (regAddr r i j) (BitVec.ofNat 32 (regReset u.v r i)) (BitVec.ofNat 32 x) } }

/-- A field's stored value. -/
def getF (u : Units) (f : Fld) (i j : Nat := 0) : Nat := nbits (rawReg u f.reg i j) f.lo f.w

/-- Store a field, leaving the other bits of its register as they are. -/
def putF (u : Units) (f : Fld) (i j x : Nat) : Units :=
  putReg u f.reg i j (nput (rawReg u f.reg i j) f.lo f.w x)

/-- The bank of an epoch (R553): bank A for even epochs, bank B for odd ones. -/
def bankOf (g : Regs) (e : Nat) : Tab Word := if e % 2 = 0 then g.bankA else g.bankB

/-- A register's value in the bank of an epoch. -/
def bankReg (u : Units) (e : Nat) (r : Reg) (i j : Nat := 0) : Nat :=
  (tabGetD (bankOf u.regs e) (regAddr r i j) (BitVec.ofNat 32 (regReset u.v r i))).toNat

/-- A configuration field as the requests of an epoch see it (R437). -/
def epF (u : Units) (e : Nat) (f : Fld) (i j : Nat := 0) : Nat := nbits (bankReg u e f.reg i j) f.lo f.w

/-- A configuration field in force. -/
def inF (u : Units) (f : Fld) (i j : Nat := 0) : Nat := epF u u.regs.epoch f i j

/-- A register's staged copy (R553). -/
def stagedReg (u : Units) (r : Reg) (i j : Nat := 0) : Nat :=
  (tabGetD u.regs.staged (regAddr r i j) (BitVec.ofNat 32 (regReset u.v r i))).toNat

/-- Write a staged copy. -/
def putStaged (u : Units) (r : Reg) (i j x : Nat) : Units :=
  { u with regs := { u.regs with
      staged := tabPutD u.regs.staged (regAddr r i j) (BitVec.ofNat 32 (regReset u.v r i)) (BitVec.ofNat 32 x) } }

/-! ### Free values, outputs, time -/

/-- A condition as a bit. -/
def bit (b : Bool) : Nat := if b then 1 else 0

/-- Take a free number below a bound (0 where the bound is 0). -/
def takeFree (u : Units) : Nat × Units := (Config.freeNat u.fresh, { u with fresh := u.fresh + 1 })

/-- Present an output. -/
def present (u : Units) (o : Out) : Units := { u with out := u.out ++ [o] }

/-- A trim word at its address; before training has found one, a free value (R275, R310). -/
def trimRaw (u : Units) (a : Nat) : Word := tabGetD u.regs.cur a (Config.trimWord a)

/-- Set a trim word. -/
def putTrim (u : Units) (a : Nat) (x : Word) : Units := { u with regs := { u.regs with cur := tabPutD u.regs.cur a (Config.trimWord a) x } }

/-- Add to the entry of a key, in a list without repeats. -/
def addAt (l : List (Nat × Int)) (k : Nat) (x : Int) : List (Nat × Int) :=
  match l with
  | [] => [(k, x)]
  | e :: t => if e.1 = k then (k, e.2 + x) :: t else e :: addAt t k x

/-- The entry of a key, zero where there is none. -/
def getAt (l : List (Nat × Int)) (k : Nat) : Int := ((l.find? fun e => e.1 == k).map fun e => e.2).getD 0

/-- Microseconds since the last power-up of PD_AON. -/
def usec (u : Units) : Nat := u.now / 100

/-! ### Power domains (Table 16-3) -/

/-- Index of PD_CLUSTER_n. -/
def pdCluster (n : Nat) : Nat := 11 + n
/-- Index of PD_DRAM_c. -/
def pdDram (c : Nat) : Nat := 19 + c
/-- Index of PD_MEDIA_g. -/
def pdMedia (g : Nat) : Nat := 35 + g
/-- Index of PD_HUB_k. -/
def pdHub (k : Nat) : Nat := 7 + k

/-- The index names a domain of the variant (R481). -/
def pdExists (v : Variant) (d : Nat) : Bool :=
  d < 11 || (11 ≤ d && d < 11 + nClusters v) || (19 ≤ d && d < 19 + nDdr v) || (35 ≤ d && d < 35 + nGroups v)

/-- Which domain holds a register's instance. -/
def regDomain (r : Reg) (i : Nat) : Nat :=
  match r.info.dom with
  | .aon => 0
  | .keys => 1
  | .core => 2
  | .rings => 4
  | .tele => 5
  | .integ => 6
  | .cluster => pdCluster (i / 8)
  | .dram => pdDram i
  | .media => pdMedia (i / 9)
  | .mediaG => pdMedia i

/-- State of a domain: 0 off, 1 on, 2 held, 3 retained; PD_AON is always on. -/
def pdState (u : Units) (d : Nat) : Nat := if d = 0 then 1 else tabGet u.pd d

/-- The domain is on. -/
def pdOn (u : Units) (d : Nat) : Bool := pdState u d == 1

/-- The fence of a domain stands (R181). -/
def fenced (u : Units) (d : Nat) : Bool := u.fences.contains d

/-- Raise or lower the fence of a domain. -/
def setFence (u : Units) (d : Nat) (up : Bool) : Units :=
  { u with fences := (u.fences.filter fun x => x != d) ++ if up then [d] else [] }

/-! ### Lifts -/

/-- A meaning that changes only the units. -/
def onU (s : State) (f : Ctl → Units → Units) : Host.Outcome State Fault Refusal :=
  .next { s with u := f s.ctl { s.u with out := [] } }

/-- A meaning that may also change the mode machine and its latches. -/
def onBoth (s : State) (f : Ctl → Units → Ctl × Units) : Host.Outcome State Fault Refusal :=
  let r := f s.ctl { s.u with out := [] }
  .next { s with ctl := r.1, u := r.2 }

end Sys2Proof.Machine
end

