-- ==== Sys2Proof/Machine/Flags.lean ====
section
/-! DEFINITION. Flags, saturating fields, counters and events: every way in which an effect leaves a mark of itself (R523 to R525, R533, R534). -/

namespace Sys2Proof.Machine

/-! ### Flags and count fields -/

/-- Set a flag. -/
def flag (u : Units) (f : Fld) (i : Nat := 0) (j : Nat := 0) : Units := putF u f i j 1

/-- Add to a counter field that stops at its largest value. -/
def addSat (u : Units) (f : Fld) (i j n : Nat) : Units :=
  putF u f i j (min (getF u f i j + n) (2 ^ f.w - 1))

/-- Add to a counter field that counts modulo its width. -/
def addMod (u : Units) (f : Fld) (i j n : Nat) : Units :=
  putF u f i j ((getF u f i j + n) % 2 ^ f.w)

/-! ### Counters (R523 to R525) -/

/-- Add to counter n, wrapping at 2^48; a wrap sets the overflow bit, or counts in the next counter of a chain. -/
def countWrap (u : Units) : Nat → Nat → Nat → Units
  | 0, _, _ => u
  | fuel + 1, n, k =>
    let x := tabGet u.tele.counters n + k
    let u := { u with tele := { u.tele with counters := tabPut u.tele.counters n (x % 2 ^ 48) } }
    if x < 2 ^ 48 then u
    else if inF u F.TELE_CSEL_n_chain n = 1 ∧ n < 1471 then countWrap u fuel (n + 1) 1
    else putReg u .TELE_OVF_k (n / 32) 0 (rawReg u .TELE_OVF_k (n / 32) ||| 2 ^ (n % 32))

/-- An event of counter n in k cycles of its clock; a counter that is the upper part of a chain ignores its own event (R525). -/
def countN (u : Units) (n k : Nat) : Units :=
  if 0 < n ∧ inF u F.TELE_CSEL_n_chain (n - 1) = 1 then u else countWrap u 1472 n k

/-- One event of counter n. -/
def count (u : Units) (n : Nat) : Units := countN u n 1

/-- k cycles of a counter's signal, level high or low throughout: under level counting each cycle counts, under edge counting a rise from low counts once (R524). -/
def countSignal (u : Units) (n : Nat) (on : Bool) (k : Nat) : Units :=
  let was := u.tele.high.contains n
  let u := { u with tele := { u.tele with high := if on then (if was then u.tele.high else u.tele.high ++ [n]) else u.tele.high.filter fun x => x != n } }
  if on = false then u
  else if inF u F.TELE_CSEL_n_level n = 1 then countN u n k
  else if was then u
  else countN u n 1

/-- Counter numbers of Table 18-1. -/
def cPort (p e : Nat) : Nat := 8 * p + e
/-- Counter e of DDR5 channel c. -/
def cDdr (c e : Nat) : Nat := 512 + 16 * c + e
/-- Counter e of Cexus channel n. -/
def cCex (n e : Nat) : Nat := 768 + 8 * n + e
/-- Counter e of media group g. -/
def cGrp (g e : Nat) : Nat := 1344 + 8 * g + e
/-- Core counter e. -/
def cCore (e : Nat) : Nat := 1408 + e

/-! ### Events (R533, R534) -/

/-- Hand an event to the packer: it is counted as produced and waits in the input queue of 256, goes into the lost tally where the queue is full, and is counted in PD_AON while PD_TELE is off (R539). -/
def emitEvent (u : Units) (code inst : Nat) (words : List Word) : Units :=
  if pdOn u 5 then
    let u := count u (cCore 17)
    if u.tele.inq.length < 256 then
      { u with tele := { u.tele with inq := u.tele.inq ++ [⟨code, inst, usec u % 2 ^ 32, words⟩] } }
    else
      let u := flag u F.TELE_ERR_lost
      let u := { u with tele := { u.tele with lost := u.tele.lost + 1 } }
      count u (cCore 20)
  else addSat u F.TELE_AON_LOST_count 0 0 1

/-- A run-time cause of Table 4-5 has arisen or ended: bit 0 refresh, 1 maintenance floor, 2 throttle, 4 a change of service (R149, R150). -/
def cause (u : Units) (b : Nat) : Units := { u with adm := { u.adm with gathered := u.adm.gathered ||| 2 ^ b } }

/-- A register's value as an event word, taken as the event arrives. -/
def evReg (u : Units) (r : Reg) (i : Nat := 0) : Word := BitVec.ofNat 32 (rawReg u r i)

end Sys2Proof.Machine
end

