-- ==== Sys2Proof/Machine/Notices.lean ====
section
/-! DEFINITION. What leaves the block toward the driver: interrupt messages, writes on the ring-master port, notices and block faults; and the end of a maintenance grant (R451, R469 to R473, R571, R425). -/

namespace Sys2Proof.Machine

/-! ### Interrupt messages (R471 to R473, R571) -/

/-- Queue a message for the port: in a full queue a further message of the same source is merged into the queued one. -/
def queueMsg (ms : List Word) (m : Word) : List Word :=
  if 64 ≤ ms.length ∧ (ms.any fun x => nbits x.toNat 8 7 == nbits m.toNat 8 7) then
    ms.map fun x => if nbits x.toNat 8 7 = nbits m.toNat 8 7 then m else x
  else ms ++ [m]

/-- Send a message on a vector for a source, or hold it while the vector is masked. -/
def sendMsg (u : Units) (vector source : Nat) : Units :=
  let masked := nbits (rawReg u .RNG_IRQ_MASK_k (vector / 32)) (vector % 32) 1 = 1
  if masked then
    { u with rings := { u.rings with
        heldMsgs := (u.rings.heldMsgs.filter fun x => x.1 ≠ vector) ++ [(vector, source)] } }
  else
    let u := { u with rings := { u.rings with msgs := queueMsg u.rings.msgs (BitVec.ofNat 32 (vector + source * 256)) } }
    count u (cCore 9)

/-- A ring error sends at once on RNG_ERR_VEC.vector (R472). -/
def sendRingError (u : Units) : Units := sendMsg u (inF u F.RNG_ERR_VEC_vector) 65

/-! ### Writes on the ring-master port (R451) -/

/-- Issue a write: the first 64 outstanding writes stand on the port, later ones wait their turn. -/
def issueWrite (u : Units) (w : RingWrite) : Units :=
  let u := if u.rings.writes.length < 64 then present u (.ringWrite w.addr w.entry) else u
  { u with rings := { u.rings with writes := u.rings.writes ++ [w] } }

/-! ### Notices (R469, R470) -/

/-- Entries of the notice ring. -/
def ntSize (u : Units) : Nat := 2 ^ inF u F.RNG_NT_CFG_log2

/-- Base address of the notice ring. -/
def ntBase (u : Units) : Nat := inF u F.RNG_NT_BASE_LO_base * 4096 + inF u F.RNG_NT_BASE_HI_base * 2 ^ 32

/-- A notice that cannot be written is lost and counted (R469). -/
def loseNotice (u : Units) : Units :=
  let r := u.rings
  count { u with rings := { r with ntLost := min (r.ntLost + 1) (2 ^ 32 - 1), ntLostField := min (r.ntLostField + 1) 65535 } } (cCore 8)

/-- Write a notice at the notice tail. -/
def writeNotice (u : Units) (n : Notice) : Units :=
  if u.rings.ntState = 1 ∧ u.rings.ntUsed < ntSize u then
    let r := u.rings
    let entry := n.typ + (if r.ntFlip then 0 else 256) + r.ntLostField * 2 ^ 16 + n.time * 2 ^ 32 + n.payload * 2 ^ 64
    let w : RingWrite := { ring := 64, addr := ntBase u + r.ntTail * 32, entry := BitVec.ofNat 256 entry }
    let wrap := r.ntTail + 1 = ntSize u
    let u := { u with rings := { r with
      ntTail := (if wrap then 0 else r.ntTail + 1), ntFlip := (if wrap then !r.ntFlip else r.ntFlip),
      ntUsed := r.ntUsed + 1, ntLostField := 0 } }
    count (issueWrite u w) (cCore 7)
  else loseNotice u

/-- A notice arises: it waits while the ring engine is held in HUSH, and is otherwise written, held until the notice ring is first enabled (up to 16), or lost. -/
def notice (u : Units) (typ payload : Nat) : Units :=
  let n : Notice := ⟨typ, usec u % 2 ^ 32, payload⟩
  if pdState u 4 = 2 then { u with pwr := { u.pwr with notices := u.pwr.notices ++ [n] } }
  else if u.rings.ntEnabledOnce then writeNotice u n
  else if u.rings.ntHeld.length < 16 then { u with rings := { u.rings with ntHeld := u.rings.ntHeld ++ [n] } }
  else loseNotice u

/-- Bytes 8 to 31 of a BLOCK_FAULT notice, and its event (code 0x05, words 2 to 7 are those bytes). -/
def blockFault (u : Units) (source inst word owner : Nat) : Units :=
  let payload := source + inst * 2 ^ 8 + word * 2 ^ 32 + owner * 2 ^ 64
  let u := emitEvent u 5 0 ((List.range 6).map fun k => BitVec.ofNat 32 (nbits payload (32 * k) 32))
  notice u 3 payload

/-! ### Maintenance grants (R425) -/

/-- A requester lowers its request after the work of one grant: its arbiter, by channel (128 added for a Cexus channel), holds no grant. -/
def endGrant (u : Units) (key r : Nat) : Units :=
  let a := tabGet u.arbs key
  if a.holder = r then { u with arbs := tabPut u.arbs key { a with holder := 7 } } else u

end Sys2Proof.Machine
end

