-- ==== Sys2Proof/Machine/Codes.lean ====
section
/-! DEFINITION. The codes of Table 13-1: the two Reed–Solomon codes, the inner code, and what a decoder answers for an error pattern laid over a stored code word (R392 to R397). -/

namespace Sys2Proof.Machine

/-! ### Encoders -/

/-- Product with α in GF(2^8) of 0x11D (R392). -/
def gfDouble (a : Nat) : Nat := if a < 128 then 2 * a else (2 * a) ^^^ 0x11D

/-- Product in GF(2^8), by the bits of the second factor. -/
def gfMul : Nat → Nat → Nat → Nat
  | 0, _, _ => 0
  | n + 1, a, b => (if b % 2 = 1 then a else 0) ^^^ gfMul n (gfDouble a) (b / 2)

/-- Multiply a monic polynomial (highest coefficient first, the leading one left out) by (x − r). -/
def rsTimesRoot (g : List Nat) (r : Nat) : List Nat :=
  List.zipWith (fun a b => a ^^^ b) (g ++ [0]) (gfMul 8 1 r :: g.map fun c => gfMul 8 c r)

/-- The generator's coefficients below the leading one: the product of (x − α^k) for k = 0 to r − 1. -/
def rsGenerator : Nat → Nat × List Nat
  | 0 => (1, [])
  | n + 1 =>
    let (a, g) := rsGenerator n
    (gfDouble a, rsTimesRoot g a)

/-- One step of the systematic division: the next symbol enters the register. -/
def rsStep (g reg : List Nat) (s : Nat) : List Nat :=
  let f := s ^^^ reg.headD 0
  List.zipWith (fun a b => a ^^^ gfMul 8 b f) (reg.tail ++ [0]) g

/-- The check symbols of a list of symbols, first symbol the highest coefficient. -/
def rsCheck (r : Nat) (symbols : List Nat) : List Nat :=
  let g := (rsGenerator r).2
  symbols.foldl (fun reg s => rsStep g reg s) (List.replicate r 0)

/-- The RS(80,64) code word of a line as it stands in staging DRAM (R246): symbols 0 to 63 the line bytes, 64 to 79 the check symbols. -/
def dramWord (line : BitVec 512) : BitVec 640 :=
  let b := toBytes 64 line.toNat
  BitVec.ofNat 640 (fromBytes (b ++ rsCheck 16 b))

/-- One step of the inner code's division: multiply by x and reduce by the generator of degree 15, the product (x^7 + x^3 + 1)(x^7 + x^3 + x^2 + x + 1)(x + 1). -/
def bchStep (reg bit : Nat) : Nat :=
  let top := (reg / 2 ^ 14 % 2) ^^^ bit
  (reg * 2 % 2 ^ 15) ^^^ (if top = 1 then 0x4599 else 0)

/-- Check bits [14:0] of a 64-bit word (R393). -/
def bchCheck (w : Nat) : Nat := (List.range 64).foldl (fun r k => bchStep r (nbits w (63 - k) 1)) 0

/-- The 96 bytes of a media line from its line bytes, metadata word (R296): the nine inner check fields, then the outer check over bytes 0 to 89. -/
def mediaWord (line : BitVec 512) (metaWord : BitVec 64) : BitVec 768 :=
  let words := (toBytes 64 line.toNat) ++ toBytes 8 metaWord.toNat
  let all := line.toNat + metaWord.toNat * 2 ^ 512
  let checks := (List.range 9).flatMap fun i => toBytes 2 (bchCheck (nbits all (64 * i) 64))
  let b := words ++ checks
  BitVec.ofNat 768 (fromBytes (b ++ rsCheck 6 b))

/-! ### Decoders, by the error pattern -/

/-- Number of bits set among bits [lo + w − 1 : lo]. -/
def bitCount (x lo w : Nat) : Nat := ((List.range w).map fun k => nbits x (lo + k) 1).sum

/-- Indices of the bytes of a pattern that are not zero. -/
def errBytes (x n : Nat) : List Nat := (List.range n).filter fun i => nbits x (8 * i) 8 != 0

/-- What the RS(80,64) decoder answers. -/
inductive DramSeen where
  | clean
  /-- corrected on the device path, on this device (Table 13-2) -/
  | device (d : Nat)
  /-- corrected on the general path -/
  | general
  | uncorrectable
  /-- miscorrected to another line: an error beyond the code's reach -/
  | other (line : BitVec 512)
deriving DecidableEq, Repr, Inhabited

/-- Decode of a staging code word with an error pattern laid over it: any 8 symbols are corrected, on the device path when one device's symbols (i div 8) explain them; more are reported uncorrectable or miscorrected, which the spec leaves open. -/
def dramDecode (u : Units) (err : BitVec 640) : DramSeen × Units :=
  match errBytes err.toNat 80 with
  | [] => (.clean, u)
  | i :: t =>
    if t.all fun k => k / 8 == i / 8 then (.device (i / 8), u)
    else if t.length < 8 then (.general, u)
    else
      let n := u.fresh
      let u := { u with fresh := n + 1 }
      if Config.freeBool n then (.uncorrectable, u) else (.other (Config.freeLine n), u)

/-- What the two media codes answer. -/
inductive MediaSeen where
  | clean
  | inner
  | outer
  | failed
  /-- miscorrected beyond the codes' reach: another line, another metadata word -/
  | other (line : BitVec 512) (metaWord : Nat)
deriving DecidableEq, Repr, Inhabited

/-- Errors in word i of a media line and its check field, without the ignored bit 15 (R393). -/
def innerWeight (x i : Nat) : Nat := bitCount x (64 * i) 64 + bitCount x (576 + 16 * i) 15

/-- Byte errors the outer code sees once every word of at most two wrong bits has been put right. -/
def outerWeight (x : Nat) : Nat :=
  ((List.range 9).map fun i =>
    if innerWeight x i ≤ 2 then (if nbits x (576 + 16 * i + 15) 1 = 1 then 1 else 0)
    else (errBytes (nbits x (64 * i) 64) 8).length + (errBytes (nbits x (576 + 16 * i) 16) 2).length).sum +
  (errBytes (nbits x 720 48) 6).length

/-- Decode of a media line with an error pattern laid over it (R395, R397 steps 1 to 3). Beyond the reach of a code its answer is open. -/
def mediaDecode (u : Units) (err : BitVec 768) : MediaSeen × Units :=
  let x := err.toNat
  let ws := (List.range 9).map fun i => innerWeight x i
  if ws.all fun n => n == 0 then (.clean, u)
  else if ws.all fun n => n ≤ 2 then (.inner, u)
  else
    let n := u.fresh
    let wild : MediaSeen := .other (Config.freeLine n) (Config.freeNat n)
    if (ws.all fun n => n ≤ 3) ∧ outerWeight x ≤ 3 then (.outer, u)
    else
      let u := { u with fresh := n + 1 }
      if outerWeight x ≤ 3 then (if Config.freeBool n then (.outer, u) else (wild, u))
      else if Config.freeBool n then (.failed, u) else (wild, u)

end Sys2Proof.Machine
end

