-- ==== Sys2Proof/Machine/Transit.lean ====
section
/-! DEFINITION. The transit network (chapter "Transit Network"): endpoints and ticket pools, routers and their outputs, the wired routes, packets as flits, and one transit cycle of links, bridges, credits, arbitration and slot mode (R160 to R185). -/

namespace Sys2Proof.Machine

/-! ### Endpoints (R162) -/

/-- Endpoint numbers (Table 5-3). -/
def epCluster (n : Nat) : Nat := n
/-- Staging slice c. -/
def epSlice (c : Nat) : Nat := 32 + c
/-- Media group g. -/
def epGroup (g : Nat) : Nat := 64 + g
/-- Core unit i: 0 context engine, 1 hinge unit, 2 flush point, 5 ring engine. -/
def epCore (i : Nat) : Nat := 96 + i

/-! ### Routers and their outputs (R160, Table 5-1, Table 5-6) -/

/-- Router number r in the order of Table 5-1, with the variant's counts: clusters, hubs, DRAM routers, media routers, the service router. -/
def routerAt (v : Variant) (r : Nat) : Option Router :=
  let n := nClusters v
  if r < n then some (.cluster r)
  else if r < n + 4 then some (.hub (r - n))
  else if r < n + 8 then some (.dram (r - n - 4))
  else if r < n + 8 + nGroups v then some (.media (r - n - 8))
  else if r = n + 8 + nGroups v then some .service
  else none

/-- The number of a router. -/
def routerNum (v : Variant) : Router → Nat
  | .cluster n => n
  | .hub k => nClusters v + k
  | .dram k => nClusters v + 4 + k
  | .media g => nClusters v + 8 + g
  | .service => nClusters v + 8 + nGroups v

/-- Outputs of router r (Table 5-6). -/
def nOutputs (v : Variant) (r : Nat) : Nat :=
  match routerAt v r with
  | some (.cluster _) => 5
  | some (.hub _) => 16
  | some (.dram _) => 1 + nDdr v / 4
  | some (.media _) => 2
  | some .service => 13
  | none => 0

/-- What stands at output o of a router; port p is the port of the packet, which names the bridge of a cluster's endpoint (R179). -/
def nodeAt (v : Variant) (r : Router) (o p : Nat) : Option Node :=
  match r with
  | .cluster _ => if o < 4 then some (.router (.hub o)) else if o = 4 then some (.port p) else none
  | .hub k =>
    if o < 8 then (if o < nClusters v then some (.router (.cluster o)) else none)
    else if o < 12 then (if o = 8 + k then none else some (.router (.hub (o - 8))))
    else if o = 12 then some (.router (.dram k))
    else if o = 15 then some (.router .service)
    else if o < 15 ∧ k + 4 * (o - 13) < nGroups v then some (.router (.media (k + 4 * (o - 13))))
    else none
  | .dram k => if o = 0 then some (.router (.hub k)) else if k + 4 * (o - 1) < nDdr v then some (.unit (epSlice (k + 4 * (o - 1)))) else none
  | .media g => if o = 0 then some (.router (.hub (g % 4))) else if o = 1 then some (.unit (epGroup g)) else none
  | .service => if o < 4 then some (.router (.hub o)) else if o < 13 then some (.unit (epCore (o - 4))) else none

/-- Links between two nodes in each direction (Table 5-2). -/
def linkCount : Node → Node → Nat
  | .router (.hub _), .router (.dram _) | .router (.dram _), .router (.hub _) => 4
  | .router (.hub _), .router (.hub _) => 2
  | _, _ => 1

/-- Where a router's inputs stand in its rotation (R171): the number of the output that leads back, four places for each (one for each link), ports after the hubs. -/
def inputPlace (r : Router) (from_ : Node) (link : Nat) : Nat :=
  let n := match r, from_ with
    | .cluster _, .port p => 4 + p % 8
    | _, .router (.cluster n) => n
    | .hub _, .router (.hub k) => 8 + k
    | .hub _, .router (.dram _) => 12
    | .hub _, .router (.media g) => 13 + g / 4
    | .hub _, .router .service => 15
    | .media _, .router _ => 0
    | .dram _, .router _ => 0
    | _, .router (.hub k) => k
    | .dram _, .unit e => 1 + (e - 32) / 4
    | .media _, .unit _ => 1
    | .service, .unit e => 4 + (e - 96)
    | _, _ => 0
  4 * n + link

/-! ### Routes (R161, R166) -/

/-- The hub beside a slice or a media group. -/
def hubOf (e : Nat) : Nat := e % 4

/-- The outputs that a packet names from source to destination, first router first. A cluster and a core unit meet at the hub of the cluster's number, which the wired table leaves to the model. -/
def routeOf (src dst : Nat) : List Nat :=
  let last := if dst < 32 then [4] else if dst < 64 then [1 + (dst - 32) / 4] else if dst < 96 then [1] else [4 + (dst - 96)]
  let far := 32 ≤ dst && dst < 96
  let h := if 32 ≤ src ∧ src < 96 then hubOf src else if far then hubOf dst else if dst < 32 then dst % 4 else src % 4
  let first := if src < 32 ∨ 96 ≤ src then [h] else [0]
  let cross := if far ∧ hubOf dst ≠ h then [8 + hubOf dst] else []
  let down := if dst < 32 then [dst] else if dst < 64 then [12] else if dst < 96 then [13 + (dst - 64) / 4] else [15]
  first ++ cross ++ down ++ last

/-- The first router of a source. -/
def entryRouter (src : Nat) : Router :=
  if src < 32 then .cluster src else if src < 64 then .dram (hubOf src) else if src < 96 then .media (src - 64) else .service

/-- The routers of a route, first one first. -/
def pathFrom (v : Variant) (p : Nat) : Router → List Nat → List Router
  | _, [] => []
  | r, o :: t => r :: (match nodeAt v r o p with
    | some (.router q) => pathFrom v p q t
    | _ => [])

/-- The power domain of a router (Table 5-1). -/
def routerDomain : Router → Nat
  | .cluster n => pdCluster n
  | .hub k => pdHub k
  | .dram k => pdHub k
  | .media g => pdMedia g
  | .service => 2

/-- The power domain of a core unit (Table 1-1): integrity central in PD_INTEG, the ring engine in PD_RINGS, telemetry in PD_TELE, the others in PD_CORE. -/
def coreDomain (i : Nat) : Nat := if i = 4 then 6 else if i = 5 then 4 else if i = 6 then 5 else 2

/-- The power domain of an endpoint. -/
def epDomain (e : Nat) : Nat := if e < 32 then pdCluster e else if e < 64 then pdDram (e - 32) else if e < 96 then pdMedia (e - 64) else coreDomain (e - 96)

/-- The domains that a packet from one endpoint to another passes through or ends in (R181). -/
def routeDomains (v : Variant) (src dst : Nat) : List Nat :=
  ((pathFrom v 0 (entryRouter src) (routeOf src dst)).map routerDomain ++ [epDomain src, epDomain dst]).eraseDups

/-- An injection that needs a ticket is refused: a domain of its route is fenced (R181). -/
def routeRefused (u : Units) (src dst : Nat) : Bool := (routeDomains u.v src dst).any fun d => fenced u d

/-! ### Packets and flits (R163 to R165) -/

/-- Code of a packet type (Table 5-5). -/
def typCode : PktType → Nat
  | .lineReq => 0
  | .lineWr => 1
  | .lineRet => 2
  | .done => 3
  | .fillReq => 4
  | .fillFwd => 5
  | .fillData => 6
  | .zero => 7
  | .destage => 8
  | .ctx => 9
  | .flush => 10
  | .service => 11
  | .ticket => 12

/-- Flits of a packet by the code of its type (Table 5-5); a SERVICE packet of this model has one. -/
def flitCount (code : Nat) : Nat := if code = 1 ∨ code = 8 then 3 else if code = 2 ∨ code = 6 then 2 else 1

/-- The header word of a packet as it is injected (Table 5-4). -/
def headerWord (k : Pkt) : BitVec 64 :=
  let r := routeOf k.src k.dst
  let route := (r.zipIdx.map fun x => x.1 * 2 ^ (5 * x.2)).sum
  let aux := if k.typ = .done ∨ k.typ = .ticket then k.aux % 16 else 0
  BitVec.ofNat 64 (route + (r.length - 1) * 2 ^ 20 + typCode k.typ * 2 ^ 22 + k.src * 2 ^ 26 + k.dst * 2 ^ 34 +
    Config.slotOf k.pool k.id % 4096 * 2 ^ 42 + k.epoch % 4 * 2 ^ 54 + aux * 2 ^ 56)

/-- The check bits of a flit: the SRAM code over its five 64-bit words (R163). -/
def flitCheck (word : BitVec 64) (payload : BitVec 256) : BitVec 75 :=
  BitVec.ofNat 75 (bchCheck word.toNat + ((List.range 4).map fun i => bchCheck (nbits payload.toNat (64 * i) 64) * 2 ^ (15 * (i + 1))).sum)

/-- The payloads of a packet, head first: line bytes 0 to 31 and 32 to 63 where it carries a line, an operation word before them where it is not a return. -/
def payloads (k : Pkt) : List (BitVec 256) :=
  let line := [k.data.setWidth 256, BitVec.ofNat 256 (k.data.toNat / 2 ^ 256)]
  if flitCount (typCode k.typ) = 3 then Config.opWord k.id :: line
  else if flitCount (typCode k.typ) = 2 then line
  else [Config.opWord k.id]

/-- The flits of a packet, sent head first; they can be read one after another from a cycle on. -/
def flitsOf (k : Pkt) (at_ : Nat) : List Flit :=
  let l := payloads k
  l.zipIdx.map fun x =>
    let word := if x.2 = 0 then headerWord k else 0
    { pkt := k.id, ctrl := BitVec.ofNat 8 (k.prio % 8 + (if x.2 = 0 then 8 else 0) + (if x.2 + 1 = l.length then 16 else 0)),
      word := word, payload := x.1, check := flitCheck word x.1, from_ := at_ + x.2 }

/-- The flit is a head. -/
def isHead (f : Flit) : Bool := f.ctrl.getLsbD 3
/-- The flit is a tail. -/
def isTail (f : Flit) : Bool := f.ctrl.getLsbD 4

/-- What a router leaves of a header word it has used: where hops is not zero the route is shifted and hops lowered (R166). -/
def nextWord (w : BitVec 64) : BitVec 64 :=
  let hops := nbits w.toNat 20 2
  if hops = 0 then w else BitVec.ofNat 64 (nput (nput w.toNat 20 2 (hops - 1)) 0 20 (nbits w.toNat 5 15))

/-! ### Lanes and credits (R174, R179) -/

/-- Flits that a router input or a bridge holds for each priority (R174, R179). -/
def laneRoom : Nat := 6

/-- The lane between two nodes on a link at a priority. -/
def laneOf (t : Transit) (src dst : Node) (link prio : Nat) : Lane :=
  (t.lanes.find? fun l => l.src == src && l.dst == dst && l.link == link && l.prio == prio).getD { src := src, dst := dst, link := link, prio := prio }

/-- Store a lane; one that is as it is at rest is not listed. -/
def putLane (t : Transit) (l : Lane) : Transit :=
  let others := t.lanes.filter fun x => !(x.src == l.src && x.dst == l.dst && x.link == l.link && x.prio == l.prio)
  { t with lanes := if l.flits = [] ∧ l.used = 0 ∧ l.going = none then others else others ++ [l] }

/-- The input accepts flits (Table 5-7). -/
def inputOpen (t : Transit) (src dst : Node) (link : Nat) : Bool := !t.shut.contains (src, dst, link)

/-- The next input holds room at a priority for a whole packet of n flits. -/
def laneFits (t : Transit) (src dst : Node) (link prio n : Nat) : Bool :=
  inputOpen t src dst link && decide ((laneOf t src dst link prio).used + n ≤ laneRoom)

/-- Credits come back two transit cycles after their flits have left the input (R174). -/
def returnCredits (t : Transit) : Transit :=
  let now := t.due.filter fun d => d.1 ≤ t.cyc
  now.foldl (fun t d =>
    let l := laneOf t d.2.1 d.2.2.1 d.2.2.2.1 d.2.2.2.2
    putLane t { l with used := l.used - 1 }) { t with due := t.due.filter fun d => t.cyc < d.1 }

/-- The oldest flit of a lane leaves it. -/
def popFlit (t : Transit) (l : Lane) (going : Option Exit) : Transit :=
  putLane { t with due := t.due ++ [(t.cyc + 2, l.src, l.dst, l.link, l.prio)] } { l with flits := l.flits.tail, going := going }

/-- The node at which a packet enters the network. -/
def sourceNode (k : Pkt) : Node := if k.src < 32 then .port k.port else .unit k.src

/-- Packets are written into the bridges of their sources, each once the bridge has room for the whole of it, those of one source and priority in the order of their injection. -/
def enterBridges (net : List Pkt) (t : Transit) : Transit :=
  (t.queue.foldl (fun (p : Transit × List (Node × Nat)) id =>
    let (t, stuck) := p
    match net.find? fun k => k.id == id with
    | none => ({ t with queue := t.queue.filter fun x => x != id }, stuck)
    | some k =>
      let a := sourceNode k
      let b := Node.router (entryRouter k.src)
      let fl := flitsOf k (t.cyc + (if Config.bridgeLate t.cyc id then 3 else 2))
      if stuck.contains (a, k.prio) ∨ laneFits t a b 0 k.prio fl.length = false then (t, (a, k.prio) :: stuck)
      else
        let l := laneOf t a b 0 k.prio
        (putLane { t with queue := t.queue.filter fun x => x != id } { l with flits := l.flits ++ fl, used := l.used + fl.length }, stuck)) (t, [])).1

/-- Flits that a destination's bridge shows go into the slot that their packet's ticket has reserved. -/
def leaveBridges (t : Transit) : Transit :=
  t.lanes.foldl (fun t l =>
    match l.dst with
    | .router _ => t
    | _ =>
      let out := l.flits.takeWhile fun f => f.from_ ≤ t.cyc
      out.foldl (fun t _ => popFlit t (laneOf t l.src l.dst l.link l.prio) none) t) t

/-! ### A transit cycle of the routers (R166, R171, R172) -/

/-- A flit at the front of a router input that can be read: the router, its lane, the flit, and the exit it asks for. -/
structure Want where
  router : Router := .service
  lane : Lane := {}
  flit : Flit := {}
  exit_ : Exit := {}
deriving DecidableEq, Repr, Inhabited

/-- The exit that a head flit asks for: output route[4:0], and there the link of its source endpoint's number modulo the link count (R161). -/
def exitOf (v : Variant) (port : Nat) (r : Router) (w : BitVec 64) : Option Exit :=
  let o := nbits w.toNat 0 5
  (nodeAt v r o port).map fun n => { out := o, node := n, link := nbits w.toNat 26 8 % linkCount (.router r) n }

/-- The port of a packet, which names its bridge at a cluster. -/
def portOf (net : List Pkt) (id : Nat) : Nat := ((net.find? fun k => k.id == id).map fun k => k.port).getD 0

/-- What the front of a lane asks for. -/
def wantOf (v : Variant) (net : List Pkt) (t : Transit) (l : Lane) : Option Want :=
  match l.dst, l.flits with
  | .router r, f :: _ =>
    if t.cyc < f.from_ then none
    else (if isHead f then exitOf v (portOf net f.pkt) r f.word else l.going).map fun x => { router := r, lane := l, flit := f, exit_ := x }
  | _, _ => none

/-- Key of a router output in the tables of outputs. -/
def outKey (v : Variant) (w : Want) : Nat := routerNum v w.router * 32 + w.exit_.out

/-- Place of the input that a flit stands at. -/
def inputOf (w : Want) : Nat := inputPlace w.router w.lane.src w.lane.link

/-- The flit is ready: a head, once no other packet of its priority is half sent on its link and the next input has room for the whole packet; a later flit follows its head (R171, R174). -/
def isReady (v : Variant) (t : Transit) (w : Want) : Bool :=
  let s := tabGet (tabGet t.outs (outKey v w)).started (w.exit_.link * 8 + w.lane.prio)
  if isHead w.flit then
    s == 0 && laneFits t (.router w.router) w.exit_.node w.exit_.link w.lane.prio (flitCount (nbits w.flit.word.toNat 22 4))
  else s == inputOf w + 1 && inputOpen t (.router w.router) w.exit_.node w.exit_.link

/-- The owner of a frame position (Table 5-9). -/
def frameOwner (i : Nat) : Nat := [7, 6, 5, 7, 6, 4, 3, 2, 7, 6, 5, 7, 6, 4, 1, 0].getD (i % 16) 0

/-- The priority that a link serves: in slot mode the owner of the position where it has a ready flit, else the highest ready one. -/
def servedPrio (slot : Bool) (frame : Nat) (ready : List Want) : Nat :=
  let own := frameOwner frame
  if slot ∧ (ready.any fun w => w.lane.prio == own) then own else (ready.map fun w => w.lane.prio).foldl max 0

/-- The flit that a link carries in this cycle: of the priority served, the first input after the one last served in the rotation. -/
def linkChoice (o : OutPort) (slot : Bool) (link : Nat) (ready : List Want) : Option Want :=
  let p := servedPrio slot o.frame ready
  let turn := fun (w : Want) => (inputOf w + 128 - (tabGet o.last (link * 8 + p) + 1)) % 128
  (ready.filter fun w => w.lane.prio == p).foldl (fun b w => match b with
    | none => some w
    | some y => if turn w < turn y then some w else some y) none

/-- A chosen flit crosses its link, or is written into the bridge of its destination. -/
def carry (v : Variant) (t : Transit) (w : Want) : Transit :=
  let x := w.exit_
  let tail := isTail w.flit
  let t := popFlit t (laneOf t w.lane.src w.lane.dst w.lane.link w.lane.prio) (if tail then none else some x)
  let late := match x.node with
    | .router _ => 1
    | _ => if Config.bridgeLate t.cyc w.flit.pkt then 3 else 2
  let word := if isHead w.flit then nextWord w.flit.word else w.flit.word
  let f := { w.flit with word := word, check := flitCheck word w.flit.payload, from_ := t.cyc + late }
  let l := laneOf t (.router w.router) x.node x.link w.lane.prio
  let n := if isHead w.flit then flitCount (nbits w.flit.word.toNat 22 4) else 0
  let t := putLane t { l with flits := l.flits ++ [f], used := l.used + n }
  let o := tabGet t.outs (outKey v w)
  let k := x.link * 8 + w.lane.prio
  { t with outs := tabPut t.outs (outKey v w) { o with started := tabPut o.started k (if tail then 0 else inputOf w + 1), last := tabPut o.last k (inputOf w) } }

/-- How long the head flits of an output have been ready and unchosen, after this cycle. -/
def waitsAfter (o : OutPort) (ready chosen : List Want) : Tab Nat :=
  (ready.filter fun w => isHead w.flit && !chosen.contains w).foldl (fun t w =>
    let k := inputOf w * 8 + w.lane.prio
    tabPut t k (tabGet o.waits k + 1)) tabNil

/-- One output in one transit cycle: each of its links carries a flit, waits are counted, and slot mode is entered at a wait of 512 or left at the end of the frame that closes a run of 8,192 cycles without a wait above 128 (R172). -/
def outputCycle (v : Variant) (wants : List Want) (p : Transit × List Nat) (key : Nat) : Transit × List Nat :=
  let (t, slots) := p
  let slot := slots.contains key
  let o := tabGet t.outs key
  let ready := (wants.filter fun w => outKey v w == key).filter fun w => isReady v t w
  let chosen := (List.range 4).filterMap fun l => linkChoice o slot l (ready.filter fun w => w.exit_.link == l)
  let t := chosen.foldl (carry v) t
  let waits := waitsAfter o ready chosen
  let longest := (waits.cells.map fun x => x.2).foldl max 0
  let quiet := if longest ≤ 128 then o.quiet + 1 else 0
  let enter := !slot && decide (512 ≤ longest)
  let leave := slot && o.frame % 16 == 15 && decide (8192 ≤ quiet)
  let now := if enter ∨ leave then 0 else if slot then o.frame + 1 else 0
  let run := if enter ∨ leave ∨ slot = false then 0 else quiet
  let o := tabGet t.outs key
  ({ t with outs := tabPut t.outs key { o with waits := waits, frame := now, quiet := run } },
   if enter then slots ++ [key] else if leave then slots.filter fun x => x != key else slots)

/-- One transit cycle of the whole network: every choice is made on what stands at its start. -/
def netCycle (u : Units) : Units :=
  let t := enterBridges u.net (returnCredits u.transit)
  let wants := t.lanes.filterMap (wantOf u.v u.net t)
  let keys := (wants.map (outKey u.v) ++ u.slotMode ++ tabKeys t.outs).eraseDups
  let (t, slots) := keys.foldl (outputCycle u.v wants) (t, u.slotMode)
  let t := leaveBridges t
  { u with transit := { t with cyc := t.cyc + 1 }, slotMode := slots }

/-- Nothing stands in the network and no output counts: a cycle changes only the count of cycles. -/
def netIdle (u : Units) : Bool :=
  u.transit.queue.isEmpty && u.transit.lanes.isEmpty && u.transit.due.isEmpty && u.slotMode.isEmpty && u.transit.outs.cells.all fun x => x.2.waits.cells.isEmpty

/-- n transit cycles. -/
def netCycles : Nat → Units → Units
  | 0, u => u
  | n + 1, u => if netIdle u then { u with transit := { u.transit with cyc := u.transit.cyc + n + 1 } } else netCycles n (netCycle u)

/-- A packet has flits that have not reached the slot at its destination. -/
def inTransit (u : Units) (id : Nat) : Bool := u.transit.queue.contains id || u.transit.lanes.any fun l => l.flits.any fun f => f.pkt == id

/-- The network goes on until a packet has arrived, at most n cycles. -/
def runUntil (id : Nat) : Nat → Units → Units
  | 0, u => u
  | n + 1, u => if inTransit u id then runUntil id n (netCycle u) else u

/-! ### Tickets (R175 to R178) -/

/-- A ticket pool: kind 0 request, 1 line-carrying, 2 line-return, 3 completion-return, 4 fill-return, 5 service; holder and destination endpoints. -/
def poolId (kind holder dest : Nat) : Nat := kind * 65536 + holder * 256 + dest

/-- Size of a pool and its tickets reserved for priorities 6 and 7 (Table 5-10). -/
def poolSize (id : Nat) : Nat × Nat :=
  let kind := id / 65536
  let holder := id / 256 % 256
  let dest := id % 256
  if holder < 32 then
    (if kind = 0 then (if dest = 98 then (2, 0) else if dest = 96 then (16, 4) else (24, 8))
     else if kind = 1 then (16, 4)
     else if kind = 2 then (256, 64)
     else (512, 128))
  else if holder < 64 then
    (if kind = 0 then (32, 8) else if kind = 4 then (64, 16) else (8, 0))
  else if kind = 0 then (64, 16)
  else (8, 0)

/-- Tickets of a pool free at its holder. -/
def poolFree (u : Units) (id : Nat) : Nat := (poolSize id).1 - tabGet u.tickets id

/-- A packet of this priority may take a ticket of the pool (R175). -/
def canTake (u : Units) (id prio : Nat) : Bool :=
  if 6 ≤ prio then 0 < poolFree u id else (poolSize id).2 < poolFree u id

/-- Take a ticket. -/
def takeTicket (u : Units) (id : Nat) : Units := { u with tickets := tabPut u.tickets id (tabGet u.tickets id + 1) }

/-- Return n tickets to the holder. -/
def returnTickets (u : Units) (id n : Nat) : Units := { u with tickets := tabPut u.tickets id (tabGet u.tickets id - n) }

/-- Inject a packet into the network: it waits for its source's bridge. -/
def sendPkt (u : Units) (k : Pkt) : Units :=
  { u with net := u.net ++ [{ k with id := u.nextPkt }], nextPkt := u.nextPkt + 1,
           transit := { u.transit with queue := u.transit.queue ++ [u.nextPkt] } }

/-- A destination that has taken a packet out of its slot sends the ticket back to the holder (R178). -/
def releaseTicket (u : Units) (id : Nat) (n : Nat := 1) : Units :=
  if n = 0 then u
  else sendPkt u { typ := .ticket, src := id % 256, dst := id / 256 % 256, prio := 7, aux := n - 1, pool := id }

/-- A packet may be taken: it stands in its slot, no earlier packet of its source, destination and priority is still on its way or untouched in its slot (R167), and its destination's input has not been stopped (Table 5-7). -/
def takePkt (u : Units) (id : Nat) (typ : PktType) : Option Pkt :=
  match u.net.find? fun k => k.id == id with
  | none => none
  | some k =>
    if k.typ = typ ∧ inTransit u id = false ∧ u.stopped.contains k.dst = false ∧
       (u.net.any fun x => decide (x.id < k.id) && x.src == k.src && x.dst == k.dst && x.prio == k.prio && x.waits == 0) = false
    then some k else none

/-- A packet is taken at its destination: the network has carried it there, in as many transit cycles as that takes. -/
def landing (u : Units) (id : Nat) (typ : PktType) : Option (Pkt × Units) :=
  let w := runUntil id 4096 u
  (takePkt w id typ).map fun k => (k, w)

/-- Take a packet off the network. -/
def dropPkt (u : Units) (id : Nat) : Units := { u with net := u.net.filter fun k => k.id ≠ id }

/-- What becomes of a packet of a type once the network has carried it to its slot; nothing where it has not come or may not be taken. -/
def onPkt (u : Units) (id : Nat) (typ : PktType) (f : Pkt → Units → Units) : Units :=
  match landing u id typ with
  | some (k, u) => f k u
  | none => u

/-! ### What lands with a flit error (R169, Table 5-7) -/

/-- The node and the link by which a packet enters the router of a place on its route. -/
def inletOf (v : Variant) (k : Pkt) (hop : Nat) : Option (Node × Router × Nat) :=
  let path := pathFrom v k.port (entryRouter k.src) (routeOf k.src k.dst)
  match path[hop]? with
  | none => none
  | some r =>
    if hop = 0 then some (sourceNode k, r, 0)
    else (path[hop - 1]?).map fun q => (.router q, r, k.src % linkCount (.router q) (.router r))

/-- A packet whose header or operation word cannot be corrected is lost, with a block fault that names the endpoint it was for. -/
def losePkt (u : Units) (k : Pkt) : Units := blockFault (dropPkt u k.id) 0 k.dst 0 0

/-- A packet lands: a corrected error is reported by an event, line bytes in error are marked by the flag of the answer (a packet of one flit has none: its words are operation words), and an uncorrectable header or operation word stops the input that received it, of the endpoint or of a router on the way. -/
def landFlit (u : Units) (k : Pkt) (err : FlitErr) : Option Bool × Units :=
  let code := typCode k.typ
  let stop := losePkt { u with stopped := u.stopped ++ [k.dst] } k
  match err with
  | .none => (some false, u)
  | .corrected h => (some false, emitEvent u 4 k.dst [BitVec.ofNat 32 (code + (if h then 16 else 0))])
  | .line => if flitCount code = 1 then (none, stop) else (some true, u)
  | .operation => (none, stop)
  | .header hop =>
    match inletOf u.v k hop with
    | none => (some false, u)
    | some (a, r, l) => (none, losePkt { u with transit := { u.transit with shut := u.transit.shut ++ [(a, .router r, l)] } } k)

/-- A packet of one flit lands. -/
def landOne (u : Units) (k : Pkt) (err : FlitErr) (f : Units → Units) : Units :=
  match landFlit u k err with
  | (some _, u) => f u
  | (none, u) => u

/-! ### Quiet boundaries (R183) -/

/-- The power domain of a node. -/
def nodeDomain : Node → Nat
  | .router r => routerDomain r
  | .port p => pdCluster (p / 8)
  | .unit e => epDomain e

/-- A lane crosses the boundary of a domain. -/
def crosses (d : Nat) (a b : Node) : Bool := (nodeDomain a == d) != (nodeDomain b == d)

/-- Every ticket of every pool held in a domain or leading into it is free. -/
def ticketsFree (u : Units) (d : Nat) : Bool :=
  u.tickets.cells.all fun c => epDomain (c.1 % 256) != d && epDomain (c.1 / 256 % 256) != d

/-- Every link and bridge credit on a domain's boundary is at its full count. -/
def creditsFull (u : Units) (d : Nat) : Bool :=
  (u.transit.lanes.all fun l => !crosses d l.src l.dst) && u.transit.due.all fun x => !crosses d x.2.1 x.2.2.1

/-- The power manager may assert isolation of a domain (R183). -/
def quietDomain (u : Units) (d : Nat) : Bool :=
  ticketsFree u d && creditsFull u d && u.net.all fun k => epDomain k.src != d && epDomain k.dst != d

end Sys2Proof.Machine
end

