-- ==== Sys2Proof/Machine/Ports.lean ====
section
/-! DEFINITION. Request ports, the context check, the token regulators and the way to transit (chapters "Request Ports", "Contexts, Windows and Encryption", "Regulation, Classes and Admission", "Transit Network"). -/

namespace Sys2Proof.Machine

/-! ### Port access -/

/-- State of port p. -/
def port (u : Units) (p : Nat) : Port := tabGet u.ports p
/-- Replace the state of port p. -/
def setPort (u : Units) (p : Nat) (x : Port) : Units := { u with ports := tabPut u.ports p x }

/-- The open request of an ordinal. -/
def findReq (u : Units) (p ord : Nat) : Option Req := (port u p).reqs.find? fun r => r.ord == ord

/-- Replace an open request. -/
def setReq (u : Units) (p : Nat) (r : Req) : Units :=
  let q := port u p
  setPort u p { q with reqs := q.reqs.map fun x => if x.ord = r.ord then r else x }

/-- A fault of Table 2-9: the PORT_n_ERR bit is set and an event carries it with the ordinal concerned. -/
def portFault (u : Units) (p bit ord : Nat) : Units :=
  let u := putReg u .PORT_n_ERR p 0 (rawReg u .PORT_n_ERR p ||| 2 ^ bit)
  emitEvent u 1 p [BitVec.ofNat 32 (2 ^ bit + ord * 2 ^ 16)]

/-! ### Credits (R65 to R68, R73) -/

/-- Full header count of a pool. -/
def hdrFull (u : Units) (p pool : Nat) : Nat := nbits (bankReg u u.regs.epoch .PORT_n_CREDIT_HDR p) (8 * pool) 8
/-- Full data count of a pool. -/
def dataFull (u : Units) (p pool : Nat) : Nat := nbits (bankReg u u.regs.epoch .PORT_n_CREDIT_DATA p) (8 * pool) 8

/-- The credit returns of one kind and pool, as the sideband carries them: at most 15 headers or 31 data units in each port cycle (R68, R572). -/
def creditOuts (p pool : Nat) (data : Bool) : Nat → Nat → List Out
  | 0, _ => []
  | fuel + 1, n =>
    let most := if data then 31 else 15
    if n = 0 then [] else .credit p pool data (min n most) :: creditOuts p pool data fuel (n - most)

/-- Present n credit returns. -/
def giveCredits (u : Units) (p pool : Nat) (data : Bool) (n : Nat) : Units := { u with out := u.out ++ creditOuts p pool data n n }

/-- A freed header slot returns its credit: not while the port is closing (Table 2-3). While a decrease is carried out the return is withheld where the sender would then hold more than the new count (R68). -/
def freeHdr (u : Units) (p pool : Nat) : Units :=
  let q := port u p
  if q.state ≠ 2 then u
  else if 0 < tabGet q.hdrHold pool ∧ hdrFull u p pool ≤ tabGet q.hdrCred pool then setPort u p { q with hdrHold := tabPut q.hdrHold pool (tabGet q.hdrHold pool - 1) }
  else present (setPort u p { q with hdrCred := tabPut q.hdrCred pool (tabGet q.hdrCred pool + 1) }) (.credit p pool false 1)

/-- A freed data slot returns its credit, under the same conditions. -/
def freeData (u : Units) (p pool : Nat) : Units :=
  let q := port u p
  if q.state ≠ 2 then u
  else if 0 < tabGet q.dataHold pool ∧ dataFull u p pool ≤ tabGet q.dataCred pool then setPort u p { q with dataHold := tabPut q.dataHold pool (tabGet q.dataHold pool - 1) }
  else present (setPort u p { q with dataCred := tabPut q.dataCred pool (tabGet q.dataCred pool + 1) }) (.credit p pool true 1)

/-- Spend a header credit, if the pool holds one. -/
def spendHdr (u : Units) (p pool : Nat) : Units :=
  let q := port u p
  setPort u p { q with hdrCred := tabPut q.hdrCred pool (tabGet q.hdrCred pool - 1) }

/-- Spend a data credit, if the pool holds one. -/
def spendData (u : Units) (p pool : Nat) : Units :=
  let q := port u p
  setPort u p { q with dataCred := tabPut q.dataCred pool (tabGet q.dataCred pool - 1) }

/-- Free every data slot a request still holds. -/
def freeDataSlots (u : Units) (p : Nat) (pools : List Nat) : Units := pools.foldl (fun u k => freeData u p k) u

/-- Header slots held, and data slots held, by open requests (PORT_n_STATE). -/
def hdrUsed (q : Port) : Nat := (q.reqs.filter fun r => r.hdrSlot).length
/-- Data slots held by open requests. -/
def dataUsed (q : Port) : Nat := (q.reqs.map fun r => r.dataPools.length).sum

/-! ### Where a line lives (R189 to R192) -/

/-- log2 of the sets of a slice: S = 512 × Rk × 2^rows_log2 (R187). -/
def setsLog2 (u : Units) : Nat := 9 + u.stg.rkLog2 + u.stg.rowsLog2

/-- Width of a stripe number (R189). -/
def stripeWidth (v : Variant) : Nat := laWidth v - 9

/-- The set hash of R189 for stripe number x. -/
def setHash (v : Variant) (seed x : Nat) : Nat :=
  let w := stripeWidth v
  let h1 := ((x ^^^ seed) * 0x9E3779B97) % 2 ^ w
  h1 ^^^ (h1 / 2 ^ 18)

/-- Position, set and tag of a stripe (R189). -/
def hashPos (v : Variant) (h : Nat) : Nat := nbits h 32 (stripeWidth v - 32)

/-- The slice that serves a position for requests of an epoch (R191, R217). -/
def homeSlice (u : Units) (e pos : Nat) : Nat :=
  if pos < 8 then nbits (bankReg u e .STG_HOME_LO) (4 * pos) 4 else nbits (bankReg u e .STG_HOME_HI) (4 * (pos - 8)) 4

/-- Hash of the stripe of a line. -/
def lineHash (u : Units) (lla : Nat) : Nat := setHash u.v u.stg.seed (lla / 8)

/-- Home slice of a line under an epoch. -/
def lineSlice (u : Units) (e lla : Nat) : Nat := homeSlice u e (hashPos u.v (lineHash u lla))

/-- Home set of a line. -/
def lineSet (u : Units) (lla : Nat) : Nat := lineHash u lla % 2 ^ setsLog2 u

/-- Tag of a line's stripe. -/
def lineTag (u : Units) (lla : Nat) : Nat := lineHash u lla / 2 ^ setsLog2 u

/-! ### Contexts (R93 to R105) -/

/-- A context record in the bank of an epoch; the other fields of Table 3-1 (owc_map, flush_seq) are kept apart. -/
def ctxRec (u : Units) (e h : Nat) : BitVec 160 := if u.badCtx.contains (h / 2) then 0 else tabGetD (if e % 2 = 0 then u.ctxEven else u.ctxOdd) h 0

/-- Bits of a context record. -/
def cBits (r : BitVec 160) (lo w : Nat) : Nat := nbits r.toNat lo w

/-- One window of a record covers a region with the permission bits needed: bit 0 read, bit 1 write. -/
def windowOk (r : BitVec 160) (base region need : Nat) : Bool :=
  cBits r base 22 ≤ region && region ≤ cBits r (base + 22) 22 && (cBits r (base + 44) 2 &&& need) == need

/-- Check 3: one window alone covers the access (R105). -/
def windowCheck (r : BitVec 160) (region need : Nat) : Bool := windowOk r 17 region need || windowOk r 63 region need

/-- Permission a command needs (R105). -/
def permNeed (cmd : Nat) : Nat := if cmd = 2 then 2 else if cmd = 3 then 3 else 1

/-- Key of a cache set. -/
def cacheSet (p h : Nat) : Nat := p / 8 * 1024 + h % 1024

/-- The cluster's cache holds the handle. -/
def cached (u : Units) (p h : Nat) : Bool := (tabGet u.cache (cacheSet p h)).any fun x => x.handle == h

/-- Mark an entry most recently used. -/
def touchCache (u : Units) (p h : Nat) : Units :=
  let s := tabGet u.cache (cacheSet p h)
  { u with cache := tabPut u.cache (cacheSet p h) ((s.filter fun x => x.handle == h) ++ s.filter fun x => x.handle != h) }

/-- Put an entry into its set: room in the set, or the least recently used entry whose share is zero is replaced; none where all four shares are non-zero (R96). -/
def installCache (u : Units) (p h : Nat) : Option Units :=
  let s := tabGet u.cache (cacheSet p h)
  if s.length < 4 then some { u with cache := tabPut u.cache (cacheSet p h) ({ handle := h } :: s) }
  else
    match s.reverse.find? fun x => x.share == 0 with
    | none => none
    | some y => some { u with cache := tabPut u.cache (cacheSet p h) ({ handle := h } :: s.filter fun x => x.handle ≠ y.handle) }

/-- Change a cluster's share of the outstanding-write count of a context (R94). -/
def addShare (u : Units) (p h : Nat) (up : Bool) : Units :=
  let s := tabGet u.cache (cacheSet p h)
  { u with cache := tabPut u.cache (cacheSet p h) (s.map fun x => if x.handle = h then { x with share := if up then x.share + 1 else x.share - 1 } else x) }

/-- A cluster's share of a context's outstanding-write count. -/
def shareOf (u : Units) (cl h : Nat) : Nat :=
  (((tabGet u.cache (cl * 1024 + h % 1024)).filter fun x => x.handle == h).map fun x => x.share).sum

/-- owc_map of a context (Table 3-1). -/
def owcMap (u : Units) (h : Nat) : Nat :=
  ((List.range (nClusters u.v)).map fun k => if shareOf u k h = 0 then 0 else 2 ^ k).sum

/-- The key slot may be used by requests of an epoch (Table 3-3). -/
def keyUsable (u : Units) (e slot : Nat) : Bool :=
  let k := tabGet u.keys slot
  if e % 2 = 0 then k.even else k.odd

/-! ### Completion of a request (R78, R79, R67) -/

/-- A request is a write counted in its context's outstanding-write count. -/
def releaseShare (u : Units) (p : Nat) (r : Req) : Units := if r.counted then addShare u p (hCtx r.hdr) false else u

/-- The selection of TELE_HIST_CFG_p takes this request (R527). -/
def histTakes (u : Units) (p : Nat) (r : Req) : Bool :=
  let c := hCmd r.hdr
  let sel := inF u F.TELE_HIST_CFG_p_cmd p
  let cmdOk := if sel = 0 then c == 1 else if sel = 1 then isWriteCmd c else if sel = 2 then isLineCmd c else isFlushCmd c
  cmdOk && nbits (inF u F.TELE_HIST_CFG_p_classes p) r.cls 1 == 1

/-- The bin of a latency (R528). -/
def histBin (u : Units) (p l : Nat) : Nat :=
  let base := inF u F.TELE_HIST_CFG_p_base p
  let width := inF u F.TELE_HIST_CFG_p_width p
  if l < base then 0
  else if inF u F.TELE_HIST_CFG_p_log p = 1 then min 31 (if base = 0 then 31 else ((List.range 32).filter fun i => 2 ^ i ≤ l / base).length)
  else if width = 0 then 31
  else min 31 ((l - base) / width + 1)

/-- Record a latency in the port's live histogram: its bin, min, max and count, each saturating. -/
def recordLatency (u : Units) (p : Nat) (r : Req) : Units :=
  if histTakes u p r then
    let l := min ((u.now - r.acc) * 20) (2 ^ 32 - 1)
    let key := p * 64 + histBin u p l
    let t := u.tele
    let (mn, mx) := tabGet t.lat (2 * p)
    let n := tabGet t.liveBins (p * 64 + 32)
    let lat := tabPut t.lat (2 * p) (if n = 0 then (l, l) else (min mn l, max mx l))
    let bins := tabPut t.liveBins key (min (tabGet t.liveBins key + 1) (2 ^ 32 - 1))
    { u with tele := { t with lat := lat, liveBins := tabPut bins (p * 64 + 32) (min (n + 1) (2 ^ 32 - 1)) } }
  else u

/-- A bound ticket that its request will not use goes back to those its slice withholds, and the pin ends (R208). -/
def giveBound (u : Units) (id p ord : Nat) : Units :=
  let s := id % 256 - 32
  let x := tabGet u.slices s
  let cl := id / 256 % 256
  { u with slices := tabPut u.slices s { x with withheld := tabPut x.withheld cl (tabGet x.withheld cl + 1), pins := x.pins.filter fun q => q.2 != (p, ord) } }

/-- Return the tickets that a request holds and has not used. -/
def returnHeld (u : Units) (p : Nat) (r : Req) : Units :=
  r.tickets.foldl (fun u id => if r.bound ∧ id / 65536 = 1 then giveBound u id p r.ord else returnTickets u id 1) u

/-- Present a completion: one COMPLETION beat, and the DATA beat of a READ that is OK. -/
def completionBeats (u : Units) (p status : Nat) (r : Req) (z m x : Nat) (line : BitVec 512) : Units :=
  let d := if hCmd r.hdr = 1 ∧ status = 0 then 1 else 0
  let w := completionWord status (hTag r.hdr) d z m x r.pool r.ord
  let u := present u (.beat p 1 w (if d = 1 then line.setWidth 256 else 0))
  let u := count u (cPort p (if status = 0 then 1 else 2))
  if d = 1 then count (present u (.beat p 2 0 (BitVec.ofNat 256 (line.toNat / 2 ^ 256)))) (cPort p 3) else u

/-- The ledger counts a port from its opening (R443). -/
def ldgRestart (u : Units) (p : Nat) : Units := { u with tele := { u.tele with ldgBase := tabPut u.tele.ldgBase p (0, 0) } }

/-- Every port of a cluster is closed and has enable = 0 in force. -/
def clusterIdle (u : Units) (k : Nat) : Bool := (List.range 8).all fun i => (port u (8 * k + i)).state == 0 && inF u F.PORT_n_CFG_enable (8 * k + i) == 0

/-- In RUN a cluster whose last enabled port has closed is fenced, to be switched off (R483). -/
def fenceIdle (c : Ctl) (u : Units) (k : Nat) : Units := if c.mode = .run ∧ pdOn u (pdCluster k) ∧ clusterIdle u k then setFence u (pdCluster k) true else u

/-- The port becomes closed when its last accepted request has completed (Table 2-3, step 4); after a reopen it opens again at once where its enable is in force and the mode is RUN. -/
def portMayClose (c : Ctl) (u : Units) (p : Nat) : Units :=
  let q := port u p
  if q.state = 3 ∧ q.reqs = [] then
    if q.reopen ∧ inF u F.PORT_n_CFG_enable p = 1 ∧ c.mode = .run then
      setPort (ldgRestart u p) p { q with state := 1, reopen := false, next := 0, accepted := 0, done := 0, ingress := .idle }
    else fenceIdle c (setPort u p { q with state := 0, reopen := false, ingress := .idle }) (p / 8)
  else u

/-- Complete a request: its completion leaves egress, its slots and unused tickets are freed, and it no longer stands on its port. -/
def completeReq (c : Ctl) (u : Units) (p : Nat) (r : Req) (status z m x : Nat) (line : BitVec 512) : Units :=
  let u := completionBeats u p status r z m x line
  let u := if status = 6 then addSat u F.PORT_n_ERRCNT_malformed p 0 1 else recordLatency u p r
  let u := releaseShare u p r
  let u := returnHeld u p r
  let q := port u p
  let u := setPort u p { q with reqs := q.reqs.filter (fun y => y.ord ≠ r.ord), done := q.done + 1 }
  let u := if r.hdrSlot then freeHdr u p r.pool else u
  let u := freeDataSlots u p r.dataPools
  portMayClose c u p

/-- A completion with a status other than OK that carries nothing else. -/
def failReq (c : Ctl) (u : Units) (p : Nat) (r : Req) (status : Nat) : Units := completeReq c u p r status 0 0 0 0

/-! ### Class, priority and the token bucket (R131 to R137) -/

/-- Tokens a command takes (Table 4-2). -/
def tokenNeed (cmd : Nat) : Nat := if cmd = 3 then 2 else if isFlushCmd cmd then 0 else 1

/-- The bucket register of a class. -/
def tokenReg (k : Nat) : Reg :=
  if k = 0 then .RGL_PORT_p_TOKEN_0 else if k = 1 then .RGL_PORT_p_TOKEN_1 else if k = 2 then .RGL_PORT_p_TOKEN_2 else .RGL_PORT_p_TOKEN_3

/-- Rate, unlimited and depth of a bucket in force. -/
def bucketRate (u : Units) (p k : Nat) : Nat := nbits (bankReg u u.regs.epoch (tokenReg k) p) 0 12
/-- unlimited of a bucket in force. -/
def bucketUnlimited (u : Units) (p k : Nat) : Bool := nbits (bankReg u u.regs.epoch (tokenReg k) p) 12 1 == 1
/-- Depth of a bucket in force. -/
def bucketDepth (u : Units) (p k : Nat) : Nat := nbits (bankReg u u.regs.epoch (tokenReg k) p) 16 10

/-- Scale of a class on a port, in eighths; 8 for C2 and C3. -/
def scaleOf (u : Units) (p k : Nat) : Nat :=
  if k = 0 then getF u F.RGL_PORT_p_SCALE_c0 p else if k = 1 then getF u F.RGL_PORT_p_SCALE_c1 p else 8

/-- Effective rate ceil(rate × f / 8) in sixteenths of a token per 128 ns (R144). -/
def effRate (u : Units) (p k : Nat) : Nat := (bucketRate u p k * scaleOf u p k + 7) / 8

/-- Level of a bucket in sixteenths. -/
def levelOf (q : Port) (k : Nat) : Int := tabGetD q.level k 0

/-- Transit priority of a class (Table 4-1). -/
def classPrio (u : Units) (p k : Nat) : Nat :=
  if k = 0 then 7 else if k = 1 then 6 else if k = 2 then 3 + inF u F.RGL_PORT_p_CLASS_c2_prio p else 1

/-- The class of a port in force. -/
def portClass (u : Units) (p : Nat) : Nat := inF u F.RGL_PORT_p_CLASS_class p

/-- Whether a request passes its bucket now, and the level after it: unlimited buckets keep no level; a closing port passes without regard to the level, down to −4,096 sixteenths (R137); a need above the depth passes a full bucket into debt (R134). A FLUSH or FLUSH_ALL, whose need is 0, is held as long as the level is below zero. -/
def bucketPass (u : Units) (p k cmd : Nat) : Option Int :=
  let q := port u p
  let l := levelOf q k
  let need : Int := tokenNeed cmd * 16
  let depth : Int := bucketDepth u p k * 16
  if bucketUnlimited u p k then some l
  else if q.state = 3 then some (max (l - need) (-4096))
  else if need ≤ l then some (l - need)
  else if depth < need ∧ l = depth then some (l - need)
  else none

/-! ### Advancing a request towards transit -/

/-- Store a request's progress. -/
def phaseTo (u : Units) (p : Nat) (r : Req) (ph : Phase) : Units := setReq u p { r with phase := ph }

/-- An earlier request of the same class stands at the bucket (R135: ingress order). -/
def aheadAtBucket (q : Port) (r : Req) : Bool :=
  ((q.reqs.takeWhile fun x => x.ord != r.ord).any fun x => x.phase == .bucket && x.cls == r.cls)

/-- The request that holds the tag and was accepted earlier. -/
def tagHolder (q : Port) (r : Req) : Bool :=
  ((q.reqs.takeWhile fun x => x.ord != r.ord).any fun x => hTag x.hdr == hTag r.hdr)

/-- The order kept between an earlier request and a later one of the same context and port (Table 2-8); the stronger of the two modes decides (R100). -/
def ordered (a b : Req) : Bool :=
  let ca := hCmd a.hdr
  let cb := hCmd b.hdr
  let mode := max a.order b.order
  if hCtx a.hdr ≠ hCtx b.hdr ∨ isFlushCmd ca ∨ isFlushCmd cb then false
  else if hLla a.hdr = hLla b.hdr then true
  else if isWriteCmd ca && isWriteCmd cb then decide (1 ≤ mode)
  else decide (2 ≤ mode)

/-- The earlier requests of a request's port. -/
def earlier (q : Port) (r : Req) : List Req := q.reqs.takeWhile fun x => x.ord != r.ord

/-- The request waits for an ordering predecessor, or, as a flush, for the earlier writes R109 names. An earlier request that will complete without reaching a slice imposes nothing. -/
def orderWait (q : Port) (r : Req) : Bool :=
  let cmd := hCmd r.hdr
  (earlier q r).any fun x =>
    if cmd = 5 then isWriteCmd (hCmd x.hdr) && hCtx x.hdr == hCtx r.hdr && x.phase != .dup
    else if cmd = 6 then isWriteCmd (hCmd x.hdr) && x.phase != .dup
    else x.phase != .dup && !x.bad && ordered x r

/-- A request of port p waits for a request ticket toward the context engine: for its record fetch, or as a FLUSH that nothing else holds. -/
def engineWaits (u : Units) (p : Nat) (x : Req) : Bool :=
  (x.phase == .check && x.fetch == 3) || (x.phase == .ready && hCmd x.hdr == 5 && !orderWait (port u p) x && !x.tickets.contains (poolId 0 (epCluster (p / 8)) (epCore 0)))

/-- Another request of the cluster comes before this one in the pool toward the context engine: of higher priority, or of the same and earlier to wait (R176). -/
def engineRival (u : Units) (p : Nat) (r : Req) : Bool :=
  (List.range 8).any fun i =>
    let q := p / 8 * 8 + i
    (port u q).reqs.any fun x => engineWaits u q x && decide (r.prio < x.prio ∨ (r.prio = x.prio ∧ x.waitFrom < r.waitFrom))

/-- Send the record fetch of a context-cache miss to the context engine (R96), once a request ticket toward it is granted (R176); a fence on the way ends the request (R181). -/
def fetchRecord (c : Ctl) (u : Units) (p : Nat) (r : Req) : Units :=
  let cl := epCluster (p / 8)
  let id := poolId 0 cl (epCore 0)
  let r := if r.fetch = 3 then r else { r with waitFrom := u.now }
  if routeRefused u cl (epCore 0) then failReq c u p r 4
  else if canTake u id r.prio && !engineRival u p r then
    let u := takeTicket u id
    let u := count u (cPort p 6)
    let u := setReq u p { r with fetch := 1 }
    sendPkt u { typ := .ctx, src := cl, dst := epCore 0, prio := r.prio, epoch := r.epoch.getD 0, pool := id, port := p, ord := r.ord, handle := hCtx r.hdr }
  else setReq u p { r with fetch := 3 }

/-- The record of the request's context is at hand in the cluster's cache; otherwise its fetch is started or it waits for a way of the set. -/
def needRecord (c : Ctl) (u : Units) (p : Nat) (r : Req) : Bool × Units :=
  let h := hCtx r.hdr
  if cached u p h then (true, touchCache u p h)
  else if r.fetch = 2 then
    match installCache u p h with
    | some u => (true, u)
    | none => (false, u)
  else if r.fetch = 1 then (false, u)
  else (false, fetchRecord c u p r)

/-- Check 2 (Table 2-5): the handle is within the variant and names an open context in the bank of an epoch. -/
def check2 (u : Units) (e : Nat) (r : Req) : Bool := hCtx r.hdr < nCtx u.v && cBits (ctxRec u e (hCtx r.hdr)) 0 2 == 1

/-- Checks 3 and 4 under the request's epoch, or the status of the first that fails. -/
def check34 (u : Units) (e : Nat) (r : Req) : Option Nat :=
  let rec' := ctxRec u e (hCtx r.hdr)
  let cmd := hCmd r.hdr
  if isLineCmd cmd && !windowCheck rec' (hLla r.hdr / 2 ^ 17) (permNeed cmd) then some 3
  else if (cmd == 1 || isWriteCmd cmd) && !keyUsable u e (cBits rec' 7 10) then some 5
  else none

/-- A request that has passed the checks takes its context's fields and its share of the outstanding-write count. -/
def enterReady (u : Units) (p e : Nat) (r : Req) : Units :=
  let rec' := ctxRec u e (hCtx r.hdr)
  setReq u p { r with phase := .ready, keySlot := cBits rec' 7 10, dur := cBits rec' 4 1, order := cBits rec' 2 2, waitFrom := u.now }

/-- Passing check 2 counts a write (R94). -/
def countWrite (u : Units) (p : Nat) (r : Req) : Units × Req :=
  if isWriteCmd (hCmd r.hdr) && !r.counted then (addShare u p (hCtx r.hdr) true, { r with counted := true }) else (u, r)

/-- The context check after the bucket on a regular port: checks 2 to 4 under the request's epoch (R99). -/
def stepCheckRegular (c : Ctl) (u : Units) (p : Nat) (r : Req) : Units :=
  let e := r.epoch.getD 0
  if hCmd r.hdr = 6 then setReq u p { r with phase := .ready, waitFrom := u.now }
  else if nCtx u.v ≤ hCtx r.hdr then failReq c u p r 2
  else
    match needRecord c u p r with
    | (false, u) => u
    | (true, u) =>
      if !check2 u e r then failReq c u p r 2
      else
        let (u, r) := countWrite u p r
        match check34 u e r with
        | some st => failReq c u p r st
        | none => enterReady u p e r

/-- The token bucket: a request that passes takes its epoch and goes on to the context check; one that does not is held (R133 to R138). -/
def stepBucket (c : Ctl) (u : Units) (p : Nat) (r : Req) : Units :=
  let q := port u p
  let cmd := hCmd r.hdr
  if aheadAtBucket q r then (if r.held then u else setReq u p { r with held := true })
  else
    match bucketPass u p r.cls cmd with
    | none => if r.held then u else setReq u p { r with held := true }
    | some l =>
      let q := { q with level := tabPutD q.level r.cls 0 l,
                        rdLines := q.rdLines + (if isReadCmd cmd then 1 else 0),
                        wrLines := q.wrLines + (if isWriteCmd cmd then 1 else 0) }
      let u := setPort u p q
      let e := u.regs.epoch
      let r := { r with phase := .check, epoch := some e, prio := classPrio u p r.cls, acc := (if r.held then u.now else r.acc), held := false }
      let u := setReq u p r
      if r.label then
        -- privileged port: check 2 has passed; checks 3 and 4 fall in the bucket's own cycle
        (if !check2 u e r then failReq c u p r 2
         else
          match check34 u e r with
          | some st => failReq c u p r st
          | none => enterReady u p e r)
      else stepCheckRegular c u p r

/-- Check 2 before the bucket on a privileged port: the class label chooses the bucket (R99, R131, R136). -/
def stepLabel (c : Ctl) (u : Units) (p : Nat) (r : Req) : Units :=
  if nCtx u.v ≤ hCtx r.hdr then failReq c u p r 2
  else
    match needRecord c u p r with
    | (false, u) => u
    | (true, u) =>
      let e := u.regs.epoch
      if !check2 u e r then failReq c u p r 2
      else
        let (u, r) := countWrite u p r
        let r := { r with phase := .bucket, label := true, cls := cBits (ctxRec u e (hCtx r.hdr)) 5 2 }
        stepBucket c (setReq u p r) p r

/-- After check 1: the request enters the queue of its class, on a privileged port after its label has been read. -/
def stepAdmit (c : Ctl) (u : Units) (p : Nat) (r : Req) : Units :=
  let perm := hCmd r.hdr = 6 ∧ inF u F.PORT_n_CFG_flush_all p = 0
  if r.bad ∨ headerMalformed r.hdr ∨ perm then failReq c u p r 6
  else if privileged p ∧ hCmd r.hdr ≠ 6 then
    let r := { r with phase := .check }
    stepLabel c (setReq u p r) p r
  else
    let r := { r with phase := .bucket, cls := portClass u p }
    stepBucket c (setReq u p r) p r

/-- The pipelines of the port clusters are stopped: in HUSH, on the way into it, and until the wake is over (R71). -/
def pipesStopped (c : Ctl) (u : Units) : Bool := c.mode == .hush || u.pwr.hushing

/-- A whole request is judged, or waits in its slot while the pipelines are stopped (R71). -/
def admitOrWait (c : Ctl) (u : Units) (p : Nat) (r : Req) : Units :=
  if pipesStopped c u then setReq u p { r with phase := .arrived } else stepAdmit c u p r

/-- One request goes as far towards transit as it can without tickets. -/
def stepReq (c : Ctl) (u : Units) (p ord : Nat) : Units :=
  match findReq u p ord with
  | none => u
  | some r =>
    match r.phase with
    | .data => u
    | .arrived => stepAdmit c u p r
    | .dup => if tagHolder (port u p) r then u else failReq c u p r 6
    | .bucket => stepBucket c u p r
    | .check => if r.epoch.isSome then stepCheckRegular c u p r else stepLabel c u p r
    | .ready => u
    | .sent => u

/-- Every request of a port goes as far as it can, in ingress order. -/
def stepPort (c : Ctl) (u : Units) (p : Nat) : Units :=
  ((port u p).reqs.map fun r => r.ord).foldl (fun u o => stepReq c u p o) u

/-! ### Ordering and injection (R74, R84, R109, R181) -/

/-- Tickets a request needs, in the order of Table 2-4. -/
def ticketsNeeded (u : Units) (p : Nat) (r : Req) : List Nat :=
  let cl := epCluster (p / 8)
  let sl := epSlice (lineSlice u (r.epoch.getD 0) (hLla r.hdr))
  match hCmd r.hdr with
  | 1 => [poolId 0 cl sl, poolId 2 cl cl]
  | 4 => [poolId 0 cl sl, poolId 2 cl cl]
  | 2 => [poolId 1 cl sl, poolId 3 cl cl]
  | 3 => [poolId 0 cl sl, poolId 2 cl cl, poolId 1 cl sl, poolId 3 cl cl]
  | 5 => [poolId 0 cl (epCore 0), poolId 3 cl cl]
  | _ => [poolId 0 cl (epCore 2), poolId 3 cl cl]

/-- Where the packet of a request goes: its line's slice, the context engine or the flush point. -/
def reqDest (u : Units) (r : Req) : Nat :=
  match hCmd r.hdr with
  | 5 => epCore 0
  | 6 => epCore 2
  | _ => epSlice (lineSlice u (r.epoch.getD 0) (hLla r.hdr))

/-- The route of the request passes through a fenced domain or ends in one (R181). -/
def routeFenced (u : Units) (p : Nat) (r : Req) : Bool := routeRefused u (epCluster (p / 8)) (reqDest u r)

/-- Take the tickets still lacking, in order, as far as the pools grant them. -/
def takeAll (u : Units) (need : List Nat) (r : Req) : Units × Req × Bool :=
  match need with
  | [] => (u, r, true)
  | id :: rest =>
    if r.tickets.contains id then takeAll u rest r
    else if canTake u id r.prio then takeAll (takeTicket u id) rest { r with tickets := r.tickets ++ [id] }
    else (u, r, false)

/-- The plaintext line of a WRITE from its two data units. -/
def lineOf (d : List (BitVec 256)) : BitVec 512 := BitVec.ofNat 512 ((d.getD 0 0).toNat + (d.getD 1 0).toNat * 2 ^ 256)

/-- The key of a slot. -/
def keyOf (u : Units) (slot : Nat) : BitVec 512 := (tabGet u.keys slot).key

/-- The LINE_WR of a write, or of the merged line of a WRITE_MASKED. -/
def sendLineWr (u : Units) (p : Nat) (r : Req) (line : BitVec 512) (poison merge : Bool) : Units :=
  let s := lineSlice u (r.epoch.getD 0) (hLla r.hdr)
  sendPkt u { typ := .lineWr, src := epCluster (p / 8), dst := epSlice s, prio := r.prio, epoch := r.epoch.getD 0,
              pool := poolId 1 (epCluster (p / 8)) (epSlice s), port := p, ord := r.ord, lla := hLla r.hdr,
              data := line, poison := poison, merge := merge, bound := r.bound, cls := r.cls }

/-- Injection: the header slot is freed, the data slots of a WRITE too, and the packet of Table 2-4 leaves. -/
def injectReq (u : Units) (p : Nat) (r : Req) : Units :=
  let cmd := hCmd r.hdr
  let cl := epCluster (p / 8)
  let e := r.epoch.getD 0
  let s := lineSlice u e (hLla r.hdr)
  let base : Pkt := { src := cl, prio := r.prio, epoch := e, port := p, ord := r.ord, lla := hLla r.hdr, cls := r.cls, handle := hCtx r.hdr }
  let u := if r.hdrSlot then freeHdr u p r.pool else u
  let r := { r with hdrSlot := false, phase := .sent }
  if cmd = 1 ∨ cmd = 4 then
    let u := setReq u p { r with tickets := [poolId 2 cl cl] }
    sendPkt u { base with typ := .lineReq, dst := epSlice s, pool := poolId 0 cl (epSlice s), kind := if cmd = 1 then .read else .prefetch }
  else if cmd = 2 ∨ (cmd = 3 ∧ hP r.hdr = 1) then
    let u := if cmd = 3 then returnTickets (returnTickets u (poolId 0 cl (epSlice s)) 1) (poolId 2 cl cl) 1 else u
    let line := if hP r.hdr = 1 then 0 else xtsEncrypt (keyOf u r.keySlot) (hLla r.hdr) (lineOf r.data)
    let u := sendLineWr u p r line (hP r.hdr == 1) false
    let pools := r.dataPools
    let u := setReq u p { r with tickets := [poolId 3 cl cl], data := [], dataPools := [] }
    freeDataSlots u p pools
  else if cmd = 3 then
    let u := setReq u p { r with tickets := [poolId 2 cl cl, poolId 1 cl (epSlice s), poolId 3 cl cl] }
    sendPkt u { base with typ := .lineReq, dst := epSlice s, pool := poolId 0 cl (epSlice s), kind := .merge }
  else
    let d := if cmd = 5 then epCore 0 else epCore 2
    let u := setReq u p { r with tickets := [poolId 3 cl cl] }
    sendPkt u { base with typ := .flush, dst := d, pool := poolId 0 cl d }

/-- One request that has passed the checks: its ordering predecessors, its fence check (check 5) and its tickets. -/
def tryInject (c : Ctl) (u : Units) (p ord : Nat) : Units :=
  match findReq u p ord with
  | none => u
  | some r =>
    if r.phase ≠ .ready ∨ orderWait (port u p) r then u
    else if hCmd r.hdr = 3 ∧ hMask r.hdr = 0 ∧ hP r.hdr = 0 then completeReq c u p r 0 0 0 0 0
    else if routeFenced u p r then failReq c u p r 4
    else
      let (u, r, ok) := takeAll u (ticketsNeeded u p r) r
      let u := setReq u p r
      if ok then injectReq u p r else u

/-- Insert a request into a list ordered by priority, highest first, then by the start of its wait (R176). -/
def insertWaiter (x : Nat × Nat × Nat × Nat) : List (Nat × Nat × Nat × Nat) → List (Nat × Nat × Nat × Nat)
  | [] => [x]
  | y :: t => if y.1 < x.1 ∨ (y.1 = x.1 ∧ x.2.1 < y.2.1) then x :: y :: t else y :: insertWaiter x t

/-- The requests of a cluster that wait for tickets, in the order the pools grant them: priority, start of the wait, port, ordinal. -/
def waiters (u : Units) (cl : Nat) : List (Nat × Nat × Nat × Nat) :=
  ((List.range 8).flatMap fun i =>
    let p := cl * 8 + i
    ((port u p).reqs.filter fun r => r.phase == .ready).map fun r => (r.prio, r.waitFrom, p, r.ord)).foldl (fun l x => insertWaiter x l) []

/-- Everything the ports of one cluster can do now: bucket, checks, ordering, tickets, injection. In HUSH the pipelines of a cluster are stopped and accepted headers wait (R71). -/
def pumpCluster (c : Ctl) (u : Units) (cl : Nat) : Units :=
  if pipesStopped c u then u
  else
    let u := (List.range 8).foldl (fun u i => stepPort c u (cl * 8 + i)) u
    (waiters u cl).foldl (fun u w => tryInject c u w.2.2.1 w.2.2.2) u

/-- A request that completed may let others of its port go on: twice is enough for what its completion frees in its own cluster. -/
def pump (c : Ctl) (u : Units) (p : Nat) : Units := pumpCluster c (pumpCluster c u (p / 8)) (p / 8)

/-- Every cluster. -/
def pumpAll (c : Ctl) (u : Units) : Units := (List.range (nClusters u.v)).foldl (fun u cl => pumpCluster c (pumpCluster c u cl) cl) u

/-! ### Ingress beats (R52 to R55, R73, R89) -/

/-- The open request becomes short: it completes MALFORMED with short_data, its received beats' credits returned (Table 2-9) unless the port is closing. -/
def makeShort (c : Ctl) (u : Units) (p : Nat) : Units :=
  match (port u p).ingress with
  | .taking ord =>
    let q := port u p
    let u := setPort u p { q with ingress := .idle }
    match findReq u p ord with
    | none => u
    | some r =>
      let u := portFault u p 5 ord
      let r := { r with bad := true, phase := if r.phase = .dup then .dup else .bucket }
      if tagHolder (port u p) r then setReq u p { r with phase := .dup } else failReq c u p r 6
  | _ => u

/-- A rejected header: one REJECT beat with STATUS MALFORMED, TAG 0, its ORD and its POOL (R89). -/
def rejectHeader (u : Units) (p pool ord bit : Nat) : Units :=
  let u := present u (.beat p 3 (completionWord 6 0 0 0 0 0 pool ord) 0)
  let u := addSat u F.PORT_n_ERRCNT_rejected p 0 1
  let u := count u (cPort p 2)
  portFault u p bit ord

/-- The ingress of a port becomes the given state. -/
def setIngress (u : Units) (p : Nat) (g : Ingress) : Units := setPort u p { port u p with ingress := g }

/-- Put an accepted header among the open requests; a request without data units is judged at once. -/
def acceptReq (c : Ctl) (u : Units) (p pool ord : Nat) (h : BitVec 128) : Units :=
  let u := spendHdr u p pool
  let u := count u (cPort p 0)
  let n := dataUnits (hCmd h)
  let r : Req := { ord := ord, hdr := h, pool := pool, acc := u.now, waitFrom := u.now }
  let q := port u p
  let dup := q.reqs.any fun x => hTag x.hdr == hTag h
  let u := setPort u p { q with reqs := q.reqs ++ [r], accepted := q.accepted + 1, ingress := if n = 0 then .idle else .taking ord }
  let u := if headerMalformed h then portFault u p 7 ord else u
  let u := if dup then portFault u p 6 ord else u
  if 0 < n then (if dup then setReq u p { r with bad := true } else u)
  else if dup then setReq u p { r with bad := true, phase := .dup }
  else admitOrWait c u p r

/-- A HEADER beat on ingress, judged in the order of R73: readiness, the earlier request's missing data, the header credit, HCHK, the data credits; then it is accepted. The credits of a request that this header makes short are returned first and count in its own test: the model's choice (log entry 92). The event of a beat while READY is low carries the ordinal that the next header will take (log entry 93). -/
def headerBeat (c : Ctl) (u : Units) (p pool : Nat) (h : BitVec 128) : Units :=
  let q := port u p
  if nPorts u.v ≤ p ∨ 4 ≤ pool ∨ pdState u (pdCluster (p / 8)) = 0 then u
  else if q.state ≠ 2 then portFault u p 9 q.next
  else
    let u := makeShort c u p
    let q := port u p
    let ord := q.next
    let u := setPort u p { q with next := (ord + 1) % 65536 }
    let u :=
      if tabGet q.hdrCred pool = 0 then setIngress (rejectHeader u p pool ord 1) p .dropLost
      else if !hcheckOk h then setIngress (freeHdr (rejectHeader (spendHdr u p pool) p pool ord 0) p pool) p .dropJudged
      else if tabGet q.dataCred pool < dataUnits (hCmd h) then setIngress (rejectHeader (spendHdr u p pool) p pool ord 1) p .dropLost
      else acceptReq c u p pool ord h
    pump c u p

/-- Even parity of byte i of a data unit. -/
def byteParity (d : BitVec 256) (i : Nat) : Nat := ((List.range 8).map fun k => nbits d.toNat (8 * i + k) 1).sum % 2

/-- DPAR matches every byte (R54). -/
def dparOk (d : BitVec 256) (par : BitVec 32) : Bool := (List.range 32).all fun i => byteParity d i == nbits par.toNat i 1

/-- A DATA beat of the open request. -/
def takeData (c : Ctl) (u : Units) (p pool ord : Nat) (d : BitVec 256) (par : BitVec 32) : Units :=
  match findReq u p ord with
  | none => u
  | some r =>
    let u := count u (cPort p 4)
    let u := if dparOk d par then u else portFault u p 4 ord
    let u := if pool = r.pool then u else portFault u p 7 ord
    let r := { r with data := r.data ++ [d], dataPools := r.dataPools ++ [pool], bad := r.bad || !dparOk d par || pool != r.pool }
    let u := setReq u p r
    if r.data.length < dataUnits (hCmd r.hdr) then u
    else
      let u := setIngress u p .idle
      if tagHolder (port u p) r then setReq u p { r with phase := .dup, bad := true }
      else admitOrWait c u p r

/-- A DATA beat on ingress: matched to its open request, or discarded as Table 2-9 and R73 give; every beat that lacks a data credit sets overrun. An open request whose beat finds no credit becomes short at once (log entry 92); the event of a beat with no request of its own carries the ordinal of the last header (log entry 93). -/
def dataBeatOp (c : Ctl) (u : Units) (p pool : Nat) (d : BitVec 256) (par : BitVec 32) : Units :=
  let q := port u p
  if nPorts u.v ≤ p ∨ 4 ≤ pool ∨ pdState u (pdCluster (p / 8)) = 0 then u
  else if q.state ≠ 2 then portFault u p 9 q.next
  else
    let ord := (q.next + 65535) % 65536
    let lacks := tabGet q.dataCred pool = 0
    let u :=
      match q.ingress with
      | .dropLost => if lacks then portFault u p 1 ord else spendData u p pool
      | .dropJudged => if lacks then setIngress (portFault u p 1 ord) p .dropLost else freeData (spendData u p pool) p pool
      | .idle =>
        if lacks then setIngress (portFault u p 1 ord) p .dropLost
        else freeData (portFault (spendData u p pool) p 2 ord) p pool
      | .taking o =>
        if lacks then setIngress (portFault (makeShort c u p) p 1 o) p .dropLost
        else takeData c (spendData u p pool) p pool o d par
    pump c u p

/-- A beat with KIND 0b11: discarded; an open request becomes short at once, and the DATA beats that follow are stray, also where beats were being discarded after a rejection (R89; log entry 92). -/
def badKindOp (c : Ctl) (u : Units) (p : Nat) : Units :=
  let q := port u p
  if nPorts u.v ≤ p ∨ pdState u (pdCluster (p / 8)) = 0 then u
  else if q.state ≠ 2 then portFault u p 9 q.next
  else
    let u := portFault u p 3 ((q.next + 65535) % 65536)
    let u := setIngress (makeShort c u p) p .idle
    pump c u p

/-! ### Opening and closing (Table 2-3) -/

/-- Step 1: the port becomes opening; the ordinal counter and the tags in use are cleared. -/
def portOpening (u : Units) (p : Nat) : Units :=
  let q := port u p
  if q.state = 0 then setPort (ldgRestart u p) p { q with state := 1, next := 0, accepted := 0, done := 0, ingress := .idle } else u

/-- Step 3: READY falls, an open request becomes short, no further credit returns are made. -/
def portClosing (c : Ctl) (u : Units) (p : Nat) (reopen : Bool) : Units :=
  let q := port u p
  if q.state = 1 ∨ q.state = 2 then
    let u := present (setPort u p { q with state := 3, reopen := reopen, hdrCred := tabNil, dataCred := tabNil, hdrHold := tabNil, dataHold := tabNil }) (.ready p false)
    portMayClose c (makeShort c u p) p
  else u

/-- Step 2: READY rises and the full count of every pool is returned; each bucket starts full unless it is in debt (R133, R137). -/
def portReadyOp (c : Ctl) (u : Units) (p : Nat) : Units :=
  let q := port u p
  if q.state = 1 then
    let hc := (List.range 4).foldl (fun t k => tabPut t k (hdrFull u p k)) tabNil
    let dc := (List.range 4).foldl (fun t k => tabPut t k (dataFull u p k)) tabNil
    let lv := (List.range 4).foldl (fun t k =>
      tabPutD t k 0 (if levelOf q k < 0 then levelOf q k else if bucketUnlimited u p k then 0 else (bucketDepth u p k * 16 : Nat))) q.level
    let u := setPort u p { q with state := 2, hdrCred := hc, dataCred := dc, hdrHold := tabNil, dataHold := tabNil, level := lv }
    let u := present u (.ready p true)
    (List.range 4).foldl (fun u k => giveCredits (giveCredits u p k false (hdrFull u p k)) p k true (dataFull u p k)) u
  else (fun _ => u) c

/-- The refill of every bucket of an open or closing port: the level rises by the effective rate up to depth × 16, and held requests are tested again (R133). Closed and opening ports take none, so that a debt stands until the port opens again: the model's choice (log entry 94). -/
def refillOp (c : Ctl) (u : Units) (p : Nat) : Units :=
  let q := port u p
  if q.state = 0 ∨ q.state = 1 then u
  else
    let lv := (List.range 4).foldl (fun t k =>
      if bucketUnlimited u p k then t
      else tabPutD t k (0 : Int) (min (tabGetD t k (0 : Int) + (effRate u p k : Int)) (bucketDepth u p k * 16 : Int))) q.level
    pump c (setPort u p { q with level := lv }) p

end Sys2Proof.Machine
end

