-- ==== Sys2Proof/Machine/Staging.lean ====
section
/-! DEFINITION. The staging slices (chapter "Staging Store"): set headers and their cache, hits, fills, writes, merge locks, pins, the dirty budget, the destager's structures and seals; and the queues of the DDR5 subchannels that hold their accesses. -/

namespace Sys2Proof.Machine

/-! ### DDR5 queues (R225, R230) -/

/-- Channel engine c. -/
def ddr (u : Units) (c : Nat) : Ddr := tabGet u.ddr c

/-- Replace a channel engine. -/
def setDdr (u : Units) (c : Nat) (x : Ddr) : Units := { u with ddr := tabPut u.ddr c x }

/-- A subchannel of a channel. -/
def subOf (u : Units) (c s : Nat) : Sub := if s = 0 then (ddr u c).sub0 else (ddr u c).sub1

/-- Replace a subchannel. -/
def setSub (u : Units) (c s : Nat) (x : Sub) : Units :=
  if s = 0 then setDdr u c { ddr u c with sub0 := x } else setDdr u c { ddr u c with sub1 := x }

/-- Subchannel of a line number, set × 16 + line (Table 6-1). -/
def lineSub (line : Nat) : Nat := line / 16 / 8 % 2
/-- Bank index of a line number. -/
def lineBank (line : Nat) : Nat := line / 16 / 16 % 32
/-- log2 of the ranks of a channel. -/
def rkLog (u : Units) : Nat := u.stg.rkLog2
/-- Rank of a line number. -/
def lineRank (u : Units) (line : Nat) : Nat := line / 16 / 512 % 2 ^ rkLog u
/-- Row of a line number. -/
def lineRow (u : Units) (line : Nat) : Nat := line / 16 / (512 * 2 ^ rkLog u)
/-- Column of a line number. -/
def lineCol (line : Nat) : Nat := 16 * (16 * (line / 16 % 8) + line % 16)

/-- A queue holds an access of this line. -/
def hasLine (q : List DAcc) (line : Nat) : Bool := q.any fun a => a.line == line

/-- The newest write of a line that has not issued, or that is kept for replay (R230, R270). -/
def queuedWrite (x : Sub) (line : Nat) : Option (BitVec 512) :=
  ((x.crcHeld ++ x.wq ++ x.held).reverse.find? fun a => a.line == line).map fun a => a.data

/-- A newer write replaces the older one of its location in a queue (R230). -/
def replaceWrite (q : List DAcc) (a : DAcc) : List DAcc := q.map fun b => if b.line = a.line then { b with data := a.data, dirty := a.dirty } else b

/-- Put a write into the queue; a newer write of a location replaces a queued one (R230). Where the queue is full the slice holds the access until an entry frees (R225). -/
def wqPut (u : Units) (c : Nat) (a : DAcc) : Units :=
  let s := lineSub a.line
  let x := subOf u c s
  if hasLine x.wq a.line ∨ hasLine x.held a.line then setSub u c s { x with wq := replaceWrite x.wq a, held := replaceWrite x.held a }
  else if 64 ≤ x.wq.length then setSub u c s { x with held := x.held ++ [a] }
  else setSub u c s { x with wq := x.wq ++ [{ a with entered := x.cyc, seq := x.seq }], seq := x.seq + 1 }

/-- Entries of the write queue that have freed take the accesses that the slice holds, oldest first. -/
def takeHeld (x : Sub) : Sub :=
  let n := 64 - x.wq.length
  (x.held.take n).foldl (fun x a => { x with wq := x.wq ++ [{ a with entered := x.cyc, seq := x.seq }], seq := x.seq + 1 }) { x with held := x.held.drop n }

/-- Put a read into the queue. -/
def rqPut (u : Units) (c : Nat) (a : DAcc) : Units :=
  let s := lineSub a.line
  let x := subOf u c s
  setSub u c s { x with rq := x.rq ++ [{ a with entered := x.cyc, seq := x.seq }], seq := x.seq + 1 }

/-- The read queue has room for n more. -/
def rqRoom (u : Units) (c line n : Nat) : Bool := (subOf u c (lineSub line)).rq.length + n ≤ 64

/-- The write queue has room for these lines, which may replace queued ones. -/
def wqRoom (u : Units) (c : Nat) (lines : List Nat) : Bool :=
  let x := subOf u c (lineSub (lines.headD 0))
  x.wq.length + (lines.filter fun l => !hasLine x.wq l).length ≤ 64

/-! ### Set headers (Tables 6-2, 6-3) -/

/-- An initialised header: every way empty, fmt 0x5A, ref and hand zero (R195). -/
def initHeader : BitVec 512 := BitVec.ofNat 512 (0x5A * 2 ^ 345)

/-- State of way w: 0 empty, 1 valid-clean, 2 valid-dirty, 3 poisoned. -/
def wayState (h : BitVec 512) (w : Nat) : Nat := nbits h.toNat (23 * w) 2
/-- Line in stripe of way w. -/
def wayJ (h : BitVec 512) (w : Nat) : Nat := nbits h.toNat (23 * w + 2) 3
/-- Tag of way w. -/
def wayTag (h : BitVec 512) (w : Nat) : Nat := nbits h.toNat (23 * w + 5) 14
/-- Durability epoch of way w. -/
def wayEp (h : BitVec 512) (w : Nat) : Nat := nbits h.toNat (23 * w + 19) 4
/-- fmt. -/
def hdrFmt (h : BitVec 512) : Nat := nbits h.toNat 345 8
/-- Use bit of way w. -/
def wayRef (h : BitVec 512) (w : Nat) : Nat := nbits h.toNat (353 + w) 1
/-- Clock hand. -/
def hdrHand (h : BitVec 512) : Nat := nbits h.toNat 368 4

/-- Write the field of way w. -/
def setWay (h : BitVec 512) (w state j tag ep : Nat) : BitVec 512 :=
  BitVec.ofNat 512 (nput h.toNat (23 * w) 23 (state + j * 4 + tag * 32 + ep * 2 ^ 19))

/-- Make way w empty. -/
def emptyWay (h : BitVec 512) (w : Nat) : BitVec 512 := setWay h w 0 0 0 0

/-- Set or clear the use bit of way w. -/
def setRef (h : BitVec 512) (w v : Nat) : BitVec 512 := BitVec.ofNat 512 (nput h.toNat (353 + w) 1 v)

/-- Move the clock hand. -/
def setHand (h : BitVec 512) (v : Nat) : BitVec 512 := BitVec.ofNat 512 (nput h.toNat 368 4 v)

/-- A way is valid-dirty or poisoned (R194). -/
def wayDirty (h : BitVec 512) (w : Nat) : Bool := 2 ≤ wayState h w

/-- The way that holds a line: not empty, tag and j match. The tag takes in the position bits of the hash, so that lines of the two positions a slice may serve are never taken for one another (R218). -/
def findWay (h : BitVec 512) (tag j : Nat) : Option Nat :=
  (List.range 15).find? fun w => wayState h w != 0 && wayTag h w == tag && wayJ h w == j

/-- The preferred way (R192). -/
def preferredWay (tag j : Nat) : Nat := (tag % 15 + j) % 15

/-- One turn of the clock over valid-clean ways. -/
def clockWay (busy : Nat → Bool) (hand : Nat) : Nat → BitVec 512 → Option Nat × BitVec 512
  | 0, h => (none, h)
  | n + 1, h =>
    let w := (hand + (30 - (n + 1))) % 15
    if wayState h w = 1 ∧ busy w = false then
      if wayRef h w = 0 then (some w, setHand h ((w + 1) % 15))
      else clockWay busy hand n (setRef h w 0)
    else clockWay busy hand n h

/-- The victim rule of R202: the way chosen, and the header with the use bits and hand the clock has changed. -/
def chooseWay (h : BitVec 512) (busy : Nat → Bool) (tag j : Nat) : Option Nat × BitVec 512 :=
  let pw := preferredWay tag j
  if wayState h pw ≤ 1 ∧ busy pw = false then (some pw, h)
  else
    match (List.range 15).find? fun w => wayState h w == 0 && !busy w with
    | some w => (some w, h)
    | none => clockWay busy (hdrHand h) 30 h

/-! ### Slices -/

/-- Slice s. -/
def slice (u : Units) (s : Nat) : Slice := tabGet u.slices s

/-- Replace a slice. -/
def setSlice (u : Units) (s : Nat) (x : Slice) : Units := { u with slices := tabPut u.slices s x }

/-- A line of staging DRAM; a header never written since MOUNT is an initialised one. -/
def dramLine (x : Slice) (line : Nat) : BitVec 512 := tabGetD x.dram line (if line % 16 = 0 then initHeader else 0)

/-- Store a line of staging DRAM. -/
def putDram (x : Slice) (line : Nat) (d : BitVec 512) : Slice :=
  { x with dram := tabPutD x.dram line (if line % 16 = 0 then initHeader else 0) d }

/-- A line as a read of its location gives it: the spare copy of its patch entry, else DRAM (R247). -/
def storedDram (u : Units) (c line : Nat) : BitVec 512 :=
  match (subOf u c (lineSub line)).patches.find? fun p => p.line == line with
  | some p => p.spare
  | none => dramLine (slice u c) line

/-- A code word is written to its location, and into the spare copy of its patch entry as well (R247). -/
def storeDram (u : Units) (c line : Nat) (d : BitVec 512) : Units :=
  let x := subOf u c (lineSub line)
  let u := setSub u c (lineSub line) { x with patches := x.patches.map fun p => if p.line = line then { p with spare := d, poisoned := false } else p }
  setSlice u c (putDram (slice u c) line d)

/-- The headers of a channel have been initialised: the spare copies of those that are patched hold the same (R247). -/
def blankSpares (u : Units) (c : Nat) : Units :=
  [0, 1].foldl (fun u s =>
    let x := subOf u c s
    setSub u c s { x with patches := x.patches.map fun p => if p.line % 16 = 0 then { p with spare := initHeader, poisoned := false } else p }) u

/-- The header of a set as the slice knows it: its cached copy, else the queued write, else DRAM. -/
def effHeader (u : Units) (s set : Nat) : BitVec 512 :=
  match (slice u s).cache.find? fun e => e.set == set && e.loaded with
  | some e => e.hdr
  | none => (queuedWrite (subOf u s (lineSub (set * 16))) (set * 16)).getD (storedDram u s (set * 16))

/-- Sets of a slice whose header may differ from an initialised one, in set order. -/
def listedSets (u : Units) (s : Nat) : List Nat :=
  let x := slice u s
  let a := (tabKeys x.dram).filterMap fun k => if k % 16 = 0 then some (k / 16) else none
  let b := x.cache.map fun e => e.set
  let q := ([0, 1].flatMap fun i => let y := subOf u s i; y.wq ++ y.held ++ y.crcHeld).filterMap fun k => if k.line % 16 = 0 then some (k.line / 16) else none
  (sortedBy (fun i j => decide (i ≤ j)) (a ++ b ++ q)).eraseDups

/-- Inverse of the hash multiplier modulo 2^36. -/
def hashInverse : Nat := 0x54E4C9427

/-- Stripe number of a way of a set (R189: both steps of the hash can be inverted). -/
def stripeOf (u : Units) (set tag : Nat) : Nat :=
  let w := stripeWidth u.v
  let h := tag * 2 ^ setsLog2 u + set
  let h1 := (h ^^^ (h / 2 ^ 18)) % 2 ^ w
  ((h1 * hashInverse) % 2 ^ w) ^^^ u.stg.seed

/-- Dirty group of a set (R211). -/
def dirtyGroup (u : Units) (set : Nat) : Nat := set / 2 ^ (setsLog2 u - 15)

/-- The slice is in service: its channel is, and its domain is on. -/
def inService (u : Units) (s : Nat) : Bool := s < nDdr u.v && getF u F.DDR5_n_STATE_state s == 2

/-! ### The dirty budget (R206 to R210) -/

/-- Line-carrying tickets toward the slice held by clusters and not pinned, and POISON_SET placements that wait (R207). -/
def booked (u : Units) (s : Nat) : Nat :=
  let x := slice u s
  ((List.range (nClusters u.v)).map fun c => 16 - tabGet x.withheld c).sum - x.pins.length +
    (x.waitq.filter fun k => k.typ == .lineWr && k.src == epCore 5).length

/-- The ceiling falls with dirty + booked and never below the share (R207). -/
def settleCeiling (u : Units) (s : Nat) : Units :=
  let x := slice u s
  setSlice u s { x with ceiling := max x.share (min x.ceiling (x.dirty + booked u s)) }

/-- A new share comes into force (R206). -/
def putShare (u : Units) (s n : Nat) : Units :=
  let x := slice u s
  setSlice u s { x with share := n, ceiling := max n (x.dirty + booked u s) }

/-- The cluster from which a slice withholds most tickets. -/
def mostWithheld (u : Units) (x : Slice) : Nat :=
  (List.range (nClusters u.v)).foldl (fun b c => if tabGet x.withheld b < tabGet x.withheld c then c else b) 0

/-- Return withheld line-carrying tickets while dirty + booked + 1 ≤ share. -/
def returnWithheld (s : Nat) : Nat → Units → Units
  | 0, u => u
  | n + 1, u =>
    let x := slice u s
    let c := mostWithheld u x
    if 0 < tabGet x.withheld c ∧ x.dirty + booked u s + 1 ≤ x.share then
      returnWithheld s n (releaseTicket (setSlice u s { x with withheld := tabPut x.withheld c (tabGet x.withheld c - 1) }) (poolId 1 (epCluster c) (epSlice s)))
    else u

/-- A slot that a packet filled is free: its ticket goes back to the holder, or, for a line-carrying ticket of a cluster, is withheld until the budget allows its return. A packet re-queued by the slice itself holds none. -/
def freeSlot (u : Units) (s : Nat) (k : Pkt) : Units :=
  if k.pool = 0 then u
  else if k.pool / 65536 = 1 then
    let x := slice u s
    setSlice u s { x with withheld := tabPut x.withheld k.src (tabGet x.withheld k.src + 1) }
  else releaseTicket u k.pool

/-- Count a way that turns dirty. -/
def countDirty (u : Units) (x : Slice) (set ep : Nat) : Slice :=
  { x with dirty := x.dirty + 1, epochs := tabPut x.epochs ep (tabGet x.epochs ep + 1),
           tally := tabPut x.tally (dirtyGroup u set) (tabGet x.tally (dirtyGroup u set) + 1) }

/-- Count a way that is no longer dirty. -/
def uncountDirty (u : Units) (x : Slice) (set ep : Nat) : Slice :=
  { x with dirty := x.dirty - 1, epochs := tabPut x.epochs ep (tabGet x.epochs ep - 1),
           tally := tabPut x.tally (dirtyGroup u set) (tabGet x.tally (dirtyGroup u set) - 1) }

/-- A dirty way takes a younger epoch tag (R111). -/
def moveEpoch (x : Slice) (old new : Nat) : Slice :=
  let t := tabPut x.epochs old (tabGet x.epochs old - 1)
  { x with epochs := tabPut t new (tabGet t new + 1) }

/-! ### Poison reports (R404) -/

/-- A line has been made poisoned: counted, recorded, reported by an event and a notice. -/
def poisonMade (u : Units) (lla source : Nat) : Units :=
  let u := addMod u F.INT_POISON_made 0 0 1
  let u := putReg u .INT_PLOG_LO 0 0 (lla % 2 ^ 32)
  let u := putReg u .INT_PLOG_HI 0 0 (lla / 2 ^ 32 + source * 2 ^ 7 + 2 ^ 31)
  let u := emitEvent u 6 0 [BitVec.ofNat 32 lla, BitVec.ofNat 32 (lla / 2 ^ 32 + source * 2 ^ 7)]
  notice u 6 (lla + source * 2 ^ 40)

/-! ### Header cache (R196 to R198) -/

/-- The cached header of a set. -/
def hdrEntry (u : Units) (s set : Nat) : Option HdrEntry := (slice u s).cache.find? fun e => e.set == set

/-- Replace a cached header and mark it most recently used. -/
def putEntry (u : Units) (s : Nat) (e : HdrEntry) : Units :=
  let x := slice u s
  setSlice u s { x with cache := e :: x.cache.filter fun y => y.set != e.set }

/-- A way of a set, by its header, is pinned (R208). -/
def pinned (u : Units) (s set : Nat) (h : BitVec 512) (w : Nat) : Bool :=
  (slice u s).pins.any fun q => lineSet u q.1 == set && lineTag u q.1 == wayTag h w && q.1 % 8 == wayJ h w && wayState h w != 0

/-- A write of a way is in the write queue. -/
def wayQueued (u : Units) (s set w : Nat) : Bool := let x := subOf u s (lineSub (set * 16)); hasLine (x.wq ++ x.held) (set * 16 + 1 + w)

/-- A way is busy (R196): it is marked so, a write of it is in the write queue, or it is pinned. -/
def wayBusy (u : Units) (s : Nat) (e : HdrEntry) (w : Nat) : Bool :=
  (e.busy.any fun b => b.1 == w) || wayQueued u s e.set w || pinned u s e.set e.hdr w

/-- A way has a mark of one kind. -/
def marked (e : HdrEntry) (w : Nat) (y : BusyWhy) : Bool := e.busy.contains (w, y)

/-- Add a busy mark. -/
def mark (e : HdrEntry) (w : Nat) (y : BusyWhy) : HdrEntry := { e with busy := e.busy ++ [(w, y)] }

/-- Take one busy mark away. -/
def unmark (e : HdrEntry) (w : Nat) (y : BusyWhy) : HdrEntry := { e with busy := e.busy.erase (w, y) }

/-- Change a header on behalf of a packet and write it through to DRAM (R197). -/
def writeHeader (u : Units) (s : Nat) (e : HdrEntry) (cls prio port : Nat) : Units :=
  wqPut (putEntry u s { e with soft := false }) s { line := e.set * 16, data := e.hdr, cls := cls, prio := prio, port := port }

/-- The entry R198 replaces in a cache set: least recently used, no busy way, no header write pending; one whose ref or hand changed is written back first. -/
def victimEntry (u : Units) (s set : Nat) : Option HdrEntry :=
  let x := slice u s
  (x.cache.filter fun e => e.set % 1024 == set % 1024).reverse.find? fun e =>
    e.loaded && ((List.range 15).all fun w => !wayBusy u s e w) && (let x := subOf u s (lineSub (e.set * 16)); !hasLine (x.wq ++ x.held) (e.set * 16)) &&
    (!e.soft || wqRoom u s [e.set * 16])

/-- Room for one more header of a cache set. -/
def makeRoom (u : Units) (s set : Nat) : Option Units :=
  let x := slice u s
  if (x.cache.filter fun e => e.set % 1024 == set % 1024).length < 4 then some u
  else
    match victimEntry u s set with
    | none => none
    | some v =>
      let u := setSlice u s { x with cache := x.cache.filter fun e => e.set != v.set }
      some (if v.soft then wqPut u s { line := v.set * 16, data := v.hdr, cls := 3, prio := 1 } else u)

/-- Queue the read of a header that is not cached, on behalf of a packet, where the read queue has room and the cache an entry to give (R198). -/
def fetchHeader (u : Units) (s set : Nat) (k : Pkt) : Option Units :=
  if rqRoom u s (set * 16) 2 = false then none
  else
    (makeRoom u s set).map fun u =>
      let x := slice u s
      let u := setSlice u s { x with cache := { set := set } :: x.cache, missed := k.id :: x.missed.filter fun i => i != k.id }
      rqPut (count u (cDdr s 9)) s { line := set * 16, cls := k.cls, prio := k.prio, port := k.port, use := .header }

/-- The header a packet needs: cached and loaded, which makes it the most recently used; or its read is queued, with the read of the preferred way behind it for a line request (R192), and the packet waits. -/
def needHeader (u : Units) (s set : Nat) (k : Pkt) : Option HdrEntry × Units :=
  match hdrEntry u s set with
  | some e =>
    if e.loaded then
      let x := slice u s
      let miss := x.missed.contains k.id
      let u := putEntry (setSlice u s { x with missed := x.missed.filter fun i => i != k.id }) s e
      (some e, if miss then u else count u (cDdr s 8))
    else (none, u)
  | none =>
    match fetchHeader u s set k with
    | none => (none, u)
    | some u =>
      let w := preferredWay (lineTag u k.lla) (k.lla % 8)
      (none, if k.typ = .lineReq ∧ (k.kind = .read ∨ k.kind = .merge) then
        rqPut u s { line := set * 16 + 1 + w, cls := k.cls, prio := k.prio, port := k.port, use := .ahead w k.id } else u)

/-! ### Answers -/

/-- DONE from a slice to the requester of a packet. -/
def sliceDone (u : Units) (s : Nat) (k : Pkt) (status : Nat) (bound : Bool := false) (m : Bool := false) (x : Bool := false) : Units :=
  sendPkt u { m := m, x := x, typ := .done, src := epSlice s, dst := k.src, prio := k.prio, epoch := k.epoch, aux := status, port := k.port, ord := k.ord, lla := k.lla, kind := k.kind, bound := bound }

/-- LINE_RET from a slice to the requester. -/
def sliceRet (u : Units) (s : Nat) (k : Pkt) (data : BitVec 512) (m x : Bool) : Units :=
  sendPkt u { typ := .lineRet, src := epSlice s, dst := k.src, prio := k.prio, epoch := k.epoch, port := k.port, ord := k.ord, lla := k.lla, kind := k.kind, data := data, m := m, x := x }

/-- The merge lock of a line. -/
def lockOf (x : Slice) (lla : Nat) : Option (Nat × Nat × Nat) := x.locks.find? fun l => l.1 == lla

/-- Release the merge lock of a line and the busy mark of its way, and free the request slot the read half kept (R204). -/
def unlock (u : Units) (s lla : Nat) : Units :=
  let x := slice u s
  match lockOf x lla with
  | none => u
  | some l =>
    let u := setSlice u s { x with locks := x.locks.erase l }
    let cl := epCluster (l.2.1 / 8)
    let u := releaseTicket u (poolId 0 cl (epSlice s))
    match hdrEntry u s (lineSet u lla) with
    | none => u
    | some e => putEntry u s { e with busy := e.busy.filter fun b => !(b.2 == .merge && wayTag e.hdr b.1 == lineTag u lla && wayJ e.hdr b.1 == lla % 8) }

/-- The merge lock of a packet's line is its own: of its read half, or of its merged line. -/
def ownsLock (x : Slice) (k : Pkt) : Bool :=
  ((k.kind == .merge && k.typ == .lineReq) || (k.merge && k.typ == .lineWr)) && (lockOf x k.lla).any fun l => l.2 == (k.port, k.ord)

/-- A request ends with a status and frees its slot; a merge gives its lock back, and with it the slot of its read half. -/
def endAt (u : Units) (s : Nat) (k : Pkt) (status : Nat) : Units :=
  let u := sliceDone u s k status
  if ownsLock (slice u s) k then (if k.typ = .lineReq then unlock u s k.lla else freeSlot (unlock u s k.lla) s k)
  else freeSlot u s k

/-! ### Fills (R200, R201) -/

/-- The fill-table entry of a line that still serves arrivals. -/
def fillOf (x : Slice) (lla : Nat) : Option Fill := x.fills.find? fun f => f.lla == lla && !f.dead

/-- The early fill that this packet began and whose header is not known (R325). -/
def earlyOf (x : Slice) (k : Pkt) : Option Fill :=
  x.fills.find? fun f => f.pending && !f.dead && f.lla == k.lla && (f.askers.any fun a => a.src == k.src && a.port == k.port && a.ord == k.ord)

/-- Replace a fill-table entry. -/
def putFill (u : Units) (s : Nat) (old new : Fill) : Units :=
  let x := slice u s
  setSlice u s { x with fills := x.fills.map fun f => if f = old then new else f }

/-- Drop a fill-table entry whose data has come back, and its ticket. -/
def closeFill (u : Units) (s : Nat) (f : Fill) : Units :=
  let x := slice u s
  returnTickets (setSlice u s { x with fills := x.fills.erase f }) (poolId 4 (epSlice s) (epSlice s)) 1

/-- An early fill turns out not to be needed: its data is discarded, now or when it comes (R325). -/
def killEarly (u : Units) (s : Nat) (f : Fill) : Units :=
  if f.got.isSome then closeFill u s f else putFill u s f { f with askers := [], dead := true, pending := false }

/-- A packet as a requester of a fill. -/
def askerOf (k : Pkt) : Asker := { src := k.src, port := k.port, ord := k.ord, kind := k.kind, prio := k.prio, epoch := k.epoch, cls := k.cls }

/-- An asker as the packet that it was. -/
def askerPkt (lla : Nat) (a : Asker) : Pkt := { typ := .lineReq, src := a.src, port := a.port, ord := a.ord, kind := a.kind, prio := a.prio, epoch := a.epoch, cls := a.cls, lla := lla }

/-- A packet waiting for a fill comes before this one: of higher priority, or of the same and earlier to wait (R176). -/
def fillRival (x : Slice) (k : Pkt) : Bool :=
  x.waitq.any fun y => x.fillWait.contains y.id && y.id != k.id &&
    (decide (k.prio < y.prio) || (k.prio == y.prio && (x.fillWait.takeWhile fun i => i != k.id).contains y.id))

/-- A packet waits for a fill. -/
def waitFill (u : Units) (s : Nat) (k : Pkt) : Units :=
  let x := slice u s
  if x.fillWait.contains k.id then u else setSlice u s { x with fillWait := x.fillWait ++ [k.id] }

/-- The FILL_REQ of a slice would be refused: a fence stands on its way to the hinge unit (R181). -/
def fillFenced (u : Units) (s : Nat) : Bool := routeRefused u (epSlice s) (epCore 1)

/-- Start a fill: a fill-table entry, the tickets of the fill and its request, and the FILL_REQ of R37; none where one of them is not to be had. -/
def startFill (u : Units) (s : Nat) (k : Pkt) (early : Bool := false) : Option Units :=
  let x := slice u s
  let q := poolId 0 (epSlice s) (epCore 1)
  let r := poolId 4 (epSlice s) (epSlice s)
  if 64 ≤ x.fills.length ∨ canTake u q k.prio = false ∨ canTake u r k.prio = false ∨ fillRival x k ∨ fillFenced u s then none
  else
    let u := takeTicket (takeTicket u q) r
    let u := setSlice u s { x with fills := x.fills ++ [{ lla := k.lla, askers := [askerOf k], early := early, pending := early }], fillWait := x.fillWait.filter fun i => i != k.id }
    let u := count u (cDdr s 11)
    some (sendPkt u { typ := .fillReq, src := epSlice s, dst := epCore 1, prio := k.prio, epoch := k.epoch, pool := q, port := k.port, ord := k.ord, lla := k.lla, kind := k.kind, cls := k.cls, handle := k.src, bound := early })

/-! ### Seals (R216) -/

/-- Take lost dirty ways out of the epoch counts, oldest epoch first. -/
def dropOldest (e : Nat) : Nat → Nat → Tab Nat → Tab Nat
  | 0, _, t => t
  | fuel + 1, n, t =>
    let ep := (e + (16 - fuel)) % 16
    let k := min n (tabGet t ep)
    dropOldest e fuel (n - k) (tabPut t ep (tabGet t ep - k))

/-- Dirty ways of a header. -/
def dirtyWays (h : BitVec 512) : List Nat := (List.range 15).filter fun w => wayDirty h w

/-- Seal a set: it is out of use, its dirty ways that cannot be read leave the counts, its pins end. -/
def sealSet (u : Units) (s set : Nat) : Units :=
  let x := slice u s
  if x.sealed.contains set then u
  else
    let g := dirtyGroup u set
    let others := ((listedSets u s).filter fun n => dirtyGroup u n == g && n != set && !x.sealed.contains n).map fun n => (dirtyWays (effHeader u s n)).length
    let lost := tabGet x.tally g - others.sum
    let x := { x with sealed := x.sealed ++ [set], cache := x.cache.filter (fun e => e.set != set),
                      dirty := x.dirty - lost, tally := tabPut x.tally g (tabGet x.tally g - lost),
                      epochs := dropOldest x.epochSeen 16 lost x.epochs,
                      full := x.full.filter (fun f => f.1 != set), fullWait := x.fullWait.filter (fun f => f.1 != set),
                      forced := x.forced.filter (fun f => f.1 != set), pins := x.pins.filter (fun q => lineSet u q.1 != set),
                      jobs := x.jobs.filter (fun j => j.set != set || j.phase == .sent) }
    let u := setSlice u s x
    let u := flag u F.STG_ERR_sealed
    let u := if getF u F.STG_SEALED_valid = 1 then u else putReg u .STG_SEALED 0 0 (set + s * 2 ^ 27 + 2 ^ 31)
    blockFault u 1 s set 0

/-! ### Serving (R45, R199 to R208) -/

/-- All eight lines of a stripe are valid-dirty in a header (R43). -/
def stripeFull (h : BitVec 512) (tag : Nat) : Bool :=
  (List.range 8).all fun j => (findWay h tag j).any fun w => wayState h w == 2

/-- Put a stripe that has become full on the list, or let it wait for a place. -/
def listFull (u : Units) (s set tag : Nat) : Units :=
  let x := slice u s
  if (x.full ++ x.fullWait).any fun f => f.1 == set && f.2.1 == tag then u
  else if x.full.length < 4096 then setSlice u s { x with full := x.full ++ [(set, tag, usec u)] }
  else setSlice u s { x with fullWait := x.fullWait ++ [(set, tag, usec u)] }

/-- A write lands in a way: data and header enter the write queue, the way turns valid-dirty or poisoned, and the counts follow. A way that turns valid-dirty takes the epoch the slice tags with, a poisoned one too when it is written over; a valid-dirty one keeps its tag. A job that is destaging the way notes the epoch of the first write that has reached it (R44, R111). -/
def landWrite (u : Units) (s : Nat) (e : HdrEntry) (h : BitVec 512) (w : Nat) (k : Pkt) : Units :=
  let x := slice u s
  let set := e.set
  let tag := lineTag u k.lla
  let was := wayDirty h w && wayTag h w == tag && wayJ h w == k.lla % 8
  let turns := wayState h w == 3 && !k.poison
  let ep := if was && !turns then wayEp h w else x.epochSeen
  let h' := setRef (setWay h w (if k.poison then 3 else 2) (k.lla % 8) tag ep) w 1
  let x := if was = false then countDirty u x set ep else if turns then moveEpoch x (wayEp h w) ep else x
  let x := { x with
    jobs := x.jobs.map (fun j => if j.set = set ∧ j.tag = tag ∧ (j.ways.any fun y => y.1 == w) then
      (if j.dirtied.any fun d => d.1 == w then j else { j with dirtied := (w, x.epochSeen) :: j.dirtied }) else j),
    fills := x.fills.map fun f => if f.lla = k.lla then { f with dead := true } else f }
  let u := setSlice u s x
  let u := writeHeader u s { e with hdr := h' } k.cls k.prio k.port
  let u := wqPut u s { line := set * 16 + 1 + w, data := k.data, cls := k.cls, prio := k.prio, port := k.port, dirty := true }
  if stripeFull h' tag then listFull u s set tag else u

/-- The pin of a bound write ends. -/
def unpin (u : Units) (s : Nat) (k : Pkt) : Units :=
  let x := slice u s
  if k.bound then setSlice u s { x with pins := x.pins.filter fun q => q.2 != (k.port, k.ord) } else u

/-- After a write has landed: its lock or pin ends and its slot is free. -/
def landed (u : Units) (s : Nat) (k : Pkt) : Units :=
  let u := if k.merge then unlock u s k.lla else u
  sliceDone (freeSlot (unpin u s k) s k) s k 0

/-- The budget lets this placement turn a new way dirty: a write of a cluster carries its booking with its ticket; a POISON_SET placement waits for dirty + booked + 1 ≤ share (R405). -/
def budgetOk (u : Units) (s : Nat) (k : Pkt) (newDirty : Bool) : Bool :=
  !(newDirty && k.src == epCore 5) || (slice u s).dirty + booked u s ≤ (slice u s).share

/-- Place a write whose line no way of its header, once at hand, holds: a way is chosen, or its set becomes urgent and it waits (R202, R203). -/
def placeWrite (u : Units) (s : Nat) (e : HdrEntry) (k : Pkt) : Bool × Units :=
  if e.loaded = false then (false, u)
  else
    match chooseWay e.hdr (fun w => wayBusy u s e w) (lineTag u k.lla) (k.lla % 8) with
    | (none, _) =>
      let x := slice u s
      (false, if x.urgent.contains e.set ∨ 32 ≤ x.urgent.length then u else setSlice u s { x with urgent := x.urgent ++ [e.set] })
    | (some w, h) =>
      if wqRoom u s [e.set * 16, e.set * 16 + 1 + w] = false ∨ budgetOk u s k true = false then (false, u)
      else (true, landed (landWrite u s e h w k) s k)

/-- Serve a LINE_WR; false where it waits (R203, R205). -/
def serveWrite (u : Units) (s : Nat) (e : HdrEntry) (k : Pkt) : Bool × Units :=
  match findWay e.hdr (lineTag u k.lla) (k.lla % 8) with
  | some w =>
    if marked e w .read ∨ wqRoom u s [e.set * 16, e.set * 16 + 1 + w] = false ∨ budgetOk u s k (!wayDirty e.hdr w) = false then (false, u)
    else (true, landed (landWrite u s e e.hdr w k) s k)
  | none => placeWrite u s e k

/-- Answer a rewrite check (R208): a dirty way is pinned and one line-carrying ticket is bound, taken from those the slice withholds from that cluster; the check waits for one where it withholds none. -/
def serveCheck (u : Units) (s : Nat) (e : HdrEntry) (k : Pkt) : Bool × Units :=
  match findWay e.hdr (lineTag u k.lla) (k.lla % 8) with
  | none => (true, freeSlot (sliceDone u s k 0) s k)
  | some w =>
    if wayDirty e.hdr w = false then (true, freeSlot (sliceDone u s k 0) s k)
    else
      let x := slice u s
      if tabGet x.withheld k.src = 0 then (false, u)
      else
        let u := setSlice u s { x with withheld := tabPut x.withheld k.src (tabGet x.withheld k.src - 1), pins := x.pins ++ [(k.lla, k.port, k.ord)] }
        (true, freeSlot (sliceDone u s k 0 true) s k)

/-- Queue the read of a way for a packet, or let the read already queued beside the header serve it (R192). -/
def readWay (u : Units) (s set w : Nat) (k : Pkt) : Units :=
  let c := lineSub (set * 16)
  let x := subOf u s c
  let isAhead (a : DAcc) : Bool := a.use == .ahead w k.id
  if (x.rq ++ x.inflight).any isAhead then
    let f := fun (a : DAcc) => if isAhead a then { a with use := .way w k } else a
    setSub u s c { x with rq := x.rq.map f, inflight := x.inflight.map f }
  else rqPut u s { line := set * 16 + 1 + w, cls := k.cls, prio := k.prio, port := k.port, use := .way w k }

/-- Serve a LINE_REQ that finds its line held. -/
def serveHit (u : Units) (s : Nat) (e : HdrEntry) (w : Nat) (k : Pkt) : Bool × Units :=
  let u := match earlyOf (slice u s) k with
    | some f => killEarly u s f
    | none => u
  let e' := { e with hdr := setRef e.hdr w 1, soft := true }
  let poisoned := wayState e.hdr w = 3
  if k.kind = .prefetch ∨ k.kind = .ringPrefetch then (true, count (endAt (putEntry u s e') s k 0) (cDdr s 10))
  else if poisoned then (true, count (endAt (putEntry u s e') s k 1) (cDdr s 10))
  else if rqRoom u s (e.set * 16) 1 = false then (false, u)
  else
    let u := count u (cDdr s 10)
    let e' := mark e' w .read
    let e' := if k.kind = .merge then mark e' w .merge else e'
    let u := putEntry u s e'
    let x := slice u s
    let u := if k.kind = .merge then setSlice u s { x with locks := x.locks ++ [(k.lla, k.port, k.ord)] } else freeSlot u s k
    (true, readWay u s e.set w k)

/-- A LINE_REQ leaves its wait for its fill: a merge takes its lock and keeps its slot, any other frees it (R204). -/
def leaveForFill (u : Units) (s : Nat) (k : Pkt) : Units :=
  let x := slice u s
  if k.kind = .merge then setSlice u s { x with locks := x.locks ++ [(k.lla, k.port, k.ord)] } else freeSlot u s k

/-- Serve a LINE_REQ whose line is not held: its early fill is the one, or a fill is started; a fence before the hinge unit ends it TARGET_FENCED (R181). -/
def serveMiss (u : Units) (s : Nat) (k : Pkt) : Bool × Units :=
  match earlyOf (slice u s) k with
  | some f => (true, leaveForFill (putFill u s f { f with pending := false }) s k)
  | none =>
  if fillFenced u s then (true, endAt u s k 4)
  else
  match startFill u s k with
  | none => (false, waitFill u s k)
  | some u => (true, leaveForFill u s k)

/-- The requests of a line range are held (R357, R406), or those of a position in evacuation or restoration (Table 6-8). -/
def heldBack (u : Units) (s : Nat) (k : Pkt) : Bool :=
  (u.stg.holds.any fun h => h.1 ≤ k.lla && k.lla < h.1 + h.2) && !(k.src == epCore 5 && k.typ == .lineWr) ||
  (u.stg.evacHold && hashPos u.v (lineHash u k.lla) == u.stg.evacCh &&
    s == (if u.stg.evac = 1 then u.stg.evacCh ^^^ 1 else u.stg.evacCh))

/-- Serve one waiting packet; false where it stays in its slot. In a sealed set a write ends CAPACITY_LOST and leaves the line as it was: the model's choice (log entry 96). -/
def serve (u : Units) (s : Nat) (k : Pkt) : Bool × Units :=
  let x := slice u s
  let set := lineSet u k.lla
  let own := k.typ = .lineWr ∧ k.merge = true
  if heldBack u s k then (false, u)
  else if x.sealed.contains set then (true, endAt (match earlyOf x k with
      | some f => killEarly u s f
      | none => u) s k (if k.kind = .check ∧ k.typ = .lineReq then 0 else 7))
  else if (lockOf x k.lla).isSome ∧ ¬ own ∧ k.kind ≠ .check then (false, u)
  else
    match (if k.typ = .lineReq ∧ k.kind ≠ .check ∧ earlyOf x k = none then fillOf x k.lla else none) with
    | some f =>
      if k.kind = .merge ∨ 4 ≤ f.askers.length ∨ f.pending ∨ f.got.isSome then (false, u)
      else
        let u := setSlice u s { x with fills := x.fills.map fun g => if g.lla = k.lla ∧ g.dead = false then { g with askers := g.askers ++ [askerOf k] } else g }
        (true, freeSlot u s k)
    | none =>
      match needHeader u s set k with
      | (none, u) =>
        (false, if k.typ = .lineReq ∧ (k.kind = .read ∨ k.kind = .merge) ∧ k.cls ≤ 1 ∧ earlyOf (slice u s) k = none then (startFill u s k true).getD u else u)
      | (some e, u) =>
        if k.typ = .lineWr then serveWrite u s e k
        else if k.kind = .check then serveCheck u s e k
        else
          match findWay e.hdr (lineTag u k.lla) (k.lla % 8) with
          | some w => serveHit u s e w k
          | none => serveMiss u s k

/-! ### Destage jobs (R212) -/

/-- Queue the DRAM reads a job still lacks, and its poisoned ways need none. -/
def queueJobReads (u : Units) (s : Nat) (j : Destage) (prio : Nat) : Units × Destage :=
  j.toRead.foldl (fun (p : Units × Destage) w =>
    let (u, j) := p
    let line := j.set * 16 + 1 + w
    let st := match hdrEntry u s j.set with
      | some e => wayState e.hdr w
      | none => 2
    let jj := ((j.ways.filter fun y => y.1 == w).map fun y => y.2).headD 0
    if st = 3 then (u, { j with toRead := j.toRead.erase w, ready := j.ready ++ [(jj, 0, true)] })
    else if rqRoom u s line 1 then
      (rqPut u s { line := line, cls := 2, prio := prio, use := .destage j.stripe w }, { j with toRead := j.toRead.erase w, reading := j.reading ++ [w] })
    else (u, j)) (u, j)

/-- Send the DESTAGE packets of a placed job whose lines are ready and whose tickets are free; a stripe waits while an earlier one of the slice is in flight to the same media group. -/
def sendJob (u : Units) (s : Nat) (j : Destage) (prio : Nat) : Units × Destage :=
  let ahead := ((slice u s).jobs.takeWhile fun y => y.stripe != j.stripe).any fun y => y.phase != .asking && y.group / 8 == j.group / 8
  let g := epGroup (j.group / 8)
  if j.phase ≠ .placed ∨ ahead ∨ routeRefused u (epSlice s) g then (u, j)
  else
    let (u, j) := j.ready.foldl (fun (p : Units × Destage) r =>
      let (u, j) := p
      let id := poolId 1 (epSlice s) g
      if j.sent.contains r.1 ∨ canTake u id 6 = false then (u, j)
      else
        let u := sendPkt (takeTicket u id) { typ := .destage, src := epSlice s, dst := g, prio := prio, pool := id, lla := j.stripe * 8 + r.1, data := r.2.1, poison := r.2.2, group := j.group, pos := r.1, dla := j.dla, gen := j.gen, prn := j.prn, tag := j.ways.length, zline := j.fresh }
        (u, { j with sent := j.sent ++ [r.1] })) (u, j)
    (u, if j.sent.length = j.ways.length then { j with phase := .sent } else j)

/-- The hinge unit forgets one pin of a stripe (R351). -/
def unpinStripe (u : Units) (region t : Nat) : Units := { u with hng := { u.hng with pins := u.hng.pins.erase (region * 16384 + t) } }

/-- A destage is given up: its ways stay dirty and busy-free, and a placement it has had is no longer pinned (R213). -/
def giveUpJob (u : Units) (s : Nat) (j : Destage) : Units :=
  let x := slice u s
  let u := setSlice u s { x with jobs := x.jobs.filter fun y => y.stripe != j.stripe }
  let u := if j.phase = .asking then u else unpinStripe u (j.stripe / 16384) (j.stripe % 16384)
  match hdrEntry u s j.set with
  | none => u
  | some e => putEntry u s { e with busy := e.busy.filter fun b => !(b.2 == .destage && j.ways.any fun w => w.1 == b.1) }

/-- Every job of a slice goes as far as it can; one whose stripe is placed behind a fence, and of which nothing has been sent, is given up (R181). -/
def advanceJobs (u : Units) (s prio : Nat) : Units :=
  (slice u s).jobs.foldl (fun u j0 =>
    match (slice u s).jobs.find? fun y => y.stripe == j0.stripe with
    | none => u
    | some j =>
      if j.phase = .placed ∧ j.sent = [] ∧ routeRefused u (epSlice s) (epGroup (j.group / 8)) then giveUpJob u s j
      else
      let (u, j) := queueJobReads u s j prio
      let (u, j) := sendJob u s j prio
      let x := slice u s
      setSlice u s { x with jobs := x.jobs.map fun y => if y.stripe = j.stripe then j else y }) u

/-! ### Fill data (R201) -/

/-- Answer one requester of a fill: a line, a zero line, or a status. The first one has its answer from the media group or the hinge unit already, unless the fill was early. -/
def answerAsker (u : Units) (s lla : Nat) (a : Asker) (direct : Bool) (data : BitVec 512) (zero m x : Bool) (status : Nat) : Units :=
  let k := askerPkt lla a
  if a.kind = .prefetch ∨ a.kind = .ringPrefetch then sliceDone u s k (if status = 1 then 0 else status) false m
  else if status ≠ 0 then
    let u := sliceDone u s k status false m x
    if a.kind = .merge then unlock u s lla else u
  else if direct then u
  else if zero then sendPkt u { typ := .zero, src := epSlice s, dst := k.src, prio := k.prio, epoch := k.epoch, port := k.port, ord := k.ord, lla := lla, kind := k.kind, zline := true, m := m, x := x }
  else sliceRet u s k data m x

/-- Stage a fill valid-clean in a way, where one is eligible (R201); false where it waits for its header or for room in the write queue. -/
def stageFill (u : Units) (s : Nat) (k : Pkt) : Bool × Units :=
  let set := lineSet u k.lla
  match hdrEntry u s set with
  | none => (false, (fetchHeader u s set k).getD u)
  | some e =>
    if e.loaded = false then (false, u)
    else
      match chooseWay e.hdr (fun w => wayBusy u s e w) (lineTag u k.lla) (k.lla % 8) with
      | (none, h) => (true, putEntry u s { e with hdr := h, soft := true })
      | (some w, h) =>
        if wqRoom u s [set * 16, set * 16 + 1 + w] = false then (false, u)
        else
          let h := setRef (setWay h w 1 (k.lla % 8) (lineTag u k.lla) 0) w 1
          let lock := (lockOf (slice u s) k.lla).isSome
          let e := { e with hdr := h }
          let u := writeHeader u s (if lock then mark e w .merge else e) k.cls k.prio k.port
          (true, wqPut u s { line := set * 16 + 1 + w, data := k.data, cls := k.cls, prio := k.prio, port := k.port })

/-- What came back for a fill is to be staged: a line, not poisoned, overtaken by no write, its set not sealed, and not at a slice that is being evacuated (Table 6-8). -/
def toStage (u : Units) (s : Nat) (f : Fill) (k : Pkt) (status : Nat) : Bool :=
  status == 0 && !k.zline && !f.dead && !(slice u s).sealed.contains (lineSet u k.lla) && !(u.stg.evac == 1 && u.stg.evacCh == s)

/-- An asker of a PREFETCH, which waits for the staging of its line (R39). -/
def isPrefetch (a : Asker) : Bool := a.kind == .prefetch || a.kind == .ringPrefetch

/-- A fill ends at its slice: its readers are answered from the fill data alone, its line is staged, and then those that prefetch are answered and its entry and ticket are free. A fill that waits for its header or for the write queue keeps its entry. At a set sealed meanwhile every asker that has no answer yet ends CAPACITY_LOST (R216). -/
def settleFill (u : Units) (s : Nat) (f : Fill) (k : Pkt) (status : Nat) (direct : Bool) : Units :=
  let status' := if (slice u s).sealed.contains (lineSet u k.lla) then 7 else status
  let answer := fun (u : Units) (a : Asker) (d : Bool) => answerAsker u s k.lla a d k.data k.zline k.m k.x (if d then status else status')
  let first := direct && !f.early && f.got.isNone
  let u := match f.askers with
    | [] => u
    | a :: t => (t.filter fun a => !isPrefetch a).foldl (fun u a => answer u a false) (if isPrefetch a then u else answer u a first)
  let g := { f with askers := f.askers.filter isPrefetch, got := some (k, status) }
  let u := putFill u s f g
  let (done, u) := if toStage u s g k status then stageFill u s k else (true, u)
  if done then g.askers.foldl (fun u a => answer u a false) (closeFill u s g) else u

/-- Fills whose data has come and whose header, of an early one, has shown a miss are settled. -/
def settleFills (u : Units) (s : Nat) : Units :=
  (slice u s).fills.foldl (fun u f =>
    match f.got with
    | some (k, st) => if f.pending then u else settleFill u s f k st false
    | none => u) u

/-! ### The slice goes as far as it can -/

/-- Try every waiting packet in arrival order; a packet that stays blocks later ones of its line (R45). -/
def serveAll (u : Units) (s : Nat) : Units :=
  ((slice u s).waitq.foldl (fun (p : List Nat × Units) k =>
    let (blocked, u) := p
    let chk := k.typ = .lineReq ∧ k.kind = .check
    if blocked.contains k.lla ∧ ¬ chk ∧ ¬ (k.typ = .lineWr ∧ k.merge) then p
    else
      match serve u s k with
      | (true, u) =>
        let x := slice u s
        (blocked, setSlice u s { x with waitq := x.waitq.filter fun y => y.id != k.id })
      | (false, u) => (if chk then blocked else k.lla :: blocked, u)) ([], u)).2

/-- Drop urgent sets no write waits for (R203) and packets that no longer wait for a fill, and list full stripes that waited for a place. -/
def tidySlice (u : Units) (s : Nat) : Units :=
  let x := slice u s
  let sets := (x.waitq.filter fun k => k.typ == .lineWr).map fun k => lineSet u k.lla
  let n := 4096 - x.full.length
  setSlice u s { x with urgent := x.urgent.filter (fun i => sets.contains i), fillWait := x.fillWait.filter (fun i => x.waitq.any fun k => k.id == i), full := x.full ++ x.fullWait.take n, fullWait := x.fullWait.drop n }

/-- Transit priority of destage traffic (Table 5-8). -/
def destagePrio (c : Ctl) : Nat := if c.mode = .drain then 6 else 2

/-- A slice after an event: waiting packets, destage jobs, lists, withheld tickets and the ceiling. -/
def pumpSlice (c : Ctl) (u : Units) (s : Nat) : Units :=
  let u := settleFills (serveAll (serveAll (settleFills u s) s) s) s
  let u := advanceJobs u s (destagePrio c)
  let u := tidySlice u s
  settleCeiling (returnWithheld s 136 u) s

/-- A packet lands in its slot at a slice. -/
def arriveSlice (c : Ctl) (u : Units) (s : Nat) (k : Pkt) : Units :=
  let x := slice u s
  pumpSlice c (setSlice u s { x with waitq := x.waitq ++ [k] }) s

/-! ### What a staging read finds (R215, Table 6-7) -/

/-- A valid-dirty way cannot be read: it becomes poisoned, keeping its ep. -/
def poisonWay (u : Units) (s : Nat) (e : HdrEntry) (w source : Nat) : Units :=
  let lla := stripeOf u e.set (wayTag e.hdr w) * 8 + wayJ e.hdr w
  let e := { e with hdr := setWay e.hdr w 3 (wayJ e.hdr w) (wayTag e.hdr w) (wayEp e.hdr w) }
  poisonMade (writeHeader u s e 3 1 64) lla source

/-- A set header changes outside the header cache's own traffic: in the cache where it is loaded there; else the write is queued, and a read of the header already under way is answered with it. -/
def changeHeader (u : Units) (s set : Nat) (h : BitVec 512) (cls : Nat) : Units :=
  let line := set * 16
  let queue := fun (u : Units) => wqPut u s { line := line, data := h, cls := cls, prio := 0, port := 64 }
  match hdrEntry u s set with
  | some e =>
    if e.loaded then writeHeader u s { e with hdr := h } cls 0 64
    else
      let x := subOf u s (lineSub line)
      queue (setSub u s (lineSub line) { x with inflight := x.inflight.map fun a => if a.line = line then { a with data := h, patched := true, bad := false } else a })
  | none => queue u

/-- A way whose line is lost becomes poisoned, keeping its tag and ep; one that was not counted as dirty is counted now. -/
def poisonAt (u : Units) (s set w source : Nat) : Units :=
  let h := effHeader u s set
  let tag := wayTag h w
  let x := slice u s
  let u := if wayDirty h w then u else setSlice u s (countDirty u x set (wayEp h w))
  poisonMade (changeHeader u s set (setWay h w 3 (wayJ h w) tag (wayEp h w)) 3) (stripeOf u set tag * 8 + wayJ h w) source

/-- Store the read data of a destage job. -/
def jobReady (u : Units) (s stripe w : Nat) (d : BitVec 512) (poison : Bool) : Units :=
  let x := slice u s
  setSlice u s { x with jobs := x.jobs.map fun j =>
    if j.stripe = stripe ∧ j.reading.contains w then
      { j with reading := j.reading.erase w, ready := j.ready ++ [(((j.ways.filter fun y => y.1 == w).map fun y => y.2).headD 0, d, poison)] }
    else j }

/-- A header has been read: it is at hand, or its set is sealed. -/
def headerRead (u : Units) (s set : Nat) (d : Option (BitVec 512)) : Units :=
  match d.filter fun h => hdrFmt h == 0x5A with
  | none => sealSet u s set
  | some h =>
    match hdrEntry u s set with
    | none => u
    | some e => if e.loaded then u else putEntry u s { e with hdr := h, loaded := true }

/-- A way read for a READ or a merge cannot be corrected (Table 6-7): a valid-clean way is emptied and the request is served again, as a miss; a valid-dirty one becomes poisoned, and the request ends DATA_POISONED. -/
def wayLost (u : Units) (s : Nat) (e : HdrEntry) (w : Nat) (k : Pkt) : Units :=
  if wayState e.hdr w ≤ 1 then
    let e := { e with busy := e.busy.filter fun b => b != (w, .merge) }
    let u := if wayState e.hdr w = 1 then writeHeader u s { e with hdr := emptyWay e.hdr w } k.cls k.prio k.port else putEntry u s e
    let x := slice u s
    let x := if k.kind = .merge then { x with locks := x.locks.filter fun l => l.1 != k.lla } else x
    setSlice u s { x with waitq := { k with pool := if k.kind = .merge then k.pool else 0 } :: x.waitq }
  else endAt (if wayState e.hdr w = 2 then poisonWay u s e w 0 else putEntry u s e) s { k with pool := 0 } 1

/-- A way read for a READ or a merge has come: in a set sealed meanwhile its request ends CAPACITY_LOST (R216). -/
def wayRead (u : Units) (s set w : Nat) (k : Pkt) (d : Option (BitVec 512)) : Units :=
  match hdrEntry u s set, d with
  | none, some line => if (slice u s).sealed.contains set then endAt u s { k with pool := 0 } 7 else sliceRet u s k line false false
  | none, none => endAt u s { k with pool := 0 } (if (slice u s).sealed.contains set then 7 else 1)
  | some e, some line => sliceRet (putEntry u s (unmark e w .read)) s k line false false
  | some e, none => wayLost u s (unmark e w .read) w k

/-- A way read for a destage has come. -/
def jobRead (u : Units) (s set stripe w : Nat) (d : Option (BitVec 512)) : Units :=
  match d, hdrEntry u s set with
  | some line, _ => jobReady u s stripe w line false
  | none, none => jobReady u s stripe w 0 true
  | none, some e => jobReady (if wayState e.hdr w = 2 then poisonWay u s e w 1 else u) s stripe w 0 true

/-- A line read from staging DRAM reaches the slice: `none` where its code cannot be corrected. -/
def dramAnswer (c : Ctl) (u : Units) (s : Nat) (a : DAcc) (d : Option (BitVec 512)) : Units :=
  let set := a.line / 16
  let u :=
    match a.use with
    | .header => headerRead u s set d
    | .way w k => wayRead u s set w k d
    | .destage stripe w => jobRead u s set stripe w d
    | .ahead _ _ | .write => u
  pumpSlice c u s

/-- Fill data, a zero-line indication or a status comes back for a line: an early fill whose header is not known is kept, any other is settled. -/
def endFill (c : Ctl) (u : Units) (s : Nat) (k : Pkt) (status : Nat) (direct : Bool) : Units :=
  let u := match (slice u s).fills.find? fun f => f.lla == k.lla && f.got.isNone with
    | none => u
    | some f => if f.pending then putFill u s f { f with got := some (k, status) } else settleFill u s f k status direct
  pumpSlice c u s

/-! ### The destager's choice (R211) -/

/-- The dirty stripes of a set that no job works on: set, tag, ways and their lines. -/
def setStripes (u : Units) (s set : Nat) : List (Nat × Nat × List (Nat × Nat)) :=
  let x := slice u s
  let h := effHeader u s set
  let ws := dirtyWays h
  let tags := (ws.map fun w => wayTag h w).eraseDups
  (tags.filter fun t => !(x.jobs.any fun j => j.set == set && j.tag == t)).map fun t =>
    (set, t, (ws.filter fun w => wayTag h w == t).map fun w => (w, wayJ h w))

/-- Every dirty stripe in the order of the dirty walk, which resumes where it stopped. -/
def walkStripes (u : Units) (s : Nat) : List (Nat × Nat × List (Nat × Nat)) :=
  let x := slice u s
  let sets := (listedSets u s).filter fun n => !x.sealed.contains n
  ((sets.filter fun n => x.walk ≤ n) ++ sets.filter fun n => n < x.walk).flatMap fun n => setStripes u s n

/-- Age of an epoch: how many advances ago it was in force. -/
def epochAge (e ep : Nat) : Nat := (e + 16 - ep % 16) % 16

/-- The epoch a slice works on: its oldest live one, where that is at or below a waiting target or a waiting advance. -/
def epochWork (u : Units) (s : Nat) : Option Nat :=
  let x := slice u s
  let e := u.stg.e
  let limit := (u.stg.waiters.map fun w => epochAge e w.target).foldl min (if u.stg.advanceWait then 15 else 16)
  let live := (List.range 16).filter fun a => 0 < tabGet x.epochs ((e + 16 - a) % 16)
  match live.reverse with
  | [] => none
  | a :: _ => if limit ≤ a then some ((e + 16 - a) % 16) else none

/-- A stripe holds a way tagged with an epoch. -/
def stripeHasEp (u : Units) (s ep : Nat) (t : Nat × Nat × List (Nat × Nat)) : Bool :=
  t.2.2.any fun w => wayEp (effHeader u s t.1) w.1 == ep

/-- A listed entry as a stripe. -/
def stripeAt (u : Units) (s set tag : Nat) : Option (Nat × Nat × List (Nat × Nat)) := (setStripes u s set).find? fun t => t.2.1 == tag

/-- The oldest listed full stripe that is still dirty and may be chosen. -/
def firstFull (u : Units) (s : Nat) (good : Nat × Nat × List (Nat × Nat) → Bool) : Option (Nat × Nat × List (Nat × Nat)) :=
  (slice u s).full.findSome? fun f => (stripeAt u s f.1 f.2.1).filter good

/-- The stripe with most dirty ways of a list. -/
def mostDirty : List (Nat × Nat × List (Nat × Nat)) → Option (Nat × Nat × List (Nat × Nat))
  | [] => none
  | t :: l => some (l.foldl (fun b y => if b.2.2.length < y.2.2.length then y else b) t)

/-- Position of a stripe of a set. -/
def stripePos (u : Units) (set tag : Nat) : Nat := hashPos u.v (tag * 2 ^ setsLog2 u + set)

/-- The next stripe to destage, under the order of R211, and whether the walk gave it; `ok` leaves out stripes whose media group is fenced (R213). -/
def nextStripe (c : Ctl) (u : Units) (s : Nat) (ok : Nat → Bool) : Option (Bool × Nat × Nat × List (Nat × Nat)) :=
  let x := slice u s
  let good := fun (t : Nat × Nat × List (Nat × Nat)) => ok (stripeOf u t.1 t.2.1)
  let walk := (walkStripes u s).filter good
  let listed := (firstFull u s good).map fun t => (false, t)
  let walked := fun (t : Nat × Nat × List (Nat × Nat)) => (true, t)
  if c.mode = .drain then listed.or (walk.head?.map walked)
  else
    match (x.forced.filterMap fun f => stripeAt u s f.1 f.2.1).filter good with
    | t :: _ => some (false, t)
    | [] =>
      match (epochWork u s).bind fun ep => walk.find? (stripeHasEp u s ep) with
      | some t => some (true, t)
      | none =>
        let evac := if (u.stg.evac = 1 ∧ s = u.stg.evacCh) ∨ (u.stg.evac = 3 ∧ s = u.stg.evacCh ^^^ 1)
          then walk.find? fun t => stripePos u t.1 t.2.1 == u.stg.evacCh else none
        match evac with
        | some t => some (true, t)
        | none =>
          match x.urgent.findSome? fun n => mostDirty (walk.filter fun t => t.1 == n) with
          | some t => some (false, t)
          | none =>
            let aged : Bool := match x.full.head? with
              | some f => decide (inF u F.STG_DESTAGE_full_age ≤ usec u - f.2.2 ∨ 4096 ≤ x.full.length)
              | none => false
            if aged && listed.isSome then listed
            else if x.share * inF u F.STG_DESTAGE_high ≤ 16 * (x.dirty + booked u s) then walk.head?.map walked
            else none

/-- Begin the destage of a stripe: every dirty way is marked busy, its lines are read and its placement is asked for. The set's header must be at hand; where it is not, its read is queued. The walk goes on from a stripe that it gave. -/
def startDestage (c : Ctl) (u : Units) (s : Nat) (walked : Bool) (t : Nat × Nat × List (Nat × Nat)) : Units :=
  match needHeader u s t.1 { id := u.nextPkt, typ := .destage, cls := 2, prio := destagePrio c } with
  | (none, u) => u
  | (some e, u) =>
    let e := t.2.2.foldl (fun e w => mark e w.1 .destage) e
    let u := putEntry u s e
    let x := slice u s
    let empties := ((x.forced.filter fun f => f.1 == t.1 && f.2.1 == t.2.1).flatMap fun f => f.2.2)
    let j : Destage := { set := t.1, tag := t.2.1, stripe := stripeOf u t.1 t.2.1, ways := t.2.2, toRead := t.2.2.map (fun w => w.1), empties := empties }
    let mine := fun (a b : Nat) => a == t.1 && b == t.2.1
    let x := { x with jobs := x.jobs ++ [j], walk := if walked then t.1 else x.walk }
    let x := { x with full := x.full.filter fun f => !mine f.1 f.2.1 }
    let x := { x with fullWait := x.fullWait.filter fun f => !mine f.1 f.2.1 }
    let u := setSlice u s { x with forced := x.forced.filter fun f => !mine f.1 f.2.1 }
    pumpSlice c u s

/-- The epoch with which a way of a finished stripe stays dirty, if it does: that of the first write that reached it during the destage (R44, R111), or, of a pinned way (R208), the one the slice tags with, which is the model's choice (log entry 103). -/
def keptEpoch (u : Units) (s : Nat) (j : Destage) (h : BitVec 512) (w : Nat) : Option (Nat × Nat) :=
  (j.dirtied.find? fun d => d.1 == w).or (if pinned u s j.set h w then some (w, (slice u s).epochSeen) else none)

/-- One way of a finished stripe: valid-clean, empty if it was poisoned or was to be emptied, or still dirty. -/
def finishWay (u : Units) (s : Nat) (j : Destage) (p : Slice × BitVec 512) (w : Nat) : Slice × BitVec 512 :=
  let h := p.2
  match keptEpoch u s j h w with
  | some d => (moveEpoch p.1 (wayEp h w) d.2, setWay h w (wayState h w) (wayJ h w) (wayTag h w) d.2)
  | none =>
    let y := uncountDirty u p.1 j.set (wayEp h w)
    (y, if wayState h w = 3 ∨ j.empties.contains w then emptyWay h w else setWay h w 1 (wayJ h w) (wayTag h w) 0)

/-- A stripe has been written: its ways are cleaned, emptied or left dirty, and the counts fall (R212 steps 5 and 6); false where the header write finds no room. -/
def finishDestage (c : Ctl) (u : Units) (s : Nat) (j : Destage) : Bool × Units :=
  match hdrEntry u s j.set with
  | none =>
    let x := slice u s
    (true, pumpSlice c (setSlice u s { x with jobs := x.jobs.filter fun y => y.stripe != j.stripe }) s)
  | some e =>
    if wqRoom u s [j.set * 16] = false then (false, u)
    else
      let x := slice u s
      let (x, h) := j.ways.foldl (fun p w => finishWay u s j p w.1) (x, e.hdr)
      let e := { e with hdr := h, busy := e.busy.filter fun b => !(b.2 == .destage && j.ways.any fun w => w.1 == b.1) }
      let u := setSlice u s { x with jobs := x.jobs.filter fun y => y.stripe != j.stripe }
      let u := writeHeader u s e 2 (destagePrio c) 64
      let u := if stripeFull h j.tag then listFull u s j.set j.tag else u
      let u := if c.mode = .drain then { u with pwr := { u.pwr with drainLines := u.pwr.drainLines + j.ways.length } } else u
      (true, pumpSlice c (count u (cDdr s 12)) s)

/-- A destage that has no placement is given up, and the slice goes on. -/
def dropDestage (c : Ctl) (u : Units) (s : Nat) (j : Destage) : Units := pumpSlice c (giveUpJob u s j) s

/-! ### Views (Table 6-9) -/

/-- Dirty lines of the store. -/
def totalDirty (u : Units) : Nat := ((List.range (nDdr u.v)).map fun s => (slice u s).dirty).sum

/-- An epoch is live while the count of any slice for it is non-zero (R214). -/
def epochLive (u : Units) (ep : Nat) : Bool := (List.range (nDdr u.v)).any fun s => 0 < tabGet (slice u s).epochs ep

end Sys2Proof.Machine
end

