-- ==== Sys2Proof/Machine/Throttle.lean ====
section
/-! DEFINITION. Figures of a channel that admission and the throttle share, and the turns that a throttle step withholds (R143, R149, R495 to R500). -/

namespace Sys2Proof.Machine

/-! ### Figures of a channel -/

/-- Thermal zone of a channel (Table 16-8). -/
def zoneOf (media : Bool) (ch : Nat) : Nat := if media then ch / 9 else 8 + ch % 4

/-- Turns the throttle step in force withholds on a channel (R497). -/
def thrOf (u : Units) (media : Bool) (ch : Nat) : Nat := 4 * getF u F.PWR_ZONE_z_STATE_step (zoneOf media ch)

/-- Turns of a round. -/
def turnsOf (media : Bool) : Nat := if media then 72 else 64

/-- Key of a channel in the tables that hold both kinds. -/
def chKey (media : Bool) (ch : Nat) : Nat := if media then 128 + ch else ch

/-- The floor a CHANGESET or the image has set, 1 to 16, 4 at reset (MNT_FLOOR). -/
def setFloor (u : Units) (key : Nat) : Nat := tabGetD u.adm.floors key 4

/-- The channel is being evacuated and has not left service (Table 4-5). -/
def evacuating (u : Units) (media : Bool) (ch : Nat) : Bool := !media && u.stg.evac == 1 && u.stg.evacCh == ch

/-- A stripe group of the channel's group is rebuilding (Table 4-5). -/
def rebuildingAt (u : Units) (media : Bool) (ch : Nat) : Bool := media && (List.range 8).any fun i => getF u F.HNG_GROUP_s_state (8 * (ch / 9) + i) == 1

/-- The maintenance floor in force, raised to 16 while its cause stands. -/
def floorOf (u : Units) (media : Bool) (ch : Nat) : Nat :=
  if evacuating u media ch || rebuildingAt u media ch then 16 else setFloor u (chKey media ch)

/-! ### Withheld turns (R497) -/

/-- Image indices of a kind of entry, highest first. -/
def idxDown (media : Bool) (p : Nat → Bool) : List Nat := ((List.range (turnsOf media)).filter fun i => p i).reverse

/-- The withheld turns of a channel, from its image and the dropped entries: open entries, then dropped entries, then maintenance entries beyond the floor, each from the highest index downward; on media none of entries 0 to 7. -/
def withheld (u : Units) (media : Bool) (ch : Nat) (image dropped : List Nat) : List Nat :=
  let free := fun (i : Nat) => !media || 8 ≤ i
  let kind := fun (i : Nat) => image.getD i 0 % 4
  let maint := idxDown media fun i => kind i == 3 && free i
  let opens := idxDown media fun i => kind i == 0 && free i
  let gone := idxDown media fun i => dropped.contains i && free i
  ((opens ++ gone) ++ maint.take (maint.length - floorOf u media ch)).take (thrOf u media ch)

end Sys2Proof.Machine
end

