-- ==== Sys2Proof/Machine/Ddr5.lean ====
section
/-! DEFINITION. The DDR5 channel engine and its PHY (chapters "DDR5 Channel Engine", "DDR5 PHY and Training"): timing rules, the choice of one command in each controller cycle, refresh, refresh management, back-off, write CRC replay, temperature polls, retraining and the patch table. -/

namespace Sys2Proof.Machine

/-! ### Timing (R231, R232, Table 7-9) -/

/-- A field of DDR5_n_TIM_k. -/
def tim (u : Units) (c k lo w : Nat) : Nat := nbits (rawReg u .DDR5_n_TIM_k c k) lo w

/-- CL in nCK. -/
def tCl (u : Units) (c : Nat) : Nat := tim u c 0 0 8
/-- CWL in nCK. -/
def tCwl (u : Units) (c : Nat) : Nat := tim u c 0 8 8
/-- tRCD in controller cycles. -/
def tRcd (u : Units) (c : Nat) : Nat := tim u c 0 16 8
/-- tRP. -/
def tRp (u : Units) (c : Nat) : Nat := tim u c 0 24 8
/-- tREFSBRD. -/
def tRefsbrd (u : Units) (c : Nat) : Nat := tim u c 3 24 8
/-- tRFC1. -/
def tRfc1 (u : Units) (c : Nat) : Nat := tim u c 4 0 12
/-- tRFC2. -/
def tRfc2 (u : Units) (c : Nat) : Nat := tim u c 4 16 12
/-- tRFCsb. -/
def tRfcsb (u : Units) (c : Nat) : Nat := tim u c 5 0 12
/-- tREFI1; tREFI2 is half of it, rounded down. -/
def tRefi1 (u : Units) (c : Nat) : Nat := tim u c 6 0 16

/-- Write CRC is enabled (R269). -/
def writeCrc (u : Units) (c : Nat) : Bool := getF u F.DDR5_n_PHY_STATE_write_crc c == 1

/-- The write burst in nCK: 8, or 9 with write CRC. -/
def burstCk (u : Units) (c : Nat) : Nat := if writeCrc u c then 9 else 8

/-- Controller cycles of a figure in nCK. -/
def halfUp (n : Nat) : Nat := (n + 1) / 2

/-- tCK in femtoseconds at the rate of DDR5_n_GEOM (R231). -/
def tCkFs (u : Units) (c : Nat) : Nat := 2000000000 / (4800 + 400 * getF u F.DDR5_n_GEOM_rate c)

/-- Controller cycles of a time in nanoseconds, rounded up. -/
def nsCycles (u : Units) (c ns : Nat) : Nat := (ns * 1000000 + 2 * tCkFs u c - 1) / (2 * tCkFs u c)

/-- Conversion of a rule given in picoseconds to nCK (R231). -/
def toCk (fs tck : Nat) : Nat := (fs - tck / 100 + tck - 1) / tck

/-- Enough cycles have passed since a time stored plus one. -/
def since (now t n : Nat) : Bool := t == 0 || t - 1 + n ≤ now

/-- Key of a bank: rank × 32 + bank index. -/
def bankKey (u : Units) (line : Nat) : Nat := lineRank u line * 32 + lineBank line

/-- Two banks lie in one bank group of one rank. -/
def sameGroup (a b : Nat) : Bool := a / 32 == b / 32 && a % 8 == b % 8

/-- Banks of the ranks of a DIMM: DIMM = rank div (L × P). -/
def dimmOf (u : Units) (c rank : Nat) : Nat := rank / 2 ^ (getF u F.DDR5_n_GEOM_pranks_log2 c + getF u F.DDR5_n_GEOM_lranks_log2 c)

/-- Gap of a rank switch in controller cycles, after a burst of some nCK. -/
def rankGap (u : Units) (c burst : Nat) : Nat := halfUp burst + tim u c 7 12 4

/-- Time a bank needs, from a RD or from a WR, before its PRE. -/
def rdToPre (u : Units) (c : Nat) : Nat := tim u c 2 24 8
/-- See `rdToPre`. -/
def wrToPre (u : Units) (c : Nat) : Nat := halfUp (tCwl u c + burstCk u c) + tim u c 3 16 8
/-- tRAS. -/
def tRas (u : Units) (c : Nat) : Nat := tim u c 1 0 8
/-- tMRR, tMRW and tMRD. -/
def tMrd (u : Units) (c : Nat) : Nat := tim u c 5 16 12

/-- The bank is in a stall. -/
def inStall (x : Sub) (b now : Nat) : Bool := now + 1 < tabGet x.stallEnd b

/-- No command laid down covers the bank before a cycle. -/
def clearUntil (x : Sub) (b n : Nat) : Bool := x.laid.all fun l => !l.banks.contains b || n ≤ l.at_

/-- A command laid down closes its banks: PREab or PREsb. -/
def Laid.closes (l : Laid) : Bool := l.code == 8 || l.code == 9

/-- The bank may be activated before the commands laid down for it: a precharge of it is among them where a stall is, and the last cycle they allow has not passed. -/
def mayOpen (x : Sub) (b now : Nat) : Bool :=
  ((x.laid.all fun l => l.closes || !l.banks.contains b) || x.laid.any fun l => l.closes && l.banks.contains b) &&
  x.laid.all fun l => l.limit == 0 || !l.banks.contains b || now < l.limit

/-- RD to a bank whose row is open is allowed (Table 7-3). -/
def canRd (u : Units) (c : Nat) (x : Sub) (b now : Nat) : Bool :=
  since now (tabGet x.tAct b) (tRcd u c) && !inStall x b now && tabGet x.rankBusy (b / 32) ≤ now &&
  (x.tRd.cells.all fun e => since now e.2 (if e.1 / 32 = b / 32 then (if sameGroup e.1 b then tim u c 2 8 8 else 4) else rankGap u c 8)) &&
  clearUntil x b (now + rdToPre u c) &&
  (x.tWr.cells.all fun e => since now e.2 (if e.1 / 32 = b / 32 then halfUp (tCwl u c + burstCk u c) + (if sameGroup e.1 b then tim u c 3 8 8 else tim u c 3 0 8) else rankGap u c (burstCk u c)))

/-- WR to a bank whose row is open is allowed. -/
def canWr (u : Units) (c : Nat) (x : Sub) (b now : Nat) : Bool :=
  since now (tabGet x.tAct b) (tRcd u c) && !inStall x b now && tabGet x.rankBusy (b / 32) ≤ now &&
  (x.tRd.cells.all fun e => since now e.2 (if e.1 / 32 = b / 32 then halfUp (tCl u c - tCwl u c + 8 + 2 + Config.mr8Extra) else rankGap u c 8)) &&
  clearUntil x b (now + wrToPre u c) &&
  (x.tWr.cells.all fun e => since now e.2 (if e.1 / 32 = b / 32 then (if sameGroup e.1 b then tim u c 2 16 8 else halfUp (burstCk u c)) else rankGap u c (burstCk u c)))

/-- ACT is allowed. -/
def canAct (u : Units) (c : Nat) (x : Sub) (b now : Nat) : Bool :=
  tabGet x.openRow b == 0 && !inStall x b now && tabGet x.rankBusy (b / 32) ≤ now && tabGet x.actBusy (b / 32) ≤ now &&
  since now (tabGet x.tPre b) (tRp u c) && since now (tabGet x.tAct b) (tim u c 1 8 8) &&
  (x.tAct.cells.all fun e => e.1 / 32 != b / 32 || since now e.2 (if sameGroup e.1 b then tim u c 1 24 8 else tim u c 1 16 8)) &&
  (x.acts.filter fun a => now < a.2 + tim u c 2 0 8).length < 4 && clearUntil x b (now + tRas u c) && mayOpen x b now &&
  !(getF u F.DDR5_n_RFM_required c == 1 && getF u F.DDR5_n_RFM_raammt c ≤ tabGet x.raa b + 1)

/-- PRE of an open bank is allowed. -/
def canPre (u : Units) (c : Nat) (x : Sub) (b now : Nat) : Bool :=
  tabGet x.openRow b != 0 && since now (tabGet x.tAct b) (tRas u c) &&
  since now (tabGet x.tWr b) (wrToPre u c) && since now (tabGet x.tRd b) (rdToPre u c)

/-- The earliest cycle at or after `now` at which PRE of a bank is allowed. -/
def preFrom (u : Units) (c : Nat) (x : Sub) (b now : Nat) : Nat :=
  if tabGet x.openRow b = 0 then now
  else
    max (max now (tabGet x.tAct b - 1 + tRas u c))
      (max (if tabGet x.tWr b = 0 then 0 else tabGet x.tWr b - 1 + wrToPre u c)
           (if tabGet x.tRd b = 0 then 0 else tabGet x.tRd b - 1 + rdToPre u c))

/-! ### The choice of an access (R141, R226 to R229) -/

/-- The turn-table entry that governs a turn; a dropped entry governs as an open turn. -/
def turnEntry (d : Ddr) (turn : Nat) : Nat := if d.nextTable.isNone ∧ d.dropped.contains (turn % 64) then 0 else d.table.getD (turn % 64) 0

/-- Port p belongs to port set s. -/
def inPset (u : Units) (s p : Nat) : Bool :=
  if p < 32 then nbits (bankReg u u.regs.epoch .RGL_PSET_k_LO s) p 1 == 1
  else p < 64 && nbits (bankReg u u.regs.epoch .RGL_PSET_k_HI s) (p - 32) 1 == 1

/-- Place of an access in the order of an open turn: C0, C1, C2 by transit priority, C3, maintenance. -/
def openRank (a : DAcc) : Nat :=
  if a.cls = 0 then 0 else if a.cls = 1 then 1 else if a.cls = 2 then 2 + (7 - a.prio) else if a.cls = 3 then 10 else 11

/-- An access belongs to the group that a C0, C1 or maintenance turn serves first (Table 4-4). -/
def firstGroup (u : Units) (entry : Nat) (a : DAcc) : Bool :=
  (entry % 4 == 1 && a.cls == 0 || entry % 4 == 2 && a.cls == 1) && inPset u (entry / 4 % 16) a.port || entry % 4 == 3 && a.cls == 4

/-- Deadline turn of an access: its entry turn plus 2 for C0, plus 4 for C1 (R225). -/
def deadline (a : DAcc) : Nat := a.entered / 8 + (if a.cls = 0 then 2 else 4)

/-- The row of an access is open. -/
def rowOpen (u : Units) (x : Sub) (a : DAcc) : Bool := tabGet x.openRow (bankKey u a.line) == lineRow u a.line + 1

/-- Sort key of an access: replays, then the turn's first group (of a C0 or C1 turn by deadlines that have come, open rows, arrival), then the open order, with reads and writes as write drain says. -/
def accessKey (u : Units) (x : Sub) (entry turn : Nat) (a : DAcc) : List Nat :=
  let drains := if (a.use == .write) == x.drain then 0 else 1
  if a.replay then [0, 0, 0, a.seq]
  else if firstGroup u entry a then
    if entry % 4 = 3 then [1, 0, drains, a.seq]
    else
      let due := deadline a ≤ turn
      [1, (if due then 0 else 1), (if due then deadline a else if rowOpen u x a then 0 else 1), a.seq]
  else [2, openRank a, drains, a.seq]

/-- Lexicographic order of keys. -/
def keyLe : List Nat → List Nat → Bool
  | [], _ => true
  | _, [] => false
  | a :: s, b :: t => a < b || (a == b && keyLe s t)

/-- The accesses of a subchannel in the order in which they would be chosen. -/
def chooseOrder (u : Units) (x : Sub) (entry turn : Nat) : List DAcc :=
  sortedBy (fun a b => keyLe (accessKey u x entry turn a) (accessKey u x entry turn b)) (x.rq ++ x.wq ++ x.crcHeld.filter fun a => a.replay)

/-- A read that a queued or held write answers (R230, R270). -/
def forwarded (x : Sub) (a : DAcc) : Bool := a.use != .write && (queuedWrite x a.line).isSome

/-- A held WR of the access's DIMM is to be re-issued before it (R270). -/
def behindReplay (u : Units) (c : Nat) (x : Sub) (a : DAcc) : Bool :=
  x.crcHeld.any fun h => h.replay && dimmOf u c (lineRank u h.line) == dimmOf u c (lineRank u a.line) && (!a.replay || h.seq < a.seq)

/-- An access's column command is allowed at a cycle. -/
def canColumn (u : Units) (c : Nat) (x : Sub) (a : DAcc) (now : Nat) : Bool :=
  let b := bankKey u a.line
  rowOpen u x a && !behindReplay u c x a &&
    (if a.use == .write then canWr u c x b now && (a.replay || !(writeCrc u c && 32 ≤ x.crcHeld.length)) else canRd u c x b now)

/-! ### Issuing -/

/-- Present a DDR5 command: 0 ACT, 1 RD, 2 WR, 3 PRE, 4 REFab, 5 REFsb, 6 RFMab, 7 RFMsb, 8 PREab, 9 PREsb, 10 self-refresh entry, 11 self-refresh exit, 12 MRW, 13 MRR, and of the multi-purpose commands 14 start of the DQS interval oscillator, 15 ZQ calibration start, 16 ZQ calibration latch, 17 selection of devices by per-DRAM addressability (the mask stands for the row). -/
def ddrOut (u : Units) (c s code rank bank row col : Nat) : Units := present u (.ddr5 c s code rank bank row col)

/-- Sixteen beats of a code word (R246): device i div 8 carries symbol i, its bits [3:0] in beat 2m and [7:4] in beat 2m + 1 (m = i mod 8); devices 0 to 7 drive DQ[4d + 3:4d], 8 and 9 CB[3:0] and CB[7:4]. -/
def beatsOf (w : BitVec 640) : List (BitVec 40) :=
  (List.range 16).map fun t => BitVec.ofNat 40 (((List.range 10).map fun d => nbits w.toNat (8 * (8 * d + t / 2) + 4 * (t % 2)) 4 * 2 ^ (4 * d)).sum)

/-- A WR is kept for replay while write CRC is on. -/
def keepForReplay (u : Units) (c : Nat) (x : Sub) (a : DAcc) : Sub :=
  if writeCrc u c then { x with crcHeld := (x.crcHeld.filter fun y => y.seq != a.seq) ++ [{ a with entered := x.cyc, replay := false }] } else x

/-- The column command of an access issues: a WR stores its code word, in a patch entry's spare copy too; a RD takes what stands there. -/
def issueColumn (u : Units) (c s : Nat) (a : DAcc) : Units :=
  let x := subOf u c s
  let b := bankKey u a.line
  let w := a.use == .write
  let x := { x with
    colTurn := x.cyc / 8, colCount := (if x.colTurn = x.cyc / 8 then x.colCount else 0) + 1,
    tRd := (if w then x.tRd else tabPut x.tRd b (x.cyc + 1)), tWr := (if w then tabPut x.tWr b (x.cyc + 1) else x.tWr) }
  let u := if a.opened then u else count u (cDdr c 6)
  let u := ddrOut u c s (if w then 2 else 1) (b / 32) (b % 32) (lineRow u a.line) (lineCol a.line)
  if w then
    let x := takeHeld (keepForReplay u c { x with wq := x.wq.filter fun y => y.seq != a.seq } a)
    count (storeDram (present (setSub u c s x) (.burst c s (beatsOf (dramWord a.data)))) c a.line a.data) (cDdr c 2)
  else
    let a := match x.patches.find? fun p => p.line == a.line with
      | some p => { a with data := p.spare, patched := true, bad := p.poisoned }
      | none => { a with data := dramLine (slice u c) a.line }
    count (setSub u c s { x with rq := x.rq.filter (fun y => y.seq != a.seq), inflight := x.inflight ++ [a] }) (cDdr c 1)

/-- ACT for an access. -/
def issueAct (u : Units) (c s : Nat) (a : DAcc) : Units :=
  let x := subOf u c s
  let b := bankKey u a.line
  let opened := fun (y : DAcc) => if y.seq = a.seq then { y with opened := true } else y
  let x := { x with
    openRow := tabPut x.openRow b (lineRow u a.line + 1), tAct := tabPut x.tAct b (x.cyc + 1),
    acts := (x.acts.filter fun e => x.cyc < e.2 + tim u c 2 0 8) ++ [(b / 32, x.cyc)],
    raa := (if getF u F.DDR5_n_RFM_required c = 1 then tabPut x.raa b (tabGet x.raa b + 1) else x.raa),
    rq := x.rq.map opened, wq := x.wq.map opened }
  count (ddrOut (setSub u c s x) c s 0 (b / 32) (b % 32) (lineRow u a.line) 0) (cDdr c 0)

/-- PRE of a bank. -/
def issuePre (u : Units) (c s b : Nat) : Units :=
  let x := subOf u c s
  count (ddrOut (setSub u c s { x with openRow := tabPut x.openRow b 0, tPre := tabPut x.tPre b (x.cyc + 1) }) c s 3 (b / 32) (b % 32) 0 0) (cDdr c 3)

/-- ACT or PRE ahead of time, in the order in which the waiting accesses would be chosen: no row is closed that an access earlier in the order uses. -/
def issueAhead (u : Units) (c s : Nat) : List DAcc → List Nat → Units
  | [], _ => u
  | a :: t, used =>
    let x := subOf u c s
    let b := bankKey u a.line
    if forwarded x a ∨ rowOpen u x a then issueAhead u c s t (b :: used)
    else if used.contains b then issueAhead u c s t used
    else if canAct u c x b x.cyc then issueAct u c s a
    else if canPre u c x b x.cyc ∧ ¬ inStall x b x.cyc then issuePre u c s b
    else issueAhead u c s t (b :: used)

/-! ### Bank stalls (R235, R236, R240, R243) -/

/-- Banks of one REFsb: bank k of every bank group. -/
def sbBanks (rank k : Nat) : List Nat := (List.range 8).map fun g => rank * 32 + 8 * k + g
/-- Every bank of a rank. -/
def rankBanks (rank : Nat) : List Nat := (List.range 32).map fun b => rank * 32 + b

/-- The first turn boundary at or after a cycle. -/
def boundary (n : Nat) : Nat := (n + 7) / 8 * 8

/-- The cycle at which banks can be precharged through, at the earliest. -/
def closedFrom (u : Units) (c : Nat) (x : Sub) (banks : List Nat) : Nat :=
  (banks.map fun b => if tabGet x.openRow b = 0 then (if tabGet x.tPre b = 0 then 0 else tabGet x.tPre b - 1 + tRp u c) else preFrom u c x b x.cyc + tRp u c).foldl max x.cyc

/-- When the last stall of a bank, begun or laid down, ends (plus one; 0 where it has had none). -/
def stallOver (x : Sub) (b : Nat) : Nat :=
  (x.laid.map fun l => if l.len ≠ 0 ∧ l.banks.contains b then l.at_ + l.len + 1 else 0).foldl max (tabGet x.stallEnd b)

/-- The separation of 250 ns between bank stalls of one bank holds at a cycle. -/
def separated (u : Units) (c : Nat) (x : Sub) (banks : List Nat) (n : Nat) : Bool :=
  banks.all fun b => since n (stallOver x b) (nsCycles u c 250)

/-- The first cycle at which the separation holds for banks. -/
def apartFrom (u : Units) (c : Nat) (x : Sub) (banks : List Nat) : Nat :=
  (banks.map fun b => if stallOver x b = 0 then 0 else stallOver x b - 1 + nsCycles u c 250).foldl max 0

/-- No command laid down takes a cycle. -/
def cycleFree (x : Sub) (n : Nat) : Bool := x.laid.all fun l => l.at_ != n

/-- The precharge that must come tRP before a command laid down for closed banks, where one of them is open: PREab for a whole rank, PREsb for one bank of every group. -/
def closeFor (u : Units) (c : Nat) (x : Sub) (l : Laid) : List Laid :=
  let open_ := l.banks.filter fun b => tabGet x.openRow b != 0
  if l.closes || open_.isEmpty then [] else [{ at_ := l.at_ - tRp u c, code := if l.banks.length = 32 then 8 else 9, rank := l.rank, bank := l.bank, banks := open_ }]

/-- Commands laid out from a start, each with its precharge. -/
def placed (u : Units) (c : Nat) (x : Sub) (parts : List Laid) (start : Nat) : List Laid :=
  parts.flatMap fun l => let l := { l with at_ := start + l.at_ }; closeFor u c x l ++ [l]

/-- The first of the starts `step` apart at which every cycle the commands take is free. -/
def freeStart (u : Units) (c : Nat) (x : Sub) (parts : List Laid) (step : Nat) : Nat → Nat → Nat
  | 0, n => n
  | k + 1, n => if (placed u c x parts n).all fun l => cycleFree x l.at_ then n else freeStart u c x parts step k (n + step)

/-- The boundary at which commands may be issued once their banks are closed, each at its offset. -/
def readyStart (u : Units) (c : Nat) (x : Sub) (parts : List Laid) : Nat :=
  freeStart u c x parts 8 64 (boundary ((parts.map fun l => closedFrom u c x l.banks - l.at_).foldl max x.cyc))

/-- The boundary at which the separation holds as well. -/
def apartStart (u : Units) (c : Nat) (x : Sub) (parts : List Laid) : Nat :=
  freeStart u c x parts 8 64 (boundary ((parts.map fun l => apartFrom u c x l.banks - l.at_).foldl max (readyStart u c x parts)))

/-- Every part keeps the separation when begun at a start. -/
def partsApart (u : Units) (c : Nat) (x : Sub) (parts : List Laid) (start : Nat) : Bool := parts.all fun l => separated u c x l.banks (start + l.at_)

/-- Lay commands down from a start. -/
def layParts (u : Units) (c s : Nat) (parts : List Laid) (start : Nat) : Units :=
  let x := subOf u c s
  setSub u c s { x with laid := x.laid ++ placed u c x parts start }

/-- A command laid down issues: it closes its banks, or stalls them; a refresh or refresh-management command lowers their activation counts by RAAIMT. -/
def issueLaid (u : Units) (c s : Nat) (l : Laid) : Units :=
  let x := subOf u c s
  let wasOpen := l.closes && l.banks.any fun b => tabGet x.openRow b != 0
  let raaimt := getF u F.DDR5_n_RFM_raaimt c
  let x := l.banks.foldl (fun x b => { x with
    openRow := (if l.closes then tabPut x.openRow b 0 else x.openRow),
    tPre := (if l.closes ∧ tabGet x.openRow b ≠ 0 then tabPut x.tPre b (x.cyc + 1) else x.tPre),
    stallEnd := (if l.len = 0 then x.stallEnd else tabPut x.stallEnd b (x.cyc + l.len + 1)),
    raa := if l.refresh then tabPut x.raa b (tabGet x.raa b - raaimt) else x.raa }) x
  let x := { x with
    laid := x.laid.erase l,
    rankBusy := (if l.busy = 0 then x.rankBusy else tabPut x.rankBusy l.rank (x.cyc + l.busy)),
    actBusy := if l.noAct = 0 then x.actBusy else tabPut x.actBusy l.rank (x.cyc + l.noAct) }
  let u := ddrOut (setSub u c s x) c s l.code l.rank l.bank l.row l.col
  let u := if wasOpen then count u (cDdr c 3) else u
  let u := if l.code = 4 ∨ l.code = 5 then count u (cDdr c 4) else if l.code = 6 ∨ l.code = 7 then count u (cDdr c 5) else u
  if l.managed then addSat u F.DDR5_n_ALERT_rfms c 0 1 else u

/-! ### Refresh (R234 to R237) -/

/-- Refresh mode (Table 7-4). -/
def refMode (u : Units) (c : Nat) : Nat := getF u F.DDR5_n_REF_mode c

/-- The refresh interval of a rank in force, at the rate in force. -/
def refInterval (u : Units) (c : Nat) : Nat := (if refMode u c = 0 then tRefi1 u c else tRefi1 u c / 2) / (ddr u c).rate

/-- One refresh of a rank: a group of four REFsb, each tREFSBRD after the one before, or one REFab. -/
def refreshParts (u : Units) (c rank : Nat) : List Laid :=
  if refMode u c = 2 then
    (List.range 4).map fun k => { at_ := k * tRefsbrd u c, code := 5, rank := rank, bank := k, banks := sbBanks rank k, len := tRfcsb u c, noAct := tRefsbrd u c, refresh := true }
  else
    let len := if refMode u c = 0 then tRfc1 u c else tRfc2 u c
    [{ code := 4, rank := rank, banks := rankBanks rank, len := len, busy := len, refresh := true }]

/-- The timer of a rank has come to its due time. -/
def refreshFalls (x : Sub) (rank : Nat) : Bool := tabGet x.refAt rank ≤ x.cyc

/-- A rank's refresh falls due (R235, R236): it issues at the first turn boundary at which its banks are precharged; where the separation forbids that it is postponed once, and a postponed refresh issues together with the next. -/
def refreshOp (u : Units) (c s rank : Nat) : Units :=
  let x := subOf u c s
  let x := { x with refAt := tabPut x.refAt rank ((if tabGet x.refAt rank = 0 then x.cyc else tabGet x.refAt rank) + refInterval u c) }
  let parts := refreshParts u c rank
  let start := readyStart u c x parts
  if x.postponed.contains rank then
    let u := setSub u c s { x with postponed := x.postponed.filter fun r => r != rank }
    let u := layParts u c s parts (apartStart u c (subOf u c s) parts)
    layParts u c s parts (apartStart u c (subOf u c s) parts)
  else if partsApart u c x parts start then layParts (setSub u c s x) c s parts start
  else setSub u c s { x with postponed := x.postponed ++ [rank] }

/-- The refresh timers start with every rank due one interval later, rank r at an offset of r × interval ÷ Rk from rank 0 (R235, R260). -/
def startRefresh (u : Units) (c : Nat) : Units :=
  let rk := 2 ^ rkLog u
  let n := refInterval u c
  [0, 1].foldl (fun u s =>
    let x := subOf u c s
    setSub u c s { x with refAt := (List.range rk).foldl (fun t r => tabPut t r (x.cyc + n + r * n / rk)) tabNil }) u

/-! ### Maintenance turns (R142, R243) -/

/-- The first boundary from a cycle on whose turn is a maintenance turn; in a round without one, an open turn; in a round without either, the cycle's own boundary. -/
def maintFrom (u : Units) (c n : Nat) : Nat :=
  let t := boundary n / 8
  let turn := fun (k : Nat) => (List.range 64).find? fun i => turnEntry (ddr u c) (t + i) % 4 == k
  match turn 3, turn 0 with
  | some i, _ => (t + i) * 8
  | none, some i => (t + i) * 8
  | none, none => t * 8

/-- Commands laid down to begin in a maintenance turn, not before a cycle. -/
def layMaint (u : Units) (c s : Nat) (parts : List Laid) (n : Nat) : Units :=
  layParts u c s parts (freeStart u c (subOf u c s) parts 1 64 (maintFrom u c n))

/-- The cycle from which a rank takes any command: no stall or mode-register command of it, begun or laid down, lasts longer. -/
def rankFrom (x : Sub) (rank : Nat) : Nat :=
  (x.laid.map fun l => if l.rank = rank then l.at_ + max l.busy l.len else 0).foldl max (max x.cyc (tabGet x.rankBusy rank))

/-- MRRs of mode registers of a rank, in maintenance turns. -/
def layMrr (u : Units) (c s rank : Nat) (regs : List Nat) (n : Nat) : Units :=
  regs.foldl (fun u r => layMaint u c s [{ code := 13, rank := rank, row := r, busy := max 1 (tMrd u c) }] (max n (rankFrom (subOf u c s) rank))) u

/-- Controller cycles that fit in a time in nanoseconds. -/
def nsFit (u : Units) (c ns : Nat) : Nat := ns * 1000000 / (2 * tCkFs u c)

/-- A blackout of one rank (R243): it begins in a maintenance turn with PREab, lasts `len` cycles, and the commands inside it follow at their offsets. -/
def blackoutOp (u : Units) (c s rank len : Nat) (inside : List Laid) : Units :=
  let x := subOf u c s
  let banks := rankBanks rank
  let start := max (closedFrom u c x banks - tRp u c) (max (apartFrom u c x banks) (rankFrom x rank))
  layMaint u c s ({ code := 8, rank := rank, banks := banks, len := len } :: inside.map fun l => { l with rank := rank }) start

/-! ### Refresh management (R240) -/

/-- A bank is due for refresh management, and no command that lowers its count is laid down. -/
def rfmDue (u : Units) (c : Nat) (x : Sub) (b : Nat) : Bool :=
  getF u F.DDR5_n_RFM_raaimt c ≤ tabGet x.raa b && !inStall x b x.cyc && x.laid.all fun l => !(l.refresh && l.banks.contains b)

/-- Refresh management of one due bank: RFMsb or RFMab at the first turn boundary that the separation allows. -/
def rfmBank (u : Units) (c s b : Nat) : Units :=
  let x := subOf u c s
  if rfmDue u c x b = false then u
  else
    let rank := b / 32
    let k := b % 32 / 8
    let parts : List Laid :=
      if refMode u c = 2 then [{ code := 7, rank := rank, bank := k, banks := sbBanks rank k, len := tRfcsb u c, refresh := true, managed := true }]
      else [{ code := 6, rank := rank, banks := rankBanks rank, len := tRfc1 u c, refresh := true, managed := true }]
    let start := readyStart u c x parts
    if partsApart u c x parts start then layParts u c s parts start else u

/-- Refresh management at a turn boundary: every due bank is tried. -/
def rfmOp (u : Units) (c s : Nat) : Units :=
  let x := subOf u c s
  if getF u F.DDR5_n_RFM_required c ≠ 1 ∨ x.cyc % 8 ≠ 0 then u else (tabKeys x.raa).foldl (fun u b => rfmBank u c s b) u

/-! ### One controller cycle (R226) -/

/-- Age of a queued write in nanoseconds. -/
def ageNs (u : Units) (c : Nat) (x : Sub) (a : DAcc) : Nat := (x.cyc - a.entered) * 2 * tCkFs u c / 1000000

/-- Write drain is entered and left (R229). -/
def drainNow (u : Units) (c : Nat) (x : Sub) : Bool :=
  let aged := x.wq.any fun a => getF u F.DDR5_n_SCHED_wq_age c * 16 ≤ ageNs u c x a
  if getF u F.DDR5_n_SCHED_wq_high c ≤ x.wq.length ∨ aged ∨ u.pwr.hushing then x.wq.length != 0
  else if x.wq.length ≤ getF u F.DDR5_n_SCHED_wq_low c then false
  else x.drain

/-- The integrity event of a DDR5 channel (Table 18-3). -/
def ddrIntEvent (u : Units) (c : Nat) : Units := emitEvent u 0xC c [evReg u .INT_ERR, evReg u .INT_DDR_n_ERR c]

/-- A code word has taken the general path (R396). -/
def generalPath (u : Units) (c : Nat) : Units := ddrIntEvent (flag (addSat u F.INT_DDR_n_CNT_general c 0 1) F.INT_DDR_n_ERR_general c) c

/-- In every read burst the PHY moves the capture point of each device of the rank by at most one delay step, which way is its own (R263). -/
def trackRead (u : Units) (c s : Nat) (a : DAcc) : Units :=
  let x := subOf u c s
  let (n, u) := takeFree u
  let base := lineRank u a.line * 16
  setSub u c s { x with tracked := (List.range 10).foldl (fun l d => addAt l (base + d) ((n / 3 ^ d % 3 : Nat) - 1)) x.tracked }

/-- What a read finds, decoded and handed to the slice (R395, R396). -/
def settleRead (ct : Ctl) (u : Units) (c : Nat) (a : DAcc) (err : BitVec 640) : Units :=
  if a.patched then
    if a.bad then dramAnswer ct (addSat u F.INT_DDR_n_CNT_uncorr c 0 1) c a none else dramAnswer ct u c a (some a.data)
  else
    match dramDecode u err with
    | (.clean, u) => dramAnswer ct u c a (some a.data)
    | (.device _, u) => dramAnswer ct (count (addSat u F.INT_DDR_n_CNT_device c 0 1) (cDdr c 13)) c a (some a.data)
    | (.general, u) => dramAnswer ct (generalPath u c) c a (some a.data)
    | (.uncorrectable, u) => dramAnswer ct (addSat u F.INT_DDR_n_CNT_uncorr c 0 1) c a none
    | (.other line, u) => dramAnswer ct u c a (some line)

/-- The turn under way is withheld by the throttle (R497). -/
def turnHeld (u : Units) (c turn : Nat) : Bool := (withheld u false c (ddr u c).table (ddr u c).dropped).contains (turn % 64)

/-- The turn under way has had its first group served, or nothing of it waits on a stall or on a withheld turn. -/
def turnKept (u : Units) (c : Nat) (x : Sub) : Bool :=
  x.served || !(x.entry % 4 == 1 || x.entry % 4 == 2) ||
    (x.rq ++ x.wq).all fun a => !(firstGroup u x.entry a && (inStall x (bankKey u a.line) x.cyc || (0 < x.cyc && turnHeld u c ((x.cyc - 1) / 8))))

/-- A turn begins: the service of a C0 or C1 turn that a stall or a withheld turn has taken moves to the next open turn of its round (R142). -/
def turnStart (u : Units) (c : Nat) (x : Sub) : Sub :=
  let owed := if x.cyc % 512 = 0 then [] else if turnKept u c x then x.owed else x.owed ++ [x.entry]
  let e := turnEntry (ddr u c) (x.cyc / 8)
  match owed with
  | o :: t => if e % 4 = 0 ∧ turnHeld u c (x.cyc / 8) = false then { x with entry := o, owed := t, served := false } else { x with entry := e, owed := owed, served := false }
  | [] => { x with entry := e, owed := [], served := false }

/-- Cycles for which a WR is kept for replay: the longest CRC alert latency plus 8 nCK (R270). -/
def crcHold (u : Units) (c : Nat) : Nat := halfUp (Config.crcLatency (getF u F.DDR5_n_GEOM_rate c) + 8)

/-- The table that a latch has brought in governs from the next round. -/
def roundStart (u : Units) (c : Nat) : Units :=
  let d := ddr u c
  match d.nextTable with
  | some t => setDdr u c { d with table := t, nextTable := none }
  | none => u

/-- The cycle's bookkeeping: the table of a new round, the turn, write drain, kept WRs whose time has passed, the flags of DDR5_n_STATE. -/
def cycleStart (u : Units) (c s : Nat) : Units :=
  let x := subOf u c s
  let u := if s = 0 ∧ x.cyc % 512 = 0 then roundStart u c else u
  let x := if x.cyc % 8 = 0 then turnStart u c x else x
  let kept := if x.crcHeld.isEmpty then [] else x.crcHeld.filter fun a => a.replay || x.cyc < a.entered + crcHold u c
  let x := { x with drain := drainNow u c x, crcHeld := kept,
                    crcTries := tabFilter x.crcTries fun l => hasLine kept l || hasLine x.wq l,
                    backoffEnd := if x.backoffEnd ≤ x.cyc then 0 else x.backoffEnd }
  let u := setSub u c s x
  let u := putF u F.DDR5_n_STATE_drain c 0 (if (subOf u c 0).drain || (subOf u c 1).drain then 1 else 0)
  let u := putF u F.DDR5_n_STATE_backoff c 0 (if (subOf u c 0).backoffEnd = 0 ∧ (subOf u c 1).backoffEnd = 0 then 0 else 1)
  if s ≠ 0 then u
  else
    let stalled := [subOf u c 0, subOf u c 1].any fun (y : Sub) => (y.rq ++ y.wq).any fun a => inStall y (bankKey u a.line) y.cyc
    countSignal (countSignal u (cDdr c 7) ((subOf u c 0).drain || (subOf u c 1).drain) 1) (cDdr c 14) stalled 1

/-- Accesses that a withheld turn carries: on V72 reads, on V36 and V18 none; a read answered without a command is no traffic (R498). -/
def throttled (u : Units) (c turn : Nat) (x : Sub) (order : List DAcc) : List DAcc :=
  if turnHeld u c turn then order.filter fun a => forwarded x a || (u.v == .v72 && a.use != .write) else order

/-- At most one command: the column command of the first ready access, else ACT or PRE ahead of time. A forwarded read is answered without a command. -/
def cycleIssue (ct : Ctl) (u : Units) (c s : Nat) : Units :=
  let x := subOf u c s
  let turn := x.cyc / 8
  let order := throttled u c turn x (chooseOrder u x x.entry turn)
  let room := x.colTurn ≠ turn ∨ x.colCount < 2
  let ready := fun (a : DAcc) => forwarded x a || (decide room && !inStall x (bankKey u a.line) x.cyc && canColumn u c x a (turn * 8 + 7))
  match order.find? ready with
  | some a =>
    let y := { x with served := x.served || firstGroup u x.entry a }
    if forwarded x a then dramAnswer ct (setSub u c s { y with rq := y.rq.filter fun z => z.seq != a.seq }) c a (queuedWrite x a.line)
    else if canColumn u c x a x.cyc then
      let u := issueColumn (setSub u c s y) c s a
      if a.use == .write then pumpSlice ct u c else u
    else issueAhead u c s order []
  | none => issueAhead u c s order []

/-- One controller cycle of a subchannel in service: the command laid down for it, else one that the accesses waiting ask for. -/
def ddrCycle (ct : Ctl) (u : Units) (c s : Nat) : Units :=
  let u := rfmOp (cycleStart u c s) c s
  let x := subOf u c s
  let u := match x.laid.find? fun l => l.at_ ≤ x.cyc with
    | some l => issueLaid u c s l
    | none => cycleIssue ct u c s
  let x := subOf u c s
  setSub u c s { x with cyc := x.cyc + 1 }

/-! ### Refresh share, temperature (R237 to R239) -/

/-- The refresh share in turns: ceil(64 × stall ÷ interval), at the rate admission counts (4× counts as 2×). -/
def refreshShare (u : Units) (c rate : Nat) : Nat :=
  let m := refMode u c
  let stall := if m = 0 then tRfc1 u c else if m = 1 then tRfc2 u c else tRfcsb u c
  let interval := (if m = 0 then tRefi1 u c else tRefi1 u c / 2) / (if 2 ≤ rate then 2 else 1)
  if interval = 0 then 0 else (64 * stall + interval - 1) / interval

/-- A refresh rate comes into force: the factor, the flags and the share; a change is the first cause of Table 4-5. -/
def putRate (u : Units) (c rate : Nat) : Units :=
  let d := ddr u c
  let was := d.rate
  let u := setDdr u c { d with rate := rate, polls := 0 }
  let u := putF u F.DDR5_n_STATE_rate_2x c 0 (if 2 ≤ rate then 1 else 0)
  let u := putF u F.DDR5_n_STATE_rate_4x c 0 (if 4 ≤ rate then 1 else 0)
  let u := putF u F.DDR5_n_STATE_ref c 0 (refreshShare u c rate)
  if (was = 1) = (rate = 1) then u else cause u 0

/-- The event of a DDR5 channel: DDR5_n_ERR and DDR5_n_PHY_ERR. -/
def ddrEvent (u : Units) (c : Nat) : Units := emitEvent u 7 c [evReg u .DDR5_n_ERR c, evReg u .DDR5_n_PHY_ERR c]

/-- Reading of a hub as the poll takes it: none for an empty slot, the limit for a hub that does not answer (R257). -/
def hubTemp (limit : Nat) : HubReading → Option Nat
  | .absent => none
  | .celsius t => some t
  | .noAnswer => some limit

/-- The reading of a slot: none where the presence probe found it empty; of a slot found present, one that gives none has not answered (R257). -/
def slotReading (u : Units) (c k : Nat) (r : HubReading) : HubReading :=
  if nbits (getF u F.DDR5_n_PHY_STATE_dimms c) k 1 = 0 then .absent else if r = .absent then .noAnswer else r

/-- Record one hub's reading in DDR5_n_HUB. -/
def recordHub (u : Units) (c k : Nat) (r : HubReading) : Units :=
  let limit := getF u F.DDR5_n_THERM_limit c
  let tf := if k = 0 then F.DDR5_n_HUB_temp_0 else F.DDR5_n_HUB_temp_1
  let lf := if k = 0 then F.DDR5_n_HUB_lost_0 else F.DDR5_n_HUB_lost_1
  match r with
  | .absent => u
  | .celsius t => putF (putF u tf c 0 t) lf c 0 0
  | .noAnswer => ddrEvent (flag (putF (putF u tf c 0 limit) lf c 0 1) F.DDR5_n_PHY_ERR_hub_lost c) c

/-- The refresh rate after a poll (R238, R239): `mr4` gives the rate that each rank's mode register 4 requires, as a multiple; 4× for as long as one requires more than 2×, 1× after 32 cool polls in a row. -/
def settleRate (u : Units) (c : Nat) (mr4 temps : List Nat) : Units :=
  let limit := getF u F.DDR5_n_THERM_limit c
  let cool := (mr4.all fun r => r ≤ 1) && temps.all fun t => t + 3 < limit
  let d := ddr u c
  if mr4.any fun r => 2 < r then
    if d.rate = 4 then u else blockFault (ddrEvent (putRate (flag u F.DDR5_n_ERR_rate_4x c) c 4) c) 2 c 0 0
  else if (mr4.any fun r => 1 < r) || temps.any fun t => limit ≤ t then putRate u c 2
  else if d.rate = 1 then u
  else
    let n := if cool then d.polls + 1 else 0
    let u := if d.rate = 4 then putRate u c 2 else u
    if 32 ≤ n then putRate u c 1 else setDdr u c { ddr u c with polls := n }

/-- The ranks of a channel. -/
def ranksOf (u : Units) : List Nat := List.range (2 ^ rkLog u)

/-- A temperature poll (R238): the mode registers are read by MRR in maintenance turns, the hubs over the sideband. -/
def thermPollOp (u : Units) (c : Nat) (mr4 : List Nat) (h0 h1 : HubReading) : Units :=
  let r0 := slotReading u c 0 h0
  let r1 := slotReading u c 1 h1
  let u := [0, 1].foldl (fun u s => (ranksOf u).foldl (fun u r => layMrr u c s r [4] (subOf u c s).cyc) u) u
  let u := recordHub (recordHub u c 0 r0) c 1 r1
  let temps := [r0, r1].filterMap (hubTemp (getF u F.DDR5_n_THERM_limit c))
  settleRate (putF u F.DDR5_n_THERM_temp_max c 0 (temps.foldl max 0)) c mr4 temps

/-! ### Back-off and write CRC (R241, R242, R270, R271) -/

/-- Ranks of a DIMM. -/
def dimmRanks (u : Units) (c dimm : Nat) : List Nat := (List.range (2 ^ rkLog u)).filter fun r => dimmOf u c r == dimm

/-- The back-off of one rank: commands go on within the window that the host is allowed; then the rank is precharged, after any refresh of it under way, and takes abo_count RFMab, each tRFC1 after the one before. It takes accesses again once ALERT_N is high, which is the devices' moment (R241). -/
def backoffRank (u : Units) (c s rank : Nat) : Units :=
  let (high, u) := takeFree u
  let x := subOf u c s
  let banks := rankBanks rank
  let window := x.cyc + Config.aboWindow (getF u F.DDR5_n_GEOM_rate c)
  let n := getF u F.DDR5_n_RFM_abo_count c
  let ended := (banks.map fun b => stallOver x b).foldl max 0
  let start := max (max window (closedFrom u c x banks - tRp u c)) (max ended (rankFrom x rank))
  let rfm : Nat → Laid := fun k => { at_ := tRp u c + k * tRfc1 u c, code := 6, rank := rank, banks := banks, len := tRfc1 u c, busy := tRfc1 u c + (if k + 1 = n then high else 0), refresh := true }
  let stop : Laid := { code := 8, rank := rank, banks := banks, limit := window + 1 }
  let at_ := freeStart u c { x with openRow := tabNil } (stop :: (List.range n).map rfm) 1 64 start
  let laid := (stop :: (List.range n).map rfm).map fun l => { l with at_ := at_ + l.at_ }
  setSub u c s { x with laid := x.laid ++ laid, backoffEnd := max x.backoffEnd (at_ + tRp u c + n * tRfc1 u c + high) }

/-- A back-off of every rank of a DIMM on one subchannel (R241, R242). -/
def backoffOp (u : Units) (c s dimm : Nat) : Units :=
  let u := (dimmRanks u c dimm).foldl (fun u r => backoffRank u c s r) u
  let u := putF u F.DDR5_n_STATE_backoff c 0 1
  let u := addSat u F.DDR5_n_ALERT_backoffs c 0 1
  ddrEvent (flag u F.DDR5_n_ERR_backoff c) c

/-- A WR replayed three times without success: the slice acts on what it carried (R271). A line that has left the way since, or has been written anew, is not touched. -/
def crcLost (ct : Ctl) (u : Units) (c : Nat) (a : DAcc) : Units :=
  let set := a.line / 16
  let w := a.line % 16 - 1
  let h := effHeader u c set
  let newer := (queuedWrite (subOf u c (lineSub a.line)) a.line).isSome
  let u :=
    if newer then u
    else if a.line % 16 = 0 then sealSet u c set
    else if a.dirty then (if wayState h w = 0 then u else poisonAt u c set w 7)
    else if wayState h w = 1 then changeHeader u c set (emptyWay h w) 3
    else u
  pumpSlice ct (ddrEvent (flag u F.DDR5_n_PHY_ERR_crc_fail c) c) c

/-- A short ALERT_N pulse with write CRC on: every kept WR of the DIMM is to be re-issued, oldest first, before any other column command to it (R270); one replayed three times is lost. -/
def crcAlertOp (ct : Ctl) (u : Units) (c s dimm : Nat) : Units :=
  let u := addSat u F.DDR5_n_CRC_alerts c 0 1
  let x := subOf u c s
  let mine := fun (a : DAcc) => dimmOf u c (lineRank u a.line) == dimm
  let spent := fun (a : DAcc) => mine a && decide (3 ≤ tabGet x.crcTries a.line)
  let lost := x.crcHeld.filter spent
  let again := x.crcHeld.filter fun a => mine a && !spent a
  let x := { x with
    crcHeld := (x.crcHeld.filter fun a => !spent a).map fun a => if mine a then { a with replay := true } else a,
    crcTries := again.foldl (fun t a => tabPut t a.line (tabGet t a.line + 1)) x.crcTries }
  let u := addSat (setSub u c s x) F.DDR5_n_CRC_replays c 0 again.length
  lost.foldl (fun u a => crcLost ct u c a) u

/-! ### Retraining (R264 to R266) -/

/-- Key of a device. -/
def oscKey (s rank dev : Nat) : Nat := (s * 16 + rank) * 16 + dev

/-- Run time of the oscillator in controller cycles: the largest multiple of 16 nCK that fits in 80 ns. -/
def oscRun (u : Units) (c : Nat) : Nat := 80 * 1000000 / tCkFs u c / 16 * 8

/-- A word of a DDR5 channel's trim groups, by its offset in the channel (Table 8-6). -/
def dramTrim (c off : Nat) : Nat := 0x400000 + c * 0x10000 + off

/-- Where the trim groups hold a device's write offset, its capture point, c₀ and the last c (R275). The spec gives the groups, not the places in them: DESIGN CHOICE, log entry 104. -/
def trimWrite (c key : Nat) : Nat := dramTrim c (0x9400 + 4 * key)
/-- See `trimWrite`. -/
def trimRead (c key : Nat) : Nat := dramTrim c (0xA000 + 4 * key)
/-- See `trimWrite`. -/
def trimBase (c key : Nat) : Nat := dramTrim c (0xB000 + 8 * key)
/-- See `trimWrite`. -/
def trimLast (c key : Nat) : Nat := dramTrim c (0xB004 + 8 * key)

/-- The write offset in force of a device, a of R265, in delay steps. -/
def offsetNow (u : Units) (c key : Nat) : Int := (trimRaw u (trimWrite c key)).toInt

/-- The write offset that training found, b of R265. -/
def offsetBase (u : Units) (c key : Nat) : Int :=
  (((ddr u c).bases.find? fun e => e.1 == key).map fun e => e.2).getD (Config.trimWord (trimWrite c key)).toInt

/-- A device's write drift, a − b. -/
def driftOf (u : Units) (c key : Nat) : Int := offsetNow u c key - offsetBase u c key

/-- Blackout of a rank for its oscillator (Table 8-3): PREab, the start on every device after tRP, the run; then the counts are read by MRR of mode registers 46 and 47. -/
def oscRetrainOp (u : Units) (c s rank : Nat) : Units :=
  let len := tRp u c + oscRun u c
  let u := blackoutOp u c s rank len [{ at_ := tRp u c, code := 14 }]
  let u := layMrr u c s rank [46, 47] ((subOf u c s).cyc + 1)
  addSat u F.DDR5_n_OSC_u_r_runs c (s * 8 + rank) 1

/-- Nearest whole number of n ÷ d, halves upward. -/
def roundDiv (n : Int) (d : Nat) : Int := (2 * n + d) / (2 * d)

/-- The device of a rank whose offset lies farthest from its trained one. -/
def worstDevice (u : Units) (c s rank : Nat) : Nat :=
  (List.range 10).foldl (fun b k => if (driftOf u c (oscKey s rank b)).natAbs < (driftOf u c (oscKey s rank k)).natAbs then k else b) 0

/-- Signed value in a field of 8 bits. -/
def signed8 (x : Int) : Nat := (x % 256).toNat

/-- DDR5_n_OSC_u_r shows the device with the largest drift of its rank. -/
def showDrift (u : Units) (c s rank : Nat) : Units :=
  let k := worstDevice u c s rank
  let u := putF u F.DDR5_n_OSC_u_r_drift c (s * 8 + rank) (signed8 (driftOf u c (oscKey s rank k)))
  putF u F.DDR5_n_OSC_u_r_device c (s * 8 + rank) k

/-- A device's oscillator count has been read (R265, R266). -/
def oscResultOp (u : Units) (c s rank dev cnt : Nat) : Units :=
  if cnt = 0 then flag u F.DDR5_n_PHY_ERR_osc_zero c
  else
    let key := oscKey s rank dev
    let b := offsetBase u c key
    let a := offsetNow u c key
    let target := roundDiv (b * ((trimRaw u (trimBase c key)).toNat : Int)) cnt
    let want := if a < target then min target (a + 2) else max target (a - 2)
    let (lo, hi) := Config.oscRange (c * 1024 + key)
    let new := max lo (min hi want)
    let limit := max 1 (getF u F.DDR5_n_RETRAIN_limit c)
    let u := putTrim (putTrim u (trimLast c key) (BitVec.ofNat 32 cnt)) (trimWrite c key) (BitVec.ofInt 32 new)
    let u := showDrift u c s rank
    if new ≠ want ∨ ((new - b).natAbs ≥ limit ∧ (a - b).natAbs < limit) then
      let u := ddrEvent (flag u F.DDR5_n_PHY_ERR_drift c) c
      notice u 4 (c * 2 ^ 8 + (s + rank * 2) * 2 ^ 24 + dev * 2 ^ 32)
    else u

/-! ### What training finds (R260, R267) -/

/-- The first eye that misses its criterion (Table 8-1): steps 8 to 10. -/
def narrowEye (u : Units) (c : Nat) (eyes : List EyeFound) : Option EyeFound :=
  eyes.find? fun e =>
    8 ≤ e.step && e.step ≤ 10 &&
      (decide (e.width < (if e.step = 8 then getF u F.DDR5_n_PHY_CFG_rd_min c else getF u F.DDR5_n_PHY_CFG_wr_min c)) || decide (e.vref < getF u F.DDR5_n_PHY_CFG_vref_min c))

/-- A setting found lies in the trim groups of a DDR5 channel. -/
def isDramTrim (off : Nat) : Bool := 0x9000 ≤ off && off < 0x10000 && off % 4 == 0

/-- The count of step 11 of a device is zero. -/
def zeroBase (trims : List (Nat × Word)) : Bool := trims.any fun x => 0xB000 ≤ x.1 && x.1 < 0xC000 && x.1 % 8 == 0 && x.2 == 0

/-- What makes a training of a DDR5 channel fail although every step has run: an eye below its criterion (NARROW), or a zero count in step 11 (OSC_ZERO): step, result and place. -/
def trainMiss (u : Units) (c : Nat) (eyes : List EyeFound) (trims : List (Nat × Word)) : Option (Nat × Nat × Nat) :=
  match narrowEye u c eyes with
  | some e => some (e.step, 3, e.place)
  | none => if zeroBase trims then some (11, 5, 0) else none

/-- The settings that training found come into force: the trim words, with them the write offsets as new baselines; every rank's drift is what the two give. -/
def storeTrims (u : Units) (c : Nat) (trims : List (Nat × Word)) : Units :=
  let l := trims.filter fun x => isDramTrim x.1
  let u := l.foldl (fun u x => putTrim u (dramTrim c x.1) x.2) u
  let found := (l.filter fun x => 0x9400 ≤ x.1 && x.1 < 0x9C00).map fun x => ((x.1 - 0x9400) / 4, x.2.toInt)
  let d := ddr u c
  let clear := fun (x : Sub) => { x with tracked := [] }
  let u := setDdr u c { d with sub0 := clear d.sub0, sub1 := clear d.sub1, bases := found ++ d.bases.filter fun e => !found.any fun y => y.1 == e.1 }
  [0, 1].foldl (fun u s => (ranksOf u).foldl (fun u r => putF (putF u F.DDR5_n_OSC_u_r_drift c (s * 8 + r) 0) F.DDR5_n_OSC_u_r_device c (s * 8 + r) 0) u) u

/-! ### Patch table (R247, R248) -/

/-- Line number of a location: rank, bank index, row and burst (the column divided by 16). -/
def lineAt (u : Units) (s rank bank row burst : Nat) : Nat :=
  ((row * 2 ^ rkLog u + rank) * 512 + bank * 16 + s * 8 + burst / 16) * 16 + burst % 16

/-- The line as the subchannel would answer it now: the newest queued write, else DRAM. -/
def lineNow (u : Units) (c line : Nat) : BitVec 512 := (queuedWrite (subOf u c (lineSub line)) line).getD (storedDram u c line)

/-- The patch record of a DRAM line (Table 13-6). -/
def dramRecord (u : Units) (c line : Nat) : Nat :=
  c * 2 + lineSub line * 2 ^ 5 + lineRank u line * 2 ^ 6 + lineBank line * 2 ^ 10 + lineCol line / 16 * 2 ^ 15 + lineRow u line * 2 ^ 22

/-- Put a patch entry into its table, and its record at the end of the order of R419. -/
def putPatch (u : Units) (c : Nat) (p : Patch) : Units :=
  let x := subOf u c (lineSub p.line)
  { setSub u c (lineSub p.line) { x with patches := x.patches ++ [p] } with patchLog := u.patchLog ++ [dramRecord u c p.line] }

/-- The queued writes of a location issue now (R248 step 2), oldest first. -/
def issueWrites (u : Units) (c line : Nat) : Units :=
  let s := lineSub line
  let x := subOf u c s
  let u := setSub u c s { x with held := x.held.filter fun a => a.line != line }
  let late : List DAcc := x.held.map fun a => { a with seq := x.seq }
  ((x.wq ++ late).filter fun a => a.line == line).foldl (fun u a => issueColumn u c s a) u

/-- Add a patch entry: the queued writes of its location issue, and the location is read once through the code, which gave this answer; false where the table is full. -/
def addPatch (u : Units) (c line : Nat) (err : BitVec 640) : Bool × Units :=
  let x := subOf u c (lineSub line)
  if x.patches.any fun p => p.line == line then (true, u)
  else if 8 ≤ x.patches.length then (false, flag u F.DDR5_n_ERR_patch_full c)
  else
    let u := issueWrites u c line
    let b := bankKey u line
    let u := ddrOut u c (lineSub line) 1 (b / 32) (b % 32) (lineRow u line) (lineCol line)
    match dramDecode u err with
    | (.uncorrectable, u) => (true, putPatch u c { line := line, poisoned := true, spare := lineNow u c line })
    | (.other l, u) => (true, putPatch u c { line := line, spare := l })
    | (_, u) => (true, putPatch u c { line := line, spare := lineNow u c line })

/-! ### The commands -/

/-- A subchannel of a channel in service. -/
def subRuns (u : Units) (c s : Nat) : Bool := s < 2 && inService u c

/-- A rank of such a subchannel. -/
def rankRuns (u : Units) (c s rank : Nat) : Bool := subRuns u c s && rank < 2 ^ rkLog u

/-- DDR5_COMMAND_ISSUE (R226): one controller cycle of a subchannel; nothing on a channel out of service. -/
def execDdr5CommandIssue (ch sub : Nat) (s : State) : Host.Outcome State Fault Refusal :=
  onU s fun c u => if subRuns u ch sub then ddrCycle c u ch sub else u

/-- DDR5_READ_RETURN (R395): the oldest RD in flight is captured, decoded with this error pattern, and answered. -/
def execDdr5ReadReturn (ch sub : Nat) (err : BitVec 640) (s : State) : Host.Outcome State Fault Refusal :=
  onU s fun c u =>
    let x := subOf u ch sub
    match x.inflight with
    | [] => u
    | a :: t => if sub < 2 then settleRead c (trackRead (setSub u ch sub { x with inflight := t }) ch sub a) ch a err else u

/-- REFRESH_DUE (R235): the timer of a rank has come to its due time. -/
def execRefreshDue (ch sub rank : Nat) (s : State) : Host.Outcome State Fault Refusal :=
  onU s fun _ u => if rankRuns u ch sub rank && refreshFalls (subOf u ch sub) rank then refreshOp u ch sub rank else u

/-- ROW_CLOSE_IDLE (R228): a bank idle for close_idle controller cycles is closed. -/
def execRowCloseIdle (ch sub rank bank : Nat) (s : State) : Host.Outcome State Fault Refusal :=
  onU s fun _ u =>
    let x := subOf u ch sub
    let b := rank * 32 + bank
    let n := getF u F.DDR5_n_SCHED_close_idle ch
    if rankRuns u ch sub rank ∧ bank < 32 ∧ canPre u ch x b x.cyc ∧ since x.cyc (tabGet x.tAct b) n ∧ since x.cyc (tabGet x.tRd b) n ∧ since x.cyc (tabGet x.tWr b) n
    then issuePre u ch sub b else u

/-- THERM_POLL (R238). -/
def execThermPoll (ch : Nat) (mr4 : List Nat) (hub0 hub1 : HubReading) (s : State) : Host.Outcome State Fault Refusal :=
  onU s fun _ u => if inService u ch then thermPollOp u ch mr4 hub0 hub1 else u

/-- ALERT_BACKOFF (R241). -/
def execAlertBackoff (ch sub dimm : Nat) (s : State) : Host.Outcome State Fault Refusal :=
  onU s fun _ u => if subRuns u ch sub ∧ dimmRanks u ch dimm ≠ [] then backoffOp u ch sub dimm else u

/-- CRC_ALERT (R270); with write CRC off every assertion of ALERT_N is a request for back-off (R241). -/
def execCrcAlert (ch sub dimm : Nat) (s : State) : Host.Outcome State Fault Refusal :=
  onU s fun c u =>
    if subRuns u ch sub ∧ dimmRanks u ch dimm ≠ [] then
      (if writeCrc u ch then crcAlertOp c u ch sub dimm else backoffOp u ch sub dimm)
    else u

/-- A DDR5_n_SCHED value within its ranges. -/
def schedOk (v : Nat) : Bool := 1 ≤ nbits v 0 8 && 1 ≤ nbits v 20 8 && nbits v 14 6 < nbits v 8 6
/-- A DDR5_n_THERM value within its ranges. -/
def thermOk (v : Nat) : Bool := 60 ≤ nbits v 0 8 && nbits v 0 8 ≤ 95 && 1 ≤ nbits v 8 4

/-- The write of DDR5_n_SCHED or DDR5_n_THERM: a value out of range keeps the previous one and sets sched_cfg. -/
def schedWriteOp (u : Units) (c : Nat) (therm : Bool) (v : Nat) : Units :=
  if therm then
    if thermOk v then putReg u .DDR5_n_THERM c 0 (nput (rawReg u .DDR5_n_THERM c) 0 12 v) else flag u F.DDR5_n_ERR_sched_cfg c
  else if schedOk v then putReg u .DDR5_n_SCHED c 0 (nput (rawReg u .DDR5_n_SCHED c) 0 28 v) else flag u F.DDR5_n_ERR_sched_cfg c

/-- Fine-granularity refresh is set in mode register 4 of every rank as MOUNT brings refresh mode 1 into force (Tables 7-2, 7-4). -/
def setFine (u : Units) (c : Nat) : Units :=
  if refMode u c = 1 then [0, 1].foldl (fun u s => (ranksOf u).foldl (fun u r => ddrOut u c s 12 r 0 4 1) u) u else u

/-! ### Self-refresh (R250, R251) -/

/-- One rank enters self-refresh: its postponed refresh issues, then PREab, then, after tRP, the entry. -/
def sleepRank (u : Units) (c s rank : Nat) : Units :=
  let x := subOf u c s
  let parts := if x.postponed.contains rank then refreshParts u c rank else []
  let u := parts.foldl (fun u l => issueLaid u c s l) u
  ddrOut u c s 8 rank 0 0 0

/-- One subchannel enters self-refresh: every rank's row is closed, and each rank enters in turn. -/
def sleepSub (u : Units) (c s : Nat) : Units :=
  let u := (ranksOf u).foldl (fun u r => sleepRank u c s r) u
  let u := (ranksOf u).foldl (fun u r => ddrOut u c s 10 r 0 0 0) u
  let x := subOf u c s
  setSub u c s { x with openRow := tabNil, postponed := [], laid := [], crcHeld := [], crcTries := tabNil, refAt := tabNil, rankBusy := tabNil, actBusy := tabNil, owed := [] }

/-- A channel in service enters self-refresh (Table 7-6). -/
def sleepChannel (u : Units) (c : Nat) : Units :=
  if inService u c = false then u else putF (sleepSub (sleepSub u c 0) c 1) F.DDR5_n_STATE_state c 0 3

/-- One subchannel leaves self-refresh: the exit on each rank; after tXS the ZQ calibration and the MRR of mode register 4; its clock stands at the first round after tXS_DLL. -/
def wakeSub (u : Units) (c s : Nat) : Units :=
  let each := fun (u : Units) (code row : Nat) => (ranksOf u).foldl (fun u r => ddrOut u c s code r 0 row 0) u
  let u := each (each (each (each u 11 0) 15 0) 16 0) 13 4
  let x := subOf u c s
  let late := max (tim u c 6 16 16) (tim u c 7 0 12)
  setSub u c s { x with cyc := (x.cyc + late + 511) / 512 * 512 }

/-- A channel leaves self-refresh (Table 7-7): mode register 4 settles the refresh rate, the refresh timers restart, and the first maintenance request is an oscillator read. What the register reports is the devices' own: a free value. -/
def wakeChannel (u : Units) (c : Nat) : Units :=
  if getF u F.DDR5_n_STATE_state c ≠ 3 then u
  else
    let (n, u) := takeFree (wakeSub (wakeSub u c 0) c 1)
    let mr4 := 2 ^ (n % 3)
    let u := if mr4 = 1 then u else settleRate u c [mr4] []
    let d := ddr u c
    let u := startRefresh (setDdr u c { d with calNext := 0, calAt := u.now - 25000 * getF u F.DDR5_n_RETRAIN_period c }) c
    putF u F.DDR5_n_STATE_state c 0 2

/-- A write of DDR5_n_TIM_k: its fields, from the next command on (R233), and the refresh share with them (R237). -/
def timWriteOp (u : Units) (c k v : Nat) : Units :=
  let mask := if k = 4 ∨ k = 5 then 0x0FFF0FFF else if k = 7 then 0xFFFF else 0xFFFFFFFF
  let u := putReg u .DDR5_n_TIM_k c k (v &&& mask)
  putF u F.DDR5_n_STATE_ref c 0 (refreshShare u c (ddr u c).rate)

/-- The calibration requester holds the channel's grant, and this rank is the next in turn (R264). The order within a channel is the model's choice: subchannel 0, then 1, of rank after rank (log entry 105). -/
def calHolds (u : Units) (c s rank : Nat) : Bool := (tabGet u.arbs c).holder == 3 && (ddr u c).calNext == rank * 2 + s

/-- The next rank in turn falls due one period later; the grant ends with its one blackout. -/
def calDone (u : Units) (c : Nat) : Units :=
  let d := ddr u c
  endGrant (setDdr u c { d with calNext := (d.calNext + 1) % (2 * 2 ^ rkLog u), calAt := u.now }) c 3

/-- OSC_RETRAIN (R264), under the grant of the channel's arbiter: a period of 0 stops periodic retraining. -/
def execOscRetrain (ch sub rank : Nat) (s : State) : Host.Outcome State Fault Refusal :=
  onU s fun _ u => if rankRuns u ch sub rank ∧ getF u F.DDR5_n_RETRAIN_period ch ≠ 0 ∧ calHolds u ch sub rank then calDone (oscRetrainOp u ch sub rank) ch else u

/-- OSC_RESULT (R265). -/
def execOscResult (ch sub rank dev cnt : Nat) (s : State) : Host.Outcome State Fault Refusal :=
  onU s fun _ u => if rankRuns u ch sub rank ∧ dev < 10 then oscResultOp u ch sub rank dev cnt else u

end Sys2Proof.Machine
end

