-- ==== Sys2Proof/Machine/Hinge.lean ====
section
/-! DEFINITION. The hinge unit and the drift unit (chapters "Hinge Table, Pip Table and Region Moves", "Drift and Reroll"): the tables, the journal, placement, the pool, region moves, die failure, age epochs and read-reference codes. -/

namespace Sys2Proof.Machine

/-! ### The tables (Tables 11-1, 11-2) -/

/-- The hinge entry of a region; one never changed since a first boot names PRN l and is fresh (R368). -/
def hingeEntry (u : Units) (l : Nat) : Nat := if u.hng.mounted then tabGetD u.hng.hinge l (l + 2 ^ 23) else 0

/-- prn. -/
def hPrn (e : Nat) : Nat := nbits e 0 23
/-- fresh. -/
def hFresh (e : Nat) : Bool := nbits e 23 1 == 1
/-- moving. -/
def hMoving (e : Nat) : Bool := nbits e 24 1 == 1
/-- lost. -/
def hLost (e : Nat) : Bool := nbits e 25 1 == 1

/-- The pip entry that a first boot gives a physical region: the current epoch, state 3 for a home region, 1 for a spare (R368). -/
def pipFirst (u : Units) (p : Nat) : Nat :=
  u.hng.bootEpoch % 32 * 2 ^ 46 + u.hng.bootEpoch % 32 * 2 ^ 51 + (if p < nRegions u.v then 3 else 1) * 2 ^ 56

/-- Stripe group of a PRN (R28). -/
def prnGroup (v : Variant) (p : Nat) : Nat := if p < nRegions v then p / 65536 else (p - nRegions v) / 2048
/-- Slot of a PRN. -/
def prnSlot (v : Variant) (p : Nat) : Nat := if p < nRegions v then p % 65536 else 65536 + (p - nRegions v) % 2048

/-- State of a stripe group: 0 healthy, 1 rebuilding, 2 degraded, 3 lost. -/
def groupState (u : Units) (s : Nat) : Nat := getF u F.HNG_GROUP_s_state s

/-- The pip entry of a physical region. The pool regions of a group that is not healthy are dead (R358). -/
def pipEntry (u : Units) (p : Nat) : Nat :=
  if u.hng.mounted then
    let e := tabGetD u.hng.pip p (pipFirst u p)
    if nbits e 56 3 ≤ 1 ∧ groupState u (prnGroup u.v p) ≠ 0 then nput e 56 3 6 else e
  else 0

/-- wear. -/
def pWear (e : Nat) : Nat := nbits e 0 24
/-- gen. -/
def pGen (e : Nat) : Nat := nbits e 24 16
/-- spin. -/
def pSpin (e : Nat) : Nat := nbits e 40 6
/-- oldest. -/
def pOldest (e : Nat) : Nat := nbits e 46 5
/-- newest. -/
def pNewest (e : Nat) : Nat := nbits e 51 5
/-- state. -/
def pState (e : Nat) : Nat := nbits e 56 3
/-- tally. -/
def pTally (e : Nat) : Nat := nbits e 59 5

/-- Regions in the pool. -/
def poolCount (u : Units) : Nat := ((List.range (nStripes u.v)).map fun s => tabGet u.hng.poolN s).sum

/-- Raw regions. -/
def rawCount (u : Units) : Nat := ((List.range (nStripes u.v)).map fun s => tabGet u.hng.rawN s).sum

/-- A physical region is in the pool: state 0 or 1, and joined (R346, R352). -/
def inPool (u : Units) (p : Nat) : Bool := pState (pipEntry u p) ≤ 1 && !(u.hng.limbo.any fun x => x.1 == p)

/-! ### Journal (R362 to R364) -/

/-- Close the open block: it takes the next sequence number and is written. -/
def closeBlock (u : Units) : Units :=
  let h := u.hng
  if h.open_ = [] then u
  else { u with hng := { h with writing := h.writing ++ [⟨h.seq, h.open_⟩], seq := h.seq + 1, open_ := [], since := h.since + 1 } }

/-- Append an entry; a block of 31 entries is written at once. -/
def journal (u : Units) (typ idx value aux : Nat) : Units :=
  let h := u.hng
  let u := { u with hng := { h with open_ := h.open_ ++ [⟨typ, idx, value, aux⟩], openAt := if h.open_ = [] then u.now else h.openAt } }
  if u.hng.open_.length = 31 then closeBlock u else u

/-- A close point: every entry appended so far lies in a block below the number given back; the open block is written because something waits on it. -/
def closePoint (u : Units) : Nat × Units :=
  let u := closeBlock u
  (u.hng.seq, u)

/-- Every block below a number is durable. -/
def durableBelow (u : Units) (n : Nat) : Bool := n ≤ u.hng.seq && u.hng.writing.all fun b => n ≤ b.seq

/-- The 128 bits of an entry (R363). -/
def entryBits (e : JEntry) : BitVec 128 := BitVec.ofNat 128 (e.typ + e.idx * 2 ^ 8 + e.value * 2 ^ 32 + e.aux * 2 ^ 96)

/-- The 512 bytes of a block (Table 11-8), its CRC-32C over bytes 0 to 11 and 16 to 511. -/
def blockBytes (b : JBlock) : List Nat :=
  let head := toBytes 2 0x4A48 ++ [b.entries.length, 0] ++ toBytes 6 b.seq ++ [0, 0]
  let body := (b.entries.flatMap fun e => toBytes 16 (entryBits e).toNat) ++ List.replicate (16 * (31 - b.entries.length)) 0
  head ++ toBytes 4 (crc32c (head ++ body)) ++ body

/-- The keep stripe of a block: stripe group and k (R362). -/
def blockPlace (v : Variant) (n : Nat) : Nat × Nat := (n % nStripes v, 16384 + n / nStripes v % 16760832)

/-- A released region joins the pool once its block is durable and no read forwarded to it is outstanding. -/
def joinPool (u : Units) : Units :=
  u.hng.limbo.foldl (fun u x =>
    let busy := (u.net.any fun k => k.typ == .fillFwd && k.prn == x.1) || (List.range (nGroups u.v)).any fun g => (tabGet u.grp g).reads.any fun r => r.pkt.prn == x.1
    if durableBelow u (x.2 + 1) && !busy then
      let s := prnGroup u.v x.1
      let h := u.hng
      { u with hng := { h with limbo := h.limbo.erase x, poolN := if pState (pipEntry u x.1) ≤ 1 then tabPut h.poolN s (tabGet h.poolN s + 1) else h.poolN } }
    else u) u

/-! ### Events and notices of the hinge unit -/

/-- The event of the hinge unit: HNG_ERR and a die position, 15 for none. -/
def hingeEvent (u : Units) (s pos : Nat) : Units := emitEvent u 0xA s [evReg u .HNG_ERR, BitVec.ofNat 32 pos]

/-- A CAPACITY notice. -/
def capacityNotice (u : Units) (cause s pos : Nat) : Units := notice u 5 (cause + s * 2 ^ 8 + pos * 2 ^ 16 + poolCount u * 2 ^ 32)

/-- The pool count has fallen below the reserve, or has returned to it (R355). -/
def checkPool (u : Units) : Units :=
  if poolCount u < inF u F.HNG_CFG_reserve then
    if u.hng.lowArmed then
      let u := { u with hng := { u.hng with lowArmed := false } }
      capacityNotice (hingeEvent (flag u F.HNG_ERR_pool_low) 0 15) 1 0 15
    else u
  else { u with hng := { u.hng with lowArmed := true } }

/-- Mark the progress of a descriptor: a status for its completion. -/
def descMark (u : Units) (ring idx status : Nat) : Units :=
  let r := tabGet u.rings.ring ring
  { u with rings := { u.rings with ring := tabPut u.rings.ring ring { r with descs := r.descs.map fun x => if x.idx = idx then { x with prog := x.prog ++ [status] } else x } } }

/-! ### Changing the tables -/

/-- Store the first result of a descriptor under way. -/
def descResult (u : Units) (ring idx r0 : Nat) : Units :=
  let r := tabGet u.rings.ring ring
  { u with rings := { u.rings with ring := tabPut u.rings.ring ring { r with descs := r.descs.map fun x => if x.idx = idx then { x with r0 := r0 } else x } } }

/-- The age count a region belongs to (R372): its oldest value, where it is in state 2, neither fresh nor lost. -/
def ageKey (u : Units) (l : Nat) : Option Nat :=
  let e := hingeEntry u l
  let p := pipEntry u (hPrn e)
  if pState p = 2 ∧ hFresh e = false ∧ hLost e = false then some (pOldest p) else none

/-- Apply a change to a region and keep the age counts in step. -/
def recount (u : Units) (l : Nat) (f : Units → Units) : Units :=
  let a := ageKey u l
  let u := f u
  let b := ageKey u l
  let t := u.drf.ages
  let t := match a with
    | some x => tabPut t x (tabGet t x - 1)
    | none => t
  let t := match b with
    | some x => tabPut t x (tabGet t x + 1)
    | none => t
  { u with drf := { u.drf with ages := t } }

/-- Write a hinge entry and append it to the journal. -/
def putHinge (u : Units) (l e : Nat) : Units :=
  journal { u with hng := { u.hng with hinge := tabPutD u.hng.hinge l (l + 2 ^ 23) e } } 1 l e 0

/-- Set or clear moving, which MOVE_START and MOVE_END carry in the journal. -/
def setMoving (u : Units) (l : Nat) (on : Bool) : Units :=
  { u with hng := { u.hng with hinge := tabPutD u.hng.hinge l (l + 2 ^ 23) (nput (hingeEntry u l) 24 1 (bit on)) } }

/-- Change the counts of a group as a region goes from one state to another. -/
def moveCounts (u : Units) (p old new : Nat) (joined : Bool) : Units :=
  let s := prnGroup u.v p
  let h := u.hng
  let adj := fun (t : Tab Nat) (a b : Bool) => tabPut t s (tabGet t s + (if b then 1 else 0) - (if a then 1 else 0))
  { u with hng := { h with
      poolN := adj h.poolN (old ≤ 1 && joined) (new ≤ 1 && joined),
      rawN := adj h.rawN (old == 1 || old == 3) (new == 1 || new == 3),
      occN := adj h.occN (old == 2 || old == 3) (new == 2 || new == 3),
      retired := h.retired + (if new = 5 ∧ old ≠ 5 then 1 else 0), dead := h.dead + (if new = 6 ∧ old ≠ 6 then 1 else 0) } }

/-- Write a pip entry, in or out of the pool, and append it to the journal. -/
def putPip (u : Units) (p e : Nat) (joined : Bool := true) : Units :=
  let old := pState (pipEntry u p)
  let u := moveCounts u p old (pState e) joined
  let u := journal { u with hng := { u.hng with pip := tabPutD u.hng.pip p (pipFirst u p) e } } 2 p e 0
  let s := prnGroup u.v p
  checkPool (if groupState u s = 0 then u else putF u F.HNG_GROUP_s_remaining s 0 (tabGet u.hng.occN s))

/-- Change the tally only, which is not journalled. -/
def putTally (u : Units) (p n : Nat) : Units :=
  let e := tabGetD u.hng.pip p (pipFirst u p)
  { u with hng := { u.hng with pip := tabPutD u.hng.pip p (pipFirst u p) (nput e 59 5 n) } }

/-- A stripe write adds 1 to the region's wear with a probability of 9/65,536, decided by an LFSR whose taps the spec does not give: a free value (R341). -/
def addWear (u : Units) (p : Nat) : Units :=
  let (n, u) := takeFree u
  if n % 65536 < 9 then
    let e := pipEntry u p
    if pWear e < 2 ^ 24 - 1 then putPip u p (nput e 0 24 (pWear e + 1)) else u
  else u

/-! ### Drift: ages, buckets, codes (R371 to R376) -/

/-- Age of a pip value, in epochs. -/
def ageOf (u : Units) (x : Nat) : Nat := (u.drf.e % 32 + 32 - x % 32) % 32

/-- Lower bound L_b of an age bucket in force. -/
def bucketBound (u : Units) (b : Nat) : Nat :=
  if b = 0 then 0 else if b ≤ 6 then nbits (bankReg u u.regs.epoch .DRF_BKT_LO) (5 * (b - 1)) 5 else inF u F.DRF_BKT_HI_l7

/-- Age bucket of an age (R374). -/
def ageBucket (u : Units) (a : Nat) : Nat := ((List.range 7).filter fun b => bucketBound u (b + 1) ≤ a).length

/-- Wear bucket of a wear value (R375). -/
def wearBucket (u : Units) (w : Nat) : Nat :=
  ((List.range 3).filter fun k => nbits (bankReg u u.regs.epoch .DRF_WEAR) (8 * k) 8 * 65536 ≤ w).length

/-- Code of the drift map (R380). -/
def driftCode (u : Units) (s w b : Nat) : Nat := nbits (tabGet u.drf.map (s * 4 + w)) (4 * b) 4

/-- A region's two ages lie in different buckets (R376). -/
def isSplit (u : Units) (p : Nat) : Bool :=
  let e := pipEntry u p
  ageBucket u (ageOf u (pNewest e)) != ageBucket u (ageOf u (pOldest e))

/-- The code a read carries first, and the code of the oldest bucket where the region is split (R376). -/
def readCodes (u : Units) (p : Nat) : Nat × Option Nat :=
  let e := pipEntry u p
  let s := prnGroup u.v p
  let w := wearBucket u (pWear e)
  let old := driftCode u s w (ageBucket u (ageOf u (pOldest e)))
  if isSplit u p then (driftCode u s w (ageBucket u (ageOf u (pNewest e))), some old) else (old, none)

/-- The event of the drift unit. -/
def driftEvent (u : Units) (inst : Nat) : Units := emitEvent u 0xB inst [evReg u .DRF_ERR, BitVec.ofNat 32 u.drf.e]

/-! ### Placement (R30, R31, R345, R351) -/

/-- Stripe index within a physical region of logical stripe t at a spin. -/
def spinStripe (t spin : Nat) : Nat := (t + 256 * spin) % 16384

/-- Die line address of logical stripe t of a region that lies at PRN p. -/
def stripeDla (u : Units) (p t : Nat) : Nat := prnSlot u.v p * 16384 + spinStripe t (pSpin (pipEntry u p))

/-- Die position of data line j of the stripe at a die line address (R31). -/
def dataPos (dla j : Nat) : Nat := (dla % 9 + 1 + j) % 9

/-- The data line at a die position, 8 for the parity line. -/
def posLine (dla q : Nat) : Nat := (q + 9 - dla % 9 + 8) % 9

/-- The active slot that moves a region. -/
def moveOf (u : Units) (l : Nat) : Option Nat :=
  u.hng.active.find? fun i => let m := tabGet u.hng.slots i; m.region == l && m.cause ≤ 6

/-- The physical region at which a stripe of a region lies now: at the target below the cursor of a move, else where the hinge entry says. -/
def placeOf (u : Units) (l t : Nat) : Nat :=
  let e := hingeEntry u l
  match (if hMoving e then moveOf u l else none) with
  | some i => let m := tabGet u.hng.slots i; if t < m.cursor then m.tgt else m.src
  | none => hPrn e

/-- A region whose table words are out of use (Table 13-5). -/
def badRegion (u : Units) (l : Nat) : Bool := u.hng.badHinge.contains (l / 2) || u.hng.badPip.contains (hPrn (hingeEntry u l))

/-- Pin and release of a stripe. -/
def pinStripe (u : Units) (l t : Nat) : Units := { u with hng := { u.hng with pins := u.hng.pins ++ [l * 16384 + t] } }
/-- A stripe's region lies within held lines: a trim holds its placement requests (Table 11-6). -/
def regionHeld (u : Units) (l : Nat) : Bool := u.stg.holds.any fun h => 131072 ≤ h.2 && h.1 ≤ l * 131072 && l * 131072 < h.1 + h.2

/-! ### The pool and targets (R346, R347) -/

/-- Insert into a list ordered by wear, then PRN. -/
def insertWear (x : Nat × Nat) : List (Nat × Nat) → List (Nat × Nat)
  | [] => [x]
  | y :: t => if x.1 < y.1 ∨ (x.1 = y.1 ∧ x.2 < y.2) then x :: y :: t else y :: insertWear x t

/-- A physical region that a slot holds. -/
def slotHolds (u : Units) (p : Nat) : Bool :=
  u.hng.trimHeld.contains p || u.hng.active.any fun i => let m := tabGet u.hng.slots i; m.tgt == p || (7 ≤ m.cause && m.src == p)

/-- Pool-cache entries that may be targets. -/
def candidates (u : Units) : List (Nat × Nat) :=
  (match u.hng.cacheTop with
   | some x => if u.hng.cache.contains x then u.hng.cache else u.hng.cache ++ [x]
   | none => u.hng.cache).filter fun x => groupState u (prnGroup u.v x.2) == 0 && inPool u x.2 && !slotHolds u x.2

/-- The target of a move of a cause (R347). A candidate whose generation is 0xFFFE goes to state 4 and the choice is made again (R349). -/
def chooseTarget (u : Units) (cause : Nat) : Option Nat :=
  let c := (candidates u).filter fun x => pGen (pipEntry u x.2) != 0xFFFE
  if (cause = 5 ∨ cause = 6) ∧ poolCount u < inF u F.HNG_CFG_reserve then none
  else if cause = 6 then
    ((c.filter fun x => x.1 < 0xFFFFFF).foldl (fun b x => match b with
      | none => some x
      | some y => if y.1 < x.1 ∨ (y.1 = x.1 ∧ x.2 < y.2) then some x else some y) none).map fun x => x.2
  else
    (c.foldl (fun b x => match b with
      | none => some x
      | some y => if x.1 < y.1 ∨ (x.1 = y.1 ∧ x.2 < y.2) then some x else some y) none).map fun x => x.2

/-- Candidates at generation 0xFFFE leave the pool for a sweep. -/
def sweepStale (u : Units) : Units :=
  ((candidates u).filter fun x => pGen (pipEntry u x.2) == 0xFFFE).foldl (fun u x => putPip u x.2 (nput (pipEntry u x.2) 56 3 4)) u

/-- The first n spares from p on that are not listed and lie in healthy groups; they are all of wear 0. -/
def freshSpares (u : Units) : Nat → Nat → Nat → List Nat
  | 0, _, _ => []
  | _, 0, _ => []
  | fuel + 1, n + 1, p =>
    if nPhys u.v ≤ p then []
    else if groupState u (prnGroup u.v p) = 0 ∧ (tabFind p u.hng.pip.cells).isNone then p :: freshSpares u fuel n (p + 1)
    else freshSpares u fuel (n + 1) (p + 1)

/-- One whole pool scan: the 1,024 regions of least wear, and the one of most. -/
def scanPool (u : Units) : Units :=
  let listed := ((tabKeys u.hng.pip).filter fun p => inPool u p).map fun p => (pWear (pipEntry u p), p)
  let all := listed ++ (freshSpares u (2048 * nStripes u.v) 1024 (nRegions u.v)).map fun p => (0, p)
  let cache := all.foldl (fun l x => (insertWear x l).take 1024) []
  let top := all.foldl (fun (b : Option (Nat × Nat)) x => match b with
    | none => some x
    | some y => if y.1 < x.1 ∨ (y.1 = x.1 ∧ x.2 < y.2) then some x else some y) none
  { u with hng := { u.hng with cache := cache, cacheTop := top, freed := [] } }

/-- The target of a re-point in one pass over a whole group (R359, R360): where the pool cache is used up while the pool still holds regions, the pass waits for the next pool scan. -/
def scanTarget (u : Units) (cause : Nat) : Option Nat × Units :=
  match chooseTarget u cause with
  | some t => (some t, u)
  | none =>
    if poolCount u = 0 then (none, u)
    else
      let u := scanPool u
      (chooseTarget u cause, u)

/-- Add due work, once for each cause and place. -/
def addWork (u : Units) (w : Work) : Units :=
  let same := fun (y : Work) => y.cause == w.cause && y.region == w.region && (w.cause < 7 || y.prn == w.prn)
  let held := u.hng.active.any fun i => let m := tabGet u.hng.slots i; m.cause == w.cause && m.region == w.region && (w.cause < 7 || m.src == w.prn)
  if held then u
  else if u.hng.due.any same then
    { u with hng := { u.hng with due := u.hng.due.map fun y => if same y then { y with urgent := y.urgent || w.urgent } else y } }
  else { u with hng := { u.hng with due := u.hng.due ++ [w] } }

/-- Release the physical region S (R352). -/
def releaseRegion (u : Units) (p : Nat) : Units :=
  let e := pipEntry u p
  if groupState u (prnGroup u.v p) ≠ 0 then putPip u p (nput e 56 3 6)
  else if pWear e = 0xFFFFFF then
    let u := flag (putPip u p (nput e 56 3 5)) F.HNG_ERR_retired
    hingeEvent u (prnGroup u.v p) 15
  else if pGen e = 0xFFFE then putPip u p (nput e 56 3 4)
  else
    let u := { u with hng := { u.hng with limbo := u.hng.limbo ++ [(p, u.hng.seq)], freed := u.hng.freed ++ [p] } }
    putPip u p (nput (nput e 56 3 0) 59 5 0) false

/-- The pip entry of a target as a move or re-point begins (R349 step 2). -/
def targetPip (u : Units) (src tgt : Nat) (state : Nat) : Nat :=
  let t := pipEntry u tgt
  let e := u.drf.e % 32
  nput (nput (nput (nput (nput (nput t 24 16 (pGen t + 1)) 40 6 ((pSpin (pipEntry u src) + 1) % 64)) 46 5 e) 51 5 e) 56 3 state) 59 5 0

/-- Re-point a region whose physical region is S to T: no stripe is copied (R349). -/
def repoint (u : Units) (l tgt : Nat) (fresh : Bool) : Units :=
  let e := hingeEntry u l
  let src := hPrn e
  recount u l fun u =>
    let st := if pState (pipEntry u tgt) = 1 then 3 else 2
    let u := putPip u tgt (targetPip u src tgt st)
    let u := putHinge u l (tgt + (if fresh then 2 ^ 23 else 0))
    releaseRegion u src

/-- Begin a move in a slot (R349): a fresh region is re-pointed and the slot stays free. -/
def beginMove (u : Units) (slot l tgt cause : Nat) (desc : Option (Nat × Nat)) : Units :=
  let e := hingeEntry u l
  let src := hPrn e
  let u := count u (cCore 12)
  if hFresh e then
    let u := repoint u l tgt true
    count { u with hng := { u.hng with moves := (u.hng.moves + 1) % 2 ^ 32 } } (cCore 13)
  else
    let u := recount u l fun u =>
      let u := journal (setMoving u l true) 3 l (src + tgt * 2 ^ 32) (slot + cause * 16)
      putPip u tgt (targetPip u src tgt 2)
    let m : MoveSlot := { cause := cause, region := l, src := src, tgt := tgt, desc := desc }
    { u with hng := { u.hng with slots := tabPut u.hng.slots slot m, active := u.hng.active ++ [slot] } }

/-- Free a slot. -/
def freeMoveSlot (u : Units) (slot : Nat) : Units :=
  { u with hng := { u.hng with slots := tabPut u.hng.slots slot {}, active := u.hng.active.filter fun i => i != slot } }

/-- Abandon a move: the region stays on S and T is released, or is dead in a group that is not healthy (Table 11-5). A driver's descriptor is told, unless the move starts again. -/
def abandonMove (u : Units) (slot : Nat) (tell : Bool := true) : Units :=
  let m := tabGet u.hng.slots slot
  let u := recount u m.region fun u => setMoving u m.region false
  let u := journal u 5 m.region 0 0
  let u := releaseRegion u m.tgt
  let u := match m.desc with
    | some d => if tell then descMark u d.1 d.2 2 else u
    | none => u
  freeMoveSlot { u with hng := { u.hng with pins := m.flying.foldl (fun l t => l.erase (m.region * 16384 + t)) u.hng.pins } } slot

/-- A move has copied every stripe (R352). -/
def finishMove (u : Units) (slot : Nat) : Units :=
  let m := tabGet u.hng.slots slot
  let u := recount u m.region fun u =>
    let e := hingeEntry u m.region
    let u := putHinge u m.region (nput (nput e 0 23 m.tgt) 24 1 0)
    releaseRegion u m.src
  let u := journal u 5 m.region 0 1
  let u := count { u with hng := { u.hng with moves := (u.hng.moves + 1) % 2 ^ 32 } } (cCore 13)
  freeMoveSlot u slot

/-- A region may be rerolled: neither fresh, lost nor moving (R386). -/
def rerollable (u : Units) (l : Nat) : Bool :=
  let e := hingeEntry u l
  !(hFresh e || hLost e || hMoving e)

/-! ### The tally (R385, R386) -/

/-- Add to the tally of the physical region of a region in state 2; a tally that reaches tally_max makes a reroll due at once. -/
def addTally (u : Units) (p l n : Nat) : Units :=
  let e := pipEntry u p
  if pState e ≠ 2 ∨ n = 0 then u
  else
    let old := pTally e
    let new := min 31 (old + n)
    let u := putTally u p new
    let m := inF u F.DRF_CFG_tally_max
    if old < m ∧ m ≤ new ∧ hPrn (hingeEntry u l) = p ∧ rerollable u l then
      addSat (addWork u { cause := 2, region := l }) F.DRF_REROLL_tally 0 0 1
    else u

/-! ### Placement answers (R345, R351, R377) -/

/-- What the hinge unit answers to a placement request. -/
inductive Placement where
  | wait
  /-- the destager passes over the stripe (R213, R345, R377) -/
  | pass
  | lost
  | at_ (prn dla gen : Nat) (fresh : Bool)
deriving DecidableEq, Repr, Inhabited

/-- Media group of a stripe group is fenced. -/
def groupFenced (u : Units) (s : Nat) : Bool := fenced u (pdMedia (s / 8)) || fenced u (pdHub (s / 8 % 4))

/-- Answer a placement request for logical stripe t of a region, with pin and table changes. -/
def placementAnswer (c : Ctl) (u : Units) (l t : Nat) : Placement × Units :=
  let e := hingeEntry u l
  if badRegion u l ∨ hLost e then (.lost, u)
  else if regionHeld u l then (.pass, u)
  else
    let prn := hPrn e
    let p := pipEntry u prn
    let now := u.drf.e % 32
    if groupFenced u (prnGroup u.v prn) then (.pass, u)
    else if hFresh e ∧ pState p = 3 then (.pass, addWork u { cause := 8, prn := prn, urgent := true })
    else if hFresh e then
      let u := recount u l fun u =>
        let u := putHinge u l (nput e 23 1 0)
        putPip u prn (nput (nput (nput p 46 5 now) 51 5 now) 56 3 2)
      (.at_ prn (stripeDla u prn t) (pGen p) true, count (pinStripe u l t) (cCore 10))
    else
      let copying := match moveOf u l with
        | some i => (tabGet u.hng.slots i).flying.contains t
        | none => false
      if copying then (.wait, u)
      else
        let third := isSplit u prn && pNewest p != now
        let moving := hMoving e
        let can := c.mode ≠ .drain ∧ (moving ∨ (chooseTarget u 2).isSome)
        if third ∧ can then
          (.pass, if moving then u else
            if u.hng.due.any fun w => w.cause == 2 && w.region == l then u
            else addSat (addWork u { cause := 2, region := l }) F.DRF_SPLIT_third 0 0 1)
        else
          let u := if third then flag u F.DRF_ERR_third_age else u
          let at1 := placeOf u l t
          let q := pipEntry u at1
          let u := if pNewest q = now then u else recount u l fun u => putPip u at1 (nput (pipEntry u at1) 51 5 now)
          (.at_ at1 (stripeDla u at1 t) (pGen q) false, count (pinStripe u l t) (cCore 10))

/-- A stripe whose placement would be answered now, or whose request would first make the work due that its answer waits for: the destager need not pass over it. -/
def placeable (c : Ctl) (u : Units) (x : Nat) : Bool :=
  match placementAnswer c u (x / 16384) (x % 16384) with
  | (.pass, u') => u'.hng.due != u.hng.due
  | _ => true

/-! ### Die failure (R358 to R360) -/

/-- Regions whose hinge entry names a PRN of a stripe group, in region order. -/
def regionsIn (u : Units) (s : Nat) : List Nat :=
  let listed := (tabKeys u.hng.hinge).filter fun l => prnGroup u.v (hPrn (hingeEntry u l)) == s
  let home := (List.range 65536).filterMap fun i => if (tabFind (65536 * s + i) u.hng.hinge.cells).isNone then some (65536 * s + i) else none
  listed.foldl (fun l x => insertBy (fun a b => decide (a ≤ b)) x l) home

/-- Dies of a stripe group that have failed, by position. -/
def failedDies (u : Units) (s : Nat) : List Nat := (u.hng.failed.filter fun x => x / 9 == s).map fun x => x % 9

/-- A rebuild of a stripe group begins (R359): fresh regions are re-pointed at once, the others queued for moves. -/
def beginRebuild (u : Units) (s : Nat) : Units :=
  let u := putF u F.HNG_GROUP_s_state s 0 1
  let u := { u with hng := { u.hng with rebuilding := u.hng.rebuilding ++ [s], rebuildShort := u.hng.rebuildShort.filter fun x => x != s } }
  (regionsIn u s).foldl (fun u l =>
    let e := hingeEntry u l
    if hLost e then u
    else if hFresh e then
      (match scanTarget u 1 with
       | (some t, u) => repoint u l t true
       | (none, u) => { u with hng := { u.hng with rebuildShort := if u.hng.rebuildShort.contains s then u.hng.rebuildShort else u.hng.rebuildShort ++ [s] } })
    else addWork u { cause := 1, region := l }) u

/-- A region is marked lost. -/
def markLost (u : Units) (l : Nat) : Units := recount u l fun u => putHinge u l (nput (hingeEntry u l) 25 1 1)

/-- A stripe group is lost (R360). -/
def loseGroup (u : Units) (s : Nat) : Units :=
  let u := putF u F.HNG_GROUP_s_state s 0 3
  let u := u.hng.active.foldl (fun u i =>
    let m := tabGet u.hng.slots i
    if m.cause ≤ 6 ∧ prnGroup u.v m.src = s then abandonMove u i else u) u
  let u := { u with hng := { u.hng with due := u.hng.due.filter fun w => !(w.cause ≤ 6 && prnGroup u.v (hPrn (hingeEntry u w.region)) == s) } }
  let u := (regionsIn u s).foldl (fun u l =>
    if hFresh (hingeEntry u l) then
      (match scanTarget u 1 with
       | (some t, u) => repoint u l t true
       | (none, u) => markLost u l)
    else markLost u l) u
  let u := flag u F.HNG_ERR_group_lost
  capacityNotice (hingeEvent u s ((failedDies u s).getLastD 15)) 2 s ((failedDies u s).getLastD 15)

/-- Raw regions in the pool of a group: its spares but for those listed in another state. -/
def rawPool (u : Units) (s : Nat) : Nat :=
  2048 - (u.hng.pip.cells.filter fun x => decide (nRegions u.v ≤ x.1) && prnGroup u.v x.1 == s && pState x.2 != 1).length

/-- A die becomes failed (R358): stripe group and die position. At MOUNT the rebuild does not begin with it. -/
def failDie (u : Units) (s q : Nat) (go : Bool := true) : Units :=
  if u.hng.failed.contains (9 * s + q) then u
  else
    let first := failedDies u s = []
    let u := { u with hng := { u.hng with failed := u.hng.failed ++ [9 * s + q] } }
    let u := cause u 1
    let u := journal u 6 s 0 q
    if first then
      let pool := tabGet u.hng.poolN s
      let raw := rawPool u s
      let limbo := (u.hng.limbo.filter fun x => prnGroup u.v x.1 == s).length
      let auto := inF u F.HNG_CFG_auto_rebuild = 1
      let u := putF u F.HNG_GROUP_s_state s 0 (if auto then 1 else 2)
      let u := putF u F.HNG_GROUP_s_failed s 0 q
      let u := putF u F.HNG_GROUP_s_remaining s 0 (tabGet u.hng.occN s)
      let h := u.hng
      let u := { u with hng := { h with poolN := tabPut h.poolN s 0, rawN := tabPut h.rawN s (tabGet h.rawN s - raw), dead := h.dead + pool + limbo, limbo := h.limbo.filter fun x => prnGroup u.v x.1 != s } }
      let u := checkPool (capacityNotice (hingeEvent u s q) 0 s q)
      let u := u.hng.active.foldl (fun u i =>
        let m := tabGet u.hng.slots i
        if m.cause ≤ 6 ∧ prnGroup u.v m.tgt = s then
          addWork (abandonMove u i false) { cause := m.cause, region := m.region, desc := m.desc }
        else u) u
      if auto && go then beginRebuild u s else u
    else if 0 < tabGet u.hng.occN s then loseGroup u s
    else capacityNotice (hingeEvent u s q) 0 s q

/-- A rebuild ends when none of its moves is queued or running: the group becomes degraded (R359). -/
def settleRebuilds (u : Units) : Units :=
  u.hng.rebuilding.foldl (fun u s =>
    let waits := (u.hng.due.any fun w => w.cause == 1 && prnGroup u.v (hPrn (hingeEntry u w.region)) == s) ||
      u.hng.active.any fun i => let m := tabGet u.hng.slots i; m.cause == 1 && prnGroup u.v m.src == s
    if waits then u
    else
      let short := u.hng.rebuildShort.contains s
      let u := cause { u with hng := { u.hng with rebuilding := u.hng.rebuilding.filter fun x => x != s } } 1
      let u := if groupState u s = 1 then putF u F.HNG_GROUP_s_state s 0 2 else u
      if short then flag u F.HNG_ERR_rebuild_short else u) u

/-! ### Trim of one region (Table 11-6, step 3) -/

/-- The hinge unit's part of a trim: a move of the region is abandoned, and unless the region is fresh its generation advances and fresh is set; a region at generation 0xFFFE or lost is re-pointed. -/
def trimTables (u : Units) (l : Nat) (target : Option Nat) : Units :=
  let u := match moveOf u l with
    | some i => abandonMove u i
    | none => u
  let u := { u with hng := { u.hng with due := u.hng.due.filter fun w => !(w.region == l && w.cause ≤ 6 && w.cause != 3) } }
  let e := hingeEntry u l
  match target with
  | some t => repoint u l t true
  | none =>
    if hFresh e then u
    else recount u l fun u =>
      let p := hPrn e
      let q := pipEntry u p
      let u := putPip u p (nput q 24 16 (pGen q + 1))
      putHinge u l (nput e 23 1 1)

/-- A region must be re-pointed rather than advanced when trimmed. -/
def trimRepoints (u : Units) (l : Nat) : Bool :=
  let e := hingeEntry u l
  hLost e || (!hFresh e && pGen (pipEntry u (hPrn e)) == 0xFFFE)

/-! ### Age epochs (R371 to R373) -/

/-- An advance is held: some region is at age 31, or the mode is DRAIN. -/
def advanceHeld (c : Ctl) (u : Units) : Bool := decide (c.mode = .drain) || 0 < tabGet u.drf.ages ((u.drf.e + 1) % 32)

/-- Every group writes its reference row of an epoch (R382). -/
def writeRows (u : Units) (e : Nat) : Units :=
  { u with keep := { u.keep with refRows := (List.range (nStripes u.v)).foldl (fun t s => tabPut t (s * 32 + e % 32) (e + 1)) u.keep.refRows } }

/-- One advance of E_a: every group's reference row of the new epoch is rewritten, and every group is to be calibrated. -/
def advanceEpoch (u : Units) : Units :=
  let e := (u.drf.e + 1) % 256
  let u := writeRows u e
  { u with drf := { u.drf with e := e, cals := u.drf.cals ++ (List.range (nStripes u.v)).filterMap fun s => if u.drf.cals.any (fun x => x.1 == s) then none else some (s, false) } }

end Sys2Proof.Machine
end

