-- ==== Sys2Proof/Machine/Cexus.lean ====
section
/-! DEFINITION. The Cexus bus and its dies (chapter "The Cexus Media Bus"): what a die does with a frame in each of its states, its status word, identify record and training pattern, the frames Vipra sends, link and capture offsets, and training. -/

namespace Sys2Proof.Machine

/-! ### Access -/

/-- Cexus channel n. -/
def cex (u : Units) (n : Nat) : Cex := tabGet u.cex n
/-- Replace a channel. -/
def setCex (u : Units) (n : Nat) (x : Cex) : Units := { u with cex := tabPut u.cex n x }
/-- Die d of channel n. -/
def dieOf (u : Units) (n d : Nat) : Die := tabGet (cex u n).dies d
/-- Replace a die. -/
def setDie (u : Units) (n d : Nat) (x : Die) : Units := let y := cex u n; setCex u n { y with dies := tabPut y.dies d x }
/-- Scheduler g. -/
def grp (u : Units) (g : Nat) : Grp := tabGet u.grp g
/-- Replace a scheduler. -/
def setGrp (u : Units) (g : Nat) (x : Grp) : Units := { u with grp := tabPut u.grp g x }
/-- A die is failed: to the hinge unit, or since TRAIN. -/
def dieFailed (u : Units) (n d : Nat) : Bool := u.hng.failed.contains (9 * (8 * (n / 9) + d) + n % 9) || (cex u n).failed.contains d
/-- Dies of a channel that are not failed. -/
def liveDies (u : Units) (n : Nat) : List Nat := (List.range 8).filter fun d => !dieFailed u n d
/-- Die positions of a stripe group whose die is failed. -/
def failedPos (u : Units) (s : Nat) : List Nat := (List.range 9).filter fun q => dieFailed u (9 * (s / 8) + q) (s % 8)

/-- Key of a die line in the store of the dies. -/
def mediaKey (n d dla : Nat) : Nat := (n * 8 + d) * 2 ^ 31 + dla

/-- A little-endian number in the identify record. -/
def identNum (b : List (BitVec 8)) (at_ len : Nat) : Nat := fromBytes (((b.drop at_).take len).map fun x => x.toNat)

/-- Lines of a die: what its identify record says, or the least a die presents (Table 9-6, R308). -/
def dieLines (u : Units) (n d : Nat) : Nat := max 1124073472 (identNum (tabGet (cex u n).ident d) 4 4)

/-! ### A die (R284 to R294, Tables 9-2 to 9-5) -/

/-- The state a die is in (R284). -/
def Chip.state (x : Chip) : DieSt :=
  match x.op with
  | .read _ _ => .sensing
  | .identify => .sensing
  | .calibrate => .other
  | .reset => .other
  | .none => if x.pgm = 0 then .idle else if x.susp then .suspended else .programming

/-- A frame that is ignored as an error. -/
def Chip.error (x : Chip) : Chip := { x with cmdErr := true }

/-- The read register holds a result. -/
def Chip.rdValid (x : Chip) : Bool := x.ident || x.reg.isSome

/-- Slots that hold a line, as a mask. -/
def Chip.loaded (x : Chip) : Nat := ((List.range 8).filter fun i => x.slots.any fun s => s.1 == i).foldl (fun m i => m + 2 ^ i) 0

/-- An opcode of Table 9-2 (32 for READ) whose operand uses only the bits the table gives. -/
def operandOk (op arg : Nat) : Bool :=
  match op with
  | 1 => arg ≤ 2
  | 2 => arg < 2 ^ 26
  | 3 => arg < 256
  | 4 => 0 < arg && arg < 256
  | 7 => arg < 80
  | 11 => arg < 2 ^ 24
  | 12 => arg < 2 ^ 24 && arg % 2 ^ 16 == 0
  | 15 => arg ≤ 4
  | 32 => arg < 2 ^ 31
  | _ => op ≤ 16 && arg == 0

/-- A value that a feature takes (Table 9-5). -/
def featureOk (f v : Nat) : Bool :=
  match f with
  | 0 => v % 8 ≤ 2 && v / 16 % 8 ≤ 4 && v == v % 8 + v / 16 % 8 * 16
  | 1 => v ≤ 60
  | 2 => v ≤ 60
  | 3 => v < 2 ^ 16
  | _ => false

/-- What a GETFEAT returns; a feature not listed reads zero (R293). -/
def Chip.feature (x : Chip) (f : Nat) : Nat :=
  match f with
  | 0 => x.drive
  | 1 => x.vrefDq
  | 2 => x.vrefCa
  | 3 => x.seed
  | _ => 0

/-- Address of a LOAD: PADR above the frame's 23 bits. -/
def Chip.loadAddr (x : Chip) (arg : Nat) : Nat := x.padr * 2 ^ 23 + arg % 2 ^ 23

/-- Slots of a mask. -/
def slotsOf (mask : Nat) : List Nat := (List.range 8).filter fun i => nbits mask i 1 == 1

/-- Every masked slot holds a line, and no two the same address (R287, Table 9-3). -/
def Chip.mayProgram (x : Chip) (mask : Nat) : Bool :=
  let l := (slotsOf mask).map fun i => x.slots.find? fun s => s.1 == i
  l.all (fun s => s.isSome) && ((l.filterMap fun s => s.map fun y => y.2.1).eraseDups.length == l.length)

/-- What a die does with a whole frame in its present state (Table 9-3): execute it, ignore it, or ignore it as an error. -/
inductive Verdict where
  | executes | ignored | error
deriving DecidableEq, Repr

/-- Executes where the condition holds, an error otherwise. -/
def orError (b : Bool) : Verdict := if b then .executes else .error

/-- Table 9-3, with the address and feature checks of R285, R287 and R293. -/
def Chip.verdict (x : Chip) (lines op arg : Nat) : Verdict :=
  let st := x.state
  match op with
  | 1 => orError (st != .other && (arg != 0 || x.rdValid))
  | 2 => orError (st == .idle && x.loadAddr arg < lines)
  | 4 => orError (st == .idle && x.mayProgram arg)
  | 5 => if st = .programming then .executes else .ignored
  | 6 => if st = .suspended then .executes else if st = .sensing ∨ st = .other then .error else .ignored
  | 10 => orError (st == .idle)
  | 11 => orError (st == .idle && featureOk (arg / 2 ^ 16) (arg % 2 ^ 16))
  | 13 => orError (st == .idle || st == .suspended)
  | 15 => orError (st == .idle)
  | 16 => .executes
  | 32 => orError ((st == .idle || st == .suspended) && arg < lines)
  | _ => orError (st != .other)

/-- What RESET clears; PADR, the reference registers, the features and the framing stay (R289). -/
def Chip.cleared (x : Chip) : Chip :=
  { x with op := .none, pgm := 0, susp := false, asked := false, reg := none, ident := false, slots := [], train := 0, cmdErr := false, caPar := false, pdone := false, pfail := 0 }

/-- A frame executes. `line` is the media line a LOAD takes from DQ, `beats` what a TLOAD takes. -/
def Chip.execute (x : Chip) (op arg : Nat) (line : MLine) (beats : BitVec 768) : Chip :=
  match op with
  | 2 => { x with slots := (x.slots.filter fun s => s.1 != arg / 2 ^ 23) ++ [(arg / 2 ^ 23, x.loadAddr arg, line)] }
  | 3 => { x with padr := arg }
  | 4 => { x with pgm := arg, susp := false, asked := false, pdone := false }
  | 5 => { x with asked := true }
  | 6 => { x with susp := false }
  | 7 => if arg < 64 then { x with refs := tabPut x.refs (arg / 16) (arg % 16) }
         else { x with refs := (List.range 4).foldl (fun t p => tabPut t p (arg % 16)) x.refs }
  | 8 => { x with cmdErr := false, caPar := false }
  | 10 => { x with op := .calibrate }
  | 11 =>
    (match arg / 2 ^ 16 with
     | 0 => { x with drive := arg % 2 ^ 16 }
     | 1 => { x with vrefDq := arg % 2 ^ 16 }
     | 2 => { x with vrefCa := arg % 2 ^ 16 }
     | _ => { x with seed := arg % 2 ^ 16 })
  | 13 => { x with op := .identify, reg := none, ident := false }
  | 14 => { x with train := beats }
  | 15 => if arg = 0 then { x with safe := false } else if arg = 4 then { x with safe := true } else { x with echo := arg }
  | 16 => { x.cleared with op := .reset }
  | 32 => { x with op := .read arg (tabGet x.refs (arg % 4)), reg := none, ident := false }
  | _ => x

/-- A die takes a whole frame whose parity is good. In an echo mode it decodes none (R299). -/
def Chip.frame (x : Chip) (lines op arg : Nat) (line : MLine) (beats : BitVec 768) : Chip :=
  if x.echo ≠ 0 then x
  else if operandOk op arg = false then x.error
  else
    match x.verdict lines op arg with
    | .executes => x.execute op arg line beats
    | .ignored => x
    | .error => x.error

/-- A frame that does not reach the die whole: a beat fails CAPAR (R279), or CS_N rises too soon (R278). -/
def Chip.damaged (x : Chip) (parity : Bool) : Chip := { x with cmdErr := true, caPar := x.caPar || parity }

/-- An array operation other than a program ends; `stored` is the line under a READ (R285). -/
def Chip.ends (x : Chip) (stored : MLine) : Chip :=
  match x.op with
  | .none => x
  | .read dla _ =>
    let inSet := (slotsOf x.pgm).any fun i => x.slots.any fun s => s.1 == i && s.2.1 == dla
    { x with op := .none, reg := some (if inSet then { stored with bad := true } else stored) }
  | .identify => { x with op := .none, ident := true }
  | .calibrate => { x with op := .none }
  | .reset => { x with op := .none, initDone := true }

/-- A program stops at a pulse boundary for a SUSPEND (R288). -/
def Chip.suspends (x : Chip) : Chip := if x.pgm ≠ 0 ∧ x.asked then { x with susp := true, asked := false } else x

/-- A program completes: pdone, the slots that failed, and the masked slots are free (R287). -/
def Chip.completes (x : Chip) (pfail : Nat) : Chip :=
  { x with pgm := 0, susp := false, asked := false, pdone := true, pfail := pfail &&& x.pgm, slots := x.slots.filter fun s => nbits x.pgm s.1 1 == 0 }

/-- RESET_N: what RESET does, and features, reference registers and framing at their reset values; initialisation runs when it rises (R289, R298). -/
def chipReset : Chip := { op := .reset }

/-- BSY_N is low (R281). -/
def Chip.busy (x : Chip) : Bool := x.op != .none || (x.pgm != 0 && !x.susp)

/-- The status word (Table 9-4). -/
def Chip.status (x : Chip) : Nat :=
  bit x.busy + bit (x.pgm != 0) * 2 + bit x.susp * 4 + bit x.rdValid * 8 + bit x.cmdErr * 16 + bit x.caPar * 32 + bit x.initDone * 64 + bit x.pdone * 128
    + x.loaded * 2 ^ 8 + x.pfail * 2 ^ 16 + bit x.safe * 2 ^ 24

/-- Next state of the pattern's register (R294). -/
def patternNext (s : Nat) : Nat := s * 2 % 2 ^ 16 + (s / 2 ^ 15 % 2 ^^^ (s / 2 ^ 13 % 2 ^^^ (s / 2 ^ 12 % 2 ^^^ s / 2 ^ 10 % 2)))

/-- Successive states of the pattern's register. -/
def patternFrom : Nat → Nat → List Nat
  | 0, _ => []
  | k + 1, s => s :: patternFrom k (patternNext s)

/-- The 48 beats of the training pattern; a seed of 0 is taken as 0xACE1. -/
def pattern (seed : Nat) : List (BitVec 16) := (patternFrom 48 (if seed = 0 then 0xACE1 else seed)).map fun x => BitVec.ofNat 16 x

/-- The 48 beats of 96 bytes: beat k carries byte 2k on DQ[7:0] and byte 2k + 1 on DQ[15:8] (R296). -/
def lineBeats (w : BitVec 768) : List (BitVec 16) := (List.range 48).map fun k => w.extractLsb' (16 * k) 16

/-- What the beats of a DOUT carry: the read register's line or record, the training pattern, or the training slot. -/
def Chip.drives (x : Chip) (record : List (BitVec 8)) (src : Nat) : List (BitVec 16) :=
  match src with
  | 0 =>
    if x.ident then lineBeats (BitVec.ofNat 768 (identNum record 0 96))
    else
      let l := x.reg.getD {}
      lineBeats (mediaWord l.data (BitVec.ofNat 64 l.metaWord))
  | 1 => pattern x.seed
  | _ => lineBeats x.train

/-- A record passes every check of Table 9-6. -/
def identOk (b : List (BitVec 8)) : Bool :=
  let num := identNum b
  num 0 2 == 0x5843 && num 2 1 == 1 && 1124073472 ≤ num 4 4 && num 8 1 == 4 && num 9 1 == 16 && num 10 1 == 8 && num 11 1 % 8 == 7
    && num 14 2 ≤ 220 && num 18 2 ≤ 3200 && num 20 2 ≤ 200 && num 22 2 ≤ 60 && 10000000 ≤ num 24 4
    && (num 28 1 == 0 || 128 ≤ num 28 1) && (105 ≤ num 29 1 && num 29 1 < 128) && num 92 4 == crc32c ((b.take 92).map fun x => x.toNat)

/-! ### Frames on the bus (R278 to R283) -/

/-- The 32 bits of a frame: D of a READ (opcode 32), or opcode and operand under bit 31. -/
def frameWord (op arg : Nat) : BitVec 32 := if op = 32 then BitVec.ofNat 32 (arg % 2 ^ 31) else BitVec.ofNat 32 (2 ^ 31 + op % 32 * 2 ^ 26 + arg % 2 ^ 26)

/-- The four beats of a frame: CA[7:0] with CAPAR, even parity, above it. -/
def caBeats (w : BitVec 32) : List (BitVec 9) :=
  [24, 16, 8, 0].map fun k =>
    let b := (w.extractLsb' k 8).toNat
    BitVec.ofNat 9 (b + bitCount b 0 8 % 2 * 256)

/-- Select mask of dies. -/
def csMask (l : List Nat) : BitVec 8 := BitVec.ofNat 8 (l.foldl (fun m d => m + 2 ^ d) 0)

/-- Frames that start an array operation (R281). -/
def isArrayFrame (op : Nat) : Bool := op == 32 || op == 4 || op == 6 || op == 13 || op == 10 || op == 16

/-- A die takes a frame; before an array operation its state is kept, for the case that the frame is found not to have started it (Table 9-11). -/
def dieTakes (u : Units) (n d op arg : Nat) (line : MLine) (beats : BitVec 768) : Units :=
  let x := dieOf u n d
  let y := x.chip.frame (dieLines u n d) op arg line beats
  setDie u n d (if isArrayFrame op then { x with chip := y, prior := x.chip, last := (op, arg), resent := false } else { x with chip := y })

/-- A frame on the CA bus to the selected dies, in the framing in force; each acts as if it alone were selected (R280). -/
def frameTo (u : Units) (n : Nat) (dies : List Nat) (op arg : Nat) (beats : BitVec 768 := 0) : Units :=
  let slow := dies.any fun d => (dieOf u n d).chip.safe
  dies.foldl (fun u d => dieTakes u n d op arg {} beats) (present u (.cexus n (csMask dies) slow (caBeats (frameWord op arg))))

/-- A frame to one die: opcode of Table 9-2, 32 for READ. -/
def frame (u : Units) (n op d arg : Nat) : Units := frameTo u n [d] op arg

/-- A frame to a die, and what the scheduler then notes of it. -/
def order (u : Units) (n op d arg : Nat) (f : Die → Die) : Units :=
  let u := frame u n op d arg
  setDie u n d (f (dieOf u n d))

/-- A LOAD frame and the 48 beats that follow it; a frame damaged on the way loads nothing (R279). -/
def loadFrame (u : Units) (n d arg : Nat) (line : MLine) (lost : Bool) : Units :=
  let slow := (dieOf u n d).chip.safe
  let u := present u (.cexus n (csMask [d]) slow (caBeats (frameWord 2 arg)))
  let u := present u (.dq n (lineBeats (mediaWord line.data (BitVec.ofNat 64 line.metaWord))))
  if lost then let x := dieOf u n d; setDie u n d { x with chip := x.chip.damaged true } else dieTakes u n d 2 arg line 0

/-- A TLOAD frame and its 48 beats. -/
def tload (u : Units) (n d : Nat) (w : BitVec 768) : Units := present (frameTo u n [d] 14 0 w) (.dq n (lineBeats w))

/-! ### Offsets (R302, R303, R310) -/

/-- A word of a Cexus channel's trim groups, by its offset in the channel (Table 9-14). -/
def cexTrim (n off : Nat) : Nat := 0x500000 + n * 0x1000 + off

/-- Where the trim groups hold a die's write offset and its read capture point, in delay steps. The spec gives the groups, not the places in them: DESIGN CHOICE, log entry 115. -/
def writeTrim (n d : Nat) : Nat := cexTrim n (0x900 + 4 * d)
/-- See `writeTrim`. -/
def readTrim (n d : Nat) : Nat := cexTrim n (0xC00 + 4 * d)

/-- Move a trim word by delay steps. -/
def moveTrim (u : Units) (a : Nat) (by_ : Int) : Units := putTrim u a (trimRaw u a + BitVec.ofInt 32 by_)

/-- The baseline that training recorded of a word. -/
def baseOf (u : Units) (n a : Nat) : Int := (((cex u n).bases.find? fun e => e.1 == a).map fun e => e.2).getD (Config.trimWord a).toInt

/-- A word less its baseline, in a field of 8 bits. -/
def driftAt (u : Units) (n a : Nat) : Nat := signed8 ((trimRaw u a).toInt - baseOf u n a)

/-- A transfer moves the capture point of its die toward the arriving DQS by at most one step, which way is the PHY's own (R302). -/
def captureMove (u : Units) (n d : Nat) : Units :=
  let (k, u) := takeFree u
  moveTrim u (readTrim n d) ((k % 3 : Nat) - 1)

/-- STATUS to a die, and the word it answers; a ca_par report is counted and flagged (R290, R291). -/
def askStatus (u : Units) (n d : Nat) : Nat × Units :=
  let w := (dieOf u n d).chip.status
  let u := captureMove (frame u n 8 d 0) n d
  (w, if nbits w 5 1 = 1 then flag (addSat u F.CEX_n_LATE_parity n 0 1) F.CEX_n_ERR_ca_par n else u)

/-- An array operation of a die ends on the die's side; `stored` is what a READ has sensed. -/
def dieEnds (u : Units) (n d : Nat) (stored : MLine) : Units :=
  let x := dieOf u n d
  setDie u n d { x with chip := x.chip.ends stored }

/-! ### Training (R300, R301) -/

/-- Every die of a list ends its operation. -/
def allEnd (u : Units) (n : Nat) (l : List Nat) : Units := l.foldl (fun u d => dieEnds u n d {}) u

/-- RESET_N falls and rises: every die of the channel is reset and initialises itself (R289). -/
def pulseReset (u : Units) (n : Nat) : Units :=
  let u := present (present u (.pins true n { resetN := .low, ck := .live, cs := .live, others := .live })) (.pins true n { resetN := .high, ck := .live, cs := .live, others := .live })
  (List.range 8).foldl (fun u d => setDie u n d { dieOf u n d with chip := chipReset }) u

/-- An echo mode for one die, which Vipra leaves by the sequence of R299. -/
def echoMode (u : Units) (n d mode : Nat) : Units :=
  let u := present (frame u n 15 d mode) (.leaveEcho n d)
  let x := dieOf u n d
  setDie u n d { x with chip := { x.chip with echo := 0 } }

/-- Step 6: PATTERN is set, and DOUT of the training pattern sweeps the read delays. The seed is Vipra's own: a free value. -/
def centreReads (u : Units) (n : Nat) (l : List Nat) : Units :=
  let (k, u) := takeFree u
  let u := frameTo u n l 11 (3 * 2 ^ 16 + k % 2 ^ 16)
  l.foldl (fun u d => captureMove (frame u n 1 d 1) n d) u

/-- Step 8: TLOAD and DOUT of the training slot sweep the write delays. -/
def centreWrites (u : Units) (n : Nat) (l : List Nat) : Units :=
  l.foldl (fun u d =>
    let (k, u) := takeFree u
    captureMove (frame (tload u n d (BitVec.ofNat 768 k)) n 1 d 2) n d) u

/-- Step 9: SETREF broadcast with each die's code (one frame for the dies of each code), TEMP and STATUS to each die. -/
def baseline (u : Units) (n : Nat) (l : List Nat) (code : Nat → Nat) : Units :=
  let u := (List.range 16).foldl (fun u c => let ds := l.filter fun d => code d == c; if ds = [] then u else frameTo u n ds 7 (64 + c)) u
  l.foldl (fun u d => (askStatus (captureMove (frame u n 9 d 0) n d) n d).2) u

/-- The frames of the nine steps of Table 9-9 after RESET_N has risen, to the dies of a list with the codes of their baselines; every sweep is shown by one of its points. -/
def trainFrames (u : Units) (n : Nat) (l : List Nat) (code : Nat → Nat) : Units :=
  let u := allEnd u n (List.range 8)
  let u := allEnd (l.foldl (fun u d => frame u n 10 d 0) u) n l
  let u := l.foldl (fun u d => echoMode u n d 1) u
  let u := l.foldl (fun u d => echoMode (echoMode u n d 2) n d 3) u
  let u := l.foldl (fun u d => (askStatus u n d).2) (frameTo u n l 15 0)
  let u := centreReads u n l
  let u := allEnd (l.foldl (fun u d => frame u n 13 d 0) u) n l
  let u := l.foldl (fun u d => captureMove (frame u n 1 d 0) n d) u
  baseline (centreWrites u n l) n l code

/-- A setting found lies in the trim groups of a Cexus channel. -/
def isCexTrim (off : Nat) : Bool := 0x800 ≤ off && off < 0x1000 && off % 4 == 0

/-- The settings that training found come into force. -/
def putCexTrims (u : Units) (n : Nat) (trims : List (Nat × Word)) : Units :=
  (trims.filter fun x => isCexTrim x.1).foldl (fun u x => putTrim u (cexTrim n x.1) x.2) u

/-- The settings of a whole training: the offsets as they then stand are the baselines (R300 step 9). -/
def storeCexTrims (u : Units) (n : Nat) (trims : List (Nat × Word)) : Units :=
  let u := putCexTrims u n trims
  let y := cex u n
  setCex u n { y with bases := ((List.range 8).flatMap fun d => [writeTrim n d, readTrim n d]).map fun a => (a, (trimRaw u a).toInt) }

/-- An eye of a step misses the criterion of Table 9-9: 0.5 UI for CS, 0.4 UI and the Vref range for CA, the criteria of CEX_n_CFG for the centring steps (a delay step is 1/64 UI). -/
def eyeMisses (u : Units) (n : Nat) (e : EyeFound) : Bool :=
  let vref := decide (e.vref < getF u F.CEX_n_CFG_vref_min n)
  match e.step with
  | 3 => decide (e.width < 32)
  | 4 => decide (e.width < 26) || vref
  | 6 => decide (e.width < getF u F.CEX_n_CFG_rd_min n) || vref
  | 8 => decide (e.width < getF u F.CEX_n_CFG_wr_min n) || vref
  | _ => false

/-- Why a die has failed in training, if it has: as the devices report it; an eye below its criterion (NARROW); a bad identify record (ID_BAD); a sensor that gives no reading in step 9 (NO_ANSWER). -/
def dieMiss (u : Units) (n d : Nat) (x : Found) : Option DieFail :=
  match x.fails.find? (fun f => f.die == d) with
  | some f => some f
  | none =>
    match x.eyes.find? (fun e => e.place % 8 == d && eyeMisses u n e) with
    | some e => some { die := d, step := e.step, result := 3, lane := e.place / 8 }
    | none =>
      if x.ident.any fun y => y.1 == d && !identOk y.2 then some { die := d, step := 7, result := 4 }
      else if x.temps.any fun y => y.1 == d && !y.2.2 then some { die := d, step := 9, result := 1 }
      else none

/-- What each die's training gives beside its settings: the identify bytes and the TEMP reading are kept. -/
def keepFound (u : Units) (n : Nat) (x : Found) : Units :=
  let y := cex u n
  let u := setCex u n { y with ident := (x.ident.filter fun i => i.1 < 8).foldl (fun t i => tabPut t i.1 (i.2.take 96)) y.ident }
  (x.temps.filter fun t => t.1 < 8).foldl (fun u t =>
    let u := putF (putF u F.CEX_n_DIE_d_temp n t.1 t.2.1.toNat) F.CEX_n_DIE_d_temp_valid n t.1 (bit t.2.2)
    let y := cex u n
    setCex u n { y with polled := if y.polled.contains t.1 then y.polled else y.polled ++ [t.1] }) u

/-- CEX_n_TRAIN of a training whose dies have failed so, or that passed. -/
def trainWord (fail : Option DieFail) (time : Nat) : Nat :=
  match fail with
  | none => 15 + time % 256 * 2 ^ 16
  | some f => f.step % 16 + f.result % 16 * 2 ^ 4 + f.die % 8 * 2 ^ 8 + f.lane % 32 * 2 ^ 11 + time % 256 * 2 ^ 16

end Sys2Proof.Machine
end

