-- ==== Sys2Proof/Machine/Media.lean ====
section
/-! DEFINITION. The media schedulers and the Cexus channels (chapters "The Cexus Media Bus", "Media Scheduling and Bounded Reads", and the order of correction of "Codes, Scrubbing and Faults"): die queues, windows, cuts, detours, the DQ bus, the stripe buffer, programs and their failures. -/

namespace Sys2Proof.Machine

/-! ### Access -/

/-- The die position of a channel is in its window (R312). -/
def inWindow (u : Units) (n : Nat) : Bool := (grp u (n / 9)).phase == n % 9
/-- The channel exists and its media domain is on. -/
def cexRuns (u : Units) (n : Nat) : Bool := n < nCexus u.v && pdOn u (pdMedia (n / 9))

/-- Count k cycles of one run of a cycle signal. -/
def countRun (u : Units) (n k : Nat) : Units := if k = 0 then u else countN u n (if inF u F.TELE_CSEL_n_level n = 1 then k else 1)

/-- The address check of a number (R394). -/
def addrCheck (x : Nat) : Nat := crc32c (toBytes 8 x)

/-- The metadata word of a line (Table 9-7); the write epoch is put in when the stripe is formed. -/
def metaOf (gen : Nat) (poison : Bool) (check : Nat) : Nat := gen + (if poison then 2 ^ 24 else 0) + check * 2 ^ 32

/-- A blank line (R343). -/
def blankLine : MLine := {}

/-- A poisoned line of a generation and logical line address (R401). -/
def poisonLine (gen lla : Nat) : MLine := { metaWord := metaOf gen true (addrCheck lla) }

/-- The media patch entry of a line. -/
def patchOf (u : Units) (n d dla : Nat) : Option MLine := ((cex u n).patches.find? fun p => p.1 == d && p.2.1 == dla).map fun p => p.2.2

/-- The stored line of a die: its patch copy, or its cells. -/
def storedLine (u : Units) (n d dla : Nat) : MLine := (patchOf u n d dla).getD (tabGet u.media (mediaKey n d dla))

/-- The Cexus event (code 0x08) and the integrity event of a Cexus channel (code 0x0C). -/
def cexEvent (u : Units) (n d : Nat) : Units := emitEvent u 8 n [evReg u .CEX_n_ERR n, BitVec.ofNat 32 d]
/-- The integrity event of a Cexus channel. -/
def cexIntEvent (u : Units) (n : Nat) : Units := emitEvent u 0xC (n + 2 ^ 15) [evReg u .INT_ERR, evReg u .INT_CEX_n_ERR n]
/-- The event of a media group. -/
def grpEvent (u : Units) (g : Nat) : Units := emitEvent u 9 g [evReg u .MS_g_ERR g]
/-- A CHANNEL_HEALTH notice (Table 15-10). -/
def healthNotice (u : Units) (media : Bool) (ch cause who device place : Nat) : Units :=
  notice u 4 ((if media then 1 else 0) + ch * 2 ^ 8 + cause * 2 ^ 16 + who * 2 ^ 24 + device * 2 ^ 32 + place * 2 ^ 64)

/-! ### Turns and the throttle (R140, R497, R498) -/

/-- Turn of the round, from the time since the phase began (a turn is 56.25 ns). -/
def mediaTurn (u : Units) (x : Grp) : Nat := 8 * x.phase + min 7 ((u.now - x.phaseAt) * 16 / 90)

/-- Index of the turn-table entry of a channel that governs now; entries 0 to 7 are the channel's own phase. -/
def mediaIdx (u : Units) (n : Nat) : Nat := (mediaTurn u (grp u (n / 9)) + 72 - 8 * (n % 9)) % 72

/-- The channel's turn is withheld by the throttle. -/
def mediaHeld (u : Units) (n : Nat) : Bool :=
  let x := grp u (n / 9)
  (withheld u true n (tabGet x.table (n % 9)) (tabGet x.dropped (n % 9))).contains (mediaIdx u n)

/-- The withheld turn is a pause (R498, V36 and V18). -/
def paused (u : Units) (n : Nat) : Bool := u.v != .v72 && mediaHeld u n

/-- Dies of a group that run a program outside their windows. -/
def outsidePrograms (u : Units) (g : Nat) : Nat :=
  ((List.range 9).map fun q => if (grp u g).phase = q then 0 else ((List.range 8).filter fun d => (dieOf u (9 * g + q) d).st == .programming).length).sum

/-- How many dies of a group may do so at once (Table 16-9). -/
def outsideCap (u : Units) (g : Nat) : Nat := if u.v = .v72 then 72 * (16 - getF u F.PWR_ZONE_z_STATE_step g) / 16 else 72

/-! ### Dies (Table 9-3, R313 to R319) -/

/-- Order in which waiting reads take a die: a cut's read, detour reads, C0 and C1 reads, the others; by arrival within each. -/
def dieRank (r : DRead) : Nat := if r.cut then 0 else if r.detour then 1 else if r.cls ≤ 1 then 2 else 3

/-- The maintenance requester that holds the channel's grant; 7 for none. -/
def holderOf (u : Units) (n : Nat) : Nat := (tabGet u.arbs (chKey true n)).holder

/-- The waiting read that takes the die next; one that runs under a maintenance grant waits for it (R425). -/
def nextRead (h : Nat) (x : Die) : Option DRead :=
  (x.queue.filter fun r => r.owner == 7 || r.owner == h).foldl (fun b r => match b with
    | none => some r
    | some y => if dieRank r < dieRank y ∨ (dieRank r = dieRank y ∧ r.seq < y.seq) then some r else some y) none

/-- Send SETREF where the register holds another code, and READ. -/
def senseRead (u : Units) (n d : Nat) (r : DRead) : Units :=
  let x := dieOf u n d
  let part := r.dla % 4
  let u := if tabGet x.chip.refs part = r.code then u else frame u n 7 d (r.code + part * 16)
  let u := order u n 32 d r.dla fun x => { x with st := .sensing, cur := some r, since := u.now, queue := x.queue.erase r }
  count u (cCex n 0)

/-- A die does what its waiting reads need: READ to an idle or suspended die whose last result has gone, SUSPEND to a programming one that is outside its window or whose read has a cut. -/
def dieGo (u : Units) (n d : Nat) : Units :=
  let x := dieOf u n d
  match (if paused u n then none else nextRead (holderOf u n) x) with
  | none => u
  | some r =>
    match x.st with
    | .idle => if x.result.isSome then u else senseRead u n d r
    | .suspended => if x.result.isSome then u else senseRead u n d r
    | .programming =>
      if x.suspSent ∨ (inWindow u n ∧ r.cut = false) then u
      else order u n 5 d 0 fun x => { x with suspSent := true, since := u.now }
    | .sensing => u
    | .other => u

/-- The READ that follows a discard serves a waiting C0 or C1 read, for which the discard was made (R317, R319). -/
def afterDiscard (u : Units) (n d : Nat) : Units :=
  let x := dieOf u n d
  match (if paused u n ∨ x.result.isSome then none else nextRead 7 { x with queue := x.queue.filter fun r => r.cls ≤ 1 }) with
  | none => u
  | some r => senseRead u n d r

/-- RESUME of a suspended program: outside the window once no read waits and the DOUT frame of the last result has gone (R314); in the window, after the die's cycle of the window, once no C0 or C1 read waits (R321). A withheld turn carries no RESUME outside the window, nor does one pass the cap of R498. -/
def tryResume (u : Units) (n d : Nat) : Units :=
  let x := dieOf u n d
  let dout := match (cex u n).cur with
    | some t => t.die == d && !t.load
    | none => false
  let go := if inWindow u n then x.started && !(x.queue.any fun r => r.cls ≤ 1) else (nextRead (holderOf u n) x).isNone && (x.result.isNone || dout) && !mediaHeld u n && outsidePrograms u (n / 9) < outsideCap u (n / 9)
  if x.st = .suspended ∧ go then order u n 6 d 0 fun x => { x with st := .programming, suspSent := false } else u

/-- The die is deferred by its temperature (R388), which DRAIN sets aside. -/
def deferredDie (c : Ctl) (u : Units) (n d : Nat) : Bool := u.drf.deferred.contains (n * 8 + d) && c.mode != .drain

/-- The slots of a mask are loaded once more. -/
def reloadSlots (u : Units) (n d : Nat) (l : List (Nat × Nat × Nat)) : Units :=
  let y := cex u n
  let again : List Xfer := l.map fun s => { load := true, die := d, buf := s.2.1, pos := n % 9, seq := (grp u (n / 9)).seq }
  setCex u n { y with xq := y.xq ++ again }

/-! ### Reads at a scheduler -/

/-- A read of a scheduler. -/
def readOf (u : Units) (g id : Nat) : Option MRead := (grp u g).reads.find? fun r => r.id == id
/-- Replace a read. -/
def putRead (u : Units) (g : Nat) (r : MRead) : Units :=
  let x := grp u g
  setGrp u g { x with reads := x.reads.map fun y => if y.id = r.id then r else y }
/-- A read ends: it is dropped, with the READs it still has waiting at dies. -/
def dropRead (u : Units) (g id : Nat) : Units :=
  let x := grp u g
  let u := setGrp u g { x with reads := x.reads.filter fun y => y.id != id }
  (List.range 9).foldl (fun u q =>
    let n := 9 * g + q
    let y := cex u n
    if y.dies.cells.any fun c => c.2.queue.any fun r => r.rid == id then
      setCex u n { y with dies := ⟨y.dies.cells.map fun c => (c.1, { c.2 with queue := c.2.queue.filter fun r => r.rid != id })⟩ }
    else u) u

/-- An entry of the stripe buffer. -/
def bufOf (u : Units) (g id : Nat) : Option SBuf := (grp u g).bufs.find? fun b => b.id == id
/-- The entry that holds a stripe (its stripe lock). -/
def bufAt (u : Units) (g s dla : Nat) : Option SBuf := (grp u g).bufs.find? fun b => b.group == s && b.dla == dla
/-- Replace an entry. -/
def putBuf (u : Units) (g : Nat) (b : SBuf) : Units :=
  let x := grp u g
  setGrp u g { x with bufs := x.bufs.map fun y => if y.id = b.id then b else y }
/-- Release an entry. -/
def dropBuf (u : Units) (g id : Nat) : Units :=
  let x := grp u g
  setGrp u g { x with bufs := x.bufs.filter fun y => y.id != id }

/-- The maintenance requester whose grant a LOAD of an entry ends (Table 14-1): the region mover, parity rebuild (repairs and a rebuild's moves), or none. -/
def loadRequester (u : Units) (b : SBuf) : Nat :=
  match b.use with
  | .move slot _ => if (tabGet u.hng.slots slot).cause = 1 then 2 else 1
  | .repair _ _ _ _ => 2
  | _ => 7

/-- The first code of a FILL_FWD. -/
def fwdCode (k : Pkt) : Nat := k.code % 16
/-- The code of the oldest bucket, of a split region. -/
def fwdOld (k : Pkt) : Option Nat := if k.code / 16 = 0 then none else some (k.code / 16 - 1)

/-- The codes of a FILL_FWD in one number: the first, and one more than the second in sixteens where there is one. -/
def twoCodes (c : Nat × Option Nat) : Nat := match c.2 with
  | some d => c.1 + 16 * (d + 1)
  | none => c.1

/-- The maintenance requester a read works for (Table 14-1): the region mover, or parity rebuild for a rebuild's moves and for repairs. -/
def readRequester (u : Units) (g : Nat) (use : MUse) : Nat :=
  match use with
  | .copy tg id _ =>
    ((bufOf u tg id).map fun b => loadRequester u b).getD 7
  | .absent id _ =>
    ((bufOf u g id).map fun b => loadRequester u b).getD 7
  | .mend _ => 2
  | _ => 7

/-- Queue a READ at a die. -/
def queueRead (u : Units) (g : Nat) (r : MRead) (q code : Nat) (detour cut : Bool) : Units :=
  let n := 9 * g + q
  let d := r.pkt.group % 8
  let x := dieOf u n d
  let e : DRead := { rid := r.id, detour := detour, pos := q, dla := r.pkt.dla, code := code, cls := r.pkt.cls, prio := r.pkt.prio, port := r.pkt.port, seq := r.id, cut := cut, owner := readRequester u g r.use }
  dieGo (setDie u n d { x with queue := x.queue ++ [e] }) n d

/-- A cut is counted and reported (R321). -/
def countCut (u : Units) (g : Nat) : Units := count (flag (addSat u F.MS_g_CUTS_cuts g 0 1) F.MS_g_ERR_cut g) (cGrp g 2)

/-- Begin, or begin again, the direct attempt of a read: a C0 or C1 read of a die in its window takes a cut where `mayCut`, any other waits for the window's end (R332, R398). -/
def beginDirect (u : Units) (g : Nat) (r : MRead) (code : Nat) (mayCut : Bool) : Units :=
  let q := r.pkt.pos
  let win := (grp u g).phase == q && mayCut
  let a : Attempt := { on := true, code := code, need := [q], blocked := win && 2 ≤ r.pkt.cls }
  let r := { r with direct := a }
  let u := putRead u g r
  if a.blocked then u
  else
    let u := count u (cGrp g 0)
    queueRead (if win then countCut u g else u) g r q code false win

/-- The read gathers the lines of a repair. -/
def isMend (r : MRead) : Bool := match r.use with
  | .mend _ => true
  | _ => false

/-- Begin, or begin again, the detour of a read (R319, R320, R327): it fails at once where one of its dies is failed; a repair reads the lines of the others all the same. -/
def beginDetour (u : Units) (g : Nat) (r : MRead) (code : Nat) : Units :=
  let q := r.pkt.pos
  let others := (List.range 9).filter fun p => p != q
  let gone := others.filter fun p => dieFailed u (9 * g + p) (r.pkt.group % 8)
  let dead := gone ≠ [] && (isMend r = false || gone.length == 8)
  let need := if isMend r then others.filter fun p => !gone.contains p else others
  let w := (grp u g).phase
  let hits := need.contains w
  let a : Attempt := { on := true, code := code, need := need, bad := if isMend r then gone else [], ended := dead, blocked := !dead && hits && 2 ≤ r.pkt.cls }
  let r := { r with detour := a }
  let u := putRead u g r
  if dead ∨ a.blocked then u
  else
    let u := if isMend r then u else count (addSat u F.MS_g_READS_detours g 0 1) (cGrp g 1)
    let u := if hits then countCut u g else u
    need.foldl (fun u p => queueRead u g r p code true (hits && p == w)) u

/-! ### The end of a read -/

/-- What a read gives. -/
inductive MOut where
  | line (l : MLine) (x : Bool)
  | zero (l : MLine) (x : Bool)
  | failed
  | lost
deriving DecidableEq, Repr, Inhabited

/-- Endpoint of the group, to the slice and to the requester of a fill. -/
def fillBack (u : Units) (g : Nat) (k : Pkt) (t : Pkt) (toAsker : Bool) : Units :=
  let base := { t with src := epGroup g, prio := k.prio, epoch := k.epoch, port := k.port, ord := k.ord, lla := k.lla, kind := k.kind, cls := k.cls, m := true }
  let u := sendPkt u { base with typ := (if t.typ = .lineRet then .fillData else t.typ), dst := epSlice k.tag }
  if toAsker ∧ k.bound = false ∧ (k.kind = .read ∨ k.kind = .merge) then sendPkt u { base with dst := k.handle } else u

/-- A fill's answer: the line to the slice and the requester, the zero-line indication to both, or a status to the slice, which answers its requesters (R37, R38, R201, R325). -/
def finishFill (u : Units) (g : Nat) (k : Pkt) (o : MOut) : Units :=
  match o with
  | .line l x =>
    if nbits l.metaWord 24 1 = 1 then fillBack u g k { typ := .fillData, poison := true, x := x } false
    else fillBack u g k { typ := .lineRet, data := l.data, x := x } true
  | .zero _ x => fillBack (count u (cCore 11)) g k { typ := .zero, zline := true, x := x } true
  | .failed => fillBack u g k { typ := .fillData, poison := true, x := true } false
  | .lost => fillBack u g k { typ := .done, aux := 7 } false

/-- Exclusive OR of data and metadata of lines (R326). -/
def xorLines (l : List MLine) : MLine := l.foldl (fun a b => { data := a.data ^^^ b.data, metaWord := a.metaWord ^^^ b.metaWord }) { data := 0, metaWord := 0 }

/-- Put a line into an entry. -/
def storeLine (u : Units) (g : Nat) (b : SBuf) (j : Nat) (l : MLine) : Units :=
  putBuf u g { b with lines := tabPut b.lines j l, held := if b.held.contains j then b.held else b.held ++ [j] }

/-- A partial-stripe or copied line on which all three layers fail (R331, R350): the poisoned line that stands for it, and the report. -/
def rmwPoison (u : Units) (g gen lla : Nat) : MLine × Units :=
  let u := grpEvent (flag u F.MS_g_ERR_rmw_poison g) g
  (poisonLine gen lla, poisonMade u lla 4)

/-- A line that a partial-stripe rewrite has read (R331), or that POISON_CLEAR names and finds poisoned (R406). -/
def absentLine (u : Units) (g : Nat) (b : SBuf) (j : Nat) (o : MOut) : Units :=
  let named := match b.use with
    | .clear _ _ l => l.contains j
    | _ => false
  let poisoned := match o with
    | .line l _ => nbits l.metaWord 24 1 == 1
    | .zero _ _ => false
    | .failed => true
    | .lost => true
  if named && poisoned then storeLine u g { b with cleared := b.cleared ++ [j] } j blankLine
  else
    match o with
    | .line l _ => storeLine u g b j l
    | .zero l _ => storeLine u g b j l
    | _ =>
      let (l, u) := rmwPoison u g b.gen (b.stripe * 8 + j)
      storeLine u g b j l

/-- A line that a move has read (R350). -/
def copiedLine (u : Units) (g : Nat) (b : SBuf) (j : Nat) (o : MOut) : Units :=
  match o with
  | .line l _ => storeLine u g b j { l with metaWord := nput l.metaWord 0 16 b.gen }
  | .zero _ _ => storeLine u g b j blankLine
  | _ =>
    let (l, u) := rmwPoison u g b.gen (b.stripe * 8 + j)
    storeLine u g b j l

/-- An entry of POISON_CLEAR that has found no named line poisoned, and writes nothing. -/
def clearIdle (b : SBuf) : Bool := match b.use with
  | .clear _ _ _ => b.cleared.isEmpty
  | _ => false

/-- Every data line of an entry is held: the parity line is formed, the write epoch is put into each line, and a LOAD to each die that is not failed is queued (R330, R332). An entry of POISON_CLEAR that found no poisoned line is released. -/
def formStripe (u : Units) (g id : Nat) : Units :=
  match bufOf u g id with
  | none => u
  | some b =>
    if b.formed ∨ ¬ ((List.range 8).all fun j => b.held.contains j) then u
    else
      if clearIdle b then putBuf u g { b with formed := true, todo := [] }
      else
        let e := u.drf.e % 256
        let data := (List.range 8).map fun j => let l := tabGet b.lines j; { l with metaWord := nput l.metaWord 16 8 e, bad := false, hard := false }
        let t := (List.range 8).foldl (fun t j => tabPut t j (data.getD j {})) b.lines
        let todo := (List.range 9).filter fun q => !dieFailed u (9 * g + q) (b.group % 8)
        let b := { b with lines := tabPut t 8 (xorLines data), formed := true, todo := todo }
        let x := grp u g
        let u := setGrp (putBuf u g b) g { (grp (putBuf u g b) g) with seq := x.seq + 1 }
        todo.foldl (fun u q =>
          let n := 9 * g + q
          let y := cex u n
          setCex u n { y with xq := y.xq ++ [{ load := true, die := b.group % 8, buf := id, pos := q, seq := x.seq }] }) u

/-- Settle a line's generation and address check (R397 steps 4 and 5, R344): the line, the zero-line indication, or a failure of both codes. -/
def settleLine (u : Units) (k : Pkt) (l : MLine) : Option Bool × Units :=
  if nbits l.metaWord 0 16 ≠ k.gen then (some true, u)
  else if nbits l.metaWord 32 32 ≠ addrCheck k.lla then (none, flag u F.INT_ERR_addr)
  else (some false, u)

/-- Reads of a stripe in flight that wait for a line of its entry (R323). -/
def serveBuf (u : Units) (g : Nat) (b : SBuf) : Units :=
  ((grp u g).reads.filter fun r => r.atBuf && r.pkt.group == b.group && r.pkt.dla == b.dla).foldl (fun u r =>
    let j := posLine r.pkt.dla r.pkt.pos
    if b.held.contains j then
      let l := tabGet b.lines j
      let o : MOut := if nbits l.metaWord 0 16 ≠ r.pkt.gen then .zero l false else .line l false
      let u := dropRead (count u (cGrp g 6)) g r.id
      (match r.use with
       | .fill => finishFill u g r.pkt o
       | _ => u)
    else u) u

/-- A line reaches an entry: waiting reads of it are served and the stripe is formed when it is whole. -/
def bufGo (u : Units) (g id : Nat) : Units :=
  match bufOf u g id with
  | none => u
  | some b => formStripe (serveBuf u g b) g id

/-- Add a media patch entry (R417, R418): whether one was free. -/
def addMediaPatch (u : Units) (n d dla : Nat) (l : MLine) : Bool × Units :=
  let x := cex u n
  if x.patches.length < 16 then
    (true, { setCex u n { x with patches := x.patches ++ [(d, dla, l)] } with patchLog := u.patchLog ++ [1 + n * 2 + d * 2 ^ 8 + dla * 2 ^ 11] })
  else (false, flag u F.INT_CEX_n_ERR_patch_full n)

/-- A read ends with its outcome. -/
def finishRead (u : Units) (g : Nat) (r : MRead) (o : MOut) : Units :=
  let u := dropRead u g r.id
  match r.use with
  | .fill => finishFill u g r.pkt o
  | .absent id j =>
    (match bufOf u g id with
     | none => u
     | some b => bufGo (absentLine u g b j o) g id)
  | .copy tg id j =>
    (match bufOf u tg id with
     | none => u
     | some b => bufGo (copiedLine u tg b j o) tg id)
  | .patch ring idx =>
    let n := 9 * g + r.pkt.pos
    (match o with
     | .line l _ =>
       let (ok, u) := addMediaPatch u n (r.pkt.group % 8) r.pkt.dla l
       descMark u ring idx (if ok then 0 else 8)
     | .zero l _ =>
       let (ok, u) := addMediaPatch u n (r.pkt.group % 8) r.pkt.dla l
       descMark u ring idx (if ok then 0 else 8)
     | _ => descMark u ring idx 3)
  | .mend _ => u

/-! ### Repairs (R407) -/

/-- Queue a repair, merge it with one of its stripe, or drop it. -/
def queueRepair (u : Units) (k : Pkt) (pos source : Nat) : Units :=
  let j := posLine k.dla pos
  let e : Repair := { prn := k.prn, gen := k.gen, group := k.group, dla := k.dla, pos := pos, source := source, lla := k.lla / 8 * 8 + (if j = 8 then 0 else j) }
  if u.repairs.any fun x => x.group == k.group && x.dla == k.dla then u
  else if u.repairs.length < 64 then { u with repairs := u.repairs ++ [e] }
  else flag (addSat u F.INT_RQ_dropped 0 0 1) F.INT_ERR_repair_full

/-- Source recorded for a read (Table 13-3). -/
def readSource (r : MRead) : Nat := match r.use with
  | .fill => 2
  | .patch _ _ => 2
  | .absent _ _ => 4
  | .copy _ _ _ => 4
  | .mend _ => 2

/-- A host or fill read. -/
def isFill (r : MRead) : Bool := match r.use with
  | .fill => true
  | _ => false

/-- The repair of the target of a host or fill read. -/
def repairTarget (u : Units) (r : MRead) : Units := if isFill r then queueRepair u r.pkt r.pkt.pos (readSource r) else u

/-- Logical region of a read. -/
def readRegion (r : MRead) : Nat := r.pkt.lla / 131072

/-- A read served at the second code is counted (Table 12-2). -/
def servedOld (u : Units) (r : MRead) : Units := if r.retried then addSat u F.DRF_SPLIT_retries 0 0 1 else u

/-- The data lines of a repair's rewrite: the rebuilt or poisoned target, the others as read, and a poisoned line for another one on which all three layers fail (R408). -/
def mendLines (g id : Nat) (k : Pkt) (target : MLine) (got : List (Nat × MLine)) (u : Units) : Units :=
  (List.range 9).foldl (fun u q =>
    let j := posLine k.dla q
    match (if j = 8 then none else bufOf u g id) with
    | none => u
    | some b =>
      match (if q = k.pos then some target else (got.find? fun y => y.1 == q).map fun y => y.2) with
      | some l => storeLine u g b j l
      | none =>
        let (l, u) := rmwPoison u g k.gen (k.lla / 8 * 8 + j)
        storeLine u g b j l) u

/-- The reads of a repair have ended: the stripe is written whole, with the line rebuilt or poisoned (R408). A parity line is whole where all eight data lines are. -/
def finishMend (u : Units) (g id : Nat) (r : MRead) : Units :=
  let u := dropRead u g r.id
  let b := r.detour
  let u := match bufOf u g id with
    | some e => (match e.use with
      | .repair pos source lla _ => putBuf u g { e with use := .repair pos source lla b.ok }
      | _ => u)
    | none => u
  bufGo (mendLines g id r.pkt (if b.ok then b.line else poisonLine r.pkt.gen r.pkt.lla) b.got u) g id

/-- After an attempt has ended: the read is served, retried at the oldest code, sent to its third layer, or has failed on all three (R322, R327, R398). -/
def resolveRead (u : Units) (g id : Nat) : Units :=
  match readOf u g id with
  | none => u
  | some r =>
    let a := r.direct
    let b := r.detour
    let k := r.pkt
    let fast := k.cls ≤ 1
    match r.use with
    | .mend id =>
      if b.ended = false then u
      else
        match (if b.ok ∨ r.retried then none else r.old) with
        | some c => beginDetour u g { r with retried := true } c
        | none => finishMend u g id r
    | _ =>
    if a.on ∧ a.ended ∧ a.ok then
      let u := if r.retried then addTally u k.prn (readRegion r) 2 else u
      finishRead (servedOld u r) g r (if a.zero then .zero a.line false else .line a.line false)
    else if b.on ∧ b.ended ∧ b.ok then
      let u := if r.detourFirst ∨ r.parallel then (if r.retried then addTally u k.prn (readRegion r) 2 else u) else addTally u k.prn (readRegion r) 4
      finishRead (servedOld u r) g r (if b.zero then .zero b.line true else .line b.line true)
    else if r.parallel then
      (if a.ended ∧ (b.ended ∨ b.on = false) then finishRead (repairTarget u r) g r .failed else u)
    else if r.detourFirst then
      if b.ended = false then u
      else if a.on then (if a.ended then finishRead (repairTarget u r) g r .failed else u)
      else
        match (if fast ∨ r.retried then none else r.old) with
        | some c => beginDetour u g { r with retried := true } c
        | none =>
          if dieFailed u (9 * g + k.pos) (k.group % 8) then finishRead (repairTarget u r) g r .failed
          else beginDirect (if fast then flag u F.INT_ERR_late_detour else u) g r b.code true
    else if a.ended = false then u
    else if b.on then (if b.ended then finishRead u g r .failed else u)
    else
      match (if fast ∨ r.retried then none else r.old) with
      | some c => beginDirect u g { r with retried := true } c false
      | none => beginDetour (repairTarget (if fast then flag u F.INT_ERR_late_detour else u) r) g r a.code

/-- Carry a read on until nothing more follows at once. -/
def settleRead2 (u : Units) (g id : Nat) : Units := resolveRead (resolveRead (resolveRead u g id) g id) g id

/-- What the two codes make of the line a die gave (R395, R397 steps 1 to 3): the line, or none; an outer correction is counted. -/
def decodeLine (u : Units) (n : Nat) (l : MLine) (err : BitVec 768) : Option MLine × Bool × Units :=
  if l.bad then
    let k := u.fresh
    let u := { u with fresh := k + 1 }
    if Config.freeBool k then (none, false, addSat u F.INT_CEX_n_CNT_uncorr n 0 1)
    else (some { data := Config.freeLine k, metaWord := Config.freeNat k % 2 ^ 64 }, false, u)
  else
    match mediaDecode u err with
    | (.clean, u) => (some l, false, u)
    | (.inner, u) => (some l, false, u)
    | (.outer, u) => (some l, true, count (addSat u F.INT_CEX_n_CNT_outer n 0 1) (cCex n 5))
    | (.failed, u) => (none, false, addSat u F.INT_CEX_n_CNT_uncorr n 0 1)
    | (.other d m, u) => (some { data := d, metaWord := m % 2 ^ 64 }, false, u)

/-- A direct line has been decoded. -/
def directLine (u : Units) (g : Nat) (r : MRead) (l : Option MLine) : Units :=
  match l with
  | none => putRead u g { r with direct := { r.direct with ended := true } }
  | some x =>
    match settleLine u r.pkt x with
    | (some z, u) => putRead u g { r with direct := { r.direct with ended := true, ok := true, zero := z, line := x } }
    | (none, u) => putRead (addSat u F.INT_CEX_n_CNT_uncorr (9 * g + r.pkt.pos) 0 1) g { r with direct := { r.direct with ended := true } }

/-- A line of a detour has been decoded; with the eighth the line is rebuilt and settled (R327). -/
def detourLine (u : Units) (g : Nat) (r : MRead) (q : Nat) (l : Option MLine) : Units :=
  let b := r.detour
  let b := match l with
    | none => { b with need := b.need.erase q, bad := b.bad ++ [q] }
    | some x => { b with need := b.need.erase q, got := b.got ++ [(q, x)] }
  let u := if l.isNone ∧ isMend r = false then queueRepair u r.pkt q (readSource r) else u
  if b.need ≠ [] then putRead u g { r with detour := b }
  else if b.bad ≠ [] then putRead u g { r with detour := { b with ended := true } }
  else
    let x := xorLines (b.got.map fun y => y.2)
    match (if posLine r.pkt.dla r.pkt.pos = 8 then (some false, u) else settleLine u r.pkt x) with
    | (some z, u) => putRead u g { r with detour := { b with ended := true, ok := true, zero := z, line := x } }
    | (none, u) => putRead u g { r with detour := { b with ended := true } }

/-! ### A read arrives (Table 10-1, R322, R323, R332) -/

/-- A C0 or C1 read waits at a sensing die. -/
def sensingAhead (u : Units) (n d : Nat) : Bool := let x := dieOf u n d; x.st == .sensing && x.queue.any fun r => r.cls ≤ 1

/-- A stripe of a degraded group that has a hard-failed line without a patch entry has two missing lines (R409). -/
def secondMissing (u : Units) (k : Pkt) : Bool :=
  (List.range 9).any fun q => let n := 9 * (k.group / 8) + q; !dieFailed u n (k.group % 8) && (storedLine u n (k.group % 8) k.dla).hard

/-- The read's target is read by detour, under Table 10-1. -/
def takesDetour (u : Units) (g : Nat) (k : Pkt) : Bool :=
  let n := 9 * g + k.pos
  let d := k.group % 8
  dieFailed u n d || (failedPos u k.group == [] && (inWindow u n || (decide (k.cls ≤ 1) && sensingAhead u n d)))

/-- Begin a read. -/
def startRead (u : Units) (g : Nat) (k : Pkt) (use : MUse) : Units :=
  let x := grp u g
  let r : MRead := { id := x.nextRead, pkt := k, use := use, old := fwdOld k }
  let u := setGrp u g { x with nextRead := x.nextRead + 1, reads := x.reads ++ [r] }
  match (if isFill r then bufAt u g k.group k.dla else none) with
  | some b => serveBuf (putRead u g { r with atBuf := true }) g b
  | none =>
    let dead := failedPos u k.group
    if 2 ≤ dead.length ∨ (dead ≠ [] ∧ secondMissing u k) then finishRead u g r .lost
    else
      let det := takesDetour u g k
      match (if k.cls ≤ 1 then fwdOld k else none) with
      | some c =>
        let r := { r with parallel := true }
        let u := count (addSat (putRead u g r) F.MS_g_READS_parallel g 0 1) (cGrp g 3)
        let u := if det then beginDetour u g r (fwdCode k) else beginDirect u g r (fwdCode k) true
        (match readOf u g r.id with
         | none => u
         | some r =>
           let u := if det then (if dieFailed u (9 * g + k.pos) (k.group % 8) then putRead u g { r with direct := { r.direct with ended := true } } else beginDirect u g r c true)
             else beginDetour u g r c
           settleRead2 u g r.id)
      | none =>
        if det then settleRead2 (beginDetour (putRead u g { r with detourFirst := true }) g { r with detourFirst := true } (fwdCode k)) g r.id
        else beginDirect u g r (fwdCode k) true

/-- A FILL_FWD reaches the scheduler. -/
def fillFwdOp (u : Units) (k : Pkt) : Units :=
  let u := releaseTicket (dropPkt u k.id) k.pool
  startRead u (k.dst - 64) k .fill

/-! ### The DQ bus (R324) -/

/-- Entry i of the turn table in force for a channel (R140): entries 0 to 7 are open. -/
def imageEntry (u : Units) (n i : Nat) : Nat :=
  let x := grp u (n / 9)
  if i < 8 ∨ ((tabGet x.nextTable (n % 9)).isEmpty ∧ (tabGet x.dropped (n % 9)).contains i) then 0 else (tabGet x.table (n % 9)).getD i 0

/-- The entry by which the turn under way is served: a C0 or C1 turn that a throttle pause has taken moves to the next open turn of its round (R142). -/
def mediaEntry (u : Units) (n : Nat) : Nat :=
  let x := grp u (n / 9)
  let q := n % 9
  let taken := if u.v = .v72 then [] else withheld u true n (tabGet x.table q) (tabGet x.dropped q)
  ((List.range (mediaTurn u x + 1)).foldl (fun (a : List Nat × Nat) t =>
    let i := (t + 72 - 8 * q) % 72
    let e := imageEntry u n i
    if taken.contains i then (if e % 4 = 1 ∨ e % 4 = 2 then a.1 ++ [e] else a.1, e)
    else if e % 4 = 0 then (a.1.drop 1, a.1.headD e)
    else (a.1, e)) ([], 0)).2

/-- The turn under way is a maintenance or an open turn, which alone carry maintenance traffic (R142). -/
def openTurn (u : Units) (n : Nat) : Bool := let k := imageEntry u n (mediaIdx u n) % 4; k == 0 || k == 3

/-- The maintenance requester a transfer works for; 7 for none. -/
def xferOwner (u : Units) (n : Nat) (t : Xfer) : Nat :=
  if t.load then ((bufOf u (n / 9) t.buf).map fun b => loadRequester u b).getD 7
  else ((dieOf u n t.die).result.map fun r => r.owner).getD 7

/-- A transfer is maintenance traffic. -/
def xferMaint (u : Units) (n : Nat) (t : Xfer) : Bool := (!t.load && t.cls == 4) || xferOwner u n t != 7

/-- Place of a transfer in the order of Table 4-4; a maintenance turn serves the arbiter's grant first. -/
def xferKey (u : Units) (n entry : Nat) (t : Xfer) : List Nat :=
  let kind := entry % 4
  let first := (kind == 1 && !t.load && t.cls == 0 && inPset u (entry / 4 % 16) t.port) || (kind == 2 && !t.load && t.cls == 1 && inPset u (entry / 4 % 16) t.port)
    || (kind == 3 && xferOwner u n t != 7 && xferOwner u n t == holderOf u n)
  let rank := if t.load then 3 else if t.cls = 0 then 0 else if t.cls = 1 then 1 else if t.cls = 2 then 2 else if t.cls = 3 then 4 else 5
  [if first then 0 else 1, rank, if rank = 2 then 7 - t.prio else 0, t.seq]

/-- A transfer may start: a LOAD goes only to an idle die outside its window with a free slot (R315), and one that works for a maintenance requester under its grant (R425). -/
def xferReady (u : Units) (n : Nat) (t : Xfer) : Bool :=
  let x := dieOf u n t.die
  let o := xferOwner u n t
  if paused u n || (xferMaint u n t && !openTurn u n) || (t.load && o != 7 && o != holderOf u n) then false
  else if t.load then x.st == .idle && !inWindow u n && !mediaHeld u n && x.slots.length < 8 && !dieFailed u n t.die else true

/-- Line of an entry for a die position. -/
def bufLine (b : SBuf) (q : Nat) : MLine := tabGet b.lines (posLine b.dla q)

/-- A LOAD: the upper-address register where it holds another value, the line into a free slot, and into the patch copy of a patched line (R287, R417). -/
def loadLine (u : Units) (n : Nat) (t : Xfer) (lost : Bool) : Units :=
  match bufOf u (n / 9) t.buf with
  | none => u
  | some b =>
    let x := dieOf u n t.die
    let up := b.dla / 2 ^ 23 % 256
    let slot := ((List.range 8).find? fun i => !(x.slots.any fun s => s.1 == i)).getD 0
    let u := if x.chip.padr = up then u else frame u n 3 t.die up
    let u := loadFrame u n t.die (slot * 2 ^ 23 + b.dla % 2 ^ 23) (bufLine b t.pos) lost
    let x := dieOf u n t.die
    let u := setDie u n t.die { x with slots := x.slots ++ [(slot, t.buf, (grp u (n / 9)).round)] }
    let y := cex u n
    let u := setCex u n { y with patches := y.patches.map fun p => if p.1 = t.die ∧ p.2.1 = b.dla then (p.1, p.2.1, bufLine b t.pos) else p }
    count (countRun (endGrant u (chKey true n) (loadRequester u b)) (cCex n 7) 24) (cCex n 4)

/-- SUSPEND to a program that runs outside its window. -/
def suspendDie (u : Units) (n d : Nat) : Units :=
  let x := dieOf u n d
  if x.st = .programming ∧ x.suspSent = false ∧ inWindow u n = false then order u n 5 d 0 fun x => { x with suspSent := true, since := u.now } else u

/-- Dies that a withheld turn has stopped go on; a pause suspends every program of the channel outside its window (R498). -/
def retryDies (u : Units) (n : Nat) : Units :=
  (List.range 8).foldl (fun u d => if paused u n then suspendDie u n d else tryResume (dieGo u n d) n d) u

/-- Programs that the end of their window leaves running beyond the cap of R498 are suspended. -/
def capPrograms (u : Units) (n : Nat) : Units :=
  (List.range 8).foldl (fun u d => if outsideCap u (n / 9) < outsidePrograms u (n / 9) then suspendDie u n d else u) u

/-- The free bus starts the next transfer: a LOAD runs whole, a DOUT stands on the bus until its line has been received. -/
def dqTransferOp (u : Units) (n : Nat) (lost : Bool) : Units :=
  let y := cex u n
  if y.cur.isSome then u
  else
    let e := mediaEntry u n
    match sortedBy (fun a b => keyLe (xferKey u n e a) (xferKey u n e b)) (y.xq.filter fun t => xferReady u n t) with
    | [] => u
    | t :: _ =>
      let u := setCex u n { y with xq := y.xq.erase t }
      if t.load then loadLine u n t lost
      else
        let y := cex u n
        let u := frame (setCex u n { y with cur := some t }) n 1 t.die 0
        tryResume (count (countRun u (cCex n 7) 24) (cCex n 3)) n t.die

/-- The 48 beats of a DOUT have arrived: the line is decoded and handed to its read; a result whose read has ended is dropped. -/
def lineReceivedOp (u : Units) (n : Nat) (err : BitVec 768) : Units :=
  let y := cex u n
  match y.cur with
  | none => u
  | some t =>
    let u := captureMove (setCex u n { y with cur := none }) n t.die
    let x := dieOf u n t.die
    match x.result with
    | none => u
    | some dr =>
      let u := setDie u n t.die { x with result := none }
      let g := n / 9
      let patch := patchOf u n t.die dr.dla
      let u :=
        match readOf u g dr.rid with
        | none => u
        | some r =>
          let (l, outer, u) := decodeLine u n (patch.getD (x.chip.reg.getD {})) (if patch.isSome then 0 else err)
          let u := if outer ∧ ¬ (r.retried ∧ dr.detour = false) then addTally u r.pkt.prn (readRegion r) 1 else u
          let u := if dr.detour then detourLine u g r dr.pos l else directLine u g r l
          settleRead2 u g r.id
      tryResume (dieGo u n t.die) n t.die

/-! ### BSY_N, phases, programs -/

/-- Blocked reads whose die is no longer in its window go on. -/
def unblock (u : Units) (g : Nat) : Units :=
  ((grp u g).reads.filter fun r => r.direct.blocked || r.detour.blocked).foldl (fun u r0 =>
    match readOf u g r0.id with
    | none => u
    | some r =>
      let u := if r.direct.blocked then beginDirect u g r r.direct.code true else u
      let r := (readOf u g r0.id).getD r
      let u := if r.detour.blocked then beginDetour u g r r.detour.code else u
      settleRead2 u g r0.id) u

/-- The next phase begins: the window of the next die position opens, the last one's closes (R312). A turn table that a latch has brought in takes force at the start of a round. -/
def phaseStartOp (u : Units) (g : Nat) : Units :=
  let x := grp u g
  let last := x.phase
  let p := (x.phase + 1) % 9
  let x := { x with phase := p, phaseAt := u.now, round := if p = 0 then x.round + 1 else x.round }
  let x := if p = 0 then { x with table := ⟨x.nextTable.cells.foldl (fun t c => tabInsert c.1 c.2 t) x.table.cells⟩, nextTable := tabNil } else x
  let u := setGrp u g x
  let y := cex u (9 * g + p)
  let u := setCex u (9 * g + p) { y with dies := ⟨y.dies.cells.map fun c => (c.1, { c.2 with started := false })⟩ }
  let u := (List.range 8).foldl (fun u d => tryResume (dieGo u (9 * g + last) d) (9 * g + last) d) u
  unblock (capPrograms u (9 * g + last)) g

/-- A line that could not be programmed three times (R409): it is patched, or left hard-failed; the region's wear is set to its end and reported. -/
def hardFail (u : Units) (n d : Nat) (b : SBuf) : Units :=
  let q := n % 9
  let (ok, u) := addMediaPatch u n d b.dla (bufLine b q)
  let u := { u with media := tabPut u.media (mediaKey n d b.dla) { bad := true, hard := !ok } }
  let u := putPip u b.prn (nput (pipEntry u b.prn) 0 24 0xFFFFFF)
  let u := addSat u F.INT_CEX_n_PFAIL_hard n 0 1
  healthNotice (cexIntEvent u n) true n 2 d 0 b.dla

/-- The outcome of one programmed slot (R287, R409). -/
def slotDone (u : Units) (n d : Nat) (buf : Nat) (fail : Bool) : Units :=
  let g := n / 9
  let q := n % 9
  match bufOf u g buf with
  | none => u
  | some b =>
    let patched := (patchOf u n d b.dla).isSome
    if fail ∧ patched = false then
      let k := tabGet b.fails q + 1
      let u := { u with media := tabPut u.media (mediaKey n d b.dla) { bad := true } }
      let b := { b with fails := tabPut b.fails q k }
      if k ≤ 2 then
        let y := cex u n
        let u := setCex u n { y with xq := y.xq ++ [{ load := true, die := d, buf := buf, pos := q, seq := (grp u g).seq }] }
        addSat (putBuf u g b) F.INT_CEX_n_PFAIL_retries n 0 1
      else hardFail (putBuf u g { b with todo := b.todo.erase q }) n d b
    else
      let u := if fail then { u with media := tabPut u.media (mediaKey n d b.dla) { bad := true } }
        else { u with media := tabPut u.media (mediaKey n d b.dla) (bufLine b q) }
      putBuf u g { b with todo := b.todo.erase q }

/-- A stripe has been written: counted, its wear added, and, for a repair, settled: its pin falls, and its outcome is counted and reported (R330, R341, R408). -/
def stripeDone (u : Units) (g id : Nat) : Units :=
  match bufOf u g id with
  | none => u
  | some b =>
    if b.formed = false ∨ b.todo ≠ [] ∨ clearIdle b then u
    else
      let full := match b.use with
        | .destage _ => b.want == 8
        | .move _ _ => true
        | _ => false
      let u := if full then count (addSat u F.MS_g_WRITES_full g 0 1) (cGrp g 4) else count (addSat u F.MS_g_WRITES_partial g 0 1) (cGrp g 5)
      let u := addWear u b.prn
      match b.use with
      | .repair _ source lla ok =>
        let u := unpinStripe (dropBuf u g id) (b.stripe / 16384) (b.stripe % 16384)
        if ok then
          let u := if source = 3 then addTally u b.prn (lla / 131072) 4 else u
          let u := addSat u F.INT_REPAIR_rebuilt 0 0 1
          let u := emitEvent u 6 0 [BitVec.ofNat 32 lla, BitVec.ofNat 32 (lla / 2 ^ 32 + source * 2 ^ 7 + 2 ^ 11)]
          notice u 6 (lla + source * 2 ^ 40 + 2 ^ 48)
        else poisonMade (addSat u F.INT_REPAIR_poisoned 0 0 1) lla source
      | _ => u

/-- A die's program has completed (R287, R288). -/
def programCompleteOp (u : Units) (n d : Nat) (pfail : Nat) : Units :=
  let x := dieOf u n d
  if x.st ≠ .programming then u
  else
    let run := x.running
    let u := setDie u n d { x with st := .idle, pgm := false, suspSent := false, running := [], chip := x.chip.completes pfail }
    let u := run.foldl (fun u s => slotDone u n d s.2 (nbits pfail s.1 1 == 1)) u
    let u := run.foldl (fun u s => stripeDone u (n / 9) s.2) u
    dieGo u n d

/-! ### The stripe buffer (R329 to R331) -/

/-- An entry holds a DESTAGE stripe, of which each staging slice may always have one in each group (R329, R432). -/
def isDestage (b : SBuf) : Bool := match b.use with
  | .destage _ => true
  | _ => false

/-- Take an entry for a stripe, where one is free and neither another entry nor a PATCH_ADD holds the stripe. Sixteen of the 32 serve rewrites and moves. -/
def takeBuf (u : Units) (g : Nat) (b : SBuf) : Option (Nat × Units) :=
  let x := grp u g
  let patching := x.reads.any fun r => r.pkt.group == b.group && r.pkt.dla == b.dla && (match r.use with | .patch _ _ => true | _ => false)
  let full := !isDestage b && 16 ≤ (x.bufs.filter fun y => !isDestage y).length
  if 32 ≤ x.bufs.length ∨ full ∨ (bufAt u g b.group b.dla).isSome ∨ patching then none
  else some (x.nextBuf, setGrp u g { x with bufs := x.bufs ++ [{ b with id := x.nextBuf }], nextBuf := x.nextBuf + 1 })

/-- Read an absent line of an entry at maintenance class (R331). -/
def readAbsent (u : Units) (g : Nat) (b : SBuf) (j : Nat) : Units :=
  let k : Pkt := { typ := .fillFwd, cls := 4, prio := 0, port := 64, lla := b.stripe * 8 + j, group := b.group, pos := dataPos b.dla j, dla := b.dla, gen := b.gen, prn := b.prn, code := twoCodes (readCodes u b.prn) }
  startRead u g k (.absent b.id j)

/-- Fill the data lines an entry still lacks: blank where its region is leaving the fresh state, else read. -/
def fillAbsent (u : Units) (g id : Nat) : Units :=
  match bufOf u g id with
  | none => u
  | some b =>
    let miss := (List.range 8).filter fun j => !b.held.contains j
    let u := if b.fresh then miss.foldl (fun u j => match bufOf u g id with
        | none => u
        | some b => storeLine u g b j blankLine) u
      else miss.foldl (fun u j => readAbsent u g b j) u
    bufGo u g id

/-- A DESTAGE packet reaches the group: its line enters the stripe's entry, and when the last one has come the absent lines are filled. A packet that finds no entry waits in its slot. -/
def destageOp (u : Units) (k : Pkt) (err : FlitErr) : Units :=
  let g := k.dst - 64
  let stripe := k.lla / 8
  let mine := (grp u g).bufs.find? fun b => b.group == k.group && b.dla == k.dla && b.use == .destage (k.src - 32) && !b.formed && b.held.length < b.want
  let place := match mine with
    | some b => some (b.id, u)
    | none => takeBuf u g { use := .destage (k.src - 32), group := k.group, dla := k.dla, prn := k.prn, gen := k.gen, stripe := stripe, want := k.tag, fresh := k.zline }
  match place with
  | none => u
  | some (id, u) =>
    match landFlit u k err with
    | (none, u) => u
    | (some badLine, u) =>
      let u := releaseTicket (dropPkt u k.id) k.pool
      let u := if badLine then poisonMade u k.lla 5 else u
      let l : MLine := if k.poison || badLine then poisonLine k.gen k.lla else { data := k.data, metaWord := metaOf k.gen false (addrCheck k.lla) }
      match bufOf u g id with
      | none => u
      | some b =>
        let u := storeLine u g b (k.lla % 8) l
        let u := match bufOf u g id with
          | some b => serveBuf u g b
          | none => u
        if b.held.length + 1 = b.want then fillAbsent u g id else u

/-! ### Die faults (Table 9-11) and failures -/

/-- The masked lines of a program count as failed: after a RESET their content is undefined (R289). -/
def abortProgram (u : Units) (n d : Nat) : Units :=
  let x := dieOf u n d
  let u := setDie u n d { x with running := [], pgm := false }
  x.running.foldl (fun u s => slotDone u n d s.2 true) u

/-- RESET frame to a die: its slots are cleared, so their lines are loaded once more. -/
def resetDie (u : Units) (n d : Nat) : Units :=
  let u := abortProgram u n d
  let x := dieOf u n d
  let y := cex u n
  let u := reloadSlots (setCex u n { y with xq := y.xq.filter (fun t => t.load || t.die != d) }) n d x.slots
  let back := match x.result with
    | some r => [r]
    | none => []
  order u n 16 d 0 fun x => { x with st := .other, pgm := false, suspSent := false, cur := none, result := none, queue := x.queue ++ back, slots := [], running := [], calibrating := false, reloaded := false }

/-- A read at a die is given up there and served as for a die in its window: a direct read takes the detour, a detour read fails. -/
def divertRead (u : Units) (g : Nat) (dr : DRead) : Units :=
  match readOf u g dr.rid with
  | none => u
  | some r =>
    let u := if dr.detour then detourLine u g r dr.pos none
      else if r.detour.on then directLine u g r none
      else beginDetour (putRead u g { r with detourFirst := true, direct := {} }) g { r with detourFirst := true, direct := {} } dr.code
    settleRead2 u g dr.rid

/-- A die has become failed: its waiting reads detour, stripes in flight no longer wait for it, and the hinge unit acts (R307, R332, R358). -/
def loseDie (u : Units) (n d : Nat) : Units :=
  let g := n / 9
  let s := 8 * g + d
  let u := if u.hng.mounted then failDie u s (n % 9) else let y := cex u n; setCex u n { y with failed := if y.failed.contains d then y.failed else y.failed ++ [d] }
  let x := dieOf u n d
  let y := cex u n
  let cur := match y.cur with
    | some t => if t.die = d then none else some t
    | none => none
  let u := setCex u n { y with dies := tabPut y.dies d { chip := x.chip }, xq := y.xq.filter (fun t => t.die != d), cur := cur }
  let gx := grp u g
  let u := setGrp u g { gx with bufs := gx.bufs.map fun b => if b.group = s then { b with todo := b.todo.erase (n % 9) } else b }
  let u := (gx.bufs.filter fun b => b.group == s).foldl (fun u b => stripeDone u g b.id) u
  let reads := x.queue ++ (match x.cur with
    | some r => [r]
    | none => []) ++ (match x.result with
    | some r => [r]
    | none => [])
  reads.foldl (fun u r => divertRead u g r) u

/-- A late case: counted, flagged and reported; the sixteenth in any second fails the die (R307). -/
def lateCase (u : Units) (n d : Nat) : Units :=
  let u := cexEvent (flag (addSat u F.CEX_n_LATE_late n 0 1) F.CEX_n_ERR_late n) n d
  let x := dieOf u n d
  let t := (x.lateAt.filter fun y => usec u < y + 1000000) ++ [usec u]
  let u := setDie u n d { x with lateAt := t }
  if 16 ≤ t.length then loseDie u n d else u

/-- BSY_N has not fallen after an array-operation frame: the die is as it was before, and whether the frame reached it damaged (and by its parity) is a free value. STATUS is asked; where it reports ca_par or cmd_err the frame is sent once more. -/
def stayedHighOp (u : Units) (n d : Nat) : Units :=
  let x := dieOf u n d
  let k := u.fresh
  let chip := if Config.freeBool k then x.prior.damaged (Config.freeBool (k + 1)) else x.prior
  let (w, u) := askStatus (setDie { u with fresh := k + 2 } n d { x with chip := chip }) n d
  if nbits w 4 2 ≠ 0 ∧ x.resent = false then order u n x.last.1 d x.last.2 fun x => { x with resent := true }
  else lateCase u n d

/-- A die's BSY_N is checked at its limit. -/
def lateCheckOp (u : Units) (n d : Nat) (seen : DieSeen) : Units :=
  let x := dieOf u n d
  match seen with
  | .inTime => u
  | .stayedHigh =>
    (match x.st with
     | .idle => u
     | .suspended => u
     | _ => stayedHighOp u n d)
  | .stayedLow =>
    match x.st with
    | .sensing =>
      (match x.cur with
       | some r => lateCase (divertRead (setDie u n d { x with cur := none }) (n / 9) r) n d
       | none => dieGo (resetDie u n d) n d)
    | .programming =>
      if x.suspSent then
        (match nextRead (holderOf u n) x with
         | some r => lateCase (divertRead (setDie u n d { x with queue := x.queue.erase r }) (n / 9) r) n d
         | none => lateCase u n d)
      else
        let run := x.running
        let u := resetDie u n d
        lateCase (run.foldl (fun u s => stripeDone u (n / 9) s.2) u) n d
    | _ => u

/-- Before a PROGRAM, STATUS.loaded is compared with the slots loaded (Table 9-11): the slots that are missing. -/
def missingSlots (u : Units) (n d : Nat) : List (Nat × Nat × Nat) × Units :=
  let (w, u) := askStatus u n d
  ((dieOf u n d).slots.filter fun s => nbits w (8 + s.1) 1 == 0, u)

/-- An idle die starts its program where it holds enough loaded slots, or one has waited long enough (R313). Slots found missing are loaded once more; the second time, the case is late and the slots count as failed. -/
def tryProgram (c : Ctl) (u : Units) (n d : Nat) : Units :=
  let x := dieOf u n d
  let g := n / 9
  let wait := getF u F.MS_g_CFG_batch_wait g
  let enough := getF u F.MS_g_CFG_batch_min g ≤ x.slots.length ∨ wait = 0 ∨ x.slots.any fun s => wait ≤ (grp u g).round - s.2.2
  if x.st = .idle ∧ x.slots ≠ [] ∧ enough ∧ deferredDie c u n d = false ∧ u.pwr.hushing = false then
    let mask := (x.slots.map fun s => 2 ^ s.1).sum
    let (miss, u) := missingSlots u n d
    if miss = [] then
      count (order u n 4 d mask fun x => { x with st := .programming, pgm := true, suspSent := false, reloaded := false, running := x.slots.map (fun s => (s.1, s.2.1)), slots := [] }) (cCex n 1)
    else if x.reloaded = false then
      let x := dieOf u n d
      reloadSlots (setDie u n d { x with reloaded := true, slots := x.slots.filter fun s => !miss.contains s }) n d miss
    else
      let u := setDie u n d { dieOf u n d with slots := [], reloaded := false }
      lateCase (x.slots.foldl (fun u s => stripeDone u g s.2.1) (x.slots.foldl (fun u s => slotDone u n d s.2.1 true) u)) n d
  else u

/-- A die's BSY_N is seen high (R281). -/
def bsyRiseOp (c : Ctl) (u : Units) (n d : Nat) : Units :=
  let x := dieOf u n d
  match x.st with
  | .idle => u
  | .suspended => u
  | .programming =>
    if x.suspSent = false then u
    else
      let took := min 65535 ((u.now - x.since) * 16)
      let u := addSat u F.CEX_n_SUSP_count n 0 1
      let u := if getF u F.CEX_n_SUSP_longest n < took then putF u F.CEX_n_SUSP_longest n 0 took else u
      let u := count (setDie u n d { x with st := .suspended, suspSent := false, chip := x.chip.suspends }) (cCex n 2)
      tryResume (dieGo u n d) n d
  | .sensing =>
    let back : DieSt := if x.pgm then .suspended else .idle
    let u := dieEnds u n d (tabGet u.media (mediaKey n d ((x.cur.map fun r => r.dla).getD 0)))
    let x := dieOf u n d
    match x.cur with
    | none => tryResume (dieGo (setDie u n d { x with st := back }) n d) n d
    | some r =>
      if 2 ≤ r.cls ∧ (x.queue.any fun y => y.cls ≤ 1) then
        let u := addSat u F.MS_g_CUTS_drops (n / 9) 0 1
        afterDiscard (setDie u n d { x with st := back, cur := none, queue := x.queue ++ [r] }) n d
      else
        let u := setDie u n d { x with st := back, cur := none, result := some r }
        let y := cex u n
        setCex u n { y with xq := y.xq ++ [{ die := d, cls := r.cls, prio := r.prio, port := r.port, seq := r.seq }] }
  | .other =>
    let cal := x.calibrating
    let u := dieEnds u n d {}
    let u := setDie u n d { dieOf u n d with st := .idle, calibrating := false }
    let u := if cal then endGrant u (chKey true n) 3 else u
    let u := if cal then countRun u (cCex n 6) ((u.now - x.since) * 16) else u
    let u := if cal ∧ inWindow u n then tryProgram c u n d else u
    dieGo u n d

/-- The die's cycle of its window, 720q + 2d: CALIBRATE, RESUME or PROGRAM (R304, R313). -/
def programSlotOp (c : Ctl) (u : Units) (n d : Nat) : Units :=
  let x := dieOf u n d
  if inWindow u n = false ∨ x.started ∨ dieFailed u n d then u
  else
    let x := { x with started := true }
    let u := setDie u n d x
    match x.st with
    | .suspended => order u n 6 d 0 fun x => { x with st := .programming, suspSent := false }
    | .idle =>
      if x.zqDue ∧ holderOf u n = 3 then order u n 10 d 0 fun x => { x with st := .other, zqDue := false, calibrating := true, since := u.now }
      else tryProgram c u n d
    | _ => u

/-! ### Link compensation, CALIBRATE, temperatures -/

/-- The first live die at or after d, in turn. -/
def nextDie (u : Units) (n d : Nat) : Option Nat := ((List.range 8).map fun i => (d + i) % 8).find? fun i => !dieFailed u n i

/-- The next link check of a channel is due (R303). -/
def linkDue (u : Units) (n : Nat) : Bool :=
  let p := getF u F.CEX_n_LINK_period n
  p != 0 && (cex u n).linkAt + 100000 * p ≤ u.now

/-- One point of a link check: TLOAD of a fresh pattern at an offset, DOUT of the training slot. The pattern is Vipra's own: a free value. -/
def probe (u : Units) (n d : Nat) : Units :=
  let (k, u) := takeFree u
  captureMove (frame (tload u n d (BitVec.ofNat 768 k)) n 1 d 2) n d

/-- A link check of the next die, in the channel's own phase under the grant of its calibration requester, which ends with it (R303): whether the lower and the upper point pass. -/
def linkCheckOp (u : Units) (n : Nat) (below above : Bool) : Units :=
  match nextDie u n (cex u n).linkDie with
  | none => u
  | some d =>
    let y := cex u n
    let u := countRun (setCex u n { y with linkDie := (d + 1) % 8, linkAt := u.now }) (cCex n 6) 176
    let u := endGrant (probe (probe u n d) n d) (chKey true n) 3
    if below = false ∧ above then moveTrim u (writeTrim n d) 1
    else if below ∧ above = false then moveTrim u (writeTrim n d) (-1)
    else if below then u
    else healthNotice (cexEvent (flag u F.CEX_n_ERR_drift n) n d) true n 1 d 0 0

/-- The next die in turn is due for CALIBRATE, at its cycle of its window (R304). -/
def zqOp (u : Units) (n : Nat) : Units :=
  match nextDie u n (cex u n).zqDie with
  | none => u
  | some d =>
    let y := cex u n
    let u := setCex u n { y with zqDie := (d + 1) % 8 }
    setDie u n d { dieOf u n d with zqDue := true }

/-- A signed byte. -/
def asSigned (x : Nat) : Int := if x < 128 then x else (x : Int) - 256

/-- The temperature that counts for a die's deferral: its own, or the highest valid one of its channel's other dies plus a zone offset (R389). -/
def dieTemp (u : Units) (n d offset : Nat) : Option Int :=
  if getF u F.CEX_n_DIE_d_temp_valid n d = 1 then some (asSigned (getF u F.CEX_n_DIE_d_temp n d))
  else
    let l := ((liveDies u n).filter fun i => getF u F.CEX_n_DIE_d_temp_valid n i = 1).map fun i => asSigned (getF u F.CEX_n_DIE_d_temp n i)
    match l with
    | [] => none
    | a :: t => some (t.foldl max a + offset)

/-- Settle the deferral of a die from a temperature: it ends when the reading has come back inside the limit it crossed by the hysteresis (R388). -/
def settleDeferral (u : Units) (n d : Nat) (t : Option Int) : Units :=
  let k := n * 8 + d
  let was := u.drf.deferred.contains k
  let hi := asSigned (inF u F.DRF_TEMP_prog_hi)
  let lo := asSigned (inF u F.DRF_TEMP_prog_lo)
  let hy : Int := inF u F.DRF_TEMP_hyst
  let chill := was && u.drf.cold.contains k
  let (hot, cold) := match t with
    | none => (false, false)
    | some x => (decide (hi ≤ x) || (was && !chill && decide (hi - hy < x)), decide (x < lo) || (chill && decide (x < lo + hy)))
  let rest := u.drf.deferred.filter fun i => i != k
  let colds := u.drf.cold.filter fun i => i != k
  { u with drf := { u.drf with deferred := if hot || cold then rest ++ [k] else rest, cold := if cold then colds ++ [k] else colds } }

/-- Highest operating temperature of a die, from its identify record (Table 9-6). -/
def dieHot (u : Units) (n d : Nat) : Int :=
  match (tabGet (cex u n).ident d)[29]? with
  | some b => asSigned b.toNat
  | none => 105

/-! ### Meanings -/

/-- FILL_FWD (R316): the read begins at its scheduler. -/
def execFillFwd (pkt : Landing) (s : State) : Host.Outcome State Fault Refusal :=
  onU s fun _ u => onPkt u pkt.pkt .fillFwd fun k u => if pdOn u (pdMedia (k.dst - 64)) then landOne u k pkt.err fun u => fillFwdOp u k else u

/-- DESTAGE (R330). -/
def execDestage (pkt : Nat) (err : FlitErr) (s : State) : Host.Outcome State Fault Refusal :=
  onU s fun _ u => onPkt u pkt .destage fun k u => if pdOn u (pdMedia (k.dst - 64)) then destageOp u k err else u

/-- BSY_N_RISE (R281). -/
def execBsyNRise (ch die : Nat) (s : State) : Host.Outcome State Fault Refusal :=
  onU s fun c u => if cexRuns u ch && die < 8 then bsyRiseOp c u ch die else u

/-- MEDIA_LINE_RECEIVED (R397). -/
def execMediaLineReceived (ch : Nat) (err : BitVec 768) (s : State) : Host.Outcome State Fault Refusal :=
  onU s fun _ u => if cexRuns u ch then lineReceivedOp u ch err else u

/-- DQ_TRANSFER (R324). -/
def execDqTransfer (ch : BusTurn) (s : State) : Host.Outcome State Fault Refusal :=
  onU s fun _ u => if cexRuns u ch.ch then dqTransferOp (retryDies u ch.ch) ch.ch ch.lost else u

/-- The rounds of a group run: its TRAIN has ended (R311). -/
def roundsRun (u : Units) (g : Nat) : Bool := (List.range 9).all fun q => getF u F.CEX_n_STATE_state (9 * g + q) != 1

/-- PHASE_START (R312). -/
def execPhaseStart (group : Nat) (s : State) : Host.Outcome State Fault Refusal :=
  onU s fun _ u => if group < nGroups u.v && pdOn u (pdMedia group) && roundsRun u group then phaseStartOp u group else u

/-- PROGRAM_SLOT (R313). -/
def execProgramSlot (ch die : Nat) (s : State) : Host.Outcome State Fault Refusal :=
  onU s fun c u => if cexRuns u ch && die < 8 then programSlotOp c u ch die else u

/-- PROGRAM_COMPLETE (R330). -/
def execProgramComplete (ch die : Nat) (pfail : BitVec 8) (s : State) : Host.Outcome State Fault Refusal :=
  onU s fun _ u => if cexRuns u ch && die < 8 then programCompleteOp u ch die pfail.toNat else u

/-- LINK_CHECK (R303), in the channel's own phase (R333). -/
def execLinkCheck (ch : Nat) (below above : Bool) (s : State) : Host.Outcome State Fault Refusal :=
  onU s fun _ u => if cexRuns u ch && inWindow u ch && linkDue u ch && (holderOf u ch == 3) && (cex u ch).cur.isNone then linkCheckOp u ch below above else u

/-- ZQ_CALIBRATE (R304). -/
def execZqCalibrate (ch : Nat) (s : State) : Host.Outcome State Fault Refusal :=
  onU s fun _ u => if cexRuns u ch && getF u F.CEX_n_LINK_zq_period ch != 0 then zqOp u ch else u

/-- DIE_LATE_CHECK (R307). -/
def execDieLateCheck (ch die : Nat) (seen : DieSeen) (s : State) : Host.Outcome State Fault Refusal :=
  onU s fun _ u => if cexRuns u ch && die < 8 then lateCheckOp u ch die seen else u

end Sys2Proof.Machine
end

