-- ==== Sys2Proof/Machine/Moves.lean ====
section
/-! DEFINITION. What the hinge unit and the drift unit do at their own moments: fill requests, placement, moves, sweeps and formats, the scans, the journal and checkpoints, age epochs and calibration (chapters "Hinge Table, Pip Table and Region Moves", "Drift and Reroll"). -/

namespace Sys2Proof.Machine

/-! ### FILL_REQ (R37, R38, R345, R351, R360) -/

/-- A zero-line indication to the slice, and to the requester of a read that is not an early fill. -/
def hingeZero (u : Units) (k : Pkt) : Units :=
  let t : Pkt := { typ := .zero, src := epCore 1, prio := k.prio, epoch := k.epoch, port := k.port, ord := k.ord, lla := k.lla, kind := k.kind, cls := k.cls, zline := true }
  let u := sendPkt (count u (cCore 11)) { t with dst := k.src }
  if k.bound = false ∧ (k.kind = .read ∨ k.kind = .merge) then sendPkt u { t with dst := k.handle } else u

/-- A status to the slice. -/
def hingeDone (u : Units) (k : Pkt) (status : Nat) : Units :=
  sendPkt u { typ := .done, src := epCore 1, dst := k.src, prio := k.prio, epoch := k.epoch, aux := status, port := k.port, ord := k.ord, lla := k.lla, kind := k.kind }

/-- Media group that a FILL_REQ is for. -/
def fwdGroup (u : Units) (k : Pkt) : Nat := epGroup (prnGroup u.v (placeOf u (k.lla / 131072) (k.lla / 8 % 16384)) / 8)

/-- Another FILL_REQ at the hinge unit comes before this one in the pool toward a group: of higher priority, or of the same and earlier to wait (R176). -/
def fwdRival (u : Units) (g : Nat) (k : Pkt) : Bool :=
  u.net.any fun x => x.typ == .fillReq && x.waits != 0 && x.id != k.id && fwdGroup u x == g &&
    decide (k.prio < x.prio ∨ (k.prio = x.prio ∧ (k.waits = 0 ∨ x.waits < k.waits)))

/-- A FILL_REQ waits in its slot for a ticket of its forward. -/
def waitFwd (u : Units) (k : Pkt) : Units :=
  { u with net := u.net.map fun x => if x.id = k.id ∧ x.waits = 0 then { x with waits := u.now + 1 } else x }

/-- A FILL_REQ at the hinge unit: a lost region answers CAPACITY_LOST, a fresh one zero, a fenced group FENCED; else the read is forwarded to its scheduler with its place, generation and codes. It waits in its slot while no ticket is free. -/
def fillReqOp (u : Units) (k : Pkt) (err : FlitErr) : Units :=
  let l := k.lla / 131072
  let t := k.lla / 8 % 16384
  let e := hingeEntry u l
  let go := fun (f : Units → Units) => landOne u k err fun u => f (releaseTicket (dropPkt u k.id) k.pool)
  if badRegion u l ∨ hLost e then go fun u => hingeDone u k 7
  else if hFresh e then go fun u => hingeZero u k
  else
    let p := placeOf u l t
    let s := prnGroup u.v p
    let g := epGroup (s / 8)
    if routeRefused u (epCore 1) g then go fun u => hingeDone u k 4
    else
      let id := poolId 0 (epCore 1) g
      if canTake u id k.prio = false ∨ fwdRival u g k then waitFwd u k
      else
        let dla := stripeDla u p t
        go fun u => sendPkt (takeTicket u id) { typ := .fillFwd, src := epCore 1, dst := g, prio := k.prio, epoch := k.epoch, pool := id, port := k.port, ord := k.ord, lla := k.lla, kind := k.kind, cls := k.cls, group := s, pos := dataPos dla (k.lla % 8), dla := dla, gen := pGen (pipEntry u p), prn := p, handle := k.handle, tag := k.src - 32, bound := k.bound, code := twoCodes (readCodes u p) }

/-! ### Placement and the end of a destage -/

/-- Replace a destage job. -/
def putJob (u : Units) (s : Nat) (j : Destage) : Units :=
  let x := slice u s
  setSlice u s { x with jobs := x.jobs.map fun y => if y.stripe = j.stripe then j else y }

/-- The ways of a stripe of a lost region are emptied; the writes are lost (R360). -/
def lostDestage (c : Ctl) (u : Units) (s : Nat) (j : Destage) : Units :=
  match hdrEntry u s j.set with
  | none => dropDestage c u s j
  | some e =>
    if wqRoom u s [j.set * 16] = false then u
    else
      let x := slice u s
      let (x, h) := j.ways.foldl (fun p w => finishWay u s { j with empties := j.ways.map (fun y => y.1) } p w.1) (x, e.hdr)
      let e := { e with hdr := h, busy := e.busy.filter fun b => !(b.2 == .destage && j.ways.any fun w => w.1 == b.1) }
      let u := setSlice u s { x with jobs := x.jobs.filter fun y => y.stripe != j.stripe }
      pumpSlice c (writeHeader u s e 2 (destagePrio c) 64) s

/-- The hinge unit answers the oldest placement request of a slice (R345, R351, R377). -/
def placementOp (c : Ctl) (u : Units) (s : Nat) : Units :=
  match (slice u s).jobs.find? fun j => j.phase == .asking with
  | none => u
  | some j =>
    match placementAnswer c u (j.stripe / 16384) (j.stripe % 16384) with
    | (.wait, u) => u
    | (.pass, u) => dropDestage c u s j
    | (.lost, u) => lostDestage c u s j
    | (.at_ prn dla gen fresh, u) =>
      pumpSlice c (putJob u s { j with phase := .placed, group := prnGroup u.v prn, prn := prn, dla := dla, gen := gen, fresh := fresh }) s

/-- A stripe destaged at the target of a move at or above the last journalled cursor is durable only once a MOVE_CURSOR above it is (R351). -/
def noteExposed (u : Units) (b : SBuf) : Units :=
  match moveOf u (b.stripe / 16384) with
  | none => u
  | some i =>
    let m := tabGet u.hng.slots i
    if m.tgt = b.prn ∧ m.jcursor ≤ b.stripe % 16384 then { u with hng := { u.hng with slots := tabPut u.hng.slots i { m with exposed := true } } } else u

/-- Append the cursor of a move to the journal. -/
def journalCursor (u : Units) (slot : Nat) : Units :=
  let m := tabGet u.hng.slots slot
  let u := { u with hng := { u.hng with slots := tabPut u.hng.slots slot { m with jcursor := m.cursor, exposed := false }, expSeq := if m.exposed then u.hng.seq + 1 else u.hng.expSeq } }
  journal u 4 m.region 0 m.cursor

/-- The media group reports a stripe of a slice written: the pin and the entry are released and the ways cleaned (R212, R330). -/
def stripeWrittenOp (c : Ctl) (u : Units) (s g : Nat) : Units :=
  match (grp u g).bufs.find? fun b => b.use == .destage s && b.formed && b.todo.isEmpty with
  | none => u
  | some b =>
    match (slice u s).jobs.find? fun j => j.stripe == b.stripe with
    | none => unpinStripe (dropBuf u g b.id) (b.stripe / 16384) (b.stripe % 16384)
    | some j =>
      match finishDestage c u s j with
      | (false, u) => u
      | (true, u) => unpinStripe (dropBuf (noteExposed u b) g b.id) (b.stripe / 16384) (b.stripe % 16384)

/-! ### Moves (R348 to R353) -/

/-- Moves may start or go on: not in DRAIN, HUSH or before RUN (Table 11-5). -/
def movesRun (c : Ctl) (u : Units) : Bool := (c.mode == .run || c.mode == .service) && !u.pwr.hushing

/-- Copy one stripe of a move: an entry of the target's group is taken and the eight lines are read at the source. -/
def startCopy (u : Units) (slot t : Nat) : Option Units :=
  let m := tabGet u.hng.slots slot
  let ts := prnGroup u.v m.tgt
  let ss := prnGroup u.v m.src
  let tg := ts / 8
  match takeBuf u tg { use := .move slot t, group := ts, dla := stripeDla u m.tgt t, prn := m.tgt, gen := pGen (pipEntry u m.tgt), stripe := m.region * 16384 + t, want := 8 } with
  | none => none
  | some (id, u) =>
    let u := { u with hng := { u.hng with slots := tabPut u.hng.slots slot { m with next := t + 1, flying := m.flying ++ [t] } } }
    let dla := stripeDla u m.src t
    some ((List.range 8).foldl (fun u j =>
      startRead u (ss / 8) { typ := .fillFwd, cls := 4, prio := 0, port := 64, lla := (m.region * 16384 + t) * 8 + j, group := ss, pos := dataPos dla j, dla := dla, gen := pGen (pipEntry u m.src), prn := m.src, code := twoCodes (readCodes u m.src) } (.copy tg id j)) u)

/-- A move keeps up to four stripes in flight and waits at a pinned one (R350, R351). -/
def pumpMove (c : Ctl) (slot : Nat) : Nat → Units → Units
  | 0, u => u
  | n + 1, u =>
    let m := tabGet u.hng.slots slot
    if movesRun c u = false ∨ u.hng.active.contains slot = false ∨ 7 ≤ m.cause ∨ 4 ≤ m.flying.length ∨ 16384 ≤ m.next ∨ u.hng.pins.contains (m.region * 16384 + m.next) then u
    else match startCopy u slot m.next with
      | none => u
      | some u => pumpMove c slot n u

/-- A move ends: every stripe is copied (R352). A driver's descriptor completes once the change is durable. -/
def endMove (u : Units) (slot : Nat) : Units :=
  let m := tabGet u.hng.slots slot
  let u := finishMove u slot
  match m.desc with
  | some d => descMark (descMark u d.1 d.2 0) d.1 d.2 u.hng.seq
  | none => u

/-- Raise the cursor over the stripes written, with a MOVE_CURSOR at each multiple of 64. -/
def raiseCursor (slot : Nat) : Nat → Units → Units
  | 0, u => u
  | n + 1, u =>
    let m := tabGet u.hng.slots slot
    if m.written.contains m.cursor then
      let k := m.cursor + 1
      let m := { m with cursor := k, written := m.written.erase (k - 1) }
      let u := { u with hng := { u.hng with slots := tabPut u.hng.slots slot m } }
      raiseCursor slot n (if k % 64 = 0 then journalCursor u slot else u)
    else u

/-- A finished entry of a stripe that a slot has copied, with its group. -/
def movedBuf (u : Units) (slot : Nat) : Option (Nat × SBuf) :=
  (List.range (nGroups u.v)).findSome? fun g => ((grp u g).bufs.find? fun b => (match b.use with
    | .move i _ => i == slot && b.formed && b.todo.isEmpty
    | _ => false)).map fun b => (g, b)

/-- The entry belongs to the move that the slot makes now, not to one that has been abandoned. -/
def ofMove (m : MoveSlot) (b : SBuf) : Bool :=
  m.cause ≤ 6 && b.prn == m.tgt && b.stripe / 16384 == m.region && m.flying.contains (b.stripe % 16384)

/-- A copied stripe has been written at the target (R350). A slot that DRAIN or HUSH has stopped appends its cursor once nothing is in flight. -/
def moveStripeOp (c : Ctl) (u : Units) (slot : Nat) : Units :=
  let live := fun (u : Units) => u.hng.active.contains slot && (tabGet u.hng.slots slot).cause ≤ 6
  match movedBuf u slot with
  | none => if live u then pumpMove c slot 4 u else u
  | some (g, b) =>
    let u := dropBuf u g b.id
    let m := tabGet u.hng.slots slot
    if live u = false ∨ ofMove m b = false then u
    else
      let t := b.stripe % 16384
      let m := { m with flying := m.flying.erase t, written := m.written ++ [t] }
      let u := raiseCursor slot 16 { u with hng := { u.hng with slots := tabPut u.hng.slots slot m } }
      let m := tabGet u.hng.slots slot
      if m.cursor = 16384 then settleRebuilds (endMove u slot)
      else if movesRun c u = false ∧ m.flying = [] ∧ m.jcursor ≠ m.cursor then journalCursor u slot
      else pumpMove c slot 4 u

/-- Priority of due work (Table 11-4, R356). -/
def workRank (w : Work) : Nat := if w.cause = 8 ∧ w.urgent then 7 else 2 * w.cause

/-- Due work that may still be done: a region that is not moving or lost, and fresh only for a rebuild, a driver move, or a move that re-points; a sweep in state 4, a format in state 1 or 3. -/
def workStands (u : Units) (w : Work) : Bool :=
  if w.cause ≤ 6 then
    let e := hingeEntry u w.region
    !hMoving e && !hLost e && !badRegion u w.region
  else
    let st := pState (pipEntry u w.prn)
    !slotHolds u w.prn && (if w.cause = 7 then st == 4 else st == 1 || st == 3)

/-- Work a slot may take now: rebuild holds at most 12 slots, wear and cold moves wait while the pool is below its reserve. -/
def workReady (u : Units) (w : Work) : Bool :=
  (w.cause != 1 || (u.hng.active.filter fun i => (tabGet u.hng.slots i).cause == 1).length < 12) &&
  ((w.cause != 5 && w.cause != 6) || inF u F.HNG_CFG_reserve ≤ poolCount u)

/-- Take one piece of due work into a slot, or say that it found no target. -/
def takeWork (u : Units) (slot : Nat) (w : Work) : Bool × Units :=
  let drop := fun (u : Units) => { u with hng := { u.hng with due := u.hng.due.erase w } }
  if 7 ≤ w.cause then
    let u := drop u
    (true, { u with hng := { u.hng with slots := tabPut u.hng.slots slot { cause := w.cause, src := w.prn }, active := u.hng.active ++ [slot] } })
  else
    let u := sweepStale u
    match (if w.named then some w.prn else chooseTarget u w.cause) with
    | none =>
      let u := flag u F.HNG_ERR_pool_empty
      let s := prnGroup u.v (hPrn (hingeEntry u w.region))
      if w.cause = 1 ∧ poolCount u = 0 then
        let u := drop u
        (false, { u with hng := { u.hng with rebuildShort := if u.hng.rebuildShort.contains s then u.hng.rebuildShort else u.hng.rebuildShort ++ [s] } })
      else (false, u)
    | some t =>
      let fresh := hFresh (hingeEntry u w.region)
      let u := beginMove (drop u) slot w.region t w.cause w.desc
      (true, match w.desc with
        | some d =>
          let u := descResult u d.1 d.2 t
          if fresh then descMark (descMark u d.1 d.2 0) d.1 d.2 u.hng.seq else u
        | none => u)

/-- A free slot takes the due work of highest priority (R348); work that finds no target waits, a rebuild's while the pool holds regions that the next scan may offer (R359). -/
def moveStartOp (c : Ctl) (u : Units) : Units :=
  let u := { u with hng := { u.hng with due := u.hng.due.filter fun w => workStands u w } }
  match (List.range 16).find? fun i => !u.hng.active.contains i with
  | none => u
  | some slot =>
    let l := sortedBy (fun a b => decide (workRank a ≤ workRank b)) (u.hng.due.filter fun w => workReady u w)
    let u := (l.foldl (fun (p : Bool × Units) w => if p.1 then p else takeWork p.2 slot w) (false, u)).2
    settleRebuilds (pumpMove c slot 4 u)

/-- Write blank lines to every stripe of a region: sixteen thousand stripe writes, whose part in the wear an LFSR decides (R341). -/
def blankRegion (u : Units) (p : Nat) : Units :=
  let s := prnGroup u.v p
  let g := s / 8
  let lo := prnSlot u.v p * 16384
  let u := (List.range 9).foldl (fun u q =>
    let n := 9 * g + q
    if dieFailed u n (s % 8) then u
    else
      let a := mediaKey n (s % 8) lo
      { u with media := tabFilter u.media fun k => !(a ≤ k && k < a + 16384) }) u
  let (k, u) := takeFree u
  let e := pipEntry u p
  let u := countN (addSat u F.MS_g_WRITES_full g 0 16384) (cGrp g 4) 16384
  let w := min (2 ^ 24 - 1) (pWear e + k % 16385)
  if w = pWear e then u else putPip u p (nput e 0 24 w)

/-- A slot carries out its sweep: the region becomes free with generation 0 (R356). -/
def sweepOp (u : Units) (slot : Nat) : Units :=
  let m := tabGet u.hng.slots slot
  if u.hng.active.contains slot = false ∨ m.cause ≠ 7 then u
  else
    let u := blankRegion u m.src
    let e := pipEntry u m.src
    freeMoveSlot (putPip u m.src (nput (nput e 24 16 0) 56 3 0)) slot

/-- A slot carries out its format: raw free becomes free, raw in use becomes in use; the generation stays (R356). -/
def formatOp (u : Units) (slot : Nat) : Units :=
  let m := tabGet u.hng.slots slot
  if u.hng.active.contains slot = false ∨ m.cause ≠ 8 then u
  else
    let u := blankRegion u m.src
    let e := pipEntry u m.src
    freeMoveSlot (if pState e = 3 then putPip u m.src (nput e 56 3 2) else if pState e = 1 then putPip u m.src (nput e 56 3 0) else u) slot

/-! ### Scans (R346, R354, R386) -/

/-- The pool scan visits the next pip entry; at the end of a pass the pool cache is the one it has gathered. -/
def poolScanOp (u : Units) : Units :=
  let h := u.hng
  let p := h.poolPos
  let e := pipEntry u p
  let ok := inPool u p && !h.freed.contains p
  let acc := if ok then (insertWear (pWear e, p) h.poolAcc).take 1024 else h.poolAcc
  let top := if ok then (match h.poolTop with
    | none => some (pWear e, p)
    | some y => if y.1 < pWear e then some (pWear e, p) else some y) else h.poolTop
  let u := if pState e = 4 then addWork u { cause := 7, prn := p }
    else if pState e = 1 ∧ inF u F.HNG_CFG_format_bg = 1 then addWork u { cause := 8, prn := p } else u
  let h := u.hng
  if p + 1 < nPhys u.v then { u with hng := { h with poolPos := p + 1, poolAcc := acc, poolTop := top } }
  else { u with hng := { h with poolPos := 0, poolAcc := [], poolTop := none, cache := acc, cacheTop := top, freed := [] } }

/-- Lowest wear of the pool cache. -/
def poolLow (u : Units) : Option Nat := (candidates u).foldl (fun b x => match b with
  | none => some x.1
  | some y => some (min y x.1)) none

/-- The region scan visits the next hinge entry (R354), with the reroll check of R386; at the end of a pass a cold move may become due. -/
def regionScanOp (u : Units) : Units :=
  let h := u.hng
  let l := h.regPos
  let e := hingeEntry u l
  let p := pipEntry u (hPrn e)
  let inUse := pState p == 2 && !hMoving e && !hLost e && !badRegion u l
  let low := poolLow u
  let u := if inUse && !hFresh e && inF u F.DRF_BKT_HI_reroll_age ≤ ageOf u (pOldest p) && !(u.hng.due.any fun w => w.cause == 2 && w.region == l)
    then addSat (addWork u { cause := 2, region := l }) F.DRF_REROLL_age 0 0 1 else u
  let u := if inUse && pWear p == 0xFFFFFF then addWork u { cause := 4, region := l } else u
  let u := match low with
    | some w => if inUse && w + inF u F.HNG_WEAR_step ≤ pWear p then addWork u { cause := 5, region := l } else u
    | none => u
  let best := if inUse then (match h.regLow with
    | none => some (pWear p, l)
    | some y => if pWear p < y.1 then some (pWear p, l) else some y) else h.regLow
  if l + 1 < nRegions u.v then { u with hng := { u.hng with regPos := l + 1, regLow := best } }
  else
    let u := { u with hng := { u.hng with regPos := 0, regLow := none } }
    match best, low with
    | some b, some w => if 0 < inF u F.HNG_WEAR_spread ∧ b.1 + 16 * inF u F.HNG_WEAR_spread < w then addWork u { cause := 6, region := b.2 } else u
    | _, _ => u

/-! ### Journal, checkpoints, superblock (R364 to R366, R419) -/

/-- The superblock copy with the higher sequence. -/
def newestSb (k : Keep) : Option Superblock :=
  match k.sbA, k.sbB with
  | some a, some b => if a.seq < b.seq then some b else some a
  | some a, none => some a
  | none, b => b

/-- Write the superblock to the copy not written last, with the next sequence (R366), and the patch records of R419. -/
def writeSb (u : Units) (j0 slot tail : Nat) (clean : Bool) : Units :=
  let k := u.keep
  let n := match newestSb k with
    | some s => s.seq + 1
    | none => 0
  let s : Superblock := { seq := n, j0 := j0, slot := slot, clean := clean, tail := tail, variant := variantCode u.v, failed := u.hng.failed, patches := (u.patchLog.take 495).map fun x => BitVec.ofNat 64 x }
  let u := if 495 < u.patchLog.length then flag u F.INT_ERR_patch_rec else u
  let lastB := match k.sbA, k.sbB with
    | some a, some b => decide (a.seq < b.seq)
    | none, some _ => true
    | _, _ => false
  { u with keep := if lastB || k.sbA.isNone then { k with sbA := some s } else { k with sbB := some s } }

/-- Checkpoint slot in force. -/
def slotInForce (u : Units) : Nat := ((newestSb u.keep).map fun s => s.slot).getD 0

/-- A checkpoint begins (R365 step 1). -/
def beginCheckpoint (u : Units) : Units :=
  if u.hng.ckptOn then u
  else
    let slot := 1 - slotInForce u
    let j0 := u.hng.seq
    let u := journal { u with hng := { u.hng with ckptOn := true, ckptSlot := slot, ckptJ0 := j0, since := 0 } } 7 0 j0 slot
    u.hng.active.foldl (fun u i =>
      let m := tabGet u.hng.slots i
      if m.cause ≤ 6 then
        journalCursor (journal u 3 m.region (m.src + m.tgt * 2 ^ 32) (i + m.cause * 16)) i
      else u) u

/-- The interval of HNG_CKPT has been reached. -/
def mayCheckpoint (u : Units) : Units := if u.hng.mounted ∧ inF u F.HNG_CKPT_blocks ≤ u.hng.since then beginCheckpoint u else u

/-- The copy has been written: the superblock names the new slot, and the journal before J0 is free (R365). A checkpoint that meets a table word out of use is abandoned (R416). -/
def checkpointEndOp (u : Units) : Units :=
  let h := u.hng
  if h.ckptOn = false then u
  else if h.badHinge ≠ [] ∨ h.badPip ≠ [] then
    h.ckptDescs.foldl (fun u d => descMark u d.1 d.2 8) { u with hng := { h with ckptOn := false, ckptDescs := [] } }
  else
    let c : Ckpt := { hinge := h.hinge, pip := h.pip, epoch := h.bootEpoch }
    let k := u.keep
    let k := if h.ckptSlot = 0 then { k with ckA := c } else { k with ckB := c }
    let u := { u with keep := { k with blocks := k.blocks.filter fun b => h.ckptJ0 ≤ b.seq } }
    let u := writeSb u h.ckptJ0 h.ckptSlot 0 false
    let u := count { u with hng := { u.hng with ckptOn := false, ckptDescs := [] } } (cCore 15)
    h.ckptDescs.foldl (fun u d => descMark u d.1 d.2 0) u

/-- A block write has completed (R364). -/
def blockWrittenOp (u : Units) : Units :=
  match u.hng.writing with
  | [] => u
  | b :: t =>
    let u := { u with hng := { u.hng with writing := t }, keep := { u.keep with blocks := u.keep.blocks ++ [b] } }
    mayCheckpoint (joinPool (count u (cCore 14)))

/-! ### Age epochs and calibration (R371 to R373, R380 to R383) -/

/-- Advances that are owed and no longer held are made, one at a time. -/
def settleEpoch (c : Ctl) : Nat → Units → Units
  | 0, u => u
  | n + 1, u =>
    if u.drf.owed = 0 ∨ c.mode = .hush then u
    else if advanceHeld c u then u
    else settleEpoch c n (advanceEpoch { u with drf := { u.drf with owed := u.drf.owed - 1, held := false } })

/-- The epoch timer ends a period: E_a advances, or the advance is held or put off until after HUSH. -/
def epochTickOp (c : Ctl) (u : Units) : Units :=
  let u := { u with drf := { u.drf with periodAt := u.now, owed := u.drf.owed + 1 } }
  if c.mode = .hush then u
  else if advanceHeld c u then
    if u.drf.held then u
    else
      let u := driftEvent (flag { u with drf := { u.drf with held := true } } F.DRF_ERR_held) 0xFF
      notice u 7 (u.drf.e + tabGet u.drf.ages ((u.drf.e + 1) % 32) * 2 ^ 32)
  else settleEpoch c 32 u

/-- errors(row, c) of R381, for 32 rows of 16 codes. -/
def rowScore (scores : List Nat) (row code : Nat) : Nat := scores.getD (row * 16 + code) 0

/-- A reference row is valid: it carries the epoch expected for its age, and at some code fewer than three of its eighteen lines stay uncorrectable (R382). -/
def rowValid (u : Units) (s r : Nat) (scores : List Nat) : Bool :=
  let expect := (u.drf.e + 256 - (u.drf.e + 32 - r) % 32) % 256
  tabGet u.keep.refRows (s * 32 + r) == expect + 1 && (List.range 16).any fun c => rowScore scores r c < 3 * 1024

/-- Age of a row. -/
def rowAge (u : Units) (r : Nat) : Nat := (u.drf.e % 32 + 32 - r) % 32

/-- The code of least score among candidates; ties go to the present code, then to the lower one. -/
def bestCode (cand : List Nat) (score : Nat → Nat) (now : Nat) : Nat :=
  cand.foldl (fun b c => if score c < score b ∨ (score c = score b ∧ b ≠ now ∧ (c = now ∨ c < b)) then c else b) (cand.headD now)

/-- New wear-0 codes of R381, with whether each was found. -/
def newCodes (u : Units) (s : Nat) (sweep : Bool) (scores : List Nat) : List (Nat × Bool) :=
  (List.range 8).map fun b =>
    let now := driftCode u s 0 b
    let rows := (List.range 32).filter fun r => rowValid u s r scores && ageBucket u (rowAge u r) == b
    match rows with
    | [] => (now, false)
    | a :: t =>
      let young := t.foldl (fun x r => if rowAge u r < rowAge u x then r else x) a
      let old := t.foldl (fun x r => if rowAge u x < rowAge u r then r else x) a
      let cand := if sweep then List.range 16 else (List.range 16).filter fun c => now ≤ c + 1 && c ≤ now + 1
      (bestCode cand (fun c => max (rowScore scores young c) (rowScore scores old c)) now, true)

/-- One row of the map under the one-step rule: each code no lower than the one before it and at most one above. -/
def oneStep : Nat → List Nat → List Nat
  | _, [] => []
  | p, c :: t => let x := min (max c p) (p + 1); x :: oneStep x t

/-- Signed offset of DRF_WOFS_w for a bucket. -/
def wofs (u : Units) (w b : Nat) : Int := let x := nbits (inF u F.DRF_WOFS_w_ofs (w - 1)) (4 * b) 4; if x < 8 then x else (x : Int) - 16

/-- Eight codes as a map word. -/
def mapWord (l : List Nat) : Nat := ((List.range 8).map fun b => l.getD b 0 % 16 * 2 ^ (4 * b)).sum

/-- The four words of a group from its wear-0 codes (R381). -/
def putCodes (u : Units) (s : Nat) (zero : List Nat) : Units :=
  let row := fun (w : Nat) =>
    let l := if w = 0 then zero else (List.range 8).map fun b => (max 0 (min 15 ((zero.getD b 0 : Int) + wofs u w b))).toNat
    l.headD 0 :: oneStep (l.headD 0) l.tail
  { u with drf := { u.drf with map := (List.range 4).foldl (fun t w => tabPut t (s * 4 + w) (mapWord (row w))) u.drf.map } }

/-- Calibrate a stripe group from the scores of its reference rows. -/
def calibrateOp (u : Units) (s : Nat) (sweep : Bool) (scores : List Nat) : Units :=
  let found := newCodes u s sweep scores
  let bad := (List.range 32).any fun r => 0 < tabGet u.keep.refRows (s * 32 + r) && !rowValid u s r scores
  let u := if bad then flag u F.DRF_ERR_ref_bad else u
  let u := if found.any fun x => x.2 && (x.1 == 0 || x.1 == 15) then flag u F.DRF_ERR_edge else u
  let u := putCodes u s (found.map fun x => x.1)
  let ptr := (List.range 32).foldl (fun t r => tabPut t (s * 32 + r) ((tabGet t (s * 32 + r) + 2) % 128)) u.drf.pointer
  { u with drf := { u.drf with pointer := ptr, cals := u.drf.cals.filter fun x => x.1 != s } }

/-! ### Meanings -/

/-- PD_CORE is on and the tables are mounted. -/
def hingeRuns (u : Units) : Bool := pdOn u 2 && u.hng.mounted

/-- FILL_REQ (R37). -/
def execFillReq (pkt : Landing) (s : State) : Host.Outcome State Fault Refusal :=
  onU s fun _ u => onPkt u pkt.pkt .fillReq fun k u => if hingeRuns u then fillReqOp u k pkt.err else u

/-- DESTAGE_START (R211). -/
def execDestageStart (sl : Nat) (s : State) : Host.Outcome State Fault Refusal :=
  onU s fun c u =>
    if inService u sl && hingeRuns u && (movesRun c u || c.mode == .drain) then
      match nextStripe c u sl (placeable c u) with
      | some (walked, t) => startDestage c u sl walked t
      | none => u
    else u

/-- PLACEMENT_REQUEST (R345). -/
def execPlacementRequest (sl : Nat) (s : State) : Host.Outcome State Fault Refusal :=
  onU s fun c u => if inService u sl && hingeRuns u then placementOp c u sl else u

/-- STRIPE_WRITTEN (R212). -/
def execStripeWritten (sl g : Nat) (s : State) : Host.Outcome State Fault Refusal :=
  onU s fun c u => if inService u sl && hingeRuns u && g < nGroups u.v then stripeWrittenOp c u sl g else u

/-- MOVE_START (R349). -/
def execMoveStart (s : State) : Host.Outcome State Fault Refusal :=
  onU s fun c u => if hingeRuns u && movesRun c u then moveStartOp c u else u

/-- MOVE_STRIPE_WRITTEN (R350). -/
def execMoveStripeWritten (slot : Nat) (s : State) : Host.Outcome State Fault Refusal :=
  onU s fun c u => if hingeRuns u && slot < 16 then moveStripeOp c u slot else u

/-- SWEEP (R356). -/
def execSweep (slot : Nat) (s : State) : Host.Outcome State Fault Refusal :=
  onU s fun c u => if hingeRuns u && slot < 16 && movesRun c u then sweepOp u slot else u

/-- FORMAT (R356). -/
def execFormat (slot : Nat) (s : State) : Host.Outcome State Fault Refusal :=
  onU s fun c u => if hingeRuns u && slot < 16 && movesRun c u then formatOp u slot else u

/-- POOL_SCAN (R346). -/
def execPoolScan (s : State) : Host.Outcome State Fault Refusal :=
  onU s fun _ u => if hingeRuns u then poolScanOp u else u

/-- REGION_SCAN (R354). -/
def execRegionScan (s : State) : Host.Outcome State Fault Refusal :=
  onU s fun _ u => if hingeRuns u then regionScanOp u else u

/-- JOURNAL_FLUSH_TIMER (R364). -/
def execJournalFlushTimer (s : State) : Host.Outcome State Fault Refusal :=
  onU s fun _ u => if hingeRuns u then closeBlock u else u

/-- AGE_EPOCH_TICK (R371). -/
def execAgeEpochTick (s : State) : Host.Outcome State Fault Refusal :=
  onU s fun c u => epochTickOp c u

/-- DRIFT_CALIBRATE (R383). -/
def execDriftCalibrate (group : Nat) (scores : List Nat) (s : State) : Host.Outcome State Fault Refusal :=
  onU s fun _ u =>
    if hingeRuns u && group < nStripes u.v && pdOn u (pdMedia (group / 8)) then calibrateOp u group (u.drf.cals.any fun x => x == (group, true)) scores else u

end Sys2Proof.Machine
end

