-- ==== Sys2Proof/Machine/Network.lean ====
section
/-! DEFINITION. What happens where a packet lands, at the request ports' own moments, and at the flush point (chapters "Request Ports", "Contexts, Windows and Encryption", "Transit Network", "Staging Store"). -/

namespace Sys2Proof.Machine

/-! ### Request-port moments -/

/-- One rewrite check for a write that lacks its line-carrying ticket (R208): a one-flit LINE_REQ on a request ticket, never more than one outstanding. A fence on the way ends the write (R181). -/
def rewriteCheckOp (c : Ctl) (u : Units) (p ord : Nat) : Units :=
  match findReq u p ord with
  | none => u
  | some r =>
    let cl := epCluster (p / 8)
    let sl := epSlice (lineSlice u (r.epoch.getD 0) (hLla r.hdr))
    let id := poolId 0 cl sl
    if r.phase ≠ .ready ∨ isWriteCmd (hCmd r.hdr) = false ∨ r.checkOut ∨ r.bound ∨ r.tickets.contains (poolId 1 cl sl) then u
    else if routeRefused u cl sl then pump c (failReq c u p r 4) p
    else if canTake u id r.prio = false then u
    else
      let u := setReq (takeTicket u id) p { r with checkOut := true }
      sendPkt u { typ := .lineReq, src := cl, dst := sl, prio := r.prio, epoch := r.epoch.getD 0, pool := id, port := p, ord := ord, lla := hLla r.hdr, kind := .check, cls := r.cls }

/-- The context engine takes a record fetch and sends its answer, which needs no ticket (R96, R177). -/
def recordSend (u : Units) (k : Pkt) : Units :=
  sendPkt (releaseTicket (dropPkt u k.id) k.pool) { typ := .ctx, src := k.dst, dst := k.src, prio := k.prio, epoch := k.epoch, port := k.port, ord := k.ord, handle := k.handle }

/-- The record has come back to its cluster: it is at hand, and goes into the set when a way is free (R96). -/
def recordBack (c : Ctl) (u : Units) (k : Pkt) : Units :=
  let u := dropPkt u k.id
  match findReq u k.port k.ord with
  | none => u
  | some r => pump c (setReq u k.port { r with fetch := 2 }) k.port

/-- A CTX packet lands, at the context engine or, returning, at its cluster. -/
def recordFetchOp (c : Ctl) (u : Units) (k : Pkt) : Units := if k.dst < 32 then recordBack c u k else recordSend u k

/-! ### Packets at a slice -/

/-- A LINE_REQ lands at its slice. -/
def lineReqOp (c : Ctl) (u : Units) (k : Pkt) (err : FlitErr) : Units :=
  landOne u k err fun u => arriveSlice c (dropPkt u k.id) (k.dst - 32) k

/-- A LINE_WR lands at its slice; line bytes in error are stored poisoned (Table 5-7). -/
def lineWrOp (c : Ctl) (u : Units) (k : Pkt) (err : FlitErr) : Units :=
  match landFlit u k err with
  | (none, u) => u
  | (some bad, u) =>
    let u := if bad then poisonMade u k.lla 5 else u
    arriveSlice c (dropPkt u k.id) (k.dst - 32) { k with poison := k.poison || bad }

/-- FILL_DATA lands at its slice: staged, and the requests of its entry served; a poisoned line, or one in error, stages nothing (R201, R402, Table 5-7). -/
def fillDataOp (c : Ctl) (u : Units) (k : Pkt) (err : FlitErr) : Units :=
  match landFlit u k err with
  | (none, u) => u
  | (some bad, u) =>
    let u := if bad then poisonMade u k.lla 5 else u
    let poisoned := k.poison || bad
    endFill c (dropPkt u k.id) (k.dst - 32) k (if poisoned then 1 else 0) (!poisoned)

/-! ### Packets at a cluster -/

/-- Return a ticket a request holds. -/
def giveBack (u : Units) (r : Req) (id : Nat) : Units × Req :=
  if r.tickets.contains id then (returnTickets u id 1, { r with tickets := r.tickets.erase id }) else (u, r)

/-- The merged plaintext of a WRITE_MASKED (R41): bytes of its half whose mask bit is 1 come from its data unit. -/
def mergeLine (old : BitVec 512) (h : BitVec 128) (d : BitVec 256) : BitVec 512 :=
  let base := 32 * hH h
  BitVec.ofNat 512 (fromBytes ((List.range 64).map fun i =>
    if base ≤ i ∧ i < base + 32 ∧ nbits (hMask h) (i - base) 1 = 1 then nbits d.toNat (8 * (i - base)) 8 else nbits old.toNat (8 * i) 8))

/-- The read half of a merge has come back: the merged line is encrypted and leaves as a LINE_WR, its data slots free. A fence on the way ends the request TARGET_FENCED, and its merge lock with it (R181, R204). -/
def mergeBack (c : Ctl) (u : Units) (p : Nat) (r : Req) (old : BitVec 512) : Units :=
  let cl := epCluster (p / 8)
  let (u, r) := giveBack u r (poolId 2 cl cl)
  if routeFenced u p r then pump c (failReq c (unlock u (lineSlice u (r.epoch.getD 0) (hLla r.hdr)) (hLla r.hdr)) p r 4) p
  else
  let line := xtsEncrypt (keyOf u r.keySlot) (hLla r.hdr) (mergeLine old r.hdr (r.data.getD 0 0))
  let u := sendLineWr u p r line false true
  let pools := r.dataPools
  let u := setReq u p { r with tickets := [poolId 3 cl cl], data := [], dataPools := [] }
  pump c (freeDataSlots u p pools) p

/-- A line, or a zero-line indication, reaches the requester (R37, R38, R83): a READ completes with its data, a merge goes on. A line in error completes DATA_POISONED, and the merge lock of its slice ends. -/
def lineBack (c : Ctl) (u : Units) (k : Pkt) (bad : Bool) : Units :=
  match findReq u k.port k.ord with
  | none => u
  | some r =>
    if r.phase ≠ .sent then u
    else if bad then
      let u := poisonMade u k.lla 5
      let u := if k.kind = .merge then unlock u (lineSlice u k.epoch k.lla) k.lla else u
      let read := hCmd r.hdr = 1
      pump c (completeReq c u k.port r 1 0 (if decide read && k.m then 1 else 0) (if decide read && k.x then 1 else 0) 0) k.port
    else
      let plain := if k.typ = .zero then 0 else xtsDecrypt (keyOf u r.keySlot) k.lla k.data
      if k.kind = .merge then mergeBack c u k.port r plain
      else pump c (completeReq c u k.port r 0 (if k.typ = .zero then 1 else 0) (if k.m then 1 else 0) (if k.x then 1 else 0) plain) k.port

/-- A zero-line indication lands, at a cluster or at a slice (R38). -/
def zeroOp (c : Ctl) (u : Units) (k : Pkt) : Units :=
  let u := dropPkt u k.id
  if k.dst < 32 then lineBack c u k false else if k.dst < 64 then endFill c u (k.dst - 32) k 0 true else u

/-- A LINE_RET lands at its cluster. -/
def lineRetOp (c : Ctl) (u : Units) (k : Pkt) (err : FlitErr) : Units :=
  match landFlit u k err with
  | (none, u) => u
  | (some bad, u) => lineBack c (dropPkt u k.id) k bad

/-- The answer to a rewrite check: the ticket it binds goes to the write that still lacks one, and otherwise back to its slice (R208). -/
def checkBack (c : Ctl) (u : Units) (k : Pkt) : Units :=
  let id := poolId 1 k.dst k.src
  match (findReq u k.port k.ord).filter fun r => r.phase == .ready && r.checkOut with
  | none => if k.bound then giveBound u id k.port k.ord else u
  | some r =>
    let r := { r with checkOut := false }
    if k.bound = false then pump c (setReq u k.port r) k.port
    else if r.tickets.contains id then pump c (giveBound (setReq u k.port r) id k.port k.ord) k.port
    else pump c (setReq u k.port { r with bound := true, tickets := r.tickets ++ [id] }) k.port

/-- DONE reaches a cluster: that of a rewrite check may bind a ticket; any other ends its request with the status in aux. -/
def doneAtCluster (c : Ctl) (u : Units) (k : Pkt) : Units :=
  if k.kind = .check then checkBack c u k
  else
  match findReq u k.port k.ord with
  | none => u
  | some r =>
    if r.phase = .sent then
      let read := hCmd r.hdr = 1 ∧ k.aux = 1
      let m := k.m && (decide read || (hCmd r.hdr == 4 && k.aux == 0))
      pump c (completeReq c u k.port r k.aux 0 (if m then 1 else 0) (if decide read && k.x then 1 else 0) 0) k.port
    else u

/-- Progress of a descriptor whose packets are numbered by port 100 + ring and ordinal (PREFETCH, POISON_SET): the status of one line. -/
def doneAtRing (u : Units) (k : Pkt) : Units := descMark u (k.port - 100) k.ord (k.aux + (if k.m then 256 else 0) + 512 * k.lla)

/-- DONE lands: at a cluster, at a slice whose fill it ends, or at the ring engine (R165). -/
def doneOp (c : Ctl) (u : Units) (k : Pkt) : Units :=
  let u := dropPkt u k.id
  if k.dst < 32 then doneAtCluster c u k
  else if k.dst < 64 then endFill c u (k.dst - 32) k k.aux false
  else if k.dst = epCore 5 then doneAtRing u k
  else u

/-- A TICKET packet returns its tickets to their holder, which goes on (R178). -/
def ticketOp (c : Ctl) (u : Units) (k : Pkt) : Units :=
  let u := returnTickets (dropPkt u k.id) k.pool (k.aux + 1)
  if k.dst < 32 then pumpCluster c (pumpCluster c u k.dst) k.dst
  else if k.dst < 64 then pumpSlice c u (k.dst - 32)
  else u

/-! ### Flushes and durability epochs (R109 to R115, R214) -/

/-- Advance E (R112 step 2): every slice in service is to acknowledge it. -/
def advanceE (u : Units) : Units :=
  let u := { u with stg := { u.stg with e := (u.stg.e + 1) % 16, advanceWait := false, unacked := (List.range (nDdr u.v)).filter (fun s => inService u s), waiters := u.stg.waiters.map fun w => { w with age := w.age + 1 } } }
  count u (cCore 2)

/-- Close the epoch in force: E advances, or waits while the next epoch is live (R112 steps 2 and 3). -/
def closeEpoch (u : Units) : Units :=
  if u.stg.advanceWait then u
  else if epochLive u ((u.stg.e + 1) % 16) then { u with stg := { u.stg with advanceWait := true } }
  else advanceE u

/-- A way tagged with an epoch or an older one is dirty. -/
def dirtyUpTo (u : Units) (target : Nat) : Bool :=
  let a := epochAge u.stg.e target
  (List.range 16).any fun i => a ≤ i && epochLive u ((u.stg.e + 16 - i) % 16)

/-- A flush waits for its epoch and its journal blocks. -/
def addWaiter (u : Units) (w : FlushWait) : Units :=
  let (n, u) := closePoint u
  let s := u.stg
  let u := { u with stg := { s with waiters := s.waiters ++ [{ w with id := s.nextWaiter, target := s.e, journal := n, swept := !dirtyUpTo u s.e }], nextWaiter := s.nextWaiter + 1 } }
  closeEpoch u

/-- A FLUSH completes: its context's flush_seq rises by one, and it is counted (R114). -/
def flushCounts (u : Units) (all : Bool) (h : Nat) : Units :=
  if all then count u (cCore 1)
  else count { u with flushSeq := tabPut u.flushSeq h ((tabGet u.flushSeq h + 1) % 65536) } (cCore 0)

/-- DONE from the context engine or the flush point to a port. -/
def flushDone (u : Units) (src : Nat) (p ord prio status : Nat) : Units :=
  sendPkt u { typ := .done, src := src, dst := epCluster (p / 8), prio := prio, aux := status, port := p, ord := ord }

/-- A FLUSH or FLUSH_ALL reaches its destination (R110, R112): in staged mode a FLUSH completes at once, otherwise it closes the epoch and waits. Each arrival is a core cycle of its own, so that requests share a target and an advance only while an advance waits: the model's choice (log entry 101). -/
def flushArrivalOp (u : Units) (k : Pkt) : Units :=
  let u := releaseTicket (dropPkt u k.id) k.pool
  match findReq u k.port k.ord with
  | none => u
  | some r =>
    let all := hCmd r.hdr = 6
    if ¬ all ∧ check2 u k.epoch r = false then flushDone u k.dst k.port k.ord k.prio 2
    else if ¬ all ∧ r.dur = 0 then flushDone (flushCounts u false k.handle) k.dst k.port k.ord k.prio 0
    else addWaiter (setReq u k.port { r with closed := true }) { port := k.port, ord := k.ord, handle := k.handle, prio := k.prio, all := all }

/-- No way of the epoch of a waiter or of an older one is dirty: it was so when the waiter came, or its epoch has been closed, every slice has said so, and none is left. After sixteen advances its epoch has been in force again, which it could only once it was not live. -/
def epochSwept (u : Units) (w : FlushWait) : Bool :=
  w.swept || (0 < w.age && u.stg.unacked.isEmpty && (16 ≤ w.age || !dirtyUpTo u w.target))

/-- Once its epoch is swept a waiter also waits for the journal entries that its own destages needed (R108, R112 step 5). -/
def sweepWaiter (u : Units) (w : FlushWait) : FlushWait × Units :=
  if w.swept then (w, u)
  else
    let (n, u) := closePoint u
    let y := { w with swept := true, journal := n }
    (y, { u with stg := { u.stg with waiters := u.stg.waiters.map fun x => if x.id = w.id then y else x } })

/-- A waiter is tried (R112 step 5): where a stripe was destaged above the last cursor of a move, a MOVE_CURSOR is appended and waited for (R351). -/
def flushCompleteOp (u : Units) (id : Nat) : Units :=
  match u.stg.waiters.find? fun w => w.id == id with
  | none => u
  | some w =>
    if epochSwept u w = false then u
    else
      let (w, u) := sweepWaiter u w
      if durableBelow u w.journal = false then u
      else
        let u := (u.hng.active.filter fun i => (tabGet u.hng.slots i).exposed).foldl journalCursor u
        if durableBelow u u.hng.expSeq = false then (closePoint u).2
        else
          let u := { u with stg := { u.stg with waiters := u.stg.waiters.filter fun y => y.id != id } }
          match w.desc with
          | some d => descMark u d.1 d.2 0
          | none => flushDone (flushCounts u w.all w.handle) (if w.all then epCore 2 else epCore 0) w.port w.ord w.prio 0

/-- A slice acknowledges the epoch in force. -/
def epochAckOp (c : Ctl) (u : Units) (s : Nat) : Units :=
  let x := slice u s
  let u := setSlice u s { x with epochSeen := u.stg.e }
  pumpSlice c { u with stg := { u.stg with unacked := u.stg.unacked.filter fun i => i != s } } s

/-! ### Slot mode (R172) -/

/-- A router output enters slot mode when a head flit has waited 512 transit cycles. -/
def slotEnterOp (u : Units) (r o waited : Nat) : Units :=
  if o < nOutputs u.v r ∧ 512 ≤ waited ∧ u.slotMode.contains (r * 32 + o) = false then { u with slotMode := u.slotMode ++ [r * 32 + o] } else u

/-- It returns to normal mode after 8,192 transit cycles with no wait above 128. -/
def slotExitOp (u : Units) (r o quiet worst : Nat) : Units :=
  if o < nOutputs u.v r ∧ 8192 ≤ quiet ∧ worst ≤ 128 then { u with slotMode := u.slotMode.filter fun x => x != r * 32 + o } else u

/-! ### Meanings -/

/-- Domains that a wake powers up (Table 16-6). -/
def wakeDomains (u : Units) : List Nat :=
  [2, 3, 6, 7, 8, 9, 10] ++ (List.range (nGroups u.v)).map pdMedia ++ if pdState u 1 = 0 then [1] else []

/-- A wake event in HUSH begins the wake, once (R488). -/
def wakeNow (c : Ctl) (u : Units) : Units :=
  if c.mode = .hush ∧ u.pwr.waking = false then { u with pwr := { u.pwr with waking := true, rising := wakeDomains u } } else u

/-- A beat other than IDLE arrives on a port: it wakes the block in HUSH, and a header restarts the idle timer (R486, R488). -/
def beatSeen (c : Ctl) (u : Units) (p : Nat) (header : Bool) : Units :=
  if p < nPorts u.v then wakeNow c (if header then { u with pwr := { u.pwr with activeAt := u.now } } else u) else u

/-- A header beat of a command. -/
def headerOp (c : Ctl) (u : Units) (p pool : Nat) (h : BitVec 128) : Units := headerBeat c (beatSeen c u p true) p pool h

/-- READ (R37): its header beat is judged and, accepted, goes as far as tickets let it. -/
def execRead (port pool : Nat) (hdr : BitVec 128) (s : State) : Host.Outcome State Fault Refusal :=
  onU s fun c u => if hCmd hdr = 1 then headerOp c u port pool hdr else u

/-- WRITE (R40). -/
def execWrite (port pool : Nat) (hdr : BitVec 128) (s : State) : Host.Outcome State Fault Refusal :=
  onU s fun c u => if hCmd hdr = 2 then headerOp c u port pool hdr else u

/-- WRITE_MASKED (R41). -/
def execWriteMasked (port pool : Nat) (hdr : BitVec 128) (s : State) : Host.Outcome State Fault Refusal :=
  onU s fun c u => if hCmd hdr = 3 then headerOp c u port pool hdr else u

/-- PREFETCH (R58). -/
def execPrefetch (port pool : Nat) (hdr : BitVec 128) (s : State) : Host.Outcome State Fault Refusal :=
  onU s fun c u => if hCmd hdr = 4 then headerOp c u port pool hdr else u

/-- FLUSH (R109). -/
def execFlush (port pool : Nat) (hdr : BitVec 128) (s : State) : Host.Outcome State Fault Refusal :=
  onU s fun c u => if hCmd hdr = 5 then headerOp c u port pool hdr else u

/-- FLUSH_ALL (R86). A header whose CMD is no command of Table 2-2 is judged here too: it is accepted and MALFORMED. -/
def execFlushAll (port pool : Nat) (hdr : BitVec 128) (s : State) : Host.Outcome State Fault Refusal :=
  onU s fun c u => if hCmd hdr = 6 ∨ hCmd hdr = 0 ∨ 6 < hCmd hdr then headerOp c u port pool hdr else u

/-- DATA_BEAT (R55). -/
def execDataBeat (port pool : Nat) (data : BitVec 256) (dpar : BitVec 32) (s : State) : Host.Outcome State Fault Refusal :=
  onU s fun c u => dataBeatOp c (beatSeen c u port false) port pool data dpar

/-- BAD_KIND (R89). -/
def execBadKind (port : Nat) (s : State) : Host.Outcome State Fault Refusal :=
  onU s fun c u => badKindOp c (beatSeen c u port false) port

/-- PORT_READY (R70). -/
def execPortReady (port : Nat) (s : State) : Host.Outcome State Fault Refusal :=
  onU s fun c u => if port < nPorts u.v then portReadyOp c u port else u

/-- BUCKET_REFILL (R133). -/
def execBucketRefill (port : Nat) (s : State) : Host.Outcome State Fault Refusal :=
  onU s fun c u => if port < nPorts u.v then refillOp c u port else u

/-- REWRITE_CHECK (R208). -/
def execRewriteCheck (port ord : Nat) (s : State) : Host.Outcome State Fault Refusal :=
  onU s fun c u => if port < nPorts u.v then rewriteCheckOp c u port ord else u

/-- CTX_RECORD_FETCH (R96): the fetch at the context engine, and its answer at the cluster. -/
def execCtxRecordFetch (pkt : Landing) (s : State) : Host.Outcome State Fault Refusal :=
  onU s fun c u => onPkt u pkt.pkt .ctx fun k u => landOne u k pkt.err fun u => recordFetchOp c u k

/-- LINE_REQ (R199). -/
def execLineReq (pkt : Nat) (err : FlitErr) (s : State) : Host.Outcome State Fault Refusal :=
  onU s fun c u => onPkt u pkt .lineReq fun k u => lineReqOp c u k err

/-- LINE_WR (R203). -/
def execLineWr (pkt : Nat) (err : FlitErr) (s : State) : Host.Outcome State Fault Refusal :=
  onU s fun c u => onPkt u pkt .lineWr fun k u => lineWrOp c u k err

/-- FILL_DATA (R201). -/
def execFillData (pkt : Nat) (err : FlitErr) (s : State) : Host.Outcome State Fault Refusal :=
  onU s fun c u => onPkt u pkt .fillData fun k u => fillDataOp c u k err

/-- ZERO (R38): at a slice it ends the fill, at a cluster the request. -/
def execZero (pkt : Landing) (s : State) : Host.Outcome State Fault Refusal :=
  onU s fun c u => onPkt u pkt.pkt .zero fun k u => landOne u k pkt.err fun u => zeroOp c u k

/-- LINE_RET (R83). -/
def execLineRet (pkt : Nat) (err : FlitErr) (s : State) : Host.Outcome State Fault Refusal :=
  onU s fun c u => onPkt u pkt .lineRet fun k u => lineRetOp c u k err

/-- SLOT_MODE_ENTER (R172). -/
def execSlotModeEnter (router output waited : Nat) (s : State) : Host.Outcome State Fault Refusal :=
  onU s fun _ u => slotEnterOp u router output waited

/-- SLOT_MODE_EXIT (R172). -/
def execSlotModeExit (router output quiet worst : Nat) (s : State) : Host.Outcome State Fault Refusal :=
  onU s fun _ u => slotExitOp u router output quiet worst

/-- FLUSH_ARRIVAL (R112). -/
def execFlushArrival (pkt : Landing) (s : State) : Host.Outcome State Fault Refusal :=
  onU s fun _ u => onPkt u pkt.pkt .flush fun k u => landOne u k pkt.err fun u => flushArrivalOp u k

/-- EPOCH_ADVANCE (R112): an advance that waits is made once the next epoch is not live. -/
def execEpochAdvance (s : State) : Host.Outcome State Fault Refusal :=
  onU s fun _ u => if u.stg.advanceWait && !epochLive u ((u.stg.e + 1) % 16) then advanceE u else u

/-- EPOCH_ACK (R214). -/
def execEpochAck (sl : Nat) (s : State) : Host.Outcome State Fault Refusal :=
  onU s fun c u => if inService u sl then epochAckOp c u sl else u

end Sys2Proof.Machine
end

