-- ==== Sys2Proof/Machine/Keys.lean ====
section
/-! DEFINITION. The key port: messages, results and HELLO, key slots, and their erasure (R120 to R128, R574). -/

namespace Sys2Proof.Machine

/-! ### Outbound messages (R123, R124) -/

/-- Bytes of a word, in little-endian order. -/
def wordBytes (w : Word) : List Nat := toBytes 4 w.toNat

/-- CRC-32C of words taken byte by byte. -/
def wordsCheck (ws : List Word) : Word := BitVec.ofNat 32 (crc32c (ws.flatMap wordBytes))

/-- Queue a message, its final word marked LAST. -/
def sendKeyMsg (u : Units) (ws : List Word) : Units :=
  let k := u.keyPort
  { u with keyPort := { k with outq := k.outq ++ ws.map (fun w => (w, false)) ++ [(wordsCheck ws, true)] } }

/-- RESULT: the code, answering a header; sequence and slot are echoed. -/
def keyResult (u : Units) (hdr code : Nat) : Units :=
  let typ := hdr % 256
  let seq := nbits hdr 8 8
  let u := sendKeyMsg u [BitVec.ofNat 32 (0x90 + seq * 2 ^ 8 + nbits hdr 16 10 * 2 ^ 16), BitVec.ofNat 32 (code + typ * 2 ^ 8)]
  { u with keyPort := { u.keyPort with result := some (seq + code * 2 ^ 8 + typ * 2 ^ 16) } }

/-- HELLO with its cause: the port awaits HELLO_ACK. The sequence field of a HELLO is not stated: a free value. -/
def sendHello (c : Ctl) (u : Units) (cause : Nat) : Units :=
  let (seq, u) := takeFree u
  let u := sendKeyMsg u [BitVec.ofNat 32 (0x81 + seq % 256 * 2 ^ 8), BitVec.ofNat 32 (regReset u.v .BLOCK_ID 0), BitVec.ofNat 32 (1024 + c.lc * 2 ^ 11 + cause * 2 ^ 13)]
  { u with keyPort := { u.keyPort with state := 0, hello := c.mode != .load } }

/-- The KEY event; cause 0xFF is a load. -/
def keyEvent (u : Units) (slot cause : Nat) : Units := emitEvent u 2 slot [BitVec.ofNat 32 cause]

/-- The event and the notice of a wipe, or of an erase that has completed (R122); slot 0x3FF names every slot. -/
def keyWiped (u : Units) (slot cause : Nat) : Units := notice (keyEvent u slot cause) 1 (cause + slot * 2 ^ 16)

/-! ### Inbound messages (R125 to R128) -/

/-- The port takes an inbound message: it is on, no erase waits for its epoch, the RESULT of the last message has been taken, and no life-cycle record is being written. -/
def keyTakes (u : Units) : Bool := pdOn u 1 && u.keyPort.erase.isNone && u.keyPort.result.isNone && u.boot.lcNew.isNone

/-- Payload words of an inbound type. -/
def keyPayload (typ : Nat) : Option Nat :=
  if typ = 0x01 ∨ typ = 0x11 ∨ typ = 0x12 then some 0 else if typ = 0x10 then some 16 else if typ = 0x20 then some 2 else none

/-- Header of a message. -/
def keyHdr (ws : List Word) : Nat := (ws.headD 0).toNat
/-- Type of a message. -/
def keyType (ws : List Word) : Nat := keyHdr ws % 256
/-- Slot of a message. -/
def keySlotOf (ws : List Word) : Nat := nbits (keyHdr ws) 16 10

/-- The final word is the CRC-32C of the words before it. -/
def keyCrcOk (ws : List Word) : Bool := ws.getLastD 0 == wordsCheck ws.dropLast

/-- The code that the form of a message alone decides (R126): one word, a failed check, an unknown type, reserved bits, or a wrong length. An ERASE_ALL whose slot field is not zero is answered BAD_FORMAT too: the model's choice (log entry 97). -/
def keyForm (ws : List Word) : Option Nat :=
  if ws.length = 1 then some 2
  else if keyCrcOk ws = false then some 1
  else if keyPayload (keyType ws) ≠ some (ws.length - 2) ∨ nbits (keyHdr ws) 26 6 ≠ 0 then some 2
  else if (keyType ws = 0x12 ∨ keyType ws = 0x20) ∧ keySlotOf ws ≠ 0 then some 2
  else none

/-- What a message of a type meets: its form, readiness, or nothing that stops it. -/
def keyJudge (u : Units) (ws : List Word) : Option Nat :=
  (keyForm ws).or (if u.keyPort.state = 0 ∧ keyType ws ≠ 1 ∧ keyType ws ≠ 0x20 then some 3 else none)

/-- A message is taken and judged; where nothing stops it, it has its effect. -/
def keyMessage (typ : Nat) (ws : List Word) (effect : Units → Units) (u : Units) : Units :=
  if keyTakes u = false ∨ ws = [] ∨ keyType ws ≠ typ then u
  else
    match keyJudge u ws with
    | some code => keyResult u (keyHdr ws) code
    | none => effect u

/-- The 512 key bits of a KEY_LOAD: K1 in the low half. -/
def keyBits (ws : List Word) : BitVec 512 := BitVec.ofNat 512 (fromBytes (((ws.drop 1).take 16).flatMap wordBytes))

/-- A key no slot may hold (WEAK_KEY). -/
def weakKey (k : BitVec 512) : Bool :=
  let k1 := k.toNat % 2 ^ 256
  let k2 := k.toNat / 2 ^ 256
  k1 == k2 || k1 == 0 || k2 == 0

/-- A banked change waits for the next latch (R435). -/
def bankChange (u : Units) : Units := { u with regs := { u.regs with banked := true } }

/-- Replace a key slot. -/
def putKey (u : Units) (slot : Nat) (k : KeySlot) : Units := { u with keys := tabPut u.keys slot k }

/-- KEY_LOAD: the slot is written, for requests of the epochs that follow the next latch. -/
def keyLoadOp (ws : List Word) (u : Units) : Units :=
  let slot := keySlotOf ws
  let old := tabGet u.keys slot
  if old.state ≠ 0 then keyResult u (keyHdr ws) 4
  else if weakKey (keyBits ws) then keyResult u (keyHdr ws) 5
  else keyResult (bankChange (keyEvent (putKey u slot { state := 1, key := keyBits ws }) slot 0xFF)) (keyHdr ws) 0

/-- Every loaded slot that the test admits becomes erasing. -/
def eraseSlots (u : Units) (p : Nat → Bool) : Units :=
  { u with keys := ⟨u.keys.cells.map fun x => if p x.1 ∧ x.2.state = 1 then (x.1, { x.2 with state := 2 }) else x⟩ }

/-- KEY_ERASE: an empty slot is accepted at once; a loaded one becomes erasing, and the answer waits. -/
def keyEraseOp (ws : List Word) (u : Units) : Units :=
  let slot := keySlotOf ws
  if (tabGet u.keys slot).state = 0 then keyResult u (keyHdr ws) 0
  else
    let u := bankChange (eraseSlots u fun k => k == slot)
    { u with keyPort := { u.keyPort with erase := some (keyHdr ws, slot, false) } }

/-- ERASE_ALL: every loaded slot becomes erasing; with none loaded or erasing the wipe is over at once. -/
def eraseAllOp (ws : List Word) (u : Units) : Units :=
  if u.keys.cells.all fun x => x.2.state == 0 then keyResult (keyWiped u 0x3FF 3) (keyHdr ws) 0
  else
    let u := bankChange (eraseSlots u fun _ => true)
    { u with keyPort := { u.keyPort with erase := some (keyHdr ws, 1024, false) } }

/-- HELLO_ACK: the port is ready, and is no longer late. -/
def helloAckOp (ws : List Word) (u : Units) : Units :=
  let u := { u with keyPort := { u.keyPort with state := 1, hello := false } }
  keyResult (putF u F.KEY_PORT_STATE_ack_late 0 0 0) (keyHdr ws) 0

/-! ### Erasure and the epochs (Table 3-3) -/

/-- Requests outstanding of an epoch (LDG_EPOCH, R436): those that have passed their regulators and not completed, but for flushes past their close point. -/
def epochCount (u : Units) (e : Nat) : Nat :=
  (u.ports.cells.map fun p => (p.2.reqs.filter fun r => !r.closed && r.epoch.any fun x => x % 4 == e % 4).length).sum

/-- Requests of the epoch before the one in force are outstanding. -/
def oldLive (u : Units) : Bool := 0 < epochCount u (u.regs.epoch + 3)

/-- An advancing latch: the new epoch may use the slots that are loaded, and an erase that waited for the latch waits for the older epoch. -/
def keysAtLatch (u : Units) : Units :=
  let even := u.regs.epoch % 2 = 0
  let keys : Tab KeySlot := ⟨u.keys.cells.map fun x => (x.1, if even then { x.2 with even := x.2.state == 1 } else { x.2 with odd := x.2.state == 1 })⟩
  { u with keys := keys, keyPort := { u.keyPort with erase := u.keyPort.erase.map fun e => (e.1, e.2.1, true) } }

/-- KEY_ERASE_DONE: the older epoch has retired; the erasing slots are zeroed, and the message is answered. -/
def keyEraseDoneOp (u : Units) : Units :=
  match u.keyPort.erase with
  | some (hdr, slot, true) =>
    if oldLive u then u
    else
      let u := { u with keys := ⟨u.keys.cells.filter fun x => x.2.state != 2⟩, keyPort := { u.keyPort with erase := none } }
      let u := if slot = 1024 then keyWiped u 0x3FF 3 else keyWiped u slot 4
      keyResult u hdr 0
  | _ => u

/-- HELLO_ACK has not come 200 ms after a HELLO sent outside LOAD (R125). Its event and notice carry the slot number 0x3FF: the model's choice (log entry 98). -/
def helloLateOp (u : Units) : Units :=
  if u.keyPort.hello then keyWiped (flag { u with keyPort := { u.keyPort with hello := false } } F.KEY_PORT_STATE_ack_late) 0x3FF 5 else u

/-- The oldest outbound word is taken; with the last of them a RESULT has been sent. -/
def keyWordTakenOp (u : Units) : Units :=
  match u.keyPort.outq with
  | [] => u
  | (w, last) :: t =>
    let u := present { u with keyPort := { u.keyPort with outq := t } } (.keyWord w last)
    match t, u.keyPort.result with
    | [], some x =>
      let u := putReg u .KEY_PORT_STATE 0 0 (rawReg u .KEY_PORT_STATE % 256 + x * 256)
      { u with keyPort := { u.keyPort with result := none } }
    | _, _ => u

/-! ### Meanings -/

/-- KEY_LOAD (R127). -/
def execKeyLoad (ws : List Word) (s : State) : Host.Outcome State Fault Refusal := onU s fun _ u => keyMessage 0x10 ws (keyLoadOp ws) u

/-- KEY_ERASE (R127). -/
def execKeyErase (ws : List Word) (s : State) : Host.Outcome State Fault Refusal := onU s fun _ u => keyMessage 0x11 ws (keyEraseOp ws) u

/-- ERASE_ALL (R127). -/
def execEraseAll (ws : List Word) (s : State) : Host.Outcome State Fault Refusal := onU s fun _ u => keyMessage 0x12 ws (eraseAllOp ws) u

/-- HELLO_ACK (R125). -/
def execHelloAck (ws : List Word) (s : State) : Host.Outcome State Fault Refusal := onU s fun _ u => keyMessage 0x01 ws (helloAckOp ws) u

/-- KEY_MESSAGE_BAD (R126): a message of one word, of a failed check or of an unknown type. -/
def execKeyMessageBad (ws : List Word) (s : State) : Host.Outcome State Fault Refusal :=
  onU s fun _ u =>
    if keyTakes u = false ∨ ws = [] then u
    else
      match keyForm ws with
      | some code => keyResult u (keyHdr ws) code
      | none => u

/-- KEY_ERASE_DONE (R120). -/
def execKeyEraseDone (s : State) : Host.Outcome State Fault Refusal := onU s fun _ u => if pdOn u 1 then keyEraseDoneOp u else u

/-- HELLO_ACK_LATE (R125). -/
def execHelloAckLate (s : State) : Host.Outcome State Fault Refusal := onU s fun _ u => if pdOn u 1 then helloLateOp u else u

/-- KEY_OUT_WORD_TAKEN (R574). -/
def execKeyOutWordTaken (s : State) : Host.Outcome State Fault Refusal := onU s fun _ u => if pdOn u 1 then keyWordTakenOp u else u

end Sys2Proof.Machine
end

