-- ==== Sys2Proof/Machine/Regulation.lean ====
section
/-! DEFINITION. Regulation and admission: throttle figures, the configuration that admission judges, its checks and the recheck, the staging and media bounds, the overbooked state, the dirty-budget shares, and the bandwidth windows (R143 to R159, R244, R245, R334, R335). -/

namespace Sys2Proof.Machine

/-! ### Channels in service -/

/-- A channel is in service unless it is evacuated, its domain is off, or the mode is not RUN. -/
def served (u : Units) (run media : Bool) (ch : Nat) : Bool :=
  run && (if media then ch < nCexus u.v && pdOn u (pdMedia (ch / 9)) else inService u ch && pdOn u (pdDram ch))

/-- Every channel in service: DDR5 channels ascending, then Cexus channels ascending. -/
def servedList (u : Units) (run : Bool) : List (Bool × Nat) :=
  (((List.range (nDdr u.v)).map fun c => (false, c)) ++ (List.range (nCexus u.v)).map fun c => (true, c)).filter fun x => served u run x.1 x.2

/-! ### The configuration judged -/

/-- What admission judges: class and C0 and C1 bucket words by port, port sets, turn-table images and maintenance floors. -/
structure Plan where
  cls : Nat → Nat
  token : Nat → Nat → Nat
  pset : Nat → Nat
  table : Bool → Nat → List Nat
  floor : Bool → Nat → Nat

/-- The image of a channel: the one that waits for the next round where there is one. -/
def imageOf (u : Units) (media : Bool) (ch : Nat) : List Nat :=
  if media then
    let x := grp u (ch / 9)
    let t := tabGet x.nextTable (ch % 9)
    if t.isEmpty then tabGet x.table (ch % 9) else t
  else ((ddr u ch).nextTable).getD (ddr u ch).table

/-- The configuration in force. -/
def planNow (u : Units) : Plan where
  cls p := inF u F.RGL_PORT_p_CLASS_class p
  token p k := bankReg u u.regs.epoch (tokenReg k) p
  pset s := bankReg u u.regs.epoch .RGL_PSET_k_LO s + bankReg u u.regs.epoch .RGL_PSET_k_HI s * 2 ^ 32
  table m c := imageOf u m c
  floor m c := floorOf u m c

/-- The value staged for an address by the entries of a CHANGESET, the latest one, or else the value given. -/
def stagedAt (l : List (Nat × Word)) (addr d : Nat) : Nat := ((l.reverse.find? fun e => e.1 == addr).map fun e => e.2.toNat).getD d

/-- Address of MNT_FLOOR as CHANGESET entries name it (Table 15-5). -/
def floorAddr : Nat := 0x70401C

/-- Maintenance floors after the entries of a CHANGESET. -/
def applyFloors (v : Variant) (l : List (Nat × Word)) (t : Tab Nat) : Tab Nat :=
  l.foldl (fun t e =>
    if e.1 ≠ floorAddr then t
    else
      let x := e.2.toNat
      let n := nbits x 0 5
      if nbits x 16 1 = 1 then
        (((List.range (nDdr v)).map fun c => chKey false c) ++ (List.range (nCexus v)).map fun c => chKey true c).foldl (fun t k => tabPutD t k 4 n) t
      else tabPutD t (chKey (nbits x 15 1 == 1) (nbits x 8 7)) 4 n) t

/-- The configuration that staged changes would leave: CHANGESET entries and turn-table images. -/
def planWith (u : Units) (entries : List (Nat × Word)) (tables : List (Bool × List Nat × List Nat)) : Plan :=
  let old := planNow u
  let fl := applyFloors u.v entries u.adm.floors
  { cls := fun p => stagedAt entries (regAddr .RGL_PORT_p_CLASS p 0) (old.cls p) % 4
    token := fun p k => stagedAt entries (regAddr (tokenReg k) p 0) (old.token p k)
    pset := fun s => stagedAt entries (regAddr .RGL_PSET_k_LO s 0) (old.pset s % 2 ^ 32) + stagedAt entries (regAddr .RGL_PSET_k_HI s 0) (old.pset s / 2 ^ 32) * 2 ^ 32
    table := fun m c => ((tables.reverse.find? fun t => t.1 == m && t.2.1.contains c).map fun t => t.2.2).getD (old.table m c)
    floor := fun m c => if evacuating u m c || rebuildingAt u m c then 16 else tabGetD fl (chKey m c) 4 }

/-! ### Charges (R143, R144) -/

/-- Fields of a bucket word: rate, unlimited, depth. -/
def tokRate (w : Nat) : Nat := nbits w 0 12
/-- The bucket never holds. -/
def tokUnlimited (w : Nat) : Bool := nbits w 12 1 == 1
/-- Depth in tokens. -/
def tokDepth (w : Nat) : Nat := nbits w 16 10

/-- Effective rate at a scale of f eighths. -/
def rateAt (p : Plan) (port k f : Nat) : Nat := (tokRate (p.token port k) * f + 7) / 8

/-- The port is charged for class k: its class, or on a privileged port a bucket with a rate above zero. -/
def chargedFor (p : Plan) (port k : Nat) : Bool :=
  k < 2 && (p.cls port == k || (privileged port && 0 < tokRate (p.token port k)))

/-- The port lies in set s. -/
def inSet (u : Units) (p : Plan) (s port : Nat) : Bool := port < nPorts u.v && nbits (p.pset s) port 1 == 1

/-- The ports charged to a pair. -/
def pairPorts (u : Units) (p : Plan) (k s : Nat) : List Nat := (List.range (nPorts u.v)).filter fun i => inSet u p s i && chargedFor p i k

/-- Round time of a DDR5 channel in femtoseconds: 512 controller cycles. -/
def dramRound (u : Units) (c : Nat) : Nat := 1024 * tCkFs u c

/-- Charge per round on a channel (R144). -/
def chargeOf (u : Units) (p : Plan) (media : Bool) (ch port k f : Nat) : Nat :=
  let r := rateAt p port k f
  let d := tokDepth (p.token port k)
  if media then (r * 4050 + 2047) / 2048 + d
  else 2 * ((r * dramRound u ch + 2047999999) / 2048000000 + d)

/-- Entries of a pair that are not dropped. -/
def pairEntries (t : List Nat) (dropped : List Nat) (k s : Nat) : Nat :=
  ((List.range t.length).filter fun i => !dropped.contains i && t.getD i 0 % 64 == k + 1 + 4 * s).length

/-- Image indices of C0 and C1 entries. -/
def reservedIdx (t : List Nat) : List Nat := (List.range t.length).filter fun i => let kind := t.getD i 0 % 4; kind == 1 || kind == 2

/-- The turns left to guaranteed entries, before the quarter is kept back (R145). -/
def roomOf (u : Units) (p : Plan) (thr : Bool → Nat → Nat) (media : Bool) (ch : Nat) : Int :=
  let t := p.table media ch
  let maint := max (t.filter fun e => e % 4 == 3).length (p.floor media ch)
  let ref := if media then 0 else getF u F.DDR5_n_STATE_ref ch
  let prot := if media then 8 else 0
  (3 * ((turnsOf media : Int) - ref - maint - prot - thr media ch)) / 4

/-- The scale of a port and class under an outcome. -/
def scaleIn (x : Tab Nat) (port k : Nat) : Nat := 8 - tabGet x (port * 2 + k)

/-- Check 2 for one pair on one channel. -/
def pairFits (u : Units) (p : Plan) (drops : Tab (List Nat)) (scales : Tab Nat) (media : Bool) (ch k s : Nat) : Bool :=
  let ports := pairPorts u p k s
  ((ports.map fun i => chargeOf u p media ch i k (scaleIn scales i k)).sum) ≤
    pairEntries (p.table media ch) (tabGet drops (chKey media ch)) k s * (if media then 3 else 4)

/-- The pairs of a class that some port is charged to. -/
def pairsOf (u : Units) (p : Plan) (k : Nat) : List Nat := (List.range 16).filter fun s => !(pairPorts u p k s).isEmpty

/-! ### The checks (R145, R146) -/

/-- The lowest-numbered port that breaks a port-set rule. -/
def setRuleBreaker (u : Units) (p : Plan) : Option Nat :=
  (List.range (nPorts u.v)).find? fun i =>
    let n := ((List.range 16).filter fun s => inSet u p s i).length
    1 < n || ((chargedFor p i 0 || chargedFor p i 1) && n == 0) || tokUnlimited (p.token i 0) || tokUnlimited (p.token i 1)

/-- A failure found by the checks: channel, media, check, port; result 0 of a REJECTED descriptor. -/
def failWord (ch : Nat) (media : Bool) (check port : Nat) : Nat := ch + (if media then 128 else 0) + check * 256 + port * 65536

/-- The first failure of a configuration, if any: the port-set rules, then each channel in order, check 1 before check 2. -/
def admissionFails (u : Units) (run : Bool) (p : Plan) : Option Nat :=
  match setRuleBreaker u p with
  | some i => some (failWord 0 false 3 i)
  | none =>
    (servedList u run).findSome? fun x =>
      if roomOf u p (fun m c => thrOf u m c) x.1 x.2 < ((reservedIdx (p.table x.1 x.2)).length : Int) then some (failWord x.2 x.1 1 0)
      else if [0, 1].all fun k => (pairsOf u p k).all fun s => pairFits u p tabNil tabNil x.1 x.2 k s then none
      else some (failWord x.2 x.1 2 0)

/-! ### The recheck (R151) -/

/-- Drop entries, C1 before C0 and the highest image index first, until the count is within the room. -/
def dropEntries (t : List Nat) (room : Int) : List Nat → Nat → List Nat
  | dropped, 0 => dropped
  | dropped, n + 1 =>
    let left := (reservedIdx t).filter fun i => !dropped.contains i
    if (left.length : Int) ≤ room then dropped
    else
      let c1 := left.filter fun i => t.getD i 0 % 4 == 2
      match (if c1.isEmpty then left else c1).getLast? with
      | none => dropped
      | some i => dropEntries t room (dropped ++ [i]) n

/-- The sets of a class that fail check 2 on some channel in service. -/
def failingSets (u : Units) (run : Bool) (p : Plan) (drops : Tab (List Nat)) (scales : Tab Nat) (k : Nat) : List Nat :=
  (pairsOf u p k).filter fun s => (servedList u run).any fun x => !pairFits u p drops scales x.1 x.2 k s

/-- One pass over the ports, one eighth off each port of a failing set, until no set fails. -/
def scalePass (u : Units) (run : Bool) (p : Plan) (drops : Tab (List Nat)) (k : Nat) (scales : Tab Nat) : Tab Nat :=
  ((List.range (nPorts u.v)).foldl (fun (a : Tab Nat × List Nat) i =>
    if a.2.isEmpty then a
    else if (a.2.any fun s => inSet u p s i && chargedFor p i k) ∧ tabGet a.1 (i * 2 + k) < 7 then
      let t := tabPut a.1 (i * 2 + k) (tabGet a.1 (i * 2 + k) + 1)
      (t, failingSets u run p drops t k)
    else a) (scales, failingSets u run p drops scales k)).1

/-- Passes until no set of the class fails or every port of a failing set is at one eighth. -/
def scaleClass (u : Units) (run : Bool) (p : Plan) (drops : Tab (List Nat)) (k : Nat) : Nat → Tab Nat → Tab Nat
  | 0, t => t
  | n + 1, t => if (failingSets u run p drops t k).isEmpty then t else scaleClass u run p drops k n (scalePass u run p drops k t)

/-- The recheck of a configuration, from every scale at 8. A port-set rule that the image has broken keeps the outcome overbooked and unmet as long as it stays broken: the model's choice beyond R151's two formulas (log entry 95). -/
def recheckOf (u : Units) (run : Bool) (p : Plan) (thr : Bool → Nat → Nat) : Recheck :=
  let drops := (servedList u run).foldl (fun t x => tabPut t (chKey x.1 x.2) (dropEntries (p.table x.1 x.2) (roomOf u p thr x.1 x.2) [] 72)) (tabNil : Tab (List Nat))
  let s1 := scaleClass u run p drops 1 7 tabNil
  let s := scaleClass u run p drops 0 7 s1
  let broken := (setRuleBreaker u p).isSome
  { drops := drops, scales := s, broken := broken,
    unmet := broken || !(failingSets u run p drops s 0).isEmpty || !(failingSets u run p drops s 1).isEmpty }

/-- The block is overbooked under an outcome. -/
def overbooked (r : Recheck) : Bool := !r.drops.cells.isEmpty || !r.scales.cells.isEmpty || r.broken

/-! ### Bounds (R244, R245, R334, R335) -/

/-- Turns from the start of turn i to the end of the n-th turn of a pair at or after it (none where the pair has no entry). -/
def turnsTo (marks : List Nat) (i n : Nat) : Option Nat :=
  let m := marks.length
  if m = 0 then none
  else
    let j := (marks.filter fun x => x < i).length + n - 1
    some (marks.getD (j % m) 0 + 64 * (j / m) + 1 - i)

/-- W of a pair on a channel (R244). -/
def pairW (t : List Nat) (dropped : List Nat) (k s n : Nat) : Option Nat :=
  let marks := (List.range 64).filter fun i => !dropped.contains i && t.getD i 0 % 64 == k + 1 + 4 * s
  if marks.isEmpty then none
  else some (((List.range 64).map fun i => (turnsTo marks i n).getD 0).foldl max 0 + (if k = 0 then 2 else 4))

/-- Longest bank stall of a channel in femtoseconds. -/
def longestStall (u : Units) (c : Nat) : Nat :=
  let cyc := fun n => n * 2 * tCkFs u c
  if refMode u c = 2 then max (cyc (tRfcsb u c)) 120000000
  else max (cyc (if refMode u c = 0 then tRfc1 u c else tRfc2 u c)) (cyc (tRfc1 u c))

/-- The staging bound of a pair in femtoseconds (Table 7-5). -/
def boundFs (u : Units) (c w : Nat) : Nat :=
  let ck := tCkFs u c
  let burst := 8
  let b := (2 * tRcd u c + 2 * (tCl u c + burst)) * ck + 2000000
  let t := (2 * (halfUp (tCwl u c + 8) + tim u c 3 8 8) + (if writeCrc u c then 1 else 0)) * ck
  34900000 + max (longestStall u c) ((w * 16 + 2 * tRp u c) * ck) + b + t

/-- A bound in whole nanoseconds, rounded up and shown as 1,023 where it is 1,023 or more. -/
def boundNs (fs : Nat) : Nat := min 1023 ((fs + 999999) / 1000000)

/-- The pairs of a channel with their W and bound: those with an entry that is not dropped, and those that some port is charged to; n counts the depth of every port of the set. A pair without entries has no bound. -/
def pairBounds (u : Units) (p : Plan) (drops : Tab (List Nat)) (c : Nat) : List (Nat × Nat × Option Nat × Nat) :=
  [0, 1].flatMap fun k => ((List.range 16).filter fun s =>
      (pairsOf u p k).contains s || pairEntries (p.table false c) (tabGet drops (chKey false c)) k s != 0).map fun s =>
    let n := ((((List.range (nPorts u.v)).filter fun i => inSet u p s i).map fun i => tokDepth (p.token i k)).sum + 1) / 2 + 1
    let w := pairW (p.table false c) (tabGet drops (chKey false c)) k s n
    (k, s, w, match w with | some w => boundFs u c w | none => 1023000000)

/-- DDR5_n_BOUND as an outcome comes into force; a figure above 250 ns sets the flags and emits an event where it was not above before. -/
def putDramBound (u : Units) (p : Plan) (drops : Tab (List Nat)) (c : Nat) : Units :=
  let was := getF u F.DDR5_n_BOUND_over c
  match (pairBounds u p drops c).foldl (fun (b : Option (Nat × Nat × Option Nat × Nat)) x => match b with
    | none => some x
    | some y => if y.2.2.2 < x.2.2.2 then some x else some y) none with
  | none => putReg u .DDR5_n_BOUND c 0 0
  | some x =>
    let above := 250000000 < x.2.2.2
    let u := putReg u .DDR5_n_BOUND c 0 (boundNs x.2.2.2 + x.1 * 2 ^ 10 + x.2.1 * 2 ^ 11 + (if above then 2 ^ 15 else 0) + min 255 (x.2.2.1.getD 255) * 2 ^ 16)
    if above ∧ was = 0 then ddrEvent (flag u F.DDR5_n_ERR_over c) c else if above then flag u F.DDR5_n_ERR_over c else u

/-- n_a of R334: the C0 and C1 tokens that can pass in 640 ns, less one, at most seven. -/
def mediaAhead (u : Units) (p : Plan) (scales : Tab Nat) : Nat :=
  let t := ([0, 1].map fun k => ((List.range (nPorts u.v)).map fun i =>
    if chargedFor p i k then tokDepth (p.token i k) + (5 * rateAt p i k (scaleIn scales i k) + 15) / 16 else 0).sum).sum
  min 7 (t - 1)

/-- MS_g_BOUND: the figure of R334, rounded up to whole nanoseconds; above 640 ns it sets the flags and, where it was not above before, emits an event (R335). -/
def putMediaBound (u : Units) (n g : Nat) : Units :=
  let was := getF u F.MS_g_BOUND_over g
  let fig := 58325 + 1875 * n
  let above := 64000 < fig
  let u := putReg u .MS_g_BOUND g 0 (min 1023 ((fig + 99) / 100) + n * 2 ^ 10 + (if above then 2 ^ 15 else 0))
  if above ∧ was = 0 then grpEvent (flag u F.MS_g_ERR_over g) g else if above then flag u F.MS_g_ERR_over g else u

/-- Every channel's bounds under a configuration and an outcome. -/
def putBounds (u : Units) (p : Plan) (r : Recheck) : Units :=
  let u := (List.range (nDdr u.v)).foldl (fun u c => if pdOn u (pdDram c) then putDramBound u p r.drops c else u) u
  let n := mediaAhead u p r.scales
  (List.range (nGroups u.v)).foldl (fun u g => if pdOn u (pdMedia g) then putMediaBound u n g else u) u

/-! ### An outcome comes into force (R146, R150, R153) -/

/-- Ports with a scale below 8. -/
def scaledPorts (u : Units) (r : Recheck) : Nat := ((List.range (nPorts u.v)).filter fun i => tabGet r.scales (i * 2) != 0 || tabGet r.scales (i * 2 + 1) != 0).length

/-- Bring an outcome into force at a latch: dropped entries, scales, RGL_OVB_STATE; where it differs from the one before, an event and a notice (R153). A recheck that leaves the block overbooked as before renews only the cause (log entry 90). -/
def putOutcome (u : Units) (r : Recheck) (causes : Nat) : Units :=
  let same := r = u.adm.cur
  let u := (List.range (nDdr u.v)).foldl (fun u c => if (ddr u c).dropped = tabGet r.drops (chKey false c) then u else setDdr u c { ddr u c with dropped := tabGet r.drops (chKey false c) }) u
  let u := (List.range (nCexus u.v)).foldl (fun u n =>
    let x := grp u (n / 9)
    if tabGet x.dropped (n % 9) = tabGet r.drops (chKey true n) then u else setGrp u (n / 9) { x with dropped := tabPut x.dropped (n % 9) (tabGet r.drops (chKey true n)) }) u
  let u := (List.range (nPorts u.v)).foldl (fun u i => putReg u .RGL_PORT_p_SCALE i 0 (scaleIn r.scales i 0 + 16 * scaleIn r.scales i 1)) u
  if same then (if overbooked r then putF u F.RGL_OVB_STATE_cause 0 0 (causes % 16) else u)
  else
    let u := { u with adm := { u.adm with cur := r } }
    let u := putReg u .RGL_OVB_STATE 0 0 ((if overbooked r then 1 else 0) + (if r.unmet then 2 else 0) + r.drops.cells.length * 2 ^ 8 + scaledPorts u r * 2 ^ 16 + causes % 16 * 2 ^ 24)
    let u := emitEvent u 3 0 [evReg u .RGL_OVB_STATE]
    notice u 2 (rawReg u .RGL_OVB_STATE)

/-- Steps a zone would take now: own, the core zone's own, the budget step (R496). -/
def stepNow (u : Units) (z : Nat) : Nat := max (max (getF u F.PWR_ZONE_z_STATE_own z) (getF u F.PWR_ZONE_z_STATE_own 12)) u.pwr.budgetStep

/-- The zone exists on the variant (Table 16-8). -/
def zoneExists (v : Variant) (z : Nat) : Bool := z < nGroups v || (8 ≤ z && z ≤ 12)

/-- thr as the due recheck counts it: the steps as they stood when the round began. -/
def dueThr (u : Units) (media : Bool) (ch : Nat) : Nat := 4 * u.adm.dueSteps.getD (zoneOf media ch) (getF u F.PWR_ZONE_z_STATE_step (zoneOf media ch))

/-- RECHECK: the causes gathered in the last latch round are rechecked against the configuration in force (R150, R151). -/
def recheckOp (c : Ctl) (u : Units) : Units :=
  if u.adm.due = 0 then u
  else { u with adm := { u.adm with result := some (recheckOf u (c.mode == .run) (planNow u) (dueThr u)) } }

/-! ### Shares of the dirty budget (R206) -/

/-- Slices in service. -/
def slicesServed (u : Units) : Nat := ((List.range (nDdr u.v)).filter fun s => inService u s).length

/-- Recompute every share: floor(budget ÷ 64 ÷ slices in service) lines, 256 on a slice that drains for evacuation, 0 out of service. -/
def putShares (u : Units) : Units :=
  let n := slicesServed u
  (List.range (nDdr u.v)).foldl (fun u s =>
    let share := if inService u s = false then 0 else if u.stg.evac = 1 ∧ u.stg.evacCh = s then 256 else inF u F.STG_BUDGET_units * 2 ^ 20 / n
    if (slice u s).share = share then u else returnWithheld s 128 (putShare u s share)) u

/-! ### Bandwidth windows (R157) -/

/-- Restart the counts of every port. -/
def restartWindow (u : Units) : Units :=
  (List.range (nPorts u.v)).foldl (fun u p =>
    let q := port u p
    setPort u p { q with rdLines := 0, wrLines := 0, heldCycles := 0 }) u

/-- RECHECK (R151). -/
def execRecheck (s : State) : Host.Outcome State Fault Refusal :=
  onU s fun c u => if pdOn u 2 then recheckOp c u else u

end Sys2Proof.Machine
end

