-- ==== Sys2Proof/Machine/Telemetry.lean ====
section
/-! DEFINITION. Telemetry: bandwidth windows and histograms, level samples, and the event packer (R157, R526 to R539). -/

namespace Sys2Proof.Machine

/-! ### Windows (R157, R529) -/

/-- Address of a histogram register in the user window. -/
def inHistograms (a : Nat) : Bool := (0xA04000 ≤ a && a < 0xA08600)

/-- Store a live table as registers. -/
def putAll (u : Units) (l : List (Nat × Nat)) (f : Units → Nat × Nat → Units) : Units := l.foldl f u

/-- Copy every live histogram, min, max and count into the registers and restart them from zero (R529). -/
def copyHistograms (u : Units) : Units :=
  let t := u.tele
  let u := { u with regs := { u.regs with cur := tabFilter u.regs.cur fun a => !inHistograms a } }
  let u := putAll u t.liveBins.cells fun u x =>
    if x.1 % 64 = 32 then
      let m := tabGet t.lat (2 * (x.1 / 64))
      putReg (putReg (putReg u .TELE_LAT_p_COUNT (x.1 / 64) 0 x.2) .TELE_LAT_p_MIN (x.1 / 64) 0 m.1) .TELE_LAT_p_MAX (x.1 / 64) 0 m.2
    else putReg u .TELE_LAT_p_BIN_i (x.1 / 64) (x.1 % 64) x.2
  let u := putAll u t.drt.cells fun u x => putReg u .TELE_DRT_c_BIN_i (x.1 / 16) (x.1 % 16) x.2
  let u := putAll u t.mq.cells fun u x => putReg u .TELE_MQ_g_BIN_i (x.1 / 16) (x.1 % 16) x.2
  { u with tele := { u.tele with lat := tabNil, liveBins := tabNil, drt := tabNil, mq := tabNil, wins := (u.tele.wins + 1) % 2 ^ 32 } }

/-- The end of a window: the counts of every port are copied and restarted, and so are the histograms. -/
def windowEndOp (u : Units) : Units :=
  let u := (List.range (nPorts u.v)).foldl (fun u p =>
    let q := port u p
    putReg (putReg (putReg u .RGL_PORT_p_BW_RD p 0 q.rdLines) .RGL_PORT_p_BW_WR p 0 q.wrLines) .RGL_PORT_p_BW_HELD p 0 q.heldCycles) u
  let u := restartWindow u
  if pdOn u 5 then copyHistograms u else u

/-- The live histogram of a port restarts from zero (R528). -/
def restartHistogram (u : Units) (p : Nat) : Units :=
  { u with tele := { u.tele with lat := tabPut u.tele.lat (2 * p) (0, 0), liveBins := tabFilter u.tele.liveBins fun k => k / 64 != p } }

/-! ### Level samples (R530) -/

/-- Add one to a bin, which saturates. -/
def bumpBin (t : Tab Nat) (k : Nat) : Tab Nat := tabPut t k (min (tabGet t k + 1) (2 ^ 32 - 1))

/-- One sample of both levels. -/
def levelSampleOp (u : Units) : Units :=
  let drt := (List.range (nDdr u.v)).foldl (fun t s =>
    if inService u s then
      let x := slice u s
      bumpBin t (16 * s + (if x.share = 0 then 15 else min 15 (16 * (x.dirty + booked u s) / x.share)))
    else t) u.tele.drt
  let mq := (List.range (nGroups u.v)).foldl (fun t g =>
    if pdOn u (pdMedia g) then bumpBin t (16 * g + min 15 ((grp u g).reads.length / 2 ^ inF u F.TELE_LVL_CFG_qshift)) else t) u.tele.mq
  { u with tele := { u.tele with drt := drt, mq := mq } }

/-! ### The packer (R533 to R538) -/

/-- Pack words into a line: bytes from 0 upward, with its tag (R536). -/
def lineOfWords (l : List PackWord) : EvtLine :=
  let last := l.getLastD {}
  { line := BitVec.ofNat 256 ((List.range l.length).map fun i => (l.getD i {}).w.toNat * 2 ^ (32 * i)).sum
    tag := 4 * l.length + (if last.ends then 64 else 0) + (if l.any fun x => x.trunc then 128 else 0)
    evts := (l.map fun x => x.evts).sum }

/-- Push a line into the FIFO of 64, or hold it where the FIFO is full. -/
def pushLine (u : Units) (x : EvtLine) : Units :=
  let t := u.tele
  if t.fifo.length < 64 ∧ t.heldLines = [] then { u with tele := { t with fifo := t.fifo ++ [x] } }
  else { u with tele := { t with heldLines := t.heldLines ++ [x] } }

/-- Add words to the line being packed; a line is pushed when it holds 32 bytes. -/
def packWords (u : Units) : List PackWord → Units
  | [] => u
  | w :: rest =>
    let p := u.tele.packing ++ [w]
    let u :=
      if p.length = 8 then pushLine { u with tele := { u.tele with packing := [] } } (lineOfWords p)
      else { u with tele := { u.tele with packing := p } }
    packWords u rest

/-- No word arrives in the next core cycle: a line with words is pushed short. -/
def flushLine (u : Units) : Units :=
  if u.tele.packing = [] then u
  else pushLine { u with tele := { u.tele with packing := [] } } (lineOfWords u.tele.packing)

/-- Events that wait for a tally word: lost ones, and those discarded at a reset of PD_TELE. -/
def tallyWord (u : Units) : Nat := min u.tele.lost 65535 + getF u F.TELE_AON_LOST_count * 65536

/-- Build an item: its header, time and payload, with the tally word last where a count is non-zero (R535). -/
def buildItem (u : Units) (code inst time : Nat) (summary : Bool) (payload : List Word) (evts : Nat) : Units :=
  let tally := tallyWord u != 0
  let trunc := tally && payload.length + 2 == 8
  let body := if tally then payload.take 5 ++ [BitVec.ofNat 32 (tallyWord u)] else payload
  let n := body.length + 2
  let head := code + (n - 1) * 2 ^ 8 + (if summary then 2 ^ 11 else 0) + (if tally then 2 ^ 12 else 0) + inst % 65536 * 2 ^ 16
  let words := BitVec.ofNat 32 head :: BitVec.ofNat 32 time :: body
  let u := { u with tele := { u.tele with lost := if tally then 0 else u.tele.lost } }
  let u := if tally then putReg u .TELE_AON_LOST 0 0 0 else u
  packWords u ((words.take (n - 1)).map (fun w => { w := w }) ++ [{ w := words.getLastD 0, ends := true, trunc := trunc, evts := evts }])

/-- Build summary items of the non-zero counts, ascending by code, up to six codes an item, five with a tally word. -/
def buildSummaries : Nat → Units → List (Nat × Nat) → Units
  | 0, u, _ => u
  | n + 1, u, l =>
    if l.isEmpty then u
    else
      let k := if tallyWord u = 0 then 6 else 5
      let u := buildItem u 0 0 (usec u % 2 ^ 32) true ((l.take k).map fun x => BitVec.ofNat 32 (x.1 + x.2 * 256)) 0
      buildSummaries n u (l.drop k)

/-- The summary counts are built into items and start again from zero (R538). -/
def buildSummary (u : Units) : Units :=
  let l := u.tele.sums.cells
  if l.isEmpty then u
  else flushLine (buildSummaries 16 { u with tele := { u.tele with sums := tabNil, sumAt := none } } l)

/-- Add one event to the summary count of its code; a count that would pass 0xFF_FFFF is built first. -/
def addSummary (u : Units) (code : Nat) : Units :=
  let u := if tabGet u.tele.sums code = 0xFFFFFF then buildSummary u else u
  let t := u.tele
  count { u with tele := { t with sums := tabPut t.sums code (tabGet t.sums code + 1), sumAt := some (t.sumAt.getD u.now) } } (cCore 19)

/-- An event goes into the lost tally. -/
def loseEvent (u : Units) : Units := count { flag u F.TELE_ERR_lost with tele := { u.tele with lost := u.tele.lost + 1 } } (cCore 20)

/-- EVENT_TAKEN: the packer takes the oldest event (R533, R538). -/
def eventTakenOp (u : Units) : Units :=
  match u.tele.inq with
  | [] => u
  | e :: rest =>
    let n := u.tele.fifo.length
    let u := { u with tele := { u.tele with inq := rest } }
    if 64 ≤ n ∨ u.tele.heldLines ≠ [] then flushLine (loseEvent u)
    else if 49 ≤ n then flushLine (addSummary u e.code)
    else
      let u := buildItem u e.code e.inst e.time false e.words 1
      if rest.isEmpty then flushLine u else u

/-- EVT_POP: the oldest line is presented, or the line last popped again with underrun high (Table 18-4); what the FIFO has room for then follows. -/
def evtPopOp (u : Units) : Units :=
  let t := u.tele
  match t.fifo with
  | [] =>
    let u := flag u F.TELE_ERR_underrun
    (match t.lastLine with
     | some x => present u (.evtLine x.line x.tag true)
     | none =>
       let (n, u) := takeFree u
       present u (.evtLine (BitVec.setWidth 256 (Config.freeLine n)) (n % 256) true))
  | x :: rest =>
    let u := present u (.evtLine x.line x.tag false)
    let u := { u with tele := { t with fifo := rest ++ t.heldLines.take 1, heldLines := t.heldLines.drop 1, lastLine := some x } }
    let u := countN u (cCore 18) x.evts
    if u.tele.fifo.length ≤ 48 ∧ !u.tele.sums.cells.isEmpty then buildSummary u else u

/-! ### Counter reads (R526) -/

/-- Bits [31:0] of a counter. -/
def counterLo (u : Units) (n : Nat) : Nat := tabGet u.tele.counters n % 2 ^ 32
/-- Bits [47:32] of a counter. -/
def counterHi (u : Units) (n : Nat) : Nat := tabGet u.tele.counters n / 2 ^ 32

/-- BW_WINDOW_END (R157). -/
def execBwWindowEnd (s : State) : Host.Outcome State Fault Refusal :=
  onU s fun _ u => if pdOn u 2 ∧ inF u F.RGL_BW_WINDOW_rounds ≠ 0 then windowEndOp u else u

/-- EVENT_TAKEN (R533). -/
def execEventTaken (s : State) : Host.Outcome State Fault Refusal :=
  onU s fun _ u => if pdOn u 5 then eventTakenOp u else u

/-- SUMMARY_BUILD (R538). -/
def execSummaryBuild (s : State) : Host.Outcome State Fault Refusal :=
  onU s fun _ u => if pdOn u 5 then buildSummary u else u

/-- EVT_POP (R537). -/
def execEvtPop (s : State) : Host.Outcome State Fault Refusal :=
  onU s fun _ u => if pdOn u 5 then evtPopOp u else u

/-- LEVEL_SAMPLE (R530). -/
def execLevelSample (s : State) : Host.Outcome State Fault Refusal :=
  onU s fun _ u => if pdOn u 5 ∧ inF u F.TELE_LVL_CFG_period ≠ 0 then levelSampleOp u else u

end Sys2Proof.Machine
end

