-- ==== Sys2Proof/Machine/Rings.lean ====
section
/-! DEFINITION. The ring engine: fetching, dispatch order, chains, completion entries, doorbells, interrupt messages and the notice ring (R445 to R458, R468 to R475). -/

namespace Sys2Proof.Machine

/-! ### Access -/

/-- A ring pair. -/
def ring (u : Units) (r : Nat) : Ring := tabGet u.rings.ring r

/-- Replace a ring pair. -/
def setRing (u : Units) (r : Nat) (x : Ring) : Units := { u with rings := { u.rings with ring := tabPut u.rings.ring r x } }

/-- Entries of a ring's SQ and CQ in force. -/
def sqSize (u : Units) (r : Nat) : Nat := 2 ^ inF u F.RNG_r_CFG_sq_log2 r
/-- Entries of a ring's CQ in force. -/
def cqSize (u : Units) (r : Nat) : Nat := 2 ^ inF u F.RNG_r_CFG_cq_log2 r
/-- Base address of the SQ. -/
def sqBase (u : Units) (r : Nat) : Nat := inF u F.RNG_r_SQ_BASE_LO_base r * 4096 + inF u F.RNG_r_SQ_BASE_HI_base r * 2 ^ 32
/-- Base address of the CQ. -/
def cqBase (u : Units) (r : Nat) : Nat := inF u F.RNG_r_CQ_BASE_LO_base r * 4096 + inF u F.RNG_r_CQ_BASE_HI_base r * 2 ^ 32

/-- The outstanding descriptor of a ring with an index. -/
def findDesc (u : Units) (r i : Nat) : Option Desc := (ring u r).descs.find? fun d => d.idx == i

/-- Replace an outstanding descriptor. -/
def putDesc (u : Units) (r : Nat) (d : Desc) : Units :=
  let x := ring u r
  setRing u r { x with descs := x.descs.map fun y => if y.idx = d.idx then d else y }

/-- Bits [w − 1 : 0] from byte n of a descriptor. -/
def dField (d : Desc) (byte w : Nat) : Nat := nbits d.bits.toNat (8 * byte) w
/-- Opcode (Table 15-1). -/
def dOp (d : Desc) : Nat := dField d 0 8
/-- Chain bit. -/
def dChain (d : Desc) : Bool := nbits d.bits.toNat 8 1 == 1
/-- irq bit. -/
def dIrq (d : Desc) : Bool := nbits d.bits.toNat 9 1 == 1
/-- Fence bit. -/
def dFence (d : Desc) : Bool := nbits d.bits.toNat 10 1 == 1
/-- Driver tag. -/
def dTag (d : Desc) : Nat := nbits d.bits.toNat 16 16

/-! ### Dispatch (R456, R457) -/

/-- The chain that a list of outstanding descriptors begins with has been fetched to its end. -/
def chainWhole : List Desc → Bool
  | [] => false
  | d :: t => if dChain d then chainWhole t else true

/-- The first descriptor of a list, with those before it, may be dispatched. -/
def mayGo (before : List Desc) (d : Desc) (after : List Desc) : Bool :=
  d.begun || ((!dFence d || before.isEmpty) &&
    (d.pos == 0 || !(before.getLast?.any fun b => dChain b && b.pos + 1 == d.pos)) && chainWhole (d :: after))

/-- Every descriptor up to index i may be dispatched. -/
def prefixGoes (i : Nat) : List Desc → List Desc → Bool
  | _, [] => false
  | before, d :: t => mayGo before d t && (d.idx == i || prefixGoes i (before ++ [d]) t)

/-- The unit that executes an opcode, by the units that the chapters of the descriptors name (DEDUCED, log 125): 0 the context engine, 1 the hinge unit, 2 the flush point, 5 the ring engine; any other opcode is taken to have a unit of its own. -/
def unitOf (op : Nat) : Nat :=
  if [0x02, 0x03, 0x04, 0x12].contains op then 0
  else if [0x06, 0x24, 0x25, 0x30].contains op then 1
  else if op = 0x05 ∨ op = 0x08 then 2
  else if [0x01, 0x07, 0x27].contains op then 5
  else 256 + op

/-- A unit begins the descriptors of a ring in the order in which it receives them: none of its own before index i waits to begin (R456). -/
def unitInOrder (i : Nat) (l : List Desc) : Bool :=
  match l.find? fun d => d.idx == i with
  | none => true
  | some x => (l.takeWhile fun d => d.idx != i).all fun d => d.begun || unitOf (dOp d) != unitOf (dOp x)

/-- The descriptor may be begun now: it and everything before it in its ring may be dispatched, and its unit has begun what it received before. -/
def dispatchable (u : Units) (r i : Nat) : Bool := prefixGoes i [] (ring u r).descs && unitInOrder i (ring u r).descs

/-! ### Completion (R446, R454, R457) -/

/-- A completion entry (Table 15-2). -/
def entryOf (flip : Bool) (r status : Nat) (d : Desc) (r0 r1 covers : Nat) : BitVec 256 :=
  BitVec.ofNat 256 (status + (if flip then 0 else 256) + dOp d * 2 ^ 16 + r * 2 ^ 24 + d.idx * 2 ^ 32 + dTag d * 2 ^ 48 +
    r0 % 2 ^ 64 * 2 ^ 64 + r1 % 2 ^ 64 * 2 ^ 128 + covers % 65536 * 2 ^ 192)

/-- Write one completion entry at the CQ tail; the descriptors it covers are no longer outstanding. -/
def writeEntry (u : Units) (r : Nat) (d : Desc) (status r0 r1 : Nat) (covered : List Nat) : Units :=
  let x := ring u r
  let w : RingWrite := { ring := r, addr := cqBase u r + x.cqTail * 32, entry := entryOf x.flip r status d r0 r1 covered.length, irq := dIrq d || status == 5 }
  let wrap := x.cqTail + 1 = cqSize u r
  let u := setRing u r { x with cqTail := if wrap then 0 else x.cqTail + 1, flip := if wrap then !x.flip else x.flip,
                                cqUsed := x.cqUsed + 1, descs := x.descs.filter fun y => !covered.contains y.idx }
  count (issueWrite u w) (cCore 6)

/-- The members of a chain that follow one of its members, among the outstanding descriptors. -/
def laterMembers : List Desc → Nat → List Desc
  | [], _ => []
  | d :: t, pos => if d.pos = pos then d :: (if dChain d then laterMembers t (pos + 1) else []) else []

/-- The descriptors of a ring after index i. -/
def descsAfter (u : Units) (r i : Nat) : List Desc := (((ring u r).descs.dropWhile fun d => d.idx != i).drop 1)

/-- A descriptor completes; where its status is not DONE, every later member of its chain completes ABORTED without beginning. -/
def complete (u : Units) (r i status : Nat) (r0 : Nat := 0) (r1 : Nat := 0) : Units :=
  match findDesc u r i with
  | none => u
  | some d =>
    let later := if status ≠ 0 ∧ dChain d then laterMembers (descsAfter u r i) (d.pos + 1) else []
    let x := ring u r
    let openRun := status ≠ 0 ∧ dChain d ∧ (later.getLastD d).pos + 1 = x.runLen ∧ dChain (later.getLastD d)
    let u := if openRun then setRing u r { x with runDead := true } else u
    let u := writeEntry u r d status r0 r1 [i]
    later.foldl (fun u m => writeEntry u r m 2 0 0 [m.idx]) u

/-- Complete where there is such a descriptor. -/
def completeOpt (u : Units) (d : Option (Nat × Nat)) (status : Nat) (r0 : Nat := 0) (r1 : Nat := 0) : Units :=
  match d with
  | some (r, i) => complete u r i status r0 r1
  | none => u

/-! ### Fetching (R447, R452, R457) -/

/-- The number of a ring's descriptors fetched or being fetched. -/
def outstanding (x : Ring) : Nat := x.descs.length + x.fetching.length

/-- Index after one, wrapping. -/
def nextIdx (n i : Nat) : Nat := (i + 1) % n

/-- Index of the next fetch. -/
def fetchNext (u : Units) (r : Nat) : Nat := ((ring u r).fetch + (ring u r).fetching.length) % sqSize u r

/-- DESCRIPTOR_FETCH: a CQ slot is reserved and the next descriptor is read. -/
def fetchOp (u : Units) (r : Nat) : Units :=
  let x := ring u r
  let i := fetchNext u r
  if x.state = 1 ∧ i ≠ x.tail ∧ outstanding x < 32 ∧ x.cqUsed + outstanding x < cqSize u r ∧ u.rings.reads.length < 64 then
    let u := present u (.ringRead (sqBase u r + i * 64))
    let u := setRing u r { x with fetching := x.fetching ++ [i] }
    { u with rings := { u.rings with reads := u.rings.reads ++ [(r, i, 0)] } }
  else u

/-- A descriptor read in ring order joins the outstanding descriptors; the sixteenth of a run of sixteen chain bits ends the run, and each of its members completes BAD_DESCRIPTOR. A member of a chain already aborted completes ABORTED. -/
def joinDesc (u : Units) (r i : Nat) (bits : BitVec 512) : Units :=
  let x := ring u r
  let d : Desc := { idx := i, bits := bits, pos := x.runLen }
  let n := if dChain d then x.runLen + 1 else 0
  let u := setRing u r { x with descs := x.descs ++ [d], fetch := nextIdx (sqSize u r) i, runLen := if n = 16 then 0 else n,
                                runDead := x.runDead && dChain d && n != 16 }
  let u := count u (cCore 5)
  if n = 16 then
    let run := if x.runDead then [d] else (ring u r).descs.drop ((ring u r).descs.length - 16)
    run.foldl (fun u m => writeEntry u r m 6 0 0 [m.idx]) u
  else if x.runDead then writeEntry u r d 2 0 0 [i]
  else u

/-- Take what has arrived, in ring order. -/
def takeArrived (r : Nat) : Nat → Units → Units
  | 0, u => u
  | n + 1, u =>
    let x := ring u r
    match x.fetching with
    | [] => u
    | i :: rest =>
      match x.arrived.find? fun a => a.1 == i with
      | none => u
      | some a => takeArrived r n (joinDesc (setRing u r { x with fetching := rest, arrived := x.arrived.filter fun b => b.1 != i }) r i a.2)

/-- After a failed read and the fetches before it, the fetched members of the chain left open count as never fetched (R452). -/
def dropOpenRun (u : Units) (r : Nat) : Units :=
  let x := ring u r
  if x.fetchErr ∧ x.fetching = [] ∧ 0 < x.runLen then
    let keep := x.descs.take (x.descs.length - min x.runLen x.descs.length)
    let cut := x.descs.drop (x.descs.length - min x.runLen x.descs.length)
    setRing u r { x with descs := keep, runLen := 0, runDead := false, fetch := ((cut.head?.map fun d => d.idx).getD x.fetch) }
  else u

/-- Set a ring's error state and send the error message (R452, R472). -/
def ringError (u : Units) (r : Nat) : Units :=
  let x := ring u r
  sendRingError (setRing u r { x with state := if x.state = 2 then 2 else 3 })

/-- Drop one outstanding read. -/
def endRead (u : Units) (k : Nat × Nat × Nat) : Units := { u with rings := { u.rings with reads := u.rings.reads.erase k } }

/-- FETCH_RETURN: a descriptor read returns. -/
def fetchReturnOp (u : Units) (r i : Nat) (err : Bool) (bits : BitVec 512) : Units :=
  match u.rings.reads.find? fun k => k.1 == r && k.2.1 == i && (k.2.2 == 0 || k.2.2 == 2) with
  | none => u
  | some k =>
    let u := endRead u k
    if k.2.2 = 2 then u
    else
      let x := ring u r
      if err then
        let u := flag (ringError u r) F.RNG_r_ERR_fetch r
        let x := ring u r
        let kept := x.fetching.takeWhile fun j => j != i
        let u := setRing u r { x with fetching := kept, arrived := x.arrived.filter fun a => kept.contains a.1, fetchErr := true }
        dropOpenRun (takeArrived r 32 u) r
      else if x.fetching.contains i then
        dropOpenRun (takeArrived r 32 (setRing u r { x with arrived := x.arrived ++ [(i, bits)] })) r
      else u

/-! ### Writes on the port and coalescing (R451, R472) -/

/-- A ring's source and vector, count and timer: 64 names the notice ring. -/
def irqVector (u : Units) (r : Nat) : Nat := if r = 64 then inF u F.RNG_NT_CFG_vector else inF u F.RNG_r_CFG_vector r
/-- Coalescing count. -/
def irqCount (u : Units) (r : Nat) : Nat := if r = 64 then inF u F.RNG_NT_IRQ_count else inF u F.RNG_r_IRQ_count r
/-- Coalescing timer in microseconds. -/
def irqUsec (u : Units) (r : Nat) : Nat := if r = 64 then inF u F.RNG_NT_IRQ_usec else inF u F.RNG_r_IRQ_usec r

/-- Entries written since the last message. -/
def pendOf (u : Units) (r : Nat) : Nat := if r = 64 then u.rings.ntPend else (ring u r).pend
/-- When the timer of those entries ends. -/
def dueOf (u : Units) (r : Nat) : Nat := if r = 64 then u.rings.ntDue else (ring u r).due

/-- Store both. -/
def putPend (u : Units) (r n due : Nat) : Units :=
  if r = 64 then { u with rings := { u.rings with ntPend := n, ntDue := due } }
  else setRing u r { ring u r with pend := n, due := due }

/-- send(x) of R472. -/
def sendIrq (u : Units) (r : Nat) : Units := sendMsg (putPend u r 0 (dueOf u r)) (irqVector u r) r

/-- An entry of a ring has been written (R472). -/
def entryWritten (u : Units) (r : Nat) (now : Bool) : Units :=
  let n := pendOf u r + 1
  let u := putPend u r n (if n = 1 then usec u + irqUsec u r else dueOf u r)
  if now ∨ (0 < irqCount u r ∧ irqCount u r ≤ n) then sendIrq u r else u

/-- Remove the oldest write of a ring from the port; the first write that waited for a place is issued. -/
def takeWrite (u : Units) (r : Nat) : Option (RingWrite × Units) :=
  match (u.rings.writes.take 64).find? fun w => w.ring == r with
  | none => none
  | some w =>
    let next := u.rings.writes[64]?
    let u := { u with rings := { u.rings with writes := u.rings.writes.erase w } }
    some (w, match next with
      | some n => present u (.ringWrite n.addr n.entry)
      | none => u)

/-- COMPLETION_WRITTEN: the oldest outstanding write of a ring, or of the notice ring (64), has its response (R451, R452). -/
def writtenOp (u : Units) (r : Nat) (err : Bool) : Units :=
  match takeWrite u r with
  | none => u
  | some (w, u) =>
    if r = 64 then
      if err then loseNotice (flag u F.RNG_NT_ERR_write) else entryWritten u 64 false
    else
      let u := if err then flag (ringError u r) F.RNG_r_ERR_write r else u
      entryWritten u r w.irq

/-- IRQ_TIMER: a coalescing timer has ended (R472). -/
def irqTimerOp (u : Units) (r : Nat) : Units :=
  if 0 < pendOf u r ∧ 0 < irqUsec u r ∧ dueOf u r ≤ usec u then sendIrq u r else u

/-- A write to RNG_IRQ_MASK_k: masks are set, and each vector unmasked sends its held message (R473). -/
def irqMaskOp (u : Units) (k v : Nat) : Units :=
  let u := putReg u .RNG_IRQ_MASK_k k 0 v
  let free := u.rings.heldMsgs.filter fun m => m.1 / 32 = k ∧ nbits v (m.1 % 32) 1 = 0
  free.foldl (fun u m =>
    sendMsg { u with rings := { u.rings with heldMsgs := u.rings.heldMsgs.filter fun y => y.1 ≠ m.1 } } m.1 m.2) u

/-! ### Doorbells (R448, R449, R469) -/

/-- The index lies in the fetched range of a ring. -/
def inFetched (u : Units) (r t : Nat) : Bool :=
  let x := ring u r
  let all := (x.descs.map fun d => d.idx) ++ x.fetching
  match all.head? with
  | none => false
  | some a =>
    let b := nextIdx (sqSize u r) (all.getLastD 0)
    let n := sqSize u r
    (t + n - a) % n < (if b = a then n else (b + n - a) % n)

/-- A write to RNG_r_SQ_TAIL. -/
def sqDoorbellOp (u : Units) (r t : Nat) : Units :=
  let x := ring u r
  if sqSize u r ≤ t ∨ x.state = 0 ∨ x.state = 2 then flag u F.RNG_r_ERR_doorbell r
  else if t = x.tail then u
  else if inFetched u r t then flag u F.RNG_r_ERR_doorbell r
  else setRing u r { x with tail := t }

/-- A write to RNG_r_CQ_HEAD. -/
def cqDoorbellOp (u : Units) (r h : Nat) : Units :=
  let x := ring u r
  let n := cqSize u r
  if n ≤ h ∨ x.cqUsed < (h + n - x.head) % n ∨ x.state = 2 then flag u F.RNG_r_ERR_doorbell r
  else setRing u r { x with head := h, cqUsed := x.cqUsed - (h + n - x.head) % n }

/-- A write to RNG_NT_HEAD. -/
def ntDoorbellOp (u : Units) (h : Nat) : Units :=
  let n := ntSize u
  let x := u.rings
  if n ≤ h ∨ x.ntUsed < (h + n - x.ntHead) % n then flag u F.RNG_NT_ERR_doorbell
  else { u with rings := { x with ntHead := h, ntUsed := x.ntUsed - (h + n - x.ntHead) % n } }

/-- A write of 1 to RNG_NT_CTRL.reset: tail, head and lost field return to zero and the phase to 1 (R474). -/
def ntResetOp (u : Units) : Units :=
  { u with rings := { u.rings with ntTail := 0, ntHead := 0, ntUsed := 0, ntFlip := false, ntLostField := 0 } }

/-- The notice ring is enabled: it is running with every index at 0, and notices held until then are written in order (R469, R474). -/
def enableNotices (u : Units) : Units :=
  let held := u.rings.ntHeld
  let lost := u.rings.ntLostField
  let u := ntResetOp { u with rings := { u.rings with ntState := 1, ntEnabledOnce := true, ntHeld := [] } }
  held.foldl writeNotice { u with rings := { u.rings with ntLostField := lost } }

/-- The oldest queued interrupt message is delivered (R571). -/
def msgDeliveryOp (u : Units) : Units :=
  match u.rings.msgs with
  | [] => u
  | m :: t => present { u with rings := { u.rings with msgs := t } } (.intMsg m)

/-- Modes in which descriptors are fetched (R450). -/
def fetchMode (c : Ctl) : Bool := c.mode == .run || c.mode == .service || c.mode == .drain

/-- DESCRIPTOR_FETCH (R447). -/
def execDescriptorFetch (r : Nat) (s : State) : Host.Outcome State Fault Refusal :=
  onU s fun c u => if r < 64 ∧ pdOn u 4 ∧ fenced u 4 = false ∧ fetchMode c ∧ u.pwr.hushing = false then fetchOp u r else u

/-- COMPLETION_WRITTEN (R451). -/
def execCompletionWritten (r : Nat) (err : Bool) (s : State) : Host.Outcome State Fault Refusal :=
  onU s fun _ u => if r ≤ 64 ∧ pdOn u 4 then writtenOp u r err else u

/-- IRQ_TIMER (R472). -/
def execIrqTimer (r : Nat) (s : State) : Host.Outcome State Fault Refusal :=
  onU s fun _ u => if r ≤ 64 ∧ pdOn u 4 then irqTimerOp u r else u

/-- INT_MSG_DELIVERY (R571). -/
def execIntMsgDelivery (s : State) : Host.Outcome State Fault Refusal :=
  onU s fun _ u => if pdOn u 4 then msgDeliveryOp u else u

end Sys2Proof.Machine
end

