-- ==== Sys2Proof/Machine/Descriptors.lean ====
section
/-! DEFINITION. Descriptors: their reserved bits, how one begins, payload reads, and the descriptors of the context engine, the flush point, prefetching and regulation (R97 to R103, R453 to R462). -/

namespace Sys2Proof.Machine

/-! ### Operands (Table 15-4) -/

/-- The operand fields that an opcode names: lowest bit and width in the 512 bits of the descriptor. -/
def operandBits (d : Desc) : List (Nat × Nat) :=
  match dOp d with
  | 0x02 => [(64, 20), (130, 107), (261, 12)]
  | 0x03 => [(64, 20)]
  | 0x04 =>
    let m := fun (k lo w : Nat) => if nbits d.bits.toNat (96 + k) 1 = 1 then [(128 + lo, w)] else []
    [(64, 20), (96, 6)] ++ m 0 2 2 ++ m 1 4 1 ++ m 2 5 2 ++ m 3 17 46 ++ m 4 63 46 ++ m 5 133 12
  | 0x05 => [(64, 20)]
  | 0x06 => [(64, 22), (96, 17)]
  | 0x07 => [(64, 20), (128, 39), (192, 13)]
  | 0x10 => [(64, 64), (128, 9)]
  | 0x11 => [(64, 64), (128, 1), (192, 128)]
  | 0x12 => [(64, 20), (96, 13), (112, 10)]
  | 0x20 => [(64, 1), (72, 7)]
  | 0x21 => [(64, 8), (72, 7), (80, 5), (88, 3)]
  | 0x22 => [(64, 1), (72, 7)]
  | 0x23 => [(64, 7), (72, 1), (80, 4)]
  | 0x24 => [(64, 22), (96, 23)]
  | 0x25 => [(64, 6)]
  | 0x26 =>
    if nbits d.bits.toNat 64 1 = 1 then [(64, 1), (72, 7), (80, 3), (128, 31)]
    else [(64, 1), (72, 7), (80, 1), (88, 4), (96, 5), (104, 7), (128, 18), (160, 2), (176, 10)]
  | 0x27 => [(128, 39), (192, 13), (208, 1)]
  | 0x28 => [(128, 39), (192, 13)]
  | 0x32 => [(64, 64), (128, 32)]
  | 0x33 => [(64, 3)]
  | 0x34 => [(64, 1)]
  | 0x3F => [(64, 6), (80, 16)]
  | _ => []

/-- A reserved bit of the header or of the operands is set (R20, R101, R453). -/
def reservedSet (d : Desc) : Bool :=
  let mask := ([(0, 11), (16, 16)] ++ operandBits d).foldl (fun (m : Nat) (f : Nat × Nat) => m ||| (2 ^ f.2 - 1) * 2 ^ f.1) 0
  d.bits.toNat &&& mask != d.bits.toNat

/-- The opcodes of Table 15-4. -/
def knownOps : List Nat :=
  [0x01, 0x02, 0x03, 0x04, 0x05, 0x06, 0x07, 0x08, 0x10, 0x11, 0x12, 0x20, 0x21, 0x22, 0x23, 0x24, 0x25, 0x26, 0x27, 0x28,
   0x30, 0x31, 0x32, 0x33, 0x34, 0x3F]

/-! ### Beginning (R456, R458) -/

/-- The ring engine may hand this descriptor to its unit now. -/
def mayBegin (c : Ctl) (u : Units) (r i : Nat) : Bool := pdOn u 4 && !fenced u 4 && fetchMode c && dispatchable u r i

/-- A descriptor has begun. -/
def begun (u : Units) (r : Nat) (d : Desc) : Units × Desc := (putDesc u r { d with begun := true }, { d with begun := true })

/-- One descriptor row: a descriptor of the ring with this index that the row names. Where it has begun it goes on; where it may begin, a malformed one completes BAD_DESCRIPTOR, one not accepted in the mode NOT_IN_MODE, any other begins. -/
def descOp (names : Desc → Bool) (bad : Units → Desc → Bool) (modes : List Mode)
    (start step : Ctl → Units → Nat → Desc → Units) (r i : Nat) (c : Ctl) (u : Units) : Units :=
  match findDesc u r i with
  | none => u
  | some d =>
    if names d = false then u
    else if d.begun then (if fenced u 4 then u else step c u r d)
    else if mayBegin c u r i = false then u
    else if reservedSet d || bad u d then complete u r i 6
    else if modes.contains c.mode = false then complete u r i 7
    else start c (begun u r d).1 r (begun u r d).2

/-- A descriptor that has begun and waits for nothing but others. -/
def waits (_ : Ctl) (u : Units) (_ : Nat) (_ : Desc) : Units := u

/-- The row of one opcode. -/
def isOp (op : Nat) (d : Desc) : Bool := dOp d == op

/-- Modes of Table 15-4. -/
def runService : List Mode := [.run, .service]

/-- Every descriptor begun and not completed, with its ring. -/
def underWay (u : Units) : List (Nat × Desc) :=
  u.rings.ring.cells.flatMap fun x => (x.2.descs.filter fun d => d.begun).map fun d => (x.1, d)

/-- The change of a descriptor is staged: it has committed and completes DONE at the latch. -/
def stagedDone (u : Units) (r : Nat) (d : Desc) : Units := putDesc u r { d with committed := true, atLatch := some 0 }

/-! ### Context records (R98 to R103) -/

/-- The handle in bytes 8 to 10. -/
def dHandle (d : Desc) : Nat := dField d 8 20

/-- The record image in bytes 16 to 35. -/
def dImage (d : Desc) : Nat := dField d 16 160

/-- A record as the descriptors executed so far leave it (R98). -/
def ctxView (u : Units) (h : Nat) : BitVec 160 :=
  match u.ctxStaged.reverse.find? fun e => e.1 == h with
  | some e => if u.badCtx.contains (h / 2) then 0 else e.2
  | none => ctxRec u u.regs.epoch h

/-- The state a record is left in. -/
def ctxState (u : Units) (h : Nat) : Nat := cBits (ctxView u h) 0 2

/-- Stage a record for the next advancing latch. -/
def stageCtx (u : Units) (h x : Nat) : Units := { u with ctxStaged := u.ctxStaged ++ [(h, BitVec.ofNat 160 x)] }

/-- A window satisfies R102; `lo` is the lowest bit of its base. -/
def windowLegal (v : Variant) (x lo : Nat) : Bool :=
  let base := nbits x lo 22
  let last := nbits x (lo + 22) 22
  if nbits x (lo + 44) 2 = 0 then base == 0 && last == 0 else base ≤ last && last < nRegions v

/-- A handle beyond the variant (R101). -/
def badHandle (u : Units) (d : Desc) : Bool := nCtx u.v ≤ dHandle d

/-- CTX_OPEN (Table 3-2). A record word out of use makes it fail (Table 13-5). -/
def ctxOpenStart (_ : Ctl) (u : Units) (r : Nat) (d : Desc) : Units :=
  let h := dHandle d
  let x := dImage d
  if u.badCtx.contains (h / 2) then complete u r d.idx 8
  else if ctxState u h ≠ 0 ∨ nbits x 2 2 = 3 ∨ windowLegal u.v x 17 = false ∨ windowLegal u.v x 63 = false then complete u r d.idx 4
  else stagedDone (stageCtx u h (nput x 0 2 1)) r d

/-- The fields that a CTX_MODIFY mask names: mask bit, lowest bit, width. -/
def modifyFields : List (Nat × Nat × Nat) := [(0, 2, 2), (1, 4, 1), (2, 5, 2), (3, 17, 46), (4, 63, 46), (5, 133, 12)]

/-- A record with the fields of a mask taken from an image. -/
def modified (old image mask : Nat) : Nat :=
  modifyFields.foldl (fun x f => if nbits mask f.1 1 = 1 then nput x f.2.1 f.2.2 (nbits image f.2.1 f.2.2) else x) old

/-- CTX_MODIFY (Table 3-2). -/
def ctxModifyStart (_ : Ctl) (u : Units) (r : Nat) (d : Desc) : Units :=
  let h := dHandle d
  let x := dImage d
  let m := dField d 12 6
  let order := nbits m 0 1 = 1 ∧ nbits x 2 2 = 3
  let w0 := nbits m 3 1 = 1 ∧ windowLegal u.v x 17 = false
  let w1 := nbits m 4 1 = 1 ∧ windowLegal u.v x 63 = false
  if ctxState u h ≠ 1 ∨ m = 0 ∨ order ∨ w0 ∨ w1 then complete u r d.idx 4
  else stagedDone (stageCtx u h (modified (ctxView u h).toNat x m)) r d

/-- CTX_CLOSE: the next latch makes the context closing, and commits the descriptor (R103). -/
def ctxCloseStart (_ : Ctl) (u : Units) (r : Nat) (d : Desc) : Units :=
  let h := dHandle d
  if ctxState u h ≠ 1 then complete u r d.idx 4 else stageCtx u h (nput (ctxView u h).toNat 0 2 2)

/-- An aborted CTX_CLOSE takes its staged change back. -/
def unstageClose (u : Units) (h : Nat) : Units :=
  let kept := u.ctxStaged.reverse
  match kept.findIdx? fun e => e.1 == h with
  | some k => { u with ctxStaged := (kept.eraseIdx k).reverse }
  | none => u

/-- Write a record of the bank in force. -/
def putCtx (u : Units) (h : Nat) (x : BitVec 160) : Units :=
  if u.regs.epoch % 2 = 0 then { u with ctxEven := tabPutD u.ctxEven h 0 x } else { u with ctxOdd := tabPutD u.ctxOdd h 0 x }

/-- A closing context whose owc_map is zero becomes closed: the record is zeroed, flush_seq is reported and zeroed, and its CTX_CLOSE completes (R103 step 4). -/
def closeFinishOp (u : Units) (h : Nat) : Units :=
  if cBits (ctxRec u u.regs.epoch h) 0 2 = 2 ∧ owcMap u h = 0 then
    let seq := tabGet u.flushSeq h
    let u := putCtx { u with flushSeq := tabPut u.flushSeq h 0 } h 0
    match (underWay u).find? fun x => dOp x.2 == 3 && dHandle x.2 == h && x.2.committed with
    | some x => complete u x.1 x.2.idx 0 seq
    | none => u
  else u

/-- Count of a KEY_BIND. -/
def bindCount (d : Desc) : Nat := dField d 12 13

/-- A range of handles that passes the variant's contexts, or a count above 4,096. -/
def badBind (u : Units) (d : Desc) : Bool := nCtx u.v < dHandle d + bindCount d || nCtx u.v ≤ dHandle d || 4096 < bindCount d

/-- KEY_BIND (Table 3-2). -/
def keyBindStart (_ : Ctl) (u : Units) (r : Nat) (d : Desc) : Units :=
  let hs := (List.range (bindCount d)).map fun k => dHandle d + k
  if hs = [] ∨ (hs.any fun h => ctxState u h != 1) then complete u r d.idx 4
  else stagedDone (hs.foldl (fun u h => stageCtx u h (nput (ctxView u h).toNat 7 10 (dField d 14 10))) u) r d

/-! ### Flushes (R459) -/

/-- A flush descriptor is done. -/
def flushDescDone (u : Units) (r : Nat) (d : Desc) : Units :=
  let all := dOp d = 8
  let u := flushCounts u all (dHandle d)
  complete u r d.idx 0 (if all then 0 else tabGet u.flushSeq (dHandle d))

/-- FLUSH and FLUSH_ALL begin: in staged mode a FLUSH is done at once, any other closes the epoch and waits. -/
def flushStart (_ : Ctl) (u : Units) (r : Nat) (d : Desc) : Units :=
  let u := putDesc u r { d with committed := true }
  let x := ctxRec u u.regs.epoch (dHandle d)
  if dOp d = 8 then addWaiter u { all := true, desc := some (r, d.idx) }
  else if cBits x 0 2 ≠ 1 then complete u r d.idx 4
  else if cBits x 4 1 = 0 then flushDescDone u r d
  else addWaiter u { handle := dHandle d, desc := some (r, d.idx) }

/-- A flush that has been told its epoch is clean completes. -/
def flushStep (_ : Ctl) (u : Units) (r : Nat) (d : Desc) : Units := if d.prog = [] then u else flushDescDone u r d

/-! ### PREFETCH (R460) -/

/-- Line address and count of PREFETCH, POISON_SET and POISON_CLEAR. -/
def dLine (d : Desc) : Nat := dField d 16 39
/-- Count of lines. -/
def dCount (d : Desc) : Nat := dField d 24 13
/-- Logical region of the lines. -/
def dRegion (d : Desc) : Nat := dLine d / 131072
/-- The lines pass the end of their region. -/
def crossesRegion (d : Desc) : Bool := 131072 < dLine d % 131072 + dCount d
/-- A count out of its range. -/
def badCount (d : Desc) : Bool := dCount d == 0 || 4096 < dCount d

/-- The ring engine's service pool toward a slice (Table 5-10). -/
def ringPool (s : Nat) : Nat := poolId 5 (epCore 5) (epSlice s)

/-- Send the next lines of a descriptor in ascending order, as far as the tickets of their slices go; a line whose route is fenced is refused (R181) and waits, with those after it, until the fence falls (DEDUCED, log 124). -/
def sendLines (mk : Nat → Pkt) (prio count : Nat) : Nat → Nat → Units → Nat × Units
  | 0, sent, u => (sent, u)
  | n + 1, sent, u =>
    if count ≤ sent then (sent, u)
    else
      let k := mk sent
      let s := lineSlice u u.regs.epoch k.lla
      if canTake u (ringPool s) prio = false ∨ routeRefused u (epCore 5) (epSlice s) then (sent, u)
      else sendLines mk prio count n (sent + 1) (sendPkt (takeTicket u (ringPool s)) { k with dst := epSlice s, pool := ringPool s, epoch := u.regs.epoch, prio := prio })

/-- Lines sent so far. -/
def sentOf (d : Desc) : Nat := d.own.headD 0

/-- A PREFETCH sends what it can, and completes when every line has been served. -/
def prefetchStep (_ : Ctl) (u : Units) (r : Nat) (d : Desc) : Units :=
  if d.prog.length = dCount d then complete u r d.idx 0 ((d.prog.filter fun x => nbits x 8 1 == 1).length)
  else
    let (n, u) := sendLines (fun k => { typ := .lineReq, src := epCore 5, kind := .ringPrefetch, cls := 3, port := 100 + r, ord := d.idx, lla := dLine d + k }) 1 (dCount d) 4096 (sentOf d) u
    putDesc u r { d with own := [n] }

/-- PREFETCH begins. -/
def prefetchStart (c : Ctl) (u : Units) (r : Nat) (d : Desc) : Units :=
  let x := ctxRec u u.regs.epoch (dHandle d)
  if cBits x 0 2 ≠ 1 ∨ windowCheck x (dRegion d) 1 = false ∨ crossesRegion d then complete u r d.idx 4
  else prefetchStep c (putDesc u r { d with committed := true }) r { d with committed := true }

/-! ### Payload reads (R451, R452) -/

/-- Buffer address. -/
def dBuffer (d : Desc) : Nat := dField d 8 64

/-- Payload reads of 64 bytes that a descriptor makes. -/
def payloadReads (d : Desc) : Nat :=
  if dOp d = 0x10 then (dBuffer d % 64 + 8 * dField d 16 9 + 63) / 64
  else if dOp d = 0x11 then (if dField d 16 1 = 1 then 2 else 1)
  else if dOp d = 0x32 then dField d 16 32 / 64
  else 0

/-- Issue payload reads while fewer than 64 reads are outstanding; an image buffer is read one at a time. -/
def issuePayload (r : Nat) : Nat → Desc → Units → Units
  | 0, d, u => putDesc u r d
  | n + 1, d, u =>
    let k := sentOf d
    if payloadReads d ≤ k ∨ 64 ≤ u.rings.reads.length ∨ (dOp d = 0x32 ∧ d.payload.length < k) then putDesc u r d
    else
      let u := present u (.ringRead (dBuffer d / 64 * 64 + 64 * k))
      issuePayload r n { d with own := [k + 1] } { u with rings := { u.rings with reads := u.rings.reads ++ [(r, d.idx, 1)] } }

/-- Reads still outstanding of a descriptor are no longer wanted. -/
def dropPayload (u : Units) (r i : Nat) : Units :=
  { u with rings := { u.rings with reads := u.rings.reads.map fun k => if k = (r, i, 1) then (r, i, 3) else k } }

/-- Word k of eight bytes of a payload, from the first read on. -/
def payloadWord (d : Desc) (k : Nat) : Nat := nbits (d.payload.getD (k / 8) 0).toNat (64 * (k % 8)) 64

/-- Byte k of a payload. -/
def payloadByte (d : Desc) (k : Nat) : Nat := nbits (d.payload.getD (k / 64) 0).toNat (8 * (k % 64)) 8

/-! ### CHANGESET (R146, R461) -/

/-- The entries of a CHANGESET: address and value. -/
def changeEntries (d : Desc) : List (Nat × Word) :=
  (List.range (dField d 16 9)).map fun k =>
    let x := payloadWord d (dBuffer d % 64 / 8 + k)
    (x % 2 ^ 32, BitVec.ofNat 32 (x / 2 ^ 32))

/-- A CHANGESET entry is one of Table 15-5. -/
def entryOk (v : Variant) (e : Nat × Word) : Bool :=
  let x := e.2.toNat
  let ports := List.range (nPorts v)
  if ports.any fun p => e.1 == regAddr .RGL_PORT_p_CLASS p 0 then decide (x < 4)
  else if ports.any fun p => e.1 == regAddr .RGL_PORT_p_TOKEN_0 p 0 || e.1 == regAddr .RGL_PORT_p_TOKEN_1 p 0 then
    nbits x 13 3 == 0 && nbits x 26 6 == 0 && nbits x 16 10 != 0
  else if (List.range 16).any fun k => e.1 == regAddr .RGL_PSET_k_LO k 0 || e.1 == regAddr .RGL_PSET_k_HI k 0 then true
  else if e.1 = floorAddr then
    1 ≤ nbits x 0 5 && nbits x 0 5 ≤ 16 && nbits x 5 3 == 0 && nbits x 17 15 == 0 &&
      (if nbits x 16 1 = 1 then nbits x 8 8 == 0 else decide (nbits x 8 7 < (if nbits x 15 1 = 1 then nCexus v else nDdr v)))
  else false

/-- A CHANGESET with an empty or too long buffer, or a buffer not aligned to 8 bytes. -/
def badChangeset (_ : Units) (d : Desc) : Bool := dField d 16 9 == 0 || 256 < dField d 16 9 || dBuffer d % 8 != 0

/-- A CHANGESET whose buffer has been read is checked and staged. -/
def changesetCheck (c : Ctl) (u : Units) (r : Nat) (d : Desc) : Units :=
  let es := changeEntries d
  if (es.all fun e => entryOk u.v e) = false then complete u r d.idx 6
  else
    match admissionFails u (c.mode == .run) (planWith u (u.regs.descStaged ++ es) u.adm.tables) with
    | some w => complete u r d.idx 4 w
    | none => stagedDone { u with regs := { u.regs with descStaged := u.regs.descStaged ++ es } } r d

/-! ### TURN_TABLE_LOAD (R462) -/

/-- Channels a mask names. -/
def maskChannels (d : Desc) : List Nat := (List.range 128).filter fun k => nbits d.bits.toNat (192 + k) 1 == 1

/-- Media flag of byte 16. -/
def tableMedia (d : Desc) : Bool := dField d 16 1 == 1

/-- A buffer not aligned to 64 bytes, an empty mask, or a channel beyond the variant. -/
def badTableLoad (u : Units) (d : Desc) : Bool :=
  dBuffer d % 64 != 0 || (maskChannels d).isEmpty || (maskChannels d).any fun k => decide ((if tableMedia d then nCexus u.v else nDdr u.v) ≤ k)

/-- An image entry is legal (Table 4-3, R140). -/
def tableEntryOk (media : Bool) (i x : Nat) : Bool :=
  nbits x 6 2 == 0 && (nbits x 2 4 == 0 || nbits x 0 2 == 1 || nbits x 0 2 == 2) && !(media && decide (i < 8) && x % 4 != 0)

/-- A turn table whose buffer has been read is checked and staged. -/
def tableCheck (c : Ctl) (u : Units) (r : Nat) (d : Desc) : Units :=
  let media := tableMedia d
  let image := (List.range (turnsOf media)).map fun k => payloadByte d k
  if ((List.range (turnsOf media)).all fun i => tableEntryOk media i (image.getD i 0)) = false then complete u r d.idx 6
  else
    let t := u.adm.tables ++ [(media, maskChannels d, image)]
    match admissionFails u (c.mode == .run) (planWith u u.regs.descStaged t) with
    | some w => complete u r d.idx 4 w
    | none => stagedDone { u with adm := { u.adm with tables := t } } r d

/-- A descriptor that reads a payload goes on: reads are issued, and the payload is checked once it is whole. -/
def payloadStep (c : Ctl) (u : Units) (r : Nat) (d : Desc) : Units :=
  if d.committed then u
  else if d.payload.length < payloadReads d then issuePayload r 64 d u
  else if dOp d = 0x10 then changesetCheck c u r d
  else tableCheck c u r d

/-! ### SCRUB_PASS -/

/-- A channel number beyond the variant (R8), the media flag in byte 8 and the channel in byte 9. -/
def badChannel (u : Units) (d : Desc) : Bool := (if dField d 8 1 = 1 then nCexus u.v else nDdr u.v) ≤ dField d 9 7

/-- SCRUB_PASS reports the last completed lap of a channel in seconds (R414). -/
def scrubPassStart (_ : Ctl) (u : Units) (r : Nat) (d : Desc) : Units :=
  let n := dField d 9 7
  complete u r d.idx 0 (if dField d 8 1 = 1 then getF u F.INT_CEX_n_LAP_seconds n else getF u F.INT_DDR_n_LAP_seconds n)

/-! ### Meanings -/

/-- Never malformed beyond its reserved bits. -/
def neverBad (_ : Units) (_ : Desc) : Bool := false

/-- NOP (R458). -/
def execNop (r i : Nat) (s : State) : Host.Outcome State Fault Refusal :=
  onU s (descOp (isOp 1) neverBad [.run, .service, .drain] (fun _ u r d => complete u r d.idx 0) waits r i)

/-- CTX_OPEN (R101). -/
def execCtxOpen (r i : Nat) (s : State) : Host.Outcome State Fault Refusal :=
  onU s (descOp (isOp 2) badHandle runService ctxOpenStart waits r i)

/-- CTX_MODIFY (R101). -/
def execCtxModify (r i : Nat) (s : State) : Host.Outcome State Fault Refusal :=
  onU s (descOp (isOp 4) badHandle runService ctxModifyStart waits r i)

/-- CTX_CLOSE (R103). -/
def execCtxClose (r i : Nat) (s : State) : Host.Outcome State Fault Refusal :=
  onU s (descOp (isOp 3) badHandle runService ctxCloseStart waits r i)

/-- CTX_CLOSE_FINISH (R103). -/
def execCtxCloseFinish (h : Nat) (s : State) : Host.Outcome State Fault Refusal :=
  onU s fun _ u => if pdOn u 2 && h < nCtx u.v then closeFinishOp u h else u

/-- KEY_BIND (R101). -/
def execKeyBind (r i : Nat) (s : State) : Host.Outcome State Fault Refusal :=
  onU s (descOp (isOp 0x12) badBind runService keyBindStart waits r i)

/-- The descriptor FLUSH (R459). -/
def execFlushDescriptor (r i : Nat) (s : State) : Host.Outcome State Fault Refusal :=
  onU s (descOp (isOp 5) badHandle [.run, .service, .drain] flushStart flushStep r i)

/-- The descriptor FLUSH_ALL (R459). -/
def execFlushAllDescriptor (r i : Nat) (s : State) : Host.Outcome State Fault Refusal :=
  onU s (descOp (isOp 8) neverBad [.run, .service, .drain] flushStart flushStep r i)

/-- The descriptor PREFETCH (R460). -/
def execPrefetchDescriptor (r i : Nat) (s : State) : Host.Outcome State Fault Refusal :=
  onU s (descOp (isOp 7) (fun u d => badHandle u d || badCount d) [.run] prefetchStart prefetchStep r i)

/-- CHANGESET (R146): its buffer is read, then it is checked and staged. -/
def execChangeset (r i : Nat) (s : State) : Host.Outcome State Fault Refusal :=
  onU s (descOp (isOp 0x10) badChangeset runService payloadStep payloadStep r i)

/-- TURN_TABLE_LOAD (R462). -/
def execTurnTableLoad (r i : Nat) (s : State) : Host.Outcome State Fault Refusal :=
  onU s (descOp (isOp 0x11) badTableLoad runService payloadStep payloadStep r i)

/-- SCRUB_PASS (R458). -/
def execScrubPass (r i : Nat) (s : State) : Host.Outcome State Fault Refusal :=
  onU s (descOp (isOp 0x20) badChannel runService scrubPassStart waits r i)

end Sys2Proof.Machine
end

