-- ==== Sys2Proof/Machine/Regions.lean ====
section
/-! DEFINITION. The descriptors that act on regions and lines: TRIM, REGION_MOVE, REBUILD, CHECKPOINT, DRIFT_CAL, POISON_SET, POISON_CLEAR and SANITIZE (R357, R359, R365, R369, R390, R405, R406, R465). -/

namespace Sys2Proof.Machine

/-! ### Shared -/

/-- Counter k of a descriptor. -/
def ownAt (d : Desc) (k : Nat) : Nat := d.own.getD k 0

/-- Store a descriptor's counters. -/
def putOwn (u : Units) (r : Nat) (d : Desc) (l : List Nat) : Units := putDesc u r { d with own := l }

/-- Wait until every journal block below a number is durable, then complete; a block still open is written because something waits on it (R364). -/
def whenDurable (u : Units) (n : Nat) (done : Units → Units) : Units :=
  if durableBelow u n then done u else if u.hng.seq < n then (closePoint u).2 else u

/-- Release a hold on lines, and let every slice go on. -/
def releaseHolds (c : Ctl) (u : Units) (l : List (Nat × Nat)) : Units :=
  let u := { u with stg := { u.stg with holds := u.stg.holds.filter fun h => !l.contains h } }
  (List.range (nDdr u.v)).foldl (fun u s => if pdOn u (pdDram s) then pumpSlice c u s else u) u

/-- Add a hold. -/
def addHold (u : Units) (lo n : Nat) : Units := { u with stg := { u.stg with holds := u.stg.holds ++ [(lo, n)] } }

/-- Line in way w of a set. -/
def wayLine (u : Units) (set : Nat) (h : BitVec 512) (w : Nat) : Nat := stripeOf u set (wayTag h w) * 8 + wayJ h w

/-- Ways of a header that hold a wanted line: by state and line. -/
def wantedWays (u : Units) (set : Nat) (h : BitVec 512) (want : Nat → Nat → Bool) : List Nat :=
  (List.range 15).filter fun w => wayState h w != 0 && want (wayState h w) (wayLine u set h w)

/-- Empty ways of a header: the dirty and epoch counts fall by the dirty and poisoned ones, and pins on them are dropped, which leaves their bound writes booked (Table 11-6 step 2). -/
def emptyIn (u : Units) (s set : Nat) (h : BitVec 512) (ws : List Nat) : BitVec 512 × Units :=
  let p := ws.foldl (fun (p : Slice × BitVec 512) w =>
    let lla := wayLine u set p.2 w
    let x := if wayDirty p.2 w then uncountDirty u p.1 set (wayEp p.2 w) else p.1
    ({ x with pins := x.pins.filter fun q => q.1 != lla }, emptyWay p.2 w)) (slice u s, h)
  (p.2, setSlice u s p.1)

/-- Empty the wanted ways of a set; false where a way is busy for another reason than a pin, its header is on its way into the cache, or the header's write finds no room (R197). -/
def emptySet (u : Units) (s set : Nat) (want : Nat → Nat → Bool) : Bool × Units :=
  match hdrEntry u s set with
  | some e =>
    if e.loaded = false then (false, u)
    else
      let ws := wantedWays u set e.hdr want
      let busy := fun (w : Nat) => (e.busy.any fun b => b.1 == w) || wayQueued u s set w
      let free := ws.filter fun w => !busy w
      if ws = [] then (true, u)
      else if free = [] ∨ wqRoom u s [set * 16] = false then (false, u)
      else
        let (h, u) := emptyIn u s set e.hdr free
        let e := { e with hdr := h, busy := e.busy.filter fun b => !free.contains b.1 }
        (free.length == ws.length, writeHeader u s e 3 1 64)
  | none =>
    let h := effHeader u s set
    let ws := wantedWays u set h want
    let free := ws.filter fun w => !wayQueued u s set w
    if ws = [] then (true, u)
    else if free = [] ∨ wqRoom u s [set * 16] = false then (false, u)
    else
      let (h, u) := emptyIn u s set h free
      (free.length == ws.length, wqPut u s { line := set * 16, data := h, cls := 3, prio := 1 })

/-- One slice empties every way that holds a wanted line. A fill of such a line stages nothing, and a stripe that waits for its placement is passed over. -/
def emptySlice (c : Ctl) (u : Units) (s : Nat) (inRange : Nat → Bool) (want : Nat → Nat → Bool) : Bool × Units :=
  let x := slice u s
  let u := setSlice u s { x with fills := x.fills.map fun f => if inRange f.lla then { f with dead := true } else f }
  let u := (x.jobs.filter fun j => j.phase == .asking && inRange (j.stripe * 8)).foldl (fun u j => dropDestage c u s j) u
  (listedSets u s).foldl (fun p set =>
    let q := emptySet p.2 s set want
    (p.1 && q.1, q.2)) (true, u)

/-- Every powered slice empties the ways of a line range. -/
def emptyLines (c : Ctl) (u : Units) (inRange : Nat → Bool) : Bool × Units :=
  (List.range (nDdr u.v)).foldl (fun p s =>
    if pdOn p.2 (pdDram s) then
      let q := emptySlice c p.2 s inRange fun _ l => inRange l
      (p.1 && q.1, q.2)
    else p) (true, u)

/-! ### TRIM (R357, Table 11-6) -/

/-- First region of a TRIM. -/
def trimFirst (d : Desc) : Nat := dField d 8 22
/-- Count of regions. -/
def trimCount (d : Desc) : Nat := dField d 12 17

/-- A count out of range, or a region beyond the variant. -/
def badTrim (u : Units) (d : Desc) : Bool := trimCount d == 0 || 65536 < trimCount d || nRegions u.v < trimFirst d + trimCount d

/-- The regions of the batch under way: region, and its target plus one where it is re-pointed. Counters 0 to 4 are: regions taken up, regions trimmed, regions skipped, whether an ABORT has stopped it, and the journal block it waits for plus one. -/
def trimBatch (d : Desc) : List (Nat × Nat) :=
  let l := d.own.drop 5
  (List.range (l.length / 2)).map fun k => (l.getD (2 * k) 0, l.getD (2 * k + 1) 0)

/-- Step 1: take up the next regions, up to 16, and hold their lines. A region that another trim holds is waited for; one that needs a target and finds none is skipped. -/
def trimTake (first count : Nat) : Nat → Nat → Nat → List (Nat × Nat) → Units → Nat × Nat × List (Nat × Nat) × Units
  | 0, next, skipped, batch, u => (next, skipped, batch, u)
  | n + 1, next, skipped, batch, u =>
    let l := first + next
    if count ≤ next ∨ 16 ≤ batch.length ∨ regionHeld u l then (next, skipped, batch, u)
    else if trimRepoints u l then
      let u := sweepStale u
      match chooseTarget u 3 with
      | none => trimTake first count n (next + 1) (skipped + 1) batch u
      | some t =>
        let u := { u with hng := { u.hng with trimHeld := u.hng.trimHeld ++ [t] } }
        trimTake first count n (next + 1) skipped (batch ++ [(l, t + 1)]) (addHold u (l * 131072) 131072)
    else trimTake first count n (next + 1) skipped (batch ++ [(l, 0)]) (addHold u (l * 131072) 131072)

/-- Step 3: the tables of a batch change, and the targets are no longer held. -/
def trimTablesOf (u : Units) (batch : List (Nat × Nat)) : Units :=
  let u := batch.foldl (fun u b => trimTables u b.1 (if b.2 = 0 then none else some (b.2 - 1))) u
  { u with hng := { u.hng with trimHeld := u.hng.trimHeld.filter fun t => !(batch.any fun b => b.2 == t + 1) } }

/-- The line lies in one of the regions of a batch. -/
def inBatch (batch : List (Nat × Nat)) (l : Nat) : Bool := batch.any fun b => b.1 == l / 131072

/-- A TRIM goes as far as it can. -/
def trimGo (c : Ctl) (r : Nat) : Nat → Desc → Units → Units
  | 0, d, u => putDesc u r d
  | n + 1, d, u =>
    let next := ownAt d 0
    let trimmed := ownAt d 1
    let skipped := ownAt d 2
    let stop := ownAt d 3
    let close := ownAt d 4
    let batch := trimBatch d
    if close ≠ 0 then
      whenDurable (putDesc u r d) (close - 1) fun u => complete u r d.idx (if stop = 1 then 2 else if skipped = 0 then 0 else 8) trimmed
    else if batch = [] then
      if stop = 1 ∨ next = trimCount d then
        let (k, u) := closePoint u
        trimGo c r n { d with own := [next, trimmed, skipped, stop, k + 1] } u
      else
        let (next', skipped', b, u) := trimTake (trimFirst d) (trimCount d) 65537 next skipped [] u
        let d := { d with own := [next', trimmed, skipped', stop, 0] ++ b.flatMap fun x => [x.1, x.2] }
        if next' = next then putDesc u r d else trimGo c r n d u
    else
      match emptyLines c u (inBatch batch) with
      | (false, u) => putDesc u r d
      | (true, u) =>
        let u := releaseHolds c (trimTablesOf u batch) (batch.map fun b => (b.1 * 131072, 131072))
        trimGo c r n { d with own := [next, trimmed + batch.length, skipped, stop, 0], committed := stop = 0 ∧ next = trimCount d } u

/-- A TRIM begins or goes on, by one batch of regions at a time. -/
def trimStep (c : Ctl) (u : Units) (r : Nat) (d : Desc) : Units := trimGo c r 2 d u

/-! ### REGION_MOVE (Table 11-12) -/

/-- Region of a REGION_MOVE. -/
def moveRegion (d : Desc) : Nat := dField d 8 22
/-- Named target, 0x7F_FFFF for choice. -/
def moveTarget (d : Desc) : Nat := dField d 12 23

/-- A region or a target beyond the variant. -/
def badMove (u : Units) (d : Desc) : Bool := nRegions u.v ≤ moveRegion d || (moveTarget d != 0x7FFFFF && nPhys u.v ≤ moveTarget d)

/-- A named target that may not be taken. -/
def targetRefused (u : Units) (t : Nat) : Bool :=
  !inPool u t || groupState u (prnGroup u.v t) != 0 || pGen (pipEntry u t) == 0xFFFE || slotHolds u t

/-- REGION_MOVE begins: a free slot takes it at once; without a target it waits for one. -/
def regionMoveStart (c : Ctl) (u : Units) (r : Nat) (d : Desc) : Units :=
  let l := moveRegion d
  let e := hingeEntry u l
  let named := moveTarget d ≠ 0x7FFFFF
  if hMoving e ∨ hLost e ∨ badRegion u l ∨ (named ∧ targetRefused u (moveTarget d)) then complete u r d.idx 4
  else
    match (List.range 16).find? fun i => !u.hng.active.contains i with
    | none => complete u r d.idx 3
    | some slot =>
      let w : Work := { cause := 3, region := l, prn := if named then moveTarget d else 0, named := decide named, desc := some (r, d.idx) }
      let p := takeWork { u with hng := { u.hng with due := u.hng.due ++ [w] } } slot w
      pumpMove c slot 4 p.2

/-- A driver move has ended: aborted, or done once the block that holds its end is durable. One whose work no longer stands, because its region was lost while it waited, has failed. -/
def regionMoveStep (_ : Ctl) (u : Units) (r : Nat) (d : Desc) : Units :=
  match d.prog with
  | [] =>
    let me := some (r, d.idx)
    if (u.hng.due.any fun w => w.desc == me) || u.hng.active.any fun i => (tabGet u.hng.slots i).desc == me then u else complete u r d.idx 8
  | 0 :: n :: _ => whenDurable (putDesc u r { d with committed := true }) (n + 1) fun u => complete u r d.idx 0 d.r0
  | x :: _ => complete u r d.idx x

/-! ### REBUILD (R359) -/

/-- Stripe group of a REBUILD. -/
def rebuildGroup (d : Desc) : Nat := dField d 8 6

/-- REBUILD begins. -/
def rebuildStart (_ : Ctl) (u : Units) (r : Nat) (d : Desc) : Units :=
  let s := rebuildGroup d
  if failedDies u s = [] ∨ groupState u s = 3 then complete u r d.idx 4
  else if u.hng.rebuilding.contains s then complete u r d.idx 3
  else beginRebuild (putDesc u r { d with committed := true }) s

/-- REBUILD completes when its rebuild has ended. -/
def rebuildStep (_ : Ctl) (u : Units) (r : Nat) (d : Desc) : Units :=
  let s := rebuildGroup d
  if u.hng.rebuilding.contains s then u
  else complete u r d.idx (if u.hng.rebuildShort.contains s ∨ groupState u s = 3 then 8 else 0) (tabGet u.hng.occN s)

/-! ### CHECKPOINT (R365) -/

/-- CHECKPOINT begins one, or waits for the one that runs. -/
def checkpointStart (_ : Ctl) (u : Units) (r : Nat) (d : Desc) : Units :=
  let u := if u.hng.ckptOn then u else beginCheckpoint u
  let u := { u with hng := { u.hng with ckptDescs := u.hng.ckptDescs ++ [(r, d.idx)] } }
  putDesc u r { d with committed := true, r0 := u.hng.ckptJ0 % 2 ^ 48 }

/-- CHECKPOINT completes with its checkpoint. -/
def checkpointStep (_ : Ctl) (u : Units) (r : Nat) (d : Desc) : Units :=
  match d.prog with
  | [] => u
  | x :: _ => complete u r d.idx x (if x = 0 then d.r0 else 0)

/-! ### DRIFT_CAL (R390) -/

/-- Groups a DRIFT_CAL names. -/
def calGroups (u : Units) (d : Desc) : List Nat := if dField d 8 7 = 0x7F then List.range (nStripes u.v) else [dField d 8 7]

/-- A group beyond the variant, or more than eight advances. -/
def badCal (u : Units) (d : Desc) : Bool := (dField d 8 7 != 0x7F && nStripes u.v ≤ dField d 8 7) || 8 < dField d 10 4

/-- Make up to n advances, one at a time; the count made. -/
def calAdvances (c : Ctl) : Nat → Nat → Units → Nat × Units
  | 0, made, u => (made, u)
  | n + 1, made, u => if advanceHeld c u then (made, u) else calAdvances c n (made + 1) (advanceEpoch u)

/-- DRIFT_CAL completes once no named group waits for its calibration. -/
def driftCalStep (_ : Ctl) (u : Units) (r : Nat) (d : Desc) : Units :=
  if u.drf.cals.any fun x => (calGroups u d).contains x.1 then u else complete u r d.idx 0 (ownAt d 0)

/-- DRIFT_CAL begins: its advances are made, then the named groups are calibrated. -/
def driftCalStart (c : Ctl) (u : Units) (r : Nat) (d : Desc) : Units :=
  let gs := calGroups u d
  if gs.any fun s => !pdOn u (pdMedia (s / 8)) then complete u r d.idx 4
  else if (underWay u).any fun x => dOp x.2 == 0x23 && !(x.1 == r && x.2.idx == d.idx) && (calGroups u x.2).any fun s => gs.contains s then complete u r d.idx 3
  else
    let n := dField d 10 4
    let (made, u) := calAdvances c n 0 u
    if made < n then complete u r d.idx 8 made
    else
      let sweep := dField d 9 1 = 1
      let u := { u with drf := { u.drf with cals := (u.drf.cals.filter fun x => !gs.contains x.1) ++ gs.map fun s => (s, decide sweep || u.drf.cals.contains (s, true)) } }
      putDesc u r { d with committed := true, own := [made] }

/-! ### POISON_SET (R405) -/

/-- A count out of range, or a region beyond the variant. -/
def badPoison (u : Units) (d : Desc) : Bool := badCount d || nRegions u.v ≤ dRegion d

/-- Lines that have been placed. -/
def placedLines (d : Desc) : List Nat := (d.prog.filter fun x => x % 256 == 0).map fun x => x / 512

/-- The stripes of placed lines, each once. -/
def placedStripes (d : Desc) : List Nat := ((placedLines d).map fun l => l / 8).eraseDups

/-- A stripe of placed lines is to be destaged at once and the ways of its named lines emptied. -/
def forceStripe (u : Units) (d : Desc) (x : Nat) : Units :=
  let s := lineSlice u u.regs.epoch (x * 8)
  let set := lineSet u (x * 8)
  let tag := lineTag u (x * 8)
  let h := effHeader u s set
  let ws := (placedLines d).filterMap fun l => if l / 8 = x then findWay h tag (l % 8) else none
  let y := slice u s
  setSlice u s { y with forced := y.forced ++ [(set, tag, ws)] }

/-- A forced stripe is still to be destaged, or is being destaged. -/
def stillForced (u : Units) (x : Nat) : Bool :=
  let s := lineSlice u u.regs.epoch (x * 8)
  let set := lineSet u (x * 8)
  let tag := lineTag u (x * 8)
  ((slice u s).forced.any fun f => f.1 == set && f.2.1 == tag && (stripeAt u s set tag).isSome) || (slice u s).jobs.any fun j => j.stripe == x

/-- POISON_SET goes on: counters are lines sent, the stage, and the journal block it waits for. -/
def poisonSetStep (_ : Ctl) (u : Units) (r : Nat) (d : Desc) : Units :=
  let n := (placedLines d).length
  let done := fun (u : Units) => complete u r d.idx (if n = dCount d then 0 else 8) n
  if ownAt d 1 = 2 then whenDurable u (ownAt d 2) done
  else if ownAt d 1 = 1 then
    if (placedStripes d).any fun x => stillForced u x then u
    else
      let (k, u) := closePoint u
      whenDurable (putOwn u r d [ownAt d 0, 2, k]) k done
  else if d.prog.length = dCount d then
    let u := addSat u F.INT_POISON_set 0 0 n
    if dField d 26 1 = 0 then done u
    else putOwn ((placedStripes d).foldl (fun u x => forceStripe u d x) u) r d [ownAt d 0, 1]
  else
    let (k, u) := sendLines (fun k => { typ := .lineWr, src := epCore 5, cls := 3, port := 100 + r, ord := d.idx, lla := dLine d + k, poison := true }) 2 (dCount d) 4096 (sentOf d) u
    putDesc u r { d with own := [k], committed := decide (0 < k) }

/-- POISON_SET begins. -/
def poisonSetStart (c : Ctl) (u : Units) (r : Nat) (d : Desc) : Units :=
  if crossesRegion d ∨ hLost (hingeEntry u (dRegion d)) then complete u r d.idx 4 else poisonSetStep c u r d

/-! ### POISON_CLEAR (R406) -/

/-- Named lines of a stripe, by line in stripe. -/
def namedIn (d : Desc) (x : Nat) : List Nat := (List.range 8).filter fun j => dLine d ≤ x * 8 + j && x * 8 + j < dLine d + dCount d

/-- Take a stripe-buffer entry for the rewrite of a stripe, whose lines held poisoned in ways are blanked at once; media group, entry and state, or none where it waits. -/
def clearRewrite (c : Ctl) (u : Units) (r : Nat) (d : Desc) (x : Nat) (inWays absent : List Nat) : Option (Nat × Nat × Units) :=
  match placementAnswer c u (x / 16384) (x % 16384) with
  | (.at_ prn dla gen fresh, u) =>
    let s := prnGroup u.v prn
    (match takeBuf u (s / 8) { use := .clear r d.idx absent, group := s, dla := dla, prn := prn, gen := gen, stripe := x, want := inWays.length, fresh := fresh } with
     | none => none
     | some (id, u) =>
       let u := inWays.foldl (fun u j => match bufOf u (s / 8) id with
         | some b => storeLine u (s / 8) { b with cleared := b.cleared ++ [j] } j blankLine
         | none => u) u
       some (s / 8, id, fillAbsent u (s / 8) id))
  | _ => none

/-- One stripe, held: the slice empties its poisoned named ways, and what is poisoned is rewritten. The answer is the media group and entry of the rewrite, `none` inside where nothing is to be rewritten, and `none` where it waits. -/
def clearStripe (c : Ctl) (u : Units) (r : Nat) (d : Desc) (x : Nat) : Option (Option (Nat × Nat) × Units) :=
  let s := lineSlice u u.regs.epoch (x * 8)
  let set := lineSet u (x * 8)
  let tag := lineTag u (x * 8)
  let h := effHeader u s set
  let js := namedIn d x
  let loading := (hdrEntry u s set).any fun e => !e.loaded
  let inWays := js.filter fun j => (findWay h tag j).any fun w => wayState h w == 3
  let absent := js.filter fun j => (findWay h tag j).isNone
  let fresh := hFresh (hingeEntry u (x / 16384))
  if loading then none
  else if inWays = [] ∧ (absent = [] ∨ fresh) then some (none, u)
  else
    match (if inWays = [] then (true, u) else emptySet u s set fun st l => st == 3 && l / 8 == x && inWays.contains (l % 8)) with
    | (false, _) => none
    | (true, u) =>
      match clearRewrite c u r d x inWays absent with
      | none => none
      | some (g, id, u) => some (some (g, id), u)

/-- POISON_CLEAR goes on, stripe by stripe: counters are the stripe, lines cleared, the stage, and the rewrite's group and entry or the journal block. -/
def poisonClearGo (c : Ctl) (r : Nat) : Nat → Desc → Units → Units
  | 0, d, u => putDesc u r d
  | n + 1, d, u =>
    let x := dLine d / 8 + ownAt d 0
    let last := (dLine d + dCount d - 1) / 8
    let hold := (x * 8, 8)
    match ownAt d 2 with
    | 0 =>
      if last < x then
        let (k, u) := closePoint u
        poisonClearGo c r n { d with own := [ownAt d 0, ownAt d 1, 3, k] } u
      else poisonClearGo c r n { d with own := [ownAt d 0, ownAt d 1, 1], committed := true } (addHold u hold.1 hold.2)
    | 1 =>
      (match clearStripe c u r d x with
       | none => putDesc u r d
       | some (none, u) => poisonClearGo c r n { d with own := [ownAt d 0 + 1, ownAt d 1, 0] } (releaseHolds c u [hold])
       | some (some (g, id), u) => poisonClearGo c r n { d with own := [ownAt d 0, ownAt d 1, 2, g, id] } u)
    | 2 =>
      (match bufOf u (ownAt d 3) (ownAt d 4) with
       | none => poisonClearGo c r n { d with own := [ownAt d 0 + 1, ownAt d 1, 0] } (releaseHolds c u [hold])
       | some b =>
         if b.formed = false ∨ b.todo ≠ [] then putDesc u r d
         else
           let u := unpinStripe (dropBuf u (ownAt d 3) b.id) (x / 16384) (x % 16384)
           poisonClearGo c r n { d with own := [ownAt d 0 + 1, ownAt d 1 + b.cleared.length, 0] } (releaseHolds c u [hold]))
    | _ => whenDurable (putDesc u r d) (ownAt d 3) fun u => complete u r d.idx 0 (ownAt d 1)

/-- POISON_CLEAR goes on. -/
def poisonClearStep (c : Ctl) (u : Units) (r : Nat) (d : Desc) : Units := poisonClearGo c r 4096 d u

/-- POISON_CLEAR begins. -/
def poisonClearStart (c : Ctl) (u : Units) (r : Nat) (d : Desc) : Units :=
  if crossesRegion d ∨ hLost (hingeEntry u (dRegion d)) then complete u r d.idx 4 else poisonClearStep c u r d

/-! ### SANITIZE (R465) -/

/-- Trim one region of a SANITIZE; the count of regions skipped for want of a target. -/
def sanitizeRegion (p : Nat × Units) (l : Nat) : Nat × Units :=
  if trimRepoints p.2 l then
    match chooseTarget (sweepStale p.2) 3 with
    | none => (p.1 + 1, sweepStale p.2)
    | some t => (p.1, trimTables (sweepStale p.2) l (some t))
  else (p.1, trimTables p.2 l none)

/-- Blank lines are written into every stripe of every region that is neither retired nor dead. -/
def overwriteAll (u : Units) : Units :=
  (List.range (nPhys u.v)).foldl (fun u p => if 5 ≤ pState (pipEntry u p) then u else blankRegion u p) u

/-- Every set header of every powered slice is initialised (R195). -/
def initHeaders (u : Units) : Units :=
  (List.range (nDdr u.v)).foldl (fun u s => if pdOn u (pdDram s) then blankSpares (setSlice u s { slice u s with dram := tabNil, cache := [], sealed := (slice u s).sealed }) s else u) u

/-- SANITIZE goes on: once every way is empty, the tables change and, where asked, the media are overwritten; it completes when every change is durable. -/
def sanitizeStep (c : Ctl) (u : Units) (r : Nat) (d : Desc) : Units :=
  let done := fun (skipped : Nat) (u : Units) => complete u r d.idx (if skipped = 0 then 0 else 8) (nRegions u.v - skipped)
  if ownAt d 0 = 1 then whenDurable u (ownAt d 1) (done (ownAt d 2))
  else
    match emptyLines c u (fun _ => true) with
    | (false, u) => u
    | (true, u) =>
      let (skipped, u) := (tabKeys u.hng.hinge).foldl sanitizeRegion (0, u)
      let u := if dField d 8 1 = 1 then overwriteAll u else u
      let (k, u) := closePoint (initHeaders u)
      whenDurable (putDesc u r { d with own := [1, k, skipped], committed := true }) k (done skipped)

/-! ### Meanings -/

/-- TRIM (R357). -/
def execTrim (r i : Nat) (s : State) : Host.Outcome State Fault Refusal :=
  onU s (descOp (isOp 6) badTrim [.run] trimStep trimStep r i)

/-- REGION_MOVE (R369). -/
def execRegionMove (r i : Nat) (s : State) : Host.Outcome State Fault Refusal :=
  onU s (descOp (isOp 0x24) badMove runService regionMoveStart regionMoveStep r i)

/-- REBUILD (R359). -/
def execRebuild (r i : Nat) (s : State) : Host.Outcome State Fault Refusal :=
  onU s (descOp (isOp 0x25) (fun u d => decide (nStripes u.v ≤ rebuildGroup d)) runService rebuildStart rebuildStep r i)

/-- CHECKPOINT (R365). -/
def execCheckpoint (r i : Nat) (s : State) : Host.Outcome State Fault Refusal :=
  onU s (descOp (isOp 0x30) neverBad runService checkpointStart checkpointStep r i)

/-- DRIFT_CAL (R390). -/
def execDriftCal (r i : Nat) (s : State) : Host.Outcome State Fault Refusal :=
  onU s (descOp (isOp 0x23) badCal runService driftCalStart driftCalStep r i)

/-- POISON_SET (R405). -/
def execPoisonSet (r i : Nat) (s : State) : Host.Outcome State Fault Refusal :=
  onU s (descOp (isOp 0x27) badPoison [.run] poisonSetStart poisonSetStep r i)

/-- POISON_CLEAR (R406). -/
def execPoisonClear (r i : Nat) (s : State) : Host.Outcome State Fault Refusal :=
  onU s (descOp (isOp 0x28) badPoison runService poisonClearStart poisonClearStep r i)

/-- SANITIZE (R465). -/
def execSanitize (r i : Nat) (s : State) : Host.Outcome State Fault Refusal :=
  onU s (descOp (isOp 0x34) neverBad [.service] (fun c u r d => sanitizeStep c (putDesc u r { d with committed := true }) r { d with committed := true }) sanitizeStep r i)

end Sys2Proof.Machine
end

