-- ==== Sys2Proof/Machine/Domains.lean ====
section
/-! DEFINITION. Registers by address, and what a power domain loses when it is switched off or reset (R481 to R485, R558). -/

namespace Sys2Proof.Machine

/-! ### Registers by address (Table 19-2) -/

/-- The instance of a register at a distance from its first one. -/
def instanceAt (x : RDef) (d : Nat) : Option (Nat × Nat) :=
  let i := if x.s1 = 0 then 0 else min (d / x.s1) (x.n1.full - 1)
  let e := d - i * x.s1
  let j := if x.s2 = 0 then 0 else e / x.s2
  if e = j * x.s2 ∧ j < x.n2.full then some (i, j) else none

/-- The register, and the instance of it, at a byte address. -/
def regAt (a : Nat) : Option (Reg × Nat × Nat) :=
  Reg.all.findSome? fun r =>
    if a < r.info.base then none else (instanceAt r.info (a - r.info.base)).map fun ij => (r, ij.1, ij.2)

/-- A trim group of a DDR5 channel or of a Cexus channel (Tables 8-6 and 9-14), which the map summarises: the media flag and the channel. -/
def trimAt (a : Nat) : Option (Bool × Nat) :=
  if 0x400000 ≤ a ∧ a < 0x500000 ∧ 0x9000 ≤ a % 65536 then some (false, (a - 0x400000) / 65536)
  else if 0x500000 ≤ a ∧ a < 0x548000 ∧ 0x800 ≤ a % 4096 then some (true, (a - 0x500000) / 4096)
  else none

/-- Domain whose reset clears the current values at an address. The integrity registers of a channel go with the channel's domain (R424). -/
def cellDomain (a : Nat) : Nat :=
  if 0x700100 ≤ a ∧ a < 0x700300 then pdDram ((a - 0x700100) / 32)
  else if 0x700400 ≤ a ∧ a < 0x700D00 then pdMedia ((a - 0x700400) / 32 / 9)
  else
    match trimAt a, regAt a with
    | some (false, c), _ => pdDram c
    | some (true, n), _ => pdMedia (n / 9)
    | none, some (r, i, _) => regDomain r i
    | none, none => 0

/-- Clear every current register value of a domain to its reset value. -/
def clearCells (u : Units) (d : Nat) : Units :=
  { u with regs := { u.regs with cur := tabFilter u.regs.cur fun a => cellDomain a != d } }

/-! ### Domain resets -/

/-- A port cluster loses its ports and its context cache. -/
def resetCluster (u : Units) (n : Nat) : Units :=
  { u with ports := tabFilter u.ports fun p => p / 8 != n, cache := tabFilter u.cache fun k => k / 1024 != n }

/-- A DDR5 channel loses its engine, its staging slice and its arbiter. -/
def resetDram (u : Units) (c : Nat) : Units :=
  { u with ddr := tabPut u.ddr c {}, slices := tabPut u.slices c {}, arbs := tabPut u.arbs c {} }

/-- The key domain loses every slot and the key port's state. -/
def resetKeys (u : Units) : Units := { u with keys := tabNil, keyPort := {} }

/-- Domain of a telemetry counter's unit (Table 18-1), whose reset clears the counter (R524). -/
def counterDomain (n : Nat) : Nat :=
  if n < 512 then pdCluster (n / 64)
  else if n < 768 then pdDram ((n - 512) / 16)
  else if n < 1344 then pdMedia ((n - 768) / 8 / 9)
  else if n < 1408 then pdMedia ((n - 1344) / 8)
  else 5

/-- Clear the counters of a domain. -/
def clearCounters (u : Units) (d : Nat) : Units :=
  { u with tele := { u.tele with counters := tabFilter u.tele.counters fun n => counterDomain n != d } }

/-- What a domain that is switched off, or held in reset, loses; the domains that only RESET switches off start from the state after reset. -/
def resetDomain (u : Units) (d : Nat) : Units :=
  let u := clearCounters (clearCells u d) d
  if d = 1 then resetKeys u
  else if 11 ≤ d ∧ d < 19 then resetCluster u (d - 11)
  else if 19 ≤ d ∧ d < 35 then resetDram u (d - 19)
  else u

/-- A domain's state. -/
def setPd (u : Units) (d x : Nat) : Units := { u with pd := if d = 0 then u.pd else tabPut u.pd d x }

/-! ### PHY pins (R583) -/

/-- Levels at which the PHY pins of a channel are held: off, held in HUSH (Table 7-6 step 4), retained in HUSH (R487), or in use. What the rule does not name in HUSH stays as the channel leaves it. -/
def phyPins (u : Units) (media : Bool) (ch : Nat) : PhyPins :=
  let s := pdState u (if media then pdMedia (ch / 9) else pdDram ch)
  if s = 0 then { ck := if media then .stopped else .low }
  else if s = 3 ∧ media then { resetN := .high, ck := .stopped, cs := .high, others := .live }
  else if s = 2 ∧ media = false then { resetN := .high, ck := .stopped, cs := .live, others := .live }
  else { resetN := .high, ck := .live, cs := .live, others := .live }

/-- The pins of the channels of a domain take the levels of its state. -/
def showPins (u : Units) (d : Nat) : Units :=
  if 19 ≤ d ∧ d < 35 then present u (.pins false (d - 19) (phyPins u false (d - 19)))
  else if 35 ≤ d then (List.range 9).foldl (fun u q => present u (.pins true (9 * (d - 35) + q) (phyPins u true (9 * (d - 35) + q)))) u
  else u

/-- Switch a domain off. -/
def switchOff (u : Units) (d : Nat) : Units := showPins (setPd (setFence (resetDomain u d) d true) d 0) d

/-- Switch a domain on, its fence down. -/
def switchOn (u : Units) (d : Nat) : Units := showPins (setPd (setFence u d false) d 1) d

end Sys2Proof.Machine
end

