-- ==== Sys2Proof/Machine/SelfTests.lean ====
section
/-! DEFINITION. The descriptors that test, train and patch: SELFTEST of every kind with the evacuation it may need, RETRAIN, PATCH_ADD of both kinds, post-package repair and LEDGER_AUDIT (R217, R248, R267, R268, R272, R306, R418, R422, R440, R463). A test or a training of some length has two rows: the first begins it, the second, with the devices' result, ends it. -/

namespace Sys2Proof.Machine

/-! ### Operands of SELFTEST and RETRAIN -/

/-- Kind of a SELFTEST (Table 15-6). -/
def testKind (d : Desc) : Nat := dField d 8 8
/-- Channel. -/
def testCh (d : Desc) : Nat := dField d 9 7
/-- Subchannel. -/
def testSub (d : Desc) : Nat := dField d 10 1
/-- Rank. -/
def testRank (d : Desc) : Nat := nbits d.bits.toNat 81 4
/-- Die select. -/
def testDie (d : Desc) : Nat := dField d 11 3
/-- Media flag of RETRAIN and PATCH_ADD. -/
def mediaFlag (d : Desc) : Bool := dField d 8 1 == 1

/-- A SELFTEST of one kind. -/
def isTest (kind : Nat) (d : Desc) : Bool := dOp d == 0x21 && testKind d == kind

/-- A SELFTEST of a DDR5 channel. -/
def isDdrTest (d : Desc) : Bool := dOp d == 0x21 && 1 ≤ testKind d && testKind d ≤ 4
/-- A SELFTEST of a die. -/
def isDieTest (d : Desc) : Bool := dOp d == 0x21 && (testKind d == 0x10 || testKind d == 0x11)
/-- A SELFTEST that takes a whole DDR5 channel. -/
def isOffline (d : Desc) : Bool := isTest 1 d || isTest 3 d
/-- A RETRAIN of a DDR5 channel. -/
def isRetrainDdr (d : Desc) : Bool := dOp d == 0x22 && !mediaFlag d
/-- A RETRAIN of a Cexus channel. -/
def isRetrainCex (d : Desc) : Bool := dOp d == 0x22 && mediaFlag d

/-- A channel or rank beyond the variant or the DIMMs fitted. -/
def badTest (u : Units) (d : Desc) : Bool :=
  if isDdrTest d then nDdr u.v ≤ testCh d || (testKind d != 1 && decide (2 ^ rkLog u ≤ testRank d))
  else isDieTest d && decide (nCexus u.v ≤ testCh d)

/-- Two tests hold a rank, channel or die in common (R463). -/
def sharesTest (a b : Desc) : Bool :=
  if isDdrTest a && isDdrTest b then
    testCh a == testCh b && (isOffline a || isOffline b || (testSub a == testSub b && testRank a == testRank b))
  else isDieTest a && isDieTest b && testCh a == testCh b && testDie a == testDie b

/-- Another test holds what this one names. -/
def testHeld (u : Units) (r : Nat) (d : Desc) : Bool :=
  (underWay u).any fun x => !(x.1 == r && x.2.idx == d.idx) && sharesTest d x.2

/-! ### Evacuation and restoration (R217, Table 6-8) -/

/-- Begin the evacuation of a channel for a descriptor (step 1). -/
def beginEvac (u : Units) (k r i : Nat) : Units :=
  let u := { u with stg := { u.stg with evac := 1, evacCh := k, evacHold := false, evacDesc := some (r, i) } }
  putShares (cause u 1)

/-- Everything staged in a slice is gone: every set header is as initialised, and no count or queue of the slice holds anything. -/
def blankSlice (u : Units) (k : Nat) : Units :=
  let x := slice u k
  let u := setSlice u k { x with cache := [], dram := tabNil, dirty := 0, epochs := tabNil, tally := tabNil, full := [], fullWait := [], urgent := [], forced := [], missed := [], pins := [], epochSeen := u.stg.e }
  let clear := fun (y : Sub) => { y with rq := [], wq := [], held := [], inflight := [], crcHeld := [], crcTries := tabNil }
  blankSpares (setSub (setSub u k 0 (clear (subOf u k 0))) k 1 (clear (subOf u k 1))) k

/-- The slice has nothing under way that names a position. -/
def slicePosIdle (u : Units) (s : Nat) (pos : Nat) : Bool :=
  let x := slice u s
  let at_ := fun (lla : Nat) => hashPos u.v (lineHash u lla) == pos
  (x.waitq.all fun k => !at_ k.lla) && (x.fills.all fun f => !at_ f.lla) && (x.jobs.all fun j => !at_ (j.stripe * 8)) &&
    (u.net.all fun k => !(k.dst == epSlice s && at_ k.lla))

/-- A request of an epoch before the one that began the hold names a line of a position; once a further latch has advanced, no such epoch is left (R437). -/
def olderAt (u : Units) (pos : Nat) : Bool :=
  u.regs.advances == u.stg.evacAt && u.ports.cells.any fun p => p.2.reqs.any fun r =>
    !r.closed && isLineCmd (hCmd r.hdr) && r.epoch.any (fun e => e != u.regs.epoch) && hashPos u.v (lineHash u (hLla r.hdr)) == pos

/-- Dirty ways of a position held by a slice. -/
def dirtyAt (u : Units) (s pos : Nat) : Nat :=
  (((listedSets u s).filter fun n => !(slice u s).sealed.contains n).map fun n =>
    let h := effHeader u s n
    ((dirtyWays h).filter fun w => stripePos u n (wayTag h w) == pos).length).sum

/-- The test or the training of the evacuated channel has ended: the headers are initialised and restoration begins (step 4). -/
def beginRestore (u : Units) : Units :=
  let u := blankSlice u u.stg.evacCh
  { u with stg := { u.stg with evac := 3 } }

/-- A slice out of service is asked for no acknowledgement (R214). -/
def ackless (u : Units) (s : Nat) : Units := { u with stg := { u.stg with unacked := u.stg.unacked.filter fun i => i != s } }

/-- A slice that re-enters service tags with the epoch in force (R214). -/
def freshEpoch (u : Units) (s : Nat) : Units := setSlice u s { slice u s with epochSeen := u.stg.e }

/-- Step 3: the partner releases the held requests and the channel leaves service. A test that an ABORT has stopped goes on to restoration at once. -/
def evacCompleteOp (c : Ctl) (u : Units) : Units :=
  let k := u.stg.evacCh
  if u.stg.evac = 1 ∧ u.stg.evacHold ∧ (slice u k).dirty = 0 ∧ slicePosIdle u k k ∧ olderAt u k = false then
    let u := { u with stg := { u.stg with evac := 2, evacHold := false } }
    let u := ackless (putShares (cause (putF (blankSlice u k) F.DDR5_n_STATE_state k 0 4) 4)) k
    let (u, stopped) := match u.stg.evacDesc with
      | none => (u, true)
      | some (r, i) =>
        match findDesc u r i with
        | none => (u, true)
        | some d => (if isRetrainDdr d then putDesc u r { d with committed := true } else u, d.own.headD 0 == 3)
    pumpSlice c (if stopped then beginRestore u else u) (k ^^^ 1)
  else u

/-- The valid-clean ways of a position are emptied in a slice. -/
def emptyCleanAt (c : Ctl) (u : Units) (s pos : Nat) : Bool × Units :=
  emptySlice c u s (fun _ => false) fun st l => st == 1 && hashPos u.v (lineHash u l) == pos

/-- Step 6: the partner empties its clean ways of the position, the slice serves it again, and the SELFTEST or RETRAIN completes with the status it has carried since its end. -/
def restoreCompleteOp (c : Ctl) (u : Units) : Units :=
  let k := u.stg.evacCh
  let p := k ^^^ 1
  if u.stg.evac = 3 ∧ u.stg.evacHold ∧ slicePosIdle u p k ∧ olderAt u k = false ∧ dirtyAt u p k = 0 then
    match emptyCleanAt c u p k with
    | (false, u) => u
    | (true, u) =>
      let who := u.stg.evacDesc
      let u := { u with stg := { u.stg with evac := 0, evacHold := false, evacDesc := none } }
      let u := putShares (cause (putF (freshEpoch u k) F.DDR5_n_STATE_state k 0 2) 4)
      let u := match who with
        | none => u
        | some (r, i) =>
          match findDesc u r i with
          | none => u
          | some d => complete u r i (ownAt d 1) d.r0 d.r1
      pumpSlice c (pumpSlice c u k) p
  else u

/-! ### SELFTEST (R463) -/

/-- The channel engine that a DDR5 test names is there to run it. -/
def ddrReady (u : Units) (d : Desc) : Bool := pdOn u (pdDram (testCh d)) && inService u (testCh d)

/-- A test in RUN that takes a whole channel begins with its evacuation (R217); counter 0 is 1 while it waits or runs, 2 once it has ended and 3 once it has been aborted, counter 1 the status it will complete with. -/
def offlineStart (c : Ctl) (u : Units) (r : Nat) (d : Desc) : Units :=
  if u.stg.evac ≠ 0 ∨ testHeld u r d then complete u r d.idx 3
  else if ddrReady u d = false then complete u r d.idx 4
  else if c.mode = .run then beginEvac (putOwn u r d [1, 0]) (testCh d) r d.idx
  else putOwn u r d [1, 0]

/-- An online test, or a test of a die, begins. -/
def onlineStart (_ : Ctl) (u : Units) (r : Nat) (d : Desc) : Units :=
  if testHeld u r d then complete u r d.idx 3
  else if isDdrTest d && !ddrReady u d then complete u r d.idx 4
  else if isDieTest d && !pdOn u (pdMedia (testCh d / 9)) then complete u r d.idx 4
  else if isTest 2 d then putOwn u r d [0, 0, 0]
  else u

/-- A test that takes a whole channel ends with its results: restoration follows an evacuation, and in SERVICE the headers are left initialised. -/
def offlineEnd (u : Units) (r : Nat) (d : Desc) (status r0 r1 : Nat) : Units :=
  if u.stg.evacDesc = some (r, d.idx) then
    if u.stg.evac = 2 then beginRestore (putDesc u r { d with committed := true, own := [2, status], r0 := r0, r1 := r1 }) else u
  else if (slice u (testCh d)).jobs = [] then complete (blankSlice u (testCh d)) r d.idx status r0 r1
  else u

/-- Status of a test. -/
def testStatus (x : TestResult) : Nat := if x.pass then 0 else 8

/-- The DRAM pattern test ends. -/
def patternStep (x : TestResult) (_ : Ctl) (u : Units) (r : Nat) (d : Desc) : Units :=
  offlineEnd u r d (testStatus x) x.r0 (x.r1 % 2 ^ 32)

/-- The write-margin sweep ends. -/
def writeMarginStep (x : TestResult) (_ : Ctl) (u : Units) (r : Nat) (d : Desc) : Units :=
  offlineEnd u r d (testStatus x) (x.r0 % 2 ^ 20) 0

/-- The blackout of one point of a read-margin sweep (R268): PREab, the read training pattern by MRW of mode register 25, four RD bursts, and out of pattern mode. -/
def marginPoint (u : Units) (ch s rank : Nat) : Units :=
  let t := tRp u ch + tMrd u ch
  let reads : List Laid := (List.range 4).map fun k => { at_ := t + k * tim u ch 2 8 8, code := 1, row := 25 }
  blackoutOp u ch s rank (nsFit u ch 120)
    ({ at_ := tRp u ch, code := 12, row := 25, col := 1 } :: reads ++ [{ at_ := t + 4 * tim u ch 2 8 8, code := 12, row := 25, busy := tMrd u ch }])

/-- DDR5_n_MARGIN after a sweep: the passing steps on each side, and the device with the least margin. -/
def putMargin (u : Units) (d : Desc) (left right device : Nat) : Units :=
  let ch := testCh d
  let u := putF (putF u F.DDR5_n_MARGIN_left ch 0 left) F.DDR5_n_MARGIN_right ch 0 right
  let u := putF (putF u F.DDR5_n_MARGIN_rank ch 0 (testRank d)) F.DDR5_n_MARGIN_subch ch 0 (testSub d)
  putF u F.DDR5_n_MARGIN_device ch 0 device

/-- One point of the read-margin sweep (R268), under the grant of the channel's arbiter: outward from the trained point, first left and then right, each side to its first failing point or 32 steps. Counters are the side, its passing steps and those of the left side; the device with the least margin is the one of bits [22:19] of the last point's answer. -/
def readMarginStep (x : TestResult) (_ : Ctl) (u : Units) (r : Nat) (d : Desc) : Units :=
  let ch := testCh d
  if (tabGet u.arbs ch).holder ≠ 5 then u
  else
    let u := endGrant (marginPoint u ch (testSub d) (testRank d)) ch 5
    let n := ownAt d 1 + if x.pass then 1 else 0
    if x.pass ∧ n < 32 then putOwn u r d [ownAt d 0, n, ownAt d 2]
    else if ownAt d 0 = 0 then putOwn u r d [1, 0, n]
    else
      let u := putMargin u d (ownAt d 2) n (nbits x.r0 19 4)
      complete u r d.idx 0 (rawReg u .DDR5_n_MARGIN ch)

/-- The ECS counts have been read. -/
def ecsStep (x : TestResult) (_ : Ctl) (u : Units) (r : Nat) (d : Desc) : Units :=
  complete u r d.idx (testStatus x) (x.r0 % 2 ^ 32) (x.r1 % 16)

/-- First die line address of the keep area. -/
def keepFrom : Nat := 67584 * 16384

/-- Every line of a die below the keep area is blank. -/
def blankDie (u : Units) (n d : Nat) : Units :=
  let u := { u with media := tabFilter u.media fun k => !(k / 2 ^ 31 == n * 8 + d && decide (k % 2 ^ 31 < keepFrom)) }
  let x := cex u n
  setCex u n { x with patches := x.patches.map fun p => if p.1 = d ∧ p.2.1 < keepFrom then (p.1, p.2.1, blankLine) else p }

/-- The media pattern test ends, and has left blank lines. -/
def mediaPatternStep (x : TestResult) (_ : Ctl) (u : Units) (r : Nat) (d : Desc) : Units :=
  complete (blankDie u (testCh d) (testDie d)) r d.idx (testStatus x) x.r0

/-- The media read-margin test ends. -/
def mediaMarginStep (x : TestResult) (_ : Ctl) (u : Units) (r : Nat) (d : Desc) : Units :=
  complete u r d.idx (testStatus x) (x.r0 % 256)

/-- The codec test ends (R422): the code word names the first failing instance, kind + 4 × instance. -/
def codecStep (x : TestResult) (_ : Ctl) (u : Units) (r : Nat) (d : Desc) : Units :=
  let u := putReg u .INT_CODEC 0 0 (1 + (if x.pass then 0 else 2 + x.code % 512 * 4))
  complete (if x.pass then u else flag u F.INT_ERR_codec) r d.idx (testStatus x)

/-! ### RETRAIN (R267, R306) -/

/-- A channel beyond the variant. -/
def badRetrain (u : Units) (d : Desc) : Bool := decide ((if mediaFlag d then nCexus u.v else nDdr u.v) ≤ testCh d)

/-- RETRAIN of a DDR5 channel begins: in RUN with an evacuation, in SERVICE at once. -/
def retrainDdrStart (c : Ctl) (u : Units) (r : Nat) (d : Desc) : Units :=
  let again := (underWay u).any fun x => !(x.1 == r && x.2.idx == d.idx) && testCh x.2 == testCh d && (isRetrainDdr x.2 || isDdrTest x.2)
  if again || (c.mode == .run && u.stg.evac != 0) then complete u r d.idx 3
  else if c.mode = .run then
    if ddrReady u d then beginEvac (putOwn u r d [1, 0]) (testCh d) r d.idx else complete u r d.idx 4
  else if pdOn u (pdDram (testCh d)) then putDesc u r { d with committed := true }
  else complete u r d.idx 4

/-- DDR5_n_TRAIN after a training: complete, or the place of the failure as the devices gave it. -/
def putTrain (u : Units) (ch : Nat) (x : TestResult) : Units :=
  putReg u .DDR5_n_TRAIN ch 0 (getF u F.DDR5_n_TRAIN_time ch * 2 ^ 24 + (if x.pass then 15 else x.r0 % 2 ^ 17))

/-- A DDR5 channel has become failed: flag, event, state. -/
def failChannel (u : Units) (ch : Nat) : Units :=
  ddrEvent (putF (flag u F.DDR5_n_PHY_ERR_train_fail ch) F.DDR5_n_STATE_state ch 0 5) ch

/-- A retraining of a DDR5 channel judged by the criteria in force (R267): what failed it in the criteria's judgement, as DDR5_n_TRAIN shows it. -/
def retrainMiss (u : Units) (ch : Nat) (x : TestResult) : TestResult :=
  match trainMiss u ch x.found.eyes x.found.trims with
  | some (step, result, place) => if x.pass then { x with pass := false, r0 := step + result * 16 + place * 256 } else x
  | none => x

/-- RETRAIN of a DDR5 channel ends. One that passes stores what it found. One that fails leaves the channel failed and switched off (Table 16-4); in RUN its position stays with the partner slice. -/
def retrainDdrStep (y : TestResult) (_ : Ctl) (u : Units) (r : Nat) (d : Desc) : Units :=
  let ch := testCh d
  let mine := u.stg.evacDesc = some (r, d.idx)
  if mine ∧ u.stg.evac ≠ 2 then u
  else
    let x := retrainMiss u ch y
    let u := putTrain u ch x
    if x.pass then
      let u := startRefresh (storeTrims (setDdr u ch { ddr u ch with tries := 0 }) ch x.found.trims) ch
      if mine then beginRestore (putDesc u r { d with committed := true, own := [2, 0] })
      else complete (putF u F.DDR5_n_STATE_state ch 0 2) r d.idx 0
    else
      let u := complete (putShares (ackless (failChannel u ch) ch)) r d.idx 8
      let u := if mine then { u with stg := { u.stg with evacDesc := none } } else u
      switchOff u (pdDram ch)

/-- RESET_N takes a die from what it was doing: its program's lines are undefined, its slots are to be loaded once more (R289). -/
def haltDie (u : Units) (n d : Nat) : Units :=
  let u := abortProgram u n d
  let u := reloadSlots u n d (dieOf u n d).slots
  setDie u n d { dieOf u n d with st := .other, pgm := false, suspSent := false, cur := none, result := none, slots := [], running := [], calibrating := false, reloaded := false }

/-- RETRAIN of a Cexus channel begins; in SERVICE with RESET_N, which aborts every program. -/
def retrainCexStart (c : Ctl) (u : Units) (r : Nat) (d : Desc) : Units :=
  let n := testCh d
  if (underWay u).any fun x => !(x.1 == r && x.2.idx == d.idx) && isRetrainCex x.2 && testCh x.2 == n then complete u r d.idx 3
  else if cexRuns u n = false then complete u r d.idx 4
  else
    let u := putDesc u r { d with committed := true }
    if c.mode = .service then pulseReset ((liveDies u n).foldl (fun u k => haltDie u n k) u) n else u

/-- RETRAIN of a Cexus channel ends: each die that failed is lost, and the descriptor fails with it. -/
def retrainCexEnd (u : Units) (r : Nat) (d : Desc) (fails : List DieFail) : Units :=
  let n := testCh d
  let u := putReg u .CEX_n_TRAIN n 0 (trainWord fails.head? (getF u F.CEX_n_TRAIN_time n))
  match fails with
  | [] => complete u r d.idx 0
  | f :: _ => complete (fails.foldl (fun u x => loseDie u n x.die) (cexEvent (flag u F.CEX_n_ERR_train_fail n) n f.die)) r d.idx 8

/-- A die whose training did not pass, as the answer names it without a step. -/
def retrainMissCex (u : Units) (n k : Nat) (x : TestResult) : Option DieFail :=
  match dieMiss u n k x.found with
  | some f => some f
  | none => if x.pass then none else some { die := k, step := x.r0 % 16, result := x.r0 / 16 % 16, lane := x.r0 / 2 ^ 11 % 32 }

/-- RETRAIN in SERVICE: every step of Table 9-9 has run on every die. -/
def retrainAll (x : TestResult) (u : Units) (r : Nat) (d : Desc) : Units :=
  let n := testCh d
  let live := liveDies u n
  let u := keepFound (trainFrames u n live fun k => driftCode u (8 * (n / 9) + k) 0 0) n x.found
  let u := storeCexTrims u n x.found.trims
  let fails := live.filterMap fun k => retrainMissCex u n k x
  let u := live.foldl (fun u k => setDie u n k { dieOf u n k with st := .idle }) u
  retrainCexEnd u r d fails

/-- RETRAIN in RUN, one die after the other: steps 6 and 8 on the next die, in the channel's own phase under the grant of its calibration requester, with the bus free (R306, R333). The descriptor's counters are the next die and the mask of those that failed. -/
def retrainNext (x : TestResult) (u : Units) (r : Nat) (d : Desc) : Units :=
  let n := testCh d
  match (liveDies u n).find? fun k => ownAt d 0 ≤ k with
  | none => retrainCexEnd u r d []
  | some k =>
    if ¬ (holderOf u n = 3 ∧ inWindow u n ∧ (cex u n).cur = none) then u
    else
      let u := countRun (endGrant (centreWrites (centreReads u n [k]) n [k]) (chKey true n) 3) (cCex n 6) 480
      let u := putCexTrims u n (x.found.trims.filter fun e => 0x900 ≤ e.1 && e.1 < 0xF00)
      let mask := ownAt d 1 + match retrainMissCex u n k x with
        | some _ => 2 ^ k
        | none => 0
      if (liveDies u n).any fun j => k < j then putOwn u r d [k + 1, mask]
      else retrainCexEnd u r d ((slotsOf mask).map fun j => ((retrainMissCex u n j x).getD { die := j, step := 8, result := 3 }))

/-- RETRAIN of a Cexus channel goes on with the devices' answer. -/
def retrainCexStep (x : TestResult) (c : Ctl) (u : Units) (r : Nat) (d : Desc) : Units :=
  if c.mode = .service then retrainAll x u r d else retrainNext x u r d

/-! ### PATCH_ADD (R248, R272, R418) -/

/-- Post-package repair asked for. -/
def pprField (d : Desc) : Nat := dField d 20 2
/-- The line number of a DDR5 location. -/
def patchLine (u : Units) (d : Desc) : Nat :=
  lineAt u (testSub d) (dField d 11 4) (dField d 12 5) (dField d 16 18) (dField d 13 7)

/-- A location beyond the variant or the DIMMs fitted. -/
def badPatch (u : Units) (d : Desc) : Bool :=
  decide (nDdr u.v ≤ testCh d) || decide (2 ^ rkLog u ≤ dField d 11 4) || decide (2 ^ u.stg.rowsLog2 ≤ dField d 16 18) || pprField d == 3

/-- A PATCH_ADD of a DDR5 code word. -/
def isPatchDdr (d : Desc) : Bool := dOp d == 0x26 && !mediaFlag d && !(pprField d == 1 || pprField d == 2)
/-- A PATCH_ADD of a media line. -/
def isPatchMedia (d : Desc) : Bool := dOp d == 0x26 && mediaFlag d
/-- A PATCH_ADD that asks for a post-package repair. -/
def isPpr (d : Desc) : Bool := dOp d == 0x26 && !mediaFlag d && (pprField d == 1 || pprField d == 2)

/-- PATCH_ADD of a DDR5 code word, read with this error pattern. -/
def patchStart (err : BitVec 640) (_ : Ctl) (u : Units) (r : Nat) (d : Desc) : Units :=
  if ddrReady u d = false then complete u r d.idx 4
  else
    match addPatch u (testCh d) (patchLine u d) err with
    | (true, u) => complete u r d.idx 0
    | (false, u) => complete u r d.idx 4

/-- Die line address of a media PATCH_ADD. -/
def patchDla (d : Desc) : Nat := dField d 16 31
/-- Die select of a media PATCH_ADD. -/
def patchDie (d : Desc) : Nat := dField d 10 3

/-- A channel beyond the variant, or a line beyond the die. -/
def badMediaPatch (u : Units) (d : Desc) : Bool := decide (nCexus u.v ≤ testCh d) || decide (1124073472 ≤ patchDla d)

/-- Physical region at a slot of a stripe group. -/
def slotPrn (v : Variant) (s slot : Nat) : Nat := if slot < 65536 then s * 65536 + slot else nRegions v + s * 2048 + (slot - 65536)

/-- PATCH_ADD of a media line goes on: once no other holds the stripe it is read, and the entry is made of what the read gives. -/
def mediaPatchStep (_ : Ctl) (u : Units) (r : Nat) (d : Desc) : Units :=
  let n := testCh d
  let g := n / 9
  let s := 8 * g + patchDie d
  match d.prog with
  | x :: _ => complete u r d.idx (if x = 0 then 0 else if x = 8 then 4 else 8)
  | [] =>
    if ownAt d 0 = 1 ∨ (bufAt u g s (patchDla d)).isSome then u
    else
      let slot := patchDla d / 16384
      let codes := if slot < 67584 then readCodes u (slotPrn u.v s slot) else (driftCode u s 0 0, none)
      startRead (putOwn u r d [1]) g { typ := .fillFwd, group := s, pos := n % 9, dla := patchDla d, gen := 0x10000, code := twoCodes codes, cls := 3, prio := 1 } (.patch r d.idx)

/-- PATCH_ADD of a media line begins. -/
def mediaPatchStart (c : Ctl) (u : Units) (r : Nat) (d : Desc) : Units :=
  let n := testCh d
  if cexRuns u n = false then complete u r d.idx 4
  else if (patchOf u n (patchDie d) (patchDla d)).isSome then complete u r d.idx 0
  else mediaPatchStep c u r d

/-- The eight sets of a row. -/
def rowSets (u : Units) (d : Desc) : List Nat :=
  (List.range 8).map fun i => lineAt u (testSub d) (dField d 11 4) (dField d 12 5) (dField d 16 18) (16 * i) / 16

/-- A set header is initialised, and no queued access of its set is left. -/
def blankSet (u : Units) (s set : Nat) : Units :=
  let x := slice u s
  let u := storeDram (setSlice u s { x with cache := x.cache.filter fun e => e.set != set }) s (set * 16) initHeader
  let y := subOf u s (lineSub (set * 16))
  let other := fun (a : DAcc) => a.line / 16 != set
  setSub u s (lineSub (set * 16)) { y with wq := y.wq.filter other, held := y.held.filter other, rq := y.rq.filter other }

/-- The commands of a post-package repair (R272 steps 4 to 8): the devices of the mask are selected, for hPPR the guard key of mode register 24 is sent, mode register 23 enters the repair, ACT and PRE of the row, out of the repair, the selection ends. -/
def pprCommands (u : Units) (d : Desc) : Units :=
  let ch := testCh d
  let s := testSub d
  let rank := dField d 11 4
  let bank := dField d 12 5
  let row := dField d 16 18
  let put := fun (u : Units) (code row col : Nat) => ddrOut u ch s code rank bank row col
  let u := if tabGet (subOf u ch s).openRow (rank * 32 + bank) = 0 then u else issuePre u ch s (rank * 32 + bank)
  let u := put u 17 (dField d 22 10) 0
  let u := if pprField d = 2 then put u 12 24 0 else u
  put (put (put (put (put u 12 23 (pprField d)) 0 row 0) 3 row 0) 12 23 0) 17 0 0

/-- Post-package repair (R272): refused where a device has no resources (code 1) or a header of the row holds a dirty or poisoned way; else the row is repaired and its headers initialised. -/
def pprStart (x : TestResult) (_ : Ctl) (u : Units) (r : Nat) (d : Desc) : Units :=
  let ch := testCh d
  if ddrReady u d = false ∨ x.code = 1 ∨ ((rowSets u d).any fun t => (List.range 15).any fun w => wayDirty (effHeader u ch t) w) then complete u r d.idx 4
  else
    let u := (rowSets u d).foldl (fun u t => blankSet u ch t) (pprCommands u d)
    if x.pass then complete u r d.idx 0 else complete (flag u F.DDR5_n_PHY_ERR_ppr_fail ch) r d.idx 8

/-! ### LEDGER_AUDIT (R440) -/

/-- LEDGER_AUDIT begins: the counts are sampled at the next latch. -/
def auditStart (_ : Ctl) (u : Units) (r : Nat) (d : Desc) : Units :=
  if u.audit.isSome then complete u r d.idx 3
  else { putDesc u r { d with committed := true } with audit := some { ring := r, idx := d.idx } }

/-! ### Meanings -/

/-- EVAC_COMPLETE (R217). -/
def execEvacComplete (s : State) : Host.Outcome State Fault Refusal := onU s evacCompleteOp

/-- RESTORE_COMPLETE (R217). -/
def execRestoreComplete (s : State) : Host.Outcome State Fault Refusal := onU s restoreCompleteOp

/-- SELFTEST of kind 0x01 (R463). -/
def execSelftestDramPattern (r i : Nat) (x : TestResult) (s : State) : Host.Outcome State Fault Refusal :=
  onU s (descOp (isTest 1) badTest runService offlineStart (patternStep x) r i)

/-- SELFTEST of kind 0x02 (R268). -/
def execSelftestDramReadMargin (r i : Nat) (x : TestResult) (s : State) : Host.Outcome State Fault Refusal :=
  onU s (descOp (isTest 2) badTest runService onlineStart (readMarginStep x) r i)

/-- SELFTEST of kind 0x03 (R463). -/
def execSelftestDramWriteMargin (r i : Nat) (x : TestResult) (s : State) : Host.Outcome State Fault Refusal :=
  onU s (descOp (isTest 3) badTest runService offlineStart (writeMarginStep x) r i)

/-- SELFTEST of kind 0x04 (R463). -/
def execSelftestEcsReadout (r i : Nat) (x : TestResult) (s : State) : Host.Outcome State Fault Refusal :=
  onU s (descOp (isTest 4) badTest runService onlineStart (ecsStep x) r i)

/-- SELFTEST of kind 0x10 (R463). -/
def execSelftestMediaPattern (r i : Nat) (x : TestResult) (s : State) : Host.Outcome State Fault Refusal :=
  onU s (descOp (isTest 0x10) badTest [.service] onlineStart (mediaPatternStep x) r i)

/-- SELFTEST of kind 0x11 (R463). -/
def execSelftestMediaReadMargin (r i : Nat) (x : TestResult) (s : State) : Host.Outcome State Fault Refusal :=
  onU s (descOp (isTest 0x11) badTest [.service] onlineStart (mediaMarginStep x) r i)

/-- SELFTEST of kind 0x20 (R422). -/
def execSelftestCodec (r i : Nat) (x : TestResult) (s : State) : Host.Outcome State Fault Refusal :=
  onU s (descOp (isTest 0x20) neverBad [.service] waits (codecStep x) r i)

/-- RETRAIN of a DDR5 channel (R267). -/
def execRetrainDdr5 (r i : Nat) (x : TestResult) (s : State) : Host.Outcome State Fault Refusal :=
  onU s (descOp isRetrainDdr badRetrain runService retrainDdrStart (retrainDdrStep x) r i)

/-- RETRAIN of a Cexus channel (R306). -/
def execRetrainCexus (r i : Nat) (x : TestResult) (s : State) : Host.Outcome State Fault Refusal :=
  onU s (descOp isRetrainCex badRetrain runService retrainCexStart (retrainCexStep x) r i)

/-- PATCH_ADD of a DDR5 code word (R248). -/
def execPatchAdd (r i : Nat) (err : BitVec 640) (s : State) : Host.Outcome State Fault Refusal :=
  onU s (descOp isPatchDdr badPatch runService (patchStart err) waits r i)

/-- PATCH_ADD of a media line (R418). -/
def execPatchAddMedia (r i : Nat) (s : State) : Host.Outcome State Fault Refusal :=
  onU s (descOp isPatchMedia badMediaPatch runService mediaPatchStart mediaPatchStep r i)

/-- PATCH_ADD with a post-package repair (R272). -/
def execPprRepair (r i : Nat) (x : TestResult) (s : State) : Host.Outcome State Fault Refusal :=
  onU s (descOp isPpr badPatch [.service] (pprStart x) waits r i)

/-- LEDGER_AUDIT (R440). -/
def execLedgerAudit (r i : Nat) (s : State) : Host.Outcome State Fault Refusal :=
  onU s (descOp (isOp 0x31) neverBad runService auditStart waits r i)

end Sys2Proof.Machine
end

