-- ==== Sys2Proof/Machine/Aborts.lean ====
section
/-! DEFINITION. ABORT, what a ring reset and the beginning of DRAIN do to outstanding descriptors, and the ring doorbells (R433, R434, R448, R449, R466 to R469, R473, R474). -/

namespace Sys2Proof.Machine

/-! ### Undo of a begun descriptor that has not committed (Table 14-3) -/

/-- A TRIM takes up no further region. -/
def stopTrim (d : Desc) : Desc := { d with own := [ownAt d 0, ownAt d 1, ownAt d 2, 1, ownAt d 4] ++ d.own.drop 5 }

/-- A driver move is abandoned (Table 11-5), or its due work dropped. -/
def undoMove (c : Ctl) (u : Units) (r : Nat) (d : Desc) : Units :=
  let me := some (r, d.idx)
  match u.hng.active.find? fun i => (tabGet u.hng.slots i).desc == me with
  | some slot =>
    let u := abandonMove u slot
    (match findDesc u r d.idx with
     | some d => regionMoveStep c u r d
     | none => u)
  | none => complete { u with hng := { u.hng with due := u.hng.due.filter fun w => w.desc != me } } r d.idx 2

/-- The read that a PATCH_ADD of a media line has under way is given up. -/
def undoPatch (u : Units) (r : Nat) (d : Desc) : Units :=
  let g := testCh d / 9
  let mine := (grp u g).reads.filter fun x => x.use == .patch r d.idx
  complete (mine.foldl (fun u x => dropRead u g x.id) u) r d.idx 2

/-- A test stops. One that has evacuated its channel is restored before its completion; a media pattern test leaves it open whether it has begun to blank the die. -/
def undoTest (u : Units) (r : Nat) (d : Desc) : Units :=
  if u.stg.evacDesc = some (r, d.idx) then
    let u := putOwn u r d [3, 2]
    if u.stg.evac = 2 then beginRestore u else u
  else if isOffline d && (slice u (testCh d)).jobs.isEmpty then complete (blankSlice u (testCh d)) r d.idx 2
  else if isTest 0x10 d then
    let (n, u) := takeFree u
    complete (if n % 2 = 0 then u else blankDie u (testCh d) (testDie d)) r d.idx 2
  else complete u r d.idx 2

/-- Abort a begun descriptor that has not committed; it completes ABORTED at once, or as soon as its own chapter's undo is done. -/
def undoDesc (c : Ctl) (u : Units) (r : Nat) (d : Desc) : Units :=
  match dOp d with
  | 0x03 => complete (unstageClose u (dHandle d)) r d.idx 2
  | 0x06 => trimStep c (putDesc u r (stopTrim d)) r (stopTrim d)
  | 0x10 | 0x11 => complete (dropPayload u r d.idx) r d.idx 2
  | 0x21 => undoTest u r d
  | 0x22 => if u.stg.evacDesc = some (r, d.idx) then putOwn u r d [3, 2] else complete u r d.idx 2
  | 0x24 => undoMove c u r d
  | 0x26 => undoPatch u r d
  | _ => complete u r d.idx 2

/-- A begun descriptor is being aborted already. -/
def stopping (d : Desc) : Bool :=
  if dOp d = 0x06 then ownAt d 3 == 1 else (dOp d == 0x21 || dOp d == 0x22) && ownAt d 0 == 3

/-! ### ABORT (R434, R467) -/

/-- Ring and index that an ABORT names. -/
def abortTarget (d : Desc) : Nat × Nat := (dField d 8 6, dField d 10 16)

/-- The index lies from the fetch pointer up to the tail of a ring: its descriptor has never been fetched. -/
def neverFetched (u : Units) (r i : Nat) : Bool :=
  let x := ring u r
  let n := sqSize u r
  i < n && (i + n - x.fetch) % n < (x.tail + n - x.fetch) % n

/-- An ABORT completes DONE once its target has completed. -/
def abortStep (_ : Ctl) (u : Units) (r : Nat) (d : Desc) : Units :=
  match findDesc u (abortTarget d).1 (abortTarget d).2 with
  | some t => if stopping t then u else complete u r d.idx 0
  | none => complete u r d.idx 0

/-- ABORT begins: its target is classified and stopped where it can be (Table 14-4). -/
def abortStart (c : Ctl) (u : Units) (r : Nat) (d : Desc) : Units :=
  let (tr, ti) := abortTarget d
  let u := putDesc u r { d with committed := true }
  match findDesc u tr ti with
  | none => complete u r d.idx (if neverFetched u tr ti then 4 else 1)
  | some t =>
    if dOp t = 0x3F then complete u r d.idx 4
    else if t.begun = false then complete (complete u tr ti 2) r d.idx 0
    else if t.committed || stopping t then complete u r d.idx 1
    else abortStep c (undoDesc c u tr t) r d

/-! ### The beginning of DRAIN (R466) -/

/-- Opcodes that Table 15-4 lists for DRAIN. -/
def drainOps : List Nat := [0x01, 0x05, 0x08, 0x33, 0x3F]

/-- What DRAIN does to one outstanding descriptor. -/
def drainDesc (c : Ctl) (u : Units) (r i : Nat) : Units :=
  match findDesc u r i with
  | none => u
  | some d =>
    if d.begun then
      if d.committed || stopping d || dOp d == 0x05 || dOp d == 0x08 || dOp d == 0x33 then u else undoDesc c u r d
    else if drainOps.contains (dOp d) then u
    else complete u r i 7

/-- What DRAIN does to every outstanding descriptor, ring by ring in ring order. -/
def drainDescs (c : Ctl) (u : Units) : Units :=
  u.rings.ring.cells.foldl (fun u x => (x.2.descs.map fun d => d.idx).foldl (fun u i => drainDesc c u x.1 i) u) u

/-! ### Ring reset (R468, Table 15-8) -/

/-- The unbegun descriptors of a ring cut into unchained ones and the unbegun parts of chains. -/
def unbegunRuns : List Desc → List (List Desc)
  | [] => []
  | d :: t =>
    match unbegunRuns t with
    | [] => [[d]]
    | run :: rest => if dChain d && (run.headD {}).pos == d.pos + 1 then (d :: run) :: rest else [d] :: run :: rest

/-- One RING_RESET entry at the first member of a run, covering its length. -/
def resetEntry (u : Units) (r : Nat) (run : List Desc) : Units :=
  match run with
  | [] => u
  | d :: _ => writeEntry u r d 5 0 0 (run.map fun x => x.idx)

/-- A ring that is running or in error is reset (steps 1 to 3). -/
def ringResetOp (c : Ctl) (u : Units) (r : Nat) : Units :=
  let x := ring u r
  if x.state = 0 ∨ x.state = 2 then u
  else
    let waiting := x.descs.filter fun d => !d.begun
    let going := x.descs.filter fun d => d.begun
    let u := setRing u r { x with state := 2, fetching := [], arrived := [], runLen := 0, runDead := false, fetchErr := false, descs := going }
    let u := { u with rings := { u.rings with reads := u.rings.reads.map fun k => if k.1 = r ∧ k.2.2 = 0 then (k.1, k.2.1, 2) else k } }
    let u := going.foldl (fun u d => if d.committed || stopping d then u else undoDesc c u r d) u
    (unbegunRuns waiting).foldl (fun u run => resetEntry u r run) u

/-- Step 4: nothing of the ring is outstanding, so its indices return to zero and one message is sent. -/
def ringResetDone (u : Units) (r : Nat) : Units :=
  let x := ring u r
  if x.state = 2 ∧ x.descs = [] ∧ (u.rings.writes.all fun w => w.ring != r) then
    sendIrq (setRing u r { state := if inF u F.RNG_r_CFG_enable r = 1 then 1 else 0 }) r
  else u

/-! ### Meanings -/

/-- ABORT (R434). -/
def execAbort (r i : Nat) (s : State) : Host.Outcome State Fault Refusal :=
  onU s (descOp (isOp 0x3F) neverBad [.run, .service, .drain] abortStart abortStep r i)

/-- RING_RESET_COMPLETE (R468). -/
def execRingResetComplete (r : Nat) (s : State) : Host.Outcome State Fault Refusal :=
  onU s fun _ u => if r < 64 ∧ pdOn u 4 then ringResetDone u r else u

end Sys2Proof.Machine
end

