-- ==== Sys2Proof/Machine/Power.lean ====
section
/-! DEFINITION. The mode machine, power domains, HUSH, DRAIN and heat (chapter "Modes, Power and Heat"; R464 and R576). -/

namespace Sys2Proof.Machine

/-! ### Modes (R476 to R479) -/

/-- Mode codes (Table 15-7). -/
def modeCode : Mode → Nat
  | .reset => 0
  | .load => 1
  | .train => 2
  | .mount => 3
  | .run => 4
  | .hush => 5
  | .drain => 6
  | .service => 7

/-- The event and the notice of a mode change: the flags of byte 10 are bit 0 for a superblock found with clean = 0 and bit 1 for a MODE_REQUEST (R479). -/
def modeReport (u : Units) (left entered : Mode) (flags : Nat) : Units :=
  let p := modeCode left + modeCode entered * 2 ^ 8 + flags * 2 ^ 16
  notice (emitEvent u 0xE 0 [BitVec.ofNat 32 p]) 8 p

/-- The mode changes, and the change is recorded. -/
def enterMode (c : Ctl) (m : Mode) (cause : Nat) : Ctl := { c with mode := m, prev := c.mode, cause := cause }

/-- Into RUN and out of it every channel enters or leaves service, a cause of a recheck (R145, R149). -/
def serviceCause (u : Units) (left entered : Mode) : Units :=
  if (left == .run) == (entered == .run) then u else Sys2Proof.Machine.cause u 4

/-- The mode changes, is recorded and reported. -/
def changeMode (c : Ctl) (u : Units) (m : Mode) (cause flags : Nat) : Ctl × Units :=
  (enterMode c m cause, serviceCause (modeReport u c.mode m flags) c.mode m)

/-- Store the transition under way. -/
def putTrans (u : Units) (t : Option Trans) : Units := { u with pwr := { u.pwr with trans := t } }

/-- Flags of a change by MODE_REQUEST. -/
def byRequest (t : Option (Nat × Nat)) : Nat := if t.isSome then 2 else 0

/-! ### Ports and clusters at mode changes (R477, R483) -/

/-- Every port of the variant. -/
def allPorts (u : Units) : List Nat := List.range (nPorts u.v)

/-- Clusters with an enabled port. -/
def wantedClusters (u : Units) : List Nat :=
  (List.range (nClusters u.v)).filter fun k => (List.range 8).any fun i => inF u F.PORT_n_CFG_enable (8 * k + i) == 1

/-- Every port becomes closing. -/
def closeAll (c : Ctl) (u : Units) : Units := pumpAll c ((allPorts u).foldl (fun u p => portClosing c u p false) u)

/-- Every port is closed. -/
def allClosed (u : Units) : Bool := (allPorts u).all fun p => (port u p).state == 0

/-- The enabled ports of a powered cluster begin to open. -/
def openCluster (u : Units) (k : Nat) : Units :=
  (List.range 8).foldl (fun u i => if inF u F.PORT_n_CFG_enable (8 * k + i) = 1 then portOpening u (8 * k + i) else u) u

/-- Raise or lower the fence of every powered cluster. -/
def clusterFences (u : Units) (up : Bool) : Units :=
  (List.range (nClusters u.v)).foldl (fun u k => if pdOn u (pdCluster k) then setFence u (pdCluster k) up else u) u

/-- The clusters that the way into RUN switches on wait for their acknowledgement (R483). -/
def raiseClusters (u : Units) : Units :=
  { u with pwr := { u.pwr with rising := ((wantedClusters u).map pdCluster).filter fun d => !pdOn u d } }

/-- At the end of MOUNT the superblock is written with clean = 0, and with it the reference row of the epoch where it is not there yet (R366, R517). -/
def endMount (u : Units) : Units :=
  let sb := newestSb u.keep
  let u := writeSb u ((sb.map fun s => s.j0).getD 0) ((sb.map fun s => s.slot).getD 0) 0 false
  let e := u.drf.e
  { u with keep := { u.keep with refRows := (List.range (nStripes u.v)).foldl (fun t s => tabPut t (s * 32 + e % 32) (e + 1)) u.keep.refRows } }

/-- Rebuilds of groups found in the state rebuilding start when RUN begins (R367). -/
def startRebuilds (u : Units) : Units :=
  (List.range (nStripes u.v)).foldl (fun u s => if groupState u s = 1 ∧ u.hng.rebuilding.contains s = false then beginRebuild u s else u) u

/-- The first lap of every scrubber begins with RUN (R414). -/
def startLaps (u : Units) : Units :=
  let u := (List.range (nDdr u.v)).foldl (fun u ch => if (ddr u ch).scrubAt = 0 then setDdr u ch { ddr u ch with scrubAt := usec u + 1 } else u) u
  (List.range (nCexus u.v)).foldl (fun u ch => if (cex u ch).scrubAt = 0 then setCex u ch { cex u ch with scrubAt := usec u + 1 } else u) u

/-- RUN is entered: fences fall, enabled ports open, and every channel comes into service. -/
def enterRun (c : Ctl) (u : Units) (cause flags : Nat) : Ctl × Units :=
  let u := if c.mode = .mount then startLaps (startRebuilds (endMount u)) else u
  let (c', u) := changeMode { c with drainDone := false } u .run cause flags
  let u := clusterFences u false
  let u := (List.range (nClusters u.v)).foldl (fun u k => if pdOn u (pdCluster k) then openCluster u k else u) u
  (c', { u with pwr := { u.pwr with trans := none, activeAt := u.now } })

/-- What a transition under way waits for may have come: SERVICE once every port is closed, RUN once the clusters are on, DRAIN's completion. A transition out of DRAIN is rejected once a shutdown is latched, which Table 16-2 asks to be absent. -/
def settleMode (c : Ctl) (u : Units) : Ctl × Units :=
  match u.pwr.trans with
  | none => (c, u)
  | some t =>
    match t.target, c.mode with
    | .service, .run =>
      if allClosed u then
        let (c', u) := changeMode c (putTrans u none) .service t.cause (byRequest t.desc)
        (c', completeOpt u t.desc 0 (modeCode c.mode))
      else (c, u)
    | .run, .mount | .run, .service | .run, .drain =>
      if c.mode = .drain ∧ c.shutdown then
        let u := putTrans u none
        (c, completeOpt { u with pwr := { u.pwr with rising := [] } } t.desc 4)
      else if u.pwr.rising = [] then
        let flags := byRequest t.desc + if c.mode = .mount ∧ u.boot.unclean then 1 else 0
        let (c', u) := enterRun c u t.cause flags
        (c', completeOpt u t.desc 0 (modeCode c.mode))
      else (c, u)
    | .drain, .drain => if c.drainDone then (c, completeOpt (putTrans u none) t.desc 0 (modeCode c.prev)) else (c, u)
    | _, _ => (c, u)

/-! ### DRAIN (R466, R489 to R493) -/

/-- Move slots that copy nothing append their cursors as they stop (Table 11-5). -/
def stopMoves (u : Units) : Units :=
  u.hng.active.foldl (fun u i =>
    let m := tabGet u.hng.slots i
    if m.cause ≤ 6 ∧ m.flying = [] ∧ m.jcursor ≠ m.cursor then journalCursor u i else u) u

/-- DRAIN begins: ports close, descriptors are handled under R466, moves stop, the budget step is dropped, and a MODE_REQUEST under way for another mode is rejected (R464). -/
def beginDrain (c : Ctl) (u : Units) (cause flags : Nat) : Ctl × Units :=
  let old := u.pwr.trans
  let (c, u) := changeMode c u .drain cause flags
  let u := match old with
    | some t => if t.target = .drain then u else completeOpt (putTrans u none) t.desc 4
    | none => u
  let u := if u.pwr.budgetStep = 0 then u else Sys2Proof.Machine.cause u 2
  let u := { u with pwr := { u.pwr with rising := [], budgetStep := 0, drainAt := u.now, drainLines := 0 } }
  (c, stopMoves (drainDescs c (closeAll c u)))

/-- The DRAIN began in LOAD, TRAIN, MOUNT or a SERVICE entered on failure (R493). -/
def bareDrain (c : Ctl) : Bool := c.failed || c.prev == .load || c.prev == .train || c.prev == .mount

/-- Step 4 of Table 16-7 may be made: nothing is dirty, every port is closed, no move copies a stripe, no checkpoint runs. -/
def drainReady (u : Units) : Bool :=
  totalDirty u == 0 && allClosed u && !u.hng.ckptOn && u.hng.active.all fun i => (tabGet u.hng.slots i).flying.isEmpty

/-- DRAIN_DONE and what follows it (step 5). -/
def drainEnd (c : Ctl) (u : Units) : Ctl × Units :=
  let ms := min 65535 ((u.now - u.pwr.drainAt) / 100000)
  let units := min 65535 ((u.pwr.drainLines + 1048575) / 1048576)
  settleMode { c with drainDone := true, thermOff := c.shutdown } (putReg u .PWR_DRAIN 0 0 (ms + units * 2 ^ 16))

/-- The end of DRAIN: the journal tail, then the superblock with clean = 1. -/
def drainCompleteOp (c : Ctl) (u : Units) : Ctl × Units :=
  if c.mode ≠ .drain ∨ c.drainDone then (c, u)
  else if bareDrain c then drainEnd c u
  else if drainReady u = false then (c, u)
  else
    let u := (closePoint u).2
    if u.hng.writing ≠ [] then (c, u)
    else
      let sb := newestSb u.keep
      drainEnd c (writeSb u ((sb.map fun s => s.j0).getD 0) ((sb.map fun s => s.slot).getD 0) u.hng.seq true)

/-- A trigger of DRAIN outside the driver: PWRFAIL_N (cause 5) or the shutdown level (cause 6). In HUSH, or while it is entered, the wake comes first (R477, R487). -/
def drainTrigger (c : Ctl) (u : Units) (cause : Nat) : Ctl × Units :=
  if c.mode = .reset ∨ c.mode = .drain then (c, u)
  else if c.mode = .hush ∨ u.pwr.hushing then
    let u := { u with pwr := { u.pwr with wakeDrain := if u.pwr.wakeDrain = 0 then cause else u.pwr.wakeDrain } }
    (c, wakeNow c u)
  else beginDrain c u cause 0

/-- PWRFAIL_N has been low for 16 AON cycles (R491); during DRAIN it is not sampled. -/
def pwrfailOp (c : Ctl) (u : Units) : Ctl × Units :=
  if c.mode = .reset ∨ c.mode = .drain then (c, u)
  else drainTrigger c { u with pwr := { u.pwr with pwrfail := true } } 5

/-- PWRFAIL_N returns high before 16 AON cycles have passed. In DRAIN it only shows that the pin is high again. -/
def pwrfailGlitchOp (c : Ctl) (u : Units) : Units :=
  let u := { u with pwr := { u.pwr with pwrfail := false } }
  if c.mode = .drain ∨ c.mode = .reset then u else flag u F.PWR_ERR_pwrfail_glitch

/-! ### HUSH (R486 to R488) -/

/-- The conditions of R486 but for the descriptor that asks. -/
def hushOk (u : Units) (me : Option (Nat × Nat)) : Bool :=
  ((allPorts u).all fun p => (port u p).reqs.isEmpty) &&
  (u.rings.ring.cells.all fun x => x.2.fetching.isEmpty && x.2.descs.all fun d => some (x.1, d.idx) == me) &&
  u.stg.evac == 0 && u.hng.rebuilding.isEmpty && u.adm.gathered == 0 && u.adm.due == 0 && u.pwr.trans.isNone && !u.pwr.hushing

/-- Entry is decided: the notice is written, moves stop (step 1). -/
def decideHush (u : Units) (flags : Nat) : Units :=
  let u := modeReport u .run .hush flags
  stopMoves { u with pwr := { u.pwr with hushing := true, wakeDrain := 0, trans := some { target := .hush, cause := if flags = 2 then 2 else 3 } } }

/-- The idle timer has ended (R486). -/
def hushTimerOp (c : Ctl) (u : Units) : Units :=
  let idle := inF u F.PWR_CFG_hush_idle
  if c.mode = .run ∧ idle ≠ 0 ∧ u.pwr.activeAt + idle * 100000 ≤ u.now ∧ hushOk u none then decideHush u 0 else u

/-- Domains fenced in HUSH, in the order of their fences: every DDR5 channel and media group before the hubs (R184), then PD_INTEG and PD_CORE. -/
def hushFenced (u : Units) : List Nat :=
  (List.range (nDdr u.v)).map pdDram ++ (List.range (nGroups u.v)).map pdMedia ++ [7, 8, 9, 10, 6, 2]

/-- No unit reset is under way, nothing crosses the boundary of a domain that is to be switched off or retained (R183), no die programs, every journal block is durable, no access is queued in a subchannel, and no refresh or back-off under way there (steps 2 to 4, R250). -/
def hushReady (u : Units) : Bool :=
  u.pwr.unitResets.isEmpty && ((hushFenced u).all fun d => (19 ≤ d && d < 35) || quietDomain u d) &&
  ((List.range (nCexus u.v)).all fun n => (List.range 8).all fun d => !(dieOf u n d).pgm) && u.hng.writing.isEmpty &&
  (List.range (nDdr u.v)).all fun ch => [0, 1].all fun k => let x := subOf u ch k; x.rq.isEmpty && x.wq.isEmpty && x.held.isEmpty && x.inflight.isEmpty && x.laid.isEmpty && x.backoffEnd == 0

/-- Domain states of HUSH (Table 16-4). -/
def hushDomains (u : Units) : Units :=
  let u := (hushFenced u).foldl (fun u d => setFence u d true) u
  let u := [7, 8, 9, 10, 6, 2].foldl (fun u d => setPd u d 0) u
  let u := ([3] ++ (List.range (nGroups u.v)).map pdMedia).foldl (fun u d => setPd u d 3) u
  let u := ([4, 5] ++ ((List.range (nDdr u.v)).map pdDram).filter fun d => pdOn u d).foldl (fun u d => setPd u d 2) u
  let u := (((List.range (nDdr u.v)).map pdDram) ++ (List.range (nGroups u.v)).map pdMedia).foldl showPins u
  if inF u F.PWR_CFG_hush_keys_off = 1 then switchOff u 1 else setPd u 1 2

/-- HUSH entry has completed (steps 2 to 5). What has come after the decision wakes the block at once. -/
def hushEntryOp (c : Ctl) (u : Units) : Ctl × Units :=
  if c.mode ≠ .run ∨ u.pwr.hushing = false then (c, u)
  else
    let u := (closePoint u).2
    if hushReady u = false then (c, u)
    else
      let how := (u.pwr.trans.map fun t => t.cause).getD 3
      let u := hushDomains ((List.range (nDdr u.v)).foldl sleepChannel u)
      let u := serviceCause { u with pwr := { u.pwr with hushing := false, trans := none } } .run .hush
      let c := enterMode c .hush how
      let wake := u.pwr.wakeDrain != 0 || !u.pwr.held.isEmpty || (allPorts u).any fun p => !(port u p).reqs.isEmpty
      (c, if wake then wakeNow c u else u)

/-- A notice that arose while the ring engine was held is written with its own time. -/
def lateNotice (u : Units) (n : Notice) : Units :=
  if u.rings.ntEnabledOnce then writeNotice u n
  else if u.rings.ntHeld.length < 16 then { u with rings := { u.rings with ntHeld := u.rings.ntHeld ++ [n] } }
  else loseNotice u

/-- CK restarts and each die that has not failed is asked for its STATUS (Table 16-6 step 3). -/
def wakeDies (u : Units) : Units :=
  (List.range (nCexus u.v)).foldl (fun u n => (liveDies u n).foldl (fun u d => (askStatus u n d).2) u) u

/-- Domains as they stand in RUN again, their fences down, DDR5 channels out of self-refresh (steps 2 to 4 of Table 16-6). -/
def wakeUp (u : Units) : Units :=
  let u := (hushFenced u).foldl (fun u d => if pdOn u d || pdState u d == 2 then setFence u d false else u) u
  let u := u.pd.cells.foldl (fun u x => if x.2 = 2 then setPd u x.1 1 else u) u
  let u := ((List.range (nDdr u.v)).map pdDram).foldl showPins u
  let u := wakeDies ((List.range (nDdr u.v)).foldl wakeChannel u)
  let late := u.pwr.notices
  late.foldl lateNotice { u with pwr := { u.pwr with notices := [], waking := false } }

/-- PD_KEYS was off in HUSH: every slot is empty, and HELLO is sent with cause 1 (R121, R484). -/
def keysUp (c : Ctl) (u : Units) (cause : Nat) : Units := keyWiped (sendHello c (resetKeys u) cause) 0x3FF cause

/-- The wake is over: the block is in RUN, held requests proceed, owed epoch advances are made and moves resume; or DRAIN begins where PWRFAIL_N or the shutdown level woke it. -/
def wakeDoneOp (c : Ctl) (u : Units) : Ctl × Units :=
  if c.mode ≠ .hush ∨ u.pwr.waking = false ∨ u.pwr.rising ≠ [] then (c, u)
  else
    let keys := inF u F.PWR_CFG_hush_keys_off = 1
    let u := wakeUp u
    let u := if keys then keysUp c u 1 else u
    if u.pwr.wakeDrain ≠ 0 then
      let why := u.pwr.wakeDrain
      beginDrain c { u with pwr := { u.pwr with wakeDrain := 0 } } why 0
    else
      let (c, u) := changeMode c u .run 4 0
      let u := settleEpoch c 32 { u with pwr := { u.pwr with activeAt := u.now } }
      (c, pumpAll c (u.hng.active.foldl (fun u i => pumpMove c i 4 u) u))

/-- The wake events that the block knows (R450, R488): a beat, a register access, a doorbell, PWRFAIL_N, a reading at the shutdown level. -/
def wakeOp (c : Ctl) (u : Units) (e : WakeEvent) : Ctl × Units :=
  match e with
  | .header p => (c, if p < nPorts u.v then wakeNow c u else u)
  | .register | .doorbell _ => (c, wakeNow c u)
  | .pwrfail => if c.mode = .hush then pwrfailOp c u else (c, u)
  | .thermal => (c, wakeNow c u)
  | .timer | .key => (c, u)

/-! ### MODE_REQUEST (R464) -/

/-- Target of a MODE_REQUEST. -/
def requestTarget (d : Desc) : Nat := dField d 8 3

/-- A transition into SERVICE is accepted: the clusters are fenced and their ports close. -/
def acceptService (c : Ctl) (u : Units) (r i : Nat) : Ctl × Units :=
  let u := putTrans u (some { target := .service, desc := some (r, i), cause := 2 })
  settleMode c (closeAll c (clusterFences u true))

/-- A transition into RUN is accepted. -/
def acceptRun (c : Ctl) (u : Units) (r i : Nat) : Ctl × Units :=
  settleMode c (raiseClusters (putTrans u (some { target := .run, desc := some (r, i), cause := 2 })))

/-- The way out of DRAIN is open (Table 16-2). -/
def drainLeaves (c : Ctl) (u : Units) : Bool := c.drainDone && !u.pwr.pwrfail && !c.shutdown

/-- DRAIN is left for SERVICE at once. -/
def drainToService (c : Ctl) (u : Units) (r i : Nat) : Ctl × Units :=
  let (c', u) := changeMode { c with drainDone := false } (clusterFences u true) .service 2 2
  (c', complete u r i 0 (modeCode c.mode))

/-- A MODE_REQUEST whose target is no mode in force: what Table 16-2 permits is begun, any other change is rejected. -/
def requestMode (c : Ctl) (u : Units) (r i : Nat) (target : Mode) : Ctl × Units :=
  let no := (c, complete u r i 4)
  match c.mode, target with
  | .run, .hush => if hushOk u (some (r, i)) then (c, decideHush (complete u r i 0 (modeCode c.mode)) 2) else no
  | .run, .service => acceptService c u r i
  | .run, .drain => beginDrain c (putTrans u (some { target := .drain, desc := some (r, i), cause := 2 })) 2 2
  | .service, .drain =>
    if c.failed then no else beginDrain c (putTrans u (some { target := .drain, desc := some (r, i), cause := 2 })) 2 2
  | .service, .run => if c.failed then no else acceptRun c u r i
  | .drain, .run => if drainLeaves c u && !bareDrain c then acceptRun c u r i else no
  | .drain, .service => if drainLeaves c u && (!bareDrain c || (c.failed && c.prev == .service)) then drainToService c u r i else no
  | _, _ => no

/-- One MODE_REQUEST row: begun, it goes on; dispatchable, it is judged in the order of R464. -/
def modeRequestOp (target : Mode) (r i : Nat) (c : Ctl) (u : Units) : Ctl × Units :=
  match findDesc u r i with
  | none => (c, u)
  | some d =>
    if dOp d ≠ 0x33 ∨ requestTarget d ≠ modeCode target then (c, u)
    else if d.begun then settleMode c u
    else if mayBegin c u r i = false then (c, u)
    else if reservedSet d then (c, complete u r i 6)
    else
      let u := putDesc u r { d with begun := true, committed := true }
      if u.pwr.trans.isSome then (c, complete u r i 4)
      else if c.mode = target then (c, complete u r i 0 (modeCode c.mode))
      else requestMode c u r i target

/-! ### Power-up and isolation (R183, R481, R576) -/

/-- Domains that a domain requires (Table 16-3), but for PD_AON. -/
def requires (d : Nat) : List Nat :=
  if 4 ≤ d ∧ d ≤ 10 then [2]
  else if 11 ≤ d ∧ d < 19 then [7, 8, 9, 10]
  else if 19 ≤ d ∧ d < 35 then [pdHub ((d - 19) % 4)]
  else if 35 ≤ d then [pdHub ((d - 35) % 4)]
  else []

/-- PD_UP_REQ and PD_UP_IDX: the domain whose power-up is requested, the first of the eight that wait for which every domain it requires is on (R481, R576). -/
def upRequest (u : Units) : Option Nat := (u.pwr.rising.take 8).find? fun d => (requires d).all fun k => pdOn u k

/-- The domain that PD_UP_ACK answers for is the one requested. -/
def mayRise (u : Units) (d : Nat) : Bool := upRequest u == some d

/-- The domain no longer waits. -/
def risen (u : Units) (d : Nat) : Units := { u with pwr := { u.pwr with rising := u.pwr.rising.filter fun x => x != d } }

/-- A domain powered up from retention in HUSH keeps what it holds, and its fence until the wake is over. -/
def wakeDomain (u : Units) (d : Nat) : Units := showPins (setPd (risen u d) d 1) d

/-- A fenced cluster whose boundary is quiet is isolated and switched off, in SERVICE or where no port of it is enabled (R183, R483). -/
def isolationOp (c : Ctl) (u : Units) (d : Nat) : Units :=
  let k := d - 11
  let idle := (List.range 8).all fun i => (port u (8 * k + i)).state == 0
  if 11 ≤ d ∧ d < 11 + nClusters u.v ∧ pdOn u d ∧ fenced u d ∧ idle ∧ quietDomain u d ∧ (c.mode = .service ∨ (c.mode = .run ∧ (wantedClusters u).contains k = false)) then switchOff u d else u

/-! ### Heat (R494 to R503) -/

/-- The zone a sensor is assigned to. -/
def sensorZone (u : Units) (i : Nat) : Nat := inF u F.PWR_SENSOR_i_zone i

/-- Sensors assigned to a zone. -/
def sensorsOf (u : Units) (z : Nat) : List Nat := (List.range 32).filter fun i => sensorZone u i == z

/-- The event and the notice of heat: zone, sensor, cause, step. -/
def thermReport (u : Units) (zone sensor cause step : Nat) : Units :=
  let p := zone + sensor * 2 ^ 8 + cause * 2 ^ 16 + step * 2 ^ 24
  notice (emitEvent u 0xF zone [BitVec.ofNat 32 p]) 9 p

/-- Step in force of a zone, 0 for an unassigned sensor's. -/
def stepOf (u : Units) (z : Nat) : Nat := if zoneExists u.v z then getF u F.PWR_ZONE_z_STATE_step z else 0

/-- A sensor fails (R501). -/
def failSensor (u : Units) (i : Nat) : Units :=
  let u := flag (flag u F.PWR_SENSOR_i_failed i) F.PWR_ERR_sensor
  thermReport { u with pwr := { u.pwr with sensors := tabPut u.pwr.sensors i { tabGet u.pwr.sensors i with good := 0 } } } (sensorZone u i) i 1 (stepOf u (sensorZone u i))

/-- A reading is good where its valid bit is set and it lies in −40 °C to 150 °C. -/
def goodReading (temp : BitVec 8) (valid : Bool) : Bool := valid && decide (-40 ≤ asSigned temp.toNat)

/-- A reading is taken: a failed sensor is restored by its fourth good reading in a row. -/
def takeReading (u : Units) (i : Nat) (temp : BitVec 8) (valid : Bool) : Units :=
  let u := putF (putF u F.PWR_SENSOR_i_temp i 0 temp.toNat) F.PWR_SENSOR_i_valid i 0 (if valid then 1 else 0)
  let x := tabGet u.pwr.sensors i
  let u := { u with pwr := { u.pwr with sensors := tabPut u.pwr.sensors i { at_ := u.now + 1, good := if goodReading temp valid then x.good + 1 else 0 } } }
  if goodReading temp valid = false then (if getF u F.PWR_SENSOR_i_failed i = 1 then u else failSensor u i)
  else if getF u F.PWR_SENSOR_i_failed i = 1 ∧ 4 ≤ x.good + 1 then
    thermReport (putF u F.PWR_SENSOR_i_failed i 0 0) (sensorZone u i) i 2 (stepOf u (sensorZone u i))
  else u

/-- Every zone of the variant. -/
def zones (u : Units) : List Nat := (List.range 13).filter fun z => zoneExists u.v z

/-- Every zone goes to step 12 at once (R503). -/
def allToTwelve (u : Units) : Units :=
  let u := (zones u).foldl (fun u z =>
    putF (putF { u with pwr := { u.pwr with zones := tabPut u.pwr.zones z { rounds := 0 } } } F.PWR_ZONE_z_STATE_own z 0 12) F.PWR_ZONE_z_STATE_step z 0 12) u
  cause { u with adm := { u.adm with dueSteps := u.adm.dueSteps.map fun _ => 12 } } 2

/-- The shutdown level is reached: latched, reported once, and DRAIN begins; a DRAIN that is done has THERM_OFF at once. -/
def shutdownOp (c : Ctl) (u : Units) (i : Nat) : Ctl × Units :=
  let u := thermReport (allToTwelve u) (sensorZone u i) i 4 12
  let c := { c with shutdown := true }
  if c.mode = .drain then ({ c with thermOff := c.drainDone || c.thermOff }, u) else drainTrigger c u 6

/-- A reading on the thermal port (R494, R501, R503). -/
def thermalOp (c : Ctl) (u : Units) (i : Nat) (temp : BitVec 8) (valid : Bool) : Ctl × Units :=
  if c.mode = .reset ∨ 32 ≤ i then (c, u)
  else
    let u := takeReading u i temp valid
    let hot := goodReading temp valid && getF u F.PWR_SENSOR_i_failed i == 0 && decide (115 ≤ asSigned temp.toNat)
    if hot && !c.shutdown then shutdownOp c u i else (c, u)

/-- An assigned sensor from which no reading has come for `stale` slow rounds has failed; one never read counts from LOAD. -/
def staleCheck (u : Units) (i : Nat) : Units :=
  let x := tabGet u.pwr.sensors i
  let last := if x.at_ = 0 then u.boot.loadAt else x.at_ - 1
  if getF u F.PWR_SENSOR_i_failed i = 0 ∧ inF u F.PWR_THERM_stale * 100000 ≤ u.now - last then failSensor u i else u

/-- Largest of a list. -/
def maxOf : List Int → Option Int
  | [] => none
  | a :: t => some (t.foldl max a)

/-- Valid on-die readings of a zone. -/
def onDie (u : Units) (z : Nat) : List Int :=
  ((sensorsOf u z).filter fun i => getF u F.PWR_SENSOR_i_failed i == 0 && getF u F.PWR_SENSOR_i_valid i == 1).map fun i => asSigned (getF u F.PWR_SENSOR_i_temp i)

/-- Dies of a zone that have been polled and are not failed. -/
def zoneDies (u : Units) (z : Nat) : List (Nat × Nat) :=
  if 8 ≤ z then []
  else (List.range 9).flatMap fun q => ((List.range 8).filter fun d => !dieFailed u (9 * z + q) d && (cex u (9 * z + q)).polled.contains d).map fun d => (9 * z + q, d)

/-- excess(z) of R496 with the stand-ins of R501; none where the zone has no input. -/
def excessOf (u : Units) (z : Nat) : Option Int :=
  let off : Int := inF u F.PWR_THERM_offset
  let bad := (sensorsOf u z).any fun i => getF u F.PWR_SENSOR_i_failed i == 1
  let a : Option Int := (maxOf (onDie u z)).map fun t => (if bad then t + off else t) - inF u F.PWR_ZONE_z_CFG_t_high z
  let b : Option Int := (maxOf ((zoneDies u z).filterMap fun x => dieTemp u x.1 x.2 (inF u F.PWR_THERM_offset))).map fun t => t - (inF u F.PWR_ZONE_z_CFG_t_media z : Int)
  match a, b with
  | some x, some y => some (max x y)
  | some x, none => some x
  | none, y => y

/-- An input of the zone has failed. -/
def inputFailed (u : Units) (z : Nat) : Bool :=
  ((sensorsOf u z).any fun i => getF u F.PWR_SENSOR_i_failed i == 1) || (zoneDies u z).any fun x => getF u F.CEX_n_DIE_d_temp_valid x.1 x.2 == 0

/-- Every assigned sensor has failed, or a media zone has only failed die readings and no valid on-die input (R502). -/
def zoneBlind (u : Units) (z : Nat) : Bool :=
  let s := sensorsOf u z
  let d := zoneDies u z
  (!s.isEmpty && s.all fun i => getF u F.PWR_SENSOR_i_failed i == 1) ||
    (!d.isEmpty && (d.all fun x => getF u F.CEX_n_DIE_d_temp_valid x.1 x.2 == 0) && (onDie u z).isEmpty)

/-- own(z) after a round (R496). -/
def ownAfter (u : Units) (z : Nat) (own rounds : Nat) : Nat :=
  if zoneBlind u z then 12
  else
    match excessOf u z with
    | none => 0
    | some e =>
      if (inF u F.PWR_ZONE_z_CFG_t_crit z : Int) - inF u F.PWR_ZONE_z_CFG_t_high z ≤ e then 12
      else if 0 ≤ e then min (own + 1) 12
      else if e < -(inF u F.PWR_ZONE_z_CFG_hyst z : Int) ∧ inputFailed u z = false ∧ 8 ≤ rounds then own - 1
      else own

/-- A change of a step that is not yet in force starts a recheck (R149, R496). -/
def stepsMoved (u : Units) : Units :=
  if (zones u).any fun z => stepNow u z != getF u F.PWR_ZONE_z_STATE_step z then cause u 2 else u

/-- The state register of a zone after a round: excess, failed, blind and fast. -/
def putZone (u : Units) (z own : Nat) : Units :=
  let e := excessOf u z
  let x := max (-128) (min 127 (e.getD 0))
  let blind := zoneBlind u z
  let was := getF u F.PWR_ZONE_z_STATE_blind z
  let fast := 0 < getF u F.PWR_ZONE_z_STATE_step z ∨ (e.any fun t => decide (-(inF u F.PWR_THERM_fast_band : Int) ≤ t))
  let u := putF (putF u F.PWR_ZONE_z_STATE_excess z 0 (x % 256).toNat) F.PWR_ZONE_z_STATE_own z 0 own
  let u := putF (putF u F.PWR_ZONE_z_STATE_failed z 0 (if inputFailed u z then 1 else 0)) F.PWR_ZONE_z_STATE_fast z 0 (if fast then 1 else 0)
  let u := putF u F.PWR_ZONE_z_STATE_blind z 0 (if blind then 1 else 0)
  if blind ∧ was = 0 then thermReport (flag u F.PWR_ERR_zone_blind) z 0 3 (stepOf u z) else u

/-- The end of a sampling round of a zone; steps are frozen in HUSH. -/
def zoneOp (c : Ctl) (u : Units) (z : Nat) : Units :=
  if c.mode = .reset ∨ c.mode = .hush ∨ zoneExists u.v z = false then u
  else
    let u := (sensorsOf u z).foldl staleCheck u
    let own := getF u F.PWR_ZONE_z_STATE_own z
    let rounds := (tabGet u.pwr.zones z).rounds + 1
    let new := ownAfter u z own rounds
    let u := putZone u z new
    stepsMoved { u with pwr := { u.pwr with zones := tabPut u.pwr.zones z { rounds := if new = own then rounds else 0 } } }

/-- The end of a slow round of the power budget (R499): V72 only, and not in DRAIN, where the budget step is dropped. -/
def budgetOp (c : Ctl) (u : Units) (estimate : Nat) : Units :=
  if u.v ≠ .v72 ∨ c.mode = .reset ∨ c.mode = .hush then u
  else
    let w := min 255 estimate
    let b := inF u F.PWR_BUDGET_watts
    let s := u.pwr.budgetStep
    let judged := b ≠ 0 ∧ c.mode ≠ .drain
    let u := if judged ∧ b < w ∧ s = 12 then flag u F.PWR_ERR_budget else u
    let new := if ¬ judged then s else if b < w then min 12 (s + 1) else if 10 * w < 9 * b then s - 1 else s
    let u := putReg u .PWR_ESTIMATE 0 0 (w + new * 2 ^ 8)
    stepsMoved { u with pwr := { u.pwr with budgetStep := new } }

/-! ### Meanings -/

/-- ISOLATION (R183). -/
def execIsolation (d : Nat) (s : State) : Host.Outcome State Fault Refusal := onU s fun c u => isolationOp c u d

/-- MODE_REQUEST naming RUN (R464). -/
def execModeRequestRun (r i : Nat) (s : State) : Host.Outcome State Fault Refusal := onBoth s (modeRequestOp .run r i)

/-- MODE_REQUEST naming HUSH (R486). -/
def execModeRequestHush (r i : Nat) (s : State) : Host.Outcome State Fault Refusal := onBoth s (modeRequestOp .hush r i)

/-- MODE_REQUEST naming DRAIN (R464). -/
def execModeRequestDrain (r i : Nat) (s : State) : Host.Outcome State Fault Refusal := onBoth s (modeRequestOp .drain r i)

/-- MODE_REQUEST naming SERVICE (R477). -/
def execModeRequestService (r i : Nat) (s : State) : Host.Outcome State Fault Refusal := onBoth s (modeRequestOp .service r i)

/-- HUSH_IDLE_TIMER (R486). -/
def execHushIdleTimer (s : State) : Host.Outcome State Fault Refusal := onU s hushTimerOp

/-- HUSH_ENTRY_COMPLETE (R487). -/
def execHushEntryComplete (s : State) : Host.Outcome State Fault Refusal := onBoth s hushEntryOp

/-- WAKE (R488). -/
def execWake (e : WakeEvent) (s : State) : Host.Outcome State Fault Refusal := onBoth s fun c u => wakeOp c u e

/-- PWRFAIL (R491). -/
def execPwrfail (s : State) : Host.Outcome State Fault Refusal := onBoth s pwrfailOp

/-- PWRFAIL_GLITCH (R491). -/
def execPwrfailGlitch (s : State) : Host.Outcome State Fault Refusal := onU s pwrfailGlitchOp

/-- DRAIN_COMPLETE (R489). -/
def execDrainComplete (s : State) : Host.Outcome State Fault Refusal := onBoth s drainCompleteOp

/-- THERMAL_READING (R494). -/
def execThermalReading (sensor : Nat) (temp : BitVec 8) (valid : Bool) (s : State) : Host.Outcome State Fault Refusal :=
  onBoth s fun c u => thermalOp c u sensor temp valid

/-- ZONE_EVALUATE (R496). -/
def execZoneEvaluate (z : Nat) (s : State) : Host.Outcome State Fault Refusal := onU s fun c u => zoneOp c u z

/-- BUDGET_EVALUATE (R499). -/
def execBudgetEvaluate (estimate : Nat) (s : State) : Host.Outcome State Fault Refusal := onU s fun c u => budgetOp c u estimate

end Sys2Proof.Machine
end

