-- ==== Sys2Proof/Machine/Latch.lean ====
section
/-! DEFINITION. The latch: which values it takes and refuses, the switch of banks and epoch, what a new configuration does to ports, rings, shares and clusters, the outcome of a recheck, and the ledger audit (R68, R146, R150, R154 to R156, R206, R210, R217, R435 to R441, R474, R483, R553 to R557). -/

namespace Sys2Proof.Machine

/-! ### Values taken and refused (R553) -/

/-- Register-staged values are taken: GLB_LATCH_CTRL.hold is 0. -/
def taking (u : Units) : Bool := getF u F.GLB_LATCH_CTRL_hold == 0

/-- The value of a register that the copy phase takes: its RWS bits from the staged copy, or with hold at 1 the value in force. -/
def taken (u : Units) (r : Reg) (i : Nat) (j : Nat := 0) : Nat :=
  let old := bankReg u u.regs.epoch r i j
  if taking u then (stagedReg u r i j &&& r.info.rws) ||| (old ^^^ (old &&& r.info.rws)) else old

/-- A field of the value taken. -/
def takenF (u : Units) (f : Fld) (i : Nat := 0) (j : Nat := 0) : Nat := nbits (taken u f.reg i j) f.lo f.w

/-- Sum of the four pool counts of a word. -/
def poolSum (w : Nat) : Nat := nbits w 0 8 + nbits w 8 8 + nbits w 16 8 + nbits w 24 8

/-- A credit division fits the slots of a port (R66). -/
def divisionFits (u : Units) (p : Nat) : Bool := poolSum (taken u .PORT_n_CREDIT_HDR p) ≤ 128 && poolSum (taken u .PORT_n_CREDIT_DATA p) ≤ 192

/-- Lowest ages of buckets 0 to 7 from both words (R374). -/
def bucketBounds (lo hi : Nat) : List Nat := [0] ++ ((List.range 6).map fun b => nbits lo (5 * b) 5) ++ [nbits hi 0 5]

/-- Bounds rise strictly, and no bucket from 0 to 6 is narrower than the one before it. -/
def boundsOk (l : List Nat) : Bool :=
  let w := (List.range 7).map fun b => l.getD (b + 1) 0 - l.getD b 0
  ((List.range 7).all fun b => l.getD b 0 < l.getD (b + 1) 0) && (List.range 6).all fun b => w.getD b 0 ≤ w.getD (b + 1) 0

/-- A reroll age suits the bound of bucket 7. -/
def rerollOk (l7 age : Nat) : Bool := l7 + 1 ≤ age && age ≤ 30

/-- The new age bounds are taken: they are legal, and the reroll age taken or the one in force suits them. -/
def boundsTaken (u : Units) : Bool :=
  let lo := taken u .DRF_BKT_LO 0
  let hi := taken u .DRF_BKT_HI 0
  boundsOk (bucketBounds lo hi) && (rerollOk (nbits hi 0 5) (nbits hi 5 5) || rerollOk (nbits hi 0 5) (inF u F.DRF_BKT_HI_reroll_age))

/-- Half the staging capacity in units of 64 MiB; no limit before MOUNT has read the geometry. -/
def halfCapacity (u : Units) : Nat :=
  if u.stg.rowsLog2 = 0 then 2048
  else 2 ^ setsLog2 u * ((List.range (nDdr u.v)).filter fun c => pdOn u (pdDram c)).length / 131072

/-- The value that reaches the bank: each field that its rule refuses keeps its value in force. -/
def admitted (u : Units) (r : Reg) (i : Nat) (j : Nat := 0) : Nat :=
  let old := bankReg u u.regs.epoch r i j
  let x := taken u r i j
  let keep := fun (bad : Bool) (lo w x : Nat) => if bad then nput x lo w (nbits old lo w) else x
  let all := fun (bad : Bool) => if bad then old else x
  match r with
  | .PORT_n_CREDIT_HDR | .PORT_n_CREDIT_DATA => all (!divisionFits u i)
  | .RGL_PORT_p_CLASS => keep (nbits x 2 2 == 3) 2 2 x
  | .RGL_PORT_p_TOKEN_2 | .RGL_PORT_p_TOKEN_3 => keep (nbits x 16 10 == 0) 16 10 x
  | .STG_BUDGET => all (nbits x 0 13 == 0 || decide (min 2048 (halfCapacity u) < nbits x 0 13))
  | .HNG_WEAR => keep (nbits x 0 16 == 0) 0 16 x
  | .HNG_CKPT => keep (nbits x 0 24 == 0) 0 24 x
  | .DRF_CFG => keep (nbits x 16 5 == 0) 16 5 (keep (nbits x 0 16 == 0) 0 16 x)
  | .DRF_BKT_LO => all (!boundsTaken u)
  | .DRF_BKT_HI =>
    let y := keep (!boundsTaken u) 0 5 x
    keep (!rerollOk (nbits y 0 5) (nbits y 5 5)) 5 5 y
  | .DRF_WEAR => all (!(nbits x 0 8 < nbits x 8 8 && nbits x 8 8 < nbits x 16 8))
  | .INT_CFG => keep (nbits x 8 8 == 0) 8 8 x
  | .RNG_r_SQ_BASE_LO | .RNG_r_SQ_BASE_HI | .RNG_r_CQ_BASE_LO | .RNG_r_CQ_BASE_HI => all ((ring u i).state != 0)
  | .RNG_r_CFG =>
    let bad := fun (k was : Nat) => decide (k < 4) || decide (16 < k) || ((ring u i).state != 0 && k != was)
    keep (bad (nbits x 9 5) (nbits old 9 5)) 9 5 (keep (bad (nbits x 4 5) (nbits old 4 5)) 4 5 x)
  | .RNG_NT_BASE_LO | .RNG_NT_BASE_HI => all (u.rings.ntState != 0)
  | .RNG_NT_CFG => keep (decide (nbits x 4 5 < 4) || decide (16 < nbits x 4 5) || (u.rings.ntState != 0 && nbits x 4 5 != nbits old 4 5)) 4 5 x
  | .PWR_ZONE_z_CFG =>
    let bad := decide (nbits x 12 8 ≤ nbits x 0 8)
    keep bad 12 8 (keep bad 0 8 x)
  | .PWR_SENSOR_i => keep (nbits x 0 4 != 15 && !zoneExists u.v (nbits x 0 4)) 0 4 x
  | .TELE_HIST_CFG_p => all (if nbits x 0 1 = 0 then nbits x 20 8 == 0 else nbits x 8 12 == 0)
  | _ => x

/-- The error flag of the registers that have a refusal rule. -/
def refusalFlag : Reg → Option Fld
  | .PORT_n_CREDIT_HDR | .PORT_n_CREDIT_DATA => some F.PORT_n_ERR_credit_cfg
  | .RGL_PORT_p_CLASS => some F.RGL_ERR_c2_prio_cfg
  | .RGL_PORT_p_TOKEN_2 | .RGL_PORT_p_TOKEN_3 => some F.RGL_ERR_token_cfg
  | .STG_BUDGET => some F.STG_ERR_budget_cfg
  | .HNG_WEAR | .HNG_CKPT => some F.HNG_ERR_cfg
  | .DRF_CFG | .DRF_BKT_LO | .DRF_BKT_HI | .DRF_WEAR => some F.DRF_ERR_cfg
  | .INT_CFG => some F.INT_ERR_cfg
  | .RNG_r_SQ_BASE_LO | .RNG_r_SQ_BASE_HI | .RNG_r_CQ_BASE_LO | .RNG_r_CQ_BASE_HI | .RNG_r_CFG => some F.RNG_r_ERR_cfg
  | .RNG_NT_BASE_LO | .RNG_NT_BASE_HI | .RNG_NT_CFG => some F.RNG_NT_ERR_cfg
  | .PWR_ZONE_z_CFG | .PWR_SENSOR_i => some F.PWR_ERR_cfg
  | .TELE_HIST_CFG_p => some F.TELE_ERR_cfg
  | _ => none

/-- The value written into the bank: PWR_THERM.stale of 0 is kept as 1. -/
def banked (u : Units) (r : Reg) (i : Nat) (j : Nat := 0) : Nat :=
  let x := admitted u r i j
  if r = .PWR_THERM ∧ nbits x 16 4 = 0 then nput x 16 4 1 else x

/-- A register of which a field has been refused: its staged copy is set to what the bank takes, and its flag is set. -/
def noteRefusal (u : Units) (old : Units) (a : Nat) : Units :=
  match regAt a with
  | none => u
  | some (r, i, j) =>
    let x := banked old r i j
    if x = taken old r i j then u
    else
      let u := putStaged u r i j ((stagedReg old r i j ^^^ (stagedReg old r i j &&& r.info.rws)) ||| (x &&& r.info.rws))
      if admitted old r i j = taken old r i j then u
      else
        match refusalFlag r with
        | none => u
        | some f =>
          let one := f.reg.info.n1.full == 1
          flag u f (if one then 0 else i)

/-! ### Changes staged by descriptors -/

/-- One CHANGESET entry goes into a bank: the class field of a class register, any other register whole. MNT_FLOOR has its own store. -/
def putEntryIn (v : Variant) (t : Tab Word) (e : Nat × Word) : Tab Word :=
  if e.1 = floorAddr then t
  else
    match regAt e.1 with
    | none => t
    | some (r, i, _) =>
      let d := BitVec.ofNat 32 (regReset v r i)
      let x := if r = .RGL_PORT_p_CLASS then BitVec.ofNat 32 (nput (tabGetD t e.1 d).toNat 0 2 (e.2.toNat % 4)) else e.2
      tabPutD t e.1 d x

/-- Position pos is served by slice s in a bank. -/
def putHome (v : Variant) (t : Tab Word) (pos s : Nat) : Tab Word :=
  let r : Reg := if pos < 8 then .STG_HOME_LO else .STG_HOME_HI
  let d := BitVec.ofNat 32 (regReset v r 0)
  tabPutD t (regAddr r 0 0) d (BitVec.ofNat 32 (nput (tabGetD t (regAddr r 0 0) d).toNat (4 * (pos % 8)) 4 s))

/-- Step 2 or step 5 of Table 6-8 waits for the next latch. -/
def evacStep (u : Units) : Bool :=
  let k := u.stg.evacCh
  !u.stg.evacHold && ((u.stg.evac == 1 && decide ((slice u k).dirty ≤ 256)) || (u.stg.evac == 3 && decide (dirtyAt u (k ^^^ 1) k ≤ 256)))

/-- The bank that the copy phase writes. -/
def newBank (u : Units) : Tab Word :=
  let addrs := (tabKeys u.regs.staged ++ tabKeys (bankOf u.regs u.regs.epoch)).eraseDups
  let t := addrs.foldl (fun (t : Tab Word) a =>
    match regAt a with
    | none => t
    | some (r, i, j) => tabPutD t a (BitVec.ofNat 32 (regReset u.v r i)) (BitVec.ofNat 32 (banked u r i j))) tabNil
  let t := u.regs.descStaged.foldl (putEntryIn u.v) t
  if evacStep u then putHome u.v t u.stg.evacCh (if u.stg.evac = 1 then u.stg.evacCh ^^^ 1 else u.stg.evacCh) else t

/-- Banked changes wait for a latch (R435, R554). -/
def changesWait (u : Units) : Bool :=
  (u.regs.pending && taking u) || !u.regs.descStaged.isEmpty || !u.ctxStaged.isEmpty || !u.adm.tables.isEmpty || u.regs.banked || evacStep u

/-- Turn-table images that a latch brings in govern from the next round (R224, R311). -/
def bringTables (u : Units) : Units :=
  u.adm.tables.foldl (fun u t =>
    t.2.1.foldl (fun u ch =>
      if t.1 then setGrp u (ch / 9) { grp u (ch / 9) with nextTable := tabPut (grp u (ch / 9)).nextTable (ch % 9) t.2.2 }
      else setDdr u ch { ddr u ch with nextTable := some t.2.2 }) u) u

/-- Context records of the new epoch: those in force with the staged ones over them (R98). -/
def bringContexts (u : Units) : Units :=
  let old := if u.regs.epoch % 2 = 0 then u.ctxEven else u.ctxOdd
  let new := u.ctxStaged.foldl (fun (t : Tab (BitVec 160)) e => tabPutD t e.1 0 e.2) old
  if u.regs.epoch % 2 = 0 then { u with ctxOdd := new, ctxStaged := [] } else { u with ctxEven := new, ctxStaged := [] }

/-- Both phases of an advancing latch: refusals, the copy into the other bank, and the switch to the next epoch. -/
def switchBanks (u : Units) : Units :=
  let t := newBank u
  let noted := if taking u then (tabKeys u.regs.staged).foldl (fun w a => noteRefusal w u a) u else u
  let e := (u.regs.epoch + 1) % 4
  let floors := applyFloors u.v u.regs.descStaged u.adm.floors
  let evac := evacStep u
  let w := bringContexts (bringTables noted)
  let g := if e % 2 = 0 then { w.regs with bankA := t } else { w.regs with bankB := t }
  let w := { w with regs := { g with epoch := e, pending := g.pending && !taking u, banked := false, descStaged := [],
                                     deferred := false, defers := 0, lateSeen := false, advances := g.advances + 1 } }
  let w := { w with adm := { w.adm with tables := [], floors := floors }, stg := { w.stg with evacHold := w.stg.evacHold || evac, evacAt := if evac then w.regs.advances else w.stg.evacAt } }
  count (keysAtLatch w) (cCore 3)

/-! ### What the new configuration does -/

/-- A pool's full count has changed by a latch (R68): an increase first takes back what is still to be withheld and is then returned as extra credits; a decrease leaves as many returns to be withheld, each once the sender would hold more than the new count (freeHdr, freeData). -/
def creditsMoved (u : Units) (p pool : Nat) (data : Bool) (old new : Nat) : Units :=
  let q := port u p
  let hold := tabGet (if data then q.dataHold else q.hdrHold) pool
  let back := min hold (new - old)
  let more := new - old - back
  let hold' := hold - back + (old - new)
  let cred := tabGet (if data then q.dataCred else q.hdrCred) pool + more
  let u := setPort u p (if data then { q with dataHold := tabPut q.dataHold pool hold', dataCred := tabPut q.dataCred pool cred }
                        else { q with hdrHold := tabPut q.hdrHold pool hold', hdrCred := tabPut q.hdrCred pool cred })
  giveCredits u p pool data more

/-- Every pool of an open port. -/
def portCredits (old u : Units) (p : Nat) : Units :=
  if (port u p).state ≠ 2 then u
  else (List.range 4).foldl (fun u k =>
    creditsMoved (creditsMoved u p k false (hdrFull old p k) (hdrFull u p k)) p k true (dataFull old p k) (dataFull u p k)) u

/-- The level of a bucket after a latch (R156): none while unlimited, full where unlimited ends, else clipped at the new depth, a debt being kept. -/
def levelAfter (old u : Units) (p k : Nat) : Int :=
  let l := levelOf (port u p) k
  if bucketUnlimited u p k then 0
  else if bucketUnlimited old p k then bucketDepth u p k * 16
  else min l (bucketDepth u p k * 16 : Int)

/-- Levels of a port, a closed one with a level or a debt included. -/
def portLevels (old u : Units) (p : Nat) : Units :=
  let q := port u p
  if (q.state = 0 ∨ q.state = 1) ∧ q.level.cells = [] then u
  else setPort u p { q with level := (List.range 4).foldl (fun t k => tabPutD t k 0 (levelAfter old u p k)) q.level }

/-- Requests at the bucket of a regular port move into the queue of its new class, and C2 requests not yet injected take the new priority (R154, R155). -/
def portClasses (u : Units) (p : Nat) : Units :=
  let q := port u p
  let f := fun (r : Req) =>
    let r := if r.phase = .bucket ∧ r.label = false then { r with cls := portClass u p } else r
    if (r.phase = .check ∨ r.phase = .ready) ∧ r.epoch.isSome ∧ r.cls = 2 then { r with prio := classPrio u p 2 } else r
  if q.reqs = [] then u else setPort u p { q with reqs := q.reqs.map f }

/-- A port whose enable has changed opens in RUN, or closes (Table 2-3); one that is still closing opens again once it is closed. -/
def portEnable (c : Ctl) (u : Units) (p : Nat) : Units :=
  let q := port u p
  if inF u F.PORT_n_CFG_enable p = 0 then portClosing c u p false
  else if c.mode ≠ .run ∨ u.pwr.trans.any (fun t => t.target == .service) then u
  else if q.state = 3 then setPort u p { q with reopen := true }
  else if pdOn u (pdCluster (p / 8)) then portOpening u p
  else u

/-- One port after an advancing latch. -/
def portLatched (c : Ctl) (old u : Units) (p : Nat) : Units :=
  let u := portClasses (portLevels old (portCredits old u p) p) p
  if inF old F.PORT_n_CFG_enable p = inF u F.PORT_n_CFG_enable p then u else portEnable c u p

/-- Clusters in RUN (R483): one that is wanted is switched on or loses the fence of a switch-off not yet made, one that is not wanted is fenced. -/
def clustersLatched (c : Ctl) (u : Units) : Units :=
  if c.mode ≠ .run ∨ u.pwr.trans.any (fun t => t.target == .service) then u
  else
    (List.range (nClusters u.v)).foldl (fun u k =>
      let d := pdCluster k
      let want := (wantedClusters u).contains k
      if want && !pdOn u d then (if u.pwr.rising.contains d then u else { u with pwr := { u.pwr with rising := u.pwr.rising ++ [d] } })
      else if want then setFence u d false
      else fenceIdle c u k) u

/-- Rings whose enable has changed (R468, R474). -/
def ringLatched (c : Ctl) (old u : Units) (r : Nat) : Units :=
  let on := inF u F.RNG_r_CFG_enable r = 1
  if inF old F.RNG_r_CFG_enable r = inF u F.RNG_r_CFG_enable r ∨ pdOn u 4 = false then u
  else if on then (if (ring u r).state = 0 then setRing u r { state := 1 } else u)
  else ringResetOp c u r

/-- The notice ring after a latch. -/
def noticesLatched (old u : Units) : Units :=
  if inF old F.RNG_NT_CFG_enable = inF u F.RNG_NT_CFG_enable ∨ pdOn u 4 = false then u
  else if inF u F.RNG_NT_CFG_enable = 1 then (if u.rings.ntState = 0 then enableNotices u else u)
  else ntResetOp { u with rings := { u.rings with ntState := 0 } }

/-- Everything that a new configuration changes at once. -/
def configLatched (c : Ctl) (old u : Units) : Units :=
  let u := clustersLatched c u
  let u := (allPorts u).foldl (portLatched c old) u
  let u := if inF old F.STG_BUDGET_units = inF u F.STG_BUDGET_units then u else putShares u
  let u := if inF old F.RGL_BW_WINDOW_rounds = inF u F.RGL_BW_WINDOW_rounds then u else restartWindow u
  let u := if inF old F.HNG_CFG_reserve = inF u F.HNG_CFG_reserve then u else { u with hng := { u.hng with lowArmed := true } }
  let u := (allPorts u).foldl (fun u p =>
    if bankReg old old.regs.epoch .TELE_HIST_CFG_p p = bankReg u u.regs.epoch .TELE_HIST_CFG_p p then u else restartHistogram u p) u
  let u := { u with tele := { u.tele with high := u.tele.high.filter fun n => inF old F.TELE_CSEL_n_level n == inF u F.TELE_CSEL_n_level n } }
  let u := (List.range 64).foldl (ringLatched c old) u
  noticesLatched old u

/-! ### Descriptors that wait for the latch -/

/-- A descriptor whose change has come into force completes; a CTX_CLOSE has committed (R103). -/
def descLatched (u : Units) (x : Nat × Desc) : Units :=
  match x.2.atLatch with
  | some st => complete u x.1 x.2.idx st x.2.r0 x.2.r1
  | none => if dOp x.2 = 3 ∧ x.2.committed = false then putDesc u x.1 { x.2 with committed := true } else u

/-! ### The outcome of a recheck (R150, R151, R153) -/

/-- Steps of the zones that the outcome brings into force, each change reported (R496). -/
def bringSteps (u : Units) : Units :=
  (zones u).foldl (fun u z =>
    let s := u.adm.dueSteps.getD z (getF u F.PWR_ZONE_z_STATE_step z)
    if s = getF u F.PWR_ZONE_z_STATE_step z then u else thermReport (putF u F.PWR_ZONE_z_STATE_step z 0 s) z 0 0 s) u

/-- The outcome of this latch round comes into force: that of the recheck, made against the configuration now in force, or a fit where a descriptor has brought a configuration in. -/
def bringOutcome (c : Ctl) (u : Units) (fresh : Bool) : Units :=
  if u.adm.due ≠ 0 then
    let u := if fresh || u.adm.result.isNone then recheckOp c u else u
    let r := u.adm.result.getD {}
    let u := count (bringSteps u) (cCore 16)
    putBounds (putOutcome u r u.adm.due) (planNow u) r
  else if fresh then putBounds (putOutcome u {} 0) (planNow u) {}
  else u

/-- The causes gathered since the last latch are rechecked in the round that begins. -/
def nextRound (u : Units) : Units :=
  { u with adm := { u.adm with due := u.adm.gathered, gathered := 0, result := none, dueSteps := (List.range 13).map fun z => stepNow u z } }

/-! ### The ledger (R437 to R441) -/

/-- LDG_STATE. -/
def ldgState (u : Units) : Nat :=
  u.regs.epoch % 4 + (if oldLive u then 4 else 0) + (if u.regs.deferred then 8 else 0) + min u.regs.defers 4095 * 16

/-- A deferred latch: it is counted, and the 256th in a row reports itself. -/
def deferLatch (u : Units) : Units :=
  let n := u.regs.defers + 1
  let u := count { u with regs := { u.regs with deferred := true, defers := n } } (cCore 4)
  if 256 ≤ n ∧ u.regs.lateSeen = false then
    emitEvent (flag { u with regs := { u.regs with lateSeen := true } } F.LDG_ERR_latch_late) 0xD 0 [BitVec.ofNat 32 (ldgState u)]
  else u

/-- Left side less right side of the invariants of a port (1, 2 and 4), with their instances. In invariant 2 the returns still to be withheld stand on the right, since the sender's count is the one it really holds. -/
def auditPorts (u : Units) : List (Nat × Nat × Int) × List (Nat × Nat × Int) × List (Nat × Nat × Int) :=
  let ps := allPorts u
  let occ := fun (q : Port) (k : Nat) => (q.reqs.filter fun r => r.hdrSlot && r.pool == k).length
  let occD := fun (q : Port) (k : Nat) => (q.reqs.map fun r => (r.dataPools.filter fun x => x == k).length).sum
  (ps.map fun p => let q := port u p; (1, p, (q.accepted : Int) - q.done - q.reqs.length),
   ps.flatMap fun p => let q := port u p
     if q.state ≠ 2 then [] else (List.range 4).flatMap fun k =>
      [(2, 4 * p + k, ((tabGet q.hdrCred k + occ q k : Nat) : Int) - (tabGet q.hdrHold k + hdrFull u p k : Nat)),
       (2, 4 * p + k, ((tabGet q.dataCred k + occD q k : Nat) : Int) - (tabGet q.dataHold k + dataFull u p k : Nat))],
   ps.flatMap fun p => let q := port u p
     if q.state ≠ 2 then [] else (List.range 4).map fun k =>
      (4, 4 * p + k, if levelOf q k < -4096 then levelOf q k + 4096 else max 0 (levelOf q k - bucketDepth u p k * 16)))

/-- Tickets held beyond the size of their pool (invariant 3). -/
def auditTickets (u : Units) : List (Nat × Nat × Int) :=
  u.tickets.cells.map fun t => (3, t.1 % 256 + nbits t.1 8 8 * 256 + t.1 / 65536 * 65536, max 0 ((t.2 : Int) - (poolSize t.1).1))

/-- Sum of a table. -/
def tabSum (t : Tab Nat) : Nat := (t.cells.map fun x => x.2).sum

/-- Counts of the slices (invariants 5 and 6). -/
def auditSlices (u : Units) : List (Nat × Nat × Int) :=
  (List.range (nDdr u.v)).flatMap fun s =>
    let x := slice u s
    [(5, s, (x.dirty : Int) - tabSum x.tally), (5, s, (x.dirty : Int) - tabSum x.epochs), (5, s, max 0 ((x.dirty : Int) + booked u s - x.ceiling))]

/-- Outstanding-write counts of contexts (invariant 7). -/
def auditWrites (u : Units) : List (Nat × Nat × Int) :=
  let cached := u.cache.cells.flatMap fun x => x.2.map fun e => e.handle
  let live := u.ports.cells.flatMap fun p => (p.2.reqs.filter fun r => r.counted).map fun r => hCtx r.hdr
  (sortedBy (fun a b => decide (a ≤ b)) (cached ++ live).eraseDups).map fun h =>
    (7, h, (((List.range (nClusters u.v)).map fun k => shareOf u k h).sum : Int) - (live.filter fun x => x == h).length)

/-- The first invariant that fails, if any. Invariants 6, 8, 9 and 10 relate a figure that the model computes from the counts themselves. -/
def auditFind (u : Units) : Option (Nat × Nat × Int) :=
  let (a, b, d) := auditPorts u
  (a ++ b ++ auditTickets u ++ d ++ auditSlices u ++ auditWrites u).find? fun x => x.2.2 != 0

/-- A LEDGER_AUDIT at a latch: its sample, then its result (R440, R441). -/
def auditLatched (u : Units) : Units :=
  match u.audit with
  | none => u
  | some a =>
    if a.stage = 0 then { u with audit := some { a with stage := 1, found := auditFind u } }
    else
      let u := { u with audit := none }
      match a.found with
      | none => complete (putReg u .LDG_AUDIT 0 0 1) a.ring a.idx 0
      | some (inv, inst, diff) =>
        let d := (diff % 2 ^ 32).toNat
        let u := putReg (putReg (putReg u .LDG_AUDIT 0 0 (3 + inv * 4)) .LDG_AUDIT_INST 0 0 inst) .LDG_AUDIT_DIFF 0 0 d
        complete (blockFault (flag u F.LDG_ERR_mismatch) 4 0 inv 0) a.ring a.idx 8 (inv + inst * 2 ^ 16) d

/-! ### The latch -/

/-- An advancing latch: banks and epoch are switched, and the new configuration has its effects. -/
def advanceLatch (c : Ctl) (u : Units) : Units :=
  let fresh := !u.regs.descStaged.isEmpty || !u.adm.tables.isEmpty
  let waiting := underWay u
  let new := configLatched c u (switchBanks u)
  bringOutcome c (waiting.foldl descLatched new) fresh

/-- LATCH: advancing, deferred, or neither; in each case the outcome of the recheck comes into force and an audit goes on, but a deferred latch brings no banked change. -/
def latchOp (c : Ctl) (u : Units) : Units :=
  let want := changesWait u
  let u :=
    if want && oldLive u then bringOutcome c (deferLatch u) false
    else if want then advanceLatch c u
    else bringOutcome c { u with regs := { u.regs with deferred := false, defers := 0 } } false
  pumpAll c (nextRound (auditLatched u))

/-- Latches are made: PD_CORE is on, and RST_N is high (R552). -/
def latches (c : Ctl) (u : Units) : Bool := pdOn u 2 && c.mode != .reset

end Sys2Proof.Machine
end

