-- ==== Sys2Proof/Machine/Image.lean ====
section
/-! DEFINITION. The boot image and the life-cycle record as bytes: headers, directories, sections, the checks of a copy, and the record's form (R508 to R511, R516). -/

namespace Sys2Proof.Machine

/-! ### Bytes of the serial memory -/

/-- A copy, or a record slot, as the device gives it. -/
abbrev Bytes := List (BitVec 8)

/-- n bytes from k as numbers; a byte that the operand does not list reads as 0xFF, as an erased one does. -/
def imgBytes (l : Bytes) (k n : Nat) : List Nat :=
  let x := ((l.drop k).take n).map fun b => b.toNat
  x ++ List.replicate (n - x.length) 0xFF

/-- n bytes from k as one little-endian number. -/
def imgNum (l : Bytes) (k n : Nat) : Nat := fromBytes (imgBytes l k n)

/-! ### The header and the directory (Tables 17-2, 17-3) -/

/-- Length of a copy. -/
def imgLength (l : Bytes) : Nat := imgNum l 12 4
/-- Sequence of a copy. -/
def imgSeq (l : Bytes) : Nat := imgNum l 8 4
/-- Version of a copy. -/
def imgVersion (l : Bytes) : Nat := imgNum l 16 4
/-- Sections of a copy. -/
def imgSections (l : Bytes) : Nat := imgNum l 7 1

/-- A directory entry. -/
structure DirEntry where
  typ : Nat := 0
  zero : Nat := 0
  off : Nat := 0
  len : Nat := 0
  crc : Nat := 0
deriving DecidableEq, Repr, Inhabited

/-- Directory entry i. -/
def dirEntry (l : Bytes) (i : Nat) : DirEntry :=
  let a := 32 + 16 * i
  { typ := imgNum l a 1, zero := imgNum l (a + 1) 3, off := imgNum l (a + 4) 4, len := imgNum l (a + 8) 4, crc := imgNum l (a + 12) 4 }

/-- The entries in use. -/
def directory (l : Bytes) : List DirEntry := (List.range (imgSections l)).map fun i => dirEntry l i

/-- A section's length suits its type. -/
def lengthOk (typ len : Nat) : Bool :=
  match typ with
  | 1 => len == 8
  | 2 => len == 24
  | 3 => len == 8
  | 4 => len == 16
  | 5 => len == 136
  | 6 => len % 8 == 0 && 8 ≤ len && len ≤ 2048
  | 7 => len % 8 == 0 && 8 ≤ len && len ≤ 8192
  | _ => false

/-- No two entries share a byte. -/
def apart : List DirEntry → Bool
  | [] => true
  | e :: t => (t.all fun f => e.off + e.len ≤ f.off || f.off + f.len ≤ e.off) && apart t

/-- The directory keeps R508 and R509: each entry lies in the copy, aligned and apart from the others, with a type and length of Table 17-3; types 1, 2, 4 and 5 appear once, 3, 6 and 7 at most once. -/
def directoryOk (l : Bytes) : Bool :=
  let d := directory l
  let times := fun (t : Nat) => (d.filter fun e => e.typ == t).length
  (d.all fun e => e.zero == 0 && 256 ≤ e.off && e.off % 4 == 0 && e.off + e.len ≤ imgLength l && lengthOk e.typ e.len) && apart d &&
    ([1, 2, 4, 5].all fun t => times t == 1) && [3, 6, 7].all fun t => times t ≤ 1

/-- The check of bytes 0 to 27 and 32 to 255. -/
def headerCrc (l : Bytes) : Nat := crc32c (imgBytes l 0 28 ++ imgBytes l 32 224)

/-- Codes 2 to 6 of Table 17-4, 0 where the header passes them. -/
def headerCode (v : Variant) (l : Bytes) : Nat :=
  let unused := imgBytes l (32 + 16 * imgSections l) (16 * (14 - imgSections l))
  if imgNum l 0 4 ≠ 0x594C4853 then 2
  else if imgNum l 4 2 ≠ 1 ∨ 8 ≤ imgNum l 6 1 ∨ imgSections l = 0 ∨ 14 < imgSections l ∨ imgNum l 20 8 ≠ 0 ∨ imgLength l % 4096 ≠ 0 ∨ 524288 < imgLength l ∨ (unused.any fun b => b != 0) then 3
  else if nbits (imgNum l 6 1) (variantCode v - 1) 1 = 0 then 4
  else if imgNum l 28 4 ≠ headerCrc l then 5
  else if directoryOk l = false then 6
  else 0

/-! ### Sections -/

/-- Bytes of the section of a type, empty where the copy has none. -/
def sectionOf (l : Bytes) (typ : Nat) : Bytes :=
  match (directory l).find? fun e => e.typ == typ with
  | some e => (l.drop e.off).take e.len
  | none => []

/-- The section is there. -/
def hasSection (l : Bytes) (typ : Nat) : Bool := !(sectionOf l typ).isEmpty

/-- Address and value pairs of a REGULATION or REGISTERS section. -/
def pairsOfSection (x : Bytes) : List (Nat × Word) :=
  (List.range (x.length / 8)).map fun k => (imgNum x (8 * k) 4, BitVec.ofNat 32 (imgNum x (8 * k + 4) 4))

/-- An RWS register of the variant. -/
def stagedAddr (v : Variant) (a : Nat) : Bool :=
  match regAt a with
  | none => false
  | some (r, i, j) => r.info.rws != 0 && i < r.info.n1.count v && j < r.info.n2.count v

/-- Every section's fields lie in their ranges (code 8). -/
def fieldsOk (v : Variant) (l : Bytes) : Bool :=
  let g := sectionOf l 1
  let d := sectionOf l 2
  let f := sectionOf l 4
  let t := sectionOf l 5
  let code := fun (b : Nat) => nbits (imgNum f 0 4) (4 * b) 4
  (imgNum g 4 1 < nStripes v && imgNum g 5 3 == 0) &&
  (imgNum d 0 1 ≤ 10 && imgNum d 1 1 ≤ 2 && imgNum d 2 1 ≤ 1 && 13 ≤ imgNum d 3 1 && imgNum d 3 1 ≤ 18 && imgNum d 4 1 ≤ 15 && imgNum d 5 3 == 0 &&
    schedOk (imgNum d 16 4) && thermOk (imgNum d 20 4)) &&
  ((List.range 7).all fun b => code (b + 1) ≤ code b + 1) &&
  ((List.range 64).all fun i => tableEntryOk false i (imgNum t i 1)) && ((List.range 72).all fun i => tableEntryOk true i (imgNum t (64 + i) 1)) &&
  ((pairsOfSection (sectionOf l 6)).all fun e => entryOk v e) && (pairsOfSection (sectionOf l 7)).all fun e => stagedAddr v e.1

/-- The code of a copy (R510): the first check of Table 17-4 that fails, 0 for a valid copy. -/
def copyCode (v : Variant) (l : Bytes) : Nat :=
  let h := headerCode v l
  if h ≠ 0 then h
  else if (directory l).any fun e => e.crc != crc32c (imgBytes l e.off e.len) then 7
  else if fieldsOk v l = false then 8
  else 0

/-! ### Taking a copy (R511) -/

/-- What LOAD finds: the copy in use (0 A, 1 B) if one is valid, whether the other one had to be read, and both codes. -/
structure Taken where
  copy : Option Nat := none
  fallback : Bool := false
  codeA : Nat := 0
  codeB : Nat := 0
deriving DecidableEq, Repr, Inhabited

/-- The copy of higher sequence among those whose header passes is taken, A where they are equal; the other one is read where it then fails. -/
def takeCopy (v : Variant) (a b : Bytes) : Taken :=
  let ha := headerCode v a
  let hb := headerCode v b
  if ha ≠ 0 ∧ hb ≠ 0 then { codeA := ha, codeB := hb }
  else if hb = 0 ∧ (ha ≠ 0 ∨ imgSeq a < imgSeq b) then
    let cb := copyCode v b
    if cb = 0 then { copy := some 1, codeA := if ha = 0 then 1 else ha }
    else
      let ca := copyCode v a
      { copy := if ca = 0 then some 0 else none, fallback := true, codeA := ca, codeB := cb }
  else
    let ca := copyCode v a
    if ca = 0 then { copy := some 0, codeB := if hb = 0 then 1 else hb }
    else
      let cb := copyCode v b
      { copy := if cb = 0 then some 1 else none, fallback := true, codeA := ca, codeB := cb }

/-! ### The life-cycle record (R516) -/

/-- A record: its slot, count, state and pending bit. -/
structure LcRecord where
  slot : Nat := 0
  count : Nat := 0
  state : Nat := 0
  pending : Bool := false
deriving DecidableEq, Repr, Inhabited

/-- The record in a slot, if it is valid. -/
def recordAt (l : Bytes) (slot : Nat) : Option LcRecord :=
  if imgNum l 0 2 = 0x434C ∧ ((imgBytes l 8 52).all fun b => b == 0) ∧ imgNum l 60 4 = crc32c (imgBytes l 0 60) then
    some { slot := slot, count := imgNum l 4 4, state := imgNum l 2 1 % 4, pending := imgNum l 3 1 % 2 == 1 }
  else none

/-- The valid record of higher count. -/
def recordOf (a b : Bytes) : Option LcRecord :=
  match recordAt a 0, recordAt b 1 with
  | some x, some y => if x.count < y.count then some y else some x
  | some x, none => some x
  | none, y => y

/-- The 64 bytes of a record. -/
def recordBytes (x : LcRecord) : Bytes :=
  let head := toBytes 2 0x434C ++ [x.state, if x.pending then 1 else 0] ++ toBytes 4 x.count ++ List.replicate 52 0
  (head ++ toBytes 4 (crc32c head)).map fun b => BitVec.ofNat 8 b

/-- Changes of life-cycle state that Table 17-7 permits. -/
def lcPermits (old new : Nat) : Bool :=
  match old with
  | 0 => new == 1 || new == 3
  | 1 => new == 2 || new == 3
  | 2 => new == 1 || new == 3
  | _ => false

/-- A first boot is permitted (Table 17-7). -/
def firstBootOk (lc : Nat) : Bool := lc == 0 || lc == 2

/-! ### A copy rewritten (Table 17-8) -/

/-- An image with its sequence replaced and its header check recomputed. -/
def resequenced (l : Bytes) (seq : Nat) : Bytes :=
  let put := fun (l : Bytes) (k : Nat) (x : List Nat) => l.take k ++ (x.map fun b => BitVec.ofNat 8 b) ++ l.drop (k + x.length)
  let l := put l 8 (toBytes 4 seq)
  put l 28 (toBytes 4 (headerCrc l))

/-- One above the higher sequence of the headers that pass. -/
def nextSeq (v : Variant) (a b : Bytes) : Nat :=
  let s := fun (l : Bytes) => if headerCode v l = 0 then imgSeq l else 0
  (max (s a) (s b) + 1) % 2 ^ 32

/-- Bytes of a copy replaced from an offset. -/
def overwrite (l : Bytes) (k : Nat) (x : Bytes) : Bytes :=
  l.take k ++ List.replicate (k - l.length) 0xFF ++ x ++ l.drop (k + x.length)

end Sys2Proof.Machine
end

