-- ==== Sys2Proof/Machine/Boot.lean ====
section
/-! DEFINITION. RESET, LOAD and TRAIN, the power-up handshake, the life-cycle change and the writing of an image (R254 to R262, R300, R301, R477, R478, R505 to R521, R576). -/

namespace Sys2Proof.Machine

/-! ### RESET and LOAD (R477, R506, R512) -/

/-- Change the boot unit's state. -/
def onBoot (u : Units) (f : Boot → Boot) : Units := { u with boot := f u.boot }

/-- RST_N is low: everything outside the dies and the test access port is at its reset; a program cut off leaves its lines undefined (R289). -/
def resetOp (u : Units) : Units :=
  let u := (List.range (nCexus u.v)).foldl (fun u n => (List.range 8).foldl (fun u d => if (dieOf u n d).pgm then abortProgram u n d else u) u) u
  ((List.range 24).map fun k => 19 + k).foldl (fun u d => if d < 19 + nDdr u.v ∨ (35 ≤ d ∧ d < 35 + nGroups u.v) then showPins u d else u)
    { v := u.v, now := u.now, fresh := u.fresh, out := u.out, keep := u.keep, media := u.media, tap := u.tap }

/-- The device answers, and its density lies in R506. -/
def deviceOk (x : Boot) : Bool := x.sfdp && 21 ≤ x.density && x.density ≤ 31

/-- Domains that LOAD powers up, in the order of R485. -/
def loadDomains : List Nat := [2, 3, 1, 4, 5, 6, 7, 8, 9, 10]

/-- RST_N rises: LOAD begins; domains rise, the device is read, and the life-cycle record found is in force. -/
def loadOp (c : Ctl) (u : Units) (x : BootOutcome) : Ctl × Units :=
  if c.mode ≠ .reset then (c, u)
  else
    let b : Boot := { sfdp := x.sfdp, density := x.density, copyA := x.copyA, copyB := x.copyB, spi := .read, loadAt := u.now }
    let rec_ := if deviceOk b then recordOf x.lc0 x.lc1 else none
    let b := match rec_ with
      | some r => { b with lcHas := true, lcSlot := r.slot, lcCount := r.count, lcState := r.state, lcPending := r.pending }
      | none => b
    let u := { u with boot := b, pwr := { u.pwr with rising := loadDomains } }
    let u := if deviceOk b then putReg u .BOOT_SPI 0 0 (x.density + (if x.quad then 32 else 0) + (if 24 < x.density then 64 else 0)) else u
    let (c, u) := changeMode { c with lc := b.lcState } u .load 1 0
    (c, present u (.spi 0 0))

/-- Channel domains of the variant. -/
def channelDomains (u : Units) : List Nat := ((List.range (nDdr u.v)).map pdDram) ++ (List.range (nGroups u.v)).map pdMedia

/-- LOAD, TRAIN or MOUNT ends in failure: SERVICE is entered at once, with every channel domain on but those of failed channels (R478, Table 16-4). -/
def failBoot (c : Ctl) (u : Units) (cause : Nat) : Ctl × Units :=
  let bad := (List.range (nDdr u.v)).filter fun k => getF u F.DDR5_n_STATE_state k == 5
  let u := bad.foldl (fun u k => switchOff u (pdDram k)) u
  let up := (channelDomains u).filter fun d => !pdOn u d && !u.pwr.rising.contains d && !bad.any fun k => pdDram k == d
  let u := { u with pwr := { u.pwr with rising := (u.pwr.rising.filter fun d => !bad.any fun k => pdDram k == d) ++ up } }
  changeMode { c with failed := true } u .service cause (if cause = 9 ∧ u.boot.unclean then 1 else 0)

/-- LOAD ends in failure with its cause in BOOT_STATE.fail (R513). -/
def failLoad (c : Ctl) (u : Units) (fail : Nat) : Ctl × Units := failBoot c (putF u F.BOOT_STATE_fail 0 0 fail) 7

/-- The headers and the taken copy have been read and checked (R511). -/
def imageFound (c : Ctl) (u : Units) : Ctl × Units :=
  if deviceOk u.boot = false then failLoad c u 1
  else
    let a := u.boot.copyA
    let b := u.boot.copyB
    let t := takeCopy u.v a b
    let seq := fun (l : Bytes) => if headerCode u.v l = 0 then imgSeq l else 0
    let u := putReg (putReg u .BOOT_SEQ_A 0 0 (seq a)) .BOOT_SEQ_B 0 0 (seq b)
    let copy := t.copy.getD 0
    let u := putReg u .BOOT_STATE 0 0 (copy + (if t.fallback then 2 else 0) + t.codeA * 4 + t.codeB * 64 + (if t.copy.isSome then (1 - copy) * 4096 else 0))
    match t.copy with
    | none => failLoad c u 2
    | some k =>
      let l := if k = 0 then a else b
      (c, onBoot (putReg u .BOOT_VER 0 0 (imgVersion l)) fun x => { x with image := l, held := true })

/-- HELLO has been sent, since every domain of LOAD is on, and no HELLO_ACK has come. -/
def loadHelloTimeoutOp (c : Ctl) (u : Units) : Ctl × Units :=
  if c.mode = .load ∧ pdOn u 1 ∧ u.pwr.rising = [] ∧ u.keyPort.state = 0 then failLoad c u 3 else (c, u)

/-- The key port holds no message: every message taken has had its RESULT sent (step 6 of Table 17-5). -/
def keyIdle (u : Units) : Bool := u.keyPort.erase.isNone && u.keyPort.result.isNone && u.boot.lcNew.isNone

/-- LOAD is complete: TRAIN begins and the channel domains rise. -/
def loadCompleteOp (c : Ctl) (u : Units) (dimms : List DimmFound) : Ctl × Units :=
  if c.mode = .load ∧ u.boot.held ∧ u.pwr.rising = [] ∧ u.keyPort.state = 1 ∧ keyIdle u then
    changeMode c { onBoot u (fun x => { x with dimms := dimms }) with pwr := { u.pwr with rising := channelDomains u } } .train 1 0
  else (c, u)

/-! ### SPD values and timing (R221, R231, R256 to R259) -/

/-- DIMMs found present on a channel, by slot. -/
def dimmsOf (u : Units) (ch : Nat) : List DimmFound :=
  [0, 1].filterMap fun k => u.boot.dimms.find? fun d => d.ch == ch && d.slot == k && d.present

/-- The largest value of the DIMMs of a channel. -/
def spdMax (l : List DimmFound) (f : SpdValues → Nat) : Nat := (l.map fun d => f d.spd).foldl max 0

/-- A DIMM lies within R221. -/
def dimmOk (d : DimmFound) : Bool :=
  d.spd.rdimm && d.spd.width == 4 && d.spd.groups == 8 && d.spd.banks == 4 && d.spd.density < 4 && (d.spd.pranks == 1 || d.spd.pranks == 2) && (d.spd.lranks == 1 || d.spd.lranks == 2 || d.spd.lranks == 4)

/-- n_CK of a time in picoseconds with a floor in nCK. -/
def nCk (tck ps low : Nat) : Nat := max (toCk (ps * 1000) tck) low

/-- The smallest even CAS latency that every DIMM supports and that covers tAA. -/
def casLatency (l : List DimmFound) (tck : Nat) : Option Nat :=
  (List.range 256).find? fun n => n % 2 == 0 && toCk (spdMax l (fun s => s.tAA) * 1000) tck ≤ n && 2 ≤ n && l.all fun d => d.spd.cls.contains n

/-- Values packed into a word at a spacing of w bits, none where one does not fit. -/
def packed (w : Nat) (l : List Nat) : Option Nat :=
  if l.all fun x => x < 2 ^ w then some (fromDigits w l) else none
where
  /-- Values as digits of w bits, the first lowest. -/
  fromDigits (w : Nat) : List Nat → Nat
    | [] => 0
    | x :: t => x + 2 ^ w * fromDigits w t

/-- DDR5_n_TIM_0 to DDR5_n_TIM_7 from the largest SPD values at a tCK (R259); none where no CAS latency exists or a value does not fit its field. -/
def timValues (l : List DimmFound) (tck rate gap : Nat) : Option (List Nat) :=
  let cc := fun (f : SpdValues → Nat) (low : Nat) => halfUp (nCk tck (spdMax l f) low)
  let ps := fun (x low : Nat) => halfUp (nCk tck x low)
  let tras := cc (fun s => s.tRAS) 0
  let trp := cc (fun s => s.tRP) 0
  let refi := 3900000000 / (2 * tck)
  match casLatency l tck with
  | none => none
  | some cl =>
    [packed 8 [cl, cl - 2, cc (fun s => s.tRCD) 0, trp],
     packed 8 [tras, max (cc (fun s => s.tRC) 0) (tras + trp), 4, cc (fun s => s.tRRDL) 8],
     packed 8 [cc (fun s => s.tFAW) 32, cc (fun s => s.tCCDL) 8, cc (fun s => s.tCCDLWR) 32, cc (fun s => s.tRTP) 12],
     packed 8 [cc (fun s => s.tWTRS) 4, cc (fun s => s.tWTRL) 16, cc (fun s => s.tWR) 0, cc (fun s => s.tREFSBRD) 0],
     (packed 12 [cc (fun s => s.tRFC1) 0, cc (fun s => s.tRFC2) 0]).map fun x => x % 4096 + x / 4096 * 65536,
     (packed 12 [cc (fun s => s.tRFCsb) 0, ps 14000 23]).map fun x => x % 4096 + x / 4096 * 65536,
     packed 16 [refi, ps (spdMax l (fun s => s.tRFC1) + 10000) 0],
     (packed 12 [halfUp (Config.txsDll rate)]).map fun x => x + gap * 4096].mapM id

/-- The image's DDR5 section. -/
def ddrSection (u : Units) : Bytes := sectionOf u.boot.image 2

/-- The timing values of a channel under the image. -/
def channelTiming (u : Units) (ch : Nat) : Option (List Nat) :=
  timValues (dimmsOf u ch) (tCkFs u ch) (getF u F.DDR5_n_GEOM_rate ch) (imgNum (ddrSection u) 4 1 % 16)

/-- A register takes the RW bits of a value. -/
def putRw (u : Units) (r : Reg) (ch x : Nat) : Units := putReg u r ch 0 (x &&& r.info.rw)

/-- The values of the boot image for a DDR5 channel, written as its domain powers up (step 6 of Table 17-5). -/
def dramValues (u : Units) (ch : Nat) : Units :=
  let d := ddrSection u
  let u := putF (putF u F.DDR5_n_GEOM_rate ch 0 (imgNum d 0 1)) F.DDR5_n_REF_mode ch 0 (imgNum d 1 1)
  let u := putF u F.DDR5_n_PHY_STATE_write_crc ch 0 (imgNum d 2 1)
  let u := putRw (putRw u .DDR5_n_PHY_CFG ch (imgNum d 8 4)) .DDR5_n_RETRAIN ch (imgNum d 12 4)
  let u := if getF u F.DDR5_n_RETRAIN_limit ch = 0 then putF u F.DDR5_n_RETRAIN_limit ch 0 1 else u
  let u := putRw (putRw u .DDR5_n_SCHED ch (imgNum d 16 4)) .DDR5_n_THERM ch (imgNum d 20 4)
  putF u F.DDR5_n_STATE_state ch 0 1

/-- Step 1 of training begins; with write CRC in the image, mode register 50 is set on every rank (R260, R269, R274). -/
def beginTrain (u : Units) (ch : Nat) : Units :=
  let u := putF (setDdr u ch { ddr u ch with trainAt := u.now }) F.DDR5_n_TRAIN_step ch 0 1
  let ranks := 2 ^ (getF u F.DDR5_n_GEOM_dimms_log2 ch + getF u F.DDR5_n_GEOM_pranks_log2 ch + getF u F.DDR5_n_GEOM_lranks_log2 ch)
  if writeCrc u ch then [0, 1].foldl (fun u s => (List.range ranks).foldl (fun u r => ddrOut u ch s 12 r 0 50 1) u) u else u

/-- What the presence probe and the SPD reads of a channel find: geometry and the copies, or a failed channel (R256 to R258). -/
def probeChannel (u : Units) (ch : Nat) : Units :=
  let l := dimmsOf u ch
  let fail := fun (u : Units) => putF u F.DDR5_n_STATE_state ch 0 5
  let has := fun (k : Nat) => l.any fun d => d.slot == k
  let seg := u.boot.dimms.any fun d => d.present && d.ch / 4 == ch / 4
  let u := putF (putF u F.DDR5_n_PHY_STATE_dimms ch 0 ((if has 0 then 1 else 0) + if has 1 then 2 else 0)) F.DDR5_n_PHY_STATE_i3c ch 0 (if seg then 1 else 0)
  if l = [] then flag (fail u) F.DDR5_n_PHY_ERR_spd_nack ch
  else
    let bytes := fun (k : Nat) => (((l.find? fun d => d.slot == k && !d.nack).map fun d => d.bytes).getD []).take 512
    let u := setDdr u ch { ddr u ch with spd0 := bytes 0, spd1 := bytes 1 }
    let u := if l.any fun d => d.nack then flag (fail u) F.DDR5_n_PHY_ERR_spd_nack ch else u
    let u := if l.any fun d => !d.nack && d.crcBad then flag (fail u) F.DDR5_n_PHY_ERR_spd_crc ch else u
    let first := (l.headD {}).spd
    let u := putF (putF u F.DDR5_n_GEOM_dimms_log2 ch 0 (l.length - 1)) F.DDR5_n_GEOM_pranks_log2 ch 0 (Nat.log2 first.pranks)
    let u := putF (putF u F.DDR5_n_GEOM_lranks_log2 ch 0 (Nat.log2 first.lranks)) F.DDR5_n_GEOM_density ch 0 first.density
    if (l.all dimmOk) && (l.all fun d => d.spd.tckMin ≤ tCkFs u ch) && (channelTiming u ch).isSome then beginTrain u ch else fail u

/-- The values of the boot image for a Cexus channel, written as its group powers up. -/
def mediaValues (u : Units) (n : Nat) : Units :=
  let d := sectionOf u.boot.image 3
  let u := if d = [] then u else putRw (putRw u .CEX_n_CFG n (imgNum d 0 4)) .CEX_n_LINK n (imgNum d 4 4)
  let u := if getF u F.CEX_n_LINK_probe n = 0 then putF u F.CEX_n_LINK_probe n 0 1 else u
  let u := if getF u F.CEX_n_LINK_temp_period n = 0 then putF u F.CEX_n_LINK_temp_period n 0 1 else u
  putF (setCex u n { cex u n with trainAt := u.now }) F.CEX_n_STATE_state n 0 1

/-- A DDR5 channel that has become failed in TRAIN ends TRAIN in failure (R478). -/
def trainFails (c : Ctl) (u : Units) (ch : Nat) : Ctl × Units :=
  if c.mode = .train ∧ getF u F.DDR5_n_STATE_state ch = 5 then failBoot c u 8 else (c, u)

/-! ### The power-up handshake (R481, R485, R576) -/

/-- What a domain does as it is switched on: with the last domain of LOAD the key slots are wiped and HELLO is sent; a channel domain takes its values in TRAIN; a cluster that a latch in RUN has switched on opens its ports. -/
def poweredUp (c : Ctl) (u : Units) (d : Nat) : Ctl × Units :=
  if d < 11 then (c, if u.pwr.rising.all fun x => 11 ≤ x then keysUp c u 0 else u)
  else if d < 19 then (c, if c.mode = .run then openCluster u (d - 11) else u)
  else if c.mode ≠ .train then (c, u)
  else if d < 35 then trainFails c (probeChannel (dramValues u (d - 19)) (d - 19)) (d - 19)
  else (c, (List.range 9).foldl (fun u q => mediaValues u (9 * (d - 35) + q)) u)

/-- PD_UP_ACK for a domain. -/
def upAckOp (c : Ctl) (u : Units) (d : Nat) : Ctl × Units :=
  if c.mode = .reset ∨ mayRise u d = false then (c, u)
  else if c.mode = .hush then (c, wakeDomain u d)
  else
    let (c, u) := poweredUp c (switchOn (risen u d) d) d
    settleMode c u

/-! ### TRAIN (R260 to R262, R300, R301) -/

/-- Training of a DDR5 channel ends in failure: step, result and place. -/
def dramTrainFail (u : Units) (ch step result place time : Nat) : Units :=
  putF (flag (putReg u .DDR5_n_TRAIN ch 0 (step % 16 + result % 16 * 16 + place % 512 * 256 + time % 256 * 2 ^ 24)) F.DDR5_n_PHY_ERR_train_fail ch) F.DDR5_n_STATE_state ch 0 5

/-- Time since training of a DDR5 channel began, in ms (R274). -/
def trainTime (u : Units) (ch : Nat) : Nat := min 255 ((u.now - (ddr u ch).trainAt) / 100000)

/-- A die fails in TRAIN; a channel whose dies have all failed is failed. -/
def dieTrainFail (u : Units) (n : Nat) (f : DieFail) (time : Nat) : Units :=
  let y := cex u n
  let u := setCex u n { y with failed := if y.failed.contains f.die then y.failed else y.failed ++ [f.die] }
  let u := if (cex u n).failed.length = 8 then putF u F.CEX_n_STATE_state n 0 3 else u
  putReg (flag u F.CEX_n_ERR_train_fail n) .CEX_n_TRAIN n 0 (trainWord (some f) time)

/-- A training step has overrun 4 ms: it is run once more, and the second time it fails with TIMEOUT. `unit` is the place as the channel's TRAIN register records it. -/
def stepTimeoutOp (c : Ctl) (u : Units) (media : Bool) (ch step unit : Nat) : Ctl × Units :=
  if c.mode ≠ .train then (c, u)
  else if media then
    let y := cex u ch
    let d := unit % 8
    if nCexus u.v ≤ ch ∨ getF u F.CEX_n_STATE_state ch ≠ 1 ∨ step = 0 ∨ 9 < step ∨ y.failed.contains d then (c, u)
    else if tabGet y.tries d = step then (c, dieTrainFail u ch { die := d, step := step, result := 5, lane := unit / 8 } ((u.now - y.trainAt) / 100000))
    else (c, putF (setCex u ch { y with tries := tabPut y.tries d step }) F.CEX_n_TRAIN_step ch 0 step)
  else if nDdr u.v ≤ ch ∨ getF u F.DDR5_n_STATE_state ch ≠ 1 ∨ step = 0 ∨ 11 < step then (c, u)
  else if (ddr u ch).tries = step then trainFails c (dramTrainFail u ch step 6 unit (trainTime u ch)) ch
  else (c, putF (setDdr u ch { ddr u ch with tries := step }) F.DDR5_n_TRAIN_step ch 0 step)

/-- What training a DDR5 channel has given: a step that failed; or all steps run, their eyes judged by the criteria of DDR5_n_PHY_CFG and their settings stored. -/
def dramTrained (u : Units) (r : TrainResult) : Units :=
  if r.result ≠ 0 then dramTrainFail u r.ch r.step r.result r.place r.time
  else
    match trainMiss u r.ch r.found.eyes r.found.trims with
    | some (step, result, place) => dramTrainFail u r.ch step result place r.time
    | none =>
      let u := putReg (storeTrims u r.ch r.found.trims) .DDR5_n_TRAIN r.ch 0 (15 + r.time % 256 * 2 ^ 24)
      putF (putReg u .DDR5_n_RFM r.ch 0 (r.rfm % 2 ^ 22)) F.DDR5_n_STATE_state r.ch 0 2

/-- What training a Cexus channel has given: where the result is that of the whole channel every die has failed; otherwise the nine steps have run on every die that no timeout has failed, each die is judged, and what was found is kept. -/
def cexTrained (u : Units) (r : TrainResult) : Units :=
  let n := r.ch
  let u := pulseReset u n
  let live := (List.range 8).filter fun d => !(cex u n).failed.contains d
  if r.result ≠ 0 then live.foldl (fun u d => dieTrainFail u n { die := d, step := r.step, result := r.result, lane := r.place / 8 } r.time) u
  else
    let code := nbits (imgNum (sectionOf u.boot.image 4) 0 4) 0 4
    let u := keepFound (trainFrames u n live fun _ => code) n r.found
    let fails := live.filterMap fun d => dieMiss u n d r.found
    let u := storeCexTrims (fails.foldl (fun u f => dieTrainFail u n f r.time) u) n r.found.trims
    let u := if (cex u n).failed = [] then putReg u .CEX_n_TRAIN n 0 (trainWord none r.time) else u
    if getF u F.CEX_n_STATE_state n = 3 then u else putF u F.CEX_n_STATE_state n 0 2

/-- Round 0 of a group begins when its TRAIN has ended (R311). -/
def roundZero (u : Units) (g : Nat) : Units := setGrp u g { grp u g with phase := 0, phaseAt := u.now, round := 0 }

/-- Every channel of the variant has its result among those given. -/
def everyChannel (u : Units) (l : List TrainResult) : Bool :=
  ((List.range (nDdr u.v)).all fun k => l.any fun r => !r.media && r.ch == k) && (List.range (nCexus u.v)).all fun n => l.any fun r => r.media && r.ch == n

/-- The result of one channel. -/
def resultOf (l : List TrainResult) (media : Bool) (ch : Nat) : TrainResult := (l.find? fun r => r.media == media && r.ch == ch).getD {}

/-- Every channel has trained or failed: MOUNT begins, or TRAIN ends in failure where a DDR5 channel has failed. -/
def trainCompleteOp (c : Ctl) (u : Units) (l : List TrainResult) : Ctl × Units :=
  if c.mode ≠ .train ∨ u.pwr.rising ≠ [] ∨ everyChannel u l = false then (c, u)
  else
    let u := (List.range (nDdr u.v)).foldl (fun u k => dramTrained u (resultOf l false k)) u
    let u := (List.range (nCexus u.v)).foldl (fun u n => cexTrained u (resultOf l true n)) u
    let u := (List.range (nGroups u.v)).foldl roundZero u
    if (List.range (nDdr u.v)).any fun k => getF u F.DDR5_n_STATE_state k == 5 then failBoot c u 8
    else changeMode c u .mount 1 0

/-- Training has overrun 60 ms (R478). -/
def trainOverrunOp (c : Ctl) (u : Units) : Ctl × Units := if c.mode = .train then failBoot c u 8 else (c, u)

/-! ### Operations on the serial memory -/

/-- Base of a copy in the device (Table 17-1). -/
def copyBase (k : Nat) : Nat := k * 0x80000

/-- The operation as the port shows it: 0 read, 1 sector erase, 2 page program, and its address. -/
def spiShown (b : Boot) (use : SpiUse) : Nat × Nat :=
  let slot := if b.lcHas then 1 - b.lcSlot else 0
  let lc := 2 ^ b.density - 8192 + 4096 * slot
  match use with
  | .imageErase => (1, copyBase b.writeCopy + b.offset)
  | .imageProgram => (2, copyBase b.writeCopy + b.offset)
  | .imageHeader => (2, copyBase b.writeCopy)
  | .imageVerify => (0, copyBase b.writeCopy)
  | .lcErase => (1, lc)
  | .lcProgram => (2, lc)
  | .none | .read => (0, 0)

/-- Start an operation. -/
def startSpi (u : Units) (use : SpiUse) : Units :=
  present (onBoot u fun b => { b with spi := use }) (.spi (spiShown u.boot use).1 (spiShown u.boot use).2)

/-! ### The life-cycle change (R518, R519) -/

/-- The record write waits, or starts where no operation of an image write is under way. -/
def startLc (u : Units) : Units := if u.boot.spi = .none then startSpi u .lcErase else u

/-- An LC_CHANGE: accepted, it wipes every slot and sends HELLO, and the record is written; its RESULT follows. Requests past check 4 then use the zeroed slots, an all-zero key: the model's choice (log entry 99). -/
def lcChangeOp (c : Ctl) (ws : List Word) (u : Units) : Units :=
  let target := (ws.getD 1 0).toNat
  let recorded := (ws.getD 2 0).toNat
  if 4 ≤ target ∨ recorded ≠ u.boot.lcState ∨ lcPermits u.boot.lcState target = false then keyResult u (keyHdr ws) 2
  else
    let u := sendHello c (keyWiped { u with keys := tabNil } 0x3FF 2) 2
    startLc (onBoot u fun b => { b with lcNew := some { state := target, hdr := keyHdr ws } })

/-- The operation that was put off by the record write goes on. -/
def resumeSpi (u : Units) : Units :=
  let next := u.boot.later
  let u := onBoot u fun b => { b with spi := .none, later := .none }
  if next = .none then u else startSpi u next

/-- The record write has failed: FLASH_FAIL, the recorded state as before. -/
def lcFailed (u : Units) (w : LcWrite) : Units := resumeSpi (keyResult (onBoot u fun b => { b with lcNew := none }) w.hdr 6)

/-- The record has been written with pending = 1: RESULT ACCEPTED. -/
def lcWritten (u : Units) (w : LcWrite) : Units :=
  let u := onBoot u fun b => { b with lcNew := none, lcHas := true, lcSlot := (if b.lcHas then 1 - b.lcSlot else 0), lcCount := (if b.lcHas then (b.lcCount + 1) % 2 ^ 32 else 1), lcState := w.state, lcPending := true }
  resumeSpi (keyResult u w.hdr 0)

/-! ### IMAGE_WRITE (Table 17-8) -/

/-- Length in bytes of an IMAGE_WRITE. -/
def imageBytesOf (d : Desc) : Nat := dField d 16 32

/-- A length out of range, or a buffer that is not aligned to 4 KiB. -/
def badImageWrite (_ : Units) (d : Desc) : Bool :=
  imageBytesOf d == 0 || 524288 < imageBytesOf d || imageBytesOf d % 4096 != 0 || dBuffer d % 4096 != 0

/-- The image write under way ends with a status and a fault. -/
def endImage (u : Units) (status fault : Nat) (r0 : Nat := 0) : Units :=
  let d := u.boot.writeDesc
  let u := putF (putF u F.BOOT_WRITE_busy 0 0 0) F.BOOT_WRITE_fault 0 0 fault
  let u := onBoot u fun b => { b with writeDesc := none, written := [], offset := 0, spi := .none }
  let u := completeOpt u d status r0
  if u.boot.lcNew.isSome then startLc u else u

/-- The next operation of an image write: a record write that waits goes first, and a DRAIN under R493 ends the write. -/
def imageNext (c : Ctl) (u : Units) (next : SpiUse) : Units :=
  if c.mode = .drain ∧ bareDrain c then endImage u 8 0
  else if u.boot.lcNew.isSome then startSpi (onBoot u fun b => { b with later := next }) .lcErase
  else startSpi u next

/-- The buffer has been read: it is checked as a copy, and the write starts at the target. -/
def imageCheck (c : Ctl) (u : Units) (d : Desc) : Units :=
  let x : Bytes := ((d.payload.flatMap fun l => toBytes 64 l.toNat).map fun b => BitVec.ofNat 8 b).take (imageBytesOf d)
  if c.mode = .drain ∧ bareDrain c then endImage u 8 0
  else if copyCode u.v x ≠ 0 ∨ imageBytesOf d < imgLength x then endImage u 4 0
  else
    let k := getF u F.BOOT_STATE_next
    let u := onBoot u fun b => { b with writeCopy := k, offset := 0, written := resequenced x (nextSeq u.v b.copyA b.copyB) }
    if u.boot.spi = .none then startSpi u .imageErase else onBoot u fun b => { b with later := .imageErase }

/-- IMAGE_WRITE goes on: its buffer is read one payload read at a time. -/
def imageStep (c : Ctl) (u : Units) (r : Nat) (d : Desc) : Units :=
  if d.payload.length < payloadReads d then issuePayload r 64 d u
  else if u.boot.written = [] then imageCheck c u d
  else u

/-- IMAGE_WRITE begins, unless another one runs. -/
def imageStart (c : Ctl) (u : Units) (r : Nat) (d : Desc) : Units :=
  if u.boot.writeDesc.isSome then complete u r d.idx 3
  else
    let d := { d with committed := true }
    let u := putReg (putDesc u r d) .BOOT_WRITE 0 0 1
    imageStep c (onBoot u fun b => { b with writeDesc := some (r, d.idx), written := [] }) r d

/-- The copy under write. -/
def writtenCopy (b : Boot) : Bytes := if b.writeCopy = 0 then b.copyA else b.copyB

/-- Store bytes into the copy under write. -/
def storeCopy (u : Units) (k : Nat) (x : Bytes) : Units :=
  onBoot u fun b => let l := overwrite (writtenCopy b) k x; if b.writeCopy = 0 then { b with copyA := l } else { b with copyB := l }

/-- Bytes of an operation cut short, which the spec leaves open: a free value. -/
def freeBytes (u : Units) (n : Nat) : Bytes × Units :=
  let (x, u) := takeFree u
  ((toBytes n x).map fun b => BitVec.ofNat 8 b, u)

/-- A sector or page is left undefined, and the write fails. -/
def imageBroken (u : Units) (k n fault : Nat) : Units :=
  let (x, u) := freeBytes u n
  endImage (storeCopy u k x) 8 fault

/-- An erase or a program of the image has ended well. -/
def imageDone (c : Ctl) (u : Units) (use : SpiUse) : Units :=
  let b := u.boot
  let n := b.written.length
  match use with
  | .imageErase =>
    let u := storeCopy u b.offset (List.replicate 4096 0xFF)
    if b.offset + 4096 < n then imageNext c (onBoot u fun b => { b with offset := b.offset + 4096 }) .imageErase
    else imageNext c (onBoot u fun b => { b with offset := 256 }) .imageProgram
  | .imageProgram =>
    let u := storeCopy u b.offset ((b.written.drop b.offset).take 256)
    let u := if (b.offset + 256) % 4096 = 0 ∧ 4096 ≤ b.offset then addSat u F.BOOT_WRITE_sectors 0 0 1 else u
    if b.offset + 256 < n then imageNext c (onBoot u fun b => { b with offset := b.offset + 256 }) .imageProgram
    else imageNext c (onBoot u fun b => { b with offset := 0 }) .imageHeader
  | .imageHeader => imageNext c (addSat (storeCopy u 0 (b.written.take 256)) F.BOOT_WRITE_sectors 0 0 1) .imageVerify
  | .imageVerify =>
    endImage (putF u F.BOOT_STATE_next 0 0 (1 - b.writeCopy)) 0 0 b.writeCopy
  | _ => u

/-- SERIAL_MEMORY_OPERATION_END: the operation under way has ended. An end that the operation cannot have has no effect. -/
def spiEndOp (c : Ctl) (u : Units) (e : SpiEnd) : Ctl × Units :=
  let b := u.boot
  match b.spi, e, b.lcNew with
  | .none, _, _ => (c, u)
  | .read, .done, w =>
    let u := onBoot u fun b => { b with spi := .none }
    let u := if w.isSome then startLc u else u
    if c.mode = .load then imageFound c u else (c, u)
  | .read, _, _ => (c, u)
  | .lcErase, .done, some _ => (c, startSpi u .lcProgram)
  | .lcErase, .timeout, some w => (c, lcFailed u w)
  | .lcErase, _, _ => (c, u)
  | .lcProgram, .done, some w => (c, lcWritten u w)
  | .lcProgram, _, some w => (c, lcFailed u w)
  | .lcProgram, _, none => (c, u)
  | .imageErase, .timeout, _ => (c, imageBroken u b.offset 4096 1)
  | .imageProgram, .timeout, _ => (c, imageBroken u b.offset 256 2)
  | .imageHeader, .timeout, _ => (c, imageBroken u 0 256 2)
  | .imageVerify, .mismatch, _ => (c, endImage u 8 3)
  | use, .done, _ => (c, imageDone c u use)
  | _, _, _ => (c, u)

/-! ### Meanings -/

/-- RESET (R477): every power domain but PD_AON is off and the mode is RESET. -/
def execReset (s : State) : Host.Outcome State Fault Refusal := onBoth s fun _ u => ({}, resetOp u)

/-- LOAD (R512). -/
def execLoad (x : BootOutcome) (s : State) : Host.Outcome State Fault Refusal := onBoth s fun c u => loadOp c u x

/-- LOAD_COMPLETE (R512). -/
def execLoadComplete (dimms : List DimmFound) (s : State) : Host.Outcome State Fault Refusal := onBoth s fun c u => loadCompleteOp c u dimms

/-- LOAD_HELLO_TIMEOUT (R513). -/
def execLoadHelloTimeout (s : State) : Host.Outcome State Fault Refusal := onBoth s loadHelloTimeoutOp

/-- TRAIN_STEP_TIMEOUT (R262). -/
def execTrainStepTimeout (media : Bool) (ch step unit : Nat) (s : State) : Host.Outcome State Fault Refusal :=
  onBoth s fun c u => stepTimeoutOp c u media ch step unit

/-- TRAIN_COMPLETE (R477). -/
def execTrainComplete (l : List TrainResult) (s : State) : Host.Outcome State Fault Refusal := onBoth s fun c u => trainCompleteOp c u l

/-- TRAIN_OVERRUN (R478). -/
def execTrainOverrun (s : State) : Host.Outcome State Fault Refusal := onBoth s trainOverrunOp

/-- PD_UP_ACK (R576). -/
def execPdUpAck (d : Nat) (s : State) : Host.Outcome State Fault Refusal := onBoth s fun c u => upAckOp c u d

/-- LC_CHANGE (R519): during DRAIN the port takes none. -/
def execLcChange (ws : List Word) (s : State) : Host.Outcome State Fault Refusal :=
  onU s fun c u => if c.mode = .drain then u else keyMessage 0x20 ws (lcChangeOp c ws) u

/-- IMAGE_WRITE (R521). -/
def execImageWrite (r i : Nat) (s : State) : Host.Outcome State Fault Refusal :=
  onU s (descOp (isOp 0x32) badImageWrite [.service] imageStart imageStep r i)

/-- SERIAL_MEMORY_OPERATION_END (R521). -/
def execSerialMemoryOperationEnd (e : SpiEnd) (s : State) : Host.Outcome State Fault Refusal := onBoth s fun c u => spiEndOp c u e

end Sys2Proof.Machine
end

