-- ==== Sys2Proof/Machine/Mount.lean ====
section
/-! DEFINITION. MOUNT: geometry and timing, the rebuild of the tables, the drift restore, patches, the boot image's configuration and the admission check (R147, R187, R195, R222, R361 to R368, R380 to R384, R420, R480, R509, R520). -/

namespace Sys2Proof.Machine

/-! ### Failures of geometry (R187, R222) -/

/-- log2 of the ranks of a channel. -/
def ranksLog2 (u : Units) (ch : Nat) : Nat := getF u F.DDR5_n_GEOM_dimms_log2 ch + getF u F.DDR5_n_GEOM_pranks_log2 ch + getF u F.DDR5_n_GEOM_lranks_log2 ch

/-- Highest rate code that the population of a channel allows (Table 7-1). -/
def rateLimit (u : Units) (ch : Nat) : Nat :=
  if getF u F.DDR5_n_GEOM_dimms_log2 ch = 1 then 4 else if getF u F.DDR5_n_GEOM_pranks_log2 ch = 1 then 8 else 10

/-- rows_log2 of the boot image. -/
def imageRows (u : Units) : Nat := imgNum (ddrSection u) 3 1

/-- MOUNT may go on: equal ranks, rows within the devices, a staging capacity of Table 0-1 (2^22 to 2^27 sets a slice on every variant), and a rate within every channel's limit. -/
def geometryOk (u : Units) : Bool :=
  let chs := List.range (nDdr u.v)
  let rk := ranksLog2 u 0
  let a := 9 + rk + imageRows u
  (chs.all fun k => ranksLog2 u k == rk) && (chs.all fun k => (dimmsOf u k).all fun d => imageRows u ≤ d.spd.rows) &&
    22 ≤ a && a ≤ 27 && chs.all fun k => getF u F.DDR5_n_GEOM_rate k ≤ rateLimit u k

/-- Geometry, hash seed and timing come into force, and every set header is initialised (R195, R259). -/
def mountStaging (u : Units) : Units :=
  let rk := ranksLog2 u 0
  let seed := imgNum (sectionOf u.boot.image 1) 0 4
  let u := { u with stg := { u.stg with rowsLog2 := imageRows u, rkLog2 := rk, seed := seed } }
  let u := putReg (putReg u .STG_GEOM 0 0 (imageRows u + rk * 32 + setsLog2 u * 256)) .STG_HASH 0 0 seed
  (List.range (nDdr u.v)).foldl (fun u k =>
    let u := putF (blankSlice u k) F.DDR5_n_GEOM_rows_log2 k 0 (imageRows u)
    let t := (channelTiming u k).getD []
    let u := (List.range t.length).foldl (fun u i => putReg u .DDR5_n_TIM_k k i (t.getD i 0)) u
    setFine (startRefresh (putF u F.DDR5_n_STATE_ref k 0 (refreshShare u k (ddr u k).rate)) k) k) u

/-- The image's DRIFT section: DRF_WOFS in force and staged, and the wear-0 codes of every group. -/
def driftDefaults (u : Units) : Units :=
  let f := sectionOf u.boot.image 4
  let u := (List.range 3).foldl (fun u w =>
    let a := regAddr .DRF_WOFS_w w 0
    let x := BitVec.ofNat 32 (imgNum f (4 + 4 * w) 4)
    let u := putStaged u .DRF_WOFS_w w 0 x.toNat
    let g := u.regs
    { u with regs := if g.epoch % 2 = 0 then { g with bankA := tabPutD g.bankA a 0 x } else { g with bankB := tabPutD g.bankB a 0 x } }) u
  let codes := (List.range 8).map fun b => nbits (imgNum f 0 4) (4 * b) 4
  (List.range (nStripes u.v)).foldl (fun u s => putCodes u s codes) u

/-! ### The superblock (R366, R367 step 1) -/

/-- The codes at which a keep-area line is read, in their order (R379). -/
def keepCodes (u : Units) (s : Nat) : List Nat := ((List.range 8).map (fun b => driftCode u s 0 b) ++ List.range 16).eraseDups

/-- The codes tried until one corrects the line. -/
def attempts (order good : List Nat) : List Nat := order.take ((order.findIdx fun c => good.contains c) + 1)

/-- One read of a line at a code: SETREF where the register holds another, READ, DOUT. -/
def keepSense (u : Units) (n d dla code : Nat) : Units :=
  if dieFailed u n d then u
  else
    let u := if tabGet (dieOf u n d).chip.refs (dla % 4) = code then u else frame u n 7 d (code + dla % 4 * 16)
    let u := dieEnds (frame u n 32 d dla) n d (tabGet u.media (mediaKey n d dla))
    captureMove (frame u n 1 d 0) n d

/-- Keep stripe k of a stripe group is read (R361, R379): its eight data lines, at one code after the other until they are corrected. -/
def keepRead (u : Units) (s k : Nat) (good : List Nat) : Bool × Units :=
  let tried := attempts (keepCodes u s) good
  let dla := keepFrom + k
  (tried.any fun c => good.contains c,
   tried.foldl (fun u c => (List.range 8).foldl (fun u j => keepSense u (9 * (s / 8) + dataPos dla j) (s % 8) dla c) u) u)

/-- The codes at which an item is corrected: all where it is not listed. -/
def goodAt (l : List (Nat × List Nat)) (k : Nat) : List Nat := ((l.find? fun x => x.1 == k).map fun x => x.2).getD (List.range 16)

/-- A superblock copy, eight keep stripes from k on, is read. -/
def readCopy (u : Units) (s k : Nat) (good : List Nat) : Bool × Units :=
  (List.range 8).foldl (fun (p : Bool × Units) i => let q := keepRead p.2 s (k + i) good; (p.1 && q.1, q.2)) (true, u)

/-- Stripe group of superblock copy A (Table 11-7), as the boot image names it. -/
def sbGroup (u : Units) : Nat := imgNum (sectionOf u.boot.image 1) 4 1 % 64

/-- The copies that count: one that cannot be read does not, and equal sequences are noted. -/
def countCopies (u : Units) (f : MountFound) : Units :=
  let s := sbGroup u
  let (okA, u) := readCopy u s 0 f.sbA
  let (okB, u) := readCopy u ((s + nStripes u.v / 2) % nStripes u.v) 8 f.sbB
  let k := u.keep
  let a := if okA then k.sbA else none
  let b := if okB then k.sbB else none
  let twin := a.any fun x => b.any fun y => x.seq == y.seq
  let u := { u with keep := { k with sbA := a, sbB := b } }
  if a.isNone || b.isNone || twin then flag u F.HNG_ERR_sb_copy else u

/-- A superblock with clean = 0 has been taken (R480). -/
def noteUnclean (u : Units) (sb : Superblock) : Units :=
  if sb.clean then u else flag (onBoot u fun b => { b with unclean := true }) F.PWR_ERR_unclean

/-! ### The epoch (R384 steps 1 and 2) -/

/-- Scores of a stripe group's reference rows. -/
def groupScores (f : MountFound) (s : Nat) : List Nat := f.scores.getD s []

/-- Write epochs of the valid rows of every group, one for each row. -/
def rowEpochs (u : Units) (f : MountFound) : List Nat :=
  (List.range (nStripes u.v)).flatMap fun s => (List.range 32).filterMap fun r =>
    let x := tabGet u.keep.refRows (s * 32 + r)
    if x ≠ 0 ∧ ((List.range 16).any fun c => rowScore (groupScores f s) r c < 3 * 1024) then some (x - 1) else none

/-- E_a: the write epoch of a valid row after which no valid row comes; of several the one with most valid rows in the 31 epochs before it, then the lowest; 0 without a valid row. -/
def restoredEpoch (u : Units) (f : MountFound) : Nat :=
  let l := rowEpochs u f
  let ends := (List.range 256).filter fun x => l.contains x && !l.contains ((x + 1) % 256)
  let before := fun (x : Nat) => (l.filter fun y => 1 ≤ (x + 256 - y) % 256 && (x + 256 - y) % 256 ≤ 31).length
  match ends with
  | [] => 0
  | a :: t => t.foldl (fun b x => if before b < before x then x else b) a

/-! ### The tables (R367) -/

/-- Apply one journal entry (Table 11-9). -/
def applyEntry (u : Units) (e : JEntry) : Units :=
  let h := u.hng
  let slotOf := h.active.find? fun i => (tabGet h.slots i).region == e.idx
  match e.typ with
  | 1 => { u with hng := { h with hinge := tabPutD h.hinge e.idx (e.idx + 2 ^ 23) (e.value % 2 ^ 32) } }
  | 2 => { u with hng := { h with pip := tabPutD h.pip e.idx (pipFirst u e.idx) e.value } }
  | 3 =>
    let i := e.aux % 16
    let m : MoveSlot := { cause := nbits e.aux 4 4, region := e.idx, src := nbits e.value 0 23, tgt := nbits e.value 32 23 }
    let u := setMoving u e.idx true
    let h := u.hng
    { u with hng := { h with slots := tabPut h.slots i m, active := if h.active.contains i then h.active else h.active ++ [i] } }
  | 4 => match slotOf with
    | some i => { u with hng := { h with slots := tabPut h.slots i { tabGet h.slots i with cursor := e.aux % 2 ^ 15 } } }
    | none => u
  | 5 => match slotOf with
    | some i => setMoving (freeMoveSlot u i) e.idx false
    | none => u
  | 6 => if h.failed.contains (9 * e.idx + e.aux % 16) then u else { u with hng := { h with failed := h.failed ++ [9 * e.idx + e.aux % 16] } }
  | _ => u

/-- Replay blocks from n on, until one is missing or unreadable; its sequence is the next to append. Each is read under R379. -/
def replay (f : MountFound) : Nat → Nat → Units → Units
  | 0, n, u => { u with hng := { u.hng with seq := n } }
  | k + 1, n, u =>
    match u.keep.blocks.find? fun b => b.seq == n with
    | none => { u with hng := { u.hng with seq := n } }
    | some b =>
      let at_ := blockPlace u.v n
      let (ok, u) := keepRead u at_.1 at_.2 (goodAt f.blocks n)
      if ok then replay f k (n + 1) (b.entries.foldl applyEntry u) else { u with hng := { u.hng with seq := n } }

/-- Moves found in the journal go on from their last cursor (step 5). -/
def resumeMoves (u : Units) : Units :=
  u.hng.active.foldl (fun u i =>
    let m := tabGet u.hng.slots i
    { u with hng := { u.hng with slots := tabPut u.hng.slots i { m with jcursor := m.cursor, next := m.cursor } } }) u

/-- The group's state and fields follow from the failed dies and the hinge table (step 4): with one die failed it is rebuilding while a region that is not lost lies in it, with more it is lost while any region lies in it; else degraded. -/
def mountGroup (u : Units) (s : Nat) : Units :=
  let q := failedDies u s
  if q = [] then u
  else
    let here := regionsIn u s
    let state := if q.length = 1 then (if here.any fun l => !hLost (hingeEntry u l) then 1 else 2) else if here = [] then 2 else 3
    putF (putF u F.HNG_GROUP_s_state s 0 state) F.HNG_GROUP_s_failed s 0 (q.headD 15)

/-- Counts of one group as the pip table gives them. -/
def countGroup (u : Units) (s : Nat) : Units :=
  let mine := u.hng.pip.cells.filter fun x => prnGroup u.v x.1 == s
  let first := fun (p : Nat) => if p < nRegions u.v then 3 else 1
  let now := fun (k : List Nat) => (mine.filter fun x => k.contains (pState x.2)).length
  let was := fun (k : List Nat) => (mine.filter fun x => k.contains (first x.1)).length
  let pool := 2048 + now [0, 1] - was [0, 1]
  let raw := 65536 + 2048 + now [1, 3] - was [1, 3]
  let occ := 65536 + now [2, 3] - was [2, 3]
  let sick := groupState u s ≠ 0
  let h := u.hng
  let u := { u with hng := { h with
    poolN := tabPut h.poolN s (if sick then 0 else pool), rawN := tabPut h.rawN s (if sick then raw - rawPool u s else raw), occN := tabPut h.occN s occ,
    retired := h.retired + now [5], dead := h.dead + now [6] + if sick then pool else 0 } }
  if sick then putF u F.HNG_GROUP_s_remaining s 0 occ else u

/-- Counts of regions by their oldest age value. -/
def countAges (u : Units) : Units :=
  let t := (tabKeys u.hng.hinge).foldl (fun t l => match ageKey u l with
    | some x => tabPut t x (tabGet t x + 1)
    | none => t) tabNil
  { u with drf := { u.drf with ages := t } }

/-- Dies failed at this TRAIN are added (step 4). -/
def addTrainFailures (u : Units) : Units :=
  (List.range (nCexus u.v)).foldl (fun u n => (cex u n).failed.foldl (fun u d => failDie u (8 * (n / 9) + d) (n % 9) false) u) u

/-- The tables of a first boot (R368), in the epoch restored: no block stands, and the checkpoint that the superblock is to name is those tables. -/
def firstTables (u : Units) (e : Nat) : Units :=
  { u with hng := { u.hng with mounted := true, bootEpoch := e, seq := 0, since := 0 }, keep := { u.keep with blocks := [], ckA := { epoch := e } } }

/-- The tables from the checkpoint slot in force and the journal from J0 (steps 2, 3 and 5). -/
def rebuiltTables (u : Units) (sb : Superblock) (f : MountFound) : Units :=
  let k := if sb.slot = 0 then u.keep.ckA else u.keep.ckB
  let u := { u with hng := { u.hng with mounted := true, bootEpoch := k.epoch, hinge := k.hinge, pip := k.pip, failed := sb.failed } }
  let u := replay f (u.keep.blocks.length + 1) sb.j0 u
  let n := u.hng.seq
  resumeMoves { u with hng := { u.hng with since := n - sb.j0 }, keep := { u.keep with blocks := u.keep.blocks.filter fun b => b.seq < n } }

/-- What the tables imply: group states, counts, ages, the dies failed at TRAIN, the pool cache (steps 4 and 6). -/
def settleTables (u : Units) : Units :=
  let groups := List.range (nStripes u.v)
  let u := groups.foldl countGroup (groups.foldl mountGroup u)
  scanPool (addTrainFailures (countAges u))

/-! ### Patches (R419, R420) -/

/-- A DRAM record becomes a valid entry whose spare copy holds what the initialisation wrote. -/
def loadDramPatch (u : Units) (x : Nat) : Units :=
  let ch := nbits x 1 4
  let line := lineAt u (nbits x 5 1) (nbits x 6 4) (nbits x 10 5) (nbits x 22 18) (nbits x 15 7)
  if nDdr u.v ≤ ch ∨ getF u F.DDR5_n_STATE_state ch ≠ 2 then u
  else putPatch u ch { line := line, spare := if line % 16 = 0 then initHeader else 0 }

/-- A media line as a read through all three layers gives it at MOUNT: the die's own bytes, or the rebuilt line where they are undefined. -/
def mountLine (u : Units) (n d dla : Nat) : MLine :=
  let l := storedLine u n d dla
  if l.bad = false then l
  else xorLines (((List.range 9).filter fun q => q != n % 9).map fun q => storedLine u (9 * (n / 9) + q) d dla)

/-- A media record is loaded unless it names what is failed or absent, or its line cannot be read. -/
def loadMediaPatch (u : Units) (bad : Bool) (x : Nat) : Units :=
  let n := nbits x 1 7
  let d := nbits x 8 3
  let dla := nbits x 11 31
  if nCexus u.v ≤ n ∨ dieFailed u n d then u
  else if bad then flag u F.INT_ERR_patch_load
  else (addMediaPatch u n d dla (mountLine u n d dla)).2

/-- Every record of the superblock, in its order. -/
def loadPatches (u : Units) (records : List (BitVec 64)) (bad : List Nat) : Units :=
  (List.range records.length).foldl (fun u i =>
    let x := (records.getD i 0).toNat
    if x % 2 = 0 then loadDramPatch u x else loadMediaPatch u (bad.contains i) x) u

/-! ### Drift (R380, R384) -/

/-- E_a, the map of every group calibrated with a sweep, and one advance; on a first boot row 0 is written instead. -/
def restoreDrift (c : Ctl) (u : Units) (f : MountFound) (e : Nat) (first : Bool) : Units :=
  let u := driftDefaults { u with drf := { u.drf with e := e, periodAt := u.now } }
  let u := (List.range (nStripes u.v)).foldl (fun u s => calibrateOp u s true (groupScores f s)) u
  if first then writeRows u e else epochTickOp c u

/-! ### A pending life-cycle change (R520) -/

/-- The journal up to now is durable. -/
def writeJournal (u : Units) : Units :=
  let u := closeBlock u
  { u with keep := { u.keep with blocks := u.keep.blocks ++ u.hng.writing }, hng := { u.hng with writing := [] } }

/-- One region trimmed, and re-pointed where it is lost or its generation is at the end. -/
def retireRegion (u : Units) (l : Nat) : Units :=
  if trimRepoints u l then
    let u := if (chooseTarget u 3).isNone then scanPool (joinPool (writeJournal u)) else u
    match chooseTarget u 3 with
    | some t => trimTables u l (some t)
    | none => u
  else trimTables u l none

/-- MOUNT finds pending = 1: the staging lines are zero already, RETIRED trims every region, and the record is written again with pending = 0. -/
def settlePending (u : Units) : Units :=
  if u.boot.lcPending = false then u
  else
    let u := if u.boot.lcState = 3 then scanPool (joinPool (writeJournal ((tabKeys u.hng.hinge).foldl retireRegion u))) else u
    onBoot u fun b => { b with lcPending := false, lcSlot := 1 - b.lcSlot, lcCount := (b.lcCount + 1) % 2 ^ 32 }

/-! ### The image's configuration (R147, R509) -/

/-- REGISTERS and REGULATION are staged, and TURNS for every channel. -/
def stageImage (u : Units) : Units :=
  let l := u.boot.image
  let t := sectionOf l 5
  let u := (pairsOfSection (sectionOf l 7)).foldl (fun u e => match regAt e.1 with
    | some (r, i, j) =>
      let old := stagedReg u r i j
      putStaged u r i j ((old ^^^ (old &&& r.info.rws)) ||| (e.2.toNat &&& r.info.rws))
    | none => u) u
  let byte := fun (k : Nat) => imgNum t k 1
  { u with regs := { u.regs with pending := true, descStaged := u.regs.descStaged ++ pairsOfSection (sectionOf l 6) },
           adm := { u.adm with tables := u.adm.tables ++ [(false, List.range (nDdr u.v), (List.range 64).map byte), (true, List.range (nCexus u.v), (List.range 72).map fun k => byte (64 + k))] } }

/-- The latch that ends MOUNT: the configuration comes into force, and with it the outcome of its check, made as a recheck, with cause image where it is overbooked. -/
def mountLatch (c : Ctl) (u : Units) : Units :=
  let u := putShares (configLatched c u (switchBanks u))
  let r := recheckOf u true (planNow u) fun media ch => 4 * getF u F.PWR_ZONE_z_STATE_step (zoneOf media ch)
  putBounds (putOutcome u r 8) (planNow u) r

/-! ### MOUNT -/

/-- The work of MOUNT with its tables, from a superblock or from nothing. -/
def mountWork (c : Ctl) (u : Units) (f : MountFound) (sb : Option Superblock) : Units :=
  let e := restoredEpoch u f
  let u := mountStaging u
  let u := match sb with
    | some x => rebuiltTables u x f
    | none => firstTables u e
  let u := loadPatches (settleTables u) ((sb.map fun x => x.patches).getD []) f.badPatches
  let u := restoreDrift c u f e sb.isNone
  mountLatch c (stageImage (settlePending u))

/-- MOUNT's work has ended: it fails under R187, R222 or R367, or the clusters that RUN needs are switched on. -/
def mountCompleteOp (c : Ctl) (u : Units) (f : MountFound) : Ctl × Units :=
  if c.mode ≠ .mount ∨ u.hng.mounted then (c, u)
  else if geometryOk u = false then failBoot c u 9
  else
    let u := countCopies (driftDefaults u) f
    match newestSb u.keep with
    | none =>
      if firstBootOk c.lc = false then failBoot c u 9
      else settleMode c (raiseClusters (putTrans (mountWork c u f none) (some { target := .run, cause := 1 })))
    | some sb =>
      let u := noteUnclean u sb
      if sb.variant ≠ variantCode u.v then failBoot c u 9
      else settleMode c (raiseClusters (putTrans (mountWork c u f (some sb)) (some { target := .run, cause := 1 })))

/-- MOUNT_COMPLETE (R147). -/
def execMountComplete (f : MountFound) (s : State) : Host.Outcome State Fault Refusal := onBoth s fun c u => mountCompleteOp c u f

end Sys2Proof.Machine
end

