-- ==== Sys2Proof/Machine/Integrity.lean ====
section
/-! DEFINITION. Scrubbing, repair, the SRAM scrubber, the maintenance arbiters and the die temperature poll (R305, R388, R389, R405 to R416, R425 to R430). -/

namespace Sys2Proof.Machine

/-! ### Maintenance arbiters (R425 to R430) -/

/-- An arbiter's channel key names a channel of the variant. -/
def arbExists (v : Variant) (media : Bool) (ch : Nat) : Bool := if media then ch < nCexus v else ch < nDdr v

/-- Power domain of a channel. -/
def chDomain (media : Bool) (ch : Nat) : Nat := if media then pdMedia (ch / 9) else pdDram ch

/-- Domain of a requester: scrubber, calibration and self-test lie with the channel, the region mover and the drift calibrator in PD_CORE, parity rebuild in PD_INTEG. -/
def requesterDomain (media : Bool) (ch r : Nat) : Nat :=
  if r = 1 ∨ r = 4 then 2 else if r = 2 then 6 else chDomain media ch

/-- A requester is masked while its domain is off, in reset or fenced (R429). -/
def masked (u : Units) (media : Bool) (ch r : Nat) : Bool := !pdOn u (requesterDomain media ch r) || fenced u (requesterDomain media ch r)

/-- The channel has no other access ready (R410). -/
def chIdle (u : Units) (media : Bool) (ch : Nat) : Bool :=
  if media then (cex u ch).xq.isEmpty && (cex u ch).cur.isNone && (List.range 8).all fun d => (dieOf u ch d).queue.isEmpty
  else [0, 1].all fun s => (subOf u ch s).rq.isEmpty && (subOf u ch s).wq.isEmpty && (subOf u ch s).held.isEmpty

/-- A self-test that has begun names the channel. -/
def testOn (u : Units) (media : Bool) (ch : Nat) : Bool :=
  (underWay u).any fun x => testCh x.2 == ch && (if media then isDieTest x.2 else isDdrTest x.2)

/-- A transfer of a Cexus channel serves an entry of this requester. -/
def loadsFor (u : Units) (ch r : Nat) : Bool :=
  (cex u ch).xq.any fun t => t.load && ((bufOf u (ch / 9) t.buf).any fun b => loadRequester u b == r)

/-- A die of the channel has a read of this requester waiting or under way (Table 14-1). -/
def readsFor (u : Units) (ch r : Nat) : Bool :=
  (List.range 8).any fun d =>
    let x := dieOf u ch d
    (x.queue.any fun y => y.owner == r) || (x.cur.any fun y => y.owner == r) || x.result.any fun y => y.owner == r

/-- A RETRAIN of the channel is sweeping in RUN (R306). -/
def sweeping (c : Ctl) (u : Units) (ch : Nat) : Bool := c.mode == .run && (underWay u).any fun x => isRetrainCex x.2 && testCh x.2 == ch

/-- The next rank in turn of a DDR5 channel is due for its oscillator (R264). -/
def calDue (u : Units) (ch : Nat) : Bool :=
  let p := getF u F.DDR5_n_RETRAIN_period ch
  inService u ch && p != 0 && (ddr u ch).calAt + 25000 * p ≤ u.now

/-- The requester raises its request (Table 14-1). -/
def wants (c : Ctl) (u : Units) (media : Bool) (ch r : Nat) : Bool :=
  let works := c.mode == .run || c.mode == .service
  if works = false ∨ masked u media ch r then false
  else if media then
    if r = 0 then chIdle u true ch
    else if r = 1 then loadsFor u ch 1 || readsFor u ch 1
    else if r = 2 then loadsFor u ch 2 || readsFor u ch 2
    else if r = 3 then inWindow u ch && (linkDue u ch || sweeping c u ch || (List.range 8).any fun d => (dieOf u ch d).zqDue) || (List.range 8).any fun d => (dieOf u ch d).calibrating
    else if r = 4 then u.drf.cals.any fun x => x.1 / 8 == ch / 9
    else if r = 5 then testOn u true ch
    else false
  else if r = 0 then inService u ch && chIdle u false ch
  else if r = 3 then calDue u ch
  else if r = 5 then testOn u false ch
  else false

/-- The cycles of an arbiter's clock in a time given in AON cycles: media cycles of 0.625 ns, or controller cycles of two tCK. -/
def arbCycles (u : Units) (media : Bool) (ch n : Nat) : Nat := if media then 16 * n else n * 10000000 / (2 * tCkFs u ch)

/-- An arbiter after time has passed: a holder that has lowered its request holds nothing, a request raised since is noted with its moment, and one that is masked or no longer raised loses its wait (R425, R429). -/
def settleArb (c : Ctl) (u : Units) (media : Bool) (ch : Nat) : Arb :=
  let a := tabGet u.arbs (chKey media ch)
  let holder := if a.holder < 6 ∧ wants c u media ch a.holder then a.holder else 7
  let raised := (List.range 6).foldl (fun t r =>
    if r = holder ∨ wants c u media ch r = false then tabPut t r 0
    else if tabGet t r = 0 then tabPut t r (u.now + 1) else t) a.raised
  { a with holder := holder, raised := raised }

/-- Requesters that wait. -/
def waitingOf (a : Arb) : List Nat := (List.range 6).filter fun r => tabGet a.raised r != 0

/-- Rank of a requester. -/
def rankOf (a : Arb) (r : Nat) : Nat := nbits a.rank (3 * r) 3

/-- The requester of a list that comes first in an order; ties go to higher rank, then to the lower number. -/
def firstBy (a : Arb) (before : Nat → Nat → Bool) : List Nat → Option Nat
  | [] => none
  | r :: t =>
    match firstBy a before t with
    | none => some r
    | some q => if before q r ∨ (before r q = false ∧ rankOf a r < rankOf a q) then some q else some r

/-- The next grant is the bye: its number is a multiple of n, or a smaller n has made it so (R427, R428). -/
def isBye (a : Arb) : Bool := (a.number + 1) % a.bye == 0 || a.byeNext

/-- The requester that the decision chooses: the longest wait for a bye, the highest rank otherwise. -/
def decide_ (a : Arb) : Option Nat :=
  if isBye a then firstBy a (fun q r => tabGet a.raised q < tabGet a.raised r) (waitingOf a)
  else firstBy a (fun q r => rankOf a r < rankOf a q) (waitingOf a)

/-- Give a grant: it is numbered and its wait is counted (R430). -/
def giveGrant (u : Units) (media : Bool) (ch : Nat) (a : Arb) (r : Nat) : Units :=
  let w := arbCycles u media ch (u.now + 1 - tabGet a.raised r)
  let bye := isBye a
  let top := 2 ^ 32 - 1
  let a := { a with holder := r, raised := tabPut a.raised r 0, number := a.number + 1, sinceBye := if bye then 0 else a.sinceBye + 1, byeNext := false,
                    grants := tabPut a.grants r ((tabGet a.grants r + 1) % 2 ^ 32), waits := tabPut a.waits r (min top (tabGet a.waits r + w)),
                    longest := tabPut a.longest r (max (tabGet a.longest r) (min top w)) }
  let u := { u with arbs := tabPut u.arbs (chKey media ch) a }
  if media then (List.range 8).foldl (fun u d => dieGo u ch d) u else count u (cDdr ch 15)

/-- A decision of an arbiter: no grant is held and a request is raised. -/
def grantOp (c : Ctl) (u : Units) (media : Bool) (ch : Nat) : Units :=
  if arbExists u.v media ch = false ∨ pdOn u (chDomain media ch) = false then u
  else
    let a := settleArb c u media ch
    let u := { u with arbs := tabPut u.arbs (chKey media ch) a }
    if a.holder < 6 then u
    else
      match decide_ a with
      | none => u
      | some r => giveGrant u media ch a r

/-- The arbiter that MNT_IDX selects, if the variant has it. -/
def arbSelected (u : Units) : Option (Bool × Nat) :=
  let media := getF u F.MNT_IDX_media == 1
  let ch := getF u F.MNT_IDX_channel
  if arbExists u.v media ch ∧ getF u F.MNT_IDX_req < 6 ∧ pdOn u (chDomain media ch) then some (media, ch) else none

/-- A write of ranks, from the next decision on (R428). -/
def rankWriteOp (u : Units) (v : Nat) : Units :=
  match arbSelected u with
  | none => u
  | some (m, ch) => { u with arbs := tabPut u.arbs (chKey m ch) { tabGet u.arbs (chKey m ch) with rank := v % 2 ^ 18 } }

/-- A write of the bye interval: 0 is refused; a new interval not above the grants since the last bye makes the next one the bye. -/
def byeWriteOp (u : Units) (v : Nat) : Units :=
  match arbSelected u with
  | none => u
  | some (m, ch) =>
    let n := v % 16
    if n = 0 then flag u F.MNT_ERR_cfg
    else
      let a := tabGet u.arbs (chKey m ch)
      { u with arbs := tabPut u.arbs (chKey m ch) { a with bye := n, byeNext := a.byeNext || decide (n ≤ a.sinceBye) } }

/-! ### The DDR5 scrubber (R411, R412) -/

/-- Sets of a slice. -/
def nSets (u : Units) : Nat := 2 ^ setsLog2 u

/-- An uncorrectable way (Table 6-7): a valid-clean one becomes empty, a valid-dirty one poisoned with its ep kept and reported with source 1; an empty or poisoned one is only counted. -/
def scrubWay (u : Units) (s set w : Nat) : Units :=
  let h := effHeader u s set
  if wayState h w = 1 then changeHeader u s set (emptyWay h w) 4
  else if wayState h w = 2 then poisonAt u s set w 1
  else u

/-- The location of a correction as the CHANNEL_HEALTH notice and INT_DDR_n_CAND carry it. -/
def candidateFound (u : Units) (c line : Nat) (err : BitVec 640) : Units :=
  let sub := lineSub line
  let rank := lineRank u line
  let u := putReg u .INT_DDR_n_CAND_LO c 0 (1 + sub * 2 + rank * 4 + lineBank line * 2 ^ 6 + lineCol line / 16 * 2 ^ 11)
  let u := flag (putReg u .INT_DDR_n_CAND_HI c 0 (lineRow u line)) F.INT_DDR_n_ERR_candidate c
  if inF u F.INT_CFG_auto_patch = 1 then (addPatch u c line err).2
  else healthNotice u false c 3 (sub + rank * 2) 0 (lineRow u line)

/-- A corrected location joins the 16 most recent; corrected in an earlier lap too, it is a candidate. -/
def noteLocation (u : Units) (c line : Nat) (err : BitVec 640) : Units :=
  let x := ddr u c
  let again := x.cands.any fun y => y.1 == line && y.2 != x.laps
  let l := (x.cands.filter fun y => y.1 != line) ++ [(line, x.laps)]
  let u := setDdr u c { x with cands := l.drop (l.length - 16) }
  if again then candidateFound u c line err else u

/-- A device-path correction counts for its device; at dev_limit in one lap the device is suspect. -/
def noteDevice (u : Units) (c line dev : Nat) : Units :=
  let x := ddr u c
  let sub := lineSub line
  let rank := lineRank u line
  let k := (sub * 16 + rank) * 16 + dev
  let n := tabGet x.devCount k + 1
  let u := setDdr u c { x with devCount := tabPut x.devCount k n }
  if n = inF u F.INT_CFG_dev_limit then
    let u := putReg (flag u F.INT_DDR_n_ERR_device_suspect c) .INT_DDR_n_DEV c 0 (dev + sub * 2 ^ 4 + rank * 2 ^ 5)
    healthNotice (ddrIntEvent u c) false c 4 (sub + rank * 2) dev 0
  else u

/-- The outcome of one code word of a scrub (Table 13-4): discarded where the way is busy or a write of it is queued. -/
def scrubLineOp (u : Units) (c line : Nat) (err : BitVec 640) : Units :=
  let set := line / 16
  let x := subOf u c (lineSub line)
  let busy := hasLine (x.wq ++ x.held) line || (line % 16 != 0 && (hdrEntry u c set).any fun e => e.busy.any fun b => b.1 == line % 16 - 1)
  if busy ∨ (slice u c).sealed.contains set then u
  else
    let patch := (subOf u c (lineSub line)).patches.find? fun p => p.line == line
    let lost := fun (u : Units) =>
      let u := addSat u F.INT_DDR_n_CNT_uncorr c 0 1
      if line % 16 = 0 then sealSet u c set else scrubWay u c set (line % 16 - 1)
    match patch with
    | some p => if p.poisoned then lost u else u
    | none =>
      match dramDecode u err with
      | (.clean, u) => if line % 16 = 0 ∧ hdrFmt (dramLine (slice u c) line) ≠ 0x5A then sealSet u c set else u
      | (.device d, u) => noteLocation (noteDevice (count (addSat u F.INT_DDR_n_CNT_device c 0 1) (cDdr c 13)) c line d) c line err
      | (.general, u) => noteLocation (generalPath u c) c line err
      | (.uncorrectable, u) => lost u
      | (.other l, u) => if line % 16 = 0 ∧ hdrFmt l ≠ 0x5A then sealSet u c set else u

/-- Seconds since a moment stored in microseconds plus one. -/
def secondsSince (u : Units) (at1 : Nat) : Nat := if at1 = 0 then 0 else (usec u + 1 - at1) / 1000000

/-- The scrubber goes to the next row; at the end of the channel a lap ends. -/
def scrubNextRow (u : Units) (c : Nat) : Units :=
  let x := ddr u c
  if x.scrubSet + 8 < nSets u then setDdr u c { x with scrubSet := x.scrubSet + 8 }
  else
    let u := putReg u .INT_DDR_n_LAP c 0 (min (2 ^ 24 - 1) (secondsSince u x.scrubAt))
    setDdr u c { x with scrubSet := 0, scrubAt := usec u + 1, laps := x.laps + 1, devCount := tabNil, overdue := false }

/-- The scrubber holds the grant of the channel's arbiter. -/
def scrubHolds (u : Units) (media : Bool) (ch : Nat) : Bool := (tabGet u.arbs (chKey media ch)).holder == 0

/-- The turn under way on the subchannel of a line is a maintenance or an open turn, which alone carry maintenance traffic (R142). -/
def maintTurn (u : Units) (ch line : Nat) : Bool :=
  let k := (subOf u ch (lineSub line)).entry % 4
  k == 0 || k == 3

/-- One row of one subchannel is read under a grant: eight sets, 128 lines, which end it. -/
def ddrScrubOp (c : Ctl) (u : Units) (ch : Nat) (errs : List (BitVec 640)) : Units :=
  if inService u ch = false ∨ scrubHolds u false ch = false ∨ ¬ (c.mode = .run ∨ c.mode = .service) ∨ maintTurn u ch ((ddr u ch).scrubSet * 16) = false then u
  else
    let first := (ddr u ch).scrubSet * 16
    let u := (List.range 128).foldl (fun u i => scrubLineOp u ch (first + i) (errs.getD i 0)) u
    pumpSlice c (endGrant (scrubNextRow u ch) ch 0) ch

/-! ### The Cexus scrubber (R413) -/

/-- The logical region whose hinge entry names a physical region. -/
def regionAt (u : Units) (p : Nat) : Option Nat :=
  match (tabKeys u.hng.hinge).find? fun l => hPrn (hingeEntry u l) == p with
  | some l => some l
  | none => if p < nRegions u.v ∧ (tabFind p u.hng.hinge.cells).isNone then some p else none

/-- Place of a slot in the walk of a channel: die select, then slot. -/
def walkKey (die slot : Nat) : Nat := die * 67584 + slot

/-- The first slot from a place on whose region is in state 2, on a die that has not failed. -/
def nextSlot (u : Units) (n from_ : Nat) : Option Nat :=
  let all := (tabKeys u.hng.pip).filterMap fun p =>
    let s := prnGroup u.v p
    let k := walkKey (s % 8) (prnSlot u.v p)
    if s / 8 = n / 9 ∧ pState (pipEntry u p) = 2 ∧ dieFailed u n (s % 8) = false ∧ from_ ≤ k then some k else none
  match all with
  | [] => none
  | a :: t => some (t.foldl min a)

/-- The hinge unit answers for a slot: region, generation and codes, as a FILL_FWD would carry them. -/
def beginSlot (u : Units) (n k : Nat) : Units :=
  let y := cex u n
  let p := slotPrn u.v (8 * (n / 9) + k / 67584) (k % 67584)
  setCex u n { y with scrubDie := k / 67584, scrubSlot := k % 67584, scrubLine := 0, scrubRegion := ((regionAt u p).map fun l => l + 1).getD 0,
                      scrubGen := pGen (pipEntry u p), scrubCode := twoCodes (readCodes u p) }

/-- Logical stripe of a die line address in a region at a spin. -/
def stripeAtDla (dla spin : Nat) : Nat := (dla % 16384 + 16384 - 256 * spin % 16384) % 16384

/-- What a scrub read finds for one line: none where its codes have failed, else whether the line is worth judging (its generation is the region's). -/
def judgeScrub (u : Units) (k : Pkt) (parity : Bool) (l : Option MLine) : Option (Option MLine) × Units :=
  match l with
  | none => (none, u)
  | some x =>
    if parity then (some none, u)
    else
      match settleLine u k x with
      | (none, u) => (none, addSat u F.INT_CEX_n_CNT_uncorr (9 * (k.group / 8) + k.pos) 0 1)
      | (some true, u) => (some none, u)
      | (some false, u) => (some (some x), u)

/-- One line of a Cexus scrub, with the retry of R322 at the code of the oldest bucket where the region is split: `err` lies over the first read and `again` over the retry. -/
def cexLineOp (u : Units) (n dla : Nat) (err again : BitVec 768) : Units :=
  let y := cex u n
  let s := 8 * (n / 9) + y.scrubDie
  let p := slotPrn u.v s y.scrubSlot
  let j := posLine dla (n % 9)
  let l := y.scrubRegion - 1
  let k : Pkt := { lla := (l * 16384 + stripeAtDla dla (pSpin (pipEntry u p))) * 8 + j % 8, group := s, pos := n % 9, dla := dla, gen := y.scrubGen, prn := p }
  if (bufAt u (n / 9) s dla).isSome then u
  else
    let (x, outer, u) := decodeLine u n (storedLine u n y.scrubDie dla) err
    match judgeScrub u k (j == 8) x with
    | (some r, u) =>
      let u := if outer then addTally u p l 1 else u
      (match r with
       | some x => if nbits x.metaWord 24 1 = 1 then addSat u F.INT_CEX_n_CNT_poisoned n 0 1 else u
       | none => u)
    | (none, u) =>
      if y.scrubCode / 16 = 0 then queueRepair u k (n % 9) 3
      else
        let (x, _, u) := decodeLine u n (storedLine u n y.scrubDie dla) again
        match judgeScrub u k (j == 8) x with
        | (none, u) => queueRepair u k (n % 9) 3
        | (some r, u) =>
          let u := addTally (addSat u F.DRF_SPLIT_retries 0 0 1) p l 2
          (match r with
           | some x => if nbits x.metaWord 24 1 = 1 then addSat u F.INT_CEX_n_CNT_poisoned n 0 1 else u
           | none => u)

/-- The lap of a Cexus channel ends. -/
def endCexLap (u : Units) (n : Nat) : Units :=
  let y := cex u n
  let u := putReg u .INT_CEX_n_LAP n 0 (min (2 ^ 24 - 1) (secondsSince u y.scrubAt))
  setCex u n { y with scrubDie := 0, scrubSlot := 0, scrubLine := 0, scrubRegion := 0, scrubAt := usec u + 1, overdue := false }

/-- The slot under way, or the next one of the walk; none at the end of the lap. -/
def scrubSlotNow (u : Units) (n : Nat) : Option Units :=
  let y := cex u n
  if y.scrubRegion ≠ 0 ∧ y.scrubLine ≠ 0 ∧ dieFailed u n y.scrubDie = false then some u
  else (nextSlot u n (walkKey y.scrubDie y.scrubSlot)).map (beginSlot u n)

/-- 64 lines have been walked. -/
def scrubAdvance (u : Units) (n : Nat) : Units :=
  let y := cex u n
  if y.scrubLine + 64 < 16384 then setCex u n { y with scrubLine := y.scrubLine + 64 }
  else
    let k := walkKey y.scrubDie y.scrubSlot + 1
    let u := setCex u n { y with scrubDie := k / 67584, scrubSlot := k % 67584, scrubLine := 0, scrubRegion := 0 }
    if (nextSlot u n k).isNone then endCexLap u n else u

/-- 64 lines of one die are read under a grant, which ends. -/
def cexScrubOp (c : Ctl) (u : Units) (n : Nat) (errs : List (BitVec 768)) : Units :=
  if cexRuns u n = false ∨ scrubHolds u true n = false ∨ openTurn u n = false ∨ paused u n ∨ u.hng.mounted = false ∨ ¬ (c.mode = .run ∨ c.mode = .service) then u
  else
    let u := endGrant u (128 + n) 0
    match scrubSlotNow u n with
    | none => endCexLap u n
    | some u =>
      let y := cex u n
      let base := y.scrubSlot * 16384 + y.scrubLine
      scrubAdvance ((List.range 64).foldl (fun u i => cexLineOp u n (base + i) (errs.getD i 0) (errs.getD (64 + i) 0)) u) n

/-! ### Overdue laps (R414) -/

/-- The lap in progress has reached its limit: reported once. -/
def overdueOp (u : Units) (media : Bool) (ch : Nat) : Units :=
  if arbExists u.v media ch = false ∨ pdOn u (chDomain media ch) = false then u
  else if media then
    let y := cex u ch
    let limit := inF u F.INT_SCRUB_CEX_LIMIT_seconds
    if limit = 0 ∨ y.overdue ∨ secondsSince u y.scrubAt < limit then u
    else cexIntEvent (flag (setCex u ch { y with overdue := true }) F.INT_CEX_n_ERR_overdue ch) ch
  else
    let x := ddr u ch
    let limit := inF u F.INT_SCRUB_DDR_LIMIT_seconds
    if limit = 0 ∨ x.overdue ∨ secondsSince u x.scrubAt < limit then u
    else ddrIntEvent (flag (setDdr u ch { x with overdue := true }) F.INT_DDR_n_ERR_overdue ch) ch

/-! ### The SRAM scrubber (R415, R416) -/

/-- Words of a scrubbed table: 0 hinge (two regions a word), 1 pip, 2 context records (two handles a word), 3 drift map. -/
def sramWords (v : Variant) (table : Nat) : Nat :=
  if table = 0 then nRegions v / 2 else if table = 1 then nPhys v else if table = 2 then nCtx v / 2 else if table = 3 then 4 * nStripes v else 0

/-- The block fault of an SRAM word: first handle, region or PRN, and the owner of a context record's first handle. -/
def sramFault (u : Units) (word owner : Nat) : Units := blockFault u 3 (if owner = 0x10000 then epCore 1 else epCore 0) word (owner % 65536)

/-- A pip entry is out of use: one of an in-use region makes the region answer as lost; a pool region leaves the pool. -/
def badPipWord (u : Units) (p : Nat) : Units :=
  if u.hng.badPip.contains p then u
  else
    let pool := inPool u p
    let mark := fun (u : Units) => { u with hng := { u.hng with badPip := u.hng.badPip ++ [p] } }
    if pool then
      let s := prnGroup u.v p
      let raw := pState (pipEntry u p) = 1
      let h := u.hng
      checkPool (mark { u with hng := { h with poolN := tabPut h.poolN s (tabGet h.poolN s - 1), rawN := if raw then tabPut h.rawN s (tabGet h.rawN s - 1) else h.rawN,
                                               cache := h.cache.filter (fun x => x.2 != p), cacheTop := h.cacheTop.filter fun x => x.2 != p } })
    else sramFault (mark u) p 0x10000

/-- The outcome of an uncorrectable word (Table 13-5). -/
def sramLost (u : Units) (table i : Nat) : Units :=
  if table = 0 then
    if u.hng.badHinge.contains i then u else sramFault { u with hng := { u.hng with badHinge := u.hng.badHinge ++ [i] } } (2 * i) 0x10000
  else if table = 1 then badPipWord u i
  else if table = 2 then
    if u.badCtx.contains i then u
    else
      let owner := cBits (ctxRec u u.regs.epoch (2 * i)) 133 12
      sramFault { u with badCtx := u.badCtx ++ [i] } (2 * i) owner
  else
    let s := i / 4
    let zero := (List.range 8).map fun b => nbits (imgNum (sectionOf u.boot.image 4) 0 4) (4 * b) 4
    let u := putCodes u s zero
    if u.drf.cals.any fun x => x.1 == s then u else { u with drf := { u.drf with cals := u.drf.cals ++ [(s, true)] } }

/-- One word read by the SRAM scrubber; it writes back what it corrects. -/
def sramScrubOp (u : Units) (table i : Nat) (x : SramOutcome) : Units :=
  if sramWords u.v table ≤ i ∨ pdOn u 6 = false ∨ pdOn u 3 = false ∨ u.hng.mounted = false then u
  else
    match x with
    | .clean => u
    | .corrected => count (addSat u F.INT_SRAM_corrected 0 0 1) (cCore 21)
    | .uncorrectable =>
      let u := flag (addSat u F.INT_SRAM_uncorr 0 0 1) F.INT_ERR_sram
      sramLost (emitEvent u 0xC 0xFFFF [evReg u .INT_ERR]) table i

/-! ### Repair of a media line (R407, R408) -/

/-- The repair is taken off the queue. -/
def endRepair (u : Units) (e : Repair) : Units := { u with repairs := u.repairs.erase e }

/-- The repair of a stripe whose placement is still the one it names takes its entry and reads the eight other lines, each under the grant of its channel (R408). -/
def repairBegin (u : Units) (e : Repair) : Units :=
  let g := e.group / 8
  match takeBuf u g { use := .repair e.pos e.source e.lla false, group := e.group, dla := e.dla, prn := e.prn, gen := e.gen, stripe := e.lla / 8 } with
  | none => unpinStripe u (e.lla / 131072) (e.lla / 8 % 16384)
  | some (id, u) =>
    let u := endRepair u e
    let k : Pkt := { typ := .fillFwd, cls := 4, prio := 0, port := 64, lla := e.lla, group := e.group, pos := e.pos, dla := e.dla, gen := e.gen, prn := e.prn, code := twoCodes (readCodes u e.prn) }
    let x := grp u g
    let r : MRead := { id := x.nextRead, pkt := k, use := .mend id, old := fwdOld k }
    settleRead2 (beginDetour (setGrp u g { x with nextRead := x.nextRead + 1, reads := x.reads ++ [r] }) g r (fwdCode k)) g r.id

/-- A stripe-buffer entry is free for the repair. -/
def repairRoom (u : Units) (e : Repair) : Bool := (takeBuf u (e.group / 8) { group := e.group, dla := e.dla }).isSome

/-- The queued repair at a place of the queue (log 50): its placement is asked for; a stripe that has moved, been trimmed or been lost ends it. -/
def repairOp (c : Ctl) (u : Units) (place : Nat) : Units :=
  match u.repairs[place]? with
  | none => u
  | some e =>
    if ¬ (c.mode = .run ∨ c.mode = .service) ∨ pdOn u 6 = false ∨ pdOn u (pdMedia (e.group / 8)) = false ∨ repairRoom u e = false then u
    else
      let l := e.lla / 131072
      let t := e.lla / 8 % 16384
      match placementAnswer c u l t with
      | (.wait, u) => u
      | (.pass, u) => u
      | (.lost, u) => endRepair u e
      | (.at_ prn dla gen _, u) =>
        if prn = e.prn ∧ gen = e.gen ∧ dla = e.dla then repairBegin u e
        else endRepair (unpinStripe u l t) e

/-! ### Die temperature (R305, R388, R389) -/

/-- The dies of a channel settle their deferrals: a die without a valid reading follows the highest of the others and the zone offset. -/
def settleDies (u : Units) (n : Nat) : Units :=
  (liveDies u n).foldl (fun u d => settleDeferral u n d (dieTemp u n d (inF u F.PWR_THERM_offset))) u

/-- Stripe group of a die. -/
def dieGroup (n d : Nat) : Nat := 8 * (n / 9) + d

/-- A TEMP reading of a die. -/
def tempPollOp (u : Units) (n d : Nat) (temp : BitVec 8) (valid : Bool) : Units :=
  if cexRuns u n = false ∨ 8 ≤ d ∨ dieFailed u n d then u
  else
    let u := captureMove (frame u n 9 d 0) n d
    let y := cex u n
    let u := setCex u n { y with polled := if y.polled.contains d then y.polled else y.polled ++ [d] }
    let u := putF (putF u F.CEX_n_DIE_d_temp n d temp.toNat) F.CEX_n_DIE_d_temp_valid n d (if valid then 1 else 0)
    let u := settleDies u n
    if valid then
      if dieHot u n d ≤ asSigned temp.toNat then driftEvent (flag u F.DRF_ERR_hot) (dieGroup n d) else u
    else
      let u := cexEvent (flag u F.CEX_n_ERR_temp_invalid n) n d
      if dieTemp u n d 0 = none then driftEvent (flag u F.DRF_ERR_temp_blind) (dieGroup n d) else u

/-! ### Meanings -/

/-- MEDIA_TEMP_POLL (R305). -/
def execMediaTempPoll (ch die : Nat) (temp : BitVec 8) (valid : Bool) (s : State) : Host.Outcome State Fault Refusal :=
  onU s fun _ u => tempPollOp u ch die temp valid

/-- DDR5_SCRUB (R411). -/
def execDdr5Scrub (ch : Nat) (errs : List (BitVec 640)) (s : State) : Host.Outcome State Fault Refusal := onU s fun c u => ddrScrubOp c u ch errs

/-- CEXUS_SCRUB (R413). -/
def execCexusScrub (ch : Nat) (errs : List (BitVec 768)) (s : State) : Host.Outcome State Fault Refusal := onU s fun c u => cexScrubOp c u ch errs

/-- SRAM_SCRUB (R415). -/
def execSramScrub (table i : Nat) (x : SramOutcome) (s : State) : Host.Outcome State Fault Refusal := onU s fun _ u => sramScrubOp u table i x

/-- SCRUB_OVERDUE (R414). -/
def execScrubOverdue (media : Bool) (ch : Nat) (s : State) : Host.Outcome State Fault Refusal := onU s fun _ u => overdueOp u media ch

/-- REPAIR (R408). -/
def execRepair (place : Nat) (s : State) : Host.Outcome State Fault Refusal := onU s fun c u => repairOp c u place

/-- MNT_GRANT (R427). -/
def execMntGrant (media : Bool) (ch : Nat) (s : State) : Host.Outcome State Fault Refusal := onU s fun c u => grantOp c u media ch

end Sys2Proof.Machine
end

