-- ==== Sys2Proof/Machine/UnitReset.lean ====
section
/-! DEFINITION. Unit resets of telemetry and of the ring engine (R443, R474, R539, R540, R561). -/

namespace Sys2Proof.Machine

/-! ### What a reset of PD_TELE does (R539, R540, R443) -/

/-- Events that the packer holds: in its input queue, in lines not yet popped, in the line being packed, in the summary counts and in the lost tally. -/
def eventsHeld (t : Tele) : Nat :=
  t.inq.length + (t.fifo.map fun x => x.evts).sum + (t.heldLines.map fun x => x.evts).sum + (t.packing.map fun x => x.evts).sum + tabSum t.sums + t.lost

/-- Staged copies and banks of every register of an address range return to their reset values. -/
def clearStaged (u : Units) (lo hi : Nat) : Units :=
  let keep := fun a => decide (a < lo) || decide (hi ≤ a)
  { u with regs := { u.regs with staged := tabFilter u.regs.staged keep, bankA := tabFilter u.regs.bankA keep, bankB := tabFilter u.regs.bankB keep } }

/-- PD_TELE is reset: the packer is emptied into TELE_AON_LOST, every telemetry register and the core's counters return to their reset values, and the ledger's running counts begin again. -/
def resetTele (u : Units) : Units :=
  let t := u.tele
  let u := addSat u F.TELE_AON_LOST_count 0 0 (eventsHeld t)
  let kept := tabFilter t.counters fun n => counterDomain n != 5
  let base : Tab (Nat × Nat) := (List.range (nPorts u.v)).foldl (fun (b : Tab (Nat × Nat)) p => tabPut b p ((port u p).accepted, (port u p).done)) ⟨[]⟩
  let u := { u with tele := { counters := kept, high := t.high, ldgBase := base } }
  clearStaged (clearCells u 5) 0xA00000 0xA15000

/-! ### What a reset of PD_RINGS does (R474, R51) -/

/-- A descriptor named by another unit's work is no longer there. -/
def noDesc (d : Option (Nat × Nat)) : Option (Nat × Nat) := d.bind fun _ => none

/-- The media work that a descriptor asked for: a read for PATCH_ADD ends, a rewrite for POISON_CLEAR goes on for nobody. -/
def orphanGroup (u : Units) (g : Nat) : Units :=
  let patch := (grp u g).reads.filter fun x => match x.use with
    | .patch _ _ => true
    | _ => false
  let u := patch.foldl (fun u x => Sys2Proof.Machine.dropRead u g x.id) u
  let x := grp u g
  { u with grp := tabPut u.grp g { x with bufs := x.bufs.map fun b => match b.use with
      | .clear _ i named => { b with use := .clear 64 i named }
      | _ => b } }

/-- Work of the staging store, the hinge unit and the boot unit that waited to report to a descriptor stands alone or stops: line holds and forced destages of descriptors end, moves, checkpoints and rebuilds go on, an evacuation goes on to its restoration, an image write ends. -/
def orphanWork (u : Units) : Units :=
  let h := u.hng
  let slots := h.active.foldl (fun (t : Tab MoveSlot) i => tabPut t i { tabGet t i with desc := none }) h.slots
  let u := { u with
    hng := { h with due := h.due.map (fun w => { w with desc := none }), slots := slots, ckptDescs := [], trimHeld := [] }
    stg := { u.stg with waiters := u.stg.waiters.filter (fun w => w.desc.isNone), holds := [], evacDesc := none }
    audit := none
    pwr := { u.pwr with trans := u.pwr.trans.map fun t => { t with desc := none } } }
  let u := (List.range (nDdr u.v)).foldl (fun u s => setSlice u s { slice u s with forced := [] }) u
  let u := if u.stg.evac = 2 then beginRestore u else u
  let u := if u.boot.writeDesc.isSome then endImage (onBoot u fun b => { b with writeDesc := none }) 8 0 else u
  (List.range (nGroups u.v)).foldl orphanGroup u

/-- PD_RINGS is reset: every ring pair, the notice ring, every queue and every register of the ring engine return to their reset state, and outstanding descriptors receive no completion. -/
def resetRings (u : Units) : Units :=
  let u := orphanWork { u with rings := {} }
  clearStaged (clearCells u 4) 0x800000 0x803000

/-! ### The steps of R561 -/

/-- Nothing crosses the boundary of the domain any more (R183): the ring engine's tickets, packets and accesses on its port have all come back. -/
def unitQuiet (u : Units) (d : Nat) : Bool :=
  quietDomain u d && (d != 4 || (u.rings.reads.isEmpty && u.rings.writes.isEmpty))

/-- The domain is put in reset; requests that a descriptor held back go on. -/
def enterUnitReset (c : Ctl) (u : Units) (d : Nat) : Units :=
  setPd (if d = 4 then (List.range (nDdr u.v)).foldl (fun u s => if inService u s then pumpSlice c u s else u) (resetRings u) else resetTele u) d 0

/-- Unit resets go on: the fence is raised, which a reset of PD_TELE delays while an audit runs; once the boundary is quiet the domain is held in reset for 1 µs; then its fence falls and the next one begins. -/
def unitResetGo (c : Ctl) : Nat → Units → Units
  | 0, u => u
  | n + 1, u =>
    match u.pwr.unitResets with
    | [] => u
    | (d, since) :: rest =>
      let put := fun (u : Units) (l : List (Nat × Nat)) => { u with pwr := { u.pwr with unitResets := l } }
      if since = 0 then
        if d = 5 ∧ u.audit.isSome then u
        else
          let u := setFence u d true
          if unitQuiet u d then put (enterUnitReset c u d) ((d, u.now + 1) :: rest) else u
      else if since + 100 ≤ u.now + 1 then unitResetGo c n (put (switchOn u d) rest)
      else u

/-- A write of GLB_UNIT_RESET: bit 0 PD_TELE, bit 1 PD_RINGS. It is refused outside RUN and SERVICE and while a unit reset is in progress; both bits at once reset PD_RINGS first. -/
def unitResetWrite (c : Ctl) (u : Units) (v : Nat) : Units :=
  let want := (if nbits v 1 1 = 1 then [(4, 0)] else []) ++ (if nbits v 0 1 = 1 then [(5, 0)] else [])
  if want = [] then u
  else if ¬ (c.mode = .run ∨ c.mode = .service) ∨ u.pwr.unitResets ≠ [] then flag u F.GLB_ERR_unit_reset
  else unitResetGo c 3 { u with pwr := { u.pwr with unitResets := want } }

end Sys2Proof.Machine
end

