-- ==== Sys2Proof/Machine/Views.lean ====
section
/-! DEFINITION. What a read of each register returns: the stored value, or the state that a read-only register shows (the register tables of every chapter). -/

namespace Sys2Proof.Machine

/-- A word made of field values. -/
def packF (l : List (Fld × Nat)) : Nat := (l.map fun x => x.2 % 2 ^ x.1.w * 2 ^ x.1.lo).sum

/-- Bits set where a test holds, from bit 0. -/
def bitMask (n : Nat) (p : Nat → Bool) : Nat := ((List.range n).map fun i => if p i then 2 ^ i else 0).sum

/-- Four bytes of a byte string as a little-endian word. -/
def bytesWord (l : List (BitVec 8)) (k : Nat) : Nat := ((List.range 4).map fun i => (l.getD (4 * k + i) 0).toNat * 2 ^ (8 * i)).sum

/-! ### Request ports, contexts and keys -/

/-- PORT_n_STATE. -/
def viewPortState (u : Units) (p : Nat) : Nat :=
  packF [(F.PORT_n_STATE_state, (port u p).state), (F.PORT_n_STATE_hdr_used, hdrUsed (port u p)), (F.PORT_n_STATE_data_used, dataUsed (port u p))]

/-- CTX_STAT: the copy is made within the command that asks for it, so that busy reads as zero. -/
def viewCtxStat (u : Units) : Nat := packF [(F.CTX_STAT_staged, bit (u.ctxRead.any fun h => u.ctxStaged.any fun e => e.1 == h))]

/-- State of the key port: 3 while an erase waits, 2 while a message is not yet answered, else 0 or 1 as HELLO_ACK has been taken. -/
def keyPortShown (u : Units) : Nat :=
  if u.keyPort.erase.isSome then 3 else if u.keyPort.result.isSome ∨ u.boot.lcNew.isSome then 2 else u.keyPort.state

/-- A slot is loaded. -/
def slotLoaded (u : Units) (k : Nat) : Bool := (tabGet u.keys k).state == 1

/-- KEY_LOADED. -/
def viewKeyLoaded (u : Units) : Nat := (u.keys.cells.filter fun x => x.2.state == 1).length

/-! ### Regulation -/

/-- RGL_PORT_p_HELD: requests that stand at the bucket, by class. -/
def viewHeld (u : Units) (p : Nat) : Nat :=
  ((List.range 4).map fun k => min 255 ((port u p).reqs.filter fun r => r.phase == .bucket && r.cls == k).length * 2 ^ (8 * k)).sum

/-- The channel exists. -/
def chExists (u : Units) (media : Bool) (ch : Nat) : Bool := arbExists u.v media ch

/-- The turn-table image in force, and the dropped entries. -/
def tableNow (u : Units) (media : Bool) (ch : Nat) : List Nat × List Nat :=
  if media then (tabGet (grp u (ch / 9)).table (ch % 9), tabGet (grp u (ch / 9)).dropped (ch % 9)) else ((ddr u ch).table, (ddr u ch).dropped)

/-- RGL_OVH_DATA of the channel that RGL_OVH_IDX selects (R145). -/
def viewOverhead (c : Ctl) (u : Units) : Nat :=
  let media := getF u F.RGL_OVH_IDX_media == 1
  let ch := getF u F.RGL_OVH_IDX_channel
  if chExists u media ch = false then 0
  else
    let (t, d) := tableNow u media ch
    packF [(F.RGL_OVH_DATA_ref, if media then 0 else getF u F.DDR5_n_STATE_ref ch), (F.RGL_OVH_DATA_maint, max (t.filter fun e => e % 4 == 3).length (floorOf u media ch)),
      (F.RGL_OVH_DATA_thr, thrOf u media ch), (F.RGL_OVH_DATA_usable, ((reservedIdx t).filter fun i => !d.contains i).length),
      (F.RGL_OVH_DATA_in_service, bit (served u (c.mode == .run) media ch))]

/-- RGL_TT_DATA of the entry that RGL_TT_IDX selects. -/
def viewTurnTable (u : Units) : Nat :=
  let media := getF u F.RGL_TT_IDX_media == 1
  let ch := getF u F.RGL_TT_IDX_channel
  let i := getF u F.RGL_TT_IDX_entry
  if chExists u media ch = false ∨ turnsOf media ≤ i then 0
  else
    let (t, d) := tableNow u media ch
    packF [(F.RGL_TT_DATA_entry, t.getD i 0), (F.RGL_TT_DATA_dropped, bit (d.contains i))]

/-- RGL_OVB_STATE: what the last outcome stored, and pending while a cause has no outcome in force. -/
def viewOverbook (u : Units) : Nat :=
  nput (rawReg u .RGL_OVB_STATE) F.RGL_OVB_STATE_pending.lo 1 (bit (u.adm.gathered != 0 || u.adm.due != 0 || u.adm.result.isSome))

/-! ### Staging -/

/-- STG_EPOCH. -/
def viewEpoch (u : Units) : Nat :=
  packF [(F.STG_EPOCH_e, u.stg.e), (F.STG_EPOCH_live, bitMask 16 (epochLive u)), (F.STG_EPOCH_advance_wait, bit (u.stg.advanceWait || !u.stg.unacked.isEmpty))]

/-- STG_EVAC, zero while idle. -/
def viewEvac (u : Units) : Nat :=
  let k := u.stg.evacCh
  if u.stg.evac = 0 then 0
  else packF [(F.STG_EVAC_state, u.stg.evac), (F.STG_EVAC_channel, k), (F.STG_EVAC_partner, k ^^^ 1), (F.STG_EVAC_hold, bit u.stg.evacHold)]

/-- STG_SLICE_c_BOOK. -/
def viewBook (u : Units) (s : Nat) : Nat := packF [(F.STG_SLICE_c_BOOK_booked, booked u s), (F.STG_SLICE_c_BOOK_pinned, (slice u s).pins.length)]

/-- STG_SLICE_c_QUEUE. -/
def viewQueue (u : Units) (s : Nat) : Nat :=
  packF [(F.STG_SLICE_c_QUEUE_full_list, (slice u s).full.length), (F.STG_SLICE_c_QUEUE_urgent, (slice u s).urgent.length), (F.STG_SLICE_c_QUEUE_fills, (slice u s).fills.length)]

/-! ### DDR5 channels, Cexus channels, media schedulers -/

/-- The DRAM patch entry k: subchannel × 8 + entry. -/
def patchAt (u : Units) (c k : Nat) : Option Patch := (subOf u c (k / 8)).patches[k % 8]?

/-- DDR5_n_PATCH_u_e_LO. -/
def viewPatchLo (u : Units) (c k : Nat) : Nat :=
  match patchAt u c k with
  | none => 0
  | some p => packF [(F.DDR5_n_PATCH_u_e_LO_valid, 1), (F.DDR5_n_PATCH_u_e_LO_poisoned, bit p.poisoned), (F.DDR5_n_PATCH_u_e_LO_rank, lineRank u p.line),
      (F.DDR5_n_PATCH_u_e_LO_bank, lineBank p.line), (F.DDR5_n_PATCH_u_e_LO_burst, lineCol p.line / 16)]

/-- DDR5_n_PATCH_u_e_HI. -/
def viewPatchHi (u : Units) (c k : Nat) : Nat := ((patchAt u c k).map fun p => lineRow u p.line).getD 0

/-- DDR5_n_SPD_DATA: 512 bytes are kept of each DIMM. -/
def viewSpd (u : Units) (c : Nat) : Nat :=
  let w := getF u F.DDR5_n_SPD_IDX_word c
  if 128 ≤ w then 0 else bytesWord (if getF u F.DDR5_n_SPD_IDX_slot c = 0 then (ddr u c).spd0 else (ddr u c).spd1) w

/-- BSY_N of a die is low: it runs an array operation (R281). -/
def dieBusy (x : Die) : Bool := x.chip.busy

/-- CEX_n_STATE. -/
def viewCexState (u : Units) (n : Nat) : Nat :=
  packF [(F.CEX_n_STATE_state, getF u F.CEX_n_STATE_state n), (F.CEX_n_STATE_failed, bitMask 8 (dieFailed u n)),
    (F.CEX_n_STATE_susp, bitMask 8 fun d => (dieOf u n d).pgm && (dieOf u n d).st != .programming), (F.CEX_n_STATE_pgm, bitMask 8 fun d => (dieOf u n d).pgm)]

/-- CEX_n_DIE_d: the offsets as they stand against their baselines. -/
def viewDie (u : Units) (n d : Nat) : Nat :=
  let x := nput (nput (rawReg u .CEX_n_DIE_d n d) F.CEX_n_DIE_d_failed.lo 1 (bit (dieFailed u n d))) F.CEX_n_DIE_d_busy.lo 1 (bit (dieBusy (dieOf u n d)))
  nput (nput x F.CEX_n_DIE_d_wdrift.lo 8 (driftAt u n (writeTrim n d))) F.CEX_n_DIE_d_rdrift.lo 8 (driftAt u n (readTrim n d))

/-- CEX_n_ID_DATA: 96 bytes are kept of each die. -/
def viewIdent (u : Units) (n : Nat) : Nat :=
  let w := getF u F.CEX_n_ID_IDX_word n
  if 24 ≤ w then 0 else bytesWord (tabGet (cex u n).ident (getF u F.CEX_n_ID_IDX_die n)) w

/-- MS_g_STATE. -/
def viewSched (u : Units) (g : Nat) : Nat :=
  packF [(F.MS_g_STATE_phase, (grp u g).phase), (F.MS_g_STATE_degraded, bitMask 8 fun d => !(failedPos u (8 * g + d)).isEmpty), (F.MS_g_STATE_stripes, (grp u g).bufs.length)]

/-! ### Hinge and drift -/

/-- HNG_POOL: regions in state 0 or 1, those included that have been released and have not joined the pool. -/
def viewPool (u : Units) : Nat := poolCount u + (u.hng.limbo.filter fun x => pState (pipEntry u x.1) ≤ 1).length

/-- HNG_JRNL. -/
def viewJournal (u : Units) : Nat :=
  packF [(F.HNG_JRNL_since, min u.hng.since (2 ^ 24 - 1)), (F.HNG_JRNL_ckpt, bit u.hng.ckptOn), (F.HNG_JRNL_slot, ((newestSb u.keep).map fun s => s.slot).getD 0)]

/-- Sequence of the last durable block. -/
def viewJseq (u : Units) : Nat := (u.hng.seq - u.hng.writing.length - 1) % 2 ^ 32

/-- A move slot, if it holds work. -/
def slotNow (u : Units) (s : Nat) : Option MoveSlot := if u.hng.active.contains s then some (tabGet u.hng.slots s) else none

/-- The slot's work is a sweep or a format. -/
def isSweep (m : MoveSlot) : Bool := decide (7 ≤ m.cause)

/-- HNG_SLOT_s_A. -/
def viewSlotA (u : Units) (s : Nat) : Nat :=
  match slotNow u s with
  | none => 0
  | some m => packF [(F.HNG_SLOT_s_A_region, if isSweep m then 0 else m.region), (F.HNG_SLOT_s_A_cause, m.cause), (F.HNG_SLOT_s_A_active, 1)]

/-- HNG_SLOT_s_B. -/
def viewSlotB (u : Units) (s : Nat) : Nat := ((slotNow u s).map fun m => packF [(F.HNG_SLOT_s_B_cursor, m.cursor), (F.HNG_SLOT_s_B_jcursor, m.jcursor)]).getD 0

/-- HNG_SLOT_s_C: the target. -/
def viewSlotC (u : Units) (s : Nat) : Nat := ((slotNow u s).map fun m => m.tgt).getD 0

/-- HNG_SLOT_s_D: the source, zero for a sweep or format. -/
def viewSlotD (u : Units) (s : Nat) : Nat := ((slotNow u s).map fun m => if isSweep m then 0 else m.src).getD 0

/-- DRF_EPOCH: a minute is 6 × 10^9 AON cycles. -/
def viewAge (u : Units) : Nat :=
  packF [(F.DRF_EPOCH_e, u.drf.e), (F.DRF_EPOCH_held, bit u.drf.held), (F.DRF_EPOCH_minutes, min 65535 ((u.now - u.drf.periodAt) / 6000000000))]

/-- DRF_MAP_DATA. -/
def viewMap (u : Units) : Nat :=
  let s := getF u F.DRF_MAP_IDX_group
  if nStripes u.v ≤ s then 0 else tabGet u.drf.map (4 * s + getF u F.DRF_MAP_IDX_wear)

/-- DRF_STAT. -/
def viewDrift (u : Units) : Nat := packF [(F.DRF_STAT_deferred, u.drf.deferred.length), (F.DRF_STAT_cal, bit (!u.drf.cals.isEmpty))]

/-! ### Integrity and maintenance -/

/-- Progress of a DDR5 scrub. -/
def viewDdrProg (u : Units) (c : Nat) : Nat :=
  packF [(F.INT_DDR_n_PROG_done, (ddr u c).scrubSet * 1024 / nSets u), (F.INT_DDR_n_PROG_age, min (2 ^ 22 - 1) (secondsSince u (ddr u c).scrubAt))]

/-- Progress of a Cexus scrub through the walk of its dies and slots. -/
def viewCexProg (u : Units) (n : Nat) : Nat :=
  let y := cex u n
  packF [(F.INT_CEX_n_PROG_done, (walkKey y.scrubDie y.scrubSlot * 16384 + y.scrubLine) * 1024 / (8 * 67584 * 16384)),
    (F.INT_CEX_n_PROG_age, min (2 ^ 22 - 1) (secondsSince u y.scrubAt))]

/-- INT_CEX_n_PATCH_e_LO. -/
def viewMediaPatchLo (u : Units) (n e : Nat) : Nat :=
  match (cex u n).patches[e]? with
  | none => 0
  | some p => packF [(F.INT_CEX_n_PATCH_e_LO_valid, 1), (F.INT_CEX_n_PATCH_e_LO_die, p.1)]

/-- INT_CEX_n_PATCH_e_HI. -/
def viewMediaPatchHi (u : Units) (n e : Nat) : Nat := (((cex u n).patches[e]?).map fun p => p.2.1).getD 0

/-- A register of the arbiter and requester that MNT_IDX selects: zero where the variant has no such channel, and for requesters 6 and 7 (R442). -/
def viewArb (c : Ctl) (u : Units) (f : Bool → Nat → Nat → Arb → Nat) : Nat :=
  match arbSelected u with
  | none => 0
  | some (m, ch) => f m ch (getF u F.MNT_IDX_req) (settleArb c u m ch)

/-- MNT_STATE. -/
def arbStateOf (u : Units) (m : Bool) (ch : Nat) (a : Arb) : Nat :=
  packF [(F.MNT_STATE_holder, a.holder), (F.MNT_STATE_waiting, bitMask 6 fun r => tabGet a.raised r != 0), (F.MNT_STATE_masked, bitMask 6 (masked u m ch)),
    (F.MNT_STATE_count, min 15 a.sinceBye)]

/-! ### The ledger and the rings -/

/-- Headers accepted on a port since it last opened, less those before a reset of PD_TELE; the completions sent likewise. -/
def ledgerCount (u : Units) (done : Bool) : Nat :=
  let p := getF u F.LDG_PORT_IDX_port
  let b := tabGet u.tele.ldgBase p
  (if done then (port u p).done - b.2 else (port u p).accepted - b.1) % 2 ^ 32

/-- RNG_r_STATE. -/
def viewRing (u : Units) (r : Nat) : Nat :=
  packF [(F.RNG_r_STATE_state, (ring u r).state), (F.RNG_r_STATE_outstanding, (ring u r).descs.length), (F.RNG_r_STATE_fetch, (ring u r).fetch)]

/-- Tail and phase of the next entry, which is 1 until the ring first wraps. -/
def viewTail (tail : Nat) (flip : Bool) : Nat := packF [(F.RNG_r_CQ_TAIL_tail, tail), (F.RNG_r_CQ_TAIL_phase, bit (!flip))]

/-- RNG_IRQ_PEND_k. -/
def viewPend (u : Units) (k : Nat) : Nat := bitMask 32 fun i => u.rings.heldMsgs.any fun m => m.1 == 32 * k + i

/-! ### Power, boot, telemetry, global registers -/

/-- PWR_MODE. -/
def viewMode (c : Ctl) (u : Units) : Nat :=
  packF [(F.PWR_MODE_mode, modeCode c.mode), (F.PWR_MODE_prev, modeCode c.prev), (F.PWR_MODE_cause, c.cause), (F.PWR_MODE_drain_done, bit c.drainDone),
    (F.PWR_MODE_therm_off, bit c.thermOff), (F.PWR_MODE_shutdown, bit c.shutdown), (F.PWR_MODE_pwrfail, bit u.pwr.pwrfail)]

/-- PWR_DOMAIN: domains on or held. -/
def domainShown (u : Units) (d : Nat) : Bool := pdExists u.v d && (pdState u d == 1 || pdState u d == 2)

/-- LC_STATE. -/
def viewLc (c : Ctl) (u : Units) : Nat :=
  packF [(F.LC_STATE_state, c.lc), (F.LC_STATE_recorded, u.boot.lcState), (F.LC_STATE_pending, bit u.boot.lcPending), (F.LC_STATE_record, bit u.boot.lcHas)]

/-- TELE_CNT_n_HI for an attribute: the bits that its last read of a low word captured, where that read named the same counter, and the current bits otherwise (R526). -/
def viewCntHi (u : Units) (n : Nat) (user : Bool) : Nat :=
  match if user then u.tele.capUser else u.tele.capDriver with
  | some (k, x) => if k = n then x else counterHi u n
  | none => counterHi u n

/-- TELE_EVT_STATE. -/
def viewEvents (u : Units) : Nat :=
  packF [(F.TELE_EVT_STATE_occupancy, u.tele.fifo.length), (F.TELE_EVT_STATE_summary, bit (!u.tele.sums.cells.isEmpty)),
    (F.TELE_EVT_STATE_held, bit (!u.tele.heldLines.isEmpty)), (F.TELE_EVT_STATE_tally, min 65535 u.tele.lost)]

/-- GLB_STATUS. -/
def viewStatus (c : Ctl) (u : Units) : Nat :=
  packF [(F.GLB_STATUS_mode, modeCode c.mode), (F.GLB_STATUS_lc, c.lc), (F.GLB_STATUS_drain_done, bit c.drainDone), (F.GLB_STATUS_therm_off, bit c.thermOff),
    (F.GLB_STATUS_unit_reset, bit (!u.pwr.unitResets.isEmpty))]

/-- GLB_LATCH: both phases of a latch are one step of the model, so that switching reads as zero. -/
def viewLatch (u : Units) : Nat :=
  packF [(F.GLB_LATCH_pending, bit u.regs.pending), (F.GLB_LATCH_deferred, bit u.regs.deferred), (F.GLB_LATCH_hold, getF u F.GLB_LATCH_CTRL_hold),
    (F.GLB_LATCH_epoch, u.regs.epoch), (F.GLB_LATCH_advances, u.regs.advances)]

/-! ### Every register -/

/-- What a register shows beside its staged fields; `user` is the attribute of the read. -/
def viewReg (c : Ctl) (u : Units) (user : Bool) (r : Reg) (i j : Nat) : Nat :=
  match r with
  | .PORT_n_STATE => viewPortState u i
  | .PORT_n_ORD => (port u i).next % 65536
  | .CTX_STAT => viewCtxStat u
  | .KEY_PORT_STATE => nput (rawReg u .KEY_PORT_STATE) 0 2 (keyPortShown u)
  | .KEY_LOADED => viewKeyLoaded u
  | .KEY_SLOT_MAP_k => bitMask 32 fun b => slotLoaded u (32 * i + b)
  | .RGL_PORT_p_CLASS | .RGL_PORT_p_TOKEN_0 | .RGL_PORT_p_TOKEN_1 | .RGL_PSET_k_LO | .RGL_PSET_k_HI => bankReg u u.regs.epoch r i j
  | .STG_HOME_LO => ((List.range 8).map fun p => if p < nDdr u.v then homeSlice u u.regs.epoch p * 2 ^ (4 * p) else 0).sum
  | .STG_HOME_HI => ((List.range 8).map fun p => if 8 + p < nDdr u.v then homeSlice u u.regs.epoch (8 + p) * 2 ^ (4 * p) else 0).sum
  | .RGL_PORT_p_HELD => viewHeld u i
  | .RGL_OVB_STATE => viewOverbook u
  | .RGL_OVH_DATA => viewOverhead c u
  | .RGL_TT_DATA => viewTurnTable u
  | .STG_EPOCH => viewEpoch u
  | .STG_EVAC => viewEvac u
  | .STG_TOTAL_DIRTY => totalDirty u
  | .STG_SLICE_c_DIRTY => (slice u i).dirty
  | .STG_SLICE_c_SHARE => if inService u i then (slice u i).share else 0
  | .STG_SLICE_c_BOOK => viewBook u i
  | .STG_SLICE_c_QUEUE => viewQueue u i
  | .DDR5_n_PATCH_u_e_LO => viewPatchLo u i j
  | .DDR5_n_PATCH_u_e_HI => viewPatchHi u i j
  | .DDR5_n_SPD_DATA => viewSpd u i
  | .CEX_n_STATE => viewCexState u i
  | .CEX_n_DIE_d => viewDie u i j
  | .CEX_n_ID_DATA => viewIdent u i
  | .MS_g_STATE => viewSched u i
  | .HNG_POOL => viewPool u
  | .HNG_RAW => rawCount u
  | .HNG_RETIRED => u.hng.retired
  | .HNG_DEAD => u.hng.dead
  | .HNG_JRNL => viewJournal u
  | .HNG_JSEQ => viewJseq u
  | .HNG_MOVES => u.hng.moves % 2 ^ 32
  | .HNG_SLOT_s_A => viewSlotA u i
  | .HNG_SLOT_s_B => viewSlotB u i
  | .HNG_SLOT_s_C => viewSlotC u i
  | .HNG_SLOT_s_D => viewSlotD u i
  | .DRF_EPOCH => viewAge u
  | .DRF_MAP_DATA => viewMap u
  | .DRF_AGE_DATA => tabGet u.drf.ages (getF u F.DRF_AGE_IDX_value)
  | .DRF_STAT => viewDrift u
  | .INT_RQ => nput (rawReg u .INT_RQ) 0 7 u.repairs.length
  | .INT_DDR_n_PROG => viewDdrProg u i
  | .INT_CEX_n_PROG => viewCexProg u i
  | .INT_CEX_n_PATCH_e_LO => viewMediaPatchLo u i j
  | .INT_CEX_n_PATCH_e_HI => viewMediaPatchHi u i j
  | .MNT_RANK => viewArb c u fun _ _ _ a => a.rank
  | .MNT_BYE => viewArb c u fun _ _ _ a => a.bye
  | .MNT_STATE => viewArb c u fun m ch _ a => arbStateOf u m ch a
  | .MNT_GRANTS => viewArb c u fun _ _ q a => tabGet a.grants q
  | .MNT_WAIT => viewArb c u fun _ _ q a => tabGet a.waits q
  | .MNT_LONGEST => viewArb c u fun _ _ q a => tabGet a.longest q
  | .MNT_FLOOR => viewArb c u fun m ch _ _ => floorOf u m ch
  | .LDG_STATE => ldgState u
  | .LDG_EPOCH_k => epochCount u i
  | .LDG_PORT_ACC => ledgerCount u false
  | .LDG_PORT_DONE => ledgerCount u true
  | .RNG_r_SQ_TAIL => (ring u i).tail
  | .RNG_r_CQ_HEAD => (ring u i).head
  | .RNG_r_STATE => viewRing u i
  | .RNG_r_CQ_TAIL => viewTail (ring u i).cqTail (ring u i).flip
  | .RNG_NT_HEAD => u.rings.ntHead
  | .RNG_NT_TAIL => viewTail u.rings.ntTail u.rings.ntFlip
  | .RNG_NT_LOST => u.rings.ntLost
  | .RNG_IRQ_PEND_k => viewPend u i
  | .PWR_MODE => viewMode c u
  | .PWR_DOMAIN_LO => bitMask 32 (domainShown u)
  | .PWR_DOMAIN_HI => bitMask 11 fun d => domainShown u (32 + d)
  | .PWR_FENCE_LO => bitMask 32 (fenced u)
  | .PWR_FENCE_HI => bitMask 11 fun d => fenced u (32 + d)
  | .LC_STATE => viewLc c u
  | .TELE_WIN => u.tele.wins
  | .TELE_CNT_n_LO => counterLo u i
  | .TELE_CNT_n_HI => viewCntHi u i user
  | .TELE_EVT_STATE => viewEvents u
  | .GLB_STATUS => viewStatus c u
  | .GLB_DEADBOLT => c.bolts.toNat
  | .GLB_LATCH => viewLatch u
  | r => rawReg u r i j

/-- The value that a read of a register returns: its RWS bits from the staged copy, or from the bank in force in the in-force view (R548), every other bit as the register shows it, WO bits as zero. -/
def shownReg (c : Ctl) (u : Units) (user force : Bool) (r : Reg) (i j : Nat) : Nat :=
  let x := viewReg c u user r i j
  let d := r.info
  let y := if force then bankReg u u.regs.epoch r i j else stagedReg u r i j
  let own := x ^^^ (x &&& (d.rws ||| d.wo))
  own ||| (y &&& d.rws)

end Sys2Proof.Machine
end

