-- ==== Sys2Proof/Machine/Registers.lean ====
section
/-! DEFINITION. The register port: the map, the in-force view, the bit-alias space, access codes, user accesses, DEADBOLT and every register whose write has an effect of its own (R14 to R18, R428, R448, R449, R468 to R474, R482, R526, R532, R541 to R561). -/

namespace Sys2Proof.Machine

/-! ### Places (R545, R547 to R549) -/

/-- What an address names: a register instance, in the ordinary map or the in-force view; a trim word; one bit of a register; a bit-alias word of nothing; or nothing. -/
inductive Place where
  | reg (r : Reg) (i j : Nat) (force : Bool)
  | trim (media : Bool) (ch a : Nat) (force : Bool)
  | bit (r : Reg) (i j b : Nat)
  | noBit
  | none (force : Bool)
deriving DecidableEq, Repr

/-- The place in the ordinary map. -/
def mapPlace (a : Nat) (force : Bool) : Place :=
  match regAt a, trimAt a with
  | some (r, i, j), _ => .reg r i j force
  | none, some (m, ch) => .trim m ch a force
  | none, none => .none force

/-- The place of a byte address whose bits [25:2] name the word. -/
def regPlaceOf (addr : Nat) : Place :=
  let a := addr % 2 ^ 26 / 4 * 4
  if a < 0x1000000 then mapPlace a false
  else if a < 0x1400000 then
    let x := a - 0x1000000
    match regAt (x / 128 * 4) with
    | some (r, i, j) => .bit r i j (x % 128 / 4)
    | none => .noBit
  else if 0x2000000 ≤ a ∧ a < 0x3000000 then mapPlace (a - 0x2000000) true
  else .none false

/-- The variant has the instance (R8). -/
def instExists (v : Variant) (r : Reg) (i j : Nat) : Bool :=
  decide (i < r.info.n1.count v) && decide (j < r.info.n2.count v) && (if r = .PWR_ZONE_z_CFG ∨ r = .PWR_ZONE_z_STATE then zoneExists v i else true)

/-- Domain that an access needs: an RWS register belongs to PD_CORE (R551), any other one to the domain that holds it. -/
def accessDomain (r : Reg) (i : Nat) : Nat := if r.info.rws ≠ 0 then 2 else regDomain r i

/-- Domain of a place. -/
def placeDomain : Place → Nat
  | .reg r i _ _ => accessDomain r i
  | .bit r i _ _ => accessDomain r i
  | .trim m ch _ _ => chDomain m ch
  | .noBit => 0
  | .none _ => 0

/-! ### Reads -/

/-- A read of one attribute ends the capture of that attribute, unless it reads a counter's low word (R526). -/
def endCapture (u : Units) (user : Bool) : Units :=
  { u with tele := (if user then { u.tele with capUser := none } else { u.tele with capDriver := none }) }

/-- A read of TELE_CNT_n_LO captures the high bits for its attribute. -/
def capture (u : Units) (user : Bool) (n : Nat) : Units :=
  { u with tele := (if user then { u.tele with capUser := some (n, counterHi u n) } else { u.tele with capDriver := some (n, counterHi u n) }) }

/-- The value that a register instance shows: zero where the variant lacks it or its domain is not on (R8, R482). -/
def instValue (c : Ctl) (u : Units) (user force : Bool) (r : Reg) (i j : Nat) : Nat :=
  if instExists u.v r i j && pdOn u (accessDomain r i) then shownReg c u user force r i j else 0

/-- A capture point that tracking moves: the subchannel and the place of a trim word of a DDR5 channel in its table (R263). -/
def trackedAt (media : Bool) (ch a : Nat) : Option (Nat × Nat) :=
  let key := (a - trimRead ch 0) / 4
  if media = false ∧ trimRead ch 0 ≤ a ∧ key < 512 then some (key / 256, key % 256) else none

/-- A trim word with what tracking has moved it by. -/
def trimShown (u : Units) (media : Bool) (ch a : Nat) : Word :=
  match trackedAt media ch a with
  | some (s, k) => trimRaw u a + BitVec.ofInt 32 (getAt (subOf u ch s).tracked k)
  | none => trimRaw u a

/-- Tracking goes on from a trim word as it has been written (R275). -/
def untrack (u : Units) (media : Bool) (ch a : Nat) : Units :=
  match trackedAt media ch a with
  | some (s, k) => let x := subOf u ch s; setSub u ch s { x with tracked := x.tracked.filter fun e => e.1 != k }
  | none => u

/-- A trim word. -/
def trimValue (u : Units) (media : Bool) (ch a : Nat) : Nat :=
  if chExists u media ch && pdOn u (chDomain media ch) then (trimShown u media ch a).toNat else 0

/-- What a read of a place returns. -/
def placeValue (c : Ctl) (u : Units) (user : Bool) : Place → Nat
  | .reg r i j force => instValue c u user force r i j
  | .trim m ch a _ => trimValue u m ch a
  | .bit r i j b => nbits (instValue c u user false r i j) b 1
  | .noBit => 0
  | .none _ => 0

/-- A read of a place: its value, and what it does to the captures. -/
def readPlace (c : Ctl) (u : Units) (user : Bool) (p : Place) : Nat × Units :=
  let x := placeValue c u user p
  match p with
  | .reg .TELE_CNT_n_LO n _ _ => (x, if n < 1472 ∧ pdOn u 5 then capture u user n else endCapture u user)
  | _ => (x, endCapture u user)

/-! ### Writes of single registers -/

/-- CTX_CMD.read: the record in force, with owc_map and flush_seq in their places, and the sum of the clusters' shares (R94, R100). -/
def ctxReadOp (u : Units) : Units :=
  let h := getF u F.CTX_IDX_handle
  let x := nput (nput (ctxRec u u.regs.epoch h).toNat 109 8 (owcMap u h)) 117 16 (tabGet u.flushSeq h)
  let n := ((List.range (nClusters u.v)).map fun k => shareOf u k h).sum
  let regs : List Reg := [.CTX_DATA_0, .CTX_DATA_1, .CTX_DATA_2, .CTX_DATA_3, .CTX_DATA_4]
  let u := (regs.zipIdx).foldl (fun (u : Units) (q : Reg × Nat) => putReg u q.1 0 0 (nbits x (32 * q.2) 32)) u
  { putReg u .CTX_WRCNT 0 0 n with ctxRead := some h }

/-- HNG_CMD.read: the entry that HNG_IDX selects; zero beyond the table (R370). -/
def hingeReadOp (u : Units) : Units :=
  let i := getF u F.HNG_IDX_index
  let e := if getF u F.HNG_IDX_table = 0 then (if i < nRegions u.v then hingeEntry u i else 0) else if i < nPhys u.v then pipEntry u i else 0
  putReg (putReg u .HNG_DATA_0 0 0 (e % 2 ^ 32)) .HNG_DATA_1 0 0 (e / 2 ^ 32)

/-- A field that keeps 0 out of its register takes 1. -/
def atLeastOne (u : Units) (f : Fld) (i : Nat) : Units := if getF u f i = 0 then putF u f i 0 1 else u

/-- The bits of a register that a write sets as written: RW, and RWB whose group is not bolted (R559). -/
def plainBits (c : Ctl) (r : Reg) : Nat :=
  let d := r.info
  d.rw ||| (if nbits c.bolts.toNat d.group 1 = 1 then 0 else d.rwb)

/-- A write by access code: RW and RWB bits take the value, W1C bits written with 1 are cleared, RWS bits go to the staged copy and mark a change as pending (R14, R553, R554). -/
def codeWrite (c : Ctl) (u : Units) (r : Reg) (i j v : Nat) : Units :=
  let d := r.info
  let plain := plainBits c r
  let old := rawReg u r i j
  let kept := old ^^^ (old &&& (plain ||| (v &&& d.w1c)))
  let u := if plain = 0 ∧ d.w1c = 0 then u else putReg u r i j (kept ||| (v &&& plain))
  if d.rws = 0 then u
  else
    let s := stagedReg u r i j
    let u := putStaged u r i j ((s ^^^ (s &&& d.rws)) ||| (v &&& d.rws))
    { u with regs := { u.regs with pending := true } }

/-- GLB_UNMAPPED follows GLB_ERR.unmapped: it holds nothing once the flag is cleared. -/
def clearUnmapped (u : Units) : Units := if getF u F.GLB_ERR_unmapped = 0 then putReg u .GLB_UNMAPPED 0 0 0 else u

/-- A write to a register instance that the variant has and whose domain is on. Of CTX_IDX the bits at and above the width of the variant's handles are dropped, so that they read as zero: the model's choice (log entry 100). -/
def regWrite (c : Ctl) (u : Units) (r : Reg) (i j v : Nat) : Ctl × Units :=
  match r with
  | .GLB_DEADBOLT => ({ c with bolts := c.bolts ||| BitVec.ofNat 14 v }, u)
  | .GLB_UNIT_RESET => (c, unitResetWrite c u v)
  | .GLB_ERR => (c, clearUnmapped (codeWrite c u r i j v))
  | .PORT_n_CTRL => (c, if v % 2 = 1 then pump c (portClosing c u i true) i else u)
  | .CTX_IDX => (c, codeWrite c u r i j (v % nCtx u.v))
  | .CTX_CMD => (c, if v % 2 = 1 then ctxReadOp u else u)
  | .HNG_CMD => (c, if v % 2 = 1 then hingeReadOp u else u)
  | .DDR5_n_SCHED => (c, schedWriteOp u i false v)
  | .DDR5_n_THERM => (c, schedWriteOp u i true v)
  | .DDR5_n_TIM_k => (c, timWriteOp u i j v)
  | .DDR5_n_RETRAIN => (c, atLeastOne (codeWrite c u r i j v) F.DDR5_n_RETRAIN_limit i)
  | .CEX_n_LINK => (c, atLeastOne (atLeastOne (codeWrite c u r i j v) F.CEX_n_LINK_probe i) F.CEX_n_LINK_temp_period i)
  | .MS_g_CFG =>
    let n := nbits v 0 4
    (c, codeWrite c u r i j (if n = 0 ∨ 8 < n then nput v 0 4 (getF u F.MS_g_CFG_batch_min i) else v))
  | .MNT_RANK => (c, rankWriteOp u v)
  | .MNT_BYE => (c, byeWriteOp u v)
  | .RNG_r_SQ_TAIL => (c, sqDoorbellOp u i (v % 65536))
  | .RNG_r_CQ_HEAD => (c, cqDoorbellOp u i (v % 65536))
  | .RNG_NT_HEAD => (c, ntDoorbellOp u (v % 65536))
  | .RNG_r_CTRL => (c, if v % 2 = 1 then ringResetOp c u i else u)
  | .RNG_NT_CTRL => (c, if v % 2 = 1 then ntResetOp u else u)
  | .RNG_IRQ_MASK_k => (c, irqMaskOp u i v)
  | r => (c, codeWrite c u r i j v)

/-- A write to an instance: discarded where the variant lacks it or its domain is not on. -/
def instWrite (c : Ctl) (u : Units) (r : Reg) (i j v : Nat) : Ctl × Units :=
  if instExists u.v r i j && pdOn u (accessDomain r i) then regWrite c u r i j (v % 2 ^ 32) else (c, u)

/-- An alias write acts on its one bit by the bit's access code (Table 19-3). -/
def bitWrite (c : Ctl) (u : Units) (r : Reg) (i j b v : Nat) : Ctl × Units :=
  let d := r.info
  let one := v % 2
  if nbits (d.rw ||| d.rwb) b 1 = 1 then instWrite c u r i j (nput (rawReg u r i j &&& (d.rw ||| d.rwb)) b 1 one)
  else if nbits d.rws b 1 = 1 then instWrite c u r i j (nput (stagedReg u r i j &&& d.rws) b 1 one)
  else if one = 1 ∧ d.rws = 0 then instWrite c u r i j (2 ^ b ||| (rawReg u r i j &&& (d.rw ||| d.rwb)))
  else (c, u)

/-- A write of a place. The in-force view takes none. -/
def writePlace (c : Ctl) (u : Units) (p : Place) (v : Nat) : Ctl × Units :=
  match p with
  | .reg r i j false => instWrite c u r i j v
  | .trim m ch a false =>
    (c, if chExists u m ch && pdOn u (chDomain m ch) then
          untrack (putTrim u a (BitVec.ofNat 32 v)) m ch a
        else u)
  | .bit r i j b => bitWrite c u r i j b v
  | _ => (c, u)

/-! ### Accesses -/

/-- An address that names no register: the flag is set, and the first such address is recorded (R545). -/
def unmappedAt (u : Units) (write : Bool) (addr : Nat) : Units :=
  let u := flag u F.GLB_ERR_unmapped
  if getF u F.GLB_UNMAPPED_valid = 1 then u
  else putReg u .GLB_UNMAPPED 0 0 (packF [(F.GLB_UNMAPPED_write, bit write), (F.GLB_UNMAPPED_addr, addr / 4), (F.GLB_UNMAPPED_valid, 1)])

/-- The user window (Table 19-2). -/
def inUserWindow (addr : Nat) : Bool := 0xA00000 ≤ addr % 2 ^ 26 && addr % 2 ^ 26 < 0xA10000

/-- A user access that is denied: it reads as zero and sets TELE_ERR.user_denied (R532). -/
def denyUser (u : Units) (write : Bool) : Units :=
  let u := if write then u else endCapture u true
  if pdOn u 5 then flag u F.TELE_ERR_user_denied else u

/-- An access of the driver to a place: the response, and what it does. -/
def driverAccess (c : Ctl) (u : Units) (write : Bool) (p : Place) (addr v : Nat) : Ctl × Units :=
  if write then
    let (c, u) := writePlace c u p v
    (c, present (match p with
      | .none false => unmappedAt u true addr
      | _ => u) (.regData 0))
  else
    let (x, u) := readPlace c u false p
    (c, present (match p with
      | .none _ => unmappedAt u false addr
      | _ => u) (.regData (BitVec.ofNat 32 x)))

/-- An access of a user program. -/
def userAccessAt (c : Ctl) (u : Units) (write : Bool) (p : Place) (addr : Nat) : Units :=
  if write ∨ inUserWindow addr = false ∨ getF u F.TELE_CFG_user_read = 0 then present (denyUser u write) (.regData 0)
  else
    let (x, u) := readPlace c u true p
    present u (.regData (BitVec.ofNat 32 x))

/-- An access waits for the wake: in HUSH, or while it is entered, where it needs a domain other than PD_AON, or follows one that waits (R482, R487, R543). -/
def mustWait (c : Ctl) (u : Units) (domain : Nat) : Bool := !u.pwr.held.isEmpty || ((c.mode == .hush || u.pwr.hushing) && domain != 0)

/-- The access is held, up to the four that the port holds, and wakes the block. -/
def holdAccess (c : Ctl) (u : Units) (a : RegAcc) : Units :=
  if u.pwr.held.length < 4 then wakeNow c { u with pwr := { u.pwr with held := u.pwr.held ++ [a] } } else u

/-- One access of the register port to a place. -/
def placeAccess (c : Ctl) (u : Units) (write user : Bool) (p : Place) (addr v : Nat) : Ctl × Units :=
  if c.mode = .reset then (c, u)
  else if mustWait c u (if user then 5 else placeDomain p) then (c, holdAccess c u { write := write, user := user, addr := addr, value := BitVec.ofNat 32 v })
  else
    let u := if write then { u with pwr := { u.pwr with activeAt := u.now } } else u
    if user then (c, userAccessAt c u write p addr) else driverAccess c u write p addr v

/-- One access of the register port to an address. -/
def accessOp (write user : Bool) (addr v : Nat) (c : Ctl) (u : Units) : Ctl × Units := placeAccess c u write user (regPlaceOf addr) addr v

/-- A write of the driver to a register instance by name. -/
def writeNamed (r : Reg) (i v : Nat) (c : Ctl) (u : Units) : Ctl × Units :=
  if i < r.info.n1.full then placeAccess c u true false (.reg r i 0 false) (regAddr r i 0) v else (c, u)

/-- The accesses that waited for the wake, oldest first. -/
def heldAccesses (c : Ctl) (u : Units) : Ctl × Units :=
  u.pwr.held.foldl (fun (x : Ctl × Units) a => accessOp a.write a.user a.addr a.value.toNat x.1 x.2) (c, { u with pwr := { u.pwr with held := [] } })

/-- The end of a wake: the block is back, and the held accesses are made. -/
def wakeCompleteOp (c : Ctl) (u : Units) : Ctl × Units :=
  let (c, u) := wakeDoneOp c u
  if c.mode = .hush ∨ u.pwr.hushing then (c, u) else heldAccesses c u

/-! ### Meanings -/

/-- CTX_CMD_READ (R100). -/
def execCtxCmdRead (s : State) : Host.Outcome State Fault Refusal := onBoth s (writeNamed .CTX_CMD 0 1)

/-- HNG_CMD_READ (R370). -/
def execHngCmdRead (s : State) : Host.Outcome State Fault Refusal := onBoth s (writeNamed .HNG_CMD 0 1)

/-- REOPEN (R70). -/
def execReopen (port : Nat) (s : State) : Host.Outcome State Fault Refusal := onBoth s (writeNamed .PORT_n_CTRL port 1)

/-- DDR5_SCHED_WRITE (R229). -/
def execDdr5SchedWrite (ch : Nat) (therm : Bool) (value : Word) (s : State) : Host.Outcome State Fault Refusal :=
  onBoth s (writeNamed (if therm then .DDR5_n_THERM else .DDR5_n_SCHED) ch value.toNat)

/-- MNT_RANK_WRITE (R428). -/
def execMntRankWrite (value : Word) (s : State) : Host.Outcome State Fault Refusal := onBoth s (writeNamed .MNT_RANK 0 value.toNat)

/-- MNT_BYE_WRITE (R428). -/
def execMntByeWrite (value : Word) (s : State) : Host.Outcome State Fault Refusal := onBoth s (writeNamed .MNT_BYE 0 value.toNat)

/-- SQ_DOORBELL (R448). -/
def execSqDoorbell (r : Nat) (tail : Word) (s : State) : Host.Outcome State Fault Refusal := onBoth s (writeNamed .RNG_r_SQ_TAIL r tail.toNat)

/-- CQ_DOORBELL (R449). -/
def execCqDoorbell (r : Nat) (head : Word) (s : State) : Host.Outcome State Fault Refusal := onBoth s (writeNamed .RNG_r_CQ_HEAD r head.toNat)

/-- NT_DOORBELL (R469). -/
def execNtDoorbell (head : Word) (s : State) : Host.Outcome State Fault Refusal := onBoth s (writeNamed .RNG_NT_HEAD 0 head.toNat)

/-- RING_RESET (R468). -/
def execRingReset (r : Nat) (s : State) : Host.Outcome State Fault Refusal := onBoth s (writeNamed .RNG_r_CTRL r 1)

/-- NOTICE_RING_RESET (R469). -/
def execNoticeRingReset (s : State) : Host.Outcome State Fault Refusal := onBoth s (writeNamed .RNG_NT_CTRL 0 1)

/-- IRQ_MASK_WRITE (R473). -/
def execIrqMaskWrite (k : Nat) (value : Word) (s : State) : Host.Outcome State Fault Refusal := onBoth s (writeNamed .RNG_IRQ_MASK_k k value.toNat)

/-- TELE_CNT_LO_READ (R526). -/
def execTeleCntLoRead (n : Nat) (user : Bool) (s : State) : Host.Outcome State Fault Refusal :=
  onBoth s fun c u => if n < 1472 then placeAccess c u false user (.reg .TELE_CNT_n_LO n 0 false) (regAddr .TELE_CNT_n_LO n 0) 0 else (c, u)

/-- USER_ACCESS (R532). -/
def execUserAccess (write : Bool) (addr : Nat) (value : Word) (s : State) : Host.Outcome State Fault Refusal :=
  onBoth s (accessOp write true addr value.toNat)

/-- REGISTER_WRITE (R14). -/
def execRegisterWrite (addr : Nat) (value : Word) (s : State) : Host.Outcome State Fault Refusal := onBoth s (accessOp true false addr value.toNat)

/-- UNMAPPED_ACCESS (R545): an access of the driver, which at an address that names a register acts on it. -/
def execUnmappedAccess (write : Bool) (addr : Nat) (value : Word) (s : State) : Host.Outcome State Fault Refusal :=
  onBoth s (accessOp write false addr value.toNat)

/-- BIT_ALIAS_WRITE (R550): a write in the bit-alias space. -/
def execBitAliasWrite (addr : Nat) (value : Word) (s : State) : Host.Outcome State Fault Refusal :=
  onBoth s fun c u => if 0x1000000 ≤ addr ∧ addr < 0x1400000 then accessOp true false addr value.toNat c u else (c, u)

/-- DEADBOLT (R559). -/
def execDeadbolt (value : Word) (s : State) : Host.Outcome State Fault Refusal := onBoth s (writeNamed .GLB_DEADBOLT 0 value.toNat)

/-- LATCH_HOLD (R556). -/
def execLatchHold (value : Word) (s : State) : Host.Outcome State Fault Refusal := onBoth s (writeNamed .GLB_LATCH_CTRL 0 value.toNat)

/-- UNIT_RESET_TELE (R561). -/
def execUnitResetTele (s : State) : Host.Outcome State Fault Refusal := onBoth s (writeNamed .GLB_UNIT_RESET 0 1)

/-- UNIT_RESET_RINGS (R561). -/
def execUnitResetRings (s : State) : Host.Outcome State Fault Refusal := onBoth s (writeNamed .GLB_UNIT_RESET 0 2)

/-- WAKE_COMPLETE (R488). -/
def execWakeComplete (s : State) : Host.Outcome State Fault Refusal := onBoth s wakeCompleteOp

end Sys2Proof.Machine
end

