-- ==== Sys2Proof/Machine/Settle.lean ====
section
/-! DEFINITION. How descriptors under way go on when what they wait for has come: flush points, journal blocks, answers to lines, and what the ring-master port returns; and the latch as a command (R112, R364, R365, R451, R452, R459 to R464, R553). -/

namespace Sys2Proof.Machine

/-! ### Going on -/

/-- One begun descriptor goes on as far as it can. -/
def settleDesc (c : Ctl) (u : Units) (r : Nat) (d : Desc) : Units :=
  match dOp d with
  | 0x05 | 0x08 => flushStep c u r d
  | 0x06 => trimStep c u r d
  | 0x07 => prefetchStep c u r d
  | 0x10 | 0x11 => payloadStep c u r d
  | 0x23 => driftCalStep c u r d
  | 0x24 => regionMoveStep c u r d
  | 0x25 => rebuildStep c u r d
  | 0x26 => if isPatchMedia d then mediaPatchStep c u r d else u
  | 0x27 => poisonSetStep c u r d
  | 0x28 => poisonClearStep c u r d
  | 0x30 => checkpointStep c u r d
  | 0x32 => imageStep c u r d
  | 0x34 => sanitizeStep c u r d
  | 0x3F => abortStep c u r d
  | _ => u

/-- The ring engine works: its domain is on, it is not fenced for a reset, and the mode is one that runs descriptors (R450). -/
def ringsRun (c : Ctl) (u : Units) : Bool := pdOn u 4 && !fenced u 4 && fetchMode c

/-- Every begun descriptor of some opcodes goes on, ring by ring in fetch order. -/
def settleDescs (ops : List Nat) (c : Ctl) (u : Units) : Units :=
  if ringsRun c u = false then u
  else
    ((underWay u).filter fun x => ops.contains (dOp x.2)).foldl (fun u x =>
      match findDesc u x.1 x.2.idx with
      | some d => settleDesc c u x.1 d
      | none => u) u

/-- Kinds of SELFTEST (Table 15-6). -/
def testKinds : List Nat := [0x01, 0x02, 0x03, 0x04, 0x10, 0x11, 0x20]

/-- A descriptor that no row of Table 15-4 names: its opcode, the kind of its test or the target of its MODE_REQUEST is none that the tables give. -/
def unknownDesc (d : Desc) : Bool :=
  !knownOps.contains (dOp d) || (dOp d == 0x21 && !testKinds.contains (testKind d)) || (dOp d == 0x33 && !([4, 5, 6, 7].contains (requestTarget d)))

/-- Every unknown descriptor that may be dispatched completes BAD_DESCRIPTOR (R453); a MODE_REQUEST completes REJECTED, whatever its target, while the transition of an earlier one is under way (R464). -/
def rejectUnknown (c : Ctl) (u : Units) : Units :=
  u.rings.ring.cells.foldl (fun u x => x.2.descs.foldl (fun u d =>
    if !d.begun && unknownDesc d && mayBegin c u x.1 d.idx then complete u x.1 d.idx (if dOp d = 0x33 ∧ u.pwr.trans.isSome ∧ reservedSet d = false then 4 else 6) else u) u) u

/-! ### What the ring-master port returns (R451, R452) -/

/-- A payload read returns in issue order: its 64 bytes are taken, or its error ends the descriptor FAILED; a read no longer wanted is dropped. -/
def payloadReturnOp (c : Ctl) (u : Units) (r i : Nat) (err : Bool) (bytes : BitVec 512) : Units :=
  match u.rings.reads.find? fun k => k.1 == r && k.2.1 == i && (k.2.2 == 1 || k.2.2 == 3) with
  | none => u
  | some k =>
    let u := endRead u k
    match (if k.2.2 = 1 then findDesc u r i else none) with
    | none => u
    | some d =>
      if err then
        let u := flag (dropPayload u r i) F.RNG_r_ERR_payload r
        if dOp d = 0x32 then endImage u 8 4 else complete u r i 8
      else
        let d := { d with payload := d.payload ++ [bytes] }
        let u := putDesc u r d
        if ringsRun c u then settleDesc c u r d else u

/-- FETCH_RETURN (R452). -/
def execFetchReturn (r i : Nat) (err : Bool) (desc : BitVec 512) (s : State) : Host.Outcome State Fault Refusal :=
  onU s fun _ u => if pdOn u 4 then fetchReturnOp u r i err desc else u

/-- PAYLOAD_READ_RETURN (R452). -/
def execPayloadReadReturn (r i : Nat) (err : Bool) (data : BitVec 512) (s : State) : Host.Outcome State Fault Refusal :=
  onU s fun c u => if pdOn u 4 then payloadReturnOp c u r i err data else u

/-! ### Commands after which descriptors go on -/

/-- DONE (R165). -/
def execDone (pkt : Landing) (s : State) : Host.Outcome State Fault Refusal :=
  onU s fun c u => onPkt u pkt.pkt .done fun k u => landOne u k pkt.err fun u =>
    if k.dst = epCore 5 then settleDescs [0x07, 0x27] c (doneOp c u k) else doneOp c u k

/-- TICKET (R178). -/
def execTicket (pkt : Landing) (s : State) : Host.Outcome State Fault Refusal :=
  onU s fun c u => onPkt u pkt.pkt .ticket fun k u => landOne u k pkt.err fun u =>
    if k.dst = epCore 5 then settleDescs [0x07, 0x27] c (ticketOp c u k) else ticketOp c u k

/-- FLUSH_EPOCH_COMPLETE (R112). -/
def execFlushEpochComplete (waiter : Nat) (s : State) : Host.Outcome State Fault Refusal :=
  onU s fun c u => settleDescs [0x05, 0x08] c (flushCompleteOp u waiter)

/-- JOURNAL_BLOCK_WRITTEN (R364). -/
def execJournalBlockWritten (s : State) : Host.Outcome State Fault Refusal :=
  onU s fun c u => if hingeRuns u then settleDescs [0x06, 0x24, 0x25, 0x27, 0x28, 0x30, 0x34] c (blockWrittenOp u) else u

/-- CHECKPOINT_END (R365). -/
def execCheckpointEnd (s : State) : Host.Outcome State Fault Refusal :=
  onU s fun c u => if hingeRuns u then settleDescs [0x30] c (checkpointEndOp u) else u

/-- LATCH (R553). -/
def execLatch (s : State) : Host.Outcome State Fault Refusal :=
  onU s fun c u => if latches c u then latchOp c u else u

end Sys2Proof.Machine
end

