-- ==== Sys2Proof/Machine/Tick.lean ====
section
/-! DEFINITION. What one AON cycle of 10 ns does by itself: the clock, the counters that count cycles, the arbiters' waits, unit resets, and the descriptors and transitions whose wait is over (R425, R524, R526, R561). -/

namespace Sys2Proof.Machine

/-- A request of the port is held at its bucket (R135). -/
def portHolds (q : Port) : Bool := q.reqs.any fun r => r.phase == .bucket

/-- Twenty port cycles of a port: cycles with a held request, and cycles with all 128 header slots taken. -/
def portTick (u : Units) (p : Nat) : Units :=
  let q := port u p
  let u := if portHolds q then setPort u p { q with heldCycles := min (q.heldCycles + 20) (2 ^ 32 - 1) } else u
  countSignal (countSignal u (cPort p 5) (portHolds q) 20) (cPort p 7) (decide (128 ≤ hdrUsed q)) 20

/-- Ports of clusters that are on. -/
def livePorts (u : Units) : List Nat := (List.range (nPorts u.v)).filter fun p => pdOn u (pdCluster (p / 8))

/-- Sixteen media cycles of a media group: cycles with all 32 stripe-buffer entries taken. -/
def groupTick (u : Units) (g : Nat) : Units := countSignal u (cGrp g 7) (decide (32 ≤ (grp u g).bufs.length)) 16

/-- Media groups that are on. -/
def liveGroups (u : Units) : List Nat := (List.range (nGroups u.v)).filter fun g => pdOn u (pdMedia g)

/-- A stripe-buffer entry of POISON_CLEAR whose descriptor a reset has taken away is freed once it is programmed. -/
def dropOrphans (u : Units) (g : Nat) : Units :=
  let done := (grp u g).bufs.filter fun b => match b.use with
    | .clear r _ _ => r == 64 && b.formed && b.todo.isEmpty
    | _ => false
  done.foldl (fun u b => unpinStripe (dropBuf u g b.id) (b.stripe / 16384) (b.stripe % 16384)) u

/-- Every arbiter notes the requests raised and lowered. -/
def arbTick (c : Ctl) (u : Units) : Units :=
  let go := fun (media : Bool) (n : Nat) (u : Units) => (List.range n).foldl (fun u ch =>
    if pdOn u (chDomain media ch) then { u with arbs := tabPut u.arbs (chKey media ch) (settleArb c u media ch) } else u) u
  go true (nCexus u.v) (go false (nDdr u.v) u)

/-- Opcodes whose descriptors wait for other units. -/
def waitingOps : List Nat := [0x05, 0x06, 0x07, 0x08, 0x10, 0x11, 0x23, 0x24, 0x25, 0x26, 0x27, 0x28, 0x30, 0x32, 0x34, 0x3F]

/-- One AON cycle, of 24 transit cycles. In mode RESET only the clock goes on. -/
def tickOp (c : Ctl) (u : Units) : Ctl × Units :=
  let u := { u with now := u.now + 1 }
  if c.mode = .reset then (c, u)
  else
    let u := (livePorts u).foldl portTick u
    let u := (liveGroups u).foldl (fun u g => dropOrphans (groupTick u g) g) u
    let u := if u.hng.limbo = [] then u else joinPool u
    let u := unitResetGo c 3 (arbTick c (netCycles 24 u))
    settleMode c (settleDescs waitingOps c (rejectUnknown c u))

end Sys2Proof.Machine
end

