-- ==== Sys2Proof/Machine/Tap.lean ====
section
/-! DEFINITION. The test access port (R584 to R586): instructions, the boundary chain, and the destructive test instructions. -/

namespace Sys2Proof.Machine

/-- Instruction codes (Table 20-5). -/
def tapExtest : Nat := 0x00
/-- SAMPLE/PRELOAD. -/
def tapSample : Nat := 0x01
/-- IDCODE, the instruction loaded at TAP reset. -/
def tapIdcode : Nat := 0x02
/-- Production scan. -/
def tapScan : Nat := 0x10
/-- SRAM self-test. -/
def tapSram : Nat := 0x11
/-- Codec vectors. -/
def tapCodec : Nat := 0x12
/-- BYPASS. -/
def tapBypass : Nat := 0xFF

/-- The TAP holds an instruction, and presents what its register captures. -/
def tapSelect (u : Units) (code captured : Nat) : Units := present { u with tap := { u.tap with instr := code } } (.tap captured)

/-- The life-cycle state and GLB_TEST.open permit test access beyond boundary scan and IDCODE (R517, R560, R585). -/
def testOpen (c : Ctl) (u : Units) : Bool := (c.lc == 0 || c.lc == 2) && getF u F.GLB_TEST_open == 1

/-- The identity register (R586). -/
def idcodeWord (u : Units) : Nat :=
  1 + Config.manufacturer.toNat * 2 + (0x7A50 + variantCode u.v) * 2 ^ 12 + getF u F.BLOCK_ID_stepping * 2 ^ 28

/-- The boundary chain captures the pins, and presents what it has captured. -/
def sampleOp (u : Units) (code pins : Nat) : Units := tapSelect { u with tap := { u.tap with chain := pins } } code pins

/-- EXTEST: the pins are driven from the chain while RST_N is low; with RST_N high it acts as SAMPLE/PRELOAD. -/
def extestOp (c : Ctl) (u : Units) (pins : Nat) : Units :=
  if c.mode = .reset then tapSelect u tapExtest u.tap.chain else sampleOp u tapExtest pins

/-! ### SRAM values destroyed (R585) -/

/-- The SRAMs by number, for the free values. -/
inductive Sram where
  | hinge | pip | ctxEven | ctxOdd | flushSeq | map | keys | header | ddrPatch | cexPatch | stripe | beat | tables
deriving DecidableEq, Repr

/-- A table of free cells. -/
def lostTab {α : Type} [DecidableEq α] [Inhabited α] (k : Nat) (w : Sram) (f : Nat → α) : Tab α :=
  (Config.lostCells k w.ctorIdx).foldl (fun t c => tabPut t c.1 (f c.2)) tabNil

/-- A key slot made of a free number. -/
def lostKey (x : Nat) : KeySlot := { state := x % 3, even := nbits x 2 1 == 1, odd := nbits x 3 1 == 1, key := BitVec.ofNat 512 (x / 16) }

/-- Lines of a list made free. -/
def lostLines {α : Type} (k place : Nat) (w : Sram) (put : α → BitVec 512 → α) (l : List α) : List α :=
  l.zipIdx.map fun x => put x.1 (Config.lostLine k w.ctorIdx (place * 65536 + x.2))

/-- The two subchannels of a channel keep their patch entries, whose spare copies are lost. -/
def lostSub (k place : Nat) (s : Sub) : Sub := { s with patches := lostLines k place .ddrPatch (fun (p : Patch) x => { p with spare := x }) s.patches }

/-- Channel SRAMs: header caches, patch copies and turn tables. -/
def lostChannel (k : Nat) (u : Units) (ch : Nat) : Units :=
  let u := setSlice u ch { slice u ch with cache := lostLines k ch .header (fun (e : HdrEntry) x => { e with hdr := x }) (slice u ch).cache }
  let d := ddr u ch
  setDdr u ch { d with
    sub0 := lostSub k (2 * ch) d.sub0, sub1 := lostSub k (2 * ch + 1) d.sub1
    table := if d.table = [] then [] else d.table.zipIdx.map fun x => (Config.lostLine k Sram.tables.ctorIdx (ch * 65536 + x.2)).toNat % 256 }

/-- The stripe-buffer lines of a media group. -/
def lostGroup (k : Nat) (u : Units) (g : Nat) : Units :=
  let x := grp u g
  setGrp u g { x with bufs := x.bufs.map fun b => { b with lines := (tabKeys b.lines).foldl (fun (t : Tab MLine) j =>
    tabPut t j { tabGet t j with data := Config.lostLine k Sram.stripe.ctorIdx ((g * 65536 + b.id) * 16 + j) }) b.lines } }

/-- The media patch copies of a channel. -/
def lostCexus (k : Nat) (u : Units) (n : Nat) : Units :=
  let x := cex u n
  { u with cex := tabPut u.cex n { x with patches := lostLines k n .cexPatch (fun (p : Nat × Nat × MLine) l => (p.1, p.2.1, { p.2.2 with data := l })) x.patches } }

/-- The data slots of a port. -/
def lostPort (k : Nat) (u : Units) (p : Nat) : Units :=
  let q := port u p
  setPort u p { q with reqs := q.reqs.map fun r =>
    { r with data := r.data.zipIdx.map fun b => (Config.lostLine k Sram.beat.ctorIdx ((p * 65536 + r.ord) * 2 + b.2)).extractLsb' 0 256 } }

/-- Every SRAM value and every key slot is destroyed: what they hold is free until RST_N. -/
def destroySram (u : Units) : Units :=
  let k := u.fresh
  let num := fun (x : Nat) => x
  let u := { u with
    fresh := k + 1
    hng := { u.hng with hinge := lostTab k .hinge num, pip := lostTab k .pip num }
    ctxEven := lostTab k .ctxEven (BitVec.ofNat 160), ctxOdd := lostTab k .ctxOdd (BitVec.ofNat 160), flushSeq := lostTab k .flushSeq num
    drf := { u.drf with map := lostTab k .map num }
    keys := lostTab k .keys lostKey }
  let u := (tabKeys u.ddr).foldl (lostChannel k) u
  let u := (tabKeys u.grp).foldl (lostGroup k) u
  let u := (tabKeys u.cex).foldl (lostCexus k) u
  (tabKeys u.ports).foldl (lostPort k) u

/-- A destructive test instruction: refused, it acts as BYPASS. In mode RESET no SRAM holds a value yet. -/
def testOp (c : Ctl) (u : Units) (code : Nat) : Units :=
  if testOpen c u = false then tapSelect u tapBypass 0
  else if c.mode = .reset then tapSelect u code 0
  else tapSelect (destroySram u) code 0

/-- The codes that have a row of their own and are permitted. -/
def tapKnown (c : Ctl) (u : Units) (code : Nat) : Bool :=
  code == tapExtest || code == tapSample || code == tapIdcode || ((code == tapScan || code == tapSram || code == tapCodec) && testOpen c u)

/-- BYPASS, a refused instruction or an encoding that is not listed: the one-bit bypass register. -/
def bypassOp (c : Ctl) (u : Units) (code : Nat) : Units := if 256 ≤ code ∨ tapKnown c u code then u else tapSelect u tapBypass 0

/-! ### Meanings -/

/-- EXTEST (R585). -/
def execExtest (pins : Nat) (s : State) : Host.Outcome State Fault Refusal := onU s fun c u => extestOp c u pins

/-- SAMPLE_PRELOAD (R585). -/
def execSamplePreload (pins : Nat) (s : State) : Host.Outcome State Fault Refusal := onU s fun _ u => sampleOp u tapSample pins

/-- IDCODE (R586). -/
def execIdcode (s : State) : Host.Outcome State Fault Refusal := onU s fun _ u => tapSelect u tapIdcode (idcodeWord u)

/-- PRODUCTION_SCAN (R585). -/
def execProductionScan (s : State) : Host.Outcome State Fault Refusal := onU s fun c u => testOp c u tapScan

/-- SRAM_SELF_TEST (R585). -/
def execSramSelfTest (s : State) : Host.Outcome State Fault Refusal := onU s fun c u => testOp c u tapSram

/-- CODEC_VECTORS (R421). -/
def execCodecVectors (s : State) : Host.Outcome State Fault Refusal := onU s fun c u => testOp c u tapCodec

/-- BYPASS (R585). -/
def execBypass (code : Nat) (s : State) : Host.Outcome State Fault Refusal := onU s fun c u => bypassOp c u code

/-- TAP_RESET (R584): TRST_N resets the test access port only, which selects IDCODE. -/
def execTapReset (s : State) : Host.Outcome State Fault Refusal := onU s fun _ u => { u with tap := { u.tap with instr := tapIdcode } }

end Sys2Proof.Machine
end

