-- ==== Sys2Proof/Machine/Dispatch.lean ====
section
/-! DEFINITION. The dispatcher: one arm per command, each one direct call of its meaning. -/

namespace Sys2Proof.Machine

/-- The effect of a command on everything but the queue. -/
def exec (i : Instr) (s : State) : Host.Outcome State Fault Refusal :=
  match i with
  | .read port pool hdr => Sys2Proof.Machine.execRead port pool hdr s
  | .write port pool hdr => Sys2Proof.Machine.execWrite port pool hdr s
  | .writeMasked port pool hdr => Sys2Proof.Machine.execWriteMasked port pool hdr s
  | .prefetch port pool hdr => Sys2Proof.Machine.execPrefetch port pool hdr s
  | .flush port pool hdr => Sys2Proof.Machine.execFlush port pool hdr s
  | .flushAll port pool hdr => Sys2Proof.Machine.execFlushAll port pool hdr s
  | .dataBeat port pool data dpar => Sys2Proof.Machine.execDataBeat port pool data dpar s
  | .badKind port => Sys2Proof.Machine.execBadKind port s
  | .reopen port => Sys2Proof.Machine.execReopen port s
  | .portReady port => Sys2Proof.Machine.execPortReady port s
  | .bucketRefill port => Sys2Proof.Machine.execBucketRefill port s
  | .rewriteCheck port ord => Sys2Proof.Machine.execRewriteCheck port ord s
  | .ctxRecordFetch pkt => Sys2Proof.Machine.execCtxRecordFetch pkt s
  | .lineReq pkt err => Sys2Proof.Machine.execLineReq pkt err s
  | .lineWr pkt err => Sys2Proof.Machine.execLineWr pkt err s
  | .fillReq pkt => Sys2Proof.Machine.execFillReq pkt s
  | .fillFwd pkt => Sys2Proof.Machine.execFillFwd pkt s
  | .fillData pkt err => Sys2Proof.Machine.execFillData pkt err s
  | .zero pkt => Sys2Proof.Machine.execZero pkt s
  | .lineRet pkt err => Sys2Proof.Machine.execLineRet pkt err s
  | .done pkt => Sys2Proof.Machine.execDone pkt s
  | .ticket pkt => Sys2Proof.Machine.execTicket pkt s
  | .slotModeEnter router output waited => Sys2Proof.Machine.execSlotModeEnter router output waited s
  | .slotModeExit router output quiet worst => Sys2Proof.Machine.execSlotModeExit router output quiet worst s
  | .isolation domain => Sys2Proof.Machine.execIsolation domain s
  | .destageStart slice => Sys2Proof.Machine.execDestageStart slice s
  | .destage pkt err => Sys2Proof.Machine.execDestage pkt err s
  | .stripeWritten slice group => Sys2Proof.Machine.execStripeWritten slice group s
  | .placementRequest slice => Sys2Proof.Machine.execPlacementRequest slice s
  | .flushArrival pkt => Sys2Proof.Machine.execFlushArrival pkt s
  | .epochAdvance => Sys2Proof.Machine.execEpochAdvance s
  | .epochAck slice => Sys2Proof.Machine.execEpochAck slice s
  | .flushEpochComplete waiter => Sys2Proof.Machine.execFlushEpochComplete waiter s
  | .evacComplete => Sys2Proof.Machine.execEvacComplete s
  | .restoreComplete => Sys2Proof.Machine.execRestoreComplete s
  | .ddr5CommandIssue ch sub => Sys2Proof.Machine.execDdr5CommandIssue ch sub s
  | .ddr5ReadReturn ch sub err => Sys2Proof.Machine.execDdr5ReadReturn ch sub err s
  | .refreshDue ch sub rank => Sys2Proof.Machine.execRefreshDue ch sub rank s
  | .rowCloseIdle ch sub rank bank => Sys2Proof.Machine.execRowCloseIdle ch sub rank bank s
  | .thermPoll ch mr4 hub0 hub1 => Sys2Proof.Machine.execThermPoll ch mr4 hub0 hub1 s
  | .alertBackoff ch sub dimm => Sys2Proof.Machine.execAlertBackoff ch sub dimm s
  | .crcAlert ch sub dimm => Sys2Proof.Machine.execCrcAlert ch sub dimm s
  | .ddr5SchedWrite ch therm value => Sys2Proof.Machine.execDdr5SchedWrite ch therm value s
  | .oscRetrain ch sub rank => Sys2Proof.Machine.execOscRetrain ch sub rank s
  | .oscResult ch sub rank dev count => Sys2Proof.Machine.execOscResult ch sub rank dev count s
  | .trainStepTimeout media ch step unit => Sys2Proof.Machine.execTrainStepTimeout media ch step unit s
  | .bsyNRise ch die => Sys2Proof.Machine.execBsyNRise ch die s
  | .mediaLineReceived ch err => Sys2Proof.Machine.execMediaLineReceived ch err s
  | .dqTransfer ch => Sys2Proof.Machine.execDqTransfer ch s
  | .phaseStart group => Sys2Proof.Machine.execPhaseStart group s
  | .programSlot ch die => Sys2Proof.Machine.execProgramSlot ch die s
  | .programComplete ch die pfail => Sys2Proof.Machine.execProgramComplete ch die pfail s
  | .linkCheck ch below above => Sys2Proof.Machine.execLinkCheck ch below above s
  | .zqCalibrate ch => Sys2Proof.Machine.execZqCalibrate ch s
  | .mediaTempPoll ch die temp valid => Sys2Proof.Machine.execMediaTempPoll ch die temp valid s
  | .dieLateCheck ch die seen => Sys2Proof.Machine.execDieLateCheck ch die seen s
  | .moveStart => Sys2Proof.Machine.execMoveStart s
  | .moveStripeWritten slot => Sys2Proof.Machine.execMoveStripeWritten slot s
  | .sweep slot => Sys2Proof.Machine.execSweep slot s
  | .format slot => Sys2Proof.Machine.execFormat slot s
  | .poolScan => Sys2Proof.Machine.execPoolScan s
  | .regionScan => Sys2Proof.Machine.execRegionScan s
  | .journalFlushTimer => Sys2Proof.Machine.execJournalFlushTimer s
  | .journalBlockWritten => Sys2Proof.Machine.execJournalBlockWritten s
  | .checkpointEnd => Sys2Proof.Machine.execCheckpointEnd s
  | .hngCmdRead => Sys2Proof.Machine.execHngCmdRead s
  | .ctxCmdRead => Sys2Proof.Machine.execCtxCmdRead s
  | .ageEpochTick => Sys2Proof.Machine.execAgeEpochTick s
  | .driftCalibrate group scores => Sys2Proof.Machine.execDriftCalibrate group scores s
  | .ddr5Scrub ch errs => Sys2Proof.Machine.execDdr5Scrub ch errs s
  | .cexusScrub ch errs => Sys2Proof.Machine.execCexusScrub ch errs s
  | .sramScrub table index outcome => Sys2Proof.Machine.execSramScrub table index outcome s
  | .scrubOverdue media ch => Sys2Proof.Machine.execScrubOverdue media ch s
  | .repair place => Sys2Proof.Machine.execRepair place s
  | .mntGrant media ch => Sys2Proof.Machine.execMntGrant media ch s
  | .mntRankWrite value => Sys2Proof.Machine.execMntRankWrite value s
  | .mntByeWrite value => Sys2Proof.Machine.execMntByeWrite value s
  | .latch => Sys2Proof.Machine.execLatch s
  | .recheck => Sys2Proof.Machine.execRecheck s
  | .bwWindowEnd => Sys2Proof.Machine.execBwWindowEnd s
  | .descriptorFetch ring => Sys2Proof.Machine.execDescriptorFetch ring s
  | .fetchReturn ring index err desc => Sys2Proof.Machine.execFetchReturn ring index err desc s
  | .completionWritten ring err => Sys2Proof.Machine.execCompletionWritten ring err s
  | .sqDoorbell ring tail => Sys2Proof.Machine.execSqDoorbell ring tail s
  | .cqDoorbell ring head => Sys2Proof.Machine.execCqDoorbell ring head s
  | .ntDoorbell head => Sys2Proof.Machine.execNtDoorbell head s
  | .ringReset ring => Sys2Proof.Machine.execRingReset ring s
  | .ringResetComplete ring => Sys2Proof.Machine.execRingResetComplete ring s
  | .noticeRingReset => Sys2Proof.Machine.execNoticeRingReset s
  | .irqTimer ring => Sys2Proof.Machine.execIrqTimer ring s
  | .irqMaskWrite k value => Sys2Proof.Machine.execIrqMaskWrite k value s
  | .nop ring index => Sys2Proof.Machine.execNop ring index s
  | .ctxOpen ring index => Sys2Proof.Machine.execCtxOpen ring index s
  | .ctxModify ring index => Sys2Proof.Machine.execCtxModify ring index s
  | .ctxClose ring index => Sys2Proof.Machine.execCtxClose ring index s
  | .ctxCloseFinish handle => Sys2Proof.Machine.execCtxCloseFinish handle s
  | .keyBind ring index => Sys2Proof.Machine.execKeyBind ring index s
  | .flushDescriptor ring index => Sys2Proof.Machine.execFlushDescriptor ring index s
  | .flushAllDescriptor ring index => Sys2Proof.Machine.execFlushAllDescriptor ring index s
  | .trim ring index => Sys2Proof.Machine.execTrim ring index s
  | .prefetchDescriptor ring index => Sys2Proof.Machine.execPrefetchDescriptor ring index s
  | .changeset ring index => Sys2Proof.Machine.execChangeset ring index s
  | .turnTableLoad ring index => Sys2Proof.Machine.execTurnTableLoad ring index s
  | .scrubPass ring index => Sys2Proof.Machine.execScrubPass ring index s
  | .selftestDramPattern ring index result => Sys2Proof.Machine.execSelftestDramPattern ring index result s
  | .selftestDramReadMargin ring index result => Sys2Proof.Machine.execSelftestDramReadMargin ring index result s
  | .selftestDramWriteMargin ring index result => Sys2Proof.Machine.execSelftestDramWriteMargin ring index result s
  | .selftestEcsReadout ring index result => Sys2Proof.Machine.execSelftestEcsReadout ring index result s
  | .selftestMediaPattern ring index result => Sys2Proof.Machine.execSelftestMediaPattern ring index result s
  | .selftestMediaReadMargin ring index result => Sys2Proof.Machine.execSelftestMediaReadMargin ring index result s
  | .selftestCodec ring index result => Sys2Proof.Machine.execSelftestCodec ring index result s
  | .retrainDdr5 ring index result => Sys2Proof.Machine.execRetrainDdr5 ring index result s
  | .retrainCexus ring index result => Sys2Proof.Machine.execRetrainCexus ring index result s
  | .driftCal ring index => Sys2Proof.Machine.execDriftCal ring index s
  | .regionMove ring index => Sys2Proof.Machine.execRegionMove ring index s
  | .rebuild ring index => Sys2Proof.Machine.execRebuild ring index s
  | .patchAdd ring index err => Sys2Proof.Machine.execPatchAdd ring index err s
  | .patchAddMedia ring index => Sys2Proof.Machine.execPatchAddMedia ring index s
  | .pprRepair ring index result => Sys2Proof.Machine.execPprRepair ring index result s
  | .poisonSet ring index => Sys2Proof.Machine.execPoisonSet ring index s
  | .poisonClear ring index => Sys2Proof.Machine.execPoisonClear ring index s
  | .checkpoint ring index => Sys2Proof.Machine.execCheckpoint ring index s
  | .ledgerAudit ring index => Sys2Proof.Machine.execLedgerAudit ring index s
  | .imageWrite ring index => Sys2Proof.Machine.execImageWrite ring index s
  | .modeRequestRun ring index => Sys2Proof.Machine.execModeRequestRun ring index s
  | .modeRequestHush ring index => Sys2Proof.Machine.execModeRequestHush ring index s
  | .modeRequestDrain ring index => Sys2Proof.Machine.execModeRequestDrain ring index s
  | .modeRequestService ring index => Sys2Proof.Machine.execModeRequestService ring index s
  | .sanitize ring index => Sys2Proof.Machine.execSanitize ring index s
  | .abort ring index => Sys2Proof.Machine.execAbort ring index s
  | .keyLoad words => Sys2Proof.Machine.execKeyLoad words s
  | .keyErase words => Sys2Proof.Machine.execKeyErase words s
  | .eraseAll words => Sys2Proof.Machine.execEraseAll words s
  | .keyEraseDone => Sys2Proof.Machine.execKeyEraseDone s
  | .helloAck words => Sys2Proof.Machine.execHelloAck words s
  | .lcChange words => Sys2Proof.Machine.execLcChange words s
  | .keyMessageBad words => Sys2Proof.Machine.execKeyMessageBad words s
  | .helloAckLate => Sys2Proof.Machine.execHelloAckLate s
  | .reset => Sys2Proof.Machine.execReset s
  | .load image => Sys2Proof.Machine.execLoad image s
  | .loadComplete dimms => Sys2Proof.Machine.execLoadComplete dimms s
  | .loadHelloTimeout => Sys2Proof.Machine.execLoadHelloTimeout s
  | .trainComplete results => Sys2Proof.Machine.execTrainComplete results s
  | .mountComplete found => Sys2Proof.Machine.execMountComplete found s
  | .hushIdleTimer => Sys2Proof.Machine.execHushIdleTimer s
  | .hushEntryComplete => Sys2Proof.Machine.execHushEntryComplete s
  | .wake event => Sys2Proof.Machine.execWake event s
  | .wakeComplete => Sys2Proof.Machine.execWakeComplete s
  | .pwrfail => Sys2Proof.Machine.execPwrfail s
  | .drainComplete => Sys2Proof.Machine.execDrainComplete s
  | .thermalReading sensor temp valid => Sys2Proof.Machine.execThermalReading sensor temp valid s
  | .zoneEvaluate zone => Sys2Proof.Machine.execZoneEvaluate zone s
  | .budgetEvaluate estimate => Sys2Proof.Machine.execBudgetEvaluate estimate s
  | .pdUpAck domain => Sys2Proof.Machine.execPdUpAck domain s
  | .eventTaken => Sys2Proof.Machine.execEventTaken s
  | .summaryBuild => Sys2Proof.Machine.execSummaryBuild s
  | .evtPop => Sys2Proof.Machine.execEvtPop s
  | .levelSample => Sys2Proof.Machine.execLevelSample s
  | .teleCntLoRead n user => Sys2Proof.Machine.execTeleCntLoRead n user s
  | .userAccess write addr value => Sys2Proof.Machine.execUserAccess write addr value s
  | .registerWrite addr value => Sys2Proof.Machine.execRegisterWrite addr value s
  | .unmappedAccess write addr value => Sys2Proof.Machine.execUnmappedAccess write addr value s
  | .bitAliasWrite addr value => Sys2Proof.Machine.execBitAliasWrite addr value s
  | .deadbolt value => Sys2Proof.Machine.execDeadbolt value s
  | .latchHold value => Sys2Proof.Machine.execLatchHold value s
  | .unitResetTele => Sys2Proof.Machine.execUnitResetTele s
  | .unitResetRings => Sys2Proof.Machine.execUnitResetRings s
  | .extest pins => Sys2Proof.Machine.execExtest pins s
  | .samplePreload pins => Sys2Proof.Machine.execSamplePreload pins s
  | .idcode => Sys2Proof.Machine.execIdcode s
  | .productionScan => Sys2Proof.Machine.execProductionScan s
  | .sramSelfTest => Sys2Proof.Machine.execSramSelfTest s
  | .codecVectors => Sys2Proof.Machine.execCodecVectors s
  | .bypass code => Sys2Proof.Machine.execBypass code s
  | .tapReset => Sys2Proof.Machine.execTapReset s
  | .pwrfailGlitch => Sys2Proof.Machine.execPwrfailGlitch s
  | .payloadReadReturn ring index err data => Sys2Proof.Machine.execPayloadReadReturn ring index err data s
  | .serialMemoryOperationEnd op => Sys2Proof.Machine.execSerialMemoryOperationEnd op s
  | .trainOverrun => Sys2Proof.Machine.execTrainOverrun s
  | .intMsgDelivery => Sys2Proof.Machine.execIntMsgDelivery s
  | .keyOutWordTaken => Sys2Proof.Machine.execKeyOutWordTaken s

end Sys2Proof.Machine
end

