-- ==== Sys2Proof/Safety.lean ====
section
/-! DEFINITION. The notions in which statements speak of runs of the block. -/

namespace Sys2Proof.Machine

/-- No request of a cluster can go on by itself: each awaits DATA beats or is in transit. -/
def clusterStill (u : Units) (cl : Nat) : Prop :=
  ∀ i, i < 8 → ∀ r ∈ (port u (cl * 8 + i)).reqs, r.phase = .data ∨ r.phase = .sent

/-- Nothing holds back a request with this header on a regular port: the mode runs requests, the header is well formed, its bucket lets it pass, its context's record is at hand, the context check of Table 2-5 passes under the epoch in force, its route is not fenced, and every ticket of Table 2-4 can be taken at its priority. -/
def goesThrough (c : Ctl) (u : Units) (p : Nat) (h : BitVec 128) : Prop :=
  let r : Req := { hdr := h, epoch := some u.regs.epoch }
  c.mode ≠ .hush ∧ u.pwr.hushing = false ∧ privileged p = false ∧ headerMalformed h = false ∧
  (bucketPass u p (portClass u p) (hCmd h)).isSome = true ∧ hCtx h < nCtx u.v ∧ cached u p (hCtx h) = true ∧
  check2 u u.regs.epoch r = true ∧ check34 u u.regs.epoch r = none ∧ routeFenced u p r = false ∧
  ∀ id ∈ ticketsNeeded u p r, canTake u id (classPrio u p (portClass u p)) = true

/-- No open request of a port has the tag, the context or the ordinal of a new one. -/
def standsAlone (q : Port) (h : BitVec 128) (ord : Nat) : Prop :=
  ∀ r ∈ q.reqs, hTag r.hdr ≠ hTag h ∧ hCtx r.hdr ≠ hCtx h ∧ r.ord ≠ ord

/-- The credit returns of one kind that a pool of a port is given among outputs, in order (R68). -/
def creditReturns (out : List Out) (p pool : Nat) (data : Bool) : List Nat :=
  out.filterMap fun
    | .credit q k d n => if q = p ∧ k = pool ∧ d = data then some n else none
    | _ => none

/-! ### Packets -/

/-- A packet of a type lands: the network, going on from a state, has carried it to its slot and it may be taken (R163 to R178). `w` is what the units then are: those of the state with nothing presented, but for the inside of the network. -/
def lands (s : State) (pkt : Nat) (typ : PktType) (k : Pkt) (w : Units) : Prop := landing { s.u with out := [] } pkt typ = some (k, w)

/-! ### Descriptors -/

/-- The ring engine may hand a descriptor to its unit: it is the outstanding one of its index, it has not begun, the rules of dispatch let it begin (R456, R457), and none of its reserved bits is set. -/
def handed (c : Ctl) (u : Units) (r : Nat) (d : Desc) : Prop :=
  findDesc u r d.idx = some d ∧ d.begun = false ∧ mayBegin c u r d.idx = true ∧ reservedSet d = false

/-- A descriptor of a ring is under way: it has begun, and no reset of the ring engine is at hand. -/
def started (u : Units) (r : Nat) (d : Desc) : Prop := findDesc u r d.idx = some d ∧ d.begun = true ∧ fenced u 4 = false

/-- A descriptor has completed: its entry (Table 15-2), which covers it alone, has been issued at the CQ tail that its ring had, and it is no longer outstanding. -/
def posted (u x : Units) (r : Nat) (d : Desc) (status r0 r1 : Nat) : Prop :=
  findDesc x r d.idx = none ∧
    ∃ w ∈ x.rings.writes, w.ring = r ∧ w.addr = cqBase u r + (ring u r).cqTail * 32 ∧ w.entry = entryOf (ring u r).flip r status d r0 r1 1

/-- A descriptor has committed, and completes DONE at the next latch that lets it (R98, R146). -/
def waitsForLatch (x : Units) (r : Nat) (d : Desc) : Prop := ∃ e, findDesc x r d.idx = some e ∧ e.bits = d.bits ∧ e.committed = true ∧ e.atLatch = some 0

/-- The dies that a RETRAIN in SERVICE finds failed. -/
def retrainFails (u : Units) (n : Nat) (x : TestResult) : List DieFail :=
  let y := storeCexTrims (keepFound (trainFrames u n (liveDies u n) fun k => driftCode u (8 * (n / 9) + k) 0 0) n x.found) n x.found.trims
  (liveDies u n).filterMap fun k => retrainMissCex y n k x

/-! ### DDR5 commands -/

/-- No command laid down for a subchannel is due. -/
def noneLaid (x : Sub) : Prop := x.laid.find? (fun l => decide (l.at_ ≤ x.cyc)) = none

/-- The access that the next cycle of a subchannel is for (R226): no command laid down is due, and in the order of the turn it is the first that a queued write answers or whose column command the cycle or its turn can carry. -/
def chosen (u : Units) (c s : Nat) (a : DAcc) : Prop :=
  let x := subOf u c s
  let turn := x.cyc / 8
  let room := x.colTurn ≠ turn ∨ x.colCount < 2
  noneLaid x ∧ (throttled u c turn x (chooseOrder u x x.entry turn)).find?
    (fun b => forwarded x b || (decide room && !inStall x (bankKey u b.line) x.cyc && canColumn u c x b (turn * 8 + 7))) = some a

/-! ### Register accesses -/

/-- A write of the driver reaches an instance of a register at once: the variant has it, the register port takes accesses, nothing waits for a wake, and the domain the register needs is on. -/
def reaches (c : Ctl) (u : Units) (r : Reg) (i : Nat) : Prop :=
  i < r.info.n1.full ∧ instExists u.v r i 0 = true ∧ c.mode ≠ .reset ∧ c.mode ≠ .hush ∧ u.pwr.hushing = false ∧ u.pwr.held = [] ∧ pdOn u (accessDomain r i) = true

/-- A register whose writes do no more than its access codes say. -/
def ordinary (r : Reg) : Bool :=
  !([.GLB_DEADBOLT, .GLB_UNIT_RESET, .GLB_ERR, .PORT_n_CTRL, .CTX_IDX, .CTX_CMD, .HNG_CMD, .DDR5_n_TIM_k, .DDR5_n_SCHED, .DDR5_n_THERM, .DDR5_n_RETRAIN, .CEX_n_LINK, .MS_g_CFG,
    .MNT_RANK, .MNT_BYE, .RNG_r_SQ_TAIL, .RNG_r_CQ_HEAD, .RNG_NT_HEAD, .RNG_r_CTRL, .RNG_NT_CTRL, .RNG_IRQ_MASK_k].contains r)

/-- The register port takes accesses, and nothing waits for a wake. -/
def portOpen (c : Ctl) (u : Units) : Prop := c.mode ≠ .reset ∧ c.mode ≠ .hush ∧ u.pwr.hushing = false ∧ u.pwr.held = []

/-- Interrupt messages on a vector are not masked. -/
def unmasked (u : Units) (vector : Nat) : Prop := nbits (rawReg u .RNG_IRQ_MASK_k (vector / 32)) (vector % 32) 1 = 0

end Sys2Proof.Machine
end

