-- ==== Sys2Proof/WellFormed.lean ====
section
/-! DEFINITION. Which commands are well formed: every instance a command names exists on the largest variant, V72 (Table 0-1), and every value it carries fits the field or the word that carries it. On a smaller variant the meaning of a command checks the instance again. -/

namespace Sys2Proof

/-- Request ports of V72. -/
def maxPorts : Nat := 64
/-- DDR5 channels, and staging slices, of V72. -/
def maxDdr : Nat := 16
/-- Cexus channels of V72. -/
def maxCexus : Nat := 72
/-- Channel groups of V72. -/
def maxGroups : Nat := 8
/-- Stripe groups of V72. -/
def maxStripes : Nat := 64
/-- Ring pairs (Table 0-1). -/
def maxRings : Nat := 64
/-- Contexts of V72. -/
def maxCtx : Nat := 1048576
/-- Power domains of Table 16-3 by index. -/
def maxDomains : Nat := 43

/-- A header unit's CMD field is one of a list (Table 2-1). -/
def cmdIn (h : BitVec 128) (l : List Nat) : Bool := l.contains (h.toNat % 16)

/-- A port and one of its four credit pools (R66). -/
def portPool (port pool : Nat) : Bool := decide (port < maxPorts) && decide (pool < 4)

/-- A subchannel of a DDR5 channel. -/
def subchannel (ch sub : Nat) : Bool := decide (ch < maxDdr) && decide (sub < 2)

/-- A die of a Cexus channel. -/
def channelDie (ch die : Nat) : Bool := decide (ch < maxCexus) && decide (die < 8)

/-- A channel of either medium. -/
def channelOf (media : Bool) (ch : Nat) : Bool := decide (ch < if media then maxCexus else maxDdr)

/-- A ring, and the index of an entry of its SQ (RNG_r_CFG.sq_log2: at most 2^16 entries). -/
def ringEntry (ring index : Nat) : Bool := decide (ring < maxRings) && decide (index < 65536)

/-- A router of Table 5-1 and one of its outputs, of which the largest router has 16. -/
def routerOutput (router output : Nat) : Bool := decide (router < 25) && decide (output < 16)

/-- A register-port address: bits [25:2] name a word (R541). -/
def wordAddr (addr : Nat) : Bool := decide (addr < 2 ^ 26) && decide (addr % 4 = 0)

/-- What training finds names dies and trim words that there are. -/
def Found.wf (f : Found) : Bool :=
  f.fails.all (fun d => decide (d.die < 8)) && f.ident.all (fun d => decide (d.1 < 8)) && f.temps.all (fun d => decide (d.1 < 8)) && f.trims.all fun t => decide (t.1 < 65536)

/-- Every operand of a command lies in its range. -/
def Instr.wf (i : Instr) : Bool :=
  match i with
  | .read p q h => portPool p q && cmdIn h [1]
  | .write p q h => portPool p q && cmdIn h [2]
  | .writeMasked p q h => portPool p q && cmdIn h [3]
  | .prefetch p q h => portPool p q && cmdIn h [4]
  | .flush p q h => portPool p q && cmdIn h [5]
  | .flushAll p q h => portPool p q && cmdIn h [6, 0, 7, 8, 9, 10, 11, 12, 13, 14, 15]
  | .dataBeat p q _ _ => portPool p q
  | .badKind p | .reopen p | .portReady p | .bucketRefill p => decide (p < maxPorts)
  | .rewriteCheck p ord => decide (p < maxPorts) && decide (ord < 65536)
  | .ctxRecordFetch _ | .lineReq _ _ | .lineWr _ _ | .fillReq _ | .fillFwd _ | .fillData _ _ | .zero _ | .lineRet _ _ | .done _
  | .ticket _ | .destage _ _ | .flushArrival _ | .flushEpochComplete _ => true
  | .slotModeEnter r o _ | .slotModeExit r o _ _ => routerOutput r o
  | .isolation d | .pdUpAck d => decide (d < maxDomains)
  | .destageStart k | .placementRequest k | .epochAck k => decide (k < maxDdr)
  | .stripeWritten k g => decide (k < maxDdr) && decide (g < maxGroups)
  | .epochAdvance | .evacComplete | .restoreComplete => true
  | .ddr5CommandIssue c s | .ddr5ReadReturn c s _ => subchannel c s
  | .refreshDue c s rank => subchannel c s && decide (rank < 16)
  | .rowCloseIdle c s rank bank => subchannel c s && decide (rank < 16) && decide (bank < 32)
  | .thermPoll c mr4 _ _ => decide (c < maxDdr) && decide (mr4.length ≤ 16) && mr4.all fun r => decide (r ≤ 4)
  | .alertBackoff c s dimm | .crcAlert c s dimm => subchannel c s && decide (dimm < 2)
  | .ddr5SchedWrite c _ _ => decide (c < maxDdr)
  | .oscRetrain c s rank => subchannel c s && decide (rank < 16)
  | .oscResult c s rank dev count => subchannel c s && decide (rank < 16) && decide (dev < 10) && decide (count < 65536)
  | .trainStepTimeout media c step unit => channelOf media c && decide (step < 16) && decide (unit < 512)
  | .bsyNRise c d | .programSlot c d | .programComplete c d _ | .mediaTempPoll c d _ _ | .dieLateCheck c d _ => channelDie c d
  | .dqTransfer c => decide (c.ch < maxCexus)
  | .mediaLineReceived c _ | .linkCheck c _ _ | .zqCalibrate c => decide (c < maxCexus)
  | .phaseStart g => decide (g < maxGroups)
  | .moveStart | .poolScan | .regionScan | .journalFlushTimer | .journalBlockWritten | .checkpointEnd | .hngCmdRead | .ctxCmdRead
  | .ageEpochTick => true
  | .moveStripeWritten k | .sweep k | .format k => decide (k < 16)
  | .driftCalibrate s scores => decide (s < maxStripes) && decide (scores.length ≤ 32)
  | .ddr5Scrub c errs => decide (c < maxDdr) && decide (errs.length ≤ 128)
  | .cexusScrub c errs => decide (c < maxCexus) && decide (errs.length ≤ 128)
  | .sramScrub t i _ => decide (t < 4) && decide (i < 4325376)
  | .scrubOverdue media c | .mntGrant media c => channelOf media c
  | .repair k => decide (k < 64)
  | .mntRankWrite _ | .mntByeWrite _ | .latch | .recheck | .bwWindowEnd => true
  | .descriptorFetch r | .sqDoorbell r _ | .cqDoorbell r _ | .ringReset r | .ringResetComplete r => decide (r < maxRings)
  | .completionWritten r _ | .irqTimer r => decide (r ≤ maxRings)
  | .fetchReturn r i _ _ | .payloadReadReturn r i _ _ => ringEntry r i
  | .ntDoorbell _ | .noticeRingReset => true
  | .irqMaskWrite k _ => decide (k < 8)
  | .nop r i | .ctxOpen r i | .ctxModify r i | .ctxClose r i | .keyBind r i | .flushDescriptor r i | .flushAllDescriptor r i | .trim r i
  | .prefetchDescriptor r i | .changeset r i | .turnTableLoad r i | .scrubPass r i | .driftCal r i | .regionMove r i | .rebuild r i
  | .patchAdd r i _ | .patchAddMedia r i | .poisonSet r i | .poisonClear r i | .checkpoint r i | .ledgerAudit r i | .imageWrite r i
  | .modeRequestRun r i | .modeRequestHush r i | .modeRequestDrain r i | .modeRequestService r i | .sanitize r i | .abort r i => ringEntry r i
  | .selftestDramPattern r i t | .selftestDramReadMargin r i t | .selftestDramWriteMargin r i t | .selftestEcsReadout r i t
  | .selftestMediaPattern r i t | .selftestMediaReadMargin r i t | .selftestCodec r i t | .retrainDdr5 r i t | .retrainCexus r i t
  | .pprRepair r i t => ringEntry r i && decide (t.r0 < 2 ^ 32) && decide (t.r1 < 2 ^ 32)
  | .ctxCloseFinish h => decide (h < maxCtx)
  | .keyLoad w | .keyErase w | .eraseAll w | .helloAck w | .lcChange w | .keyMessageBad w => !w.isEmpty
  | .keyEraseDone | .helloAckLate | .reset | .loadHelloTimeout | .hushIdleTimer | .hushEntryComplete | .wakeComplete | .pwrfail
  | .drainComplete => true
  | .load image => decide (image.density < 64)
  | .loadComplete dimms => dimms.all fun d => decide (d.ch < maxDdr) && decide (d.slot < 2)
  | .trainComplete results => results.all fun r => channelOf r.media r.ch && r.found.wf
  | .mountComplete found => decide (found.scores.length ≤ maxStripes) && found.sbA.all (fun k => decide (k < 16)) && found.sbB.all (fun k => decide (k < 16)) &&
      found.blocks.all fun b => b.2.all fun k => decide (k < 16)
  | .wake (.header port) => decide (port < maxPorts)
  | .wake (.doorbell ring) => decide (ring < maxRings)
  | .wake .register | .wake .timer | .wake .key | .wake .pwrfail | .wake .thermal => true
  | .thermalReading k _ _ => decide (k < 32)
  | .zoneEvaluate z => decide (z < 13)
  | .budgetEvaluate _ | .eventTaken | .summaryBuild | .evtPop | .levelSample => true
  | .teleCntLoRead n _ => decide (n < 1472)
  | .userAccess _ a _ | .registerWrite a _ | .unmappedAccess _ a _ | .bitAliasWrite a _ => wordAddr a
  | .deadbolt _ | .latchHold _ | .unitResetTele | .unitResetRings => true
  | .extest _ | .samplePreload _ | .idcode | .productionScan | .sramSelfTest | .codecVectors | .tapReset => true
  | .bypass code => decide (code < 256)
  | .pwrfailGlitch | .serialMemoryOperationEnd _ | .trainOverrun | .intMsgDelivery | .keyOutWordTaken => true

end Sys2Proof
end

