-- ==== Sys2Proof/Certificates/Slice0/Obligations.lean ====
section
/-! DEFINITION. The statements about the block, each a rule of the spec (or a property of the whole machine) in terms of `exec`, `step` and the state. -/

open Sys2Proof Sys2Proof.Machine

/-! ### Request ports -/

/-- R49, R66, R73: a port that is open takes a header beat of any of the six commands as an accepted request when no earlier request awaits data, the header's pool has a header credit and as many data credits as its command has data units, and HCHK matches. The ordinal counter steps, one more request is accepted, and a command with data units then takes DATA beats for this ordinal. -/
def Obligations.HeaderAccepted : Prop :=
  ∀ (s : State) (p pool : Nat) (h : BitVec 128),
    p < nPorts s.u.v → pool < 4 → pdState s.u (pdCluster (p / 8)) ≠ 0 → (port s.u p).state = 2 →
    (port s.u p).ingress = .idle → 0 < tabGet (port s.u p).hdrCred pool → hcheckOk h = true →
    dataUnits (hCmd h) ≤ tabGet (port s.u p).dataCred pool →
    let accepted := fun (i : Instr) => ∃ t, exec i s = .next t ∧ t.ctl = s.ctl ∧
      (port t.u p).state = 2 ∧ (port t.u p).next = ((port s.u p).next + 1) % 65536 ∧
      (port t.u p).accepted = (port s.u p).accepted + 1 ∧
      (port t.u p).ingress = if dataUnits (hCmd h) = 0 then .idle else .taking (port s.u p).next
    (hCmd h = 1 → accepted (.read p pool h)) ∧ (hCmd h = 2 → accepted (.write p pool h)) ∧
    (hCmd h = 3 → accepted (.writeMasked p pool h)) ∧ (hCmd h = 4 → accepted (.prefetch p pool h)) ∧
    (hCmd h = 5 → accepted (.flush p pool h)) ∧ (hCmd h = 6 → accepted (.flushAll p pool h))

/-- R37, R58, R84, R109 (Table 2-4): an accepted READ or PREFETCH that nothing holds back leaves at once as a LINE_REQ to the home slice of its line, and a FLUSH as a FLUSH packet to the context engine, with the class priority and the epoch of its port. The other requests of the cluster await data or are in transit, and none of its port shares its tag, context or ordinal. Of the model's choosing is what log entry 8 says. -/
def Obligations.HeaderLeavesForTransit : Prop :=
  ∀ (s : State) (p pool : Nat) (h : BitVec 128),
    p < nPorts s.u.v → pool < 4 → pdState s.u (pdCluster (p / 8)) ≠ 0 → (port s.u p).state = 2 →
    (port s.u p).ingress = .idle → 0 < tabGet (port s.u p).hdrCred pool → hcheckOk h = true →
    goesThrough s.ctl s.u p h → clusterStill s.u (p / 8) → standsAlone (port s.u p) h (port s.u p).next →
    let sent := fun (t : State) (k : Pkt) => k ∈ t.u.net ∧ k.src = epCluster (p / 8) ∧ k.prio = classPrio s.u p (portClass s.u p) ∧
      k.epoch = s.u.regs.epoch ∧ k.port = p ∧ k.ord = (port s.u p).next
    let home := epSlice (lineSlice s.u s.u.regs.epoch (hLla h))
    (hCmd h = 1 → ∃ t k, exec (.read p pool h) s = .next t ∧ sent t k ∧ k.typ = .lineReq ∧ k.kind = .read ∧ k.dst = home ∧ k.lla = hLla h) ∧
    (hCmd h = 4 → ∃ t k, exec (.prefetch p pool h) s = .next t ∧ sent t k ∧ k.typ = .lineReq ∧ k.kind = .prefetch ∧ k.dst = home ∧ k.lla = hLla h) ∧
    (hCmd h = 5 → ∃ t k, exec (.flush p pool h) s = .next t ∧ sent t k ∧ k.typ = .flush ∧ k.dst = epCore 0 ∧ k.handle = hCtx h)

/-- R54, R55, R84, R41 (Tables 2-2 and 2-4): a DATA beat with good parity and the pool of its open request is that request's next data unit and spends a data credit. The last one of a WRITE that nothing holds back sends the line, encrypted under the context's key and the line's address, as a LINE_WR to its home slice (a poisoned WRITE sends no plaintext); the one of a WRITE_MASKED sends the read half of its merge. Of the model's choosing is what log entry 8 says. -/
def Obligations.DataBeatTaken : Prop :=
  ∀ (s : State) (p pool ord : Nat) (d : BitVec 256) (par : BitVec 32) (A B : List Req) (r : Req),
    p < nPorts s.u.v → pool < 4 → pdState s.u (pdCluster (p / 8)) ≠ 0 → (port s.u p).state = 2 →
    (port s.u p).ingress = .taking ord → (port s.u p).reqs = A ++ r :: B → r.ord = ord → r.phase = .data → (∀ z ∈ A ++ B, z.ord ≠ ord) →
    0 < tabGet (port s.u p).dataCred pool → pool = r.pool → dparOk d par = true → clusterStill s.u (p / 8) →
    (r.data.length + 1 < dataUnits (hCmd r.hdr) → ∃ t, exec (.dataBeat p pool d par) s = .next t ∧ (port t.u p).ingress = .taking ord ∧
      tabGet (port t.u p).dataCred pool + 1 = tabGet (port s.u p).dataCred pool ∧
      (port t.u p).reqs = A ++ { r with data := r.data ++ [d], dataPools := r.dataPools ++ [pool] } :: B) ∧
    (r.data.length + 1 = dataUnits (hCmd r.hdr) → r.bad = false → r.label = false → goesThrough s.ctl s.u p r.hdr →
      (∀ z ∈ A ++ B, hTag z.hdr ≠ hTag r.hdr ∧ hCtx z.hdr ≠ hCtx r.hdr) →
      let sent := fun (t : State) (k : Pkt) => k ∈ t.u.net ∧ k.src = epCluster (p / 8) ∧ k.dst = epSlice (lineSlice s.u s.u.regs.epoch (hLla r.hdr)) ∧
        k.prio = classPrio s.u p (portClass s.u p) ∧ k.epoch = s.u.regs.epoch ∧ k.port = p ∧ k.ord = ord ∧ k.lla = hLla r.hdr
      let key := (tabGet s.u.keys (cBits (ctxRec s.u s.u.regs.epoch (hCtx r.hdr)) 7 10)).key
      (hCmd r.hdr = 2 → ∃ t k, exec (.dataBeat p pool d par) s = .next t ∧ sent t k ∧ k.typ = .lineWr ∧ k.poison = (hP r.hdr == 1) ∧
        k.data = if hP r.hdr = 1 then 0 else xtsEncrypt key (hLla r.hdr) (lineOf (r.data ++ [d]))) ∧
      (hCmd r.hdr = 3 ∧ hMask r.hdr ≠ 0 ∧ hP r.hdr ≠ 1 → ∃ t k, exec (.dataBeat p pool d par) s = .next t ∧ sent t k ∧ k.typ = .lineReq ∧ k.kind = .merge))

/-- R89 (Table 2-9): a beat with KIND 0b11 on an open port sets PORT_n_ERR.bad_kind, and the port awaits no further DATA beat; its ordinal counter stays. R72: a beat of any kind other than IDLE, of whatever command, that arrives while READY is low is discarded, sets PORT_n_ERR.not_ready and returns no credit. -/
def Obligations.StrayBeatsAreFlagged : Prop :=
  ∀ (s : State) (p : Nat), p < nPorts s.u.v → pdState s.u (pdCluster (p / 8)) ≠ 0 →
    ((port s.u p).state = 2 →
      ∃ t, exec (.badKind p) s = .next t ∧ getF t.u F.PORT_n_ERR_bad_kind p = 1 ∧ (port t.u p).ingress = .idle ∧
        (port t.u p).state = 2 ∧ (port t.u p).next = (port s.u p).next) ∧
    ((port s.u p).state ≠ 2 → ∀ (pool : Nat) (h : BitVec 128) (d : BitVec 256) (par : BitVec 32), pool < 4 →
      let dropped := fun (i : Instr) => ∃ t, exec i s = .next t ∧ t.ctl = s.ctl ∧ t.u.ports = s.u.ports ∧ t.u.net = s.u.net ∧ t.u.out = [] ∧
        getF t.u F.PORT_n_ERR_not_ready p = 1
      dropped (.badKind p) ∧ dropped (.dataBeat p pool d par) ∧
      (hCmd h = 1 → dropped (.read p pool h)) ∧ (hCmd h = 2 → dropped (.write p pool h)) ∧ (hCmd h = 3 → dropped (.writeMasked p pool h)) ∧
      (hCmd h = 4 → dropped (.prefetch p pool h)) ∧ (hCmd h = 5 → dropped (.flush p pool h)) ∧ (hCmd h = 0 ∨ 6 ≤ hCmd h → dropped (.flushAll p pool h)))

/-- R70 (Table 2-3, step 2), R68: an opening port raises READY and takes the full header and data count of every pool, given back as credit returns of at most 15 headers and 31 data units each. -/
def Obligations.PortReadyOpens : Prop :=
  ∀ (s : State) (p : Nat), p < nPorts s.u.v → (port s.u p).state = 1 →
    ∃ t, exec (.portReady p) s = .next t ∧ (port t.u p).state = 2 ∧ .ready p true ∈ t.u.out ∧
      ∀ pool, pool < 4 → tabGet (port t.u p).hdrCred pool = hdrFull s.u p pool ∧ tabGet (port t.u p).dataCred pool = dataFull s.u p pool ∧
        (creditReturns t.u.out p pool false).sum = hdrFull s.u p pool ∧ (creditReturns t.u.out p pool true).sum = dataFull s.u p pool ∧
        (∀ n ∈ creditReturns t.u.out p pool false, n ≤ 15) ∧ (∀ n ∈ creditReturns t.u.out p pool true, n ≤ 31)

/-- R133: a refill raises the level of each bucket that is not unlimited by its effective rate, up to its depth; the cluster's requests await data or are in transit, so that none takes tokens at once. Of the model's choosing is what log entries 2 and 8 say. -/
def Obligations.RefillRaisesLevels : Prop :=
  ∀ (s : State) (p k : Nat), p < nPorts s.u.v → k < 4 → (port s.u p).state = 2 ∨ (port s.u p).state = 3 → clusterStill s.u (p / 8) →
    ∃ t, exec (.bucketRefill p) s = .next t ∧ levelOf (port t.u p) k =
      if bucketUnlimited s.u p k then levelOf (port s.u p) k else min (levelOf (port s.u p) k + effRate s.u p k) (bucketDepth s.u p k * 16 : Nat)

/-- R208: a ready write that lacks its line-carrying ticket sends a rewrite check, on a request ticket, to the home slice of its line, where no fence stands on the way; while a check of the write is out, another REWRITE_CHECK for it changes nothing. Of the model's choosing is what log entry 8 says. -/
def Obligations.RewriteCheckIsSent : Prop :=
  ∀ (s : State) (p ord : Nat) (r : Req), p < nPorts s.u.v → findReq s.u p ord = some r → r.phase = .ready → isWriteCmd (hCmd r.hdr) = true →
    let cl := epCluster (p / 8)
    let sl := epSlice (lineSlice s.u (r.epoch.getD 0) (hLla r.hdr))
    (r.checkOut = false → r.bound = false → r.tickets.contains (poolId 1 cl sl) = false → routeRefused s.u cl sl = false → canTake s.u (poolId 0 cl sl) r.prio = true →
      ∃ t k, exec (.rewriteCheck p ord) s = .next t ∧ k ∈ t.u.net ∧ k.typ = .lineReq ∧ k.kind = .check ∧ k.src = cl ∧ k.dst = sl ∧ k.lla = hLla r.hdr ∧
        k.port = p ∧ k.ord = ord ∧ findReq t.u p ord = some { r with checkOut := true } ∧ tabGet t.u.tickets (poolId 0 cl sl) = tabGet s.u.tickets (poolId 0 cl sl) + 1) ∧
    (r.checkOut = true → exec (.rewriteCheck p ord) s = .next { s with u := { s.u with out := [] } })

/-- R96, R177: a record fetch that reaches the context engine gives its ticket back and is answered by a CTX packet to its cluster, which needs no ticket; when that packet reaches the cluster the record is at hand for the request that asked, and the requests of its cluster go on. Of the model's choosing are what log entries 8 and 16 say. -/
def Obligations.RecordFetchAnswers : Prop :=
  ∀ (s : State) (pkt : Nat) (k : Pkt) (w : Units), lands s pkt .ctx k w →
    (32 ≤ k.dst → ∃ t y z, exec (.ctxRecordFetch ⟨pkt, .none⟩) s = .next t ∧ t.u.tickets = s.u.tickets ∧
      y ∈ t.u.net ∧ y.typ = .ctx ∧ y.src = k.dst ∧ y.dst = k.src ∧ y.port = k.port ∧ y.ord = k.ord ∧ y.handle = k.handle ∧
      z ∈ t.u.net ∧ z.typ = .ticket ∧ z.dst = k.pool / 256 % 256 ∧ z.pool = k.pool ∧ z.aux = 0) ∧
    (∀ r, k.dst < 32 → findReq s.u k.port k.ord = some r →
      exec (.ctxRecordFetch ⟨pkt, .none⟩) s = .next { s with u := pump s.ctl (setReq (dropPkt w k.id) k.port { r with fetch := 2 }) k.port })

/-! ### Packets that land -/

/-- R37, R38, R78, R79, R83 (Table 2-7): the LINE_RET of a READ presents one COMPLETION beat, OK with D = 1 and the M and X of the packet, and its DATA beat, the line decrypted under the request's key; a ZERO presents the zero line with Z = 1; the DONE of a request that is no READ or PREFETCH, in transit, presents the status it carries. Of the model's choosing is what log entry 14 says. -/
def Obligations.CompletionsLeaveEgress : Prop :=
  ∀ (s : State) (pkt : Nat) (k : Pkt) (w : Units) (r : Req), findReq s.u k.port k.ord = some r → r.phase = .sent →
    let line := xtsDecrypt (tabGet s.u.keys r.keySlot).key k.lla k.data
    let word := fun (st d z m x : Nat) => completionWord st (hTag r.hdr) d z m x r.pool r.ord
    (lands s pkt .lineRet k w → k.kind = .read → hCmd r.hdr = 1 → ∃ t, exec (.lineRet pkt .none) s = .next t ∧
      .beat k.port 1 (word 0 1 0 (if k.m then 1 else 0) (if k.x then 1 else 0)) (line.setWidth 256) ∈ t.u.out ∧
      .beat k.port 2 0 (BitVec.ofNat 256 (line.toNat / 2 ^ 256)) ∈ t.u.out) ∧
    (lands s pkt .zero k w → k.kind = .read → k.dst < 32 → hCmd r.hdr = 1 → ∃ t, exec (.zero ⟨pkt, .none⟩) s = .next t ∧
      .beat k.port 1 (word 0 1 1 (if k.m then 1 else 0) (if k.x then 1 else 0)) 0 ∈ t.u.out ∧ .beat k.port 2 0 0 ∈ t.u.out) ∧
    (lands s pkt .done k w → k.kind ≠ .check → k.dst < 32 → hCmd r.hdr ≠ 1 → hCmd r.hdr ≠ 4 → ∃ t, exec (.done ⟨pkt, .none⟩) s = .next t ∧
      .beat k.port 1 (word k.aux 0 0 0 0) 0 ∈ t.u.out)

/-- R178: a TICKET packet gives its tickets back to the pool of their holder and leaves the network; no request of a holding cluster can go on by itself, and the holder is neither a slice nor the ring engine. Of the model's choosing is what log entry 14 says. -/
def Obligations.TicketsComeBack : Prop :=
  ∀ (s : State) (pkt : Nat) (k : Pkt) (w : Units), lands s pkt .ticket k w → (k.dst < 32 ∧ clusterStill s.u k.dst) ∨ (64 ≤ k.dst ∧ k.dst ≠ epCore 5) →
    ∃ t, exec (.ticket ⟨pkt, .none⟩) s = .next t ∧ t.ctl = s.ctl ∧ tabGet t.u.tickets k.pool = tabGet s.u.tickets k.pool - (k.aux + 1) ∧
      (∀ id, id ≠ k.pool → tabGet t.u.tickets id = tabGet s.u.tickets id) ∧ t.u.net = s.u.net.filter fun x => x.id ≠ k.id

/-- R199, R200, R203, Table 5-7: a LINE_REQ or a LINE_WR leaves the network and joins the packets its slice serves, in order of arrival; a line whose bytes were in error is written poisoned. Of the model's choosing are what log entries 14 and 21 say. -/
def Obligations.PacketsJoinTheirSlice : Prop :=
  ∀ (s : State) (pkt : Nat) (k : Pkt) (w : Units),
    let joined := fun (x : Units) (y : Pkt) => pumpSlice s.ctl (setSlice (dropPkt x k.id) (k.dst - 32) { slice x (k.dst - 32) with waitq := (slice x (k.dst - 32)).waitq ++ [y] }) (k.dst - 32)
    (lands s pkt .lineReq k w → exec (.lineReq pkt .none) s = .next { s with u := joined w k }) ∧
    (lands s pkt .lineWr k w → exec (.lineWr pkt .none) s = .next { s with u := joined w k }) ∧
    (lands s pkt .lineWr k w → exec (.lineWr pkt .line) s = .next { s with u := joined (poisonMade w k.lla 5) { k with poison := true } })

/-- R201, R402, R38, R360: FILL_DATA, a zero-line indication and a DONE settle the open fill of their line at a slice, and the slice goes on. Where a fill is settled with a status other than OK (a poisoned line, or the status of a DONE), each READ that waits for it is answered with that status, or with CAPACITY_LOST at a sealed set; settled with a line, each READ that waits behind the first gets a LINE_RET that carries it. -/
def Obligations.FillsEndAtTheSlice : Prop :=
  (∀ (s : State) (pkt : Nat) (k : Pkt) (w : Units) (f : Fill), 32 ≤ k.dst → k.dst < 64 →
    (slice s.u (k.dst - 32)).fills.find? (fun f => f.lla == k.lla && f.got.isNone) = some f → f.pending = false →
    let ended := fun (st : Nat) (direct : Bool) => pumpSlice s.ctl (settleFill (dropPkt w k.id) (k.dst - 32) f k st direct) (k.dst - 32)
    (lands s pkt .fillData k w → exec (.fillData pkt .none) s = .next { s with u := ended (if k.poison then 1 else 0) (!k.poison) }) ∧
    (lands s pkt .zero k w → exec (.zero ⟨pkt, .none⟩) s = .next { s with u := ended 0 true }) ∧
    (lands s pkt .done k w → exec (.done ⟨pkt, .none⟩) s = .next { s with u := ended k.aux false })) ∧
  (∀ (u : Units) (sl : Nat) (f : Fill) (k : Pkt) (st : Nat), st ≠ 0 → ∀ a ∈ f.askers, a.kind = .read →
    ∃ y ∈ (settleFill u sl f k st false).net, y.typ = .done ∧ y.dst = a.src ∧ y.port = a.port ∧ y.ord = a.ord ∧
      y.aux = if (slice u sl).sealed.contains (lineSet u k.lla) then 7 else st) ∧
  ∀ (u : Units) (sl : Nat) (f : Fill) (k : Pkt) (direct : Bool) (b : Asker) (rest : List Asker), (slice u sl).sealed.contains (lineSet u k.lla) = false → k.zline = false →
    f.askers = b :: rest → ∀ a ∈ rest, a.kind = .read →
    ∃ y ∈ (settleFill u sl f k 0 direct).net, y.typ = .lineRet ∧ y.dst = a.src ∧ y.port = a.port ∧ y.ord = a.ord ∧ y.data = k.data

/-! ### Staging slices -/

/-- R199, R200, R192, R402: a READ that reaches its slice with its set's header at hand, no merge lock, seal or fill of its line and no hold on it queues the DRAM read of the way that holds its line; it is answered DATA_POISONED from a poisoned way; and where no way holds the line, it asks the hinge unit with a FILL_REQ that names the requester, as long as no fence stands on the way, both tickets can be taken and no other packet comes before it. Of the model's choosing is what log entry 21 says. -/
def Obligations.SliceServesReads : Prop :=
  ∀ (u : Units) (sl : Nat) (k : Pkt) (e : HdrEntry), k.typ = .lineReq → k.kind = .read → heldBack u sl k = false →
    (slice u sl).sealed.contains (lineSet u k.lla) = false → lockOf (slice u sl) k.lla = none → fillOf (slice u sl) k.lla = none →
    earlyOf (slice u sl) k = none → hdrEntry u sl (lineSet u k.lla) = some e → e.loaded = true →
    let set := lineSet u k.lla
    (∀ w, findWay e.hdr (lineTag u k.lla) (k.lla % 8) = some w → wayState e.hdr w ≠ 3 → rqRoom u sl (set * 16) 1 = true →
      ((subOf u sl (lineSub (set * 16))).rq ++ (subOf u sl (lineSub (set * 16))).inflight).any (fun a => a.use == .ahead w k.id) = false →
      ∃ x a, serve u sl k = (true, x) ∧ a ∈ (subOf x sl (lineSub (set * 16))).rq ∧ a.line = set * 16 + 1 + w ∧ a.use = .way w k) ∧
    (∀ w, findWay e.hdr (lineTag u k.lla) (k.lla % 8) = some w → wayState e.hdr w = 3 →
      ∃ x y, serve u sl k = (true, x) ∧ y ∈ x.net ∧ y.typ = .done ∧ y.dst = k.src ∧ y.aux = 1 ∧ y.port = k.port ∧ y.ord = k.ord) ∧
    (findWay e.hdr (lineTag u k.lla) (k.lla % 8) = none → (slice u sl).fills.length < 64 → fillRival (slice u sl) k = false → fillFenced u sl = false →
      canTake u (poolId 0 (epSlice sl) (epCore 1)) k.prio = true → canTake u (poolId 4 (epSlice sl) (epSlice sl)) k.prio = true →
      ∃ x y, serve u sl k = (true, x) ∧ y ∈ x.net ∧ y.typ = .fillReq ∧ y.src = epSlice sl ∧ y.dst = epCore 1 ∧ y.lla = k.lla ∧ y.handle = k.src ∧ y.port = k.port ∧ y.ord = k.ord)

/-- R203, R193, R194, R207: a WRITE of a cluster that reaches its slice with its set's header at hand and its line in a way that is not being read, no lock, seal or hold on it and room in the write queue, puts its data and the header into the write queue; the way becomes valid-dirty, or poisoned where the line is; the slice keeps the line-carrying ticket and answers OK. Of the model's choosing is what log entry 21 says. -/
def Obligations.SliceTakesWrites : Prop :=
  ∀ (u : Units) (sl : Nat) (k : Pkt) (e : HdrEntry) (w : Nat), k.typ = .lineWr → k.kind = .read → k.merge = false → k.bound = false → k.src ≠ epCore 5 →
    k.pool / 65536 = 1 → heldBack u sl k = false → (slice u sl).sealed.contains (lineSet u k.lla) = false → lockOf (slice u sl) k.lla = none →
    hdrEntry u sl (lineSet u k.lla) = some e → e.loaded = true →
    findWay e.hdr (lineTag u k.lla) (k.lla % 8) = some w → marked e w .read = false → wqRoom u sl [e.set * 16, e.set * 16 + 1 + w] = true →
    ∃ x e' y, serve u sl k = (true, x) ∧ hdrEntry x sl e.set = some e' ∧ wayState e'.hdr w = (if k.poison then 3 else 2) ∧ wayRef e'.hdr w = 1 ∧
      queuedWrite (subOf x sl (lineSub (e.set * 16))) (e.set * 16 + 1 + w) = some k.data ∧
      queuedWrite (subOf x sl (lineSub (e.set * 16))) (e.set * 16) = some e'.hdr ∧
      tabGet (slice x sl).withheld k.src = tabGet (slice u sl).withheld k.src + 1 ∧
      y ∈ x.net ∧ y.typ = .done ∧ y.dst = k.src ∧ y.aux = 0 ∧ y.port = k.port ∧ y.ord = k.ord

/-- Frame of the packets that land at a slice without a flit error, and of an epoch acknowledgement (R199, R201, R203, R214): they leave alone every port with its requests and credits, the contexts and keys, the hinge unit but for the pins of destages that a fence ends, the drift unit, the dies and media schedulers, the ring engine, every staged and banked register, the modes and power. Of the model's choosing is what log entry 14 says. -/
def Obligations.SliceWorkKeepsTheRest : Prop :=
  ∀ (s t : State) (i : Instr) (pkt sl : Nat), i = .lineReq pkt .none ∨ i = .lineWr pkt .none ∨ i = .fillData pkt .none ∨ i = .epochAck sl → exec i s = .next t →
    t.ctl = s.ctl ∧ t.pending = s.pending ∧ t.u.ports = s.u.ports ∧ t.u.ctxEven = s.u.ctxEven ∧ t.u.ctxOdd = s.u.ctxOdd ∧ t.u.keys = s.u.keys ∧
    { t.u.hng with pins := [] } = { s.u.hng with pins := [] } ∧ t.u.hng.pins.Sublist s.u.hng.pins ∧ t.u.drf = s.u.drf ∧ t.u.keep = s.u.keep ∧ t.u.media = s.u.media ∧ t.u.cex = s.u.cex ∧
    t.u.grp = s.u.grp ∧ t.u.rings = s.u.rings ∧ t.u.regs.staged = s.u.regs.staged ∧ t.u.regs.bankA = s.u.regs.bankA ∧ t.u.regs.bankB = s.u.regs.bankB ∧ t.u.regs.epoch = s.u.regs.epoch ∧
    t.u.pd = s.u.pd ∧ t.u.fences = s.u.fences ∧ t.u.pwr = s.u.pwr ∧ t.u.boot = s.u.boot

/-! ### Hinge unit and media group: fills, placement, destage -/

/-- R37, R38, R345, R360 (Table 6-5), R181: the hinge unit answers a FILL_REQ: CAPACITY_LOST of a lost region; a zero-line indication of a fresh one; FENCED where a fence stands on the way to the stripe group's media group; and otherwise, on a ticket of the group that no other request comes before, a FILL_FWD to its scheduler with the place, the generation and the line. -/
def Obligations.FillRequestAnswered : Prop :=
  ∀ (s : State) (pkt : Nat) (k : Pkt) (w : Units), lands s pkt .fillReq k w → pdOn s.u 2 = true → s.u.hng.mounted = true →
    let l := k.lla / 131072
    let e := hingeEntry s.u l
    let p := placeOf s.u l (k.lla / 8 % 16384)
    let g := prnGroup s.u.v p
    let dla := stripeDla s.u p (k.lla / 8 % 16384)
    let back := fun (t : State) (y : Pkt) => y ∈ t.u.net ∧ y.src = epCore 1 ∧ y.dst = k.src ∧ y.lla = k.lla ∧ y.port = k.port ∧ y.ord = k.ord
    (badRegion s.u l = true ∨ hLost e = true → ∃ t y, exec (.fillReq ⟨pkt, .none⟩) s = .next t ∧ back t y ∧ y.typ = .done ∧ y.aux = 7) ∧
    (badRegion s.u l = false → hLost e = false → hFresh e = true → ∃ t y, exec (.fillReq ⟨pkt, .none⟩) s = .next t ∧ back t y ∧ y.typ = .zero) ∧
    (badRegion s.u l = false → hLost e = false → hFresh e = false → routeRefused s.u (epCore 1) (epGroup (g / 8)) = true →
      ∃ t y, exec (.fillReq ⟨pkt, .none⟩) s = .next t ∧ back t y ∧ y.typ = .done ∧ y.aux = 4) ∧
    (badRegion s.u l = false → hLost e = false → hFresh e = false → routeRefused s.u (epCore 1) (epGroup (g / 8)) = false →
      canTake s.u (poolId 0 (epCore 1) (epGroup (g / 8))) k.prio = true → fwdRival s.u (epGroup (g / 8)) k = false →
      ∃ t y, exec (.fillReq ⟨pkt, .none⟩) s = .next t ∧ y ∈ t.u.net ∧ y.typ = .fillFwd ∧
        y.dst = epGroup (g / 8) ∧ y.group = g ∧ y.dla = dla ∧ y.pos = dataPos dla (k.lla % 8) ∧ y.prn = p ∧ y.gen = pGen (pipEntry s.u p) ∧ y.lla = k.lla)

/-- R282 to R284, R316, R317, R332: a FILL_FWD for an idle die that decodes frames, with nothing before it there and its bus not paused, in a stripe group without failed dies, of class C2 or below and outside the die's window, becomes a direct read: the SETREF frame where the die's register for the part of the line holds another code, and the READ frame of its die line, both on the line of that die alone; the die senses the line with the code. Of the model's choosing is what log entry 8 says. -/
def Obligations.MediaReadBegins : Prop :=
  ∀ (s : State) (pkt : Nat) (k : Pkt) (w : Units), lands s pkt .fillFwd k w →
    let g := k.dst - 64
    let n := 9 * g + k.pos
    let d := k.group % 8
    let x := dieOf s.u n d
    let code := fwdCode k
    pdOn s.u (pdMedia g) = true → g < 8 → k.pos < 9 → 2 ≤ k.cls → bufAt s.u g k.group k.dla = none → failedPos s.u k.group = [] → takesDetour s.u g k = false →
    (grp s.u g).phase ≠ k.pos → x.st = .idle → x.result = none → x.queue = [] → paused s.u n = false → x.chip.echo = 0 → x.chip.state = .idle →
    k.dla < 2 ^ 31 → k.dla < dieLines s.u n d →
    ∃ t, exec (.fillFwd ⟨pkt, .none⟩) s = .next t ∧ (∃ slow, .cexus n (csMask [d]) slow (caBeats (frameWord 32 k.dla)) ∈ t.u.out) ∧
      (dieOf t.u n d).st = .sensing ∧ (dieOf t.u n d).chip.op = .read k.dla code ∧
      (code ≠ tabGet x.chip.refs (k.dla % 4) → ∃ slow, .cexus n (csMask [d]) slow (caBeats (frameWord 7 (code + k.dla % 4 * 16))) ∈ t.u.out)

/-- R329, R330, R401: a DESTAGE packet that is not the last of its stripe puts its line into the stripe's entry of the stripe buffer, with its metadata word; a poisoned line is a poison line of its generation and address. No read waits for the entry. -/
def Obligations.DestagedLineEntersTheStripeBuffer : Prop :=
  ∀ (s : State) (pkt : Nat) (k : Pkt) (w : Units) (b : SBuf), lands s pkt .destage k w →
    let g := k.dst - 64
    pdOn s.u (pdMedia g) = true → (grp s.u g).reads = [] → (grp s.u g).bufs.find? (fun b => b.group == k.group && b.dla == k.dla && b.use == .destage (k.src - 32) && !b.formed && b.held.length < b.want) = some b →
    bufOf s.u g b.id = some b → b.held.contains (k.lla % 8) = false → b.held.length + 1 < b.want →
    ∃ t b', exec (.destage pkt .none) s = .next t ∧ bufOf t.u g b.id = some b' ∧ b'.held = b.held ++ [k.lla % 8] ∧
      tabGet b'.lines (k.lla % 8) = (if k.poison then poisonLine k.gen k.lla else { data := k.data, metaWord := metaOf k.gen false (addrCheck k.lla) }) ∧
      (∀ j, j ≠ k.lla % 8 → tabGet b'.lines j = tabGet b.lines j)

/-- R345, R351, R372, R377, R212: the oldest placement request of a slice is answered with the place of its stripe, and the slice goes on with the job placed; the stripe is pinned. No fence stands anywhere. Of a fresh region whose physical region is formatted, the entry leaves the fresh state and the physical region is occupied, oldest and newest age now, with its generation kept; a region that is not fresh, does not move and was last written in this age epoch keeps both tables. Of the model's choosing is what log entry 42 says. -/
def Obligations.PlacementIsAnswered : Prop :=
  ∀ (s : State) (sl : Nat) (j : Destage), inService s.u sl = true → pdOn s.u 2 = true → s.u.hng.mounted = true → s.u.fences = [] →
    (slice s.u sl).jobs.find? (fun j => j.phase == .asking) = some j →
    let l := j.stripe / 16384
    let e := hingeEntry s.u l
    let p := hPrn e
    badRegion s.u l = false → hLost e = false → regionHeld s.u l = false → p < nPhys s.u.v →
    let placed := fun (t : State) (fresh : Bool) => exec (.placementRequest sl) s = .next t ∧ t.u.hng.pins = s.u.hng.pins ++ [j.stripe] ∧
      ∃ x : Units, x.slices = s.u.slices ∧ t.u = pumpSlice s.ctl (putJob x sl { j with
        phase := .placed, group := prnGroup s.u.v p, prn := p, dla := stripeDla s.u p (j.stripe % 16384), gen := pGen (pipEntry s.u p), fresh := fresh }) sl
    (hFresh e = true → pState (pipEntry s.u p) ≠ 3 → ∃ t, placed t true ∧
      hingeEntry t.u l = nput e 23 1 0 ∧ pState (pipEntry t.u p) = 2 ∧ pOldest (pipEntry t.u p) = s.u.drf.e % 32 ∧ pNewest (pipEntry t.u p) = s.u.drf.e % 32 ∧
      pGen (pipEntry t.u p) = pGen (pipEntry s.u p)) ∧
    (hFresh e = false → moveOf s.u l = none → pNewest (pipEntry s.u p) = s.u.drf.e % 32 → ∃ t, placed t false ∧ t.u.hng.hinge = s.u.hng.hinge ∧ t.u.hng.pip = s.u.hng.pip)

/-- R212, R330, R208: once the media group reports a stripe of a slice written, its stripe-buffer entry and its pin are released, its job ends, and the slice goes on with its ways finished in order. A way that was written during the destage stays in its state under the epoch of that write (R44, R111), and a pinned way stays in its state too; any other is valid-clean, or empty where it was poisoned, and no longer counted dirty. Of the model's choosing are what log entries 8 and 103 say. -/
def Obligations.StripeWrittenReleases : Prop :=
  (∀ (s : State) (sl g : Nat) (b : SBuf) (j : Destage) (e : HdrEntry), inService s.u sl = true → pdOn s.u 2 = true → s.u.hng.mounted = true → g < nGroups s.u.v →
    (grp s.u g).bufs.find? (fun b => b.use == .destage sl && b.formed && b.todo.isEmpty) = some b →
    (slice s.u sl).jobs.find? (fun j => j.stripe == b.stripe) = some j → hdrEntry s.u sl j.set = some e → wqRoom s.u sl [j.set * 16] = true →
    let done := j.ways.foldl (fun p w => finishWay { s.u with out := [] } sl j p w.1) (slice s.u sl, e.hdr)
    ∃ t y e', exec (.stripeWritten sl g) s = .next t ∧ bufOf t.u g b.id = none ∧ t.u.hng.pins.Sublist (s.u.hng.pins.erase b.stripe) ∧
      t.u.slices = (pumpSlice s.ctl y sl).slices ∧ hdrEntry y sl j.set = some e' ∧ e'.hdr = done.2 ∧ (slice y sl).dirty = done.1.dirty ∧ ∀ x ∈ (slice y sl).jobs, x.stripe ≠ j.stripe) ∧
  (∀ (u : Units) (s : Nat) (j : Destage) (x : Slice) (h : BitVec 512) (w : Nat), w < 15 →
    (j.dirtied.find? (fun d => d.1 == w) = none → pinned u s j.set h w = false → (finishWay u s j (x, h) w).1.dirty = x.dirty - 1 ∧
      wayState (finishWay u s j (x, h) w).2 w = if wayState h w = 3 ∨ j.empties.contains w = true then 0 else 1) ∧
    (j.dirtied.find? (fun d => d.1 == w) = none → pinned u s j.set h w = true → (finishWay u s j (x, h) w).1.dirty = x.dirty ∧
      wayState (finishWay u s j (x, h) w).2 w = wayState h w) ∧
    (∀ d, j.dirtied.find? (fun d => d.1 == w) = some d → d.2 < 16 → (finishWay u s j (x, h) w).1.dirty = x.dirty ∧
      wayState (finishWay u s j (x, h) w).2 w = wayState h w ∧ wayEp (finishWay u s j (x, h) w).2 w = d.2))

/-- R211, R212: a destage that is due begins with the stripe that comes first, among those whose placement is not passed over: in DRAIN the oldest listed full stripe, else the next of the dirty walk; otherwise a forced stripe, and then the next of the walk that holds a line of the epoch the slice works on. Where the header of its set is at hand, its ways are marked busy, its job asks for its placement, and the walk stays where it is unless it gave the stripe; the slice then goes on. -/
def Obligations.DestageBeginsInOrder : Prop :=
  (∀ (s : State) (sl : Nat), inService s.u sl = true → pdOn s.u 2 = true → s.u.hng.mounted = true →
    let u : Units := { s.u with out := [] }
    let good := fun (t : Nat × Nat × List (Nat × Nat)) => placeable s.ctl u (stripeOf u t.1 t.2.1)
    let begins := fun (walked : Bool) (t : Nat × Nat × List (Nat × Nat)) => exec (.destageStart sl) s = .next { s with u := startDestage s.ctl u sl walked t }
    let walk := (walkStripes u sl).filter good
    (s.ctl.mode = .drain → ∀ t, firstFull u sl good = some t → begins false t) ∧
    (s.ctl.mode = .drain → firstFull u sl good = none → ∀ t, walk.head? = some t → begins true t) ∧
    (movesRun s.ctl s.u = true → ∀ t rest, (((slice u sl).forced.filterMap fun f => stripeAt u sl f.1 f.2.1).filter good) = t :: rest → begins false t) ∧
    (movesRun s.ctl s.u = true → (((slice u sl).forced.filterMap fun f => stripeAt u sl f.1 f.2.1).filter good) = [] → ∀ ep, epochWork u sl = some ep →
      ∀ t, walk.find? (stripeHasEp u sl ep) = some t → begins true t)) ∧
  ∀ (c : Ctl) (u : Units) (sl : Nat) (walked : Bool) (t : Nat × Nat × List (Nat × Nat)) (e : HdrEntry), hdrEntry u sl t.1 = some e → e.loaded = true →
    ∃ y j e', startDestage c u sl walked t = pumpSlice c y sl ∧ j ∈ (slice y sl).jobs ∧ j.set = t.1 ∧ j.tag = t.2.1 ∧ j.stripe = stripeOf u t.1 t.2.1 ∧ j.ways = t.2.2 ∧ j.phase = .asking ∧
      hdrEntry y sl t.1 = some e' ∧ (∀ w ∈ t.2.2, (w.1, BusyWhy.destage) ∈ e'.busy) ∧ (slice y sl).walk = if walked then t.1 else (slice u sl).walk

/-! ### Routers, flushes and evacuation -/

/-- R172, R183, R483: a router output enters slot mode once a head flit has waited 512 transit cycles, not before, and leaves it after 8,192 cycles with no wait above 128. In SERVICE a fenced cluster whose ports are closed and whose boundary is quiet is switched off; no other domain changes. Of the model's choosing is what log entries 14 and 15 say. -/
def Obligations.OutputsChangeModeAndClustersGoDark : Prop :=
  ∀ (s : State) (r o waited quiet worst d : Nat),
    (o < nOutputs s.u.v r → 512 ≤ waited → ∃ t, exec (.slotModeEnter r o waited) s = .next t ∧ ∀ x, x ∈ t.u.slotMode ↔ x ∈ s.u.slotMode ∨ x = r * 32 + o) ∧
    (waited < 512 → ∃ t, exec (.slotModeEnter r o waited) s = .next t ∧ t.u.slotMode = s.u.slotMode) ∧
    (o < nOutputs s.u.v r → 8192 ≤ quiet → worst ≤ 128 → ∃ t, exec (.slotModeExit r o quiet worst) s = .next t ∧ ∀ x, x ∈ t.u.slotMode ↔ x ∈ s.u.slotMode ∧ x ≠ r * 32 + o) ∧
    (11 ≤ d → d < 11 + nClusters s.u.v → s.ctl.mode = .service → pdOn s.u d = true → fenced s.u d = true → quietDomain s.u d = true →
      (∀ i, i < 8 → (port s.u (8 * (d - 11) + i)).state = 0) → ∃ t, exec (.isolation d) s = .next t ∧ pdState t.u d = 0 ∧ fenced t.u d = true ∧
        ∀ e, e ≠ d → pdState t.u e = pdState s.u e)

/-- R110, R112 (steps 1 to 3), R114: a FLUSH of a context that is not open completes REVOKED; in staged mode it completes OK at once and the context's flush_seq rises by one; in media mode it waits for the epoch in force, which closes: E advances, the waiters count the advance and every slice in service is to acknowledge it, or the advance waits while the next epoch is live. -/
def Obligations.FlushesTakeTheirEpoch : Prop :=
  ∀ (s : State) (pkt : Nat) (k : Pkt) (v : Units) (r : Req), lands s pkt .flush k v → findReq s.u k.port k.ord = some r → hCmd r.hdr = 5 →
    let answered := fun (t : State) (st : Nat) => ∃ y ∈ t.u.net, y.typ = .done ∧ y.dst = epCluster (k.port / 8) ∧ y.port = k.port ∧ y.ord = k.ord ∧ y.aux = st
    let next := (s.u.stg.e + 1) % 16
    (check2 s.u k.epoch r = false → ∃ t, exec (.flushArrival ⟨pkt, .none⟩) s = .next t ∧ answered t 2 ∧ t.u.flushSeq = s.u.flushSeq) ∧
    (check2 s.u k.epoch r = true → r.dur = 0 → ∃ t, exec (.flushArrival ⟨pkt, .none⟩) s = .next t ∧ answered t 0 ∧ tabGet t.u.flushSeq k.handle = (tabGet s.u.flushSeq k.handle + 1) % 65536) ∧
    (check2 s.u k.epoch r = true → r.dur ≠ 0 → s.u.stg.advanceWait = false → ∃ t w, exec (.flushArrival ⟨pkt, .none⟩) s = .next t ∧
      w.target = s.u.stg.e ∧ w.port = k.port ∧ w.ord = k.ord ∧ w.handle = k.handle ∧ w.prio = k.prio ∧
      (epochLive s.u next = true → t.u.stg.waiters = s.u.stg.waiters ++ [w] ∧ t.u.stg.e = s.u.stg.e ∧ t.u.stg.advanceWait = true) ∧
      (epochLive s.u next = false → t.u.stg.waiters = (s.u.stg.waiters ++ [w]).map (fun x => { x with age := x.age + 1 }) ∧ t.u.stg.e = next ∧ t.u.stg.advanceWait = false ∧
        t.u.stg.unacked = (List.range (nDdr s.u.v)).filter fun c => inService s.u c))

/-- R112 (steps 3 to 5), R114, R214: an advance that waits is made once the next epoch is not live; an acknowledgement strikes its slice off; a FLUSH in media mode whose epoch is swept and whose journal blocks are durable, no stripe destaged above the last journalled cursor of a move, completes OK at its request's priority, and its context's flush_seq rises by one. Of the model's choosing is what log entry 86 says. -/
def Obligations.EpochsAdvanceAndFlushesEnd : Prop :=
  (∀ s : State, s.u.stg.advanceWait = true → epochLive s.u ((s.u.stg.e + 1) % 16) = false → ∃ t, exec .epochAdvance s = .next t ∧
    t.u.stg.e = (s.u.stg.e + 1) % 16 ∧ t.u.stg.advanceWait = false ∧ t.u.stg.unacked = (List.range (nDdr s.u.v)).filter fun c => inService s.u c) ∧
  (∀ (s : State) (sl : Nat), inService s.u sl = true → ∃ t, exec (.epochAck sl) s = .next t ∧ t.u.stg.unacked = s.u.stg.unacked.filter (fun i => i != sl) ∧ t.u.stg.e = s.u.stg.e) ∧
  (∀ (s : State) (w : FlushWait), s.u.stg.waiters.find? (fun x => x.id == w.id) = some w → w.swept = true → w.desc = none → w.all = false →
    durableBelow s.u w.journal = true → (∀ i ∈ s.u.hng.active, (tabGet s.u.hng.slots i).exposed = false) → durableBelow s.u s.u.hng.expSeq = true →
    (∀ x ∈ underWay s.u, dOp x.2 ≠ 5 ∧ dOp x.2 ≠ 8) → ∃ t, exec (.flushEpochComplete w.id) s = .next t ∧
      t.u.stg.waiters = s.u.stg.waiters.filter (fun y => y.id != w.id) ∧ tabGet t.u.flushSeq w.handle = (tabGet s.u.flushSeq w.handle + 1) % 65536 ∧
      ∃ y ∈ t.u.net, y.typ = .done ∧ y.dst = epCluster (w.port / 8) ∧ y.port = w.port ∧ y.ord = w.ord ∧ y.prio = w.prio ∧ y.aux = 0)

/-- R217 (Table 6-8): once the evacuated channel's slice holds nothing dirty, nothing of its position is under way and no older request names it, the hold ends and the evacuation is complete; once the same holds of the restored position at its partner, which gives up its clean lines of it, the restoration is over and the descriptor completes with the status its test left. -/
def Obligations.EvacuationRunsItsSteps : Prop :=
  ∀ (s : State) (r : Nat) (d : Desc), let k := s.u.stg.evacCh
    s.u.stg.evacDesc = some (r, d.idx) → findDesc s.u r d.idx = some d → s.u.stg.evacHold = true →
    (s.u.stg.evac = 1 → (slice s.u k).dirty = 0 → slicePosIdle s.u k k = true → olderAt s.u k = false → d.own.headD 0 ≠ 3 →
      ∃ t, exec .evacComplete s = .next t ∧ t.u.stg.evac = 2 ∧ t.u.stg.evacHold = false) ∧
    (∀ x, s.u.stg.evac = 3 → slicePosIdle s.u (k ^^^ 1) k = true → olderAt s.u k = false → dirtyAt s.u (k ^^^ 1) k = 0 →
      emptyCleanAt s.ctl { s.u with out := [] } (k ^^^ 1) k = (true, x) → x.stg.evacDesc = some (r, d.idx) → findDesc x r d.idx = some d →
      ∃ t, exec .restoreComplete s = .next t ∧ t.u.stg.evac = 0 ∧ t.u.stg.evacHold = false ∧ t.u.stg.evacDesc = none ∧ posted x t.u r d (ownAt d 1) d.r0 d.r1)

/-! ### Rings -/

/-- R448, R449, R469: a tail beyond the ring, for a ring that does not run, or inside the fetched range is flagged and changes nothing; any other is the new tail. A head beyond the ring, past the entries written, or of a ring under reset is flagged and changes nothing; any other frees the slots up to it. -/
def Obligations.DoorbellsMoveTheRings : Prop :=
  ∀ (s : State) (r : Nat) (v : Word), let x := ring s.u r
    let n := v.toNat % 65536
    let q := cqSize s.u r
    let gone := (n + q - x.head) % q
    let away := (n + ntSize s.u - s.u.rings.ntHead) % ntSize s.u
    (reaches s.ctl s.u .RNG_r_SQ_TAIL r →
      (n < sqSize s.u r → x.state = 1 ∨ x.state = 3 → inFetched s.u r n = false → ∃ t, exec (.sqDoorbell r v) s = .next t ∧ (ring t.u r).tail = n) ∧
      (sqSize s.u r ≤ n ∨ x.state = 0 ∨ x.state = 2 ∨ (n ≠ x.tail ∧ inFetched s.u r n = true) →
        ∃ t, exec (.sqDoorbell r v) s = .next t ∧ ring t.u r = x ∧ getF t.u F.RNG_r_ERR_doorbell r = 1)) ∧
    (reaches s.ctl s.u .RNG_r_CQ_HEAD r →
      (n < q → gone ≤ x.cqUsed → x.state ≠ 2 → ∃ t, exec (.cqDoorbell r v) s = .next t ∧ ring t.u r = { x with head := n, cqUsed := x.cqUsed - gone }) ∧
      (q ≤ n ∨ x.cqUsed < gone ∨ x.state = 2 → ∃ t, exec (.cqDoorbell r v) s = .next t ∧ ring t.u r = x ∧ getF t.u F.RNG_r_ERR_doorbell r = 1)) ∧
    (reaches s.ctl s.u .RNG_NT_HEAD 0 →
      (n < ntSize s.u → away ≤ s.u.rings.ntUsed → ∃ t, exec (.ntDoorbell v) s = .next t ∧ t.u.rings = { s.u.rings with ntHead := n, ntUsed := s.u.rings.ntUsed - away }) ∧
      (ntSize s.u ≤ n ∨ s.u.rings.ntUsed < away → ∃ t, exec (.ntDoorbell v) s = .next t ∧ t.u.rings = s.u.rings ∧ getF t.u F.RNG_NT_ERR_doorbell = 1))

/-- R447, R452: a running ring with a descriptor to fetch, a place for it and a free CQ slot reads its 64 bytes; the descriptor that its one read under way returns joins the outstanding ones, and that read in error puts the running ring in its error state and is flagged. Of the model's choosing is what log entry 58 says. -/
def Obligations.DescriptorsAreFetchedInOrder : Prop :=
  ∀ (s : State) (r i : Nat) (bits : BitVec 512), let x := ring s.u r
    pdOn s.u 4 = true → r < 64 →
    (fenced s.u 4 = false → fetchMode s.ctl = true → s.u.pwr.hushing = false → x.state = 1 → fetchNext s.u r = i → i ≠ x.tail → outstanding x < 32 →
      x.cqUsed + outstanding x < cqSize s.u r → s.u.rings.reads.length < 64 → ∃ t, exec (.descriptorFetch r) s = .next t ∧
        t.u.out = [.ringRead (sqBase s.u r + i * 64)] ∧ t.u.rings.reads = s.u.rings.reads ++ [(r, i, 0)] ∧ ring t.u r = { x with fetching := x.fetching ++ [i] }) ∧
    (s.u.rings.reads.find? (fun k => k.1 == r && k.2.1 == i && (k.2.2 == 0 || k.2.2 == 2)) = some (r, i, 0) → x.fetching = [i] → x.arrived = [] → x.fetchErr = false →
      (x.runDead = false → dChain { bits := bits } = false → ∃ t, exec (.fetchReturn r i false bits) s = .next t ∧ t.u.rings.reads = s.u.rings.reads.erase (r, i, 0) ∧
        (ring t.u r).descs = x.descs ++ [{ idx := i, bits := bits, pos := x.runLen }] ∧ (ring t.u r).fetching = [] ∧ (ring t.u r).fetch = nextIdx (sqSize s.u r) i) ∧
      (x.state = 1 → x.runLen = 0 → ∃ t, exec (.fetchReturn r i true bits) s = .next t ∧ (ring t.u r).state = 3 ∧ (ring t.u r).descs = x.descs ∧ (ring t.u r).fetching = [] ∧
        getF t.u F.RNG_r_ERR_fetch r = 1))

/-- R451, R471 to R473, R571: the response to the oldest completion write ends it; its ring counts an entry, or sends its message where the entry asks for one and the vector is not masked; a coalescing timer that has ended sends it too; unmasking a vector sends the message held for it, and masking it sends none; the oldest message queued goes out first. Of the model's choosing is what log entry 58 says. -/
def Obligations.EntriesRaiseMessages : Prop :=
  ∀ (s : State) (r : Nat), let sent := fun (t : State) (vector source : Nat) => BitVec.ofNat 32 (vector + source * 256) ∈ t.u.rings.msgs
    (∀ w rest, s.u.rings.writes = w :: rest → w.ring = r → rest.length < 64 → r < 64 → pdOn s.u 4 = true →
      (w.irq = false → irqCount s.u r = 0 → ∃ t, exec (.completionWritten r false) s = .next t ∧ t.u.rings.writes = rest ∧ (ring t.u r).pend = (ring s.u r).pend + 1) ∧
      (w.irq = true → unmasked s.u (irqVector s.u r) → ∃ t, exec (.completionWritten r false) s = .next t ∧ t.u.rings.writes = rest ∧ (ring t.u r).pend = 0 ∧ sent t (irqVector s.u r) r)) ∧
    (r < 64 → pdOn s.u 4 = true → 0 < (ring s.u r).pend → 0 < irqUsec s.u r → (ring s.u r).due ≤ usec s.u → unmasked s.u (irqVector s.u r) →
      ∃ t, exec (.irqTimer r) s = .next t ∧ (ring t.u r).pend = 0 ∧ sent t (irqVector s.u r) r) ∧
    (∀ (m : Word) rest, s.u.rings.msgs = m :: rest → pdOn s.u 4 = true → ∃ t, exec .intMsgDelivery s = .next t ∧ t.u.out = [.intMsg m] ∧ t.u.rings.msgs = rest) ∧
    (∀ (k : Nat) (value : Word) (vector source : Nat), reaches s.ctl s.u .RNG_IRQ_MASK_k k → s.u.rings.heldMsgs = [(vector, source)] → vector / 32 = k →
      (nbits value.toNat (vector % 32) 1 = 0 → ∃ t, exec (.irqMaskWrite k value) s = .next t ∧ rawReg t.u .RNG_IRQ_MASK_k k = value.toNat ∧ t.u.rings.heldMsgs = [] ∧ sent t vector source) ∧
      (nbits value.toNat (vector % 32) 1 = 1 → ∃ t, exec (.irqMaskWrite k value) s = .next t ∧ rawReg t.u .RNG_IRQ_MASK_k k = value.toNat ∧ t.u.rings = s.u.rings))

/-- R468 (Table 15-8), R474: a ring reset drops the descriptor reads of a running or failed ring, answers its one descriptor, unchained and not begun, RING_RESET, and holds the ring in reset; once nothing of the ring is outstanding its indices are zero and it runs again where it is enabled. A reset of the notice ring returns its indices and its lost field to zero and its phase to 1. -/
def Obligations.RingResetsEmptyARing : Prop :=
  ∀ (s : State) (r : Nat), let x := ring s.u r
    (∀ d, reaches s.ctl s.u .RNG_r_CTRL r → x.state = 1 ∨ x.state = 3 → x.descs = [d] → d.begun = false → dChain d = false → ∃ t, exec (.ringReset r) s = .next t ∧
      (ring t.u r).state = 2 ∧ (ring t.u r).fetching = [] ∧ (∀ k ∈ t.u.rings.reads, k.1 = r → k.2.2 ≠ 0) ∧ posted s.u t.u r d 5 0 0) ∧
    (r < 64 → pdOn s.u 4 = true → x.state = 2 → x.descs = [] → (∀ w ∈ s.u.rings.writes, w.ring ≠ r) → ∃ t, exec (.ringResetComplete r) s = .next t ∧
      ring t.u r = { state := if inF s.u F.RNG_r_CFG_enable r = 1 then 1 else 0 }) ∧
    (reaches s.ctl s.u .RNG_NT_CTRL 0 → ∃ t, exec .noticeRingReset s = .next t ∧
      t.u.rings = { s.u.rings with ntTail := 0, ntHead := 0, ntUsed := 0, ntFlip := false, ntLostField := 0 })

/-! ### Registers -/

/-- R14, R541, R559: a write of the driver to a register whose writes follow the access codes alone sets its RW bits, and its RWB bits while its group is not bolted, to the value; clears each W1C bit written with 1; leaves every other bit; and answers zero. R550: a write of an alias of an RW bit acts on that bit alone. Of the model's choosing is what log entries 75 and 76 say. -/
def Obligations.WritesFollowTheAccessCodes : Prop :=
  ∀ (s : State) (r : Reg) (i addr : Nat) (v : Word), ordinary r = true → reaches s.ctl s.u r i →
    (regPlaceOf addr = .reg r i 0 false → ∃ t, exec (.registerWrite addr v) s = .next t ∧ t.ctl = s.ctl ∧ .regData 0 ∈ t.u.out ∧
      ∀ b, b < 32 → (rawReg t.u r i).testBit b = if (r.info.rw).testBit b || ((r.info.rwb).testBit b && nbits s.ctl.bolts.toNat r.info.group 1 == 0) then v.getLsbD b
        else (rawReg s.u r i).testBit b && !(v.getLsbD b && (r.info.w1c).testBit b)) ∧
    (∀ k, regPlaceOf addr = .bit r i 0 k → 0x1000000 ≤ addr → addr < 0x1400000 → k < 32 → r.info.rws = 0 → (r.info.rw).testBit k = true → r.info.w1c &&& (r.info.rw ||| r.info.rwb) = 0 →
      ∃ t, exec (.bitAliasWrite addr v) s = .next t ∧ ∀ b, b < 32 → (rawReg t.u r i).testBit b = if b = k then v.getLsbD 0 else (rawReg s.u r i).testBit b)

/-- R545: the first access of the driver to an address that names no register is flagged and recorded, and answers zero. R532: a user write, and a user read outside the window or with user_read = 0, answer zero and set TELE_ERR.user_denied; another user read answers the value of its address. R526: a read of TELE_CNT_n_LO answers the low 32 bits of the counter and captures the others. Of the model's choosing is what log entries 74 and 76 say. -/
def Obligations.AccessesAreAnswered : Prop :=
  ∀ (s : State) (addr : Nat) (v : Word), portOpen s.ctl s.u →
    (∀ write, regPlaceOf addr = .none false → getF s.u F.GLB_UNMAPPED_valid = 0 → ∃ t, exec (.unmappedAccess write addr v) s = .next t ∧ .regData 0 ∈ t.u.out ∧
      getF t.u F.GLB_ERR_unmapped = 1 ∧ getF t.u F.GLB_UNMAPPED_valid = 1 ∧ getF t.u F.GLB_UNMAPPED_write = (if write then 1 else 0) ∧
      getF t.u F.GLB_UNMAPPED_addr = addr / 4 % 2 ^ 24) ∧
    (pdOn s.u 5 = true →
      (∃ t, exec (.userAccess true addr v) s = .next t ∧ .regData 0 ∈ t.u.out ∧ getF t.u F.TELE_ERR_user_denied = 1) ∧
      (inUserWindow addr = false ∨ getF s.u F.TELE_CFG_user_read = 0 → ∃ t, exec (.userAccess false addr v) s = .next t ∧ .regData 0 ∈ t.u.out ∧ getF t.u F.TELE_ERR_user_denied = 1) ∧
      (inUserWindow addr = true → getF s.u F.TELE_CFG_user_read = 1 → ∃ t, exec (.userAccess false addr v) s = .next t ∧
        t.u.out = [.regData (BitVec.ofNat 32 (placeValue s.ctl { s.u with out := [] } true (regPlaceOf addr)))]) ∧
      (∀ n, n < 1472 → ∃ t, exec (.teleCntLoRead n false) s = .next t ∧ t.u.out = [.regData (BitVec.ofNat 32 (tabGet s.u.tele.counters n % 2 ^ 32))] ∧
        t.u.tele.capDriver = some (n, tabGet s.u.tele.counters n / 2 ^ 32)))

/-- R70 (Table 2-3): a write to PORT_n_CTRL closes an open port, whose READY falls; with requests outstanding it is closing, keeps them and will open again, and an idle port that is enabled in RUN opens again at once, its ordinals from zero. R94, R130: CTX_CMD copies the record that CTX_IDX selects, with its owc_map and flush_seq, into CTX_DATA. R370: HNG_CMD copies the entry that HNG_IDX selects into HNG_DATA. Of the model's choosing is what log entry 76 says. -/
def Obligations.CommandRegistersAct : Prop :=
  ∀ s : State,
    (∀ p, reaches s.ctl s.u .PORT_n_CTRL p → (port s.u p).state = 2 → (port s.u p).ingress = .idle → clusterStill s.u (p / 8) →
      ((port s.u p).reqs ≠ [] → ∃ t, exec (.reopen p) s = .next t ∧ (port t.u p).state = 3 ∧ (port t.u p).reopen = true ∧ (port t.u p).reqs = (port s.u p).reqs ∧ .ready p false ∈ t.u.out) ∧
      ((port s.u p).reqs = [] → inF s.u F.PORT_n_CFG_enable p = 1 → s.ctl.mode = .run → ∃ t, exec (.reopen p) s = .next t ∧ (port t.u p).state = 1 ∧ (port t.u p).next = 0 ∧ .ready p false ∈ t.u.out)) ∧
    (reaches s.ctl s.u .CTX_CMD 0 → let h := getF s.u F.CTX_IDX_handle
      let x := nput (nput (ctxRec s.u s.u.regs.epoch h).toNat 109 8 (owcMap s.u h)) 117 16 (tabGet s.u.flushSeq h)
      ∃ t, exec .ctxCmdRead s = .next t ∧ rawReg t.u .CTX_DATA_0 = nbits x 0 32 ∧ rawReg t.u .CTX_DATA_1 = nbits x 32 32 ∧ rawReg t.u .CTX_DATA_2 = nbits x 64 32 ∧
        rawReg t.u .CTX_DATA_3 = nbits x 96 32 ∧ rawReg t.u .CTX_DATA_4 = nbits x 128 32 ∧ t.u.ctxRead = some h) ∧
    (reaches s.ctl s.u .HNG_CMD 0 → let k := getF s.u F.HNG_IDX_index
      let e := if getF s.u F.HNG_IDX_table = 0 then (if k < nRegions s.u.v then hingeEntry s.u k else 0) else if k < nPhys s.u.v then pipEntry s.u k else 0
      ∃ t, exec .hngCmdRead s = .next t ∧ rawReg t.u .HNG_DATA_0 = e % 2 ^ 32 ∧ rawReg t.u .HNG_DATA_1 = e / 2 ^ 32 % 2 ^ 32)

/-- R428: MNT_RANK and MNT_BYE set the ranks and the bye interval of the arbiter that MNT_IDX selects; an interval of 0 is refused and flagged, and one not above the grants since the last bye makes the next grant the bye. Table 7-8: a DDR5_n_SCHED or DDR5_n_THERM value out of range keeps the previous one and is flagged; any other is taken. -/
def Obligations.ArbiterAndSchedulerSettings : Prop :=
  ∀ (s : State) (v : Word),
    (∀ m ch, arbSelected s.u = some (m, ch) → let a := tabGet s.u.arbs (chKey m ch)
      (reaches s.ctl s.u .MNT_RANK 0 → ∃ t, exec (.mntRankWrite v) s = .next t ∧ tabGet t.u.arbs (chKey m ch) = { a with rank := v.toNat % 2 ^ 18 }) ∧
      (reaches s.ctl s.u .MNT_BYE 0 →
        (v.toNat % 16 = 0 → ∃ t, exec (.mntByeWrite v) s = .next t ∧ t.u.arbs = s.u.arbs ∧ getF t.u F.MNT_ERR_cfg = 1) ∧
        (v.toNat % 16 ≠ 0 → ∃ t, exec (.mntByeWrite v) s = .next t ∧
          tabGet t.u.arbs (chKey m ch) = { a with bye := v.toNat % 16, byeNext := a.byeNext || decide (v.toNat % 16 ≤ a.sinceBye) }))) ∧
    (∀ ch therm, let r := if therm then Reg.DDR5_n_THERM else Reg.DDR5_n_SCHED
      let ok := if therm then thermOk v.toNat else schedOk v.toNat
      reaches s.ctl s.u r ch →
        (ok = true → ∃ t, exec (.ddr5SchedWrite ch therm v) s = .next t ∧ rawReg t.u r ch = nput (rawReg s.u r ch) 0 (if therm then 12 else 28) v.toNat) ∧
        (ok = false → ∃ t, exec (.ddr5SchedWrite ch therm v) s = .next t ∧ rawReg t.u r ch = rawReg s.u r ch ∧ getF t.u F.DDR5_n_ERR_sched_cfg ch = 1))

/-- R16, R559: a write to GLB_DEADBOLT sets bits and clears none. R556: GLB_LATCH_CTRL.hold takes its value at once. R561: in RUN and SERVICE a unit reset of PD_TELE, with no audit running, or of PD_RINGS raises the fence of its domain, which is then held in reset where its boundary is quiet, and waits for that where not; in any other mode, and while another unit reset runs, it is refused and flagged. -/
def Obligations.GlobalControlsAct : Prop :=
  ∀ (s : State) (v : Word),
    (reaches s.ctl s.u .GLB_DEADBOLT 0 → ∃ t, exec (.deadbolt v) s = .next t ∧ t.ctl = { s.ctl with bolts := s.ctl.bolts ||| v.setWidth 14 }) ∧
    (reaches s.ctl s.u .GLB_LATCH_CTRL 0 → ∃ t, exec (.latchHold v) s = .next t ∧ getF t.u F.GLB_LATCH_CTRL_hold = v.toNat % 2) ∧
    (reaches s.ctl s.u .GLB_UNIT_RESET 0 → s.ctl.mode = .run ∨ s.ctl.mode = .service → s.u.pwr.unitResets = [] →
      ∀ i d, (i, d) ∈ [(Instr.unitResetTele, 5), (.unitResetRings, 4)] → d = 4 ∨ s.u.audit = none → ∃ t, exec i s = .next t ∧ fenced t.u d = true ∧
        (unitQuiet s.u d = true → pdState t.u d = 0) ∧ (unitQuiet s.u d = false → t.u.pd = s.u.pd ∧ t.u.pwr.unitResets = [(d, 0)])) ∧
    (reaches s.ctl s.u .GLB_UNIT_RESET 0 → (s.ctl.mode ≠ .run ∧ s.ctl.mode ≠ .service) ∨ s.u.pwr.unitResets ≠ [] →
      ∀ i, i = .unitResetTele ∨ i = .unitResetRings → ∃ t, exec i s = .next t ∧ getF t.u F.GLB_ERR_unit_reset = 1 ∧ t.u.pd = s.u.pd)

/-! ### Descriptors: tests, retraining, patches -/

/-- R463, R422, R268, R217: the DRAM pattern test begins in RUN with the evacuation of its channel. A pattern or write-margin test of a DRAM channel that nothing evacuates, an ECS readout and the media and codec tests complete DONE where they passed and FAILED where not, with the results of their kind; the DRAM tests leave the staging DRAM of the channel in its first state, the media pattern test leaves blank lines below the keep area, and a codec that failed is flagged. A read-margin sweep, under the grant of its channel's arbiter, takes a passing point after another of a side up to 32, then the other side, and completes DONE with DDR5_n_MARGIN, which names the device of the last point. Of the model's choosing are what log entries 26, 54 and 111 say. -/
def Obligations.SelfTestsReport : Prop :=
  ∀ (s : State) (r : Nat) (d : Desc) (x : TestResult), let ch := testCh d
    let st := if x.pass then 0 else 8
    (handed s.ctl s.u r d → isTest 1 d = true → badTest s.u d = false → s.ctl.mode = .run → s.u.stg.evac = 0 → testHeld (putDesc s.u r { d with begun := true }) r { d with begun := true } = false → ddrReady s.u d = true →
      ∃ t, exec (.selftestDramPattern r d.idx x) s = .next t ∧ t.u.stg.evac = 1 ∧ t.u.stg.evacCh = ch ∧ t.u.stg.evacDesc = some (r, d.idx)) ∧
    (started s.u r d → s.u.stg.evacDesc ≠ some (r, d.idx) → (slice s.u ch).jobs = [] →
      (isTest 1 d = true → ∃ t, exec (.selftestDramPattern r d.idx x) s = .next t ∧ posted s.u t.u r d st x.r0 (x.r1 % 2 ^ 32) ∧ (slice t.u ch).dram = ⟨[]⟩) ∧
      (isTest 3 d = true → ∃ t, exec (.selftestDramWriteMargin r d.idx x) s = .next t ∧ posted s.u t.u r d st (x.r0 % 2 ^ 20) 0 ∧ (slice t.u ch).dram = ⟨[]⟩)) ∧
    (started s.u r d → isTest 2 d = true → badTest s.u d = false → (tabGet s.u.arbs ch).holder = 5 →
      (x.pass = true → ownAt d 1 < 31 → ∃ t e, exec (.selftestDramReadMargin r d.idx x) s = .next t ∧ findDesc t.u r d.idx = some e ∧ e.own = [ownAt d 0, ownAt d 1 + 1, ownAt d 2]) ∧
      (x.pass = false ∨ 31 ≤ ownAt d 1 → ownAt d 0 = 0 → ∃ t e, exec (.selftestDramReadMargin r d.idx x) s = .next t ∧ findDesc t.u r d.idx = some e ∧
        e.own = [1, 0, ownAt d 1 + if x.pass then 1 else 0]) ∧
      (x.pass = false ∨ 31 ≤ ownAt d 1 → ownAt d 0 ≠ 0 → ∃ t, exec (.selftestDramReadMargin r d.idx x) s = .next t ∧ posted s.u t.u r d 0 (rawReg t.u .DDR5_n_MARGIN ch) 0 ∧
        getF t.u F.DDR5_n_MARGIN_device ch = nbits x.r0 19 4)) ∧
    (started s.u r d →
      (isTest 4 d = true → ∃ t, exec (.selftestEcsReadout r d.idx x) s = .next t ∧ posted s.u t.u r d st (x.r0 % 2 ^ 32) (x.r1 % 16)) ∧
      (isTest 0x10 d = true → ∃ t, exec (.selftestMediaPattern r d.idx x) s = .next t ∧ posted s.u t.u r d st x.r0 0 ∧
        ∀ a, a < keepFrom → tabGet t.u.media ((ch * 8 + testDie d) * 2 ^ 31 + a) = {}) ∧
      (isTest 0x11 d = true → ∃ t, exec (.selftestMediaReadMargin r d.idx x) s = .next t ∧ posted s.u t.u r d st (x.r0 % 256) 0) ∧
      (isTest 0x20 d = true → ∃ t, exec (.selftestCodec r d.idx x) s = .next t ∧ posted s.u t.u r d st 0 0 ∧ (x.pass = false → getF t.u F.INT_ERR_codec = 1)))

/-- R267, R306, R248, R418, R272, R440: a retraining of a DDR5 channel outside an evacuation that neither its devices nor the criteria in force fail completes DONE with the channel in service, and in SERVICE one of a Cexus channel of which no die fails completes DONE; a DDR5 word gets its patch unless the table of its subchannel is full, which is flagged; a media line's patch ends as its read says; a row is repaired unless its devices have no resources or a header of it holds a dirty way; an audit waits for the next latch, and there is one at a time. Of the model's choosing are what log entries 26, 52 and 54 say. -/
def Obligations.RepairsAndAuditsRun : Prop :=
  ∀ (s : State) (r : Nat) (d : Desc) (x : TestResult), let ch := testCh d
    let line := patchLine s.u d
    let table := (subOf s.u ch (lineSub line)).patches
    (started s.u r d → isRetrainDdr d = true → badRetrain s.u d = false → (retrainMiss s.u ch x).pass = true → s.u.stg.evacDesc ≠ some (r, d.idx) → ∃ t, exec (.retrainDdr5 r d.idx x) s = .next t ∧
      posted s.u t.u r d 0 0 0 ∧ getF t.u F.DDR5_n_STATE_state ch = 2) ∧
    (started s.u r d → isRetrainCex d = true → s.ctl.mode = .service → retrainFails { s.u with out := [] } ch x = [] → ∃ t, exec (.retrainCexus r d.idx x) s = .next t ∧ posted s.u t.u r d 0 0 0) ∧
    (handed s.ctl s.u r d → s.ctl.mode = .service → isPatchDdr d = true → badPatch s.u d = false → ddrReady s.u d = true →
      ∀ err, ((∃ p ∈ table, p.line = line) ∨ table.length < 8 → ∃ t, exec (.patchAdd r d.idx err) s = .next t ∧ posted s.u t.u r d 0 0 0 ∧ ∃ p ∈ (subOf t.u ch (lineSub line)).patches, p.line = line) ∧
        ((∀ p ∈ table, p.line ≠ line) → 8 ≤ table.length → ∃ t, exec (.patchAdd r d.idx err) s = .next t ∧ posted s.u t.u r d 4 0 0 ∧ getF t.u F.DDR5_n_ERR_patch_full ch = 1)) ∧
    (started s.u r d → isPatchMedia d = true → ∀ k l, d.prog = k :: l → ∃ t, exec (.patchAddMedia r d.idx) s = .next t ∧ posted s.u t.u r d (if k = 0 then 0 else if k = 8 then 4 else 8) 0 0) ∧
    (handed s.ctl s.u r d → s.ctl.mode = .service → isPpr d = true → badPatch s.u d = false →
      (ddrReady s.u d = false ∨ x.code = 1 ∨ (∃ n ∈ rowSets s.u d, ∃ w, w < 15 ∧ wayDirty (effHeader s.u ch n) w = true) → ∃ t, exec (.pprRepair r d.idx x) s = .next t ∧ posted s.u t.u r d 4 0 0) ∧
      (ddrReady s.u d = true → x.code ≠ 1 → (∀ n ∈ rowSets s.u d, ∀ w, w < 15 → wayDirty (effHeader s.u ch n) w = false) → x.pass = true → ∃ t, exec (.pprRepair r d.idx x) s = .next t ∧ posted s.u t.u r d 0 0 0)) ∧
    (handed s.ctl s.u r d → s.ctl.mode = .service → dOp d = 0x31 →
      (s.u.audit = none → ∃ t, exec (.ledgerAudit r d.idx) s = .next t ∧ t.u.audit = some { ring := r, idx := d.idx }) ∧
      (s.u.audit.isSome = true → ∃ t, exec (.ledgerAudit r d.idx) s = .next t ∧ t.u.audit = s.u.audit ∧ posted s.u t.u r d 3 0 0))

/-! ### Descriptors: contexts, the cache, staged settings -/

/-- R101 to R103: in RUN or SERVICE a CTX_OPEN of a closed context with a legal image stages the record, open, and waits for the latch, and one of a context that is not closed, or with an image that is not legal, is REJECTED and stages nothing; a CTX_MODIFY of an open context stages the fields that its mask names; a CTX_CLOSE of an open context stages the closing, and of any other is REJECTED; a KEY_BIND over a range of open contexts stages the slot in each. No record word of the context is out of use. A closing context in force with no outstanding write becomes closed, with flush_seq zero. Of the model's choosing is what log entry 54 says. -/
def Obligations.ContextRecordsChangeAtTheLatch : Prop :=
  ∀ (s : State) (r : Nat) (d : Desc), let h := dHandle d
    let x := dImage d
    let m := dField d 12 6
    let was := (ctxView s.u h).toNat
    (handed s.ctl s.u r d → s.ctl.mode = .run ∨ s.ctl.mode = .service →
      (dOp d = 2 → badHandle s.u d = false → s.u.badCtx.contains (h / 2) = false →
        (ctxState s.u h = 0 → nbits x 2 2 ≠ 3 → windowLegal s.u.v x 17 = true → windowLegal s.u.v x 63 = true → ∃ t, exec (.ctxOpen r d.idx) s = .next t ∧
          t.u.ctxStaged = s.u.ctxStaged ++ [(h, BitVec.ofNat 160 (nput x 0 2 1))] ∧ waitsForLatch t.u r d) ∧
        (ctxState s.u h ≠ 0 ∨ nbits x 2 2 = 3 ∨ windowLegal s.u.v x 17 = false ∨ windowLegal s.u.v x 63 = false → ∃ t, exec (.ctxOpen r d.idx) s = .next t ∧
          t.u.ctxStaged = s.u.ctxStaged ∧ posted s.u t.u r d 4 0 0)) ∧
      (dOp d = 4 → badHandle s.u d = false → ctxState s.u h = 1 → m ≠ 0 → (nbits m 0 1 = 1 → nbits x 2 2 ≠ 3) → (nbits m 3 1 = 1 → windowLegal s.u.v x 17 = true) →
        (nbits m 4 1 = 1 → windowLegal s.u.v x 63 = true) → ∃ t, exec (.ctxModify r d.idx) s = .next t ∧ t.u.ctxStaged = s.u.ctxStaged ++ [(h, BitVec.ofNat 160 (modified was x m))] ∧ waitsForLatch t.u r d) ∧
      (dOp d = 3 → badHandle s.u d = false → (ctxState s.u h = 1 → ∃ t, exec (.ctxClose r d.idx) s = .next t ∧ t.u.ctxStaged = s.u.ctxStaged ++ [(h, BitVec.ofNat 160 (nput was 0 2 2))]) ∧
        (ctxState s.u h ≠ 1 → ∃ t, exec (.ctxClose r d.idx) s = .next t ∧ t.u.ctxStaged = s.u.ctxStaged ∧ posted s.u t.u r d 4 0 0)) ∧
      (dOp d = 0x12 → badBind s.u d = false → bindCount d ≠ 0 → (∀ k, k < bindCount d → ctxState s.u (h + k) = 1) → ∃ t, exec (.keyBind r d.idx) s = .next t ∧ waitsForLatch t.u r d ∧
        t.u.ctxStaged = s.u.ctxStaged ++ (List.range (bindCount d)).map fun k => (h + k, BitVec.ofNat 160 (nput (ctxView s.u (h + k)).toNat 7 10 (dField d 14 10))))) ∧
    ∀ k, pdOn s.u 2 = true → k < nCtx s.u.v → cBits (ctxRec s.u s.u.regs.epoch k) 0 2 = 2 → owcMap s.u k = 0 → ∃ t, exec (.ctxCloseFinish k) s = .next t ∧
      ctxRec t.u t.u.regs.epoch k = 0 ∧ tabGet t.u.flushSeq k = 0

/-- R458 to R460, R414, R20, R181: in RUN a NOP completes DONE; SCRUB_PASS gives the last lap of its channel; a FLUSH of a context that is not open is REJECTED, of one in staged mode completes DONE with its flush_seq after this flush, and of one in media mode waits for its epoch, as FLUSH_ALL does; one begun that has been told that its epoch is clean completes DONE. A PREFETCH of a context that is not open, outside its windows or past the end of its region is REJECTED; while lines remain it sends the next one as a LINE_REQ where its ticket can be taken and no fence stands on the way; once every line has been served it completes with the count of hits; outside RUN it completes NOT_IN_MODE. A NOP with a reserved bit set completes BAD_DESCRIPTOR. Of the model's choosing is what log entries 54, 55, 87 and 124 say. -/
def Obligations.DescriptorsOfTheCacheComplete : Prop :=
  ∀ (s : State) (r : Nat) (d : Desc),
    (handed s.ctl s.u r d → s.ctl.mode = .run →
      (dOp d = 1 → ∃ t, exec (.nop r d.idx) s = .next t ∧ posted s.u t.u r d 0 0 0) ∧
      (dOp d = 0x20 → badChannel s.u d = false → ∃ t, exec (.scrubPass r d.idx) s = .next t ∧
        posted s.u t.u r d 0 (if dField d 8 1 = 1 then getF s.u F.INT_CEX_n_LAP_seconds (dField d 9 7) else getF s.u F.INT_DDR_n_LAP_seconds (dField d 9 7)) 0) ∧
      (dOp d = 5 → badHandle s.u d = false → let x := ctxRec s.u s.u.regs.epoch (dHandle d)
        (cBits x 0 2 ≠ 1 → ∃ t, exec (.flushDescriptor r d.idx) s = .next t ∧ posted s.u t.u r d 4 0 0) ∧
        (cBits x 0 2 = 1 → cBits x 4 1 = 0 → ∃ t, exec (.flushDescriptor r d.idx) s = .next t ∧ posted s.u t.u r d 0 ((tabGet s.u.flushSeq (dHandle d) + 1) % 65536) 0) ∧
        (cBits x 0 2 = 1 → cBits x 4 1 ≠ 0 → ∃ t, exec (.flushDescriptor r d.idx) s = .next t ∧ ∃ w ∈ t.u.stg.waiters, w.desc = some (r, d.idx) ∧ w.handle = dHandle d ∧ w.all = false)) ∧
      (dOp d = 8 → ∃ t, exec (.flushAllDescriptor r d.idx) s = .next t ∧ ∃ w ∈ t.u.stg.waiters, w.desc = some (r, d.idx) ∧ w.all = true) ∧
      (dOp d = 7 → badHandle s.u d = false → badCount d = false → let x := ctxRec s.u s.u.regs.epoch (dHandle d)
        cBits x 0 2 ≠ 1 ∨ windowCheck x (dRegion d) 1 = false ∨ crossesRegion d = true → ∃ t, exec (.prefetchDescriptor r d.idx) s = .next t ∧ posted s.u t.u r d 4 0 0)) ∧
    (started s.u r d →
      (dOp d = 5 → d.prog ≠ [] → ∃ t, exec (.flushDescriptor r d.idx) s = .next t ∧ posted s.u t.u r d 0 ((tabGet s.u.flushSeq (dHandle d) + 1) % 65536) 0) ∧
      (dOp d = 8 → d.prog ≠ [] → ∃ t, exec (.flushAllDescriptor r d.idx) s = .next t ∧ posted s.u t.u r d 0 0 0) ∧
      (dOp d = 7 → d.prog.length = dCount d → ∃ t, exec (.prefetchDescriptor r d.idx) s = .next t ∧ posted s.u t.u r d 0 (d.prog.filter fun x => nbits x 8 1 == 1).length 0) ∧
      (dOp d = 7 → d.prog.length < dCount d → sentOf d < dCount d → canTake s.u (ringPool (lineSlice s.u s.u.regs.epoch (dLine d + sentOf d))) 1 = true →
        routeRefused s.u (epCore 5) (epSlice (lineSlice s.u s.u.regs.epoch (dLine d + sentOf d))) = false →
        ∃ t, exec (.prefetchDescriptor r d.idx) s = .next t ∧ ∃ k ∈ t.u.net, k.typ = .lineReq ∧ k.lla = dLine d + sentOf d ∧ k.ord = d.idx)) ∧
    (findDesc s.u r d.idx = some d → d.begun = false → mayBegin s.ctl s.u r d.idx = true → reservedSet d = true → dOp d = 1 → ∃ t, exec (.nop r d.idx) s = .next t ∧ posted s.u t.u r d 6 0 0) ∧
    (handed s.ctl s.u r d → s.ctl.mode ≠ .run → dOp d = 7 → badHandle s.u d = false → badCount d = false → ∃ t, exec (.prefetchDescriptor r d.idx) s = .next t ∧ posted s.u t.u r d 7 0 0)

/-- R146, R451, R452, R461, R462: a CHANGESET or TURN_TABLE_LOAD of RUN or SERVICE begins by reading the first 64 bytes that hold its buffer, no other read being out; a read that returns good before the last adds to the payload, and one in error is flagged and the descriptor completes FAILED. A whole CHANGESET with an entry outside its table completes BAD_DESCRIPTOR; one that fails the admission check is REJECTED with the word of the check and stages nothing; any other stages its entries and waits for the latch. A whole turn-table image of legal entries is REJECTED with that word, or is staged and waits for the latch. Of the model's choosing is what log entries 54 and 58 say. -/
def Obligations.PayloadsAreReadCheckedAndStaged : Prop :=
  ∀ (s : State) (r : Nat) (d : Desc),
    (handed s.ctl s.u r d → s.ctl.mode = .run ∨ s.ctl.mode = .service → s.u.rings.reads = [] → d.payload = [] → d.own = [] → d.committed = false →
      (dOp d = 0x10 → badChangeset s.u d = false → ∃ t, exec (.changeset r d.idx) s = .next t ∧ .ringRead (dBuffer d / 64 * 64) ∈ t.u.out ∧ (r, d.idx, 1) ∈ t.u.rings.reads) ∧
      (dOp d = 0x11 → badTableLoad s.u d = false → ∃ t, exec (.turnTableLoad r d.idx) s = .next t ∧ .ringRead (dBuffer d / 64 * 64) ∈ t.u.out ∧ (r, d.idx, 1) ∈ t.u.rings.reads)) ∧
    (started s.u r d → d.committed = false → payloadReads d ≤ d.payload.length →
      (dOp d = 0x10 → let es := changeEntries d
        ((∃ e ∈ es, entryOk s.u.v e = false) → ∃ t, exec (.changeset r d.idx) s = .next t ∧ posted s.u t.u r d 6 0 0) ∧
        ((∀ e ∈ es, entryOk s.u.v e = true) → (∀ w, admissionFails s.u (s.ctl.mode == .run) (planWith s.u (s.u.regs.descStaged ++ es) s.u.adm.tables) = some w →
            ∃ t, exec (.changeset r d.idx) s = .next t ∧ t.u.regs = { s.u.regs with cur := t.u.regs.cur } ∧ posted s.u t.u r d 4 w 0) ∧
          (admissionFails s.u (s.ctl.mode == .run) (planWith s.u (s.u.regs.descStaged ++ es) s.u.adm.tables) = none →
            ∃ t, exec (.changeset r d.idx) s = .next t ∧ t.u.regs.descStaged = s.u.regs.descStaged ++ es ∧ waitsForLatch t.u r d))) ∧
      (dOp d = 0x11 → let image := (List.range (turnsOf (tableMedia d))).map fun k => payloadByte d k
        let tables := s.u.adm.tables ++ [(tableMedia d, maskChannels d, image)]
        (∀ i, i < turnsOf (tableMedia d) → tableEntryOk (tableMedia d) i (image.getD i 0) = true) → (∀ w, admissionFails s.u (s.ctl.mode == .run) (planWith s.u s.u.regs.descStaged tables) = some w →
            ∃ t, exec (.turnTableLoad r d.idx) s = .next t ∧ t.u.adm = s.u.adm ∧ posted s.u t.u r d 4 w 0) ∧
          (admissionFails s.u (s.ctl.mode == .run) (planWith s.u s.u.regs.descStaged tables) = none →
            ∃ t, exec (.turnTableLoad r d.idx) s = .next t ∧ t.u.adm.tables = tables ∧ waitsForLatch t.u r d))) ∧
    ∀ data, r < 64 → started s.u r d → dOp d = 0x10 ∨ dOp d = 0x11 → d.committed = false → pdOn s.u 4 = true → (s.u.rings.reads.find? fun k => k.1 == r && k.2.1 == d.idx && (k.2.2 == 1 || k.2.2 == 3)) = some (r, d.idx, 1) →
      (∃ t, exec (.payloadReadReturn r d.idx true data) s = .next t ∧ getF t.u F.RNG_r_ERR_payload r = 1 ∧ posted s.u t.u r d 8 0 0) ∧
      (d.payload.length + 1 < payloadReads d → payloadReads d ≤ sentOf d → ∃ t, exec (.payloadReadReturn r d.idx false data) s = .next t ∧ ∃ e, findDesc t.u r d.idx = some e ∧ e.payload = d.payload ++ [data])

/-! ### Descriptors: modes, regions, lines -/

/-- R464, R477, R486, R489: with no change of mode under way, a MODE_REQUEST for RUN in RUN and one for DRAIN in DRAIN complete DONE with the mode. One for RUN in SERVICE is REJECTED after a failure; else it enters RUN where the clusters that it needs are on, and asks for their power where not. One for HUSH is REJECTED in SERVICE, and in RUN where a condition of R486 fails; where they hold HUSH is being entered. One for DRAIN enters it from RUN, and from a SERVICE with no failure. One for SERVICE in RUN fences the clusters, closes every port and enters SERVICE once all are closed; in a DRAIN that may be left and that no failure began it enters SERVICE. Each mode entered so is recorded with cause 2. Of the model's choosing is what log entries 54 and 78 say. -/
def Obligations.ModeRequestsChangeTheMode : Prop :=
  ∀ (s : State) (r : Nat) (d : Desc), handed s.ctl s.u r d → dOp d = 0x33 → s.u.pwr.trans = none →
    let u' := putDesc { s.u with out := [] } r { d with begun := true, committed := true }
    (requestTarget d = 4 →
      (s.ctl.mode = .run → ∃ t, exec (.modeRequestRun r d.idx) s = .next t ∧ t.ctl = s.ctl ∧ posted s.u t.u r d 0 4 0) ∧
      (s.ctl.mode = .service → s.ctl.failed = true → ∃ t, exec (.modeRequestRun r d.idx) s = .next t ∧ t.ctl = s.ctl ∧ posted s.u t.u r d 4 0 0) ∧
      (s.ctl.mode = .service → s.ctl.failed = false → (∀ k ∈ wantedClusters s.u, pdOn s.u (pdCluster k) = true) → ∃ t, exec (.modeRequestRun r d.idx) s = .next t ∧
        t.ctl.mode = .run ∧ t.ctl.prev = .service ∧ t.ctl.cause = 2) ∧
      (s.ctl.mode = .service → s.ctl.failed = false → (∃ k ∈ wantedClusters s.u, pdOn s.u (pdCluster k) = false) → ∃ t, exec (.modeRequestRun r d.idx) s = .next t ∧
        t.ctl = s.ctl ∧ t.u.pwr.rising = ((wantedClusters s.u).map pdCluster).filter fun k => !pdOn s.u k)) ∧
    (requestTarget d = 5 →
      (s.ctl.mode = .run → hushOk u' (some (r, d.idx)) = true → ∃ t, exec (.modeRequestHush r d.idx) s = .next t ∧ t.ctl = s.ctl ∧ t.u.pwr.hushing = true) ∧
      (s.ctl.mode = .run → hushOk u' (some (r, d.idx)) = false → ∃ t, exec (.modeRequestHush r d.idx) s = .next t ∧ t.ctl = s.ctl ∧ posted s.u t.u r d 4 0 0) ∧
      (s.ctl.mode = .service → ∃ t, exec (.modeRequestHush r d.idx) s = .next t ∧ t.ctl = s.ctl ∧ posted s.u t.u r d 4 0 0)) ∧
    (requestTarget d = 6 →
      (s.ctl.mode = .run ∨ (s.ctl.mode = .service ∧ s.ctl.failed = false) → ∃ t, exec (.modeRequestDrain r d.idx) s = .next t ∧ t.ctl.mode = .drain ∧ t.ctl.prev = s.ctl.mode ∧ t.ctl.cause = 2) ∧
      (s.ctl.mode = .drain → ∃ t, exec (.modeRequestDrain r d.idx) s = .next t ∧ t.ctl = s.ctl ∧ posted s.u t.u r d 0 6 0)) ∧
    (requestTarget d = 7 →
      (s.ctl.mode = .run → let y := closeAll s.ctl (clusterFences (putTrans u' (some { target := .service, desc := some (r, d.idx), cause := 2 })) true)
        (allClosed y = true → ∃ t, exec (.modeRequestService r d.idx) s = .next t ∧ t.ctl.mode = .service ∧ t.ctl.prev = .run ∧ t.ctl.cause = 2) ∧
        (allClosed y = false → exec (.modeRequestService r d.idx) s = .next { s with u := y })) ∧
      (s.ctl.mode = .drain → drainLeaves s.ctl u' = true → bareDrain s.ctl = false → ∃ t, exec (.modeRequestService r d.idx) s = .next t ∧ t.ctl.mode = .service ∧ t.ctl.prev = .drain ∧ t.ctl.cause = 2))

/-- R349, R357, R359, R365, R369, R390, R465: a TRIM whose last region has given up its lines leaves that region fresh, and a TRIM completes with the count trimmed once the journal holds it (ABORTED where it was aborted, FAILED where regions were passed over); a REGION_MOVE that has ended completes DONE once the journal holds it, a REBUILD that its group no longer runs DONE with the group's occupied count, a CHECKPOINT that has been told, a DRIFT_CAL none of whose groups waits, a SANITIZE once the journal holds it (FAILED where regions were passed over). In RUN or SERVICE a REGION_MOVE of a region that moves, is lost or has a bad table word is REJECTED; a REBUILD of a group with no failed die or in state 3 is REJECTED, of one that is rebuilt BUSY, and else its group's state is 1 and it is rebuilt; a CHECKPOINT waits for the one that runs; a DRIFT_CAL is REJECTED where a media group it names is off, and with no other under way and no advance asked for begins to calibrate every group it names. Of the model's choosing are what log entries 43, 54, 56 and 57 say. -/
def Obligations.RegionDescriptorsRun : Prop :=
  ∀ (s : State) (r : Nat) (d : Desc),
    (started s.u r d →
      (dOp d = 6 → ∀ k n sk l y, d.own = [n, k, sk, 0, 0, l, 0] → n = trimCount d → emptyLines s.ctl { s.u with out := [] } (inBatch [(l, 0)]) = (true, y) → y.hng.mounted = true → moveOf y l = none →
        ∃ t, exec (.trim r d.idx) s = .next t ∧ hFresh (hingeEntry t.u l) = true) ∧
      (dOp d = 6 → ownAt d 4 ≠ 0 → durableBelow s.u (ownAt d 4 - 1) = true → ∃ t, exec (.trim r d.idx) s = .next t ∧
        posted s.u t.u r d (if ownAt d 3 = 1 then 2 else if ownAt d 2 = 0 then 0 else 8) (ownAt d 1) 0) ∧
      (dOp d = 0x24 → ∀ n l, d.prog = 0 :: n :: l → durableBelow s.u (n + 1) = true → ∃ t, exec (.regionMove r d.idx) s = .next t ∧ posted s.u t.u r d 0 d.r0 0) ∧
      (dOp d = 0x25 → s.u.hng.rebuilding.contains (rebuildGroup d) = false → s.u.hng.rebuildShort.contains (rebuildGroup d) = false → groupState s.u (rebuildGroup d) ≠ 3 →
        ∃ t, exec (.rebuild r d.idx) s = .next t ∧ posted s.u t.u r d 0 (tabGet s.u.hng.occN (rebuildGroup d)) 0) ∧
      (dOp d = 0x30 → ∀ l, d.prog = 0 :: l → ∃ t, exec (.checkpoint r d.idx) s = .next t ∧ posted s.u t.u r d 0 d.r0 0) ∧
      (dOp d = 0x23 → (∀ x ∈ s.u.drf.cals, x.1 ∉ calGroups s.u d) → ∃ t, exec (.driftCal r d.idx) s = .next t ∧ posted s.u t.u r d 0 (ownAt d 0) 0) ∧
      (dOp d = 0x34 → ownAt d 0 = 1 → durableBelow s.u (ownAt d 1) = true → ∃ t, exec (.sanitize r d.idx) s = .next t ∧
        posted s.u t.u r d (if ownAt d 2 = 0 then 0 else 8) (nRegions s.u.v - ownAt d 2) 0)) ∧
    (handed s.ctl s.u r d → s.ctl.mode = .run ∨ s.ctl.mode = .service →
      (dOp d = 0x24 → badMove s.u d = false → hMoving (hingeEntry s.u (moveRegion d)) = true ∨ hLost (hingeEntry s.u (moveRegion d)) = true ∨ badRegion s.u (moveRegion d) = true →
        ∃ t, exec (.regionMove r d.idx) s = .next t ∧ posted s.u t.u r d 4 0 0) ∧
      (dOp d = 0x25 → rebuildGroup d < nStripes s.u.v →
        (failedDies s.u (rebuildGroup d) = [] ∨ groupState s.u (rebuildGroup d) = 3 → ∃ t, exec (.rebuild r d.idx) s = .next t ∧ posted s.u t.u r d 4 0 0) ∧
        (failedDies s.u (rebuildGroup d) ≠ [] → groupState s.u (rebuildGroup d) ≠ 3 → s.u.hng.rebuilding.contains (rebuildGroup d) = true → ∃ t, exec (.rebuild r d.idx) s = .next t ∧ posted s.u t.u r d 3 0 0) ∧
        (failedDies s.u (rebuildGroup d) ≠ [] → groupState s.u (rebuildGroup d) ≠ 3 → s.u.hng.rebuilding.contains (rebuildGroup d) = false →
          ∃ t, exec (.rebuild r d.idx) s = .next t ∧ groupState t.u (rebuildGroup d) = 1 ∧ rebuildGroup d ∈ t.u.hng.rebuilding)) ∧
      (dOp d = 0x30 → s.u.hng.ckptOn = true → ∃ t, exec (.checkpoint r d.idx) s = .next t ∧ (r, d.idx) ∈ t.u.hng.ckptDescs) ∧
      (dOp d = 0x23 → badCal s.u d = false →
        ((∃ g ∈ calGroups s.u d, pdOn s.u (pdMedia (g / 8)) = false) → ∃ t, exec (.driftCal r d.idx) s = .next t ∧ posted s.u t.u r d 4 0 0) ∧
        ((∀ g ∈ calGroups s.u d, pdOn s.u (pdMedia (g / 8)) = true) → (∀ x ∈ underWay (putDesc s.u r { d with begun := true }), (x.1 = r ∧ x.2.idx = d.idx) ∨ dOp x.2 ≠ 0x23) → dField d 10 4 = 0 →
          ∃ t, exec (.driftCal r d.idx) s = .next t ∧ ∀ g ∈ calGroups s.u d, ∃ x ∈ t.u.drf.cals, x.1 = g)))

/-- R405, R406, R434, R467, R512, R181: in RUN POISON_SET and POISON_CLEAR are REJECTED where their lines leave their region or it is lost; a POISON_SET sends its next line poisoned to its slice where its ticket can be taken and no fence stands on the way, and completes with the count of the lines placed, which INT_POISON.set counts; a POISON_CLEAR that has cleared its lines completes with its count. An ABORT in RUN completes REJECTED where its target was never fetched or is itself an ABORT, and ALREADY_DONE where it has completed or is committed; a target that has not begun leaves its ring, as the ABORT does. An IMAGE_WRITE in SERVICE completes BUSY while another runs; else BOOT_WRITE shows it busy and its buffer is read. Of the model's choosing are what log entries 54 and 124 say. -/
def Obligations.LinesArePoisonedAndDescriptorsAborted : Prop :=
  ∀ (s : State) (r : Nat) (d : Desc),
    (handed s.ctl s.u r d → s.ctl.mode = .run → badPoison s.u d = false → crossesRegion d = true ∨ hLost (hingeEntry s.u (dRegion d)) = true →
      (dOp d = 0x27 → ∃ t, exec (.poisonSet r d.idx) s = .next t ∧ posted s.u t.u r d 4 0 0) ∧ (dOp d = 0x28 → ∃ t, exec (.poisonClear r d.idx) s = .next t ∧ posted s.u t.u r d 4 0 0)) ∧
    (started s.u r d →
      (dOp d = 0x27 → ownAt d 1 = 0 →
        (d.prog.length = dCount d → dField d 26 1 = 0 → ∃ t, exec (.poisonSet r d.idx) s = .next t ∧ let n := (placedLines d).length
          posted s.u t.u r d (if n = dCount d then 0 else 8) n 0 ∧ getF t.u F.INT_POISON_set = min (getF s.u F.INT_POISON_set + n) (2 ^ F.INT_POISON_set.w - 1)) ∧
        (d.prog.length < dCount d → sentOf d < dCount d → canTake s.u (ringPool (lineSlice s.u s.u.regs.epoch (dLine d + sentOf d))) 2 = true →
          routeRefused s.u (epCore 5) (epSlice (lineSlice s.u s.u.regs.epoch (dLine d + sentOf d))) = false →
          ∃ t, exec (.poisonSet r d.idx) s = .next t ∧ ∃ k ∈ t.u.net, k.typ = .lineWr ∧ k.lla = dLine d + sentOf d ∧ k.ord = d.idx)) ∧
      (dOp d = 0x28 → 3 ≤ ownAt d 2 → durableBelow s.u (ownAt d 3) = true → ∃ t, exec (.poisonClear r d.idx) s = .next t ∧ posted s.u t.u r d 0 (ownAt d 1) 0)) ∧
    (handed s.ctl s.u r d → dOp d = 0x3F → s.ctl.mode = .run → let q := abortTarget d
      let u' := putDesc s.u r { d with begun := true, committed := true }
      (findDesc u' q.1 q.2 = none → ∃ t, exec (.abort r d.idx) s = .next t ∧ posted s.u t.u r d (if neverFetched u' q.1 q.2 then 4 else 1) 0 0) ∧
      ∀ o, findDesc u' q.1 q.2 = some o →
        (dOp o = 0x3F → ∃ t, exec (.abort r d.idx) s = .next t ∧ posted s.u t.u r d 4 0 0) ∧
        (dOp o ≠ 0x3F → o.begun = true → o.committed = true → ∃ t, exec (.abort r d.idx) s = .next t ∧ posted s.u t.u r d 1 0 0) ∧
        (dOp o ≠ 0x3F → o.begun = false → q ≠ (r, d.idx) → ∃ t, exec (.abort r d.idx) s = .next t ∧ findDesc t.u q.1 q.2 = none ∧ findDesc t.u r d.idx = none)) ∧
    (handed s.ctl s.u r d → dOp d = 0x32 → s.ctl.mode = .service → badImageWrite s.u d = false →
      (s.u.boot.writeDesc.isSome = true → ∃ t, exec (.imageWrite r d.idx) s = .next t ∧ posted s.u t.u r d 3 0 0) ∧
      (s.u.boot.writeDesc = none → s.u.rings.reads = [] → d.own = [] → d.payload = [] → ∃ t, exec (.imageWrite r d.idx) s = .next t ∧ getF t.u F.BOOT_WRITE_busy = 1 ∧
        .ringRead (dBuffer d / 64 * 64) ∈ t.u.out))

/-! ### Telemetry and the test access port -/

/-- R528, R530, R533 to R538: an event taken is packed into a line that holds its header, its time and its words, counted by code where the FIFO is nearly full, and lost where it is full; summaries leave their counts at zero; a pop presents the oldest line, or the last one again with underrun; a sample adds one to the bin of each level. Of the model's choosing is what log entries 73 and 77 say. -/
def Obligations.EventsArePackedAndLevelsSampled : Prop :=
  ∀ s : State, pdOn s.u 5 = true → let t0 := s.u.tele
    (∀ e rest, t0.inq = e :: rest →
      (64 ≤ t0.fifo.length → ∃ t, exec .eventTaken s = .next t ∧ t.u.tele.inq = rest ∧ t.u.tele.lost = t0.lost + 1 ∧ getF t.u F.TELE_ERR_lost = 1) ∧
      (49 ≤ t0.fifo.length → t0.fifo.length < 64 → t0.heldLines = [] → tabGet t0.sums e.code < 0xFFFFFF → ∃ t, exec .eventTaken s = .next t ∧ t.u.tele.inq = rest ∧
        tabGet t.u.tele.sums e.code = tabGet t0.sums e.code + 1) ∧
      (t0.fifo.length < 49 → t0.heldLines = [] → t0.packing = [] → rest = [] → tallyWord s.u = 0 → e.words.length ≤ 5 → e.words ≠ [] → ∃ t, exec .eventTaken s = .next t ∧ t.u.tele.inq = [] ∧
        t.u.tele.fifo = t0.fifo ++ [lineOfWords (({ w := BitVec.ofNat 32 (e.code + (e.words.length + 1) * 2 ^ 8 + e.inst % 65536 * 2 ^ 16) } : PackWord) :: { w := BitVec.ofNat 32 e.time } ::
          (e.words.dropLast.map fun w => ({ w := w } : PackWord)) ++ [{ w := e.words.getLastD 0, ends := true, evts := 1 }])])) ∧
    (t0.sums.cells ≠ [] → ∃ t, exec .summaryBuild s = .next t ∧ t.u.tele.sums = ⟨[]⟩ ∧ t.u.tele.sumAt = none) ∧
    (∀ x rest, t0.fifo = x :: rest → t0.heldLines = [] → 48 < rest.length ∨ t0.sums.cells = [] → ∃ t, exec .evtPop s = .next t ∧ t.u.out = [.evtLine x.line x.tag false] ∧ t.u.tele.fifo = rest ∧ t.u.tele.lastLine = some x) ∧
    (∀ x, t0.fifo = [] → t0.lastLine = some x → ∃ t, exec .evtPop s = .next t ∧ t.u.out = [.evtLine x.line x.tag true] ∧ getF t.u F.TELE_ERR_underrun = 1) ∧
    (inF s.u F.TELE_LVL_CFG_period ≠ 0 → ∃ t, exec .levelSample s = .next t ∧
      (∀ g, g < nGroups s.u.v → pdOn s.u (pdMedia g) = true → let k := 16 * g + min 15 ((grp s.u g).reads.length / 2 ^ inF s.u F.TELE_LVL_CFG_qshift)
        tabGet t.u.tele.mq k = min (tabGet t0.mq k + 1) (2 ^ 32 - 1)) ∧
      (∀ c, c < nDdr s.u.v → inService s.u c = true → let x := slice s.u c
        let k := 16 * c + if x.share = 0 then 15 else min 15 (16 * (x.dirty + booked s.u c) / x.share)
        tabGet t.u.tele.drt k = min (tabGet t0.drt k + 1) (2 ^ 32 - 1)))

/-- R584 to R586, R421, R560: SAMPLE_PRELOAD captures the pins in the chain and presents them, and so does EXTEST with RST_N high, while with RST_N low it drives what the chain holds; IDCODE presents the identity, bit 0 set, the manufacturer's code, 0x7A50 and the variant, and the stepping; a destructive instruction that the life-cycle state or GLB_TEST does not permit, and a code without a row, select BYPASS; one that is permitted destroys the SRAM values; a TAP reset selects IDCODE and changes nothing else. Of the model's choosing is what log entries 70, 71 and 72 say. -/
def Obligations.TheTapSelectsInstructions : Prop :=
  ∀ (s : State) (pins code : Nat),
    exec (.samplePreload pins) s = .next { s with u := { s.u with tap := { s.u.tap with instr := 1, chain := pins }, out := [.tap pins] } } ∧
    (s.ctl.mode = .reset → exec (.extest pins) s = .next { s with u := { s.u with tap := { s.u.tap with instr := 0 }, out := [.tap s.u.tap.chain] } }) ∧
    (s.ctl.mode ≠ .reset → exec (.extest pins) s = .next { s with u := { s.u with tap := { s.u.tap with instr := 0, chain := pins }, out := [.tap pins] } }) ∧
    (exec .idcode s = .next { s with u := { s.u with tap := { s.u.tap with instr := 2 }, out := [.tap (idcodeWord s.u)] } } ∧
      nbits (idcodeWord s.u) 0 1 = 1 ∧ nbits (idcodeWord s.u) 1 11 = Config.manufacturer.toNat ∧ nbits (idcodeWord s.u) 12 16 = 0x7A50 + variantCode s.u.v ∧
      nbits (idcodeWord s.u) 28 4 = getF s.u F.BLOCK_ID_stepping) ∧
    exec .tapReset s = .next { s with u := { s.u with tap := { s.u.tap with instr := 2 }, out := [] } } ∧
    (code < 256 → tapKnown s.ctl s.u code = false → exec (.bypass code) s = .next { s with u := { s.u with tap := { s.u.tap with instr := 0xFF }, out := [.tap 0] } }) ∧
    ∀ i c, (i, c) ∈ [(Instr.productionScan, 0x10), (.sramSelfTest, 0x11), (.codecVectors, 0x12)] →
      (testOpen s.ctl s.u = false → exec i s = .next { s with u := { s.u with tap := { s.u.tap with instr := 0xFF }, out := [.tap 0] } }) ∧
      (testOpen s.ctl s.u = true → ∃ t, exec i s = .next t ∧ t.u.tap.instr = c ∧ t.u.out = [.tap 0] ∧ (s.ctl.mode ≠ .reset → t.u.keys = lostTab s.u.fresh .keys lostKey ∧ t.u.ctxEven = lostTab s.u.fresh .ctxEven (BitVec.ofNat 160)))

/-! ### DDR5 channels -/

/-- R226 to R228, R234 to R236, R241, R270, R395, R396: a subchannel with nothing waiting, nothing laid down and no refresh management to do only counts its cycle; a command laid down that is due issues, and one that precharges closes its banks; else the access that the cycle is for, where no queued write answers it and its column command is allowed now, issues its RD or WR at its bank, row and column. A read that returns is corrected, counted by the path that corrected it and handed to its slice. A refresh that falls due is laid down from the first turn boundary at which its banks can be closed, or postponed once where the separation forbids that, and laid down together with the next. An idle row is closed. A back-off is flagged; with write CRC off a CRC alert is one; with write CRC on, and no held write replayed three times, it marks the held writes of the DIMM for replay. Of the model's choosing are what log entries 24, 25, 28, 106, 107 and 110 say. -/
def Obligations.SubchannelsIssueAndAnswer : Prop :=
  ∀ (s : State) (ch sub : Nat), subRuns s.u ch sub = true → let u := { s.u with out := [] }
    let x := subOf s.u ch sub
    let y := rfmOp (cycleStart u ch sub) ch sub
    (x.rq = [] → x.wq = [] → x.laid = [] → (∀ a ∈ x.crcHeld, a.replay = false) → getF s.u F.DDR5_n_RFM_required ch ≠ 1 →
      ∃ t, exec (.ddr5CommandIssue ch sub) s = .next t ∧ (subOf t.u ch sub).cyc = x.cyc + 1 ∧ t.u.out = []) ∧
    (∀ l, (subOf y ch sub).laid.find? (fun l => decide (l.at_ ≤ (subOf y ch sub).cyc)) = some l → ∃ t, exec (.ddr5CommandIssue ch sub) s = .next t ∧
      .ddr5 ch sub l.code l.rank l.bank l.row l.col ∈ t.u.out ∧ (l.closes = true → ∀ b ∈ l.banks, tabGet (subOf t.u ch sub).openRow b = 0)) ∧
    (∀ a, chosen y ch sub a → let b := bankKey y a.line
      forwarded (subOf y ch sub) a = false → canColumn y ch (subOf y ch sub) a (subOf y ch sub).cyc = true → ∃ t, exec (.ddr5CommandIssue ch sub) s = .next t ∧
        .ddr5 ch sub (if a.use = .write then 2 else 1) (b / 32) (b % 32) (lineRow y a.line) (lineCol a.line) ∈ t.u.out) ∧
    (∀ a rest err, x.inflight = a :: rest → a.patched = false → let z := trackRead (setSub u ch sub { x with inflight := rest }) ch sub a
      (errBytes err.toNat 80 = [] → exec (.ddr5ReadReturn ch sub err) s = .next { s with u := dramAnswer s.ctl z ch a (some a.data) }) ∧
      (∀ i l, errBytes err.toNat 80 = i :: l → (∀ k ∈ l, k / 8 = i / 8) →
        exec (.ddr5ReadReturn ch sub err) s = .next { s with u := dramAnswer s.ctl (count (addSat z F.INT_DDR_n_CNT_device ch 0 1) (cDdr ch 13)) ch a (some a.data) }) ∧
      (∀ i l, errBytes err.toNat 80 = i :: l → (∃ k ∈ l, k / 8 ≠ i / 8) → l.length < 8 →
        exec (.ddr5ReadReturn ch sub err) s = .next { s with u := dramAnswer s.ctl (generalPath z ch) ch a (some a.data) })) ∧
    (∀ rank, rank < 2 ^ rkLog s.u → let parts := refreshParts s.u ch rank
      let start := readyStart s.u ch x parts
      let first := x.laid ++ placed s.u ch x parts (apartStart s.u ch x parts)
      (refreshFalls x rank = true → x.postponed.contains rank = false → partsApart s.u ch x parts start = false → ∃ t, exec (.refreshDue ch sub rank) s = .next t ∧
        (subOf t.u ch sub).postponed = x.postponed ++ [rank] ∧ (subOf t.u ch sub).laid = x.laid ∧ t.u.out = []) ∧
      (refreshFalls x rank = true → x.postponed.contains rank = false → partsApart s.u ch x parts start = true → ∃ t, exec (.refreshDue ch sub rank) s = .next t ∧
        (subOf t.u ch sub).laid = x.laid ++ placed s.u ch x parts start ∧ (subOf t.u ch sub).postponed = x.postponed) ∧
      (refreshFalls x rank = true → x.postponed.contains rank = true → ∃ t, exec (.refreshDue ch sub rank) s = .next t ∧ (subOf t.u ch sub).postponed = x.postponed.filter (fun r => r != rank) ∧
        (subOf t.u ch sub).laid = first ++ placed s.u ch { x with laid := first } parts (apartStart s.u ch { x with laid := first } parts)) ∧
      ∀ bank, bank < 32 → let b := rank * 32 + bank
        let n := getF s.u F.DDR5_n_SCHED_close_idle ch
        canPre s.u ch x b x.cyc = true → since x.cyc (tabGet x.tAct b) n = true → since x.cyc (tabGet x.tRd b) n = true → since x.cyc (tabGet x.tWr b) n = true →
          ∃ t, exec (.rowCloseIdle ch sub rank bank) s = .next t ∧ tabGet (subOf t.u ch sub).openRow b = 0 ∧ .ddr5 ch sub 3 rank bank 0 0 ∈ t.u.out) ∧
    (∀ dimm, dimmRanks s.u ch dimm ≠ [] →
      (∃ t, exec (.alertBackoff ch sub dimm) s = .next t ∧ getF t.u F.DDR5_n_STATE_backoff ch = 1 ∧ getF t.u F.DDR5_n_ERR_backoff ch = 1) ∧
      (writeCrc s.u ch = false → exec (.crcAlert ch sub dimm) s = exec (.alertBackoff ch sub dimm) s) ∧
      (writeCrc s.u ch = true → (∀ a ∈ x.crcHeld, tabGet x.crcTries a.line < 3) → ∃ t, exec (.crcAlert ch sub dimm) s = .next t ∧
        (subOf t.u ch sub).crcHeld = x.crcHeld.map fun a => if dimmOf s.u ch (lineRank s.u a.line) == dimm then { a with replay := true } else a))


/-! ### Devices and channels -/

/-- R238, R239, R257: a temperature poll of a channel in service goes to the 4× refresh rate, flagged, where a rank's mode register 4 asks for more than 2×; to 2× where one asks for more than 1× or a hub of a slot found present stands at the limit; and from 2× back to 1× with the 32nd poll in a row that finds every rank and hub well below. R264: under the grant of the calibration requester the rank whose turn it is has its oscillator blackout laid down, PREab of all its banks and the start tRP later, and its run counted; the turn passes on. R265, R266: a count moves the device's write offset toward its target by at most two steps, within its range, and is kept; a count of zero is flagged and moves nothing. Each leaves the other channels, the slices and the media as they were. Of the model's choosing are what log entries 27, 104, 105 and 110 say. -/
def Obligations.DevicesAreFollowed : Prop :=
  ∀ (s : State) (ch : Nat), inService s.u ch = true → let d := ddr s.u ch
    let left := fun (t : State) => t.ctl = s.ctl ∧ (∀ c, c ≠ ch → ddr t.u c = ddr s.u c) ∧ t.u.slices = s.u.slices ∧ t.u.media = s.u.media
    (∀ mr4 h0 h1, let limit := getF s.u F.DDR5_n_THERM_limit ch
      let temps := [slotReading s.u ch 0 h0, slotReading s.u ch 1 h1].filterMap (hubTemp limit)
      ((∃ r ∈ mr4, 2 < r) → ∃ t, exec (.thermPoll ch mr4 h0 h1) s = .next t ∧ left t ∧ (ddr t.u ch).rate = 4 ∧
        (d.rate ≠ 4 → getF t.u F.DDR5_n_STATE_rate_4x ch = 1 ∧ getF t.u F.DDR5_n_ERR_rate_4x ch = 1)) ∧
      ((∀ r ∈ mr4, r ≤ 2) → (∃ r ∈ mr4, 1 < r) ∨ (∃ x ∈ temps, limit ≤ x) → ∃ t, exec (.thermPoll ch mr4 h0 h1) s = .next t ∧ left t ∧ (ddr t.u ch).rate = 2 ∧
        getF t.u F.DDR5_n_STATE_rate_2x ch = 1 ∧ getF t.u F.DDR5_n_STATE_rate_4x ch = 0) ∧
      ((∀ r ∈ mr4, r ≤ 1) → (∀ x ∈ temps, x + 3 < limit) → d.rate = 2 → ∃ t, exec (.thermPoll ch mr4 h0 h1) s = .next t ∧ left t ∧
        (ddr t.u ch).rate = (if 32 ≤ d.polls + 1 then 1 else 2) ∧ (ddr t.u ch).polls = if 32 ≤ d.polls + 1 then 0 else d.polls + 1)) ∧
    (∀ sub rank, sub < 2 → rank < 8 → rank < 2 ^ rkLog s.u →
      (getF s.u F.DDR5_n_RETRAIN_period ch ≠ 0 → calHolds s.u ch sub rank = true → ∃ t, exec (.oscRetrain ch sub rank) s = .next t ∧ left t ∧
        (∃ l ∈ (subOf t.u ch sub).laid, l.code = 8 ∧ l.rank = rank ∧ l.banks = rankBanks rank ∧ l.len = tRp s.u ch + oscRun s.u ch ∧
          ∃ o ∈ (subOf t.u ch sub).laid, o.code = 14 ∧ o.rank = rank ∧ o.at_ = l.at_ + tRp s.u ch) ∧ (ddr t.u ch).calNext = (d.calNext + 1) % (2 * 2 ^ rkLog s.u) ∧
        getF t.u F.DDR5_n_OSC_u_r_runs ch (sub * 8 + rank) = min (getF s.u F.DDR5_n_OSC_u_r_runs ch (sub * 8 + rank) + 1) 65535) ∧
      (∀ dev, dev < 10 → ∃ t, exec (.oscResult ch sub rank dev 0) s = .next t ∧ left t ∧ ddr t.u ch = d ∧ getF t.u F.DDR5_n_PHY_ERR_osc_zero ch = 1) ∧
      (∀ dev cnt, dev < 10 → 0 < cnt → let key := oscKey sub rank dev
        let now := offsetNow s.u ch key
        let target := roundDiv (offsetBase s.u ch key * ((trimRaw s.u (trimBase ch key)).toNat : Int)) cnt
        let want := if now < target then min target (now + 2) else max target (now - 2)
        let new := max (Config.oscRange (ch * 1024 + key)).1 (min (Config.oscRange (ch * 1024 + key)).2 want)
        ∃ t, exec (.oscResult ch sub rank dev cnt) s = .next t ∧ left t ∧ ddr t.u ch = d ∧ trimRaw t.u (trimWrite ch key) = BitVec.ofInt 32 new ∧
          trimRaw t.u (trimLast ch key) = BitVec.ofNat 32 cnt ∧ (new ≠ want → getF t.u F.DDR5_n_PHY_ERR_drift ch = 1)))

/-- R281, R285, R314, R318: BSY_N of a sensing die goes high: the line under its READ stands in its read register and its result waits for the DQ bus; that of a program asked to stop has the die suspended, and it senses the read that waits. R315, R324: a free bus with one transfer waiting, no read waiting at its dies and none suspended starts it where it is ready: a DOUT frame, or a LOAD frame into the die's lowest free slot. R38, R201, R397: a clean line of a fill, of its generation and address and not poisoned, goes to its requester as a LINE_RET. R287, R330: a program that passes leaves its line in the die and touches no other; the last one of a full stripe counts it. Of the model's choosing is what log entries 8 and 32 say. -/
def Obligations.DiesAndBusesAdvance : Prop :=
  ∀ (s : State) (n d : Nat), cexRuns s.u n = true → d < 8 → let x := dieOf s.u n d
    let y := cex s.u n
    let framed := fun (t : State) (op arg : Nat) => .cexus n (csMask [d]) x.chip.safe (caBeats (frameWord op arg)) ∈ t.u.out
    (∀ r, x.st = .sensing → x.cur = some r → r.cls < 2 ∨ (∀ z ∈ x.queue, 2 ≤ z.cls) → ∃ t, exec (.bsyNRise n d) s = .next t ∧ t.ctl = s.ctl ∧ t.u.media = s.u.media ∧
      dieOf t.u n d = { x with st := if x.pgm then .suspended else .idle, cur := none, result := some r, chip := x.chip.ends (tabGet s.u.media (mediaKey n d r.dla)) } ∧
      (cex t.u n).xq = y.xq ++ [{ die := d, cls := r.cls, prio := r.prio, port := r.port, seq := r.seq }]) ∧
    (∀ r, x.st = .programming → x.suspSent = true → x.queue = [r] → r.owner = 7 → x.result = none → paused s.u n = false → ∃ t, exec (.bsyNRise n d) s = .next t ∧
      (dieOf t.u n d).st = .sensing ∧ (dieOf t.u n d).cur = some r ∧ (dieOf t.u n d).pgm = x.pgm ∧ framed t 32 r.dla) ∧
    ((∀ i, i < 8 → (dieOf s.u n i).queue = [] ∧ (dieOf s.u n i).st ≠ .suspended) → paused s.u n = false → y.cur = none → ∀ z lost, y.xq = [z] → z.die = d → xferReady s.u n z = true →
      (z.load = false → ∃ t, exec (.dqTransfer ⟨n, lost⟩) s = .next t ∧ (cex t.u n).cur = some z ∧ (cex t.u n).xq = [] ∧ framed t 1 0) ∧
      (∀ b, z.load = true → bufOf s.u (n / 9) z.buf = some b → x.slots = [] → ∃ t, exec (.dqTransfer ⟨n, lost⟩) s = .next t ∧ (cex t.u n).xq = [] ∧
        (dieOf t.u n d).slots = [(0, z.buf, (grp s.u (n / 9)).round)] ∧ framed t 2 (b.dla % 2 ^ 23))) ∧
    (∀ z dr r, y.cur = some z → z.die = d → x.result = some dr → x.st = .idle → x.queue = [] → readOf s.u (n / 9) dr.rid = some r → dr.detour = false → r.use = .fill →
      r.direct.on = true → r.pkt.kind = .read → r.pkt.bound = false → let l := (patchOf s.u n d dr.dla).getD (x.chip.reg.getD {})
      l.bad = false → nbits l.metaWord 0 16 = r.pkt.gen → nbits l.metaWord 24 1 = 0 → nbits l.metaWord 32 32 = addrCheck r.pkt.lla →
      ∃ t k, exec (.mediaLineReceived n 0) s = .next t ∧ (cex t.u n).cur = none ∧ (dieOf t.u n d).result = none ∧ readOf t.u (n / 9) dr.rid = none ∧
        k ∈ t.u.net ∧ k.typ = .lineRet ∧ k.dst = r.pkt.handle ∧ k.lla = r.pkt.lla ∧ k.port = r.pkt.port ∧ k.ord = r.pkt.ord ∧ k.data = l.data) ∧
    (∀ (pfail : BitVec 8) (slot id : Nat) (b : SBuf), x.st = .programming → x.running = [(slot, id)] → nbits pfail.toNat slot 1 = 0 → bufOf s.u (n / 9) id = some b → x.queue = [] →
      b.todo.erase (n % 9) ≠ [] ∨ (b.formed = true ∧ b.want = 8 ∧ ∃ sl, b.use = .destage sl) →
      ∃ t, exec (.programComplete n d pfail) s = .next t ∧ (dieOf t.u n d).st = .idle ∧ (dieOf t.u n d).running = [] ∧
        tabGet t.u.media (mediaKey n d b.dla) = bufLine b (n % 9) ∧ (∀ k, k ≠ mediaKey n d b.dla → tabGet t.u.media k = tabGet s.u.media k) ∧
        bufOf t.u (n / 9) id = some { b with todo := b.todo.erase (n % 9) } ∧
        (b.todo.erase (n % 9) = [] → getF t.u F.MS_g_WRITES_full (n / 9) = min (getF s.u F.MS_g_WRITES_full (n / 9) + 1) 65535))

/-- R312: a phase of a group whose training is over begins: the window goes to the next die position, and a round ends with the ninth. R304, R313: at its cycle of its window a die with a suspended program resumes it, one due for calibration under the grant of that requester is calibrated, and an idle one with enough loaded slots, of which its STATUS misses none, programs them. R303: a link check that is due, in the channel's own phase under its grant and with no DOUT on the bus, moves the write offset of the next die toward the side that passes, and flags a die for which neither does. R304: the next die in turn is marked for CALIBRATE. R305, R388: a TEMP reading is recorded, at or above the limit it defers its die, and an invalid one is flagged. R307: a die seen in time changes nothing; one that senses no read and stays low is reset; one that stays high after its frame was sent again is late. Of the model's choosing are what log entries 26, 33, 115 and 121 say. -/
def Obligations.WindowsAndDieChecks : Prop :=
  ∀ s : State,
    (∀ g, g < nGroups s.u.v → pdOn s.u (pdMedia g) = true → roundsRun s.u g = true → (∀ r ∈ (grp s.u g).reads, r.direct.blocked = false ∧ r.detour.blocked = false) →
      let p := ((grp s.u g).phase + 1) % 9
      ∃ t, exec (.phaseStart g) s = .next t ∧ (grp t.u g).phase = p ∧ (grp t.u g).phaseAt = s.u.now ∧
        (grp t.u g).round = (if p = 0 then (grp s.u g).round + 1 else (grp s.u g).round) ∧ (grp t.u g).bufs = (grp s.u g).bufs) ∧
    (∀ n d, cexRuns s.u n = true → d < 8 → let x := dieOf s.u n d
      let framed := fun (t : State) (op arg : Nat) => .cexus n (csMask [d]) x.chip.safe (caBeats (frameWord op arg)) ∈ t.u.out
      (inWindow s.u n = true → x.started = false → dieFailed s.u n d = false →
        (x.st = .suspended → ∃ t, exec (.programSlot n d) s = .next t ∧ framed t 6 0 ∧ (dieOf t.u n d).st = .programming ∧ (dieOf t.u n d).started = true ∧ (dieOf t.u n d).slots = x.slots) ∧
        (x.st = .idle → x.zqDue = true → holderOf s.u n = 3 → ∃ t, exec (.programSlot n d) s = .next t ∧ framed t 10 0 ∧
          (dieOf t.u n d).st = .other ∧ (dieOf t.u n d).zqDue = false ∧ (dieOf t.u n d).calibrating = true ∧ (dieOf t.u n d).slots = x.slots) ∧
        (x.st = .idle → x.zqDue = false → x.slots ≠ [] → getF s.u F.MS_g_CFG_batch_min (n / 9) ≤ x.slots.length → deferredDie s.ctl s.u n d = false → s.u.pwr.hushing = false →
          (∀ z ∈ x.slots, nbits x.chip.status (8 + z.1) 1 = 1) → ∃ t, exec (.programSlot n d) s = .next t ∧ framed t 8 0 ∧ framed t 4 (x.slots.map fun z => 2 ^ z.1).sum ∧
            (dieOf t.u n d).st = .programming ∧ (dieOf t.u n d).pgm = true ∧ (dieOf t.u n d).running = x.slots.map (fun z => (z.1, z.2.1)) ∧ (dieOf t.u n d).slots = [])) ∧
      (∀ below above, inWindow s.u n = true → linkDue s.u n = true → holderOf s.u n = 3 → (cex s.u n).cur = none → nextDie s.u n (cex s.u n).linkDie = some d →
        let w := trimRaw s.u (writeTrim n d)
        ∃ t, exec (.linkCheck n below above) s = .next t ∧ (cex t.u n).linkDie = (d + 1) % 8 ∧ (cex t.u n).linkAt = s.u.now ∧
          trimRaw t.u (writeTrim n d) = (if below = false ∧ above = true then w + 1 else if below = true ∧ above = false then w - 1 else w) ∧
          (below = false ∧ above = false → getF t.u F.CEX_n_ERR_drift n = 1)) ∧
      (getF s.u F.CEX_n_LINK_zq_period n ≠ 0 → nextDie s.u n (cex s.u n).zqDie = some d → ∃ t, exec (.zqCalibrate n) s = .next t ∧
        dieOf t.u n d = { x with zqDue := true } ∧ (cex t.u n).zqDie = (d + 1) % 8) ∧
      (∀ (temp : BitVec 8) (valid : Bool), dieFailed s.u n d = false → ∃ t, exec (.mediaTempPoll n d temp valid) s = .next t ∧ framed t 9 0 ∧
        getF t.u F.CEX_n_DIE_d_temp n d = temp.toNat ∧ getF t.u F.CEX_n_DIE_d_temp_valid n d = (if valid then 1 else 0) ∧ d ∈ (cex t.u n).polled ∧
        (valid = true → asSigned (inF s.u F.DRF_TEMP_prog_hi) ≤ asSigned temp.toNat → n * 8 + d ∈ t.u.drf.deferred) ∧
        (valid = false → getF t.u F.CEX_n_ERR_temp_invalid n = 1)) ∧
      (exec (.dieLateCheck n d .inTime) s = .next { s with u := { s.u with out := [] } }) ∧
      (x.st = .sensing → x.cur = none → x.running = [] → ∃ t, exec (.dieLateCheck n d .stayedLow) s = .next t ∧ (dieOf t.u n d).st = .other ∧ (dieOf t.u n d).slots = [] ∧ framed t 16 0) ∧
      (x.st = .sensing ∨ x.st = .programming ∨ x.st = .other → x.resent = true → x.lateAt = [] → ∃ t, exec (.dieLateCheck n d .stayedHigh) s = .next t ∧
        getF t.u F.CEX_n_ERR_late n = 1 ∧ (dieOf t.u n d).lateAt = [usec s.u]))

/-! ### The hinge and drift units -/

/-- R348, R349, R356: a free move slot takes the due work that stands: a sweep or format occupies the lowest free slot; a region that is not fresh becomes moving, its target in use with the next generation; a fresh one is re-pointed at once. R350: a copied stripe written in order raises the cursor. R356: a sweep leaves its region blank, free and at generation 0; a format makes a raw region free or in use and keeps its generation. R346: the pool scan visits one pip entry: a pool region not released since the pass began joins the cache under way by its wear, a region in state 4 is due for its sweep, and a pass that ends brings the cache gathered into use. R354: the region scan visits one hinge entry; an in-use region at the end of its wear is due for a move. Of the model's choosing is what log entries 36 and 37 say. -/
def Obligations.MovesSweepsAndScans : Prop :=
  ∀ s : State, hingeRuns s.u = true →
    (movesRun s.ctl s.u = true →
    (∀ (w : Work) (slot : Nat), s.u.hng.due = [w] → workStands s.u w = true → workReady s.u w = true → (List.range 16).find? (fun i => !s.u.hng.active.contains i) = some slot →
      (7 ≤ w.cause → ∃ t, exec .moveStart s = .next t ∧ t.u.hng.active = s.u.hng.active ++ [slot] ∧ tabGet t.u.hng.slots slot = { cause := w.cause, src := w.prn } ∧ t.u.hng.due = []) ∧
      (w.cause ≤ 6 → w.named = true → w.desc = none → (∀ z ∈ candidates s.u, pGen (pipEntry s.u z.2) ≠ 0xFFFE) →
        (hFresh (hingeEntry s.u w.region) = false → s.u.hng.pins.contains (w.region * 16384) = true → pGen (pipEntry s.u w.prn) < 0xFFFE → ∃ t, exec .moveStart s = .next t ∧
          t.u.hng.active = s.u.hng.active ++ [slot] ∧ tabGet t.u.hng.slots slot = { cause := w.cause, region := w.region, src := hPrn (hingeEntry s.u w.region), tgt := w.prn } ∧
          hingeEntry t.u w.region = nput (hingeEntry s.u w.region) 24 1 1 ∧ pState (pipEntry t.u w.prn) = 2 ∧ pGen (pipEntry t.u w.prn) = pGen (pipEntry s.u w.prn) + 1) ∧
        (hFresh (hingeEntry s.u w.region) = true → ∃ t, exec .moveStart s = .next t ∧ t.u.hng.active = s.u.hng.active ∧
          hingeEntry t.u w.region = w.prn + 2 ^ 23 ∧ t.u.hng.moves = (s.u.hng.moves + 1) % 2 ^ 32))) ∧
    (∀ slot g (b : SBuf), slot < 16 → let m := tabGet s.u.hng.slots slot
      movedBuf s.u slot = some (g, b) → s.u.hng.active.contains slot = true → ofMove m b = true → m.written = [] → m.cursor = b.stripe % 16384 →
      (m.cursor + 1) % 64 ≠ 0 → 16384 ≤ m.next ∨ s.u.hng.pins.contains (m.region * 16384 + m.next) = true →
      ∃ t, exec (.moveStripeWritten slot) s = .next t ∧ bufOf t.u g b.id = none ∧
        tabGet t.u.hng.slots slot = { m with cursor := m.cursor + 1, flying := m.flying.erase m.cursor }) ∧
    (∀ slot, slot < 16 → s.u.hng.active.contains slot = true → let m := tabGet s.u.hng.slots slot
      let group := prnGroup s.u.v m.src
      let blank := fun (t : State) => ∀ q i, q < 9 → i < 16384 → dieFailed s.u (9 * (group / 8) + q) (group % 8) = false →
        tabGet t.u.media (mediaKey (9 * (group / 8) + q) (group % 8) (prnSlot s.u.v m.src * 16384 + i)) = blankLine
      let freed := fun (t : State) => t.u.hng.active = s.u.hng.active.filter (fun i => i ≠ slot) ∧ tabGet t.u.hng.slots slot = {}
      (m.cause = 7 → groupState s.u group = 0 → ∃ t, exec (.sweep slot) s = .next t ∧ blank t ∧ freed t ∧ pState (pipEntry t.u m.src) = 0 ∧ pGen (pipEntry t.u m.src) = 0) ∧
      (m.cause = 8 → pState (pipEntry s.u m.src) = 3 → ∃ t, exec (.format slot) s = .next t ∧ blank t ∧ freed t ∧
        pState (pipEntry t.u m.src) = 2 ∧ pGen (pipEntry t.u m.src) = pGen (pipEntry s.u m.src)) ∧
      (m.cause = 8 → pState (pipEntry s.u m.src) = 1 → ∃ t, exec (.format slot) s = .next t ∧ blank t ∧ freed t ∧
        pState (pipEntry t.u m.src) = 0 ∧ pGen (pipEntry t.u m.src) = pGen (pipEntry s.u m.src)))) ∧
    (let p := s.u.hng.poolPos
      let acc := if inPool s.u p && !s.u.hng.freed.contains p then (insertWear (pWear (pipEntry s.u p), p) s.u.hng.poolAcc).take 1024 else s.u.hng.poolAcc
      (p + 1 < nPhys s.u.v → ∃ t, exec .poolScan s = .next t ∧ t.ctl = s.ctl ∧ t.u.hng.poolPos = p + 1 ∧ t.u.hng.poolAcc = acc ∧ t.u.hng.cache = s.u.hng.cache ∧
        t.u.hng.pip = s.u.hng.pip ∧ t.u.hng.hinge = s.u.hng.hinge) ∧
      (nPhys s.u.v ≤ p + 1 → ∃ t, exec .poolScan s = .next t ∧ t.ctl = s.ctl ∧ t.u.hng.poolPos = 0 ∧ t.u.hng.poolAcc = [] ∧ t.u.hng.cache = acc ∧ t.u.hng.freed = []) ∧
      (pState (pipEntry s.u p) = 4 → s.u.hng.active = [] → ∃ t w, exec .poolScan s = .next t ∧ w ∈ t.u.hng.due ∧ w.cause = 7 ∧ w.prn = p)) ∧
    (let l := s.u.hng.regPos
      let e := hingeEntry s.u l
      ∃ t, exec .regionScan s = .next t ∧ t.ctl = s.ctl ∧ t.u.hng.regPos = (if l + 1 < nRegions s.u.v then l + 1 else 0) ∧ t.u.hng.pip = s.u.hng.pip ∧ t.u.hng.hinge = s.u.hng.hinge ∧
        (pState (pipEntry s.u (hPrn e)) = 2 → pWear (pipEntry s.u (hPrn e)) = 0xFFFFFF → hMoving e = false → hLost e = false → badRegion s.u l = false → s.u.hng.active = [] →
          ∃ w ∈ t.u.hng.due, w.cause = 4 ∧ w.region = l))

/-- R364: the open journal block is closed with the next sequence and written; a block written is durable in the keep area. R365: a checkpoint ends with the slot written, the superblock that names it and J0, and no journal block before J0. R371: an epoch tick advances E_a and rewrites every reference row, or is held, flagged. R381, R383: a calibration leaves codes that never fall from bucket to bucket and rise by at most one, and the read pointers of the group two lines on. Of the model's choosing is what log entries 38, 39 and 40 say. -/
def Obligations.JournalAgesAndCalibration : Prop :=
  ∀ s : State, let h := s.u.hng
    (hingeRuns s.u = true → h.open_ ≠ [] →
      exec .journalFlushTimer s = .next { s with u := { s.u with out := [], hng := { h with writing := h.writing ++ [⟨h.seq, h.open_⟩], seq := h.seq + 1, open_ := [], since := h.since + 1 } } }) ∧
    (∀ b rest, hingeRuns s.u = true → h.writing = b :: rest → h.since < inF s.u F.HNG_CKPT_blocks → ringsRun s.ctl s.u = false →
      ∃ t, exec .journalBlockWritten s = .next t ∧ t.u.keep = { s.u.keep with blocks := s.u.keep.blocks ++ [b] } ∧ t.u.hng.writing = rest ∧ t.u.hng.seq = h.seq) ∧
    (hingeRuns s.u = true → h.ckptOn = true → h.ckptSlot < 2 → h.badHinge = [] → h.badPip = [] → ringsRun s.ctl s.u = false →
      ∃ t sb, exec .checkpointEnd s = .next t ∧ t.u.hng.ckptOn = false ∧ newestSb t.u.keep = some sb ∧ sb.j0 = h.ckptJ0 ∧ sb.slot = h.ckptSlot ∧ sb.clean = false ∧
        (if h.ckptSlot = 0 then t.u.keep.ckA else t.u.keep.ckB) = { hinge := h.hinge, pip := h.pip, epoch := h.bootEpoch } ∧
        ∀ b ∈ t.u.keep.blocks, h.ckptJ0 ≤ b.seq ∧ b ∈ s.u.keep.blocks) ∧
    (s.ctl.mode ≠ .hush →
      (advanceHeld s.ctl s.u = true → s.u.drf.held = false → ∃ t, exec .ageEpochTick s = .next t ∧ t.u.drf.e = s.u.drf.e ∧ t.u.drf.held = true ∧ t.u.drf.owed = s.u.drf.owed + 1 ∧
        getF t.u F.DRF_ERR_held = 1 ∧ t.u.keep = s.u.keep) ∧
      (advanceHeld s.ctl s.u = false → s.u.drf.owed = 0 → let e := (s.u.drf.e + 1) % 256
        ∃ t, exec .ageEpochTick s = .next t ∧ t.u.drf.e = e ∧ t.u.drf.owed = 0 ∧ (∀ g, g < nStripes s.u.v → tabGet t.u.keep.refRows (g * 32 + e % 32) = e + 1) ∧ t.u.hng = s.u.hng)) ∧
    (∀ g scores, hingeRuns s.u = true → g < nStripes s.u.v → pdOn s.u (pdMedia (g / 8)) = true → ∃ t, exec (.driftCalibrate g scores) s = .next t ∧ (∀ z ∈ t.u.drf.cals, z.1 ≠ g) ∧
      (∀ w b, w < 4 → b < 7 → driftCode t.u g w b ≤ driftCode t.u g w (b + 1) ∧ driftCode t.u g w (b + 1) ≤ driftCode t.u g w b + 1) ∧
      (∀ r, r < 32 → tabGet t.u.drf.pointer (g * 32 + r) = (tabGet s.u.drf.pointer (g * 32 + r) + 2) % 128) ∧ t.u.drf.e = s.u.drf.e ∧ t.u.keep = s.u.keep)

/-! ### Scrubbers, arbiters and repairs -/

/-- R425, R427, R430: an arbiter with no grant held gives the next one: to the longest wait at a bye, to the highest rank otherwise. R411, R142: in a maintenance or an open turn, a scrub of eight sound sets under a grant ends the grant and goes eight sets on. R413, R142: there a scrub of 64 lines, none of which is of its region's generation, ends the grant and goes 64 lines on. R415, R416: the SRAM scrubber counts a word it corrects, and puts an uncorrectable one out of use. R414: an overdue lap is flagged once. R408: a repair of a lost region, or of a stripe that lies elsewhere, is dropped; any other leaves the queue and takes a stripe-buffer entry. Of the model's choosing is what log entries 45, 49 and 50 say. -/
def Obligations.ScrubbersArbitersAndRepairs : Prop :=
  ∀ s : State, let works := s.ctl.mode = .run ∨ s.ctl.mode = .service
    (∀ media ch r, arbExists s.u.v media ch = true → pdOn s.u (chDomain media ch) = true → let a := settleArb s.ctl s.u media ch
      6 ≤ a.holder → decide_ a = some r → (∃ t, exec (.mntGrant media ch) s = .next t ∧ (tabGet t.u.arbs (chKey media ch)).holder = r ∧
        (tabGet t.u.arbs (chKey media ch)).number = a.number + 1 ∧ tabGet (tabGet t.u.arbs (chKey media ch)).grants r = (tabGet a.grants r + 1) % 2 ^ 32 ∧
        tabGet (tabGet t.u.arbs (chKey media ch)).raised r = 0) ∧ r ∈ waitingOf a ∧
        (isBye a = true → ∀ q ∈ waitingOf a, tabGet a.raised r ≤ tabGet a.raised q) ∧ (isBye a = false → ∀ q ∈ waitingOf a, rankOf a q ≤ rankOf a r)) ∧
    (∀ ch, inService s.u ch = true → (tabGet s.u.arbs ch).holder = 0 → works → (subOf s.u ch 0).patches = [] → (subOf s.u ch 1).patches = [] → (ddr s.u ch).scrubSet + 8 < nSets s.u → maintTurn s.u ch ((ddr s.u ch).scrubSet * 16) = true →
      (∀ k, k < 8 → hdrFmt (dramLine (slice s.u ch) (((ddr s.u ch).scrubSet + k) * 16)) = 0x5A) →
      exec (.ddr5Scrub ch []) s = .next { s with u := pumpSlice s.ctl (endGrant (setDdr { s.u with out := [] } ch { ddr s.u ch with scrubSet := (ddr s.u ch).scrubSet + 8 }) ch 0) ch }) ∧
    (∀ n, let y := cex s.u n
      cexRuns s.u n = true → (tabGet s.u.arbs (128 + n)).holder = 0 → s.u.hng.mounted = true → works → openTurn s.u n = true → paused s.u n = false → y.scrubRegion ≠ 0 → y.scrubLine ≠ 0 → y.scrubLine + 64 < 16384 →
      dieFailed s.u n y.scrubDie = false →
      (∀ i, i < 64 → let l := storedLine s.u n y.scrubDie (y.scrubSlot * 16384 + y.scrubLine + i); l.bad = false ∧ nbits l.metaWord 0 16 ≠ y.scrubGen) →
      ∃ t, exec (.cexusScrub n []) s = .next t ∧ cex t.u n = { y with scrubLine := y.scrubLine + 64 } ∧ (tabGet t.u.arbs (128 + n)).holder = 7 ∧ t.u.repairs = s.u.repairs) ∧
    (∀ table i, i < sramWords s.u.v table → pdOn s.u 6 = true → pdOn s.u 3 = true → s.u.hng.mounted = true →
      (∃ t, exec (.sramScrub table i .corrected) s = .next t ∧ getF t.u F.INT_SRAM_corrected = min (getF s.u F.INT_SRAM_corrected + 1) 65535 ∧ t.u.hng = s.u.hng ∧ t.u.badCtx = s.u.badCtx) ∧
      (∃ t, exec (.sramScrub table i .uncorrectable) s = .next t ∧ getF t.u F.INT_ERR_sram = 1 ∧ (table = 0 → i ∈ t.u.hng.badHinge) ∧ (table = 1 → i ∈ t.u.hng.badPip) ∧
        (table = 2 → i ∈ t.u.badCtx) ∧ (table = 3 → ∃ z ∈ t.u.drf.cals, z.1 = i / 4))) ∧
    (∀ media ch, arbExists s.u.v media ch = true → pdOn s.u (chDomain media ch) = true →
      (media = true → inF s.u F.INT_SCRUB_CEX_LIMIT_seconds ≠ 0 → (cex s.u ch).overdue = false → inF s.u F.INT_SCRUB_CEX_LIMIT_seconds ≤ secondsSince s.u (cex s.u ch).scrubAt →
        ∃ t, exec (.scrubOverdue media ch) s = .next t ∧ cex t.u ch = { cex s.u ch with overdue := true } ∧ getF t.u F.INT_CEX_n_ERR_overdue ch = 1) ∧
      (media = false → inF s.u F.INT_SCRUB_DDR_LIMIT_seconds ≠ 0 → (ddr s.u ch).overdue = false → inF s.u F.INT_SCRUB_DDR_LIMIT_seconds ≤ secondsSince s.u (ddr s.u ch).scrubAt →
        ∃ t, exec (.scrubOverdue media ch) s = .next t ∧ ddr t.u ch = { ddr s.u ch with overdue := true } ∧ getF t.u F.INT_DDR_n_ERR_overdue ch = 1) ∧
      ((if media then (cex s.u ch).overdue else (ddr s.u ch).overdue) = true → exec (.scrubOverdue media ch) s = .next { s with u := { s.u with out := [] } })) ∧
    (∀ e place, s.u.repairs[place]? = some e → works → pdOn s.u 6 = true → pdOn s.u (pdMedia (e.group / 8)) = true → repairRoom s.u e = true →
      (badRegion s.u (e.lla / 131072) = true ∨ hLost (hingeEntry s.u (e.lla / 131072)) = true → exec (.repair place) s = .next { s with u := { s.u with out := [], repairs := s.u.repairs.erase e } }) ∧
      (∀ prn dla gen fresh x, placementAnswer s.ctl { s.u with out := [] } (e.lla / 131072) (e.lla / 8 % 16384) = (.at_ prn dla gen fresh, x) →
        (prn ≠ e.prn ∨ gen ≠ e.gen ∨ dla ≠ e.dla → exec (.repair place) s = .next { s with u := endRepair (unpinStripe x (e.lla / 131072) (e.lla / 8 % 16384)) e }) ∧
        (prn = e.prn → gen = e.gen → dla = e.dla → (∀ y ∈ (grp s.u (e.group / 8)).reads, y.id ≠ (grp s.u (e.group / 8)).nextRead) →
          (∃ q, q < 9 ∧ q ≠ e.pos ∧ dieFailed s.u (9 * (e.group / 8) + q) (e.group % 8) = false) → ∃ t b, exec (.repair place) s = .next t ∧ t.u.repairs = s.u.repairs.erase e ∧ b ∈ (grp t.u (e.group / 8)).bufs ∧ b.group = e.group ∧ b.dla = e.dla)))

/-! ### The latch -/

/-- R435, R554, R555: a latch with banked changes and requests of the older epoch outstanding is deferred and switches nothing; with none outstanding it switches to the next epoch; without a change it does nothing but clear the deferral. R151: a recheck that is due has a result. R157: the end of a bandwidth window copies the counts of every port and restarts them. No request of any cluster can go on by itself, and no recheck, audit or descriptor waits for this latch. Of the model's choosing is what log entries 2 and 51 say. -/
def Obligations.LatchesAndRechecks : Prop :=
  ∀ s : State,
    (latches s.ctl s.u = true → (∀ cl, cl < nClusters s.u.v → clusterStill s.u cl) → s.u.adm.due = 0 → s.u.audit = none →
      (changesWait s.u = true → oldLive s.u = true → ∃ t, exec .latch s = .next t ∧ t.u.regs.epoch = s.u.regs.epoch ∧ t.u.regs.deferred = true ∧ t.u.regs.defers = s.u.regs.defers + 1 ∧
        t.u.regs.bankA = s.u.regs.bankA ∧ t.u.regs.bankB = s.u.regs.bankB ∧ t.u.ctxStaged = s.u.ctxStaged ∧ (256 ≤ s.u.regs.defers + 1 → s.u.regs.lateSeen = false → getF t.u F.LDG_ERR_latch_late = 1)) ∧
      (changesWait s.u = false → ∃ t, exec .latch s = .next t ∧ t.u.regs = { s.u.regs with deferred := false, defers := 0 } ∧ t.u.adm.due = s.u.adm.gathered ∧ t.u.adm.gathered = 0)) ∧
    (∀ u : Units, (switchBanks u).regs.epoch = (u.regs.epoch + 1) % 4 ∧ (switchBanks u).regs.deferred = false ∧ (switchBanks u).regs.descStaged = [] ∧ (switchBanks u).ctxStaged = [] ∧
      bankOf (switchBanks u).regs u.regs.epoch = bankOf u.regs u.regs.epoch ∧ bankOf (switchBanks u).regs (u.regs.epoch + 1) = newBank u) ∧
    (latches s.ctl s.u = true → changesWait s.u = true → oldLive s.u = false → exec .latch s = .next { s with u := pumpAll s.ctl (nextRound (auditLatched (advanceLatch s.ctl { s.u with out := [] }))) }) ∧
    (pdOn s.u 2 = true → s.u.adm.due ≠ 0 → ∃ t x, exec .recheck s = .next t ∧ t.u = { s.u with out := [], adm := { s.u.adm with result := some x } }) ∧
    (pdOn s.u 2 = true → inF s.u F.RGL_BW_WINDOW_rounds ≠ 0 → ∃ t, exec .bwWindowEnd s = .next t ∧ ∀ p, p < nPorts s.u.v →
      port t.u p = { port s.u p with rdLines := 0, wrLines := 0, heldCycles := 0 } ∧ rawReg t.u .RGL_PORT_p_BW_RD p = (port s.u p).rdLines % 2 ^ 32 ∧
      rawReg t.u .RGL_PORT_p_BW_WR p = (port s.u p).wrLines % 2 ^ 32 ∧ rawReg t.u .RGL_PORT_p_BW_HELD p = (port s.u p).heldCycles % 2 ^ 32)

/-! ### Modes and power -/

/-- R486: the idle timer decides entry into HUSH. R487 (Table 16-4), R183, R250: once nothing is at work, nothing crosses the boundary of a domain to be switched off or retained and no journal block is being written, the block is in HUSH, its core domains off and the table and media domains retained. R488: a register access, a doorbell or a header wakes it, once; at the wake's end, its core domains on again, it is in RUN with what was held on again and their fences down, or DRAIN begins where a trigger of it woke the block. Of the model's choosing are what log entries 59, 60, 61, 108, 112 and 128 say. -/
def Obligations.HushSleepsAndWakes : Prop :=
  ∀ s : State,
    (s.ctl.mode = .run → inF s.u F.PWR_CFG_hush_idle ≠ 0 → s.u.pwr.activeAt + inF s.u F.PWR_CFG_hush_idle * 100000 ≤ s.u.now → hushOk s.u none = true →
      ∃ t, exec .hushIdleTimer s = .next t ∧ t.ctl = s.ctl ∧ t.u.pwr.hushing = true ∧ t.u.pwr.trans = some { target := .hush, cause := 3 } ∧ t.u.pd = s.u.pd) ∧
    (s.ctl.mode = .run → s.u.pwr.hushing = true → s.u.hng.open_ = [] → hushReady s.u = true → s.u.pwr.wakeDrain = 0 → s.u.pwr.held = [] → (∀ p, p < nPorts s.u.v → (port s.u p).reqs = []) →
      ∃ t, exec .hushEntryComplete s = .next t ∧ t.ctl = { s.ctl with mode := .hush, prev := .run, cause := (s.u.pwr.trans.map fun x => x.cause).getD 3 } ∧ t.u.pwr.hushing = false ∧
        (∀ d ∈ [2, 6, 7, 8, 9, 10], pdState t.u d = 0) ∧ pdState t.u 3 = 3 ∧ (∀ g, g < nGroups s.u.v → pdState t.u (pdMedia g) = 3) ∧ pdState t.u 4 = 2 ∧ pdState t.u 5 = 2) ∧
    (s.ctl.mode = .hush → s.u.pwr.waking = false → let woken : Host.Outcome State Fault Refusal := .next { s with u := { s.u with out := [], pwr := { s.u.pwr with waking := true, rising := wakeDomains s.u } } }
      exec (.wake .register) s = woken ∧ (∀ r, exec (.wake (.doorbell r)) s = woken) ∧ (∀ p, p < nPorts s.u.v → exec (.wake (.header p)) s = woken)) ∧
    (s.ctl.mode = .hush → s.u.pwr.waking = true → s.u.pwr.rising = [] →
      (s.u.pwr.wakeDrain = 0 → s.u.pwr.held = [] → s.u.pwr.hushing = false → s.u.hng.active = [] → s.u.drf.owed = 0 → inF s.u F.PWR_CFG_hush_keys_off = 0 → (∀ d ∈ [2, 6, 7, 8, 9, 10], pdOn s.u d = true) → (∀ cl, cl < nClusters s.u.v → clusterStill s.u cl) →
        ∃ t, exec .wakeComplete s = .next t ∧ t.ctl = { s.ctl with mode := .run, prev := .hush, cause := 4 } ∧ t.u.pwr.waking = false ∧
          (∀ d, d ≠ 0 → pdState s.u d = 2 → pdState t.u d = 1) ∧ (∀ d ∈ [2, 6, 7, 8, 9, 10], fenced t.u d = false)) ∧
      (s.u.pwr.wakeDrain ≠ 0 → s.u.pwr.hushing = false → s.u.pwr.held = [] → ∃ t, exec .wakeComplete s = .next t ∧ t.ctl = { s.ctl with mode := .drain, prev := .hush, cause := s.u.pwr.wakeDrain }))

/-- R477, R491: PWRFAIL_N held low begins DRAIN with cause 5, and wakes the block first where it is in HUSH; a shorter pulse is flagged. R489, R490, R493: DRAIN is done once nothing is dirty and the journal is durable: the newest superblock is clean and holds the tail, and DRAIN_DONE is asserted; a DRAIN that began before RUN leaves the keep area as it was. Of the model's choosing is what log entry 60 says. -/
def Obligations.DrainsAndTheSupply : Prop :=
  ∀ s : State,
    (s.ctl.mode ≠ .reset → s.ctl.mode ≠ .drain → s.ctl.mode ≠ .hush → s.u.pwr.hushing = false →
      ∃ t, exec .pwrfail s = .next t ∧ t.ctl = { s.ctl with mode := .drain, prev := s.ctl.mode, cause := 5 }) ∧
    (s.ctl.mode = .hush → s.u.pwr.wakeDrain = 0 → s.u.pwr.waking = false → ∃ t, exec .pwrfail s = .next t ∧ t.ctl = s.ctl ∧
      t.u.pwr = { s.u.pwr with pwrfail := true, wakeDrain := 5, waking := true, rising := wakeDomains s.u }) ∧
    (s.ctl.mode = .reset ∨ s.ctl.mode = .drain → exec .pwrfail s = .next { s with u := { s.u with out := [] } }) ∧
    (s.ctl.mode ≠ .reset → s.ctl.mode ≠ .drain → ∃ t, exec .pwrfailGlitch s = .next t ∧ t.ctl = s.ctl ∧ t.u.pwr = { s.u.pwr with pwrfail := false } ∧ getF t.u F.PWR_ERR_pwrfail_glitch = 1) ∧
    (s.ctl.mode = .drain → s.ctl.drainDone = false → (∀ x, s.u.pwr.trans = some x → x.target = .drain) → let done := { s.ctl with drainDone := true, thermOff := s.ctl.shutdown }
      (bareDrain s.ctl = true → ∃ t, exec .drainComplete s = .next t ∧ t.ctl = done ∧ t.u.keep = s.u.keep) ∧
      (bareDrain s.ctl = false → drainReady s.u = true → s.u.hng.writing = [] → s.u.hng.open_ = [] → ∃ t sb, exec .drainComplete s = .next t ∧ t.ctl = done ∧
        newestSb t.u.keep = some sb ∧ sb.clean = true ∧ sb.tail = s.u.hng.seq ∧ t.u.keep.blocks = s.u.keep.blocks) ∧
      (bareDrain s.ctl = false → drainReady s.u = false → exec .drainComplete s = .next { s with u := { s.u with out := [] } }))

/-- R494, R501, R503: a reading is recorded; a bad one fails its sensor; one at 115 °C of a sensor that has not failed latches the shutdown, which begins DRAIN with cause 6, and with DRAIN done asserts THERM_OFF and holds every zone at step 12. R496, R502: a zone's own step at the end of a sampling round. R499: the budget step of V72 at the end of a slow round; no other variant has one. Of the model's choosing is what log entry 2 says. -/
def Obligations.HeatIsThrottled : Prop :=
  ∀ s : State,
    (∀ i (temp : BitVec 8) (valid : Bool), s.ctl.mode ≠ .reset → i < 32 → getF s.u F.PWR_SENSOR_i_failed i = 0 →
      (goodReading temp valid = true → asSigned temp.toNat < 115 → ∃ t, exec (.thermalReading i temp valid) s = .next t ∧ t.ctl = s.ctl ∧ getF t.u F.PWR_SENSOR_i_temp i = temp.toNat ∧
        getF t.u F.PWR_SENSOR_i_valid i = 1 ∧ getF t.u F.PWR_SENSOR_i_failed i = 0) ∧
      (goodReading temp valid = false → ∃ t, exec (.thermalReading i temp valid) s = .next t ∧ t.ctl = s.ctl ∧ getF t.u F.PWR_SENSOR_i_failed i = 1 ∧ getF t.u F.PWR_ERR_sensor = 1) ∧
      (goodReading temp valid = true → 115 ≤ asSigned temp.toNat → s.ctl.shutdown = false →
        (s.ctl.mode ≠ .drain → s.ctl.mode ≠ .hush → s.u.pwr.hushing = false → ∃ t, exec (.thermalReading i temp valid) s = .next t ∧
          t.ctl = { s.ctl with shutdown := true, mode := .drain, prev := s.ctl.mode, cause := 6 }) ∧
        (s.ctl.mode = .drain → ∃ t, exec (.thermalReading i temp valid) s = .next t ∧ t.ctl = { s.ctl with shutdown := true, thermOff := s.ctl.drainDone || s.ctl.thermOff } ∧
          ∀ z, z < 13 → zoneExists s.u.v z = true → getF t.u F.PWR_ZONE_z_STATE_step z = 12 ∧ getF t.u F.PWR_ZONE_z_STATE_own z = 12))) ∧
    (∀ z, s.ctl.mode ≠ .reset → s.ctl.mode ≠ .hush → z < 13 → zoneExists s.u.v z = true → let x := (sensorsOf s.u z).foldl staleCheck { s.u with out := [] }
      let own := getF s.u F.PWR_ZONE_z_STATE_own z
      let rounds := (tabGet s.u.pwr.zones z).rounds + 1
      let high : Int := inF s.u F.PWR_ZONE_z_CFG_t_high z
      ∃ t, exec (.zoneEvaluate z) s = .next t ∧ t.ctl = s.ctl ∧ let new := getF t.u F.PWR_ZONE_z_STATE_own z
        (tabGet t.u.pwr.zones z).rounds = (if new = own then rounds else 0) ∧
        (zoneBlind x z = true → new = 12 ∧ getF t.u F.PWR_ZONE_z_STATE_blind z = 1) ∧
        (∀ e, zoneBlind x z = false → excessOf x z = some e →
          ((inF s.u F.PWR_ZONE_z_CFG_t_crit z : Int) - high ≤ e → new = 12) ∧
          (e < (inF s.u F.PWR_ZONE_z_CFG_t_crit z : Int) - high → 0 ≤ e → new = min (own + 1) 12) ∧
          (e < (inF s.u F.PWR_ZONE_z_CFG_t_crit z : Int) - high → e < -(inF s.u F.PWR_ZONE_z_CFG_hyst z : Int) → inputFailed x z = false → 8 ≤ rounds → new = own - 1) ∧
          (e < (inF s.u F.PWR_ZONE_z_CFG_t_crit z : Int) - high → e < 0 → -(inF s.u F.PWR_ZONE_z_CFG_hyst z : Int) ≤ e ∨ inputFailed x z = true ∨ rounds < 8 → new = own))) ∧
    (∀ estimate, (s.u.v ≠ .v72 → exec (.budgetEvaluate estimate) s = .next { s with u := { s.u with out := [] } }) ∧
      (s.u.v = .v72 → s.ctl.mode ≠ .reset → s.ctl.mode ≠ .hush → s.ctl.mode ≠ .drain → inF s.u F.PWR_BUDGET_watts ≠ 0 → let w := min 255 estimate
        let b := inF s.u F.PWR_BUDGET_watts
        let k := s.u.pwr.budgetStep
        ∃ t, exec (.budgetEvaluate estimate) s = .next t ∧ t.ctl = s.ctl ∧ getF t.u F.PWR_ESTIMATE_watts = w ∧
          t.u.pwr.budgetStep = (if b < w then min 12 (k + 1) else if 10 * w < 9 * b then k - 1 else k) ∧ (b < w → k = 12 → getF t.u F.PWR_ERR_budget = 1)))

/-! ### The key port -/

/-- R120 to R128, R519, R574: what each message does where the port takes it and nothing in it or in the port's state stops it, and the RESULT that answers it; a message that its form stops is answered by its code and changes no slot. R120: an erase ends once the older epoch has retired. R125: a late HELLO_ACK is flagged. R574: the oldest outbound word is taken, and with the last one the RESULT shows in KEY_PORT_STATE. Of the model's choosing is what log entry 11 says. -/
def Obligations.KeyMessagesAct : Prop :=
  ∀ (s : State) (ws : List Word), let hdr := keyHdr ws
    let slot := keySlotOf ws
    let answered := fun (t : State) (h code : Nat) => t.ctl = s.ctl ∧ t.u.keyPort.result = some (nbits h 8 8 + code * 2 ^ 8 + h % 256 * 2 ^ 16)
    (keyTakes s.u = true → ws ≠ [] →
      (∀ code, keyJudge s.u ws = some code →
        (keyType ws = 0x10 → ∃ t, exec (.keyLoad ws) s = .next t ∧ answered t hdr code ∧ t.u.keys = s.u.keys) ∧
        (keyType ws = 0x11 → ∃ t, exec (.keyErase ws) s = .next t ∧ answered t hdr code ∧ t.u.keys = s.u.keys) ∧
        (keyType ws = 0x12 → ∃ t, exec (.eraseAll ws) s = .next t ∧ answered t hdr code ∧ t.u.keys = s.u.keys)) ∧
      (∀ code, keyForm ws = some code → ∃ t, exec (.keyMessageBad ws) s = .next t ∧ answered t hdr code ∧ t.u.keys = s.u.keys) ∧
      (keyJudge s.u ws = none →
        (keyType ws = 0x10 →
          ((tabGet s.u.keys slot).state ≠ 0 → ∃ t, exec (.keyLoad ws) s = .next t ∧ answered t hdr 4 ∧ t.u.keys = s.u.keys) ∧
          ((tabGet s.u.keys slot).state = 0 → weakKey (keyBits ws) = true → ∃ t, exec (.keyLoad ws) s = .next t ∧ answered t hdr 5 ∧ t.u.keys = s.u.keys) ∧
          ((tabGet s.u.keys slot).state = 0 → weakKey (keyBits ws) = false → ∃ t, exec (.keyLoad ws) s = .next t ∧ answered t hdr 0 ∧ t.u.regs.banked = true ∧
            tabGet t.u.keys slot = { state := 1, key := keyBits ws } ∧ ∀ k, k ≠ slot → tabGet t.u.keys k = tabGet s.u.keys k)) ∧
        (keyType ws = 0x11 →
          ((tabGet s.u.keys slot).state = 0 → ∃ t, exec (.keyErase ws) s = .next t ∧ answered t hdr 0 ∧ t.u.keys = s.u.keys) ∧
          ((tabGet s.u.keys slot).state = 1 → ∃ t, exec (.keyErase ws) s = .next t ∧ t.ctl = s.ctl ∧ t.u.keyPort.erase = some (hdr, slot, false) ∧ t.u.regs.banked = true ∧
            tabGet t.u.keys slot = { tabGet s.u.keys slot with state := 2 } ∧ ∀ k, k ≠ slot → tabGet t.u.keys k = tabGet s.u.keys k)) ∧
        (keyType ws = 0x12 →
          ((∀ z ∈ s.u.keys.cells, z.2.state = 0) → ∃ t, exec (.eraseAll ws) s = .next t ∧ answered t hdr 0 ∧ t.u.keys = s.u.keys) ∧
          ((∃ z ∈ s.u.keys.cells, z.2.state ≠ 0) → ∃ t, exec (.eraseAll ws) s = .next t ∧ t.u.keyPort.erase = some (hdr, 1024, false) ∧ ∀ k, (tabGet t.u.keys k).state ≠ 1)) ∧
        (keyType ws = 0x01 → ∃ t, exec (.helloAck ws) s = .next t ∧ answered t hdr 0 ∧ t.u.keyPort.state = 1 ∧ t.u.keyPort.hello = false ∧ getF t.u F.KEY_PORT_STATE_ack_late = 0) ∧
        (keyType ws = 0x20 → s.ctl.mode ≠ .drain → let target := (ws.getD 1 0).toNat
          let ok := target < 4 ∧ (ws.getD 2 0).toNat = s.u.boot.lcState ∧ lcPermits s.u.boot.lcState target = true
          (ok → s.u.boot.spi = .none → ∃ t, exec (.lcChange ws) s = .next t ∧ t.u.keys.cells = [] ∧ t.u.keyPort.state = 0 ∧ t.u.boot.lcNew = some { state := target, hdr := hdr } ∧
            t.u.boot.spi = .lcErase ∧ t.u.boot.lcState = s.u.boot.lcState) ∧
          (¬ ok → ∃ t, exec (.lcChange ws) s = .next t ∧ answered t hdr 2 ∧ t.u.keys = s.u.keys ∧ t.u.boot = s.u.boot)))) ∧
    (pdOn s.u 1 = true →
      (∀ h k, s.u.keyPort.erase = some (h, k, true) →
        (oldLive s.u = false → ∃ t, exec .keyEraseDone s = .next t ∧ answered t h 0 ∧ t.u.keyPort.erase = none ∧ ∀ i, (tabGet t.u.keys i).state ≠ 2) ∧
        (oldLive s.u = true → exec .keyEraseDone s = .next { s with u := { s.u with out := [] } })) ∧
      (s.u.keyPort.hello = true → ∃ t, exec .helloAckLate s = .next t ∧ t.u.keyPort.hello = false ∧ getF t.u F.KEY_PORT_STATE_ack_late = 1) ∧
      (∀ w last rest, s.u.keyPort.outq = (w, last) :: rest → ∃ t, exec .keyOutWordTaken s = .next t ∧ t.u.out = [.keyWord w last] ∧ t.u.keyPort.outq = rest ∧ t.u.keys = s.u.keys ∧
        (∀ x, rest = [] → s.u.keyPort.result = some x → x < 2 ^ 24 → t.u.keyPort.result = none ∧ rawReg t.u .KEY_PORT_STATE / 256 = x)))

/-! ### From reset to RUN -/

/-- R477, R512: LOAD begins with RST_N high; it reads the serial memory and takes the life-cycle state recorded there. R576: the domain whose power-up is requested is on once that is acknowledged. R511, R513: an unusable device ends LOAD in failure, a valid copy is held. R512: with HELLO_ACK answered and the copy held TRAIN begins, and HELLO not answered in time fails LOAD. R262, R301, R478: a step that overruns is shown and run once more, and then fails its DDR5 channel or its die. R260, R477, R478: TRAIN ends in MOUNT where every DDR5 channel has run all its steps, no eye below its criterion and no count zero, and in failure where one has not or TRAIN overran. Of the model's choosing are what log entries 26, 116 and 127 say. -/
def Obligations.BootReachesTraining : Prop :=
  ∀ s : State, let failure := fun (t : State) (cause : Nat) => t.ctl = { s.ctl with mode := .service, prev := s.ctl.mode, cause := cause, failed := true }
    (∀ x : BootOutcome, s.ctl.mode = .reset → let b : Boot := { sfdp := x.sfdp, density := x.density }
      ∃ t, exec (.load x) s = .next t ∧ t.ctl = { s.ctl with mode := .load, prev := .reset, cause := 1, lc := (if deviceOk b then ((recordOf x.lc0 x.lc1).map fun r => r.state).getD 0 else 0) } ∧
        t.u.pwr.rising = [2, 3, 1, 4, 5, 6, 7, 8, 9, 10] ∧ t.u.boot.spi = .read ∧ t.u.boot.loadAt = s.u.now ∧ t.u.out = [.spi 0 0]) ∧
    (∀ d, mayRise s.u d = true → s.u.pwr.trans = none → s.ctl.mode = .load ∨ s.ctl.mode = .hush → d < 11 →
      ∃ t, exec (.pdUpAck d) s = .next t ∧ t.ctl = s.ctl ∧ pdState t.u d = 1 ∧ t.u.pwr.rising = s.u.pwr.rising.filter fun z => z != d) ∧
    (s.ctl.mode = .load → s.u.boot.spi = .read → s.u.boot.lcNew = none →
      (deviceOk s.u.boot = false → ∃ t, exec (.serialMemoryOperationEnd .done) s = .next t ∧ failure t 7 ∧ getF t.u F.BOOT_STATE_fail = 1) ∧
      (∀ k, deviceOk s.u.boot = true → (takeCopy s.u.v s.u.boot.copyA s.u.boot.copyB).copy = some k → ∃ t, exec (.serialMemoryOperationEnd .done) s = .next t ∧ t.ctl = s.ctl ∧ t.u.boot.held = true ∧
        t.u.boot.image = (if k = 0 then s.u.boot.copyA else s.u.boot.copyB) ∧ t.u.boot.spi = .none)) ∧
    (∀ dimms, s.ctl.mode = .load → s.u.boot.held = true → s.u.pwr.rising = [] → s.u.keyPort.state = 1 → keyIdle s.u = true → ∃ t, exec (.loadComplete dimms) s = .next t ∧
      t.ctl = { s.ctl with mode := .train, prev := .load, cause := 1 } ∧ t.u.pwr.rising = channelDomains s.u ∧ t.u.boot.dimms = dimms) ∧
    (s.ctl.mode = .load → pdOn s.u 1 = true → s.u.pwr.rising = [] → s.u.keyPort.state = 0 → ∃ t, exec .loadHelloTimeout s = .next t ∧ failure t 7 ∧ getF t.u F.BOOT_STATE_fail = 3) ∧
    (s.ctl.mode = .train →
      (∃ t, exec .trainOverrun s = .next t ∧ failure t 8) ∧
      (∀ ch step unit, ch < nDdr s.u.v → getF s.u F.DDR5_n_STATE_state ch = 1 → 1 ≤ step → step ≤ 11 →
        ((ddr s.u ch).tries ≠ step → ∃ t, exec (.trainStepTimeout false ch step unit) s = .next t ∧ t.ctl = s.ctl ∧ ddr t.u ch = { ddr s.u ch with tries := step } ∧
            getF t.u F.DDR5_n_TRAIN_step ch = step) ∧
        ((ddr s.u ch).tries = step → ∃ t, exec (.trainStepTimeout false ch step unit) s = .next t ∧ failure t 8)) ∧
      (∀ ch step unit, ch < nCexus s.u.v → getF s.u F.CEX_n_STATE_state ch = 1 → 1 ≤ step → step ≤ 9 → (cex s.u ch).failed.contains (unit % 8) = false →
        (tabGet (cex s.u ch).tries (unit % 8) ≠ step → ∃ t, exec (.trainStepTimeout true ch step unit) s = .next t ∧ t.ctl = s.ctl ∧ (cex t.u ch).failed = (cex s.u ch).failed ∧
          tabGet (cex t.u ch).tries (unit % 8) = step ∧ getF t.u F.CEX_n_TRAIN_step ch = step) ∧
        (tabGet (cex s.u ch).tries (unit % 8) = step → ∃ t, exec (.trainStepTimeout true ch step unit) s = .next t ∧ t.ctl = s.ctl ∧ unit % 8 ∈ (cex t.u ch).failed ∧
          getF t.u F.CEX_n_TRAIN_step ch = step ∧ getF t.u F.CEX_n_TRAIN_result ch = 5 ∧ getF t.u F.CEX_n_ERR_train_fail ch = 1)) ∧
      (∀ l, s.u.pwr.rising = [] → everyChannel s.u l = true →
        let passes := fun (k : Nat) => (resultOf l false k).result = 0 ∧ trainMiss s.u k (resultOf l false k).found.eyes (resultOf l false k).found.trims = none
        ((∀ k, k < nDdr s.u.v → passes k ∧ (resultOf l false k).ch = k) → (∀ n, n < nCexus s.u.v → (resultOf l true n).ch = n) →
          ∃ t, exec (.trainComplete l) s = .next t ∧ t.ctl = { s.ctl with mode := .mount, prev := .train, cause := 1 } ∧ ∀ k, k < nDdr s.u.v → inService t.u k = true) ∧
        ((∃ k, k < nDdr s.u.v ∧ ¬ passes k ∧ ∀ i, i < nDdr s.u.v → (resultOf l false i).ch = i) → ∃ t, exec (.trainComplete l) s = .next t ∧ failure t 8)))

/-- R147, R187, R222, R367, R368, R477: MOUNT ends in RUN once its work is done and the clusters that RUN needs are on, and in failure on a geometry, a first boot or a variant that the rules refuse; the superblock copies count as the keep-area reads at the codes of R379 find them. R519, R521: the end of a serial-memory operation carries a life-cycle record or an image write on, or fails it. R477: RST_N low puts everything but the dies, the keep area and the test access port at its reset. Of the model's choosing are what log entries 26, 66, 68, 69 and 122 say. -/
def Obligations.MountResetAndTheSerialMemory : Prop :=
  ∀ s : State, let failure := fun (t : State) (cause : Nat) => t.ctl = { s.ctl with mode := .service, prev := s.ctl.mode, cause := cause, failed := true }
    (∀ f : MountFound, s.ctl.mode = .mount → s.u.hng.mounted = false → let u0 : Units := { s.u with out := [] }
      (geometryOk s.u = false → ∃ t, exec (.mountComplete f) s = .next t ∧ failure t 9) ∧
      (geometryOk s.u = true → newestSb (countCopies (driftDefaults u0) f).keep = none →
        (firstBootOk s.ctl.lc = false → ∃ t, exec (.mountComplete f) s = .next t ∧ failure t 9) ∧
        (firstBootOk s.ctl.lc = true → let x := raiseClusters (putTrans (mountWork s.ctl (countCopies (driftDefaults u0) f) f none) (some { target := .run, cause := 1 }))
          ∃ t, exec (.mountComplete f) s = .next t ∧ (x.pwr.rising = [] → t.ctl = { s.ctl with mode := .run, prev := .mount, cause := 1, drainDone := false }) ∧
            (x.pwr.rising ≠ [] → t.ctl = s.ctl ∧ t.u = x))) ∧
      (∀ sb, geometryOk s.u = true → newestSb (countCopies (driftDefaults u0) f).keep = some sb →
        (sb.variant ≠ variantCode s.u.v → ∃ t, exec (.mountComplete f) s = .next t ∧ failure t 9) ∧
        (sb.variant = variantCode s.u.v → let x := raiseClusters (putTrans (mountWork s.ctl (noteUnclean (countCopies (driftDefaults u0) f) sb) f (some sb)) (some { target := .run, cause := 1 }))
          ∃ t, exec (.mountComplete f) s = .next t ∧ (x.pwr.rising = [] → t.ctl = { s.ctl with mode := .run, prev := .mount, cause := 1, drainDone := false }) ∧
            (x.pwr.rising ≠ [] → t.ctl = s.ctl ∧ t.u = x)))) ∧
    (s.u.boot.spi = .imageVerify → let ended := fun (t : State) (fault : Nat) => t.ctl = s.ctl ∧ getF t.u F.BOOT_WRITE_busy = 0 ∧ getF t.u F.BOOT_WRITE_fault = fault ∧ t.u.boot.writeDesc = none
      (∃ t, exec (.serialMemoryOperationEnd .mismatch) s = .next t ∧ ended t 3) ∧
      (s.u.boot.writeCopy < 2 → ∃ t, exec (.serialMemoryOperationEnd .done) s = .next t ∧ ended t 0 ∧ getF t.u F.BOOT_STATE_next = 1 - s.u.boot.writeCopy)) ∧
    (s.u.boot.spi = .imageErase → ∃ t, exec (.serialMemoryOperationEnd .timeout) s = .next t ∧ t.ctl = s.ctl ∧ getF t.u F.BOOT_WRITE_fault = 1 ∧ t.u.boot.writeDesc = none) ∧
    (∀ w, s.u.boot.lcNew = some w →
      (s.u.boot.spi = .lcErase → ∃ t, exec (.serialMemoryOperationEnd .done) s = .next t ∧ t.ctl = s.ctl ∧ t.u.boot = { s.u.boot with spi := .lcProgram }) ∧
      (s.u.boot.spi = .lcProgram → ∃ t, exec (.serialMemoryOperationEnd .done) s = .next t ∧ t.ctl = s.ctl ∧ t.u.boot.lcNew = none ∧ t.u.boot.lcState = w.state ∧ t.u.boot.lcPending = true) ∧
      (s.u.boot.spi = .lcErase → ∃ t, exec (.serialMemoryOperationEnd .timeout) s = .next t ∧ t.ctl = s.ctl ∧ t.u.boot.lcNew = none ∧ t.u.boot.lcState = s.u.boot.lcState)) ∧
    (∃ t, exec .reset s = .next t ∧ t.pending = s.pending ∧ t.ctl = State.reset.ctl ∧ t.u.regs = State.reset.u.regs ∧ t.u.ports = State.reset.u.ports ∧ t.u.keys = State.reset.u.keys ∧
      t.u.rings = State.reset.u.rings ∧ t.u.pd = State.reset.u.pd ∧ t.u.hng = State.reset.u.hng ∧ t.u.slices = State.reset.u.slices ∧ t.u.ddr = State.reset.u.ddr ∧ t.u.tele = State.reset.u.tele ∧
      t.u.pwr = State.reset.u.pwr ∧ t.u.boot = State.reset.u.boot ∧ t.u.keep = s.u.keep ∧ t.u.tap = s.u.tap ∧ t.u.v = s.u.v)

/-! ### The whole block -/

/-- A step with a command at the front of its queue carries that command out on the state with the queue's rest. Of the model's choosing is what log entry 7 says. -/
def Obligations.StepRunsTheFront : Prop :=
  ∀ (c : Instr) (s : State) (rest : List Instr), step { s with pending := c :: rest } = exec c { s with pending := rest }

/-- What only RST_N clears stays: over every step but one that takes RESET, whether it takes another command or a tick, each bolt that is set stays set (R16, R559) and a latched shutdown stays latched (R503); and the life-cycle state in force changes in LOAD alone (R516). Of the model's choosing is what log entry 1 says. -/
def Obligations.LatchedStateHoldsUntilReset : Prop :=
  ∀ s t : State, step s = .next t → s.pending.head? ≠ some .reset →
    (∀ b, s.ctl.bolts.getLsbD b = true → t.ctl.bolts.getLsbD b = true) ∧ (s.ctl.shutdown = true → t.ctl.shutdown = true) ∧
    ((∀ x, s.pending.head? ≠ some (.load x)) → t.ctl.lc = s.ctl.lc)
end

