-- ==== Sys2Proof/Laws/Tab.lean ====
section
/-! SUPPORT. Laws of the sparse tables: a read after a write of the same key gives what was written, a write leaves every other key alone, and a write keeps the canonical form. -/

namespace Sys2Proof.Machine

variable {α : Type}

@[simp] theorem tabFind_nil (k : Nat) : tabFind k ([] : List (Nat × α)) = none := rfl

theorem tabFind_erase_same (k : Nat) (l : List (Nat × α)) : tabFind k (tabErase k l) = none := by
  induction l with
  | nil => rfl
  | cons c t ih =>
    by_cases h : c.1 = k
    · simp [tabErase, h, ih]
    · simp [tabErase, tabFind, h, ih]

theorem tabFind_erase_other {j k : Nat} (h : j ≠ k) (l : List (Nat × α)) : tabFind j (tabErase k l) = tabFind j l := by
  induction l with
  | nil => rfl
  | cons c t ih =>
    by_cases hk : c.1 = k
    · simp [tabErase, tabFind, hk, ih, Ne.symm h]
    · simp [tabErase, tabFind, hk, ih]

theorem tabFind_insert_same (k : Nat) (v : α) (l : List (Nat × α)) : tabFind k (tabInsert k v l) = some v := by
  induction l with
  | nil => simp [tabInsert, tabFind]
  | cons c t ih =>
    by_cases h1 : k < c.1
    · simp [tabInsert, tabFind, h1]
    · by_cases h2 : k = c.1
      · simp [tabInsert, tabFind, h2]
      · simp [tabInsert, tabFind, h1, h2, ih, Ne.symm h2]

theorem tabFind_insert_other {j k : Nat} (h : j ≠ k) (v : α) (l : List (Nat × α)) : tabFind j (tabInsert k v l) = tabFind j l := by
  induction l with
  | nil => simp [tabInsert, tabFind, Ne.symm h]
  | cons c t ih =>
    by_cases h1 : k < c.1
    · simp [tabInsert, tabFind, h1, Ne.symm h]
    · by_cases h2 : k = c.1
      · simp [tabInsert, tabFind, ← h2, Ne.symm h]
      · simp [tabInsert, tabFind, h1, h2, ih]

@[simp] theorem tabGetD_putD_same [DecidableEq α] (t : Tab α) (k : Nat) (d v : α) : tabGetD (tabPutD t k d v) k d = v := by
  by_cases h : v = d
  · simp [tabGetD, tabPutD, h, tabFind_erase_same]
  · simp [tabGetD, tabPutD, h, tabFind_insert_same]

theorem tabGetD_putD_other [DecidableEq α] {j k : Nat} (h : j ≠ k) (t : Tab α) (d d' v : α) :
    tabGetD (tabPutD t k d v) j d' = tabGetD t j d' := by
  by_cases hv : v = d
  · simp [tabGetD, tabPutD, hv, tabFind_erase_other h]
  · simp [tabGetD, tabPutD, hv, tabFind_insert_other h]

@[simp] theorem tabGet_put_same [DecidableEq α] [Inhabited α] (t : Tab α) (k : Nat) (v : α) : tabGet (tabPut t k v) k = v :=
  tabGetD_putD_same t k default v

theorem tabGet_put_other [DecidableEq α] [Inhabited α] {j k : Nat} (h : j ≠ k) (t : Tab α) (v : α) :
    tabGet (tabPut t k v) j = tabGet t j :=
  tabGetD_putD_other h t default default v

theorem tabGet_put [DecidableEq α] [Inhabited α] (t : Tab α) (j k : Nat) (v : α) :
    tabGet (tabPut t k v) j = if j = k then v else tabGet t j := by
  by_cases h : j = k
  · simp [h]
  · simp [h, tabGet_put_other h]

@[simp] theorem tabGet_nil [Inhabited α] (k : Nat) : tabGet (tabNil : Tab α) k = default := rfl

@[simp] theorem tabGetD_nil (k : Nat) (d : α) : tabGetD (tabNil : Tab α) k d = d := rfl

/-! ### The canonical form is kept -/

theorem tabErase_sublist (k : Nat) (l : List (Nat × α)) : (tabErase k l).Sublist l := by
  induction l with
  | nil => exact List.Sublist.slnil
  | cons c t ih =>
    by_cases h : c.1 = k
    · simpa [tabErase, h] using ih.cons c
    · simpa [tabErase, h] using ih.cons_cons c

theorem tabSorted_erase (k : Nat) {l : List (Nat × α)} (h : tabSorted l) : tabSorted (tabErase k l) :=
  h.sublist ((tabErase_sublist k l).map Prod.fst)

theorem tabInsert_keys {j k : Nat} {v : α} {l : List (Nat × α)} (h : j ∈ (tabInsert k v l).map Prod.fst) :
    j = k ∨ j ∈ l.map Prod.fst := by
  induction l with
  | nil => simpa [tabInsert] using h
  | cons c t ih =>
    by_cases h1 : k < c.1
    · simpa [tabInsert, h1] using h
    · by_cases h2 : k = c.1
      · simp only [tabInsert, h2, Nat.lt_irrefl, if_false, if_true, List.map_cons, List.mem_cons] at h ⊢
        rcases h with h | h
        · exact .inl h
        · exact .inr (.inr h)
      · simp only [tabInsert, h1, h2, if_false, List.map_cons, List.mem_cons] at h ⊢
        rcases h with h | h
        · exact .inr (.inl h)
        · rcases ih h with h | h
          · exact .inl h
          · exact .inr (.inr h)

theorem tabSorted_insert (k : Nat) (v : α) {l : List (Nat × α)} (h : tabSorted l) : tabSorted (tabInsert k v l) := by
  induction l with
  | nil => simp [tabSorted, tabInsert]
  | cons c t ih =>
    obtain ⟨a, w⟩ := c
    simp only [tabSorted, List.map_cons, List.pairwise_cons] at h
    by_cases h1 : k < a
    · simp only [tabInsert, h1, if_true, tabSorted, List.map_cons, List.pairwise_cons]
      refine ⟨fun j hj => ?_, h.1, h.2⟩
      rcases List.mem_cons.mp hj with rfl | hj
      · exact h1
      · exact Nat.lt_trans h1 (h.1 j hj)
    · by_cases h2 : k = a
      · subst h2
        simpa [tabInsert, tabSorted] using h
      · simp only [tabInsert, h1, h2, if_false, tabSorted, List.map_cons, List.pairwise_cons]
        refine ⟨fun j hj => ?_, ih h.2⟩
        rcases tabInsert_keys hj with rfl | hj
        · omega
        · exact h.1 j hj

theorem tabInsert_cells {c : Nat × α} {k : Nat} {v : α} {l : List (Nat × α)} (h : c ∈ tabInsert k v l) : c = (k, v) ∨ c ∈ l := by
  induction l with
  | nil => simpa [tabInsert] using h
  | cons d t ih =>
    by_cases h1 : k < d.1
    · simpa [tabInsert, h1] using h
    · by_cases h2 : k = d.1
      · simp only [tabInsert, h2, Nat.lt_irrefl, if_false, if_true, List.mem_cons] at h ⊢
        rcases h with h | h
        · exact .inl h
        · exact .inr (.inr h)
      · simp only [tabInsert, h1, h2, if_false, List.mem_cons] at h ⊢
        rcases h with h | h
        · exact .inr (.inl h)
        · rcases ih h with h | h
          · exact .inl h
          · exact .inr (.inr h)

/-- A write keeps the canonical form of a table. -/
theorem tabCanon_put [DecidableEq α] {t : Tab α} {d : α} (h : tabCanon d t) (k : Nat) (v : α) : tabCanon d (tabPutD t k d v) := by
  by_cases hv : v = d
  · simp only [tabPutD, hv, if_true]
    exact ⟨tabSorted_erase k h.1, fun c hc => h.2 c ((tabErase_sublist k t.cells).subset hc)⟩
  · simp only [tabPutD, hv, if_false]
    refine ⟨tabSorted_insert k v h.1, fun c hc => ?_⟩
    rcases tabInsert_cells hc with rfl | hc
    · exact hv
    · exact h.2 c hc

/-- The empty table is canonical. -/
theorem tabCanon_nil (d : α) : tabCanon d (tabNil : Tab α) := ⟨List.Pairwise.nil, fun _ h => absurd h List.not_mem_nil⟩

end Sys2Proof.Machine
end

