-- ==== Sys2Proof/Laws/State.lean ====
section
/-! SUPPORT. One lemma per field and update of the state: what each named update leaves as it was, and what it writes. Proofs cite these (they are simp lemmas) and unfold no record update. -/

namespace Sys2Proof.Machine

/-! ### putReg -/

@[simp] theorem putReg_v (u : Units) (r : Reg) (i j x : Nat) : (putReg u r i j x).v = u.v := rfl
@[simp] theorem putReg_now (u : Units) (r : Reg) (i j x : Nat) : (putReg u r i j x).now = u.now := rfl
@[simp] theorem putReg_fresh (u : Units) (r : Reg) (i j x : Nat) : (putReg u r i j x).fresh = u.fresh := rfl
@[simp] theorem putReg_out (u : Units) (r : Reg) (i j x : Nat) : (putReg u r i j x).out = u.out := rfl
@[simp] theorem putReg_ports (u : Units) (r : Reg) (i j x : Nat) : (putReg u r i j x).ports = u.ports := rfl
@[simp] theorem putReg_cache (u : Units) (r : Reg) (i j x : Nat) : (putReg u r i j x).cache = u.cache := rfl
@[simp] theorem putReg_ctxEven (u : Units) (r : Reg) (i j x : Nat) : (putReg u r i j x).ctxEven = u.ctxEven := rfl
@[simp] theorem putReg_ctxOdd (u : Units) (r : Reg) (i j x : Nat) : (putReg u r i j x).ctxOdd = u.ctxOdd := rfl
@[simp] theorem putReg_ctxStaged (u : Units) (r : Reg) (i j x : Nat) : (putReg u r i j x).ctxStaged = u.ctxStaged := rfl
@[simp] theorem putReg_flushSeq (u : Units) (r : Reg) (i j x : Nat) : (putReg u r i j x).flushSeq = u.flushSeq := rfl
@[simp] theorem putReg_keys (u : Units) (r : Reg) (i j x : Nat) : (putReg u r i j x).keys = u.keys := rfl
@[simp] theorem putReg_keyPort (u : Units) (r : Reg) (i j x : Nat) : (putReg u r i j x).keyPort = u.keyPort := rfl
@[simp] theorem putReg_net (u : Units) (r : Reg) (i j x : Nat) : (putReg u r i j x).net = u.net := rfl
@[simp] theorem putReg_nextPkt (u : Units) (r : Reg) (i j x : Nat) : (putReg u r i j x).nextPkt = u.nextPkt := rfl
@[simp] theorem putReg_stopped (u : Units) (r : Reg) (i j x : Nat) : (putReg u r i j x).stopped = u.stopped := rfl
@[simp] theorem putReg_tickets (u : Units) (r : Reg) (i j x : Nat) : (putReg u r i j x).tickets = u.tickets := rfl
@[simp] theorem putReg_slotMode (u : Units) (r : Reg) (i j x : Nat) : (putReg u r i j x).slotMode = u.slotMode := rfl
@[simp] theorem putReg_slices (u : Units) (r : Reg) (i j x : Nat) : (putReg u r i j x).slices = u.slices := rfl
@[simp] theorem putReg_stg (u : Units) (r : Reg) (i j x : Nat) : (putReg u r i j x).stg = u.stg := rfl
@[simp] theorem putReg_rings (u : Units) (r : Reg) (i j x : Nat) : (putReg u r i j x).rings = u.rings := rfl
@[simp] theorem putReg_tele (u : Units) (r : Reg) (i j x : Nat) : (putReg u r i j x).tele = u.tele := rfl
@[simp] theorem putReg_pd (u : Units) (r : Reg) (i j x : Nat) : (putReg u r i j x).pd = u.pd := rfl
@[simp] theorem putReg_fences (u : Units) (r : Reg) (i j x : Nat) : (putReg u r i j x).fences = u.fences := rfl
@[simp] theorem putReg_ddr (u : Units) (r : Reg) (i j x : Nat) : (putReg u r i j x).ddr = u.ddr := rfl
@[simp] theorem putReg_hng (u : Units) (r : Reg) (i j x : Nat) : (putReg u r i j x).hng = u.hng := rfl
@[simp] theorem putReg_drf (u : Units) (r : Reg) (i j x : Nat) : (putReg u r i j x).drf = u.drf := rfl
@[simp] theorem putReg_keep (u : Units) (r : Reg) (i j x : Nat) : (putReg u r i j x).keep = u.keep := rfl
@[simp] theorem putReg_media (u : Units) (r : Reg) (i j x : Nat) : (putReg u r i j x).media = u.media := rfl
@[simp] theorem putReg_cex (u : Units) (r : Reg) (i j x : Nat) : (putReg u r i j x).cex = u.cex := rfl
@[simp] theorem putReg_grp (u : Units) (r : Reg) (i j x : Nat) : (putReg u r i j x).grp = u.grp := rfl
@[simp] theorem putReg_repairs (u : Units) (r : Reg) (i j x : Nat) : (putReg u r i j x).repairs = u.repairs := rfl
@[simp] theorem putReg_patchLog (u : Units) (r : Reg) (i j x : Nat) : (putReg u r i j x).patchLog = u.patchLog := rfl
@[simp] theorem putReg_adm (u : Units) (r : Reg) (i j x : Nat) : (putReg u r i j x).adm = u.adm := rfl
@[simp] theorem putReg_arbs (u : Units) (r : Reg) (i j x : Nat) : (putReg u r i j x).arbs = u.arbs := rfl
@[simp] theorem putReg_audit (u : Units) (r : Reg) (i j x : Nat) : (putReg u r i j x).audit = u.audit := rfl
@[simp] theorem putReg_pwr (u : Units) (r : Reg) (i j x : Nat) : (putReg u r i j x).pwr = u.pwr := rfl
@[simp] theorem putReg_boot (u : Units) (r : Reg) (i j x : Nat) : (putReg u r i j x).boot = u.boot := rfl
@[simp] theorem putReg_tap (u : Units) (r : Reg) (i j x : Nat) : (putReg u r i j x).tap = u.tap := rfl
@[simp] theorem putReg_badCtx (u : Units) (r : Reg) (i j x : Nat) : (putReg u r i j x).badCtx = u.badCtx := rfl
@[simp] theorem putReg_ctxRead (u : Units) (r : Reg) (i j x : Nat) : (putReg u r i j x).ctxRead = u.ctxRead := rfl
@[simp] theorem putReg_regs_staged (u : Units) (r : Reg) (i j x : Nat) : (putReg u r i j x).regs.staged = u.regs.staged := rfl
@[simp] theorem putReg_regs_bankA (u : Units) (r : Reg) (i j x : Nat) : (putReg u r i j x).regs.bankA = u.regs.bankA := rfl
@[simp] theorem putReg_regs_bankB (u : Units) (r : Reg) (i j x : Nat) : (putReg u r i j x).regs.bankB = u.regs.bankB := rfl
@[simp] theorem putReg_regs_descStaged (u : Units) (r : Reg) (i j x : Nat) : (putReg u r i j x).regs.descStaged = u.regs.descStaged := rfl
@[simp] theorem putReg_regs_epoch (u : Units) (r : Reg) (i j x : Nat) : (putReg u r i j x).regs.epoch = u.regs.epoch := rfl
@[simp] theorem putReg_regs_pending (u : Units) (r : Reg) (i j x : Nat) : (putReg u r i j x).regs.pending = u.regs.pending := rfl
@[simp] theorem putReg_regs_deferred (u : Units) (r : Reg) (i j x : Nat) : (putReg u r i j x).regs.deferred = u.regs.deferred := rfl
@[simp] theorem putReg_regs_defers (u : Units) (r : Reg) (i j x : Nat) : (putReg u r i j x).regs.defers = u.regs.defers := rfl
@[simp] theorem putReg_regs_lateSeen (u : Units) (r : Reg) (i j x : Nat) : (putReg u r i j x).regs.lateSeen = u.regs.lateSeen := rfl
@[simp] theorem putReg_regs_advances (u : Units) (r : Reg) (i j x : Nat) : (putReg u r i j x).regs.advances = u.regs.advances := rfl
@[simp] theorem putReg_regs_banked (u : Units) (r : Reg) (i j x : Nat) : (putReg u r i j x).regs.banked = u.regs.banked := rfl

/-! ### putStaged -/

@[simp] theorem putStaged_v (u : Units) (r : Reg) (i j x : Nat) : (putStaged u r i j x).v = u.v := rfl
@[simp] theorem putStaged_now (u : Units) (r : Reg) (i j x : Nat) : (putStaged u r i j x).now = u.now := rfl
@[simp] theorem putStaged_fresh (u : Units) (r : Reg) (i j x : Nat) : (putStaged u r i j x).fresh = u.fresh := rfl
@[simp] theorem putStaged_out (u : Units) (r : Reg) (i j x : Nat) : (putStaged u r i j x).out = u.out := rfl
@[simp] theorem putStaged_ports (u : Units) (r : Reg) (i j x : Nat) : (putStaged u r i j x).ports = u.ports := rfl
@[simp] theorem putStaged_cache (u : Units) (r : Reg) (i j x : Nat) : (putStaged u r i j x).cache = u.cache := rfl
@[simp] theorem putStaged_ctxEven (u : Units) (r : Reg) (i j x : Nat) : (putStaged u r i j x).ctxEven = u.ctxEven := rfl
@[simp] theorem putStaged_ctxOdd (u : Units) (r : Reg) (i j x : Nat) : (putStaged u r i j x).ctxOdd = u.ctxOdd := rfl
@[simp] theorem putStaged_ctxStaged (u : Units) (r : Reg) (i j x : Nat) : (putStaged u r i j x).ctxStaged = u.ctxStaged := rfl
@[simp] theorem putStaged_flushSeq (u : Units) (r : Reg) (i j x : Nat) : (putStaged u r i j x).flushSeq = u.flushSeq := rfl
@[simp] theorem putStaged_keys (u : Units) (r : Reg) (i j x : Nat) : (putStaged u r i j x).keys = u.keys := rfl
@[simp] theorem putStaged_keyPort (u : Units) (r : Reg) (i j x : Nat) : (putStaged u r i j x).keyPort = u.keyPort := rfl
@[simp] theorem putStaged_net (u : Units) (r : Reg) (i j x : Nat) : (putStaged u r i j x).net = u.net := rfl
@[simp] theorem putStaged_nextPkt (u : Units) (r : Reg) (i j x : Nat) : (putStaged u r i j x).nextPkt = u.nextPkt := rfl
@[simp] theorem putStaged_stopped (u : Units) (r : Reg) (i j x : Nat) : (putStaged u r i j x).stopped = u.stopped := rfl
@[simp] theorem putStaged_tickets (u : Units) (r : Reg) (i j x : Nat) : (putStaged u r i j x).tickets = u.tickets := rfl
@[simp] theorem putStaged_slotMode (u : Units) (r : Reg) (i j x : Nat) : (putStaged u r i j x).slotMode = u.slotMode := rfl
@[simp] theorem putStaged_slices (u : Units) (r : Reg) (i j x : Nat) : (putStaged u r i j x).slices = u.slices := rfl
@[simp] theorem putStaged_stg (u : Units) (r : Reg) (i j x : Nat) : (putStaged u r i j x).stg = u.stg := rfl
@[simp] theorem putStaged_rings (u : Units) (r : Reg) (i j x : Nat) : (putStaged u r i j x).rings = u.rings := rfl
@[simp] theorem putStaged_tele (u : Units) (r : Reg) (i j x : Nat) : (putStaged u r i j x).tele = u.tele := rfl
@[simp] theorem putStaged_pd (u : Units) (r : Reg) (i j x : Nat) : (putStaged u r i j x).pd = u.pd := rfl
@[simp] theorem putStaged_fences (u : Units) (r : Reg) (i j x : Nat) : (putStaged u r i j x).fences = u.fences := rfl
@[simp] theorem putStaged_ddr (u : Units) (r : Reg) (i j x : Nat) : (putStaged u r i j x).ddr = u.ddr := rfl
@[simp] theorem putStaged_hng (u : Units) (r : Reg) (i j x : Nat) : (putStaged u r i j x).hng = u.hng := rfl
@[simp] theorem putStaged_drf (u : Units) (r : Reg) (i j x : Nat) : (putStaged u r i j x).drf = u.drf := rfl
@[simp] theorem putStaged_keep (u : Units) (r : Reg) (i j x : Nat) : (putStaged u r i j x).keep = u.keep := rfl
@[simp] theorem putStaged_media (u : Units) (r : Reg) (i j x : Nat) : (putStaged u r i j x).media = u.media := rfl
@[simp] theorem putStaged_cex (u : Units) (r : Reg) (i j x : Nat) : (putStaged u r i j x).cex = u.cex := rfl
@[simp] theorem putStaged_grp (u : Units) (r : Reg) (i j x : Nat) : (putStaged u r i j x).grp = u.grp := rfl
@[simp] theorem putStaged_repairs (u : Units) (r : Reg) (i j x : Nat) : (putStaged u r i j x).repairs = u.repairs := rfl
@[simp] theorem putStaged_patchLog (u : Units) (r : Reg) (i j x : Nat) : (putStaged u r i j x).patchLog = u.patchLog := rfl
@[simp] theorem putStaged_adm (u : Units) (r : Reg) (i j x : Nat) : (putStaged u r i j x).adm = u.adm := rfl
@[simp] theorem putStaged_arbs (u : Units) (r : Reg) (i j x : Nat) : (putStaged u r i j x).arbs = u.arbs := rfl
@[simp] theorem putStaged_audit (u : Units) (r : Reg) (i j x : Nat) : (putStaged u r i j x).audit = u.audit := rfl
@[simp] theorem putStaged_pwr (u : Units) (r : Reg) (i j x : Nat) : (putStaged u r i j x).pwr = u.pwr := rfl
@[simp] theorem putStaged_boot (u : Units) (r : Reg) (i j x : Nat) : (putStaged u r i j x).boot = u.boot := rfl
@[simp] theorem putStaged_tap (u : Units) (r : Reg) (i j x : Nat) : (putStaged u r i j x).tap = u.tap := rfl
@[simp] theorem putStaged_badCtx (u : Units) (r : Reg) (i j x : Nat) : (putStaged u r i j x).badCtx = u.badCtx := rfl
@[simp] theorem putStaged_ctxRead (u : Units) (r : Reg) (i j x : Nat) : (putStaged u r i j x).ctxRead = u.ctxRead := rfl
@[simp] theorem putStaged_regs_cur (u : Units) (r : Reg) (i j x : Nat) : (putStaged u r i j x).regs.cur = u.regs.cur := rfl
@[simp] theorem putStaged_regs_bankA (u : Units) (r : Reg) (i j x : Nat) : (putStaged u r i j x).regs.bankA = u.regs.bankA := rfl
@[simp] theorem putStaged_regs_bankB (u : Units) (r : Reg) (i j x : Nat) : (putStaged u r i j x).regs.bankB = u.regs.bankB := rfl
@[simp] theorem putStaged_regs_descStaged (u : Units) (r : Reg) (i j x : Nat) : (putStaged u r i j x).regs.descStaged = u.regs.descStaged := rfl
@[simp] theorem putStaged_regs_epoch (u : Units) (r : Reg) (i j x : Nat) : (putStaged u r i j x).regs.epoch = u.regs.epoch := rfl
@[simp] theorem putStaged_regs_pending (u : Units) (r : Reg) (i j x : Nat) : (putStaged u r i j x).regs.pending = u.regs.pending := rfl
@[simp] theorem putStaged_regs_deferred (u : Units) (r : Reg) (i j x : Nat) : (putStaged u r i j x).regs.deferred = u.regs.deferred := rfl
@[simp] theorem putStaged_regs_defers (u : Units) (r : Reg) (i j x : Nat) : (putStaged u r i j x).regs.defers = u.regs.defers := rfl
@[simp] theorem putStaged_regs_lateSeen (u : Units) (r : Reg) (i j x : Nat) : (putStaged u r i j x).regs.lateSeen = u.regs.lateSeen := rfl
@[simp] theorem putStaged_regs_advances (u : Units) (r : Reg) (i j x : Nat) : (putStaged u r i j x).regs.advances = u.regs.advances := rfl
@[simp] theorem putStaged_regs_banked (u : Units) (r : Reg) (i j x : Nat) : (putStaged u r i j x).regs.banked = u.regs.banked := rfl

/-! ### putF -/

@[simp] theorem putF_v (u : Units) (f : Fld) (i j x : Nat) : (putF u f i j x).v = u.v := rfl
@[simp] theorem putF_now (u : Units) (f : Fld) (i j x : Nat) : (putF u f i j x).now = u.now := rfl
@[simp] theorem putF_fresh (u : Units) (f : Fld) (i j x : Nat) : (putF u f i j x).fresh = u.fresh := rfl
@[simp] theorem putF_out (u : Units) (f : Fld) (i j x : Nat) : (putF u f i j x).out = u.out := rfl
@[simp] theorem putF_ports (u : Units) (f : Fld) (i j x : Nat) : (putF u f i j x).ports = u.ports := rfl
@[simp] theorem putF_cache (u : Units) (f : Fld) (i j x : Nat) : (putF u f i j x).cache = u.cache := rfl
@[simp] theorem putF_ctxEven (u : Units) (f : Fld) (i j x : Nat) : (putF u f i j x).ctxEven = u.ctxEven := rfl
@[simp] theorem putF_ctxOdd (u : Units) (f : Fld) (i j x : Nat) : (putF u f i j x).ctxOdd = u.ctxOdd := rfl
@[simp] theorem putF_ctxStaged (u : Units) (f : Fld) (i j x : Nat) : (putF u f i j x).ctxStaged = u.ctxStaged := rfl
@[simp] theorem putF_flushSeq (u : Units) (f : Fld) (i j x : Nat) : (putF u f i j x).flushSeq = u.flushSeq := rfl
@[simp] theorem putF_keys (u : Units) (f : Fld) (i j x : Nat) : (putF u f i j x).keys = u.keys := rfl
@[simp] theorem putF_keyPort (u : Units) (f : Fld) (i j x : Nat) : (putF u f i j x).keyPort = u.keyPort := rfl
@[simp] theorem putF_net (u : Units) (f : Fld) (i j x : Nat) : (putF u f i j x).net = u.net := rfl
@[simp] theorem putF_nextPkt (u : Units) (f : Fld) (i j x : Nat) : (putF u f i j x).nextPkt = u.nextPkt := rfl
@[simp] theorem putF_stopped (u : Units) (f : Fld) (i j x : Nat) : (putF u f i j x).stopped = u.stopped := rfl
@[simp] theorem putF_tickets (u : Units) (f : Fld) (i j x : Nat) : (putF u f i j x).tickets = u.tickets := rfl
@[simp] theorem putF_slotMode (u : Units) (f : Fld) (i j x : Nat) : (putF u f i j x).slotMode = u.slotMode := rfl
@[simp] theorem putF_slices (u : Units) (f : Fld) (i j x : Nat) : (putF u f i j x).slices = u.slices := rfl
@[simp] theorem putF_stg (u : Units) (f : Fld) (i j x : Nat) : (putF u f i j x).stg = u.stg := rfl
@[simp] theorem putF_rings (u : Units) (f : Fld) (i j x : Nat) : (putF u f i j x).rings = u.rings := rfl
@[simp] theorem putF_tele (u : Units) (f : Fld) (i j x : Nat) : (putF u f i j x).tele = u.tele := rfl
@[simp] theorem putF_pd (u : Units) (f : Fld) (i j x : Nat) : (putF u f i j x).pd = u.pd := rfl
@[simp] theorem putF_fences (u : Units) (f : Fld) (i j x : Nat) : (putF u f i j x).fences = u.fences := rfl
@[simp] theorem putF_ddr (u : Units) (f : Fld) (i j x : Nat) : (putF u f i j x).ddr = u.ddr := rfl
@[simp] theorem putF_hng (u : Units) (f : Fld) (i j x : Nat) : (putF u f i j x).hng = u.hng := rfl
@[simp] theorem putF_drf (u : Units) (f : Fld) (i j x : Nat) : (putF u f i j x).drf = u.drf := rfl
@[simp] theorem putF_keep (u : Units) (f : Fld) (i j x : Nat) : (putF u f i j x).keep = u.keep := rfl
@[simp] theorem putF_media (u : Units) (f : Fld) (i j x : Nat) : (putF u f i j x).media = u.media := rfl
@[simp] theorem putF_cex (u : Units) (f : Fld) (i j x : Nat) : (putF u f i j x).cex = u.cex := rfl
@[simp] theorem putF_grp (u : Units) (f : Fld) (i j x : Nat) : (putF u f i j x).grp = u.grp := rfl
@[simp] theorem putF_repairs (u : Units) (f : Fld) (i j x : Nat) : (putF u f i j x).repairs = u.repairs := rfl
@[simp] theorem putF_patchLog (u : Units) (f : Fld) (i j x : Nat) : (putF u f i j x).patchLog = u.patchLog := rfl
@[simp] theorem putF_adm (u : Units) (f : Fld) (i j x : Nat) : (putF u f i j x).adm = u.adm := rfl
@[simp] theorem putF_arbs (u : Units) (f : Fld) (i j x : Nat) : (putF u f i j x).arbs = u.arbs := rfl
@[simp] theorem putF_audit (u : Units) (f : Fld) (i j x : Nat) : (putF u f i j x).audit = u.audit := rfl
@[simp] theorem putF_pwr (u : Units) (f : Fld) (i j x : Nat) : (putF u f i j x).pwr = u.pwr := rfl
@[simp] theorem putF_boot (u : Units) (f : Fld) (i j x : Nat) : (putF u f i j x).boot = u.boot := rfl
@[simp] theorem putF_tap (u : Units) (f : Fld) (i j x : Nat) : (putF u f i j x).tap = u.tap := rfl
@[simp] theorem putF_badCtx (u : Units) (f : Fld) (i j x : Nat) : (putF u f i j x).badCtx = u.badCtx := rfl
@[simp] theorem putF_ctxRead (u : Units) (f : Fld) (i j x : Nat) : (putF u f i j x).ctxRead = u.ctxRead := rfl
@[simp] theorem putF_regs_staged (u : Units) (f : Fld) (i j x : Nat) : (putF u f i j x).regs.staged = u.regs.staged := rfl
@[simp] theorem putF_regs_bankA (u : Units) (f : Fld) (i j x : Nat) : (putF u f i j x).regs.bankA = u.regs.bankA := rfl
@[simp] theorem putF_regs_bankB (u : Units) (f : Fld) (i j x : Nat) : (putF u f i j x).regs.bankB = u.regs.bankB := rfl
@[simp] theorem putF_regs_descStaged (u : Units) (f : Fld) (i j x : Nat) : (putF u f i j x).regs.descStaged = u.regs.descStaged := rfl
@[simp] theorem putF_regs_epoch (u : Units) (f : Fld) (i j x : Nat) : (putF u f i j x).regs.epoch = u.regs.epoch := rfl
@[simp] theorem putF_regs_pending (u : Units) (f : Fld) (i j x : Nat) : (putF u f i j x).regs.pending = u.regs.pending := rfl
@[simp] theorem putF_regs_deferred (u : Units) (f : Fld) (i j x : Nat) : (putF u f i j x).regs.deferred = u.regs.deferred := rfl
@[simp] theorem putF_regs_defers (u : Units) (f : Fld) (i j x : Nat) : (putF u f i j x).regs.defers = u.regs.defers := rfl
@[simp] theorem putF_regs_lateSeen (u : Units) (f : Fld) (i j x : Nat) : (putF u f i j x).regs.lateSeen = u.regs.lateSeen := rfl
@[simp] theorem putF_regs_advances (u : Units) (f : Fld) (i j x : Nat) : (putF u f i j x).regs.advances = u.regs.advances := rfl
@[simp] theorem putF_regs_banked (u : Units) (f : Fld) (i j x : Nat) : (putF u f i j x).regs.banked = u.regs.banked := rfl

/-! ### flag -/

@[simp] theorem flag_v (u : Units) (f : Fld) (i j : Nat) : (flag u f i j).v = u.v := rfl
@[simp] theorem flag_now (u : Units) (f : Fld) (i j : Nat) : (flag u f i j).now = u.now := rfl
@[simp] theorem flag_fresh (u : Units) (f : Fld) (i j : Nat) : (flag u f i j).fresh = u.fresh := rfl
@[simp] theorem flag_out (u : Units) (f : Fld) (i j : Nat) : (flag u f i j).out = u.out := rfl
@[simp] theorem flag_ports (u : Units) (f : Fld) (i j : Nat) : (flag u f i j).ports = u.ports := rfl
@[simp] theorem flag_cache (u : Units) (f : Fld) (i j : Nat) : (flag u f i j).cache = u.cache := rfl
@[simp] theorem flag_ctxEven (u : Units) (f : Fld) (i j : Nat) : (flag u f i j).ctxEven = u.ctxEven := rfl
@[simp] theorem flag_ctxOdd (u : Units) (f : Fld) (i j : Nat) : (flag u f i j).ctxOdd = u.ctxOdd := rfl
@[simp] theorem flag_ctxStaged (u : Units) (f : Fld) (i j : Nat) : (flag u f i j).ctxStaged = u.ctxStaged := rfl
@[simp] theorem flag_flushSeq (u : Units) (f : Fld) (i j : Nat) : (flag u f i j).flushSeq = u.flushSeq := rfl
@[simp] theorem flag_keys (u : Units) (f : Fld) (i j : Nat) : (flag u f i j).keys = u.keys := rfl
@[simp] theorem flag_keyPort (u : Units) (f : Fld) (i j : Nat) : (flag u f i j).keyPort = u.keyPort := rfl
@[simp] theorem flag_net (u : Units) (f : Fld) (i j : Nat) : (flag u f i j).net = u.net := rfl
@[simp] theorem flag_nextPkt (u : Units) (f : Fld) (i j : Nat) : (flag u f i j).nextPkt = u.nextPkt := rfl
@[simp] theorem flag_stopped (u : Units) (f : Fld) (i j : Nat) : (flag u f i j).stopped = u.stopped := rfl
@[simp] theorem flag_tickets (u : Units) (f : Fld) (i j : Nat) : (flag u f i j).tickets = u.tickets := rfl
@[simp] theorem flag_slotMode (u : Units) (f : Fld) (i j : Nat) : (flag u f i j).slotMode = u.slotMode := rfl
@[simp] theorem flag_slices (u : Units) (f : Fld) (i j : Nat) : (flag u f i j).slices = u.slices := rfl
@[simp] theorem flag_stg (u : Units) (f : Fld) (i j : Nat) : (flag u f i j).stg = u.stg := rfl
@[simp] theorem flag_rings (u : Units) (f : Fld) (i j : Nat) : (flag u f i j).rings = u.rings := rfl
@[simp] theorem flag_tele (u : Units) (f : Fld) (i j : Nat) : (flag u f i j).tele = u.tele := rfl
@[simp] theorem flag_pd (u : Units) (f : Fld) (i j : Nat) : (flag u f i j).pd = u.pd := rfl
@[simp] theorem flag_fences (u : Units) (f : Fld) (i j : Nat) : (flag u f i j).fences = u.fences := rfl
@[simp] theorem flag_ddr (u : Units) (f : Fld) (i j : Nat) : (flag u f i j).ddr = u.ddr := rfl
@[simp] theorem flag_hng (u : Units) (f : Fld) (i j : Nat) : (flag u f i j).hng = u.hng := rfl
@[simp] theorem flag_drf (u : Units) (f : Fld) (i j : Nat) : (flag u f i j).drf = u.drf := rfl
@[simp] theorem flag_keep (u : Units) (f : Fld) (i j : Nat) : (flag u f i j).keep = u.keep := rfl
@[simp] theorem flag_media (u : Units) (f : Fld) (i j : Nat) : (flag u f i j).media = u.media := rfl
@[simp] theorem flag_cex (u : Units) (f : Fld) (i j : Nat) : (flag u f i j).cex = u.cex := rfl
@[simp] theorem flag_grp (u : Units) (f : Fld) (i j : Nat) : (flag u f i j).grp = u.grp := rfl
@[simp] theorem flag_repairs (u : Units) (f : Fld) (i j : Nat) : (flag u f i j).repairs = u.repairs := rfl
@[simp] theorem flag_patchLog (u : Units) (f : Fld) (i j : Nat) : (flag u f i j).patchLog = u.patchLog := rfl
@[simp] theorem flag_adm (u : Units) (f : Fld) (i j : Nat) : (flag u f i j).adm = u.adm := rfl
@[simp] theorem flag_arbs (u : Units) (f : Fld) (i j : Nat) : (flag u f i j).arbs = u.arbs := rfl
@[simp] theorem flag_audit (u : Units) (f : Fld) (i j : Nat) : (flag u f i j).audit = u.audit := rfl
@[simp] theorem flag_pwr (u : Units) (f : Fld) (i j : Nat) : (flag u f i j).pwr = u.pwr := rfl
@[simp] theorem flag_boot (u : Units) (f : Fld) (i j : Nat) : (flag u f i j).boot = u.boot := rfl
@[simp] theorem flag_tap (u : Units) (f : Fld) (i j : Nat) : (flag u f i j).tap = u.tap := rfl
@[simp] theorem flag_badCtx (u : Units) (f : Fld) (i j : Nat) : (flag u f i j).badCtx = u.badCtx := rfl
@[simp] theorem flag_ctxRead (u : Units) (f : Fld) (i j : Nat) : (flag u f i j).ctxRead = u.ctxRead := rfl
@[simp] theorem flag_regs_staged (u : Units) (f : Fld) (i j : Nat) : (flag u f i j).regs.staged = u.regs.staged := rfl
@[simp] theorem flag_regs_bankA (u : Units) (f : Fld) (i j : Nat) : (flag u f i j).regs.bankA = u.regs.bankA := rfl
@[simp] theorem flag_regs_bankB (u : Units) (f : Fld) (i j : Nat) : (flag u f i j).regs.bankB = u.regs.bankB := rfl
@[simp] theorem flag_regs_descStaged (u : Units) (f : Fld) (i j : Nat) : (flag u f i j).regs.descStaged = u.regs.descStaged := rfl
@[simp] theorem flag_regs_epoch (u : Units) (f : Fld) (i j : Nat) : (flag u f i j).regs.epoch = u.regs.epoch := rfl
@[simp] theorem flag_regs_pending (u : Units) (f : Fld) (i j : Nat) : (flag u f i j).regs.pending = u.regs.pending := rfl
@[simp] theorem flag_regs_deferred (u : Units) (f : Fld) (i j : Nat) : (flag u f i j).regs.deferred = u.regs.deferred := rfl
@[simp] theorem flag_regs_defers (u : Units) (f : Fld) (i j : Nat) : (flag u f i j).regs.defers = u.regs.defers := rfl
@[simp] theorem flag_regs_lateSeen (u : Units) (f : Fld) (i j : Nat) : (flag u f i j).regs.lateSeen = u.regs.lateSeen := rfl
@[simp] theorem flag_regs_advances (u : Units) (f : Fld) (i j : Nat) : (flag u f i j).regs.advances = u.regs.advances := rfl
@[simp] theorem flag_regs_banked (u : Units) (f : Fld) (i j : Nat) : (flag u f i j).regs.banked = u.regs.banked := rfl

/-! ### addSat -/

@[simp] theorem addSat_v (u : Units) (f : Fld) (i j n : Nat) : (addSat u f i j n).v = u.v := rfl
@[simp] theorem addSat_now (u : Units) (f : Fld) (i j n : Nat) : (addSat u f i j n).now = u.now := rfl
@[simp] theorem addSat_fresh (u : Units) (f : Fld) (i j n : Nat) : (addSat u f i j n).fresh = u.fresh := rfl
@[simp] theorem addSat_out (u : Units) (f : Fld) (i j n : Nat) : (addSat u f i j n).out = u.out := rfl
@[simp] theorem addSat_ports (u : Units) (f : Fld) (i j n : Nat) : (addSat u f i j n).ports = u.ports := rfl
@[simp] theorem addSat_cache (u : Units) (f : Fld) (i j n : Nat) : (addSat u f i j n).cache = u.cache := rfl
@[simp] theorem addSat_ctxEven (u : Units) (f : Fld) (i j n : Nat) : (addSat u f i j n).ctxEven = u.ctxEven := rfl
@[simp] theorem addSat_ctxOdd (u : Units) (f : Fld) (i j n : Nat) : (addSat u f i j n).ctxOdd = u.ctxOdd := rfl
@[simp] theorem addSat_ctxStaged (u : Units) (f : Fld) (i j n : Nat) : (addSat u f i j n).ctxStaged = u.ctxStaged := rfl
@[simp] theorem addSat_flushSeq (u : Units) (f : Fld) (i j n : Nat) : (addSat u f i j n).flushSeq = u.flushSeq := rfl
@[simp] theorem addSat_keys (u : Units) (f : Fld) (i j n : Nat) : (addSat u f i j n).keys = u.keys := rfl
@[simp] theorem addSat_keyPort (u : Units) (f : Fld) (i j n : Nat) : (addSat u f i j n).keyPort = u.keyPort := rfl
@[simp] theorem addSat_net (u : Units) (f : Fld) (i j n : Nat) : (addSat u f i j n).net = u.net := rfl
@[simp] theorem addSat_nextPkt (u : Units) (f : Fld) (i j n : Nat) : (addSat u f i j n).nextPkt = u.nextPkt := rfl
@[simp] theorem addSat_stopped (u : Units) (f : Fld) (i j n : Nat) : (addSat u f i j n).stopped = u.stopped := rfl
@[simp] theorem addSat_tickets (u : Units) (f : Fld) (i j n : Nat) : (addSat u f i j n).tickets = u.tickets := rfl
@[simp] theorem addSat_slotMode (u : Units) (f : Fld) (i j n : Nat) : (addSat u f i j n).slotMode = u.slotMode := rfl
@[simp] theorem addSat_slices (u : Units) (f : Fld) (i j n : Nat) : (addSat u f i j n).slices = u.slices := rfl
@[simp] theorem addSat_stg (u : Units) (f : Fld) (i j n : Nat) : (addSat u f i j n).stg = u.stg := rfl
@[simp] theorem addSat_rings (u : Units) (f : Fld) (i j n : Nat) : (addSat u f i j n).rings = u.rings := rfl
@[simp] theorem addSat_tele (u : Units) (f : Fld) (i j n : Nat) : (addSat u f i j n).tele = u.tele := rfl
@[simp] theorem addSat_pd (u : Units) (f : Fld) (i j n : Nat) : (addSat u f i j n).pd = u.pd := rfl
@[simp] theorem addSat_fences (u : Units) (f : Fld) (i j n : Nat) : (addSat u f i j n).fences = u.fences := rfl
@[simp] theorem addSat_ddr (u : Units) (f : Fld) (i j n : Nat) : (addSat u f i j n).ddr = u.ddr := rfl
@[simp] theorem addSat_hng (u : Units) (f : Fld) (i j n : Nat) : (addSat u f i j n).hng = u.hng := rfl
@[simp] theorem addSat_drf (u : Units) (f : Fld) (i j n : Nat) : (addSat u f i j n).drf = u.drf := rfl
@[simp] theorem addSat_keep (u : Units) (f : Fld) (i j n : Nat) : (addSat u f i j n).keep = u.keep := rfl
@[simp] theorem addSat_media (u : Units) (f : Fld) (i j n : Nat) : (addSat u f i j n).media = u.media := rfl
@[simp] theorem addSat_cex (u : Units) (f : Fld) (i j n : Nat) : (addSat u f i j n).cex = u.cex := rfl
@[simp] theorem addSat_grp (u : Units) (f : Fld) (i j n : Nat) : (addSat u f i j n).grp = u.grp := rfl
@[simp] theorem addSat_repairs (u : Units) (f : Fld) (i j n : Nat) : (addSat u f i j n).repairs = u.repairs := rfl
@[simp] theorem addSat_patchLog (u : Units) (f : Fld) (i j n : Nat) : (addSat u f i j n).patchLog = u.patchLog := rfl
@[simp] theorem addSat_adm (u : Units) (f : Fld) (i j n : Nat) : (addSat u f i j n).adm = u.adm := rfl
@[simp] theorem addSat_arbs (u : Units) (f : Fld) (i j n : Nat) : (addSat u f i j n).arbs = u.arbs := rfl
@[simp] theorem addSat_audit (u : Units) (f : Fld) (i j n : Nat) : (addSat u f i j n).audit = u.audit := rfl
@[simp] theorem addSat_pwr (u : Units) (f : Fld) (i j n : Nat) : (addSat u f i j n).pwr = u.pwr := rfl
@[simp] theorem addSat_boot (u : Units) (f : Fld) (i j n : Nat) : (addSat u f i j n).boot = u.boot := rfl
@[simp] theorem addSat_tap (u : Units) (f : Fld) (i j n : Nat) : (addSat u f i j n).tap = u.tap := rfl
@[simp] theorem addSat_badCtx (u : Units) (f : Fld) (i j n : Nat) : (addSat u f i j n).badCtx = u.badCtx := rfl
@[simp] theorem addSat_ctxRead (u : Units) (f : Fld) (i j n : Nat) : (addSat u f i j n).ctxRead = u.ctxRead := rfl
@[simp] theorem addSat_regs_staged (u : Units) (f : Fld) (i j n : Nat) : (addSat u f i j n).regs.staged = u.regs.staged := rfl
@[simp] theorem addSat_regs_bankA (u : Units) (f : Fld) (i j n : Nat) : (addSat u f i j n).regs.bankA = u.regs.bankA := rfl
@[simp] theorem addSat_regs_bankB (u : Units) (f : Fld) (i j n : Nat) : (addSat u f i j n).regs.bankB = u.regs.bankB := rfl
@[simp] theorem addSat_regs_descStaged (u : Units) (f : Fld) (i j n : Nat) : (addSat u f i j n).regs.descStaged = u.regs.descStaged := rfl
@[simp] theorem addSat_regs_epoch (u : Units) (f : Fld) (i j n : Nat) : (addSat u f i j n).regs.epoch = u.regs.epoch := rfl
@[simp] theorem addSat_regs_pending (u : Units) (f : Fld) (i j n : Nat) : (addSat u f i j n).regs.pending = u.regs.pending := rfl
@[simp] theorem addSat_regs_deferred (u : Units) (f : Fld) (i j n : Nat) : (addSat u f i j n).regs.deferred = u.regs.deferred := rfl
@[simp] theorem addSat_regs_defers (u : Units) (f : Fld) (i j n : Nat) : (addSat u f i j n).regs.defers = u.regs.defers := rfl
@[simp] theorem addSat_regs_lateSeen (u : Units) (f : Fld) (i j n : Nat) : (addSat u f i j n).regs.lateSeen = u.regs.lateSeen := rfl
@[simp] theorem addSat_regs_advances (u : Units) (f : Fld) (i j n : Nat) : (addSat u f i j n).regs.advances = u.regs.advances := rfl
@[simp] theorem addSat_regs_banked (u : Units) (f : Fld) (i j n : Nat) : (addSat u f i j n).regs.banked = u.regs.banked := rfl

/-! ### addMod -/

@[simp] theorem addMod_v (u : Units) (f : Fld) (i j n : Nat) : (addMod u f i j n).v = u.v := rfl
@[simp] theorem addMod_now (u : Units) (f : Fld) (i j n : Nat) : (addMod u f i j n).now = u.now := rfl
@[simp] theorem addMod_fresh (u : Units) (f : Fld) (i j n : Nat) : (addMod u f i j n).fresh = u.fresh := rfl
@[simp] theorem addMod_out (u : Units) (f : Fld) (i j n : Nat) : (addMod u f i j n).out = u.out := rfl
@[simp] theorem addMod_ports (u : Units) (f : Fld) (i j n : Nat) : (addMod u f i j n).ports = u.ports := rfl
@[simp] theorem addMod_cache (u : Units) (f : Fld) (i j n : Nat) : (addMod u f i j n).cache = u.cache := rfl
@[simp] theorem addMod_ctxEven (u : Units) (f : Fld) (i j n : Nat) : (addMod u f i j n).ctxEven = u.ctxEven := rfl
@[simp] theorem addMod_ctxOdd (u : Units) (f : Fld) (i j n : Nat) : (addMod u f i j n).ctxOdd = u.ctxOdd := rfl
@[simp] theorem addMod_ctxStaged (u : Units) (f : Fld) (i j n : Nat) : (addMod u f i j n).ctxStaged = u.ctxStaged := rfl
@[simp] theorem addMod_flushSeq (u : Units) (f : Fld) (i j n : Nat) : (addMod u f i j n).flushSeq = u.flushSeq := rfl
@[simp] theorem addMod_keys (u : Units) (f : Fld) (i j n : Nat) : (addMod u f i j n).keys = u.keys := rfl
@[simp] theorem addMod_keyPort (u : Units) (f : Fld) (i j n : Nat) : (addMod u f i j n).keyPort = u.keyPort := rfl
@[simp] theorem addMod_net (u : Units) (f : Fld) (i j n : Nat) : (addMod u f i j n).net = u.net := rfl
@[simp] theorem addMod_nextPkt (u : Units) (f : Fld) (i j n : Nat) : (addMod u f i j n).nextPkt = u.nextPkt := rfl
@[simp] theorem addMod_stopped (u : Units) (f : Fld) (i j n : Nat) : (addMod u f i j n).stopped = u.stopped := rfl
@[simp] theorem addMod_tickets (u : Units) (f : Fld) (i j n : Nat) : (addMod u f i j n).tickets = u.tickets := rfl
@[simp] theorem addMod_slotMode (u : Units) (f : Fld) (i j n : Nat) : (addMod u f i j n).slotMode = u.slotMode := rfl
@[simp] theorem addMod_slices (u : Units) (f : Fld) (i j n : Nat) : (addMod u f i j n).slices = u.slices := rfl
@[simp] theorem addMod_stg (u : Units) (f : Fld) (i j n : Nat) : (addMod u f i j n).stg = u.stg := rfl
@[simp] theorem addMod_rings (u : Units) (f : Fld) (i j n : Nat) : (addMod u f i j n).rings = u.rings := rfl
@[simp] theorem addMod_tele (u : Units) (f : Fld) (i j n : Nat) : (addMod u f i j n).tele = u.tele := rfl
@[simp] theorem addMod_pd (u : Units) (f : Fld) (i j n : Nat) : (addMod u f i j n).pd = u.pd := rfl
@[simp] theorem addMod_fences (u : Units) (f : Fld) (i j n : Nat) : (addMod u f i j n).fences = u.fences := rfl
@[simp] theorem addMod_ddr (u : Units) (f : Fld) (i j n : Nat) : (addMod u f i j n).ddr = u.ddr := rfl
@[simp] theorem addMod_hng (u : Units) (f : Fld) (i j n : Nat) : (addMod u f i j n).hng = u.hng := rfl
@[simp] theorem addMod_drf (u : Units) (f : Fld) (i j n : Nat) : (addMod u f i j n).drf = u.drf := rfl
@[simp] theorem addMod_keep (u : Units) (f : Fld) (i j n : Nat) : (addMod u f i j n).keep = u.keep := rfl
@[simp] theorem addMod_media (u : Units) (f : Fld) (i j n : Nat) : (addMod u f i j n).media = u.media := rfl
@[simp] theorem addMod_cex (u : Units) (f : Fld) (i j n : Nat) : (addMod u f i j n).cex = u.cex := rfl
@[simp] theorem addMod_grp (u : Units) (f : Fld) (i j n : Nat) : (addMod u f i j n).grp = u.grp := rfl
@[simp] theorem addMod_repairs (u : Units) (f : Fld) (i j n : Nat) : (addMod u f i j n).repairs = u.repairs := rfl
@[simp] theorem addMod_patchLog (u : Units) (f : Fld) (i j n : Nat) : (addMod u f i j n).patchLog = u.patchLog := rfl
@[simp] theorem addMod_adm (u : Units) (f : Fld) (i j n : Nat) : (addMod u f i j n).adm = u.adm := rfl
@[simp] theorem addMod_arbs (u : Units) (f : Fld) (i j n : Nat) : (addMod u f i j n).arbs = u.arbs := rfl
@[simp] theorem addMod_audit (u : Units) (f : Fld) (i j n : Nat) : (addMod u f i j n).audit = u.audit := rfl
@[simp] theorem addMod_pwr (u : Units) (f : Fld) (i j n : Nat) : (addMod u f i j n).pwr = u.pwr := rfl
@[simp] theorem addMod_boot (u : Units) (f : Fld) (i j n : Nat) : (addMod u f i j n).boot = u.boot := rfl
@[simp] theorem addMod_tap (u : Units) (f : Fld) (i j n : Nat) : (addMod u f i j n).tap = u.tap := rfl
@[simp] theorem addMod_badCtx (u : Units) (f : Fld) (i j n : Nat) : (addMod u f i j n).badCtx = u.badCtx := rfl
@[simp] theorem addMod_ctxRead (u : Units) (f : Fld) (i j n : Nat) : (addMod u f i j n).ctxRead = u.ctxRead := rfl
@[simp] theorem addMod_regs_staged (u : Units) (f : Fld) (i j n : Nat) : (addMod u f i j n).regs.staged = u.regs.staged := rfl
@[simp] theorem addMod_regs_bankA (u : Units) (f : Fld) (i j n : Nat) : (addMod u f i j n).regs.bankA = u.regs.bankA := rfl
@[simp] theorem addMod_regs_bankB (u : Units) (f : Fld) (i j n : Nat) : (addMod u f i j n).regs.bankB = u.regs.bankB := rfl
@[simp] theorem addMod_regs_descStaged (u : Units) (f : Fld) (i j n : Nat) : (addMod u f i j n).regs.descStaged = u.regs.descStaged := rfl
@[simp] theorem addMod_regs_epoch (u : Units) (f : Fld) (i j n : Nat) : (addMod u f i j n).regs.epoch = u.regs.epoch := rfl
@[simp] theorem addMod_regs_pending (u : Units) (f : Fld) (i j n : Nat) : (addMod u f i j n).regs.pending = u.regs.pending := rfl
@[simp] theorem addMod_regs_deferred (u : Units) (f : Fld) (i j n : Nat) : (addMod u f i j n).regs.deferred = u.regs.deferred := rfl
@[simp] theorem addMod_regs_defers (u : Units) (f : Fld) (i j n : Nat) : (addMod u f i j n).regs.defers = u.regs.defers := rfl
@[simp] theorem addMod_regs_lateSeen (u : Units) (f : Fld) (i j n : Nat) : (addMod u f i j n).regs.lateSeen = u.regs.lateSeen := rfl
@[simp] theorem addMod_regs_advances (u : Units) (f : Fld) (i j n : Nat) : (addMod u f i j n).regs.advances = u.regs.advances := rfl
@[simp] theorem addMod_regs_banked (u : Units) (f : Fld) (i j n : Nat) : (addMod u f i j n).regs.banked = u.regs.banked := rfl

/-! ### present -/

@[simp] theorem present_v (u : Units) (o : Out) : (present u o).v = u.v := rfl
@[simp] theorem present_now (u : Units) (o : Out) : (present u o).now = u.now := rfl
@[simp] theorem present_fresh (u : Units) (o : Out) : (present u o).fresh = u.fresh := rfl
@[simp] theorem present_regs (u : Units) (o : Out) : (present u o).regs = u.regs := rfl
@[simp] theorem present_ports (u : Units) (o : Out) : (present u o).ports = u.ports := rfl
@[simp] theorem present_cache (u : Units) (o : Out) : (present u o).cache = u.cache := rfl
@[simp] theorem present_ctxEven (u : Units) (o : Out) : (present u o).ctxEven = u.ctxEven := rfl
@[simp] theorem present_ctxOdd (u : Units) (o : Out) : (present u o).ctxOdd = u.ctxOdd := rfl
@[simp] theorem present_ctxStaged (u : Units) (o : Out) : (present u o).ctxStaged = u.ctxStaged := rfl
@[simp] theorem present_flushSeq (u : Units) (o : Out) : (present u o).flushSeq = u.flushSeq := rfl
@[simp] theorem present_keys (u : Units) (o : Out) : (present u o).keys = u.keys := rfl
@[simp] theorem present_keyPort (u : Units) (o : Out) : (present u o).keyPort = u.keyPort := rfl
@[simp] theorem present_net (u : Units) (o : Out) : (present u o).net = u.net := rfl
@[simp] theorem present_nextPkt (u : Units) (o : Out) : (present u o).nextPkt = u.nextPkt := rfl
@[simp] theorem present_stopped (u : Units) (o : Out) : (present u o).stopped = u.stopped := rfl
@[simp] theorem present_tickets (u : Units) (o : Out) : (present u o).tickets = u.tickets := rfl
@[simp] theorem present_slotMode (u : Units) (o : Out) : (present u o).slotMode = u.slotMode := rfl
@[simp] theorem present_slices (u : Units) (o : Out) : (present u o).slices = u.slices := rfl
@[simp] theorem present_stg (u : Units) (o : Out) : (present u o).stg = u.stg := rfl
@[simp] theorem present_rings (u : Units) (o : Out) : (present u o).rings = u.rings := rfl
@[simp] theorem present_tele (u : Units) (o : Out) : (present u o).tele = u.tele := rfl
@[simp] theorem present_pd (u : Units) (o : Out) : (present u o).pd = u.pd := rfl
@[simp] theorem present_fences (u : Units) (o : Out) : (present u o).fences = u.fences := rfl
@[simp] theorem present_ddr (u : Units) (o : Out) : (present u o).ddr = u.ddr := rfl
@[simp] theorem present_hng (u : Units) (o : Out) : (present u o).hng = u.hng := rfl
@[simp] theorem present_drf (u : Units) (o : Out) : (present u o).drf = u.drf := rfl
@[simp] theorem present_keep (u : Units) (o : Out) : (present u o).keep = u.keep := rfl
@[simp] theorem present_media (u : Units) (o : Out) : (present u o).media = u.media := rfl
@[simp] theorem present_cex (u : Units) (o : Out) : (present u o).cex = u.cex := rfl
@[simp] theorem present_grp (u : Units) (o : Out) : (present u o).grp = u.grp := rfl
@[simp] theorem present_repairs (u : Units) (o : Out) : (present u o).repairs = u.repairs := rfl
@[simp] theorem present_patchLog (u : Units) (o : Out) : (present u o).patchLog = u.patchLog := rfl
@[simp] theorem present_adm (u : Units) (o : Out) : (present u o).adm = u.adm := rfl
@[simp] theorem present_arbs (u : Units) (o : Out) : (present u o).arbs = u.arbs := rfl
@[simp] theorem present_audit (u : Units) (o : Out) : (present u o).audit = u.audit := rfl
@[simp] theorem present_pwr (u : Units) (o : Out) : (present u o).pwr = u.pwr := rfl
@[simp] theorem present_boot (u : Units) (o : Out) : (present u o).boot = u.boot := rfl
@[simp] theorem present_tap (u : Units) (o : Out) : (present u o).tap = u.tap := rfl
@[simp] theorem present_badCtx (u : Units) (o : Out) : (present u o).badCtx = u.badCtx := rfl
@[simp] theorem present_ctxRead (u : Units) (o : Out) : (present u o).ctxRead = u.ctxRead := rfl

/-! ### setFence -/

@[simp] theorem setFence_v (u : Units) (d : Nat) (up : Bool) : (setFence u d up).v = u.v := rfl
@[simp] theorem setFence_now (u : Units) (d : Nat) (up : Bool) : (setFence u d up).now = u.now := rfl
@[simp] theorem setFence_fresh (u : Units) (d : Nat) (up : Bool) : (setFence u d up).fresh = u.fresh := rfl
@[simp] theorem setFence_out (u : Units) (d : Nat) (up : Bool) : (setFence u d up).out = u.out := rfl
@[simp] theorem setFence_regs (u : Units) (d : Nat) (up : Bool) : (setFence u d up).regs = u.regs := rfl
@[simp] theorem setFence_ports (u : Units) (d : Nat) (up : Bool) : (setFence u d up).ports = u.ports := rfl
@[simp] theorem setFence_cache (u : Units) (d : Nat) (up : Bool) : (setFence u d up).cache = u.cache := rfl
@[simp] theorem setFence_ctxEven (u : Units) (d : Nat) (up : Bool) : (setFence u d up).ctxEven = u.ctxEven := rfl
@[simp] theorem setFence_ctxOdd (u : Units) (d : Nat) (up : Bool) : (setFence u d up).ctxOdd = u.ctxOdd := rfl
@[simp] theorem setFence_ctxStaged (u : Units) (d : Nat) (up : Bool) : (setFence u d up).ctxStaged = u.ctxStaged := rfl
@[simp] theorem setFence_flushSeq (u : Units) (d : Nat) (up : Bool) : (setFence u d up).flushSeq = u.flushSeq := rfl
@[simp] theorem setFence_keys (u : Units) (d : Nat) (up : Bool) : (setFence u d up).keys = u.keys := rfl
@[simp] theorem setFence_keyPort (u : Units) (d : Nat) (up : Bool) : (setFence u d up).keyPort = u.keyPort := rfl
@[simp] theorem setFence_net (u : Units) (d : Nat) (up : Bool) : (setFence u d up).net = u.net := rfl
@[simp] theorem setFence_nextPkt (u : Units) (d : Nat) (up : Bool) : (setFence u d up).nextPkt = u.nextPkt := rfl
@[simp] theorem setFence_stopped (u : Units) (d : Nat) (up : Bool) : (setFence u d up).stopped = u.stopped := rfl
@[simp] theorem setFence_tickets (u : Units) (d : Nat) (up : Bool) : (setFence u d up).tickets = u.tickets := rfl
@[simp] theorem setFence_slotMode (u : Units) (d : Nat) (up : Bool) : (setFence u d up).slotMode = u.slotMode := rfl
@[simp] theorem setFence_slices (u : Units) (d : Nat) (up : Bool) : (setFence u d up).slices = u.slices := rfl
@[simp] theorem setFence_stg (u : Units) (d : Nat) (up : Bool) : (setFence u d up).stg = u.stg := rfl
@[simp] theorem setFence_rings (u : Units) (d : Nat) (up : Bool) : (setFence u d up).rings = u.rings := rfl
@[simp] theorem setFence_tele (u : Units) (d : Nat) (up : Bool) : (setFence u d up).tele = u.tele := rfl
@[simp] theorem setFence_pd (u : Units) (d : Nat) (up : Bool) : (setFence u d up).pd = u.pd := rfl
@[simp] theorem setFence_ddr (u : Units) (d : Nat) (up : Bool) : (setFence u d up).ddr = u.ddr := rfl
@[simp] theorem setFence_hng (u : Units) (d : Nat) (up : Bool) : (setFence u d up).hng = u.hng := rfl
@[simp] theorem setFence_drf (u : Units) (d : Nat) (up : Bool) : (setFence u d up).drf = u.drf := rfl
@[simp] theorem setFence_keep (u : Units) (d : Nat) (up : Bool) : (setFence u d up).keep = u.keep := rfl
@[simp] theorem setFence_media (u : Units) (d : Nat) (up : Bool) : (setFence u d up).media = u.media := rfl
@[simp] theorem setFence_cex (u : Units) (d : Nat) (up : Bool) : (setFence u d up).cex = u.cex := rfl
@[simp] theorem setFence_grp (u : Units) (d : Nat) (up : Bool) : (setFence u d up).grp = u.grp := rfl
@[simp] theorem setFence_repairs (u : Units) (d : Nat) (up : Bool) : (setFence u d up).repairs = u.repairs := rfl
@[simp] theorem setFence_patchLog (u : Units) (d : Nat) (up : Bool) : (setFence u d up).patchLog = u.patchLog := rfl
@[simp] theorem setFence_adm (u : Units) (d : Nat) (up : Bool) : (setFence u d up).adm = u.adm := rfl
@[simp] theorem setFence_arbs (u : Units) (d : Nat) (up : Bool) : (setFence u d up).arbs = u.arbs := rfl
@[simp] theorem setFence_audit (u : Units) (d : Nat) (up : Bool) : (setFence u d up).audit = u.audit := rfl
@[simp] theorem setFence_pwr (u : Units) (d : Nat) (up : Bool) : (setFence u d up).pwr = u.pwr := rfl
@[simp] theorem setFence_boot (u : Units) (d : Nat) (up : Bool) : (setFence u d up).boot = u.boot := rfl
@[simp] theorem setFence_tap (u : Units) (d : Nat) (up : Bool) : (setFence u d up).tap = u.tap := rfl
@[simp] theorem setFence_badCtx (u : Units) (d : Nat) (up : Bool) : (setFence u d up).badCtx = u.badCtx := rfl
@[simp] theorem setFence_ctxRead (u : Units) (d : Nat) (up : Bool) : (setFence u d up).ctxRead = u.ctxRead := rfl

/-! ### setPd -/

@[simp] theorem setPd_v (u : Units) (d x : Nat) : (setPd u d x).v = u.v := rfl
@[simp] theorem setPd_now (u : Units) (d x : Nat) : (setPd u d x).now = u.now := rfl
@[simp] theorem setPd_fresh (u : Units) (d x : Nat) : (setPd u d x).fresh = u.fresh := rfl
@[simp] theorem setPd_out (u : Units) (d x : Nat) : (setPd u d x).out = u.out := rfl
@[simp] theorem setPd_regs (u : Units) (d x : Nat) : (setPd u d x).regs = u.regs := rfl
@[simp] theorem setPd_ports (u : Units) (d x : Nat) : (setPd u d x).ports = u.ports := rfl
@[simp] theorem setPd_cache (u : Units) (d x : Nat) : (setPd u d x).cache = u.cache := rfl
@[simp] theorem setPd_ctxEven (u : Units) (d x : Nat) : (setPd u d x).ctxEven = u.ctxEven := rfl
@[simp] theorem setPd_ctxOdd (u : Units) (d x : Nat) : (setPd u d x).ctxOdd = u.ctxOdd := rfl
@[simp] theorem setPd_ctxStaged (u : Units) (d x : Nat) : (setPd u d x).ctxStaged = u.ctxStaged := rfl
@[simp] theorem setPd_flushSeq (u : Units) (d x : Nat) : (setPd u d x).flushSeq = u.flushSeq := rfl
@[simp] theorem setPd_keys (u : Units) (d x : Nat) : (setPd u d x).keys = u.keys := rfl
@[simp] theorem setPd_keyPort (u : Units) (d x : Nat) : (setPd u d x).keyPort = u.keyPort := rfl
@[simp] theorem setPd_net (u : Units) (d x : Nat) : (setPd u d x).net = u.net := rfl
@[simp] theorem setPd_nextPkt (u : Units) (d x : Nat) : (setPd u d x).nextPkt = u.nextPkt := rfl
@[simp] theorem setPd_stopped (u : Units) (d x : Nat) : (setPd u d x).stopped = u.stopped := rfl
@[simp] theorem setPd_tickets (u : Units) (d x : Nat) : (setPd u d x).tickets = u.tickets := rfl
@[simp] theorem setPd_slotMode (u : Units) (d x : Nat) : (setPd u d x).slotMode = u.slotMode := rfl
@[simp] theorem setPd_slices (u : Units) (d x : Nat) : (setPd u d x).slices = u.slices := rfl
@[simp] theorem setPd_stg (u : Units) (d x : Nat) : (setPd u d x).stg = u.stg := rfl
@[simp] theorem setPd_rings (u : Units) (d x : Nat) : (setPd u d x).rings = u.rings := rfl
@[simp] theorem setPd_tele (u : Units) (d x : Nat) : (setPd u d x).tele = u.tele := rfl
@[simp] theorem setPd_fences (u : Units) (d x : Nat) : (setPd u d x).fences = u.fences := rfl
@[simp] theorem setPd_ddr (u : Units) (d x : Nat) : (setPd u d x).ddr = u.ddr := rfl
@[simp] theorem setPd_hng (u : Units) (d x : Nat) : (setPd u d x).hng = u.hng := rfl
@[simp] theorem setPd_drf (u : Units) (d x : Nat) : (setPd u d x).drf = u.drf := rfl
@[simp] theorem setPd_keep (u : Units) (d x : Nat) : (setPd u d x).keep = u.keep := rfl
@[simp] theorem setPd_media (u : Units) (d x : Nat) : (setPd u d x).media = u.media := rfl
@[simp] theorem setPd_cex (u : Units) (d x : Nat) : (setPd u d x).cex = u.cex := rfl
@[simp] theorem setPd_grp (u : Units) (d x : Nat) : (setPd u d x).grp = u.grp := rfl
@[simp] theorem setPd_repairs (u : Units) (d x : Nat) : (setPd u d x).repairs = u.repairs := rfl
@[simp] theorem setPd_patchLog (u : Units) (d x : Nat) : (setPd u d x).patchLog = u.patchLog := rfl
@[simp] theorem setPd_adm (u : Units) (d x : Nat) : (setPd u d x).adm = u.adm := rfl
@[simp] theorem setPd_arbs (u : Units) (d x : Nat) : (setPd u d x).arbs = u.arbs := rfl
@[simp] theorem setPd_audit (u : Units) (d x : Nat) : (setPd u d x).audit = u.audit := rfl
@[simp] theorem setPd_pwr (u : Units) (d x : Nat) : (setPd u d x).pwr = u.pwr := rfl
@[simp] theorem setPd_boot (u : Units) (d x : Nat) : (setPd u d x).boot = u.boot := rfl
@[simp] theorem setPd_tap (u : Units) (d x : Nat) : (setPd u d x).tap = u.tap := rfl
@[simp] theorem setPd_badCtx (u : Units) (d x : Nat) : (setPd u d x).badCtx = u.badCtx := rfl
@[simp] theorem setPd_ctxRead (u : Units) (d x : Nat) : (setPd u d x).ctxRead = u.ctxRead := rfl

/-! ### cause -/

@[simp] theorem cause_v (u : Units) (b : Nat) : (cause u b).v = u.v := rfl
@[simp] theorem cause_now (u : Units) (b : Nat) : (cause u b).now = u.now := rfl
@[simp] theorem cause_fresh (u : Units) (b : Nat) : (cause u b).fresh = u.fresh := rfl
@[simp] theorem cause_out (u : Units) (b : Nat) : (cause u b).out = u.out := rfl
@[simp] theorem cause_regs (u : Units) (b : Nat) : (cause u b).regs = u.regs := rfl
@[simp] theorem cause_ports (u : Units) (b : Nat) : (cause u b).ports = u.ports := rfl
@[simp] theorem cause_cache (u : Units) (b : Nat) : (cause u b).cache = u.cache := rfl
@[simp] theorem cause_ctxEven (u : Units) (b : Nat) : (cause u b).ctxEven = u.ctxEven := rfl
@[simp] theorem cause_ctxOdd (u : Units) (b : Nat) : (cause u b).ctxOdd = u.ctxOdd := rfl
@[simp] theorem cause_ctxStaged (u : Units) (b : Nat) : (cause u b).ctxStaged = u.ctxStaged := rfl
@[simp] theorem cause_flushSeq (u : Units) (b : Nat) : (cause u b).flushSeq = u.flushSeq := rfl
@[simp] theorem cause_keys (u : Units) (b : Nat) : (cause u b).keys = u.keys := rfl
@[simp] theorem cause_keyPort (u : Units) (b : Nat) : (cause u b).keyPort = u.keyPort := rfl
@[simp] theorem cause_net (u : Units) (b : Nat) : (cause u b).net = u.net := rfl
@[simp] theorem cause_nextPkt (u : Units) (b : Nat) : (cause u b).nextPkt = u.nextPkt := rfl
@[simp] theorem cause_stopped (u : Units) (b : Nat) : (cause u b).stopped = u.stopped := rfl
@[simp] theorem cause_tickets (u : Units) (b : Nat) : (cause u b).tickets = u.tickets := rfl
@[simp] theorem cause_slotMode (u : Units) (b : Nat) : (cause u b).slotMode = u.slotMode := rfl
@[simp] theorem cause_slices (u : Units) (b : Nat) : (cause u b).slices = u.slices := rfl
@[simp] theorem cause_stg (u : Units) (b : Nat) : (cause u b).stg = u.stg := rfl
@[simp] theorem cause_rings (u : Units) (b : Nat) : (cause u b).rings = u.rings := rfl
@[simp] theorem cause_tele (u : Units) (b : Nat) : (cause u b).tele = u.tele := rfl
@[simp] theorem cause_pd (u : Units) (b : Nat) : (cause u b).pd = u.pd := rfl
@[simp] theorem cause_fences (u : Units) (b : Nat) : (cause u b).fences = u.fences := rfl
@[simp] theorem cause_ddr (u : Units) (b : Nat) : (cause u b).ddr = u.ddr := rfl
@[simp] theorem cause_hng (u : Units) (b : Nat) : (cause u b).hng = u.hng := rfl
@[simp] theorem cause_drf (u : Units) (b : Nat) : (cause u b).drf = u.drf := rfl
@[simp] theorem cause_keep (u : Units) (b : Nat) : (cause u b).keep = u.keep := rfl
@[simp] theorem cause_media (u : Units) (b : Nat) : (cause u b).media = u.media := rfl
@[simp] theorem cause_cex (u : Units) (b : Nat) : (cause u b).cex = u.cex := rfl
@[simp] theorem cause_grp (u : Units) (b : Nat) : (cause u b).grp = u.grp := rfl
@[simp] theorem cause_repairs (u : Units) (b : Nat) : (cause u b).repairs = u.repairs := rfl
@[simp] theorem cause_patchLog (u : Units) (b : Nat) : (cause u b).patchLog = u.patchLog := rfl
@[simp] theorem cause_arbs (u : Units) (b : Nat) : (cause u b).arbs = u.arbs := rfl
@[simp] theorem cause_audit (u : Units) (b : Nat) : (cause u b).audit = u.audit := rfl
@[simp] theorem cause_pwr (u : Units) (b : Nat) : (cause u b).pwr = u.pwr := rfl
@[simp] theorem cause_boot (u : Units) (b : Nat) : (cause u b).boot = u.boot := rfl
@[simp] theorem cause_tap (u : Units) (b : Nat) : (cause u b).tap = u.tap := rfl
@[simp] theorem cause_badCtx (u : Units) (b : Nat) : (cause u b).badCtx = u.badCtx := rfl
@[simp] theorem cause_ctxRead (u : Units) (b : Nat) : (cause u b).ctxRead = u.ctxRead := rfl

/-! ### setPort -/

@[simp] theorem setPort_v (u : Units) (p : Nat) (x : Port) : (setPort u p x).v = u.v := rfl
@[simp] theorem setPort_now (u : Units) (p : Nat) (x : Port) : (setPort u p x).now = u.now := rfl
@[simp] theorem setPort_fresh (u : Units) (p : Nat) (x : Port) : (setPort u p x).fresh = u.fresh := rfl
@[simp] theorem setPort_out (u : Units) (p : Nat) (x : Port) : (setPort u p x).out = u.out := rfl
@[simp] theorem setPort_regs (u : Units) (p : Nat) (x : Port) : (setPort u p x).regs = u.regs := rfl
@[simp] theorem setPort_cache (u : Units) (p : Nat) (x : Port) : (setPort u p x).cache = u.cache := rfl
@[simp] theorem setPort_ctxEven (u : Units) (p : Nat) (x : Port) : (setPort u p x).ctxEven = u.ctxEven := rfl
@[simp] theorem setPort_ctxOdd (u : Units) (p : Nat) (x : Port) : (setPort u p x).ctxOdd = u.ctxOdd := rfl
@[simp] theorem setPort_ctxStaged (u : Units) (p : Nat) (x : Port) : (setPort u p x).ctxStaged = u.ctxStaged := rfl
@[simp] theorem setPort_flushSeq (u : Units) (p : Nat) (x : Port) : (setPort u p x).flushSeq = u.flushSeq := rfl
@[simp] theorem setPort_keys (u : Units) (p : Nat) (x : Port) : (setPort u p x).keys = u.keys := rfl
@[simp] theorem setPort_keyPort (u : Units) (p : Nat) (x : Port) : (setPort u p x).keyPort = u.keyPort := rfl
@[simp] theorem setPort_net (u : Units) (p : Nat) (x : Port) : (setPort u p x).net = u.net := rfl
@[simp] theorem setPort_nextPkt (u : Units) (p : Nat) (x : Port) : (setPort u p x).nextPkt = u.nextPkt := rfl
@[simp] theorem setPort_stopped (u : Units) (p : Nat) (x : Port) : (setPort u p x).stopped = u.stopped := rfl
@[simp] theorem setPort_tickets (u : Units) (p : Nat) (x : Port) : (setPort u p x).tickets = u.tickets := rfl
@[simp] theorem setPort_slotMode (u : Units) (p : Nat) (x : Port) : (setPort u p x).slotMode = u.slotMode := rfl
@[simp] theorem setPort_slices (u : Units) (p : Nat) (x : Port) : (setPort u p x).slices = u.slices := rfl
@[simp] theorem setPort_stg (u : Units) (p : Nat) (x : Port) : (setPort u p x).stg = u.stg := rfl
@[simp] theorem setPort_rings (u : Units) (p : Nat) (x : Port) : (setPort u p x).rings = u.rings := rfl
@[simp] theorem setPort_tele (u : Units) (p : Nat) (x : Port) : (setPort u p x).tele = u.tele := rfl
@[simp] theorem setPort_pd (u : Units) (p : Nat) (x : Port) : (setPort u p x).pd = u.pd := rfl
@[simp] theorem setPort_fences (u : Units) (p : Nat) (x : Port) : (setPort u p x).fences = u.fences := rfl
@[simp] theorem setPort_ddr (u : Units) (p : Nat) (x : Port) : (setPort u p x).ddr = u.ddr := rfl
@[simp] theorem setPort_hng (u : Units) (p : Nat) (x : Port) : (setPort u p x).hng = u.hng := rfl
@[simp] theorem setPort_drf (u : Units) (p : Nat) (x : Port) : (setPort u p x).drf = u.drf := rfl
@[simp] theorem setPort_keep (u : Units) (p : Nat) (x : Port) : (setPort u p x).keep = u.keep := rfl
@[simp] theorem setPort_media (u : Units) (p : Nat) (x : Port) : (setPort u p x).media = u.media := rfl
@[simp] theorem setPort_cex (u : Units) (p : Nat) (x : Port) : (setPort u p x).cex = u.cex := rfl
@[simp] theorem setPort_grp (u : Units) (p : Nat) (x : Port) : (setPort u p x).grp = u.grp := rfl
@[simp] theorem setPort_repairs (u : Units) (p : Nat) (x : Port) : (setPort u p x).repairs = u.repairs := rfl
@[simp] theorem setPort_patchLog (u : Units) (p : Nat) (x : Port) : (setPort u p x).patchLog = u.patchLog := rfl
@[simp] theorem setPort_adm (u : Units) (p : Nat) (x : Port) : (setPort u p x).adm = u.adm := rfl
@[simp] theorem setPort_arbs (u : Units) (p : Nat) (x : Port) : (setPort u p x).arbs = u.arbs := rfl
@[simp] theorem setPort_audit (u : Units) (p : Nat) (x : Port) : (setPort u p x).audit = u.audit := rfl
@[simp] theorem setPort_pwr (u : Units) (p : Nat) (x : Port) : (setPort u p x).pwr = u.pwr := rfl
@[simp] theorem setPort_boot (u : Units) (p : Nat) (x : Port) : (setPort u p x).boot = u.boot := rfl
@[simp] theorem setPort_tap (u : Units) (p : Nat) (x : Port) : (setPort u p x).tap = u.tap := rfl
@[simp] theorem setPort_badCtx (u : Units) (p : Nat) (x : Port) : (setPort u p x).badCtx = u.badCtx := rfl
@[simp] theorem setPort_ctxRead (u : Units) (p : Nat) (x : Port) : (setPort u p x).ctxRead = u.ctxRead := rfl

/-! ### setReq -/

@[simp] theorem setReq_v (u : Units) (p : Nat) (r : Req) : (setReq u p r).v = u.v := rfl
@[simp] theorem setReq_now (u : Units) (p : Nat) (r : Req) : (setReq u p r).now = u.now := rfl
@[simp] theorem setReq_fresh (u : Units) (p : Nat) (r : Req) : (setReq u p r).fresh = u.fresh := rfl
@[simp] theorem setReq_out (u : Units) (p : Nat) (r : Req) : (setReq u p r).out = u.out := rfl
@[simp] theorem setReq_regs (u : Units) (p : Nat) (r : Req) : (setReq u p r).regs = u.regs := rfl
@[simp] theorem setReq_cache (u : Units) (p : Nat) (r : Req) : (setReq u p r).cache = u.cache := rfl
@[simp] theorem setReq_ctxEven (u : Units) (p : Nat) (r : Req) : (setReq u p r).ctxEven = u.ctxEven := rfl
@[simp] theorem setReq_ctxOdd (u : Units) (p : Nat) (r : Req) : (setReq u p r).ctxOdd = u.ctxOdd := rfl
@[simp] theorem setReq_ctxStaged (u : Units) (p : Nat) (r : Req) : (setReq u p r).ctxStaged = u.ctxStaged := rfl
@[simp] theorem setReq_flushSeq (u : Units) (p : Nat) (r : Req) : (setReq u p r).flushSeq = u.flushSeq := rfl
@[simp] theorem setReq_keys (u : Units) (p : Nat) (r : Req) : (setReq u p r).keys = u.keys := rfl
@[simp] theorem setReq_keyPort (u : Units) (p : Nat) (r : Req) : (setReq u p r).keyPort = u.keyPort := rfl
@[simp] theorem setReq_net (u : Units) (p : Nat) (r : Req) : (setReq u p r).net = u.net := rfl
@[simp] theorem setReq_nextPkt (u : Units) (p : Nat) (r : Req) : (setReq u p r).nextPkt = u.nextPkt := rfl
@[simp] theorem setReq_stopped (u : Units) (p : Nat) (r : Req) : (setReq u p r).stopped = u.stopped := rfl
@[simp] theorem setReq_tickets (u : Units) (p : Nat) (r : Req) : (setReq u p r).tickets = u.tickets := rfl
@[simp] theorem setReq_slotMode (u : Units) (p : Nat) (r : Req) : (setReq u p r).slotMode = u.slotMode := rfl
@[simp] theorem setReq_slices (u : Units) (p : Nat) (r : Req) : (setReq u p r).slices = u.slices := rfl
@[simp] theorem setReq_stg (u : Units) (p : Nat) (r : Req) : (setReq u p r).stg = u.stg := rfl
@[simp] theorem setReq_rings (u : Units) (p : Nat) (r : Req) : (setReq u p r).rings = u.rings := rfl
@[simp] theorem setReq_tele (u : Units) (p : Nat) (r : Req) : (setReq u p r).tele = u.tele := rfl
@[simp] theorem setReq_pd (u : Units) (p : Nat) (r : Req) : (setReq u p r).pd = u.pd := rfl
@[simp] theorem setReq_fences (u : Units) (p : Nat) (r : Req) : (setReq u p r).fences = u.fences := rfl
@[simp] theorem setReq_ddr (u : Units) (p : Nat) (r : Req) : (setReq u p r).ddr = u.ddr := rfl
@[simp] theorem setReq_hng (u : Units) (p : Nat) (r : Req) : (setReq u p r).hng = u.hng := rfl
@[simp] theorem setReq_drf (u : Units) (p : Nat) (r : Req) : (setReq u p r).drf = u.drf := rfl
@[simp] theorem setReq_keep (u : Units) (p : Nat) (r : Req) : (setReq u p r).keep = u.keep := rfl
@[simp] theorem setReq_media (u : Units) (p : Nat) (r : Req) : (setReq u p r).media = u.media := rfl
@[simp] theorem setReq_cex (u : Units) (p : Nat) (r : Req) : (setReq u p r).cex = u.cex := rfl
@[simp] theorem setReq_grp (u : Units) (p : Nat) (r : Req) : (setReq u p r).grp = u.grp := rfl
@[simp] theorem setReq_repairs (u : Units) (p : Nat) (r : Req) : (setReq u p r).repairs = u.repairs := rfl
@[simp] theorem setReq_patchLog (u : Units) (p : Nat) (r : Req) : (setReq u p r).patchLog = u.patchLog := rfl
@[simp] theorem setReq_adm (u : Units) (p : Nat) (r : Req) : (setReq u p r).adm = u.adm := rfl
@[simp] theorem setReq_arbs (u : Units) (p : Nat) (r : Req) : (setReq u p r).arbs = u.arbs := rfl
@[simp] theorem setReq_audit (u : Units) (p : Nat) (r : Req) : (setReq u p r).audit = u.audit := rfl
@[simp] theorem setReq_pwr (u : Units) (p : Nat) (r : Req) : (setReq u p r).pwr = u.pwr := rfl
@[simp] theorem setReq_boot (u : Units) (p : Nat) (r : Req) : (setReq u p r).boot = u.boot := rfl
@[simp] theorem setReq_tap (u : Units) (p : Nat) (r : Req) : (setReq u p r).tap = u.tap := rfl
@[simp] theorem setReq_badCtx (u : Units) (p : Nat) (r : Req) : (setReq u p r).badCtx = u.badCtx := rfl
@[simp] theorem setReq_ctxRead (u : Units) (p : Nat) (r : Req) : (setReq u p r).ctxRead = u.ctxRead := rfl

/-! ### setIngress -/

@[simp] theorem setIngress_v (u : Units) (p : Nat) (g : Ingress) : (setIngress u p g).v = u.v := rfl
@[simp] theorem setIngress_now (u : Units) (p : Nat) (g : Ingress) : (setIngress u p g).now = u.now := rfl
@[simp] theorem setIngress_fresh (u : Units) (p : Nat) (g : Ingress) : (setIngress u p g).fresh = u.fresh := rfl
@[simp] theorem setIngress_out (u : Units) (p : Nat) (g : Ingress) : (setIngress u p g).out = u.out := rfl
@[simp] theorem setIngress_regs (u : Units) (p : Nat) (g : Ingress) : (setIngress u p g).regs = u.regs := rfl
@[simp] theorem setIngress_cache (u : Units) (p : Nat) (g : Ingress) : (setIngress u p g).cache = u.cache := rfl
@[simp] theorem setIngress_ctxEven (u : Units) (p : Nat) (g : Ingress) : (setIngress u p g).ctxEven = u.ctxEven := rfl
@[simp] theorem setIngress_ctxOdd (u : Units) (p : Nat) (g : Ingress) : (setIngress u p g).ctxOdd = u.ctxOdd := rfl
@[simp] theorem setIngress_ctxStaged (u : Units) (p : Nat) (g : Ingress) : (setIngress u p g).ctxStaged = u.ctxStaged := rfl
@[simp] theorem setIngress_flushSeq (u : Units) (p : Nat) (g : Ingress) : (setIngress u p g).flushSeq = u.flushSeq := rfl
@[simp] theorem setIngress_keys (u : Units) (p : Nat) (g : Ingress) : (setIngress u p g).keys = u.keys := rfl
@[simp] theorem setIngress_keyPort (u : Units) (p : Nat) (g : Ingress) : (setIngress u p g).keyPort = u.keyPort := rfl
@[simp] theorem setIngress_net (u : Units) (p : Nat) (g : Ingress) : (setIngress u p g).net = u.net := rfl
@[simp] theorem setIngress_nextPkt (u : Units) (p : Nat) (g : Ingress) : (setIngress u p g).nextPkt = u.nextPkt := rfl
@[simp] theorem setIngress_stopped (u : Units) (p : Nat) (g : Ingress) : (setIngress u p g).stopped = u.stopped := rfl
@[simp] theorem setIngress_tickets (u : Units) (p : Nat) (g : Ingress) : (setIngress u p g).tickets = u.tickets := rfl
@[simp] theorem setIngress_slotMode (u : Units) (p : Nat) (g : Ingress) : (setIngress u p g).slotMode = u.slotMode := rfl
@[simp] theorem setIngress_slices (u : Units) (p : Nat) (g : Ingress) : (setIngress u p g).slices = u.slices := rfl
@[simp] theorem setIngress_stg (u : Units) (p : Nat) (g : Ingress) : (setIngress u p g).stg = u.stg := rfl
@[simp] theorem setIngress_rings (u : Units) (p : Nat) (g : Ingress) : (setIngress u p g).rings = u.rings := rfl
@[simp] theorem setIngress_tele (u : Units) (p : Nat) (g : Ingress) : (setIngress u p g).tele = u.tele := rfl
@[simp] theorem setIngress_pd (u : Units) (p : Nat) (g : Ingress) : (setIngress u p g).pd = u.pd := rfl
@[simp] theorem setIngress_fences (u : Units) (p : Nat) (g : Ingress) : (setIngress u p g).fences = u.fences := rfl
@[simp] theorem setIngress_ddr (u : Units) (p : Nat) (g : Ingress) : (setIngress u p g).ddr = u.ddr := rfl
@[simp] theorem setIngress_hng (u : Units) (p : Nat) (g : Ingress) : (setIngress u p g).hng = u.hng := rfl
@[simp] theorem setIngress_drf (u : Units) (p : Nat) (g : Ingress) : (setIngress u p g).drf = u.drf := rfl
@[simp] theorem setIngress_keep (u : Units) (p : Nat) (g : Ingress) : (setIngress u p g).keep = u.keep := rfl
@[simp] theorem setIngress_media (u : Units) (p : Nat) (g : Ingress) : (setIngress u p g).media = u.media := rfl
@[simp] theorem setIngress_cex (u : Units) (p : Nat) (g : Ingress) : (setIngress u p g).cex = u.cex := rfl
@[simp] theorem setIngress_grp (u : Units) (p : Nat) (g : Ingress) : (setIngress u p g).grp = u.grp := rfl
@[simp] theorem setIngress_repairs (u : Units) (p : Nat) (g : Ingress) : (setIngress u p g).repairs = u.repairs := rfl
@[simp] theorem setIngress_patchLog (u : Units) (p : Nat) (g : Ingress) : (setIngress u p g).patchLog = u.patchLog := rfl
@[simp] theorem setIngress_adm (u : Units) (p : Nat) (g : Ingress) : (setIngress u p g).adm = u.adm := rfl
@[simp] theorem setIngress_arbs (u : Units) (p : Nat) (g : Ingress) : (setIngress u p g).arbs = u.arbs := rfl
@[simp] theorem setIngress_audit (u : Units) (p : Nat) (g : Ingress) : (setIngress u p g).audit = u.audit := rfl
@[simp] theorem setIngress_pwr (u : Units) (p : Nat) (g : Ingress) : (setIngress u p g).pwr = u.pwr := rfl
@[simp] theorem setIngress_boot (u : Units) (p : Nat) (g : Ingress) : (setIngress u p g).boot = u.boot := rfl
@[simp] theorem setIngress_tap (u : Units) (p : Nat) (g : Ingress) : (setIngress u p g).tap = u.tap := rfl
@[simp] theorem setIngress_badCtx (u : Units) (p : Nat) (g : Ingress) : (setIngress u p g).badCtx = u.badCtx := rfl
@[simp] theorem setIngress_ctxRead (u : Units) (p : Nat) (g : Ingress) : (setIngress u p g).ctxRead = u.ctxRead := rfl

/-! ### spendHdr -/

@[simp] theorem spendHdr_v (u : Units) (p k : Nat) : (spendHdr u p k).v = u.v := rfl
@[simp] theorem spendHdr_now (u : Units) (p k : Nat) : (spendHdr u p k).now = u.now := rfl
@[simp] theorem spendHdr_fresh (u : Units) (p k : Nat) : (spendHdr u p k).fresh = u.fresh := rfl
@[simp] theorem spendHdr_out (u : Units) (p k : Nat) : (spendHdr u p k).out = u.out := rfl
@[simp] theorem spendHdr_regs (u : Units) (p k : Nat) : (spendHdr u p k).regs = u.regs := rfl
@[simp] theorem spendHdr_cache (u : Units) (p k : Nat) : (spendHdr u p k).cache = u.cache := rfl
@[simp] theorem spendHdr_ctxEven (u : Units) (p k : Nat) : (spendHdr u p k).ctxEven = u.ctxEven := rfl
@[simp] theorem spendHdr_ctxOdd (u : Units) (p k : Nat) : (spendHdr u p k).ctxOdd = u.ctxOdd := rfl
@[simp] theorem spendHdr_ctxStaged (u : Units) (p k : Nat) : (spendHdr u p k).ctxStaged = u.ctxStaged := rfl
@[simp] theorem spendHdr_flushSeq (u : Units) (p k : Nat) : (spendHdr u p k).flushSeq = u.flushSeq := rfl
@[simp] theorem spendHdr_keys (u : Units) (p k : Nat) : (spendHdr u p k).keys = u.keys := rfl
@[simp] theorem spendHdr_keyPort (u : Units) (p k : Nat) : (spendHdr u p k).keyPort = u.keyPort := rfl
@[simp] theorem spendHdr_net (u : Units) (p k : Nat) : (spendHdr u p k).net = u.net := rfl
@[simp] theorem spendHdr_nextPkt (u : Units) (p k : Nat) : (spendHdr u p k).nextPkt = u.nextPkt := rfl
@[simp] theorem spendHdr_stopped (u : Units) (p k : Nat) : (spendHdr u p k).stopped = u.stopped := rfl
@[simp] theorem spendHdr_tickets (u : Units) (p k : Nat) : (spendHdr u p k).tickets = u.tickets := rfl
@[simp] theorem spendHdr_slotMode (u : Units) (p k : Nat) : (spendHdr u p k).slotMode = u.slotMode := rfl
@[simp] theorem spendHdr_slices (u : Units) (p k : Nat) : (spendHdr u p k).slices = u.slices := rfl
@[simp] theorem spendHdr_stg (u : Units) (p k : Nat) : (spendHdr u p k).stg = u.stg := rfl
@[simp] theorem spendHdr_rings (u : Units) (p k : Nat) : (spendHdr u p k).rings = u.rings := rfl
@[simp] theorem spendHdr_tele (u : Units) (p k : Nat) : (spendHdr u p k).tele = u.tele := rfl
@[simp] theorem spendHdr_pd (u : Units) (p k : Nat) : (spendHdr u p k).pd = u.pd := rfl
@[simp] theorem spendHdr_fences (u : Units) (p k : Nat) : (spendHdr u p k).fences = u.fences := rfl
@[simp] theorem spendHdr_ddr (u : Units) (p k : Nat) : (spendHdr u p k).ddr = u.ddr := rfl
@[simp] theorem spendHdr_hng (u : Units) (p k : Nat) : (spendHdr u p k).hng = u.hng := rfl
@[simp] theorem spendHdr_drf (u : Units) (p k : Nat) : (spendHdr u p k).drf = u.drf := rfl
@[simp] theorem spendHdr_keep (u : Units) (p k : Nat) : (spendHdr u p k).keep = u.keep := rfl
@[simp] theorem spendHdr_media (u : Units) (p k : Nat) : (spendHdr u p k).media = u.media := rfl
@[simp] theorem spendHdr_cex (u : Units) (p k : Nat) : (spendHdr u p k).cex = u.cex := rfl
@[simp] theorem spendHdr_grp (u : Units) (p k : Nat) : (spendHdr u p k).grp = u.grp := rfl
@[simp] theorem spendHdr_repairs (u : Units) (p k : Nat) : (spendHdr u p k).repairs = u.repairs := rfl
@[simp] theorem spendHdr_patchLog (u : Units) (p k : Nat) : (spendHdr u p k).patchLog = u.patchLog := rfl
@[simp] theorem spendHdr_adm (u : Units) (p k : Nat) : (spendHdr u p k).adm = u.adm := rfl
@[simp] theorem spendHdr_arbs (u : Units) (p k : Nat) : (spendHdr u p k).arbs = u.arbs := rfl
@[simp] theorem spendHdr_audit (u : Units) (p k : Nat) : (spendHdr u p k).audit = u.audit := rfl
@[simp] theorem spendHdr_pwr (u : Units) (p k : Nat) : (spendHdr u p k).pwr = u.pwr := rfl
@[simp] theorem spendHdr_boot (u : Units) (p k : Nat) : (spendHdr u p k).boot = u.boot := rfl
@[simp] theorem spendHdr_tap (u : Units) (p k : Nat) : (spendHdr u p k).tap = u.tap := rfl
@[simp] theorem spendHdr_badCtx (u : Units) (p k : Nat) : (spendHdr u p k).badCtx = u.badCtx := rfl
@[simp] theorem spendHdr_ctxRead (u : Units) (p k : Nat) : (spendHdr u p k).ctxRead = u.ctxRead := rfl

/-! ### spendData -/

@[simp] theorem spendData_v (u : Units) (p k : Nat) : (spendData u p k).v = u.v := rfl
@[simp] theorem spendData_now (u : Units) (p k : Nat) : (spendData u p k).now = u.now := rfl
@[simp] theorem spendData_fresh (u : Units) (p k : Nat) : (spendData u p k).fresh = u.fresh := rfl
@[simp] theorem spendData_out (u : Units) (p k : Nat) : (spendData u p k).out = u.out := rfl
@[simp] theorem spendData_regs (u : Units) (p k : Nat) : (spendData u p k).regs = u.regs := rfl
@[simp] theorem spendData_cache (u : Units) (p k : Nat) : (spendData u p k).cache = u.cache := rfl
@[simp] theorem spendData_ctxEven (u : Units) (p k : Nat) : (spendData u p k).ctxEven = u.ctxEven := rfl
@[simp] theorem spendData_ctxOdd (u : Units) (p k : Nat) : (spendData u p k).ctxOdd = u.ctxOdd := rfl
@[simp] theorem spendData_ctxStaged (u : Units) (p k : Nat) : (spendData u p k).ctxStaged = u.ctxStaged := rfl
@[simp] theorem spendData_flushSeq (u : Units) (p k : Nat) : (spendData u p k).flushSeq = u.flushSeq := rfl
@[simp] theorem spendData_keys (u : Units) (p k : Nat) : (spendData u p k).keys = u.keys := rfl
@[simp] theorem spendData_keyPort (u : Units) (p k : Nat) : (spendData u p k).keyPort = u.keyPort := rfl
@[simp] theorem spendData_net (u : Units) (p k : Nat) : (spendData u p k).net = u.net := rfl
@[simp] theorem spendData_nextPkt (u : Units) (p k : Nat) : (spendData u p k).nextPkt = u.nextPkt := rfl
@[simp] theorem spendData_stopped (u : Units) (p k : Nat) : (spendData u p k).stopped = u.stopped := rfl
@[simp] theorem spendData_tickets (u : Units) (p k : Nat) : (spendData u p k).tickets = u.tickets := rfl
@[simp] theorem spendData_slotMode (u : Units) (p k : Nat) : (spendData u p k).slotMode = u.slotMode := rfl
@[simp] theorem spendData_slices (u : Units) (p k : Nat) : (spendData u p k).slices = u.slices := rfl
@[simp] theorem spendData_stg (u : Units) (p k : Nat) : (spendData u p k).stg = u.stg := rfl
@[simp] theorem spendData_rings (u : Units) (p k : Nat) : (spendData u p k).rings = u.rings := rfl
@[simp] theorem spendData_tele (u : Units) (p k : Nat) : (spendData u p k).tele = u.tele := rfl
@[simp] theorem spendData_pd (u : Units) (p k : Nat) : (spendData u p k).pd = u.pd := rfl
@[simp] theorem spendData_fences (u : Units) (p k : Nat) : (spendData u p k).fences = u.fences := rfl
@[simp] theorem spendData_ddr (u : Units) (p k : Nat) : (spendData u p k).ddr = u.ddr := rfl
@[simp] theorem spendData_hng (u : Units) (p k : Nat) : (spendData u p k).hng = u.hng := rfl
@[simp] theorem spendData_drf (u : Units) (p k : Nat) : (spendData u p k).drf = u.drf := rfl
@[simp] theorem spendData_keep (u : Units) (p k : Nat) : (spendData u p k).keep = u.keep := rfl
@[simp] theorem spendData_media (u : Units) (p k : Nat) : (spendData u p k).media = u.media := rfl
@[simp] theorem spendData_cex (u : Units) (p k : Nat) : (spendData u p k).cex = u.cex := rfl
@[simp] theorem spendData_grp (u : Units) (p k : Nat) : (spendData u p k).grp = u.grp := rfl
@[simp] theorem spendData_repairs (u : Units) (p k : Nat) : (spendData u p k).repairs = u.repairs := rfl
@[simp] theorem spendData_patchLog (u : Units) (p k : Nat) : (spendData u p k).patchLog = u.patchLog := rfl
@[simp] theorem spendData_adm (u : Units) (p k : Nat) : (spendData u p k).adm = u.adm := rfl
@[simp] theorem spendData_arbs (u : Units) (p k : Nat) : (spendData u p k).arbs = u.arbs := rfl
@[simp] theorem spendData_audit (u : Units) (p k : Nat) : (spendData u p k).audit = u.audit := rfl
@[simp] theorem spendData_pwr (u : Units) (p k : Nat) : (spendData u p k).pwr = u.pwr := rfl
@[simp] theorem spendData_boot (u : Units) (p k : Nat) : (spendData u p k).boot = u.boot := rfl
@[simp] theorem spendData_tap (u : Units) (p k : Nat) : (spendData u p k).tap = u.tap := rfl
@[simp] theorem spendData_badCtx (u : Units) (p k : Nat) : (spendData u p k).badCtx = u.badCtx := rfl
@[simp] theorem spendData_ctxRead (u : Units) (p k : Nat) : (spendData u p k).ctxRead = u.ctxRead := rfl

/-! ### takeTicket -/

@[simp] theorem takeTicket_v (u : Units) (id : Nat) : (takeTicket u id).v = u.v := rfl
@[simp] theorem takeTicket_now (u : Units) (id : Nat) : (takeTicket u id).now = u.now := rfl
@[simp] theorem takeTicket_fresh (u : Units) (id : Nat) : (takeTicket u id).fresh = u.fresh := rfl
@[simp] theorem takeTicket_out (u : Units) (id : Nat) : (takeTicket u id).out = u.out := rfl
@[simp] theorem takeTicket_regs (u : Units) (id : Nat) : (takeTicket u id).regs = u.regs := rfl
@[simp] theorem takeTicket_ports (u : Units) (id : Nat) : (takeTicket u id).ports = u.ports := rfl
@[simp] theorem takeTicket_cache (u : Units) (id : Nat) : (takeTicket u id).cache = u.cache := rfl
@[simp] theorem takeTicket_ctxEven (u : Units) (id : Nat) : (takeTicket u id).ctxEven = u.ctxEven := rfl
@[simp] theorem takeTicket_ctxOdd (u : Units) (id : Nat) : (takeTicket u id).ctxOdd = u.ctxOdd := rfl
@[simp] theorem takeTicket_ctxStaged (u : Units) (id : Nat) : (takeTicket u id).ctxStaged = u.ctxStaged := rfl
@[simp] theorem takeTicket_flushSeq (u : Units) (id : Nat) : (takeTicket u id).flushSeq = u.flushSeq := rfl
@[simp] theorem takeTicket_keys (u : Units) (id : Nat) : (takeTicket u id).keys = u.keys := rfl
@[simp] theorem takeTicket_keyPort (u : Units) (id : Nat) : (takeTicket u id).keyPort = u.keyPort := rfl
@[simp] theorem takeTicket_net (u : Units) (id : Nat) : (takeTicket u id).net = u.net := rfl
@[simp] theorem takeTicket_nextPkt (u : Units) (id : Nat) : (takeTicket u id).nextPkt = u.nextPkt := rfl
@[simp] theorem takeTicket_stopped (u : Units) (id : Nat) : (takeTicket u id).stopped = u.stopped := rfl
@[simp] theorem takeTicket_slotMode (u : Units) (id : Nat) : (takeTicket u id).slotMode = u.slotMode := rfl
@[simp] theorem takeTicket_slices (u : Units) (id : Nat) : (takeTicket u id).slices = u.slices := rfl
@[simp] theorem takeTicket_stg (u : Units) (id : Nat) : (takeTicket u id).stg = u.stg := rfl
@[simp] theorem takeTicket_rings (u : Units) (id : Nat) : (takeTicket u id).rings = u.rings := rfl
@[simp] theorem takeTicket_tele (u : Units) (id : Nat) : (takeTicket u id).tele = u.tele := rfl
@[simp] theorem takeTicket_pd (u : Units) (id : Nat) : (takeTicket u id).pd = u.pd := rfl
@[simp] theorem takeTicket_fences (u : Units) (id : Nat) : (takeTicket u id).fences = u.fences := rfl
@[simp] theorem takeTicket_ddr (u : Units) (id : Nat) : (takeTicket u id).ddr = u.ddr := rfl
@[simp] theorem takeTicket_hng (u : Units) (id : Nat) : (takeTicket u id).hng = u.hng := rfl
@[simp] theorem takeTicket_drf (u : Units) (id : Nat) : (takeTicket u id).drf = u.drf := rfl
@[simp] theorem takeTicket_keep (u : Units) (id : Nat) : (takeTicket u id).keep = u.keep := rfl
@[simp] theorem takeTicket_media (u : Units) (id : Nat) : (takeTicket u id).media = u.media := rfl
@[simp] theorem takeTicket_cex (u : Units) (id : Nat) : (takeTicket u id).cex = u.cex := rfl
@[simp] theorem takeTicket_grp (u : Units) (id : Nat) : (takeTicket u id).grp = u.grp := rfl
@[simp] theorem takeTicket_repairs (u : Units) (id : Nat) : (takeTicket u id).repairs = u.repairs := rfl
@[simp] theorem takeTicket_patchLog (u : Units) (id : Nat) : (takeTicket u id).patchLog = u.patchLog := rfl
@[simp] theorem takeTicket_adm (u : Units) (id : Nat) : (takeTicket u id).adm = u.adm := rfl
@[simp] theorem takeTicket_arbs (u : Units) (id : Nat) : (takeTicket u id).arbs = u.arbs := rfl
@[simp] theorem takeTicket_audit (u : Units) (id : Nat) : (takeTicket u id).audit = u.audit := rfl
@[simp] theorem takeTicket_pwr (u : Units) (id : Nat) : (takeTicket u id).pwr = u.pwr := rfl
@[simp] theorem takeTicket_boot (u : Units) (id : Nat) : (takeTicket u id).boot = u.boot := rfl
@[simp] theorem takeTicket_tap (u : Units) (id : Nat) : (takeTicket u id).tap = u.tap := rfl
@[simp] theorem takeTicket_badCtx (u : Units) (id : Nat) : (takeTicket u id).badCtx = u.badCtx := rfl
@[simp] theorem takeTicket_ctxRead (u : Units) (id : Nat) : (takeTicket u id).ctxRead = u.ctxRead := rfl

/-! ### returnTickets -/

@[simp] theorem returnTickets_v (u : Units) (id n : Nat) : (returnTickets u id n).v = u.v := rfl
@[simp] theorem returnTickets_now (u : Units) (id n : Nat) : (returnTickets u id n).now = u.now := rfl
@[simp] theorem returnTickets_fresh (u : Units) (id n : Nat) : (returnTickets u id n).fresh = u.fresh := rfl
@[simp] theorem returnTickets_out (u : Units) (id n : Nat) : (returnTickets u id n).out = u.out := rfl
@[simp] theorem returnTickets_regs (u : Units) (id n : Nat) : (returnTickets u id n).regs = u.regs := rfl
@[simp] theorem returnTickets_ports (u : Units) (id n : Nat) : (returnTickets u id n).ports = u.ports := rfl
@[simp] theorem returnTickets_cache (u : Units) (id n : Nat) : (returnTickets u id n).cache = u.cache := rfl
@[simp] theorem returnTickets_ctxEven (u : Units) (id n : Nat) : (returnTickets u id n).ctxEven = u.ctxEven := rfl
@[simp] theorem returnTickets_ctxOdd (u : Units) (id n : Nat) : (returnTickets u id n).ctxOdd = u.ctxOdd := rfl
@[simp] theorem returnTickets_ctxStaged (u : Units) (id n : Nat) : (returnTickets u id n).ctxStaged = u.ctxStaged := rfl
@[simp] theorem returnTickets_flushSeq (u : Units) (id n : Nat) : (returnTickets u id n).flushSeq = u.flushSeq := rfl
@[simp] theorem returnTickets_keys (u : Units) (id n : Nat) : (returnTickets u id n).keys = u.keys := rfl
@[simp] theorem returnTickets_keyPort (u : Units) (id n : Nat) : (returnTickets u id n).keyPort = u.keyPort := rfl
@[simp] theorem returnTickets_net (u : Units) (id n : Nat) : (returnTickets u id n).net = u.net := rfl
@[simp] theorem returnTickets_nextPkt (u : Units) (id n : Nat) : (returnTickets u id n).nextPkt = u.nextPkt := rfl
@[simp] theorem returnTickets_stopped (u : Units) (id n : Nat) : (returnTickets u id n).stopped = u.stopped := rfl
@[simp] theorem returnTickets_slotMode (u : Units) (id n : Nat) : (returnTickets u id n).slotMode = u.slotMode := rfl
@[simp] theorem returnTickets_slices (u : Units) (id n : Nat) : (returnTickets u id n).slices = u.slices := rfl
@[simp] theorem returnTickets_stg (u : Units) (id n : Nat) : (returnTickets u id n).stg = u.stg := rfl
@[simp] theorem returnTickets_rings (u : Units) (id n : Nat) : (returnTickets u id n).rings = u.rings := rfl
@[simp] theorem returnTickets_tele (u : Units) (id n : Nat) : (returnTickets u id n).tele = u.tele := rfl
@[simp] theorem returnTickets_pd (u : Units) (id n : Nat) : (returnTickets u id n).pd = u.pd := rfl
@[simp] theorem returnTickets_fences (u : Units) (id n : Nat) : (returnTickets u id n).fences = u.fences := rfl
@[simp] theorem returnTickets_ddr (u : Units) (id n : Nat) : (returnTickets u id n).ddr = u.ddr := rfl
@[simp] theorem returnTickets_hng (u : Units) (id n : Nat) : (returnTickets u id n).hng = u.hng := rfl
@[simp] theorem returnTickets_drf (u : Units) (id n : Nat) : (returnTickets u id n).drf = u.drf := rfl
@[simp] theorem returnTickets_keep (u : Units) (id n : Nat) : (returnTickets u id n).keep = u.keep := rfl
@[simp] theorem returnTickets_media (u : Units) (id n : Nat) : (returnTickets u id n).media = u.media := rfl
@[simp] theorem returnTickets_cex (u : Units) (id n : Nat) : (returnTickets u id n).cex = u.cex := rfl
@[simp] theorem returnTickets_grp (u : Units) (id n : Nat) : (returnTickets u id n).grp = u.grp := rfl
@[simp] theorem returnTickets_repairs (u : Units) (id n : Nat) : (returnTickets u id n).repairs = u.repairs := rfl
@[simp] theorem returnTickets_patchLog (u : Units) (id n : Nat) : (returnTickets u id n).patchLog = u.patchLog := rfl
@[simp] theorem returnTickets_adm (u : Units) (id n : Nat) : (returnTickets u id n).adm = u.adm := rfl
@[simp] theorem returnTickets_arbs (u : Units) (id n : Nat) : (returnTickets u id n).arbs = u.arbs := rfl
@[simp] theorem returnTickets_audit (u : Units) (id n : Nat) : (returnTickets u id n).audit = u.audit := rfl
@[simp] theorem returnTickets_pwr (u : Units) (id n : Nat) : (returnTickets u id n).pwr = u.pwr := rfl
@[simp] theorem returnTickets_boot (u : Units) (id n : Nat) : (returnTickets u id n).boot = u.boot := rfl
@[simp] theorem returnTickets_tap (u : Units) (id n : Nat) : (returnTickets u id n).tap = u.tap := rfl
@[simp] theorem returnTickets_badCtx (u : Units) (id n : Nat) : (returnTickets u id n).badCtx = u.badCtx := rfl
@[simp] theorem returnTickets_ctxRead (u : Units) (id n : Nat) : (returnTickets u id n).ctxRead = u.ctxRead := rfl

/-! ### sendPkt -/

@[simp] theorem sendPkt_v (u : Units) (k : Pkt) : (sendPkt u k).v = u.v := rfl
@[simp] theorem sendPkt_now (u : Units) (k : Pkt) : (sendPkt u k).now = u.now := rfl
@[simp] theorem sendPkt_fresh (u : Units) (k : Pkt) : (sendPkt u k).fresh = u.fresh := rfl
@[simp] theorem sendPkt_out (u : Units) (k : Pkt) : (sendPkt u k).out = u.out := rfl
@[simp] theorem sendPkt_regs (u : Units) (k : Pkt) : (sendPkt u k).regs = u.regs := rfl
@[simp] theorem sendPkt_ports (u : Units) (k : Pkt) : (sendPkt u k).ports = u.ports := rfl
@[simp] theorem sendPkt_cache (u : Units) (k : Pkt) : (sendPkt u k).cache = u.cache := rfl
@[simp] theorem sendPkt_ctxEven (u : Units) (k : Pkt) : (sendPkt u k).ctxEven = u.ctxEven := rfl
@[simp] theorem sendPkt_ctxOdd (u : Units) (k : Pkt) : (sendPkt u k).ctxOdd = u.ctxOdd := rfl
@[simp] theorem sendPkt_ctxStaged (u : Units) (k : Pkt) : (sendPkt u k).ctxStaged = u.ctxStaged := rfl
@[simp] theorem sendPkt_flushSeq (u : Units) (k : Pkt) : (sendPkt u k).flushSeq = u.flushSeq := rfl
@[simp] theorem sendPkt_keys (u : Units) (k : Pkt) : (sendPkt u k).keys = u.keys := rfl
@[simp] theorem sendPkt_keyPort (u : Units) (k : Pkt) : (sendPkt u k).keyPort = u.keyPort := rfl
@[simp] theorem sendPkt_stopped (u : Units) (k : Pkt) : (sendPkt u k).stopped = u.stopped := rfl
@[simp] theorem sendPkt_tickets (u : Units) (k : Pkt) : (sendPkt u k).tickets = u.tickets := rfl
@[simp] theorem sendPkt_slotMode (u : Units) (k : Pkt) : (sendPkt u k).slotMode = u.slotMode := rfl
@[simp] theorem sendPkt_slices (u : Units) (k : Pkt) : (sendPkt u k).slices = u.slices := rfl
@[simp] theorem sendPkt_stg (u : Units) (k : Pkt) : (sendPkt u k).stg = u.stg := rfl
@[simp] theorem sendPkt_rings (u : Units) (k : Pkt) : (sendPkt u k).rings = u.rings := rfl
@[simp] theorem sendPkt_tele (u : Units) (k : Pkt) : (sendPkt u k).tele = u.tele := rfl
@[simp] theorem sendPkt_pd (u : Units) (k : Pkt) : (sendPkt u k).pd = u.pd := rfl
@[simp] theorem sendPkt_fences (u : Units) (k : Pkt) : (sendPkt u k).fences = u.fences := rfl
@[simp] theorem sendPkt_ddr (u : Units) (k : Pkt) : (sendPkt u k).ddr = u.ddr := rfl
@[simp] theorem sendPkt_hng (u : Units) (k : Pkt) : (sendPkt u k).hng = u.hng := rfl
@[simp] theorem sendPkt_drf (u : Units) (k : Pkt) : (sendPkt u k).drf = u.drf := rfl
@[simp] theorem sendPkt_keep (u : Units) (k : Pkt) : (sendPkt u k).keep = u.keep := rfl
@[simp] theorem sendPkt_media (u : Units) (k : Pkt) : (sendPkt u k).media = u.media := rfl
@[simp] theorem sendPkt_cex (u : Units) (k : Pkt) : (sendPkt u k).cex = u.cex := rfl
@[simp] theorem sendPkt_grp (u : Units) (k : Pkt) : (sendPkt u k).grp = u.grp := rfl
@[simp] theorem sendPkt_repairs (u : Units) (k : Pkt) : (sendPkt u k).repairs = u.repairs := rfl
@[simp] theorem sendPkt_patchLog (u : Units) (k : Pkt) : (sendPkt u k).patchLog = u.patchLog := rfl
@[simp] theorem sendPkt_adm (u : Units) (k : Pkt) : (sendPkt u k).adm = u.adm := rfl
@[simp] theorem sendPkt_arbs (u : Units) (k : Pkt) : (sendPkt u k).arbs = u.arbs := rfl
@[simp] theorem sendPkt_audit (u : Units) (k : Pkt) : (sendPkt u k).audit = u.audit := rfl
@[simp] theorem sendPkt_pwr (u : Units) (k : Pkt) : (sendPkt u k).pwr = u.pwr := rfl
@[simp] theorem sendPkt_boot (u : Units) (k : Pkt) : (sendPkt u k).boot = u.boot := rfl
@[simp] theorem sendPkt_tap (u : Units) (k : Pkt) : (sendPkt u k).tap = u.tap := rfl
@[simp] theorem sendPkt_badCtx (u : Units) (k : Pkt) : (sendPkt u k).badCtx = u.badCtx := rfl
@[simp] theorem sendPkt_ctxRead (u : Units) (k : Pkt) : (sendPkt u k).ctxRead = u.ctxRead := rfl

/-! ### dropPkt -/

@[simp] theorem dropPkt_v (u : Units) (id : Nat) : (dropPkt u id).v = u.v := rfl
@[simp] theorem dropPkt_now (u : Units) (id : Nat) : (dropPkt u id).now = u.now := rfl
@[simp] theorem dropPkt_fresh (u : Units) (id : Nat) : (dropPkt u id).fresh = u.fresh := rfl
@[simp] theorem dropPkt_out (u : Units) (id : Nat) : (dropPkt u id).out = u.out := rfl
@[simp] theorem dropPkt_regs (u : Units) (id : Nat) : (dropPkt u id).regs = u.regs := rfl
@[simp] theorem dropPkt_ports (u : Units) (id : Nat) : (dropPkt u id).ports = u.ports := rfl
@[simp] theorem dropPkt_cache (u : Units) (id : Nat) : (dropPkt u id).cache = u.cache := rfl
@[simp] theorem dropPkt_ctxEven (u : Units) (id : Nat) : (dropPkt u id).ctxEven = u.ctxEven := rfl
@[simp] theorem dropPkt_ctxOdd (u : Units) (id : Nat) : (dropPkt u id).ctxOdd = u.ctxOdd := rfl
@[simp] theorem dropPkt_ctxStaged (u : Units) (id : Nat) : (dropPkt u id).ctxStaged = u.ctxStaged := rfl
@[simp] theorem dropPkt_flushSeq (u : Units) (id : Nat) : (dropPkt u id).flushSeq = u.flushSeq := rfl
@[simp] theorem dropPkt_keys (u : Units) (id : Nat) : (dropPkt u id).keys = u.keys := rfl
@[simp] theorem dropPkt_keyPort (u : Units) (id : Nat) : (dropPkt u id).keyPort = u.keyPort := rfl
@[simp] theorem dropPkt_nextPkt (u : Units) (id : Nat) : (dropPkt u id).nextPkt = u.nextPkt := rfl
@[simp] theorem dropPkt_stopped (u : Units) (id : Nat) : (dropPkt u id).stopped = u.stopped := rfl
@[simp] theorem dropPkt_tickets (u : Units) (id : Nat) : (dropPkt u id).tickets = u.tickets := rfl
@[simp] theorem dropPkt_slotMode (u : Units) (id : Nat) : (dropPkt u id).slotMode = u.slotMode := rfl
@[simp] theorem dropPkt_slices (u : Units) (id : Nat) : (dropPkt u id).slices = u.slices := rfl
@[simp] theorem dropPkt_stg (u : Units) (id : Nat) : (dropPkt u id).stg = u.stg := rfl
@[simp] theorem dropPkt_rings (u : Units) (id : Nat) : (dropPkt u id).rings = u.rings := rfl
@[simp] theorem dropPkt_tele (u : Units) (id : Nat) : (dropPkt u id).tele = u.tele := rfl
@[simp] theorem dropPkt_pd (u : Units) (id : Nat) : (dropPkt u id).pd = u.pd := rfl
@[simp] theorem dropPkt_fences (u : Units) (id : Nat) : (dropPkt u id).fences = u.fences := rfl
@[simp] theorem dropPkt_ddr (u : Units) (id : Nat) : (dropPkt u id).ddr = u.ddr := rfl
@[simp] theorem dropPkt_hng (u : Units) (id : Nat) : (dropPkt u id).hng = u.hng := rfl
@[simp] theorem dropPkt_drf (u : Units) (id : Nat) : (dropPkt u id).drf = u.drf := rfl
@[simp] theorem dropPkt_keep (u : Units) (id : Nat) : (dropPkt u id).keep = u.keep := rfl
@[simp] theorem dropPkt_media (u : Units) (id : Nat) : (dropPkt u id).media = u.media := rfl
@[simp] theorem dropPkt_cex (u : Units) (id : Nat) : (dropPkt u id).cex = u.cex := rfl
@[simp] theorem dropPkt_grp (u : Units) (id : Nat) : (dropPkt u id).grp = u.grp := rfl
@[simp] theorem dropPkt_repairs (u : Units) (id : Nat) : (dropPkt u id).repairs = u.repairs := rfl
@[simp] theorem dropPkt_patchLog (u : Units) (id : Nat) : (dropPkt u id).patchLog = u.patchLog := rfl
@[simp] theorem dropPkt_adm (u : Units) (id : Nat) : (dropPkt u id).adm = u.adm := rfl
@[simp] theorem dropPkt_arbs (u : Units) (id : Nat) : (dropPkt u id).arbs = u.arbs := rfl
@[simp] theorem dropPkt_audit (u : Units) (id : Nat) : (dropPkt u id).audit = u.audit := rfl
@[simp] theorem dropPkt_pwr (u : Units) (id : Nat) : (dropPkt u id).pwr = u.pwr := rfl
@[simp] theorem dropPkt_boot (u : Units) (id : Nat) : (dropPkt u id).boot = u.boot := rfl
@[simp] theorem dropPkt_tap (u : Units) (id : Nat) : (dropPkt u id).tap = u.tap := rfl
@[simp] theorem dropPkt_badCtx (u : Units) (id : Nat) : (dropPkt u id).badCtx = u.badCtx := rfl
@[simp] theorem dropPkt_ctxRead (u : Units) (id : Nat) : (dropPkt u id).ctxRead = u.ctxRead := rfl

/-! ### setSlice -/

@[simp] theorem setSlice_v (u : Units) (k : Nat) (x : Slice) : (setSlice u k x).v = u.v := rfl
@[simp] theorem setSlice_now (u : Units) (k : Nat) (x : Slice) : (setSlice u k x).now = u.now := rfl
@[simp] theorem setSlice_fresh (u : Units) (k : Nat) (x : Slice) : (setSlice u k x).fresh = u.fresh := rfl
@[simp] theorem setSlice_out (u : Units) (k : Nat) (x : Slice) : (setSlice u k x).out = u.out := rfl
@[simp] theorem setSlice_regs (u : Units) (k : Nat) (x : Slice) : (setSlice u k x).regs = u.regs := rfl
@[simp] theorem setSlice_ports (u : Units) (k : Nat) (x : Slice) : (setSlice u k x).ports = u.ports := rfl
@[simp] theorem setSlice_cache (u : Units) (k : Nat) (x : Slice) : (setSlice u k x).cache = u.cache := rfl
@[simp] theorem setSlice_ctxEven (u : Units) (k : Nat) (x : Slice) : (setSlice u k x).ctxEven = u.ctxEven := rfl
@[simp] theorem setSlice_ctxOdd (u : Units) (k : Nat) (x : Slice) : (setSlice u k x).ctxOdd = u.ctxOdd := rfl
@[simp] theorem setSlice_ctxStaged (u : Units) (k : Nat) (x : Slice) : (setSlice u k x).ctxStaged = u.ctxStaged := rfl
@[simp] theorem setSlice_flushSeq (u : Units) (k : Nat) (x : Slice) : (setSlice u k x).flushSeq = u.flushSeq := rfl
@[simp] theorem setSlice_keys (u : Units) (k : Nat) (x : Slice) : (setSlice u k x).keys = u.keys := rfl
@[simp] theorem setSlice_keyPort (u : Units) (k : Nat) (x : Slice) : (setSlice u k x).keyPort = u.keyPort := rfl
@[simp] theorem setSlice_net (u : Units) (k : Nat) (x : Slice) : (setSlice u k x).net = u.net := rfl
@[simp] theorem setSlice_nextPkt (u : Units) (k : Nat) (x : Slice) : (setSlice u k x).nextPkt = u.nextPkt := rfl
@[simp] theorem setSlice_stopped (u : Units) (k : Nat) (x : Slice) : (setSlice u k x).stopped = u.stopped := rfl
@[simp] theorem setSlice_tickets (u : Units) (k : Nat) (x : Slice) : (setSlice u k x).tickets = u.tickets := rfl
@[simp] theorem setSlice_slotMode (u : Units) (k : Nat) (x : Slice) : (setSlice u k x).slotMode = u.slotMode := rfl
@[simp] theorem setSlice_stg (u : Units) (k : Nat) (x : Slice) : (setSlice u k x).stg = u.stg := rfl
@[simp] theorem setSlice_rings (u : Units) (k : Nat) (x : Slice) : (setSlice u k x).rings = u.rings := rfl
@[simp] theorem setSlice_tele (u : Units) (k : Nat) (x : Slice) : (setSlice u k x).tele = u.tele := rfl
@[simp] theorem setSlice_pd (u : Units) (k : Nat) (x : Slice) : (setSlice u k x).pd = u.pd := rfl
@[simp] theorem setSlice_fences (u : Units) (k : Nat) (x : Slice) : (setSlice u k x).fences = u.fences := rfl
@[simp] theorem setSlice_ddr (u : Units) (k : Nat) (x : Slice) : (setSlice u k x).ddr = u.ddr := rfl
@[simp] theorem setSlice_hng (u : Units) (k : Nat) (x : Slice) : (setSlice u k x).hng = u.hng := rfl
@[simp] theorem setSlice_drf (u : Units) (k : Nat) (x : Slice) : (setSlice u k x).drf = u.drf := rfl
@[simp] theorem setSlice_keep (u : Units) (k : Nat) (x : Slice) : (setSlice u k x).keep = u.keep := rfl
@[simp] theorem setSlice_media (u : Units) (k : Nat) (x : Slice) : (setSlice u k x).media = u.media := rfl
@[simp] theorem setSlice_cex (u : Units) (k : Nat) (x : Slice) : (setSlice u k x).cex = u.cex := rfl
@[simp] theorem setSlice_grp (u : Units) (k : Nat) (x : Slice) : (setSlice u k x).grp = u.grp := rfl
@[simp] theorem setSlice_repairs (u : Units) (k : Nat) (x : Slice) : (setSlice u k x).repairs = u.repairs := rfl
@[simp] theorem setSlice_patchLog (u : Units) (k : Nat) (x : Slice) : (setSlice u k x).patchLog = u.patchLog := rfl
@[simp] theorem setSlice_adm (u : Units) (k : Nat) (x : Slice) : (setSlice u k x).adm = u.adm := rfl
@[simp] theorem setSlice_arbs (u : Units) (k : Nat) (x : Slice) : (setSlice u k x).arbs = u.arbs := rfl
@[simp] theorem setSlice_audit (u : Units) (k : Nat) (x : Slice) : (setSlice u k x).audit = u.audit := rfl
@[simp] theorem setSlice_pwr (u : Units) (k : Nat) (x : Slice) : (setSlice u k x).pwr = u.pwr := rfl
@[simp] theorem setSlice_boot (u : Units) (k : Nat) (x : Slice) : (setSlice u k x).boot = u.boot := rfl
@[simp] theorem setSlice_tap (u : Units) (k : Nat) (x : Slice) : (setSlice u k x).tap = u.tap := rfl
@[simp] theorem setSlice_badCtx (u : Units) (k : Nat) (x : Slice) : (setSlice u k x).badCtx = u.badCtx := rfl
@[simp] theorem setSlice_ctxRead (u : Units) (k : Nat) (x : Slice) : (setSlice u k x).ctxRead = u.ctxRead := rfl

/-! ### setDdr -/

@[simp] theorem setDdr_v (u : Units) (c : Nat) (x : Ddr) : (setDdr u c x).v = u.v := rfl
@[simp] theorem setDdr_now (u : Units) (c : Nat) (x : Ddr) : (setDdr u c x).now = u.now := rfl
@[simp] theorem setDdr_fresh (u : Units) (c : Nat) (x : Ddr) : (setDdr u c x).fresh = u.fresh := rfl
@[simp] theorem setDdr_out (u : Units) (c : Nat) (x : Ddr) : (setDdr u c x).out = u.out := rfl
@[simp] theorem setDdr_regs (u : Units) (c : Nat) (x : Ddr) : (setDdr u c x).regs = u.regs := rfl
@[simp] theorem setDdr_ports (u : Units) (c : Nat) (x : Ddr) : (setDdr u c x).ports = u.ports := rfl
@[simp] theorem setDdr_cache (u : Units) (c : Nat) (x : Ddr) : (setDdr u c x).cache = u.cache := rfl
@[simp] theorem setDdr_ctxEven (u : Units) (c : Nat) (x : Ddr) : (setDdr u c x).ctxEven = u.ctxEven := rfl
@[simp] theorem setDdr_ctxOdd (u : Units) (c : Nat) (x : Ddr) : (setDdr u c x).ctxOdd = u.ctxOdd := rfl
@[simp] theorem setDdr_ctxStaged (u : Units) (c : Nat) (x : Ddr) : (setDdr u c x).ctxStaged = u.ctxStaged := rfl
@[simp] theorem setDdr_flushSeq (u : Units) (c : Nat) (x : Ddr) : (setDdr u c x).flushSeq = u.flushSeq := rfl
@[simp] theorem setDdr_keys (u : Units) (c : Nat) (x : Ddr) : (setDdr u c x).keys = u.keys := rfl
@[simp] theorem setDdr_keyPort (u : Units) (c : Nat) (x : Ddr) : (setDdr u c x).keyPort = u.keyPort := rfl
@[simp] theorem setDdr_net (u : Units) (c : Nat) (x : Ddr) : (setDdr u c x).net = u.net := rfl
@[simp] theorem setDdr_nextPkt (u : Units) (c : Nat) (x : Ddr) : (setDdr u c x).nextPkt = u.nextPkt := rfl
@[simp] theorem setDdr_stopped (u : Units) (c : Nat) (x : Ddr) : (setDdr u c x).stopped = u.stopped := rfl
@[simp] theorem setDdr_tickets (u : Units) (c : Nat) (x : Ddr) : (setDdr u c x).tickets = u.tickets := rfl
@[simp] theorem setDdr_slotMode (u : Units) (c : Nat) (x : Ddr) : (setDdr u c x).slotMode = u.slotMode := rfl
@[simp] theorem setDdr_slices (u : Units) (c : Nat) (x : Ddr) : (setDdr u c x).slices = u.slices := rfl
@[simp] theorem setDdr_stg (u : Units) (c : Nat) (x : Ddr) : (setDdr u c x).stg = u.stg := rfl
@[simp] theorem setDdr_rings (u : Units) (c : Nat) (x : Ddr) : (setDdr u c x).rings = u.rings := rfl
@[simp] theorem setDdr_tele (u : Units) (c : Nat) (x : Ddr) : (setDdr u c x).tele = u.tele := rfl
@[simp] theorem setDdr_pd (u : Units) (c : Nat) (x : Ddr) : (setDdr u c x).pd = u.pd := rfl
@[simp] theorem setDdr_fences (u : Units) (c : Nat) (x : Ddr) : (setDdr u c x).fences = u.fences := rfl
@[simp] theorem setDdr_hng (u : Units) (c : Nat) (x : Ddr) : (setDdr u c x).hng = u.hng := rfl
@[simp] theorem setDdr_drf (u : Units) (c : Nat) (x : Ddr) : (setDdr u c x).drf = u.drf := rfl
@[simp] theorem setDdr_keep (u : Units) (c : Nat) (x : Ddr) : (setDdr u c x).keep = u.keep := rfl
@[simp] theorem setDdr_media (u : Units) (c : Nat) (x : Ddr) : (setDdr u c x).media = u.media := rfl
@[simp] theorem setDdr_cex (u : Units) (c : Nat) (x : Ddr) : (setDdr u c x).cex = u.cex := rfl
@[simp] theorem setDdr_grp (u : Units) (c : Nat) (x : Ddr) : (setDdr u c x).grp = u.grp := rfl
@[simp] theorem setDdr_repairs (u : Units) (c : Nat) (x : Ddr) : (setDdr u c x).repairs = u.repairs := rfl
@[simp] theorem setDdr_patchLog (u : Units) (c : Nat) (x : Ddr) : (setDdr u c x).patchLog = u.patchLog := rfl
@[simp] theorem setDdr_adm (u : Units) (c : Nat) (x : Ddr) : (setDdr u c x).adm = u.adm := rfl
@[simp] theorem setDdr_arbs (u : Units) (c : Nat) (x : Ddr) : (setDdr u c x).arbs = u.arbs := rfl
@[simp] theorem setDdr_audit (u : Units) (c : Nat) (x : Ddr) : (setDdr u c x).audit = u.audit := rfl
@[simp] theorem setDdr_pwr (u : Units) (c : Nat) (x : Ddr) : (setDdr u c x).pwr = u.pwr := rfl
@[simp] theorem setDdr_boot (u : Units) (c : Nat) (x : Ddr) : (setDdr u c x).boot = u.boot := rfl
@[simp] theorem setDdr_tap (u : Units) (c : Nat) (x : Ddr) : (setDdr u c x).tap = u.tap := rfl
@[simp] theorem setDdr_badCtx (u : Units) (c : Nat) (x : Ddr) : (setDdr u c x).badCtx = u.badCtx := rfl
@[simp] theorem setDdr_ctxRead (u : Units) (c : Nat) (x : Ddr) : (setDdr u c x).ctxRead = u.ctxRead := rfl

/-! ### setSub -/

@[simp] theorem setSub_v (u : Units) (c k : Nat) (x : Sub) : (setSub u c k x).v = u.v := by unfold setSub; split <;> rfl
@[simp] theorem setSub_now (u : Units) (c k : Nat) (x : Sub) : (setSub u c k x).now = u.now := by unfold setSub; split <;> rfl
@[simp] theorem setSub_fresh (u : Units) (c k : Nat) (x : Sub) : (setSub u c k x).fresh = u.fresh := by unfold setSub; split <;> rfl
@[simp] theorem setSub_out (u : Units) (c k : Nat) (x : Sub) : (setSub u c k x).out = u.out := by unfold setSub; split <;> rfl
@[simp] theorem setSub_regs (u : Units) (c k : Nat) (x : Sub) : (setSub u c k x).regs = u.regs := by unfold setSub; split <;> rfl
@[simp] theorem setSub_ports (u : Units) (c k : Nat) (x : Sub) : (setSub u c k x).ports = u.ports := by unfold setSub; split <;> rfl
@[simp] theorem setSub_cache (u : Units) (c k : Nat) (x : Sub) : (setSub u c k x).cache = u.cache := by unfold setSub; split <;> rfl
@[simp] theorem setSub_ctxEven (u : Units) (c k : Nat) (x : Sub) : (setSub u c k x).ctxEven = u.ctxEven := by unfold setSub; split <;> rfl
@[simp] theorem setSub_ctxOdd (u : Units) (c k : Nat) (x : Sub) : (setSub u c k x).ctxOdd = u.ctxOdd := by unfold setSub; split <;> rfl
@[simp] theorem setSub_ctxStaged (u : Units) (c k : Nat) (x : Sub) : (setSub u c k x).ctxStaged = u.ctxStaged := by unfold setSub; split <;> rfl
@[simp] theorem setSub_flushSeq (u : Units) (c k : Nat) (x : Sub) : (setSub u c k x).flushSeq = u.flushSeq := by unfold setSub; split <;> rfl
@[simp] theorem setSub_keys (u : Units) (c k : Nat) (x : Sub) : (setSub u c k x).keys = u.keys := by unfold setSub; split <;> rfl
@[simp] theorem setSub_keyPort (u : Units) (c k : Nat) (x : Sub) : (setSub u c k x).keyPort = u.keyPort := by unfold setSub; split <;> rfl
@[simp] theorem setSub_net (u : Units) (c k : Nat) (x : Sub) : (setSub u c k x).net = u.net := by unfold setSub; split <;> rfl
@[simp] theorem setSub_nextPkt (u : Units) (c k : Nat) (x : Sub) : (setSub u c k x).nextPkt = u.nextPkt := by unfold setSub; split <;> rfl
@[simp] theorem setSub_stopped (u : Units) (c k : Nat) (x : Sub) : (setSub u c k x).stopped = u.stopped := by unfold setSub; split <;> rfl
@[simp] theorem setSub_tickets (u : Units) (c k : Nat) (x : Sub) : (setSub u c k x).tickets = u.tickets := by unfold setSub; split <;> rfl
@[simp] theorem setSub_slotMode (u : Units) (c k : Nat) (x : Sub) : (setSub u c k x).slotMode = u.slotMode := by unfold setSub; split <;> rfl
@[simp] theorem setSub_slices (u : Units) (c k : Nat) (x : Sub) : (setSub u c k x).slices = u.slices := by unfold setSub; split <;> rfl
@[simp] theorem setSub_stg (u : Units) (c k : Nat) (x : Sub) : (setSub u c k x).stg = u.stg := by unfold setSub; split <;> rfl
@[simp] theorem setSub_rings (u : Units) (c k : Nat) (x : Sub) : (setSub u c k x).rings = u.rings := by unfold setSub; split <;> rfl
@[simp] theorem setSub_tele (u : Units) (c k : Nat) (x : Sub) : (setSub u c k x).tele = u.tele := by unfold setSub; split <;> rfl
@[simp] theorem setSub_pd (u : Units) (c k : Nat) (x : Sub) : (setSub u c k x).pd = u.pd := by unfold setSub; split <;> rfl
@[simp] theorem setSub_fences (u : Units) (c k : Nat) (x : Sub) : (setSub u c k x).fences = u.fences := by unfold setSub; split <;> rfl
@[simp] theorem setSub_hng (u : Units) (c k : Nat) (x : Sub) : (setSub u c k x).hng = u.hng := by unfold setSub; split <;> rfl
@[simp] theorem setSub_drf (u : Units) (c k : Nat) (x : Sub) : (setSub u c k x).drf = u.drf := by unfold setSub; split <;> rfl
@[simp] theorem setSub_keep (u : Units) (c k : Nat) (x : Sub) : (setSub u c k x).keep = u.keep := by unfold setSub; split <;> rfl
@[simp] theorem setSub_media (u : Units) (c k : Nat) (x : Sub) : (setSub u c k x).media = u.media := by unfold setSub; split <;> rfl
@[simp] theorem setSub_cex (u : Units) (c k : Nat) (x : Sub) : (setSub u c k x).cex = u.cex := by unfold setSub; split <;> rfl
@[simp] theorem setSub_grp (u : Units) (c k : Nat) (x : Sub) : (setSub u c k x).grp = u.grp := by unfold setSub; split <;> rfl
@[simp] theorem setSub_repairs (u : Units) (c k : Nat) (x : Sub) : (setSub u c k x).repairs = u.repairs := by unfold setSub; split <;> rfl
@[simp] theorem setSub_patchLog (u : Units) (c k : Nat) (x : Sub) : (setSub u c k x).patchLog = u.patchLog := by unfold setSub; split <;> rfl
@[simp] theorem setSub_adm (u : Units) (c k : Nat) (x : Sub) : (setSub u c k x).adm = u.adm := by unfold setSub; split <;> rfl
@[simp] theorem setSub_arbs (u : Units) (c k : Nat) (x : Sub) : (setSub u c k x).arbs = u.arbs := by unfold setSub; split <;> rfl
@[simp] theorem setSub_audit (u : Units) (c k : Nat) (x : Sub) : (setSub u c k x).audit = u.audit := by unfold setSub; split <;> rfl
@[simp] theorem setSub_pwr (u : Units) (c k : Nat) (x : Sub) : (setSub u c k x).pwr = u.pwr := by unfold setSub; split <;> rfl
@[simp] theorem setSub_boot (u : Units) (c k : Nat) (x : Sub) : (setSub u c k x).boot = u.boot := by unfold setSub; split <;> rfl
@[simp] theorem setSub_tap (u : Units) (c k : Nat) (x : Sub) : (setSub u c k x).tap = u.tap := by unfold setSub; split <;> rfl
@[simp] theorem setSub_badCtx (u : Units) (c k : Nat) (x : Sub) : (setSub u c k x).badCtx = u.badCtx := by unfold setSub; split <;> rfl
@[simp] theorem setSub_ctxRead (u : Units) (c k : Nat) (x : Sub) : (setSub u c k x).ctxRead = u.ctxRead := by unfold setSub; split <;> rfl

/-! ### setCex -/

@[simp] theorem setCex_v (u : Units) (n : Nat) (x : Cex) : (setCex u n x).v = u.v := rfl
@[simp] theorem setCex_now (u : Units) (n : Nat) (x : Cex) : (setCex u n x).now = u.now := rfl
@[simp] theorem setCex_fresh (u : Units) (n : Nat) (x : Cex) : (setCex u n x).fresh = u.fresh := rfl
@[simp] theorem setCex_out (u : Units) (n : Nat) (x : Cex) : (setCex u n x).out = u.out := rfl
@[simp] theorem setCex_regs (u : Units) (n : Nat) (x : Cex) : (setCex u n x).regs = u.regs := rfl
@[simp] theorem setCex_ports (u : Units) (n : Nat) (x : Cex) : (setCex u n x).ports = u.ports := rfl
@[simp] theorem setCex_cache (u : Units) (n : Nat) (x : Cex) : (setCex u n x).cache = u.cache := rfl
@[simp] theorem setCex_ctxEven (u : Units) (n : Nat) (x : Cex) : (setCex u n x).ctxEven = u.ctxEven := rfl
@[simp] theorem setCex_ctxOdd (u : Units) (n : Nat) (x : Cex) : (setCex u n x).ctxOdd = u.ctxOdd := rfl
@[simp] theorem setCex_ctxStaged (u : Units) (n : Nat) (x : Cex) : (setCex u n x).ctxStaged = u.ctxStaged := rfl
@[simp] theorem setCex_flushSeq (u : Units) (n : Nat) (x : Cex) : (setCex u n x).flushSeq = u.flushSeq := rfl
@[simp] theorem setCex_keys (u : Units) (n : Nat) (x : Cex) : (setCex u n x).keys = u.keys := rfl
@[simp] theorem setCex_keyPort (u : Units) (n : Nat) (x : Cex) : (setCex u n x).keyPort = u.keyPort := rfl
@[simp] theorem setCex_net (u : Units) (n : Nat) (x : Cex) : (setCex u n x).net = u.net := rfl
@[simp] theorem setCex_nextPkt (u : Units) (n : Nat) (x : Cex) : (setCex u n x).nextPkt = u.nextPkt := rfl
@[simp] theorem setCex_stopped (u : Units) (n : Nat) (x : Cex) : (setCex u n x).stopped = u.stopped := rfl
@[simp] theorem setCex_tickets (u : Units) (n : Nat) (x : Cex) : (setCex u n x).tickets = u.tickets := rfl
@[simp] theorem setCex_slotMode (u : Units) (n : Nat) (x : Cex) : (setCex u n x).slotMode = u.slotMode := rfl
@[simp] theorem setCex_slices (u : Units) (n : Nat) (x : Cex) : (setCex u n x).slices = u.slices := rfl
@[simp] theorem setCex_stg (u : Units) (n : Nat) (x : Cex) : (setCex u n x).stg = u.stg := rfl
@[simp] theorem setCex_rings (u : Units) (n : Nat) (x : Cex) : (setCex u n x).rings = u.rings := rfl
@[simp] theorem setCex_tele (u : Units) (n : Nat) (x : Cex) : (setCex u n x).tele = u.tele := rfl
@[simp] theorem setCex_pd (u : Units) (n : Nat) (x : Cex) : (setCex u n x).pd = u.pd := rfl
@[simp] theorem setCex_fences (u : Units) (n : Nat) (x : Cex) : (setCex u n x).fences = u.fences := rfl
@[simp] theorem setCex_ddr (u : Units) (n : Nat) (x : Cex) : (setCex u n x).ddr = u.ddr := rfl
@[simp] theorem setCex_hng (u : Units) (n : Nat) (x : Cex) : (setCex u n x).hng = u.hng := rfl
@[simp] theorem setCex_drf (u : Units) (n : Nat) (x : Cex) : (setCex u n x).drf = u.drf := rfl
@[simp] theorem setCex_keep (u : Units) (n : Nat) (x : Cex) : (setCex u n x).keep = u.keep := rfl
@[simp] theorem setCex_media (u : Units) (n : Nat) (x : Cex) : (setCex u n x).media = u.media := rfl
@[simp] theorem setCex_grp (u : Units) (n : Nat) (x : Cex) : (setCex u n x).grp = u.grp := rfl
@[simp] theorem setCex_repairs (u : Units) (n : Nat) (x : Cex) : (setCex u n x).repairs = u.repairs := rfl
@[simp] theorem setCex_patchLog (u : Units) (n : Nat) (x : Cex) : (setCex u n x).patchLog = u.patchLog := rfl
@[simp] theorem setCex_adm (u : Units) (n : Nat) (x : Cex) : (setCex u n x).adm = u.adm := rfl
@[simp] theorem setCex_arbs (u : Units) (n : Nat) (x : Cex) : (setCex u n x).arbs = u.arbs := rfl
@[simp] theorem setCex_audit (u : Units) (n : Nat) (x : Cex) : (setCex u n x).audit = u.audit := rfl
@[simp] theorem setCex_pwr (u : Units) (n : Nat) (x : Cex) : (setCex u n x).pwr = u.pwr := rfl
@[simp] theorem setCex_boot (u : Units) (n : Nat) (x : Cex) : (setCex u n x).boot = u.boot := rfl
@[simp] theorem setCex_tap (u : Units) (n : Nat) (x : Cex) : (setCex u n x).tap = u.tap := rfl
@[simp] theorem setCex_badCtx (u : Units) (n : Nat) (x : Cex) : (setCex u n x).badCtx = u.badCtx := rfl
@[simp] theorem setCex_ctxRead (u : Units) (n : Nat) (x : Cex) : (setCex u n x).ctxRead = u.ctxRead := rfl

/-! ### setDie -/

@[simp] theorem setDie_v (u : Units) (n d : Nat) (x : Die) : (setDie u n d x).v = u.v := rfl
@[simp] theorem setDie_now (u : Units) (n d : Nat) (x : Die) : (setDie u n d x).now = u.now := rfl
@[simp] theorem setDie_fresh (u : Units) (n d : Nat) (x : Die) : (setDie u n d x).fresh = u.fresh := rfl
@[simp] theorem setDie_out (u : Units) (n d : Nat) (x : Die) : (setDie u n d x).out = u.out := rfl
@[simp] theorem setDie_regs (u : Units) (n d : Nat) (x : Die) : (setDie u n d x).regs = u.regs := rfl
@[simp] theorem setDie_ports (u : Units) (n d : Nat) (x : Die) : (setDie u n d x).ports = u.ports := rfl
@[simp] theorem setDie_cache (u : Units) (n d : Nat) (x : Die) : (setDie u n d x).cache = u.cache := rfl
@[simp] theorem setDie_ctxEven (u : Units) (n d : Nat) (x : Die) : (setDie u n d x).ctxEven = u.ctxEven := rfl
@[simp] theorem setDie_ctxOdd (u : Units) (n d : Nat) (x : Die) : (setDie u n d x).ctxOdd = u.ctxOdd := rfl
@[simp] theorem setDie_ctxStaged (u : Units) (n d : Nat) (x : Die) : (setDie u n d x).ctxStaged = u.ctxStaged := rfl
@[simp] theorem setDie_flushSeq (u : Units) (n d : Nat) (x : Die) : (setDie u n d x).flushSeq = u.flushSeq := rfl
@[simp] theorem setDie_keys (u : Units) (n d : Nat) (x : Die) : (setDie u n d x).keys = u.keys := rfl
@[simp] theorem setDie_keyPort (u : Units) (n d : Nat) (x : Die) : (setDie u n d x).keyPort = u.keyPort := rfl
@[simp] theorem setDie_net (u : Units) (n d : Nat) (x : Die) : (setDie u n d x).net = u.net := rfl
@[simp] theorem setDie_nextPkt (u : Units) (n d : Nat) (x : Die) : (setDie u n d x).nextPkt = u.nextPkt := rfl
@[simp] theorem setDie_stopped (u : Units) (n d : Nat) (x : Die) : (setDie u n d x).stopped = u.stopped := rfl
@[simp] theorem setDie_tickets (u : Units) (n d : Nat) (x : Die) : (setDie u n d x).tickets = u.tickets := rfl
@[simp] theorem setDie_slotMode (u : Units) (n d : Nat) (x : Die) : (setDie u n d x).slotMode = u.slotMode := rfl
@[simp] theorem setDie_slices (u : Units) (n d : Nat) (x : Die) : (setDie u n d x).slices = u.slices := rfl
@[simp] theorem setDie_stg (u : Units) (n d : Nat) (x : Die) : (setDie u n d x).stg = u.stg := rfl
@[simp] theorem setDie_rings (u : Units) (n d : Nat) (x : Die) : (setDie u n d x).rings = u.rings := rfl
@[simp] theorem setDie_tele (u : Units) (n d : Nat) (x : Die) : (setDie u n d x).tele = u.tele := rfl
@[simp] theorem setDie_pd (u : Units) (n d : Nat) (x : Die) : (setDie u n d x).pd = u.pd := rfl
@[simp] theorem setDie_fences (u : Units) (n d : Nat) (x : Die) : (setDie u n d x).fences = u.fences := rfl
@[simp] theorem setDie_ddr (u : Units) (n d : Nat) (x : Die) : (setDie u n d x).ddr = u.ddr := rfl
@[simp] theorem setDie_hng (u : Units) (n d : Nat) (x : Die) : (setDie u n d x).hng = u.hng := rfl
@[simp] theorem setDie_drf (u : Units) (n d : Nat) (x : Die) : (setDie u n d x).drf = u.drf := rfl
@[simp] theorem setDie_keep (u : Units) (n d : Nat) (x : Die) : (setDie u n d x).keep = u.keep := rfl
@[simp] theorem setDie_media (u : Units) (n d : Nat) (x : Die) : (setDie u n d x).media = u.media := rfl
@[simp] theorem setDie_grp (u : Units) (n d : Nat) (x : Die) : (setDie u n d x).grp = u.grp := rfl
@[simp] theorem setDie_repairs (u : Units) (n d : Nat) (x : Die) : (setDie u n d x).repairs = u.repairs := rfl
@[simp] theorem setDie_patchLog (u : Units) (n d : Nat) (x : Die) : (setDie u n d x).patchLog = u.patchLog := rfl
@[simp] theorem setDie_adm (u : Units) (n d : Nat) (x : Die) : (setDie u n d x).adm = u.adm := rfl
@[simp] theorem setDie_arbs (u : Units) (n d : Nat) (x : Die) : (setDie u n d x).arbs = u.arbs := rfl
@[simp] theorem setDie_audit (u : Units) (n d : Nat) (x : Die) : (setDie u n d x).audit = u.audit := rfl
@[simp] theorem setDie_pwr (u : Units) (n d : Nat) (x : Die) : (setDie u n d x).pwr = u.pwr := rfl
@[simp] theorem setDie_boot (u : Units) (n d : Nat) (x : Die) : (setDie u n d x).boot = u.boot := rfl
@[simp] theorem setDie_tap (u : Units) (n d : Nat) (x : Die) : (setDie u n d x).tap = u.tap := rfl
@[simp] theorem setDie_badCtx (u : Units) (n d : Nat) (x : Die) : (setDie u n d x).badCtx = u.badCtx := rfl
@[simp] theorem setDie_ctxRead (u : Units) (n d : Nat) (x : Die) : (setDie u n d x).ctxRead = u.ctxRead := rfl

/-! ### setGrp -/

@[simp] theorem setGrp_v (u : Units) (g : Nat) (x : Grp) : (setGrp u g x).v = u.v := rfl
@[simp] theorem setGrp_now (u : Units) (g : Nat) (x : Grp) : (setGrp u g x).now = u.now := rfl
@[simp] theorem setGrp_fresh (u : Units) (g : Nat) (x : Grp) : (setGrp u g x).fresh = u.fresh := rfl
@[simp] theorem setGrp_out (u : Units) (g : Nat) (x : Grp) : (setGrp u g x).out = u.out := rfl
@[simp] theorem setGrp_regs (u : Units) (g : Nat) (x : Grp) : (setGrp u g x).regs = u.regs := rfl
@[simp] theorem setGrp_ports (u : Units) (g : Nat) (x : Grp) : (setGrp u g x).ports = u.ports := rfl
@[simp] theorem setGrp_cache (u : Units) (g : Nat) (x : Grp) : (setGrp u g x).cache = u.cache := rfl
@[simp] theorem setGrp_ctxEven (u : Units) (g : Nat) (x : Grp) : (setGrp u g x).ctxEven = u.ctxEven := rfl
@[simp] theorem setGrp_ctxOdd (u : Units) (g : Nat) (x : Grp) : (setGrp u g x).ctxOdd = u.ctxOdd := rfl
@[simp] theorem setGrp_ctxStaged (u : Units) (g : Nat) (x : Grp) : (setGrp u g x).ctxStaged = u.ctxStaged := rfl
@[simp] theorem setGrp_flushSeq (u : Units) (g : Nat) (x : Grp) : (setGrp u g x).flushSeq = u.flushSeq := rfl
@[simp] theorem setGrp_keys (u : Units) (g : Nat) (x : Grp) : (setGrp u g x).keys = u.keys := rfl
@[simp] theorem setGrp_keyPort (u : Units) (g : Nat) (x : Grp) : (setGrp u g x).keyPort = u.keyPort := rfl
@[simp] theorem setGrp_net (u : Units) (g : Nat) (x : Grp) : (setGrp u g x).net = u.net := rfl
@[simp] theorem setGrp_nextPkt (u : Units) (g : Nat) (x : Grp) : (setGrp u g x).nextPkt = u.nextPkt := rfl
@[simp] theorem setGrp_stopped (u : Units) (g : Nat) (x : Grp) : (setGrp u g x).stopped = u.stopped := rfl
@[simp] theorem setGrp_tickets (u : Units) (g : Nat) (x : Grp) : (setGrp u g x).tickets = u.tickets := rfl
@[simp] theorem setGrp_slotMode (u : Units) (g : Nat) (x : Grp) : (setGrp u g x).slotMode = u.slotMode := rfl
@[simp] theorem setGrp_slices (u : Units) (g : Nat) (x : Grp) : (setGrp u g x).slices = u.slices := rfl
@[simp] theorem setGrp_stg (u : Units) (g : Nat) (x : Grp) : (setGrp u g x).stg = u.stg := rfl
@[simp] theorem setGrp_rings (u : Units) (g : Nat) (x : Grp) : (setGrp u g x).rings = u.rings := rfl
@[simp] theorem setGrp_tele (u : Units) (g : Nat) (x : Grp) : (setGrp u g x).tele = u.tele := rfl
@[simp] theorem setGrp_pd (u : Units) (g : Nat) (x : Grp) : (setGrp u g x).pd = u.pd := rfl
@[simp] theorem setGrp_fences (u : Units) (g : Nat) (x : Grp) : (setGrp u g x).fences = u.fences := rfl
@[simp] theorem setGrp_ddr (u : Units) (g : Nat) (x : Grp) : (setGrp u g x).ddr = u.ddr := rfl
@[simp] theorem setGrp_hng (u : Units) (g : Nat) (x : Grp) : (setGrp u g x).hng = u.hng := rfl
@[simp] theorem setGrp_drf (u : Units) (g : Nat) (x : Grp) : (setGrp u g x).drf = u.drf := rfl
@[simp] theorem setGrp_keep (u : Units) (g : Nat) (x : Grp) : (setGrp u g x).keep = u.keep := rfl
@[simp] theorem setGrp_media (u : Units) (g : Nat) (x : Grp) : (setGrp u g x).media = u.media := rfl
@[simp] theorem setGrp_cex (u : Units) (g : Nat) (x : Grp) : (setGrp u g x).cex = u.cex := rfl
@[simp] theorem setGrp_repairs (u : Units) (g : Nat) (x : Grp) : (setGrp u g x).repairs = u.repairs := rfl
@[simp] theorem setGrp_patchLog (u : Units) (g : Nat) (x : Grp) : (setGrp u g x).patchLog = u.patchLog := rfl
@[simp] theorem setGrp_adm (u : Units) (g : Nat) (x : Grp) : (setGrp u g x).adm = u.adm := rfl
@[simp] theorem setGrp_arbs (u : Units) (g : Nat) (x : Grp) : (setGrp u g x).arbs = u.arbs := rfl
@[simp] theorem setGrp_audit (u : Units) (g : Nat) (x : Grp) : (setGrp u g x).audit = u.audit := rfl
@[simp] theorem setGrp_pwr (u : Units) (g : Nat) (x : Grp) : (setGrp u g x).pwr = u.pwr := rfl
@[simp] theorem setGrp_boot (u : Units) (g : Nat) (x : Grp) : (setGrp u g x).boot = u.boot := rfl
@[simp] theorem setGrp_tap (u : Units) (g : Nat) (x : Grp) : (setGrp u g x).tap = u.tap := rfl
@[simp] theorem setGrp_badCtx (u : Units) (g : Nat) (x : Grp) : (setGrp u g x).badCtx = u.badCtx := rfl
@[simp] theorem setGrp_ctxRead (u : Units) (g : Nat) (x : Grp) : (setGrp u g x).ctxRead = u.ctxRead := rfl

/-! ### setRing -/

@[simp] theorem setRing_v (u : Units) (r : Nat) (x : Ring) : (setRing u r x).v = u.v := rfl
@[simp] theorem setRing_now (u : Units) (r : Nat) (x : Ring) : (setRing u r x).now = u.now := rfl
@[simp] theorem setRing_fresh (u : Units) (r : Nat) (x : Ring) : (setRing u r x).fresh = u.fresh := rfl
@[simp] theorem setRing_out (u : Units) (r : Nat) (x : Ring) : (setRing u r x).out = u.out := rfl
@[simp] theorem setRing_regs (u : Units) (r : Nat) (x : Ring) : (setRing u r x).regs = u.regs := rfl
@[simp] theorem setRing_ports (u : Units) (r : Nat) (x : Ring) : (setRing u r x).ports = u.ports := rfl
@[simp] theorem setRing_cache (u : Units) (r : Nat) (x : Ring) : (setRing u r x).cache = u.cache := rfl
@[simp] theorem setRing_ctxEven (u : Units) (r : Nat) (x : Ring) : (setRing u r x).ctxEven = u.ctxEven := rfl
@[simp] theorem setRing_ctxOdd (u : Units) (r : Nat) (x : Ring) : (setRing u r x).ctxOdd = u.ctxOdd := rfl
@[simp] theorem setRing_ctxStaged (u : Units) (r : Nat) (x : Ring) : (setRing u r x).ctxStaged = u.ctxStaged := rfl
@[simp] theorem setRing_flushSeq (u : Units) (r : Nat) (x : Ring) : (setRing u r x).flushSeq = u.flushSeq := rfl
@[simp] theorem setRing_keys (u : Units) (r : Nat) (x : Ring) : (setRing u r x).keys = u.keys := rfl
@[simp] theorem setRing_keyPort (u : Units) (r : Nat) (x : Ring) : (setRing u r x).keyPort = u.keyPort := rfl
@[simp] theorem setRing_net (u : Units) (r : Nat) (x : Ring) : (setRing u r x).net = u.net := rfl
@[simp] theorem setRing_nextPkt (u : Units) (r : Nat) (x : Ring) : (setRing u r x).nextPkt = u.nextPkt := rfl
@[simp] theorem setRing_stopped (u : Units) (r : Nat) (x : Ring) : (setRing u r x).stopped = u.stopped := rfl
@[simp] theorem setRing_tickets (u : Units) (r : Nat) (x : Ring) : (setRing u r x).tickets = u.tickets := rfl
@[simp] theorem setRing_slotMode (u : Units) (r : Nat) (x : Ring) : (setRing u r x).slotMode = u.slotMode := rfl
@[simp] theorem setRing_slices (u : Units) (r : Nat) (x : Ring) : (setRing u r x).slices = u.slices := rfl
@[simp] theorem setRing_stg (u : Units) (r : Nat) (x : Ring) : (setRing u r x).stg = u.stg := rfl
@[simp] theorem setRing_tele (u : Units) (r : Nat) (x : Ring) : (setRing u r x).tele = u.tele := rfl
@[simp] theorem setRing_pd (u : Units) (r : Nat) (x : Ring) : (setRing u r x).pd = u.pd := rfl
@[simp] theorem setRing_fences (u : Units) (r : Nat) (x : Ring) : (setRing u r x).fences = u.fences := rfl
@[simp] theorem setRing_ddr (u : Units) (r : Nat) (x : Ring) : (setRing u r x).ddr = u.ddr := rfl
@[simp] theorem setRing_hng (u : Units) (r : Nat) (x : Ring) : (setRing u r x).hng = u.hng := rfl
@[simp] theorem setRing_drf (u : Units) (r : Nat) (x : Ring) : (setRing u r x).drf = u.drf := rfl
@[simp] theorem setRing_keep (u : Units) (r : Nat) (x : Ring) : (setRing u r x).keep = u.keep := rfl
@[simp] theorem setRing_media (u : Units) (r : Nat) (x : Ring) : (setRing u r x).media = u.media := rfl
@[simp] theorem setRing_cex (u : Units) (r : Nat) (x : Ring) : (setRing u r x).cex = u.cex := rfl
@[simp] theorem setRing_grp (u : Units) (r : Nat) (x : Ring) : (setRing u r x).grp = u.grp := rfl
@[simp] theorem setRing_repairs (u : Units) (r : Nat) (x : Ring) : (setRing u r x).repairs = u.repairs := rfl
@[simp] theorem setRing_patchLog (u : Units) (r : Nat) (x : Ring) : (setRing u r x).patchLog = u.patchLog := rfl
@[simp] theorem setRing_adm (u : Units) (r : Nat) (x : Ring) : (setRing u r x).adm = u.adm := rfl
@[simp] theorem setRing_arbs (u : Units) (r : Nat) (x : Ring) : (setRing u r x).arbs = u.arbs := rfl
@[simp] theorem setRing_audit (u : Units) (r : Nat) (x : Ring) : (setRing u r x).audit = u.audit := rfl
@[simp] theorem setRing_pwr (u : Units) (r : Nat) (x : Ring) : (setRing u r x).pwr = u.pwr := rfl
@[simp] theorem setRing_boot (u : Units) (r : Nat) (x : Ring) : (setRing u r x).boot = u.boot := rfl
@[simp] theorem setRing_tap (u : Units) (r : Nat) (x : Ring) : (setRing u r x).tap = u.tap := rfl
@[simp] theorem setRing_badCtx (u : Units) (r : Nat) (x : Ring) : (setRing u r x).badCtx = u.badCtx := rfl
@[simp] theorem setRing_ctxRead (u : Units) (r : Nat) (x : Ring) : (setRing u r x).ctxRead = u.ctxRead := rfl

/-! ### putDesc -/

@[simp] theorem putDesc_v (u : Units) (r : Nat) (d : Desc) : (putDesc u r d).v = u.v := rfl
@[simp] theorem putDesc_now (u : Units) (r : Nat) (d : Desc) : (putDesc u r d).now = u.now := rfl
@[simp] theorem putDesc_fresh (u : Units) (r : Nat) (d : Desc) : (putDesc u r d).fresh = u.fresh := rfl
@[simp] theorem putDesc_out (u : Units) (r : Nat) (d : Desc) : (putDesc u r d).out = u.out := rfl
@[simp] theorem putDesc_regs (u : Units) (r : Nat) (d : Desc) : (putDesc u r d).regs = u.regs := rfl
@[simp] theorem putDesc_ports (u : Units) (r : Nat) (d : Desc) : (putDesc u r d).ports = u.ports := rfl
@[simp] theorem putDesc_cache (u : Units) (r : Nat) (d : Desc) : (putDesc u r d).cache = u.cache := rfl
@[simp] theorem putDesc_ctxEven (u : Units) (r : Nat) (d : Desc) : (putDesc u r d).ctxEven = u.ctxEven := rfl
@[simp] theorem putDesc_ctxOdd (u : Units) (r : Nat) (d : Desc) : (putDesc u r d).ctxOdd = u.ctxOdd := rfl
@[simp] theorem putDesc_ctxStaged (u : Units) (r : Nat) (d : Desc) : (putDesc u r d).ctxStaged = u.ctxStaged := rfl
@[simp] theorem putDesc_flushSeq (u : Units) (r : Nat) (d : Desc) : (putDesc u r d).flushSeq = u.flushSeq := rfl
@[simp] theorem putDesc_keys (u : Units) (r : Nat) (d : Desc) : (putDesc u r d).keys = u.keys := rfl
@[simp] theorem putDesc_keyPort (u : Units) (r : Nat) (d : Desc) : (putDesc u r d).keyPort = u.keyPort := rfl
@[simp] theorem putDesc_net (u : Units) (r : Nat) (d : Desc) : (putDesc u r d).net = u.net := rfl
@[simp] theorem putDesc_nextPkt (u : Units) (r : Nat) (d : Desc) : (putDesc u r d).nextPkt = u.nextPkt := rfl
@[simp] theorem putDesc_stopped (u : Units) (r : Nat) (d : Desc) : (putDesc u r d).stopped = u.stopped := rfl
@[simp] theorem putDesc_tickets (u : Units) (r : Nat) (d : Desc) : (putDesc u r d).tickets = u.tickets := rfl
@[simp] theorem putDesc_slotMode (u : Units) (r : Nat) (d : Desc) : (putDesc u r d).slotMode = u.slotMode := rfl
@[simp] theorem putDesc_slices (u : Units) (r : Nat) (d : Desc) : (putDesc u r d).slices = u.slices := rfl
@[simp] theorem putDesc_stg (u : Units) (r : Nat) (d : Desc) : (putDesc u r d).stg = u.stg := rfl
@[simp] theorem putDesc_tele (u : Units) (r : Nat) (d : Desc) : (putDesc u r d).tele = u.tele := rfl
@[simp] theorem putDesc_pd (u : Units) (r : Nat) (d : Desc) : (putDesc u r d).pd = u.pd := rfl
@[simp] theorem putDesc_fences (u : Units) (r : Nat) (d : Desc) : (putDesc u r d).fences = u.fences := rfl
@[simp] theorem putDesc_ddr (u : Units) (r : Nat) (d : Desc) : (putDesc u r d).ddr = u.ddr := rfl
@[simp] theorem putDesc_hng (u : Units) (r : Nat) (d : Desc) : (putDesc u r d).hng = u.hng := rfl
@[simp] theorem putDesc_drf (u : Units) (r : Nat) (d : Desc) : (putDesc u r d).drf = u.drf := rfl
@[simp] theorem putDesc_keep (u : Units) (r : Nat) (d : Desc) : (putDesc u r d).keep = u.keep := rfl
@[simp] theorem putDesc_media (u : Units) (r : Nat) (d : Desc) : (putDesc u r d).media = u.media := rfl
@[simp] theorem putDesc_cex (u : Units) (r : Nat) (d : Desc) : (putDesc u r d).cex = u.cex := rfl
@[simp] theorem putDesc_grp (u : Units) (r : Nat) (d : Desc) : (putDesc u r d).grp = u.grp := rfl
@[simp] theorem putDesc_repairs (u : Units) (r : Nat) (d : Desc) : (putDesc u r d).repairs = u.repairs := rfl
@[simp] theorem putDesc_patchLog (u : Units) (r : Nat) (d : Desc) : (putDesc u r d).patchLog = u.patchLog := rfl
@[simp] theorem putDesc_adm (u : Units) (r : Nat) (d : Desc) : (putDesc u r d).adm = u.adm := rfl
@[simp] theorem putDesc_arbs (u : Units) (r : Nat) (d : Desc) : (putDesc u r d).arbs = u.arbs := rfl
@[simp] theorem putDesc_audit (u : Units) (r : Nat) (d : Desc) : (putDesc u r d).audit = u.audit := rfl
@[simp] theorem putDesc_pwr (u : Units) (r : Nat) (d : Desc) : (putDesc u r d).pwr = u.pwr := rfl
@[simp] theorem putDesc_boot (u : Units) (r : Nat) (d : Desc) : (putDesc u r d).boot = u.boot := rfl
@[simp] theorem putDesc_tap (u : Units) (r : Nat) (d : Desc) : (putDesc u r d).tap = u.tap := rfl
@[simp] theorem putDesc_badCtx (u : Units) (r : Nat) (d : Desc) : (putDesc u r d).badCtx = u.badCtx := rfl
@[simp] theorem putDesc_ctxRead (u : Units) (r : Nat) (d : Desc) : (putDesc u r d).ctxRead = u.ctxRead := rfl

/-! ### putKey -/

@[simp] theorem putKey_v (u : Units) (k : Nat) (x : KeySlot) : (putKey u k x).v = u.v := rfl
@[simp] theorem putKey_now (u : Units) (k : Nat) (x : KeySlot) : (putKey u k x).now = u.now := rfl
@[simp] theorem putKey_fresh (u : Units) (k : Nat) (x : KeySlot) : (putKey u k x).fresh = u.fresh := rfl
@[simp] theorem putKey_out (u : Units) (k : Nat) (x : KeySlot) : (putKey u k x).out = u.out := rfl
@[simp] theorem putKey_regs (u : Units) (k : Nat) (x : KeySlot) : (putKey u k x).regs = u.regs := rfl
@[simp] theorem putKey_ports (u : Units) (k : Nat) (x : KeySlot) : (putKey u k x).ports = u.ports := rfl
@[simp] theorem putKey_cache (u : Units) (k : Nat) (x : KeySlot) : (putKey u k x).cache = u.cache := rfl
@[simp] theorem putKey_ctxEven (u : Units) (k : Nat) (x : KeySlot) : (putKey u k x).ctxEven = u.ctxEven := rfl
@[simp] theorem putKey_ctxOdd (u : Units) (k : Nat) (x : KeySlot) : (putKey u k x).ctxOdd = u.ctxOdd := rfl
@[simp] theorem putKey_ctxStaged (u : Units) (k : Nat) (x : KeySlot) : (putKey u k x).ctxStaged = u.ctxStaged := rfl
@[simp] theorem putKey_flushSeq (u : Units) (k : Nat) (x : KeySlot) : (putKey u k x).flushSeq = u.flushSeq := rfl
@[simp] theorem putKey_keyPort (u : Units) (k : Nat) (x : KeySlot) : (putKey u k x).keyPort = u.keyPort := rfl
@[simp] theorem putKey_net (u : Units) (k : Nat) (x : KeySlot) : (putKey u k x).net = u.net := rfl
@[simp] theorem putKey_nextPkt (u : Units) (k : Nat) (x : KeySlot) : (putKey u k x).nextPkt = u.nextPkt := rfl
@[simp] theorem putKey_stopped (u : Units) (k : Nat) (x : KeySlot) : (putKey u k x).stopped = u.stopped := rfl
@[simp] theorem putKey_tickets (u : Units) (k : Nat) (x : KeySlot) : (putKey u k x).tickets = u.tickets := rfl
@[simp] theorem putKey_slotMode (u : Units) (k : Nat) (x : KeySlot) : (putKey u k x).slotMode = u.slotMode := rfl
@[simp] theorem putKey_slices (u : Units) (k : Nat) (x : KeySlot) : (putKey u k x).slices = u.slices := rfl
@[simp] theorem putKey_stg (u : Units) (k : Nat) (x : KeySlot) : (putKey u k x).stg = u.stg := rfl
@[simp] theorem putKey_rings (u : Units) (k : Nat) (x : KeySlot) : (putKey u k x).rings = u.rings := rfl
@[simp] theorem putKey_tele (u : Units) (k : Nat) (x : KeySlot) : (putKey u k x).tele = u.tele := rfl
@[simp] theorem putKey_pd (u : Units) (k : Nat) (x : KeySlot) : (putKey u k x).pd = u.pd := rfl
@[simp] theorem putKey_fences (u : Units) (k : Nat) (x : KeySlot) : (putKey u k x).fences = u.fences := rfl
@[simp] theorem putKey_ddr (u : Units) (k : Nat) (x : KeySlot) : (putKey u k x).ddr = u.ddr := rfl
@[simp] theorem putKey_hng (u : Units) (k : Nat) (x : KeySlot) : (putKey u k x).hng = u.hng := rfl
@[simp] theorem putKey_drf (u : Units) (k : Nat) (x : KeySlot) : (putKey u k x).drf = u.drf := rfl
@[simp] theorem putKey_keep (u : Units) (k : Nat) (x : KeySlot) : (putKey u k x).keep = u.keep := rfl
@[simp] theorem putKey_media (u : Units) (k : Nat) (x : KeySlot) : (putKey u k x).media = u.media := rfl
@[simp] theorem putKey_cex (u : Units) (k : Nat) (x : KeySlot) : (putKey u k x).cex = u.cex := rfl
@[simp] theorem putKey_grp (u : Units) (k : Nat) (x : KeySlot) : (putKey u k x).grp = u.grp := rfl
@[simp] theorem putKey_repairs (u : Units) (k : Nat) (x : KeySlot) : (putKey u k x).repairs = u.repairs := rfl
@[simp] theorem putKey_patchLog (u : Units) (k : Nat) (x : KeySlot) : (putKey u k x).patchLog = u.patchLog := rfl
@[simp] theorem putKey_adm (u : Units) (k : Nat) (x : KeySlot) : (putKey u k x).adm = u.adm := rfl
@[simp] theorem putKey_arbs (u : Units) (k : Nat) (x : KeySlot) : (putKey u k x).arbs = u.arbs := rfl
@[simp] theorem putKey_audit (u : Units) (k : Nat) (x : KeySlot) : (putKey u k x).audit = u.audit := rfl
@[simp] theorem putKey_pwr (u : Units) (k : Nat) (x : KeySlot) : (putKey u k x).pwr = u.pwr := rfl
@[simp] theorem putKey_boot (u : Units) (k : Nat) (x : KeySlot) : (putKey u k x).boot = u.boot := rfl
@[simp] theorem putKey_tap (u : Units) (k : Nat) (x : KeySlot) : (putKey u k x).tap = u.tap := rfl
@[simp] theorem putKey_badCtx (u : Units) (k : Nat) (x : KeySlot) : (putKey u k x).badCtx = u.badCtx := rfl
@[simp] theorem putKey_ctxRead (u : Units) (k : Nat) (x : KeySlot) : (putKey u k x).ctxRead = u.ctxRead := rfl

/-! ### putTrans -/

@[simp] theorem putTrans_v (u : Units) (t : Option Trans) : (putTrans u t).v = u.v := rfl
@[simp] theorem putTrans_now (u : Units) (t : Option Trans) : (putTrans u t).now = u.now := rfl
@[simp] theorem putTrans_fresh (u : Units) (t : Option Trans) : (putTrans u t).fresh = u.fresh := rfl
@[simp] theorem putTrans_out (u : Units) (t : Option Trans) : (putTrans u t).out = u.out := rfl
@[simp] theorem putTrans_regs (u : Units) (t : Option Trans) : (putTrans u t).regs = u.regs := rfl
@[simp] theorem putTrans_ports (u : Units) (t : Option Trans) : (putTrans u t).ports = u.ports := rfl
@[simp] theorem putTrans_cache (u : Units) (t : Option Trans) : (putTrans u t).cache = u.cache := rfl
@[simp] theorem putTrans_ctxEven (u : Units) (t : Option Trans) : (putTrans u t).ctxEven = u.ctxEven := rfl
@[simp] theorem putTrans_ctxOdd (u : Units) (t : Option Trans) : (putTrans u t).ctxOdd = u.ctxOdd := rfl
@[simp] theorem putTrans_ctxStaged (u : Units) (t : Option Trans) : (putTrans u t).ctxStaged = u.ctxStaged := rfl
@[simp] theorem putTrans_flushSeq (u : Units) (t : Option Trans) : (putTrans u t).flushSeq = u.flushSeq := rfl
@[simp] theorem putTrans_keys (u : Units) (t : Option Trans) : (putTrans u t).keys = u.keys := rfl
@[simp] theorem putTrans_keyPort (u : Units) (t : Option Trans) : (putTrans u t).keyPort = u.keyPort := rfl
@[simp] theorem putTrans_net (u : Units) (t : Option Trans) : (putTrans u t).net = u.net := rfl
@[simp] theorem putTrans_nextPkt (u : Units) (t : Option Trans) : (putTrans u t).nextPkt = u.nextPkt := rfl
@[simp] theorem putTrans_stopped (u : Units) (t : Option Trans) : (putTrans u t).stopped = u.stopped := rfl
@[simp] theorem putTrans_tickets (u : Units) (t : Option Trans) : (putTrans u t).tickets = u.tickets := rfl
@[simp] theorem putTrans_slotMode (u : Units) (t : Option Trans) : (putTrans u t).slotMode = u.slotMode := rfl
@[simp] theorem putTrans_slices (u : Units) (t : Option Trans) : (putTrans u t).slices = u.slices := rfl
@[simp] theorem putTrans_stg (u : Units) (t : Option Trans) : (putTrans u t).stg = u.stg := rfl
@[simp] theorem putTrans_rings (u : Units) (t : Option Trans) : (putTrans u t).rings = u.rings := rfl
@[simp] theorem putTrans_tele (u : Units) (t : Option Trans) : (putTrans u t).tele = u.tele := rfl
@[simp] theorem putTrans_pd (u : Units) (t : Option Trans) : (putTrans u t).pd = u.pd := rfl
@[simp] theorem putTrans_fences (u : Units) (t : Option Trans) : (putTrans u t).fences = u.fences := rfl
@[simp] theorem putTrans_ddr (u : Units) (t : Option Trans) : (putTrans u t).ddr = u.ddr := rfl
@[simp] theorem putTrans_hng (u : Units) (t : Option Trans) : (putTrans u t).hng = u.hng := rfl
@[simp] theorem putTrans_drf (u : Units) (t : Option Trans) : (putTrans u t).drf = u.drf := rfl
@[simp] theorem putTrans_keep (u : Units) (t : Option Trans) : (putTrans u t).keep = u.keep := rfl
@[simp] theorem putTrans_media (u : Units) (t : Option Trans) : (putTrans u t).media = u.media := rfl
@[simp] theorem putTrans_cex (u : Units) (t : Option Trans) : (putTrans u t).cex = u.cex := rfl
@[simp] theorem putTrans_grp (u : Units) (t : Option Trans) : (putTrans u t).grp = u.grp := rfl
@[simp] theorem putTrans_repairs (u : Units) (t : Option Trans) : (putTrans u t).repairs = u.repairs := rfl
@[simp] theorem putTrans_patchLog (u : Units) (t : Option Trans) : (putTrans u t).patchLog = u.patchLog := rfl
@[simp] theorem putTrans_adm (u : Units) (t : Option Trans) : (putTrans u t).adm = u.adm := rfl
@[simp] theorem putTrans_arbs (u : Units) (t : Option Trans) : (putTrans u t).arbs = u.arbs := rfl
@[simp] theorem putTrans_audit (u : Units) (t : Option Trans) : (putTrans u t).audit = u.audit := rfl
@[simp] theorem putTrans_boot (u : Units) (t : Option Trans) : (putTrans u t).boot = u.boot := rfl
@[simp] theorem putTrans_tap (u : Units) (t : Option Trans) : (putTrans u t).tap = u.tap := rfl
@[simp] theorem putTrans_badCtx (u : Units) (t : Option Trans) : (putTrans u t).badCtx = u.badCtx := rfl
@[simp] theorem putTrans_ctxRead (u : Units) (t : Option Trans) : (putTrans u t).ctxRead = u.ctxRead := rfl

end Sys2Proof.Machine
end

