-- ==== Sys2Proof/Laws/Regs.lean ====
section
/-! SUPPORT. Laws of the register store: a field read after it has been written, and the registers and fields that a write leaves alone. -/

namespace Sys2Proof.Machine

/-! ### Bit fields -/

/-- A number split at a field: what lies above it, the field, what lies below it. -/
theorem nbits_split (x lo w : Nat) : x = x / 2 ^ (lo + w) * 2 ^ (lo + w) + nbits x lo w * 2 ^ lo + x % 2 ^ lo := by
  have h1 : 2 ^ lo * (x / 2 ^ lo) + x % 2 ^ lo = x := Nat.div_add_mod x (2 ^ lo)
  have h2 : 2 ^ w * (x / 2 ^ lo / 2 ^ w) + x / 2 ^ lo % 2 ^ w = x / 2 ^ lo := Nat.div_add_mod (x / 2 ^ lo) (2 ^ w)
  have h3 : x / 2 ^ (lo + w) = x / 2 ^ lo / 2 ^ w := by rw [Nat.pow_add, Nat.div_div_eq_div_mul]
  have h4 : x / 2 ^ lo / 2 ^ w * 2 ^ (lo + w) + x / 2 ^ lo % 2 ^ w * 2 ^ lo = 2 ^ lo * (x / 2 ^ lo) := by
    rw [Nat.pow_add, ← h2]
    simp only [h2]
    rw [show x / 2 ^ lo / 2 ^ w * (2 ^ lo * 2 ^ w) = 2 ^ lo * (2 ^ w * (x / 2 ^ lo / 2 ^ w)) by ac_rfl, Nat.mul_comm _ (2 ^ lo), ← Nat.mul_add, h2]
  unfold nbits
  rw [h3]
  omega

/-- What a field write gives, with the three parts apart. -/
theorem nput_split (x lo w v : Nat) : nput x lo w v = x / 2 ^ (lo + w) * 2 ^ (lo + w) + v % 2 ^ w * 2 ^ lo + x % 2 ^ lo := by
  have h := nbits_split x lo w
  unfold nput
  omega

/-- A field reads back what was written to it. -/
theorem nbits_nput_same (x lo w v : Nat) : nbits (nput x lo w v) lo w = v % 2 ^ w := by
  rw [nput_split, nbits]
  have hp : 0 < 2 ^ lo := Nat.two_pow_pos lo
  rw [show x / 2 ^ (lo + w) * 2 ^ (lo + w) + v % 2 ^ w * 2 ^ lo + x % 2 ^ lo
        = x % 2 ^ lo + 2 ^ lo * (v % 2 ^ w + 2 ^ w * (x / 2 ^ (lo + w))) by
      rw [Nat.pow_add, Nat.mul_add]; ac_rfl]
  rw [Nat.add_mul_div_left _ _ hp, Nat.div_eq_of_lt (Nat.mod_lt _ hp), Nat.zero_add, Nat.add_mul_mod_self_left, Nat.mod_mod]

/-- A field below the written one keeps its value. -/
theorem nbits_nput_below {x lo w v lo' w' : Nat} (h : lo' + w' ≤ lo) : nbits (nput x lo w v) lo' w' = nbits x lo' w' := by
  have key : ∀ y, nbits (y * 2 ^ lo + x % 2 ^ lo) lo' w' = nbits (x % 2 ^ lo) lo' w' := by
    intro y
    obtain ⟨k, hk⟩ : ∃ k, lo = lo' + w' + k := ⟨lo - (lo' + w'), by omega⟩
    have hp : 0 < 2 ^ lo' := Nat.two_pow_pos lo'
    unfold nbits
    rw [show y * 2 ^ lo = 2 ^ lo' * (2 ^ w' * (2 ^ k * y)) by rw [hk, Nat.pow_add, Nat.pow_add]; ac_rfl, Nat.add_comm,
      Nat.add_mul_div_left _ _ hp, Nat.add_mul_mod_self_left]
  have hx : nbits x lo' w' = nbits (x % 2 ^ lo) lo' w' := by
    conv => lhs; rw [← Nat.div_add_mod x (2 ^ lo), Nat.mul_comm]
    exact key _
  rw [nput_split, hx, ← key (x / 2 ^ (lo + w) * 2 ^ w + v % 2 ^ w)]
  congr 1
  rw [Nat.add_mul, Nat.mul_assoc, ← Nat.pow_add, Nat.add_comm w lo]

/-- A field above the written one keeps its value. -/
theorem nbits_nput_above {x lo w v lo' w' : Nat} (h : lo + w ≤ lo') : nbits (nput x lo w v) lo' w' = nbits x lo' w' := by
  obtain ⟨k, hk⟩ : ∃ k, lo' = lo + w + k := ⟨lo' - (lo + w), by omega⟩
  have hlt : v % 2 ^ w * 2 ^ lo + x % 2 ^ lo < 2 ^ (lo + w) := by
    have h1 : v % 2 ^ w + 1 ≤ 2 ^ w := Nat.mod_lt _ (Nat.two_pow_pos w)
    have h2 : x % 2 ^ lo < 2 ^ lo := Nat.mod_lt _ (Nat.two_pow_pos lo)
    have h3 : (v % 2 ^ w + 1) * 2 ^ lo ≤ 2 ^ w * 2 ^ lo := Nat.mul_le_mul_right _ h1
    rw [Nat.add_mul, Nat.one_mul] at h3
    rw [Nat.pow_add, Nat.mul_comm (2 ^ lo)]
    omega
  have hd : nput x lo w v / 2 ^ (lo + w) = x / 2 ^ (lo + w) := by
    rw [nput_split, Nat.add_assoc, Nat.mul_comm, Nat.mul_add_div (Nat.two_pow_pos _), Nat.div_eq_of_lt hlt, Nat.add_zero]
  unfold nbits
  rw [hk, Nat.pow_add 2 (lo + w) k, ← Nat.div_div_eq_div_mul, ← Nat.div_div_eq_div_mul, hd]

/-- A field write of a word stays a word. -/
theorem nput_lt {x lo w v : Nat} (hx : x < 2 ^ 32) (h : lo + w ≤ 32) : nput x lo w v < 2 ^ 32 := by
  obtain ⟨k, hk⟩ : ∃ k, 32 = lo + w + k := ⟨32 - (lo + w), by omega⟩
  have h1 : v % 2 ^ w + 1 ≤ 2 ^ w := Nat.mod_lt _ (Nat.two_pow_pos w)
  have h2 : x % 2 ^ lo < 2 ^ lo := Nat.mod_lt _ (Nat.two_pow_pos lo)
  have h3 : (v % 2 ^ w + 1) * 2 ^ lo ≤ 2 ^ w * 2 ^ lo := Nat.mul_le_mul_right _ h1
  rw [Nat.add_mul, Nat.one_mul] at h3
  have h4 : x / 2 ^ (lo + w) + 1 ≤ 2 ^ k := by
    have : x < 2 ^ (lo + w) * 2 ^ k := by rw [← Nat.pow_add, ← hk]; exact hx
    exact Nat.div_lt_of_lt_mul this
  have h5 : (x / 2 ^ (lo + w) + 1) * 2 ^ (lo + w) ≤ 2 ^ k * 2 ^ (lo + w) := Nat.mul_le_mul_right _ h4
  rw [Nat.add_mul, Nat.one_mul] at h5
  have h6 : 2 ^ k * 2 ^ (lo + w) = 2 ^ 32 := by rw [← Nat.pow_add, Nat.add_comm, ← hk]
  have h7 : 2 ^ w * 2 ^ lo = 2 ^ (lo + w) := by rw [← Nat.pow_add, Nat.add_comm]
  rw [nput_split]
  omega

/-! ### Registers -/

theorem rawReg_lt (u : Units) (r : Reg) (i j : Nat) : rawReg u r i j < 2 ^ 32 := BitVec.isLt _

/-- A register reads back what was stored in it. -/
@[simp] theorem rawReg_putReg_same (u : Units) (r : Reg) (i j x : Nat) : rawReg (putReg u r i j x) r i j = x % 2 ^ 32 := by
  simp [rawReg, putReg, BitVec.toNat_ofNat]

/-- A store leaves every register at another address alone. -/
theorem rawReg_putReg_other {r r' : Reg} {i j i' j' : Nat} (h : regAddr r' i' j' ≠ regAddr r i j) (u : Units) (x : Nat) :
    rawReg (putReg u r i j x) r' i' j' = rawReg u r' i' j' := by
  simp [rawReg, putReg, tabGetD_putD_other h]

theorem rawReg_putF_other {f : Fld} {r' : Reg} {i j i' j' : Nat} (h : regAddr r' i' j' ≠ regAddr f.reg i j) (u : Units) (x : Nat) :
    rawReg (putF u f i j x) r' i' j' = rawReg u r' i' j' := rawReg_putReg_other h u _

/-- The word that a field write leaves. -/
theorem rawReg_putF_same (u : Units) (f : Fld) (i j x : Nat) (h : f.lo + f.w ≤ 32) :
    rawReg (putF u f i j x) f.reg i j = nput (rawReg u f.reg i j) f.lo f.w x := by
  simp only [putF, rawReg_putReg_same]
  exact Nat.mod_eq_of_lt (nput_lt (rawReg_lt u f.reg i j) h)

/-- A field reads back what was stored in it. -/
theorem getF_putF_same (u : Units) (f : Fld) (i j x : Nat) (h : f.lo + f.w ≤ 32) :
    getF (putF u f i j x) f i j = x % 2 ^ f.w := by
  rw [getF, rawReg_putF_same u f i j x h, nbits_nput_same]

/-- A field write leaves the other fields of its register alone. -/
theorem getF_putF_beside {f g : Fld} (u : Units) (i j x : Nat) (hr : g.reg = f.reg) (h : f.lo + f.w ≤ 32)
    (hd : g.lo + g.w ≤ f.lo ∨ f.lo + f.w ≤ g.lo) : getF (putF u f i j x) g i j = getF u g i j := by
  rw [getF, getF, hr, rawReg_putF_same u f i j x h]
  rcases hd with hd | hd
  · exact nbits_nput_below hd
  · exact nbits_nput_above hd

/-- A field write leaves the fields of every other address alone. -/
theorem getF_putF_other {f g : Fld} {i j i' j' : Nat} (h : regAddr g.reg i' j' ≠ regAddr f.reg i j) (u : Units) (x : Nat) :
    getF (putF u f i j x) g i' j' = getF u g i' j' := by
  rw [getF, getF, rawReg_putF_other h]

/-- A flag that has been set reads 1. -/
theorem getF_flag_same (u : Units) (f : Fld) (i j : Nat) (h : f.lo + f.w ≤ 32) (hw : 0 < f.w) : getF (flag u f i j) f i j = 1 := by
  rw [flag, getF_putF_same u f i j 1 h]
  exact Nat.mod_eq_of_lt (Nat.one_lt_two_pow (by omega))

end Sys2Proof.Machine
end

