-- ==== Sys2Proof/Laws/Frames.lean ====
section
/-! SUPPORT. What counting, events, port faults, credits, messages and notices can do: each changes only the parts of the state named here, and no register below the telemetry registers but the ones it says. -/

namespace Sys2Proof.Machine

/-- The first address of the telemetry registers that counting and events write (Table 19-2: TELE_ERR, TELE_AON_LOST and TELE_OVF_k lie above it). -/
def teleAddr : Nat := 0xA10000

/-- What counting and events may do: current values of registers at or above `teleAddr`, and telemetry. -/
def CountsOnly (u x : Units) : Prop :=
  (∃ c t, x = { u with regs := { u.regs with cur := c }, tele := t }) ∧
  ∀ a d, a < teleAddr → tabGetD x.regs.cur a d = tabGetD u.regs.cur a d

theorem CountsOnly.refl (u : Units) : CountsOnly u u := ⟨⟨u.regs.cur, u.tele, rfl⟩, fun _ _ _ => rfl⟩

theorem CountsOnly.trans {u x y : Units} (h : CountsOnly u x) (h' : CountsOnly x y) : CountsOnly u y := by
  obtain ⟨⟨c, t, rfl⟩, k⟩ := h
  obtain ⟨⟨c', t', rfl⟩, k'⟩ := h'
  exact ⟨⟨c', t', rfl⟩, fun a d ha => (k' a d ha).trans (k a d ha)⟩

theorem CountsOnly.tele (u : Units) (t : Tele) : CountsOnly u { u with tele := t } := ⟨⟨u.regs.cur, t, rfl⟩, fun _ _ _ => rfl⟩

theorem CountsOnly.putReg (u : Units) (r : Reg) (i j x : Nat) (h : teleAddr ≤ regAddr r i j) : CountsOnly u (Machine.putReg u r i j x) :=
  ⟨⟨_, u.tele, rfl⟩, fun a d ha => tabGetD_putD_other (by omega) _ _ _ _⟩

theorem regAddr_base_le (r : Reg) (i j : Nat) : r.info.base ≤ regAddr r i j := by unfold regAddr; omega

theorem countWrap_only (u : Units) (fuel n k : Nat) : CountsOnly u (countWrap u fuel n k) := by
  induction fuel generalizing u n k with
  | zero => exact .refl u
  | succ m ih =>
    simp only [countWrap]
    split
    · exact .tele u _
    · split
      · exact (CountsOnly.tele u _).trans (ih _ _ _)
      · refine (CountsOnly.tele u _).trans (.putReg _ _ _ _ _ ?_)
        exact Nat.le_trans (by decide) (regAddr_base_le _ _ _)

theorem countN_only (u : Units) (n k : Nat) : CountsOnly u (countN u n k) := by
  unfold countN
  split
  · exact .refl u
  · exact countWrap_only u 1472 n k

theorem count_only (u : Units) (n : Nat) : CountsOnly u (count u n) := countN_only u n 1

theorem countSignal_only (u : Units) (n : Nat) (on : Bool) (k : Nat) : CountsOnly u (countSignal u n on k) := by
  unfold countSignal
  extract_lets was src x
  have h0 : CountsOnly u x := .tele u _
  refine h0.trans ?_
  by_cases h1 : on = false
  · rw [if_pos h1]
    exact .refl _
  · rw [if_neg h1]
    split
    · exact countN_only _ _ _
    · split
      · exact .refl _
      · exact countN_only _ _ _

theorem emitEvent_only (u : Units) (code inst : Nat) (words : List Word) : CountsOnly u (emitEvent u code inst words) := by
  unfold emitEvent
  dsimp only
  split
  · split
    · exact (count_only u _).trans (.tele _ _)
    · refine (((count_only u _).trans (.putReg _ _ _ _ _ ?_)).trans (.tele _ _)).trans (count_only _ _)
      exact Nat.le_trans (by decide) (regAddr_base_le _ _ _)
  · refine .putReg _ _ _ _ _ ?_
    exact Nat.le_trans (by decide) (regAddr_base_le _ _ _)

theorem CountsOnly.rawReg {u x : Units} (h : CountsOnly u x) (r : Reg) (i j : Nat) (ha : regAddr r i j < teleAddr) :
    Machine.rawReg x r i j = Machine.rawReg u r i j := by
  obtain ⟨⟨c, t, rfl⟩, k⟩ := h
  unfold Machine.rawReg
  rw [k _ _ ha]

theorem CountsOnly.getF {u x : Units} (h : CountsOnly u x) (f : Fld) (i j : Nat) (ha : regAddr f.reg i j < teleAddr) :
    Machine.getF x f i j = Machine.getF u f i j := by
  unfold Machine.getF
  rw [h.rawReg _ _ _ ha]

/-! ### countN -/

@[simp] theorem countN_v (u : Units) (n k : Nat) : (countN u n k).v = u.v := by obtain ⟨⟨c, t, h⟩, _⟩ := countN_only u n k; rw [h]
@[simp] theorem countN_now (u : Units) (n k : Nat) : (countN u n k).now = u.now := by obtain ⟨⟨c, t, h⟩, _⟩ := countN_only u n k; rw [h]
@[simp] theorem countN_fresh (u : Units) (n k : Nat) : (countN u n k).fresh = u.fresh := by obtain ⟨⟨c, t, h⟩, _⟩ := countN_only u n k; rw [h]
@[simp] theorem countN_out (u : Units) (n k : Nat) : (countN u n k).out = u.out := by obtain ⟨⟨c, t, h⟩, _⟩ := countN_only u n k; rw [h]
@[simp] theorem countN_ports (u : Units) (n k : Nat) : (countN u n k).ports = u.ports := by obtain ⟨⟨c, t, h⟩, _⟩ := countN_only u n k; rw [h]
@[simp] theorem countN_cache (u : Units) (n k : Nat) : (countN u n k).cache = u.cache := by obtain ⟨⟨c, t, h⟩, _⟩ := countN_only u n k; rw [h]
@[simp] theorem countN_ctxEven (u : Units) (n k : Nat) : (countN u n k).ctxEven = u.ctxEven := by obtain ⟨⟨c, t, h⟩, _⟩ := countN_only u n k; rw [h]
@[simp] theorem countN_ctxOdd (u : Units) (n k : Nat) : (countN u n k).ctxOdd = u.ctxOdd := by obtain ⟨⟨c, t, h⟩, _⟩ := countN_only u n k; rw [h]
@[simp] theorem countN_ctxStaged (u : Units) (n k : Nat) : (countN u n k).ctxStaged = u.ctxStaged := by obtain ⟨⟨c, t, h⟩, _⟩ := countN_only u n k; rw [h]
@[simp] theorem countN_flushSeq (u : Units) (n k : Nat) : (countN u n k).flushSeq = u.flushSeq := by obtain ⟨⟨c, t, h⟩, _⟩ := countN_only u n k; rw [h]
@[simp] theorem countN_keys (u : Units) (n k : Nat) : (countN u n k).keys = u.keys := by obtain ⟨⟨c, t, h⟩, _⟩ := countN_only u n k; rw [h]
@[simp] theorem countN_keyPort (u : Units) (n k : Nat) : (countN u n k).keyPort = u.keyPort := by obtain ⟨⟨c, t, h⟩, _⟩ := countN_only u n k; rw [h]
@[simp] theorem countN_net (u : Units) (n k : Nat) : (countN u n k).net = u.net := by obtain ⟨⟨c, t, h⟩, _⟩ := countN_only u n k; rw [h]
@[simp] theorem countN_nextPkt (u : Units) (n k : Nat) : (countN u n k).nextPkt = u.nextPkt := by obtain ⟨⟨c, t, h⟩, _⟩ := countN_only u n k; rw [h]
@[simp] theorem countN_stopped (u : Units) (n k : Nat) : (countN u n k).stopped = u.stopped := by obtain ⟨⟨c, t, h⟩, _⟩ := countN_only u n k; rw [h]
@[simp] theorem countN_tickets (u : Units) (n k : Nat) : (countN u n k).tickets = u.tickets := by obtain ⟨⟨c, t, h⟩, _⟩ := countN_only u n k; rw [h]
@[simp] theorem countN_slotMode (u : Units) (n k : Nat) : (countN u n k).slotMode = u.slotMode := by obtain ⟨⟨c, t, h⟩, _⟩ := countN_only u n k; rw [h]
@[simp] theorem countN_slices (u : Units) (n k : Nat) : (countN u n k).slices = u.slices := by obtain ⟨⟨c, t, h⟩, _⟩ := countN_only u n k; rw [h]
@[simp] theorem countN_stg (u : Units) (n k : Nat) : (countN u n k).stg = u.stg := by obtain ⟨⟨c, t, h⟩, _⟩ := countN_only u n k; rw [h]
@[simp] theorem countN_rings (u : Units) (n k : Nat) : (countN u n k).rings = u.rings := by obtain ⟨⟨c, t, h⟩, _⟩ := countN_only u n k; rw [h]
@[simp] theorem countN_pd (u : Units) (n k : Nat) : (countN u n k).pd = u.pd := by obtain ⟨⟨c, t, h⟩, _⟩ := countN_only u n k; rw [h]
@[simp] theorem countN_fences (u : Units) (n k : Nat) : (countN u n k).fences = u.fences := by obtain ⟨⟨c, t, h⟩, _⟩ := countN_only u n k; rw [h]
@[simp] theorem countN_ddr (u : Units) (n k : Nat) : (countN u n k).ddr = u.ddr := by obtain ⟨⟨c, t, h⟩, _⟩ := countN_only u n k; rw [h]
@[simp] theorem countN_hng (u : Units) (n k : Nat) : (countN u n k).hng = u.hng := by obtain ⟨⟨c, t, h⟩, _⟩ := countN_only u n k; rw [h]
@[simp] theorem countN_drf (u : Units) (n k : Nat) : (countN u n k).drf = u.drf := by obtain ⟨⟨c, t, h⟩, _⟩ := countN_only u n k; rw [h]
@[simp] theorem countN_keep (u : Units) (n k : Nat) : (countN u n k).keep = u.keep := by obtain ⟨⟨c, t, h⟩, _⟩ := countN_only u n k; rw [h]
@[simp] theorem countN_media (u : Units) (n k : Nat) : (countN u n k).media = u.media := by obtain ⟨⟨c, t, h⟩, _⟩ := countN_only u n k; rw [h]
@[simp] theorem countN_cex (u : Units) (n k : Nat) : (countN u n k).cex = u.cex := by obtain ⟨⟨c, t, h⟩, _⟩ := countN_only u n k; rw [h]
@[simp] theorem countN_grp (u : Units) (n k : Nat) : (countN u n k).grp = u.grp := by obtain ⟨⟨c, t, h⟩, _⟩ := countN_only u n k; rw [h]
@[simp] theorem countN_repairs (u : Units) (n k : Nat) : (countN u n k).repairs = u.repairs := by obtain ⟨⟨c, t, h⟩, _⟩ := countN_only u n k; rw [h]
@[simp] theorem countN_patchLog (u : Units) (n k : Nat) : (countN u n k).patchLog = u.patchLog := by obtain ⟨⟨c, t, h⟩, _⟩ := countN_only u n k; rw [h]
@[simp] theorem countN_adm (u : Units) (n k : Nat) : (countN u n k).adm = u.adm := by obtain ⟨⟨c, t, h⟩, _⟩ := countN_only u n k; rw [h]
@[simp] theorem countN_arbs (u : Units) (n k : Nat) : (countN u n k).arbs = u.arbs := by obtain ⟨⟨c, t, h⟩, _⟩ := countN_only u n k; rw [h]
@[simp] theorem countN_audit (u : Units) (n k : Nat) : (countN u n k).audit = u.audit := by obtain ⟨⟨c, t, h⟩, _⟩ := countN_only u n k; rw [h]
@[simp] theorem countN_pwr (u : Units) (n k : Nat) : (countN u n k).pwr = u.pwr := by obtain ⟨⟨c, t, h⟩, _⟩ := countN_only u n k; rw [h]
@[simp] theorem countN_boot (u : Units) (n k : Nat) : (countN u n k).boot = u.boot := by obtain ⟨⟨c, t, h⟩, _⟩ := countN_only u n k; rw [h]
@[simp] theorem countN_tap (u : Units) (n k : Nat) : (countN u n k).tap = u.tap := by obtain ⟨⟨c, t, h⟩, _⟩ := countN_only u n k; rw [h]
@[simp] theorem countN_badCtx (u : Units) (n k : Nat) : (countN u n k).badCtx = u.badCtx := by obtain ⟨⟨c, t, h⟩, _⟩ := countN_only u n k; rw [h]
@[simp] theorem countN_ctxRead (u : Units) (n k : Nat) : (countN u n k).ctxRead = u.ctxRead := by obtain ⟨⟨c, t, h⟩, _⟩ := countN_only u n k; rw [h]
@[simp] theorem countN_regs_staged (u : Units) (n k : Nat) : (countN u n k).regs.staged = u.regs.staged := by obtain ⟨⟨c, t, h⟩, _⟩ := countN_only u n k; rw [h]
@[simp] theorem countN_regs_bankA (u : Units) (n k : Nat) : (countN u n k).regs.bankA = u.regs.bankA := by obtain ⟨⟨c, t, h⟩, _⟩ := countN_only u n k; rw [h]
@[simp] theorem countN_regs_bankB (u : Units) (n k : Nat) : (countN u n k).regs.bankB = u.regs.bankB := by obtain ⟨⟨c, t, h⟩, _⟩ := countN_only u n k; rw [h]
@[simp] theorem countN_regs_descStaged (u : Units) (n k : Nat) : (countN u n k).regs.descStaged = u.regs.descStaged := by obtain ⟨⟨c, t, h⟩, _⟩ := countN_only u n k; rw [h]
@[simp] theorem countN_regs_epoch (u : Units) (n k : Nat) : (countN u n k).regs.epoch = u.regs.epoch := by obtain ⟨⟨c, t, h⟩, _⟩ := countN_only u n k; rw [h]
@[simp] theorem countN_regs_pending (u : Units) (n k : Nat) : (countN u n k).regs.pending = u.regs.pending := by obtain ⟨⟨c, t, h⟩, _⟩ := countN_only u n k; rw [h]
@[simp] theorem countN_regs_deferred (u : Units) (n k : Nat) : (countN u n k).regs.deferred = u.regs.deferred := by obtain ⟨⟨c, t, h⟩, _⟩ := countN_only u n k; rw [h]
@[simp] theorem countN_regs_defers (u : Units) (n k : Nat) : (countN u n k).regs.defers = u.regs.defers := by obtain ⟨⟨c, t, h⟩, _⟩ := countN_only u n k; rw [h]
@[simp] theorem countN_regs_lateSeen (u : Units) (n k : Nat) : (countN u n k).regs.lateSeen = u.regs.lateSeen := by obtain ⟨⟨c, t, h⟩, _⟩ := countN_only u n k; rw [h]
@[simp] theorem countN_regs_advances (u : Units) (n k : Nat) : (countN u n k).regs.advances = u.regs.advances := by obtain ⟨⟨c, t, h⟩, _⟩ := countN_only u n k; rw [h]
@[simp] theorem countN_regs_banked (u : Units) (n k : Nat) : (countN u n k).regs.banked = u.regs.banked := by obtain ⟨⟨c, t, h⟩, _⟩ := countN_only u n k; rw [h]

/-! ### count -/

@[simp] theorem count_v (u : Units) (n : Nat) : (count u n).v = u.v := by obtain ⟨⟨c, t, h⟩, _⟩ := count_only u n; rw [h]
@[simp] theorem count_now (u : Units) (n : Nat) : (count u n).now = u.now := by obtain ⟨⟨c, t, h⟩, _⟩ := count_only u n; rw [h]
@[simp] theorem count_fresh (u : Units) (n : Nat) : (count u n).fresh = u.fresh := by obtain ⟨⟨c, t, h⟩, _⟩ := count_only u n; rw [h]
@[simp] theorem count_out (u : Units) (n : Nat) : (count u n).out = u.out := by obtain ⟨⟨c, t, h⟩, _⟩ := count_only u n; rw [h]
@[simp] theorem count_ports (u : Units) (n : Nat) : (count u n).ports = u.ports := by obtain ⟨⟨c, t, h⟩, _⟩ := count_only u n; rw [h]
@[simp] theorem count_cache (u : Units) (n : Nat) : (count u n).cache = u.cache := by obtain ⟨⟨c, t, h⟩, _⟩ := count_only u n; rw [h]
@[simp] theorem count_ctxEven (u : Units) (n : Nat) : (count u n).ctxEven = u.ctxEven := by obtain ⟨⟨c, t, h⟩, _⟩ := count_only u n; rw [h]
@[simp] theorem count_ctxOdd (u : Units) (n : Nat) : (count u n).ctxOdd = u.ctxOdd := by obtain ⟨⟨c, t, h⟩, _⟩ := count_only u n; rw [h]
@[simp] theorem count_ctxStaged (u : Units) (n : Nat) : (count u n).ctxStaged = u.ctxStaged := by obtain ⟨⟨c, t, h⟩, _⟩ := count_only u n; rw [h]
@[simp] theorem count_flushSeq (u : Units) (n : Nat) : (count u n).flushSeq = u.flushSeq := by obtain ⟨⟨c, t, h⟩, _⟩ := count_only u n; rw [h]
@[simp] theorem count_keys (u : Units) (n : Nat) : (count u n).keys = u.keys := by obtain ⟨⟨c, t, h⟩, _⟩ := count_only u n; rw [h]
@[simp] theorem count_keyPort (u : Units) (n : Nat) : (count u n).keyPort = u.keyPort := by obtain ⟨⟨c, t, h⟩, _⟩ := count_only u n; rw [h]
@[simp] theorem count_net (u : Units) (n : Nat) : (count u n).net = u.net := by obtain ⟨⟨c, t, h⟩, _⟩ := count_only u n; rw [h]
@[simp] theorem count_nextPkt (u : Units) (n : Nat) : (count u n).nextPkt = u.nextPkt := by obtain ⟨⟨c, t, h⟩, _⟩ := count_only u n; rw [h]
@[simp] theorem count_stopped (u : Units) (n : Nat) : (count u n).stopped = u.stopped := by obtain ⟨⟨c, t, h⟩, _⟩ := count_only u n; rw [h]
@[simp] theorem count_tickets (u : Units) (n : Nat) : (count u n).tickets = u.tickets := by obtain ⟨⟨c, t, h⟩, _⟩ := count_only u n; rw [h]
@[simp] theorem count_slotMode (u : Units) (n : Nat) : (count u n).slotMode = u.slotMode := by obtain ⟨⟨c, t, h⟩, _⟩ := count_only u n; rw [h]
@[simp] theorem count_slices (u : Units) (n : Nat) : (count u n).slices = u.slices := by obtain ⟨⟨c, t, h⟩, _⟩ := count_only u n; rw [h]
@[simp] theorem count_stg (u : Units) (n : Nat) : (count u n).stg = u.stg := by obtain ⟨⟨c, t, h⟩, _⟩ := count_only u n; rw [h]
@[simp] theorem count_rings (u : Units) (n : Nat) : (count u n).rings = u.rings := by obtain ⟨⟨c, t, h⟩, _⟩ := count_only u n; rw [h]
@[simp] theorem count_pd (u : Units) (n : Nat) : (count u n).pd = u.pd := by obtain ⟨⟨c, t, h⟩, _⟩ := count_only u n; rw [h]
@[simp] theorem count_fences (u : Units) (n : Nat) : (count u n).fences = u.fences := by obtain ⟨⟨c, t, h⟩, _⟩ := count_only u n; rw [h]
@[simp] theorem count_ddr (u : Units) (n : Nat) : (count u n).ddr = u.ddr := by obtain ⟨⟨c, t, h⟩, _⟩ := count_only u n; rw [h]
@[simp] theorem count_hng (u : Units) (n : Nat) : (count u n).hng = u.hng := by obtain ⟨⟨c, t, h⟩, _⟩ := count_only u n; rw [h]
@[simp] theorem count_drf (u : Units) (n : Nat) : (count u n).drf = u.drf := by obtain ⟨⟨c, t, h⟩, _⟩ := count_only u n; rw [h]
@[simp] theorem count_keep (u : Units) (n : Nat) : (count u n).keep = u.keep := by obtain ⟨⟨c, t, h⟩, _⟩ := count_only u n; rw [h]
@[simp] theorem count_media (u : Units) (n : Nat) : (count u n).media = u.media := by obtain ⟨⟨c, t, h⟩, _⟩ := count_only u n; rw [h]
@[simp] theorem count_cex (u : Units) (n : Nat) : (count u n).cex = u.cex := by obtain ⟨⟨c, t, h⟩, _⟩ := count_only u n; rw [h]
@[simp] theorem count_grp (u : Units) (n : Nat) : (count u n).grp = u.grp := by obtain ⟨⟨c, t, h⟩, _⟩ := count_only u n; rw [h]
@[simp] theorem count_repairs (u : Units) (n : Nat) : (count u n).repairs = u.repairs := by obtain ⟨⟨c, t, h⟩, _⟩ := count_only u n; rw [h]
@[simp] theorem count_patchLog (u : Units) (n : Nat) : (count u n).patchLog = u.patchLog := by obtain ⟨⟨c, t, h⟩, _⟩ := count_only u n; rw [h]
@[simp] theorem count_adm (u : Units) (n : Nat) : (count u n).adm = u.adm := by obtain ⟨⟨c, t, h⟩, _⟩ := count_only u n; rw [h]
@[simp] theorem count_arbs (u : Units) (n : Nat) : (count u n).arbs = u.arbs := by obtain ⟨⟨c, t, h⟩, _⟩ := count_only u n; rw [h]
@[simp] theorem count_audit (u : Units) (n : Nat) : (count u n).audit = u.audit := by obtain ⟨⟨c, t, h⟩, _⟩ := count_only u n; rw [h]
@[simp] theorem count_pwr (u : Units) (n : Nat) : (count u n).pwr = u.pwr := by obtain ⟨⟨c, t, h⟩, _⟩ := count_only u n; rw [h]
@[simp] theorem count_boot (u : Units) (n : Nat) : (count u n).boot = u.boot := by obtain ⟨⟨c, t, h⟩, _⟩ := count_only u n; rw [h]
@[simp] theorem count_tap (u : Units) (n : Nat) : (count u n).tap = u.tap := by obtain ⟨⟨c, t, h⟩, _⟩ := count_only u n; rw [h]
@[simp] theorem count_badCtx (u : Units) (n : Nat) : (count u n).badCtx = u.badCtx := by obtain ⟨⟨c, t, h⟩, _⟩ := count_only u n; rw [h]
@[simp] theorem count_ctxRead (u : Units) (n : Nat) : (count u n).ctxRead = u.ctxRead := by obtain ⟨⟨c, t, h⟩, _⟩ := count_only u n; rw [h]
@[simp] theorem count_regs_staged (u : Units) (n : Nat) : (count u n).regs.staged = u.regs.staged := by obtain ⟨⟨c, t, h⟩, _⟩ := count_only u n; rw [h]
@[simp] theorem count_regs_bankA (u : Units) (n : Nat) : (count u n).regs.bankA = u.regs.bankA := by obtain ⟨⟨c, t, h⟩, _⟩ := count_only u n; rw [h]
@[simp] theorem count_regs_bankB (u : Units) (n : Nat) : (count u n).regs.bankB = u.regs.bankB := by obtain ⟨⟨c, t, h⟩, _⟩ := count_only u n; rw [h]
@[simp] theorem count_regs_descStaged (u : Units) (n : Nat) : (count u n).regs.descStaged = u.regs.descStaged := by obtain ⟨⟨c, t, h⟩, _⟩ := count_only u n; rw [h]
@[simp] theorem count_regs_epoch (u : Units) (n : Nat) : (count u n).regs.epoch = u.regs.epoch := by obtain ⟨⟨c, t, h⟩, _⟩ := count_only u n; rw [h]
@[simp] theorem count_regs_pending (u : Units) (n : Nat) : (count u n).regs.pending = u.regs.pending := by obtain ⟨⟨c, t, h⟩, _⟩ := count_only u n; rw [h]
@[simp] theorem count_regs_deferred (u : Units) (n : Nat) : (count u n).regs.deferred = u.regs.deferred := by obtain ⟨⟨c, t, h⟩, _⟩ := count_only u n; rw [h]
@[simp] theorem count_regs_defers (u : Units) (n : Nat) : (count u n).regs.defers = u.regs.defers := by obtain ⟨⟨c, t, h⟩, _⟩ := count_only u n; rw [h]
@[simp] theorem count_regs_lateSeen (u : Units) (n : Nat) : (count u n).regs.lateSeen = u.regs.lateSeen := by obtain ⟨⟨c, t, h⟩, _⟩ := count_only u n; rw [h]
@[simp] theorem count_regs_advances (u : Units) (n : Nat) : (count u n).regs.advances = u.regs.advances := by obtain ⟨⟨c, t, h⟩, _⟩ := count_only u n; rw [h]
@[simp] theorem count_regs_banked (u : Units) (n : Nat) : (count u n).regs.banked = u.regs.banked := by obtain ⟨⟨c, t, h⟩, _⟩ := count_only u n; rw [h]

/-! ### countSignal -/

@[simp] theorem countSignal_v (u : Units) (n : Nat) (on : Bool) (k : Nat) : (countSignal u n on k).v = u.v := by obtain ⟨⟨c, t, h⟩, _⟩ := countSignal_only u n on k; rw [h]
@[simp] theorem countSignal_now (u : Units) (n : Nat) (on : Bool) (k : Nat) : (countSignal u n on k).now = u.now := by obtain ⟨⟨c, t, h⟩, _⟩ := countSignal_only u n on k; rw [h]
@[simp] theorem countSignal_fresh (u : Units) (n : Nat) (on : Bool) (k : Nat) : (countSignal u n on k).fresh = u.fresh := by obtain ⟨⟨c, t, h⟩, _⟩ := countSignal_only u n on k; rw [h]
@[simp] theorem countSignal_out (u : Units) (n : Nat) (on : Bool) (k : Nat) : (countSignal u n on k).out = u.out := by obtain ⟨⟨c, t, h⟩, _⟩ := countSignal_only u n on k; rw [h]
@[simp] theorem countSignal_ports (u : Units) (n : Nat) (on : Bool) (k : Nat) : (countSignal u n on k).ports = u.ports := by obtain ⟨⟨c, t, h⟩, _⟩ := countSignal_only u n on k; rw [h]
@[simp] theorem countSignal_cache (u : Units) (n : Nat) (on : Bool) (k : Nat) : (countSignal u n on k).cache = u.cache := by obtain ⟨⟨c, t, h⟩, _⟩ := countSignal_only u n on k; rw [h]
@[simp] theorem countSignal_ctxEven (u : Units) (n : Nat) (on : Bool) (k : Nat) : (countSignal u n on k).ctxEven = u.ctxEven := by obtain ⟨⟨c, t, h⟩, _⟩ := countSignal_only u n on k; rw [h]
@[simp] theorem countSignal_ctxOdd (u : Units) (n : Nat) (on : Bool) (k : Nat) : (countSignal u n on k).ctxOdd = u.ctxOdd := by obtain ⟨⟨c, t, h⟩, _⟩ := countSignal_only u n on k; rw [h]
@[simp] theorem countSignal_ctxStaged (u : Units) (n : Nat) (on : Bool) (k : Nat) : (countSignal u n on k).ctxStaged = u.ctxStaged := by obtain ⟨⟨c, t, h⟩, _⟩ := countSignal_only u n on k; rw [h]
@[simp] theorem countSignal_flushSeq (u : Units) (n : Nat) (on : Bool) (k : Nat) : (countSignal u n on k).flushSeq = u.flushSeq := by obtain ⟨⟨c, t, h⟩, _⟩ := countSignal_only u n on k; rw [h]
@[simp] theorem countSignal_keys (u : Units) (n : Nat) (on : Bool) (k : Nat) : (countSignal u n on k).keys = u.keys := by obtain ⟨⟨c, t, h⟩, _⟩ := countSignal_only u n on k; rw [h]
@[simp] theorem countSignal_keyPort (u : Units) (n : Nat) (on : Bool) (k : Nat) : (countSignal u n on k).keyPort = u.keyPort := by obtain ⟨⟨c, t, h⟩, _⟩ := countSignal_only u n on k; rw [h]
@[simp] theorem countSignal_net (u : Units) (n : Nat) (on : Bool) (k : Nat) : (countSignal u n on k).net = u.net := by obtain ⟨⟨c, t, h⟩, _⟩ := countSignal_only u n on k; rw [h]
@[simp] theorem countSignal_nextPkt (u : Units) (n : Nat) (on : Bool) (k : Nat) : (countSignal u n on k).nextPkt = u.nextPkt := by obtain ⟨⟨c, t, h⟩, _⟩ := countSignal_only u n on k; rw [h]
@[simp] theorem countSignal_stopped (u : Units) (n : Nat) (on : Bool) (k : Nat) : (countSignal u n on k).stopped = u.stopped := by obtain ⟨⟨c, t, h⟩, _⟩ := countSignal_only u n on k; rw [h]
@[simp] theorem countSignal_tickets (u : Units) (n : Nat) (on : Bool) (k : Nat) : (countSignal u n on k).tickets = u.tickets := by obtain ⟨⟨c, t, h⟩, _⟩ := countSignal_only u n on k; rw [h]
@[simp] theorem countSignal_slotMode (u : Units) (n : Nat) (on : Bool) (k : Nat) : (countSignal u n on k).slotMode = u.slotMode := by obtain ⟨⟨c, t, h⟩, _⟩ := countSignal_only u n on k; rw [h]
@[simp] theorem countSignal_slices (u : Units) (n : Nat) (on : Bool) (k : Nat) : (countSignal u n on k).slices = u.slices := by obtain ⟨⟨c, t, h⟩, _⟩ := countSignal_only u n on k; rw [h]
@[simp] theorem countSignal_stg (u : Units) (n : Nat) (on : Bool) (k : Nat) : (countSignal u n on k).stg = u.stg := by obtain ⟨⟨c, t, h⟩, _⟩ := countSignal_only u n on k; rw [h]
@[simp] theorem countSignal_rings (u : Units) (n : Nat) (on : Bool) (k : Nat) : (countSignal u n on k).rings = u.rings := by obtain ⟨⟨c, t, h⟩, _⟩ := countSignal_only u n on k; rw [h]
@[simp] theorem countSignal_pd (u : Units) (n : Nat) (on : Bool) (k : Nat) : (countSignal u n on k).pd = u.pd := by obtain ⟨⟨c, t, h⟩, _⟩ := countSignal_only u n on k; rw [h]
@[simp] theorem countSignal_fences (u : Units) (n : Nat) (on : Bool) (k : Nat) : (countSignal u n on k).fences = u.fences := by obtain ⟨⟨c, t, h⟩, _⟩ := countSignal_only u n on k; rw [h]
@[simp] theorem countSignal_ddr (u : Units) (n : Nat) (on : Bool) (k : Nat) : (countSignal u n on k).ddr = u.ddr := by obtain ⟨⟨c, t, h⟩, _⟩ := countSignal_only u n on k; rw [h]
@[simp] theorem countSignal_hng (u : Units) (n : Nat) (on : Bool) (k : Nat) : (countSignal u n on k).hng = u.hng := by obtain ⟨⟨c, t, h⟩, _⟩ := countSignal_only u n on k; rw [h]
@[simp] theorem countSignal_drf (u : Units) (n : Nat) (on : Bool) (k : Nat) : (countSignal u n on k).drf = u.drf := by obtain ⟨⟨c, t, h⟩, _⟩ := countSignal_only u n on k; rw [h]
@[simp] theorem countSignal_keep (u : Units) (n : Nat) (on : Bool) (k : Nat) : (countSignal u n on k).keep = u.keep := by obtain ⟨⟨c, t, h⟩, _⟩ := countSignal_only u n on k; rw [h]
@[simp] theorem countSignal_media (u : Units) (n : Nat) (on : Bool) (k : Nat) : (countSignal u n on k).media = u.media := by obtain ⟨⟨c, t, h⟩, _⟩ := countSignal_only u n on k; rw [h]
@[simp] theorem countSignal_cex (u : Units) (n : Nat) (on : Bool) (k : Nat) : (countSignal u n on k).cex = u.cex := by obtain ⟨⟨c, t, h⟩, _⟩ := countSignal_only u n on k; rw [h]
@[simp] theorem countSignal_grp (u : Units) (n : Nat) (on : Bool) (k : Nat) : (countSignal u n on k).grp = u.grp := by obtain ⟨⟨c, t, h⟩, _⟩ := countSignal_only u n on k; rw [h]
@[simp] theorem countSignal_repairs (u : Units) (n : Nat) (on : Bool) (k : Nat) : (countSignal u n on k).repairs = u.repairs := by obtain ⟨⟨c, t, h⟩, _⟩ := countSignal_only u n on k; rw [h]
@[simp] theorem countSignal_patchLog (u : Units) (n : Nat) (on : Bool) (k : Nat) : (countSignal u n on k).patchLog = u.patchLog := by obtain ⟨⟨c, t, h⟩, _⟩ := countSignal_only u n on k; rw [h]
@[simp] theorem countSignal_adm (u : Units) (n : Nat) (on : Bool) (k : Nat) : (countSignal u n on k).adm = u.adm := by obtain ⟨⟨c, t, h⟩, _⟩ := countSignal_only u n on k; rw [h]
@[simp] theorem countSignal_arbs (u : Units) (n : Nat) (on : Bool) (k : Nat) : (countSignal u n on k).arbs = u.arbs := by obtain ⟨⟨c, t, h⟩, _⟩ := countSignal_only u n on k; rw [h]
@[simp] theorem countSignal_audit (u : Units) (n : Nat) (on : Bool) (k : Nat) : (countSignal u n on k).audit = u.audit := by obtain ⟨⟨c, t, h⟩, _⟩ := countSignal_only u n on k; rw [h]
@[simp] theorem countSignal_pwr (u : Units) (n : Nat) (on : Bool) (k : Nat) : (countSignal u n on k).pwr = u.pwr := by obtain ⟨⟨c, t, h⟩, _⟩ := countSignal_only u n on k; rw [h]
@[simp] theorem countSignal_boot (u : Units) (n : Nat) (on : Bool) (k : Nat) : (countSignal u n on k).boot = u.boot := by obtain ⟨⟨c, t, h⟩, _⟩ := countSignal_only u n on k; rw [h]
@[simp] theorem countSignal_tap (u : Units) (n : Nat) (on : Bool) (k : Nat) : (countSignal u n on k).tap = u.tap := by obtain ⟨⟨c, t, h⟩, _⟩ := countSignal_only u n on k; rw [h]
@[simp] theorem countSignal_badCtx (u : Units) (n : Nat) (on : Bool) (k : Nat) : (countSignal u n on k).badCtx = u.badCtx := by obtain ⟨⟨c, t, h⟩, _⟩ := countSignal_only u n on k; rw [h]
@[simp] theorem countSignal_ctxRead (u : Units) (n : Nat) (on : Bool) (k : Nat) : (countSignal u n on k).ctxRead = u.ctxRead := by obtain ⟨⟨c, t, h⟩, _⟩ := countSignal_only u n on k; rw [h]
@[simp] theorem countSignal_regs_staged (u : Units) (n : Nat) (on : Bool) (k : Nat) : (countSignal u n on k).regs.staged = u.regs.staged := by obtain ⟨⟨c, t, h⟩, _⟩ := countSignal_only u n on k; rw [h]
@[simp] theorem countSignal_regs_bankA (u : Units) (n : Nat) (on : Bool) (k : Nat) : (countSignal u n on k).regs.bankA = u.regs.bankA := by obtain ⟨⟨c, t, h⟩, _⟩ := countSignal_only u n on k; rw [h]
@[simp] theorem countSignal_regs_bankB (u : Units) (n : Nat) (on : Bool) (k : Nat) : (countSignal u n on k).regs.bankB = u.regs.bankB := by obtain ⟨⟨c, t, h⟩, _⟩ := countSignal_only u n on k; rw [h]
@[simp] theorem countSignal_regs_descStaged (u : Units) (n : Nat) (on : Bool) (k : Nat) : (countSignal u n on k).regs.descStaged = u.regs.descStaged := by obtain ⟨⟨c, t, h⟩, _⟩ := countSignal_only u n on k; rw [h]
@[simp] theorem countSignal_regs_epoch (u : Units) (n : Nat) (on : Bool) (k : Nat) : (countSignal u n on k).regs.epoch = u.regs.epoch := by obtain ⟨⟨c, t, h⟩, _⟩ := countSignal_only u n on k; rw [h]
@[simp] theorem countSignal_regs_pending (u : Units) (n : Nat) (on : Bool) (k : Nat) : (countSignal u n on k).regs.pending = u.regs.pending := by obtain ⟨⟨c, t, h⟩, _⟩ := countSignal_only u n on k; rw [h]
@[simp] theorem countSignal_regs_deferred (u : Units) (n : Nat) (on : Bool) (k : Nat) : (countSignal u n on k).regs.deferred = u.regs.deferred := by obtain ⟨⟨c, t, h⟩, _⟩ := countSignal_only u n on k; rw [h]
@[simp] theorem countSignal_regs_defers (u : Units) (n : Nat) (on : Bool) (k : Nat) : (countSignal u n on k).regs.defers = u.regs.defers := by obtain ⟨⟨c, t, h⟩, _⟩ := countSignal_only u n on k; rw [h]
@[simp] theorem countSignal_regs_lateSeen (u : Units) (n : Nat) (on : Bool) (k : Nat) : (countSignal u n on k).regs.lateSeen = u.regs.lateSeen := by obtain ⟨⟨c, t, h⟩, _⟩ := countSignal_only u n on k; rw [h]
@[simp] theorem countSignal_regs_advances (u : Units) (n : Nat) (on : Bool) (k : Nat) : (countSignal u n on k).regs.advances = u.regs.advances := by obtain ⟨⟨c, t, h⟩, _⟩ := countSignal_only u n on k; rw [h]
@[simp] theorem countSignal_regs_banked (u : Units) (n : Nat) (on : Bool) (k : Nat) : (countSignal u n on k).regs.banked = u.regs.banked := by obtain ⟨⟨c, t, h⟩, _⟩ := countSignal_only u n on k; rw [h]

/-! ### emitEvent -/

@[simp] theorem emitEvent_v (u : Units) (c i : Nat) (w : List Word) : (emitEvent u c i w).v = u.v := by obtain ⟨⟨c, t, h⟩, _⟩ := emitEvent_only u c i w; rw [h]
@[simp] theorem emitEvent_now (u : Units) (c i : Nat) (w : List Word) : (emitEvent u c i w).now = u.now := by obtain ⟨⟨c, t, h⟩, _⟩ := emitEvent_only u c i w; rw [h]
@[simp] theorem emitEvent_fresh (u : Units) (c i : Nat) (w : List Word) : (emitEvent u c i w).fresh = u.fresh := by obtain ⟨⟨c, t, h⟩, _⟩ := emitEvent_only u c i w; rw [h]
@[simp] theorem emitEvent_out (u : Units) (c i : Nat) (w : List Word) : (emitEvent u c i w).out = u.out := by obtain ⟨⟨c, t, h⟩, _⟩ := emitEvent_only u c i w; rw [h]
@[simp] theorem emitEvent_ports (u : Units) (c i : Nat) (w : List Word) : (emitEvent u c i w).ports = u.ports := by obtain ⟨⟨c, t, h⟩, _⟩ := emitEvent_only u c i w; rw [h]
@[simp] theorem emitEvent_cache (u : Units) (c i : Nat) (w : List Word) : (emitEvent u c i w).cache = u.cache := by obtain ⟨⟨c, t, h⟩, _⟩ := emitEvent_only u c i w; rw [h]
@[simp] theorem emitEvent_ctxEven (u : Units) (c i : Nat) (w : List Word) : (emitEvent u c i w).ctxEven = u.ctxEven := by obtain ⟨⟨c, t, h⟩, _⟩ := emitEvent_only u c i w; rw [h]
@[simp] theorem emitEvent_ctxOdd (u : Units) (c i : Nat) (w : List Word) : (emitEvent u c i w).ctxOdd = u.ctxOdd := by obtain ⟨⟨c, t, h⟩, _⟩ := emitEvent_only u c i w; rw [h]
@[simp] theorem emitEvent_ctxStaged (u : Units) (c i : Nat) (w : List Word) : (emitEvent u c i w).ctxStaged = u.ctxStaged := by obtain ⟨⟨c, t, h⟩, _⟩ := emitEvent_only u c i w; rw [h]
@[simp] theorem emitEvent_flushSeq (u : Units) (c i : Nat) (w : List Word) : (emitEvent u c i w).flushSeq = u.flushSeq := by obtain ⟨⟨c, t, h⟩, _⟩ := emitEvent_only u c i w; rw [h]
@[simp] theorem emitEvent_keys (u : Units) (c i : Nat) (w : List Word) : (emitEvent u c i w).keys = u.keys := by obtain ⟨⟨c, t, h⟩, _⟩ := emitEvent_only u c i w; rw [h]
@[simp] theorem emitEvent_keyPort (u : Units) (c i : Nat) (w : List Word) : (emitEvent u c i w).keyPort = u.keyPort := by obtain ⟨⟨c, t, h⟩, _⟩ := emitEvent_only u c i w; rw [h]
@[simp] theorem emitEvent_net (u : Units) (c i : Nat) (w : List Word) : (emitEvent u c i w).net = u.net := by obtain ⟨⟨c, t, h⟩, _⟩ := emitEvent_only u c i w; rw [h]
@[simp] theorem emitEvent_nextPkt (u : Units) (c i : Nat) (w : List Word) : (emitEvent u c i w).nextPkt = u.nextPkt := by obtain ⟨⟨c, t, h⟩, _⟩ := emitEvent_only u c i w; rw [h]
@[simp] theorem emitEvent_stopped (u : Units) (c i : Nat) (w : List Word) : (emitEvent u c i w).stopped = u.stopped := by obtain ⟨⟨c, t, h⟩, _⟩ := emitEvent_only u c i w; rw [h]
@[simp] theorem emitEvent_tickets (u : Units) (c i : Nat) (w : List Word) : (emitEvent u c i w).tickets = u.tickets := by obtain ⟨⟨c, t, h⟩, _⟩ := emitEvent_only u c i w; rw [h]
@[simp] theorem emitEvent_slotMode (u : Units) (c i : Nat) (w : List Word) : (emitEvent u c i w).slotMode = u.slotMode := by obtain ⟨⟨c, t, h⟩, _⟩ := emitEvent_only u c i w; rw [h]
@[simp] theorem emitEvent_slices (u : Units) (c i : Nat) (w : List Word) : (emitEvent u c i w).slices = u.slices := by obtain ⟨⟨c, t, h⟩, _⟩ := emitEvent_only u c i w; rw [h]
@[simp] theorem emitEvent_stg (u : Units) (c i : Nat) (w : List Word) : (emitEvent u c i w).stg = u.stg := by obtain ⟨⟨c, t, h⟩, _⟩ := emitEvent_only u c i w; rw [h]
@[simp] theorem emitEvent_rings (u : Units) (c i : Nat) (w : List Word) : (emitEvent u c i w).rings = u.rings := by obtain ⟨⟨c, t, h⟩, _⟩ := emitEvent_only u c i w; rw [h]
@[simp] theorem emitEvent_pd (u : Units) (c i : Nat) (w : List Word) : (emitEvent u c i w).pd = u.pd := by obtain ⟨⟨c, t, h⟩, _⟩ := emitEvent_only u c i w; rw [h]
@[simp] theorem emitEvent_fences (u : Units) (c i : Nat) (w : List Word) : (emitEvent u c i w).fences = u.fences := by obtain ⟨⟨c, t, h⟩, _⟩ := emitEvent_only u c i w; rw [h]
@[simp] theorem emitEvent_ddr (u : Units) (c i : Nat) (w : List Word) : (emitEvent u c i w).ddr = u.ddr := by obtain ⟨⟨c, t, h⟩, _⟩ := emitEvent_only u c i w; rw [h]
@[simp] theorem emitEvent_hng (u : Units) (c i : Nat) (w : List Word) : (emitEvent u c i w).hng = u.hng := by obtain ⟨⟨c, t, h⟩, _⟩ := emitEvent_only u c i w; rw [h]
@[simp] theorem emitEvent_drf (u : Units) (c i : Nat) (w : List Word) : (emitEvent u c i w).drf = u.drf := by obtain ⟨⟨c, t, h⟩, _⟩ := emitEvent_only u c i w; rw [h]
@[simp] theorem emitEvent_keep (u : Units) (c i : Nat) (w : List Word) : (emitEvent u c i w).keep = u.keep := by obtain ⟨⟨c, t, h⟩, _⟩ := emitEvent_only u c i w; rw [h]
@[simp] theorem emitEvent_media (u : Units) (c i : Nat) (w : List Word) : (emitEvent u c i w).media = u.media := by obtain ⟨⟨c, t, h⟩, _⟩ := emitEvent_only u c i w; rw [h]
@[simp] theorem emitEvent_cex (u : Units) (c i : Nat) (w : List Word) : (emitEvent u c i w).cex = u.cex := by obtain ⟨⟨c, t, h⟩, _⟩ := emitEvent_only u c i w; rw [h]
@[simp] theorem emitEvent_grp (u : Units) (c i : Nat) (w : List Word) : (emitEvent u c i w).grp = u.grp := by obtain ⟨⟨c, t, h⟩, _⟩ := emitEvent_only u c i w; rw [h]
@[simp] theorem emitEvent_repairs (u : Units) (c i : Nat) (w : List Word) : (emitEvent u c i w).repairs = u.repairs := by obtain ⟨⟨c, t, h⟩, _⟩ := emitEvent_only u c i w; rw [h]
@[simp] theorem emitEvent_patchLog (u : Units) (c i : Nat) (w : List Word) : (emitEvent u c i w).patchLog = u.patchLog := by obtain ⟨⟨c, t, h⟩, _⟩ := emitEvent_only u c i w; rw [h]
@[simp] theorem emitEvent_adm (u : Units) (c i : Nat) (w : List Word) : (emitEvent u c i w).adm = u.adm := by obtain ⟨⟨c, t, h⟩, _⟩ := emitEvent_only u c i w; rw [h]
@[simp] theorem emitEvent_arbs (u : Units) (c i : Nat) (w : List Word) : (emitEvent u c i w).arbs = u.arbs := by obtain ⟨⟨c, t, h⟩, _⟩ := emitEvent_only u c i w; rw [h]
@[simp] theorem emitEvent_audit (u : Units) (c i : Nat) (w : List Word) : (emitEvent u c i w).audit = u.audit := by obtain ⟨⟨c, t, h⟩, _⟩ := emitEvent_only u c i w; rw [h]
@[simp] theorem emitEvent_pwr (u : Units) (c i : Nat) (w : List Word) : (emitEvent u c i w).pwr = u.pwr := by obtain ⟨⟨c, t, h⟩, _⟩ := emitEvent_only u c i w; rw [h]
@[simp] theorem emitEvent_boot (u : Units) (c i : Nat) (w : List Word) : (emitEvent u c i w).boot = u.boot := by obtain ⟨⟨c, t, h⟩, _⟩ := emitEvent_only u c i w; rw [h]
@[simp] theorem emitEvent_tap (u : Units) (c i : Nat) (w : List Word) : (emitEvent u c i w).tap = u.tap := by obtain ⟨⟨c, t, h⟩, _⟩ := emitEvent_only u c i w; rw [h]
@[simp] theorem emitEvent_badCtx (u : Units) (c i : Nat) (w : List Word) : (emitEvent u c i w).badCtx = u.badCtx := by obtain ⟨⟨c, t, h⟩, _⟩ := emitEvent_only u c i w; rw [h]
@[simp] theorem emitEvent_ctxRead (u : Units) (c i : Nat) (w : List Word) : (emitEvent u c i w).ctxRead = u.ctxRead := by obtain ⟨⟨c, t, h⟩, _⟩ := emitEvent_only u c i w; rw [h]
@[simp] theorem emitEvent_regs_staged (u : Units) (c i : Nat) (w : List Word) : (emitEvent u c i w).regs.staged = u.regs.staged := by obtain ⟨⟨c, t, h⟩, _⟩ := emitEvent_only u c i w; rw [h]
@[simp] theorem emitEvent_regs_bankA (u : Units) (c i : Nat) (w : List Word) : (emitEvent u c i w).regs.bankA = u.regs.bankA := by obtain ⟨⟨c, t, h⟩, _⟩ := emitEvent_only u c i w; rw [h]
@[simp] theorem emitEvent_regs_bankB (u : Units) (c i : Nat) (w : List Word) : (emitEvent u c i w).regs.bankB = u.regs.bankB := by obtain ⟨⟨c, t, h⟩, _⟩ := emitEvent_only u c i w; rw [h]
@[simp] theorem emitEvent_regs_descStaged (u : Units) (c i : Nat) (w : List Word) : (emitEvent u c i w).regs.descStaged = u.regs.descStaged := by obtain ⟨⟨c, t, h⟩, _⟩ := emitEvent_only u c i w; rw [h]
@[simp] theorem emitEvent_regs_epoch (u : Units) (c i : Nat) (w : List Word) : (emitEvent u c i w).regs.epoch = u.regs.epoch := by obtain ⟨⟨c, t, h⟩, _⟩ := emitEvent_only u c i w; rw [h]
@[simp] theorem emitEvent_regs_pending (u : Units) (c i : Nat) (w : List Word) : (emitEvent u c i w).regs.pending = u.regs.pending := by obtain ⟨⟨c, t, h⟩, _⟩ := emitEvent_only u c i w; rw [h]
@[simp] theorem emitEvent_regs_deferred (u : Units) (c i : Nat) (w : List Word) : (emitEvent u c i w).regs.deferred = u.regs.deferred := by obtain ⟨⟨c, t, h⟩, _⟩ := emitEvent_only u c i w; rw [h]
@[simp] theorem emitEvent_regs_defers (u : Units) (c i : Nat) (w : List Word) : (emitEvent u c i w).regs.defers = u.regs.defers := by obtain ⟨⟨c, t, h⟩, _⟩ := emitEvent_only u c i w; rw [h]
@[simp] theorem emitEvent_regs_lateSeen (u : Units) (c i : Nat) (w : List Word) : (emitEvent u c i w).regs.lateSeen = u.regs.lateSeen := by obtain ⟨⟨c, t, h⟩, _⟩ := emitEvent_only u c i w; rw [h]
@[simp] theorem emitEvent_regs_advances (u : Units) (c i : Nat) (w : List Word) : (emitEvent u c i w).regs.advances = u.regs.advances := by obtain ⟨⟨c, t, h⟩, _⟩ := emitEvent_only u c i w; rw [h]
@[simp] theorem emitEvent_regs_banked (u : Units) (c i : Nat) (w : List Word) : (emitEvent u c i w).regs.banked = u.regs.banked := by obtain ⟨⟨c, t, h⟩, _⟩ := emitEvent_only u c i w; rw [h]

/-! ### portFault -/

@[simp] theorem portFault_v (u : Units) (p b o : Nat) : (portFault u p b o).v = u.v := by simp [portFault]
@[simp] theorem portFault_now (u : Units) (p b o : Nat) : (portFault u p b o).now = u.now := by simp [portFault]
@[simp] theorem portFault_fresh (u : Units) (p b o : Nat) : (portFault u p b o).fresh = u.fresh := by simp [portFault]
@[simp] theorem portFault_out (u : Units) (p b o : Nat) : (portFault u p b o).out = u.out := by simp [portFault]
@[simp] theorem portFault_ports (u : Units) (p b o : Nat) : (portFault u p b o).ports = u.ports := by simp [portFault]
@[simp] theorem portFault_cache (u : Units) (p b o : Nat) : (portFault u p b o).cache = u.cache := by simp [portFault]
@[simp] theorem portFault_ctxEven (u : Units) (p b o : Nat) : (portFault u p b o).ctxEven = u.ctxEven := by simp [portFault]
@[simp] theorem portFault_ctxOdd (u : Units) (p b o : Nat) : (portFault u p b o).ctxOdd = u.ctxOdd := by simp [portFault]
@[simp] theorem portFault_ctxStaged (u : Units) (p b o : Nat) : (portFault u p b o).ctxStaged = u.ctxStaged := by simp [portFault]
@[simp] theorem portFault_flushSeq (u : Units) (p b o : Nat) : (portFault u p b o).flushSeq = u.flushSeq := by simp [portFault]
@[simp] theorem portFault_keys (u : Units) (p b o : Nat) : (portFault u p b o).keys = u.keys := by simp [portFault]
@[simp] theorem portFault_keyPort (u : Units) (p b o : Nat) : (portFault u p b o).keyPort = u.keyPort := by simp [portFault]
@[simp] theorem portFault_net (u : Units) (p b o : Nat) : (portFault u p b o).net = u.net := by simp [portFault]
@[simp] theorem portFault_nextPkt (u : Units) (p b o : Nat) : (portFault u p b o).nextPkt = u.nextPkt := by simp [portFault]
@[simp] theorem portFault_stopped (u : Units) (p b o : Nat) : (portFault u p b o).stopped = u.stopped := by simp [portFault]
@[simp] theorem portFault_tickets (u : Units) (p b o : Nat) : (portFault u p b o).tickets = u.tickets := by simp [portFault]
@[simp] theorem portFault_slotMode (u : Units) (p b o : Nat) : (portFault u p b o).slotMode = u.slotMode := by simp [portFault]
@[simp] theorem portFault_slices (u : Units) (p b o : Nat) : (portFault u p b o).slices = u.slices := by simp [portFault]
@[simp] theorem portFault_stg (u : Units) (p b o : Nat) : (portFault u p b o).stg = u.stg := by simp [portFault]
@[simp] theorem portFault_rings (u : Units) (p b o : Nat) : (portFault u p b o).rings = u.rings := by simp [portFault]
@[simp] theorem portFault_pd (u : Units) (p b o : Nat) : (portFault u p b o).pd = u.pd := by simp [portFault]
@[simp] theorem portFault_fences (u : Units) (p b o : Nat) : (portFault u p b o).fences = u.fences := by simp [portFault]
@[simp] theorem portFault_ddr (u : Units) (p b o : Nat) : (portFault u p b o).ddr = u.ddr := by simp [portFault]
@[simp] theorem portFault_hng (u : Units) (p b o : Nat) : (portFault u p b o).hng = u.hng := by simp [portFault]
@[simp] theorem portFault_drf (u : Units) (p b o : Nat) : (portFault u p b o).drf = u.drf := by simp [portFault]
@[simp] theorem portFault_keep (u : Units) (p b o : Nat) : (portFault u p b o).keep = u.keep := by simp [portFault]
@[simp] theorem portFault_media (u : Units) (p b o : Nat) : (portFault u p b o).media = u.media := by simp [portFault]
@[simp] theorem portFault_cex (u : Units) (p b o : Nat) : (portFault u p b o).cex = u.cex := by simp [portFault]
@[simp] theorem portFault_grp (u : Units) (p b o : Nat) : (portFault u p b o).grp = u.grp := by simp [portFault]
@[simp] theorem portFault_repairs (u : Units) (p b o : Nat) : (portFault u p b o).repairs = u.repairs := by simp [portFault]
@[simp] theorem portFault_patchLog (u : Units) (p b o : Nat) : (portFault u p b o).patchLog = u.patchLog := by simp [portFault]
@[simp] theorem portFault_adm (u : Units) (p b o : Nat) : (portFault u p b o).adm = u.adm := by simp [portFault]
@[simp] theorem portFault_arbs (u : Units) (p b o : Nat) : (portFault u p b o).arbs = u.arbs := by simp [portFault]
@[simp] theorem portFault_audit (u : Units) (p b o : Nat) : (portFault u p b o).audit = u.audit := by simp [portFault]
@[simp] theorem portFault_pwr (u : Units) (p b o : Nat) : (portFault u p b o).pwr = u.pwr := by simp [portFault]
@[simp] theorem portFault_boot (u : Units) (p b o : Nat) : (portFault u p b o).boot = u.boot := by simp [portFault]
@[simp] theorem portFault_tap (u : Units) (p b o : Nat) : (portFault u p b o).tap = u.tap := by simp [portFault]
@[simp] theorem portFault_badCtx (u : Units) (p b o : Nat) : (portFault u p b o).badCtx = u.badCtx := by simp [portFault]
@[simp] theorem portFault_ctxRead (u : Units) (p b o : Nat) : (portFault u p b o).ctxRead = u.ctxRead := by simp [portFault]
@[simp] theorem portFault_regs_staged (u : Units) (p b o : Nat) : (portFault u p b o).regs.staged = u.regs.staged := by simp [portFault]
@[simp] theorem portFault_regs_bankA (u : Units) (p b o : Nat) : (portFault u p b o).regs.bankA = u.regs.bankA := by simp [portFault]
@[simp] theorem portFault_regs_bankB (u : Units) (p b o : Nat) : (portFault u p b o).regs.bankB = u.regs.bankB := by simp [portFault]
@[simp] theorem portFault_regs_descStaged (u : Units) (p b o : Nat) : (portFault u p b o).regs.descStaged = u.regs.descStaged := by simp [portFault]
@[simp] theorem portFault_regs_epoch (u : Units) (p b o : Nat) : (portFault u p b o).regs.epoch = u.regs.epoch := by simp [portFault]
@[simp] theorem portFault_regs_pending (u : Units) (p b o : Nat) : (portFault u p b o).regs.pending = u.regs.pending := by simp [portFault]
@[simp] theorem portFault_regs_deferred (u : Units) (p b o : Nat) : (portFault u p b o).regs.deferred = u.regs.deferred := by simp [portFault]
@[simp] theorem portFault_regs_defers (u : Units) (p b o : Nat) : (portFault u p b o).regs.defers = u.regs.defers := by simp [portFault]
@[simp] theorem portFault_regs_lateSeen (u : Units) (p b o : Nat) : (portFault u p b o).regs.lateSeen = u.regs.lateSeen := by simp [portFault]
@[simp] theorem portFault_regs_advances (u : Units) (p b o : Nat) : (portFault u p b o).regs.advances = u.regs.advances := by simp [portFault]
@[simp] theorem portFault_regs_banked (u : Units) (p b o : Nat) : (portFault u p b o).regs.banked = u.regs.banked := by simp [portFault]

end Sys2Proof.Machine
end

