-- ==== Sys2Proof/Laws/Exec.lean ====
section
/-! SUPPORT. How a meaning answers: the next state of a meaning that changes only the units, and of one that may change the mode machine too. -/

namespace Sys2Proof.Machine

/-- The units as a meaning finds them: the outputs of the command before are gone. -/
def fresh (s : State) : Units := { s.u with out := [] }

theorem onU_next {s : State} {f : Ctl → Units → Units} {x : Units} (h : f s.ctl (fresh s) = x) : onU s f = .next { s with u := x } := by
  subst h; rfl

theorem onU_inj {s t : State} {f : Ctl → Units → Units} (h : onU s f = .next t) : t = { s with u := f s.ctl (fresh s) } := (Host.Outcome.next.inj h).symm

theorem onBoth_inj {s t : State} {f : Ctl → Units → Ctl × Units} (h : onBoth s f = .next t) : t = { s with ctl := (f s.ctl (fresh s)).1, u := (f s.ctl (fresh s)).2 } :=
  (Host.Outcome.next.inj h).symm

theorem onBoth_next {s : State} {f : Ctl → Units → Ctl × Units} {c : Ctl} {x : Units} (h : f s.ctl (fresh s) = (c, x)) :
    onBoth s f = .next { s with ctl := c, u := x } := by
  unfold onBoth
  rw [show f s.ctl { s.u with out := [] } = (c, x) from h]

/-! ### One equation per command -/

@[simp] theorem exec_read (port pool : Nat) (hdr : BitVec 128) (s : State) : exec (.read port pool hdr) s = execRead port pool hdr s := rfl
@[simp] theorem exec_write (port pool : Nat) (hdr : BitVec 128) (s : State) : exec (.write port pool hdr) s = execWrite port pool hdr s := rfl
@[simp] theorem exec_writeMasked (port pool : Nat) (hdr : BitVec 128) (s : State) : exec (.writeMasked port pool hdr) s = execWriteMasked port pool hdr s := rfl
@[simp] theorem exec_prefetch (port pool : Nat) (hdr : BitVec 128) (s : State) : exec (.prefetch port pool hdr) s = execPrefetch port pool hdr s := rfl
@[simp] theorem exec_flush (port pool : Nat) (hdr : BitVec 128) (s : State) : exec (.flush port pool hdr) s = execFlush port pool hdr s := rfl
@[simp] theorem exec_flushAll (port pool : Nat) (hdr : BitVec 128) (s : State) : exec (.flushAll port pool hdr) s = execFlushAll port pool hdr s := rfl
@[simp] theorem exec_dataBeat (port pool : Nat) (data : BitVec 256) (dpar : BitVec 32) (s : State) : exec (.dataBeat port pool data dpar) s = execDataBeat port pool data dpar s := rfl
@[simp] theorem exec_badKind (port : Nat) (s : State) : exec (.badKind port) s = execBadKind port s := rfl
@[simp] theorem exec_reopen (port : Nat) (s : State) : exec (.reopen port) s = execReopen port s := rfl
@[simp] theorem exec_portReady (port : Nat) (s : State) : exec (.portReady port) s = execPortReady port s := rfl
@[simp] theorem exec_bucketRefill (port : Nat) (s : State) : exec (.bucketRefill port) s = execBucketRefill port s := rfl
@[simp] theorem exec_rewriteCheck (port ord : Nat) (s : State) : exec (.rewriteCheck port ord) s = execRewriteCheck port ord s := rfl
@[simp] theorem exec_ctxRecordFetch (pkt : Landing) (s : State) : exec (.ctxRecordFetch pkt) s = execCtxRecordFetch pkt s := rfl
@[simp] theorem exec_lineReq (pkt : Nat) (err : FlitErr) (s : State) : exec (.lineReq pkt err) s = execLineReq pkt err s := rfl
@[simp] theorem exec_lineWr (pkt : Nat) (err : FlitErr) (s : State) : exec (.lineWr pkt err) s = execLineWr pkt err s := rfl
@[simp] theorem exec_fillReq (pkt : Landing) (s : State) : exec (.fillReq pkt) s = execFillReq pkt s := rfl
@[simp] theorem exec_fillFwd (pkt : Landing) (s : State) : exec (.fillFwd pkt) s = execFillFwd pkt s := rfl
@[simp] theorem exec_fillData (pkt : Nat) (err : FlitErr) (s : State) : exec (.fillData pkt err) s = execFillData pkt err s := rfl
@[simp] theorem exec_zero (pkt : Landing) (s : State) : exec (.zero pkt) s = execZero pkt s := rfl
@[simp] theorem exec_lineRet (pkt : Nat) (err : FlitErr) (s : State) : exec (.lineRet pkt err) s = execLineRet pkt err s := rfl
@[simp] theorem exec_done (pkt : Landing) (s : State) : exec (.done pkt) s = execDone pkt s := rfl
@[simp] theorem exec_ticket (pkt : Landing) (s : State) : exec (.ticket pkt) s = execTicket pkt s := rfl
@[simp] theorem exec_slotModeEnter (router output waited : Nat) (s : State) : exec (.slotModeEnter router output waited) s = execSlotModeEnter router output waited s := rfl
@[simp] theorem exec_slotModeExit (router output quiet worst : Nat) (s : State) : exec (.slotModeExit router output quiet worst) s = execSlotModeExit router output quiet worst s := rfl
@[simp] theorem exec_isolation (domain : Nat) (s : State) : exec (.isolation domain) s = execIsolation domain s := rfl
@[simp] theorem exec_destageStart (slice : Nat) (s : State) : exec (.destageStart slice) s = execDestageStart slice s := rfl
@[simp] theorem exec_destage (pkt : Nat) (err : FlitErr) (s : State) : exec (.destage pkt err) s = execDestage pkt err s := rfl
@[simp] theorem exec_stripeWritten (slice group : Nat) (s : State) : exec (.stripeWritten slice group) s = execStripeWritten slice group s := rfl
@[simp] theorem exec_placementRequest (slice : Nat) (s : State) : exec (.placementRequest slice) s = execPlacementRequest slice s := rfl
@[simp] theorem exec_flushArrival (pkt : Landing) (s : State) : exec (.flushArrival pkt) s = execFlushArrival pkt s := rfl
@[simp] theorem exec_epochAdvance (s : State) : exec (.epochAdvance) s = execEpochAdvance s := rfl
@[simp] theorem exec_epochAck (slice : Nat) (s : State) : exec (.epochAck slice) s = execEpochAck slice s := rfl
@[simp] theorem exec_flushEpochComplete (waiter : Nat) (s : State) : exec (.flushEpochComplete waiter) s = execFlushEpochComplete waiter s := rfl
@[simp] theorem exec_evacComplete (s : State) : exec (.evacComplete) s = execEvacComplete s := rfl
@[simp] theorem exec_restoreComplete (s : State) : exec (.restoreComplete) s = execRestoreComplete s := rfl
@[simp] theorem exec_ddr5CommandIssue (ch sub : Nat) (s : State) : exec (.ddr5CommandIssue ch sub) s = execDdr5CommandIssue ch sub s := rfl
@[simp] theorem exec_ddr5ReadReturn (ch sub : Nat) (err : BitVec 640) (s : State) : exec (.ddr5ReadReturn ch sub err) s = execDdr5ReadReturn ch sub err s := rfl
@[simp] theorem exec_refreshDue (ch sub rank : Nat) (s : State) : exec (.refreshDue ch sub rank) s = execRefreshDue ch sub rank s := rfl
@[simp] theorem exec_rowCloseIdle (ch sub rank bank : Nat) (s : State) : exec (.rowCloseIdle ch sub rank bank) s = execRowCloseIdle ch sub rank bank s := rfl
@[simp] theorem exec_thermPoll (ch : Nat) (mr4 : List Nat) (hub0 hub1 : HubReading) (s : State) : exec (.thermPoll ch mr4 hub0 hub1) s = execThermPoll ch mr4 hub0 hub1 s := rfl
@[simp] theorem exec_alertBackoff (ch sub dimm : Nat) (s : State) : exec (.alertBackoff ch sub dimm) s = execAlertBackoff ch sub dimm s := rfl
@[simp] theorem exec_crcAlert (ch sub dimm : Nat) (s : State) : exec (.crcAlert ch sub dimm) s = execCrcAlert ch sub dimm s := rfl
@[simp] theorem exec_ddr5SchedWrite (ch : Nat) (therm : Bool) (value : Word) (s : State) : exec (.ddr5SchedWrite ch therm value) s = execDdr5SchedWrite ch therm value s := rfl
@[simp] theorem exec_oscRetrain (ch sub rank : Nat) (s : State) : exec (.oscRetrain ch sub rank) s = execOscRetrain ch sub rank s := rfl
@[simp] theorem exec_oscResult (ch sub rank dev count : Nat) (s : State) : exec (.oscResult ch sub rank dev count) s = execOscResult ch sub rank dev count s := rfl
@[simp] theorem exec_trainStepTimeout (media : Bool) (ch step unit : Nat) (s : State) : exec (.trainStepTimeout media ch step unit) s = execTrainStepTimeout media ch step unit s := rfl
@[simp] theorem exec_bsyNRise (ch die : Nat) (s : State) : exec (.bsyNRise ch die) s = execBsyNRise ch die s := rfl
@[simp] theorem exec_mediaLineReceived (ch : Nat) (err : BitVec 768) (s : State) : exec (.mediaLineReceived ch err) s = execMediaLineReceived ch err s := rfl
@[simp] theorem exec_dqTransfer (ch : BusTurn) (s : State) : exec (.dqTransfer ch) s = execDqTransfer ch s := rfl
@[simp] theorem exec_phaseStart (group : Nat) (s : State) : exec (.phaseStart group) s = execPhaseStart group s := rfl
@[simp] theorem exec_programSlot (ch die : Nat) (s : State) : exec (.programSlot ch die) s = execProgramSlot ch die s := rfl
@[simp] theorem exec_programComplete (ch die : Nat) (pfail : BitVec 8) (s : State) : exec (.programComplete ch die pfail) s = execProgramComplete ch die pfail s := rfl
@[simp] theorem exec_linkCheck (ch : Nat) (below above : Bool) (s : State) : exec (.linkCheck ch below above) s = execLinkCheck ch below above s := rfl
@[simp] theorem exec_zqCalibrate (ch : Nat) (s : State) : exec (.zqCalibrate ch) s = execZqCalibrate ch s := rfl
@[simp] theorem exec_mediaTempPoll (ch die : Nat) (temp : BitVec 8) (valid : Bool) (s : State) : exec (.mediaTempPoll ch die temp valid) s = execMediaTempPoll ch die temp valid s := rfl
@[simp] theorem exec_dieLateCheck (ch die : Nat) (seen : DieSeen) (s : State) : exec (.dieLateCheck ch die seen) s = execDieLateCheck ch die seen s := rfl
@[simp] theorem exec_moveStart (s : State) : exec (.moveStart) s = execMoveStart s := rfl
@[simp] theorem exec_moveStripeWritten (slot : Nat) (s : State) : exec (.moveStripeWritten slot) s = execMoveStripeWritten slot s := rfl
@[simp] theorem exec_sweep (slot : Nat) (s : State) : exec (.sweep slot) s = execSweep slot s := rfl
@[simp] theorem exec_format (slot : Nat) (s : State) : exec (.format slot) s = execFormat slot s := rfl
@[simp] theorem exec_poolScan (s : State) : exec (.poolScan) s = execPoolScan s := rfl
@[simp] theorem exec_regionScan (s : State) : exec (.regionScan) s = execRegionScan s := rfl
@[simp] theorem exec_journalFlushTimer (s : State) : exec (.journalFlushTimer) s = execJournalFlushTimer s := rfl
@[simp] theorem exec_journalBlockWritten (s : State) : exec (.journalBlockWritten) s = execJournalBlockWritten s := rfl
@[simp] theorem exec_checkpointEnd (s : State) : exec (.checkpointEnd) s = execCheckpointEnd s := rfl
@[simp] theorem exec_hngCmdRead (s : State) : exec (.hngCmdRead) s = execHngCmdRead s := rfl
@[simp] theorem exec_ctxCmdRead (s : State) : exec (.ctxCmdRead) s = execCtxCmdRead s := rfl
@[simp] theorem exec_ageEpochTick (s : State) : exec (.ageEpochTick) s = execAgeEpochTick s := rfl
@[simp] theorem exec_driftCalibrate (group : Nat) (scores : List Nat) (s : State) : exec (.driftCalibrate group scores) s = execDriftCalibrate group scores s := rfl
@[simp] theorem exec_ddr5Scrub (ch : Nat) (errs : List (BitVec 640)) (s : State) : exec (.ddr5Scrub ch errs) s = execDdr5Scrub ch errs s := rfl
@[simp] theorem exec_cexusScrub (ch : Nat) (errs : List (BitVec 768)) (s : State) : exec (.cexusScrub ch errs) s = execCexusScrub ch errs s := rfl
@[simp] theorem exec_sramScrub (table index : Nat) (outcome : SramOutcome) (s : State) : exec (.sramScrub table index outcome) s = execSramScrub table index outcome s := rfl
@[simp] theorem exec_scrubOverdue (media : Bool) (ch : Nat) (s : State) : exec (.scrubOverdue media ch) s = execScrubOverdue media ch s := rfl
@[simp] theorem exec_repair (place : Nat) (s : State) : exec (.repair place) s = execRepair place s := rfl
@[simp] theorem exec_mntGrant (media : Bool) (ch : Nat) (s : State) : exec (.mntGrant media ch) s = execMntGrant media ch s := rfl
@[simp] theorem exec_mntRankWrite (value : Word) (s : State) : exec (.mntRankWrite value) s = execMntRankWrite value s := rfl
@[simp] theorem exec_mntByeWrite (value : Word) (s : State) : exec (.mntByeWrite value) s = execMntByeWrite value s := rfl
@[simp] theorem exec_latch (s : State) : exec (.latch) s = execLatch s := rfl
@[simp] theorem exec_recheck (s : State) : exec (.recheck) s = execRecheck s := rfl
@[simp] theorem exec_bwWindowEnd (s : State) : exec (.bwWindowEnd) s = execBwWindowEnd s := rfl
@[simp] theorem exec_descriptorFetch (ring : Nat) (s : State) : exec (.descriptorFetch ring) s = execDescriptorFetch ring s := rfl
@[simp] theorem exec_fetchReturn (ring index : Nat) (err : Bool) (desc : BitVec 512) (s : State) : exec (.fetchReturn ring index err desc) s = execFetchReturn ring index err desc s := rfl
@[simp] theorem exec_completionWritten (ring : Nat) (err : Bool) (s : State) : exec (.completionWritten ring err) s = execCompletionWritten ring err s := rfl
@[simp] theorem exec_sqDoorbell (ring : Nat) (tail : Word) (s : State) : exec (.sqDoorbell ring tail) s = execSqDoorbell ring tail s := rfl
@[simp] theorem exec_cqDoorbell (ring : Nat) (head : Word) (s : State) : exec (.cqDoorbell ring head) s = execCqDoorbell ring head s := rfl
@[simp] theorem exec_ntDoorbell (head : Word) (s : State) : exec (.ntDoorbell head) s = execNtDoorbell head s := rfl
@[simp] theorem exec_ringReset (ring : Nat) (s : State) : exec (.ringReset ring) s = execRingReset ring s := rfl
@[simp] theorem exec_ringResetComplete (ring : Nat) (s : State) : exec (.ringResetComplete ring) s = execRingResetComplete ring s := rfl
@[simp] theorem exec_noticeRingReset (s : State) : exec (.noticeRingReset) s = execNoticeRingReset s := rfl
@[simp] theorem exec_irqTimer (ring : Nat) (s : State) : exec (.irqTimer ring) s = execIrqTimer ring s := rfl
@[simp] theorem exec_irqMaskWrite (k : Nat) (value : Word) (s : State) : exec (.irqMaskWrite k value) s = execIrqMaskWrite k value s := rfl
@[simp] theorem exec_nop (ring index : Nat) (s : State) : exec (.nop ring index) s = execNop ring index s := rfl
@[simp] theorem exec_ctxOpen (ring index : Nat) (s : State) : exec (.ctxOpen ring index) s = execCtxOpen ring index s := rfl
@[simp] theorem exec_ctxModify (ring index : Nat) (s : State) : exec (.ctxModify ring index) s = execCtxModify ring index s := rfl
@[simp] theorem exec_ctxClose (ring index : Nat) (s : State) : exec (.ctxClose ring index) s = execCtxClose ring index s := rfl
@[simp] theorem exec_ctxCloseFinish (handle : Nat) (s : State) : exec (.ctxCloseFinish handle) s = execCtxCloseFinish handle s := rfl
@[simp] theorem exec_keyBind (ring index : Nat) (s : State) : exec (.keyBind ring index) s = execKeyBind ring index s := rfl
@[simp] theorem exec_flushDescriptor (ring index : Nat) (s : State) : exec (.flushDescriptor ring index) s = execFlushDescriptor ring index s := rfl
@[simp] theorem exec_flushAllDescriptor (ring index : Nat) (s : State) : exec (.flushAllDescriptor ring index) s = execFlushAllDescriptor ring index s := rfl
@[simp] theorem exec_trim (ring index : Nat) (s : State) : exec (.trim ring index) s = execTrim ring index s := rfl
@[simp] theorem exec_prefetchDescriptor (ring index : Nat) (s : State) : exec (.prefetchDescriptor ring index) s = execPrefetchDescriptor ring index s := rfl
@[simp] theorem exec_changeset (ring index : Nat) (s : State) : exec (.changeset ring index) s = execChangeset ring index s := rfl
@[simp] theorem exec_turnTableLoad (ring index : Nat) (s : State) : exec (.turnTableLoad ring index) s = execTurnTableLoad ring index s := rfl
@[simp] theorem exec_scrubPass (ring index : Nat) (s : State) : exec (.scrubPass ring index) s = execScrubPass ring index s := rfl
@[simp] theorem exec_selftestDramPattern (ring index : Nat) (result : TestResult) (s : State) : exec (.selftestDramPattern ring index result) s = execSelftestDramPattern ring index result s := rfl
@[simp] theorem exec_selftestDramReadMargin (ring index : Nat) (result : TestResult) (s : State) : exec (.selftestDramReadMargin ring index result) s = execSelftestDramReadMargin ring index result s := rfl
@[simp] theorem exec_selftestDramWriteMargin (ring index : Nat) (result : TestResult) (s : State) : exec (.selftestDramWriteMargin ring index result) s = execSelftestDramWriteMargin ring index result s := rfl
@[simp] theorem exec_selftestEcsReadout (ring index : Nat) (result : TestResult) (s : State) : exec (.selftestEcsReadout ring index result) s = execSelftestEcsReadout ring index result s := rfl
@[simp] theorem exec_selftestMediaPattern (ring index : Nat) (result : TestResult) (s : State) : exec (.selftestMediaPattern ring index result) s = execSelftestMediaPattern ring index result s := rfl
@[simp] theorem exec_selftestMediaReadMargin (ring index : Nat) (result : TestResult) (s : State) : exec (.selftestMediaReadMargin ring index result) s = execSelftestMediaReadMargin ring index result s := rfl
@[simp] theorem exec_selftestCodec (ring index : Nat) (result : TestResult) (s : State) : exec (.selftestCodec ring index result) s = execSelftestCodec ring index result s := rfl
@[simp] theorem exec_retrainDdr5 (ring index : Nat) (result : TestResult) (s : State) : exec (.retrainDdr5 ring index result) s = execRetrainDdr5 ring index result s := rfl
@[simp] theorem exec_retrainCexus (ring index : Nat) (result : TestResult) (s : State) : exec (.retrainCexus ring index result) s = execRetrainCexus ring index result s := rfl
@[simp] theorem exec_driftCal (ring index : Nat) (s : State) : exec (.driftCal ring index) s = execDriftCal ring index s := rfl
@[simp] theorem exec_regionMove (ring index : Nat) (s : State) : exec (.regionMove ring index) s = execRegionMove ring index s := rfl
@[simp] theorem exec_rebuild (ring index : Nat) (s : State) : exec (.rebuild ring index) s = execRebuild ring index s := rfl
@[simp] theorem exec_patchAdd (ring index : Nat) (err : BitVec 640) (s : State) : exec (.patchAdd ring index err) s = execPatchAdd ring index err s := rfl
@[simp] theorem exec_patchAddMedia (ring index : Nat) (s : State) : exec (.patchAddMedia ring index) s = execPatchAddMedia ring index s := rfl
@[simp] theorem exec_pprRepair (ring index : Nat) (result : TestResult) (s : State) : exec (.pprRepair ring index result) s = execPprRepair ring index result s := rfl
@[simp] theorem exec_poisonSet (ring index : Nat) (s : State) : exec (.poisonSet ring index) s = execPoisonSet ring index s := rfl
@[simp] theorem exec_poisonClear (ring index : Nat) (s : State) : exec (.poisonClear ring index) s = execPoisonClear ring index s := rfl
@[simp] theorem exec_checkpoint (ring index : Nat) (s : State) : exec (.checkpoint ring index) s = execCheckpoint ring index s := rfl
@[simp] theorem exec_ledgerAudit (ring index : Nat) (s : State) : exec (.ledgerAudit ring index) s = execLedgerAudit ring index s := rfl
@[simp] theorem exec_imageWrite (ring index : Nat) (s : State) : exec (.imageWrite ring index) s = execImageWrite ring index s := rfl
@[simp] theorem exec_modeRequestRun (ring index : Nat) (s : State) : exec (.modeRequestRun ring index) s = execModeRequestRun ring index s := rfl
@[simp] theorem exec_modeRequestHush (ring index : Nat) (s : State) : exec (.modeRequestHush ring index) s = execModeRequestHush ring index s := rfl
@[simp] theorem exec_modeRequestDrain (ring index : Nat) (s : State) : exec (.modeRequestDrain ring index) s = execModeRequestDrain ring index s := rfl
@[simp] theorem exec_modeRequestService (ring index : Nat) (s : State) : exec (.modeRequestService ring index) s = execModeRequestService ring index s := rfl
@[simp] theorem exec_sanitize (ring index : Nat) (s : State) : exec (.sanitize ring index) s = execSanitize ring index s := rfl
@[simp] theorem exec_abort (ring index : Nat) (s : State) : exec (.abort ring index) s = execAbort ring index s := rfl
@[simp] theorem exec_keyLoad (words : List Word) (s : State) : exec (.keyLoad words) s = execKeyLoad words s := rfl
@[simp] theorem exec_keyErase (words : List Word) (s : State) : exec (.keyErase words) s = execKeyErase words s := rfl
@[simp] theorem exec_eraseAll (words : List Word) (s : State) : exec (.eraseAll words) s = execEraseAll words s := rfl
@[simp] theorem exec_keyEraseDone (s : State) : exec (.keyEraseDone) s = execKeyEraseDone s := rfl
@[simp] theorem exec_helloAck (words : List Word) (s : State) : exec (.helloAck words) s = execHelloAck words s := rfl
@[simp] theorem exec_lcChange (words : List Word) (s : State) : exec (.lcChange words) s = execLcChange words s := rfl
@[simp] theorem exec_keyMessageBad (words : List Word) (s : State) : exec (.keyMessageBad words) s = execKeyMessageBad words s := rfl
@[simp] theorem exec_helloAckLate (s : State) : exec (.helloAckLate) s = execHelloAckLate s := rfl
@[simp] theorem exec_reset (s : State) : exec (.reset) s = execReset s := rfl
@[simp] theorem exec_load (image : BootOutcome) (s : State) : exec (.load image) s = execLoad image s := rfl
@[simp] theorem exec_loadComplete (dimms : List DimmFound) (s : State) : exec (.loadComplete dimms) s = execLoadComplete dimms s := rfl
@[simp] theorem exec_loadHelloTimeout (s : State) : exec (.loadHelloTimeout) s = execLoadHelloTimeout s := rfl
@[simp] theorem exec_trainComplete (results : List TrainResult) (s : State) : exec (.trainComplete results) s = execTrainComplete results s := rfl
@[simp] theorem exec_mountComplete (found : MountFound) (s : State) : exec (.mountComplete found) s = execMountComplete found s := rfl
@[simp] theorem exec_hushIdleTimer (s : State) : exec (.hushIdleTimer) s = execHushIdleTimer s := rfl
@[simp] theorem exec_hushEntryComplete (s : State) : exec (.hushEntryComplete) s = execHushEntryComplete s := rfl
@[simp] theorem exec_wake (event : WakeEvent) (s : State) : exec (.wake event) s = execWake event s := rfl
@[simp] theorem exec_wakeComplete (s : State) : exec (.wakeComplete) s = execWakeComplete s := rfl
@[simp] theorem exec_pwrfail (s : State) : exec (.pwrfail) s = execPwrfail s := rfl
@[simp] theorem exec_drainComplete (s : State) : exec (.drainComplete) s = execDrainComplete s := rfl
@[simp] theorem exec_thermalReading (sensor : Nat) (temp : BitVec 8) (valid : Bool) (s : State) : exec (.thermalReading sensor temp valid) s = execThermalReading sensor temp valid s := rfl
@[simp] theorem exec_zoneEvaluate (zone : Nat) (s : State) : exec (.zoneEvaluate zone) s = execZoneEvaluate zone s := rfl
@[simp] theorem exec_budgetEvaluate (estimate : Nat) (s : State) : exec (.budgetEvaluate estimate) s = execBudgetEvaluate estimate s := rfl
@[simp] theorem exec_pdUpAck (domain : Nat) (s : State) : exec (.pdUpAck domain) s = execPdUpAck domain s := rfl
@[simp] theorem exec_eventTaken (s : State) : exec (.eventTaken) s = execEventTaken s := rfl
@[simp] theorem exec_summaryBuild (s : State) : exec (.summaryBuild) s = execSummaryBuild s := rfl
@[simp] theorem exec_evtPop (s : State) : exec (.evtPop) s = execEvtPop s := rfl
@[simp] theorem exec_levelSample (s : State) : exec (.levelSample) s = execLevelSample s := rfl
@[simp] theorem exec_teleCntLoRead (n : Nat) (user : Bool) (s : State) : exec (.teleCntLoRead n user) s = execTeleCntLoRead n user s := rfl
@[simp] theorem exec_userAccess (write : Bool) (addr : Nat) (value : Word) (s : State) : exec (.userAccess write addr value) s = execUserAccess write addr value s := rfl
@[simp] theorem exec_registerWrite (addr : Nat) (value : Word) (s : State) : exec (.registerWrite addr value) s = execRegisterWrite addr value s := rfl
@[simp] theorem exec_unmappedAccess (write : Bool) (addr : Nat) (value : Word) (s : State) : exec (.unmappedAccess write addr value) s = execUnmappedAccess write addr value s := rfl
@[simp] theorem exec_bitAliasWrite (addr : Nat) (value : Word) (s : State) : exec (.bitAliasWrite addr value) s = execBitAliasWrite addr value s := rfl
@[simp] theorem exec_deadbolt (value : Word) (s : State) : exec (.deadbolt value) s = execDeadbolt value s := rfl
@[simp] theorem exec_latchHold (value : Word) (s : State) : exec (.latchHold value) s = execLatchHold value s := rfl
@[simp] theorem exec_unitResetTele (s : State) : exec (.unitResetTele) s = execUnitResetTele s := rfl
@[simp] theorem exec_unitResetRings (s : State) : exec (.unitResetRings) s = execUnitResetRings s := rfl
@[simp] theorem exec_extest (pins : Nat) (s : State) : exec (.extest pins) s = execExtest pins s := rfl
@[simp] theorem exec_samplePreload (pins : Nat) (s : State) : exec (.samplePreload pins) s = execSamplePreload pins s := rfl
@[simp] theorem exec_idcode (s : State) : exec (.idcode) s = execIdcode s := rfl
@[simp] theorem exec_productionScan (s : State) : exec (.productionScan) s = execProductionScan s := rfl
@[simp] theorem exec_sramSelfTest (s : State) : exec (.sramSelfTest) s = execSramSelfTest s := rfl
@[simp] theorem exec_codecVectors (s : State) : exec (.codecVectors) s = execCodecVectors s := rfl
@[simp] theorem exec_bypass (code : Nat) (s : State) : exec (.bypass code) s = execBypass code s := rfl
@[simp] theorem exec_tapReset (s : State) : exec (.tapReset) s = execTapReset s := rfl
@[simp] theorem exec_pwrfailGlitch (s : State) : exec (.pwrfailGlitch) s = execPwrfailGlitch s := rfl
@[simp] theorem exec_payloadReadReturn (ring index : Nat) (err : Bool) (data : BitVec 512) (s : State) : exec (.payloadReadReturn ring index err data) s = execPayloadReadReturn ring index err data s := rfl
@[simp] theorem exec_serialMemoryOperationEnd (op : SpiEnd) (s : State) : exec (.serialMemoryOperationEnd op) s = execSerialMemoryOperationEnd op s := rfl
@[simp] theorem exec_trainOverrun (s : State) : exec (.trainOverrun) s = execTrainOverrun s := rfl
@[simp] theorem exec_intMsgDelivery (s : State) : exec (.intMsgDelivery) s = execIntMsgDelivery s := rfl
@[simp] theorem exec_keyOutWordTaken (s : State) : exec (.keyOutWordTaken) s = execKeyOutWordTaken s := rfl

end Sys2Proof.Machine
end

