-- ==== Sys2Proof/Laws/Pump.lean ====
section
/-! SUPPORT. What the ports of a cluster can do when they go on as far as they can (the pump of the request ports): outputs and packets are only added, an open port stays open with its ordinals, no register changes but the error counts of the ports and telemetry, and nothing outside ports, caches, packets and tickets changes. -/

namespace Sys2Proof.Machine

/-- The part of the units that the request ports' own progress leaves alone. -/
def pumpCore (u : Units) : Units :=
  { u with out := [], regs := { u.regs with cur := ⟨[]⟩ }, ports := ⟨[]⟩, cache := ⟨[]⟩, net := [], nextPkt := 0, tickets := ⟨[]⟩, tele := {}, fences := [], transit := {}, slices := ⟨[]⟩ }

/-! ### What an equal core says -/

theorem pumpCore_v {u x : Units} (h : pumpCore x = pumpCore u) : x.v = u.v := show (pumpCore x).v = (pumpCore u).v by rw [h]
theorem pumpCore_now {u x : Units} (h : pumpCore x = pumpCore u) : x.now = u.now := show (pumpCore x).now = (pumpCore u).now by rw [h]
theorem pumpCore_fresh {u x : Units} (h : pumpCore x = pumpCore u) : x.fresh = u.fresh := show (pumpCore x).fresh = (pumpCore u).fresh by rw [h]
theorem pumpCore_ctxEven {u x : Units} (h : pumpCore x = pumpCore u) : x.ctxEven = u.ctxEven := show (pumpCore x).ctxEven = (pumpCore u).ctxEven by rw [h]
theorem pumpCore_ctxOdd {u x : Units} (h : pumpCore x = pumpCore u) : x.ctxOdd = u.ctxOdd := show (pumpCore x).ctxOdd = (pumpCore u).ctxOdd by rw [h]
theorem pumpCore_ctxStaged {u x : Units} (h : pumpCore x = pumpCore u) : x.ctxStaged = u.ctxStaged := show (pumpCore x).ctxStaged = (pumpCore u).ctxStaged by rw [h]
theorem pumpCore_flushSeq {u x : Units} (h : pumpCore x = pumpCore u) : x.flushSeq = u.flushSeq := show (pumpCore x).flushSeq = (pumpCore u).flushSeq by rw [h]
theorem pumpCore_keys {u x : Units} (h : pumpCore x = pumpCore u) : x.keys = u.keys := show (pumpCore x).keys = (pumpCore u).keys by rw [h]
theorem pumpCore_keyPort {u x : Units} (h : pumpCore x = pumpCore u) : x.keyPort = u.keyPort := show (pumpCore x).keyPort = (pumpCore u).keyPort by rw [h]
theorem pumpCore_stopped {u x : Units} (h : pumpCore x = pumpCore u) : x.stopped = u.stopped := show (pumpCore x).stopped = (pumpCore u).stopped by rw [h]
theorem pumpCore_slotMode {u x : Units} (h : pumpCore x = pumpCore u) : x.slotMode = u.slotMode := show (pumpCore x).slotMode = (pumpCore u).slotMode by rw [h]
theorem pumpCore_stg {u x : Units} (h : pumpCore x = pumpCore u) : x.stg = u.stg := show (pumpCore x).stg = (pumpCore u).stg by rw [h]
theorem pumpCore_rings {u x : Units} (h : pumpCore x = pumpCore u) : x.rings = u.rings := show (pumpCore x).rings = (pumpCore u).rings by rw [h]
theorem pumpCore_pd {u x : Units} (h : pumpCore x = pumpCore u) : x.pd = u.pd := show (pumpCore x).pd = (pumpCore u).pd by rw [h]
theorem pumpCore_ddr {u x : Units} (h : pumpCore x = pumpCore u) : x.ddr = u.ddr := show (pumpCore x).ddr = (pumpCore u).ddr by rw [h]
theorem pumpCore_hng {u x : Units} (h : pumpCore x = pumpCore u) : x.hng = u.hng := show (pumpCore x).hng = (pumpCore u).hng by rw [h]
theorem pumpCore_drf {u x : Units} (h : pumpCore x = pumpCore u) : x.drf = u.drf := show (pumpCore x).drf = (pumpCore u).drf by rw [h]
theorem pumpCore_keep {u x : Units} (h : pumpCore x = pumpCore u) : x.keep = u.keep := show (pumpCore x).keep = (pumpCore u).keep by rw [h]
theorem pumpCore_media {u x : Units} (h : pumpCore x = pumpCore u) : x.media = u.media := show (pumpCore x).media = (pumpCore u).media by rw [h]
theorem pumpCore_cex {u x : Units} (h : pumpCore x = pumpCore u) : x.cex = u.cex := show (pumpCore x).cex = (pumpCore u).cex by rw [h]
theorem pumpCore_grp {u x : Units} (h : pumpCore x = pumpCore u) : x.grp = u.grp := show (pumpCore x).grp = (pumpCore u).grp by rw [h]
theorem pumpCore_repairs {u x : Units} (h : pumpCore x = pumpCore u) : x.repairs = u.repairs := show (pumpCore x).repairs = (pumpCore u).repairs by rw [h]
theorem pumpCore_patchLog {u x : Units} (h : pumpCore x = pumpCore u) : x.patchLog = u.patchLog := show (pumpCore x).patchLog = (pumpCore u).patchLog by rw [h]
theorem pumpCore_adm {u x : Units} (h : pumpCore x = pumpCore u) : x.adm = u.adm := show (pumpCore x).adm = (pumpCore u).adm by rw [h]
theorem pumpCore_arbs {u x : Units} (h : pumpCore x = pumpCore u) : x.arbs = u.arbs := show (pumpCore x).arbs = (pumpCore u).arbs by rw [h]
theorem pumpCore_audit {u x : Units} (h : pumpCore x = pumpCore u) : x.audit = u.audit := show (pumpCore x).audit = (pumpCore u).audit by rw [h]
theorem pumpCore_pwr {u x : Units} (h : pumpCore x = pumpCore u) : x.pwr = u.pwr := show (pumpCore x).pwr = (pumpCore u).pwr by rw [h]
theorem pumpCore_boot {u x : Units} (h : pumpCore x = pumpCore u) : x.boot = u.boot := show (pumpCore x).boot = (pumpCore u).boot by rw [h]
theorem pumpCore_tap {u x : Units} (h : pumpCore x = pumpCore u) : x.tap = u.tap := show (pumpCore x).tap = (pumpCore u).tap by rw [h]
theorem pumpCore_badCtx {u x : Units} (h : pumpCore x = pumpCore u) : x.badCtx = u.badCtx := show (pumpCore x).badCtx = (pumpCore u).badCtx by rw [h]
theorem pumpCore_ctxRead {u x : Units} (h : pumpCore x = pumpCore u) : x.ctxRead = u.ctxRead := show (pumpCore x).ctxRead = (pumpCore u).ctxRead by rw [h]
theorem pumpCore_regs_staged {u x : Units} (h : pumpCore x = pumpCore u) : x.regs.staged = u.regs.staged := show (pumpCore x).regs.staged = (pumpCore u).regs.staged by rw [h]
theorem pumpCore_regs_bankA {u x : Units} (h : pumpCore x = pumpCore u) : x.regs.bankA = u.regs.bankA := show (pumpCore x).regs.bankA = (pumpCore u).regs.bankA by rw [h]
theorem pumpCore_regs_bankB {u x : Units} (h : pumpCore x = pumpCore u) : x.regs.bankB = u.regs.bankB := show (pumpCore x).regs.bankB = (pumpCore u).regs.bankB by rw [h]
theorem pumpCore_regs_descStaged {u x : Units} (h : pumpCore x = pumpCore u) : x.regs.descStaged = u.regs.descStaged := show (pumpCore x).regs.descStaged = (pumpCore u).regs.descStaged by rw [h]
theorem pumpCore_regs_epoch {u x : Units} (h : pumpCore x = pumpCore u) : x.regs.epoch = u.regs.epoch := show (pumpCore x).regs.epoch = (pumpCore u).regs.epoch by rw [h]
theorem pumpCore_regs_pending {u x : Units} (h : pumpCore x = pumpCore u) : x.regs.pending = u.regs.pending := show (pumpCore x).regs.pending = (pumpCore u).regs.pending by rw [h]
theorem pumpCore_regs_deferred {u x : Units} (h : pumpCore x = pumpCore u) : x.regs.deferred = u.regs.deferred := show (pumpCore x).regs.deferred = (pumpCore u).regs.deferred by rw [h]
theorem pumpCore_regs_defers {u x : Units} (h : pumpCore x = pumpCore u) : x.regs.defers = u.regs.defers := show (pumpCore x).regs.defers = (pumpCore u).regs.defers by rw [h]
theorem pumpCore_regs_lateSeen {u x : Units} (h : pumpCore x = pumpCore u) : x.regs.lateSeen = u.regs.lateSeen := show (pumpCore x).regs.lateSeen = (pumpCore u).regs.lateSeen by rw [h]
theorem pumpCore_regs_advances {u x : Units} (h : pumpCore x = pumpCore u) : x.regs.advances = u.regs.advances := show (pumpCore x).regs.advances = (pumpCore u).regs.advances by rw [h]
theorem pumpCore_regs_banked {u x : Units} (h : pumpCore x = pumpCore u) : x.regs.banked = u.regs.banked := show (pumpCore x).regs.banked = (pumpCore u).regs.banked by rw [h]

theorem Transit.same (t : Transit) : ∃ l, t = { t with queue := t.queue ++ l } := ⟨[], by simp⟩

/-- What progress of the request ports can do. -/
structure PumpSteady (u x : Units) : Prop where
  core : pumpCore x = pumpCore u
  out : ∃ l, x.out = u.out ++ l
  net : ∃ l, x.net = u.net ++ l
  transit : ∃ l, x.transit = { u.transit with queue := u.transit.queue ++ l }
  slice : ∀ s, ∃ w p, tabGet x.slices s = { tabGet u.slices s with withheld := w, pins := p }
  port : ∀ p, (port u p).state = 2 → (port x p).state = 2 ∧ (port x p).next = (port u p).next ∧ (port x p).accepted = (port u p).accepted ∧ (port x p).ingress = (port u p).ingress
  regs : ∀ a d, a < teleAddr → (∀ p, a ≠ regAddr .PORT_n_ERRCNT p 0) → tabGetD x.regs.cur a d = tabGetD u.regs.cur a d

theorem PumpSteady.refl (u : Units) : PumpSteady u u :=
  ⟨rfl, ⟨[], by simp⟩, ⟨[], by simp⟩, Transit.same _, fun _ => ⟨_, _, rfl⟩, fun _ h => ⟨h, rfl, rfl, rfl⟩, fun _ _ _ _ => rfl⟩

theorem PumpSteady.trans {u x y : Units} (h : PumpSteady u x) (k : PumpSteady x y) : PumpSteady u y where
  core := k.core.trans h.core
  out := by obtain ⟨a, ha⟩ := h.out; obtain ⟨b, hb⟩ := k.out; exact ⟨a ++ b, by rw [hb, ha, List.append_assoc]⟩
  net := by obtain ⟨a, ha⟩ := h.net; obtain ⟨b, hb⟩ := k.net; exact ⟨a ++ b, by rw [hb, ha, List.append_assoc]⟩
  transit := by obtain ⟨a, ha⟩ := h.transit; obtain ⟨b, hb⟩ := k.transit; exact ⟨a ++ b, by rw [hb, ha, List.append_assoc]⟩
  slice := fun s => by obtain ⟨w, p, hs⟩ := h.slice s; obtain ⟨w', p', ks⟩ := k.slice s; exact ⟨w', p', by rw [ks, hs]⟩
  port := fun p hp => by
    obtain ⟨h1, h2, h3, h4⟩ := h.port p hp
    obtain ⟨k1, k2, k3, k4⟩ := k.port p h1
    exact ⟨k1, k2.trans h2, k3.trans h3, k4.trans h4⟩
  regs := fun a d ha hp => (k.regs a d ha hp).trans (h.regs a d ha hp)

/-- An update that leaves ports and registers alone and only adds outputs and packets is steady. -/
theorem PumpSteady.of {u x : Units} (hc : pumpCore x = pumpCore u) (ho : ∃ l, x.out = u.out ++ l) (hn : ∃ l, x.net = u.net ++ l)
    (ht : ∃ l, x.transit = { u.transit with queue := u.transit.queue ++ l }) (hs : x.slices = u.slices) (hp : x.ports = u.ports) (hr : x.regs.cur = u.regs.cur) : PumpSteady u x :=
  ⟨hc, ho, hn, ht, fun s => ⟨_, _, by rw [hs]⟩, fun p h => by rw [show Machine.port x p = Machine.port u p by unfold Machine.port; rw [hp]]; exact ⟨h, rfl, rfl, rfl⟩, fun a d _ _ => by rw [hr]⟩

/-- A port written back with its state, ordinals and ingress is steady. -/
theorem PumpSteady.setPort (u : Units) (p : Nat) (q : Port)
    (h : (Machine.port u p).state = 2 → q.state = 2 ∧ q.next = (Machine.port u p).next ∧ q.accepted = (Machine.port u p).accepted ∧ q.ingress = (Machine.port u p).ingress) :
    PumpSteady u (Machine.setPort u p q) where
  core := rfl
  out := ⟨[], by simp⟩
  net := ⟨[], by simp⟩
  transit := Transit.same _
  slice := fun _ => ⟨_, _, rfl⟩
  port := fun p' hp => by
    by_cases e : p' = p
    · subst e
      simpa [Machine.port, Machine.setPort] using h hp
    · rw [show Machine.port (Machine.setPort u p q) p' = Machine.port u p' from tabGet_put_other e _ _]
      exact ⟨hp, rfl, rfl, rfl⟩
  regs := fun _ _ _ _ => rfl

theorem PumpSteady.counts {u x : Units} (h : CountsOnly u x) : PumpSteady u x := by
  obtain ⟨⟨c, t, rfl⟩, k⟩ := h
  exact ⟨rfl, ⟨[], by simp⟩, ⟨[], by simp⟩, Transit.same _, fun _ => ⟨_, _, rfl⟩, fun p hp => ⟨hp, rfl, rfl, rfl⟩, fun a d ha _ => k a d ha⟩

theorem PumpSteady.present (u : Units) (o : Out) : PumpSteady u (Machine.present u o) := .of rfl ⟨[o], rfl⟩ ⟨[], by simp⟩ (Transit.same _) rfl rfl rfl
theorem PumpSteady.takeTicket (u : Units) (id : Nat) : PumpSteady u (Machine.takeTicket u id) := .of rfl ⟨[], by simp⟩ ⟨[], by simp⟩ (Transit.same _) rfl rfl rfl
theorem PumpSteady.returnTickets (u : Units) (id n : Nat) : PumpSteady u (Machine.returnTickets u id n) := .of rfl ⟨[], by simp⟩ ⟨[], by simp⟩ (Transit.same _) rfl rfl rfl
theorem PumpSteady.sendPkt (u : Units) (k : Pkt) : PumpSteady u (Machine.sendPkt u k) := .of rfl ⟨[], by simp⟩ ⟨_, rfl⟩ ⟨_, rfl⟩ rfl rfl rfl
theorem PumpSteady.setFence (u : Units) (d : Nat) (b : Bool) : PumpSteady u (Machine.setFence u d b) := .of rfl ⟨[], by simp⟩ ⟨[], by simp⟩ (Transit.same _) rfl rfl rfl
theorem PumpSteady.cache (u : Units) (t : Tab (List CtxEntry)) : PumpSteady u { u with cache := t } := .of rfl ⟨[], by simp⟩ ⟨[], by simp⟩ (Transit.same _) rfl rfl rfl
theorem PumpSteady.tele (u : Units) (t : Tele) : PumpSteady u { u with tele := t } := .of rfl ⟨[], by simp⟩ ⟨[], by simp⟩ (Transit.same _) rfl rfl rfl
theorem PumpSteady.count (u : Units) (n : Nat) : PumpSteady u (Machine.count u n) := .counts (count_only u n)

theorem PumpSteady.setReq (u : Units) (p : Nat) (r : Req) : PumpSteady u (Machine.setReq u p r) := .setPort u p _ fun h => ⟨h, rfl, rfl, rfl⟩

/-- A further step that is taken only under a condition. -/
theorem PumpSteady.opt {u x a : Units} {b : Prop} [Decidable b] (h : PumpSteady u x) (k : PumpSteady x a) : PumpSteady u (if b then a else x) := by
  split
  · exact h.trans k
  · exact h

theorem pipesStopped_false {c : Ctl} {u : Units} (hc : c.mode ≠ .hush) (hh : u.pwr.hushing = false) : pipesStopped c u = false := by
  simp [pipesStopped, hc, hh]

theorem admitOrWait_runs {c : Ctl} {u : Units} (h : pipesStopped c u = false) (p : Nat) (r : Req) : admitOrWait c u p r = stepAdmit c u p r := by
  simp [admitOrWait, h]

/-- Whether a route is refused depends on the variant and the fences alone. -/
theorem routeRefused_congr {u x : Units} (hv : x.v = u.v) (hf : x.fences = u.fences) (a b : Nat) : routeRefused x a b = routeRefused u a b := by
  unfold routeRefused fenced
  rw [hv, hf]

/-- Steady steps over a list. -/
theorem PumpSteady.foldl {α : Type} (f : Units → α → Units) (h : ∀ u a, PumpSteady u (f u a)) (l : List α) (u : Units) :
    PumpSteady u (l.foldl f u) := by
  induction l generalizing u with
  | nil => exact .refl u
  | cons a t ih => exact (h u a).trans (ih (f u a))

theorem PumpSteady.errcnt (u : Units) (f : Fld) (p n : Nat) (h : f.reg = .PORT_n_ERRCNT) : PumpSteady u (addSat u f p 0 n) :=
  ⟨rfl, ⟨[], by simp⟩, ⟨[], by simp⟩, Transit.same _, fun _ => ⟨_, _, rfl⟩, fun _ hp => ⟨hp, rfl, rfl, rfl⟩, fun a d _ hp => by
    have := hp p
    rw [← h] at this
    exact tabGetD_putD_other this _ _ _ _⟩

theorem PumpSteady.freeHdr (u : Units) (p k : Nat) : PumpSteady u (freeHdr u p k) := by
  unfold Machine.freeHdr
  dsimp only
  split
  · exact .refl u
  · split
    · exact .setPort u p _ fun h => ⟨h, rfl, rfl, rfl⟩
    · refine PumpSteady.trans (.setPort u p _ fun h => ?_) (.present _ _)
      exact ⟨h, rfl, rfl, rfl⟩

theorem PumpSteady.freeData (u : Units) (p k : Nat) : PumpSteady u (freeData u p k) := by
  unfold Machine.freeData
  dsimp only
  split
  · exact .refl u
  · split
    · exact .setPort u p _ fun h => ⟨h, rfl, rfl, rfl⟩
    · refine PumpSteady.trans (.setPort u p _ fun h => ?_) (.present _ _)
      exact ⟨h, rfl, rfl, rfl⟩

theorem PumpSteady.freeDataSlots (u : Units) (p : Nat) (l : List Nat) : PumpSteady u (freeDataSlots u p l) := .foldl _ (fun u k => .freeData u p k) l u

theorem PumpSteady.completionBeats (u : Units) (p st : Nat) (r : Req) (z m x : Nat) (line : BitVec 512) :
    PumpSteady u (completionBeats u p st r z m x line) := by
  unfold Machine.completionBeats
  dsimp only
  split
  · exact (((PumpSteady.present _ _).trans (.count _ _)).trans (.present _ _)).trans (.count _ _)
  · exact (PumpSteady.present _ _).trans (.count _ _)

theorem PumpSteady.recordLatency (u : Units) (p : Nat) (r : Req) : PumpSteady u (recordLatency u p r) := by
  unfold Machine.recordLatency
  split
  · exact .tele u _
  · exact .refl u

theorem PumpSteady.addShare (u : Units) (p h : Nat) (b : Bool) : PumpSteady u (addShare u p h b) := .cache u _

theorem PumpSteady.releaseShare (u : Units) (p : Nat) (r : Req) : PumpSteady u (releaseShare u p r) := by
  unfold Machine.releaseShare
  split
  · exact .addShare u p _ _
  · exact .refl u

theorem PumpSteady.giveBound (u : Units) (id p o : Nat) : PumpSteady u (giveBound u id p o) where
  core := rfl
  out := ⟨[], by simp [Machine.giveBound]⟩
  net := ⟨[], by simp [Machine.giveBound]⟩
  transit := Transit.same _
  slice := fun s => by
    unfold Machine.giveBound
    by_cases e : s = id % 256 - 32
    · subst e
      exact ⟨_, _, by rw [tabGet_put_same]⟩
    · exact ⟨_, _, by rw [tabGet_put_other e]⟩
  port := fun _ h => ⟨h, rfl, rfl, rfl⟩
  regs := fun _ _ _ _ => rfl

theorem PumpSteady.returnHeld (u : Units) (p : Nat) (r : Req) : PumpSteady u (returnHeld u p r) :=
  .foldl _ (fun u id => by split; exacts [.giveBound u id p _, .returnTickets u id 1]) _ u

theorem PumpSteady.fenceIdle (c : Ctl) (u : Units) (k : Nat) : PumpSteady u (fenceIdle c u k) := by
  unfold Machine.fenceIdle
  split
  · exact .setFence u _ _
  · exact .refl u

theorem PumpSteady.portMayClose (c : Ctl) (u : Units) (p : Nat) : PumpSteady u (portMayClose c u p) := by
  unfold Machine.portMayClose
  dsimp only
  split
  · rename_i h
    split
    · refine PumpSteady.trans (.tele u _) (.setPort _ p _ fun h2 => ?_)
      have h3 : (Machine.port u p).state = 2 := h2
      omega
    · refine PumpSteady.trans (.setPort u p _ fun h2 => ?_) (.fenceIdle c _ _)
      omega
  · exact .refl u

theorem PumpSteady.completeReq (c : Ctl) (u : Units) (p : Nat) (r : Req) (st z m x : Nat) (line : BitVec 512) :
    PumpSteady u (completeReq c u p r st z m x line) := by
  unfold Machine.completeReq
  dsimp only
  refine PumpSteady.trans (PumpSteady.trans ?_ (.freeDataSlots _ p _)) (.portMayClose c _ p)
  refine PumpSteady.opt (PumpSteady.trans ?_ (.setPort _ p _ fun h => ?_)) (.freeHdr _ _ _)
  · refine PumpSteady.trans (PumpSteady.trans ?_ (.releaseShare _ p r)) (.returnHeld _ p r)
    refine (PumpSteady.completionBeats u p st r z m x line).trans ?_
    split
    · exact .errcnt _ _ _ _ rfl
    · exact .recordLatency _ _ _
  · exact ⟨h, rfl, rfl, rfl⟩

theorem PumpSteady.failReq (c : Ctl) (u : Units) (p : Nat) (r : Req) (st : Nat) : PumpSteady u (failReq c u p r st) := .completeReq c u p r st 0 0 0 0

theorem PumpSteady.fetchRecord (c : Ctl) (u : Units) (p : Nat) (r : Req) : PumpSteady u (fetchRecord c u p r) := by
  unfold Machine.fetchRecord
  extract_lets cl id r'
  clear_value r'
  split
  · exact .failReq c u p _ 4
  · split
    · exact (((PumpSteady.takeTicket u _).trans (.count _ _)).trans (.setReq _ _ _)).trans (.sendPkt _ _)
    · exact .setReq u p _

theorem PumpSteady.installCache {u x : Units} {p h : Nat} (e : installCache u p h = some x) : PumpSteady u x := by
  unfold Machine.installCache at e
  dsimp only at e
  split at e
  · cases e
    exact .cache u _
  · split at e
    · cases e
    · cases e
      exact .cache u _

theorem PumpSteady.needRecord (c : Ctl) (u : Units) (p : Nat) (r : Req) : PumpSteady u (needRecord c u p r).2 := by
  unfold Machine.needRecord
  dsimp only
  split
  · exact .cache u _
  · split
    · split
      · rename_i h
        exact .installCache h
      · exact .refl u
    · split
      · exact .refl u
      · exact .fetchRecord c u p r

theorem PumpSteady.enterReady (u : Units) (p e : Nat) (r : Req) : PumpSteady u (enterReady u p e r) := .setReq u p _

theorem PumpSteady.countWrite (u : Units) (p : Nat) (r : Req) : PumpSteady u (countWrite u p r).1 := by
  unfold Machine.countWrite
  split
  · exact .addShare u p _ _
  · exact .refl u

theorem PumpSteady.stepCheckRegular (c : Ctl) (u : Units) (p : Nat) (r : Req) : PumpSteady u (stepCheckRegular c u p r) := by
  unfold Machine.stepCheckRegular
  dsimp only
  split
  · exact .setReq u p _
  · split
    · exact .failReq c u p r 2
    · have h := PumpSteady.needRecord c u p r
      split
      · rename_i e
        rw [e] at h
        exact h
      · rename_i e
        rw [e] at h
        refine h.trans ?_
        split
        · exact .failReq c _ p r 2
        · refine PumpSteady.trans (.countWrite _ p r) ?_
          split
          · exact .failReq c _ p _ _
          · exact .enterReady _ p _ _

theorem PumpSteady.stepBucket (c : Ctl) (u : Units) (p : Nat) (r : Req) : PumpSteady u (stepBucket c u p r) := by
  unfold Machine.stepBucket
  extract_lets q cmd
  split
  · split
    · exact .refl u
    · exact .setReq u p _
  · split
    · split
      · exact .refl u
      · exact .setReq u p _
    · extract_lets q2 x e r2 x2
      have h : PumpSteady u x2 := PumpSteady.trans (.setPort u p q2 fun h => ⟨h, rfl, rfl, rfl⟩) (.setReq x p r2)
      refine h.trans ?_
      split
      · split
        · exact .failReq c _ p _ _
        · split
          · exact .failReq c _ p _ _
          · exact .enterReady _ p _ _
      · exact .stepCheckRegular c _ p _

theorem PumpSteady.stepLabel (c : Ctl) (u : Units) (p : Nat) (r : Req) : PumpSteady u (stepLabel c u p r) := by
  unfold Machine.stepLabel
  split
  · exact .failReq c u p r 2
  · have h := PumpSteady.needRecord c u p r
    split
    · rename_i e
      rw [e] at h
      exact h
    · rename_i e
      rw [e] at h
      refine h.trans ?_
      dsimp only
      split
      · exact .failReq c _ p r 2
      · exact PumpSteady.trans (.countWrite _ p r) (PumpSteady.trans (.setReq _ p _) (.stepBucket c _ p _))

theorem PumpSteady.stepAdmit (c : Ctl) (u : Units) (p : Nat) (r : Req) : PumpSteady u (stepAdmit c u p r) := by
  unfold Machine.stepAdmit
  dsimp only
  split
  · exact .failReq c u p r 6
  · split
    · exact PumpSteady.trans (.setReq u p _) (.stepLabel c _ p _)
    · exact PumpSteady.trans (.setReq u p _) (.stepBucket c _ p _)

theorem PumpSteady.admitOrWait (c : Ctl) (u : Units) (p : Nat) (r : Req) : PumpSteady u (admitOrWait c u p r) := by
  unfold Machine.admitOrWait
  split
  · exact .setReq u p _
  · exact .stepAdmit c u p r

theorem PumpSteady.stepReq (c : Ctl) (u : Units) (p o : Nat) : PumpSteady u (stepReq c u p o) := by
  unfold Machine.stepReq
  split
  · exact .refl u
  · split
    · exact .refl u
    · exact .stepAdmit c u p _
    · split
      · exact .refl u
      · exact .failReq c u p _ 6
    · exact .stepBucket c u p _
    · split
      · exact .stepCheckRegular c u p _
      · exact .stepLabel c u p _
    · exact .refl u
    · exact .refl u

theorem PumpSteady.stepPort (c : Ctl) (u : Units) (p : Nat) : PumpSteady u (stepPort c u p) := .foldl _ (fun u o => .stepReq c u p o) _ u

theorem PumpSteady.takeAll (l : List Nat) : ∀ (u : Units) (r : Req), PumpSteady u (takeAll u l r).1 := by
  induction l with
  | nil => exact fun u _ => .refl u
  | cons id t ih =>
    intro u r
    unfold Machine.takeAll
    split
    · exact ih u r
    · split
      · exact (PumpSteady.takeTicket u id).trans (ih _ _)
      · exact .refl u

theorem PumpSteady.injectReq (u : Units) (p : Nat) (r : Req) : PumpSteady u (injectReq u p r) := by
  unfold Machine.injectReq
  dsimp only
  refine PumpSteady.trans (x := if r.hdrSlot = true then Machine.freeHdr u p r.pool else u) ?_ ?_
  · split
    · exact .freeHdr u p _
    · exact .refl u
  · generalize (if r.hdrSlot = true then Machine.freeHdr u p r.pool else u) = x
    split
    · exact PumpSteady.trans (.setReq x p _) (.sendPkt _ _)
    · split
      · refine PumpSteady.trans (x := if hCmd r.hdr = 3 then Machine.returnTickets (Machine.returnTickets x (poolId 0 (epCluster (p / 8)) (epSlice (lineSlice u (r.epoch.getD 0) (hLla r.hdr)))) 1) (poolId 2 (epCluster (p / 8)) (epCluster (p / 8))) 1 else x) ?_ ?_
        · split
          · exact PumpSteady.trans (.returnTickets x _ _) (.returnTickets _ _ _)
          · exact .refl x
        · generalize (if hCmd r.hdr = 3 then _ else x) = y
          exact PumpSteady.trans (PumpSteady.trans (.sendPkt y _) (.setReq _ p _)) (.freeDataSlots _ p _)
      · split
        · exact PumpSteady.trans (.setReq x p _) (.sendPkt _ _)
        · exact PumpSteady.trans (.setReq x p _) (.sendPkt _ _)

theorem PumpSteady.tryInject (c : Ctl) (u : Units) (p o : Nat) : PumpSteady u (tryInject c u p o) := by
  unfold Machine.tryInject
  split
  · exact .refl u
  · split
    · exact .refl u
    · split
      · exact .completeReq c u p _ 0 0 0 0 0
      · split
        · exact .failReq c u p _ 4
        · rename_i r _ _ _ _
          refine PumpSteady.trans (PumpSteady.takeAll (ticketsNeeded u p r) u r) ?_
          exact .opt (.setReq _ p _) (.injectReq _ p _)

/-- Progress of one cluster is steady. -/
theorem PumpSteady.pumpCluster (c : Ctl) (u : Units) (cl : Nat) : PumpSteady u (pumpCluster c u cl) := by
  unfold Machine.pumpCluster
  split
  · exact .refl u
  · exact PumpSteady.trans (.foldl _ (fun u i => .stepPort c u (cl * 8 + i)) _ u) (.foldl _ (fun u w => .tryInject c u _ _) _ _)

/-- Progress of a port's cluster is steady. -/
theorem PumpSteady.pump (c : Ctl) (u : Units) (p : Nat) : PumpSteady u (pump c u p) :=
  PumpSteady.trans (.pumpCluster c u _) (.pumpCluster c _ _)

/-- Progress of every cluster is steady. -/
theorem PumpSteady.pumpAll (c : Ctl) (u : Units) : PumpSteady u (pumpAll c u) :=
  .foldl _ (fun u cl => PumpSteady.trans (.pumpCluster c u cl) (.pumpCluster c _ cl)) _ u

end Sys2Proof.Machine
end

