-- ==== Sys2Proof/Laws/Requests.lean ====
section
/-! SUPPORT. The way of a request from its header beat into transit: what an accepted header does to its port, what a request that nothing holds back becomes, and the packet it leaves as. -/

namespace Sys2Proof.Machine
theorem beatSeen_frame (c : Ctl) (u : Units) (p : Nat) (b : Bool) : ∃ w, beatSeen c u p b = { u with pwr := w } := by
  unfold beatSeen wakeNow
  split
  · split
    · split
      · exact ⟨_, rfl⟩
      · exact ⟨_, rfl⟩
    · split
      · exact ⟨_, rfl⟩
      · exact ⟨u.pwr, rfl⟩
  · exact ⟨u.pwr, rfl⟩

theorem acceptReq_port (c : Ctl) (u : Units) (p pool ord : Nat) (h : BitVec 128) (h2 : (port u p).state = 2) :
    let x := acceptReq c u p pool ord h
    (port x p).state = 2 ∧ (port x p).next = (port u p).next ∧ (port x p).accepted = (port u p).accepted + 1 ∧
    (port x p).ingress = (if dataUnits (hCmd h) = 0 then .idle else .taking ord) := by
  unfold acceptReq
  extract_lets u1 u2 n r q dup u3 u4 u5
  have e3 : (port u3 p).state = 2 ∧ (port u3 p).next = (port u p).next ∧ (port u3 p).accepted = (port u p).accepted + 1 ∧
      (port u3 p).ingress = (if n = 0 then .idle else .taking ord) := by
    simp [u3, port, setPort, q, u2, u1, spendHdr]
    exact h2
  have e5 : port u5 p = port u3 p := by
    have h4 : u4.ports = u3.ports := by simp only [u4]; split <;> simp
    have h5 : u5.ports = u4.ports := by simp only [u5]; split <;> simp
    unfold port
    rw [h5, h4]
  rw [← e5] at e3
  have fin {y : Units} (k : PumpSteady u5 y) : (port y p).state = 2 ∧ (port y p).next = (port u p).next ∧
      (port y p).accepted = (port u p).accepted + 1 ∧ (port y p).ingress = (if n = 0 then .idle else .taking ord) := by
    obtain ⟨a, b, c', d⟩ := k.port p e3.1
    exact ⟨a, b.trans e3.2.1, c'.trans e3.2.2.1, d.trans e3.2.2.2⟩
  refine fin ?_
  show PumpSteady u5 (if 0 < n then _ else _)
  by_cases hn : 0 < n
  · rw [if_pos hn]
    exact .opt (.refl _) (.setReq _ _ _)
  · rw [if_neg hn]
    by_cases hd : dup = true
    · rw [if_pos hd]
      exact .setReq _ _ _
    · rw [if_neg hd]
      exact .admitOrWait c _ p _

theorem header_accepted (c : Ctl) (u : Units) (p pool : Nat) (h : BitVec 128) (hp : p < nPorts u.v) (hk : pool < 4)
    (hd : pdState u (pdCluster (p / 8)) ≠ 0) (h2 : (port u p).state = 2) (hi : (port u p).ingress = .idle)
    (hc : 0 < tabGet (port u p).hdrCred pool) (hh : hcheckOk h = true) (hn : dataUnits (hCmd h) ≤ tabGet (port u p).dataCred pool) :
    let x := headerBeat c u p pool h
    (port x p).state = 2 ∧ (port x p).next = ((port u p).next + 1) % 65536 ∧ (port x p).accepted = (port u p).accepted + 1 ∧
    (port x p).ingress = (if dataUnits (hCmd h) = 0 then .idle else .taking (port u p).next) := by
  unfold headerBeat
  have hs : makeShort c u p = u := by simp [makeShort, hi]
  have a1 : ¬ (nPorts u.v ≤ p ∨ 4 ≤ pool ∨ pdState u (pdCluster (p / 8)) = 0) := by omega
  have a2 : ¬ tabGet (port u p).hdrCred pool = 0 := by omega
  have a4 : ¬ (port u p).state ≠ 2 := by simp [h2]
  have a3 : ¬ tabGet (port u p).dataCred pool < dataUnits (hCmd h) := by omega
  simp only [a1, if_false, a4, hs, a2, hh, Bool.not_true, a3, Bool.false_eq_true]
  generalize hx : setPort u p { port u p with next := ((port u p).next + 1) % 65536 } = x
  have ex : port x p = { port u p with next := ((port u p).next + 1) % 65536 } := by subst hx; simp [port, setPort]
  obtain ⟨b1, b2, b3, b4⟩ := acceptReq_port c x p pool (port u p).next h (by rw [ex]; exact h2)
  obtain ⟨k1, k2, k3, k4⟩ := (PumpSteady.pump c (acceptReq c x p pool (port u p).next h) p).port p b1
  exact ⟨k1, by rw [k2, b2, ex], by rw [k3, b3, ex], k4.trans b4⟩

theorem port_setPort_same (u : Units) (p : Nat) (q : Port) : port (setPort u p q) p = q := by simp [port, setPort]
theorem port_setPort_other (u : Units) {p p' : Nat} (q : Port) (h : p' ≠ p) : port (setPort u p q) p' = port u p' := by
  simp [port, setPort, tabGet_put_other h]

/-- What an admitted request has become when it is ready, and what its admission has left alone. -/
structure Ready (u : Units) (p : Nat) (r : Req) (x : Units) (y : Req) : Prop where
  reqs : (port x p).reqs = (port u p).reqs.map fun z => if z.ord = r.ord then y else z
  other : ∀ q, q ≠ p → port x q = port u q
  core : pumpCore x = pumpCore u
  net : x.net = u.net
  nextPkt : x.nextPkt = u.nextPkt
  tickets : x.tickets = u.tickets
  fences : x.fences = u.fences
  phase : y.phase = .ready
  epoch : y.epoch = some u.regs.epoch
  prio : y.prio = classPrio u p (portClass u p)
  keySlot : y.keySlot = cBits (ctxRec u u.regs.epoch (hCtx r.hdr)) 7 10
  same : y.ord = r.ord ∧ y.hdr = r.hdr ∧ y.tickets = r.tickets ∧ y.bound = r.bound ∧ y.data = r.data ∧ y.pool = r.pool ∧ y.dataPools = r.dataPools ∧ y.bad = r.bad

theorem stepAdmit_ready (c : Ctl) (u : Units) (p : Nat) (r : Req) (l : Int) (hb : r.bad = false) (hm : headerMalformed r.hdr = false)
    (h6 : hCmd r.hdr ≠ 6) (hp : privileged p = false) (hl : r.label = false)
    (ha : ∀ z ∈ (port u p).reqs, z.ord ≠ r.ord → z.phase ≠ .bucket)
    (bp : bucketPass u p (portClass u p) (hCmd r.hdr) = some l)
    (hx : hCtx r.hdr < nCtx u.v) (ca : cached u p (hCtx r.hdr) = true) (c2 : check2 u u.regs.epoch r = true)
    (c34 : check34 u u.regs.epoch r = none) : ∃ y, Ready u p r (stepAdmit c u p r) y := by
  have nw (u' : Units) (r' : Req) (e : hCmd r'.hdr = hCmd r.hdr) (cnt : Units × Req) (k : countWrite u' p r' = cnt) :
      cnt.1.ports = u'.ports ∧ pumpCore cnt.1 = pumpCore u' ∧ cnt.1.net = u'.net ∧ cnt.1.nextPkt = u'.nextPkt ∧ cnt.1.tickets = u'.tickets ∧
      cnt.1.fences = u'.fences ∧ ∃ b, cnt.2 = { r' with counted := b } := by
    subst k
    unfold countWrite
    split
    · exact ⟨rfl, rfl, rfl, rfl, rfl, rfl, true, rfl⟩
    · exact ⟨rfl, rfl, rfl, rfl, rfl, rfl, r'.counted, rfl⟩
  unfold stepAdmit
  rw [if_neg (by simp [hb, hm, h6]), if_neg (by simp [hp])]
  extract_lets r1
  have hr1 : r1 = { r with phase := .bucket, cls := portClass u p } := rfl
  clear_value r1
  have o1 : r1.ord = r.ord ∧ r1.hdr = r.hdr ∧ r1.label = false ∧ r1.cls = portClass u p ∧ r1.tickets = r.tickets ∧ r1.bound = r.bound ∧ r1.data = r.data ∧ r1.pool = r.pool ∧ r1.dataPools = r.dataPools ∧ r1.bad = r.bad := by
    subst hr1; exact ⟨rfl, rfl, hl, rfl, rfl, rfl, rfl, rfl, rfl, rfl⟩
  obtain ⟨o1a, o1b, o1c, o1d, o1e⟩ := o1
  have q1 : (port (setReq u p r1) p).reqs = (port u p).reqs.map fun z => if z.ord = r.ord then r1 else z := by
    simp [setReq, port_setPort_same, o1a]
  have ap : aheadAtBucket (port (setReq u p r1) p) r1 = false := by
    unfold aheadAtBucket
    rw [List.any_eq_false]
    intro z hz
    have h1 := List.mem_takeWhile_imp hz
    have h2 := (List.takeWhile_sublist _).subset hz
    rw [q1, List.mem_map] at h2
    obtain ⟨w, hw, rfl⟩ := h2
    by_cases e : w.ord = r.ord
    · simp [e, o1a] at h1
    · simp [e, ha w hw e]
  have b1 : bucketPass (setReq u p r1) p r1.cls (hCmd r1.hdr) = some l := by
    rw [o1b, o1d, ← bp]
    unfold bucketPass
    simp only [setReq, port_setPort_same]
    rfl
  unfold stepBucket
  extract_lets q cmd
  rw [if_neg (by simp [q, ap]), show bucketPass (setReq u p r1) p r1.cls cmd = some l from b1]
  dsimp only
  rw [if_neg (by simp [o1c])]
  generalize hq2 : ({ q with level := _, rdLines := _, wrLines := _ } : Port) = q2
  have hqr : q2.reqs = (port (setReq u p r1) p).reqs := by subst hq2; rfl
  generalize hr2 : ({ r1 with phase := Phase.check, epoch := _, prio := _, acc := _, held := _ } : Req) = r2
  have o2 : r2.ord = r.ord ∧ r2.hdr = r.hdr ∧ r2.epoch = some u.regs.epoch ∧ r2.prio = classPrio u p (portClass u p) ∧
      r2.tickets = r.tickets ∧ r2.bound = r.bound ∧ r2.data = r.data ∧ r2.pool = r.pool ∧ r2.dataPools = r.dataPools ∧ r2.bad = r.bad := by
    subst hr2; exact ⟨o1a, o1b, rfl, by rw [← o1d]; rfl, o1e⟩
  obtain ⟨o2a, o2b, o2c, o2d, o2e⟩ := o2
  generalize hu2 : setReq (setPort (setReq u p r1) p q2) p r2 = u2
  have p2 : (port u2 p).reqs = (port u p).reqs.map (fun z => if z.ord = r.ord then r2 else z) := by
    subst hu2
    simp only [setReq, port_setPort_same] at hqr
    simp only [setReq, port_setPort_same, hqr, List.map_map, o2a]
    apply List.map_congr_left
    intro z _
    by_cases e : z.ord = r.ord <;> simp [e, o1a]
  have s2 : (∀ q, q ≠ p → port u2 q = port u q) ∧ pumpCore u2 = pumpCore u ∧ u2.net = u.net ∧ u2.nextPkt = u.nextPkt ∧ u2.tickets = u.tickets ∧ u2.fences = u.fences ∧ u2.cache = u.cache := by
    subst hu2
    refine ⟨fun q hq => ?_, rfl, rfl, rfl, rfl, rfl, rfl⟩
    simp only [setReq, port_setPort_other _ _ hq]
  obtain ⟨s2a, s2b, s2c, s2d, s2e, s2f, s2g⟩ := s2
  have hv : u2.v = u.v := pumpCore_v s2b
  have hreg : u2.regs.epoch = u.regs.epoch := pumpCore_regs_epoch s2b
  have hrec (e h : Nat) : ctxRec u2 e h = ctxRec u e h := by
    unfold ctxRec
    rw [show u2.badCtx = u.badCtx from pumpCore_badCtx s2b, show u2.ctxEven = u.ctxEven from pumpCore_ctxEven s2b, show u2.ctxOdd = u.ctxOdd from pumpCore_ctxOdd s2b]
  have hkey (e k : Nat) : keyUsable u2 e k = keyUsable u e k := by
    unfold keyUsable
    rw [show u2.keys = u.keys from pumpCore_keys s2b]
  unfold stepCheckRegular
  have c6 : hCmd r2.hdr ≠ 6 := by rw [o2b]; exact h6
  have cx : ¬ nCtx u2.v ≤ hCtx r2.hdr := by rw [hv, o2b]; omega
  have nr : needRecord c u2 p r2 = (true, touchCache u2 p (hCtx r.hdr)) := by
    unfold needRecord
    have : cached u2 p (hCtx r2.hdr) = true := by rw [o2b, ← ca]; unfold cached; rw [s2g]
    dsimp only
    rw [if_pos this, o2b]
  simp only [c6, if_false, cx, nr, o2c, Option.getD_some]
  generalize hu3 : touchCache u2 p (hCtx r.hdr) = u3
  have s3 : u3.ports = u2.ports ∧ pumpCore u3 = pumpCore u2 ∧ u3.net = u2.net ∧ u3.nextPkt = u2.nextPkt ∧ u3.tickets = u2.tickets ∧ u3.fences = u2.fences := by
    subst hu3; exact ⟨rfl, rfl, rfl, rfl, rfl, rfl⟩
  obtain ⟨s3a, s3b, s3c, s3d, s3e, s3f⟩ := s3
  have d2 : check2 u3 u.regs.epoch r2 = true := by
    rw [← c2]
    unfold check2
    rw [o2b, show u3.v = u.v from (pumpCore_v s3b).trans hv, show ctxRec u3 u.regs.epoch (hCtx r.hdr) = ctxRec u u.regs.epoch (hCtx r.hdr) by rw [← hrec]; subst hu3; rfl]
  simp only [d2, Bool.not_true, Bool.false_eq_true, if_false]
  generalize hk : countWrite u3 p r2 = cnt
  obtain ⟨u4, r4⟩ := cnt
  obtain ⟨n1, n2, n3, n4, n5, n6, b, n7⟩ := nw u3 r2 (by rw [o2b]) _ hk
  simp only at n1 n2 n3 n4 n5 n6 n7 ⊢
  have core4 : pumpCore u4 = pumpCore u := n2.trans (s3b.trans s2b)
  have rec4 (e h : Nat) : ctxRec u4 e h = ctxRec u e h := by
    unfold ctxRec
    rw [show u4.badCtx = u.badCtx from pumpCore_badCtx core4, show u4.ctxEven = u.ctxEven from pumpCore_ctxEven core4, show u4.ctxOdd = u.ctxOdd from pumpCore_ctxOdd core4]
  have hdr4 : r4.hdr = r.hdr := by subst n7; exact o2b
  have d34 : check34 u4 u.regs.epoch r4 = none := by
    rw [← c34]
    unfold check34 keyUsable
    simp only [rec4, hdr4]
    rw [show u4.keys = u.keys from pumpCore_keys core4]
  simp only [d34]
  unfold enterReady
  extract_lets rec'
  generalize hr5 : ({ r4 with phase := Phase.ready, keySlot := _, dur := _, order := _, waitFrom := _ } : Req) = r5
  have port4 (q : Nat) : port u4 q = port u2 q := by unfold port; rw [n1, s3a]
  refine ⟨r5, ⟨?_, ?_, core4, ?_, ?_, ?_, ?_, ?_, ?_, ?_, ?_, ?_⟩⟩
  · have : r5.ord = r.ord := by subst hr5 n7; exact o2a
    simp only [setReq, port_setPort_same, port4, p2, List.map_map]
    apply List.map_congr_left
    intro z _
    by_cases e : z.ord = r.ord <;> simp [e, o2a, this]
  · intro q hq
    simp only [setReq, port_setPort_other _ _ hq, port4, s2a q hq]
  · exact n3.trans (s3c.trans s2c)
  · exact n4.trans (s3d.trans s2d)
  · exact n5.trans (s3e.trans s2e)
  · exact n6.trans (s3f.trans s2f)
  · subst hr5; rfl
  · subst hr5 n7; exact o2c
  · subst hr5 n7; exact o2d
  · subst hr5; simp only [rec', rec4, hdr4]
  · subst hr5 n7; exact ⟨o2a, o2b, o2e⟩

/-- Requests whose own step does nothing. -/
def steps (r : Req) : Prop := r.phase = .data ∨ r.phase = .sent ∨ r.phase = .ready

theorem stepReq_none (c : Ctl) (u : Units) (p o : Nat) (h : ∀ r ∈ (port u p).reqs, steps r) : stepReq c u p o = u := by
  unfold stepReq
  split
  · rfl
  · rename_i r hr
    have hm : r ∈ (port u p).reqs := List.mem_of_find?_eq_some hr
    rcases h r hm with e | e | e <;> simp [e]

theorem stepPort_none (c : Ctl) (u : Units) (p : Nat) (h : ∀ r ∈ (port u p).reqs, steps r) : stepPort c u p = u := by
  unfold stepPort
  generalize (port u p).reqs.map (fun r => r.ord) = l
  induction l with
  | nil => rfl
  | cons o t ih => simp only [List.foldl_cons, stepReq_none c u p o h, ih]

theorem stepPorts_none (c : Ctl) (u : Units) (cl : Nat) (h : ∀ i, i < 8 → ∀ r ∈ (port u (cl * 8 + i)).reqs, steps r) :
    (List.range 8).foldl (fun u i => stepPort c u (cl * 8 + i)) u = u := by
  have go (l : List Nat) (hl : ∀ i ∈ l, i < 8) : l.foldl (fun u i => stepPort c u (cl * 8 + i)) u = u := by
    induction l with
    | nil => rfl
    | cons i t ih =>
      simp only [List.foldl_cons, stepPort_none c u _ (h i (hl i (by simp)))]
      exact ih fun j hj => hl j (List.mem_cons_of_mem _ hj)
  exact go _ fun i hi => List.mem_range.mp hi

theorem waiters_none (u : Units) (cl : Nat) (h : ∀ i, i < 8 → ∀ r ∈ (port u (cl * 8 + i)).reqs, r.phase ≠ .ready) : waiters u cl = [] := by
  unfold waiters
  rw [List.flatMap_eq_nil_iff.mpr]
  · rfl
  · intro i hi
    simp only [List.map_eq_nil_iff, List.filter_eq_nil_iff, beq_iff_eq]
    exact fun r hr => h i (List.mem_range.mp hi) r hr

/-- A still cluster does nothing. -/
theorem pumpCluster_still (c : Ctl) (u : Units) (cl : Nat) (h : clusterStill u cl) : pumpCluster c u cl = u := by
  unfold pumpCluster
  split
  · rfl
  · rw [stepPorts_none c u cl fun i hi r hr => (h i hi r hr).elim .inl fun e => .inr (.inl e)]
    dsimp only
    rw [waiters_none u cl fun i hi r hr e => by rcases h i hi r hr with k | k <;> rw [e] at k <;> cases k]
    rfl

theorem pump_still (c : Ctl) (u : Units) (p : Nat) (h : clusterStill u (p / 8)) : pump c u p = u := by
  unfold pump
  rw [pumpCluster_still c u _ h, pumpCluster_still c u _ h]

/-- One request of a cluster is ready, and every other awaits data or is in transit. -/
structure OneReady (u : Units) (p : Nat) (y : Req) : Prop where
  split : ∃ A B, (port u p).reqs = A ++ y :: B ∧ (∀ z ∈ A ++ B, z.phase = .data ∨ z.phase = .sent) ∧ ∀ z ∈ A, z.ord ≠ y.ord
  phase : y.phase = .ready
  others : ∀ i, i < 8 → p / 8 * 8 + i ≠ p → ∀ r ∈ (port u (p / 8 * 8 + i)).reqs, r.phase = .data ∨ r.phase = .sent

theorem OneReady.find {u : Units} {p : Nat} {y : Req} (h : OneReady u p y) : findReq u p y.ord = some y := by
  obtain ⟨A, B, e, -, k⟩ := h.split
  unfold findReq
  rw [e, List.find?_append, List.find?_eq_none.mpr (by simpa using k)]
  simp

theorem OneReady.steps {u : Units} {p : Nat} {y : Req} (h : OneReady u p y) :
    ∀ i, i < 8 → ∀ r ∈ (port u (p / 8 * 8 + i)).reqs, steps r := by
  intro i hi r hr
  by_cases e : p / 8 * 8 + i = p
  · rw [e] at hr
    obtain ⟨A, B, k, hs, -⟩ := h.split
    rw [k] at hr
    simp only [List.mem_append, List.mem_cons] at hr
    rcases hr with hr | rfl | hr
    · exact (hs r (by simp [hr])).elim .inl fun e => .inr (.inl e)
    · exact .inr (.inr h.phase)
    · exact (hs r (by simp [hr])).elim .inl fun e => .inr (.inl e)
  · exact (h.others i hi e r hr).elim .inl fun e => .inr (.inl e)

theorem flatMap_one {β : Type} (f : Nat → List β) (i : Nat) (w : β) (hi : i < 8) (h1 : f i = [w]) (h0 : ∀ j, j < 8 → j ≠ i → f j = []) :
    (List.range 8).flatMap f = [w] := by
  have e : List.range 8 = [0, 1, 2, 3, 4, 5, 6, 7] := by decide
  rw [e]
  have g (j : Nat) (hj : j < 8) : f j = if j = i then [w] else [] := by
    by_cases k : j = i
    · rw [k, h1, if_pos rfl]
    · rw [h0 j hj k, if_neg k]
  simp only [List.flatMap_cons, List.flatMap_nil, g 0 (by omega), g 1 (by omega), g 2 (by omega), g 3 (by omega), g 4 (by omega), g 5 (by omega), g 6 (by omega), g 7 (by omega)]
  interval_cases i <;> simp

theorem OneReady.pump {c : Ctl} {u : Units} {p : Nat} {y : Req} (h : OneReady u p y) (hc : c.mode ≠ .hush) (hh : u.pwr.hushing = false) :
    pumpCluster c u (p / 8) = tryInject c u p y.ord := by
  unfold pumpCluster
  rw [if_neg (by simp [pipesStopped_false hc hh]), stepPorts_none c u _ h.steps]
  have hw : waiters u (p / 8) = [(y.prio, y.waitFrom, p, y.ord)] := by
    unfold waiters
    rw [flatMap_one _ (p % 8) (y.prio, y.waitFrom, p, y.ord) (Nat.mod_lt _ (by decide))]
    · rfl
    · obtain ⟨A, B, k, hs, -⟩ := h.split
      have e : p / 8 * 8 + p % 8 = p := by omega
      dsimp only
      rw [e, k, List.filter_append, List.filter_cons_of_pos (by simp [h.phase]),
        List.filter_eq_nil_iff.mpr fun z hz => by rcases hs z (by simp [hz]) with k | k <;> simp [k],
        List.filter_eq_nil_iff.mpr fun z hz => by rcases hs z (by simp [hz]) with k | k <;> simp [k]]
      rfl
    · intro j hj hne
      dsimp only
      rw [List.filter_eq_nil_iff.mpr fun z hz => by rcases h.others j hj (by omega) z hz with k | k <;> simp [k]]
      rfl
  dsimp only
  rw [hw]
  rfl

theorem takeAll_ok (l : List Nat) : ∀ (u : Units) (r : Req), l.Nodup → (∀ id ∈ l, canTake u id r.prio = true) →
    ∃ x ts, takeAll u l r = (x, { r with tickets := ts }, true) ∧ x.ports = u.ports ∧ x.net = u.net ∧ pumpCore x = pumpCore u := by
  induction l with
  | nil => exact fun u r _ _ => ⟨u, r.tickets, rfl, rfl, rfl, rfl⟩
  | cons id t ih =>
    intro u r hn hc
    unfold takeAll
    split
    · exact ih u r hn.of_cons fun j hj => hc j (List.mem_cons_of_mem _ hj)
    · rw [if_pos (hc id (by simp))]
      obtain ⟨x, ts, e, e1, e2, e3⟩ := ih (takeTicket u id) { r with tickets := r.tickets ++ [id] } hn.of_cons fun j hj => by
        have hne : j ≠ id := fun e => (List.nodup_cons.mp hn).1 (e ▸ hj)
        have := hc j (List.mem_cons_of_mem _ hj)
        unfold canTake poolFree takeTicket at *
        rw [tabGet_put_other hne]
        exact this
      exact ⟨x, ts, e, e1, e2, e3⟩

/-- What a request that finds its tickets puts into transit. -/
theorem tryInject_sends {c : Ctl} {u : Units} {p : Nat} {y : Req} (hf : findReq u p y.ord = some y) (hp : y.phase = .ready)
    (ho : orderWait (port u p) y = false) (hm : hCmd y.hdr ≠ 3 ∨ hMask y.hdr ≠ 0 ∨ hP y.hdr ≠ 0) (hr : routeFenced u p y = false)
    (hn : (ticketsNeeded u p y).Nodup) (hc : ∀ id ∈ ticketsNeeded u p y, canTake u id y.prio = true) :
    ∃ x ts, tryInject c u p y.ord = injectReq x p { y with tickets := ts } ∧ x.net = u.net ∧ pumpCore x = pumpCore u := by
  unfold tryInject
  rw [hf]
  dsimp only
  rw [if_neg (by simp [hp, ho]), if_neg (by omega), if_neg (by simp [hr])]
  obtain ⟨x, ts, e, -, e2, e3⟩ := takeAll_ok _ u y hn hc
  rw [e]
  exact ⟨setReq x p { y with tickets := ts }, ts, rfl, e2, e3⟩

theorem lineSlice_core {u x : Units} (h : pumpCore x = pumpCore u) (e l : Nat) : lineSlice x e l = lineSlice u e l := by
  unfold lineSlice homeSlice lineHash bankReg bankOf
  rw [pumpCore_v h, pumpCore_stg h, pumpCore_regs_bankA h, pumpCore_regs_bankB h]

/-- A READ, a PREFETCH or the read half of a WRITE_MASKED leaves as a LINE_REQ to the home slice of its line. -/
theorem injectReq_lineReq (u : Units) (p : Nat) (y : Req) (h : hCmd y.hdr = 1 ∨ hCmd y.hdr = 4 ∨ hCmd y.hdr = 3 ∧ hP y.hdr ≠ 1) :
    ∃ k ∈ (injectReq u p y).net, k.typ = .lineReq ∧ k.kind = (if hCmd y.hdr = 1 then .read else if hCmd y.hdr = 4 then .prefetch else .merge) ∧
      k.src = epCluster (p / 8) ∧ k.dst = epSlice (lineSlice u (y.epoch.getD 0) (hLla y.hdr)) ∧ k.prio = y.prio ∧ k.epoch = y.epoch.getD 0 ∧
      k.lla = hLla y.hdr ∧ k.port = p ∧ k.ord = y.ord := by
  unfold injectReq
  extract_lets cmd cl e s base u1 r
  rcases h with h | h | ⟨h, hpz⟩
  · rw [if_pos (.inl h)]
    refine ⟨_, List.mem_append_right _ (List.mem_singleton_self _), rfl, ?_, rfl, rfl, rfl, rfl, rfl, rfl, rfl⟩
    simp [cmd, h]
  · rw [if_pos (.inr h)]
    refine ⟨_, List.mem_append_right _ (List.mem_singleton_self _), rfl, ?_, rfl, rfl, rfl, rfl, rfl, rfl, rfl⟩
    simp [cmd, h]
  · have n : ¬ (cmd = 1 ∨ cmd = 4) := by omega
    have n2 : ¬ (cmd = 2 ∨ cmd = 3 ∧ hP r.hdr = 1) := by
      have : hP r.hdr = hP y.hdr := rfl
      omega
    rw [if_neg n, if_neg n2, if_pos h]
    refine ⟨_, List.mem_append_right _ (List.mem_singleton_self _), rfl, ?_, rfl, rfl, rfl, rfl, rfl, rfl, rfl⟩
    simp [h]

theorem injectReq_lineWr (u : Units) (p : Nat) (y : Req) (h : hCmd y.hdr = 2) :
    ∃ k ∈ (injectReq u p y).net, k.typ = .lineWr ∧ k.merge = false ∧ k.poison = (hP y.hdr == 1) ∧
      k.data = (if hP y.hdr = 1 then 0 else xtsEncrypt (tabGet u.keys y.keySlot).key (hLla y.hdr) (lineOf y.data)) ∧
      k.src = epCluster (p / 8) ∧ k.dst = epSlice (lineSlice u (y.epoch.getD 0) (hLla y.hdr)) ∧ k.prio = y.prio ∧ k.epoch = y.epoch.getD 0 ∧
      k.lla = hLla y.hdr ∧ k.port = p ∧ k.ord = y.ord := by
  unfold injectReq
  extract_lets cmd cl e s base u1 r ua u2 line u3 pools u4
  have s1 : PumpSteady u u1 := .opt (.refl u) (.freeHdr u p _)
  have n : ¬ (cmd = 1 ∨ cmd = 4) := by omega
  have n3 : ¬ cmd = 3 := by omega
  rw [if_neg n, if_pos (.inl h)]
  have e2 : u2 = u1 := if_neg n3
  obtain ⟨l, hl⟩ := (PumpSteady.freeDataSlots u4 p pools).net
  rw [hl]
  refine ⟨_, List.mem_append_left _ (List.mem_append_right _ (List.mem_singleton_self _)), rfl, rfl, rfl, ?_, rfl, ?_, rfl, rfl, rfl, rfl, rfl⟩
  · simp only [line, e2, keyOf, pumpCore_keys s1.core]
    rfl
  · simp only [e2, lineSlice_core s1.core]
    rfl

theorem injectReq_flush (u : Units) (p : Nat) (y : Req) (h : hCmd y.hdr = 5 ∨ hCmd y.hdr = 6) :
    ∃ k ∈ (injectReq u p y).net, k.typ = .flush ∧ k.src = epCluster (p / 8) ∧ k.dst = (if hCmd y.hdr = 5 then epCore 0 else epCore 2) ∧
      k.prio = y.prio ∧ k.epoch = y.epoch.getD 0 ∧ k.port = p ∧ k.ord = y.ord ∧ k.handle = hCtx y.hdr := by
  unfold injectReq
  extract_lets cmd cl e s base u1 r
  have n : ¬ (cmd = 1 ∨ cmd = 4) := by omega
  have n2 : ¬ (cmd = 2 ∨ cmd = 3 ∧ hP r.hdr = 1) := by omega
  have n3 : ¬ cmd = 3 := by omega
  rw [if_neg n, if_neg n2, if_neg n3]
  exact ⟨_, List.mem_append_right _ (List.mem_singleton_self _), rfl, rfl, rfl, rfl, rfl, rfl, rfl, rfl⟩

/-- `goesThrough` speaks of these parts of the state alone. -/
theorem goesThrough_congr {c : Ctl} {u x : Units} {p : Nat} {h : BitVec 128} (hc : pumpCore { x with pwr := u.pwr } = pumpCore u) (hw : x.pwr.hushing = u.pwr.hushing)
    (hl : (port x p).level = (port u p).level) (hs : (port x p).state = (port u p).state) (hch : x.cache = u.cache) (hf : x.fences = u.fences)
    (ht : x.tickets = u.tickets) (g : goesThrough c u p h) : goesThrough c x p h := by
  have v : x.v = u.v := pumpCore_v (x := { x with pwr := u.pwr }) hc
  have e : x.regs.epoch = u.regs.epoch := pumpCore_regs_epoch (x := { x with pwr := u.pwr }) hc
  have ba : x.regs.bankA = u.regs.bankA := pumpCore_regs_bankA (x := { x with pwr := u.pwr }) hc
  have bb : x.regs.bankB = u.regs.bankB := pumpCore_regs_bankB (x := { x with pwr := u.pwr }) hc
  have bc : x.badCtx = u.badCtx := pumpCore_badCtx (x := { x with pwr := u.pwr }) hc
  have ce : x.ctxEven = u.ctxEven := pumpCore_ctxEven (x := { x with pwr := u.pwr }) hc
  have co : x.ctxOdd = u.ctxOdd := pumpCore_ctxOdd (x := { x with pwr := u.pwr }) hc
  have ks : x.keys = u.keys := pumpCore_keys (x := { x with pwr := u.pwr }) hc
  have sg : x.stg = u.stg := pumpCore_stg (x := { x with pwr := u.pwr }) hc
  have br (n : Nat) (r : Reg) (i j : Nat) : bankReg x n r i j = bankReg u n r i j := by unfold bankReg bankOf; rw [v, ba, bb]
  have inf (f : Fld) (i j : Nat) : inF x f i j = inF u f i j := by unfold inF epF; rw [e, br]
  have pc : portClass x p = portClass u p := inf _ _ _
  have cp (k : Nat) : classPrio x p k = classPrio u p k := by unfold classPrio; rw [inf]
  have bp (k cmd : Nat) : bucketPass x p k cmd = bucketPass u p k cmd := by
    unfold bucketPass bucketUnlimited bucketDepth levelOf
    simp only [hl, hs, e, br]
  have cr (n k : Nat) : ctxRec x n k = ctxRec u n k := by unfold ctxRec; rw [bc, ce, co]
  have lh (n l : Nat) : lineSlice x n l = lineSlice u n l := by unfold lineSlice homeSlice lineHash; rw [br, br, v, sg]
  obtain ⟨g1, g2, g3, g4, g5, g6, g7, g8, g9, g10, g11⟩ := g
  refine ⟨g1, hw.trans g2, g3, g4, ?_, v ▸ g6, ?_, ?_, ?_, ?_, ?_⟩
  · rw [pc, bp]; exact g5
  · unfold cached at *; rw [hch]; exact g7
  · unfold check2 at *; rw [e, cr, v]; exact g8
  · unfold check34 keyUsable at *; rw [e, cr, ks]; exact g9
  · unfold routeFenced reqDest at *; rw [routeRefused_congr v hf, e]; simp only [lh]; exact g10
  · intro id hi
    rw [pc, cp]
    unfold canTake poolFree
    rw [ht]
    refine g11 id ?_
    unfold ticketsNeeded at hi ⊢
    simp only [e, lh] at hi
    exact hi

/-- An accepted header that nothing holds back makes its request ready at once. -/
theorem acceptReq_ready {c : Ctl} {u : Units} {p pool ord : Nat} {h : BitVec 128} (g : goesThrough c u p h) (hn : dataUnits (hCmd h) = 0)
    (h6 : hCmd h ≠ 6) (hq : clusterStill u (p / 8)) (hs : standsAlone (port u p) h ord) :
    ∃ y, OneReady (acceptReq c u p pool ord h) p y ∧ (∀ z ∈ (port (acceptReq c u p pool ord h) p).reqs, z = y ∨ hCtx z.hdr ≠ hCtx h) ∧
      pumpCore (acceptReq c u p pool ord h) = pumpCore u ∧
      (acceptReq c u p pool ord h).tickets = u.tickets ∧ (acceptReq c u p pool ord h).fences = u.fences ∧
      y.hdr = h ∧ y.ord = ord ∧ y.epoch = some u.regs.epoch ∧ y.prio = classPrio u p (portClass u p) ∧
      y.keySlot = cBits (ctxRec u u.regs.epoch (hCtx h)) 7 10 := by
  unfold acceptReq
  extract_lets u1 u2 n r q dup u3 u4 u5
  have q3 : port u3 p = { q with reqs := q.reqs ++ [r], accepted := q.accepted + 1, ingress := .idle } := by
    simp only [u3, port_setPort_same]
    rw [if_pos (show n = 0 from hn)]
  have p2 : u2.ports = u1.ports := by simp [u2]
  have qr : q.reqs = (port u p).reqs := by
    simp only [q]
    unfold port
    rw [p2]
    simp [u1, spendHdr, port, setPort]
  have hq' := hq
  have m5 : u5 = u3 := by
    have hm : headerMalformed h = false := g.2.2.2.1
    have hd : dup = false := by
      simp only [dup, qr, List.any_eq_false]
      intro z hz
      simp [(hs z hz).1]
    have e4 : u4 = u3 := by simp only [u4, hm]; rfl
    simp only [u5, hd, e4]
    rfl
  have hd : dup = false := by
    simp only [dup, qr, List.any_eq_false]
    intro z hz
    simp [(hs z hz).1]
  rw [if_neg (show ¬ 0 < n by simp only [n]; omega), if_neg (by simp [hd]), m5]
  have c3 : pumpCore u3 = pumpCore u := by
    have : pumpCore u2 = pumpCore u1 := by
      obtain ⟨⟨a, b, e⟩, -⟩ := count_only u1 (cPort p 0)
      simp only [u2, e]
      rfl
    exact this
  have g3 : goesThrough c u3 p h := by
    refine goesThrough_congr (u := u) ?_ ?_ ?_ ?_ ?_ ?_ ?_ g
    · have := pumpCore_pwr c3
      rw [show ({ u3 with pwr := u.pwr } : Units) = u3 by rw [← this]]
      exact c3
    · rw [pumpCore_pwr c3]
    · rw [q3]
      simp only [q]; unfold port; rw [p2]; simp [u1, spendHdr, port, setPort]
    · rw [q3]
      simp only [q]; unfold port; rw [p2]; simp [u1, spendHdr, port, setPort]
    · simp [u3, u2, u1]
    · simp [u3, u2, u1]
    · simp [u3, u2, u1]
  obtain ⟨g1, g2, g3', g4, g5, g6, g7, g8, g9, g10, g11⟩ := g3
  obtain ⟨l, hl⟩ := Option.isSome_iff_exists.mp g5
  rw [admitOrWait_runs (pipesStopped_false g1 g2)]
  have rs : (port u3 p).reqs = (port u p).reqs ++ [r] := by rw [q3]; simp [qr]
  have pe : p / 8 * 8 + p % 8 = p := by omega
  have old : ∀ z ∈ (port u p).reqs, z.phase = .data ∨ z.phase = .sent := by
    have := hq (p % 8) (by omega)
    rwa [pe] at this
  obtain ⟨y, hy⟩ := stepAdmit_ready c u3 p r l rfl g4 h6 g3' rfl
    (by
      intro z hz hne
      rw [rs] at hz
      rcases List.mem_append.mp hz with hz | hz
      · rcases old z hz with e | e <;> simp [e]
      · simp only [List.mem_singleton] at hz; exact absurd (by rw [hz]) hne)
    hl g6 g7 g8 g9
  have ry : (port (stepAdmit c u3 p r) p).reqs = (port u p).reqs ++ [y] := by
    rw [hy.reqs, rs, List.map_append, List.map_cons, List.map_nil, if_pos rfl]
    congr 1
    conv => rhs; rw [← List.map_id (port u p).reqs]
    apply List.map_congr_left
    intro z hz
    rw [if_neg (hs z hz).2.2]
    rfl
  have yo : y.ord = ord := hy.same.1
  have e3 : u3.regs.epoch = u.regs.epoch := pumpCore_regs_epoch c3
  refine ⟨y, ⟨⟨(port u p).reqs, [], ry, by simpa using old, fun z hz => by rw [yo]; exact (hs z hz).2.2⟩, hy.phase, ?_⟩, ?_, hy.core.trans c3, ?_, ?_, hy.same.2.1, yo, hy.epoch.trans (by rw [e3]), ?_, ?_⟩
  · intro i hi hne
    rw [hy.other _ hne]
    have : port u3 (p / 8 * 8 + i) = port u (p / 8 * 8 + i) := by
      simp only [u3, port_setPort_other _ _ hne]
      unfold port
      rw [p2]
      exact tabGet_put_other hne _ _
    rw [this]
    exact hq i hi
  · intro z hz
    rw [ry] at hz
    rcases List.mem_append.mp hz with hz | hz
    · exact .inr (hs z hz).2.1
    · exact .inl (by simpa using hz)
  · rw [hy.tickets]; simp [u3, u2, u1]
  · rw [hy.fences]; simp [u3, u2, u1]
  · rw [hy.prio]
    unfold classPrio portClass inF epF bankReg bankOf
    rw [pumpCore_v c3, pumpCore_regs_bankA c3, pumpCore_regs_bankB c3, e3]
  · rw [hy.keySlot, e3]
    unfold ctxRec
    rw [pumpCore_badCtx c3, pumpCore_ctxEven c3, pumpCore_ctxOdd c3]

/-- An order keeps no request back behind requests of other contexts. -/
theorem orderWait_false {u : Units} {p : Nat} {y : Req} (h6 : hCmd y.hdr ≠ 6) (h : ∀ z ∈ (port u p).reqs, z = y ∨ hCtx z.hdr ≠ hCtx y.hdr) :
    orderWait (port u p) y = false := by
  unfold orderWait
  rw [List.any_eq_false]
  intro z hz
  have e1 := List.mem_takeWhile_imp hz
  have e2 : hCtx z.hdr ≠ hCtx y.hdr := by
    rcases h z ((List.takeWhile_sublist _).subset hz) with e | e
    · subst e; simp at e1
    · exact e
  by_cases h5 : hCmd y.hdr = 5
  · simp [h5, e2]
  · simp [h5, h6, ordered, e2]

theorem nPorts_le (v : Variant) : nPorts v ≤ 64 := by cases v <;> decide

theorem lineSlice_lt (u : Units) (e l : Nat) : lineSlice u e l < 16 := by
  unfold lineSlice homeSlice nbits
  split <;> exact Nat.mod_lt _ (by decide)

/-- The tickets a request needs are distinct. -/
theorem ticketsNeeded_nodup (u : Units) (p : Nat) (y : Req) : (ticketsNeeded u p y).Nodup := by
  have h1 := nPorts_le u.v
  have h2 := lineSlice_lt u (y.epoch.getD 0) (hLla y.hdr)
  unfold ticketsNeeded poolId epCluster epSlice epCore
  dsimp only
  generalize lineSlice u (y.epoch.getD 0) (hLla y.hdr) = s at *
  split <;> simp only [List.nodup_cons, List.mem_cons, List.not_mem_nil, or_false, not_or, List.nodup_nil, not_false_iff, and_true] <;> omega

/-- The one ready request of a still cluster, which nothing holds back, goes into transit. -/
theorem OneReady.injects {c : Ctl} {u z : Units} {p : Nat} {w : Req} (one : OneReady z p w) (hp : p < nPorts u.v) (cu : pumpCore z = pumpCore u)
    (ht : z.tickets = u.tickets) (hf : z.fences = u.fences) (we : w.epoch = some u.regs.epoch) (wp : w.prio = classPrio u p (portClass u p))
    (g : goesThrough c u p w.hdr) (h6 : hCmd w.hdr ≠ 6) (h3 : hCmd w.hdr ≠ 3 ∨ hMask w.hdr ≠ 0 ∨ hP w.hdr ≠ 0)
    (hs : ∀ v ∈ (port z p).reqs, v = w ∨ hCtx v.hdr ≠ hCtx w.hdr) :
    ∃ x ts, (∃ l, (Machine.pump c z p).net = (injectReq x p { w with tickets := ts }).net ++ l) ∧ pumpCore x = pumpCore u := by
  obtain ⟨g1, g2, -, -, -, -, -, -, -, g10, g11⟩ := g
  obtain ⟨q, ts, ei, -, ec⟩ := tryInject_sends (c := c) one.find one.phase (orderWait_false h6 hs) h3
    (by
      rw [← g10]
      unfold routeFenced reqDest
      rw [routeRefused_congr (pumpCore_v cu) hf]
      simp only [we, Option.getD_some, lineSlice_core cu])
    (ticketsNeeded_nodup _ _ _)
    (by
      intro id hid
      rw [wp]
      unfold canTake poolFree
      rw [ht]
      refine g11 id ?_
      unfold ticketsNeeded at hid ⊢
      simp only [we, Option.getD_some, lineSlice_core cu] at hid ⊢
      exact hid)
  refine ⟨q, ts, ?_, ec.trans cu⟩
  unfold Machine.pump
  rw [one.pump g1 (by rw [pumpCore_pwr cu]; exact g2), ei]
  exact (PumpSteady.pumpCluster c _ _).net

/-- A header that nothing holds back leaves its port in the same command. -/
theorem headerBeat_injects {c : Ctl} {u : Units} {p pool : Nat} {h : BitVec 128} (hp : p < nPorts u.v) (hk : pool < 4)
    (hd : pdState u (pdCluster (p / 8)) ≠ 0) (h2 : (port u p).state = 2) (hi : (port u p).ingress = .idle)
    (hc : 0 < tabGet (port u p).hdrCred pool) (hh : hcheckOk h = true) (hn : dataUnits (hCmd h) = 0) (h6 : hCmd h ≠ 6)
    (g : goesThrough c u p h) (hq : clusterStill u (p / 8)) (hs : standsAlone (port u p) h (port u p).next) :
    ∃ x y, (∃ l, (headerBeat c u p pool h).net = (injectReq x p y).net ++ l) ∧ pumpCore x = pumpCore u ∧ y.hdr = h ∧
      y.ord = (port u p).next ∧ y.epoch = some u.regs.epoch ∧ y.prio = classPrio u p (portClass u p) ∧
      y.keySlot = cBits (ctxRec u u.regs.epoch (hCtx h)) 7 10 := by
  unfold headerBeat
  have hms : makeShort c u p = u := by simp [makeShort, hi]
  rw [if_neg (by omega), if_neg (by simp [h2]), hms]
  extract_lets u0 q ord u1 u2
  have e2 : u2 = acceptReq c u1 p pool ord h := by
    simp only [u2]
    rw [if_neg (show ¬ tabGet (port u p).hdrCred pool = 0 by omega), if_neg (by simp [hh]),
      if_neg (show ¬ tabGet (port u p).dataCred pool < dataUnits (hCmd h) by rw [hn]; omega)]
  have q1 : port u1 p = { q with next := (ord + 1) % 65536 } := port_setPort_same _ _ _
  have g1 : goesThrough c u1 p h := goesThrough_congr (u := u) rfl rfl (by rw [q1]) (by rw [q1]) rfl rfl rfl g
  have still1 : clusterStill u1 (p / 8) := by
    intro i hi r hr
    by_cases e : p / 8 * 8 + i = p
    · rw [e, q1] at hr
      exact hq i hi r (by rw [e]; exact hr)
    · simp only [u1, port_setPort_other _ _ e] at hr
      exact hq i hi r hr
  obtain ⟨y, oy, ya, yb, yc, yd, ye, yf, yg, yh, yi⟩ := acceptReq_ready (pool := pool) (ord := ord) g1 hn h6 still1 (by rw [q1]; exact hs)
  rw [← e2] at oy ya yb yc yd
  have cu : pumpCore u2 = pumpCore u := yb
  obtain ⟨x, ts, el, ec⟩ := oy.injects (c := c) hp cu yc yd yg yh (by rw [ye]; exact g) (by rw [ye]; exact h6)
    (.inl (by intro e; rw [ye] at e; rw [e] at hn; cases hn)) (by rw [ye]; exact ya)
  exact ⟨x, { y with tickets := ts }, el, ec, ye, yf, yg, yh, yi⟩

/-- A request in the middle of its port's list, found by its ordinal. -/
theorem findReq_mid {u : Units} {p : Nat} {A B : List Req} {r : Req} (h : (port u p).reqs = A ++ r :: B) (hA : ∀ z ∈ A, z.ord ≠ r.ord) :
    findReq u p r.ord = some r := by
  unfold findReq
  rw [h, List.find?_append, List.find?_eq_none.mpr (by simpa using hA)]
  simp

theorem map_mid {A B : List Req} {r y : Req} (hAB : ∀ z ∈ A ++ B, z.ord ≠ r.ord) :
    ((A ++ r :: B).map fun z => if z.ord = r.ord then y else z) = A ++ y :: B := by
  have g (l : List Req) (hl : ∀ z ∈ l, z.ord ≠ r.ord) : (l.map fun z => if z.ord = r.ord then y else z) = l := by
    conv => rhs; rw [← List.map_id l]
    apply List.map_congr_left
    intro z hz
    rw [if_neg (hl z hz)]
    rfl
  rw [List.map_append, List.map_cons, if_pos rfl, g A fun z hz => hAB z (List.mem_append_left _ hz), g B fun z hz => hAB z (List.mem_append_right _ hz)]

/-- The state a DATA beat of its open request leaves before the request goes on: the unit taken, its credit spent. -/
theorem takeData_good {c : Ctl} {u : Units} {p pool : Nat} {d : BitVec 256} {par : BitVec 32} {A B : List Req} {r : Req}
    (hr : (port u p).reqs = A ++ r :: B) (hAB : ∀ z ∈ A ++ B, z.ord ≠ r.ord) (hp : pool = r.pool) (hd : dparOk d par = true) :
    ∃ x, (takeData c u p pool r.ord d par =
        if (r.data ++ [d]).length < dataUnits (hCmd r.hdr) then x
        else if tagHolder (port (setIngress x p .idle) p) { r with data := r.data ++ [d], dataPools := r.dataPools ++ [pool] } then
          setReq (setIngress x p .idle) p { r with data := r.data ++ [d], dataPools := r.dataPools ++ [pool], phase := .dup, bad := true }
        else admitOrWait c (setIngress x p .idle) p { r with data := r.data ++ [d], dataPools := r.dataPools ++ [pool] }) ∧
      port x p = { port u p with reqs := A ++ { r with data := r.data ++ [d], dataPools := r.dataPools ++ [pool] } :: B } ∧
      (∀ q, q ≠ p → port x q = port u q) ∧ pumpCore x = pumpCore u ∧ x.cache = u.cache ∧ x.fences = u.fences ∧ x.tickets = u.tickets := by
  unfold takeData
  rw [findReq_mid hr fun z hz => hAB z (List.mem_append_left _ hz)]
  dsimp only
  rw [if_pos hd, if_pos hp]
  have eb : (r.bad || !dparOk d par || pool != r.pool) = r.bad := by simp [hd, hp]
  simp only [eb]
  generalize hy : ({ r with data := r.data ++ [d], dataPools := r.dataPools ++ [pool] } : Req) = y
  have yo : y.ord = r.ord := by subst hy; rfl
  refine ⟨setReq (count u (cPort p 4)) p y, ?_, ?_, ?_, ?_, by simp, by simp, by simp⟩
  · subst hy; rfl
  · have : port (count u (cPort p 4)) p = port u p := by unfold port; simp
    simp only [setReq, port_setPort_same, this, hr, yo, map_mid hAB]
  · intro q hq
    simp only [setReq, port_setPort_other _ _ hq]
    unfold port; simp
  · obtain ⟨⟨a, b, e⟩, -⟩ := count_only u (cPort p 4)
    rw [e]; rfl

/-- The last data unit of a request that nothing holds back makes it ready. -/
theorem takeData_ready {c : Ctl} {u : Units} {p pool : Nat} {d : BitVec 256} {par : BitVec 32} {A B : List Req} {r : Req}
    (hr : (port u p).reqs = A ++ r :: B) (hAB : ∀ z ∈ A ++ B, z.ord ≠ r.ord) (hpool : pool = r.pool) (hd : dparOk d par = true)
    (hl : r.data.length + 1 = dataUnits (hCmd r.hdr)) (hb : r.bad = false) (hlab : r.label = false) (h6 : hCmd r.hdr ≠ 6)
    (g : goesThrough c u p r.hdr) (old : ∀ w ∈ A ++ B, w.phase = .data ∨ w.phase = .sent) (hs : ∀ z ∈ A ++ B, hTag z.hdr ≠ hTag r.hdr) :
    ∃ z y w, takeData c u p pool r.ord d par = stepAdmit c z p y ∧ Ready z p y (stepAdmit c z p y) w ∧ (port z p).reqs = A ++ y :: B ∧
      (∀ q, q ≠ p → port z q = port u q) ∧ pumpCore z = pumpCore u ∧ z.fences = u.fences ∧ z.tickets = u.tickets ∧
      y.hdr = r.hdr ∧ y.ord = r.ord ∧ y.data = r.data ++ [d] := by
  obtain ⟨x, e, xp, xo, xc, xca, xf, xt⟩ := takeData_good (c := c) hr hAB hpool hd
  generalize hy : ({ r with data := r.data ++ [d], dataPools := r.dataPools ++ [pool] } : Req) = y at e xp
  have y1 : y.hdr = r.hdr ∧ y.ord = r.ord ∧ y.bad = false ∧ y.label = false ∧ y.data = r.data ++ [d] := by subst hy; exact ⟨rfl, rfl, hb, hlab, rfl⟩
  obtain ⟨y1, y2, y3, y4, y5⟩ := y1
  have zp : port (setIngress x p .idle) p = { port u p with reqs := A ++ y :: B, ingress := .idle } := by simp only [setIngress, port_setPort_same, xp]
  have zo : ∀ q, q ≠ p → port (setIngress x p .idle) q = port u q := fun q h => by simp only [setIngress, port_setPort_other _ _ h, xo q h]
  have zc : pumpCore (setIngress x p .idle) = pumpCore u := xc
  have zca : (setIngress x p .idle).cache = u.cache := xca
  have zf : (setIngress x p .idle).fences = u.fences := xf
  have zt : (setIngress x p .idle).tickets = u.tickets := xt
  generalize setIngress x p .idle = z at e zp zo zc zca zf zt
  have g1 : goesThrough c z p y.hdr := by
    rw [y1]
    refine goesThrough_congr (u := u) ?_ ?_ (by rw [zp]) (by rw [zp]) zca zf zt g
    · rw [show ({ z with pwr := u.pwr } : Units) = z by rw [← pumpCore_pwr zc]]
      exact zc
    · rw [pumpCore_pwr zc]
  have nt : tagHolder (port z p) y = false := by
    unfold tagHolder
    rw [List.any_eq_false, zp]
    intro w hw
    have k1 := List.mem_takeWhile_imp hw
    have k2 := (List.takeWhile_sublist _).subset hw
    simp only [List.mem_append, List.mem_cons] at k2
    rcases k2 with k2 | rfl | k2
    · rw [y1]; simp [hs w (by simp [k2])]
    · simp at k1
    · rw [y1]; simp [hs w (by simp [k2])]
  obtain ⟨g1, g2, g3, g4, g5, g6, g7, g8, g9, -, -⟩ := g1
  obtain ⟨l, hl'⟩ := Option.isSome_iff_exists.mp g5
  obtain ⟨w, hw⟩ := stepAdmit_ready c z p y l y3 g4 (by rw [y1]; exact h6) g3 y4
    (by
      intro v hv hne
      rw [zp] at hv
      simp only [List.mem_append, List.mem_cons] at hv
      rcases hv with hv | rfl | hv
      · rcases old v (by simp [hv]) with k | k <;> simp [k]
      · exact absurd rfl hne
      · rcases old v (by simp [hv]) with k | k <;> simp [k])
    hl' g6 g7 g8 g9
  refine ⟨z, y, w, ?_, hw, by rw [zp], zo, zc, zf, zt, y1, y2, y5⟩
  rw [e, if_neg (by simp [hl]), nt, if_neg Bool.false_ne_true, admitOrWait_runs (pipesStopped_false g1 g2)]

/-- The last data unit of a request that nothing holds back sends it into transit. -/
theorem takeData_injects {c : Ctl} {u : Units} {p pool : Nat} {d : BitVec 256} {par : BitVec 32} {A B : List Req} {r : Req} (hp : p < nPorts u.v)
    (hr : (port u p).reqs = A ++ r :: B) (hAB : ∀ z ∈ A ++ B, z.ord ≠ r.ord) (hpool : pool = r.pool) (hd : dparOk d par = true)
    (hl : r.data.length + 1 = dataUnits (hCmd r.hdr)) (hb : r.bad = false) (hlab : r.label = false) (h6 : hCmd r.hdr ≠ 6)
    (h3 : hCmd r.hdr ≠ 3 ∨ hMask r.hdr ≠ 0 ∨ hP r.hdr ≠ 0)
    (g : goesThrough c u p r.hdr) (hq : clusterStill u (p / 8)) (hs : ∀ z ∈ A ++ B, hTag z.hdr ≠ hTag r.hdr ∧ hCtx z.hdr ≠ hCtx r.hdr) :
    ∃ x y, (∃ l, (pump c (takeData c u p pool r.ord d par) p).net = (injectReq x p y).net ++ l) ∧ pumpCore x = pumpCore u ∧ y.hdr = r.hdr ∧
      y.ord = r.ord ∧ y.epoch = some u.regs.epoch ∧ y.prio = classPrio u p (portClass u p) ∧ y.data = r.data ++ [d] ∧
      y.keySlot = cBits (ctxRec u u.regs.epoch (hCtx r.hdr)) 7 10 := by
  have old : ∀ w ∈ A ++ B, w.phase = .data ∨ w.phase = .sent := by
    have h := hq (p % 8) (by omega)
    rw [show p / 8 * 8 + p % 8 = p by omega, hr] at h
    intro w hw
    rcases List.mem_append.mp hw with hw | hw
    · exact h w (List.mem_append_left _ hw)
    · exact h w (List.mem_append_right _ (List.mem_cons_of_mem _ hw))
  obtain ⟨z, y, w, e, hw, zr, zo, zc, zf, zt, y1, y2, y5⟩ := takeData_ready (c := c) hr hAB hpool hd hl hb hlab h6 g old fun v hv => (hs v hv).1
  have wo : w.ord = r.ord := hw.same.1.trans y2
  have wh : w.hdr = r.hdr := hw.same.2.1.trans y1
  have wr : (port (stepAdmit c z p y) p).reqs = A ++ w :: B := by
    rw [hw.reqs, zr]
    exact map_mid (by rw [y2]; exact hAB)
  have one : OneReady (stepAdmit c z p y) p w := by
    refine ⟨⟨A, B, wr, old, fun v hv => by rw [wo]; exact hAB v (by simp [hv])⟩, hw.phase, ?_⟩
    intro i hi hne
    rw [hw.other _ hne, zo _ hne]
    exact hq i hi
  have ez : z.regs.epoch = u.regs.epoch := pumpCore_regs_epoch zc
  have wp : w.prio = classPrio u p (portClass u p) := by
    rw [hw.prio]
    unfold classPrio portClass inF epF bankReg bankOf
    rw [pumpCore_v zc, pumpCore_regs_bankA zc, pumpCore_regs_bankB zc, ez]
  have we : w.epoch = some u.regs.epoch := hw.epoch.trans (by rw [ez])
  obtain ⟨q, ts, el, ec⟩ := one.injects (c := c) hp (hw.core.trans zc) (hw.tickets.trans zt) (hw.fences.trans zf) we wp
    (by rw [wh]; exact g) (by rw [wh]; exact h6) (by rw [wh]; exact h3)
    (by
      intro v hv
      rw [wr] at hv
      simp only [List.mem_append, List.mem_cons] at hv
      rcases hv with hv | rfl | hv
      · rw [wh]; exact .inr (hs v (by simp [hv])).2
      · exact .inl rfl
      · rw [wh]; exact .inr (hs v (by simp [hv])).2)
  refine ⟨q, { w with tickets := ts }, by rw [e]; exact el, ec, wh, wo, we, wp, hw.same.2.2.2.2.1.trans y5, ?_⟩
  rw [show ({ w with tickets := ts } : Req).keySlot = w.keySlot from rfl, hw.keySlot, ez, y1]
  unfold ctxRec
  rw [pumpCore_badCtx zc, pumpCore_ctxEven zc, pumpCore_ctxOdd zc]

theorem mem_steady {u x : Units} (h : PumpSteady u x) {o : Out} (m : o ∈ u.out) : o ∈ x.out := by
  obtain ⟨l, e⟩ := h.out
  rw [e]; exact List.mem_append_left _ m

theorem completeReq_after (c : Ctl) (u : Units) (p : Nat) (r : Req) (st z m x : Nat) (line : BitVec 512) :
    PumpSteady (completionBeats u p st r z m x line) (completeReq c u p r st z m x line) := by
  unfold completeReq
  dsimp only
  refine PumpSteady.trans (PumpSteady.trans ?_ (.freeDataSlots _ p _)) (.portMayClose c _ p)
  refine PumpSteady.opt (PumpSteady.trans ?_ (.setPort _ p _ fun h => ?_)) (.freeHdr _ _ _)
  · refine PumpSteady.trans (PumpSteady.trans ?_ (.releaseShare _ p r)) (.returnHeld _ p r)
    split
    · exact .errcnt _ _ _ _ rfl
    · exact .recordLatency _ _ _
  · exact ⟨h, rfl, rfl, rfl⟩

theorem beats_one (u : Units) (p st : Nat) (r : Req) (z m x : Nat) (line : BitVec 512) (hd : ¬ (hCmd r.hdr = 1 ∧ st = 0)) :
    Out.beat p 1 (completionWord st (hTag r.hdr) 0 z m x r.pool r.ord) 0 ∈ (completionBeats u p st r z m x line).out := by
  unfold completionBeats
  dsimp only
  rw [if_neg (by simp [hd])]
  refine mem_steady (.count _ _) ?_
  simp [present, hd]

theorem beats_two (u : Units) (p : Nat) (r : Req) (z m x : Nat) (line : BitVec 512) (hd : hCmd r.hdr = 1) :
    Out.beat p 1 (completionWord 0 (hTag r.hdr) 1 z m x r.pool r.ord) (line.setWidth 256) ∈ (completionBeats u p 0 r z m x line).out ∧
    Out.beat p 2 0 (BitVec.ofNat 256 (line.toNat / 2 ^ 256)) ∈ (completionBeats u p 0 r z m x line).out := by
  unfold completionBeats
  dsimp only
  rw [if_pos (by simp [hd])]
  refine ⟨mem_steady (.trans (.present _ _) (.count _ _)) (mem_steady (.count _ _) ?_), mem_steady (.count _ _) ?_⟩
  · simp [present, hd]
  · simp [present]

theorem lineBack_read {c : Ctl} {u : Units} {k : Pkt} {r : Req} (hr : findReq u k.port k.ord = some r) (hp : r.phase = .sent) (hk : k.kind = .read) :
    lineBack c u k false = pump c (completeReq c u k.port r 0 (if k.typ = .zero then 1 else 0) (if k.m then 1 else 0) (if k.x then 1 else 0)
      (if k.typ = .zero then 0 else xtsDecrypt (keyOf u r.keySlot) k.lla k.data)) k.port := by
  unfold lineBack
  rw [hr]
  simp [hp, hk]

theorem doneAtCluster_sent {c : Ctl} {u : Units} {k : Pkt} {r : Req} (hk : k.kind ≠ .check) (hr : findReq u k.port k.ord = some r) (hp : r.phase = .sent) (h1 : hCmd r.hdr ≠ 1) (h4 : hCmd r.hdr ≠ 4) :
    doneAtCluster c u k = pump c (completeReq c u k.port r k.aux 0 0 0 0) k.port := by
  unfold doneAtCluster
  rw [if_neg hk, hr]
  simp [hp, h1, h4]

theorem fold_levels (t : Tab Int) (b : Nat → Bool) (g : Nat → Int → Int) (l : List Nat) (hn : l.Nodup) :
    ∀ k, tabGetD (l.foldl (fun t i => if b i = true then t else tabPutD t i (0 : Int) (g i (tabGetD t i 0))) t) k 0 =
      if k ∈ l ∧ b k = false then g k (tabGetD t k 0) else tabGetD t k 0 := by
  induction l generalizing t with
  | nil => intro k; simp
  | cons i l ih =>
    intro k
    obtain ⟨hi, hn⟩ := List.nodup_cons.mp hn
    rw [List.foldl_cons, ih _ hn k]
    cases hb : b i with
    | true =>
      by_cases e : k = i
      · subst e; simp [hb, hi]
      · simp [e]
    | false =>
      by_cases e : k = i
      · subst e; simp [hb, hi]
      · simp [e, tabGetD_putD_other e]

theorem nbits_or_pow (x k : Nat) (hk : k < 32) : nbits ((x ||| 2 ^ k) % 2 ^ 32) k 1 = 1 := by
  have h := Nat.testBit_eq_decide_div_mod_eq (x := (x ||| 2 ^ k) % 2 ^ 32) (i := k)
  rw [Nat.testBit_mod_two_pow, Nat.testBit_or, Nat.testBit_two_pow_self] at h
  simp only [hk, decide_true, Bool.or_true, Bool.and_true] at h
  simpa [nbits] using h.symm

theorem nbits_or_keep (x y k : Nat) (hk : k < 32) (h1 : nbits x k 1 = 1) : nbits ((x ||| y) % 2 ^ 32) k 1 = 1 := by
  have h := Nat.testBit_eq_decide_div_mod_eq (x := (x ||| y) % 2 ^ 32) (i := k)
  have h0 := Nat.testBit_eq_decide_div_mod_eq (x := x) (i := k)
  have h1' : x / 2 ^ k % 2 = 1 := by simpa [nbits] using h1
  rw [h1'] at h0
  rw [Nat.testBit_mod_two_pow, Nat.testBit_or, h0] at h
  simp only [hk, decide_true, Bool.true_or, Bool.and_true] at h
  simpa [nbits] using h.symm

theorem portErr_portFault (u : Units) (p b o : Nat) (hp : p < 64) :
    rawReg (portFault u p b o) .PORT_n_ERR p 0 = (rawReg u .PORT_n_ERR p 0 ||| 2 ^ b) % 2 ^ 32 := by
  unfold portFault
  rw [(emitEvent_only _ _ _ _).rawReg _ _ _ (by simp only [regAddr, Reg.info, teleAddr]; omega), rawReg_putReg_same]

theorem portErr_steady {u x : Units} (h : PumpSteady u x) (p : Nat) (hp : p < 64) : rawReg x .PORT_n_ERR p 0 = rawReg u .PORT_n_ERR p 0 := by
  unfold rawReg
  rw [h.regs _ _ (by simp only [regAddr, Reg.info, teleAddr]; omega) (by intro q; simp only [regAddr, Reg.info]; omega), pumpCore_v h.core]

theorem makeShort_open (c : Ctl) (u : Units) (p : Nat) (hp : p < 64) (h2 : (port u p).state = 2) :
    (port (makeShort c u p) p).state = 2 ∧ (port (makeShort c u p) p).next = (port u p).next ∧
    (nbits (rawReg u .PORT_n_ERR p 0) 3 1 = 1 → nbits (rawReg (makeShort c u p) .PORT_n_ERR p 0) 3 1 = 1) := by
  unfold makeShort
  split
  · rename_i ord _
    extract_lets q u1 u2
    have q1 : port u1 p = { q with ingress := .idle } := port_setPort_same _ _ _
    have r1 : rawReg u1 .PORT_n_ERR p 0 = rawReg u .PORT_n_ERR p 0 := rfl
    split
    · exact ⟨by rw [q1]; exact h2, by rw [q1], fun k => by rw [r1]; exact k⟩
    · rename_i r _
      extract_lets r2
      have q2 : port u2 p = port u1 p := by unfold port; simp [u2]
      have e2 := portErr_portFault u1 p 5 ord hp
      have go {x : Units} (k : PumpSteady u2 x) : (port x p).state = 2 ∧ (port x p).next = (port u p).next ∧
          (nbits (rawReg u .PORT_n_ERR p 0) 3 1 = 1 → nbits (rawReg x .PORT_n_ERR p 0) 3 1 = 1) := by
        obtain ⟨k1, k2, -, -⟩ := k.port p (by rw [q2, q1]; exact h2)
        refine ⟨k1, k2.trans (by rw [q2, q1]), fun hb => ?_⟩
        rw [portErr_steady k p hp, e2, r1]
        exact nbits_or_keep _ _ 3 (by decide) hb
      split
      · exact go (.setReq _ _ _)
      · exact go (.failReq c _ p _ _)
  · exact ⟨h2, rfl, id⟩

theorem beatSeen_run {c : Ctl} {u : Units} {p : Nat} (b : Bool) (hp : p < nPorts u.v) :
    ∃ w, beatSeen c u p b = { u with pwr := w } ∧ w.hushing = u.pwr.hushing := by
  unfold beatSeen wakeNow
  rw [if_pos hp]
  cases b <;> simp only [if_true, Bool.false_eq_true, if_false] <;> split <;> exact ⟨_, rfl, rfl⟩

end Sys2Proof.Machine
end

