-- ==== Sys2Proof/Laws/Slices.lean ====
section
/-! SUPPORT. Laws of the staging slices: what the work of a slice can change, and what a write that lands leaves behind. -/

namespace Sys2Proof.Machine

/-- What the work of a slice leaves alone: all but the slices, the DDR5 queues, the network, the tickets, current register values, telemetry, and, where `k` says so, the pins of destages that a fence ends (R181, R184). -/
def sliceCore (k : Bool) (u : Units) : Units :=
  { u with regs := { u.regs with cur := ⟨[]⟩ }, slices := ⟨[]⟩, ddr := ⟨[]⟩, net := [], nextPkt := 0, transit := {}, tickets := ⟨[]⟩, tele := {}, hng := if k then { u.hng with pins := [] } else u.hng }

variable {pk : Bool}

@[simp] theorem sliceCore_setSlice (u : Units) (s : Nat) (x : Slice) : sliceCore pk (setSlice u s x) = sliceCore pk u := rfl
@[simp] theorem sliceCore_setDdr (u : Units) (c : Nat) (x : Ddr) : sliceCore pk (setDdr u c x) = sliceCore pk u := rfl
@[simp] theorem sliceCore_setSub (u : Units) (c s : Nat) (x : Sub) : sliceCore pk (setSub u c s x) = sliceCore pk u := by unfold setSub; split <;> rfl
@[simp] theorem sliceCore_sendPkt (u : Units) (k : Pkt) : sliceCore pk (sendPkt u k) = sliceCore pk u := rfl
@[simp] theorem sliceCore_dropPkt (u : Units) (k : Nat) : sliceCore pk (dropPkt u k) = sliceCore pk u := rfl
@[simp] theorem sliceCore_takeTicket (u : Units) (i : Nat) : sliceCore pk (takeTicket u i) = sliceCore pk u := rfl
@[simp] theorem sliceCore_returnTickets (u : Units) (i n : Nat) : sliceCore pk (returnTickets u i n) = sliceCore pk u := rfl
@[simp] theorem sliceCore_releaseTicket (u : Units) (i n : Nat) : sliceCore pk (releaseTicket u i n) = sliceCore pk u := by unfold releaseTicket; split <;> rfl
@[simp] theorem sliceCore_count (u : Units) (n : Nat) : sliceCore pk (count u n) = sliceCore pk u := by
  obtain ⟨⟨c, t, h⟩, _⟩ := count_only u n; rw [h]; rfl
@[simp] theorem sliceCore_putReg (u : Units) (r : Reg) (i j x : Nat) : sliceCore pk (putReg u r i j x) = sliceCore pk u := rfl
@[simp] theorem sliceCore_putF (u : Units) (f : Fld) (i j x : Nat) : sliceCore pk (putF u f i j x) = sliceCore pk u := rfl
@[simp] theorem sliceCore_wqPut (u : Units) (c : Nat) (a : DAcc) : sliceCore pk (wqPut u c a) = sliceCore pk u := by unfold wqPut; dsimp only; (repeat' split) <;> simp
@[simp] theorem sliceCore_rqPut (u : Units) (c : Nat) (a : DAcc) : sliceCore pk (rqPut u c a) = sliceCore pk u := by unfold rqPut; simp
@[simp] theorem sliceCore_freeSlot (u : Units) (s : Nat) (k : Pkt) : sliceCore pk (freeSlot u s k) = sliceCore pk u := by
  unfold freeSlot; split
  · rfl
  · split <;> simp
@[simp] theorem sliceCore_putEntry (u : Units) (s : Nat) (e : HdrEntry) : sliceCore pk (putEntry u s e) = sliceCore pk u := rfl
@[simp] theorem sliceCore_writeHeader (u : Units) (s : Nat) (e : HdrEntry) (a b c : Nat) : sliceCore pk (writeHeader u s e a b c) = sliceCore pk u := by
  unfold writeHeader; simp
theorem sliceCore_makeRoom {u x : Units} {s n : Nat} (h : makeRoom u s n = some x) : sliceCore pk x = sliceCore pk u := by
  unfold makeRoom at h
  dsimp only at h
  split at h
  · cases h; rfl
  · split at h
    · cases h
    · cases h
      split <;> simp
theorem sliceCore_fetchHeader {u x : Units} {s n : Nat} {k : Pkt} (h : fetchHeader u s n k = some x) : sliceCore pk x = sliceCore pk u := by
  unfold fetchHeader at h
  split at h
  · cases h
  · simp only [Option.map_eq_some_iff] at h
    obtain ⟨y, hy, rfl⟩ := h
    rw [sliceCore_rqPut, sliceCore_count, sliceCore_setSlice, sliceCore_makeRoom hy]
theorem sliceCore_fetchHeaderD (u : Units) (s n : Nat) (k : Pkt) : sliceCore pk ((fetchHeader u s n k).getD u) = sliceCore pk u := by
  cases h : fetchHeader u s n k with
  | none => rfl
  | some x => exact sliceCore_fetchHeader h
@[simp] theorem sliceCore_needHeader (u : Units) (s n : Nat) (k : Pkt) : sliceCore pk (needHeader u s n k).2 = sliceCore pk u := by
  unfold needHeader
  split
  · split
    · dsimp only
      split <;> simp
    · rfl
  · split
    · rfl
    · rename_i h
      dsimp only
      split
      · rw [sliceCore_rqPut, sliceCore_fetchHeader h]
      · exact sliceCore_fetchHeader h
@[simp] theorem sliceCore_unpin (u : Units) (s : Nat) (k : Pkt) : sliceCore pk (unpin u s k) = sliceCore pk u := by unfold unpin; dsimp only; split <;> simp
@[simp] theorem sliceCore_waitFill (u : Units) (s : Nat) (k : Pkt) : sliceCore pk (waitFill u s k) = sliceCore pk u := by unfold waitFill; dsimp only; split <;> simp
@[simp] theorem sliceCore_leaveForFill (u : Units) (s : Nat) (k : Pkt) : sliceCore pk (leaveForFill u s k) = sliceCore pk u := by unfold leaveForFill; dsimp only; split <;> simp
@[simp] theorem sliceCore_unpinStripe (u : Units) (r t : Nat) : sliceCore true (unpinStripe u r t) = sliceCore true u := rfl
@[simp] theorem sliceCore_giveUpJob (u : Units) (s : Nat) (j : Destage) : sliceCore true (giveUpJob u s j) = sliceCore true u := by
  unfold giveUpJob
  dsimp only
  split <;> split <;> simp
@[simp] theorem sliceCore_sliceDone (u : Units) (s : Nat) (k : Pkt) (st : Nat) (b m x : Bool) : sliceCore pk (sliceDone u s k st b m x) = sliceCore pk u := rfl
@[simp] theorem sliceCore_sliceRet (u : Units) (s : Nat) (k : Pkt) (d : BitVec 512) (m x : Bool) : sliceCore pk (sliceRet u s k d m x) = sliceCore pk u := rfl
@[simp] theorem sliceCore_unlock (u : Units) (s l : Nat) : sliceCore pk (unlock u s l) = sliceCore pk u := by
  unfold unlock
  dsimp only
  split
  · rfl
  · split <;> simp
@[simp] theorem sliceCore_endAt (u : Units) (s : Nat) (k : Pkt) (st : Nat) : sliceCore pk (endAt u s k st) = sliceCore pk u := by
  unfold endAt; dsimp only; (repeat' split) <;> simp
@[simp] theorem sliceCore_putFill (u : Units) (s : Nat) (a b : Fill) : sliceCore pk (putFill u s a b) = sliceCore pk u := rfl
@[simp] theorem sliceCore_closeFill (u : Units) (s : Nat) (f : Fill) : sliceCore pk (closeFill u s f) = sliceCore pk u := rfl
@[simp] theorem sliceCore_killEarly (u : Units) (s : Nat) (f : Fill) : sliceCore pk (killEarly u s f) = sliceCore pk u := by unfold killEarly; split <;> simp
theorem sliceCore_startFill {u x : Units} {s : Nat} {k : Pkt} {e : Bool} (h : startFill u s k e = some x) : sliceCore pk x = sliceCore pk u := by
  unfold startFill at h
  dsimp only at h
  split at h
  · cases h
  · cases h
    simp
@[simp] theorem sliceCore_listFull (u : Units) (s n t : Nat) : sliceCore pk (listFull u s n t) = sliceCore pk u := by
  unfold listFull; dsimp only; split
  · rfl
  · split <;> simp
@[simp] theorem sliceCore_landWrite (u : Units) (s : Nat) (e : HdrEntry) (h : BitVec 512) (w : Nat) (k : Pkt) : sliceCore pk (landWrite u s e h w k) = sliceCore pk u := by
  unfold landWrite
  extract_lets x set tag was turns ep h' x1 x2 v v1 v2
  have : sliceCore pk v2 = sliceCore pk u := by
    simp only [v2, v1, v]
    rw [sliceCore_wqPut, sliceCore_writeHeader, sliceCore_setSlice]
  split
  · rw [sliceCore_listFull, this]
  · exact this
@[simp] theorem sliceCore_landed (u : Units) (s : Nat) (k : Pkt) : sliceCore pk (landed u s k) = sliceCore pk u := by
  unfold landed
  dsimp only
  rw [sliceCore_sliceDone, sliceCore_freeSlot, sliceCore_unpin]
  split <;> simp
@[simp] theorem sliceCore_placeWrite (u : Units) (s : Nat) (e : HdrEntry) (k : Pkt) : sliceCore pk (placeWrite u s e k).2 = sliceCore pk u := by
  obtain ⟨o, g, hc⟩ : ∃ o g, chooseWay e.hdr (fun w => wayBusy u s e w) (lineTag u k.lla) (k.lla % 8) = (o, g) := ⟨_, _, (Prod.eta _).symm⟩
  unfold placeWrite
  rw [hc]
  cases e.loaded with
  | false => rfl
  | true =>
  rw [if_neg (by decide)]
  cases o with
  | none =>
    dsimp only
    split
    · rfl
    · rw [sliceCore_setSlice]
  | some w =>
    dsimp only
    split
    · rfl
    · rw [sliceCore_landed, sliceCore_landWrite]
@[simp] theorem sliceCore_serveWrite (u : Units) (s : Nat) (e : HdrEntry) (k : Pkt) : sliceCore pk (serveWrite u s e k).2 = sliceCore pk u := by
  unfold serveWrite
  split
  · split
    · rfl
    · rw [sliceCore_landed, sliceCore_landWrite]
  · rw [sliceCore_placeWrite]
@[simp] theorem sliceCore_serveCheck (u : Units) (s : Nat) (e : HdrEntry) (k : Pkt) : sliceCore pk (serveCheck u s e k).2 = sliceCore pk u := by
  unfold serveCheck
  split
  · simp
  · split
    · simp
    · dsimp only
      split <;> simp
@[simp] theorem sliceCore_readWay (u : Units) (s n w : Nat) (k : Pkt) : sliceCore pk (readWay u s n w k) = sliceCore pk u := by
  unfold readWay; dsimp only; split <;> simp
@[simp] theorem sliceCore_serveHit (u : Units) (s : Nat) (e : HdrEntry) (w : Nat) (k : Pkt) : sliceCore pk (serveHit u s e w k).2 = sliceCore pk u := by
  unfold serveHit
  extract_lets v e' po u1 e1 e2 u2 x u3
  have h0 : sliceCore pk v = sliceCore pk u := by
    simp only [v]
    split <;> simp
  have h1 : sliceCore pk u1 = sliceCore pk u := by simp [u1, h0]
  have h2 : sliceCore pk u3 = sliceCore pk u := by
    simp only [u3]
    split <;> simp [u2, h1]
  split
  · simp [h0]
  · split
    · simp [h0]
    · split
      · exact h0
      · simp [h2]
@[simp] theorem sliceCore_serveMiss (u : Units) (s : Nat) (k : Pkt) : sliceCore pk (serveMiss u s k).2 = sliceCore pk u := by
  unfold serveMiss
  split
  · simp
  · split
    · simp
    · split
      · simp
      · rename_i h
        rw [sliceCore_leaveForFill, sliceCore_startFill h]
theorem sliceCore_startFillD (u : Units) (s : Nat) (k : Pkt) (e : Bool) : sliceCore pk ((startFill u s k e).getD u) = sliceCore pk u := by
  cases h : startFill u s k e with
  | none => rfl
  | some x => exact sliceCore_startFill h
@[simp] theorem sliceCore_serve (u : Units) (s : Nat) (k : Pkt) : sliceCore pk (serve u s k).2 = sliceCore pk u := by
  unfold serve
  dsimp only
  split
  · rfl
  · split
    · split <;> simp
    · split
      · rfl
      · split
        · split <;> simp
        · have h0 := sliceCore_needHeader (pk := pk) u s (lineSet u k.lla) k
          split
          · rename_i h
            rw [h] at h0
            dsimp only at h0 ⊢
            split
            · rw [sliceCore_startFillD]; exact h0
            · exact h0
          · rename_i h
            rw [h] at h0
            dsimp only at h0 ⊢
            rw [← h0]
            split
            · simp
            · split
              · simp
              · split <;> simp

theorem sliceCore_foldl {α : Type} (f : Units → α → Units) (h : ∀ u a, sliceCore pk (f u a) = sliceCore pk u) (l : List α) (u : Units) :
    sliceCore pk (l.foldl f u) = sliceCore pk u := by
  induction l generalizing u with
  | nil => rfl
  | cons a t ih => rw [List.foldl_cons, ih, h]

theorem sliceCore_foldl_fst {α β : Type} (f : Units × β → α → Units × β) (h : ∀ p a, sliceCore pk (f p a).1 = sliceCore pk p.1) (l : List α) (p : Units × β) :
    sliceCore pk (l.foldl f p).1 = sliceCore pk p.1 := by
  induction l generalizing p with
  | nil => rfl
  | cons a t ih => rw [List.foldl_cons, ih, h]

theorem sliceCore_foldl_snd {α β : Type} (f : β × Units → α → β × Units) (h : ∀ p a, sliceCore pk (f p a).2 = sliceCore pk p.2) (l : List α) (p : β × Units) :
    sliceCore pk (l.foldl f p).2 = sliceCore pk p.2 := by
  induction l generalizing p with
  | nil => rfl
  | cons a t ih => rw [List.foldl_cons, ih, h]

@[simp] theorem sliceCore_queueJobReads (u : Units) (s : Nat) (j : Destage) (p : Nat) : sliceCore pk (queueJobReads u s j p).1 = sliceCore pk u := by
  unfold queueJobReads
  refine sliceCore_foldl_fst _ ?_ _ (u, j)
  intro ⟨u, j⟩ a
  dsimp only
  cases hdrEntry u s j.set with
  | none =>
    dsimp only
    rw [if_neg (by decide)]
    split
    · rw [sliceCore_rqPut]
    · rfl
  | some e =>
    dsimp only
    split
    · rfl
    · split
      · rw [sliceCore_rqPut]
      · rfl

@[simp] theorem sliceCore_sendJob (u : Units) (s : Nat) (j : Destage) (p : Nat) : sliceCore pk (sendJob u s j p).1 = sliceCore pk u := by
  unfold sendJob
  dsimp only
  split
  · rfl
  · refine sliceCore_foldl_fst _ ?_ _ (u, j)
    intro ⟨u, j⟩ a
    dsimp only
    split <;> simp

@[simp] theorem sliceCore_advanceJobs (u : Units) (s p : Nat) : sliceCore true (advanceJobs u s p) = sliceCore true u := by
  unfold advanceJobs
  refine sliceCore_foldl _ ?_ _ u
  intro u a
  split
  · rfl
  · split
    · simp
    · simp

@[simp] theorem sliceCore_answerAsker (u : Units) (s l : Nat) (a : Asker) (b : Bool) (d : BitVec 512) (z m x : Bool) (st : Nat) :
    sliceCore pk (answerAsker u s l a b d z m x st) = sliceCore pk u := by
  unfold answerAsker
  dsimp only
  split
  · simp
  · split
    · split <;> simp
    · split
      · rfl
      · split <;> simp

@[simp] theorem sliceCore_stageFill (u : Units) (s : Nat) (k : Pkt) : sliceCore pk (stageFill u s k).2 = sliceCore pk u := by
  cases h : hdrEntry u s (lineSet u k.lla) with
  | none => simp only [stageFill, h, sliceCore_fetchHeaderD]
  | some e =>
    obtain ⟨o, g, hc⟩ : ∃ o g, chooseWay e.hdr (fun w => wayBusy u s e w) (lineTag u k.lla) (k.lla % 8) = (o, g) := ⟨_, _, (Prod.eta _).symm⟩
    cases o with
    | none =>
      simp only [stageFill, h, hc]
      split <;> simp
    | some w =>
      simp only [stageFill, h, hc]
      split
      · rfl
      · split
        · rfl
        · rw [sliceCore_wqPut, sliceCore_writeHeader]

@[simp] theorem sliceCore_settleFill (u : Units) (s : Nat) (f : Fill) (k : Pkt) (st : Nat) (b : Bool) : sliceCore pk (settleFill u s f k st b) = sliceCore pk u := by
  unfold settleFill
  extract_lets st' answer first v g v2
  have ha (u : Units) (a : Asker) (d : Bool) : sliceCore pk (answer u a d) = sliceCore pk u := sliceCore_answerAsker _ _ _ _ _ _ _ _ _ _
  have hv : sliceCore pk v = sliceCore pk u := by
    simp only [v]
    split
    · rfl
    · rw [sliceCore_foldl _ fun u a => ha u a false]
      split
      · rfl
      · exact ha _ _ _
  have h2 : sliceCore pk v2 = sliceCore pk u := hv
  have h3 : sliceCore pk (if toStage v2 s g k st = true then stageFill v2 s k else (true, v2)).2 = sliceCore pk u := by
    split
    · rw [sliceCore_stageFill, h2]
    · exact h2
  generalize (if toStage v2 s g k st = true then stageFill v2 s k else (true, v2)) = w at h3
  obtain ⟨done, w⟩ := w
  dsimp only at h3 ⊢
  split
  · rw [sliceCore_foldl _ fun u a => ha u a false, sliceCore_closeFill, h3]
  · exact h3

@[simp] theorem sliceCore_settleFills (u : Units) (s : Nat) : sliceCore pk (settleFills u s) = sliceCore pk u := by
  unfold settleFills
  refine sliceCore_foldl _ ?_ _ u
  intro u a
  split
  · split <;> simp
  · rfl

@[simp] theorem sliceCore_serveAll (u : Units) (s : Nat) : sliceCore pk (serveAll u s) = sliceCore pk u := by
  unfold serveAll
  refine sliceCore_foldl_snd _ ?_ _ ([], u)
  intro ⟨b, u⟩ a
  dsimp only
  split
  · rfl
  · have h0 := sliceCore_serve (pk := pk) u s a
    split <;> (rename_i h; rw [h] at h0; simpa using h0)

@[simp] theorem sliceCore_returnWithheld (s n : Nat) (u : Units) : sliceCore pk (returnWithheld s n u) = sliceCore pk u := by
  induction n generalizing u with
  | zero => rfl
  | succ n ih =>
    unfold returnWithheld
    dsimp only
    split
    · rw [ih]; simp
    · rfl

@[simp] theorem sliceCore_pumpSlice (c : Ctl) (u : Units) (s : Nat) : sliceCore true (pumpSlice c u s) = sliceCore true u := by
  unfold pumpSlice settleCeiling tidySlice
  simp

theorem hng_of_sliceCore {u x : Units} (h : sliceCore false x = sliceCore false u) : x.hng = u.hng := show (sliceCore false x).hng = (sliceCore false u).hng by rw [h]

theorem giveUpJob_pins (u : Units) (s : Nat) (j : Destage) : (giveUpJob u s j).hng.pins.Sublist u.hng.pins := by
  unfold giveUpJob
  dsimp only
  split <;> split
  · exact List.Sublist.refl _
  · exact List.erase_sublist
  · exact List.Sublist.refl _
  · exact List.erase_sublist

theorem advanceJobs_pins (u : Units) (s p : Nat) : (advanceJobs u s p).hng.pins.Sublist u.hng.pins := by
  unfold advanceJobs
  generalize (slice u s).jobs = l
  induction l generalizing u with
  | nil => exact List.Sublist.refl _
  | cons a t ih =>
    rw [List.foldl_cons]
    refine (ih _).trans ?_
    split
    · exact List.Sublist.refl _
    · split
      · exact giveUpJob_pins _ _ _
      · rename_i j _ _
        have h := hng_of_sliceCore ((sliceCore_sendJob (queueJobReads u s j p).1 s (queueJobReads u s j p).2 p).trans (sliceCore_queueJobReads u s j p))
        exact (congrArg Hinge.pins h) ▸ List.Sublist.refl _

/-- The work of a slice adds no pin. -/
theorem pumpSlice_pins (c : Ctl) (u : Units) (s : Nat) : (pumpSlice c u s).hng.pins.Sublist u.hng.pins := by
  have ends (v : Units) : (settleCeiling (returnWithheld s 136 (tidySlice v s)) s).hng = v.hng := by
    apply hng_of_sliceCore
    unfold settleCeiling tidySlice
    simp
  have starts : (settleFills (serveAll (serveAll (settleFills u s) s) s) s).hng = u.hng := hng_of_sliceCore (by simp)
  have jobs := advanceJobs_pins (settleFills (serveAll (serveAll (settleFills u s) s) s) s) s (destagePrio c)
  rw [starts] at jobs
  rw [pumpSlice, ends]
  exact jobs

@[simp] theorem sliceCore_arriveSlice (c : Ctl) (u : Units) (s : Nat) (k : Pkt) : sliceCore true (arriveSlice c u s k) = sliceCore true u := by
  unfold arriveSlice; simp

@[simp] theorem sliceCore_endFill (c : Ctl) (u : Units) (s : Nat) (k : Pkt) (st : Nat) (b : Bool) : sliceCore true (endFill c u s k st b) = sliceCore true u := by
  unfold endFill
  rw [sliceCore_pumpSlice]
  split
  · rfl
  · split <;> simp

@[simp] theorem slice_setSlice_same (u : Units) (s : Nat) (x : Slice) : slice (setSlice u s x) s = x := tabGet_put_same _ _ _

theorem subOf_setSub_same (u : Units) (c s : Nat) (x : Sub) : subOf (setSub u c s x) c s = x := by
  unfold subOf setSub setDdr ddr
  split <;> simp

theorem wqPut_slices (u : Units) (c : Nat) (a : DAcc) : (wqPut u c a).slices = u.slices := by
  unfold wqPut; dsimp only; (repeat' split) <;> simp

theorem wqPut_net (u : Units) (c : Nat) (a : DAcc) : (wqPut u c a).net = u.net := by
  unfold wqPut; dsimp only; (repeat' split) <;> simp

theorem rqPut_slices (u : Units) (c : Nat) (a : DAcc) : (rqPut u c a).slices = u.slices := by
  unfold rqPut; simp

theorem findWay_lt {h : BitVec 512} {tag j w : Nat} (e : findWay h tag j = some w) : w < 15 := by
  exact List.mem_range.mp (List.mem_of_find?_eq_some e)

theorem lineSub_way (set w : Nat) (h : w < 15) : lineSub (set * 16 + 1 + w) = lineSub (set * 16) := by
  unfold lineSub; omega

theorem needHeader_hit {u : Units} {s set : Nat} {k : Pkt} {e : HdrEntry} (h : hdrEntry u s set = some e) (l : e.loaded = true) :
    ∃ x m l, needHeader u s set k = (some e, x) ∧ slice x s = { slice u s with missed := m, cache := l } ∧ x.ddr = u.ddr ∧ x.net = u.net ∧ x.tickets = u.tickets ∧
      x.stg = u.stg ∧ x.v = u.v ∧ x.nextPkt = u.nextPkt := by
  unfold needHeader
  rw [h]
  dsimp only
  rw [if_pos l]
  refine ⟨_, (slice u s).missed.filter fun i => i != k.id, e :: (slice u s).cache.filter (fun y => y.set != e.set), rfl, ?_⟩
  generalize hz : putEntry (setSlice u s { slice u s with missed := (slice u s).missed.filter fun i => i != k.id }) s e = z
  have h1 : slice z s = { slice u s with missed := (slice u s).missed.filter fun i => i != k.id, cache := e :: (slice u s).cache.filter (fun y => y.set != e.set) } := by
    rw [← hz]
    unfold putEntry
    simp only [slice_setSlice_same]
  have h2 : z.ddr = u.ddr ∧ z.net = u.net ∧ z.tickets = u.tickets ∧ z.stg = u.stg ∧ z.v = u.v ∧ z.nextPkt = u.nextPkt := by
    rw [← hz]
    exact ⟨rfl, rfl, rfl, rfl, rfl, rfl⟩
  split
  · exact ⟨h1, h2⟩
  · refine ⟨?_, by simp [h2], by simp [h2], by simp [h2], by simp [h2], by simp [h2], by simp [h2]⟩
    rw [← h1]
    unfold slice
    simp

/-- A request that nothing holds back at its slice is served by its header. -/

theorem serve_header {u : Units} {sl : Nat} {k : Pkt} {e : HdrEntry} (h1 : heldBack u sl k = false)
    (h2 : (slice u sl).sealed.contains (lineSet u k.lla) = false) (h3 : lockOf (slice u sl) k.lla = none)
    (h4 : k.typ = .lineReq → fillOf (slice u sl) k.lla = none) (h6 : hdrEntry u sl (lineSet u k.lla) = some e) (h7 : e.loaded = true) :
    ∃ x m l, slice x sl = { slice u sl with missed := m, cache := l } ∧ x.ddr = u.ddr ∧ x.net = u.net ∧ x.tickets = u.tickets ∧ x.stg = u.stg ∧ x.v = u.v ∧ x.nextPkt = u.nextPkt ∧
      serve u sl k = if k.typ = .lineWr then serveWrite x sl e k else if k.kind = .check then serveCheck x sl e k else
        match findWay e.hdr (lineTag x k.lla) (k.lla % 8) with
        | some w => serveHit x sl e w k
        | none => serveMiss x sl k := by
  obtain ⟨x, m, l, hx, g1, g2, g3, g4, g5, g6, g7⟩ := needHeader_hit (k := k) h6 h7
  refine ⟨x, m, l, g1, g2, g3, g4, g5, g6, g7, ?_⟩
  unfold serve
  dsimp only
  rw [if_neg (by rw [h1]; decide), if_neg (by rw [h2]; decide), if_neg (by rw [h3]; simp)]
  have : (if k.typ = .lineReq ∧ k.kind ≠ .check ∧ earlyOf (slice u sl) k = none then fillOf (slice u sl) k.lla else none) = none := by
    split
    · rename_i h
      exact h4 h.1
    · rfl
  rw [this]
  dsimp only
  rw [hx]
  try rfl

theorem lineTag_congr {u x : Units} (h1 : x.stg = u.stg) (h2 : x.v = u.v) (l : Nat) : lineTag x l = lineTag u l := by
  unfold lineTag lineHash setsLog2; rw [h1, h2]

theorem freeSlot_net {u : Units} {s : Nat} {k y : Pkt} (h : y ∈ u.net) : y ∈ (freeSlot u s k).net := by
  unfold freeSlot
  split
  · exact h
  · split
    · exact h
    · unfold releaseTicket
      split
      · exact h
      · exact List.mem_append_left _ h

theorem unlock_net {u : Units} {s l : Nat} {y : Pkt} (h : y ∈ u.net) : y ∈ (unlock u s l).net := by
  unfold unlock
  dsimp only
  split
  · exact h
  · have : ∀ (v : Units) (id : Nat), y ∈ v.net → y ∈ (releaseTicket v id).net := by
      intro v id hv
      unfold releaseTicket
      split
      · exact hv
      · exact List.mem_append_left _ hv
    split <;> exact this _ _ h

theorem endAt_done {u : Units} {s : Nat} {k : Pkt} {st : Nat} :
    ∃ y ∈ (endAt u s k st).net, y.typ = .done ∧ y.dst = k.src ∧ y.aux = st ∧ y.port = k.port ∧ y.ord = k.ord := by
  have h0 : ∃ y ∈ (sliceDone u s k st).net, y.typ = .done ∧ y.dst = k.src ∧ y.aux = st ∧ y.port = k.port ∧ y.ord = k.ord :=
    ⟨_, List.mem_append_right _ (List.mem_singleton_self _), rfl, rfl, rfl, rfl, rfl⟩
  obtain ⟨y, hy, a⟩ := h0
  refine ⟨y, ?_, a⟩
  unfold endAt
  dsimp only
  split
  · split
    · exact unlock_net hy
    · exact freeSlot_net (unlock_net hy)
  · exact freeSlot_net hy

theorem freeSlot_ddr (u : Units) (s : Nat) (k : Pkt) : (freeSlot u s k).ddr = u.ddr := by
  unfold freeSlot
  split
  · rfl
  · split
    · rfl
    · unfold releaseTicket
      split <;> rfl

theorem nbits_mod {x n lo w : Nat} (h : lo + w ≤ n) : nbits (x % 2 ^ n) lo w = nbits x lo w := by
  unfold nbits
  apply Nat.eq_of_testBit_eq
  intro i
  simp only [Nat.testBit_mod_two_pow, Nat.testBit_div_two_pow]
  by_cases hi : i < w
  · simp [hi, show i + lo < n by omega]
  · simp [hi]

theorem wayState_setRef (h : BitVec 512) (w v : Nat) (hw : w < 15) : wayState (setRef h w v) w = wayState h w := by
  unfold wayState setRef
  rw [BitVec.toNat_ofNat, nbits_mod (by omega), nbits_nput_below (by omega)]

theorem wayRef_setRef (h : BitVec 512) (w v : Nat) (hw : w < 15) : wayRef (setRef h w v) w = v % 2 := by
  unfold wayRef setRef
  rw [BitVec.toNat_ofNat, nbits_mod (by omega), nbits_nput_same]
  all_goals rfl

theorem nbits_sub {x lo w w' : Nat} (h : w' ≤ w) : nbits x lo w' = nbits x lo w % 2 ^ w' := by
  unfold nbits
  obtain ⟨k, rfl⟩ : ∃ k, w = w' + k := ⟨w - w', by omega⟩
  rw [Nat.mod_mod_of_dvd _ ⟨2 ^ k, Nat.pow_add 2 w' k⟩]

theorem wayState_setWay (h : BitVec 512) (w st j tag ep : Nat) (hw : w < 15) : wayState (setWay h w st j tag ep) w = st % 4 := by
  unfold wayState setWay
  rw [BitVec.toNat_ofNat, nbits_mod (by omega), nbits_sub (w := 23) (by decide), nbits_nput_same, Nat.mod_mod_of_dvd _ (by decide)]
  omega

theorem hasLine_iff {q : List DAcc} {l : Nat} : hasLine q l = true ↔ ∃ a ∈ q, a.line = l := by simp [hasLine]

/-- The newest access of a line in a queue. -/
def newestIn (q : List DAcc) (line : Nat) : Option DAcc := q.reverse.find? fun a => a.line == line

theorem newestIn_append (p q : List DAcc) (l : Nat) : newestIn (p ++ q) l = (newestIn q l).or (newestIn p l) := by
  simp [newestIn, List.reverse_append, List.find?_append]

theorem newestIn_none {q : List DAcc} {l : Nat} (h : hasLine q l = false) : newestIn q l = none := by
  simpa [newestIn, hasLine] using h

theorem newestIn_replace_other (q : List DAcc) (a : DAcc) {l : Nat} (h : l ≠ a.line) : newestIn (replaceWrite q a) l = newestIn q l := by
  unfold newestIn replaceWrite
  rw [← List.map_reverse, List.find?_map]
  have e : ((fun b : DAcc => b.line == l) ∘ fun b : DAcc => if b.line = a.line then { b with data := a.data, dirty := a.dirty } else b) = fun b => b.line == l := by
    funext b
    simp only [Function.comp_def]
    split <;> rfl
  rw [e]
  cases hf : q.reverse.find? fun b => b.line == l with
  | none => rfl
  | some b =>
    have : b.line = l := by simpa using List.find?_some hf
    simp [this, h]

theorem newestIn_replace_same (q : List DAcc) (a : DAcc) (h : hasLine q a.line = true) : (newestIn (replaceWrite q a) a.line).map (fun b => b.data) = some a.data := by
  unfold newestIn replaceWrite
  rw [← List.map_reverse, List.find?_map]
  have e : ((fun b : DAcc => b.line == a.line) ∘ fun b : DAcc => if b.line = a.line then { b with data := a.data, dirty := a.dirty } else b) = fun b => b.line == a.line := by
    funext b
    simp only [Function.comp_def]
    split <;> rfl
  rw [e]
  cases hf : q.reverse.find? fun b => b.line == a.line with
  | none => simp [hasLine] at h hf; obtain ⟨x, hx, hy⟩ := h; exact absurd hy (hf x hx)
  | some b =>
    have : b.line = a.line := by simpa using List.find?_some hf
    simp [this]

theorem queuedWrite_eq (x : Sub) (l : Nat) : queuedWrite x l = (newestIn (x.crcHeld ++ x.wq ++ x.held) l).map fun a => a.data := rfl

theorem newestIn_single (a : DAcc) : newestIn [a] a.line = some a := by simp [newestIn]

theorem newestIn_single_other {a : DAcc} {l : Nat} (h : l ≠ a.line) : newestIn [a] l = none := by simp [newestIn, Ne.symm h]

/-- What a write put into the queue leaves of its subchannel: it replaces those of its line, or joins the queue, or is held where the queue is full. -/
theorem subOf_wqPut (u : Units) (c : Nat) (a : DAcc) :
    let x := subOf u c (lineSub a.line)
    let y := subOf (wqPut u c a) c (lineSub a.line)
    y.crcHeld = x.crcHeld ∧
    (((hasLine x.wq a.line = true ∨ hasLine x.held a.line = true) ∧ y.wq = replaceWrite x.wq a ∧ y.held = replaceWrite x.held a) ∨
     (hasLine x.wq a.line = false ∧ hasLine x.held a.line = false ∧
      ((y.wq = x.wq ∧ y.held = x.held ++ [a]) ∨ (y.wq = x.wq ++ [{ a with entered := x.cyc, seq := x.seq }] ∧ y.held = x.held)))) := by
  intro x y
  have hy : y = subOf (wqPut u c a) c (lineSub a.line) := rfl
  unfold wqPut at hy
  dsimp only at hy
  split at hy
  · rename_i h
    rw [hy, subOf_setSub_same]
    exact ⟨rfl, .inl ⟨h, rfl, rfl⟩⟩
  · rename_i h
    have h' : hasLine x.wq a.line = false ∧ hasLine x.held a.line = false := by simpa [not_or] using h
    split at hy <;> rw [hy, subOf_setSub_same]
    · exact ⟨rfl, .inr ⟨h'.1, h'.2, .inl ⟨rfl, rfl⟩⟩⟩
    · exact ⟨rfl, .inr ⟨h'.1, h'.2, .inr ⟨rfl, rfl⟩⟩⟩

/-- A write put into the queue is the newest of its line. -/
theorem queuedWrite_wqPut_same (u : Units) (c : Nat) (a : DAcc) : queuedWrite (subOf (wqPut u c a) c (lineSub a.line)) a.line = some a.data := by
  obtain ⟨e0, h⟩ := subOf_wqPut u c a
  rw [queuedWrite_eq, newestIn_append, newestIn_append, e0]
  rcases h with ⟨h, e1, e2⟩ | ⟨h1, h2, ⟨e1, e2⟩ | ⟨e1, e2⟩⟩
  · rw [e1, e2]
    by_cases hh : hasLine (subOf u c (lineSub a.line)).held a.line = true
    · have := newestIn_replace_same _ a hh
      cases hn : newestIn (replaceWrite (subOf u c (lineSub a.line)).held a) a.line with
      | none => rw [hn] at this; cases this
      | some b => rw [hn] at this; simpa using this
    · have hw : hasLine (subOf u c (lineSub a.line)).wq a.line = true := h.resolve_right hh
      have hn : newestIn (replaceWrite (subOf u c (lineSub a.line)).held a) a.line = none := by
        apply newestIn_none
        have hh' : hasLine (subOf u c (lineSub a.line)).held a.line = false := by simpa using hh
        simp only [hasLine, replaceWrite, List.any_map, List.any_eq_false, Function.comp_def] at hh' ⊢
        intro b hb
        have := hh' b hb
        split
        · exact this
        · exact this
      have := newestIn_replace_same _ a hw
      rw [hn]
      cases hm : newestIn (replaceWrite (subOf u c (lineSub a.line)).wq a) a.line with
      | none => rw [hm] at this; cases this
      | some b => rw [hm] at this; simpa using this
  · rw [e1, e2, newestIn_append, newestIn_single]
    rfl
  · rw [e1, e2, newestIn_none h2, newestIn_append]
    have := newestIn_single { a with entered := (subOf u c (lineSub a.line)).cyc, seq := (subOf u c (lineSub a.line)).seq }
    dsimp only at this
    rw [this]
    rfl

/-- A write put into the queue of its subchannel leaves the newest writes of other lines as they were. -/
theorem queuedWrite_wqPut_other (u : Units) (c : Nat) (a : DAcc) (l : Nat) (hs : lineSub l = lineSub a.line) (hl : l ≠ a.line) :
    queuedWrite (subOf (wqPut u c a) c (lineSub l)) l = queuedWrite (subOf u c (lineSub l)) l := by
  obtain ⟨e0, h⟩ := subOf_wqPut u c a
  rw [hs, queuedWrite_eq, queuedWrite_eq]
  simp only [newestIn_append]
  rw [e0]
  rcases h with ⟨-, e1, e2⟩ | ⟨-, -, ⟨e1, e2⟩ | ⟨e1, e2⟩⟩
  · rw [e1, e2, newestIn_replace_other _ _ hl, newestIn_replace_other _ _ hl]
  · rw [e1, e2, newestIn_append, newestIn_single_other hl]
    rfl
  · have : newestIn [{ a with entered := (subOf u c (lineSub a.line)).cyc, seq := (subOf u c (lineSub a.line)).seq }] l = none := newestIn_single_other hl
    rw [e1, e2, newestIn_append, this]
    rfl

theorem hdrEntry_putEntry (u : Units) (s : Nat) (e : HdrEntry) : hdrEntry (putEntry u s e) s e.set = some e := by
  unfold hdrEntry putEntry
  simp

theorem slice_congr {u x : Units} (h : x.slices = u.slices) (s : Nat) : slice x s = slice u s := by unfold slice; rw [h]

theorem hdrEntry_congr {u x : Units} {s : Nat} (h : (slice x s).cache = (slice u s).cache) (set : Nat) : hdrEntry x s set = hdrEntry u s set := by
  unfold hdrEntry; rw [h]

theorem subOf_congr {u x : Units} (h : x.ddr = u.ddr) (c i : Nat) : subOf x c i = subOf u c i := by unfold subOf ddr; rw [h]

/-- What a write that lands leaves: the header and the data in the write queue, and the way dirty. -/

theorem landWrite_does {u : Units} {s : Nat} {e : HdrEntry} {w : Nat} {k : Pkt} (hw : w < 15) :
    ∃ e', hdrEntry (landWrite u s e e.hdr w k) s e.set = some e' ∧ wayState e'.hdr w = (if k.poison then 3 else 2) ∧ wayRef e'.hdr w = 1 ∧
      queuedWrite (subOf (landWrite u s e e.hdr w k) s (lineSub (e.set * 16))) (e.set * 16 + 1 + w) = some k.data ∧
      queuedWrite (subOf (landWrite u s e e.hdr w k) s (lineSub (e.set * 16))) (e.set * 16) = some e'.hdr ∧
      (slice (landWrite u s e e.hdr w k) s).withheld = (slice u s).withheld ∧ (slice (landWrite u s e e.hdr w k) s).pins = (slice u s).pins ∧
      (landWrite u s e e.hdr w k).net = u.net := by
  unfold landWrite
  extract_lets x set tag was turns ep h' x1 x2 v v1 v2
  have hx : x1.withheld = x.withheld ∧ x1.pins = x.pins := by
    simp only [x1]
    split
    · exact ⟨rfl, rfl⟩
    · split <;> exact ⟨rfl, rfl⟩
  have key : ∀ z : Units, (z = v2 ∨ z = listFull v2 s set tag) → (slice z s).cache = (slice v2 s).cache ∧ z.ddr = v2.ddr ∧ z.net = v2.net ∧
      (slice z s).withheld = (slice v2 s).withheld ∧ (slice z s).pins = (slice v2 s).pins := by
    rintro z (rfl | rfl)
    · exact ⟨rfl, rfl, rfl, rfl, rfl⟩
    · unfold listFull
      dsimp only
      split
      · exact ⟨rfl, rfl, rfl, rfl, rfl⟩
      · split <;> exact ⟨by simp, rfl, rfl, by simp, by simp⟩
  generalize hz : (if stripeFull h' tag then listFull v2 s set tag else v2) = z
  obtain ⟨k1, k2, k3, k4, k5⟩ := key z (by rw [← hz]; split; exact .inr rfl; exact .inl rfl)
  have s2 : v2.slices = v1.slices := wqPut_slices _ _ _
  have s1 : v1.slices = (putEntry v s { e with hdr := h', soft := false }).slices := wqPut_slices _ _ _
  have lw : lineSub (set * 16 + 1 + w) = lineSub (set * 16) := lineSub_way _ _ hw
  refine ⟨{ e with hdr := h', soft := false }, ?_, ?_, ?_, ?_, ?_, ?_, ?_, ?_⟩
  · rw [hdrEntry_congr k1]
    exact (hdrEntry_congr (by rw [slice_congr s2, slice_congr s1]) _).trans (hdrEntry_putEntry v s { e with hdr := h', soft := false })
  · show wayState h' w = _
    simp only [h']
    rw [wayState_setRef _ _ _ hw, wayState_setWay _ _ _ _ _ _ hw]
    split <;> rfl
  · exact wayRef_setRef _ _ _ hw
  · rw [subOf_congr k2, ← lw]
    exact queuedWrite_wqPut_same v1 s _
  · rw [subOf_congr k2]
    have := queuedWrite_wqPut_other v1 s { line := set * 16 + 1 + w, data := k.data, cls := k.cls, prio := k.prio, port := k.port, dirty := true } (set * 16) lw.symm (by intro h; change set * 16 = set * 16 + 1 + w at h; omega)
    rw [show queuedWrite (subOf v2 s (lineSub (e.set * 16))) (e.set * 16) = _ from this]
    exact queuedWrite_wqPut_same (putEntry v s { e with hdr := h', soft := false }) s { line := set * 16, data := h', cls := k.cls, prio := k.prio, port := k.port }
  · rw [k4, slice_congr s2, slice_congr s1]
    simp only [putEntry, slice_setSlice_same, v]
    exact hx.1
  · rw [k5, slice_congr s2, slice_congr s1]
    simp only [putEntry, slice_setSlice_same, v]
    exact hx.2
  · rw [k3]
    simp only [v2, v1, writeHeader, wqPut_net]
    rfl

theorem serveWrite_hit {u : Units} {s : Nat} {e : HdrEntry} {w : Nat} {k : Pkt} (hw : findWay e.hdr (lineTag u k.lla) (k.lla % 8) = some w)
    (hrd : marked e w .read = false) (hr : wqRoom u s [e.set * 16, e.set * 16 + 1 + w] = true) (hb : budgetOk u s k (!wayDirty e.hdr w) = true) :
    serveWrite u s e k = (true, landed (landWrite u s e e.hdr w k) s k) := by
  unfold serveWrite
  simp only [hw, hrd, hr, hb]
  rfl

theorem freeSlot_keeps (u : Units) (s : Nat) (k : Pkt) (hp : k.pool / 65536 = 1) :
    (slice (freeSlot u s k) s).cache = (slice u s).cache ∧ (slice (freeSlot u s k) s).withheld = tabPut (slice u s).withheld k.src (tabGet (slice u s).withheld k.src + 1) ∧
    (freeSlot u s k).ddr = u.ddr := by
  unfold freeSlot
  rw [if_neg (by omega), if_pos hp]
  dsimp only
  rw [slice_setSlice_same]
  exact ⟨rfl, rfl, rfl⟩

end Sys2Proof.Machine
end

