-- ==== Sys2Proof/Laws/Notices.lean ====
section
/-! SUPPORT. What notices, events and interrupt messages can change. -/

namespace Sys2Proof.Machine

/-- What an event, a notice or a message may do: outputs are appended; registers at or above `teleAddr`, telemetry, the ring engine and the notices held in HUSH may change. -/
def NoticeOnly (u x : Units) : Prop :=
  (∃ r w o c t, x = { u with rings := r, pwr := { u.pwr with notices := w }, out := o, regs := { u.regs with cur := c }, tele := t }) ∧
  (∀ a d, a < teleAddr → tabGetD x.regs.cur a d = tabGetD u.regs.cur a d) ∧ ∃ l, x.out = u.out ++ l

theorem NoticeOnly.refl (u : Units) : NoticeOnly u u := ⟨⟨u.rings, u.pwr.notices, u.out, u.regs.cur, u.tele, rfl⟩, fun _ _ _ => rfl, [], by simp⟩

theorem NoticeOnly.trans {u x y : Units} (h : NoticeOnly u x) (h' : NoticeOnly x y) : NoticeOnly u y := by
  obtain ⟨⟨r, w, o, c, t, rfl⟩, k, l, e⟩ := h
  obtain ⟨⟨r', w', o', c', t', rfl⟩, k', l', e'⟩ := h'
  refine ⟨⟨r', w', o', c', t', rfl⟩, fun a d ha => (k' a d ha).trans (k a d ha), l ++ l', ?_⟩
  rw [e', ← List.append_assoc, ← e]

theorem NoticeOnly.counts {u x : Units} (h : CountsOnly u x) : NoticeOnly u x := by
  obtain ⟨⟨c, t, rfl⟩, k⟩ := h
  exact ⟨⟨u.rings, u.pwr.notices, u.out, c, t, rfl⟩, k, [], by simp⟩

theorem NoticeOnly.rings (u : Units) (r : Rings) : NoticeOnly u { u with rings := r } :=
  ⟨⟨r, u.pwr.notices, u.out, u.regs.cur, u.tele, rfl⟩, fun _ _ _ => rfl, [], by simp⟩

theorem NoticeOnly.present (u : Units) (o : Out) : NoticeOnly u (Machine.present u o) :=
  ⟨⟨u.rings, u.pwr.notices, _, u.regs.cur, u.tele, rfl⟩, fun _ _ _ => rfl, [o], rfl⟩

theorem NoticeOnly.sendMsg (u : Units) (v s : Nat) : NoticeOnly u (sendMsg u v s) := by
  unfold Machine.sendMsg
  dsimp only
  split
  · exact .rings u _
  · exact (NoticeOnly.rings u _).trans (.counts (count_only _ _))

theorem NoticeOnly.issueWrite (u : Units) (w : RingWrite) : NoticeOnly u (issueWrite u w) := by
  unfold Machine.issueWrite
  dsimp only
  split
  · exact (NoticeOnly.present u _).trans (.rings _ _)
  · exact .rings u _

theorem NoticeOnly.loseNotice (u : Units) : NoticeOnly u (loseNotice u) := by
  unfold Machine.loseNotice
  exact (NoticeOnly.rings u _).trans (.counts (count_only _ _))

theorem NoticeOnly.writeNotice (u : Units) (n : Notice) : NoticeOnly u (writeNotice u n) := by
  unfold Machine.writeNotice
  dsimp only
  split
  · exact ((NoticeOnly.rings u _).trans (.issueWrite _ _)).trans (.counts (count_only _ _))
  · exact .loseNotice u

theorem NoticeOnly.notice (u : Units) (t p : Nat) : NoticeOnly u (notice u t p) := by
  unfold Machine.notice
  dsimp only
  split
  · exact ⟨⟨u.rings, _, u.out, u.regs.cur, u.tele, rfl⟩, fun _ _ _ => rfl, [], by simp⟩
  · split
    · exact .writeNotice u _
    · split
      · exact .rings u _
      · exact .loseNotice u

theorem NoticeOnly.blockFault (u : Units) (a b c d : Nat) : NoticeOnly u (blockFault u a b c d) := by
  unfold Machine.blockFault
  exact (NoticeOnly.counts (emitEvent_only _ _ _ _)).trans (.notice _ _ _)

theorem NoticeOnly.v {u x : Units} (h : NoticeOnly u x) : x.v = u.v := by obtain ⟨⟨_, _, _, _, _, rfl⟩, _⟩ := h; rfl
theorem NoticeOnly.now {u x : Units} (h : NoticeOnly u x) : x.now = u.now := by obtain ⟨⟨_, _, _, _, _, rfl⟩, _⟩ := h; rfl
theorem NoticeOnly.fresh {u x : Units} (h : NoticeOnly u x) : x.fresh = u.fresh := by obtain ⟨⟨_, _, _, _, _, rfl⟩, _⟩ := h; rfl
theorem NoticeOnly.ports {u x : Units} (h : NoticeOnly u x) : x.ports = u.ports := by obtain ⟨⟨_, _, _, _, _, rfl⟩, _⟩ := h; rfl
theorem NoticeOnly.cache {u x : Units} (h : NoticeOnly u x) : x.cache = u.cache := by obtain ⟨⟨_, _, _, _, _, rfl⟩, _⟩ := h; rfl
theorem NoticeOnly.ctxEven {u x : Units} (h : NoticeOnly u x) : x.ctxEven = u.ctxEven := by obtain ⟨⟨_, _, _, _, _, rfl⟩, _⟩ := h; rfl
theorem NoticeOnly.ctxOdd {u x : Units} (h : NoticeOnly u x) : x.ctxOdd = u.ctxOdd := by obtain ⟨⟨_, _, _, _, _, rfl⟩, _⟩ := h; rfl
theorem NoticeOnly.ctxStaged {u x : Units} (h : NoticeOnly u x) : x.ctxStaged = u.ctxStaged := by obtain ⟨⟨_, _, _, _, _, rfl⟩, _⟩ := h; rfl
theorem NoticeOnly.flushSeq {u x : Units} (h : NoticeOnly u x) : x.flushSeq = u.flushSeq := by obtain ⟨⟨_, _, _, _, _, rfl⟩, _⟩ := h; rfl
theorem NoticeOnly.keys {u x : Units} (h : NoticeOnly u x) : x.keys = u.keys := by obtain ⟨⟨_, _, _, _, _, rfl⟩, _⟩ := h; rfl
theorem NoticeOnly.keyPort {u x : Units} (h : NoticeOnly u x) : x.keyPort = u.keyPort := by obtain ⟨⟨_, _, _, _, _, rfl⟩, _⟩ := h; rfl
theorem NoticeOnly.net {u x : Units} (h : NoticeOnly u x) : x.net = u.net := by obtain ⟨⟨_, _, _, _, _, rfl⟩, _⟩ := h; rfl
theorem NoticeOnly.nextPkt {u x : Units} (h : NoticeOnly u x) : x.nextPkt = u.nextPkt := by obtain ⟨⟨_, _, _, _, _, rfl⟩, _⟩ := h; rfl
theorem NoticeOnly.stopped {u x : Units} (h : NoticeOnly u x) : x.stopped = u.stopped := by obtain ⟨⟨_, _, _, _, _, rfl⟩, _⟩ := h; rfl
theorem NoticeOnly.tickets {u x : Units} (h : NoticeOnly u x) : x.tickets = u.tickets := by obtain ⟨⟨_, _, _, _, _, rfl⟩, _⟩ := h; rfl
theorem NoticeOnly.slotMode {u x : Units} (h : NoticeOnly u x) : x.slotMode = u.slotMode := by obtain ⟨⟨_, _, _, _, _, rfl⟩, _⟩ := h; rfl
theorem NoticeOnly.slices {u x : Units} (h : NoticeOnly u x) : x.slices = u.slices := by obtain ⟨⟨_, _, _, _, _, rfl⟩, _⟩ := h; rfl
theorem NoticeOnly.stg {u x : Units} (h : NoticeOnly u x) : x.stg = u.stg := by obtain ⟨⟨_, _, _, _, _, rfl⟩, _⟩ := h; rfl
theorem NoticeOnly.pd {u x : Units} (h : NoticeOnly u x) : x.pd = u.pd := by obtain ⟨⟨_, _, _, _, _, rfl⟩, _⟩ := h; rfl
theorem NoticeOnly.fences {u x : Units} (h : NoticeOnly u x) : x.fences = u.fences := by obtain ⟨⟨_, _, _, _, _, rfl⟩, _⟩ := h; rfl
theorem NoticeOnly.ddr {u x : Units} (h : NoticeOnly u x) : x.ddr = u.ddr := by obtain ⟨⟨_, _, _, _, _, rfl⟩, _⟩ := h; rfl
theorem NoticeOnly.hng {u x : Units} (h : NoticeOnly u x) : x.hng = u.hng := by obtain ⟨⟨_, _, _, _, _, rfl⟩, _⟩ := h; rfl
theorem NoticeOnly.drf {u x : Units} (h : NoticeOnly u x) : x.drf = u.drf := by obtain ⟨⟨_, _, _, _, _, rfl⟩, _⟩ := h; rfl
theorem NoticeOnly.keep {u x : Units} (h : NoticeOnly u x) : x.keep = u.keep := by obtain ⟨⟨_, _, _, _, _, rfl⟩, _⟩ := h; rfl
theorem NoticeOnly.media {u x : Units} (h : NoticeOnly u x) : x.media = u.media := by obtain ⟨⟨_, _, _, _, _, rfl⟩, _⟩ := h; rfl
theorem NoticeOnly.cex {u x : Units} (h : NoticeOnly u x) : x.cex = u.cex := by obtain ⟨⟨_, _, _, _, _, rfl⟩, _⟩ := h; rfl
theorem NoticeOnly.grp {u x : Units} (h : NoticeOnly u x) : x.grp = u.grp := by obtain ⟨⟨_, _, _, _, _, rfl⟩, _⟩ := h; rfl
theorem NoticeOnly.repairs {u x : Units} (h : NoticeOnly u x) : x.repairs = u.repairs := by obtain ⟨⟨_, _, _, _, _, rfl⟩, _⟩ := h; rfl
theorem NoticeOnly.patchLog {u x : Units} (h : NoticeOnly u x) : x.patchLog = u.patchLog := by obtain ⟨⟨_, _, _, _, _, rfl⟩, _⟩ := h; rfl
theorem NoticeOnly.adm {u x : Units} (h : NoticeOnly u x) : x.adm = u.adm := by obtain ⟨⟨_, _, _, _, _, rfl⟩, _⟩ := h; rfl
theorem NoticeOnly.arbs {u x : Units} (h : NoticeOnly u x) : x.arbs = u.arbs := by obtain ⟨⟨_, _, _, _, _, rfl⟩, _⟩ := h; rfl
theorem NoticeOnly.audit {u x : Units} (h : NoticeOnly u x) : x.audit = u.audit := by obtain ⟨⟨_, _, _, _, _, rfl⟩, _⟩ := h; rfl
theorem NoticeOnly.boot {u x : Units} (h : NoticeOnly u x) : x.boot = u.boot := by obtain ⟨⟨_, _, _, _, _, rfl⟩, _⟩ := h; rfl
theorem NoticeOnly.tap {u x : Units} (h : NoticeOnly u x) : x.tap = u.tap := by obtain ⟨⟨_, _, _, _, _, rfl⟩, _⟩ := h; rfl
theorem NoticeOnly.badCtx {u x : Units} (h : NoticeOnly u x) : x.badCtx = u.badCtx := by obtain ⟨⟨_, _, _, _, _, rfl⟩, _⟩ := h; rfl
theorem NoticeOnly.ctxRead {u x : Units} (h : NoticeOnly u x) : x.ctxRead = u.ctxRead := by obtain ⟨⟨_, _, _, _, _, rfl⟩, _⟩ := h; rfl
theorem NoticeOnly.regs_staged {u x : Units} (h : NoticeOnly u x) : x.regs.staged = u.regs.staged := by obtain ⟨⟨_, _, _, _, _, rfl⟩, _⟩ := h; rfl
theorem NoticeOnly.regs_bankA {u x : Units} (h : NoticeOnly u x) : x.regs.bankA = u.regs.bankA := by obtain ⟨⟨_, _, _, _, _, rfl⟩, _⟩ := h; rfl
theorem NoticeOnly.regs_bankB {u x : Units} (h : NoticeOnly u x) : x.regs.bankB = u.regs.bankB := by obtain ⟨⟨_, _, _, _, _, rfl⟩, _⟩ := h; rfl
theorem NoticeOnly.regs_descStaged {u x : Units} (h : NoticeOnly u x) : x.regs.descStaged = u.regs.descStaged := by obtain ⟨⟨_, _, _, _, _, rfl⟩, _⟩ := h; rfl
theorem NoticeOnly.regs_epoch {u x : Units} (h : NoticeOnly u x) : x.regs.epoch = u.regs.epoch := by obtain ⟨⟨_, _, _, _, _, rfl⟩, _⟩ := h; rfl
theorem NoticeOnly.regs_pending {u x : Units} (h : NoticeOnly u x) : x.regs.pending = u.regs.pending := by obtain ⟨⟨_, _, _, _, _, rfl⟩, _⟩ := h; rfl
theorem NoticeOnly.regs_deferred {u x : Units} (h : NoticeOnly u x) : x.regs.deferred = u.regs.deferred := by obtain ⟨⟨_, _, _, _, _, rfl⟩, _⟩ := h; rfl
theorem NoticeOnly.regs_defers {u x : Units} (h : NoticeOnly u x) : x.regs.defers = u.regs.defers := by obtain ⟨⟨_, _, _, _, _, rfl⟩, _⟩ := h; rfl
theorem NoticeOnly.regs_lateSeen {u x : Units} (h : NoticeOnly u x) : x.regs.lateSeen = u.regs.lateSeen := by obtain ⟨⟨_, _, _, _, _, rfl⟩, _⟩ := h; rfl
theorem NoticeOnly.regs_advances {u x : Units} (h : NoticeOnly u x) : x.regs.advances = u.regs.advances := by obtain ⟨⟨_, _, _, _, _, rfl⟩, _⟩ := h; rfl
theorem NoticeOnly.regs_banked {u x : Units} (h : NoticeOnly u x) : x.regs.banked = u.regs.banked := by obtain ⟨⟨_, _, _, _, _, rfl⟩, _⟩ := h; rfl

theorem NoticeOnly.rawReg {u x : Units} (h : NoticeOnly u x) (r : Reg) (i j : Nat) (ha : regAddr r i j < teleAddr) :
    Machine.rawReg x r i j = Machine.rawReg u r i j := by
  obtain ⟨⟨a, b, o, c, t, rfl⟩, k, -⟩ := h
  unfold Machine.rawReg
  rw [k _ _ ha]

theorem NoticeOnly.getF {u x : Units} (h : NoticeOnly u x) (f : Fld) (i j : Nat) (ha : regAddr f.reg i j < teleAddr) :
    Machine.getF x f i j = Machine.getF u f i j := by
  unfold Machine.getF
  rw [h.rawReg _ _ _ ha]

theorem NoticeOnly.mem {u x : Units} (h : NoticeOnly u x) {o : Out} (m : o ∈ u.out) : o ∈ x.out := by
  obtain ⟨_, _, l, e⟩ := h
  rw [e]; exact List.mem_append_left _ m

end Sys2Proof.Machine
end

