-- ==== Sys2Proof/Laws/Tables.lean ====
section
/-! SUPPORT. Laws of the hinge and pip tables: an entry read after it has been written, and what the journal, the pool counts and the notices of the hinge unit leave alone. -/

namespace Sys2Proof.Machine

/-- What leaves every table entry, pin and slot of the hinge unit and the drift unit as they are. -/
structure TabsKept (u x : Units) : Prop where
  v : x.v = u.v
  mounted : x.hng.mounted = u.hng.mounted
  boot : x.hng.bootEpoch = u.hng.bootEpoch
  hinge : x.hng.hinge = u.hng.hinge
  pip : x.hng.pip = u.hng.pip
  pins : x.hng.pins = u.hng.pins
  slots : x.hng.slots = u.hng.slots
  active : x.hng.active = u.hng.active
  drf : x.drf = u.drf
  group : ∀ s, s < 64 → groupState x s = groupState u s

theorem TabsKept.refl (u : Units) : TabsKept u u := ⟨rfl, rfl, rfl, rfl, rfl, rfl, rfl, rfl, rfl, fun _ _ => rfl⟩

theorem TabsKept.trans {u x y : Units} (h : TabsKept u x) (k : TabsKept x y) : TabsKept u y :=
  ⟨k.v.trans h.v, k.mounted.trans h.mounted, k.boot.trans h.boot, k.hinge.trans h.hinge, k.pip.trans h.pip, k.pins.trans h.pins, k.slots.trans h.slots,
    k.active.trans h.active, k.drf.trans h.drf, fun s hs => (k.group s hs).trans (h.group s hs)⟩

theorem groupState_congr {u x : Units} (hv : x.v = u.v) (hr : x.regs.cur = u.regs.cur) (s : Nat) : groupState x s = groupState u s := by
  unfold groupState getF rawReg; rw [hv, hr]

theorem TabsKept.hingeEntry {u x : Units} (h : TabsKept u x) (l : Nat) : hingeEntry x l = hingeEntry u l := by
  unfold Machine.hingeEntry; rw [h.mounted, h.hinge]

theorem TabsKept.pipEntry {u x : Units} (h : TabsKept u x) (p : Nat) (hp : prnGroup u.v p < 64) : pipEntry x p = pipEntry u p := by
  unfold Machine.pipEntry pipFirst; rw [h.mounted, h.pip, h.v, h.boot, h.group _ hp]

theorem closeBlock_kept (u : Units) : TabsKept u (closeBlock u) := by
  unfold closeBlock
  dsimp only
  split
  · exact .refl u
  · exact ⟨rfl, rfl, rfl, rfl, rfl, rfl, rfl, rfl, rfl, fun _ _ => rfl⟩

theorem journal_kept (u : Units) (t i v a : Nat) : TabsKept u (journal u t i v a) := by
  unfold journal
  dsimp only
  split
  · refine TabsKept.trans ?_ (closeBlock_kept _)
    exact ⟨rfl, rfl, rfl, rfl, rfl, rfl, rfl, rfl, rfl, fun _ _ => rfl⟩
  · exact ⟨rfl, rfl, rfl, rfl, rfl, rfl, rfl, rfl, rfl, fun _ _ => rfl⟩

theorem NoticeOnly.kept {u x : Units} (h : NoticeOnly u x) : TabsKept u x := by
  have hh := h.hng
  refine ⟨h.v, ?_, ?_, ?_, ?_, ?_, ?_, ?_, h.drf,
    fun s hs => h.getF F.HNG_GROUP_s_state s 0 (by simp only [F.HNG_GROUP_s_state, regAddr, Reg.info, teleAddr]; omega)⟩ <;> rw [hh]

theorem CountsOnly.kept {u x : Units} (h : CountsOnly u x) : TabsKept u x := (NoticeOnly.counts h).kept

theorem checkPool_kept (u : Units) : TabsKept u (checkPool u) := by
  unfold checkPool
  split
  · split
    · refine TabsKept.trans (x := flag { u with hng := { u.hng with lowArmed := false } } F.HNG_ERR_pool_low) ?_ ?_
      · refine ⟨rfl, rfl, rfl, rfl, rfl, rfl, rfl, rfl, rfl, fun s hs => ?_⟩
        exact getF_putF_other (f := F.HNG_ERR_pool_low) (g := F.HNG_GROUP_s_state) (by simp only [F.HNG_ERR_pool_low, F.HNG_GROUP_s_state, regAddr, Reg.info]; omega) _ _
      · exact ((CountsOnly.kept (emitEvent_only _ _ _ _))).trans (NoticeOnly.notice _ _ _).kept
    · exact .refl u
  · exact ⟨rfl, rfl, rfl, rfl, rfl, rfl, rfl, rfl, rfl, fun _ _ => rfl⟩

theorem moveCounts_kept (u : Units) (p a b : Nat) (j : Bool) : TabsKept u (moveCounts u p a b j) :=
  ⟨rfl, rfl, rfl, rfl, rfl, rfl, rfl, rfl, rfl, fun _ _ => rfl⟩

theorem remaining_kept (u : Units) (s n : Nat) (h : s < 64) : TabsKept u (putF u F.HNG_GROUP_s_remaining s 0 n) := by
  refine ⟨rfl, rfl, rfl, rfl, rfl, rfl, rfl, rfl, rfl, fun i hi => ?_⟩
  by_cases e : i = s
  · subst e
    exact getF_putF_beside (f := F.HNG_GROUP_s_remaining) (g := F.HNG_GROUP_s_state) u i 0 n rfl (by decide) (by decide)
  · exact getF_putF_other (f := F.HNG_GROUP_s_remaining) (g := F.HNG_GROUP_s_state) (by simp only [F.HNG_GROUP_s_remaining, F.HNG_GROUP_s_state, regAddr, Reg.info]; omega) _ _

/-- A hinge entry written: it reads back, every other entry, the pip table, the pins and the slots stay. -/
theorem putHinge_does (u : Units) (l e : Nat) : TabsKept { u with hng := { u.hng with hinge := tabPutD u.hng.hinge l (l + 2 ^ 23) e } } (putHinge u l e) := journal_kept _ _ _ _ _

theorem hingeEntry_putHinge_same (u : Units) (l e : Nat) (h : u.hng.mounted = true) : hingeEntry (putHinge u l e) l = e := by
  rw [(putHinge_does u l e).hingeEntry]
  unfold hingeEntry
  rw [if_pos h]
  exact tabGetD_putD_same _ _ _ _

/-- A pip entry written: the pip table holds it, every other entry, the hinge table, the pins and the slots stay. -/
theorem putPip_does (u : Units) (p e : Nat) (j : Bool) (h : prnGroup u.v p < 64) :
    TabsKept { u with hng := { u.hng with pip := tabPutD u.hng.pip p (pipFirst u p) e } } (putPip u p e j) := by
  unfold putPip
  dsimp only
  refine TabsKept.trans ?_ (checkPool_kept _)
  refine TabsKept.trans (x := journal { moveCounts u p (pState (pipEntry u p)) (pState e) j with hng := { (moveCounts u p (pState (pipEntry u p)) (pState e) j).hng with pip := tabPutD u.hng.pip p (pipFirst u p) e } } 2 p e 0) ?_ ?_
  · refine TabsKept.trans ?_ (journal_kept _ _ _ _ _)
    exact ⟨rfl, rfl, rfl, rfl, rfl, rfl, rfl, rfl, rfl, fun _ _ => rfl⟩
  · split
    · exact .refl _
    · exact remaining_kept _ _ _ (by rw [(journal_kept _ _ _ _ _).v]; exact h)

theorem pipEntry_putPip_same (u : Units) (p e : Nat) (j : Bool) (h : prnGroup u.v p < 64) (hm : u.hng.mounted = true) (hs : 1 < pState e) :
    pipEntry (putPip u p e j) p = e := by
  rw [(putPip_does u p e j h).pipEntry _ h]
  unfold pipEntry
  rw [if_pos hm]
  have e1 : tabGetD (tabPutD u.hng.pip p (pipFirst u p) e) p (pipFirst u p) = e := tabGetD_putD_same _ _ _ _
  have e2 : pipFirst { u with hng := { u.hng with pip := tabPutD u.hng.pip p (pipFirst u p) e } } p = pipFirst u p := rfl
  simp only [e2, e1]
  unfold pState at hs
  exact if_neg (by omega)

/-- A change with the age counts kept in step leaves the tables as the change itself does. -/
theorem recount_does (u : Units) (l : Nat) (f : Units → Units) : ∃ t, recount u l f = { f u with drf := { (f u).drf with ages := t } } := by
  unfold recount
  exact ⟨_, rfl⟩

/-- The groups of the regions that exist. -/
theorem prnGroup_lt (v : Variant) (p : Nat) (h : p < nPhys v) : prnGroup v p < 64 := by
  unfold prnGroup nPhys nRegions nStripes pick at *
  cases v <;> dsimp only at * <;> split <;> omega

end Sys2Proof.Machine
end

