-- ==== Sys2Proof/Laws/Media.lean ====
section
/-! SUPPORT. Laws of placement, destage and the media schedulers: how a read begins at a die, what enters the stripe buffer, and what a finished stripe leaves. -/

namespace Sys2Proof.Machine

theorem mem_send (u : Units) (k : Pkt) : { k with id := u.nextPkt } ∈ (sendPkt u k).net := List.mem_append_right _ (List.mem_singleton_self _)

theorem withheld_congr {u x : Units} {n : Nat} (hn : n < 72) (hs : x.stg = u.stg) (ha : x.adm = u.adm) (hv : x.v = u.v)
    (hr : ∀ a d, a < teleAddr → tabGetD x.regs.cur a d = tabGetD u.regs.cur a d) (l1 l2 : List Nat) : withheld x true n l1 l2 = withheld u true n l1 l2 := by
  have g (f : Fld) (i : Nat) (h : regAddr f.reg i 0 < teleAddr) : getF x f i 0 = getF u f i 0 := by
    unfold getF rawReg; rw [hr _ _ h, hv]
  have h1 : thrOf x true n = thrOf u true n := by
    unfold thrOf
    rw [g _ _ (by simp only [F.PWR_ZONE_z_STATE_step, regAddr, Reg.info, teleAddr, zoneOf]; split <;> omega)]
  have h2 : rebuildingAt x true n = rebuildingAt u true n := by
    unfold rebuildingAt
    have e : ∀ i, i < 8 → getF x F.HNG_GROUP_s_state (8 * (n / 9) + i) 0 = getF u F.HNG_GROUP_s_state (8 * (n / 9) + i) 0 := fun i hi =>
      g _ _ (by simp only [F.HNG_GROUP_s_state, regAddr, Reg.info, teleAddr]; omega)
    rw [Bool.eq_iff_iff]
    simp only [Bool.true_and, List.any_eq_true, List.mem_range, beq_iff_eq]
    constructor
    · rintro ⟨i, hi, h⟩
      exact ⟨i, hi, by rw [← e i hi]; exact h⟩
    · rintro ⟨i, hi, h⟩
      exact ⟨i, hi, by rw [e i hi]; exact h⟩
  have h3 : floorOf x true n = floorOf u true n := by
    unfold floorOf setFloor evacuating
    rw [h2, hs, ha]
  unfold withheld
  rw [h1, h3]

theorem paused_congr {u x : Units} {n : Nat} (hn : n < 72) (hs : x.stg = u.stg) (ha : x.adm = u.adm) (hv : x.v = u.v) (ht : x.now = u.now)
    (h1 : (grp x (n / 9)).phase = (grp u (n / 9)).phase) (h2 : (grp x (n / 9)).phaseAt = (grp u (n / 9)).phaseAt)
    (h3 : (grp x (n / 9)).table = (grp u (n / 9)).table) (h4 : (grp x (n / 9)).dropped = (grp u (n / 9)).dropped)
    (hr : ∀ a d, a < teleAddr → tabGetD x.regs.cur a d = tabGetD u.regs.cur a d) : paused x n = paused u n := by
  unfold paused mediaHeld mediaIdx mediaTurn
  dsimp only
  rw [hv, withheld_congr hn hs ha hv hr, h1, h2, h3, h4, ht]

theorem nextRead_one (o : Nat) (x : Die) (e : DRead) (h : x.queue = [e]) (w : e.owner = 7) : nextRead o x = some e := by
  unfold nextRead
  rw [h, List.filter_cons_of_pos (by simp [w])]
  rfl

/-- An idle die with one waiting read takes it: SETREF where the code differs, then READ. -/

theorem dieGo_reads {u : Units} {n d : Nat} {e : DRead} (hp : paused u n = false) (hq : (dieOf u n d).queue = [e]) (hs : (dieOf u n d).st = .idle)
    (hr : (dieOf u n d).result = none) (hw : e.owner = 7) : dieGo u n d = senseRead u n d e := by
  unfold dieGo
  dsimp only
  rw [if_neg (by rw [hp]; decide), nextRead_one _ _ _ hq hw]
  dsimp only
  rw [hs, hr]
  rfl

theorem cex_setCex (u : Units) (n : Nat) (x : Cex) : cex (setCex u n x) n = x := tabGet_put_same _ _ _

theorem dieOf_setDie (u : Units) (n d : Nat) (x : Die) : dieOf (setDie u n d x) n d = x := by
  unfold dieOf setDie
  dsimp only
  rw [cex_setCex]
  exact tabGet_put_same _ _ _

theorem dieOf_count (u : Units) (k n d : Nat) : dieOf (count u k) n d = dieOf u n d := by unfold dieOf cex; rw [count_cex]

/-- A die that is idle and decodes frames executes one that Table 9-3 allows. -/
theorem chip_executes {x : Chip} {lines op arg : Nat} {l : MLine} {b : BitVec 768} (he : x.echo = 0) (ho : operandOk op arg = true) (hv : x.verdict lines op arg = .executes) :
    x.frame lines op arg l b = x.execute op arg l b := by
  unfold Chip.frame
  rw [if_neg (by simp [he]), if_neg (by simp [ho]), hv]

/-- A frame to one die: what goes onto the bus, what the die itself does, and that the scheduler's view of it stays. -/
theorem frame_does (u : Units) (n op d arg : Nat) :
    (frame u n op d arg).out = u.out ++ [.cexus n (csMask [d]) (dieOf u n d).chip.safe (caBeats (frameWord op arg))] ∧
    (dieOf (frame u n op d arg) n d).chip = (dieOf u n d).chip.frame (dieLines u n d) op arg {} 0 ∧
    (dieOf (frame u n op d arg) n d).queue = (dieOf u n d).queue ∧ (frame u n op d arg).now = u.now ∧ dieLines (frame u n op d arg) n d = dieLines u n d := by
  have hs : ([d].any fun d => (dieOf u n d).chip.safe) = (dieOf u n d).chip.safe := by simp
  have hp (o : Out) : dieOf (present u o) n d = dieOf u n d := rfl
  have hl (o : Out) : dieLines (present u o) n d = dieLines u n d := rfl
  have hc (y : Units) (x : Die) : (cex (setDie y n d x) n).ident = (cex y n).ident := by unfold setDie; rw [cex_setCex]
  unfold frame frameTo
  dsimp only [List.foldl_cons, List.foldl_nil]
  rw [hs]
  unfold dieTakes
  dsimp only
  rw [dieOf_setDie, hp, hl]
  refine ⟨rfl, ?_, ?_, rfl, ?_⟩
  · split <;> rfl
  · split <;> rfl
  · unfold dieLines
    rw [hc]
    rfl

/-- A READ of an idle die that decodes frames: SETREF where the register of the line's part holds another code, then READ; the die senses the line with the code. -/
theorem senseRead_does {u : Units} {n d : Nat} {e : DRead} (he : (dieOf u n d).chip.echo = 0) (hi : (dieOf u n d).chip.state = .idle) (hc : e.code < 16)
    (hd : e.dla < 2 ^ 31) (hl : e.dla < dieLines u n d) :
    ((∃ slow, Out.cexus n (csMask [d]) slow (caBeats (frameWord 32 e.dla)) ∈ (senseRead u n d e).out) ∧ (dieOf (senseRead u n d e) n d).st = .sensing ∧
      (dieOf (senseRead u n d e) n d).cur = some e ∧ (dieOf (senseRead u n d e) n d).chip.op = .read e.dla e.code) ∧
    (e.code ≠ tabGet (dieOf u n d).chip.refs (e.dla % 4) → ∃ slow, Out.cexus n (csMask [d]) slow (caBeats (frameWord 7 (e.code + e.dla % 4 * 16))) ∈ (senseRead u n d e).out) := by
  obtain ⟨v, hv⟩ : ∃ v, v = (if tabGet (dieOf u n d).chip.refs (e.dla % 4) = e.code then u else frame u n 7 d (e.code + e.dla % 4 * 16)) := ⟨_, rfl⟩
  have key : (dieOf v n d).chip.echo = 0 ∧ (dieOf v n d).chip.state = .idle ∧ tabGet (dieOf v n d).chip.refs (e.dla % 4) = e.code ∧ dieLines v n d = dieLines u n d ∧
      (e.code ≠ tabGet (dieOf u n d).chip.refs (e.dla % 4) → ∃ slow, Out.cexus n (csMask [d]) slow (caBeats (frameWord 7 (e.code + e.dla % 4 * 16))) ∈ v.out) := by
    by_cases h : tabGet (dieOf u n d).chip.refs (e.dla % 4) = e.code
    · rw [hv, if_pos h]
      exact ⟨he, hi, h, rfl, fun q => absurd h.symm q⟩
    · rw [hv, if_neg h]
      obtain ⟨f1, f2, _, _, f5⟩ := frame_does u n 7 d (e.code + e.dla % 4 * 16)
      have ha : e.code + e.dla % 4 * 16 < 64 := by omega
      rw [chip_executes he (by simp only [operandOk, decide_eq_true_eq]; omega) (by simp [Chip.verdict, orError, hi])] at f2
      simp only [Chip.execute, if_pos ha] at f2
      rw [show (e.code + e.dla % 4 * 16) / 16 = e.dla % 4 by omega, show (e.code + e.dla % 4 * 16) % 16 = e.code by omega] at f2
      rw [f2, f1, f5]
      exact ⟨he, hi, tabGet_put_same _ _ _, rfl, fun _ => ⟨_, List.mem_append_right _ (List.mem_singleton_self _)⟩⟩
  obtain ⟨k1, k2, k3, k4, k5⟩ := key
  obtain ⟨g1, g2, _, _, _⟩ := frame_does v n 32 d e.dla
  rw [chip_executes k1 (by simp only [operandOk, decide_eq_true_eq]; exact hd) (by simp only [Chip.verdict, orError, k2, k4]; simp [hl])] at g2
  have so : (senseRead u n d e).out = (frame v n 32 d e.dla).out := by
    unfold senseRead order
    dsimp only
    rw [← hv, count_out]
    rfl
  have sd : dieOf (senseRead u n d e) n d = { dieOf (frame v n 32 d e.dla) n d with st := .sensing, cur := some e, since := v.now, queue := (dieOf (frame v n 32 d e.dla) n d).queue.erase e } := by
    unfold senseRead order
    dsimp only
    rw [← hv, dieOf_count, dieOf_setDie]
  refine ⟨⟨⟨(dieOf v n d).chip.safe, ?_⟩, ?_, ?_, ?_⟩, fun h => ?_⟩
  · rw [so, g1]
    exact List.mem_append_right _ (List.mem_singleton_self _)
  · rw [sd]
  · rw [sd]
  · rw [sd]
    show (dieOf (frame v n 32 d e.dla) n d).chip.op = _
    rw [g2]
    show ChipOp.read e.dla (tabGet (dieOf v n d).chip.refs (e.dla % 4)) = _
    rw [k3]
  · obtain ⟨sl, hs⟩ := k5 h
    refine ⟨sl, ?_⟩
    rw [so, g1]
    exact List.mem_append_left _ hs

theorem grp_setGrp (u : Units) (g : Nat) (x : Grp) : grp (setGrp u g x) g = x := tabGet_put_same _ _ _

/-- A read that begins as a direct attempt of its die. -/

theorem startRead_direct {u : Units} {g : Nat} {k : Pkt} (hpos : k.pos < 9) (hcls : 2 ≤ k.cls) (hbuf : bufAt u g k.group k.dla = none)
    (hfail : failedPos u k.group = []) (hdet : takesDetour u g k = false) :
    startRead u g k .fill = beginDirect (setGrp u g { grp u g with nextRead := (grp u g).nextRead + 1, reads := (grp u g).reads ++ [{ id := (grp u g).nextRead, pkt := k, use := .fill, old := fwdOld k }] }) g
      { id := (grp u g).nextRead, pkt := k, use := .fill, old := fwdOld k } (fwdCode k) true := by
  obtain ⟨v, hv⟩ : ∃ v, v = setGrp u g { grp u g with nextRead := (grp u g).nextRead + 1, reads := (grp u g).reads ++ [{ id := (grp u g).nextRead, pkt := k, use := .fill, old := fwdOld k }] } := ⟨_, rfl⟩
  have gv : grp v g = { grp u g with nextRead := (grp u g).nextRead + 1, reads := (grp u g).reads ++ [{ id := (grp u g).nextRead, pkt := k, use := .fill, old := fwdOld k }] } := by rw [hv]; exact grp_setGrp _ _ _
  have v1 : v.hng = u.hng := by rw [hv]; rfl
  have v2 : v.cex = u.cex := by rw [hv]; rfl
  have b1 : bufAt v g k.group k.dla = none := by
    unfold bufAt at hbuf ⊢
    rw [gv, ← hbuf]
  have b2 : failedPos v k.group = [] := by
    rw [← hfail]
    unfold failedPos dieFailed cex
    rw [v1, v2]
  have b3 : takesDetour v g k = false := by
    rw [← hdet]
    unfold takesDetour
    rw [b2, hfail]
    unfold dieFailed inWindow sensingAhead Machine.dieOf cex
    rw [v1, v2]
    have : (9 * g + k.pos) / 9 = g := by omega
    dsimp only
    rw [this, gv]
  unfold startRead
  dsimp only
  rw [← hv, b1, b2, b3]
  simp [isFill, show ¬ k.cls ≤ 1 by omega]

theorem beginDirect_open {v : Units} {g : Nat} {r : MRead} {c : Nat} (hw : (grp v g).phase ≠ r.pkt.pos) :
    beginDirect v g r c true = queueRead (count (putRead v g { r with direct := { on := true, code := c, need := [r.pkt.pos], blocked := false } }) (cGrp g 0)) g
      { r with direct := { on := true, code := c, need := [r.pkt.pos], blocked := false } } r.pkt.pos c false false := by
  have h : ((grp v g).phase == r.pkt.pos && true) = false := by simpa using hw
  unfold beginDirect
  simp only [h, Bool.false_and, Bool.false_eq_true, if_false]

theorem queueRead_eq (z : Units) (g : Nat) (r : MRead) (q c : Nat) (b1 b2 : Bool) :
    queueRead z g r q c b1 b2 = dieGo (setDie z (9 * g + q) (r.pkt.group % 8) { Machine.dieOf z (9 * g + q) (r.pkt.group % 8) with queue := (Machine.dieOf z (9 * g + q) (r.pkt.group % 8)).queue ++ [{ rid := r.id, detour := b1, pos := q, dla := r.pkt.dla, code := c, cls := r.pkt.cls, prio := r.pkt.prio, port := r.pkt.port, seq := r.id, cut := b2, owner := readRequester z g r.use }] }) (9 * g + q) (r.pkt.group % 8) := rfl

/-- A direct attempt of an idle die with nothing before it, outside its window: READ goes out. -/

theorem beginDirect_reads {v : Units} {g : Nat} {r : MRead} {c : Nat} (hu : r.use = .fill) (hg : g < 8) (hpos : r.pkt.pos < 9) (hw : (grp v g).phase ≠ r.pkt.pos)
    (hpau : paused v (9 * g + r.pkt.pos) = false) (hst : (Machine.dieOf v (9 * g + r.pkt.pos) (r.pkt.group % 8)).st = .idle)
    (hres : (Machine.dieOf v (9 * g + r.pkt.pos) (r.pkt.group % 8)).result = none) (hqu : (Machine.dieOf v (9 * g + r.pkt.pos) (r.pkt.group % 8)).queue = []) :
    ∃ w e, beginDirect v g r c true = senseRead w (9 * g + r.pkt.pos) (r.pkt.group % 8) e ∧ e.dla = r.pkt.dla ∧ e.code = c ∧
      (Machine.dieOf w (9 * g + r.pkt.pos) (r.pkt.group % 8)).chip = (Machine.dieOf v (9 * g + r.pkt.pos) (r.pkt.group % 8)).chip ∧
      dieLines w (9 * g + r.pkt.pos) (r.pkt.group % 8) = dieLines v (9 * g + r.pkt.pos) (r.pkt.group % 8) := by
  obtain ⟨r', hr'⟩ : ∃ r', r' = { r with direct := { on := true, code := c, need := [r.pkt.pos], blocked := false } } := ⟨_, rfl⟩
  obtain ⟨n, hn⟩ : ∃ n, n = 9 * g + r.pkt.pos := ⟨_, rfl⟩
  obtain ⟨d, hd⟩ : ∃ d, d = r.pkt.group % 8 := ⟨_, rfl⟩
  rw [← hn] at hpau
  rw [← hn, ← hd] at hst hres hqu ⊢
  have n9 : n / 9 = g := by omega
  obtain ⟨z, hz⟩ : ∃ z, z = count (putRead v g r') (cGrp g 0) := ⟨_, rfl⟩
  let en : DRead := { rid := r'.id, detour := false, pos := r.pkt.pos, dla := r.pkt.dla, code := c, cls := r.pkt.cls, prio := r.pkt.prio, port := r.pkt.port, seq := r'.id, cut := false, owner := 7 }
  obtain ⟨y, hy⟩ : ∃ y, y = setDie z n d { Machine.dieOf z n d with queue := (Machine.dieOf z n d).queue ++ [en] } := ⟨_, rfl⟩
  have bd : beginDirect v g r c true = dieGo y n d := by
    rw [beginDirect_open hw, ← hr', ← hz, queueRead_eq]
    have q1 : 9 * g + r.pkt.pos = n := hn.symm
    have q2 : r'.pkt = r.pkt := by rw [hr']
    have q3 : readRequester z g r'.use = 7 := by rw [hr']; show readRequester z g r.use = 7; rw [hu]; rfl
    rw [q1, q2, q3, ← hd, hy]
  have zd : Machine.dieOf z n d = Machine.dieOf v n d := by rw [hz, dieOf_count]; rfl
  have yd : Machine.dieOf y n d = { Machine.dieOf z n d with queue := (Machine.dieOf z n d).queue ++ [en] } := by rw [hy, dieOf_setDie]
  have gy : grp y g = { grp v g with reads := (grp v g).reads.map fun x => if x.id = r'.id then r' else x } := by
    have e1 : y.grp = (putRead v g r').grp := by rw [hy]; show z.grp = _; rw [hz, count_grp]
    unfold grp
    rw [e1]
    exact tabGet_put_same _ _ _
  have py : paused y n = false := by
    rw [← hpau]
    have zc := count_only (putRead v g r') (cGrp g 0)
    rw [← hz] at zc
    refine paused_congr (by omega) ?_ ?_ ?_ ?_ ?_ ?_ ?_ ?_ ?_
    · rw [hy]; show z.stg = _; rw [hz, count_stg]; rfl
    · rw [hy]; show z.adm = _; rw [hz, count_adm]; rfl
    · rw [hy]; show z.v = _; rw [hz, count_v]; rfl
    · rw [hy]; show z.now = _; rw [hz, count_now]; rfl
    · rw [n9, gy]
    · rw [n9, gy]
    · rw [n9, gy]
    · rw [n9, gy]
    · intro a q ha
      rw [hy]
      exact zc.2 a q ha
  refine ⟨y, en, ?_, rfl, rfl, ?_, ?_⟩
  · rw [bd]
    exact dieGo_reads py (by rw [yd, zd, hqu]; rfl) (by rw [yd, zd]; exact hst) (by rw [yd, zd]; exact hres) rfl
  · rw [yd, zd]
  · unfold dieLines
    rw [hy]
    unfold setDie
    rw [cex_setCex]
    show max _ (identNum (tabGet (cex z n).ident d) 4 4) = _
    rw [hz]
    unfold cex
    rw [count_cex]
    rfl

theorem bufOf_setBufs (u : Units) (g : Nat) (l : List SBuf) (id : Nat) : bufOf (setGrp u g { grp u g with bufs := l }) g id = l.find? fun b => b.id == id := by
  unfold bufOf
  rw [grp_setGrp]

theorem bufOf_putBuf {u : Units} {g : Nat} {b c : SBuf} (h : bufOf u g b.id = some c) : bufOf (putBuf u g b) g b.id = some b := by
  unfold putBuf
  dsimp only
  rw [bufOf_setBufs]
  unfold bufOf at h
  generalize (grp u g).bufs = l at h
  induction l with
  | nil => cases h
  | cons a t ih =>
    by_cases e : a.id = b.id
    · simp [e]
    · rw [List.find?_cons_of_neg (by simpa using e)] at h
      simp only [List.map_cons, if_neg e]
      rw [List.find?_cons_of_neg (by simpa using e)]
      exact ih h

theorem serveBuf_none {u : Units} {g : Nat} {b : SBuf} (h : (grp u g).reads = []) : serveBuf u g b = u := by
  unfold serveBuf
  rw [h]
  rfl

theorem sliceCore_v {b : Bool} {u x : Units} (h : sliceCore b x = sliceCore b u) : x.v = u.v := show (sliceCore b x).v = (sliceCore b u).v by rw [h]

theorem sliceCore_grp {b : Bool} {u x : Units} (h : sliceCore b x = sliceCore b u) : x.grp = u.grp := show (sliceCore b x).grp = (sliceCore b u).grp by rw [h]

/-- The hinge unit but for its pins. -/
theorem sliceCore_hng {u x : Units} (h : sliceCore true x = sliceCore true u) : { x.hng with pins := [] } = { u.hng with pins := [] } :=
  show (sliceCore true x).hng = (sliceCore true u).hng by rw [h]

/-- The entry of an occupied region is the one its table holds. -/

theorem pipEntry_held {u : Units} {p e : Nat} (hm : u.hng.mounted = true) (ht : tabGetD u.hng.pip p (pipFirst u p) = e) (hs : 1 < pState e) : pipEntry u p = e := by
  unfold pipEntry
  rw [if_pos hm, ht]
  unfold pState at hs
  exact if_neg (by omega)

theorem pipFirst_congr {u x : Units} (hv : x.v = u.v) (hb : x.hng.bootEpoch = u.hng.bootEpoch) (p : Nat) : pipFirst x p = pipFirst u p := by
  unfold pipFirst; rw [hv, hb]

/-- The entry of a region that leaves the fresh state: occupied, oldest and newest age the epoch given, its generation kept. -/

theorem freshened (e n : Nat) : pState (nput (nput (nput e 46 5 n) 51 5 n) 56 3 2) = 2 ∧ pOldest (nput (nput (nput e 46 5 n) 51 5 n) 56 3 2) = n % 32 ∧
    pNewest (nput (nput (nput e 46 5 n) 51 5 n) 56 3 2) = n % 32 ∧ pGen (nput (nput (nput e 46 5 n) 51 5 n) 56 3 2) = pGen e := by
  refine ⟨nbits_nput_same _ _ _ _, ?_, ?_, ?_⟩
  · unfold pOldest
    rw [nbits_nput_below (by decide), nbits_nput_below (by decide), nbits_nput_same]
    all_goals rfl
  · unfold pNewest
    rw [nbits_nput_below (by decide), nbits_nput_same]
    all_goals rfl
  · unfold pGen
    rw [nbits_nput_below (by decide), nbits_nput_below (by decide), nbits_nput_below (by decide)]

/-- Both tables after a hinge entry and then a pip entry have been written, and a stripe pinned. -/

theorem tables_written {u t : Units} {l e p ne : Nat} {q : List Nat} (hm : u.hng.mounted = true) (hg : prnGroup u.v p < 64) (hs : 1 < pState ne)
    (hh : t.hng = { (putPip (putHinge u l e) p ne true).hng with pins := q }) (hv : t.v = u.v) : hingeEntry t l = e ∧ pipEntry t p = ne := by
  have ph := putHinge_does u l e
  have pp := putPip_does (putHinge u l e) p ne true (by rw [ph.v]; exact hg)
  have tm : t.hng.mounted = true := by
    have h1 : t.hng.mounted = (putPip (putHinge u l e) p ne true).hng.mounted := by rw [hh]
    have h2 : (putHinge u l e).hng.mounted = u.hng.mounted := ph.mounted
    have h3 : (putPip (putHinge u l e) p ne true).hng.mounted = (putHinge u l e).hng.mounted := pp.mounted
    rw [h1, h3, h2, hm]
  have t1 : t.hng.hinge = tabPutD u.hng.hinge l (l + 2 ^ 23) e := by
    have h1 : t.hng.hinge = (putPip (putHinge u l e) p ne true).hng.hinge := by rw [hh]
    have h2 : (putHinge u l e).hng.hinge = tabPutD u.hng.hinge l (l + 2 ^ 23) e := ph.hinge
    have h3 : (putPip (putHinge u l e) p ne true).hng.hinge = (putHinge u l e).hng.hinge := pp.hinge
    rw [h1, h3, h2]
  have t2 : t.hng.pip = tabPutD (putHinge u l e).hng.pip p (pipFirst (putHinge u l e) p) ne := by
    have h1 : t.hng.pip = (putPip (putHinge u l e) p ne true).hng.pip := by rw [hh]
    have h3 : (putPip (putHinge u l e) p ne true).hng.pip = tabPutD (putHinge u l e).hng.pip p (pipFirst (putHinge u l e) p) ne := pp.pip
    rw [h1, h3]
  have t3 : t.hng.bootEpoch = (putHinge u l e).hng.bootEpoch := by
    have h1 : t.hng.bootEpoch = (putPip (putHinge u l e) p ne true).hng.bootEpoch := by rw [hh]
    have h3 : (putPip (putHinge u l e) p ne true).hng.bootEpoch = (putHinge u l e).hng.bootEpoch := pp.boot
    rw [h1, h3]
  refine ⟨?_, pipEntry_held tm ?_ hs⟩
  · unfold hingeEntry
    rw [if_pos tm, t1]
    exact tabGetD_putD_same _ _ _ _
  · rw [pipFirst_congr (u := putHinge u l e) (by rw [hv, ph.v]) t3, t2]
    exact tabGetD_putD_same _ _ _ _

theorem pins_written {u : Units} {l e p ne : Nat} (hg : prnGroup u.v p < 64) : (putPip (putHinge u l e) p ne true).hng.pins = u.hng.pins ∧ (putPip (putHinge u l e) p ne true).v = u.v := by
  have ph := putHinge_does u l e
  have pp := putPip_does (putHinge u l e) p ne true (by rw [ph.v]; exact hg)
  exact ⟨pp.pins.trans ph.pins, pp.v.trans ph.v⟩

theorem wayEp_setWay (h : BitVec 512) (w st j tag ep : Nat) (hw : w < 15) (h1 : st < 4) (h2 : j < 8) (h3 : tag < 2 ^ 14) (h4 : ep < 16) : wayEp (setWay h w st j tag ep) w = ep := by
  unfold wayEp setWay
  rw [BitVec.toNat_ofNat, nbits_mod (by omega)]
  have key : ∀ x, nbits (nput h.toNat (23 * w) 23 x) (23 * w + 19) 4 = x % 2 ^ 23 / 2 ^ 19 % 2 ^ 4 := by
    intro x
    have e := nbits_nput_same h.toNat (23 * w) 23 x
    rw [← e]
    unfold nbits
    rw [Nat.pow_add, ← Nat.div_div_eq_div_mul]
    omega
  rw [key]
  omega

theorem nbits_lt (x lo w : Nat) : nbits x lo w < 2 ^ w := Nat.mod_lt _ (Nat.two_pow_pos w)

theorem finishWay_clean {u : Units} {s : Nat} {j : Destage} {x : Slice} {h : BitVec 512} {w : Nat} (hw : w < 15) (hd : keptEpoch u s j h w = none) :
    (finishWay u s j (x, h) w).1.dirty = x.dirty - 1 ∧ wayState (finishWay u s j (x, h) w).2 w = if wayState h w = 3 ∨ j.empties.contains w = true then 0 else 1 := by
  unfold finishWay
  dsimp only
  rw [hd]
  refine ⟨rfl, ?_⟩
  dsimp only
  split
  · unfold emptyWay
    rw [wayState_setWay _ _ _ _ _ _ hw]
  · rw [wayState_setWay _ _ _ _ _ _ hw]

theorem finishWay_kept {u : Units} {s : Nat} {j : Destage} {x : Slice} {h : BitVec 512} {w : Nat} {d : Nat × Nat} (hw : w < 15) (hd : keptEpoch u s j h w = some d) (h16 : d.2 < 16) :
    (finishWay u s j (x, h) w).1.dirty = x.dirty ∧ wayState (finishWay u s j (x, h) w).2 w = wayState h w ∧ wayEp (finishWay u s j (x, h) w).2 w = d.2 := by
  unfold finishWay
  dsimp only
  rw [hd]
  refine ⟨rfl, ?_, ?_⟩
  · dsimp only
    rw [wayState_setWay _ _ _ _ _ _ hw]
    exact Nat.mod_eq_of_lt (nbits_lt _ _ 2)
  · exact wayEp_setWay _ _ _ _ _ _ hw (nbits_lt _ _ 2) (nbits_lt _ _ 3) (nbits_lt _ _ 14) h16

/-- The end of a destage at its slice: the media and the hinge unit keep what they had, but for pins that fences end. -/
theorem finishDestage_core {c : Ctl} {u : Units} {s : Nat} {j : Destage} {e : HdrEntry} (h : hdrEntry u s j.set = some e) (hr : wqRoom u s [j.set * 16] = true) :
    ∃ x, finishDestage c u s j = (true, x) ∧ { x.hng with pins := [] } = { u.hng with pins := [] } ∧ x.hng.pins.Sublist u.hng.pins ∧ x.grp = u.grp ∧ x.v = u.v := by
  unfold finishDestage
  rw [h]
  dsimp only
  rw [if_neg (by rw [hr]; decide)]
  refine ⟨_, rfl, ?_⟩
  generalize hf : j.ways.foldl (fun p w => finishWay u s j p w.1) (slice u s, e.hdr) = p
  have go (y : Units) (hy : y.hng = u.hng ∧ y.grp = u.grp ∧ y.v = u.v) : { (pumpSlice c (count y (cDdr s 12)) s).hng with pins := [] } = { u.hng with pins := [] } ∧
      (pumpSlice c (count y (cDdr s 12)) s).hng.pins.Sublist u.hng.pins ∧ (pumpSlice c (count y (cDdr s 12)) s).grp = u.grp ∧ (pumpSlice c (count y (cDdr s 12)) s).v = u.v := by
    have hk : sliceCore true (pumpSlice c (count y (cDdr s 12)) s) = sliceCore true y := by rw [sliceCore_pumpSlice, sliceCore_count]
    have hp := pumpSlice_pins c (count y (cDdr s 12)) s
    rw [count_hng, hy.1] at hp
    exact ⟨(sliceCore_hng hk).trans (by rw [hy.1]), hp, (sliceCore_grp hk).trans hy.2.1, (sliceCore_v hk).trans hy.2.2⟩
  have core (y : Units) (hy : sliceCore false y = sliceCore false u) : y.hng = u.hng ∧ y.grp = u.grp ∧ y.v = u.v := ⟨hng_of_sliceCore hy, sliceCore_grp hy, sliceCore_v hy⟩
  apply go
  have hz : ∀ y : Units, (y.hng = u.hng ∧ y.grp = u.grp ∧ y.v = u.v) → ∀ (P : Prop) [Decidable P] (w : Pwr), ((if P then { y with pwr := w } else y).hng = u.hng ∧ (if P then { y with pwr := w } else y).grp = u.grp ∧ (if P then { y with pwr := w } else y).v = u.v) := by
    intro y hy P _ w
    split <;> exact hy
  apply hz
  apply core
  split
  · rw [sliceCore_listFull, sliceCore_writeHeader, sliceCore_setSlice]
  · rw [sliceCore_writeHeader, sliceCore_setSlice]

theorem noteExposed_pins (u : Units) (b : SBuf) : (noteExposed u b).hng.pins = u.hng.pins ∧ (noteExposed u b).grp = u.grp := by
  unfold noteExposed
  split
  · exact ⟨rfl, rfl⟩
  · dsimp only
    split <;> exact ⟨rfl, rfl⟩

end Sys2Proof.Machine
end

