-- ==== Sys2Proof/Laws/Rings.lean ====
section
/-! SUPPORT. What the completion of a descriptor does, and how a descriptor row goes. -/

namespace Sys2Proof.Machine

@[simp] theorem ring_setRing_same (u : Units) (r : Nat) (x : Ring) : ring (setRing u r x) r = x := tabGet_put_same _ _ _

theorem ring_setRing_other {r q : Nat} (h : q ≠ r) (u : Units) (x : Ring) : ring (setRing u r x) q = ring u q := tabGet_put_other h _ _

theorem ring_congr {u x : Units} (h : x.rings.ring = u.rings.ring) (r : Nat) : ring x r = ring u r := by unfold ring; rw [h]

theorem cqBase_congr {u x : Units} (h : x.regs = u.regs) (h' : x.v = u.v) (r : Nat) : cqBase x r = cqBase u r := by
  unfold cqBase inF epF bankReg; rw [h, h']

theorem findDesc_putDesc {u : Units} {r : Nat} {d e : Desc} (h : findDesc u r d.idx = some e) : findDesc (putDesc u r d) r d.idx = some d := by
  unfold findDesc putDesc at *
  dsimp only
  rw [ring_setRing_same]
  dsimp only
  generalize (ring u r).descs = l at h ⊢
  induction l with
  | nil => simp at h
  | cons y t ih =>
    by_cases hy : y.idx = d.idx
    · simp [hy]
    · simp only [List.map_cons, if_neg hy, List.find?_cons] at h ⊢
      rw [show (y.idx == d.idx) = false from by simp [hy]] at h ⊢
      exact ih h

theorem issueWrite_writes (u : Units) (w : RingWrite) : (issueWrite u w).rings.writes = u.rings.writes ++ [w] ∧ (issueWrite u w).rings.ring = u.rings.ring := by
  unfold issueWrite; dsimp only; split <;> exact ⟨rfl, rfl⟩

theorem CountsOnly.rings {u x : Units} (h : CountsOnly u x) : x.rings = u.rings := by obtain ⟨⟨c, t, rfl⟩, _⟩ := h; rfl

theorem ring_written (u : Units) (w : RingWrite) (n r : Nat) : ring (count (issueWrite u w) n) r = ring u r :=
  ring_congr (by rw [(count_only _ _).rings, (issueWrite_writes _ _).2]) r

theorem writeEntry_does (u : Units) (r : Nat) (d : Desc) (st r0 r1 : Nat) (l : List Nat) :
    (∃ w, w.ring = r ∧ w.addr = cqBase u r + (ring u r).cqTail * 32 ∧ w.entry = entryOf (ring u r).flip r st d r0 r1 l.length ∧
      (writeEntry u r d st r0 r1 l).rings.writes = u.rings.writes ++ [w]) ∧
    (ring (writeEntry u r d st r0 r1 l) r).descs = (ring u r).descs.filter (fun y => !l.contains y.idx) ∧ NoticeOnly u (writeEntry u r d st r0 r1 l) := by
  unfold writeEntry
  dsimp only
  refine ⟨⟨{ ring := r, addr := cqBase u r + (ring u r).cqTail * 32, entry := entryOf (ring u r).flip r st d r0 r1 l.length, irq := dIrq d || st == 5 }, rfl, rfl, rfl, ?_⟩, ?_, ?_⟩
  · rw [(count_only _ _).rings, (issueWrite_writes _ _).1]; rfl
  · rw [ring_written, ring_setRing_same]
  · exact ((NoticeOnly.rings u _).trans (.issueWrite _ _)).trans (.counts (count_only _ _))

theorem laterDone (l : List Desc) (r : Nat) : ∀ u : Units, NoticeOnly u (l.foldl (fun u m => writeEntry u r m 2 0 0 [m.idx]) u) ∧
    (∀ w ∈ u.rings.writes, w ∈ (l.foldl (fun u m => writeEntry u r m 2 0 0 [m.idx]) u).rings.writes) ∧
    (∀ d ∈ (ring (l.foldl (fun u m => writeEntry u r m 2 0 0 [m.idx]) u) r).descs, d ∈ (ring u r).descs) := by
  induction l with
  | nil => exact fun u => ⟨.refl u, fun _ h => h, fun _ h => h⟩
  | cons m l ih =>
    intro u
    obtain ⟨⟨w, _, _, _, hw⟩, hd, hn⟩ := writeEntry_does u r m 2 0 0 [m.idx]
    obtain ⟨h1, h2, h3⟩ := ih (writeEntry u r m 2 0 0 [m.idx])
    refine ⟨hn.trans h1, fun x hx => h2 x (by rw [hw]; exact List.mem_append_left _ hx), fun d hx => ?_⟩
    have := h3 d hx
    rw [hd] at this
    exact (List.mem_filter.mp this).1

theorem complete_keeps (u : Units) (r i st r0 r1 : Nat) : NoticeOnly u (complete u r i st r0 r1) := by
  unfold complete
  split
  · exact .refl u
  · dsimp only
    refine NoticeOnly.trans ?_ (laterDone _ r _).1
    refine NoticeOnly.trans ?_ (writeEntry_does _ r _ _ _ _ _).2.2
    refine (fun (P : Prop) [Decidable P] (x : Ring) => (?_ : NoticeOnly u (if P then setRing u r x else u))) _ _
    split
    · exact .rings u _
    · exact .refl u

theorem dead_same (u : Units) (r : Nat) (P : Prop) [Decidable P] :
    (ring (if P then setRing u r { ring u r with runDead := true } else u) r).cqTail = (ring u r).cqTail ∧
    (ring (if P then setRing u r { ring u r with runDead := true } else u) r).flip = (ring u r).flip ∧
    cqBase (if P then setRing u r { ring u r with runDead := true } else u) r = cqBase u r := by
  split
  · exact ⟨by rw [ring_setRing_same], by rw [ring_setRing_same], cqBase_congr (by rfl) (by rfl) r⟩
  · exact ⟨rfl, rfl, rfl⟩

/-- What a completion leaves: the entry of the descriptor at the tail its ring had. -/
theorem complete_posted {u : Units} {r : Nat} {d e : Desc} (st r0 r1 : Nat) (h : findDesc u r d.idx = some e) (hb : e.bits = d.bits) :
    posted u (complete u r d.idx st r0 r1) r d st r0 r1 := by
  have hi : e.idx = d.idx := by simpa using List.find?_some h
  unfold complete
  rw [h]
  dsimp only
  obtain ⟨y, hy⟩ : ∃ y, y = (if st ≠ 0 ∧ dChain e = true ∧
      ((if st ≠ 0 ∧ dChain e = true then laterMembers (descsAfter u r d.idx) (e.pos + 1) else []).getLastD e).pos + 1 = (ring u r).runLen ∧
      dChain ((if st ≠ 0 ∧ dChain e = true then laterMembers (descsAfter u r d.idx) (e.pos + 1) else []).getLastD e) = true
      then setRing u r { ring u r with runDead := true } else u) := ⟨_, rfl⟩
  have k : (ring y r).cqTail = (ring u r).cqTail ∧ (ring y r).flip = (ring u r).flip ∧ cqBase y r = cqBase u r := by
    rw [hy]; exact dead_same u r _
  rw [← hy]
  obtain ⟨⟨w, w1, w2, w3, w4⟩, hd, -⟩ := writeEntry_does y r e st r0 r1 [d.idx]
  obtain ⟨-, l2, l3⟩ := laterDone (if st ≠ 0 ∧ dChain e = true then laterMembers (descsAfter u r d.idx) (e.pos + 1) else []) r (writeEntry y r e st r0 r1 [d.idx])
  refine ⟨?_, w, l2 w (by rw [w4]; exact List.mem_append_right _ (List.mem_singleton_self _)), w1, by rw [w2, k.1, k.2.2], ?_⟩
  · unfold findDesc
    rw [List.find?_eq_none]
    intro z hz
    have hm := l3 z hz
    rw [hd] at hm
    have := (List.mem_filter.mp hm).2
    simpa using this
  · rw [w3, k.2.1]
    unfold entryOf dOp dTag dField
    rw [hb, hi]
    rfl

theorem posted_congr {u y x : Units} {r : Nat} {d : Desc} {st r0 r1 : Nat} (h1 : (ring y r).cqTail = (ring u r).cqTail) (h2 : (ring y r).flip = (ring u r).flip)
    (h3 : cqBase y r = cqBase u r) (h : posted y x r d st r0 r1) : posted u x r d st r0 r1 := by
  unfold posted at *
  rwa [h1, h2, h3] at h

/-- The bits of a descriptor decide its entry. -/
theorem posted_bits {u x : Units} {r : Nat} {d e : Desc} {st r0 r1 : Nat} (hb : e.bits = d.bits) (hi : e.idx = d.idx) (h : posted u x r e st r0 r1) : posted u x r d st r0 r1 := by
  unfold posted entryOf dOp dTag dField at *
  rwa [hb, hi] at h

/-- A descriptor that has begun, and then completes. -/
theorem complete_begun {u : Units} {r : Nat} {d e : Desc} (st r0 r1 : Nat) (h : findDesc u r d.idx = some d) (hb : e.bits = d.bits) (hi : e.idx = d.idx) :
    posted u (complete (putDesc u r e) r d.idx st r0 r1) r d st r0 r1 := by
  have k : findDesc (putDesc u r e) r d.idx = some e := by rw [← hi]; exact findDesc_putDesc (by rw [hi]; exact h)
  refine posted_congr (y := putDesc u r e) ?_ ?_ (cqBase_congr (by rfl) (by rfl) r) (complete_posted st r0 r1 k hb)
  · unfold putDesc; dsimp only; rw [ring_setRing_same]
  · unfold putDesc; dsimp only; rw [ring_setRing_same]

theorem putDesc_keeps (u : Units) (r : Nat) (d : Desc) : NoticeOnly u (putDesc u r d) := .rings u _

section rows

variable {names : Desc → Bool} {bad : Units → Desc → Bool} {modes : List Mode} {start step : Ctl → Units → Nat → Desc → Units} {r : Nat} {c : Ctl} {u : Units} {d : Desc}

theorem descOp_start (h : handed c u r d) (hn : names d = true) (hb : bad u d = false) (hm : modes.contains c.mode = true) :
    descOp names bad modes start step r d.idx c u = start c (putDesc u r { d with begun := true }) r { d with begun := true } := by
  obtain ⟨h1, h2, h3, h4⟩ := h
  unfold descOp begun
  simp only [h1, hn, h2, h3, h4, hb, hm]
  simp

theorem descOp_bad (h : findDesc u r d.idx = some d ∧ d.begun = false ∧ mayBegin c u r d.idx = true) (hn : names d = true) (hb : reservedSet d = true ∨ bad u d = true) :
    descOp names bad modes start step r d.idx c u = complete u r d.idx 6 := by
  obtain ⟨h1, h2, h3⟩ := h
  unfold descOp
  simp only [h1, hn, h2, h3, show (reservedSet d || bad u d) = true from by simpa using hb]
  simp

theorem descOp_mode (h : handed c u r d) (hn : names d = true) (hb : bad u d = false) (hm : modes.contains c.mode = false) :
    descOp names bad modes start step r d.idx c u = complete u r d.idx 7 := by
  obtain ⟨h1, h2, h3, h4⟩ := h
  unfold descOp
  simp only [h1, hn, h2, h3, h4, hb, hm]
  simp

theorem descOp_step (h : started u r d) (hn : names d = true) : descOp names bad modes start step r d.idx c u = step c u r d := by
  obtain ⟨h1, h2, h3⟩ := h
  unfold descOp
  simp only [h1, hn, h2, h3]
  simp

end rows

theorem sliceCore_stg {b : Bool} {u x : Units} (h : sliceCore b x = sliceCore b u) : x.stg = u.stg := show (sliceCore b x).stg = (sliceCore b u).stg by rw [h]

theorem sliceCore_rings {b : Bool} {u x : Units} (h : sliceCore b x = sliceCore b u) : x.rings = u.rings := show (sliceCore b x).rings = (sliceCore b u).rings by rw [h]

theorem sliceCore_bankA {b : Bool} {u x : Units} (h : sliceCore b x = sliceCore b u) : x.regs.bankA = u.regs.bankA := show (sliceCore b x).regs.bankA = (sliceCore b u).regs.bankA by rw [h]

theorem sliceCore_bankB {b : Bool} {u x : Units} (h : sliceCore b x = sliceCore b u) : x.regs.bankB = u.regs.bankB := show (sliceCore b x).regs.bankB = (sliceCore b u).regs.bankB by rw [h]

theorem sliceCore_epoch {b : Bool} {u x : Units} (h : sliceCore b x = sliceCore b u) : x.regs.epoch = u.regs.epoch := show (sliceCore b x).regs.epoch = (sliceCore b u).regs.epoch by rw [h]

theorem cqBase_banks {u x : Units} (hv : x.v = u.v) (ha : x.regs.bankA = u.regs.bankA) (hb : x.regs.bankB = u.regs.bankB) (he : x.regs.epoch = u.regs.epoch) (r : Nat) :
    cqBase x r = cqBase u r := by
  unfold cqBase inF epF bankReg bankOf; rw [hv, ha, hb, he]

theorem resetDomain_pd (u : Units) (d : Nat) : (resetDomain u d).pd = u.pd := by
  unfold resetDomain
  dsimp only
  split
  · rfl
  · split
    · rfl
    · split <;> rfl

/-- Changes of the packets and of the network that carries them, which keep every packet there was. -/
def NetAdds (u x : Units) : Prop := ∃ net k tr, x = { u with net := net, nextPkt := k, transit := tr } ∧ ∀ y ∈ u.net, y ∈ net

theorem NetAdds.refl (u : Units) : NetAdds u u := ⟨u.net, u.nextPkt, u.transit, rfl, fun _ h => h⟩

theorem NetAdds.trans {u x y : Units} (h : NetAdds u x) (g : NetAdds x y) : NetAdds u y := by
  obtain ⟨a, b, c, rfl, h⟩ := h
  obtain ⟨d, e, f, rfl, g⟩ := g
  exact ⟨d, e, f, rfl, fun z hz => g z (h z hz)⟩

theorem sendPkt_adds (u : Units) (k : Pkt) : NetAdds u (sendPkt u k) := ⟨_, _, _, rfl, fun _ h => List.mem_append_left _ h⟩

theorem releaseTicket_keeps (u : Units) (i n : Nat) : NetAdds u (releaseTicket u i n) := by
  unfold releaseTicket
  split
  · exact .refl u
  · exact sendPkt_adds _ _

theorem advanceE_stg (u : Units) : (advanceE u).stg = { u.stg with e := (u.stg.e + 1) % 16, advanceWait := false, unacked := (List.range (nDdr u.v)).filter (fun s => inService u s), waiters := u.stg.waiters.map fun w => { w with age := w.age + 1 } } :=
  count_stg _ _

theorem epochLive_congr {u x : Units} (h : x.slices = u.slices) (hv : x.v = u.v) (n : Nat) : epochLive x n = epochLive u n := by
  unfold epochLive slice; rw [h, hv]

theorem inService_congr {u x : Units} (h : x.regs.cur = u.regs.cur) (hv : x.v = u.v) (n : Nat) : inService x n = inService u n := by
  unfold inService getF rawReg; rw [h, hv]

theorem check2_congr {u x : Units} (h1 : x.badCtx = u.badCtx) (h2 : x.ctxEven = u.ctxEven) (h3 : x.ctxOdd = u.ctxOdd) (hv : x.v = u.v) (e : Nat) (r : Req) : check2 x e r = check2 u e r := by
  unfold check2 ctxRec; rw [h1, h2, h3, hv]

theorem closePoint_does (u : Units) : ∃ h, (closePoint u).2 = { u with hng := h } := by
  unfold closePoint closeBlock
  dsimp only
  split
  · exact ⟨u.hng, rfl⟩
  · exact ⟨_, rfl⟩

theorem settleDescs_none {ops : List Nat} {c : Ctl} {u : Units} (h : ∀ x ∈ underWay u, ops.contains (dOp x.2) = false) : settleDescs ops c u = u := by
  unfold settleDescs
  split
  · rfl
  · rw [List.filter_eq_nil_iff.mpr fun x hx => by simpa using h x hx]; rfl

theorem journalCursor_none (u : Units) (l : List Nat) (h : ∀ i ∈ l, (tabGet u.hng.slots i).exposed = false) :
    (l.filter fun i => (tabGet u.hng.slots i).exposed).foldl journalCursor u = u := by
  rw [List.filter_eq_nil_iff.mpr fun i hi => by simp [h i hi]]; rfl

@[simp] theorem sliceCore_putShares (u : Units) : sliceCore true (putShares u) = sliceCore true u := by
  unfold putShares
  dsimp only
  apply sliceCore_foldl
  intro u a
  have k : ∀ n, sliceCore true (if (slice u a).share = n then u else returnWithheld a 128 (putShare u a n)) = sliceCore true u := by
    intro n
    split
    · rfl
    · rw [sliceCore_returnWithheld]; rfl
  exact k _

@[simp] theorem sliceCore_dropDestage (c : Ctl) (u : Units) (s : Nat) (j : Destage) : sliceCore true (dropDestage c u s j) = sliceCore true u := by
  unfold dropDestage
  rw [sliceCore_pumpSlice, sliceCore_giveUpJob]

theorem sliceCore_emptySet {b : Bool} (u : Units) (s n : Nat) (w : Nat → Nat → Bool) : sliceCore b (emptySet u s n w).2 = sliceCore b u := by
  unfold emptySet emptyIn
  dsimp only
  split
  · split
    · rfl
    · split
      · rfl
      · split
        · rfl
        · dsimp only; rw [sliceCore_writeHeader]; rfl
  · split
    · rfl
    · split
      · rfl
      · dsimp only; rw [sliceCore_wqPut]; rfl

theorem sliceCore_emptySlice (c : Ctl) (u : Units) (s : Nat) (f : Nat → Bool) (w : Nat → Nat → Bool) : sliceCore true (emptySlice c u s f w).2 = sliceCore true u := by
  unfold emptySlice
  dsimp only
  rw [sliceCore_foldl_snd _ fun p a => by dsimp only; exact sliceCore_emptySet _ _ _ _]
  dsimp only
  rw [sliceCore_foldl _ fun u j => sliceCore_dropDestage c u s j]
  rfl

/-- The units as a register write finds them. -/
def noted (s : State) : Units := { Machine.fresh s with pwr := { s.u.pwr with activeAt := s.u.now } }

theorem writeNamed_reaches {s : State} {r : Reg} {i v : Nat} (h : reaches s.ctl s.u r i) :
    onBoth s (writeNamed r i v) = .next { s with ctl := (regWrite s.ctl (noted s) r i 0 (v % 2 ^ 32)).1, u := present (regWrite s.ctl (noted s) r i 0 (v % 2 ^ 32)).2 (.regData 0) } := by
  obtain ⟨h1, h2, h3, h4, h5, h6, h7⟩ := h
  refine onBoth_next ?_
  have m : mustWait s.ctl (Machine.fresh s) (accessDomain r i) = false := by
    unfold mustWait
    simp [Machine.fresh, h5, h6, h4]
  unfold writeNamed
  rw [if_pos h1]
  unfold placeAccess
  rw [if_neg h3]
  simp only [placeDomain, m, Bool.false_eq_true, if_false, if_true]
  unfold driverAccess
  simp only [if_true]
  unfold writePlace
  simp only
  unfold instWrite
  rw [show (instExists _ r i 0 && pdOn _ (accessDomain r i)) = true from by
    rw [Bool.and_eq_true]; exact ⟨h2, h7⟩]
  rfl

theorem rawReg_noted (s : State) (r : Reg) (i j : Nat) : rawReg (noted s) r i j = rawReg s.u r i j := rfl

theorem getF_counts_present {u x : Units} (h : NoticeOnly u x) (f : Fld) (i j : Nat) (ha : regAddr f.reg i j < teleAddr) : getF x f i j = getF u f i j := h.getF f i j ha

theorem sendMsg_ring (u : Units) (v s : Nat) : (sendMsg u v s).rings.ring = u.rings.ring := by
  unfold sendMsg
  dsimp only
  split
  · rfl
  · rw [(count_only _ _).rings]

theorem ring_count (u : Units) (n r : Nat) : ring (count u n) r = ring u r := ring_congr (by rw [(count_only _ _).rings]) r

theorem takeArrived_one (u : Units) (r i : Nat) (bits : BitVec 512) (n : Nat) (A : Machine.Ring) (f : A.fetching = [i]) (a : A.arrived = [(i, bits)]) :
    takeArrived r (n + 1) (setRing u r A) = takeArrived r n (joinDesc (setRing (setRing u r A) r { A with fetching := [], arrived := [] }) r i bits) := by
  show (match (ring (setRing u r A) r).fetching with | [] => _ | j :: rest => _) = _
  rw [ring_setRing_same]
  simp only [f, a, List.find?_cons, beq_self_eq_true, bne_self_eq_false, List.filter_cons, Bool.false_eq_true, if_false, List.filter_nil]

theorem mem_queueMsg (ms : List Word) (m : Word) : m ∈ queueMsg ms m := by
  unfold queueMsg
  split
  · next h =>
    obtain ⟨x, hx, he⟩ := List.any_eq_true.mp h.2
    exact List.mem_map.mpr ⟨x, hx, if_pos (by simpa using he)⟩
  · exact List.mem_append_right _ (List.mem_singleton_self _)

theorem sendMsg_sent {u : Units} {v s : Nat} (h : unmasked u v) :
    BitVec.ofNat 32 (v + s * 256) ∈ (sendMsg u v s).rings.msgs ∧ (sendMsg u v s).rings.ring = u.rings.ring ∧ (sendMsg u v s).rings.writes = u.rings.writes ∧ (sendMsg u v s).rings.heldMsgs = u.rings.heldMsgs := by
  unfold sendMsg
  dsimp only
  rw [if_neg (by rw [show nbits _ _ _ = 0 from h]; decide), (count_only _ _).rings]
  exact ⟨mem_queueMsg _ _, rfl, rfl, rfl⟩

theorem sendIrq_does {u : Units} {r : Nat} (hr : r < 64) (h : unmasked u (irqVector u r)) :
    BitVec.ofNat 32 (irqVector u r + r * 256) ∈ (sendIrq u r).rings.msgs ∧ (ring (sendIrq u r) r).pend = 0 ∧ (sendIrq u r).rings.writes = u.rings.writes ∧
    ring (sendIrq u r) r = { ring u r with pend := 0, due := (ring u r).due } := by
  have hne : r ≠ 64 := by omega
  have e : putPend u r 0 (dueOf u r) = setRing u r { ring u r with pend := 0, due := (ring u r).due } := by
    unfold putPend dueOf; rw [if_neg hne, if_neg hne]
  have k := sendMsg_sent (u := putPend u r 0 (dueOf u r)) (v := irqVector u r) (s := r) (by rw [e]; exact h)
  unfold sendIrq
  refine ⟨k.1, ?_, k.2.2.1.trans (by rw [e]; rfl), ?_⟩
  · rw [ring_congr k.2.1, e, ring_setRing_same]
  · rw [ring_congr k.2.1, e, ring_setRing_same]

theorem takeWrite_front {u : Units} {w : RingWrite} {rest : List RingWrite} {r : Nat} (h : u.rings.writes = w :: rest) (hw : w.ring = r) (hl : rest.length < 64) :
    takeWrite u r = some (w, { u with rings := { u.rings with writes := rest } }) := by
  unfold takeWrite
  rw [h]
  have : List.find? (fun x => x.ring == r) (List.take 64 (w :: rest)) = some w := by
    rw [show (64 : Nat) = 63 + 1 from rfl, List.take_succ_cons, List.find?_cons]
    simp [hw]
  rw [this]
  dsimp only
  rw [show (w :: rest)[64]? = none from by rw [List.getElem?_eq_none]; simp; omega, List.erase_cons_head]

theorem issueWrite_reads (u : Units) (w : RingWrite) : (issueWrite u w).rings.reads = u.rings.reads := by
  unfold issueWrite
  dsimp only
  split <;> rfl

theorem writeEntry_ring (u : Units) (r : Nat) (d : Desc) (st r0 r1 : Nat) (l : List Nat) :
    ∃ y : Nat × Bool, ring (writeEntry u r d st r0 r1 l) r = { ring u r with cqTail := y.1, flip := y.2, cqUsed := (ring u r).cqUsed + 1, descs := (ring u r).descs.filter fun z => !l.contains z.idx } ∧
    (writeEntry u r d st r0 r1 l).rings.reads = u.rings.reads := by
  unfold writeEntry
  dsimp only
  refine ⟨(if (ring u r).cqTail + 1 = cqSize u r then 0 else (ring u r).cqTail + 1, if (ring u r).cqTail + 1 = cqSize u r then !(ring u r).flip else (ring u r).flip), ?_, ?_⟩
  · rw [ring_written, ring_setRing_same]
  · rw [(count_only _ _).rings, issueWrite_reads]
    rfl

theorem ordinary_write {c : Ctl} {u : Units} {r : Reg} {i j v : Nat} (h : ordinary r = true) : regWrite c u r i j v = (c, codeWrite c u r i j v) := by
  cases r <;> first | rfl | exact absurd h (by decide)

theorem nbits_one (x k : Nat) : (nbits x k 1 == 1) = x.testBit k := by
  unfold nbits
  rw [Nat.testBit, Nat.shiftRight_eq_div_pow]
  have := Nat.mod_lt (x / 2 ^ k) (by decide : 0 < 2)
  rw [Nat.pow_one, Nat.and_comm, Nat.and_one_is_mod]
  rcases Nat.mod_two_eq_zero_or_one (x / 2 ^ k) with h | h <;> rw [h] <;> rfl

theorem codeWrite_bits (c : Ctl) (u : Units) (r : Reg) (i j v b : Nat) (hb : b < 32) :
    (rawReg (codeWrite c u r i j v) r i j).testBit b = if (plainBits c r).testBit b then v.testBit b else (rawReg u r i j).testBit b && !(v.testBit b && (r.info.w1c).testBit b) := by
  have k : ∀ x : Units, rawReg (if r.info.rws = 0 then x else { putStaged x r i j ((stagedReg x r i j ^^^ (stagedReg x r i j &&& r.info.rws)) ||| (v &&& r.info.rws)) with
      regs := { (putStaged x r i j ((stagedReg x r i j ^^^ (stagedReg x r i j &&& r.info.rws)) ||| (v &&& r.info.rws))).regs with pending := true } }) r i j = rawReg x r i j := by
    intro x; split <;> rfl
  unfold codeWrite
  dsimp only
  rw [k]
  split
  · next h =>
    rw [h.1, h.2]
    simp
  · rw [rawReg_putReg_same, Nat.testBit_mod_two_pow]
    simp only [hb, decide_true, Bool.true_and, Nat.testBit_or, Nat.testBit_xor, Nat.testBit_and]
    cases (plainBits c r).testBit b <;> cases v.testBit b <;> cases (rawReg u r i j).testBit b <;> cases (r.info.w1c).testBit b <;> rfl

theorem plainBits_bit (c : Ctl) (r : Reg) (b : Nat) : (plainBits c r).testBit b = ((r.info.rw).testBit b || ((r.info.rwb).testBit b && nbits c.bolts.toNat r.info.group 1 == 0)) := by
  unfold plainBits
  dsimp only
  rw [Nat.testBit_or]
  split
  · next h => rw [h]; simp
  · next h =>
    have : nbits c.bolts.toNat r.info.group 1 = 0 := by
      have := nbits_lt c.bolts.toNat r.info.group 1
      omega
    rw [this]; simp

/-- A write of the driver that reaches its register through an address. -/

theorem access_write {s : State} {r : Reg} {i addr v : Nat} (h : reaches s.ctl s.u r i) (ha : regPlaceOf addr = .reg r i 0 false) :
    onBoth s (accessOp true false addr v) = .next { s with ctl := (regWrite s.ctl (noted s) r i 0 (v % 2 ^ 32)).1, u := present (regWrite s.ctl (noted s) r i 0 (v % 2 ^ 32)).2 (.regData 0) } := by
  obtain ⟨h1, h2, h3, h4, h5, h6, h7⟩ := h
  refine onBoth_next ?_
  have m : mustWait s.ctl (Machine.fresh s) (accessDomain r i) = false := by
    unfold mustWait
    simp [Machine.fresh, h5, h6, h4]
  unfold accessOp placeAccess
  rw [if_neg h3, ha]
  simp only [placeDomain, m, Bool.false_eq_true, if_false, if_true]
  unfold driverAccess
  simp only [if_true]
  unfold writePlace
  simp only
  unfold instWrite
  rw [show (instExists _ r i 0 && pdOn _ (accessDomain r i)) = true from by
    rw [Bool.and_eq_true]; exact ⟨h2, h7⟩]
  rfl

theorem nput_bit (x k v b : Nat) : (nput x k 1 v).testBit b = if b = k then v.testBit 0 else x.testBit b := by
  by_cases h : b = k
  · rw [if_pos h, ← nbits_one, h, nbits_nput_same, ← nbits_one]
    unfold nbits
    simp
  · rw [if_neg h, ← nbits_one, ← nbits_one]
    rcases Nat.lt_or_gt_of_ne h with h | h
    · rw [nbits_nput_below (by omega)]
    · rw [nbits_nput_above (by omega)]

theorem open_through {s : State} (h : portOpen s.ctl s.u) (d : Nat) : mustWait s.ctl (Machine.fresh s) d = false := by
  obtain ⟨h1, h2, h3, h4⟩ := h
  unfold mustWait
  simp [Machine.fresh, h2, h3, h4]

theorem packF_nil : packF [] = 0 := rfl

theorem packF_cons (f : Fld) (x : Nat) (l : List (Fld × Nat)) : packF ((f, x) :: l) = x % 2 ^ f.w * 2 ^ f.lo + packF l := by
  unfold packF; rw [List.map_cons, List.sum_cons]

theorem nbits_packU (w a : Nat) (hw : w < 2) : nbits (packF [(F.GLB_UNMAPPED_write, w), (F.GLB_UNMAPPED_addr, a), (F.GLB_UNMAPPED_valid, 1)] % 2 ^ 32) 31 1 = 1 ∧
    nbits (packF [(F.GLB_UNMAPPED_write, w), (F.GLB_UNMAPPED_addr, a), (F.GLB_UNMAPPED_valid, 1)] % 2 ^ 32) 0 1 = w ∧
    nbits (packF [(F.GLB_UNMAPPED_write, w), (F.GLB_UNMAPPED_addr, a), (F.GLB_UNMAPPED_valid, 1)] % 2 ^ 32) 2 24 = a % 2 ^ 24 := by
  have e : packF [(F.GLB_UNMAPPED_write, w), (F.GLB_UNMAPPED_addr, a), (F.GLB_UNMAPPED_valid, 1)] = w + a % 16777216 * 4 + 2147483648 := by
    have h1 : F.GLB_UNMAPPED_write.w = 1 ∧ F.GLB_UNMAPPED_write.lo = 0 ∧ F.GLB_UNMAPPED_addr.w = 24 ∧ F.GLB_UNMAPPED_addr.lo = 2 ∧ F.GLB_UNMAPPED_valid.w = 1 ∧ F.GLB_UNMAPPED_valid.lo = 31 :=
      ⟨rfl, rfl, rfl, rfl, rfl, rfl⟩
    obtain ⟨e1, e2, e3, e4, e5, e6⟩ := h1
    rw [packF_cons, packF_cons, packF_cons, packF_nil, e1, e2, e3, e4, e5, e6]
    norm_num
    omega
  rw [e]
  unfold nbits
  simp only [Nat.reducePow]
  omega

theorem unmappedAt_does (u : Units) (w : Bool) (a : Nat) (h : getF u F.GLB_UNMAPPED_valid = 0) :
    getF (unmappedAt u w a) F.GLB_ERR_unmapped = 1 ∧ getF (unmappedAt u w a) F.GLB_UNMAPPED_valid = 1 ∧ getF (unmappedAt u w a) F.GLB_UNMAPPED_write = (if w then 1 else 0) ∧
    getF (unmappedAt u w a) F.GLB_UNMAPPED_addr = a / 4 % 2 ^ 24 := by
  have hf : getF (flag u F.GLB_ERR_unmapped) F.GLB_UNMAPPED_valid = 0 := by
    unfold flag; rw [getF_putF_other (by decide)]; exact h
  have e : unmappedAt u w a = putReg (flag u F.GLB_ERR_unmapped) .GLB_UNMAPPED 0 0 (packF [(F.GLB_UNMAPPED_write, bit w), (F.GLB_UNMAPPED_addr, a / 4), (F.GLB_UNMAPPED_valid, 1)]) := by
    unfold unmappedAt
    dsimp only
    exact if_neg (by rw [hf]; decide)
  have k := nbits_packU (bit w) (a / 4) (by cases w <;> decide)
  rw [e]
  refine ⟨?_, ?_, ?_, ?_⟩
  · show nbits (rawReg (putReg (flag u F.GLB_ERR_unmapped) .GLB_UNMAPPED 0 0 _) .GLB_ERR 0 0) _ _ = 1
    rw [rawReg_putReg_other (by decide)]
    exact getF_flag_same _ _ _ _ (by decide) (by decide)
  · show nbits (rawReg _ .GLB_UNMAPPED 0 0) 31 1 = 1
    rw [rawReg_putReg_same]; exact k.1
  · show nbits (rawReg _ .GLB_UNMAPPED 0 0) 0 1 = _
    rw [rawReg_putReg_same]; exact k.2.1
  · show nbits (rawReg _ .GLB_UNMAPPED 0 0) 2 24 = _
    rw [rawReg_putReg_same]; exact k.2.2

theorem denyUser_on {u : Units} {w : Bool} (h : pdOn u 5 = true) : denyUser u w = flag (if w then u else endCapture u true) F.TELE_ERR_user_denied := by
  cases w
  · exact if_pos h
  · exact if_pos h

theorem rawReg_same {u x : Units} (h : x.regs.cur = u.regs.cur) (hv : x.v = u.v) (r : Reg) : rawReg x r 0 0 = rawReg u r 0 0 := by unfold rawReg; rw [h, hv]

/-- The six registers that CTX_CMD fills. -/
def ctxCopy (u : Units) (a b c d e n : Nat) : Units :=
  putReg (putReg (putReg (putReg (putReg (putReg u .CTX_DATA_0 0 0 a) .CTX_DATA_1 0 0 b) .CTX_DATA_2 0 0 c) .CTX_DATA_3 0 0 d) .CTX_DATA_4 0 0 e) .CTX_WRCNT 0 0 n

theorem ctxCopy_data (u : Units) (a b c d e n : Nat) : rawReg (ctxCopy u a b c d e n) .CTX_DATA_0 0 0 = a % 2 ^ 32 ∧ rawReg (ctxCopy u a b c d e n) .CTX_DATA_1 0 0 = b % 2 ^ 32 ∧
    rawReg (ctxCopy u a b c d e n) .CTX_DATA_2 0 0 = c % 2 ^ 32 ∧ rawReg (ctxCopy u a b c d e n) .CTX_DATA_3 0 0 = d % 2 ^ 32 ∧ rawReg (ctxCopy u a b c d e n) .CTX_DATA_4 0 0 = e % 2 ^ 32 := by
  unfold ctxCopy
  refine ⟨?_, ?_, ?_, ?_, ?_⟩
  · rw [rawReg_putReg_other (by decide), rawReg_putReg_other (by decide), rawReg_putReg_other (by decide), rawReg_putReg_other (by decide), rawReg_putReg_other (by decide), rawReg_putReg_same]
  · rw [rawReg_putReg_other (by decide), rawReg_putReg_other (by decide), rawReg_putReg_other (by decide), rawReg_putReg_other (by decide), rawReg_putReg_same]
  · rw [rawReg_putReg_other (by decide), rawReg_putReg_other (by decide), rawReg_putReg_other (by decide), rawReg_putReg_same]
  · rw [rawReg_putReg_other (by decide), rawReg_putReg_other (by decide), rawReg_putReg_same]
  · rw [rawReg_putReg_other (by decide), rawReg_putReg_same]

theorem reopen_acts (s : State) (p : Nat) (hr : reaches s.ctl s.u .PORT_n_CTRL p) (hs : (port s.u p).state = 2) (hi : (port s.u p).ingress = .idle) (hc : clusterStill s.u (p / 8)) :
      ((port s.u p).reqs ≠ [] → ∃ t, exec (.reopen p) s = .next t ∧ (port t.u p).state = 3 ∧ (port t.u p).reopen = true ∧ (port t.u p).reqs = (port s.u p).reqs ∧ .ready p false ∈ t.u.out) ∧
      ((port s.u p).reqs = [] → inF s.u F.PORT_n_CFG_enable p = 1 → s.ctl.mode = .run → ∃ t, exec (.reopen p) s = .next t ∧ (port t.u p).state = 1 ∧ (port t.u p).next = 0 ∧ .ready p false ∈ t.u.out) := by
  have eq := writeNamed_reaches (v := 1) hr
  obtain ⟨u1, h1⟩ : ∃ u1 : Units, u1 = present (setPort (noted s) p { port (noted s) p with state := 3, reopen := true, hdrCred := tabNil, dataCred := tabNil, hdrHold := tabNil, dataHold := tabNil }) (.ready p false) := ⟨_, rfl⟩
  have p1 : port u1 p = { port s.u p with state := 3, reopen := true, hdrCred := tabNil, dataCred := tabNil, hdrHold := tabNil, dataHold := tabNil } := by
    rw [h1]; exact tabGet_put_same _ _ _
  have rw1 : regWrite s.ctl (noted s) .PORT_n_CTRL p 0 (1 % 2 ^ 32) = (s.ctl, pump s.ctl (portMayClose s.ctl u1 p) p) := by
    show (s.ctl, pump s.ctl (portClosing s.ctl (noted s) p true) p) = _
    congr 2
    unfold portClosing
    dsimp only
    rw [if_pos (show (port (noted s) p).state = 1 ∨ (port (noted s) p).state = 2 from .inr hs)]
    congr 1
    have : (port u1 p).ingress = .idle := by rw [p1]; exact hi
    rw [show present _ _ = u1 from h1.symm]
    unfold makeShort
    rw [this]
  rw [rw1] at eq
  have still : ∀ y : Units, (∀ q, q ≠ p → port y q = port s.u q) → (port y p).reqs = (port s.u p).reqs → clusterStill y (p / 8) := by
    intro y hy hyp i hi8 r hrm
    by_cases hq : p / 8 * 8 + i = p
    · rw [hq, hyp] at hrm
      exact hc i hi8 r (by rw [hq]; exact hrm)
    · rw [hy _ hq] at hrm
      exact hc i hi8 r hrm
  have o1 : ∀ q, q ≠ p → port u1 q = port s.u q := fun q hq => by rw [h1]; exact tabGet_put_other hq _ _
  refine ⟨fun hrq => ?_, fun hrq hen hrun => ?_⟩
  · have e : portMayClose s.ctl u1 p = u1 := by
      unfold portMayClose
      dsimp only
      exact if_neg (by rw [p1]; exact fun h => hrq h.2)
    rw [e, pump_still _ _ _ (still u1 o1 (by rw [p1]))] at eq
    refine ⟨_, (exec_reopen p s).trans eq, ?_⟩
    show (port u1 p).state = 3 ∧ (port u1 p).reopen = true ∧ (port u1 p).reqs = _ ∧ _ ∈ (u1.out ++ [_])
    rw [p1]
    exact ⟨rfl, rfl, rfl, List.mem_append_left _ (by rw [h1]; exact List.mem_append_right _ (List.mem_singleton_self _))⟩
  · obtain ⟨u2, h2⟩ : ∃ u2 : Units, u2 = setPort (ldgRestart u1 p) p { port u1 p with state := 1, reopen := false, next := 0, accepted := 0, done := 0, ingress := .idle } := ⟨_, rfl⟩
    have p2 : port u2 p = { port u1 p with state := 1, reopen := false, next := 0, accepted := 0, done := 0, ingress := .idle } := by rw [h2]; exact tabGet_put_same _ _ _
    have o2 : ∀ q, q ≠ p → port u2 q = port s.u q := fun q hq => by
      rw [h2]
      exact (tabGet_put_other hq _ _).trans (o1 q hq)
    have e : portMayClose s.ctl u1 p = u2 := by
      unfold portMayClose
      dsimp only
      rw [if_pos (by rw [p1]; exact ⟨rfl, hrq⟩), if_pos (by rw [p1]; exact ⟨rfl, by rw [h1]; exact hen, hrun⟩), h2]
    rw [e, pump_still _ _ _ (still u2 o2 (by rw [p2, p1]))] at eq
    refine ⟨_, (exec_reopen p s).trans eq, ?_⟩
    show (port u2 p).state = 1 ∧ (port u2 p).next = 0 ∧ _ ∈ (u2.out ++ [_])
    rw [p2]
    exact ⟨rfl, rfl, List.mem_append_left _ (by rw [h2]; show _ ∈ u1.out; rw [h1]; exact List.mem_append_right _ (List.mem_singleton_self _))⟩

/-- The record that CTX_IDX selects, with its map and sequence in place. -/
def shownRecord (u : Units) (h : Nat) : Nat := nput (nput (ctxRec u u.regs.epoch h).toNat 109 8 (owcMap u h)) 117 16 (tabGet u.flushSeq h)

theorem ctxReadOp_does (u : Units) : ∃ n, ctxReadOp u = { ctxCopy u (nbits (shownRecord u (getF u F.CTX_IDX_handle)) 0 32) (nbits (shownRecord u (getF u F.CTX_IDX_handle)) 32 32)
    (nbits (shownRecord u (getF u F.CTX_IDX_handle)) 64 32) (nbits (shownRecord u (getF u F.CTX_IDX_handle)) 96 32) (nbits (shownRecord u (getF u F.CTX_IDX_handle)) 128 32) n with ctxRead := some (getF u F.CTX_IDX_handle) } := by
  refine ⟨((List.range (nClusters u.v)).map fun k => shareOf u k (getF u F.CTX_IDX_handle)).sum, ?_⟩
  unfold ctxReadOp
  dsimp only
  rw [show nput (nput (ctxRec u u.regs.epoch (getF u F.CTX_IDX_handle)).toNat 109 8 (owcMap u (getF u F.CTX_IDX_handle))) 117 16 (tabGet u.flushSeq (getF u F.CTX_IDX_handle)) = shownRecord u (getF u F.CTX_IDX_handle) from rfl]
  generalize shownRecord u (getF u F.CTX_IDX_handle) = x
  rfl

theorem shownRecord_noted (s : State) (h : Nat) : shownRecord (noted s) h = shownRecord s.u h := by
  have h1 : ctxRec (noted s) (noted s).regs.epoch h = ctxRec s.u s.u.regs.epoch h := rfl
  have h2 : owcMap (noted s) h = owcMap s.u h := rfl
  have h3 : (noted s).flushSeq = s.u.flushSeq := rfl
  unfold shownRecord
  rw [h1, h2, h3]

theorem ctxCopy_shown (u : Units) (x n : Nat) (h : Option Nat) (o : Out) : let y := present { ctxCopy u (nbits x 0 32) (nbits x 32 32) (nbits x 64 32) (nbits x 96 32) (nbits x 128 32) n with ctxRead := h } o
    rawReg y .CTX_DATA_0 = nbits x 0 32 ∧ rawReg y .CTX_DATA_1 = nbits x 32 32 ∧ rawReg y .CTX_DATA_2 = nbits x 64 32 ∧ rawReg y .CTX_DATA_3 = nbits x 96 32 ∧ rawReg y .CTX_DATA_4 = nbits x 128 32 := by
  intro y
  have m : ∀ lo, nbits x lo 32 % 2 ^ 32 = nbits x lo 32 := fun lo => Nat.mod_eq_of_lt (nbits_lt x lo 32)
  have k := ctxCopy_data u (nbits x 0 32) (nbits x 32 32) (nbits x 64 32) (nbits x 96 32) (nbits x 128 32) n
  have q : ∀ r, rawReg y r 0 0 = rawReg (ctxCopy u (nbits x 0 32) (nbits x 32 32) (nbits x 64 32) (nbits x 96 32) (nbits x 128 32) n) r 0 0 := fun r => rawReg_same rfl rfl r
  exact ⟨(q _).trans (k.1.trans (m _)), (q _).trans (k.2.1.trans (m _)), (q _).trans (k.2.2.1.trans (m _)), (q _).trans (k.2.2.2.1.trans (m _)), (q _).trans (k.2.2.2.2.trans (m _))⟩

theorem ctxCmd_acts (s : State) (hr : reaches s.ctl s.u .CTX_CMD 0) : ∃ t, exec .ctxCmdRead s = .next t ∧
    (rawReg t.u .CTX_DATA_0 = nbits (shownRecord s.u (getF s.u F.CTX_IDX_handle)) 0 32 ∧ rawReg t.u .CTX_DATA_1 = nbits (shownRecord s.u (getF s.u F.CTX_IDX_handle)) 32 32 ∧
    rawReg t.u .CTX_DATA_2 = nbits (shownRecord s.u (getF s.u F.CTX_IDX_handle)) 64 32 ∧ rawReg t.u .CTX_DATA_3 = nbits (shownRecord s.u (getF s.u F.CTX_IDX_handle)) 96 32 ∧
    rawReg t.u .CTX_DATA_4 = nbits (shownRecord s.u (getF s.u F.CTX_IDX_handle)) 128 32) ∧ t.u.ctxRead = some (getF s.u F.CTX_IDX_handle) := by
  have eq := writeNamed_reaches (v := 1) hr
  have rw1 : regWrite s.ctl (noted s) .CTX_CMD 0 0 (1 % 2 ^ 32) = (s.ctl, ctxReadOp (noted s)) := rfl
  obtain ⟨n, hn⟩ := ctxReadOp_does (noted s)
  have hg : getF (noted s) F.CTX_IDX_handle = getF s.u F.CTX_IDX_handle := rfl
  rw [rw1, hn, hg, shownRecord_noted] at eq
  exact ⟨_, (exec_ctxCmdRead s).trans eq, ctxCopy_shown _ _ _ _ _, rfl⟩

/-- The entry that HNG_IDX selects. -/
def shownEntry (u : Units) : Nat :=
  if getF u F.HNG_IDX_table = 0 then (if getF u F.HNG_IDX_index < nRegions u.v then hingeEntry u (getF u F.HNG_IDX_index) else 0)
  else if getF u F.HNG_IDX_index < nPhys u.v then pipEntry u (getF u F.HNG_IDX_index) else 0

theorem hingeReadOp_does (u : Units) : hingeReadOp u = putReg (putReg u .HNG_DATA_0 0 0 (shownEntry u % 2 ^ 32)) .HNG_DATA_1 0 0 (shownEntry u / 2 ^ 32) := by
  unfold hingeReadOp shownEntry; rfl

theorem shownEntry_noted (s : State) : shownEntry (noted s) = shownEntry s.u := by
  have h1 : ∀ f, getF (noted s) f = getF s.u f := fun _ => rfl
  have h2 : (noted s).v = s.u.v := rfl
  have h3 : ∀ l, hingeEntry (noted s) l = hingeEntry s.u l := fun _ => rfl
  have h4 : ∀ l, pipEntry (noted s) l = pipEntry s.u l := fun _ => rfl
  unfold shownEntry
  simp only [h1, h2, h3, h4]

theorem hngData (u : Units) (e : Nat) (o : Out) : rawReg (present (putReg (putReg u .HNG_DATA_0 0 0 (e % 2 ^ 32)) .HNG_DATA_1 0 0 (e / 2 ^ 32)) o) .HNG_DATA_0 0 0 = e % 2 ^ 32 ∧
    rawReg (present (putReg (putReg u .HNG_DATA_0 0 0 (e % 2 ^ 32)) .HNG_DATA_1 0 0 (e / 2 ^ 32)) o) .HNG_DATA_1 0 0 = e / 2 ^ 32 % 2 ^ 32 := by
  have q : ∀ (y : Units) r, rawReg (present y o) r 0 0 = rawReg y r 0 0 := fun y r => rawReg_same rfl rfl r
  refine ⟨(q _ _).trans ?_, (q _ _).trans (rawReg_putReg_same _ _ _ _ _)⟩
  rw [rawReg_putReg_other (by decide), rawReg_putReg_same]
  exact Nat.mod_mod _ _

theorem hngCmd_acts (s : State) (hr : reaches s.ctl s.u .HNG_CMD 0) : ∃ t, exec .hngCmdRead s = .next t ∧ rawReg t.u .HNG_DATA_0 = shownEntry s.u % 2 ^ 32 ∧ rawReg t.u .HNG_DATA_1 = shownEntry s.u / 2 ^ 32 % 2 ^ 32 := by
  have eq := writeNamed_reaches (v := 1) hr
  have rw1 : regWrite s.ctl (noted s) .HNG_CMD 0 0 (1 % 2 ^ 32) = (s.ctl, hingeReadOp (noted s)) := rfl
  rw [rw1, hingeReadOp_does, shownEntry_noted] at eq
  exact ⟨_, (exec_hngCmdRead s).trans eq, hngData _ _ _⟩

theorem fence_up (u : Units) (d : Nat) : fenced (setFence u d true) d = true := by
  unfold fenced setFence; simp

theorem unitReset_begins {c : Ctl} {u : Units} (v : Nat) (hm : c.mode = .run ∨ c.mode = .service) (hu : u.pwr.unitResets = []) (d : Nat)
    (hw : ((if nbits v 1 1 = 1 then [(4, 0)] else []) ++ (if nbits v 0 1 = 1 then [(5, 0)] else []) : List (Nat × Nat)) = [(d, 0)]) :
    unitResetWrite c u v = unitResetGo c 3 { u with pwr := { u.pwr with unitResets := [(d, 0)] } } := by
  unfold unitResetWrite
  dsimp only
  rw [hw, if_neg (by simp), if_neg (by rw [hu]; simp only [ne_eq, not_true_eq_false, or_false, not_not]; exact hm)]

theorem unitReset_tele {c : Ctl} {u : Units} (hm : c.mode = .run ∨ c.mode = .service) (hu : u.pwr.unitResets = []) (ha : u.audit = none) (hq : unitQuiet u 5 = true) :
    pdState (unitResetWrite c u 1) 5 = 0 ∧ fenced (unitResetWrite c u 1) 5 = true ∧ (unitResetWrite c u 1).pwr.unitResets = [(5, u.now + 1)] := by
  rw [unitReset_begins 1 hm hu 5 (by decide)]
  obtain ⟨y, hy⟩ : ∃ y : Units, y = setFence { u with pwr := { u.pwr with unitResets := [(5, 0)] } } 5 true := ⟨_, rfl⟩
  have e : unitResetGo c 3 { u with pwr := { u.pwr with unitResets := [(5, 0)] } } = { enterUnitReset c y 5 with pwr := { (enterUnitReset c y 5).pwr with unitResets := [(5, y.now + 1)] } } := by
    rw [unitResetGo]
    dsimp only
    rw [if_pos rfl, if_neg (by rw [ha]; simp), ← hy, if_pos (by rw [hy]; exact hq)]
  rw [e]
  refine ⟨?_, ?_, ?_⟩
  · show pdState (setPd (resetTele y) 5 0) 5 = 0
    unfold pdState setPd
    simp only [Nat.reduceEqDiff, if_false]
    exact tabGet_put_same _ _ _
  · show fenced (setPd (resetTele y) 5 0) 5 = true
    rw [hy]
    exact fence_up _ 5
  · rw [hy]; rfl

theorem unitReset_quiet {c : Ctl} {u : Units} (hm : c.mode = .run ∨ c.mode = .service) (hu : u.pwr.unitResets = []) (hq : unitQuiet u 4 = true) :
    pdState (unitResetWrite c u 2) 4 = 0 := by
  rw [unitReset_begins 2 hm hu 4 (by decide)]
  obtain ⟨y, hy⟩ : ∃ y : Units, y = setFence { u with pwr := { u.pwr with unitResets := [(4, 0)] } } 4 true := ⟨_, rfl⟩
  have e : unitResetGo c 3 { u with pwr := { u.pwr with unitResets := [(4, 0)] } } = { enterUnitReset c y 4 with pwr := { (enterUnitReset c y 4).pwr with unitResets := [(4, y.now + 1)] } } := by
    rw [unitResetGo]
    dsimp only
    rw [if_pos rfl, if_neg (by simp), ← hy, if_pos (by rw [hy]; exact hq)]
  rw [e]
  show pdState (enterUnitReset c y 4) 4 = 0
  unfold enterUnitReset pdState setPd
  simp only [OfNat.ofNat_ne_zero, if_false]
  exact tabGet_put_same _ _ _

theorem unitReset_waits {c : Ctl} {u : Units} (hm : c.mode = .run ∨ c.mode = .service) (hu : u.pwr.unitResets = []) (hq : unitQuiet u 4 = false) :
    unitResetWrite c u 2 = setFence { u with pwr := { u.pwr with unitResets := [(4, 0)] } } 4 true := by
  rw [unitReset_begins 2 hm hu 4 (by decide)]
  rw [unitResetGo]
  dsimp only
  rw [if_pos rfl, if_neg (by simp)]
  exact if_neg (show ¬ unitQuiet u 4 = true from by rw [hq]; decide)

end Sys2Proof.Machine
end

