-- ==== Sys2Proof/Laws/Descs.lean ====
section
/-! SUPPORT. What descriptors of tests, patches, contexts and keys do to the state. -/

namespace Sys2Proof.Machine

theorem posted_of {u y : Units} {r : Nat} {d : Desc} (st r0 r1 : Nat) (hr : y.rings.ring = u.rings.ring) (hb : cqBase y r = cqBase u r) (h : findDesc u r d.idx = some d) :
    posted u (complete y r d.idx st r0 r1) r d st r0 r1 :=
  posted_congr (by rw [ring_congr hr]) (by rw [ring_congr hr]) hb (complete_posted st r0 r1 (by unfold findDesc; rw [ring_congr hr]; exact h) rfl)

theorem posted_begun {u y : Units} {r : Nat} {d e : Desc} (st r0 r1 : Nat) (hr : y.rings.ring = (putDesc u r e).rings.ring) (hb : cqBase y r = cqBase u r)
    (h : findDesc u r d.idx = some d) (he : e.bits = d.bits) (hi : e.idx = d.idx) : posted u (complete y r d.idx st r0 r1) r d st r0 r1 := by
  have k : findDesc (putDesc u r e) r d.idx = some e := by rw [← hi]; exact findDesc_putDesc (by rw [hi]; exact h)
  have c : (ring (putDesc u r e) r).cqTail = (ring u r).cqTail ∧ (ring (putDesc u r e) r).flip = (ring u r).flip := by
    unfold putDesc; dsimp only; rw [ring_setRing_same]; exact ⟨rfl, rfl⟩
  exact posted_congr (by rw [ring_congr hr, c.1]) (by rw [ring_congr hr, c.2]) hb (complete_posted st r0 r1 (by unfold findDesc; rw [ring_congr hr]; exact k) he)

theorem handed_fresh {s : State} {r : Nat} {d : Desc} (h : handed s.ctl s.u r d) : handed s.ctl (Machine.fresh s) r d := h

theorem started_fresh {s : State} {r : Nat} {d : Desc} (h : started s.u r d) : started (Machine.fresh s) r d := h

/-- What a completion leaves of everything else. -/

theorem complete_slices (u : Units) (r i st r0 r1 : Nat) : (complete u r i st r0 r1).slices = u.slices := (complete_keeps u r i st r0 r1).slices

theorem setSub_keeps (u : Units) (k n : Nat) (y : Sub) : (setSub u k n y).slices = u.slices ∧ (setSub u k n y).rings = u.rings ∧ (setSub u k n y).regs = u.regs ∧ (setSub u k n y).v = u.v ∧ (setSub u k n y).media = u.media ∧ (setSub u k n y).stg = u.stg := by
  unfold setSub; split <;> exact ⟨rfl, rfl, rfl, rfl, rfl, rfl⟩

/-! ### Changes that leave the rings alone -/

/-- The rings, the variant and the banks of the configuration are as they were. -/
structure RingsKept (u y : Units) : Prop where
  rings : y.rings = u.rings
  v : y.v = u.v
  bankA : y.regs.bankA = u.regs.bankA
  bankB : y.regs.bankB = u.regs.bankB
  epoch : y.regs.epoch = u.regs.epoch

theorem RingsKept.refl (u : Units) : RingsKept u u := ⟨rfl, rfl, rfl, rfl, rfl⟩

theorem RingsKept.trans {u x y : Units} (h : RingsKept u x) (g : RingsKept x y) : RingsKept u y :=
  ⟨g.rings.trans h.rings, g.v.trans h.v, g.bankA.trans h.bankA, g.bankB.trans h.bankB, g.epoch.trans h.epoch⟩

theorem RingsKept.foldl {α : Type} {u y : Units} {f : Units → α → Units} (k : RingsKept u y) (h : ∀ x a, RingsKept u x → RingsKept u (f x a)) (l : List α) : RingsKept u (l.foldl f y) := by
  induction l generalizing y with
  | nil => exact k
  | cons a l ih => exact ih (h _ _ k)

section after

variable {u y : Units} (k : RingsKept u y)
include k

theorem RingsKept.ite {P : Prop} [Decidable P] {x : Units} (h : RingsKept u x) : RingsKept u (if P then x else y) := by split <;> assumption

theorem RingsKept.fresh (n : Nat) : RingsKept u { y with fresh := n } := ⟨k.1, k.2, k.3, k.4, k.5⟩

theorem RingsKept.present (o : Out) : RingsKept u (present y o) := ⟨k.1, k.2, k.3, k.4, k.5⟩

theorem RingsKept.slice (s : Nat) (x : Machine.Slice) : RingsKept u (setSlice y s x) := ⟨k.1, k.2, k.3, k.4, k.5⟩

theorem RingsKept.channel (c : Nat) (x : Machine.Ddr) : RingsKept u (setDdr y c x) := ⟨k.1, k.2, k.3, k.4, k.5⟩

theorem RingsKept.sub (c n : Nat) (x : Machine.Sub) : RingsKept u (setSub y c n x) := by unfold setSub; split <;> exact ⟨k.1, k.2, k.3, k.4, k.5⟩

theorem RingsKept.cur (f : Fld) (i j x : Nat) : RingsKept u (putF y f i j x) := k.trans ⟨putF_rings _ _ _ _ _, putF_v _ _ _ _ _, putF_regs_bankA _ _ _ _ _, putF_regs_bankB _ _ _ _ _, putF_regs_epoch _ _ _ _ _⟩

theorem RingsKept.reg (r : Reg) (i j x : Nat) : RingsKept u (putReg y r i j x) := ⟨k.1, k.2, k.3, k.4, k.5⟩

theorem RingsKept.trim (a : Nat) (x : Word) : RingsKept u (putTrim y a x) := ⟨k.1, k.2, k.3, k.4, k.5⟩

theorem RingsKept.flag (f : Fld) (i j : Nat) : RingsKept u (flag y f i j) := k.cur _ _ _ _

theorem RingsKept.addSat (f : Fld) (i j n : Nat) : RingsKept u (addSat y f i j n) := k.cur _ _ _ _

theorem RingsKept.count (n : Nat) : RingsKept u (count y n) := by
  obtain ⟨⟨c, t, h⟩, _⟩ := count_only y n; rw [h]; exact ⟨k.1, k.2, k.3, k.4, k.5⟩

theorem RingsKept.endGrant (c r : Nat) : RingsKept u (endGrant y c r) := by unfold Machine.endGrant; dsimp only; split <;> exact ⟨k.1, k.2, k.3, k.4, k.5⟩

theorem RingsKept.storeDram (c l : Nat) (x : BitVec 512) : RingsKept u (storeDram y c l x) := (k.sub _ _ _).slice _ _

theorem RingsKept.issueColumn (c s : Nat) (a : DAcc) : RingsKept u (issueColumn y c s a) := by
  unfold Machine.issueColumn
  dsimp only
  have h : RingsKept u (if a.opened then y else Machine.count y (cDdr c 6)) := (k.count _).ite k
  exact RingsKept.ite (((h.present _).sub _ _ _).count _) (((((h.present _).sub _ _ _).present _).storeDram _ _ _).count _)

theorem RingsKept.issuePre (c s b : Nat) : RingsKept u (issuePre y c s b) := ((k.sub _ _ _).present _).count _

theorem RingsKept.blackout (c s rank len : Nat) (l : List Laid) : RingsKept u (blackoutOp y c s rank len l) := k.sub _ _ _

theorem RingsKept.storeTrims (c : Nat) (l : List (Nat × Word)) : RingsKept u (storeTrims y c l) := by
  unfold Machine.storeTrims
  exact ((k.foldl (fun _ _ h => h.trim _ _) _).channel _ _).foldl (fun _ _ h => h.foldl (fun _ _ h => (h.cur _ _ _ _).cur _ _ _ _) _) _

theorem RingsKept.startRefresh (c : Nat) : RingsKept u (startRefresh y c) := k.foldl (fun _ _ h => h.sub _ _ _) _

theorem RingsKept.setDie (n d : Nat) (x : Die) : RingsKept u (setDie y n d x) := ⟨k.1, k.2, k.3, k.4, k.5⟩

theorem RingsKept.setCex (n : Nat) (x : Cex) : RingsKept u (setCex y n x) := ⟨k.1, k.2, k.3, k.4, k.5⟩

theorem RingsKept.frameTo (n : Nat) (l : List Nat) (op arg : Nat) (w : BitVec 768) : RingsKept u (frameTo y n l op arg w) := (k.present _).foldl (fun _ _ h => h.setDie _ _ _) _

theorem RingsKept.frame (n op d arg : Nat) : RingsKept u (frame y n op d arg) := k.frameTo _ _ _ _ _

theorem RingsKept.captureMove (n d : Nat) : RingsKept u (captureMove y n d) := (k.fresh _).trim _ _

theorem RingsKept.askStatus (n d : Nat) : RingsKept u (askStatus y n d).2 := by
  have h := (k.frame n 8 d 0).captureMove n d
  exact h.ite ((h.addSat _ _ _ _).flag _ _ _)

theorem RingsKept.allEnd (n : Nat) (l : List Nat) : RingsKept u (allEnd y n l) := k.foldl (fun _ _ h => h.setDie _ _ _) _

theorem RingsKept.echoMode (n d m : Nat) : RingsKept u (echoMode y n d m) := ((k.frame n 15 d m).present _).setDie _ _ _

theorem RingsKept.centreReads (n : Nat) (l : List Nat) : RingsKept u (centreReads y n l) := ((k.fresh _).frameTo _ _ _ _ _).foldl (fun _ _ h => (h.frame _ _ _ _).captureMove _ _) _

theorem RingsKept.centreWrites (n : Nat) (l : List Nat) : RingsKept u (centreWrites y n l) :=
  k.foldl (fun _ _ h => ((((h.fresh _).frameTo _ _ _ _ _).present _).frame _ _ _ _).captureMove _ _) _

theorem RingsKept.baseline (n : Nat) (l : List Nat) (f : Nat → Nat) : RingsKept u (baseline y n l f) :=
  (k.foldl (fun _ _ h => (h.frameTo _ _ _ _ _).ite h) _).foldl (fun _ _ h => ((h.frame _ _ _ _).captureMove _ _).askStatus _ _) _

theorem RingsKept.trainFrames (n : Nat) (l : List Nat) (f : Nat → Nat) : RingsKept u (trainFrames y n l f) := by
  have fr {y : Units} (op : Nat) (k : RingsKept u y) : RingsKept u (l.foldl (fun u d => Machine.frame u n op d 0) y) := k.foldl (fun _ _ h => h.frame _ _ _ _) _
  have h1 := (fr 10 (k.allEnd n (List.range 8))).allEnd n l
  have h2 := h1.foldl (f := fun u d => Machine.echoMode u n d 1) (fun _ _ h => h.echoMode _ _ _) l
  have h3 := h2.foldl (f := fun u d => Machine.echoMode (Machine.echoMode u n d 2) n d 3) (fun _ _ h => (h.echoMode _ _ _).echoMode _ _ _) l
  have h4 := (h3.frameTo n l 15 0 0).foldl (f := fun u d => (Machine.askStatus u n d).2) (fun _ _ h => h.askStatus _ _) l
  have h5 := (fr 13 (h4.centreReads n l)).allEnd n l
  have h6 := h5.foldl (f := fun u d => Machine.captureMove (Machine.frame u n 1 d 0) n d) (fun _ _ h => (h.frame _ _ _ _).captureMove _ _) l
  exact (h6.centreWrites n l).baseline n l f

theorem RingsKept.keepFound (n : Nat) (x : Found) : RingsKept u (keepFound y n x) := (k.setCex _ _).foldl (fun _ _ h => ((h.cur _ _ _ _).cur _ _ _ _).setCex _ _) _

theorem RingsKept.storeCexTrims (n : Nat) (l : List (Nat × Word)) : RingsKept u (storeCexTrims y n l) := (k.foldl (fun _ _ h => h.trim _ _) _).setCex _ _

theorem RingsKept.putMargin (d : Desc) (a b c : Nat) : RingsKept u (putMargin y d a b c) := ((((k.cur _ _ _ _).cur _ _ _ _).cur _ _ _ _).cur _ _ _ _).cur _ _ _ _

theorem RingsKept.issueWrites (c line : Nat) : RingsKept u (issueWrites y c line) := (k.sub _ _ _).foldl (fun _ _ h => h.issueColumn _ _ _) _

theorem RingsKept.putPatch (c : Nat) (p : Patch) : RingsKept u (putPatch y c p) := by
  have h := k.sub c (lineSub p.line) { subOf y c (lineSub p.line) with patches := (subOf y c (lineSub p.line)).patches ++ [p] }
  exact ⟨h.1, h.2, h.3, h.4, h.5⟩

theorem RingsKept.blankSet (s n : Nat) : RingsKept u (blankSet y s n) := ((k.slice _ _).storeDram _ _ _).sub _ _ _

theorem RingsKept.pprCommands (d : Desc) : RingsKept u (pprCommands y d) := by
  unfold Machine.pprCommands
  extract_lets ch s rank bank row put v w z
  have hv : RingsKept u v := (k.issuePre _ _ _).ite k
  have hz : RingsKept u z := RingsKept.ite (hv.present _) ((hv.present _).present _)
  exact ((((hz.present _).present _).present _).present _).present _

theorem RingsKept.blankSpares (c : Nat) : RingsKept u (blankSpares y c) := k.foldl (fun _ _ h => h.sub _ _ _) _

theorem RingsKept.blankSlice (s : Nat) : RingsKept u (blankSlice y s) := (((k.slice _ _).sub _ _ _).sub _ _ _).blankSpares _

end after

theorem RingsKept.work {u x : Units} (h : sliceCore true x = sliceCore true u) : RingsKept u x :=
  ⟨sliceCore_rings h, sliceCore_v h, sliceCore_bankA h, sliceCore_bankB h, sliceCore_epoch h⟩

/-! ### Tests -/

theorem blankSpares_slices (u : Units) (c : Nat) : (blankSpares u c).slices = u.slices := by
  unfold blankSpares
  simp only [List.foldl_cons, List.foldl_nil]
  rw [(setSub_keeps _ _ _ _).1, (setSub_keeps _ _ _ _).1]

theorem blank_slice (u : Units) (k : Nat) : (slice (blankSlice u k) k).dram = ⟨[]⟩ := by
  unfold blankSlice slice
  dsimp only
  rw [blankSpares_slices, (setSub_keeps _ k 1 _).1, (setSub_keeps _ k 0 _).1]
  exact congrArg (fun x : Machine.Slice => x.dram) (tabGet_put_same _ _ _)

/-- A descriptor under way ends after changes that touch neither the rings nor the registers of the banks. -/

theorem started_ends {u y : Units} {r : Nat} {d : Desc} (st r0 r1 : Nat) (h : started u r d) (hr : y.rings = u.rings) (hv : y.v = u.v)
    (ha : y.regs.bankA = u.regs.bankA) (hb : y.regs.bankB = u.regs.bankB) (he : y.regs.epoch = u.regs.epoch) : posted u (complete y r d.idx st r0 r1) r d st r0 r1 :=
  posted_of st r0 r1 (by rw [hr]) (cqBase_banks hv ha hb he r) h.1

theorem kept_posted {u y : Units} {r : Nat} {d : Desc} (st r0 r1 : Nat) (h : started u r d) (k : RingsKept u y) : posted u (complete y r d.idx st r0 r1) r d st r0 r1 :=
  started_ends st r0 r1 h k.rings k.v k.bankA k.bankB k.epoch

theorem offline_ends {u : Units} {r : Nat} {d : Desc} (st r0 r1 : Nat) (h : started u r d) (hne : u.stg.evacDesc ≠ some (r, d.idx)) (hj : (slice u (testCh d)).jobs = []) :
    posted u (offlineEnd u r d st r0 r1) r d st r0 r1 ∧ (slice (offlineEnd u r d st r0 r1) (testCh d)).dram = ⟨[]⟩ := by
  unfold offlineEnd
  rw [if_neg hne, if_pos hj]
  refine ⟨kept_posted st r0 r1 h ((RingsKept.refl u).blankSlice _), ?_⟩
  have k := blank_slice u (testCh d)
  unfold slice at *
  rw [complete_slices]
  exact k

theorem sliceCore_beginEvac (u : Units) (k r i : Nat) : (beginEvac u k r i).stg = { u.stg with evac := 1, evacCh := k, evacHold := false, evacDesc := some (r, i) } := by
  unfold beginEvac
  dsimp only
  exact sliceCore_stg (sliceCore_putShares _)

theorem pattern_start (s : State) (r : Nat) (d : Desc) (x : TestResult) (h : handed s.ctl s.u r d) (ht : isTest 1 d = true) (hb : badTest s.u d = false) (hm : s.ctl.mode = .run)
    (he : s.u.stg.evac = 0) (hh : testHeld (putDesc s.u r { d with begun := true }) r { d with begun := true } = false) (hr : ddrReady s.u d = true) :
    ∃ t, exec (.selftestDramPattern r d.idx x) s = .next t ∧ t.u.stg.evac = 1 ∧ t.u.stg.evacCh = testCh d ∧ t.u.stg.evacDesc = some (r, d.idx) := by
  have e := descOp_start (names := isTest 1) (bad := badTest) (modes := runService) (start := offlineStart) (step := patternStep x) (handed_fresh h) ht hb (by rw [hm]; rfl)
  refine ⟨_, (exec_selftestDramPattern r d.idx x s).trans (onU_next e), ?_⟩
  have es : offlineStart s.ctl (putDesc (Machine.fresh s) r { d with begun := true }) r { d with begun := true } =
      beginEvac (putOwn (putDesc (Machine.fresh s) r { d with begun := true }) r { d with begun := true } [1, 0]) (testCh d) r d.idx := by
    unfold offlineStart
    refine (if_neg ?_).trans ((if_neg ?_).trans (if_pos hm))
    · rintro (h | h)
      · exact h he
      · exact absurd (hh.symm.trans h) (by simp)
    · intro h; exact absurd (hr.symm.trans h) (by simp)
  dsimp only
  rw [es, sliceCore_beginEvac]
  exact ⟨rfl, rfl, rfl⟩

theorem ch_below {u : Units} {d : Desc} (h : isTest 2 d = true) (hb : badTest u d = false) : testCh d < 16 := by
  unfold isTest at h
  unfold badTest isDdrTest at hb
  simp only [Bool.and_eq_true, beq_iff_eq] at h
  simp [h.1, h.2] at hb
  have : nDdr u.v ≤ 16 := by unfold nDdr pick; split <;> decide
  omega

theorem margin_addr (k : Nat) (h : k < 16) : regAddr .DDR5_n_MARGIN k 0 < teleAddr := by
  unfold regAddr teleAddr Reg.info
  dsimp only
  omega

theorem nbits_idem (x lo w : Nat) : nbits x lo w % 2 ^ w = nbits x lo w := Nat.mod_mod _ _

theorem device_put (y : Units) (k n : Nat) : getF (putF y F.DDR5_n_MARGIN_device k 0 (nbits n 19 4)) F.DDR5_n_MARGIN_device k = nbits n 19 4 :=
  (getF_putF_same y F.DDR5_n_MARGIN_device k 0 _ (by decide)).trans (nbits_idem n 19 4)

theorem putMargin_device (u : Units) (d : Desc) (a b n : Nat) : getF (putMargin u d a b (nbits n 19 4)) F.DDR5_n_MARGIN_device (testCh d) = nbits n 19 4 := by
  unfold putMargin
  exact device_put _ _ _

/-- One point of a read-margin sweep under the channel's grant: a side goes on while its points pass, up to 32; then the other side; then the register is written and the descriptor completes with it. -/
theorem margin_steps (u : Units) (r : Nat) (d : Desc) (x : TestResult) (c : Ctl) (hg : (tabGet u.arbs (testCh d)).holder = 5) :
    let y := endGrant (marginPoint u (testCh d) (testSub d) (testRank d)) (testCh d) 5
    let n := ownAt d 1 + if x.pass then 1 else 0
    let z := putMargin y d (ownAt d 2) n (nbits x.r0 19 4)
    readMarginStep x c u r d = if x.pass ∧ n < 32 then putOwn y r d [ownAt d 0, n, ownAt d 2] else if ownAt d 0 = 0 then putOwn y r d [1, 0, n]
      else complete z r d.idx 0 (rawReg z .DDR5_n_MARGIN (testCh d)) := by
  unfold readMarginStep
  exact if_neg (by rw [hg]; exact fun h => h rfl)

theorem complete_margin (z : Units) (r i st n ch : Nat) (ha : regAddr .DDR5_n_MARGIN ch 0 < teleAddr) :
    rawReg (complete z r i st n 0) .DDR5_n_MARGIN ch = rawReg z .DDR5_n_MARGIN ch :=
  (complete_keeps z r i st n 0).rawReg .DDR5_n_MARGIN _ _ ha

theorem complete_device (z : Units) (r i st n ch : Nat) (ha : regAddr .DDR5_n_MARGIN ch 0 < teleAddr) :
    getF (complete z r i st n 0) F.DDR5_n_MARGIN_device ch = getF z F.DDR5_n_MARGIN_device ch := by
  unfold getF
  show nbits (rawReg _ .DDR5_n_MARGIN ch) _ _ = nbits (rawReg _ .DDR5_n_MARGIN ch) _ _
  rw [complete_margin z r i st n ch ha]

/-- The last point of a read-margin sweep. -/
theorem margin_ends (u : Units) (r : Nat) (d : Desc) (x : TestResult) (c : Ctl) (h : started u r d) (ha : regAddr .DDR5_n_MARGIN (testCh d) 0 < teleAddr)
    (hg : (tabGet u.arbs (testCh d)).holder = 5) (hs : ownAt d 0 ≠ 0) (hl : x.pass = false ∨ 31 ≤ ownAt d 1) : let t := readMarginStep x c u r d
    posted u t r d 0 (rawReg t .DDR5_n_MARGIN (testCh d)) 0 ∧ getF t F.DDR5_n_MARGIN_device (testCh d) = nbits x.r0 19 4 := by
  intro t
  have e := margin_steps u r d x c hg
  dsimp only at e
  rw [if_neg (by rintro ⟨h1, h2⟩; rw [if_pos h1] at h2; rcases hl with h | h; exacts [absurd (h1.symm.trans h) (by simp), by omega]), if_neg hs] at e
  rw [show t = _ from e, complete_margin _ _ _ _ _ _ ha, complete_device _ _ _ _ _ _ ha]
  refine ⟨kept_posted _ _ _ h ?_, putMargin_device _ _ _ _ _⟩
  exact (((RingsKept.refl u).blackout _ _ _ _ _).endGrant _ _).putMargin _ _ _ _

theorem tabGet_filter_out {α : Type} [Inhabited α] (t : Tab α) (p : Nat → Bool) (k : Nat) (h : p k = false) : tabGet (tabFilter t p) k = default := by
  unfold tabGet tabGetD tabFilter
  dsimp only
  induction t.cells with
  | nil => rfl
  | cons c l ih =>
    by_cases hc : p c.1 = true
    · rw [List.filter_cons_of_pos (by simpa using hc)]
      unfold tabFind
      split
      · next e => simp_all
      · exact ih
    · rw [List.filter_cons_of_neg (by simpa using hc)]
      exact ih

theorem die_blank (u : Units) (n d a : Nat) (ha : a < keepFrom) : tabGet (blankDie u n d).media ((n * 8 + d) * 2 ^ 31 + a) = {} := by
  have hk : keepFrom ≤ 2 ^ 31 := by decide
  have h1 : ((n * 8 + d) * 2 ^ 31 + a) / 2 ^ 31 = n * 8 + d := by omega
  have h2 : ((n * 8 + d) * 2 ^ 31 + a) % 2 ^ 31 = a := by omega
  unfold blankDie
  dsimp only
  unfold setCex
  dsimp only
  generalize hb : (n * 8 + d) * 2 ^ 31 + a = b at *
  have : tabGet (tabFilter u.media fun k => !(k / 2 ^ 31 == n * 8 + d && decide (k % 2 ^ 31 < keepFrom))) b = default := by
    exact tabGet_filter_out _ _ _ (by rw [h1, h2]; simp [ha])
  exact this

theorem codec_ends (u : Units) (r : Nat) (d : Desc) (x : TestResult) (c : Ctl) (h : started u r d) : let t := codecStep x c u r d
    posted u t r d (testStatus x) 0 0 ∧ (x.pass = false → getF t F.INT_ERR_codec = 1) := by
  unfold codecStep
  dsimp only
  refine ⟨?_, fun hp => ?_⟩
  · split <;> exact started_ends _ _ _ h rfl rfl rfl rfl rfl
  · rw [if_neg (by simp [hp])]
    rw [(complete_keeps _ r d.idx _ _ _).getF _ _ _ (by decide)]
    exact getF_flag_same _ _ _ _ (by decide) (by decide)

theorem nDdr_le (v : Variant) : nDdr v ≤ 16 := by unfold nDdr pick; split <;> decide

theorem state_addr (k : Nat) (h : k < 16) : regAddr .DDR5_n_STATE k 0 < teleAddr := by
  unfold regAddr teleAddr Reg.info
  dsimp only
  omega

theorem err_addr (k : Nat) (h : k < 16) : regAddr .DDR5_n_ERR k 0 < teleAddr := by
  unfold regAddr teleAddr Reg.info
  dsimp only
  omega

theorem ddr_reg_below {u : Units} {k : Nat} (h : k < nDdr u.v) : regAddr .DDR5_n_STATE k 0 < teleAddr ∧ regAddr .DDR5_n_ERR k 0 < teleAddr :=
  ⟨state_addr k (Nat.lt_of_lt_of_le h (nDdr_le _)), err_addr k (Nat.lt_of_lt_of_le h (nDdr_le _))⟩

theorem retrain_ch {u : Units} {d : Desc} (hb : badRetrain u d = false) (ht : isRetrainDdr d = true) : testCh d < nDdr u.v := by
  have hf : mediaFlag d = false := by
    unfold isRetrainDdr at ht
    simp only [Bool.and_eq_true, Bool.not_eq_true'] at ht
    exact ht.2
  unfold badRetrain at hb
  rw [hf] at hb
  simpa using hb

theorem putTrain_keeps (u : Units) (k : Nat) (x : TestResult) : ∃ c, putTrain u k x = { u with regs := { u.regs with cur := c } } := ⟨_, rfl⟩

theorem retrain_done (y : Units) (r i k : Nat) (hk : k < nDdr y.v) : getF (complete (putF y F.DDR5_n_STATE_state k 0 2) r i 0) F.DDR5_n_STATE_state k = 2 :=
  ((complete_keeps _ r i 0 0 0).getF F.DDR5_n_STATE_state _ _ (ddr_reg_below hk).1).trans (getF_putF_same y F.DDR5_n_STATE_state k 0 2 (by decide))

/-- A RETRAIN of a DDR5 channel that neither its devices nor the criteria in force fail. -/
theorem retrain_ends (c : Ctl) (u : Units) (r : Nat) (d : Desc) (x : TestResult) (h : started u r d) (hk : testCh d < nDdr u.v) (hp : (retrainMiss u (testCh d) x).pass = true)
    (hne : u.stg.evacDesc ≠ some (r, d.idx)) : let t := retrainDdrStep x c u r d
    posted u t r d 0 0 0 ∧ getF t F.DDR5_n_STATE_state (testCh d) = 2 := by
  unfold retrainDdrStep
  dsimp only
  rw [if_neg (fun k => hne k.1), if_pos hp]
  rw [if_neg hne]
  generalize hv : startRefresh _ _ = v
  have k : RingsKept u v := by
    rw [← hv]
    exact (((RingsKept.refl u).reg .DDR5_n_TRAIN (testCh d) 0 _).channel _ _).storeTrims _ _ |>.startRefresh _
  refine ⟨kept_posted 0 0 0 h (k.cur _ _ _ _), retrain_done _ r d.idx _ ?_⟩
  rw [k.v]
  exact hk

theorem retrainCex_ends (c : Ctl) (u : Units) (r : Nat) (d : Desc) (x : TestResult) (h : started u r d) (hm : c.mode = .service) (hc : retrainFails u (testCh d) x = []) :
    posted u (retrainCexStep x c u r d) r d 0 0 0 := by
  unfold retrainFails at hc
  unfold retrainCexStep
  rw [if_pos hm]
  unfold retrainAll
  dsimp only at hc ⊢
  rw [hc]
  unfold retrainCexEnd
  exact kept_posted 0 0 0 h (((((((RingsKept.refl u).trainFrames _ _ _).keepFound _ _).storeCexTrims _ _).foldl (fun _ _ h => h.setDie _ _ _) _).reg _ _ _ _))

theorem dramDecode_only (u : Units) (err : BitVec 640) : ∃ n, (dramDecode u err).2 = { u with fresh := n } := by
  unfold dramDecode
  split
  · exact ⟨u.fresh, rfl⟩
  · split
    · exact ⟨u.fresh, rfl⟩
    · split
      · exact ⟨u.fresh, rfl⟩
      · dsimp only
        split <;> exact ⟨_, rfl⟩

theorem putPatch_has (u : Units) (c : Nat) (p : Patch) : ∃ q ∈ (subOf (putPatch u c p) c (lineSub p.line)).patches, q.line = p.line := by
  unfold putPatch setSub subOf setDdr ddr
  dsimp only
  split
  · dsimp only
    rw [tabGet_put_same]
    exact ⟨p, by simp, rfl⟩
  · dsimp only
    rw [tabGet_put_same]
    exact ⟨p, by simp, rfl⟩

theorem addPatch_does (u : Units) (c line : Nat) (err : BitVec 640) :
    ((∃ p ∈ (subOf u c (lineSub line)).patches, p.line = line) ∨ (subOf u c (lineSub line)).patches.length < 8 →
      ∃ y, addPatch u c line err = (true, y) ∧ (∃ p ∈ (subOf y c (lineSub line)).patches, p.line = line) ∧ RingsKept u y) ∧
    ((∀ p ∈ (subOf u c (lineSub line)).patches, p.line ≠ line) → 8 ≤ (subOf u c (lineSub line)).patches.length → addPatch u c line err = (false, flag u F.DDR5_n_ERR_patch_full c)) := by
  unfold addPatch
  extract_lets x v b w
  by_cases ha : (x.patches.any fun p => p.line == line) = true
  · rw [if_pos ha]
    have : ∃ p ∈ (subOf u c (lineSub line)).patches, p.line = line := by simpa [x] using ha
    refine ⟨fun _ => ⟨u, rfl, this, .refl u⟩, fun h => ?_⟩
    obtain ⟨p, hp, e⟩ := this
    exact absurd e (h p hp)
  · rw [if_neg ha]
    refine ⟨fun h => ?_, fun _ h => if_pos h⟩
    have hl : (subOf u c (lineSub line)).patches.length < 8 := by
      rcases h with ⟨p, hp, e⟩ | h
      · exact absurd (by simp only [x]; rw [List.any_eq_true]; exact ⟨p, hp, by simp [e]⟩) ha
      · exact h
    rw [if_neg (by simp only [x]; omega)]
    have kw : RingsKept u w := ((RingsKept.refl u).issueWrites c line).present _
    clear_value w
    obtain ⟨n, hn⟩ := dramDecode_only w err
    generalize hq : dramDecode w err = q
    rw [hq] at hn
    obtain ⟨a, y⟩ := q
    dsimp only at hn
    subst hn
    have fin (p : Patch) (hp : p.line = line) : (∃ q ∈ (subOf (putPatch { w with fresh := n } c p) c (lineSub line)).patches, q.line = line) ∧ RingsKept u (putPatch { w with fresh := n } c p) := by
      have k := putPatch_has { w with fresh := n } c p
      rw [hp] at k
      exact ⟨k, (kw.fresh n).putPatch c p⟩
    cases a with
    | uncorrectable => exact ⟨_, rfl, fin _ rfl⟩
    | other l => exact ⟨_, rfl, fin _ rfl⟩
    | clean => exact ⟨_, rfl, fin _ rfl⟩
    | device i => exact ⟨_, rfl, fin _ rfl⟩
    | general => exact ⟨_, rfl, fin _ rfl⟩

/-- A descriptor that has just begun completes after changes that touch neither the rings nor the banks. -/

theorem begun_ends {u y : Units} {r : Nat} {d e : Desc} (st r0 r1 : Nat) (h : findDesc u r d.idx = some d) (hbi : e.bits = d.bits) (hi : e.idx = d.idx)
    (hr : y.rings = (putDesc u r e).rings) (hv : y.v = u.v) (hb : y.regs.bankA = u.regs.bankA ∧ y.regs.bankB = u.regs.bankB ∧ y.regs.epoch = u.regs.epoch) : posted u (complete y r d.idx st r0 r1) r d st r0 r1 :=
  posted_begun st r0 r1 (by rw [hr]) (cqBase_banks hv hb.1 hb.2.1 hb.2.2 r) h hbi hi

theorem complete_ddr (u : Units) (r i st r0 r1 : Nat) : (complete u r i st r0 r1).ddr = u.ddr := (complete_keeps u r i st r0 r1).ddr

theorem patch_begins (c : Ctl) (u : Units) (r : Nat) (d : Desc) (err : BitVec 640) (h : findDesc u r d.idx = some d) (hr : ddrReady u d = true) (hk : testCh d < nDdr u.v) :
    let e := { d with begun := true }
    let t := patchStart err c (putDesc u r e) r e
    let line := patchLine u d
    let table := (subOf u (testCh d) (lineSub line)).patches
    ((∃ p ∈ table, p.line = line) ∨ table.length < 8 → posted u t r d 0 0 0 ∧ ∃ p ∈ (subOf t (testCh d) (lineSub line)).patches, p.line = line) ∧
    ((∀ p ∈ table, p.line ≠ line) → 8 ≤ table.length → posted u t r d 4 0 0 ∧ getF t F.DDR5_n_ERR_patch_full (testCh d) = 1) := by
  intro e t line table
  obtain ⟨h1, h2⟩ := addPatch_does (putDesc u r e) (testCh d) line err
  have ht : t = match addPatch (putDesc u r e) (testCh d) line err with
    | (true, u) => complete u r d.idx 0
    | (false, u) => complete u r d.idx 4 := by
    refine (if_neg ?_).trans rfl
    intro k
    exact absurd (hr.symm.trans k) (by simp)
  refine ⟨fun q => ?_, fun q q' => ?_⟩
  · obtain ⟨y, ey, ep, k⟩ := h1 q
    rw [ht, ey]
    refine ⟨begun_ends (e := e) 0 0 0 h rfl rfl k.rings k.v ⟨k.bankA, k.bankB, k.epoch⟩, ?_⟩
    dsimp only
    unfold subOf ddr at ep ⊢
    rw [complete_ddr]
    exact ep
  · rw [ht, h2 q q']
    refine ⟨begun_ends (e := e) 4 0 0 h rfl rfl rfl rfl ⟨rfl, rfl, rfl⟩, ?_⟩
    refine ((complete_keeps _ r d.idx _ _ _).getF F.DDR5_n_ERR_patch_full _ _ (ddr_reg_below hk).2).trans ?_
    exact getF_flag_same _ F.DDR5_n_ERR_patch_full _ _ (by decide) (by decide)

theorem badPatch_ch {u : Units} {d : Desc} (h : badPatch u d = false) : testCh d < nDdr u.v := by
  unfold badPatch at h
  simp only [Bool.or_eq_false_iff, decide_eq_false_iff_not, Nat.not_le] at h
  exact h.1.1.1

theorem ppr_begins (c : Ctl) (u : Units) (r : Nat) (d : Desc) (x : TestResult) (h : findDesc u r d.idx = some d) :
    let e := { d with begun := true }
    let t := pprStart x c (putDesc u r e) r e
    (ddrReady u d = false ∨ x.code = 1 ∨ (∃ n ∈ rowSets u d, ∃ w, w < 15 ∧ wayDirty (effHeader u (testCh d) n) w = true) → posted u t r d 4 0 0) ∧
    (ddrReady u d = true → x.code ≠ 1 → (∀ n ∈ rowSets u d, ∀ w, w < 15 → wayDirty (effHeader u (testCh d) n) w = false) → x.pass = true → posted u t r d 0 0 0) := by
  intro e t
  refine ⟨fun q => ?_, fun q1 q2 q3 q4 => ?_⟩
  · have ht : t = complete (putDesc u r e) r d.idx 4 := by
      refine if_pos ?_
      rcases q with q | q | ⟨n, hn, w, hw, k⟩
      · exact .inl q
      · exact .inr (.inl q)
      · refine .inr (.inr ?_)
        rw [List.any_eq_true]
        refine ⟨n, hn, ?_⟩
        rw [List.any_eq_true]
        exact ⟨w, List.mem_range.2 hw, k⟩
    rw [ht]
    exact begun_ends (e := e) 4 0 0 h rfl rfl rfl rfl ⟨rfl, rfl, rfl⟩
  · have ht : t = complete ((rowSets (putDesc u r e) e).foldl (fun u t => blankSet u (testCh d) t) (pprCommands (putDesc u r e) e)) r d.idx 0 := by
      refine (if_neg ?_).trans (if_pos q4)
      rintro (q | q | q)
      · exact absurd (q1.symm.trans q) (by simp)
      · exact q2 q
      · rw [List.any_eq_true] at q
        obtain ⟨n, hn, k⟩ := q
        rw [List.any_eq_true] at k
        obtain ⟨w, hw, k⟩ := k
        exact absurd ((q3 n hn w (List.mem_range.1 hw)).symm.trans k) (by simp)
    rw [ht]
    have k := ((RingsKept.refl (putDesc u r e)).pprCommands e).foldl (f := fun u t => blankSet u (testCh d) t) (fun _ _ h => h.blankSet _ _) (rowSets (putDesc u r e) e)
    exact begun_ends (e := e) 0 0 0 h rfl rfl k.rings k.v ⟨k.bankA, k.bankB, k.epoch⟩

theorem findDesc_rings {u y : Units} (h : y.rings = u.rings) (r i : Nat) : findDesc y r i = findDesc u r i := by
  unfold findDesc; rw [ring_congr (show y.rings.ring = u.rings.ring by rw [h]) r]

theorem findDesc_idx {u : Units} {r i : Nat} {d : Desc} (h : findDesc u r i = some d) : d.idx = i := by
  simpa using List.find?_some h

theorem staged_waits {y : Units} {r : Nat} {d e x : Desc} (h : findDesc y r d.idx = some x) (hb : e.bits = d.bits) (hi : e.idx = d.idx) : waitsForLatch (stagedDone y r e) r d := by
  refine ⟨{ e with committed := true, atLatch := some 0 }, ?_, hb, rfl, rfl⟩
  rw [← hi]
  exact findDesc_putDesc (d := { e with committed := true, atLatch := some 0 }) (by rw [← hi] at h; exact h)

theorem begun_found {u : Units} {r : Nat} {d : Desc} (h : findDesc u r d.idx = some d) : findDesc (putDesc u r { d with begun := true }) r d.idx = some { d with begun := true } :=
  findDesc_putDesc (d := { d with begun := true }) h

theorem runService_has {c : Ctl} (h : c.mode = .run ∨ c.mode = .service) : runService.contains c.mode = true := by
  rcases h with h | h <;> rw [h] <;> rfl

theorem ctxView_stage {u : Units} {h k x : Nat} (hk : h ≠ k) : ctxView (stageCtx u h x) k = ctxView u k := by
  unfold ctxView stageCtx
  dsimp only
  rw [List.reverse_append]
  simp only [List.reverse_cons, List.reverse_nil, List.nil_append, List.singleton_append, List.find?_cons]
  rw [show (h == k) = false by simpa using hk]
  rfl

theorem bind_fold (f : BitVec 160 → Nat) (hs : List Nat) : ∀ u : Units, hs.Nodup → (hs.foldl (fun u h => stageCtx u h (f (ctxView u h))) u) =
    { u with ctxStaged := u.ctxStaged ++ hs.map fun h => (h, BitVec.ofNat 160 (f (ctxView u h))) } := by
  induction hs with
  | nil => intro u _; simp
  | cons a l ih =>
    intro u hn
    rw [List.nodup_cons] at hn
    rw [List.foldl_cons, ih _ hn.2]
    have : (l.map fun h => (h, BitVec.ofNat 160 (f (ctxView (stageCtx u a (f (ctxView u a))) h)))) = l.map fun h => (h, BitVec.ofNat 160 (f (ctxView u h))) := by
      apply List.map_congr_left
      intro h hh
      rw [ctxView_stage (fun e => hn.1 (by rw [e]; exact hh))]
    rw [this]
    unfold stageCtx
    simp

theorem open_starts (c : Ctl) (y : Units) (r : Nat) (d : Desc) (hf : findDesc y r d.idx = some d) (hb : y.badCtx.contains (dHandle d / 2) = false) :
    (ctxState y (dHandle d) = 0 → nbits (dImage d) 2 2 ≠ 3 → windowLegal y.v (dImage d) 17 = true → windowLegal y.v (dImage d) 63 = true →
      (ctxOpenStart c y r d).ctxStaged = y.ctxStaged ++ [(dHandle d, BitVec.ofNat 160 (nput (dImage d) 0 2 1))] ∧ waitsForLatch (ctxOpenStart c y r d) r d) ∧
    (ctxState y (dHandle d) ≠ 0 ∨ nbits (dImage d) 2 2 = 3 ∨ windowLegal y.v (dImage d) 17 = false ∨ windowLegal y.v (dImage d) 63 = false → ctxOpenStart c y r d = complete y r d.idx 4) := by
  unfold ctxOpenStart
  dsimp only
  rw [if_neg (by rw [hb]; simp)]
  refine ⟨fun a b p q => ?_, fun a => if_pos a⟩
  rw [if_neg (by simp [a, b, p, q])]
  exact ⟨rfl, staged_waits (x := d) hf rfl rfl⟩

theorem modify_starts (c : Ctl) (y : Units) (r : Nat) (d : Desc) (hf : findDesc y r d.idx = some d) (h1 : ctxState y (dHandle d) = 1) (hm : dField d 12 6 ≠ 0)
    (h0 : nbits (dField d 12 6) 0 1 = 1 → nbits (dImage d) 2 2 ≠ 3) (h3 : nbits (dField d 12 6) 3 1 = 1 → windowLegal y.v (dImage d) 17 = true)
    (h4 : nbits (dField d 12 6) 4 1 = 1 → windowLegal y.v (dImage d) 63 = true) :
    (ctxModifyStart c y r d).ctxStaged = y.ctxStaged ++ [(dHandle d, BitVec.ofNat 160 (modified (ctxView y (dHandle d)).toNat (dImage d) (dField d 12 6)))] ∧ waitsForLatch (ctxModifyStart c y r d) r d := by
  unfold ctxModifyStart
  dsimp only
  rw [if_neg]
  · exact ⟨rfl, staged_waits (x := d) hf rfl rfl⟩
  · rintro (k | k | k | k | k)
    · exact k h1
    · exact hm k
    · exact h0 k.1 k.2
    · rw [h3 k.1] at k; simp at k
    · rw [h4 k.1] at k; simp at k

theorem bind_starts (c : Ctl) (y : Units) (r : Nat) (d : Desc) (hf : findDesc y r d.idx = some d) (hc : bindCount d ≠ 0) (ho : ∀ k, k < bindCount d → ctxState y (dHandle d + k) = 1) :
    waitsForLatch (keyBindStart c y r d) r d ∧ (keyBindStart c y r d).ctxStaged = y.ctxStaged ++ (List.range (bindCount d)).map fun k =>
      (dHandle d + k, BitVec.ofNat 160 (nput (ctxView y (dHandle d + k)).toNat 7 10 (dField d 14 10))) := by
  have hn : ((List.range (bindCount d)).map fun k => dHandle d + k).Nodup := by
    rw [List.nodup_map_iff (fun a b h => by simpa using h)]
    exact List.nodup_range
  have e : keyBindStart c y r d = stagedDone { y with ctxStaged := y.ctxStaged ++ ((List.range (bindCount d)).map fun k => dHandle d + k).map fun h => (h, BitVec.ofNat 160 (nput (ctxView y h).toNat 7 10 (dField d 14 10))) } r d := by
    unfold keyBindStart
    dsimp only
    rw [if_neg, bind_fold (fun x => nput x.toNat 7 10 (dField d 14 10)) _ y hn]
    rintro (k | k)
    · simp [hc] at k
    · simp at k
      obtain ⟨a, ha, q⟩ := k
      exact q (ho a ha)
  rw [e]
  refine ⟨staged_waits (x := d) hf rfl rfl, ?_⟩
  show y.ctxStaged ++ _ = _
  rw [List.map_map]
  rfl

theorem putCtx_regs (u : Units) (h : Nat) (x : BitVec 160) : (putCtx u h x).regs = u.regs ∧ (putCtx u h x).flushSeq = u.flushSeq ∧ (putCtx u h x).badCtx = u.badCtx := by
  unfold putCtx; split <;> exact ⟨rfl, rfl, rfl⟩

theorem putCtx_rec (u : Units) (h : Nat) : ctxRec (putCtx u h 0) (putCtx u h 0).regs.epoch h = 0 := by
  rw [(putCtx_regs u h 0).1]
  unfold ctxRec putCtx
  by_cases e : u.regs.epoch % 2 = 0
  · rw [if_pos e, if_pos e]
    split
    · rfl
    · exact tabGetD_putD_same _ _ _ _
  · rw [if_neg e, if_neg e]
    split
    · rfl
    · exact tabGetD_putD_same _ _ _ _

theorem noticed_ctx {y z : Units} (n : NoticeOnly y z) (h : Nat) : ctxRec z z.regs.epoch h = ctxRec y y.regs.epoch h ∧ z.flushSeq = y.flushSeq := by
  obtain ⟨⟨_, _, _, _, _, rfl⟩, _⟩ := n
  exact ⟨rfl, rfl⟩

theorem closeFinish_does (u : Units) (h : Nat) (h2 : cBits (ctxRec u u.regs.epoch h) 0 2 = 2) (ho : owcMap u h = 0) :
    ctxRec (closeFinishOp u h) (closeFinishOp u h).regs.epoch h = 0 ∧ tabGet (closeFinishOp u h).flushSeq h = 0 := by
  unfold closeFinishOp
  rw [if_pos ⟨h2, ho⟩]
  dsimp only
  have q1 := putCtx_rec { u with flushSeq := tabPut u.flushSeq h 0 } h
  have q2 : tabGet (putCtx { u with flushSeq := tabPut u.flushSeq h 0 } h 0).flushSeq h = 0 := by
    rw [(putCtx_regs _ h 0).2.1]; exact tabGet_put_same _ _ _
  generalize putCtx { u with flushSeq := tabPut u.flushSeq h 0 } h 0 = y at q1 q2 ⊢
  split
  · next x _ =>
    have k := noticed_ctx (complete_keeps y x.1 x.2.idx 0 (tabGet u.flushSeq h) 0) h
    exact ⟨k.1.trans q1, by rw [k.2]; exact q2⟩
  · exact ⟨q1, q2⟩

/-- A state in which a descriptor of another state is still the outstanding one of its index, perhaps with other counters. -/
def CarriesOn (u y : Units) (r : Nat) (d e : Desc) : Prop :=
  findDesc y r d.idx = some e ∧ e.bits = d.bits ∧ e.idx = d.idx ∧ (ring y r).cqTail = (ring u r).cqTail ∧ (ring y r).flip = (ring u r).flip

theorem CarriesOn.refl {u : Units} {r : Nat} {d : Desc} (h : findDesc u r d.idx = some d) : CarriesOn u u r d d := ⟨h, rfl, rfl, rfl, rfl⟩

theorem CarriesOn.put {u y : Units} {r : Nat} {d e f : Desc} (h : CarriesOn u y r d e) (hb : f.bits = e.bits) (hi : f.idx = e.idx) : CarriesOn u (putDesc y r f) r d f := by
  obtain ⟨h1, h2, h3, h4, h5⟩ := h
  refine ⟨?_, hb.trans h2, hi.trans h3, ?_, ?_⟩
  · rw [← h3, ← hi] at h1 ⊢; exact findDesc_putDesc h1
  · unfold putDesc; dsimp only; rw [ring_setRing_same]; exact h4
  · unfold putDesc; dsimp only; rw [ring_setRing_same]; exact h5

theorem CarriesOn.rings {u y z : Units} {r : Nat} {d e : Desc} (h : CarriesOn u y r d e) (hr : z.rings.ring = y.rings.ring) : CarriesOn u z r d e := by
  obtain ⟨h1, h2⟩ := h
  refine ⟨?_, by rwa [ring_congr hr]⟩
  unfold findDesc at *
  rwa [ring_congr hr]

theorem CarriesOn.ends {u y : Units} {r : Nat} {d e : Desc} (st r0 r1 : Nat) (h : CarriesOn u y r d e) (hq : cqBase y r = cqBase u r) : posted u (complete y r d.idx st r0 r1) r d st r0 r1 :=
  posted_congr h.2.2.2.1 h.2.2.2.2 hq (complete_posted st r0 r1 h.1 h.2.1)

theorem flushDone_ends {u y : Units} {r : Nat} {d e : Desc} (h : CarriesOn u y r d e) (ho : dOp d = 5)
    (hv : y.v = u.v) (hk : y.regs.bankA = u.regs.bankA ∧ y.regs.bankB = u.regs.bankB ∧ y.regs.epoch = u.regs.epoch) (hf : y.flushSeq = u.flushSeq) :
    posted u (flushDescDone y r e) r d 0 ((tabGet u.flushSeq (dHandle d) + 1) % 65536) 0 := by
  have e5 : dOp e = 5 := by unfold dOp dField at *; rw [h.2.1]; exact ho
  have eh : dHandle e = dHandle d := by unfold dHandle dField; rw [h.2.1]
  unfold flushDescDone
  dsimp only
  rw [if_neg (by rw [e5]; decide), eh, h.2.2.1]
  unfold flushCounts
  rw [if_neg (by rw [e5]; decide)]
  have q := count_only { y with flushSeq := tabPut y.flushSeq (dHandle d) ((tabGet y.flushSeq (dHandle d) + 1) % 65536) } (cCore 0)
  obtain ⟨⟨c, t, q⟩, -⟩ := q
  rw [q]
  dsimp only
  rw [tabGet_put_same, hf]
  refine CarriesOn.ends 0 _ 0 (CarriesOn.rings h (by rfl)) (cqBase_banks hv hk.1 hk.2.1 hk.2.2 r)

theorem flushAll_ends {u : Units} {r : Nat} {d : Desc} (h : started u r d) (ho : dOp d = 8) : posted u (flushDescDone u r d) r d 0 0 0 := by
  unfold flushDescDone
  dsimp only
  rw [if_pos ho]
  unfold flushCounts
  rw [if_pos (by rw [ho]; decide)]
  obtain ⟨⟨c, t, q⟩, -⟩ := count_only u (cCore 1)
  rw [q]
  exact started_ends 0 0 0 h rfl rfl rfl rfl rfl

/-- Closing an epoch ages the flushes that wait, and leaves them else as they were. -/
theorem closeEpoch_waiters (u : Units) : ∃ k, (closeEpoch u).stg.waiters = u.stg.waiters.map fun w => { w with age := w.age + k } := by
  unfold closeEpoch
  split
  · exact ⟨0, by simp⟩
  · split
    · exact ⟨0, by simp⟩
    · exact ⟨1, by rw [advanceE_stg]⟩

theorem addWaiter_adds (u : Units) (w : FlushWait) : ∃ x ∈ (addWaiter u w).stg.waiters, x.desc = w.desc ∧ x.handle = w.handle ∧ x.all = w.all := by
  unfold addWaiter
  dsimp only
  generalize hs : ({ w with id := (closePoint u).2.stg.nextWaiter, target := (closePoint u).2.stg.e, journal := (closePoint u).1, swept := !dirtyUpTo (closePoint u).2 (closePoint u).2.stg.e } : FlushWait) = x
  generalize hu : ({ (closePoint u).2 with stg := { (closePoint u).2.stg with waiters := (closePoint u).2.stg.waiters ++ [x], nextWaiter := (closePoint u).2.stg.nextWaiter + 1 } } : Units) = v
  obtain ⟨k, hk⟩ := closeEpoch_waiters v
  refine ⟨{ x with age := x.age + k }, ?_, by rw [← hs], by rw [← hs], by rw [← hs]⟩
  rw [hk, ← hu]
  exact List.mem_map_of_mem (List.mem_append_right _ (List.mem_singleton_self _))

theorem sendLines_net (mk : Nat → Pkt) (prio count : Nat) : ∀ (n sent : Nat) (u : Units), ∀ k ∈ u.net, k ∈ (sendLines mk prio count n sent u).2.net := by
  intro n
  induction n with
  | zero => intro sent u k hk; exact hk
  | succ n ih =>
    intro sent u k hk
    unfold sendLines
    split
    · exact hk
    · dsimp only
      split
      · exact hk
      · exact ih _ _ k (List.mem_append_left _ hk)

theorem sendLines_first (mk : Nat → Pkt) (prio count n sent : Nat) (u : Units) (h : sent < count) (hc : canTake u (ringPool (lineSlice u u.regs.epoch (mk sent).lla)) prio = true)
    (hf : routeRefused u (epCore 5) (epSlice (lineSlice u u.regs.epoch (mk sent).lla)) = false) :
    ∃ k ∈ (sendLines mk prio count (n + 1) sent u).2.net, k.typ = (mk sent).typ ∧ k.lla = (mk sent).lla ∧ k.ord = (mk sent).ord := by
  unfold sendLines
  rw [if_neg (by omega)]
  dsimp only
  rw [if_neg (by rw [hc, hf]; simp)]
  exact ⟨_, sendLines_net mk prio count n _ _ _ (mem_send _ _), rfl, rfl, rfl⟩

theorem issuePayload_keeps (r : Nat) : ∀ (n : Nat) (d : Desc) (u : Units), (∀ o ∈ u.out, o ∈ (issuePayload r n d u).out) ∧ (∀ k ∈ u.rings.reads, k ∈ (issuePayload r n d u).rings.reads) := by
  intro n
  induction n with
  | zero => intro d u; exact ⟨fun _ h => h, fun _ h => h⟩
  | succ n ih =>
    intro d u
    unfold issuePayload
    dsimp only
    split
    · exact ⟨fun _ h => h, fun _ h => h⟩
    · obtain ⟨a, b⟩ := ih { d with own := [sentOf d + 1] } { present u (.ringRead (dBuffer d / 64 * 64 + 64 * sentOf d)) with
        rings := { (present u (.ringRead (dBuffer d / 64 * 64 + 64 * sentOf d))).rings with reads := (present u (.ringRead (dBuffer d / 64 * 64 + 64 * sentOf d))).rings.reads ++ [(r, d.idx, 1)] } }
      exact ⟨fun o h => a o (List.mem_append_left _ h), fun k h => b k (List.mem_append_left _ h)⟩

theorem issuePayload_first (r n : Nat) (d : Desc) (u : Units) (hr : u.rings.reads = []) (ho : d.own = []) (hp : 0 < payloadReads d) (h3 : dOp d ≠ 0x32) :
    .ringRead (dBuffer d / 64 * 64) ∈ (issuePayload r (n + 1) d u).out ∧ (r, d.idx, 1) ∈ (issuePayload r (n + 1) d u).rings.reads := by
  have hs : sentOf d = 0 := by unfold sentOf; rw [ho]; rfl
  unfold issuePayload
  dsimp only
  rw [if_neg (by rw [hs, hr]; simp [h3]; omega)]
  obtain ⟨a, b⟩ := issuePayload_keeps r n { d with own := [sentOf d + 1] } { present u (.ringRead (dBuffer d / 64 * 64 + 64 * sentOf d)) with
    rings := { (present u (.ringRead (dBuffer d / 64 * 64 + 64 * sentOf d))).rings with reads := (present u (.ringRead (dBuffer d / 64 * 64 + 64 * sentOf d))).rings.reads ++ [(r, d.idx, 1)] } }
  refine ⟨a _ ?_, b _ ?_⟩
  · rw [hs]; exact List.mem_append_right _ (List.mem_singleton_self _)
  · exact List.mem_append_right _ (List.mem_singleton_self _)

theorem changeset_reads {u : Units} {d : Desc} (ho : dOp d = 0x10) (hb : badChangeset u d = false) : 0 < payloadReads d := by
  unfold badChangeset at hb
  simp at hb
  unfold payloadReads
  rw [if_pos ho]
  omega

theorem table_reads {d : Desc} (ho : dOp d = 0x11) : 0 < payloadReads d := by
  unfold payloadReads
  rw [if_neg (by rw [ho]; decide), if_pos ho]
  split <;> decide

theorem payload_begins (c : Ctl) (u : Units) (r : Nat) (d : Desc) (hc : d.committed = false) (hp : d.payload = []) (hr : 0 < payloadReads d) : payloadStep c u r d = issuePayload r 64 d u := by
  unfold payloadStep
  rw [if_neg (by rw [hc]; simp), if_pos (by rw [hp]; exact hr)]

theorem change_checks (c : Ctl) (u : Units) (r : Nat) (d : Desc) (h : started u r d) (hc : d.committed = false) (hp : payloadReads d ≤ d.payload.length) (ho : dOp d = 0x10) :
    let es := changeEntries d
    let a := admissionFails u (c.mode == .run) (planWith u (u.regs.descStaged ++ es) u.adm.tables)
    let t := payloadStep c u r d
    ((∃ e ∈ es, entryOk u.v e = false) → posted u t r d 6 0 0) ∧
    ((∀ e ∈ es, entryOk u.v e = true) → (∀ w, a = some w → t.regs = { u.regs with cur := t.regs.cur } ∧ posted u t r d 4 w 0) ∧ (a = none → t.regs.descStaged = u.regs.descStaged ++ es ∧ waitsForLatch t r d)) := by
  intro es a t
  have ht : t = changesetCheck c u r d := by
    show payloadStep c u r d = _
    unfold payloadStep
    rw [if_neg (by rw [hc]; simp), if_neg (by omega), if_pos ho]
  rw [ht]
  unfold changesetCheck
  dsimp only
  refine ⟨fun ⟨e, he, k⟩ => ?_, fun hk => ?_⟩
  · rw [if_pos]
    · exact started_ends 6 0 0 h rfl rfl rfl rfl rfl
    · rw [List.all_eq_false]; exact ⟨e, he, by rw [k]; simp⟩
  · rw [if_neg (by rw [Bool.not_eq_false, List.all_eq_true]; exact hk)]
    refine ⟨fun w hw => ?_, fun hw => ?_⟩
    · rw [show admissionFails u (c.mode == .run) (planWith u (u.regs.descStaged ++ changeEntries d) u.adm.tables) = some w from hw]
      dsimp only
      refine ⟨?_, started_ends 4 w 0 h rfl rfl rfl rfl rfl⟩
      have k := complete_keeps u r d.idx 4 w 0
      obtain ⟨⟨_, _, _, _, _, q⟩, _⟩ := k
      rw [q]
    · rw [show admissionFails u (c.mode == .run) (planWith u (u.regs.descStaged ++ changeEntries d) u.adm.tables) = none from hw]
      exact ⟨rfl, staged_waits (x := d) h.1 rfl rfl⟩

theorem table_checks (c : Ctl) (u : Units) (r : Nat) (d : Desc) (h : started u r d) (hc : d.committed = false) (hp : payloadReads d ≤ d.payload.length) (ho : dOp d = 0x11) :
    let image := (List.range (turnsOf (tableMedia d))).map fun k => payloadByte d k
    let tables := u.adm.tables ++ [(tableMedia d, maskChannels d, image)]
    let a := admissionFails u (c.mode == .run) (planWith u u.regs.descStaged tables)
    let t := payloadStep c u r d
    (∀ i, i < turnsOf (tableMedia d) → tableEntryOk (tableMedia d) i (image.getD i 0) = true) →
      (∀ w, a = some w → t.adm = u.adm ∧ posted u t r d 4 w 0) ∧ (a = none → t.adm.tables = tables ∧ waitsForLatch t r d) := by
  intro image tables a t hk
  have ht : t = tableCheck c u r d := by
    show payloadStep c u r d = _
    unfold payloadStep
    rw [if_neg (by rw [hc]; simp), if_neg (by omega), if_neg (by rw [ho]; decide)]
  rw [ht]
  unfold tableCheck
  dsimp only
  rw [if_neg (by rw [Bool.not_eq_false, List.all_eq_true]; exact fun i hi => hk i (List.mem_range.1 hi))]
  refine ⟨fun w hw => ?_, fun hw => ?_⟩
  · rw [show admissionFails u (c.mode == .run) (planWith u u.regs.descStaged (u.adm.tables ++ [(tableMedia d, maskChannels d, (List.range (turnsOf (tableMedia d))).map fun k => payloadByte d k)])) = some w from hw]
    exact ⟨(complete_keeps u r d.idx 4 w 0).adm, started_ends 4 w 0 h rfl rfl rfl rfl rfl⟩
  · rw [show admissionFails u (c.mode == .run) (planWith u u.regs.descStaged (u.adm.tables ++ [(tableMedia d, maskChannels d, (List.range (turnsOf (tableMedia d))).map fun k => payloadByte d k)])) = none from hw]
    exact ⟨rfl, staged_waits (x := d) h.1 rfl rfl⟩

theorem payload_addr (r : Nat) (h : r < 64) : regAddr .RNG_r_ERR r 0 < teleAddr := by
  unfold regAddr teleAddr Reg.info
  dsimp only
  omega

theorem payload_fails (c : Ctl) (u : Units) (r : Nat) (d : Desc) (data : BitVec 512) (hr : r < 64) (h : started u r d) (ho : dOp d ≠ 0x32)
    (hk : (u.rings.reads.find? fun k => k.1 == r && k.2.1 == d.idx && (k.2.2 == 1 || k.2.2 == 3)) = some (r, d.idx, 1)) :
    getF (payloadReturnOp c u r d.idx true data) F.RNG_r_ERR_payload r = 1 ∧ posted u (payloadReturnOp c u r d.idx true data) r d 8 0 0 := by
  have e : payloadReturnOp c u r d.idx true data = complete (flag (dropPayload (endRead u (r, d.idx, 1)) r d.idx) F.RNG_r_ERR_payload r) r d.idx 8 := by
    unfold payloadReturnOp
    rw [hk]
    dsimp only
    rw [if_pos rfl, show findDesc (endRead u (r, d.idx, 1)) r d.idx = some d from h.1]
    dsimp only
    rw [if_pos rfl, if_neg ho]
  rw [e]
  refine ⟨((complete_keeps _ r d.idx _ _ _).getF F.RNG_r_ERR_payload _ _ (payload_addr r hr)).trans (getF_flag_same _ F.RNG_r_ERR_payload _ _ (by decide) (by decide)), ?_⟩
  exact (CarriesOn.rings (z := flag (dropPayload (endRead u (r, d.idx, 1)) r d.idx) F.RNG_r_ERR_payload r) (CarriesOn.refl h.1) rfl).ends 8 0 0 rfl

theorem payload_adds (c : Ctl) (u : Units) (r : Nat) (d : Desc) (data : BitVec 512) (h : started u r d) (ho : dOp d = 0x10 ∨ dOp d = 0x11) (hc : d.committed = false)
    (hk : (u.rings.reads.find? fun k => k.1 == r && k.2.1 == d.idx && (k.2.2 == 1 || k.2.2 == 3)) = some (r, d.idx, 1)) (hl : d.payload.length + 1 < payloadReads d) (hs : payloadReads d ≤ sentOf d) :
    ∃ e, findDesc (payloadReturnOp c u r d.idx false data) r d.idx = some e ∧ e.payload = d.payload ++ [data] := by
  obtain ⟨f, hf⟩ : ∃ f : Desc, f = { d with payload := d.payload ++ [data] } := ⟨_, rfl⟩
  have k1 : CarriesOn u (putDesc (endRead u (r, d.idx, 1)) r f) r d f := by
    rw [hf]; exact (CarriesOn.rings (CarriesOn.refl h.1) rfl).put rfl rfl
  have e : payloadReturnOp c u r d.idx false data = (if ringsRun c (putDesc (endRead u (r, d.idx, 1)) r f) then settleDesc c (putDesc (endRead u (r, d.idx, 1)) r f) r f else putDesc (endRead u (r, d.idx, 1)) r f) := by
    unfold payloadReturnOp
    rw [hk]
    dsimp only
    rw [if_pos rfl, show findDesc (endRead u (r, d.idx, 1)) r d.idx = some d from h.1]
    dsimp only
    rw [if_neg (by simp), hf]
  have fp : payloadReads f = payloadReads d := by rw [hf]; rfl
  have fl : f.payload.length = d.payload.length + 1 := by rw [hf]; simp
  have fs : sentOf f = sentOf d := by rw [hf]; rfl
  have fo : dOp f = dOp d := by rw [hf]; rfl
  have fc : f.committed = false := by rw [hf]; exact hc
  have fq : f.payload = d.payload ++ [data] := by rw [hf]
  clear hf
  rw [e]
  split
  · have s : settleDesc c (putDesc (endRead u (r, d.idx, 1)) r f) r f = putDesc (putDesc (endRead u (r, d.idx, 1)) r f) r f := by
      have : settleDesc c (putDesc (endRead u (r, d.idx, 1)) r f) r f = payloadStep c (putDesc (endRead u (r, d.idx, 1)) r f) r f := by
        unfold settleDesc
        rcases ho with ho | ho <;> (rw [fo, ho]; rfl)
      rw [this]
      unfold payloadStep
      rw [if_neg (by rw [fc]; simp), if_pos (by omega)]
      unfold issuePayload
      dsimp only
      rw [if_pos (.inl (by omega))]
    rw [s]
    exact ⟨f, (k1.put (f := f) rfl rfl).1, fq⟩
  · exact ⟨f, k1.1, fq⟩

/-- A field of a ring that writing a descriptor leaves alone. -/

theorem putDesc_field {α : Type} (f : Machine.Ring → α) (u : Units) (r q : Nat) (d : Desc) (hf : ∀ (x : Machine.Ring) (l : List Desc), f { x with descs := l } = f x) : f (ring (putDesc u r d) q) = f (ring u q) := by
  unfold putDesc
  dsimp only
  by_cases h : q = r
  · subst h; rw [ring_setRing_same]; exact hf _ _
  · rw [ring_setRing_other h]

theorem writeEntry_sub (u : Units) (r : Nat) (d : Desc) (st r0 r1 : Nat) (l : List Nat) (q : Nat) : ∀ x ∈ (ring (writeEntry u r d st r0 r1 l) q).descs, x ∈ (ring u q).descs := by
  intro x hx
  by_cases h : q = r
  · subst h
    rw [(writeEntry_does u q d st r0 r1 l).2.1] at hx
    exact (List.mem_filter.mp hx).1
  · unfold writeEntry at hx
    dsimp only at hx
    rwa [ring_written, ring_setRing_other h] at hx

theorem laterDone_sub (l : List Desc) (r q : Nat) : ∀ u : Units, ∀ x ∈ (ring (l.foldl (fun u m => writeEntry u r m 2 0 0 [m.idx]) u) q).descs, x ∈ (ring u q).descs := by
  induction l with
  | nil => exact fun _ _ h => h
  | cons m l ih => exact fun u x hx => writeEntry_sub u r m 2 0 0 [m.idx] q x (ih _ x hx)

theorem dead_descs (u : Units) (r q : Nat) (P : Prop) [Decidable P] : (ring (if P then setRing u r { ring u r with runDead := true } else u) q).descs = (ring u q).descs := by
  split
  · by_cases h : q = r
    · subst h; rw [ring_setRing_same]
    · rw [ring_setRing_other h]
  · rfl

theorem complete_sub (u : Units) (r i st r0 r1 q : Nat) : ∀ x ∈ (ring (complete u r i st r0 r1) q).descs, x ∈ (ring u q).descs := by
  intro x hx
  unfold complete at hx
  split at hx
  · exact hx
  · dsimp only at hx
    have h1 := writeEntry_sub _ _ _ _ _ _ _ q x (laterDone_sub _ r q _ x hx)
    rwa [dead_descs] at h1

/-- Completing a descriptor takes it out of its ring, and puts none back. -/

theorem complete_gone {u : Units} {r i q k : Nat} (st r0 r1 : Nat) (h : findDesc u q k = none) : findDesc (complete u r i st r0 r1) q k = none := by
  unfold findDesc at *
  rw [List.find?_eq_none] at *
  exact fun x hx => h x (complete_sub u r i st r0 r1 q x hx)

theorem complete_self {u : Units} {r i : Nat} (st r0 r1 : Nat) : findDesc (complete u r i st r0 r1) r i = none := by
  cases h : findDesc u r i with
  | none => exact complete_gone st r0 r1 h
  | some d =>
    have hi := findDesc_idx h
    subst hi
    exact (complete_posted (d := d) st r0 r1 h rfl).1

theorem durable_done {u : Units} {n : Nat} (h : durableBelow u n = true) (f : Units → Units) : whenDurable u n f = f u := by
  unfold whenDurable; rw [if_pos h]

theorem poison_send (c : Ctl) (u : Units) (r : Nat) (d : Desc) (h1 : ownAt d 1 = 0) (hp : d.prog.length < dCount d) (hs : sentOf d < dCount d)
    (hc : canTake u (ringPool (lineSlice u u.regs.epoch (dLine d + sentOf d))) 2 = true) (hf : routeRefused u (epCore 5) (epSlice (lineSlice u u.regs.epoch (dLine d + sentOf d))) = false) :
    ∃ k ∈ (poisonSetStep c u r d).net, k.typ = .lineWr ∧ k.lla = dLine d + sentOf d ∧ k.ord = d.idx := by
  unfold poisonSetStep
  dsimp only
  rw [if_neg (by omega), if_neg (by omega), if_neg (by omega)]
  exact sendLines_first (fun k => { typ := .lineWr, src := epCore 5, cls := 3, port := 100 + r, ord := d.idx, lla := dLine d + k, poison := true }) 2 (dCount d) 4095 (sentOf d) u hs hc hf

theorem poison_done (c : Ctl) (u : Units) (r : Nat) (d : Desc) (h : started u r d) (h1 : ownAt d 1 = 0) (hp : d.prog.length = dCount d) (hf : dField d 26 1 = 0) :
    posted u (poisonSetStep c u r d) r d (if (placedLines d).length = dCount d then 0 else 8) (placedLines d).length 0 ∧
      getF (poisonSetStep c u r d) F.INT_POISON_set = min (getF u F.INT_POISON_set + (placedLines d).length) (2 ^ F.INT_POISON_set.w - 1) := by
  have e : poisonSetStep c u r d = complete (addSat u F.INT_POISON_set 0 0 (placedLines d).length) r d.idx (if (placedLines d).length = dCount d then 0 else 8) (placedLines d).length := by
    unfold poisonSetStep
    dsimp only
    rw [if_neg (by omega), if_neg (by omega), if_pos hp, if_pos hf]
  rw [e]
  refine ⟨(CarriesOn.rings (z := addSat u F.INT_POISON_set 0 0 (placedLines d).length) (CarriesOn.refl h.1) rfl).ends _ _ 0 rfl, ?_⟩
  rw [(complete_keeps _ r d.idx _ _ _).getF F.INT_POISON_set _ _ (by decide)]
  unfold addSat
  rw [getF_putF_same u F.INT_POISON_set 0 0 _ (by decide)]
  exact Nat.mod_eq_of_lt (Nat.lt_of_le_of_lt (Nat.min_le_right _ _) (by decide))

theorem clear_done (c : Ctl) (u : Units) (r : Nat) (d : Desc) (h : started u r d) (h1 : 3 ≤ ownAt d 2) (hd : durableBelow u (ownAt d 3) = true) :
    posted u (poisonClearStep c u r d) r d 0 (ownAt d 1) 0 := by
  unfold poisonClearStep poisonClearGo
  dsimp only
  split
  · omega
  · omega
  · omega
  · rw [durable_done (by exact hd)]
    exact ((CarriesOn.refl h.1).put (f := d) rfl rfl).ends 0 _ 0 rfl

theorem issuePayload_getF (r : Nat) : ∀ (n : Nat) (d : Desc) (u : Units) (f : Fld) (i j : Nat), getF (issuePayload r n d u) f i j = getF u f i j := by
  intro n
  induction n with
  | zero => intros; rfl
  | succ n ih =>
    intro d u f i j
    unfold issuePayload
    dsimp only
    split
    · rfl
    · exact ih _ _ f i j

theorem image_first (r n : Nat) (d : Desc) (u : Units) (hr : u.rings.reads = []) (ho : d.own = []) (hp : 0 < payloadReads d) (hl : d.payload = []) :
    .ringRead (dBuffer d / 64 * 64) ∈ (issuePayload r (n + 1) d u).out := by
  have hs : sentOf d = 0 := by unfold sentOf; rw [ho]; rfl
  unfold issuePayload
  dsimp only
  rw [if_neg (by rw [hs, hr, hl]; simp; omega)]
  refine (issuePayload_keeps r n _ _).1 _ ?_
  rw [hs]; exact List.mem_append_right _ (List.mem_singleton_self _)

theorem image_begins (c : Ctl) (u : Units) (r : Nat) (d : Desc) (ho : dOp d = 0x32) (hb : badImageWrite u d = false) (hw : u.boot.writeDesc = none) (hr : u.rings.reads = []) (hn : d.own = []) (hp : d.payload = []) :
    getF (imageStart c u r d) F.BOOT_WRITE_busy = 1 ∧ .ringRead (dBuffer d / 64 * 64) ∈ (imageStart c u r d).out := by
  obtain ⟨f, hf⟩ : ∃ f : Desc, f = { d with committed := true } := ⟨_, rfl⟩
  obtain ⟨y, hy⟩ : ∃ y, y = onBoot (putReg (putDesc u r f) .BOOT_WRITE 0 0 1) fun b => { b with writeDesc := some (r, d.idx), written := [] } := ⟨_, rfl⟩
  have k : 0 < payloadReads d := by
    unfold badImageWrite imageBytesOf at hb
    simp at hb
    unfold payloadReads
    rw [if_neg (by rw [ho]; decide), if_neg (by rw [ho]; decide), if_pos ho]
    omega
  have e : imageStart c u r d = issuePayload r 64 f y := by
    unfold imageStart
    rw [if_neg (by rw [hw]; simp)]
    dsimp only
    unfold imageStep
    rw [if_pos (by show d.payload.length < payloadReads d; rw [hp]; exact k), hy, hf]
  have g1 : getF y F.BOOT_WRITE_busy = 1 := by
    rw [hy]
    show nbits (rawReg (putReg (putDesc u r f) .BOOT_WRITE 0 0 1) .BOOT_WRITE 0 0) _ _ = 1
    rw [rawReg_putReg_same]
    rfl
  rw [e]
  refine ⟨(issuePayload_getF r 64 f y F.BOOT_WRITE_busy 0 0).trans g1, ?_⟩
  have h3 : y.rings.reads = [] := by rw [hy]; exact hr
  have hd : dBuffer f = dBuffer d := by rw [hf]; rfl
  rw [← hd]
  refine image_first r 63 f y h3 (by rw [hf]; exact hn) ?_ (by rw [hf]; exact hp)
  rw [hf]; exact k

theorem abort_begins (c : Ctl) (u : Units) (r : Nat) (d : Desc) (h : findDesc u r d.idx = some d) : let q := abortTarget d
    let e := { d with begun := true }
    let y := putDesc u r { d with begun := true, committed := true }
    let t := abortStart c (putDesc u r e) r e
    (findDesc y q.1 q.2 = none → posted u t r d (if neverFetched y q.1 q.2 then 4 else 1) 0 0) ∧
    ∀ o, findDesc y q.1 q.2 = some o → (dOp o = 0x3F → posted u t r d 4 0 0) ∧ (dOp o ≠ 0x3F → o.begun = true → o.committed = true → posted u t r d 1 0 0) ∧
      (dOp o ≠ 0x3F → o.begun = false → findDesc t q.1 q.2 = none ∧ findDesc t r d.idx = none) := by
  intro q e y t
  obtain ⟨z, hz⟩ : ∃ z, z = putDesc (putDesc u r e) r { d with begun := true, committed := true } := ⟨_, rfl⟩
  have k : CarriesOn u z r d { d with begun := true, committed := true } := by
    rw [hz]; exact ((CarriesOn.refl h).put (f := e) rfl rfl).put rfl rfl
  have kq : cqBase z r = cqBase u r := by rw [hz]; rfl
  have same : ∀ a b, findDesc z a b = findDesc y a b := by
    intro a b
    unfold findDesc
    rw [hz]
    congr 1
    by_cases ha : a = r
    · subst ha
      unfold y putDesc
      dsimp only
      rw [ring_setRing_same, ring_setRing_same, ring_setRing_same]
      dsimp only
      rw [List.map_map]
      apply List.map_congr_left
      intro x _
      by_cases hx : x.idx = d.idx
      · simp [hx, e]
      · simp [hx, e]
    · unfold y putDesc
      dsimp only
      rw [ring_setRing_other ha, ring_setRing_other ha, ring_setRing_other ha]
  have nf : ∀ a b, neverFetched z a b = neverFetched y a b := by
    intro a b
    unfold neverFetched
    dsimp only
    rw [hz, putDesc_field (fun x => x.fetch) _ _ _ _ (fun _ _ => rfl), putDesc_field (fun x => x.tail) _ _ _ _ (fun _ _ => rfl), putDesc_field (fun x => x.fetch) _ _ _ _ (fun _ _ => rfl),
      putDesc_field (fun x => x.tail) _ _ _ _ (fun _ _ => rfl)]
    unfold y
    rw [putDesc_field (fun x => x.fetch) _ _ _ _ (fun _ _ => rfl), putDesc_field (fun x => x.tail) _ _ _ _ (fun _ _ => rfl)]
    rfl
  have ht : t = match findDesc z q.1 q.2 with
    | none => complete z r d.idx (if neverFetched z q.1 q.2 then 4 else 1)
    | some o =>
      if dOp o = 0x3F then complete z r d.idx 4
      else if o.begun = false then complete (complete z q.1 q.2 2) r d.idx 0
      else if o.committed || stopping o then complete z r d.idx 1
      else abortStep c (undoDesc c z q.1 o) r e := by
    rw [hz]; rfl
  refine ⟨fun a => ?_, fun o a => ⟨fun b => ?_, fun b b' b'' => ?_, fun b b' => ?_⟩⟩
  · rw [ht, same, a]
    dsimp only
    rw [nf]
    exact k.ends _ 0 0 kq
  · rw [ht, same, a]
    dsimp only
    rw [if_pos b]
    exact k.ends _ 0 0 kq
  · rw [ht, same, a]
    dsimp only
    rw [if_neg b, if_neg (by rw [b']; simp), if_pos (by rw [b'']; rfl)]
    exact k.ends _ 0 0 kq
  · rw [ht, same, a]
    dsimp only
    rw [if_neg b, if_pos b']
    exact ⟨complete_gone _ _ _ (complete_self _ _ _), complete_self _ _ _⟩

theorem trim_done (c : Ctl) (u : Units) (r : Nat) (d : Desc) (h : started u r d) (h4 : ownAt d 4 ≠ 0) (hd : durableBelow u (ownAt d 4 - 1) = true) :
    posted u (trimStep c u r d) r d (if ownAt d 3 = 1 then 2 else if ownAt d 2 = 0 then 0 else 8) (ownAt d 1) 0 := by
  unfold trimStep trimGo
  dsimp only
  rw [if_pos h4, durable_done (by exact hd)]
  exact ((CarriesOn.refl h.1).put (f := d) rfl rfl).ends _ _ 0 rfl

theorem move_done (c : Ctl) (u : Units) (r : Nat) (d : Desc) (h : started u r d) (n : Nat) (l : List Nat) (hp : d.prog = 0 :: n :: l) (hd : durableBelow u (n + 1) = true) :
    posted u (regionMoveStep c u r d) r d 0 d.r0 0 := by
  have e : regionMoveStep c u r d = whenDurable (putDesc u r { d with committed := true }) (n + 1) fun u => complete u r d.idx 0 d.r0 := by
    unfold regionMoveStep
    rw [hp]
    rfl
  rw [e, durable_done (by exact hd)]
  exact ((CarriesOn.refl h.1).put (f := { d with committed := true }) rfl rfl).ends 0 _ 0 rfl

theorem rebuild_done (c : Ctl) (u : Units) (r : Nat) (d : Desc) (h : started u r d) (h1 : u.hng.rebuilding.contains (rebuildGroup d) = false) (h2 : u.hng.rebuildShort.contains (rebuildGroup d) = false)
    (h3 : groupState u (rebuildGroup d) ≠ 3) : posted u (rebuildStep c u r d) r d 0 (tabGet u.hng.occN (rebuildGroup d)) 0 := by
  unfold rebuildStep
  dsimp only
  rw [if_neg (by rw [h1]; simp), if_neg (by rw [h2]; simpa using h3)]
  exact (CarriesOn.refl h.1).ends 0 _ 0 rfl

theorem cal_done (c : Ctl) (u : Units) (r : Nat) (d : Desc) (h : started u r d) (h1 : ∀ x ∈ u.drf.cals, x.1 ∉ calGroups u d) : posted u (driftCalStep c u r d) r d 0 (ownAt d 0) 0 := by
  unfold driftCalStep
  rw [if_neg]
  · exact (CarriesOn.refl h.1).ends 0 _ 0 rfl
  · intro k
    rw [List.any_eq_true] at k
    obtain ⟨x, hx, k⟩ := k
    exact h1 x hx (by simpa using k)

theorem sanitize_done (c : Ctl) (u : Units) (r : Nat) (d : Desc) (h : started u r d) (h1 : ownAt d 0 = 1) (hd : durableBelow u (ownAt d 1) = true) :
    posted u (sanitizeStep c u r d) r d (if ownAt d 2 = 0 then 0 else 8) (nRegions u.v - ownAt d 2) 0 := by
  unfold sanitizeStep
  dsimp only
  rw [if_pos h1, durable_done hd]
  exact (CarriesOn.refl h.1).ends _ _ 0 rfl

theorem checkpoint_done (c : Ctl) (u : Units) (r : Nat) (d : Desc) (h : started u r d) (l : List Nat) (hp : d.prog = 0 :: l) : posted u (checkpointStep c u r d) r d 0 d.r0 0 := by
  unfold checkpointStep
  rw [hp]
  dsimp only
  rw [if_pos rfl]
  exact (CarriesOn.refl h.1).ends 0 _ 0 rfl

theorem nStripes_le (v : Variant) : nStripes v ≤ 64 := by unfold nStripes pick; split <;> decide

theorem group_put (u : Units) (g n : Nat) : groupState (putF u F.HNG_GROUP_s_state g 0 n) g = n % 4 := by
  unfold groupState
  exact getF_putF_same u F.HNG_GROUP_s_state g 0 n (by decide)

/-- What leaves a group's state and the rebuilds under way as they are. -/
def GroupKept (g : Nat) (u x : Units) : Prop := groupState x g = groupState u g ∧ x.hng.rebuilding = u.hng.rebuilding

theorem GroupKept.refl (g : Nat) (u : Units) : GroupKept g u u := ⟨rfl, rfl⟩

theorem GroupKept.trans {g : Nat} {u x y : Units} (h : GroupKept g u x) (k : GroupKept g x y) : GroupKept g u y := ⟨k.1.trans h.1, k.2.trans h.2⟩

theorem GroupKept.notice {g : Nat} (hg : g < 64) {u x : Units} (h : NoticeOnly u x) : GroupKept g u x := ⟨h.kept.group g hg, by rw [h.hng]⟩

theorem hingeEvent_group {g : Nat} (hg : g < 64) (u : Units) (s q : Nat) : GroupKept g u (hingeEvent u s q) := .notice hg (.counts (emitEvent_only _ _ _ _))

theorem journal_group {g : Nat} (hg : g < 64) (u : Units) (t i v a : Nat) : GroupKept g u (journal u t i v a) := by
  refine ⟨(journal_kept u t i v a).group g hg, ?_⟩
  unfold journal closeBlock
  dsimp only
  split
  · split <;> rfl
  · rfl

theorem checkPool_group {g : Nat} (hg : g < 64) (u : Units) : GroupKept g u (checkPool u) := by
  refine ⟨(checkPool_kept u).group g hg, ?_⟩
  unfold checkPool
  split
  · split
    · have n : NoticeOnly (flag { u with hng := { u.hng with lowArmed := false } } F.HNG_ERR_pool_low)
          (capacityNotice (hingeEvent (flag { u with hng := { u.hng with lowArmed := false } } F.HNG_ERR_pool_low) 0 15) 1 0 15) :=
        (NoticeOnly.counts (emitEvent_only _ _ _ _)).trans (NoticeOnly.notice _ _ _)
      rw [n.hng]; rfl
    · rfl
  · rfl

theorem remaining_group {g : Nat} (hg : g < 64) (u : Units) (s n : Nat) : GroupKept g u (putF u F.HNG_GROUP_s_remaining s 0 n) := by
  refine ⟨?_, rfl⟩
  by_cases e : g = s
  · subst e; exact (remaining_kept u g n hg).group g hg
  · exact getF_putF_other (f := F.HNG_GROUP_s_remaining) (g := F.HNG_GROUP_s_state) (by simp only [F.HNG_GROUP_s_remaining, F.HNG_GROUP_s_state, regAddr, Reg.info]; omega) _ _

theorem putPip_group {g : Nat} (hg : g < 64) (u : Units) (p e : Nat) (j : Bool) : GroupKept g u (putPip u p e j) := by
  unfold putPip
  dsimp only
  refine GroupKept.trans ?_ (checkPool_group hg _)
  refine GroupKept.trans (GroupKept.trans ?_ (journal_group hg { (moveCounts u p (pState (pipEntry u p)) (pState e) j) with hng := { (moveCounts u p (pState (pipEntry u p)) (pState e) j).hng with pip := tabPutD u.hng.pip p (pipFirst (moveCounts u p (pState (pipEntry u p)) (pState e) j) p) e } } 2 p e 0)) ?_
  · exact ⟨rfl, rfl⟩
  · split
    · exact .refl _ _
    · exact remaining_group hg _ _ _

theorem putHinge_group {g : Nat} (hg : g < 64) (u : Units) (l e : Nat) : GroupKept g u (putHinge u l e) := by
  have k := journal_group hg { u with hng := { u.hng with hinge := tabPutD u.hng.hinge l (l + 2 ^ 23) e } } 1 l e 0
  exact ⟨k.1, k.2⟩

theorem releaseRegion_group {g : Nat} (hg : g < 64) (u : Units) (p : Nat) : GroupKept g u (releaseRegion u p) := by
  unfold releaseRegion
  dsimp only
  split
  · exact putPip_group hg _ _ _ _
  · split
    · refine (putPip_group hg u p (nput (pipEntry u p) 56 3 5) true).trans (GroupKept.trans ?_ (hingeEvent_group hg (flag (putPip u p (nput (pipEntry u p) 56 3 5)) F.HNG_ERR_retired) _ _))
      exact ⟨getF_putF_other (f := F.HNG_ERR_retired) (g := F.HNG_GROUP_s_state) (by simp only [F.HNG_ERR_retired, F.HNG_GROUP_s_state, regAddr, Reg.info]; omega) _ _, rfl⟩
    · split
      · exact putPip_group hg _ _ _ _
      · exact GroupKept.trans ⟨rfl, rfl⟩ (putPip_group hg { u with hng := { u.hng with limbo := u.hng.limbo ++ [(p, u.hng.seq)], freed := u.hng.freed ++ [p] } } _ _ _)

theorem repoint_group {g : Nat} (hg : g < 64) (u : Units) (l t : Nat) (f : Bool) : GroupKept g u (repoint u l t f) := by
  unfold repoint recount
  dsimp only
  have a := putPip_group hg u t (targetPip u (hPrn (hingeEntry u l)) t (if pState (pipEntry u t) = 1 then 3 else 2)) true
  have b := putHinge_group hg (putPip u t (targetPip u (hPrn (hingeEntry u l)) t (if pState (pipEntry u t) = 1 then 3 else 2)) true) l (t + if f = true then 2 ^ 23 else 0)
  have c := (a.trans b).trans (releaseRegion_group hg _ (hPrn (hingeEntry u l)))
  exact ⟨c.1, c.2⟩

theorem addWork_group (g : Nat) (u : Units) (w : Work) : GroupKept g u (addWork u w) := by
  unfold addWork
  dsimp only
  split
  · exact .refl _ _
  · split <;> exact ⟨rfl, rfl⟩

theorem scanTarget_group (g : Nat) (u : Units) (c : Nat) : GroupKept g u (scanTarget u c).2 := by
  unfold scanTarget
  split
  · exact .refl _ _
  · split
    · exact .refl _ _
    · exact ⟨rfl, rfl⟩

theorem fold_group {α : Type} {g : Nat} (f : Units → α → Units) (h : ∀ u a, GroupKept g u (f u a)) : ∀ (l : List α) (u : Units), GroupKept g u (l.foldl f u) := by
  intro l
  induction l with
  | nil => intro u; exact .refl _ _
  | cons a l ih => intro u; exact (h u a).trans (ih _)

theorem fold_marked {α : Type} {g : Nat} {f : Units → α → Units} (h : ∀ u a, GroupKept g u (f u a)) (l : List α) (u : Units)
    (k : groupState u g = 1 ∧ g ∈ u.hng.rebuilding) : groupState (l.foldl f u) g = 1 ∧ g ∈ (l.foldl f u).hng.rebuilding := by
  have e := fold_group f h l u
  exact ⟨e.1.trans k.1, by rw [e.2]; exact k.2⟩

theorem rebuild_begins (y : Units) (g : Nat) (hg : g < 64) : groupState (beginRebuild y g) g = 1 ∧ g ∈ (beginRebuild y g).hng.rebuilding := by
  unfold beginRebuild
  dsimp only
  refine fold_marked (fun u l => ?_) _ _ ⟨group_put y g 1, List.mem_append_right _ (List.mem_singleton_self _)⟩
  split
  · exact .refl _ _
  · split
    · have q := scanTarget_group g u 1
      split
      · rename_i e; rw [e] at q; exact q.trans (repoint_group hg _ _ _ _)
      · rename_i e; rw [e] at q; exact q.trans ⟨rfl, rfl⟩
    · exact addWork_group _ _ _

theorem cal_begins (c : Ctl) (u : Units) (r : Nat) (d : Desc) (hg : ∀ g ∈ calGroups u d, pdOn u (pdMedia (g / 8)) = true)
    (hu : ∀ x ∈ underWay u, (x.1 = r ∧ x.2.idx = d.idx) ∨ dOp x.2 ≠ 0x23) (hn : dField d 10 4 = 0) : ∀ g ∈ calGroups u d, ∃ x ∈ (driftCalStart c u r d).drf.cals, x.1 = g := by
  unfold driftCalStart
  dsimp only
  rw [if_neg, if_neg, hn]
  · unfold calAdvances
    dsimp only
    rw [if_neg (by decide)]
    intro g k
    exact ⟨_, List.mem_append_right _ (List.mem_map_of_mem k), rfl⟩
  · intro k
    rw [List.any_eq_true] at k
    obtain ⟨x, hx, k⟩ := k
    simp only [Bool.and_eq_true, beq_iff_eq, Bool.not_eq_true', Bool.and_eq_false_iff, beq_eq_false_iff_ne] at k
    rcases hu x hx with q | q
    · rcases k.1.2 with w | w
      · exact w q.1
      · exact w q.2
    · exact q k.1.1
  · intro k
    rw [List.any_eq_true] at k
    obtain ⟨x, hx, k⟩ := k
    rw [hg x hx] at k
    simp at k

theorem putPip_mounted (u : Units) (p e : Nat) (j : Bool) : (putPip u p e j).hng.mounted = u.hng.mounted := by
  unfold putPip
  dsimp only
  rw [(checkPool_kept _).mounted]
  split
  · exact (journal_kept _ _ _ _ _).mounted
  · exact (journal_kept _ _ _ _ _).mounted

theorem hFresh_put (e : Nat) : hFresh (nput e 23 1 1) = true := by
  unfold hFresh
  rw [nbits_nput_same]
  rfl

theorem trimTables_fresh (y : Units) (l : Nat) (hm : y.hng.mounted = true) (hn : moveOf y l = none) : hFresh (hingeEntry (trimTables y l none) l) = true := by
  unfold trimTables
  rw [hn]
  dsimp only
  split
  · assumption
  · next hf =>
    obtain ⟨t, ht⟩ := recount_does { y with hng := { y.hng with due := y.hng.due.filter fun w => !(w.region == l && w.cause ≤ 6 && w.cause != 3) } } l fun u =>
      putHinge (putPip u (hPrn (hingeEntry { y with hng := { y.hng with due := y.hng.due.filter fun w => !(w.region == l && w.cause ≤ 6 && w.cause != 3) } } l))
        (nput (pipEntry u (hPrn (hingeEntry { y with hng := { y.hng with due := y.hng.due.filter fun w => !(w.region == l && w.cause ≤ 6 && w.cause != 3) } } l))) 24 16
          (pGen (pipEntry u (hPrn (hingeEntry { y with hng := { y.hng with due := y.hng.due.filter fun w => !(w.region == l && w.cause ≤ 6 && w.cause != 3) } } l))) + 1)))
        l (nput (hingeEntry { y with hng := { y.hng with due := y.hng.due.filter fun w => !(w.region == l && w.cause ≤ 6 && w.cause != 3) } } l) 23 1 1)
    rw [ht]
    show hFresh (hingeEntry (putHinge _ _ _) l) = true
    rw [hingeEntry_putHinge_same _ _ _ (by rw [putPip_mounted]; exact hm)]
    exact hFresh_put _

theorem trimTablesOf_one (y : Units) (l : Nat) (hm : y.hng.mounted = true) (hn : moveOf y l = none) : hFresh (hingeEntry (trimTablesOf y [(l, 0)]) l) = true := by
  have k := trimTables_fresh y l hm hn
  unfold trimTablesOf
  simp only [List.foldl_cons, List.foldl_nil, if_true]
  generalize trimTables y l none = x at k ⊢
  exact k

theorem hinge_core {u x : Units} (h : x.hng.mounted = u.hng.mounted) (h' : x.hng.hinge = u.hng.hinge) (l : Nat) : hingeEntry x l = hingeEntry u l := by
  unfold hingeEntry; rw [h, h']

theorem sliceCore_table {u x : Units} (h : sliceCore true x = sliceCore true u) : x.hng.mounted = u.hng.mounted ∧ x.hng.hinge = u.hng.hinge := by
  have e : { x.hng with pins := [] } = { u.hng with pins := [] } := sliceCore_hng h
  injection e
  exact ⟨by assumption, by assumption⟩

theorem releaseHolds_hng (c : Ctl) (u : Units) (l : List (Nat × Nat)) : (releaseHolds c u l).hng.mounted = u.hng.mounted ∧ (releaseHolds c u l).hng.hinge = u.hng.hinge := by
  unfold releaseHolds
  dsimp only
  generalize hl : List.range (nDdr u.v) = ns
  clear hl
  have k : ∀ v : Units, (ns.foldl (fun u s => if pdOn u (pdDram s) then pumpSlice c u s else u) v).hng.mounted = v.hng.mounted ∧
      (ns.foldl (fun u s => if pdOn u (pdDram s) then pumpSlice c u s else u) v).hng.hinge = v.hng.hinge := by
    induction ns with
    | nil => intro v; exact ⟨rfl, rfl⟩
    | cons a t ih =>
      intro v
      rw [List.foldl_cons, (ih _).1, (ih _).2]
      split
      · exact sliceCore_table (sliceCore_pumpSlice _ _ _)
      · exact ⟨rfl, rfl⟩
  exact k _

theorem trim_batch (c : Ctl) (u : Units) (r : Nat) (d : Desc) (k n sk l : Nat) (y : Units) (h1 : d.own = [n, k, sk, 0, 0, l, 0]) (h2 : n = trimCount d)
    (h3 : emptyLines c u (inBatch [(l, 0)]) = (true, y)) (hm : y.hng.mounted = true) (hn : moveOf y l = none) : hFresh (hingeEntry (trimStep c u r d) l) = true := by
  have hb : trimBatch d = [(l, 0)] := by unfold trimBatch; rw [h1]; simp [List.range_succ]
  obtain ⟨v, hv⟩ : ∃ v, v = releaseHolds c (trimTablesOf y [(l, 0)]) ([(l, 0)].map fun b => (b.1 * 131072, 131072)) := ⟨_, rfl⟩
  obtain ⟨f, hf⟩ : ∃ f : Desc, f = { d with own := [n, k + 1, sk, 0, 0], committed := true } := ⟨_, rfl⟩
  have a0 : ownAt d 0 = n := by unfold ownAt; rw [h1]; rfl
  have a1 : ownAt d 1 = k := by unfold ownAt; rw [h1]; rfl
  have a2 : ownAt d 2 = sk := by unfold ownAt; rw [h1]; rfl
  have a3 : ownAt d 3 = 0 := by unfold ownAt; rw [h1]; rfl
  have a4 : ownAt d 4 = 0 := by unfold ownAt; rw [h1]; rfl
  have e1 : trimStep c u r d = trimGo c r 1 f v := by
    unfold trimStep
    rw [trimGo]
    dsimp only
    rw [a4, if_neg (by simp), hb, if_neg (by simp), h3, a0, a1, a2, a3, hv, hf]
    simp [h2]
  have b0 : ownAt f 0 = n := by rw [hf]; rfl
  have b4 : ownAt f 4 = 0 := by rw [hf]; rfl
  have bb : trimBatch f = [] := by rw [hf]; unfold trimBatch; simp
  have bc : trimCount f = n := by rw [h2, hf]; rfl
  obtain ⟨w, hw⟩ : ∃ w : Desc, trimGo c r 1 f v = putDesc (closePoint v).2 r w := by
    rw [trimGo]
    dsimp only
    rw [b4, if_neg (by simp), bb, if_pos rfl, if_pos (.inr (b0.trans bc.symm)), trimGo]
    exact ⟨_, rfl⟩
  rw [e1, hw]
  have c1 : hingeEntry (putDesc (closePoint v).2 r w) l = hingeEntry v l := (closeBlock_kept v).hingeEntry l
  have c2 : hingeEntry v l = hingeEntry (trimTablesOf y [(l, 0)]) l := by
    rw [hv]
    generalize trimTablesOf y [(l, 0)] = x
    obtain ⟨k1, k2⟩ := releaseHolds_hng c x ([(l, 0)].map fun b => (b.1 * 131072, 131072))
    exact hinge_core k1 k2 l
  rw [c1, c2]
  exact trimTablesOf_one y l hm hn

theorem request_judged {c : Ctl} {u : Units} {r : Nat} {d : Desc} {m : Mode} (h : handed c u r d) (ho : dOp d = 0x33) (hq : requestTarget d = modeCode m) (ht : u.pwr.trans = none) :
    modeRequestOp m r d.idx c u = if c.mode = m then (c, complete (putDesc u r { d with begun := true, committed := true }) r d.idx 0 (modeCode c.mode))
      else requestMode c (putDesc u r { d with begun := true, committed := true }) r d.idx m := by
  obtain ⟨h1, h2, h3, h4⟩ := h
  unfold modeRequestOp
  rw [h1]
  dsimp only
  rw [if_neg (by rw [ho, hq]; simp), if_neg (by rw [h2]; simp), if_neg (by rw [h3]; simp), if_neg (by rw [h4]; simp)]
  exact if_neg (show ¬ (u.pwr.trans.isSome = true) by rw [ht]; simp)

theorem beginDrain_ctl (c : Ctl) (u : Units) (k f : Nat) : (beginDrain c u k f).1 = enterMode c .drain k := rfl

theorem enterRun_ctl (c : Ctl) (u : Units) (k f : Nat) : (enterRun c u k f).1 = enterMode { c with drainDone := false } .run k := rfl

theorem settle_run (c : Ctl) (y : Units) (t : Trans) (hm : c.mode = .service) (ht : y.pwr.trans = some t) (hg : t.target = .run) :
    (y.pwr.rising = [] → (settleMode c y).1 = enterMode { c with drainDone := false } .run t.cause) ∧ (y.pwr.rising ≠ [] → settleMode c y = (c, y)) := by
  unfold settleMode
  rw [ht]
  dsimp only
  rw [hg, hm]
  dsimp only
  rw [if_neg (by simp)]
  refine ⟨fun h => ?_, fun h => if_neg h⟩
  rw [if_pos h]
  generalize hp : enterRun c y t.cause _ = p
  have k := congrArg Prod.fst hp
  rw [enterRun_ctl] at k
  obtain ⟨a, b⟩ := p
  show a = _
  rw [hm] at k
  exact k.symm

theorem run_accepted (c : Ctl) (u : Units) (r i : Nat) (hm : c.mode = .service) :
    ((∀ k ∈ wantedClusters u, pdOn u (pdCluster k) = true) → (acceptRun c u r i).1 = enterMode { c with drainDone := false } .run 2) ∧
    ((∃ k ∈ wantedClusters u, pdOn u (pdCluster k) = false) → acceptRun c u r i = (c, raiseClusters (putTrans u (some { target := .run, desc := some (r, i), cause := 2 })))) := by
  have hr : (raiseClusters (putTrans u (some { target := .run, desc := some (r, i), cause := 2 }))).pwr.rising = ((wantedClusters u).map pdCluster).filter fun d => !pdOn u d := rfl
  have ht : (raiseClusters (putTrans u (some { target := .run, desc := some (r, i), cause := 2 }))).pwr.trans = some { target := .run, desc := some (r, i), cause := 2 } := rfl
  unfold acceptRun
  generalize raiseClusters (putTrans u (some { target := .run, desc := some (r, i), cause := 2 })) = y at hr ht
  obtain ⟨k1, k2⟩ := settle_run c y _ hm ht rfl
  refine ⟨fun h => k1 ?_, fun ⟨k, hk, h⟩ => k2 ?_⟩
  · rw [hr, List.filter_eq_nil_iff]
    intro a ha
    obtain ⟨k, hk, rfl⟩ := List.mem_map.1 ha
    rw [h k hk]; simp
  · intro e
    rw [hr, List.filter_eq_nil_iff] at e
    have := e (pdCluster k) (List.mem_map_of_mem hk)
    rw [h] at this
    simp at this

/-- Changes of the power unit's state that no transition and no entry into HUSH sees: only the notices that wait may differ. -/
def PwrKept (u x : Units) : Prop := ∃ n, x.pwr = { u.pwr with notices := n }

theorem PwrKept.refl (u : Units) : PwrKept u u := ⟨_, rfl⟩

theorem PwrKept.of {u x : Units} (h : x.pwr = u.pwr) : PwrKept u x := ⟨u.pwr.notices, by rw [h]⟩

theorem PwrKept.trans {u x y : Units} (h : PwrKept u x) (k : PwrKept x y) : PwrKept u y := by
  obtain ⟨n, h⟩ := h; obtain ⟨m, k⟩ := k; exact ⟨m, by rw [k, h]⟩

theorem PwrKept.notice {u x : Units} (h : NoticeOnly u x) : PwrKept u x := by obtain ⟨⟨_, n, _, _, _, rfl⟩, _⟩ := h; exact ⟨n, rfl⟩

theorem PwrKept.steady {u x : Units} (h : PumpSteady u x) : PwrKept u x := .of (show (pumpCore x).pwr = (pumpCore u).pwr by rw [h.core])

theorem PwrKept.ite {u a b : Units} {P : Prop} [Decidable P] (h : PwrKept u a) (k : PwrKept u b) : PwrKept u (if P then a else b) := by split <;> assumption

theorem PwrKept.foldl {α : Type} {f : Units → α → Units} (h : ∀ u a, PwrKept u (f u a)) (l : List α) (u : Units) : PwrKept u (l.foldl f u) := by
  induction l generalizing u with
  | nil => exact .refl u
  | cons a t ih => exact (h u a).trans (ih _)

theorem makeShort_pwr (c : Ctl) (u : Units) (p : Nat) : PwrKept u (makeShort c u p) := by
  unfold makeShort
  split
  · dsimp only
    split
    · exact .of rfl
    · refine PwrKept.ite ?_ ?_
      · refine .of ?_
        unfold setReq setPort
        simp
      · refine PwrKept.trans (.of ?_) (.steady (.failReq _ _ _ _ _))
        simp
  · exact .refl u

theorem portClosing_pwr (c : Ctl) (u : Units) (p : Nat) (b : Bool) : PwrKept u (portClosing c u p b) := by
  unfold portClosing
  dsimp only
  split
  · refine PwrKept.trans (x := present (setPort u p _) (.ready p false)) (PwrKept.of (by rfl)) ((makeShort_pwr c _ p).trans (.steady (.portMayClose c _ p)))
  · exact .refl u

theorem closeAll_pwr (c : Ctl) (u : Units) : PwrKept u (closeAll c u) := by
  unfold closeAll
  exact (PwrKept.foldl (fun u p => portClosing_pwr c u p false) _ u).trans (.steady (.pumpAll _ _))

theorem clusterFences_pwr (u : Units) (b : Bool) : PwrKept u (clusterFences u b) := by
  unfold clusterFences
  refine PwrKept.foldl (fun u k => ?_) _ u
  split
  · exact .of rfl
  · exact .refl u

theorem service_accepted (c : Ctl) (u : Units) (r i : Nat) (hm : c.mode = .run) : let y := closeAll c (clusterFences (putTrans u (some { target := .service, desc := some (r, i), cause := 2 })) true)
    (allClosed y = true → (acceptService c u r i).1 = enterMode c .service 2) ∧ (allClosed y = false → acceptService c u r i = (c, y)) := by
  intro y
  have ht : y.pwr.trans = some { target := .service, desc := some (r, i), cause := 2 } := by
    obtain ⟨n, hn⟩ := (clusterFences_pwr (putTrans u (some { target := .service, desc := some (r, i), cause := 2 })) true).trans (closeAll_pwr c _)
    show (closeAll c _).pwr.trans = _
    rw [hn]; rfl
  unfold acceptService
  show (_ → (settleMode c y).1 = _) ∧ (_ → settleMode c y = _)
  clear_value y
  unfold settleMode
  rw [ht, hm]
  dsimp only
  refine ⟨fun h => ?_, fun h => ?_⟩
  · rw [if_pos h]; rfl
  · rw [if_neg (by rw [h]; simp)]

theorem journal_pwr (u : Units) (a b c d : Nat) : (journal u a b c d).pwr = u.pwr := by
  unfold journal
  dsimp only
  split
  · unfold closeBlock
    dsimp only
    split <;> rfl
  · rfl

theorem stopMoves_pwr (u : Units) : PwrKept u (stopMoves u) := by
  unfold stopMoves
  refine PwrKept.foldl (fun u i => ?_) _ u
  dsimp only
  split
  · unfold journalCursor
    exact .of (journal_pwr _ _ _ _ _)
  · exact .refl u

theorem decideHush_on (u : Units) (f : Nat) : (decideHush u f).pwr.hushing = true := by
  unfold decideHush
  dsimp only
  obtain ⟨n, hn⟩ := stopMoves_pwr { modeReport u .run .hush f with pwr := { (modeReport u .run .hush f).pwr with hushing := true, wakeDrain := 0, trans := some { target := .hush, cause := if f = 2 then 2 else 3 } } }
  rw [hn]

theorem request_run {c : Ctl} (u : Units) (r i : Nat) (hm : c.mode = .service) (hf : c.failed = false) : requestMode c u r i .run = acceptRun c u r i := by
  unfold requestMode
  rw [hm]
  dsimp only
  exact if_neg (by rw [hf]; simp)

theorem request_hush {c : Ctl} (u : Units) (r i : Nat) (hm : c.mode = .run) : requestMode c u r i .hush =
    if hushOk u (some (r, i)) then (c, decideHush (complete u r i 0 (modeCode c.mode)) 2) else (c, complete u r i 4) := by
  unfold requestMode
  rw [hm]

end Sys2Proof.Machine
end

