-- ==== Sys2Proof/Laws/Engines.lean ====
section
/-! SUPPORT. What the engines beside the request path do: telemetry, the test access port, media, the hinge unit, keys, boot and power. -/

namespace Sys2Proof.Machine

/-- Steps over a list that each leave a part of the state alone. -/

theorem foldl_same {α β : Type} {g : Units → β} {f : Units → α → Units} (h : ∀ u a, g (f u a) = g u) (l : List α) (u : Units) : g (l.foldl f u) = g u := by
  induction l generalizing u with
  | nil => rfl
  | cons a t ih => exact (ih _).trans (h u a)

/-- The parts of the state in which a destructive test is seen. -/
def testSeen (u : Units) : Tab KeySlot × Tab (BitVec 160) × Tap × List Out := (u.keys, u.ctxEven, u.tap, u.out)

theorem destroy_does (u : Units) : (destroySram u).keys = lostTab u.fresh .keys lostKey ∧ (destroySram u).ctxEven = lostTab u.fresh .ctxEven (BitVec.ofNat 160) ∧ (destroySram u).tap = u.tap ∧ (destroySram u).out = u.out := by
  have key : ∀ (f : Units → Nat → Units), (∀ u a, testSeen (f u a) = testSeen u) → ∀ l v, testSeen (List.foldl f v l) = testSeen v := fun f h l v => foldl_same h l v
  have all : testSeen (destroySram u) = (lostTab u.fresh .keys lostKey, lostTab u.fresh .ctxEven (BitVec.ofNat 160), u.tap, u.out) := by
    unfold destroySram
    dsimp only
    rw [key (lostPort u.fresh) (fun _ _ => rfl), key (lostCexus u.fresh) (fun _ _ => rfl), key (lostGroup u.fresh) (fun _ _ => rfl), key (lostChannel u.fresh) (fun _ _ => rfl)]
    rfl
  exact ⟨congrArg (fun x => x.1) all, congrArg (fun x => x.2.1) all, congrArg (fun x => x.2.2.1) all, congrArg (fun x => x.2.2.2) all⟩

theorem test_refused {s : State} {code : Nat} (h : testOpen s.ctl s.u = false) : testOp s.ctl (Machine.fresh s) code = { s.u with tap := { s.u.tap with instr := 0xFF }, out := [.tap 0] } :=
  (if_pos h).trans rfl

theorem test_runs {s : State} {code : Nat} (h : testOpen s.ctl s.u = true) : let x := testOp s.ctl (Machine.fresh s) code
    x.tap.instr = code ∧ x.out = [.tap 0] ∧ (s.ctl.mode ≠ .reset → x.keys = lostTab s.u.fresh .keys lostKey ∧ x.ctxEven = lostTab s.u.fresh .ctxEven (BitVec.ofNat 160)) := by
  intro x
  have e : x = if s.ctl.mode = .reset then tapSelect (Machine.fresh s) code 0 else tapSelect (destroySram (Machine.fresh s)) code 0 :=
    if_neg (fun k => absurd (h.symm.trans k) (by simp))
  rw [e]
  split
  · next hm => exact ⟨rfl, rfl, fun k => absurd hm k⟩
  · obtain ⟨k1, k2, k3, k4⟩ := destroy_does (Machine.fresh s)
    refine ⟨rfl, ?_, fun _ => ⟨k1, k2⟩⟩
    show (destroySram (Machine.fresh s)).out ++ [.tap 0] = _
    rw [k4]; rfl

theorem countWrap_does (fuel : Nat) : ∀ (u : Units) (n k : Nat), n < 1472 → (∃ c, (countWrap u fuel n k).tele = { u.tele with counters := c }) ∧
    (∀ f : Fld, ∀ i j, (∀ m, m < 46 → regAddr f.reg i j ≠ regAddr .TELE_OVF_k m 0) → getF (countWrap u fuel n k) f i j = getF u f i j) ∧ (countWrap u fuel n k).out = u.out := by
  induction fuel with
  | zero => intro u n k _; exact ⟨⟨_, rfl⟩, fun _ _ _ _ => rfl, rfl⟩
  | succ fuel ih =>
    intro u n k hn
    unfold countWrap
    dsimp only
    split
    · exact ⟨⟨_, rfl⟩, fun _ _ _ _ => rfl, rfl⟩
    · split
      · next hc =>
        have hn' : n + 1 < 1472 := by have := hc.2; omega
        obtain ⟨⟨c, h1⟩, h2, h3⟩ := ih { u with tele := { u.tele with counters := tabPut u.tele.counters n ((tabGet u.tele.counters n + k) % 2 ^ 48) } } (n + 1) 1 hn'
        exact ⟨⟨c, by rw [h1]⟩, fun f i j hf => (h2 f i j hf).trans rfl, h3⟩
      · refine ⟨⟨_, rfl⟩, fun f i j hf => ?_, rfl⟩
        unfold getF
        rw [rawReg_putReg_other (hf (n / 32) (by omega))]
        rfl

theorem countN_does (u : Units) (n k : Nat) (hn : n < 1472) : (∃ c, (countN u n k).tele = { u.tele with counters := c }) ∧
    (∀ f : Fld, ∀ i j, (∀ m, m < 46 → regAddr f.reg i j ≠ regAddr .TELE_OVF_k m 0) → getF (countN u n k) f i j = getF u f i j) ∧ (countN u n k).out = u.out := by
  unfold countN
  split
  · exact ⟨⟨_, rfl⟩, fun _ _ _ _ => rfl, rfl⟩
  · exact countWrap_does _ u n k hn

theorem teleErr_apart (m : Nat) (h : m < 46) : regAddr .TELE_ERR 0 0 ≠ regAddr .TELE_OVF_k m 0 := by
  unfold regAddr Reg.info
  dsimp only
  omega

theorem pushLine_does (u : Units) (x : EvtLine) : (pushLine u x).tele.inq = u.tele.inq ∧ (pushLine u x).tele.lost = u.tele.lost ∧ (pushLine u x).tele.sums = u.tele.sums ∧ (pushLine u x).tele.sumAt = u.tele.sumAt ∧ (pushLine u x).regs = u.regs := by
  unfold pushLine; dsimp only; split <;> exact ⟨rfl, rfl, rfl, rfl, rfl⟩

theorem flushLine_does (u : Units) : (flushLine u).tele.inq = u.tele.inq ∧ (flushLine u).tele.lost = u.tele.lost ∧ (flushLine u).tele.sums = u.tele.sums ∧ (flushLine u).tele.sumAt = u.tele.sumAt ∧
    (flushLine u).regs = u.regs ∧ (flushLine u).v = u.v := by
  unfold flushLine
  split
  · exact ⟨rfl, rfl, rfl, rfl, rfl, rfl⟩
  · have k := pushLine_does { u with tele := { u.tele with packing := [] } } (lineOfWords u.tele.packing)
    exact ⟨k.1, k.2.1, k.2.2.1, k.2.2.2.1, k.2.2.2.2, by unfold pushLine; dsimp only; split <;> rfl⟩

theorem packWords_short (l : List PackWord) : ∀ u : Units, (u.tele.packing ++ l).length < 8 → packWords u l = { u with tele := { u.tele with packing := u.tele.packing ++ l } } := by
  induction l with
  | nil => intro u _; simp [packWords]
  | cons w l ih =>
    intro u h
    unfold packWords
    dsimp only
    rw [if_neg (by simp at h ⊢; omega), ih _ (by simpa using h)]
    simp

theorem packWords_sums (l : List PackWord) : ∀ u : Units, (packWords u l).tele.sums = u.tele.sums ∧ (packWords u l).tele.sumAt = u.tele.sumAt := by
  induction l with
  | nil => intro u; exact ⟨rfl, rfl⟩
  | cons w l ih =>
    intro u
    unfold packWords
    dsimp only
    split
    · obtain ⟨a, b⟩ := ih (pushLine { u with tele := { u.tele with packing := [] } } (lineOfWords (u.tele.packing ++ [w])))
      obtain ⟨_, _, c, d, _⟩ := pushLine_does { u with tele := { u.tele with packing := [] } } (lineOfWords (u.tele.packing ++ [w]))
      exact ⟨a.trans c, b.trans d⟩
    · exact ih _

theorem buildItem_sums (u : Units) (a b c : Nat) (s : Bool) (l : List Word) (n : Nat) : (buildItem u a b c s l n).tele.sums = u.tele.sums ∧ (buildItem u a b c s l n).tele.sumAt = u.tele.sumAt := by
  unfold buildItem
  dsimp only
  obtain ⟨k1, k2⟩ := packWords_sums _ _
  refine ⟨k1.trans ?_, k2.trans ?_⟩ <;> (split <;> rfl)

theorem buildSummaries_sums (n : Nat) : ∀ (u : Units) (l : List (Nat × Nat)), (buildSummaries n u l).tele.sums = u.tele.sums ∧ (buildSummaries n u l).tele.sumAt = u.tele.sumAt := by
  induction n with
  | zero => intro u l; exact ⟨rfl, rfl⟩
  | succ n ih =>
    intro u l
    unfold buildSummaries
    split
    · exact ⟨rfl, rfl⟩
    · dsimp only
      obtain ⟨a, b⟩ := ih (buildItem u 0 0 (usec u % 2 ^ 32) true ((l.take (if tallyWord u = 0 then 6 else 5)).map fun x => BitVec.ofNat 32 (x.1 + x.2 * 256)) 0) (l.drop (if tallyWord u = 0 then 6 else 5))
      obtain ⟨c, d⟩ := buildItem_sums u 0 0 (usec u % 2 ^ 32) true ((l.take (if tallyWord u = 0 then 6 else 5)).map fun x => BitVec.ofNat 32 (x.1 + x.2 * 256)) 0
      exact ⟨a.trans c, b.trans d⟩

theorem buildSummary_does (u : Units) (h : u.tele.sums.cells ≠ []) : (buildSummary u).tele.sums = ⟨[]⟩ ∧ (buildSummary u).tele.sumAt = none := by
  unfold buildSummary
  dsimp only
  rw [if_neg (by simpa using h)]
  obtain ⟨_, _, k1, k2, _⟩ := flushLine_does (buildSummaries 16 { u with tele := { u.tele with sums := tabNil, sumAt := none } } u.tele.sums.cells)
  obtain ⟨a, b⟩ := buildSummaries_sums 16 { u with tele := { u.tele with sums := tabNil, sumAt := none } } u.tele.sums.cells
  exact ⟨k1.trans a, k2.trans b⟩

theorem event_lost (u : Units) (e : Event) (rest : List Event) (h : u.tele.inq = e :: rest) (hf : 64 ≤ u.tele.fifo.length) :
    (eventTakenOp u).tele.inq = rest ∧ (eventTakenOp u).tele.lost = u.tele.lost + 1 ∧ getF (eventTakenOp u) F.TELE_ERR_lost = 1 := by
  have e1 : eventTakenOp u = flushLine (loseEvent { u with tele := { u.tele with inq := rest } }) := by
    unfold eventTakenOp
    rw [h]
    dsimp only
    rw [if_pos (.inl hf)]
  rw [e1]
  obtain ⟨k1, k2, _, _, k5, k6⟩ := flushLine_does (loseEvent { u with tele := { u.tele with inq := rest } })
  obtain ⟨⟨c, q1⟩, q2, _⟩ := countN_does { flag { u with tele := { u.tele with inq := rest } } F.TELE_ERR_lost with tele := { u.tele with inq := rest, lost := u.tele.lost + 1 } } (cCore 20) 1 (by decide)
  refine ⟨k1.trans ?_, k2.trans ?_, ?_⟩
  · show (countN _ (cCore 20) 1).tele.inq = rest
    exact congrArg (fun t : Tele => t.inq) q1
  · show (countN _ (cCore 20) 1).tele.lost = _
    exact congrArg (fun t : Tele => t.lost) q1
  · have g : getF (loseEvent { u with tele := { u.tele with inq := rest } }) F.TELE_ERR_lost = 1 := by
      refine (q2 F.TELE_ERR_lost 0 0 teleErr_apart).trans ?_
      exact getF_flag_same { u with tele := { u.tele with inq := rest } } F.TELE_ERR_lost 0 0 (by decide) (by decide)
    unfold getF rawReg at g ⊢
    rw [k5, k6]
    exact g

theorem event_summed (u : Units) (e : Event) (rest : List Event) (h : u.tele.inq = e :: rest) (h1 : 49 ≤ u.tele.fifo.length) (h2 : u.tele.fifo.length < 64) (h3 : u.tele.heldLines = [])
    (h4 : tabGet u.tele.sums e.code < 0xFFFFFF) : (eventTakenOp u).tele.inq = rest ∧ tabGet (eventTakenOp u).tele.sums e.code = tabGet u.tele.sums e.code + 1 := by
  have e1 : eventTakenOp u = flushLine (addSummary { u with tele := { u.tele with inq := rest } } e.code) := by
    unfold eventTakenOp
    rw [h]
    dsimp only
    rw [if_neg (by rintro (q | q); omega; exact q h3), if_pos h1]
  rw [e1]
  obtain ⟨k1, _, k3, _⟩ := flushLine_does (addSummary { u with tele := { u.tele with inq := rest } } e.code)
  rw [k1, k3]
  unfold addSummary
  dsimp only
  rw [if_neg (by omega)]
  obtain ⟨⟨c, q⟩, _⟩ := countN_does { u with tele := { u.tele with inq := rest, sums := tabPut u.tele.sums e.code (tabGet u.tele.sums e.code + 1), sumAt := some (u.tele.sumAt.getD u.now) } } (cCore 19) 1 (by decide)
  refine ⟨congrArg (fun t : Tele => t.inq) q, ?_⟩
  refine (congrArg (fun t : Tele => tabGet t.sums e.code) q).trans ?_
  exact tabGet_put_same _ _ _

theorem event_packed (u : Units) (e : Event) (h : u.tele.inq = [e]) (h1 : u.tele.fifo.length < 49) (h3 : u.tele.heldLines = []) (hp : u.tele.packing = []) (ht : tallyWord u = 0)
    (hw : e.words.length ≤ 5) (hn : e.words ≠ []) : (eventTakenOp u).tele.inq = [] ∧ (eventTakenOp u).tele.fifo = u.tele.fifo ++ [lineOfWords (({ w := BitVec.ofNat 32 (e.code + (e.words.length + 1) * 2 ^ 8 + e.inst % 65536 * 2 ^ 16) } : PackWord) :: { w := BitVec.ofNat 32 e.time } ::
      (e.words.dropLast.map fun w => ({ w := w } : PackWord)) ++ [{ w := e.words.getLastD 0, ends := true, evts := 1 }])] := by
  obtain ⟨ws, hws⟩ : ∃ ws, ws = (({ w := BitVec.ofNat 32 (e.code + (e.words.length + 1) * 2 ^ 8 + e.inst % 65536 * 2 ^ 16) } : PackWord) :: { w := BitVec.ofNat 32 e.time } ::
      (e.words.dropLast.map fun w => ({ w := w } : PackWord)) ++ [{ w := e.words.getLastD 0, ends := true, evts := 1 }]) := ⟨_, rfl⟩
  obtain ⟨y, hy⟩ : ∃ y : Units, y = { u with tele := { u.tele with inq := [] } } := ⟨_, rfl⟩
  have e1 : eventTakenOp u = flushLine (buildItem y e.code e.inst e.time false e.words 1) := by
    unfold eventTakenOp
    rw [h, hy]
    dsimp only
    rw [if_neg (by rintro (q | q); omega; exact q h3), if_neg (by omega)]
    rfl
  have ty : tallyWord y = 0 := by rw [hy]; exact ht
  have e2 : buildItem y e.code e.inst e.time false e.words 1 = packWords y ws := by
    unfold buildItem
    dsimp only
    rw [ty]
    simp only [bne_self_eq_false, Bool.false_and, Bool.false_eq_true, if_false]
    rw [hws]
    obtain ⟨l, w, hl⟩ : ∃ l w, e.words = l ++ [w] := ⟨_, _, (List.dropLast_concat_getLast hn).symm⟩
    rw [hl]
    refine congrArg (packWords y) ?_
    simp
    show ((BitVec.ofNat 32 e.time :: l) ++ [w]).getLast?.getD 0#32 = w
    rw [List.getLast?_concat]
    rfl
  have lw : ws.length ≤ 7 := by
    rw [hws]; simp; omega
  have py : y.tele.packing = [] := by rw [hy]; exact hp
  have hne : ws ≠ [] := by rw [hws]; simp
  have fy : y.tele.fifo = u.tele.fifo ∧ y.tele.heldLines = [] ∧ y.tele.inq = [] := by rw [hy]; exact ⟨rfl, h3, rfl⟩
  rw [e1, e2, packWords_short ws y (by rw [py]; simpa using by omega), py, List.nil_append]
  unfold flushLine
  rw [if_neg hne]
  unfold pushLine
  dsimp only
  rw [if_pos ⟨by rw [fy.1]; omega, fy.2.1⟩]
  exact ⟨fy.2.2, by rw [← hws]; exact congrArg (fun l => l ++ [lineOfWords ws]) fy.1⟩

theorem pop_line (u : Units) (x : EvtLine) (rest : List EvtLine) (h : u.tele.fifo = x :: rest) (h3 : u.tele.heldLines = []) (h4 : 48 < rest.length ∨ u.tele.sums.cells = []) (ho : u.out = []) :
    (evtPopOp u).out = [.evtLine x.line x.tag false] ∧ (evtPopOp u).tele.fifo = rest ∧ (evtPopOp u).tele.lastLine = some x := by
  obtain ⟨y, hy⟩ : ∃ y : Units, y = { present u (.evtLine x.line x.tag false) with tele := { u.tele with fifo := rest ++ u.tele.heldLines.take 1, heldLines := u.tele.heldLines.drop 1, lastLine := some x } } := ⟨_, rfl⟩
  obtain ⟨⟨c, q⟩, _, q3⟩ := countN_does y (cCore 18) x.evts (by decide)
  have f1 : (countN y (cCore 18) x.evts).tele.fifo = rest := (congrArg (fun t : Tele => t.fifo) q).trans (by rw [hy]; dsimp only; rw [h3]; simp)
  have f2 : (countN y (cCore 18) x.evts).tele.sums = u.tele.sums := (congrArg (fun t : Tele => t.sums) q).trans (by rw [hy])
  have f3 : (countN y (cCore 18) x.evts).tele.lastLine = some x := (congrArg (fun t : Tele => t.lastLine) q).trans (by rw [hy])
  have e : evtPopOp u = countN y (cCore 18) x.evts := by
    unfold evtPopOp
    dsimp only
    rw [h]
    dsimp only
    rw [← hy, f1, f2]
    refine if_neg ?_
    rintro ⟨a, b⟩
    rcases h4 with k | k
    · omega
    · rw [k] at b; simp at b
  rw [e]
  refine ⟨q3.trans ?_, f1, f3⟩
  rw [hy]
  show u.out ++ _ = _
  rw [ho]; rfl

theorem pop_empty (u : Units) (x : EvtLine) (h : u.tele.fifo = []) (hl : u.tele.lastLine = some x) (ho : u.out = []) :
    (evtPopOp u).out = [.evtLine x.line x.tag true] ∧ getF (evtPopOp u) F.TELE_ERR_underrun = 1 := by
  have e : evtPopOp u = present (flag u F.TELE_ERR_underrun) (.evtLine x.line x.tag true) := by
    unfold evtPopOp
    dsimp only
    rw [h]
    dsimp only
    rw [hl]
  rw [e]
  refine ⟨?_, getF_flag_same u F.TELE_ERR_underrun 0 0 (by decide) (by decide)⟩
  show u.out ++ _ = _
  rw [ho]; rfl

/-- A pass over distinct groups of 16 bins adds one to the bin of each group that takes part. -/

theorem bins_once (P : Nat → Bool) (f : Nat → Nat) (hf : ∀ i, f i < 16) (l : List Nat) : ∀ t : Tab Nat, l.Nodup → ∀ i, 
    tabGet (l.foldl (fun t i => if P i then bumpBin t (16 * i + f i) else t) t) (16 * i + f i) = if i ∈ l ∧ P i = true then min (tabGet t (16 * i + f i) + 1) (2 ^ 32 - 1) else tabGet t (16 * i + f i) := by
  induction l with
  | nil => intro t _ i; simp
  | cons a l ih =>
    intro t hn i
    rw [List.nodup_cons] at hn
    rw [List.foldl_cons, ih _ hn.2]
    by_cases hi : i = a
    · subst hi
      rw [if_neg (fun k => hn.1 k.1)]
      by_cases hp : P i = true
      · rw [if_pos hp, if_pos ⟨List.mem_cons_self .., hp⟩]
        unfold bumpBin
        exact tabGet_put_same _ _ _
      · rw [if_neg hp, if_neg (fun k => hp k.2)]
    · have hb : tabGet (if P a then bumpBin t (16 * a + f a) else t) (16 * i + f i) = tabGet t (16 * i + f i) := by
        split
        · unfold bumpBin
          refine tabGet_put_other ?_ _ _
          have := hf i; have := hf a; omega
        · rfl
      rw [hb]
      have : (i ∈ a :: l ∧ P i = true) ↔ (i ∈ l ∧ P i = true) := by simp [hi]
      simp only [this]

end Sys2Proof.Machine
end

