-- ==== Sys2Proof/Laws/Transit.lean ====
section
/-! SUPPORT. What the transit network can do: its cycles change the network alone, and what lands had been injected. -/

namespace Sys2Proof.Machine

/-- Units that differ in the inside of the network and the modes of its outputs alone. -/
def NetOnly (u x : Units) : Prop := ∃ t m, x = { u with transit := t, slotMode := m }

theorem NetOnly.refl (u : Units) : NetOnly u u := ⟨u.transit, u.slotMode, rfl⟩

theorem NetOnly.trans {u x y : Units} (h : NetOnly u x) (k : NetOnly x y) : NetOnly u y := by
  obtain ⟨t, m, rfl⟩ := h
  obtain ⟨t', m', rfl⟩ := k
  exact ⟨t', m', rfl⟩

/-- A transit cycle changes the network alone. -/
theorem netCycle_only (u : Units) : NetOnly u (netCycle u) := ⟨_, _, rfl⟩

/-- So do any number of them. -/
theorem netCycles_only (n : Nat) (u : Units) : NetOnly u (netCycles n u) := by
  induction n generalizing u with
  | zero => exact .refl u
  | succ n ih =>
    unfold netCycles
    split
    · exact ⟨_, u.slotMode, rfl⟩
    · exact (netCycle_only u).trans (ih _)

theorem runUntil_only (id n : Nat) (u : Units) : NetOnly u (runUntil id n u) := by
  induction n generalizing u with
  | zero => exact .refl u
  | succ n ih =>
    unfold runUntil
    split
    · exact (netCycle_only u).trans (ih _)
    · exact .refl u

/-- A packet that has arrived needs no cycle. -/
theorem runUntil_arrived {u : Units} {id : Nat} (h : inTransit u id = false) (n : Nat) : runUntil id n u = u := by
  cases n with
  | zero => rfl
  | succ n => simp [runUntil, h]

/-- A packet that may be taken is one of the packets sent, of its type and number, and has arrived. -/
theorem takePkt_cases {u : Units} {id : Nat} {ty : PktType} {k : Pkt} (h : takePkt u id ty = some k) :
    k ∈ u.net ∧ k.id = id ∧ k.typ = ty ∧ inTransit u id = false ∧ u.stopped.contains k.dst = false := by
  unfold takePkt at h
  split at h
  · cases h
  · rename_i y e
    split at h
    · rename_i c
      cases h
      exact ⟨List.mem_of_find?_eq_some e, by simpa using List.find?_some e, c.1, c.2.1, c.2.2.1⟩
    · cases h

/-- What landing does: the network alone has gone on, and the packet is one that had been sent. -/
theorem landing_cases {u w : Units} {id : Nat} {ty : PktType} {k : Pkt} (h : landing u id ty = some (k, w)) :
    NetOnly u w ∧ takePkt w id ty = some k ∧ k ∈ u.net ∧ k.id = id ∧ k.typ = ty := by
  unfold landing at h
  simp only [Option.map_eq_some_iff, Prod.mk.injEq] at h
  obtain ⟨y, hy, rfl, rfl⟩ := h
  have o := runUntil_only id 4096 u
  obtain ⟨m, i, t, -⟩ := takePkt_cases hy
  refine ⟨o, hy, ?_, i, t⟩
  obtain ⟨a, b, e⟩ := o
  rw [e] at m
  exact m

/-- A packet that has arrived lands where it stands. -/
theorem landing_arrived {u : Units} {id : Nat} {ty : PktType} {k : Pkt} (h : takePkt u id ty = some k) : landing u id ty = some (k, u) := by
  have a := runUntil_arrived (takePkt_cases h).2.2.2.1 4096
  unfold landing
  simp only [a, h, Option.map_some]

/-- A packet that lands meets its effect on the units to which the network has carried it. -/
theorem onPkt_landed {u w : Units} {id : Nat} {ty : PktType} {k : Pkt} (h : landing u id ty = some (k, w)) (f : Pkt → Units → Units) :
    onPkt u id ty f = f k w := by
  unfold onPkt
  rw [h]

/-- A packet that may be taken meets its effect at once. -/
theorem onPkt_arrived {u : Units} {id : Nat} {ty : PktType} {k : Pkt} (h : takePkt u id ty = some k) (f : Pkt → Units → Units) :
    onPkt u id ty f = f k u := onPkt_landed (landing_arrived h) f

/-- Where nothing lands the command does nothing. -/
theorem onPkt_none {u : Units} {id : Nat} {ty : PktType} (h : landing u id ty = none) (f : Pkt → Units → Units) : onPkt u id ty f = u := by
  unfold onPkt
  rw [h]

end Sys2Proof.Machine
end

