-- ==== Sys2Proof/Tests/Slice0.lean ====
section
/-! SUPPORT. Tests of the model: ill-formed commands are refused, worked examples of the spec come out, and the hypotheses of every statement of Certificates/Slice0 are met by a concrete state and operands, clause by clause. -/

namespace Sys2Proof.Tests

open Sys2Proof Sys2Proof.Machine

set_option maxRecDepth 20000

/-! ### Well-formedness -/

/-- A port beyond 63 or a pool beyond 3, or a header of another command, is ill formed; the last request port is well formed. -/
theorem test_wf_headers : Instr.wf (.read 63 3 1) = true ∧ Instr.wf (.read 64 3 1) = false ∧ Instr.wf (.read 63 4 1) = false ∧ Instr.wf (.read 63 3 2) = false ∧
    Instr.wf (.write 63 3 1) = false ∧ Instr.wf (.writeMasked 63 3 1) = false ∧ Instr.wf (.prefetch 63 3 1) = false ∧ Instr.wf (.flush 63 3 1) = false ∧
    Instr.wf (.flushAll 63 3 1) = false ∧ Instr.wf (.flushAll 63 3 15) = true ∧ Instr.wf (.dataBeat 64 0 0 0) = false ∧ Instr.wf (.badKind 64) = false ∧
    Instr.wf (.reopen 64) = false ∧ Instr.wf (.portReady 64) = false ∧ Instr.wf (.bucketRefill 64) = false ∧ Instr.wf (.rewriteCheck 0 65536) = false := by decide

/-- Routers and outputs, domains, slices and groups beyond the largest variant are ill formed. -/
theorem test_wf_network : Instr.wf (.slotModeEnter 25 0 0) = false ∧ Instr.wf (.slotModeEnter 24 16 0) = false ∧ Instr.wf (.slotModeExit 25 0 0 0) = false ∧
    Instr.wf (.isolation 43) = false ∧ Instr.wf (.pdUpAck 43) = false ∧ Instr.wf (.destageStart 16) = false ∧ Instr.wf (.placementRequest 16) = false ∧
    Instr.wf (.epochAck 16) = false ∧ Instr.wf (.stripeWritten 16 0) = false ∧ Instr.wf (.stripeWritten 15 8) = false := by decide

/-- So are subchannels, ranks, banks, DIMMs, devices, mode-register values and training units. -/
theorem test_wf_dram : Instr.wf (.ddr5CommandIssue 15 2) = false ∧ Instr.wf (.ddr5ReadReturn 16 0 0) = false ∧ Instr.wf (.refreshDue 15 1 16) = false ∧
    Instr.wf (.rowCloseIdle 15 1 16 0) = false ∧ Instr.wf (.rowCloseIdle 15 1 0 32) = false ∧ Instr.wf (.thermPoll 16 [] .absent .absent) = false ∧
    Instr.wf (.thermPoll 15 [5] .absent .absent) = false ∧ Instr.wf (.thermPoll 15 (List.replicate 17 0) .absent .absent) = false ∧ Instr.wf (.alertBackoff 15 1 2) = false ∧
    Instr.wf (.crcAlert 15 1 2) = false ∧ Instr.wf (.ddr5SchedWrite 16 true 0) = false ∧ Instr.wf (.oscRetrain 15 1 16) = false ∧ Instr.wf (.oscResult 15 1 16 0 0) = false ∧
    Instr.wf (.oscResult 15 1 0 10 0) = false ∧ Instr.wf (.oscResult 15 1 0 9 65536) = false ∧ Instr.wf (.trainStepTimeout false 16 1 0) = false ∧
    Instr.wf (.trainStepTimeout true 71 16 0) = false ∧ Instr.wf (.trainStepTimeout true 71 1 512) = false := by decide

/-- So are channels, dies, groups, slots, tables and lists that no unit can hold. -/
theorem test_wf_media : Instr.wf (.bsyNRise 72 0) = false ∧ Instr.wf (.bsyNRise 71 8) = false ∧ Instr.wf (.programSlot 71 8) = false ∧ Instr.wf (.programComplete 72 0 0) = false ∧
    Instr.wf (.mediaTempPoll 71 8 0 true) = false ∧ Instr.wf (.dieLateCheck 71 8 .inTime) = false ∧ Instr.wf (.mediaLineReceived 72 0) = false ∧ Instr.wf (.dqTransfer ⟨72, false⟩) = false ∧
    Instr.wf (.linkCheck 72 true true) = false ∧ Instr.wf (.zqCalibrate 72) = false ∧ Instr.wf (.phaseStart 8) = false ∧ Instr.wf (.moveStripeWritten 16) = false ∧
    Instr.wf (.sweep 16) = false ∧ Instr.wf (.format 16) = false ∧ Instr.wf (.driftCalibrate 64 []) = false ∧ Instr.wf (.driftCalibrate 63 (List.replicate 33 0)) = false ∧
    Instr.wf (.ddr5Scrub 16 []) = false ∧ Instr.wf (.ddr5Scrub 15 (List.replicate 129 0)) = false ∧ Instr.wf (.cexusScrub 72 []) = false ∧ Instr.wf (.cexusScrub 71 (List.replicate 129 0)) = false ∧
    Instr.wf (.sramScrub 4 0 .clean) = false ∧ Instr.wf (.sramScrub 1 4325376 .clean) = false ∧ Instr.wf (.scrubOverdue false 16) = false ∧ Instr.wf (.mntGrant true 72) = false := by decide

/-- So are rings, ring indices, mask words, results of more than a word, handles and empty key messages. -/
theorem test_wf_rings : Instr.wf (.descriptorFetch 64) = false ∧ Instr.wf (.sqDoorbell 64 0) = false ∧ Instr.wf (.cqDoorbell 64 0) = false ∧ Instr.wf (.ringReset 64) = false ∧
    Instr.wf (.ringResetComplete 64) = false ∧ Instr.wf (.completionWritten 65 false) = false ∧ Instr.wf (.completionWritten 64 false) = true ∧ Instr.wf (.irqTimer 65) = false ∧
    Instr.wf (.fetchReturn 64 0 false 0) = false ∧ Instr.wf (.payloadReadReturn 63 65536 false 0) = false ∧ Instr.wf (.irqMaskWrite 8 0) = false ∧ Instr.wf (.nop 64 0) = false ∧
    Instr.wf (.abort 63 65536) = false ∧ Instr.wf (.patchAdd 64 0 0) = false ∧ Instr.wf (.retrainDdr5 63 0 { r0 := 2 ^ 32 }) = false ∧
    Instr.wf (.pprRepair 63 0 { r1 := 2 ^ 32 }) = false ∧ Instr.wf (.ctxCloseFinish 1048576) = false ∧ Instr.wf (.keyLoad []) = false ∧ Instr.wf (.lcChange []) = false := by decide

/-- So are lists of channels, events, sensors, zones, counters, addresses and instruction codes that do not exist. -/
theorem test_wf_system : Instr.wf (.load (BootOutcome.mk true 64 false [] [] [] [])) = false ∧ Instr.wf (.loadComplete [DimmFound.mk 16 0 true false false [] default]) = false ∧
    Instr.wf (.loadComplete [DimmFound.mk 15 2 true false false [] default]) = false ∧ Instr.wf (.trainComplete [{ media := true, ch := 72 }]) = false ∧
    Instr.wf (.trainComplete [{ media := true, ch := 71, found := { fails := [{ die := 8 }] } }]) = false ∧ Instr.wf (.mountComplete { scores := List.replicate 65 [] }) = false ∧
    Instr.wf (.wake (.header 64)) = false ∧ Instr.wf (.wake (.doorbell 64)) = false ∧ Instr.wf (.thermalReading 32 0 true) = false ∧ Instr.wf (.zoneEvaluate 13) = false ∧
    Instr.wf (.teleCntLoRead 1472 false) = false ∧ Instr.wf (.registerWrite 2 0) = false ∧ Instr.wf (.registerWrite (2 ^ 26) 0) = false ∧ Instr.wf (.userAccess true 1 0) = false ∧
    Instr.wf (.unmappedAccess true 1 0) = false ∧ Instr.wf (.bitAliasWrite 1 0) = false ∧ Instr.wf (.bypass 256) = false := by decide

/-- No word spells a command: the table gives its rows no bits. -/
theorem test_no_word_spells : decodeTableWord 0 0 = none ∧ (State.reset.withFetchWord 32 5) = State.reset := by decide

/-! ### States to start from -/

/-- Every domain is on. -/
def allOn : Tab Nat := ⟨(List.range' 1 42).map fun d => (d, 1)⟩
/-- A powered block with its tables mounted. -/
def u0 : Units := { pd := allOn, hng := { mounted := true } }
/-- The block in a mode. -/
def inMode (m : Mode) (u : Units) : State := { ctl := { mode := m }, u := u }
/-- The block in RUN. -/
def run (u : Units) : State := inMode .run u
/-- Put values into register fields: field, instance, value. -/
def withF (u : Units) (l : List (Fld × Nat × Nat)) : Units := l.foldl (fun u x => putF u x.1 x.2.1 0 x.2.2) u
/-- Put values into register fields of bank A, the one in force in epoch 0. -/
def withBank (u : Units) (l : List (Fld × Nat × Nat)) : Units :=
  l.foldl (fun u x => { u with regs := { u.regs with bankA := tabPutD u.regs.bankA (regAddr x.1.reg x.2.1 0) (BitVec.ofNat 32 (regReset u.v x.1.reg x.2.1)) (BitVec.ofNat 32 (nput (bankReg u 0 x.1.reg x.2.1) x.1.lo x.1.w x.2.2)) } }) u
/-- A header unit with its check byte. -/
def hdrWord (cmd tag ctx lla mask p : Nat) : BitVec 128 :=
  let w := cmd + p * 64 + tag * 256 + ctx * 2 ^ 20 + lla * 2 ^ 40 + mask * 2 ^ 80
  BitVec.ofNat 128 (w + xorBytesOf w 15 * 2 ^ 120)
/-- The record of an open context with one window over every region, for reads and writes. -/
def openRec : BitVec 160 := BitVec.ofNat 160 (1 + 0x3FFFFF * 2 ^ 39 + 3 * 2 ^ 61)
/-- An open port with credits in pool 3. -/
def port3 : Port := { state := 2, hdrCred := ⟨[(3, 1)]⟩, dataCred := ⟨[(3, 2)]⟩ }
/-- Port 62 is open, its cluster holds the record of context 0, and key slot 0 is loaded. -/
def portU : Units := { setPort u0 62 port3 with ctxEven := ⟨[(0, openRec)]⟩, cache := ⟨[(7168, [{ handle := 0 }])]⟩, keys := ⟨[(0, { state := 1, key := 3, even := true, odd := true })]⟩ }
/-- A port that takes the data of a request. -/
def takingU (r : Req) : Units := setPort portU 62 { port3 with ingress := .taking 9, reqs := [{ hdr := hdrWord 1 7 1 0 0 0, ord := 8, phase := .sent }, r], next := 10 }
/-- A WRITE of line 8 that has a data unit. -/
def writeReq (n : Nat) (p : Nat) : Req := { ord := 9, hdr := hdrWord 2 4 0 8 0 p, pool := 3, data := List.replicate n 5, dataPools := List.replicate n 3 }
/-- A WRITE_MASKED of line 8 that awaits its data unit. -/
def maskedReq : Req := { ord := 9, hdr := hdrWord 3 4 0 8 1 0, pool := 3 }
/-- A request in transit stands on port 62, and one packet is in flight. -/
def flightU (cmd : Nat) (k : Pkt) : Units :=
  { setPort portU 62 { port3 with reqs := [{ ord := 9, hdr := hdrWord cmd 4 0 (if cmd = 5 then 0 else 8) 0 0, phase := .sent, epoch := some 0 }] } with net := [{ k with port := 62, ord := 9 }] }
/-- A write that has passed its checks and lacks its line-carrying ticket. -/
def readyWrite : Req := { writeReq 2 0 with phase := .ready, epoch := some 0, prio := 4 }
/-- That write on port 62. -/
def readyU : Units := setPort portU 62 { port3 with reqs := [readyWrite] }
/-- A request that waits for its context's record. -/
def fetchReq : Req := { ord := 9, hdr := hdrWord 1 4 0 8 0 0, phase := .check, epoch := some 0, fetch := 1 }
/-- The record fetch of that request is in flight. -/
def fetchU : Units := { setPort { portU with cache := ⟨[]⟩ } 62 { port3 with reqs := [fetchReq] } with net := [{ typ := .ctx, src := 7, dst := 96, pool := poolId 0 7 96, port := 62, ord := 9 }], tickets := ⟨[(poolId 0 7 96, 1)]⟩ }
/-- The record comes back to the cluster. -/
def fetchedU : Units := { setPort { portU with cache := ⟨[]⟩ } 62 { port3 with reqs := [fetchReq] } with net := [{ typ := .ctx, src := 96, dst := 7, port := 62, ord := 9 }] }
/-- The request that stands on port 62 in `flightU`. -/
def sentReq (cmd : Nat) : Req := { ord := 9, hdr := hdrWord cmd 4 0 (if cmd = 5 then 0 else 8) 0 0, phase := .sent, epoch := some 0 }
/-- A header whose way 14 holds line 7 of the stripe with tag 0, in a state. -/
def hdr14 (st : Nat) : BitVec 512 := setWay initHeader 14 st 7 0 0
/-- Slice 0, in service, has the header of set 0 at hand. -/
def sliceU (h : BitVec 512) : Units :=
  { setSlice (withF u0 [(F.DDR5_n_STATE_state, 0, 2)]) 0 { cache := [{ set := 0, hdr := h, loaded := true }], share := 256, ceiling := 240 } with stg := { rowsLog2 := 13 } }
/-- A READ of line 7 from cluster 7. -/
def readPkt : Pkt := { typ := .lineReq, src := 7, dst := 32, prio := 3, pool := poolId 0 7 32, port := 62, ord := 9, lla := 7 }
/-- A WRITE of line 7. -/
def writePkt (poison : Bool) : Pkt := { typ := .lineWr, src := 7, dst := 32, prio := 3, pool := poolId 1 7 32, port := 62, ord := 9, lla := 7, data := 77, poison := poison }
/-- A fill of line 7 that cluster 7 waits for. -/
def fill7 : Fill := { lla := 7, askers := [{ src := 7, port := 62, ord := 9, prio := 3 }] }
/-- That fill at slice 0, and a packet in flight. -/
def fillU (k : Pkt) : Units := { setSlice (sliceU (hdr14 0)) 0 { slice (sliceU (hdr14 0)) 0 with fills := [fill7] } with net := [k] }
/-- A packet in flight to slice 0. -/
def toSlice (k : Pkt) : Units := { sliceU (hdr14 2) with net := [k] }
/-- The last logical region. -/
def lastRegion : Nat := 4194303
/-- A fill request of the last line of the last region. -/
def fillReqPkt : Pkt := { typ := .fillReq, src := 32, dst := 97, prio := 3, lla := lastRegion * 131072 + 131071, port := 62, ord := 9, handle := 7, cls := 2 }
/-- The last region has a hinge entry, and a fill request of it is in flight. -/
def hingeU (e : Nat) (fences : List Nat) : Units := { u0 with hng := { mounted := true, hinge := ⟨[(lastRegion, e)]⟩, pip := ⟨[(lastRegion, 2 * 2 ^ 56)]⟩ }, fences := fences, net := [fillReqPkt] }
/-- A forwarded fill for the last die position of the last group. -/
def fwdPkt : Pkt := { typ := .fillFwd, src := 97, dst := 71, prio := 3, lla := 7, port := 62, ord := 9, cls := 2, group := 63, pos := 8, dla := 2 ^ 30 + 3, code := 5, prn := 0 }
/-- A destaged line 7 of a stripe. -/
def destagePkt (poison : Bool) : Pkt := { typ := .destage, src := 32, dst := 64, prio := 1, lla := 15, group := 0, dla := 5, gen := 6, data := 12, poison := poison, tag := 2 }
/-- Its stripe's entry, with one line of two missing. -/
def halfBuf : SBuf := { id := 3, use := .destage 0, group := 0, dla := 5, stripe := 1, want := 2 }
/-- Group 0 with that entry. -/
def bufU (k : Pkt) : Units := { setGrp u0 0 { bufs := [halfBuf] } with net := [k] }
/-- A stripe of the last region that asks for its place. -/
def askJob : Destage := { stripe := lastRegion * 16384 + 16383 }
/-- Slice 0 asks for that place. -/
def askU (e pip : Nat) : Units :=
  { setSlice (sliceU (hdr14 2)) 0 { slice (sliceU (hdr14 2)) 0 with jobs := [askJob] } with hng := { mounted := true, hinge := ⟨[(lastRegion, e)]⟩, pip := ⟨[(lastRegion, pip)]⟩ } }
/-- A whole stripe that media holds, and the job of slice 0 for it. -/
def doneBuf : SBuf := { id := 3, use := .destage 0, stripe := 0, formed := true }
/-- That job: way 14 holds line 7. -/
def doneJob (d : List (Nat × Nat)) : Destage := { set := 0, tag := 0, stripe := 0, ways := [(14, 7)], dirtied := d, phase := .sent }
/-- Slice 0 waits for that stripe. -/
def writtenU : Units :=
  { setGrp (setSlice (sliceU (hdr14 2)) 0 { slice (sliceU (hdr14 2)) 0 with jobs := [doneJob []], dirty := 1 }) 0 { bufs := [doneBuf] } with hng := { mounted := true, pins := [0, 5] } }
/-- Slice 0 holds dirty lines above its mark. -/
def dirtyU (full : List (Nat × Nat × Nat)) : Units := setSlice (sliceU (hdr14 2)) 0 { slice (sliceU (hdr14 2)) 0 with dirty := 240, full := full }
/-- Slice 0 is forced to destage that stripe. -/
def forcedU : Units := setSlice (sliceU (hdr14 2)) 0 { slice (sliceU (hdr14 2)) 0 with forced := [(0, 0, [14])] }
/-- Slice 0 works on epoch 0, which a FLUSH waits for. -/
def epochU : Units := { setSlice (sliceU (hdr14 2)) 0 { slice (sliceU (hdr14 2)) 0 with dirty := 1, epochs := ⟨[(0, 1)]⟩ } with stg := { rowsLog2 := 13, e := 1, waiters := [{ id := 3, target := 0 }] } }
/-- A write of cluster 7 pins way 14 of the stripe that slice 0 waits for. -/
def pinnedU : Units := setSlice writtenU 0 { slice writtenU 0 with pins := [(7, 62, 9)] }
/-- A FLUSH stands on port 62 and has reached the context engine. -/
def flushU (dur : Nat) : Units :=
  { setPort portU 62 { port3 with reqs := [{ sentReq 5 with dur := dur }] } with net := [{ typ := .flush, src := 7, dst := 96, port := 62, ord := 9 }] }
/-- That packet. -/
def flushPkt : Pkt := { typ := .flush, src := 7, dst := 96, port := 62, ord := 9 }
/-- Epoch 1 has a dirty way at slice 0. -/
def liveU (u : Units) : Units := setSlice u 0 { slice u 0 with epochs := ⟨[(1, 1)]⟩ }
/-- A flush whose epoch is swept. -/
def sweptWait : FlushWait := { id := 3, target := 0, swept := true, port := 62, ord := 9, handle := 0 }
/-- A descriptor of ring 63. -/
def testDesc : Desc := { idx := 5, begun := true }
/-- Ring 63 with descriptors. -/
def ringU (u : Units) (ds : List Desc) : Units := { u with rings := { u.rings with ring := ⟨[(63, { state := 1, descs := ds, cqUsed := 3, cqTail := 7 })]⟩ } }
/-- Channel 15 is being evacuated for that descriptor. -/
def evacU (step : Nat) : Units := { ringU (withBank u0 [(F.RNG_r_CFG_cq_log2, 63, 6)]) [testDesc] with stg := { rowsLog2 := 13, evac := step, evacCh := 15, evacHold := true, evacDesc := some (63, 5) } }
/-- Ring 63 has 64 entries of each kind, and so has the notice ring. -/
def ringCfg : Units := withBank u0 [(F.RNG_r_CFG_sq_log2, 63, 6), (F.RNG_r_CFG_cq_log2, 63, 6), (F.RNG_NT_CFG_log2, 0, 6)]
/-- Ring 63 in a state. -/
def withRing (x : Ring) : Units := { ringCfg with rings := { ring := ⟨[(63, x)]⟩ } }
/-- A completion write of ring 63 whose response is awaited. -/
def writeOut (irq : Bool) : Units := { withBank ringCfg [(F.RNG_r_IRQ_count, 63, 0)] with rings := { ring := ⟨[(63, { state := 1, pend := 2 })]⟩, writes := [{ ring := 63, irq := irq }] } }
/-- The last group of regions of the staging store, selected for its counts. -/
def tailFetch (k : Nat) : Units := { withRing { state := 1, tail := 9, fetch := 5, fetching := [5] } with rings := { ring := ⟨[(63, { state := 1, tail := 9, fetch := 5, fetching := [5] })]⟩, reads := [(63, 5, k)] } }
/-- A descriptor: its opcode, and values from bytes on. -/
def desc (op : Nat) (l : List (Nat × Nat)) : Desc := { idx := 5, bits := BitVec.ofNat 512 (op + (l.map fun x => x.2 * 2 ^ (8 * x.1)).sum) }
/-- One that has begun. -/
def going (d : Desc) : Desc := { d with begun := true }
/-- Ring 63 holds that descriptor alone. -/
def descU (d : Desc) : Units := ringU ringCfg [d]
/-- Channel 15 is in service. -/
def serviceU (d : Desc) : Units := withF { descU d with stg := { rowsLog2 := 13 } } [(F.DDR5_n_STATE_state, 15, 2)]
/-- Patches fill the table of subchannel 0 of channel 15. -/
def fullPatches (d : Desc) : Units := setDdr (serviceU d) 15 { sub0 := { patches := (List.range 8).map fun k => { line := 16 * k + 1 } } }
/-- The self-test requester holds the grant of channel 15. -/
def readTestU (d : Desc) : Units := { serviceU d with arbs := ⟨[(15, { holder := 5 })]⟩ }
/-- Context 5 is open. -/
def ctxU (d : Desc) (rec' : BitVec 160) : Units := { descU d with ctxEven := ⟨[(5, rec')]⟩ }
/-- A journal whose first block is durable. -/
def durableU (d : Desc) : Units := { descU d with hng := { mounted := true, seq := 9 } }
/-- A small block with only the core and the rings powered, and a begun descriptor whose payload has been read. -/
def payloadU (d : Desc) : Units := { descU d with v := .v18, pd := ⟨[(2, 1), (4, 1)]⟩ }
/-- Subchannel 1 of channel 15, in service. -/
def subU (x : Sub) : Units := setDdr (withF { u0 with stg := { rowsLog2 := 13 } } [(F.DDR5_n_STATE_state, 15, 2)]) 15 { sub1 := x }
/-- A header read of line 0. -/
def headRead : DAcc := { use := .header }
/-- Channel 71 has these dies, transfers and a busy bus. -/
def cexU (y : Cex) : Units := setCex u0 71 y
/-- Die 7 of channel 71 in a state. -/
def dieU (x : Die) : Units := cexU { dies := ⟨[(7, x)]⟩ }
/-- A read of a die. -/
def fillRead : DRead := { rid := 4, dla := 9, cls := 1 }
/-- The bus of channel 71 carries the result of die 7, a line that a fill waits for. -/
def busU (l : MLine) : Units :=
  { setGrp (cexU { dies := ⟨[(7, { result := some fillRead, chip := { reg := some l } })]⟩, cur := some { die := 7 } }) 7 { reads := [{ id := 4, pkt := { typ := .fillFwd, src := 97, dst := 71, handle := 32, lla := 7, port := 62, ord := 9, gen := 3 }, direct := { on := true, need := [8] } }] } with media := ⟨[(mediaKey 71 7 9, l)]⟩ }
/-- Group 7 in the window of its last die position. -/
def windowU (u : Units) : Units := setGrp u 7 { phase := 8 }
/-- The calibration requester holds the grant of channel 71. -/
def calGrant (u : Units) : Units := { u with arbs := ⟨[(199, { holder := 3 })]⟩ }
/-- A link check of die 7 of channel 71 is due in its window. -/
def linkU : Units := calGrant { withF (windowU (cexU { linkDie := 7 })) [(F.CEX_n_LINK_period, 71, 1)] with now := 2 ^ 40 }
/-- An idle die whose eight slots are loaded. -/
def loadedDie : Die := { slots := (List.range 8).map fun k => (k, 3 + k / 7, 0), chip := { slots := (List.range 8).map fun k => (k, k, {}) } }
/-- A programming die and the entry its line comes from. -/
def programU (todo : List Nat) : Units :=
  setGrp (dieU { st := .programming, pgm := true, running := [(2, 3)] }) 7 { bufs := [{ id := 3, use := .destage 0, group := 63, dla := 9, formed := true, want := 8, todo := todo }] }
/-- The hinge unit with due work and entries. -/
def workU (h : Hinge) : Units := { u0 with hng := { h with mounted := true } }
/-- Slot 15 sweeps or formats the last spare region. -/
def spareU (cause state : Nat) : Units := workU { slots := ⟨[(15, { cause := cause, src := 4325375 })]⟩, active := [15], pip := ⟨[(4325375, 7 * 2 ^ 24 + state * 2 ^ 56)]⟩ }
/-- A stripe copied by the move in slot 15 has been written. -/
def copiedU : Units :=
  setGrp (workU { slots := ⟨[(15, { cause := 2, region := 7, src := 7, tgt := 4194304, cursor := 5, flying := [5], next := 16384 })]⟩, active := [15] }) 0
    { bufs := [{ id := 3, use := .move 15 5, stripe := 7 * 16384 + 5, prn := 4194304, formed := true }] }
/-- A key-port message: header and payload with its check word. -/
def keyMsg (ws : List Word) : List Word := ws ++ [wordsCheck ws]
/-- KEY_LOAD of slot 1023 with sixteen key words. -/
def loadMsg (l : List Word) : List Word := keyMsg (BitVec.ofNat 32 (0x10 + 7 * 256 + 1023 * 65536) :: l)
/-- A strong key and a weak one. -/
def strongKey : List Word := (List.range 16).map fun k => BitVec.ofNat 32 k
/-- Two equal halves. -/
def weakWords : List Word := List.replicate 16 5
/-- The key port is ready and holds key slots. -/
def keyU (l : List (Nat × KeySlot)) : Units := { u0 with keys := ⟨l⟩, keyPort := { state := 1 } }
/-- A small variant with every domain on and its tables mounted. -/
def small : Units := { u0 with v := .v18 }
/-- The bytes of a boot image whose only section, of type 2, gives 13 rows. -/
def rowsImage : List (BitVec 8) :=
  List.replicate 7 0 ++ [1] ++ List.replicate 24 0 ++ [2, 0, 0, 0, 48, 0, 0, 0, 24, 0, 0, 0, 0, 0, 0, 0] ++ [0, 0, 0, 13] ++ List.replicate 20 0
/-- A block in MOUNT. -/
def mountU (k : Keep) : Units := { small with hng := {}, boot := { image := rowsImage }, keep := k }
/-- A number as bytes. -/
def leBytes (n x : Nat) : List (BitVec 8) := (toBytes n x).map fun b => BitVec.ofNat 8 b
/-- The sections of a valid image: type, offset and bytes. -/
def imageSections : List (Nat × Nat × List (BitVec 8)) :=
  [(1, 256, List.replicate 8 0), (2, 264, [0, 0, 0, 13] ++ List.replicate 12 0 ++ leBytes 4 (1 + 2 ^ 8 + 2 ^ 20) ++ leBytes 4 (85 + 256)),
    (4, 288, List.replicate 16 0), (5, 304, List.replicate 136 0)]
/-- Its header without the check, and its directory. -/
def imageHead : List (BitVec 8) := leBytes 4 0x594C4853 ++ [1, 0, 7, 4] ++ leBytes 4 3 ++ leBytes 4 4096 ++ leBytes 4 9 ++ List.replicate 8 0
/-- Its directory. -/
def imageDir : List (BitVec 8) :=
  (imageSections.flatMap fun x => [BitVec.ofNat 8 x.1, 0, 0, 0] ++ leBytes 4 x.2.1 ++ leBytes 4 x.2.2.length ++ leBytes 4 (crc32c (x.2.2.map fun b => b.toNat))) ++ List.replicate 160 0
/-- The valid image. -/
def goodImage : List (BitVec 8) :=
  imageHead ++ leBytes 4 (crc32c ((imageHead ++ imageDir).map fun b => b.toNat)) ++ imageDir ++ imageSections.flatMap fun x => x.2.2

/-! ### Worked examples and values of the spec -/

/-- Region 149,130 of *Architecture*, "Worked example: placing one line", at PRN 1,234,567 with spin 5, and the spare of *Hinge Table*'s worked example with spin 6. -/
def placedU : Units := { u0 with hng := { mounted := true, pip := ⟨[(1234567, 5 * 2 ^ 40 + 2 * 2 ^ 56), (4231175, 6 * 2 ^ 40 + 2 * 2 ^ 56)]⟩ } }

/-- Its stripe 13,252 lies at die line address 899,807,428, its line 7 at die position 0 and its parity at position 1; at the spare, at 1,073,871,300, position 2, parity position 3. -/
theorem test_placing_one_line : prnGroup .v72 1234567 = 18 ∧ stripeDla placedU 1234567 13252 = 899807428 ∧ dataPos 899807428 7 = 0 ∧ posLine 899807428 1 = 8 ∧
    prnGroup .v72 4231175 = 18 ∧ stripeDla placedU 4231175 13252 = 1073871300 ∧ dataPos 1073871300 7 = 2 ∧ posLine 1073871300 3 = 8 := by decide

/-- The V72 of *Staging Store*'s worked example: 13 row bits, one rank, seed 0. -/
def burstU : Units := { u0 with stg := { rowsLog2 := 13 } }

/-- Its stripe 1 has slice 9, set 3,531,594 and tag 10,125; the set lies in subchannel 1, bank index 20, rank 0, row 6,897, its header at column 512 and way 9 at column 672. -/
theorem test_burst_placement : lineSlice burstU 0 8 = 9 ∧ lineSet burstU 8 = 3531594 ∧ lineTag burstU 8 = 10125 ∧ lineSub (3531594 * 16) = 1 ∧ lineBank (3531594 * 16) = 20 ∧
    lineRank burstU (3531594 * 16) = 0 ∧ lineRow burstU (3531594 * 16) = 6897 ∧ lineCol (3531594 * 16) = 512 ∧ lineCol (3531594 * 16 + 1 + 9) = 672 := by decide

/-- Grant 8 of *Concurrency*'s worked example is the bye: the scrubber has waited longest, although the mover's rank is 7; grant 9 goes by rank to the mover. -/
theorem test_bye_overtakes : decide_ { rank := 0x13A39, number := 7, raised := ⟨[(0, 1), (1, 1601)]⟩ } = some 0 ∧
    decide_ { rank := 0x13A39, number := 8, raised := ⟨[(1, 1601)]⟩ } = some 1 := by decide

/-- Zone 2 of *Modes, Power and Thermal*'s worked example: sensor 5 has failed, sensor 4 reads 93 and the step is 3. -/
def throttledU (t : Nat) : Units :=
  withF (withBank { u0 with pwr := { sensors := ⟨[(4, { at_ := 1 }), (5, { at_ := 1 })]⟩ } } [(F.PWR_ZONE_z_CFG_t_high, 2, 95), (F.PWR_ZONE_z_CFG_hyst, 2, 3), (F.PWR_SENSOR_i_zone, 4, 2), (F.PWR_SENSOR_i_zone, 5, 2)])
    [(F.PWR_SENSOR_i_temp, 4, t), (F.PWR_SENSOR_i_valid, 4, 1), (F.PWR_SENSOR_i_failed, 5, 1), (F.PWR_ZONE_z_STATE_own, 2, 3)]

/-- The own step of zone 2 after a command. -/
def ownStep (x : Host.Outcome State Fault Refusal) : Nat := match x with
  | .next t => getF t.u F.PWR_ZONE_z_STATE_own 2
  | _ => 99

/-- The stand-in 93 + 5 raises the step to 4; at 89 the excess is −1 and the step holds; at 85 the failure holds it. -/
theorem test_sensor_fails : ownStep (exec (.zoneEvaluate 2) (run (throttledU 93))) = 4 ∧ ownStep (exec (.zoneEvaluate 2) (run (throttledU 89))) = 3 ∧
    ownStep (exec (.zoneEvaluate 2) (run (throttledU 85))) = 3 := by decide +kernel

/-- BLOCK_ID by variant (Table 19-5), and two reset values of *Descriptor Rings*. -/
theorem test_reset_values : regReset .v72 .BLOCK_ID 0 = 0x07A50111 ∧ regReset .v36 .BLOCK_ID 0 = 0x07A50112 ∧ regReset .v18 .BLOCK_ID 0 = 0x07A50113 ∧
    rawReg State.reset.u .BLOCK_ID = 0x07A50111 ∧ bankReg State.reset.u 0 .RNG_r_CFG 63 = 0x840 ∧ bankReg State.reset.u 0 .RNG_NT_CFG = 0x40 ∧
    State.reset.ctl.mode = .reset ∧ State.reset.pending = [] := by decide

/-- An empty queue lets one AON cycle pass; RST_N high begins LOAD; GLB_DEADBOLT bits stay set (R16). -/
theorem test_first_steps : (match step (run u0) with | .next t => t.u.now | _ => 0) = 1 ∧
    (match step { State.reset with pending := [.load {}] } with | .next t => t.ctl.mode | _ => .reset) = .load ∧
    (match exec (.deadbolt 5) (run u0) with | .next t => (match exec (.deadbolt 2) t with | .next z => z.ctl.bolts.toNat | _ => 0) | _ => 0) = 7 := by decide +kernel

/-! ### The hypotheses of the statements are met -/

theorem witness_HeaderAccepted :
    (let s : State := run (setPort u0 63 port3); let p : ℕ := 63; let pool : ℕ := 3; let h : BitVec 128 := hdrWord 1 5 0 0 0 0; p < nPorts s.u.v ∧ pool < 4 ∧ pdState s.u (pdCluster (p / 8)) ≠ 0 ∧ (port s.u p).state = 2 ∧ (port s.u p).ingress = .idle ∧ 0 < tabGet (port s.u p).hdrCred pool ∧ hcheckOk h = true ∧ dataUnits (hCmd h) ≤ tabGet (port s.u p).dataCred pool ∧ hCmd h = 1) ∧
    (let s : State := run (setPort u0 63 port3); let p : ℕ := 63; let pool : ℕ := 3; let h : BitVec 128 := hdrWord 2 5 0 0 0 0; p < nPorts s.u.v ∧ pool < 4 ∧ pdState s.u (pdCluster (p / 8)) ≠ 0 ∧ (port s.u p).state = 2 ∧ (port s.u p).ingress = .idle ∧ 0 < tabGet (port s.u p).hdrCred pool ∧ hcheckOk h = true ∧ dataUnits (hCmd h) ≤ tabGet (port s.u p).dataCred pool ∧ hCmd h = 2) ∧
    (let s : State := run (setPort u0 63 port3); let p : ℕ := 63; let pool : ℕ := 3; let h : BitVec 128 := hdrWord 3 5 0 0 0 0; p < nPorts s.u.v ∧ pool < 4 ∧ pdState s.u (pdCluster (p / 8)) ≠ 0 ∧ (port s.u p).state = 2 ∧ (port s.u p).ingress = .idle ∧ 0 < tabGet (port s.u p).hdrCred pool ∧ hcheckOk h = true ∧ dataUnits (hCmd h) ≤ tabGet (port s.u p).dataCred pool ∧ hCmd h = 3) ∧
    (let s : State := run (setPort u0 63 port3); let p : ℕ := 63; let pool : ℕ := 3; let h : BitVec 128 := hdrWord 4 5 0 0 0 0; p < nPorts s.u.v ∧ pool < 4 ∧ pdState s.u (pdCluster (p / 8)) ≠ 0 ∧ (port s.u p).state = 2 ∧ (port s.u p).ingress = .idle ∧ 0 < tabGet (port s.u p).hdrCred pool ∧ hcheckOk h = true ∧ dataUnits (hCmd h) ≤ tabGet (port s.u p).dataCred pool ∧ hCmd h = 4) ∧
    (let s : State := run (setPort u0 63 port3); let p : ℕ := 63; let pool : ℕ := 3; let h : BitVec 128 := hdrWord 5 5 0 0 0 0; p < nPorts s.u.v ∧ pool < 4 ∧ pdState s.u (pdCluster (p / 8)) ≠ 0 ∧ (port s.u p).state = 2 ∧ (port s.u p).ingress = .idle ∧ 0 < tabGet (port s.u p).hdrCred pool ∧ hcheckOk h = true ∧ dataUnits (hCmd h) ≤ tabGet (port s.u p).dataCred pool ∧ hCmd h = 5) ∧
    (let s : State := run (setPort u0 63 port3); let p : ℕ := 63; let pool : ℕ := 3; let h : BitVec 128 := hdrWord 6 5 0 0 0 0; p < nPorts s.u.v ∧ pool < 4 ∧ pdState s.u (pdCluster (p / 8)) ≠ 0 ∧ (port s.u p).state = 2 ∧ (port s.u p).ingress = .idle ∧ 0 < tabGet (port s.u p).hdrCred pool ∧ hcheckOk h = true ∧ dataUnits (hCmd h) ≤ tabGet (port s.u p).dataCred pool ∧ hCmd h = 6) := by
  exact ⟨by decide, by decide, by decide, by decide, by decide, by decide⟩

theorem witness_HeaderLeavesForTransit :
    (let s : State := run portU; let p : ℕ := 62; let pool : ℕ := 3; let h : BitVec 128 := hdrWord 1 5 0 8 0 0; p < nPorts s.u.v ∧ pool < 4 ∧ pdState s.u (pdCluster (p / 8)) ≠ 0 ∧ (port s.u p).state = 2 ∧ (port s.u p).ingress = .idle ∧ 0 < tabGet (port s.u p).hdrCred pool ∧ hcheckOk h = true ∧ goesThrough s.ctl s.u p h ∧ clusterStill s.u (p / 8) ∧ standsAlone (port s.u p) h (port s.u p).next ∧ hCmd h = 1) ∧
    (let s : State := run portU; let p : ℕ := 62; let pool : ℕ := 3; let h : BitVec 128 := hdrWord 4 5 0 8 0 0; p < nPorts s.u.v ∧ pool < 4 ∧ pdState s.u (pdCluster (p / 8)) ≠ 0 ∧ (port s.u p).state = 2 ∧ (port s.u p).ingress = .idle ∧ 0 < tabGet (port s.u p).hdrCred pool ∧ hcheckOk h = true ∧ goesThrough s.ctl s.u p h ∧ clusterStill s.u (p / 8) ∧ standsAlone (port s.u p) h (port s.u p).next ∧ hCmd h = 4) ∧
    (let s : State := run portU; let p : ℕ := 62; let pool : ℕ := 3; let h : BitVec 128 := hdrWord 5 5 0 0 0 0; p < nPorts s.u.v ∧ pool < 4 ∧ pdState s.u (pdCluster (p / 8)) ≠ 0 ∧ (port s.u p).state = 2 ∧ (port s.u p).ingress = .idle ∧ 0 < tabGet (port s.u p).hdrCred pool ∧ hcheckOk h = true ∧ goesThrough s.ctl s.u p h ∧ clusterStill s.u (p / 8) ∧ standsAlone (port s.u p) h (port s.u p).next ∧ hCmd h = 5) := by
  unfold clusterStill goesThrough standsAlone
  exact ⟨by decide, by decide, by decide⟩

theorem witness_DataBeatTaken :
    (let s : State := run (takingU (writeReq 0 0)); let p : ℕ := 62; let pool : ℕ := 3; let ord : ℕ := 9; let d : BitVec 256 := 0; let par : BitVec 32 := 0; let A : List Req := [{ hdr := hdrWord 1 7 1 0 0 0, ord := 8, phase := .sent }]; let B : List Req := []; let r : Req := writeReq 0 0; p < nPorts s.u.v ∧ pool < 4 ∧ pdState s.u (pdCluster (p / 8)) ≠ 0 ∧ (port s.u p).state = 2 ∧ (port s.u p).ingress = .taking ord ∧ (port s.u p).reqs = A ++ r :: B ∧ r.ord = ord ∧ r.phase = .data ∧ (∀ z ∈ A ++ B, z.ord ≠ ord) ∧ 0 < tabGet (port s.u p).dataCred pool ∧ pool = r.pool ∧ dparOk d par = true ∧ clusterStill s.u (p / 8) ∧ r.data.length + 1 < dataUnits (hCmd r.hdr)) ∧
    (let s : State := run (takingU (writeReq 1 0)); let p : ℕ := 62; let pool : ℕ := 3; let ord : ℕ := 9; let d : BitVec 256 := 0; let par : BitVec 32 := 0; let A : List Req := [{ hdr := hdrWord 1 7 1 0 0 0, ord := 8, phase := .sent }]; let B : List Req := []; let r : Req := writeReq 1 0; p < nPorts s.u.v ∧ pool < 4 ∧ pdState s.u (pdCluster (p / 8)) ≠ 0 ∧ (port s.u p).state = 2 ∧ (port s.u p).ingress = .taking ord ∧ (port s.u p).reqs = A ++ r :: B ∧ r.ord = ord ∧ r.phase = .data ∧ (∀ z ∈ A ++ B, z.ord ≠ ord) ∧ 0 < tabGet (port s.u p).dataCred pool ∧ pool = r.pool ∧ dparOk d par = true ∧ clusterStill s.u (p / 8) ∧ r.data.length + 1 = dataUnits (hCmd r.hdr) ∧ r.bad = false ∧ r.label = false ∧ goesThrough s.ctl s.u p r.hdr ∧ (∀ z ∈ A ++ B, hTag z.hdr ≠ hTag r.hdr ∧ hCtx z.hdr ≠ hCtx r.hdr) ∧ hCmd r.hdr = 2) ∧
    (let s : State := run (takingU (writeReq 1 1)); let p : ℕ := 62; let pool : ℕ := 3; let ord : ℕ := 9; let d : BitVec 256 := 0; let par : BitVec 32 := 0; let A : List Req := [{ hdr := hdrWord 1 7 1 0 0 0, ord := 8, phase := .sent }]; let B : List Req := []; let r : Req := writeReq 1 1; p < nPorts s.u.v ∧ pool < 4 ∧ pdState s.u (pdCluster (p / 8)) ≠ 0 ∧ (port s.u p).state = 2 ∧ (port s.u p).ingress = .taking ord ∧ (port s.u p).reqs = A ++ r :: B ∧ r.ord = ord ∧ r.phase = .data ∧ (∀ z ∈ A ++ B, z.ord ≠ ord) ∧ 0 < tabGet (port s.u p).dataCred pool ∧ pool = r.pool ∧ dparOk d par = true ∧ clusterStill s.u (p / 8) ∧ r.data.length + 1 = dataUnits (hCmd r.hdr) ∧ r.bad = false ∧ r.label = false ∧ goesThrough s.ctl s.u p r.hdr ∧ (∀ z ∈ A ++ B, hTag z.hdr ≠ hTag r.hdr ∧ hCtx z.hdr ≠ hCtx r.hdr) ∧ hCmd r.hdr = 2) ∧
    (let s : State := run (takingU maskedReq); let p : ℕ := 62; let pool : ℕ := 3; let ord : ℕ := 9; let d : BitVec 256 := 0; let par : BitVec 32 := 0; let A : List Req := [{ hdr := hdrWord 1 7 1 0 0 0, ord := 8, phase := .sent }]; let B : List Req := []; let r : Req := maskedReq; p < nPorts s.u.v ∧ pool < 4 ∧ pdState s.u (pdCluster (p / 8)) ≠ 0 ∧ (port s.u p).state = 2 ∧ (port s.u p).ingress = .taking ord ∧ (port s.u p).reqs = A ++ r :: B ∧ r.ord = ord ∧ r.phase = .data ∧ (∀ z ∈ A ++ B, z.ord ≠ ord) ∧ 0 < tabGet (port s.u p).dataCred pool ∧ pool = r.pool ∧ dparOk d par = true ∧ clusterStill s.u (p / 8) ∧ r.data.length + 1 = dataUnits (hCmd r.hdr) ∧ r.bad = false ∧ r.label = false ∧ goesThrough s.ctl s.u p r.hdr ∧ (∀ z ∈ A ++ B, hTag z.hdr ≠ hTag r.hdr ∧ hCtx z.hdr ≠ hCtx r.hdr) ∧ (hCmd r.hdr = 3 ∧ hMask r.hdr ≠ 0 ∧ hP r.hdr ≠ 1)) := by
  unfold clusterStill goesThrough
  exact ⟨by decide, by decide, by decide, by decide⟩

theorem witness_PortReadyOpens :
    (let s : State := run (setPort u0 63 { state := 1 }); let p : ℕ := 63; p < nPorts s.u.v ∧ (port s.u p).state = 1) := by
  decide

theorem witness_RefillRaisesLevels :
    (let s : State := run (setPort u0 63 { state := 3 }); let p : ℕ := 63; let k : ℕ := 3; p < nPorts s.u.v ∧ k < 4 ∧ ((port s.u p).state = 2 ∨ (port s.u p).state = 3) ∧ clusterStill s.u (p / 8)) ∧
    (let s : State := run (setPort u0 0 { state := 2 }); let p : ℕ := 0; let k : ℕ := 0; p < nPorts s.u.v ∧ k < 4 ∧ ((port s.u p).state = 2 ∨ (port s.u p).state = 3) ∧ clusterStill s.u (p / 8)) := by
  unfold clusterStill
  exact ⟨by decide, by decide⟩

theorem witness_RewriteCheckIsSent :
    (let s : State := run readyU; let p : ℕ := 62; let ord : ℕ := 9; let r : Req := readyWrite; let cl := epCluster (p / 8); let sl := epSlice (lineSlice s.u (r.epoch.getD 0) (hLla r.hdr)); p < nPorts s.u.v ∧ findReq s.u p ord = some r ∧ r.phase = .ready ∧ isWriteCmd (hCmd r.hdr) = true ∧ r.checkOut = false ∧ r.bound = false ∧ r.tickets.contains (poolId 1 cl sl) = false ∧ routeRefused s.u cl sl = false ∧ canTake s.u (poolId 0 cl sl) r.prio = true) ∧
    (let s : State := run (setPort portU 62 { port3 with reqs := [{ readyWrite with checkOut := true }] }); let p : ℕ := 62; let ord : ℕ := 9; let r : Req := { readyWrite with checkOut := true }; p < nPorts s.u.v ∧ findReq s.u p ord = some r ∧ r.phase = .ready ∧ isWriteCmd (hCmd r.hdr) = true ∧ r.checkOut = true) := by
  exact ⟨by decide, by decide⟩

theorem witness_RecordFetchAnswers :
    (let s : State := run fetchU; let pkt : ℕ := 0; let k : Pkt := fetchU.net.head!; let w : Machine.Units := fetchU; lands s pkt .ctx k w ∧ 32 ≤ k.dst) ∧
    (let s : State := run fetchedU; let pkt : ℕ := 0; let k : Pkt := fetchedU.net.head!; let w : Machine.Units := fetchedU; let r : Req := fetchReq; lands s pkt .ctx k w ∧ k.dst < 32 ∧ findReq s.u k.port k.ord = some r) := by
  unfold lands
  exact ⟨by decide, by decide⟩

theorem witness_CompletionsLeaveEgress :
    (let s : State := run (flightU 1 { typ := .lineRet, src := 32, dst := 7, lla := 8, data := 5 }); let pkt : ℕ := 0; let k : Pkt := (flightU 1 { typ := .lineRet, src := 32, dst := 7, lla := 8, data := 5 }).net.head!; let w : Machine.Units := flightU 1 { typ := .lineRet, src := 32, dst := 7, lla := 8, data := 5 }; let r : Req := sentReq 1; findReq s.u k.port k.ord = some r ∧ r.phase = .sent ∧ lands s pkt .lineRet k w ∧ k.kind = .read ∧ hCmd r.hdr = 1) ∧
    (let s : State := run (flightU 1 { typ := .zero, src := 97, dst := 7, lla := 8 }); let pkt : ℕ := 0; let k : Pkt := (flightU 1 { typ := .zero, src := 97, dst := 7, lla := 8 }).net.head!; let w : Machine.Units := flightU 1 { typ := .zero, src := 97, dst := 7, lla := 8 }; let r : Req := sentReq 1; findReq s.u k.port k.ord = some r ∧ r.phase = .sent ∧ lands s pkt .zero k w ∧ k.kind = .read ∧ k.dst < 32 ∧ hCmd r.hdr = 1) ∧
    (let s : State := run (flightU 5 { typ := .done, src := 96, dst := 7, aux := 2 }); let pkt : ℕ := 0; let k : Pkt := (flightU 5 { typ := .done, src := 96, dst := 7, aux := 2 }).net.head!; let w : Machine.Units := flightU 5 { typ := .done, src := 96, dst := 7, aux := 2 }; let r : Req := sentReq 5; findReq s.u k.port k.ord = some r ∧ r.phase = .sent ∧ lands s pkt .done k w ∧ k.kind ≠ .check ∧ k.dst < 32 ∧ hCmd r.hdr ≠ 1 ∧ hCmd r.hdr ≠ 4) := by
  unfold lands
  exact ⟨by decide, by decide, by decide⟩

theorem witness_TicketsComeBack :
    (let s : State := run { fetchU with net := [{ typ := .ticket, src := 96, dst := 7, pool := poolId 0 7 96 }], ports := ⟨[]⟩ }; let pkt : ℕ := 0; let k : Pkt := { typ := .ticket, src := 96, dst := 7, pool := poolId 0 7 96 }; let w : Machine.Units := { fetchU with net := [{ typ := .ticket, src := 96, dst := 7, pool := poolId 0 7 96 }], ports := ⟨[]⟩ }; lands s pkt .ticket k w ∧ ((k.dst < 32 ∧ clusterStill s.u k.dst) ∨ (64 ≤ k.dst ∧ k.dst ≠ epCore 5))) ∧
    (let s : State := run { u0 with net := [{ typ := .ticket, src := 64, dst := 97, pool := poolId 0 97 64, aux := 1 }], tickets := ⟨[(poolId 0 97 64, 3)]⟩ }; let pkt : ℕ := 0; let k : Pkt := { typ := .ticket, src := 64, dst := 97, pool := poolId 0 97 64, aux := 1 }; let w : Machine.Units := { u0 with net := [{ typ := .ticket, src := 64, dst := 97, pool := poolId 0 97 64, aux := 1 }], tickets := ⟨[(poolId 0 97 64, 3)]⟩ }; lands s pkt .ticket k w ∧ ((k.dst < 32 ∧ clusterStill s.u k.dst) ∨ (64 ≤ k.dst ∧ k.dst ≠ epCore 5))) := by
  unfold clusterStill lands
  exact ⟨by decide, by decide⟩

theorem witness_PacketsJoinTheirSlice :
    (let s : State := run (toSlice readPkt); let pkt : ℕ := 0; let k : Pkt := readPkt; let w : Machine.Units := toSlice readPkt; lands s pkt .lineReq k w) ∧
    (let s : State := run (toSlice (writePkt false)); let pkt : ℕ := 0; let k : Pkt := writePkt false; let w : Machine.Units := toSlice (writePkt false); lands s pkt .lineWr k w) := by
  unfold lands
  exact ⟨by decide, by decide⟩

theorem witness_FillsEndAtTheSlice :
    (let s : State := run (fillU { typ := .fillData, src := 64, dst := 32, lla := 7, data := 9 }); let pkt : ℕ := 0; let k : Pkt := { typ := .fillData, src := 64, dst := 32, lla := 7, data := 9 }; let w : Machine.Units := fillU { typ := .fillData, src := 64, dst := 32, lla := 7, data := 9 }; let f : Fill := fill7; 32 ≤ k.dst ∧ k.dst < 64 ∧ ((slice s.u (k.dst - 32)).fills.find? (fun f => f.lla == k.lla && f.got.isNone) = some f) ∧ f.pending = false ∧ lands s pkt .fillData k w) ∧
    (let s : State := run (fillU { typ := .zero, src := 97, dst := 32, lla := 7, zline := true }); let pkt : ℕ := 0; let k : Pkt := { typ := .zero, src := 97, dst := 32, lla := 7, zline := true }; let w : Machine.Units := fillU { typ := .zero, src := 97, dst := 32, lla := 7, zline := true }; let f : Fill := fill7; 32 ≤ k.dst ∧ k.dst < 64 ∧ ((slice s.u (k.dst - 32)).fills.find? (fun f => f.lla == k.lla && f.got.isNone) = some f) ∧ f.pending = false ∧ lands s pkt .zero k w) ∧
    (let s : State := run (fillU { typ := .done, src := 97, dst := 32, lla := 7, aux := 7 }); let pkt : ℕ := 0; let k : Pkt := { typ := .done, src := 97, dst := 32, lla := 7, aux := 7 }; let w : Machine.Units := fillU { typ := .done, src := 97, dst := 32, lla := 7, aux := 7 }; let f : Fill := fill7; 32 ≤ k.dst ∧ k.dst < 64 ∧ ((slice s.u (k.dst - 32)).fills.find? (fun f => f.lla == k.lla && f.got.isNone) = some f) ∧ f.pending = false ∧ lands s pkt .done k w) ∧
    (let f : Fill := fill7; let st : ℕ := 7; let a : Asker := { src := 7, port := 62, ord := 9, prio := 3 }; st ≠ 0 ∧ a ∈ f.askers ∧ a.kind = .read) ∧
    (let u : Machine.Units := fillU { typ := .fillData, src := 64, dst := 32, lla := 7, data := 9 }; let sl : ℕ := 0; let f : Fill := { fill7 with askers := [{ src := 7, port := 62, ord := 9, prio := 3 }, { src := 6, port := 48, ord := 2, prio := 3 }] }; let k : Pkt := { typ := .fillData, src := 64, dst := 32, lla := 7, data := 9 }; let b : Asker := { src := 7, port := 62, ord := 9, prio := 3 }; let rest : List Asker := [{ src := 6, port := 48, ord := 2, prio := 3 }]; let a : Asker := { src := 6, port := 48, ord := 2, prio := 3 }; (slice u sl).sealed.contains (lineSet u k.lla) = false ∧ k.zline = false ∧ f.askers = b :: rest ∧ a ∈ rest ∧ a.kind = .read) := by
  unfold lands
  exact ⟨by decide, by decide, by decide, by decide, by decide⟩

theorem witness_SliceServesReads :
    (let u : Machine.Units := sliceU (hdr14 2); let sl : ℕ := 0; let k : Pkt := readPkt; let e : HdrEntry := { set := 0, hdr := hdr14 2, loaded := true }; let set := lineSet u k.lla; let w : ℕ := 14; k.typ = .lineReq ∧ k.kind = .read ∧ heldBack u sl k = false ∧ (slice u sl).sealed.contains (lineSet u k.lla) = false ∧ lockOf (slice u sl) k.lla = none ∧ fillOf (slice u sl) k.lla = none ∧ earlyOf (slice u sl) k = none ∧ hdrEntry u sl (lineSet u k.lla) = some e ∧ e.loaded = true ∧ findWay e.hdr (lineTag u k.lla) (k.lla % 8) = some w ∧ wayState e.hdr w ≠ 3 ∧ rqRoom u sl (set * 16) 1 = true ∧ (((subOf u sl (lineSub (set * 16))).rq ++ (subOf u sl (lineSub (set * 16))).inflight).any (fun a => a.use == .ahead w k.id) = false)) ∧
    (let u : Machine.Units := sliceU (hdr14 3); let sl : ℕ := 0; let k : Pkt := readPkt; let e : HdrEntry := { set := 0, hdr := hdr14 3, loaded := true }; let w : ℕ := 14; k.typ = .lineReq ∧ k.kind = .read ∧ heldBack u sl k = false ∧ (slice u sl).sealed.contains (lineSet u k.lla) = false ∧ lockOf (slice u sl) k.lla = none ∧ fillOf (slice u sl) k.lla = none ∧ earlyOf (slice u sl) k = none ∧ hdrEntry u sl (lineSet u k.lla) = some e ∧ e.loaded = true ∧ findWay e.hdr (lineTag u k.lla) (k.lla % 8) = some w ∧ wayState e.hdr w = 3) ∧
    (let u : Machine.Units := sliceU (hdr14 0); let sl : ℕ := 0; let k : Pkt := readPkt; let e : HdrEntry := { set := 0, hdr := hdr14 0, loaded := true }; k.typ = .lineReq ∧ k.kind = .read ∧ heldBack u sl k = false ∧ (slice u sl).sealed.contains (lineSet u k.lla) = false ∧ lockOf (slice u sl) k.lla = none ∧ fillOf (slice u sl) k.lla = none ∧ earlyOf (slice u sl) k = none ∧ hdrEntry u sl (lineSet u k.lla) = some e ∧ e.loaded = true ∧ findWay e.hdr (lineTag u k.lla) (k.lla % 8) = none ∧ (slice u sl).fills.length < 64 ∧ fillRival (slice u sl) k = false ∧ fillFenced u sl = false ∧ canTake u (poolId 0 (epSlice sl) (epCore 1)) k.prio = true ∧ canTake u (poolId 4 (epSlice sl) (epSlice sl)) k.prio = true) := by
  exact ⟨by decide, by decide, by decide⟩

theorem witness_SliceTakesWrites :
    (let u : Machine.Units := sliceU (hdr14 1); let sl : ℕ := 0; let k : Pkt := writePkt false; let e : HdrEntry := { set := 0, hdr := hdr14 1, loaded := true }; let w : ℕ := 14; k.typ = .lineWr ∧ k.kind = .read ∧ k.merge = false ∧ k.bound = false ∧ k.src ≠ epCore 5 ∧ k.pool / 65536 = 1 ∧ heldBack u sl k = false ∧ (slice u sl).sealed.contains (lineSet u k.lla) = false ∧ lockOf (slice u sl) k.lla = none ∧ hdrEntry u sl (lineSet u k.lla) = some e ∧ e.loaded = true ∧ findWay e.hdr (lineTag u k.lla) (k.lla % 8) = some w ∧ marked e w .read = false ∧ wqRoom u sl [e.set * 16, e.set * 16 + 1 + w] = true) ∧
    (let u : Machine.Units := sliceU (hdr14 3); let sl : ℕ := 0; let k : Pkt := writePkt true; let e : HdrEntry := { set := 0, hdr := hdr14 3, loaded := true }; let w : ℕ := 14; k.typ = .lineWr ∧ k.kind = .read ∧ k.merge = false ∧ k.bound = false ∧ k.src ≠ epCore 5 ∧ k.pool / 65536 = 1 ∧ heldBack u sl k = false ∧ (slice u sl).sealed.contains (lineSet u k.lla) = false ∧ lockOf (slice u sl) k.lla = none ∧ hdrEntry u sl (lineSet u k.lla) = some e ∧ e.loaded = true ∧ findWay e.hdr (lineTag u k.lla) (k.lla % 8) = some w ∧ marked e w .read = false ∧ wqRoom u sl [e.set * 16, e.set * 16 + 1 + w] = true) := by
  exact ⟨by decide, by decide⟩

theorem witness_FillRequestAnswered :
    (let s : State := run (hingeU (lastRegion + 2^25) []); let pkt : ℕ := 0; let k : Pkt := fillReqPkt; let w : Machine.Units := (hingeU (lastRegion + 2^25) []); let l := k.lla / 131072; let e := hingeEntry s.u l; lands s pkt .fillReq k w ∧ pdOn s.u 2 = true ∧ s.u.hng.mounted = true ∧ (badRegion s.u l = true ∨ hLost e = true)) ∧
    (let s : State := run (hingeU (lastRegion + 2^23) []); let pkt : ℕ := 0; let k : Pkt := fillReqPkt; let w : Machine.Units := (hingeU (lastRegion + 2^23) []); let l := k.lla / 131072; let e := hingeEntry s.u l; lands s pkt .fillReq k w ∧ pdOn s.u 2 = true ∧ s.u.hng.mounted = true ∧ badRegion s.u l = false ∧ hLost e = false ∧ hFresh e = true) ∧
    (let s : State := run (hingeU lastRegion [42]); let pkt : ℕ := 0; let k : Pkt := fillReqPkt; let w : Machine.Units := (hingeU lastRegion [42]); let l := k.lla / 131072; let e := hingeEntry s.u l; let p := placeOf s.u l (k.lla / 8 % 16384); let g := prnGroup s.u.v p; lands s pkt .fillReq k w ∧ pdOn s.u 2 = true ∧ s.u.hng.mounted = true ∧ badRegion s.u l = false ∧ hLost e = false ∧ hFresh e = false ∧ routeRefused s.u (epCore 1) (epGroup (g / 8)) = true) ∧
    (let s : State := run (hingeU lastRegion []); let pkt : ℕ := 0; let k : Pkt := fillReqPkt; let w : Machine.Units := (hingeU lastRegion []); let l := k.lla / 131072; let e := hingeEntry s.u l; let p := placeOf s.u l (k.lla / 8 % 16384); let g := prnGroup s.u.v p; lands s pkt .fillReq k w ∧ pdOn s.u 2 = true ∧ s.u.hng.mounted = true ∧ badRegion s.u l = false ∧ hLost e = false ∧ hFresh e = false ∧ routeRefused s.u (epCore 1) (epGroup (g / 8)) = false ∧ canTake s.u (poolId 0 (epCore 1) (epGroup (g / 8))) k.prio = true ∧ fwdRival s.u (epGroup (g / 8)) k = false) := by
  unfold lands
  exact ⟨by decide, by decide, by decide, by decide⟩

theorem witness_MediaReadBegins :
    (let s : State := run { u0 with net := [fwdPkt] }; let pkt : ℕ := 0; let k : Pkt := fwdPkt; let w : Machine.Units := { u0 with net := [fwdPkt] }; let g := k.dst - 64; let n := 9 * g + k.pos; let d := k.group % 8; let x := dieOf s.u n d; lands s pkt .fillFwd k w ∧ pdOn s.u (pdMedia g) = true ∧ g < 8 ∧ k.pos < 9 ∧ 2 ≤ k.cls ∧ bufAt s.u g k.group k.dla = none ∧ failedPos s.u k.group = [] ∧ takesDetour s.u g k = false ∧ (grp s.u g).phase ≠ k.pos ∧ x.st = .idle ∧ x.result = none ∧ x.queue = [] ∧ paused s.u n = false ∧ x.chip.echo = 0 ∧ x.chip.state = .idle ∧ k.dla < 2 ^ 31 ∧ k.dla < dieLines s.u n d) := by
  unfold lands
  decide

theorem witness_DestagedLineEntersTheStripeBuffer :
    (let s : State := run (bufU (destagePkt false)); let pkt : ℕ := 0; let k : Pkt := destagePkt false; let w : Machine.Units := bufU (destagePkt false); let b : SBuf := halfBuf; let g := k.dst - 64; lands s pkt .destage k w ∧ pdOn s.u (pdMedia g) = true ∧ (grp s.u g).reads = [] ∧ ((grp s.u g).bufs.find? (fun b => b.group == k.group && b.dla == k.dla && b.use == .destage (k.src - 32) && !b.formed && b.held.length < b.want) = some b) ∧ bufOf s.u g b.id = some b ∧ b.held.contains (k.lla % 8) = false ∧ b.held.length + 1 < b.want) ∧
    (let s : State := run (bufU (destagePkt true)); let pkt : ℕ := 0; let k : Pkt := destagePkt true; let w : Machine.Units := bufU (destagePkt true); let b : SBuf := halfBuf; let g := k.dst - 64; lands s pkt .destage k w ∧ pdOn s.u (pdMedia g) = true ∧ (grp s.u g).reads = [] ∧ ((grp s.u g).bufs.find? (fun b => b.group == k.group && b.dla == k.dla && b.use == .destage (k.src - 32) && !b.formed && b.held.length < b.want) = some b) ∧ bufOf s.u g b.id = some b ∧ b.held.contains (k.lla % 8) = false ∧ b.held.length + 1 < b.want) := by
  unfold lands
  exact ⟨by decide, by decide⟩

theorem witness_PlacementIsAnswered :
    (let s : State := run (askU (lastRegion + 2^23) (7 * 2^24)); let sl : ℕ := 0; let j : Destage := askJob; let l := j.stripe / 16384; let e := hingeEntry s.u l; let p := hPrn e; inService s.u sl = true ∧ pdOn s.u 2 = true ∧ s.u.hng.mounted = true ∧ s.u.fences = [] ∧ ((slice s.u sl).jobs.find? (fun j => j.phase == .asking) = some j) ∧ badRegion s.u l = false ∧ hLost e = false ∧ regionHeld s.u l = false ∧ p < nPhys s.u.v ∧ hFresh e = true ∧ pState (pipEntry s.u p) ≠ 3) ∧
    (let s : State := run (askU lastRegion (2 * 2^56)); let sl : ℕ := 0; let j : Destage := askJob; let l := j.stripe / 16384; let e := hingeEntry s.u l; let p := hPrn e; inService s.u sl = true ∧ pdOn s.u 2 = true ∧ s.u.hng.mounted = true ∧ s.u.fences = [] ∧ ((slice s.u sl).jobs.find? (fun j => j.phase == .asking) = some j) ∧ badRegion s.u l = false ∧ hLost e = false ∧ regionHeld s.u l = false ∧ p < nPhys s.u.v ∧ hFresh e = false ∧ moveOf s.u l = none ∧ pNewest (pipEntry s.u p) = s.u.drf.e % 32) := by
  exact ⟨by decide, by decide⟩

theorem witness_StripeWrittenReleases :
    (let s : State := run writtenU; let sl : ℕ := 0; let g : ℕ := 0; let b : SBuf := doneBuf; let j : Destage := doneJob []; let e : HdrEntry := { set := 0, hdr := hdr14 2, loaded := true }; inService s.u sl = true ∧ pdOn s.u 2 = true ∧ s.u.hng.mounted = true ∧ g < nGroups s.u.v ∧ ((grp s.u g).bufs.find? (fun b => b.use == .destage sl && b.formed && b.todo.isEmpty) = some b) ∧ ((slice s.u sl).jobs.find? (fun j => j.stripe == b.stripe) = some j) ∧ hdrEntry s.u sl j.set = some e ∧ wqRoom s.u sl [j.set * 16] = true) ∧
    (let u : Machine.Units := writtenU; let s : ℕ := 0; let j : Destage := doneJob []; let h : BitVec 512 := hdr14 2; let w : ℕ := 14; w < 15 ∧ (j.dirtied.find? (fun d => d.1 == w) = none) ∧ pinned u s j.set h w = false) ∧
    (let u : Machine.Units := writtenU; let s : ℕ := 0; let j : Destage := doneJob []; let h : BitVec 512 := hdr14 3; let w : ℕ := 14; w < 15 ∧ (j.dirtied.find? (fun d => d.1 == w) = none) ∧ pinned u s j.set h w = false) ∧
    (let u : Machine.Units := pinnedU; let s : ℕ := 0; let j : Destage := doneJob []; let h : BitVec 512 := hdr14 2; let w : ℕ := 14; w < 15 ∧ (j.dirtied.find? (fun d => d.1 == w) = none) ∧ pinned u s j.set h w = true) ∧
    (let j : Destage := doneJob [(14, 15)]; let w : ℕ := 14; let d : ℕ × ℕ := (14, 15); w < 15 ∧ (j.dirtied.find? (fun d => d.1 == w) = some d) ∧ d.2 < 16) := by
  exact ⟨by decide, by decide, by decide, by decide, by decide⟩

theorem witness_DestageBeginsInOrder :
    (let s : State := inMode .drain (dirtyU [(0, 0, 0)]); let sl : ℕ := 0; let u : Units := { s.u with out := [] }; let good := fun (t : Nat × Nat × List (Nat × Nat)) => placeable s.ctl u (stripeOf u t.1 t.2.1); let t : ℕ × ℕ × List (ℕ × ℕ) := (0, 0, [(14, 7)]); inService s.u sl = true ∧ pdOn s.u 2 = true ∧ s.u.hng.mounted = true ∧ s.ctl.mode = .drain ∧ firstFull u sl good = some t) ∧
    (let s : State := inMode .drain (dirtyU []); let sl : ℕ := 0; let u : Units := { s.u with out := [] }; let good := fun (t : Nat × Nat × List (Nat × Nat)) => placeable s.ctl u (stripeOf u t.1 t.2.1); let walk := (walkStripes u sl).filter good; let t : ℕ × ℕ × List (ℕ × ℕ) := (0, 0, [(14, 7)]); inService s.u sl = true ∧ pdOn s.u 2 = true ∧ s.u.hng.mounted = true ∧ s.ctl.mode = .drain ∧ firstFull u sl good = none ∧ walk.head? = some t) ∧
    (let s : State := run forcedU; let sl : ℕ := 0; let u : Units := { s.u with out := [] }; let good := fun (t : Nat × Nat × List (Nat × Nat)) => placeable s.ctl u (stripeOf u t.1 t.2.1); let t : ℕ × ℕ × List (ℕ × ℕ) := (0, 0, [(14, 7)]); let rest : List (ℕ × ℕ × List (ℕ × ℕ)) := []; inService s.u sl = true ∧ pdOn s.u 2 = true ∧ s.u.hng.mounted = true ∧ movesRun s.ctl s.u = true ∧ ((((slice u sl).forced.filterMap fun f => stripeAt u sl f.1 f.2.1).filter good) = t :: rest)) ∧
    (let s : State := run epochU; let sl : ℕ := 0; let u : Units := { s.u with out := [] }; let good := fun (t : Nat × Nat × List (Nat × Nat)) => placeable s.ctl u (stripeOf u t.1 t.2.1); let walk := (walkStripes u sl).filter good; let ep : ℕ := 0; let t : ℕ × ℕ × List (ℕ × ℕ) := (0, 0, [(14, 7)]); inService s.u sl = true ∧ pdOn s.u 2 = true ∧ s.u.hng.mounted = true ∧ movesRun s.ctl s.u = true ∧ ((((slice u sl).forced.filterMap fun f => stripeAt u sl f.1 f.2.1).filter good) = []) ∧ epochWork u sl = some ep ∧ walk.find? (stripeHasEp u sl ep) = some t) ∧
    (let u : Machine.Units := dirtyU []; let sl : ℕ := 0; let t : ℕ × ℕ × List (ℕ × ℕ) := (0, 0, [(14, 7)]); let e : HdrEntry := { set := 0, hdr := hdr14 2, loaded := true }; hdrEntry u sl t.1 = some e ∧ e.loaded = true) := by
  exact ⟨by decide, by decide, by decide, by decide, by decide⟩

theorem witness_OutputsChangeModeAndClustersGoDark :
    (let s : State := run u0; let r : ℕ := 0; let o : ℕ := 4; let waited : ℕ := 512; o < nOutputs s.u.v r ∧ 512 ≤ waited) ∧
    (let waited : ℕ := 511; waited < 512) ∧
    (let s : State := run { u0 with slotMode := [4] }; let r : ℕ := 0; let o : ℕ := 4; let quiet : ℕ := 8192; let worst : ℕ := 128; o < nOutputs s.u.v r ∧ 8192 ≤ quiet ∧ worst ≤ 128) ∧
    (let s : State := inMode .service { u0 with fences := [18] }; let d : ℕ := 18; 11 ≤ d ∧ d < 11 + nClusters s.u.v ∧ s.ctl.mode = .service ∧ pdOn s.u d = true ∧ fenced s.u d = true ∧ quietDomain s.u d = true ∧ (∀ i, i < 8 → (port s.u (8 * (d - 11) + i)).state = 0)) := by
  exact ⟨by decide, by decide, by decide, by decide⟩

theorem witness_FlushesTakeTheirEpoch :
    (let s : State := run { flushU 1 with ctxEven := ⟨[]⟩ }; let pkt : ℕ := 0; let k : Pkt := flushPkt; let v : Machine.Units := { flushU 1 with ctxEven := ⟨[]⟩ }; let r : Req := { sentReq 5 with dur := 1 }; lands s pkt .flush k v ∧ findReq s.u k.port k.ord = some r ∧ hCmd r.hdr = 5 ∧ check2 s.u k.epoch r = false) ∧
    (let s : State := run (flushU 0); let pkt : ℕ := 0; let k : Pkt := flushPkt; let v : Machine.Units := flushU 0; let r : Req := sentReq 5; lands s pkt .flush k v ∧ findReq s.u k.port k.ord = some r ∧ hCmd r.hdr = 5 ∧ check2 s.u k.epoch r = true ∧ r.dur = 0) ∧
    (let s : State := run (flushU 1); let pkt : ℕ := 0; let k : Pkt := flushPkt; let v : Machine.Units := flushU 1; let r : Req := { sentReq 5 with dur := 1 }; lands s pkt .flush k v ∧ findReq s.u k.port k.ord = some r ∧ hCmd r.hdr = 5 ∧ check2 s.u k.epoch r = true ∧ r.dur ≠ 0 ∧ s.u.stg.advanceWait = false) ∧
    (let s : State := run (liveU (flushU 1)); let pkt : ℕ := 0; let k : Pkt := flushPkt; let v : Machine.Units := liveU (flushU 1); let r : Req := { sentReq 5 with dur := 1 }; lands s pkt .flush k v ∧ findReq s.u k.port k.ord = some r ∧ hCmd r.hdr = 5 ∧ check2 s.u k.epoch r = true ∧ r.dur ≠ 0 ∧ s.u.stg.advanceWait = false) := by
  unfold lands
  exact ⟨by decide, by decide, by decide, by decide⟩

theorem witness_EpochsAdvanceAndFlushesEnd :
    (let s : State := run { u0 with stg := { e := 15, advanceWait := true } }; s.u.stg.advanceWait = true ∧ epochLive s.u ((s.u.stg.e + 1) % 16) = false) ∧
    (let s : State := run { sliceU (hdr14 0) with stg := { rowsLog2 := 13, unacked := [0, 1] } }; let sl : ℕ := 0; inService s.u sl = true) ∧
    (let s : State := run { u0 with stg := { e := 1, waiters := [sweptWait] } }; let w : FlushWait := sweptWait; (s.u.stg.waiters.find? (fun x => x.id == w.id) = some w) ∧ w.swept = true ∧ w.desc = none ∧ w.all = false ∧ durableBelow s.u w.journal = true ∧ (∀ i ∈ s.u.hng.active, (tabGet s.u.hng.slots i).exposed = false) ∧ durableBelow s.u s.u.hng.expSeq = true ∧ (∀ x ∈ underWay s.u, dOp x.2 ≠ 5 ∧ dOp x.2 ≠ 8)) := by
  exact ⟨by decide, by decide, by decide⟩

theorem witness_EvacuationRunsItsSteps :
    (let s : State := run (evacU 1); let r : ℕ := 63; let d : Desc := testDesc; let k := s.u.stg.evacCh; s.u.stg.evacDesc = some (r, d.idx) ∧ findDesc s.u r d.idx = some d ∧ s.u.stg.evacHold = true ∧ s.u.stg.evac = 1 ∧ (slice s.u k).dirty = 0 ∧ slicePosIdle s.u k k = true ∧ olderAt s.u k = false ∧ d.own.headD 0 ≠ 3) ∧
    (let s : State := run (evacU 3); let r : ℕ := 63; let d : Desc := testDesc; let k := s.u.stg.evacCh; let x : Machine.Units := (emptyCleanAt { mode := .run } { evacU 3 with out := [] } 14 15).2; s.u.stg.evacDesc = some (r, d.idx) ∧ findDesc s.u r d.idx = some d ∧ s.u.stg.evacHold = true ∧ s.u.stg.evac = 3 ∧ slicePosIdle s.u (k ^^^ 1) k = true ∧ olderAt s.u k = false ∧ dirtyAt s.u (k ^^^ 1) k = 0 ∧ emptyCleanAt s.ctl { s.u with out := [] } (k ^^^ 1) k = (true, x) ∧ x.stg.evacDesc = some (r, d.idx) ∧ findDesc x r d.idx = some d) := by
  exact ⟨by decide, by decide⟩

theorem witness_DoorbellsMoveTheRings :
    (let s : State := run (withRing { state := 3 }); let r : ℕ := 63; let v : Word := 63; let x := ring s.u r; let n := v.toNat % 65536; reaches s.ctl s.u .RNG_r_SQ_TAIL r ∧ n < sqSize s.u r ∧ (x.state = 1 ∨ x.state = 3) ∧ inFetched s.u r n = false) ∧
    (let s : State := run (withRing { state := 1 }); let r : ℕ := 63; let v : Word := 64; let x := ring s.u r; let n := v.toNat % 65536; reaches s.ctl s.u .RNG_r_SQ_TAIL r ∧ (sqSize s.u r ≤ n ∨ x.state = 0 ∨ x.state = 2 ∨ (n ≠ x.tail ∧ inFetched s.u r n = true))) ∧
    (let s : State := run (withRing { state := 1, fetch := 5, fetching := [5], tail := 6 }); let r : ℕ := 63; let v : Word := 5; let x := ring s.u r; let n := v.toNat % 65536; reaches s.ctl s.u .RNG_r_SQ_TAIL r ∧ (sqSize s.u r ≤ n ∨ x.state = 0 ∨ x.state = 2 ∨ (n ≠ x.tail ∧ inFetched s.u r n = true))) ∧
    (let s : State := run (withRing { state := 1, cqUsed := 3, head := 61 }); let r : ℕ := 63; let v : Word := 0; let x := ring s.u r; let n := v.toNat % 65536; let q := cqSize s.u r; let gone := (n + q - x.head) % q; reaches s.ctl s.u .RNG_r_CQ_HEAD r ∧ n < q ∧ gone ≤ x.cqUsed ∧ x.state ≠ 2) ∧
    (let s : State := run (withRing { state := 1, cqUsed := 3, head := 61 }); let r : ℕ := 63; let v : Word := 1; let x := ring s.u r; let n := v.toNat % 65536; let q := cqSize s.u r; let gone := (n + q - x.head) % q; reaches s.ctl s.u .RNG_r_CQ_HEAD r ∧ (q ≤ n ∨ x.cqUsed < gone ∨ x.state = 2)) ∧
    (let s : State := run { ringCfg with rings := { ntUsed := 2, ntHead := 62 } }; let v : Word := 0; let n := v.toNat % 65536; let away := (n + ntSize s.u - s.u.rings.ntHead) % ntSize s.u; reaches s.ctl s.u .RNG_NT_HEAD 0 ∧ n < ntSize s.u ∧ away ≤ s.u.rings.ntUsed) ∧
    (let s : State := run { ringCfg with rings := { ntUsed := 2, ntHead := 62 } }; let v : Word := 1; let n := v.toNat % 65536; let away := (n + ntSize s.u - s.u.rings.ntHead) % ntSize s.u; reaches s.ctl s.u .RNG_NT_HEAD 0 ∧ (ntSize s.u ≤ n ∨ s.u.rings.ntUsed < away)) := by
  unfold reaches
  exact ⟨by decide, by decide, by decide, by decide, by decide, by decide, by decide⟩

theorem witness_DescriptorsAreFetchedInOrder :
    (let s : State := run (withRing { state := 1, fetch := 63, tail := 0 }); let r : ℕ := 63; let i : ℕ := 63; let x := ring s.u r; pdOn s.u 4 = true ∧ r < 64 ∧ fenced s.u 4 = false ∧ fetchMode s.ctl = true ∧ s.u.pwr.hushing = false ∧ x.state = 1 ∧ fetchNext s.u r = i ∧ i ≠ x.tail ∧ outstanding x < 32 ∧ x.cqUsed + outstanding x < cqSize s.u r ∧ s.u.rings.reads.length < 64) ∧
    (let s : State := run (tailFetch 0); let r : ℕ := 63; let i : ℕ := 5; let bits : BitVec 512 := 1; let x := ring s.u r; pdOn s.u 4 = true ∧ r < 64 ∧ (s.u.rings.reads.find? (fun k => k.1 == r && k.2.1 == i && (k.2.2 == 0 || k.2.2 == 2)) = some (r, i, 0)) ∧ x.fetching = [i] ∧ x.arrived = [] ∧ x.fetchErr = false ∧ x.runDead = false ∧ dChain { bits := bits } = false) ∧
    (let s : State := run (tailFetch 0); let r : ℕ := 63; let i : ℕ := 5; let x := ring s.u r; pdOn s.u 4 = true ∧ r < 64 ∧ (s.u.rings.reads.find? (fun k => k.1 == r && k.2.1 == i && (k.2.2 == 0 || k.2.2 == 2)) = some (r, i, 0)) ∧ x.fetching = [i] ∧ x.arrived = [] ∧ x.fetchErr = false ∧ x.state = 1 ∧ x.runLen = 0) := by
  exact ⟨by decide, by decide, by decide⟩

theorem witness_EntriesRaiseMessages :
    (let s : State := run (writeOut false); let r : ℕ := 63; let w : RingWrite := { ring := 63 }; let rest : List RingWrite := []; s.u.rings.writes = w :: rest ∧ w.ring = r ∧ rest.length < 64 ∧ r < 64 ∧ pdOn s.u 4 = true ∧ w.irq = false ∧ irqCount s.u r = 0) ∧
    (let s : State := run (writeOut true); let r : ℕ := 63; let w : RingWrite := { ring := 63, irq := true }; let rest : List RingWrite := []; s.u.rings.writes = w :: rest ∧ w.ring = r ∧ rest.length < 64 ∧ r < 64 ∧ pdOn s.u 4 = true ∧ w.irq = true ∧ unmasked s.u (irqVector s.u r)) ∧
    (let s : State := run (withBank (withRing { state := 1, pend := 1 }) [(F.RNG_r_IRQ_usec, 63, 1)]); let r : ℕ := 63; r < 64 ∧ pdOn s.u 4 = true ∧ 0 < (ring s.u r).pend ∧ 0 < irqUsec s.u r ∧ (ring s.u r).due ≤ usec s.u ∧ unmasked s.u (irqVector s.u r)) ∧
    (let s : State := run { u0 with rings := { msgs := [7, 8] } }; let m : Word := 7; let rest : List Word := [8]; s.u.rings.msgs = m :: rest ∧ pdOn s.u 4 = true) ∧
    (let s : State := run { u0 with rings := { heldMsgs := [(63, 63)] } }; let k : ℕ := 1; let value : Word := 0; let vector : ℕ := 63; let source : ℕ := 63; reaches s.ctl s.u .RNG_IRQ_MASK_k k ∧ s.u.rings.heldMsgs = [(vector, source)] ∧ vector / 32 = k ∧ nbits value.toNat (vector % 32) 1 = 0) ∧
    (let s : State := run { u0 with rings := { heldMsgs := [(63, 63)] } }; let k : ℕ := 1; let value : Word := 2147483648; let vector : ℕ := 63; let source : ℕ := 63; reaches s.ctl s.u .RNG_IRQ_MASK_k k ∧ s.u.rings.heldMsgs = [(vector, source)] ∧ vector / 32 = k ∧ nbits value.toNat (vector % 32) 1 = 1) := by
  unfold reaches unmasked
  exact ⟨by decide, by decide, by decide, by decide, by decide, by decide⟩

theorem witness_RingResetsEmptyARing :
    (let s : State := run (ringU ringCfg [{ idx := 5 }]); let r : ℕ := 63; let x := ring s.u r; let d : Desc := { idx := 5 }; reaches s.ctl s.u .RNG_r_CTRL r ∧ (x.state = 1 ∨ x.state = 3) ∧ x.descs = [d] ∧ d.begun = false ∧ dChain d = false) ∧
    (let s : State := run (withBank (withRing { state := 2, cqTail := 4 }) [(F.RNG_r_CFG_enable, 63, 1)]); let r : ℕ := 63; let x := ring s.u r; r < 64 ∧ pdOn s.u 4 = true ∧ x.state = 2 ∧ x.descs = [] ∧ (∀ w ∈ s.u.rings.writes, w.ring ≠ r)) ∧
    (let s : State := run { u0 with rings := { ntTail := 4, ntFlip := true, ntUsed := 3 } }; reaches s.ctl s.u .RNG_NT_CTRL 0) := by
  unfold reaches
  exact ⟨by decide, by decide, by decide⟩

theorem witness_WritesFollowTheAccessCodes :
    (let s : State := run u0; let r : Reg := .GLB_SCRATCH_k; let i : ℕ := 3; let addr : ℕ := regAddr .GLB_SCRATCH_k 3 0; ordinary r = true ∧ reaches s.ctl s.u r i ∧ regPlaceOf addr = .reg r i 0 false) ∧
    (let s : State := run (putReg u0 .PORT_n_ERR 63 0 0x3FF); let r : Reg := .PORT_n_ERR; let i : ℕ := 63; let addr : ℕ := regAddr .PORT_n_ERR 63 0; ordinary r = true ∧ reaches s.ctl s.u r i ∧ regPlaceOf addr = .reg r i 0 false) ∧
    (let s : State := run u0; let r : Reg := .GLB_SCRATCH_k; let i : ℕ := 3; let addr : ℕ := 0x1000000 + regAddr .GLB_SCRATCH_k 3 0 * 32 + 124; let k : ℕ := 31; ordinary r = true ∧ reaches s.ctl s.u r i ∧ regPlaceOf addr = .bit r i 0 k ∧ 0x1000000 ≤ addr ∧ addr < 0x1400000 ∧ k < 32 ∧ r.info.rws = 0 ∧ (r.info.rw).testBit k = true ∧ r.info.w1c &&& (r.info.rw ||| r.info.rwb) = 0) := by
  unfold reaches
  exact ⟨by decide, by decide, by decide +kernel⟩

theorem witness_AccessesAreAnswered :
    (let s : State := run u0; let addr : ℕ := 0x3FFFFFC; portOpen s.ctl s.u ∧ regPlaceOf addr = .none false ∧ getF s.u F.GLB_UNMAPPED_valid = 0) ∧
    (let s : State := run u0; portOpen s.ctl s.u ∧ pdOn s.u 5 = true) ∧
    (let s : State := run u0; let addr : ℕ := 0xA0FFFC; portOpen s.ctl s.u ∧ pdOn s.u 5 = true ∧ (inUserWindow addr = false ∨ getF s.u F.TELE_CFG_user_read = 0)) ∧
    (let s : State := run (withF u0 [(F.TELE_CFG_user_read, 0, 1)]); let addr : ℕ := 0xA00000; portOpen s.ctl s.u ∧ pdOn s.u 5 = true ∧ inUserWindow addr = true ∧ getF s.u F.TELE_CFG_user_read = 1) ∧
    (let s : State := run { u0 with tele := { counters := ⟨[(1471, 2^32 + 5)]⟩ } }; let n : ℕ := 1471; portOpen s.ctl s.u ∧ pdOn s.u 5 = true ∧ n < 1472) := by
  unfold portOpen
  exact ⟨by decide, by decide, by decide, by decide, by decide⟩

theorem witness_CommandRegistersAct :
    (let s : State := run (setPort u0 63 { state := 2, reqs := [{ hdr := hdrWord 1 7 1 0 0 0, ord := 8, phase := .sent }] }); let p : ℕ := 63; reaches s.ctl s.u .PORT_n_CTRL p ∧ (port s.u p).state = 2 ∧ (port s.u p).ingress = .idle ∧ clusterStill s.u (p / 8) ∧ (port s.u p).reqs ≠ []) ∧
    (let s : State := run (withBank (setPort u0 63 { state := 2, next := 65535 }) [(F.PORT_n_CFG_enable, 63, 1)]); let p : ℕ := 63; reaches s.ctl s.u .PORT_n_CTRL p ∧ (port s.u p).state = 2 ∧ (port s.u p).ingress = .idle ∧ clusterStill s.u (p / 8) ∧ (port s.u p).reqs = [] ∧ inF s.u F.PORT_n_CFG_enable p = 1 ∧ s.ctl.mode = .run) ∧
    (let s : State := run { withF u0 [(F.CTX_IDX_handle, 0, 1048575)] with ctxEven := ⟨[(1048575, openRec)]⟩, flushSeq := ⟨[(1048575, 65535)]⟩ }; reaches s.ctl s.u .CTX_CMD 0) ∧
    (let s : State := run (withF u0 [(F.HNG_IDX_index, 0, 4194303)]); reaches s.ctl s.u .HNG_CMD 0) ∧
    (let s : State := run (withF u0 [(F.HNG_IDX_index, 0, 4194304), (F.HNG_IDX_table, 0, 1)]); reaches s.ctl s.u .HNG_CMD 0) := by
  unfold clusterStill reaches
  exact ⟨by decide, by decide, by decide, by decide, by decide⟩

theorem witness_ArbiterAndSchedulerSettings :
    (let s : State := run (withF u0 [(F.MNT_IDX_media, 0, 1), (F.MNT_IDX_channel, 0, 71)]); let m : Bool := true; let ch : ℕ := 71; arbSelected s.u = some (m, ch) ∧ reaches s.ctl s.u .MNT_RANK 0) ∧
    (let s : State := run (withF u0 [(F.MNT_IDX_media, 0, 1), (F.MNT_IDX_channel, 0, 71)]); let v : Word := 16; let m : Bool := true; let ch : ℕ := 71; arbSelected s.u = some (m, ch) ∧ reaches s.ctl s.u .MNT_BYE 0 ∧ v.toNat % 16 = 0) ∧
    (let s : State := run (withF u0 [(F.MNT_IDX_channel, 0, 15)]); let v : Word := 1; let m : Bool := false; let ch : ℕ := 15; arbSelected s.u = some (m, ch) ∧ reaches s.ctl s.u .MNT_BYE 0 ∧ v.toNat % 16 ≠ 0) ∧
    (let s : State := run u0; let v : Word := 60 + 256; let ch : ℕ := 15; let therm : Bool := true; let r := if therm then Reg.DDR5_n_THERM else Reg.DDR5_n_SCHED; let ok := if therm then thermOk v.toNat else schedOk v.toNat; reaches s.ctl s.u r ch ∧ ok = true) ∧
    (let s : State := run u0; let v : Word := 59 + 256; let ch : ℕ := 15; let therm : Bool := true; let r := if therm then Reg.DDR5_n_THERM else Reg.DDR5_n_SCHED; let ok := if therm then thermOk v.toNat else schedOk v.toNat; reaches s.ctl s.u r ch ∧ ok = false) ∧
    (let s : State := run u0; let v : Word := 1 + 256 + 2^20; let ch : ℕ := 15; let therm : Bool := false; let r := if therm then Reg.DDR5_n_THERM else Reg.DDR5_n_SCHED; let ok := if therm then thermOk v.toNat else schedOk v.toNat; reaches s.ctl s.u r ch ∧ ok = true) ∧
    (let s : State := run u0; let v : Word := 1 + 2^20; let ch : ℕ := 15; let therm : Bool := false; let r := if therm then Reg.DDR5_n_THERM else Reg.DDR5_n_SCHED; let ok := if therm then thermOk v.toNat else schedOk v.toNat; reaches s.ctl s.u r ch ∧ ok = false) := by
  unfold reaches
  exact ⟨by decide, by decide, by decide, by decide, by decide, by decide, by decide⟩

theorem witness_GlobalControlsAct :
    (let s : State := run u0; reaches s.ctl s.u .GLB_DEADBOLT 0) ∧
    (let s : State := run u0; reaches s.ctl s.u .GLB_LATCH_CTRL 0) ∧
    (let s : State := run u0; let i : Instr := .unitResetTele; let d : ℕ := 5; reaches s.ctl s.u .GLB_UNIT_RESET 0 ∧ (s.ctl.mode = .run ∨ s.ctl.mode = .service) ∧ s.u.pwr.unitResets = [] ∧ (i, d) ∈ [(Instr.unitResetTele, 5), (.unitResetRings, 4)] ∧ (d = 4 ∨ s.u.audit = none)) ∧
    (let s : State := run u0; let i : Instr := .unitResetRings; let d : ℕ := 4; reaches s.ctl s.u .GLB_UNIT_RESET 0 ∧ (s.ctl.mode = .run ∨ s.ctl.mode = .service) ∧ s.u.pwr.unitResets = [] ∧ (i, d) ∈ [(Instr.unitResetTele, 5), (.unitResetRings, 4)] ∧ (d = 4 ∨ s.u.audit = none)) ∧
    (let s : State := run { u0 with rings := { reads := [(63, 5, 0)] } }; let i : Instr := .unitResetRings; let d : ℕ := 4; reaches s.ctl s.u .GLB_UNIT_RESET 0 ∧ (s.ctl.mode = .run ∨ s.ctl.mode = .service) ∧ s.u.pwr.unitResets = [] ∧ (i, d) ∈ [(Instr.unitResetTele, 5), (.unitResetRings, 4)] ∧ (d = 4 ∨ s.u.audit = none)) ∧
    (let s : State := inMode .drain u0; let i : Instr := .unitResetTele; reaches s.ctl s.u .GLB_UNIT_RESET 0 ∧ ((s.ctl.mode ≠ .run ∧ s.ctl.mode ≠ .service) ∨ s.u.pwr.unitResets ≠ []) ∧ (i = .unitResetTele ∨ i = .unitResetRings)) ∧
    (let s : State := run { u0 with pwr := { unitResets := [(5, 0)] } }; let i : Instr := .unitResetRings; reaches s.ctl s.u .GLB_UNIT_RESET 0 ∧ ((s.ctl.mode ≠ .run ∧ s.ctl.mode ≠ .service) ∨ s.u.pwr.unitResets ≠ []) ∧ (i = .unitResetTele ∨ i = .unitResetRings)) := by
  unfold reaches
  exact ⟨by decide, by decide, by decide, by decide, by decide, by decide, by decide⟩

theorem witness_SelfTestsReport :
    (let s : State := run (serviceU (desc 0x21 [(8, 1), (9, 15)])); let r : ℕ := 63; let d : Desc := desc 0x21 [(8, 1), (9, 15)]; handed s.ctl s.u r d ∧ isTest 1 d = true ∧ badTest s.u d = false ∧ s.ctl.mode = .run ∧ s.u.stg.evac = 0 ∧ testHeld (putDesc s.u r { d with begun := true }) r { d with begun := true } = false ∧ ddrReady s.u d = true) ∧
    (let s : State := inMode .service (serviceU (going (desc 0x21 [(8, 1), (9, 15)]))); let r : ℕ := 63; let d : Desc := going (desc 0x21 [(8, 1), (9, 15)]); let ch := testCh d; started s.u r d ∧ s.u.stg.evacDesc ≠ some (r, d.idx) ∧ (slice s.u ch).jobs = [] ∧ isTest 1 d = true) ∧
    (let s : State := inMode .service (serviceU (going (desc 0x21 [(8, 3), (9, 15)]))); let r : ℕ := 63; let d : Desc := going (desc 0x21 [(8, 3), (9, 15)]); let ch := testCh d; started s.u r d ∧ s.u.stg.evacDesc ≠ some (r, d.idx) ∧ (slice s.u ch).jobs = [] ∧ isTest 3 d = true) ∧
    (let s : State := run (readTestU { going (desc 0x21 [(8, 2), (9, 15)]) with own := [0, 3, 0] }); let r : ℕ := 63; let d : Desc := { going (desc 0x21 [(8, 2), (9, 15)]) with own := [0, 3, 0] }; let x : TestResult := { r0 := 2^23+40 }; let ch := testCh d; started s.u r d ∧ isTest 2 d = true ∧ badTest s.u d = false ∧ (tabGet s.u.arbs ch).holder = 5 ∧ x.pass = true ∧ ownAt d 1 < 31) ∧
    (let s : State := run (readTestU { going (desc 0x21 [(8, 2), (9, 15)]) with own := [0, 3, 0] }); let r : ℕ := 63; let d : Desc := { going (desc 0x21 [(8, 2), (9, 15)]) with own := [0, 3, 0] }; let x : TestResult := { pass := false }; let ch := testCh d; started s.u r d ∧ isTest 2 d = true ∧ badTest s.u d = false ∧ (tabGet s.u.arbs ch).holder = 5 ∧ (x.pass = false ∨ 31 ≤ ownAt d 1) ∧ ownAt d 0 = 0) ∧
    (let s : State := run (readTestU { going (desc 0x21 [(8, 2), (9, 15)]) with own := [1, 31, 5] }); let r : ℕ := 63; let d : Desc := { going (desc 0x21 [(8, 2), (9, 15)]) with own := [1, 31, 5] }; let x : TestResult := { r0 := 2^23+40 }; let ch := testCh d; started s.u r d ∧ isTest 2 d = true ∧ badTest s.u d = false ∧ (tabGet s.u.arbs ch).holder = 5 ∧ (x.pass = false ∨ 31 ≤ ownAt d 1) ∧ ownAt d 0 ≠ 0) ∧
    (let s : State := run (serviceU (going (desc 0x21 [(8, 4), (9, 15)]))); let r : ℕ := 63; let d : Desc := going (desc 0x21 [(8, 4), (9, 15)]); started s.u r d ∧ isTest 4 d = true) ∧
    (let s : State := run (serviceU (going (desc 0x21 [(8, 0x10), (9, 15)]))); let r : ℕ := 63; let d : Desc := going (desc 0x21 [(8, 0x10), (9, 15)]); started s.u r d ∧ isTest 0x10 d = true) ∧
    (let s : State := run (serviceU (going (desc 0x21 [(8, 0x11), (9, 15)]))); let r : ℕ := 63; let d : Desc := going (desc 0x21 [(8, 0x11), (9, 15)]); started s.u r d ∧ isTest 0x11 d = true) ∧
    (let s : State := run (serviceU (going (desc 0x21 [(8, 0x20), (9, 15)]))); let r : ℕ := 63; let d : Desc := going (desc 0x21 [(8, 0x20), (9, 15)]); started s.u r d ∧ isTest 0x20 d = true) := by
  unfold handed started
  exact ⟨by decide, by decide, by decide, by decide, by decide, by decide, by decide, by decide, by decide, by decide⟩

theorem witness_RepairsAndAuditsRun :
    (let s : State := inMode .service (serviceU (going (desc 0x22 [(9, 15)]))); let r : ℕ := 63; let d : Desc := going (desc 0x22 [(9, 15)]); let x : TestResult := {}; let ch := testCh d; started s.u r d ∧ isRetrainDdr d = true ∧ badRetrain s.u d = false ∧ (retrainMiss s.u ch x).pass = true ∧ s.u.stg.evacDesc ≠ some (r, d.idx)) ∧
    (let s : State := inMode .service (serviceU (going (desc 0x22 [(8, 1), (9, 71)]))); let r : ℕ := 63; let d : Desc := going (desc 0x22 [(8, 1), (9, 71)]); let x : TestResult := {}; let ch := testCh d; started s.u r d ∧ isRetrainCex d = true ∧ s.ctl.mode = .service ∧ retrainFails { s.u with out := [] } ch x = []) ∧
    (let s : State := inMode .service (serviceU (desc 0x26 [(9, 15)])); let r : ℕ := 63; let d : Desc := desc 0x26 [(9, 15)]; let ch := testCh d; let line := patchLine s.u d; let table := (subOf s.u ch (lineSub line)).patches; handed s.ctl s.u r d ∧ s.ctl.mode = .service ∧ isPatchDdr d = true ∧ badPatch s.u d = false ∧ ddrReady s.u d = true ∧ ((∃ p ∈ table, p.line = line) ∨ table.length < 8)) ∧
    (let s : State := inMode .service (fullPatches (desc 0x26 [(9, 15)])); let r : ℕ := 63; let d : Desc := desc 0x26 [(9, 15)]; let ch := testCh d; let line := patchLine s.u d; let table := (subOf s.u ch (lineSub line)).patches; handed s.ctl s.u r d ∧ s.ctl.mode = .service ∧ isPatchDdr d = true ∧ badPatch s.u d = false ∧ ddrReady s.u d = true ∧ (∀ p ∈ table, p.line ≠ line) ∧ 8 ≤ table.length) ∧
    (let s : State := inMode .service (serviceU { going (desc 0x26 [(8, 1), (9, 71)]) with prog := [0] }); let r : ℕ := 63; let d : Desc := { going (desc 0x26 [(8, 1), (9, 71)]) with prog := [0] }; let k : ℕ := 0; let l : List ℕ := []; started s.u r d ∧ isPatchMedia d = true ∧ d.prog = k :: l) ∧
    (let s : State := inMode .service (serviceU { going (desc 0x26 [(8, 1), (9, 71)]) with prog := [8] }); let r : ℕ := 63; let d : Desc := { going (desc 0x26 [(8, 1), (9, 71)]) with prog := [8] }; let k : ℕ := 8; let l : List ℕ := []; started s.u r d ∧ isPatchMedia d = true ∧ d.prog = k :: l) ∧
    (let s : State := inMode .service (serviceU { going (desc 0x26 [(8, 1), (9, 71)]) with prog := [1] }); let r : ℕ := 63; let d : Desc := { going (desc 0x26 [(8, 1), (9, 71)]) with prog := [1] }; let k : ℕ := 1; let l : List ℕ := []; started s.u r d ∧ isPatchMedia d = true ∧ d.prog = k :: l) ∧
    (let s : State := inMode .service (serviceU (desc 0x26 [(9, 15), (20, 1)])); let r : ℕ := 63; let d : Desc := desc 0x26 [(9, 15), (20, 1)]; let x : TestResult := { code := 1 }; let ch := testCh d; handed s.ctl s.u r d ∧ s.ctl.mode = .service ∧ isPpr d = true ∧ badPatch s.u d = false ∧ (ddrReady s.u d = false ∨ x.code = 1 ∨ (∃ n ∈ rowSets s.u d, ∃ w, w < 15 ∧ wayDirty (effHeader s.u ch n) w = true))) ∧
    (let s : State := inMode .service (serviceU (desc 0x26 [(9, 15), (20, 1)])); let r : ℕ := 63; let d : Desc := desc 0x26 [(9, 15), (20, 1)]; let x : TestResult := {}; let ch := testCh d; handed s.ctl s.u r d ∧ s.ctl.mode = .service ∧ isPpr d = true ∧ badPatch s.u d = false ∧ ddrReady s.u d = true ∧ x.code ≠ 1 ∧ (∀ n ∈ rowSets s.u d, ∀ w, w < 15 → wayDirty (effHeader s.u ch n) w = false) ∧ x.pass = true) ∧
    (let s : State := inMode .service (descU (desc 0x31 [])); let r : ℕ := 63; let d : Desc := desc 0x31 []; handed s.ctl s.u r d ∧ s.ctl.mode = .service ∧ dOp d = 0x31 ∧ s.u.audit = none) ∧
    (let s : State := inMode .service { descU (desc 0x31 []) with audit := some { ring := 2, idx := 3 } }; let r : ℕ := 63; let d : Desc := desc 0x31 []; handed s.ctl s.u r d ∧ s.ctl.mode = .service ∧ dOp d = 0x31 ∧ s.u.audit.isSome = true) := by
  unfold handed started
  refine ⟨by decide, by decide, by decide, by decide, by decide, by decide, by decide, by decide, ?_⟩
  exact ⟨by decide, by decide, by decide⟩

theorem witness_ContextRecordsChangeAtTheLatch :
    (let s : State := run (ctxU (desc 0x02 [(8, 5), (16, 0)]) 0); let r : ℕ := 63; let d : Desc := desc 0x02 [(8, 5), (16, 0)]; let h := dHandle d; let x := dImage d; handed s.ctl s.u r d ∧ (s.ctl.mode = .run ∨ s.ctl.mode = .service) ∧ dOp d = 2 ∧ badHandle s.u d = false ∧ s.u.badCtx.contains (h / 2) = false ∧ ctxState s.u h = 0 ∧ nbits x 2 2 ≠ 3 ∧ windowLegal s.u.v x 17 = true ∧ windowLegal s.u.v x 63 = true) ∧
    (let s : State := run (ctxU (desc 0x02 [(8, 5), (16, 0)]) openRec); let r : ℕ := 63; let d : Desc := desc 0x02 [(8, 5), (16, 0)]; let h := dHandle d; let x := dImage d; handed s.ctl s.u r d ∧ (s.ctl.mode = .run ∨ s.ctl.mode = .service) ∧ dOp d = 2 ∧ badHandle s.u d = false ∧ s.u.badCtx.contains (h / 2) = false ∧ (ctxState s.u h ≠ 0 ∨ nbits x 2 2 = 3 ∨ windowLegal s.u.v x 17 = false ∨ windowLegal s.u.v x 63 = false)) ∧
    (let s : State := run (ctxU (desc 0x04 [(8, 5), (12, 1), (16, 2^2)]) openRec); let r : ℕ := 63; let d : Desc := desc 0x04 [(8, 5), (12, 1), (16, 2^2)]; let h := dHandle d; let x := dImage d; let m := dField d 12 6; handed s.ctl s.u r d ∧ (s.ctl.mode = .run ∨ s.ctl.mode = .service) ∧ dOp d = 4 ∧ badHandle s.u d = false ∧ ctxState s.u h = 1 ∧ m ≠ 0 ∧ (nbits m 0 1 = 1 → nbits x 2 2 ≠ 3) ∧ (nbits m 3 1 = 1 → windowLegal s.u.v x 17 = true) ∧ (nbits m 4 1 = 1 → windowLegal s.u.v x 63 = true)) ∧
    (let s : State := run (ctxU (desc 0x03 [(8, 5)]) openRec); let r : ℕ := 63; let d : Desc := desc 0x03 [(8, 5)]; let h := dHandle d; handed s.ctl s.u r d ∧ (s.ctl.mode = .run ∨ s.ctl.mode = .service) ∧ dOp d = 3 ∧ badHandle s.u d = false ∧ ctxState s.u h = 1) ∧
    (let s : State := run (ctxU (desc 0x03 [(8, 5)]) 0); let r : ℕ := 63; let d : Desc := desc 0x03 [(8, 5)]; let h := dHandle d; handed s.ctl s.u r d ∧ (s.ctl.mode = .run ∨ s.ctl.mode = .service) ∧ dOp d = 3 ∧ badHandle s.u d = false ∧ ctxState s.u h ≠ 1) ∧
    (let s : State := run (ctxU (desc 0x12 [(8, 5), (12, 1), (14, 7)]) openRec); let r : ℕ := 63; let d : Desc := desc 0x12 [(8, 5), (12, 1), (14, 7)]; let h := dHandle d; handed s.ctl s.u r d ∧ (s.ctl.mode = .run ∨ s.ctl.mode = .service) ∧ dOp d = 0x12 ∧ badBind s.u d = false ∧ bindCount d ≠ 0 ∧ (∀ k, k < bindCount d → ctxState s.u (h + k) = 1)) ∧
    (let s : State := run (ctxU (desc 0x03 [(8, 5)]) 2); let k : ℕ := 5; pdOn s.u 2 = true ∧ k < nCtx s.u.v ∧ cBits (ctxRec s.u s.u.regs.epoch k) 0 2 = 2 ∧ owcMap s.u k = 0) := by
  unfold handed
  exact ⟨by decide, by decide, by decide, by decide, by decide, by decide, by decide⟩

theorem witness_DescriptorsOfTheCacheComplete :
    (let s : State := run (descU (desc 0x01 [])); let r : ℕ := 63; let d : Desc := desc 0x01 []; handed s.ctl s.u r d ∧ s.ctl.mode = .run ∧ dOp d = 1) ∧
    (let s : State := run (descU (desc 0x20 [(8, 1), (9, 71)])); let r : ℕ := 63; let d : Desc := desc 0x20 [(8, 1), (9, 71)]; handed s.ctl s.u r d ∧ s.ctl.mode = .run ∧ dOp d = 0x20 ∧ badChannel s.u d = false) ∧
    (let s : State := run (ctxU (desc 0x05 [(8, 5)]) 0); let r : ℕ := 63; let d : Desc := desc 0x05 [(8, 5)]; let x := ctxRec s.u s.u.regs.epoch (dHandle d); handed s.ctl s.u r d ∧ s.ctl.mode = .run ∧ dOp d = 5 ∧ badHandle s.u d = false ∧ cBits x 0 2 ≠ 1) ∧
    (let s : State := run (ctxU (desc 0x05 [(8, 5)]) openRec); let r : ℕ := 63; let d : Desc := desc 0x05 [(8, 5)]; let x := ctxRec s.u s.u.regs.epoch (dHandle d); handed s.ctl s.u r d ∧ s.ctl.mode = .run ∧ dOp d = 5 ∧ badHandle s.u d = false ∧ cBits x 0 2 = 1 ∧ cBits x 4 1 = 0) ∧
    (let s : State := run (ctxU (desc 0x05 [(8, 5)]) (openRec ||| 16)); let r : ℕ := 63; let d : Desc := desc 0x05 [(8, 5)]; let x := ctxRec s.u s.u.regs.epoch (dHandle d); handed s.ctl s.u r d ∧ s.ctl.mode = .run ∧ dOp d = 5 ∧ badHandle s.u d = false ∧ cBits x 0 2 = 1 ∧ cBits x 4 1 ≠ 0) ∧
    (let s : State := run (descU (desc 0x08 [])); let r : ℕ := 63; let d : Desc := desc 0x08 []; handed s.ctl s.u r d ∧ s.ctl.mode = .run ∧ dOp d = 8) ∧
    (let s : State := run (ctxU (desc 0x07 [(8, 5), (16, 7), (24, 2)]) 0); let r : ℕ := 63; let d : Desc := desc 0x07 [(8, 5), (16, 7), (24, 2)]; let x := ctxRec s.u s.u.regs.epoch (dHandle d); handed s.ctl s.u r d ∧ s.ctl.mode = .run ∧ dOp d = 7 ∧ badHandle s.u d = false ∧ badCount d = false ∧ (cBits x 0 2 ≠ 1 ∨ windowCheck x (dRegion d) 1 = false ∨ crossesRegion d = true)) ∧
    (let s : State := run (descU { going (desc 0x05 [(8, 5)]) with prog := [0] }); let r : ℕ := 63; let d : Desc := { going (desc 0x05 [(8, 5)]) with prog := [0] }; started s.u r d ∧ dOp d = 5 ∧ d.prog ≠ []) ∧
    (let s : State := run (descU { going (desc 0x08 []) with prog := [0] }); let r : ℕ := 63; let d : Desc := { going (desc 0x08 []) with prog := [0] }; started s.u r d ∧ dOp d = 8 ∧ d.prog ≠ []) ∧
    (let s : State := run (descU { going (desc 0x07 [(8, 5), (16, 7), (24, 2)]) with prog := [256, 0] }); let r : ℕ := 63; let d : Desc := { going (desc 0x07 [(8, 5), (16, 7), (24, 2)]) with prog := [256, 0] }; started s.u r d ∧ dOp d = 7 ∧ d.prog.length = dCount d) ∧
    (let s : State := run (descU (going (desc 0x07 [(8, 5), (16, 7), (24, 2)]))); let r : ℕ := 63; let d : Desc := going (desc 0x07 [(8, 5), (16, 7), (24, 2)]); started s.u r d ∧ dOp d = 7 ∧ d.prog.length < dCount d ∧ sentOf d < dCount d ∧ canTake s.u (ringPool (lineSlice s.u s.u.regs.epoch (dLine d + sentOf d))) 1 = true ∧ routeRefused s.u (epCore 5) (epSlice (lineSlice s.u s.u.regs.epoch (dLine d + sentOf d))) = false) ∧
    (let s : State := run (descU (desc 0x01 [(63, 128)])); let r : ℕ := 63; let d : Desc := desc 0x01 [(63, 128)]; findDesc s.u r d.idx = some d ∧ d.begun = false ∧ mayBegin s.ctl s.u r d.idx = true ∧ reservedSet d = true ∧ dOp d = 1) ∧
    (let s : State := inMode .service (descU (desc 0x07 [(8, 5), (16, 7), (24, 2)])); let r : ℕ := 63; let d : Desc := desc 0x07 [(8, 5), (16, 7), (24, 2)]; handed s.ctl s.u r d ∧ s.ctl.mode ≠ .run ∧ dOp d = 7 ∧ badHandle s.u d = false ∧ badCount d = false) := by
  unfold handed started
  refine ⟨by decide, by decide, by decide, by decide, by decide, by decide, by decide, by decide, ?_⟩
  exact ⟨by decide, by decide, by decide, by decide, by decide⟩

theorem witness_PayloadsAreReadCheckedAndStaged :
    (let s : State := run (descU (desc 0x10 [(8, 4096), (16, 1)])); let r : ℕ := 63; let d : Desc := desc 0x10 [(8, 4096), (16, 1)]; handed s.ctl s.u r d ∧ (s.ctl.mode = .run ∨ s.ctl.mode = .service) ∧ s.u.rings.reads = [] ∧ d.payload = [] ∧ d.own = [] ∧ d.committed = false ∧ dOp d = 0x10 ∧ badChangeset s.u d = false) ∧
    (let s : State := run (descU (desc 0x11 [(8, 4096), (24, 1)])); let r : ℕ := 63; let d : Desc := desc 0x11 [(8, 4096), (24, 1)]; handed s.ctl s.u r d ∧ (s.ctl.mode = .run ∨ s.ctl.mode = .service) ∧ s.u.rings.reads = [] ∧ d.payload = [] ∧ d.own = [] ∧ d.committed = false ∧ dOp d = 0x11 ∧ badTableLoad s.u d = false) ∧
    (let s : State := run (payloadU { going (desc 0x10 [(8, 4096), (16, 1)]) with payload := [0xFFFFFFFF], own := [1] }); let r : ℕ := 63; let d : Desc := { going (desc 0x10 [(8, 4096), (16, 1)]) with payload := [0xFFFFFFFF], own := [1] }; let es := changeEntries d; started s.u r d ∧ d.committed = false ∧ payloadReads d ≤ d.payload.length ∧ dOp d = 0x10 ∧ (∃ e ∈ es, entryOk s.u.v e = false)) ∧
    (let s : State := run (payloadU { going (desc 0x10 [(8, 4096), (16, 1)]) with payload := [BitVec.ofNat 512 (regAddr .RGL_PORT_p_TOKEN_0 0 0 + (4096 + 2 ^ 16) * 2 ^ 32)], own := [1] }); let r : ℕ := 63; let d : Desc := { going (desc 0x10 [(8, 4096), (16, 1)]) with payload := [BitVec.ofNat 512 (regAddr .RGL_PORT_p_TOKEN_0 0 0 + (4096 + 2 ^ 16) * 2 ^ 32)], own := [1] }; let es := changeEntries d; let w : ℕ := 768; started s.u r d ∧ d.committed = false ∧ payloadReads d ≤ d.payload.length ∧ dOp d = 0x10 ∧ (∀ e ∈ es, entryOk s.u.v e = true) ∧ admissionFails s.u (s.ctl.mode == .run) (planWith s.u (s.u.regs.descStaged ++ es) s.u.adm.tables) = some w) ∧
    (let s : State := run (payloadU { going (desc 0x10 [(8, 4096), (16, 1)]) with payload := [BitVec.ofNat 512 (regAddr .RGL_PSET_k_LO 0 0)], own := [1] }); let r : ℕ := 63; let d : Desc := { going (desc 0x10 [(8, 4096), (16, 1)]) with payload := [BitVec.ofNat 512 (regAddr .RGL_PSET_k_LO 0 0)], own := [1] }; let es := changeEntries d; started s.u r d ∧ d.committed = false ∧ payloadReads d ≤ d.payload.length ∧ dOp d = 0x10 ∧ (∀ e ∈ es, entryOk s.u.v e = true) ∧ admissionFails s.u (s.ctl.mode == .run) (planWith s.u (s.u.regs.descStaged ++ es) s.u.adm.tables) = none) ∧
    (let s : State := run (withBank (payloadU { going (desc 0x11 [(8, 4096), (24, 1)]) with payload := [0], own := [1] }) [(F.RGL_PORT_p_TOKEN_0_unlimited, 0, 1)]); let r : ℕ := 63; let d : Desc := { going (desc 0x11 [(8, 4096), (24, 1)]) with payload := [0], own := [1] }; let image := (List.range (turnsOf (tableMedia d))).map fun k => payloadByte d k; let tables := s.u.adm.tables ++ [(tableMedia d, maskChannels d, image)]; let w : ℕ := 768; started s.u r d ∧ d.committed = false ∧ payloadReads d ≤ d.payload.length ∧ dOp d = 0x11 ∧ (∀ i, i < turnsOf (tableMedia d) → tableEntryOk (tableMedia d) i (image.getD i 0) = true) ∧ admissionFails s.u (s.ctl.mode == .run) (planWith s.u s.u.regs.descStaged tables) = some w) ∧
    (let s : State := run (payloadU { going (desc 0x11 [(8, 4096), (24, 1)]) with payload := [0], own := [1] }); let r : ℕ := 63; let d : Desc := { going (desc 0x11 [(8, 4096), (24, 1)]) with payload := [0], own := [1] }; let image := (List.range (turnsOf (tableMedia d))).map fun k => payloadByte d k; let tables := s.u.adm.tables ++ [(tableMedia d, maskChannels d, image)]; started s.u r d ∧ d.committed = false ∧ payloadReads d ≤ d.payload.length ∧ dOp d = 0x11 ∧ (∀ i, i < turnsOf (tableMedia d) → tableEntryOk (tableMedia d) i (image.getD i 0) = true) ∧ admissionFails s.u (s.ctl.mode == .run) (planWith s.u s.u.regs.descStaged tables) = none) ∧
    (let s : State := run { descU { going (desc 0x10 [(8, 4096), (16, 9)]) with own := [2] } with rings := { (descU { going (desc 0x10 [(8, 4096), (16, 9)]) with own := [2] }).rings with reads := [(63, 5, 1)] } }; let r : ℕ := 63; let d : Desc := { going (desc 0x10 [(8, 4096), (16, 9)]) with own := [2] }; r < 64 ∧ started s.u r d ∧ (dOp d = 0x10 ∨ dOp d = 0x11) ∧ d.committed = false ∧ pdOn s.u 4 = true ∧ ((s.u.rings.reads.find? fun k => k.1 == r && k.2.1 == d.idx && (k.2.2 == 1 || k.2.2 == 3)) = some (r, d.idx, 1))) ∧
    (let s : State := run { descU { going (desc 0x10 [(8, 4096), (16, 9)]) with own := [2] } with rings := { (descU { going (desc 0x10 [(8, 4096), (16, 9)]) with own := [2] }).rings with reads := [(63, 5, 1)] } }; let r : ℕ := 63; let d : Desc := { going (desc 0x10 [(8, 4096), (16, 9)]) with own := [2] }; r < 64 ∧ started s.u r d ∧ (dOp d = 0x10 ∨ dOp d = 0x11) ∧ d.committed = false ∧ pdOn s.u 4 = true ∧ ((s.u.rings.reads.find? fun k => k.1 == r && k.2.1 == d.idx && (k.2.2 == 1 || k.2.2 == 3)) = some (r, d.idx, 1)) ∧ d.payload.length + 1 < payloadReads d ∧ payloadReads d ≤ sentOf d) := by
  unfold handed started
  exact ⟨by decide, by decide, by decide, by decide, by decide, by decide, by decide, by decide, by decide⟩

theorem witness_ModeRequestsChangeTheMode :
    (let s : State := run (descU (desc 0x33 [(8, 4)])); let r : ℕ := 63; let d : Desc := desc 0x33 [(8, 4)]; handed s.ctl s.u r d ∧ dOp d = 0x33 ∧ s.u.pwr.trans = none ∧ requestTarget d = 4 ∧ s.ctl.mode = .run) ∧
    (let s : State := { inMode .service (descU (desc 0x33 [(8, 4)])) with ctl := { mode := .service, failed := true } }; let r : ℕ := 63; let d : Desc := desc 0x33 [(8, 4)]; handed s.ctl s.u r d ∧ dOp d = 0x33 ∧ s.u.pwr.trans = none ∧ requestTarget d = 4 ∧ s.ctl.mode = .service ∧ s.ctl.failed = true) ∧
    (let s : State := inMode .service (descU (desc 0x33 [(8, 4)])); let r : ℕ := 63; let d : Desc := desc 0x33 [(8, 4)]; handed s.ctl s.u r d ∧ dOp d = 0x33 ∧ s.u.pwr.trans = none ∧ requestTarget d = 4 ∧ s.ctl.mode = .service ∧ s.ctl.failed = false ∧ (∀ k ∈ wantedClusters s.u, pdOn s.u (pdCluster k) = true)) ∧
    (let s : State := inMode .service { withBank (descU (desc 0x33 [(8, 4)])) [(F.PORT_n_CFG_enable, 63, 1)] with pd := tabPut allOn 18 0 }; let r : ℕ := 63; let d : Desc := desc 0x33 [(8, 4)]; handed s.ctl s.u r d ∧ dOp d = 0x33 ∧ s.u.pwr.trans = none ∧ requestTarget d = 4 ∧ s.ctl.mode = .service ∧ s.ctl.failed = false ∧ (∃ k ∈ wantedClusters s.u, pdOn s.u (pdCluster k) = false)) ∧
    (let s : State := run (descU (desc 0x33 [(8, 5)])); let r : ℕ := 63; let d : Desc := desc 0x33 [(8, 5)]; let u' := putDesc { s.u with out := [] } r { d with begun := true, committed := true }; handed s.ctl s.u r d ∧ dOp d = 0x33 ∧ s.u.pwr.trans = none ∧ requestTarget d = 5 ∧ s.ctl.mode = .run ∧ hushOk u' (some (r, d.idx)) = true) ∧
    (let s : State := run { descU (desc 0x33 [(8, 5)]) with stg := { evac := 1 } }; let r : ℕ := 63; let d : Desc := desc 0x33 [(8, 5)]; let u' := putDesc { s.u with out := [] } r { d with begun := true, committed := true }; handed s.ctl s.u r d ∧ dOp d = 0x33 ∧ s.u.pwr.trans = none ∧ requestTarget d = 5 ∧ s.ctl.mode = .run ∧ hushOk u' (some (r, d.idx)) = false) ∧
    (let s : State := inMode .service (descU (desc 0x33 [(8, 5)])); let r : ℕ := 63; let d : Desc := desc 0x33 [(8, 5)]; handed s.ctl s.u r d ∧ dOp d = 0x33 ∧ s.u.pwr.trans = none ∧ requestTarget d = 5 ∧ s.ctl.mode = .service) ∧
    (let s : State := inMode .service (descU (desc 0x33 [(8, 6)])); let r : ℕ := 63; let d : Desc := desc 0x33 [(8, 6)]; handed s.ctl s.u r d ∧ dOp d = 0x33 ∧ s.u.pwr.trans = none ∧ requestTarget d = 6 ∧ (s.ctl.mode = .run ∨ (s.ctl.mode = .service ∧ s.ctl.failed = false))) ∧
    (let s : State := inMode .drain (descU (desc 0x33 [(8, 6)])); let r : ℕ := 63; let d : Desc := desc 0x33 [(8, 6)]; handed s.ctl s.u r d ∧ dOp d = 0x33 ∧ s.u.pwr.trans = none ∧ requestTarget d = 6 ∧ s.ctl.mode = .drain) ∧
    (let s : State := run (descU (desc 0x33 [(8, 7)])); let r : ℕ := 63; let d : Desc := desc 0x33 [(8, 7)]; let u' := putDesc { s.u with out := [] } r { d with begun := true, committed := true }; let y := closeAll s.ctl (clusterFences (putTrans u' (some { target := .service, desc := some (r, d.idx), cause := 2 })) true); handed s.ctl s.u r d ∧ dOp d = 0x33 ∧ s.u.pwr.trans = none ∧ requestTarget d = 7 ∧ s.ctl.mode = .run ∧ allClosed y = true) ∧
    (let s : State := run (setPort (descU (desc 0x33 [(8, 7)])) 63 { state := 2, reqs := [{ ord := 8, phase := .sent }] }); let r : ℕ := 63; let d : Desc := desc 0x33 [(8, 7)]; let u' := putDesc { s.u with out := [] } r { d with begun := true, committed := true }; let y := closeAll s.ctl (clusterFences (putTrans u' (some { target := .service, desc := some (r, d.idx), cause := 2 })) true); handed s.ctl s.u r d ∧ dOp d = 0x33 ∧ s.u.pwr.trans = none ∧ requestTarget d = 7 ∧ s.ctl.mode = .run ∧ allClosed y = false) ∧
    (let s : State := { inMode .drain (descU (desc 0x33 [(8, 7)])) with ctl := { mode := .drain, prev := .run, drainDone := true } }; let r : ℕ := 63; let d : Desc := desc 0x33 [(8, 7)]; let u' := putDesc { s.u with out := [] } r { d with begun := true, committed := true }; handed s.ctl s.u r d ∧ dOp d = 0x33 ∧ s.u.pwr.trans = none ∧ requestTarget d = 7 ∧ s.ctl.mode = .drain ∧ drainLeaves s.ctl u' = true ∧ bareDrain s.ctl = false) := by
  unfold handed
  refine ⟨by decide, by decide, by decide, by decide, by decide, by decide, by decide, by decide, ?_⟩
  exact ⟨by decide, by decide, by decide, by decide⟩

theorem witness_RegionDescriptorsRun :
    (let s : State := run (durableU { going (desc 0x06 [(8, 7), (12, 1)]) with own := [1, 0, 0, 0, 0, 7, 0] }); let r : ℕ := 63; let d : Desc := { going (desc 0x06 [(8, 7), (12, 1)]) with own := [1, 0, 0, 0, 0, 7, 0] }; let k : ℕ := 0; let n : ℕ := 1; let sk : ℕ := 0; let l : ℕ := 7; let y : Machine.Units := (emptyLines { mode := .run } { durableU { going (desc 0x06 [(8, 7), (12, 1)]) with own := [1, 0, 0, 0, 0, 7, 0] } with out := [] } (inBatch [(7, 0)])).2; started s.u r d ∧ dOp d = 6 ∧ d.own = [n, k, sk, 0, 0, l, 0] ∧ n = trimCount d ∧ emptyLines s.ctl { s.u with out := [] } (inBatch [(l, 0)]) = (true, y) ∧ y.hng.mounted = true ∧ moveOf y l = none) ∧
    (let s : State := run (durableU { going (desc 0x06 [(8, 7), (12, 1)]) with own := [1, 1, 0, 0, 10] }); let r : ℕ := 63; let d : Desc := { going (desc 0x06 [(8, 7), (12, 1)]) with own := [1, 1, 0, 0, 10] }; started s.u r d ∧ dOp d = 6 ∧ ownAt d 4 ≠ 0 ∧ durableBelow s.u (ownAt d 4 - 1) = true) ∧
    (let s : State := run (durableU { going (desc 0x24 [(8, 7)]) with prog := [0, 8] }); let r : ℕ := 63; let d : Desc := { going (desc 0x24 [(8, 7)]) with prog := [0, 8] }; let n : ℕ := 8; let l : List ℕ := []; started s.u r d ∧ dOp d = 0x24 ∧ d.prog = 0 :: n :: l ∧ durableBelow s.u (n + 1) = true) ∧
    (let s : State := run (durableU (going (desc 0x25 [(8, 63)]))); let r : ℕ := 63; let d : Desc := going (desc 0x25 [(8, 63)]); started s.u r d ∧ dOp d = 0x25 ∧ s.u.hng.rebuilding.contains (rebuildGroup d) = false ∧ s.u.hng.rebuildShort.contains (rebuildGroup d) = false ∧ groupState s.u (rebuildGroup d) ≠ 3) ∧
    (let s : State := run (durableU { going (desc 0x30 []) with prog := [0] }); let r : ℕ := 63; let d : Desc := { going (desc 0x30 []) with prog := [0] }; let l : List ℕ := []; started s.u r d ∧ dOp d = 0x30 ∧ d.prog = 0 :: l) ∧
    (let s : State := run (durableU { going (desc 0x23 [(8, 63)]) with own := [2] }); let r : ℕ := 63; let d : Desc := { going (desc 0x23 [(8, 63)]) with own := [2] }; started s.u r d ∧ dOp d = 0x23 ∧ (∀ x ∈ s.u.drf.cals, x.1 ∉ calGroups s.u d)) ∧
    (let s : State := inMode .service (durableU { going (desc 0x34 []) with own := [1, 9, 3] }); let r : ℕ := 63; let d : Desc := { going (desc 0x34 []) with own := [1, 9, 3] }; started s.u r d ∧ dOp d = 0x34 ∧ ownAt d 0 = 1 ∧ durableBelow s.u (ownAt d 1) = true) ∧
    (let s : State := run { durableU (desc 0x24 [(8, 7), (12, 0x7FFFFF)]) with hng := { mounted := true, hinge := ⟨[(7, 7 + 2 ^ 25)]⟩ } }; let r : ℕ := 63; let d : Desc := desc 0x24 [(8, 7), (12, 0x7FFFFF)]; handed s.ctl s.u r d ∧ (s.ctl.mode = .run ∨ s.ctl.mode = .service) ∧ dOp d = 0x24 ∧ badMove s.u d = false ∧ (hMoving (hingeEntry s.u (moveRegion d)) = true ∨ hLost (hingeEntry s.u (moveRegion d)) = true ∨ badRegion s.u (moveRegion d) = true)) ∧
    (let s : State := run (durableU (desc 0x25 [(8, 63)])); let r : ℕ := 63; let d : Desc := desc 0x25 [(8, 63)]; handed s.ctl s.u r d ∧ (s.ctl.mode = .run ∨ s.ctl.mode = .service) ∧ dOp d = 0x25 ∧ rebuildGroup d < nStripes s.u.v ∧ (failedDies s.u (rebuildGroup d) = [] ∨ groupState s.u (rebuildGroup d) = 3)) ∧
    (let s : State := run { durableU (desc 0x25 [(8, 63)]) with hng := { mounted := true, failed := [9 * 63 + 8], rebuilding := [63] } }; let r : ℕ := 63; let d : Desc := desc 0x25 [(8, 63)]; handed s.ctl s.u r d ∧ (s.ctl.mode = .run ∨ s.ctl.mode = .service) ∧ dOp d = 0x25 ∧ rebuildGroup d < nStripes s.u.v ∧ failedDies s.u (rebuildGroup d) ≠ [] ∧ groupState s.u (rebuildGroup d) ≠ 3 ∧ s.u.hng.rebuilding.contains (rebuildGroup d) = true) ∧
    (let s : State := run { durableU (desc 0x25 [(8, 63)]) with hng := { mounted := true, failed := [9 * 63 + 8] } }; let r : ℕ := 63; let d : Desc := desc 0x25 [(8, 63)]; handed s.ctl s.u r d ∧ (s.ctl.mode = .run ∨ s.ctl.mode = .service) ∧ dOp d = 0x25 ∧ rebuildGroup d < nStripes s.u.v ∧ failedDies s.u (rebuildGroup d) ≠ [] ∧ groupState s.u (rebuildGroup d) ≠ 3 ∧ s.u.hng.rebuilding.contains (rebuildGroup d) = false) ∧
    (let s : State := run { durableU (desc 0x30 []) with hng := { mounted := true, ckptOn := true } }; let r : ℕ := 63; let d : Desc := desc 0x30 []; handed s.ctl s.u r d ∧ (s.ctl.mode = .run ∨ s.ctl.mode = .service) ∧ dOp d = 0x30 ∧ s.u.hng.ckptOn = true) ∧
    (let s : State := run { durableU (desc 0x23 [(8, 63)]) with pd := tabPut allOn 42 0 }; let r : ℕ := 63; let d : Desc := desc 0x23 [(8, 63)]; handed s.ctl s.u r d ∧ (s.ctl.mode = .run ∨ s.ctl.mode = .service) ∧ dOp d = 0x23 ∧ badCal s.u d = false ∧ (∃ g ∈ calGroups s.u d, pdOn s.u (pdMedia (g / 8)) = false)) ∧
    (let s : State := run (durableU (desc 0x23 [(8, 63)])); let r : ℕ := 63; let d : Desc := desc 0x23 [(8, 63)]; handed s.ctl s.u r d ∧ (s.ctl.mode = .run ∨ s.ctl.mode = .service) ∧ dOp d = 0x23 ∧ badCal s.u d = false ∧ (∀ g ∈ calGroups s.u d, pdOn s.u (pdMedia (g / 8)) = true) ∧ (∀ x ∈ underWay (putDesc s.u r { d with begun := true }), (x.1 = r ∧ x.2.idx = d.idx) ∨ dOp x.2 ≠ 0x23) ∧ dField d 10 4 = 0) := by
  unfold handed started
  refine ⟨by decide, by decide, by decide, by decide, by decide, by decide, by decide, by decide, ?_⟩
  exact ⟨by decide, by decide, by decide, by decide, by decide, by decide⟩

theorem witness_LinesArePoisonedAndDescriptorsAborted :
    (let s : State := run (durableU (desc 0x27 [(16, 131071), (24, 2)])); let r : ℕ := 63; let d : Desc := desc 0x27 [(16, 131071), (24, 2)]; handed s.ctl s.u r d ∧ s.ctl.mode = .run ∧ badPoison s.u d = false ∧ (crossesRegion d = true ∨ hLost (hingeEntry s.u (dRegion d)) = true) ∧ dOp d = 0x27) ∧
    (let s : State := run (durableU (desc 0x28 [(16, 131071), (24, 2)])); let r : ℕ := 63; let d : Desc := desc 0x28 [(16, 131071), (24, 2)]; handed s.ctl s.u r d ∧ s.ctl.mode = .run ∧ badPoison s.u d = false ∧ (crossesRegion d = true ∨ hLost (hingeEntry s.u (dRegion d)) = true) ∧ dOp d = 0x28) ∧
    (let s : State := run (durableU { going (desc 0x27 [(16, 7), (24, 2)]) with prog := [512 * 7, 512 * 8], own := [2, 0] }); let r : ℕ := 63; let d : Desc := { going (desc 0x27 [(16, 7), (24, 2)]) with prog := [512 * 7, 512 * 8], own := [2, 0] }; started s.u r d ∧ dOp d = 0x27 ∧ ownAt d 1 = 0 ∧ d.prog.length = dCount d ∧ dField d 26 1 = 0) ∧
    (let s : State := run (durableU { going (desc 0x27 [(16, 7), (24, 2)]) with prog := [512 * 7], own := [1, 0] }); let r : ℕ := 63; let d : Desc := { going (desc 0x27 [(16, 7), (24, 2)]) with prog := [512 * 7], own := [1, 0] }; started s.u r d ∧ dOp d = 0x27 ∧ ownAt d 1 = 0 ∧ d.prog.length < dCount d ∧ sentOf d < dCount d ∧ canTake s.u (ringPool (lineSlice s.u s.u.regs.epoch (dLine d + sentOf d))) 2 = true ∧ routeRefused s.u (epCore 5) (epSlice (lineSlice s.u s.u.regs.epoch (dLine d + sentOf d))) = false) ∧
    (let s : State := run (durableU { going (desc 0x28 [(16, 7), (24, 2)]) with own := [2, 1, 3, 9] }); let r : ℕ := 63; let d : Desc := { going (desc 0x28 [(16, 7), (24, 2)]) with own := [2, 1, 3, 9] }; started s.u r d ∧ dOp d = 0x28 ∧ 3 ≤ ownAt d 2 ∧ durableBelow s.u (ownAt d 3) = true) ∧
    (let s : State := run (descU (desc 0x3F [(8, 63), (10, 6)])); let r : ℕ := 63; let d : Desc := desc 0x3F [(8, 63), (10, 6)]; let q := abortTarget d; let u' := putDesc s.u r { d with begun := true, committed := true }; handed s.ctl s.u r d ∧ dOp d = 0x3F ∧ s.ctl.mode = .run ∧ findDesc u' q.1 q.2 = none) ∧
    (let s : State := run (ringU ringCfg [desc 0x3F [(8, 63), (10, 6)], { desc 0x3F [(8, 1)] with idx := 6 }]); let r : ℕ := 63; let d : Desc := desc 0x3F [(8, 63), (10, 6)]; let q := abortTarget d; let u' := putDesc s.u r { d with begun := true, committed := true }; let o : Desc := { desc 0x3F [(8, 1)] with idx := 6 }; handed s.ctl s.u r d ∧ dOp d = 0x3F ∧ s.ctl.mode = .run ∧ findDesc u' q.1 q.2 = some o ∧ dOp o = 0x3F) ∧
    (let s : State := run (ringU ringCfg [desc 0x3F [(8, 63), (10, 6)], { going (desc 5 []) with idx := 6, committed := true }]); let r : ℕ := 63; let d : Desc := desc 0x3F [(8, 63), (10, 6)]; let q := abortTarget d; let u' := putDesc s.u r { d with begun := true, committed := true }; let o : Desc := { going (desc 5 []) with idx := 6, committed := true }; handed s.ctl s.u r d ∧ dOp d = 0x3F ∧ s.ctl.mode = .run ∧ findDesc u' q.1 q.2 = some o ∧ dOp o ≠ 0x3F ∧ o.begun = true ∧ o.committed = true) ∧
    (let s : State := run (ringU ringCfg [desc 0x3F [(8, 63), (10, 6)], { desc 0x01 [] with idx := 6 }]); let r : ℕ := 63; let d : Desc := desc 0x3F [(8, 63), (10, 6)]; let q := abortTarget d; let u' := putDesc s.u r { d with begun := true, committed := true }; let o : Desc := { desc 0x01 [] with idx := 6 }; handed s.ctl s.u r d ∧ dOp d = 0x3F ∧ s.ctl.mode = .run ∧ findDesc u' q.1 q.2 = some o ∧ dOp o ≠ 0x3F ∧ o.begun = false ∧ q ≠ (r, d.idx)) ∧
    (let s : State := inMode .service { descU (desc 0x32 [(8, 4096), (16, 4096)]) with boot := { writeDesc := some (1, 2) } }; let r : ℕ := 63; let d : Desc := desc 0x32 [(8, 4096), (16, 4096)]; handed s.ctl s.u r d ∧ dOp d = 0x32 ∧ s.ctl.mode = .service ∧ badImageWrite s.u d = false ∧ s.u.boot.writeDesc.isSome = true) ∧
    (let s : State := inMode .service (descU (desc 0x32 [(8, 4096), (16, 4096)])); let r : ℕ := 63; let d : Desc := desc 0x32 [(8, 4096), (16, 4096)]; handed s.ctl s.u r d ∧ dOp d = 0x32 ∧ s.ctl.mode = .service ∧ badImageWrite s.u d = false ∧ s.u.boot.writeDesc = none ∧ s.u.rings.reads = [] ∧ d.own = [] ∧ d.payload = []) := by
  unfold handed started
  refine ⟨by decide, by decide, by decide, by decide, by decide, by decide, by decide, by decide, ?_⟩
  exact ⟨by decide, by decide, by decide⟩

theorem witness_EventsArePackedAndLevelsSampled :
    (let s : State := run { u0 with tele := { inq := [{ code := 1, inst := 2, time := 3, words := [9, 8] }], fifo := List.replicate 64 {} } }; let t0 := s.u.tele; let e : Event := { code := 1, inst := 2, time := 3, words := [9, 8] }; let rest : List Event := []; pdOn s.u 5 = true ∧ t0.inq = e :: rest ∧ 64 ≤ t0.fifo.length) ∧
    (let s : State := run { u0 with tele := { inq := [{ code := 1, inst := 2, time := 3, words := [9, 8] }], fifo := List.replicate 49 {} } }; let t0 := s.u.tele; let e : Event := { code := 1, inst := 2, time := 3, words := [9, 8] }; let rest : List Event := []; pdOn s.u 5 = true ∧ t0.inq = e :: rest ∧ 49 ≤ t0.fifo.length ∧ t0.fifo.length < 64 ∧ t0.heldLines = [] ∧ tabGet t0.sums e.code < 0xFFFFFF) ∧
    (let s : State := run { u0 with tele := { inq := [{ code := 1, inst := 2, time := 3, words := [9, 8] }], fifo := List.replicate 48 {} } }; let t0 := s.u.tele; let e : Event := { code := 1, inst := 2, time := 3, words := [9, 8] }; let rest : List Event := []; pdOn s.u 5 = true ∧ t0.inq = e :: rest ∧ t0.fifo.length < 49 ∧ t0.heldLines = [] ∧ t0.packing = [] ∧ rest = [] ∧ tallyWord s.u = 0 ∧ e.words.length ≤ 5 ∧ e.words ≠ []) ∧
    (let s : State := run { u0 with tele := { sums := ⟨[(1, 3)]⟩, sumAt := some 0 } }; let t0 := s.u.tele; pdOn s.u 5 = true ∧ t0.sums.cells ≠ []) ∧
    (let s : State := run { u0 with tele := { fifo := [{ line := 5, tag := 7 }] } }; let t0 := s.u.tele; let x : EvtLine := { line := 5, tag := 7 }; let rest : List EvtLine := []; pdOn s.u 5 = true ∧ t0.fifo = x :: rest ∧ t0.heldLines = [] ∧ (48 < rest.length ∨ t0.sums.cells = [])) ∧
    (let s : State := run { u0 with tele := { lastLine := some { line := 5, tag := 7 } } }; let t0 := s.u.tele; let x : EvtLine := { line := 5, tag := 7 }; pdOn s.u 5 = true ∧ t0.fifo = [] ∧ t0.lastLine = some x) ∧
    (let s : State := run (withF (withBank u0 [(F.TELE_LVL_CFG_period, 0, 1)]) [(F.DDR5_n_STATE_state, 15, 2)]); pdOn s.u 5 = true ∧ inF s.u F.TELE_LVL_CFG_period ≠ 0) := by
  exact ⟨by decide, by decide, by decide, by decide, by decide, by decide, by decide⟩

theorem witness_TheTapSelectsInstructions :
    (let s : State := State.reset; s.ctl.mode = .reset) ∧
    (let s : State := run u0; s.ctl.mode ≠ .reset) ∧
    (let s : State := run u0; let code : ℕ := 255; code < 256 ∧ tapKnown s.ctl s.u code = false) ∧
    (let s : State := { run u0 with ctl := { mode := .run, lc := 1 } }; let i : Instr := Instr.productionScan; let c : ℕ := 0x10; (i, c) ∈ [(Instr.productionScan, 0x10), (.sramSelfTest, 0x11), (.codecVectors, 0x12)] ∧ testOpen s.ctl s.u = false) ∧
    (let s : State := run u0; let i : Instr := Instr.productionScan; let c : ℕ := 0x10; (i, c) ∈ [(Instr.productionScan, 0x10), (.sramSelfTest, 0x11), (.codecVectors, 0x12)] ∧ testOpen s.ctl s.u = true) ∧
    (let s : State := { run u0 with ctl := { mode := .run, lc := 1 } }; let i : Instr := .sramSelfTest; let c : ℕ := 0x11; (i, c) ∈ [(Instr.productionScan, 0x10), (.sramSelfTest, 0x11), (.codecVectors, 0x12)] ∧ testOpen s.ctl s.u = false) ∧
    (let s : State := run u0; let i : Instr := .sramSelfTest; let c : ℕ := 0x11; (i, c) ∈ [(Instr.productionScan, 0x10), (.sramSelfTest, 0x11), (.codecVectors, 0x12)] ∧ testOpen s.ctl s.u = true) ∧
    (let s : State := { run u0 with ctl := { mode := .run, lc := 1 } }; let i : Instr := .codecVectors; let c : ℕ := 0x12; (i, c) ∈ [(Instr.productionScan, 0x10), (.sramSelfTest, 0x11), (.codecVectors, 0x12)] ∧ testOpen s.ctl s.u = false) ∧
    (let s : State := run u0; let i : Instr := .codecVectors; let c : ℕ := 0x12; (i, c) ∈ [(Instr.productionScan, 0x10), (.sramSelfTest, 0x11), (.codecVectors, 0x12)] ∧ testOpen s.ctl s.u = true) := by
  exact ⟨by decide, by decide, by decide, by decide, by decide, by decide, by decide, by decide, by decide⟩

theorem witness_SubchannelsIssueAndAnswer :
    (let s : State := (run (subU {})); let ch : ℕ := 15; let sub : ℕ := 1; let x := subOf s.u ch sub; subRuns s.u ch sub = true ∧ x.rq = [] ∧ x.wq = [] ∧ x.laid = [] ∧ (∀ a ∈ x.crcHeld, a.replay = false) ∧ getF s.u F.DDR5_n_RFM_required ch ≠ 1) ∧
    (let s : State := (run (subU { laid := [{ code := 9, banks := [5] }], openRow := ⟨[(5, 9)]⟩ })); let ch : ℕ := 15; let sub : ℕ := 1; let u := { s.u with out := [] }; let y := rfmOp (cycleStart u ch sub) ch sub; let l : Laid := { code := 9, banks := [5] }; subRuns s.u ch sub = true ∧ ((subOf y ch sub).laid.find? (fun l => decide (l.at_ ≤ (subOf y ch sub).cyc)) = some l)) ∧
    (let s : State := (run (subU { rq := [headRead], openRow := ⟨[(0, 1)]⟩ })); let ch : ℕ := 15; let sub : ℕ := 1; let u := { s.u with out := [] }; let y := rfmOp (cycleStart u ch sub) ch sub; let a : DAcc := headRead; subRuns s.u ch sub = true ∧ chosen y ch sub a ∧ forwarded (subOf y ch sub) a = false ∧ canColumn y ch (subOf y ch sub) a (subOf y ch sub).cyc = true) ∧
    (let s : State := (run (subU { wq := [{ use := .write, data := 5 }], openRow := ⟨[(0, 1)]⟩ })); let ch : ℕ := 15; let sub : ℕ := 1; let u := { s.u with out := [] }; let y := rfmOp (cycleStart u ch sub) ch sub; let a : DAcc := { use := .write, data := 5 }; subRuns s.u ch sub = true ∧ chosen y ch sub a ∧ forwarded (subOf y ch sub) a = false ∧ canColumn y ch (subOf y ch sub) a (subOf y ch sub).cyc = true) ∧
    (let s : State := (run (subU { inflight := [headRead] })); let ch : ℕ := 15; let sub : ℕ := 1; let x := subOf s.u ch sub; let a : DAcc := headRead; let rest : List DAcc := []; let err : BitVec 640 := 0; subRuns s.u ch sub = true ∧ x.inflight = a :: rest ∧ a.patched = false ∧ errBytes err.toNat 80 = []) ∧
    (let s : State := (run (subU { inflight := [headRead] })); let ch : ℕ := 15; let sub : ℕ := 1; let x := subOf s.u ch sub; let a : DAcc := headRead; let rest : List DAcc := []; let err : BitVec 640 := 1; let i : ℕ := 0; let l : List ℕ := []; subRuns s.u ch sub = true ∧ x.inflight = a :: rest ∧ a.patched = false ∧ errBytes err.toNat 80 = i :: l ∧ (∀ k ∈ l, k / 8 = i / 8)) ∧
    (let s : State := (run (subU { inflight := [headRead] })); let ch : ℕ := 15; let sub : ℕ := 1; let x := subOf s.u ch sub; let a : DAcc := headRead; let rest : List DAcc := []; let err : BitVec 640 := (1 + 2 ^ 64); let i : ℕ := 0; let l : List ℕ := [8]; subRuns s.u ch sub = true ∧ x.inflight = a :: rest ∧ a.patched = false ∧ errBytes err.toNat 80 = i :: l ∧ (∃ k ∈ l, k / 8 ≠ i / 8) ∧ l.length < 8) ∧
    (let s : State := (run (subU { stallEnd := ⟨[(5, 2)]⟩ })); let ch : ℕ := 15; let sub : ℕ := 1; let x := subOf s.u ch sub; let rank : ℕ := 0; let parts := refreshParts s.u ch rank; let start := readyStart s.u ch x parts; subRuns s.u ch sub = true ∧ rank < 2 ^ rkLog s.u ∧ refreshFalls x rank = true ∧ x.postponed.contains rank = false ∧ partsApart s.u ch x parts start = false) ∧
    (let s : State := (run (subU {})); let ch : ℕ := 15; let sub : ℕ := 1; let x := subOf s.u ch sub; let rank : ℕ := 0; let parts := refreshParts s.u ch rank; let start := readyStart s.u ch x parts; subRuns s.u ch sub = true ∧ rank < 2 ^ rkLog s.u ∧ refreshFalls x rank = true ∧ x.postponed.contains rank = false ∧ partsApart s.u ch x parts start = true) ∧
    (let s : State := (run (subU { postponed := [0] })); let ch : ℕ := 15; let sub : ℕ := 1; let x := subOf s.u ch sub; let rank : ℕ := 0; subRuns s.u ch sub = true ∧ rank < 2 ^ rkLog s.u ∧ refreshFalls x rank = true ∧ x.postponed.contains rank = true) ∧
    (let s : State := (run (subU { openRow := ⟨[(31, 9)]⟩, cyc := 100 })); let ch : ℕ := 15; let sub : ℕ := 1; let x := subOf s.u ch sub; let rank : ℕ := 0; let bank : ℕ := 31; let b := rank * 32 + bank; let n := getF s.u F.DDR5_n_SCHED_close_idle ch; subRuns s.u ch sub = true ∧ rank < 2 ^ rkLog s.u ∧ bank < 32 ∧ canPre s.u ch x b x.cyc = true ∧ since x.cyc (tabGet x.tAct b) n = true ∧ since x.cyc (tabGet x.tRd b) n = true ∧ since x.cyc (tabGet x.tWr b) n = true) ∧
    (let s : State := (run (subU {})); let ch : ℕ := 15; let sub : ℕ := 1; let dimm : ℕ := 0; subRuns s.u ch sub = true ∧ dimmRanks s.u ch dimm ≠ []) ∧
    (let s : State := (run (subU {})); let ch : ℕ := 15; let sub : ℕ := 1; let dimm : ℕ := 0; subRuns s.u ch sub = true ∧ dimmRanks s.u ch dimm ≠ [] ∧ writeCrc s.u ch = false) ∧
    (let s : State := (run (withF (subU { crcHeld := [{ line := 5 }] }) [(F.DDR5_n_PHY_STATE_write_crc, 15, 1)])); let ch : ℕ := 15; let sub : ℕ := 1; let x := subOf s.u ch sub; let dimm : ℕ := 0; subRuns s.u ch sub = true ∧ dimmRanks s.u ch dimm ≠ [] ∧ writeCrc s.u ch = true ∧ (∀ a ∈ x.crcHeld, tabGet x.crcTries a.line < 3)) := by
  unfold chosen noneLaid
  refine ⟨by decide, by decide, by decide, by decide, by decide, by decide, by decide, by decide, ?_⟩
  exact ⟨by decide, by decide, by decide, by decide, by decide, by decide⟩

theorem witness_DevicesAreFollowed :
    (let s : State := (run (subU {})); let ch : ℕ := 15; let mr4 : List ℕ := [0, 3]; inService s.u ch = true ∧ (∃ r ∈ mr4, 2 < r)) ∧
    (let s : State := (run (withF (subU {}) [(F.DDR5_n_PHY_STATE_dimms, 15, 2)])); let ch : ℕ := 15; let mr4 : List ℕ := [0, 2]; let h0 : HubReading := .absent; let h1 : HubReading := .celsius 1; let limit := getF s.u F.DDR5_n_THERM_limit ch; let temps := [slotReading s.u ch 0 h0, slotReading s.u ch 1 h1].filterMap (hubTemp limit); inService s.u ch = true ∧ (∀ r ∈ mr4, r ≤ 2) ∧ ((∃ r ∈ mr4, 1 < r) ∨ (∃ x ∈ temps, limit ≤ x))) ∧
    (let s : State := (run (withF (subU {}) [(F.DDR5_n_PHY_STATE_dimms, 15, 2)])); let ch : ℕ := 15; let mr4 : List ℕ := [0, 1]; let h0 : HubReading := .absent; let h1 : HubReading := .noAnswer; let limit := getF s.u F.DDR5_n_THERM_limit ch; let temps := [slotReading s.u ch 0 h0, slotReading s.u ch 1 h1].filterMap (hubTemp limit); inService s.u ch = true ∧ (∀ r ∈ mr4, r ≤ 2) ∧ ((∃ r ∈ mr4, 1 < r) ∨ (∃ x ∈ temps, limit ≤ x))) ∧
    (let s : State := (run (setDdr (withF (subU {}) [(F.DDR5_n_PHY_STATE_dimms, 15, 2)]) 15 { rate := 2, polls := 5 })); let ch : ℕ := 15; let d := ddr s.u ch; let mr4 : List ℕ := [0, 1]; let h0 : HubReading := .absent; let h1 : HubReading := .celsius 1; let limit := getF s.u F.DDR5_n_THERM_limit ch; let temps := [slotReading s.u ch 0 h0, slotReading s.u ch 1 h1].filterMap (hubTemp limit); inService s.u ch = true ∧ (∀ r ∈ mr4, r ≤ 1) ∧ (∀ x ∈ temps, x + 3 < limit) ∧ d.rate = 2) ∧
    (let s : State := (run (setDdr (withF (subU {}) [(F.DDR5_n_PHY_STATE_dimms, 15, 2)]) 15 { rate := 2, polls := 31 })); let ch : ℕ := 15; let d := ddr s.u ch; let mr4 : List ℕ := [0, 1]; let h0 : HubReading := .absent; let h1 : HubReading := .celsius 1; let limit := getF s.u F.DDR5_n_THERM_limit ch; let temps := [slotReading s.u ch 0 h0, slotReading s.u ch 1 h1].filterMap (hubTemp limit); inService s.u ch = true ∧ (∀ r ∈ mr4, r ≤ 1) ∧ (∀ x ∈ temps, x + 3 < limit) ∧ d.rate = 2) ∧
    (let s : State := (run { setDdr (withF (subU {}) [(F.DDR5_n_RETRAIN_period, 15, 3)]) 15 { sub1 := { openRow := ⟨[(5, 9)]⟩ }, calNext := 1 } with arbs := ⟨[(15, { holder := 3 })]⟩ }); let ch : ℕ := 15; let sub : ℕ := 1; let rank : ℕ := 0; inService s.u ch = true ∧ sub < 2 ∧ rank < 8 ∧ rank < 2 ^ rkLog s.u ∧ getF s.u F.DDR5_n_RETRAIN_period ch ≠ 0 ∧ calHolds s.u ch sub rank = true) ∧
    (let s : State := (run (subU {})); let ch : ℕ := 15; let sub : ℕ := 1; let rank : ℕ := 0; let dev : ℕ := 9; inService s.u ch = true ∧ sub < 2 ∧ rank < 8 ∧ rank < 2 ^ rkLog s.u ∧ dev < 10) ∧
    (let s : State := (run (subU {})); let ch : ℕ := 15; let sub : ℕ := 1; let rank : ℕ := 0; let dev : ℕ := 9; let cnt : ℕ := 700; inService s.u ch = true ∧ sub < 2 ∧ rank < 8 ∧ rank < 2 ^ rkLog s.u ∧ dev < 10 ∧ 0 < cnt) := by
  exact ⟨by decide, by decide, by decide, by decide, by decide, by decide, by decide, by decide⟩

theorem witness_DiesAndBusesAdvance :
    (let s : State := (run (dieU { st := .sensing, cur := some fillRead, pgm := true })); let n : ℕ := 71; let d : ℕ := 7; let x := dieOf s.u n d; let r : DRead := fillRead; cexRuns s.u n = true ∧ d < 8 ∧ x.st = .sensing ∧ x.cur = some r ∧ (r.cls < 2 ∨ (∀ z ∈ x.queue, 2 ≤ z.cls))) ∧
    (let s : State := (run (dieU { st := .programming, suspSent := true, queue := [fillRead], pgm := true })); let n : ℕ := 71; let d : ℕ := 7; let x := dieOf s.u n d; let r : DRead := fillRead; cexRuns s.u n = true ∧ d < 8 ∧ x.st = .programming ∧ x.suspSent = true ∧ x.queue = [r] ∧ r.owner = 7 ∧ x.result = none ∧ paused s.u n = false) ∧
    (let s : State := (run (cexU { xq := [{ die := 7 }] })); let n : ℕ := 71; let d : ℕ := 7; let y := cex s.u n; let z : Xfer := { die := 7 }; cexRuns s.u n = true ∧ d < 8 ∧ (∀ i, i < 8 → (dieOf s.u n i).queue = [] ∧ (dieOf s.u n i).st ≠ .suspended) ∧ paused s.u n = false ∧ y.cur = none ∧ y.xq = [z] ∧ z.die = d ∧ xferReady s.u n z = true ∧ z.load = false) ∧
    (let s : State := (run (setGrp (cexU { xq := [{ load := true, die := 7, buf := 3 }] }) 7 { bufs := [{ id := 3, dla := 5 }], round := 6 })); let n : ℕ := 71; let d : ℕ := 7; let x := dieOf s.u n d; let y := cex s.u n; let z : Xfer := { load := true, die := 7, buf := 3 }; let b : SBuf := { id := 3, dla := 5 }; cexRuns s.u n = true ∧ d < 8 ∧ (∀ i, i < 8 → (dieOf s.u n i).queue = [] ∧ (dieOf s.u n i).st ≠ .suspended) ∧ paused s.u n = false ∧ y.cur = none ∧ y.xq = [z] ∧ z.die = d ∧ xferReady s.u n z = true ∧ z.load = true ∧ bufOf s.u (n / 9) z.buf = some b ∧ x.slots = []) ∧
    (let s : State := (run (busU { data := 12, metaWord := 3 + addrCheck 7 * 2 ^ 32 })); let n : ℕ := 71; let d : ℕ := 7; let x := dieOf s.u n d; let y := cex s.u n; let z : Xfer := { die := 7 }; let dr : DRead := fillRead; let r : MRead := { id := 4, pkt := { typ := .fillFwd, src := 97, dst := 71, handle := 32, lla := 7, port := 62, ord := 9, gen := 3 }, direct := { on := true, need := [8] } }; let l := (patchOf s.u n d dr.dla).getD (x.chip.reg.getD {}); cexRuns s.u n = true ∧ d < 8 ∧ y.cur = some z ∧ z.die = d ∧ x.result = some dr ∧ x.st = .idle ∧ x.queue = [] ∧ readOf s.u (n / 9) dr.rid = some r ∧ dr.detour = false ∧ r.use = .fill ∧ r.direct.on = true ∧ r.pkt.kind = .read ∧ r.pkt.bound = false ∧ l.bad = false ∧ nbits l.metaWord 0 16 = r.pkt.gen ∧ nbits l.metaWord 24 1 = 0 ∧ nbits l.metaWord 32 32 = addrCheck r.pkt.lla) ∧
    (let s : State := (run (programU [8])); let n : ℕ := 71; let d : ℕ := 7; let x := dieOf s.u n d; let pfail : BitVec 8 := 0; let slot : ℕ := 2; let id : ℕ := 3; let b : SBuf := { id := 3, use := .destage 0, group := 63, dla := 9, formed := true, want := 8, todo := [8] }; cexRuns s.u n = true ∧ d < 8 ∧ x.st = .programming ∧ x.running = [(slot, id)] ∧ nbits pfail.toNat slot 1 = 0 ∧ bufOf s.u (n / 9) id = some b ∧ x.queue = [] ∧ (b.todo.erase (n % 9) ≠ [] ∨ (b.formed = true ∧ b.want = 8 ∧ ∃ sl, b.use = .destage sl))) ∧
    (let s : State := (run (programU [8, 2])); let n : ℕ := 71; let d : ℕ := 7; let x := dieOf s.u n d; let pfail : BitVec 8 := 0; let slot : ℕ := 2; let id : ℕ := 3; let b : SBuf := { id := 3, use := .destage 0, group := 63, dla := 9, formed := true, want := 8, todo := [8, 2] }; cexRuns s.u n = true ∧ d < 8 ∧ x.st = .programming ∧ x.running = [(slot, id)] ∧ nbits pfail.toNat slot 1 = 0 ∧ bufOf s.u (n / 9) id = some b ∧ x.queue = [] ∧ (b.todo.erase (n % 9) ≠ [] ∨ (b.formed = true ∧ b.want = 8 ∧ ∃ sl, b.use = .destage sl))) := by
  exact ⟨by decide, by decide, by decide, by decide, by decide, ⟨by decide, by decide, by decide, by decide, by decide, by decide, by decide, .inr ⟨by decide, by decide, 0, by decide⟩⟩, ⟨by decide, by decide, by decide, by decide, by decide, by decide, by decide, .inr ⟨by decide, by decide, 0, by decide⟩⟩⟩

theorem witness_WindowsAndDieChecks :
    (let s : State := (run (windowU u0)); let g : ℕ := 7; g < nGroups s.u.v ∧ pdOn s.u (pdMedia g) = true ∧ roundsRun s.u g = true ∧ (∀ r ∈ (grp s.u g).reads, r.direct.blocked = false ∧ r.detour.blocked = false)) ∧
    (let s : State := (run (setGrp u0 7 { phase := 2, round := 5 })); let g : ℕ := 7; g < nGroups s.u.v ∧ pdOn s.u (pdMedia g) = true ∧ roundsRun s.u g = true ∧ (∀ r ∈ (grp s.u g).reads, r.direct.blocked = false ∧ r.detour.blocked = false)) ∧
    (let s : State := (run (windowU (dieU { st := .suspended, pgm := true, suspSent := true }))); let n : ℕ := 71; let d : ℕ := 7; let x := dieOf s.u n d; cexRuns s.u n = true ∧ d < 8 ∧ inWindow s.u n = true ∧ x.started = false ∧ dieFailed s.u n d = false ∧ x.st = .suspended) ∧
    (let s : State := (run (calGrant (windowU (dieU { zqDue := true })))); let n : ℕ := 71; let d : ℕ := 7; let x := dieOf s.u n d; cexRuns s.u n = true ∧ d < 8 ∧ inWindow s.u n = true ∧ x.started = false ∧ dieFailed s.u n d = false ∧ x.st = .idle ∧ x.zqDue = true ∧ holderOf s.u n = 3) ∧
    (let s : State := (run (windowU (dieU loadedDie))); let n : ℕ := 71; let d : ℕ := 7; let x := dieOf s.u n d; cexRuns s.u n = true ∧ d < 8 ∧ inWindow s.u n = true ∧ x.started = false ∧ dieFailed s.u n d = false ∧ x.st = .idle ∧ x.zqDue = false ∧ x.slots ≠ [] ∧ getF s.u F.MS_g_CFG_batch_min (n / 9) ≤ x.slots.length ∧ deferredDie s.ctl s.u n d = false ∧ s.u.pwr.hushing = false ∧ (∀ z ∈ x.slots, nbits x.chip.status (8 + z.1) 1 = 1)) ∧
    (let s : State := (run linkU); let n : ℕ := 71; let d : ℕ := 7; cexRuns s.u n = true ∧ d < 8 ∧ inWindow s.u n = true ∧ linkDue s.u n = true ∧ holderOf s.u n = 3 ∧ (cex s.u n).cur = none ∧ nextDie s.u n (cex s.u n).linkDie = some d) ∧
    (let s : State := (run (withF (cexU { zqDie := 7 }) [(F.CEX_n_LINK_zq_period, 71, 1)])); let n : ℕ := 71; let d : ℕ := 7; cexRuns s.u n = true ∧ d < 8 ∧ getF s.u F.CEX_n_LINK_zq_period n ≠ 0 ∧ nextDie s.u n (cex s.u n).zqDie = some d) ∧
    (let s : State := (run u0); let n : ℕ := 71; let d : ℕ := 7; cexRuns s.u n = true ∧ d < 8 ∧ dieFailed s.u n d = false) ∧
    (let s : State := (run u0); let n : ℕ := 71; let d : ℕ := 7; cexRuns s.u n = true ∧ d < 8) ∧
    (let s : State := (run (dieU { st := .sensing, slots := [(0, 3, 0)] })); let n : ℕ := 71; let d : ℕ := 7; let x := dieOf s.u n d; cexRuns s.u n = true ∧ d < 8 ∧ x.st = .sensing ∧ x.cur = none ∧ x.running = []) ∧
    (let s : State := (run (dieU { st := .other, resent := true })); let n : ℕ := 71; let d : ℕ := 7; let x := dieOf s.u n d; cexRuns s.u n = true ∧ d < 8 ∧ (x.st = .sensing ∨ x.st = .programming ∨ x.st = .other) ∧ x.resent = true ∧ x.lateAt = []) := by
  refine ⟨by decide, by decide, by decide, by decide, by decide, by decide, by decide, by decide, ?_⟩
  exact ⟨by decide, by decide, by decide⟩

theorem witness_MovesSweepsAndScans :
    (let s : State := (run (workU { due := [{ cause := 7, prn := 4325375 }], pip := ⟨[(4325375, 4 * 2 ^ 56)]⟩, active := [0] })); let w : Work := { cause := 7, prn := 4325375 }; let slot : ℕ := 1; hingeRuns s.u = true ∧ movesRun s.ctl s.u = true ∧ s.u.hng.due = [w] ∧ workStands s.u w = true ∧ workReady s.u w = true ∧ ((List.range 16).find? (fun i => !s.u.hng.active.contains i) = some slot) ∧ 7 ≤ w.cause) ∧
    (let s : State := (run (workU { due := [{ cause := 3, region := 7, prn := 4325375, named := true }], hinge := ⟨[(7, 7)]⟩, pip := ⟨[(7, 2 * 2 ^ 56)]⟩, pins := [7 * 16384] })); let w : Work := { cause := 3, region := 7, prn := 4325375, named := true }; let slot : ℕ := 0; hingeRuns s.u = true ∧ movesRun s.ctl s.u = true ∧ s.u.hng.due = [w] ∧ workStands s.u w = true ∧ workReady s.u w = true ∧ ((List.range 16).find? (fun i => !s.u.hng.active.contains i) = some slot) ∧ w.cause ≤ 6 ∧ w.named = true ∧ w.desc = none ∧ (∀ z ∈ candidates s.u, pGen (pipEntry s.u z.2) ≠ 0xFFFE) ∧ hFresh (hingeEntry s.u w.region) = false ∧ s.u.hng.pins.contains (w.region * 16384) = true ∧ pGen (pipEntry s.u w.prn) < 0xFFFE) ∧
    (let s : State := (run (workU { due := [{ cause := 3, region := 7, prn := 4325375, named := true }] })); let w : Work := { cause := 3, region := 7, prn := 4325375, named := true }; let slot : ℕ := 0; hingeRuns s.u = true ∧ movesRun s.ctl s.u = true ∧ s.u.hng.due = [w] ∧ workStands s.u w = true ∧ workReady s.u w = true ∧ ((List.range 16).find? (fun i => !s.u.hng.active.contains i) = some slot) ∧ w.cause ≤ 6 ∧ w.named = true ∧ w.desc = none ∧ (∀ z ∈ candidates s.u, pGen (pipEntry s.u z.2) ≠ 0xFFFE) ∧ hFresh (hingeEntry s.u w.region) = true) ∧
    (let s : State := (run copiedU); let slot : ℕ := 15; let g : ℕ := 0; let b : SBuf := { id := 3, use := .move 15 5, stripe := 7 * 16384 + 5, prn := 4194304, formed := true }; let m := tabGet s.u.hng.slots slot; hingeRuns s.u = true ∧ movesRun s.ctl s.u = true ∧ slot < 16 ∧ movedBuf s.u slot = some (g, b) ∧ s.u.hng.active.contains slot = true ∧ ofMove m b = true ∧ m.written = [] ∧ m.cursor = b.stripe % 16384 ∧ (m.cursor + 1) % 64 ≠ 0 ∧ (16384 ≤ m.next ∨ s.u.hng.pins.contains (m.region * 16384 + m.next) = true)) ∧
    (let s : State := (run (spareU 7 4)); let slot : ℕ := 15; let m := tabGet s.u.hng.slots slot; let group := prnGroup s.u.v m.src; hingeRuns s.u = true ∧ movesRun s.ctl s.u = true ∧ slot < 16 ∧ s.u.hng.active.contains slot = true ∧ m.cause = 7 ∧ groupState s.u group = 0) ∧
    (let s : State := (run (spareU 8 3)); let slot : ℕ := 15; let m := tabGet s.u.hng.slots slot; hingeRuns s.u = true ∧ movesRun s.ctl s.u = true ∧ slot < 16 ∧ s.u.hng.active.contains slot = true ∧ m.cause = 8 ∧ pState (pipEntry s.u m.src) = 3) ∧
    (let s : State := (run (spareU 8 1)); let slot : ℕ := 15; let m := tabGet s.u.hng.slots slot; hingeRuns s.u = true ∧ movesRun s.ctl s.u = true ∧ slot < 16 ∧ s.u.hng.active.contains slot = true ∧ m.cause = 8 ∧ pState (pipEntry s.u m.src) = 1) ∧
    (let s : State := (run (workU { poolPos := 4194304 })); let p := s.u.hng.poolPos; hingeRuns s.u = true ∧ p + 1 < nPhys s.u.v) ∧
    (let s : State := (run (workU { poolPos := 4325375 })); let p := s.u.hng.poolPos; hingeRuns s.u = true ∧ nPhys s.u.v ≤ p + 1) ∧
    (let s : State := (run (workU { poolPos := 4325375, pip := ⟨[(4325375, 4 * 2 ^ 56)]⟩ })); let p := s.u.hng.poolPos; hingeRuns s.u = true ∧ pState (pipEntry s.u p) = 4 ∧ s.u.hng.active = []) ∧
    (let s : State := (run (workU { regPos := 4194303, hinge := ⟨[(4194303, 4194303)]⟩, pip := ⟨[(4194303, 2 * 2 ^ 56 + 0xFFFFFF)]⟩ })); hingeRuns s.u = true) := by
  refine ⟨by decide, by decide, by decide, by decide, by decide, by decide, by decide, by decide, ?_⟩
  exact ⟨by decide, by decide, by decide⟩

theorem witness_JournalAgesAndCalibration :
    (let s : State := (run (workU { open_ := [{}], seq := 5 })); let h := s.u.hng; hingeRuns s.u = true ∧ h.open_ ≠ []) ∧
    (let s : State := (run { withBank (workU { writing := [⟨3, []⟩, ⟨4, []⟩] }) [(F.HNG_CKPT_blocks, 0, 9)] with pd := tabPut allOn 4 0 }); let h := s.u.hng; let b : JBlock := ⟨3, []⟩; let rest : List JBlock := [⟨4, []⟩]; hingeRuns s.u = true ∧ h.writing = b :: rest ∧ h.since < inF s.u F.HNG_CKPT_blocks ∧ ringsRun s.ctl s.u = false) ∧
    (let s : State := (run { workU { ckptOn := true, ckptSlot := 0, ckptJ0 := 2, hinge := ⟨[(7, 8)]⟩ } with pd := tabPut allOn 4 0, keep := {} }); let h := s.u.hng; hingeRuns s.u = true ∧ h.ckptOn = true ∧ h.ckptSlot < 2 ∧ h.badHinge = [] ∧ h.badPip = [] ∧ ringsRun s.ctl s.u = false) ∧
    (let s : State := (run { workU { ckptOn := true, ckptSlot := 1, ckptJ0 := 2, hinge := ⟨[(7, 8)]⟩ } with pd := tabPut allOn 4 0, keep := { sbB := some { seq := 4, j0 := 1 }, blocks := [⟨1, []⟩, ⟨2, []⟩] } }); let h := s.u.hng; hingeRuns s.u = true ∧ h.ckptOn = true ∧ h.ckptSlot < 2 ∧ h.badHinge = [] ∧ h.badPip = [] ∧ ringsRun s.ctl s.u = false) ∧
    (let s : State := (inMode .drain u0); s.ctl.mode ≠ .hush ∧ advanceHeld s.ctl s.u = true ∧ s.u.drf.held = false) ∧
    (let s : State := (run { u0 with drf := { ages := ⟨[(1, 1)]⟩ } }); s.ctl.mode ≠ .hush ∧ advanceHeld s.ctl s.u = true ∧ s.u.drf.held = false) ∧
    (let s : State := (run { u0 with drf := { e := 255 } }); s.ctl.mode ≠ .hush ∧ advanceHeld s.ctl s.u = false ∧ s.u.drf.owed = 0) ∧
    (let s : State := (run { u0 with drf := { cals := [(63, true)], pointer := ⟨[(63 * 32 + 31, 127)]⟩ } }); let g : ℕ := 63; hingeRuns s.u = true ∧ g < nStripes s.u.v ∧ pdOn s.u (pdMedia (g / 8)) = true) := by
  exact ⟨by decide, by decide, by decide, by decide, by decide, by decide, by decide, by decide⟩

theorem witness_ScrubbersArbitersAndRepairs :
    (let s : State := (run (withF (subU {}) [])); let media : Bool := false; let ch : ℕ := 15; let r : ℕ := 0; let a := settleArb s.ctl s.u media ch; arbExists s.u.v media ch = true ∧ pdOn s.u (chDomain media ch) = true ∧ 6 ≤ a.holder ∧ decide_ a = some r) ∧
    (let s : State := (run { windowU (dieU { zqDue := true }) with arbs := ⟨[(199, { byeNext := true, raised := ⟨[(3, 5)]⟩ })]⟩, now := 9 }); let media : Bool := true; let ch : ℕ := 71; let r : ℕ := 3; let a := settleArb s.ctl s.u media ch; arbExists s.u.v media ch = true ∧ pdOn s.u (chDomain media ch) = true ∧ 6 ≤ a.holder ∧ decide_ a = some r) ∧
    (let s : State := (run { subU {} with arbs := ⟨[(15, { holder := 0 })]⟩ }); let works := s.ctl.mode = .run ∨ s.ctl.mode = .service; let ch : ℕ := 15; inService s.u ch = true ∧ (tabGet s.u.arbs ch).holder = 0 ∧ works ∧ (subOf s.u ch 0).patches = [] ∧ (subOf s.u ch 1).patches = [] ∧ (ddr s.u ch).scrubSet + 8 < nSets s.u ∧ maintTurn s.u ch ((ddr s.u ch).scrubSet * 16) = true ∧ (∀ k, k < 8 → hdrFmt (dramLine (slice s.u ch) (((ddr s.u ch).scrubSet + k) * 16)) = 0x5A)) ∧
    (let s : State := (run { subU {} with arbs := ⟨[(15, { holder := 0 })]⟩, slices := ⟨[(15, { dram := ⟨(List.range 8).map fun k => (k * 16, initHeader)⟩ })]⟩ }); let works := s.ctl.mode = .run ∨ s.ctl.mode = .service; let ch : ℕ := 15; inService s.u ch = true ∧ (tabGet s.u.arbs ch).holder = 0 ∧ works ∧ (subOf s.u ch 0).patches = [] ∧ (subOf s.u ch 1).patches = [] ∧ (ddr s.u ch).scrubSet + 8 < nSets s.u ∧ maintTurn s.u ch ((ddr s.u ch).scrubSet * 16) = true ∧ (∀ k, k < 8 → hdrFmt (dramLine (slice s.u ch) (((ddr s.u ch).scrubSet + k) * 16)) = 0x5A)) ∧
    (let s : State := (run { cexU { scrubRegion := 8, scrubLine := 64, scrubGen := 5, scrubDie := 7 } with arbs := ⟨[(199, { holder := 0 })]⟩ }); let works := s.ctl.mode = .run ∨ s.ctl.mode = .service; let n : ℕ := 71; let y := cex s.u n; cexRuns s.u n = true ∧ (tabGet s.u.arbs (128 + n)).holder = 0 ∧ s.u.hng.mounted = true ∧ works ∧ openTurn s.u n = true ∧ paused s.u n = false ∧ y.scrubRegion ≠ 0 ∧ y.scrubLine ≠ 0 ∧ y.scrubLine + 64 < 16384 ∧ dieFailed s.u n y.scrubDie = false ∧ (∀ i, i < 64 → let l := storedLine s.u n y.scrubDie (y.scrubSlot * 16384 + y.scrubLine + i); l.bad = false ∧ nbits l.metaWord 0 16 ≠ y.scrubGen)) ∧
    (let s : State := (run u0); let table : ℕ := 0; let i : ℕ := 2097151; i < sramWords s.u.v table ∧ pdOn s.u 6 = true ∧ pdOn s.u 3 = true ∧ s.u.hng.mounted = true) ∧
    (let s : State := (run u0); let table : ℕ := 1; let i : ℕ := 4325375; i < sramWords s.u.v table ∧ pdOn s.u 6 = true ∧ pdOn s.u 3 = true ∧ s.u.hng.mounted = true) ∧
    (let s : State := (run u0); let table : ℕ := 2; let i : ℕ := 511; i < sramWords s.u.v table ∧ pdOn s.u 6 = true ∧ pdOn s.u 3 = true ∧ s.u.hng.mounted = true) ∧
    (let s : State := (run u0); let table : ℕ := 3; let i : ℕ := 255; i < sramWords s.u.v table ∧ pdOn s.u 6 = true ∧ pdOn s.u 3 = true ∧ s.u.hng.mounted = true) ∧
    (let s : State := (run { withBank (cexU { scrubAt := 1 }) [(F.INT_SCRUB_CEX_LIMIT_seconds, 0, 1)] with now := 10 ^ 12 }); let media : Bool := true; let ch : ℕ := 71; arbExists s.u.v media ch = true ∧ pdOn s.u (chDomain media ch) = true ∧ media = true ∧ inF s.u F.INT_SCRUB_CEX_LIMIT_seconds ≠ 0 ∧ (cex s.u ch).overdue = false ∧ inF s.u F.INT_SCRUB_CEX_LIMIT_seconds ≤ secondsSince s.u (cex s.u ch).scrubAt) ∧
    (let s : State := (run { withBank (setDdr u0 15 { scrubAt := 1 }) [(F.INT_SCRUB_DDR_LIMIT_seconds, 0, 1)] with now := 10 ^ 12 }); let media : Bool := false; let ch : ℕ := 15; arbExists s.u.v media ch = true ∧ pdOn s.u (chDomain media ch) = true ∧ media = false ∧ inF s.u F.INT_SCRUB_DDR_LIMIT_seconds ≠ 0 ∧ (ddr s.u ch).overdue = false ∧ inF s.u F.INT_SCRUB_DDR_LIMIT_seconds ≤ secondsSince s.u (ddr s.u ch).scrubAt) ∧
    (let s : State := (run (cexU { overdue := true })); let media : Bool := true; let ch : ℕ := 71; arbExists s.u.v media ch = true ∧ pdOn s.u (chDomain media ch) = true ∧ (if media then (cex s.u ch).overdue else (ddr s.u ch).overdue) = true) ∧
    (let s : State := (run { workU { hinge := ⟨[(7, 7 + 2 ^ 25)]⟩ } with repairs := [{ prn := 7, gen := 3, group := 0, dla := 7 * 16384, lla := 7 * 131072 }] }); let works := s.ctl.mode = .run ∨ s.ctl.mode = .service; let place : ℕ := 0; let e : Repair := { prn := 7, gen := 3, group := 0, dla := 7 * 16384, lla := 7 * 131072 }; s.u.repairs[place]? = some e ∧ works ∧ pdOn s.u 6 = true ∧ pdOn s.u (pdMedia (e.group / 8)) = true ∧ repairRoom s.u e = true ∧ (badRegion s.u (e.lla / 131072) = true ∨ hLost (hingeEntry s.u (e.lla / 131072)) = true)) ∧
    (let s : State := (run { workU { hinge := ⟨[(7, 7)]⟩, pip := ⟨[(7, 2 * 2 ^ 56 + 3 * 2 ^ 24)]⟩ } with repairs := [{ prn := 7, gen := 4, group := 0, dla := 7 * 16384, lla := 7 * 131072 }] }); let works := s.ctl.mode = .run ∨ s.ctl.mode = .service; let place : ℕ := 0; let e : Repair := { prn := 7, gen := 4, group := 0, dla := 7 * 16384, lla := 7 * 131072 }; let prn : ℕ := 7; let dla : ℕ := (stripeDla u0 7 0); let gen : ℕ := 3; let fresh : Bool := false; let x : Machine.Units := (placementAnswer { mode := .run } { (run { workU { hinge := ⟨[(7, 7)]⟩, pip := ⟨[(7, 2 * 2 ^ 56 + 3 * 2 ^ 24)]⟩ } with repairs := [{ prn := 7, gen := 4, group := 0, dla := 7 * 16384, lla := 7 * 131072 }] }).u with out := [] } 7 0).2; s.u.repairs[place]? = some e ∧ works ∧ pdOn s.u 6 = true ∧ pdOn s.u (pdMedia (e.group / 8)) = true ∧ repairRoom s.u e = true ∧ placementAnswer s.ctl { s.u with out := [] } (e.lla / 131072) (e.lla / 8 % 16384) = (.at_ prn dla gen fresh, x) ∧ (prn ≠ e.prn ∨ gen ≠ e.gen ∨ dla ≠ e.dla)) ∧
    (let s : State := (run { workU { hinge := ⟨[(7, 7)]⟩, pip := ⟨[(7, 2 * 2 ^ 56 + 3 * 2 ^ 24)]⟩ } with repairs := [{ prn := 7, gen := 3, group := 0, dla := stripeDla u0 7 0, lla := 7 * 131072 }] }); let works := s.ctl.mode = .run ∨ s.ctl.mode = .service; let place : ℕ := 0; let e : Repair := { prn := 7, gen := 3, group := 0, dla := stripeDla u0 7 0, lla := 7 * 131072 }; let prn : ℕ := 7; let dla : ℕ := (stripeDla u0 7 0); let gen : ℕ := 3; let fresh : Bool := false; let x : Machine.Units := (placementAnswer { mode := .run } { (run { workU { hinge := ⟨[(7, 7)]⟩, pip := ⟨[(7, 2 * 2 ^ 56 + 3 * 2 ^ 24)]⟩ } with repairs := [{ prn := 7, gen := 3, group := 0, dla := stripeDla u0 7 0, lla := 7 * 131072 }] }).u with out := [] } 7 0).2; s.u.repairs[place]? = some e ∧ works ∧ pdOn s.u 6 = true ∧ pdOn s.u (pdMedia (e.group / 8)) = true ∧ repairRoom s.u e = true ∧ placementAnswer s.ctl { s.u with out := [] } (e.lla / 131072) (e.lla / 8 % 16384) = (.at_ prn dla gen fresh, x) ∧ prn = e.prn ∧ gen = e.gen ∧ dla = e.dla ∧ (∀ y ∈ (grp s.u (e.group / 8)).reads, y.id ≠ (grp s.u (e.group / 8)).nextRead) ∧ (∃ q, q < 9 ∧ q ≠ e.pos ∧ dieFailed s.u (9 * (e.group / 8) + q) (e.group % 8) = false)) := by
  refine ⟨by decide, by decide, by decide, by decide, by decide, by decide, by decide, by decide, ?_⟩
  exact ⟨by decide, by decide, by decide, by decide, by decide, by decide, by decide⟩

theorem witness_LatchesAndRechecks :
    (let s : State := (run { u0 with regs := { banked := true, defers := 255 }, ports := ⟨[(62, { port3 with reqs := [{ sentReq 1 with epoch := some 3, counted := true }] })]⟩ }); latches s.ctl s.u = true ∧ (∀ cl, cl < nClusters s.u.v → clusterStill s.u cl) ∧ s.u.adm.due = 0 ∧ s.u.audit = none ∧ changesWait s.u = true ∧ oldLive s.u = true) ∧
    (let s : State := (run u0); latches s.ctl s.u = true ∧ (∀ cl, cl < nClusters s.u.v → clusterStill s.u cl) ∧ s.u.adm.due = 0 ∧ s.u.audit = none ∧ changesWait s.u = false) ∧
    (let s : State := (run { u0 with adm := { gathered := 4 } }); latches s.ctl s.u = true ∧ (∀ cl, cl < nClusters s.u.v → clusterStill s.u cl) ∧ s.u.adm.due = 0 ∧ s.u.audit = none ∧ changesWait s.u = false) ∧
    (let s : State := (run { u0 with regs := { banked := true } }); latches s.ctl s.u = true ∧ changesWait s.u = true ∧ oldLive s.u = false) ∧
    (let s : State := (run { u0 with adm := { due := 1 } }); pdOn s.u 2 = true ∧ s.u.adm.due ≠ 0) ∧
    (let s : State := (run (withBank (setPort u0 63 { rdLines := 7 }) [(F.RGL_BW_WINDOW_rounds, 0, 1)])); pdOn s.u 2 = true ∧ inF s.u F.RGL_BW_WINDOW_rounds ≠ 0) := by
  unfold clusterStill
  exact ⟨by decide, by decide, by decide, by decide, by decide, by decide⟩

theorem witness_HushSleepsAndWakes :
    (let s : State := (run { withBank u0 [(F.PWR_CFG_hush_idle, 0, 1)] with now := 100000 }); s.ctl.mode = .run ∧ inF s.u F.PWR_CFG_hush_idle ≠ 0 ∧ s.u.pwr.activeAt + inF s.u F.PWR_CFG_hush_idle * 100000 ≤ s.u.now ∧ hushOk s.u none = true) ∧
    (let s : State := (run { withF u0 [(F.DDR5_n_STATE_state, 15, 2)] with pwr := { hushing := true } }); s.ctl.mode = .run ∧ s.u.pwr.hushing = true ∧ s.u.hng.open_ = [] ∧ hushReady s.u = true ∧ s.u.pwr.wakeDrain = 0 ∧ s.u.pwr.held = [] ∧ (∀ p, p < nPorts s.u.v → (port s.u p).reqs = [])) ∧
    (let s : State := (run { u0 with pwr := { hushing := true, trans := some { target := .hush, cause := 2, desc := some (1, 2) } }, hng := { mounted := true, active := [3] } }); s.ctl.mode = .run ∧ s.u.pwr.hushing = true ∧ s.u.hng.open_ = [] ∧ hushReady s.u = true ∧ s.u.pwr.wakeDrain = 0 ∧ s.u.pwr.held = [] ∧ (∀ p, p < nPorts s.u.v → (port s.u p).reqs = [])) ∧
    (let s : State := (inMode .hush { small with pd := ⟨[(1, 1), (3, 3), (4, 2), (5, 2)]⟩ }); s.ctl.mode = .hush ∧ s.u.pwr.waking = false) ∧
    (let s : State := (inMode .hush { small with pd := ⟨[(1, 1), (3, 3), (4, 2), (5, 2)]⟩ }); let p : ℕ := 15; s.ctl.mode = .hush ∧ s.u.pwr.waking = false ∧ p < nPorts s.u.v) ∧
    (let s : State := (inMode .hush { u0 with pwr := { waking := true }, pd := tabPut allOn 4 2 }); s.ctl.mode = .hush ∧ s.u.pwr.waking = true ∧ s.u.pwr.rising = [] ∧ s.u.pwr.wakeDrain = 0 ∧ s.u.pwr.held = [] ∧ s.u.pwr.hushing = false ∧ s.u.hng.active = [] ∧ s.u.drf.owed = 0 ∧ inF s.u F.PWR_CFG_hush_keys_off = 0 ∧ (∀ d ∈ [2, 6, 7, 8, 9, 10], pdOn s.u d = true) ∧ (∀ cl, cl < nClusters s.u.v → clusterStill s.u cl)) ∧
    (let s : State := (inMode .hush { u0 with pwr := { waking := true, wakeDrain := 5 } }); s.ctl.mode = .hush ∧ s.u.pwr.waking = true ∧ s.u.pwr.rising = [] ∧ s.u.pwr.wakeDrain ≠ 0 ∧ s.u.pwr.hushing = false ∧ s.u.pwr.held = []) := by
  unfold clusterStill
  exact ⟨by decide, by decide, by decide, by decide, by decide, by decide, by decide⟩

theorem witness_DrainsAndTheSupply :
    (let s : State := (inMode .load u0); s.ctl.mode ≠ .reset ∧ s.ctl.mode ≠ .drain ∧ s.ctl.mode ≠ .hush ∧ s.u.pwr.hushing = false) ∧
    (let s : State := (inMode .train u0); s.ctl.mode ≠ .reset ∧ s.ctl.mode ≠ .drain ∧ s.ctl.mode ≠ .hush ∧ s.u.pwr.hushing = false) ∧
    (let s : State := (inMode .mount u0); s.ctl.mode ≠ .reset ∧ s.ctl.mode ≠ .drain ∧ s.ctl.mode ≠ .hush ∧ s.u.pwr.hushing = false) ∧
    (let s : State := (inMode .run u0); s.ctl.mode ≠ .reset ∧ s.ctl.mode ≠ .drain ∧ s.ctl.mode ≠ .hush ∧ s.u.pwr.hushing = false) ∧
    (let s : State := (inMode .service u0); s.ctl.mode ≠ .reset ∧ s.ctl.mode ≠ .drain ∧ s.ctl.mode ≠ .hush ∧ s.u.pwr.hushing = false) ∧
    (let s : State := (inMode .hush u0); s.ctl.mode = .hush ∧ s.u.pwr.wakeDrain = 0 ∧ s.u.pwr.waking = false) ∧
    (let s : State := (inMode .drain u0); (s.ctl.mode = .reset ∨ s.ctl.mode = .drain)) ∧
    (let s : State := (run { u0 with pwr := { pwrfail := true } }); s.ctl.mode ≠ .reset ∧ s.ctl.mode ≠ .drain) ∧
    (let s : State := ({ inMode .drain { u0 with keep := { sbA := some {} } } with ctl := { mode := .drain, prev := .mount } }); s.ctl.mode = .drain ∧ s.ctl.drainDone = false ∧ (∀ x, s.u.pwr.trans = some x → x.target = .drain) ∧ bareDrain s.ctl = true) ∧
    (let s : State := ({ inMode .drain { u0 with keep := {}, hng := { mounted := true, seq := 9 } } with ctl := { mode := .drain, prev := .run } }); s.ctl.mode = .drain ∧ s.ctl.drainDone = false ∧ (∀ x, s.u.pwr.trans = some x → x.target = .drain) ∧ bareDrain s.ctl = false ∧ drainReady s.u = true ∧ s.u.hng.writing = [] ∧ s.u.hng.open_ = []) ∧
    (let s : State := ({ inMode .drain { u0 with keep := { sbA := some { seq := 4 }, blocks := [⟨3, []⟩] }, hng := { mounted := true, seq := 9 } } with ctl := { mode := .drain, prev := .run } }); s.ctl.mode = .drain ∧ s.ctl.drainDone = false ∧ (∀ x, s.u.pwr.trans = some x → x.target = .drain) ∧ bareDrain s.ctl = false ∧ drainReady s.u = true ∧ s.u.hng.writing = [] ∧ s.u.hng.open_ = []) ∧
    (let s : State := ({ inMode .drain { u0 with hng := { mounted := true, ckptOn := true } } with ctl := { mode := .drain, prev := .run } }); s.ctl.mode = .drain ∧ s.ctl.drainDone = false ∧ (∀ x, s.u.pwr.trans = some x → x.target = .drain) ∧ bareDrain s.ctl = false ∧ drainReady s.u = false) := by
  refine ⟨by decide, by decide, by decide, by decide, by decide, by decide, by decide, by decide, ?_⟩
  exact ⟨by decide, by decide, by decide, by decide⟩

theorem witness_HeatIsThrottled :
    (let s : State := (run u0); let i : ℕ := 31; let temp : BitVec 8 := 114; let valid : Bool := true; s.ctl.mode ≠ .reset ∧ i < 32 ∧ getF s.u F.PWR_SENSOR_i_failed i = 0 ∧ goodReading temp valid = true ∧ asSigned temp.toNat < 115) ∧
    (let s : State := (run u0); let i : ℕ := 31; let temp : BitVec 8 := 214; let valid : Bool := true; s.ctl.mode ≠ .reset ∧ i < 32 ∧ getF s.u F.PWR_SENSOR_i_failed i = 0 ∧ goodReading temp valid = false) ∧
    (let s : State := (run u0); let i : ℕ := 31; let temp : BitVec 8 := 20; let valid : Bool := false; s.ctl.mode ≠ .reset ∧ i < 32 ∧ getF s.u F.PWR_SENSOR_i_failed i = 0 ∧ goodReading temp valid = false) ∧
    (let s : State := (inMode .load u0); let i : ℕ := 31; let temp : BitVec 8 := 115; let valid : Bool := true; s.ctl.mode ≠ .reset ∧ i < 32 ∧ getF s.u F.PWR_SENSOR_i_failed i = 0 ∧ goodReading temp valid = true ∧ 115 ≤ asSigned temp.toNat ∧ s.ctl.shutdown = false ∧ s.ctl.mode ≠ .drain ∧ s.ctl.mode ≠ .hush ∧ s.u.pwr.hushing = false) ∧
    (let s : State := (inMode .train u0); let i : ℕ := 31; let temp : BitVec 8 := 115; let valid : Bool := true; s.ctl.mode ≠ .reset ∧ i < 32 ∧ getF s.u F.PWR_SENSOR_i_failed i = 0 ∧ goodReading temp valid = true ∧ 115 ≤ asSigned temp.toNat ∧ s.ctl.shutdown = false ∧ s.ctl.mode ≠ .drain ∧ s.ctl.mode ≠ .hush ∧ s.u.pwr.hushing = false) ∧
    (let s : State := (inMode .mount u0); let i : ℕ := 31; let temp : BitVec 8 := 115; let valid : Bool := true; s.ctl.mode ≠ .reset ∧ i < 32 ∧ getF s.u F.PWR_SENSOR_i_failed i = 0 ∧ goodReading temp valid = true ∧ 115 ≤ asSigned temp.toNat ∧ s.ctl.shutdown = false ∧ s.ctl.mode ≠ .drain ∧ s.ctl.mode ≠ .hush ∧ s.u.pwr.hushing = false) ∧
    (let s : State := (inMode .run u0); let i : ℕ := 31; let temp : BitVec 8 := 115; let valid : Bool := true; s.ctl.mode ≠ .reset ∧ i < 32 ∧ getF s.u F.PWR_SENSOR_i_failed i = 0 ∧ goodReading temp valid = true ∧ 115 ≤ asSigned temp.toNat ∧ s.ctl.shutdown = false ∧ s.ctl.mode ≠ .drain ∧ s.ctl.mode ≠ .hush ∧ s.u.pwr.hushing = false) ∧
    (let s : State := (inMode .service u0); let i : ℕ := 31; let temp : BitVec 8 := 115; let valid : Bool := true; s.ctl.mode ≠ .reset ∧ i < 32 ∧ getF s.u F.PWR_SENSOR_i_failed i = 0 ∧ goodReading temp valid = true ∧ 115 ≤ asSigned temp.toNat ∧ s.ctl.shutdown = false ∧ s.ctl.mode ≠ .drain ∧ s.ctl.mode ≠ .hush ∧ s.u.pwr.hushing = false) ∧
    (let s : State := ({ inMode .drain u0 with ctl := { mode := .drain, drainDone := true } }); let i : ℕ := 31; let temp : BitVec 8 := 127; let valid : Bool := true; s.ctl.mode ≠ .reset ∧ i < 32 ∧ getF s.u F.PWR_SENSOR_i_failed i = 0 ∧ goodReading temp valid = true ∧ 115 ≤ asSigned temp.toNat ∧ s.ctl.shutdown = false ∧ s.ctl.mode = .drain) ∧
    (let s : State := (inMode .drain u0); let i : ℕ := 31; let temp : BitVec 8 := 127; let valid : Bool := true; s.ctl.mode ≠ .reset ∧ i < 32 ∧ getF s.u F.PWR_SENSOR_i_failed i = 0 ∧ goodReading temp valid = true ∧ 115 ≤ asSigned temp.toNat ∧ s.ctl.shutdown = false ∧ s.ctl.mode = .drain) ∧
    (let s : State := (run (withF u0 [(F.PWR_SENSOR_i_failed, 31, 1)])); let z : ℕ := 12; s.ctl.mode ≠ .reset ∧ s.ctl.mode ≠ .hush ∧ z < 13 ∧ zoneExists s.u.v z = true) ∧
    (let s : State := (run u0); let z : ℕ := 12; s.ctl.mode ≠ .reset ∧ s.ctl.mode ≠ .hush ∧ z < 13 ∧ zoneExists s.u.v z = true) ∧
    (let s : State := (run (withF u0 [(F.PWR_SENSOR_i_valid, 0, 1), (F.PWR_SENSOR_i_temp, 0, 120), (F.PWR_ZONE_z_STATE_own, 0, 3), (F.PWR_ZONE_z_STATE_own, 8, 3), (F.PWR_ZONE_z_STATE_own, 12, 3)])); let z : ℕ := 12; s.ctl.mode ≠ .reset ∧ s.ctl.mode ≠ .hush ∧ z < 13 ∧ zoneExists s.u.v z = true) ∧
    (let s : State := (run (withF u0 [(F.PWR_SENSOR_i_valid, 0, 1), (F.PWR_SENSOR_i_temp, 0, 90), (F.PWR_ZONE_z_STATE_own, 0, 3), (F.PWR_ZONE_z_STATE_own, 8, 3), (F.PWR_ZONE_z_STATE_own, 12, 3)])); let z : ℕ := 12; s.ctl.mode ≠ .reset ∧ s.ctl.mode ≠ .hush ∧ z < 13 ∧ zoneExists s.u.v z = true) ∧
    (let s : State := (run (withF u0 [(F.PWR_SENSOR_i_valid, 0, 1), (F.PWR_SENSOR_i_temp, 0, 84), (F.PWR_ZONE_z_STATE_own, 0, 3), (F.PWR_ZONE_z_STATE_own, 8, 3), (F.PWR_ZONE_z_STATE_own, 12, 3)])); let z : ℕ := 12; s.ctl.mode ≠ .reset ∧ s.ctl.mode ≠ .hush ∧ z < 13 ∧ zoneExists s.u.v z = true) ∧
    (let s : State := (run (withF u0 [(F.PWR_SENSOR_i_valid, 0, 1), (F.PWR_SENSOR_i_temp, 0, 10), (F.PWR_ZONE_z_STATE_own, 0, 3), (F.PWR_ZONE_z_STATE_own, 8, 3), (F.PWR_ZONE_z_STATE_own, 12, 3)])); let z : ℕ := 12; s.ctl.mode ≠ .reset ∧ s.ctl.mode ≠ .hush ∧ z < 13 ∧ zoneExists s.u.v z = true) ∧
    (let s : State := (run small); s.u.v ≠ .v72) ∧
    (let s : State := (run { withBank u0 [(F.PWR_BUDGET_watts, 0, 200)] with pwr := { budgetStep := 12 } }); s.u.v = .v72 ∧ s.ctl.mode ≠ .reset ∧ s.ctl.mode ≠ .hush ∧ s.ctl.mode ≠ .drain ∧ inF s.u F.PWR_BUDGET_watts ≠ 0) ∧
    (let s : State := (run { withBank u0 [(F.PWR_BUDGET_watts, 0, 200)] with pwr := { budgetStep := 3 } }); s.u.v = .v72 ∧ s.ctl.mode ≠ .reset ∧ s.ctl.mode ≠ .hush ∧ s.ctl.mode ≠ .drain ∧ inF s.u F.PWR_BUDGET_watts ≠ 0) ∧
    (let s : State := (run { withBank u0 [(F.PWR_BUDGET_watts, 0, 200)] with pwr := { budgetStep := 0 } }); s.u.v = .v72 ∧ s.ctl.mode ≠ .reset ∧ s.ctl.mode ≠ .hush ∧ s.ctl.mode ≠ .drain ∧ inF s.u F.PWR_BUDGET_watts ≠ 0) := by
  refine ⟨by decide, by decide, by decide, by decide, by decide, by decide, by decide, by decide, ?_⟩
  refine ⟨by decide, by decide, by decide, by decide, by decide, by decide, by decide, by decide, ?_⟩
  exact ⟨by decide, by decide, by decide, by decide⟩

theorem witness_KeyMessagesAct :
    (let s : State := (run u0); let ws : List Word := (loadMsg strongKey); let code : ℕ := 3; keyTakes s.u = true ∧ ws ≠ [] ∧ keyJudge s.u ws = some code ∧ keyType ws = 0x10) ∧
    (let s : State := (run u0); let ws : List Word := (keyMsg (BitVec.ofNat 32 (0x11 + 9 * 65536) :: [])); let code : ℕ := 3; keyTakes s.u = true ∧ ws ≠ [] ∧ keyJudge s.u ws = some code ∧ keyType ws = 0x11) ∧
    (let s : State := (run u0); let ws : List Word := (keyMsg (BitVec.ofNat 32 (0x12 + 0 * 65536) :: [])); let code : ℕ := 3; keyTakes s.u = true ∧ ws ≠ [] ∧ keyJudge s.u ws = some code ∧ keyType ws = 0x12) ∧
    (let s : State := (run u0); let ws : List Word := [0x10]; let code : ℕ := 2; keyTakes s.u = true ∧ ws ≠ [] ∧ keyForm ws = some code) ∧
    (let s : State := (run u0); let ws : List Word := [0x10, 5]; let code : ℕ := 1; keyTakes s.u = true ∧ ws ≠ [] ∧ keyForm ws = some code) ∧
    (let s : State := (run (keyU [(1023, { state := 1 })])); let ws : List Word := (loadMsg strongKey); let slot := keySlotOf ws; keyTakes s.u = true ∧ ws ≠ [] ∧ keyJudge s.u ws = none ∧ keyType ws = 0x10 ∧ (tabGet s.u.keys slot).state ≠ 0) ∧
    (let s : State := (run (keyU [])); let ws : List Word := (loadMsg weakWords); let slot := keySlotOf ws; keyTakes s.u = true ∧ ws ≠ [] ∧ keyJudge s.u ws = none ∧ keyType ws = 0x10 ∧ (tabGet s.u.keys slot).state = 0 ∧ weakKey (keyBits ws) = true) ∧
    (let s : State := (run (keyU [])); let ws : List Word := (loadMsg strongKey); let slot := keySlotOf ws; keyTakes s.u = true ∧ ws ≠ [] ∧ keyJudge s.u ws = none ∧ keyType ws = 0x10 ∧ (tabGet s.u.keys slot).state = 0 ∧ weakKey (keyBits ws) = false) ∧
    (let s : State := (run (keyU [])); let ws : List Word := (keyMsg (BitVec.ofNat 32 (0x11 + 9 * 65536) :: [])); let slot := keySlotOf ws; keyTakes s.u = true ∧ ws ≠ [] ∧ keyJudge s.u ws = none ∧ keyType ws = 0x11 ∧ (tabGet s.u.keys slot).state = 0) ∧
    (let s : State := (run (keyU [(9, { state := 1, key := 3 })])); let ws : List Word := (keyMsg (BitVec.ofNat 32 (0x11 + 9 * 65536) :: [])); let slot := keySlotOf ws; keyTakes s.u = true ∧ ws ≠ [] ∧ keyJudge s.u ws = none ∧ keyType ws = 0x11 ∧ (tabGet s.u.keys slot).state = 1) ∧
    (let s : State := (run (keyU [])); let ws : List Word := (keyMsg (BitVec.ofNat 32 (0x12 + 0 * 65536) :: [])); keyTakes s.u = true ∧ ws ≠ [] ∧ keyJudge s.u ws = none ∧ keyType ws = 0x12 ∧ (∀ z ∈ s.u.keys.cells, z.2.state = 0)) ∧
    (let s : State := (run (keyU [(9, { state := 1, key := 3 })])); let ws : List Word := (keyMsg (BitVec.ofNat 32 (0x12 + 0 * 65536) :: [])); keyTakes s.u = true ∧ ws ≠ [] ∧ keyJudge s.u ws = none ∧ keyType ws = 0x12 ∧ (∃ z ∈ s.u.keys.cells, z.2.state ≠ 0)) ∧
    (let s : State := (run { u0 with keyPort := { hello := true } }); let ws : List Word := (keyMsg (BitVec.ofNat 32 (0x01 + 0 * 65536) :: [])); keyTakes s.u = true ∧ ws ≠ [] ∧ keyJudge s.u ws = none ∧ keyType ws = 0x01) ∧
    (let s : State := (run (keyU [(9, { state := 1, key := 3 })])); let ws : List Word := (keyMsg (BitVec.ofNat 32 (0x20 + 0 * 65536) :: [1, 0])); let target := (ws.getD 1 0).toNat; let ok := target < 4 ∧ (ws.getD 2 0).toNat = s.u.boot.lcState ∧ lcPermits s.u.boot.lcState target = true; keyTakes s.u = true ∧ ws ≠ [] ∧ keyJudge s.u ws = none ∧ keyType ws = 0x20 ∧ s.ctl.mode ≠ .drain ∧ ok ∧ s.u.boot.spi = .none) ∧
    (let s : State := (run (keyU [])); let ws : List Word := (keyMsg (BitVec.ofNat 32 (0x20 + 0 * 65536) :: [2, 0])); let target := (ws.getD 1 0).toNat; let ok := target < 4 ∧ (ws.getD 2 0).toNat = s.u.boot.lcState ∧ lcPermits s.u.boot.lcState target = true; keyTakes s.u = true ∧ ws ≠ [] ∧ keyJudge s.u ws = none ∧ keyType ws = 0x20 ∧ s.ctl.mode ≠ .drain ∧ ¬ ok) ∧
    (let s : State := (run { keyU [(9, { state := 2, key := 3 })] with keyPort := { state := 1, erase := some (0x11 + 9 * 65536, 9, true) } }); let h : ℕ := 0x11 + 9 * 65536; let k : ℕ := 9; pdOn s.u 1 = true ∧ s.u.keyPort.erase = some (h, k, true) ∧ oldLive s.u = false) ∧
    (let s : State := (run { setPort (keyU []) 62 { port3 with reqs := [{ sentReq 1 with epoch := some 3, counted := true }] } with keyPort := { state := 1, erase := some (0x11 + 9 * 65536, 9, true) } }); let h : ℕ := 0x11 + 9 * 65536; let k : ℕ := 9; pdOn s.u 1 = true ∧ s.u.keyPort.erase = some (h, k, true) ∧ oldLive s.u = true) ∧
    (let s : State := (run { u0 with keyPort := { hello := true } }); pdOn s.u 1 = true ∧ s.u.keyPort.hello = true) ∧
    (let s : State := (run { u0 with keyPort := { outq := [(7, true)], result := some 0x11FF22 } }); let w : Word := 7; let last : Bool := true; let rest : List (Word × Bool) := []; pdOn s.u 1 = true ∧ s.u.keyPort.outq = (w, last) :: rest) := by
  refine ⟨by decide, by decide, by decide, by decide, by decide, by decide, by decide, by decide, ?_⟩
  refine ⟨by decide, by decide, by decide, by decide, by decide, by decide, by decide, by decide, ?_⟩
  exact ⟨by decide, by decide, by decide⟩

theorem witness_BootReachesTraining :
    (let s : State := (State.reset); s.ctl.mode = .reset) ∧
    (let s : State := (inMode .load { small with pd := ⟨[]⟩, pwr := { rising := [2, 3, 1] } }); let d : ℕ := 2; mayRise s.u d = true ∧ s.u.pwr.trans = none ∧ (s.ctl.mode = .load ∨ s.ctl.mode = .hush) ∧ d < 11) ∧
    (let s : State := (inMode .hush { small with pd := tabPut allOn 10 0, pwr := { rising := [10, 2] } }); let d : ℕ := 10; mayRise s.u d = true ∧ s.u.pwr.trans = none ∧ (s.ctl.mode = .load ∨ s.ctl.mode = .hush) ∧ d < 11) ∧
    (let s : State := (inMode .load { small with boot := { sfdp := true, density := 20, spi := .read } }); s.ctl.mode = .load ∧ s.u.boot.spi = .read ∧ s.u.boot.lcNew = none ∧ deviceOk s.u.boot = false) ∧
    (let s : State := (inMode .load { small with boot := { sfdp := true, density := 21, spi := .read, copyA := goodImage } }); let k : ℕ := 0; s.ctl.mode = .load ∧ s.u.boot.spi = .read ∧ s.u.boot.lcNew = none ∧ deviceOk s.u.boot = true ∧ (takeCopy s.u.v s.u.boot.copyA s.u.boot.copyB).copy = some k) ∧
    (let s : State := (inMode .load { small with boot := { sfdp := true, density := 31, spi := .read, copyB := goodImage } }); let k : ℕ := 1; s.ctl.mode = .load ∧ s.u.boot.spi = .read ∧ s.u.boot.lcNew = none ∧ deviceOk s.u.boot = true ∧ (takeCopy s.u.v s.u.boot.copyA s.u.boot.copyB).copy = some k) ∧
    (let s : State := (inMode .load { small with keyPort := { state := 1 }, boot := { held := true } }); s.ctl.mode = .load ∧ s.u.boot.held = true ∧ s.u.pwr.rising = [] ∧ s.u.keyPort.state = 1 ∧ keyIdle s.u = true) ∧
    (let s : State := (inMode .load small); s.ctl.mode = .load ∧ pdOn s.u 1 = true ∧ s.u.pwr.rising = [] ∧ s.u.keyPort.state = 0) ∧
    (let s : State := (inMode .train small); s.ctl.mode = .train) ∧
    (let s : State := (inMode .train (setDdr (withF u0 [(F.DDR5_n_STATE_state, 15, 1)]) 15 { tries := 0 })); let ch : ℕ := 15; let step : ℕ := 11; s.ctl.mode = .train ∧ ch < nDdr s.u.v ∧ getF s.u F.DDR5_n_STATE_state ch = 1 ∧ 1 ≤ step ∧ step ≤ 11 ∧ (ddr s.u ch).tries ≠ step) ∧
    (let s : State := (inMode .train (setDdr (withF u0 [(F.DDR5_n_STATE_state, 15, 1)]) 15 { tries := 11 })); let ch : ℕ := 15; let step : ℕ := 11; s.ctl.mode = .train ∧ ch < nDdr s.u.v ∧ getF s.u F.DDR5_n_STATE_state ch = 1 ∧ 1 ≤ step ∧ step ≤ 11 ∧ (ddr s.u ch).tries = step) ∧
    (let s : State := (inMode .train (withF (cexU { tries := ⟨[(7, 1)]⟩ }) [(F.CEX_n_STATE_state, 71, 1)])); let ch : ℕ := 71; let step : ℕ := 9; let unit : ℕ := 7; s.ctl.mode = .train ∧ ch < nCexus s.u.v ∧ getF s.u F.CEX_n_STATE_state ch = 1 ∧ 1 ≤ step ∧ step ≤ 9 ∧ (cex s.u ch).failed.contains (unit % 8) = false ∧ tabGet (cex s.u ch).tries (unit % 8) ≠ step) ∧
    (let s : State := (inMode .train (withF (cexU { tries := ⟨[(7, 9)]⟩ }) [(F.CEX_n_STATE_state, 71, 1)])); let ch : ℕ := 71; let step : ℕ := 9; let unit : ℕ := 7; s.ctl.mode = .train ∧ ch < nCexus s.u.v ∧ getF s.u F.CEX_n_STATE_state ch = 1 ∧ 1 ≤ step ∧ step ≤ 9 ∧ (cex s.u ch).failed.contains (unit % 8) = false ∧ tabGet (cex s.u ch).tries (unit % 8) = step) ∧
    (let s : State := (inMode .train small); let l : List TrainResult := ((List.range 4).map (fun k => { ch := k }) ++ (List.range 18).map fun n => { media := true, ch := n }); let passes := fun (k : Nat) => (resultOf l false k).result = 0 ∧ trainMiss s.u k (resultOf l false k).found.eyes (resultOf l false k).found.trims = none; s.ctl.mode = .train ∧ s.u.pwr.rising = [] ∧ everyChannel s.u l = true ∧ (∀ k, k < nDdr s.u.v → passes k ∧ (resultOf l false k).ch = k) ∧ (∀ n, n < nCexus s.u.v → (resultOf l true n).ch = n)) ∧
    (let s : State := (inMode .train small); let l : List TrainResult := ((List.range 4).map (fun k => { ch := k, result := k / 3 }) ++ (List.range 18).map fun n => { media := true, ch := n }); let passes := fun (k : Nat) => (resultOf l false k).result = 0 ∧ trainMiss s.u k (resultOf l false k).found.eyes (resultOf l false k).found.trims = none; s.ctl.mode = .train ∧ s.u.pwr.rising = [] ∧ everyChannel s.u l = true ∧ (∃ k, k < nDdr s.u.v ∧ ¬ passes k ∧ ∀ i, i < nDdr s.u.v → (resultOf l false i).ch = i)) ∧
    (let s : State := (inMode .train small); let l : List TrainResult := ((List.range 4).map (fun k => { ch := k, found := { trims := if k = 3 then [(0xB000, 0)] else [] } }) ++ (List.range 18).map fun n => { media := true, ch := n }); let passes := fun (k : Nat) => (resultOf l false k).result = 0 ∧ trainMiss s.u k (resultOf l false k).found.eyes (resultOf l false k).found.trims = none; s.ctl.mode = .train ∧ s.u.pwr.rising = [] ∧ everyChannel s.u l = true ∧ (∃ k, k < nDdr s.u.v ∧ ¬ passes k ∧ ∀ i, i < nDdr s.u.v → (resultOf l false i).ch = i)) := by
  refine ⟨by decide, by decide, by decide, by decide, by decide +kernel, by decide +kernel, by decide, by decide, ?_⟩
  exact ⟨by decide, by decide, by decide, by decide, by decide, by decide, by decide, by decide⟩

theorem witness_MountResetAndTheSerialMemory :
    (let s : State := (inMode .mount { mountU {} with boot := {} }); s.ctl.mode = .mount ∧ s.u.hng.mounted = false ∧ geometryOk s.u = false) ∧
    (let s : State := ({ inMode .mount (mountU {}) with ctl := { mode := .mount, lc := 1 } }); let f : MountFound := {}; let u0 : Units := { s.u with out := [] }; s.ctl.mode = .mount ∧ s.u.hng.mounted = false ∧ geometryOk s.u = true ∧ newestSb (countCopies (driftDefaults u0) f).keep = none ∧ firstBootOk s.ctl.lc = false) ∧
    (let s : State := (inMode .mount (mountU {})); let f : MountFound := {}; let u0 : Units := { s.u with out := [] }; s.ctl.mode = .mount ∧ s.u.hng.mounted = false ∧ geometryOk s.u = true ∧ newestSb (countCopies (driftDefaults u0) f).keep = none ∧ firstBootOk s.ctl.lc = true) ∧
    (let s : State := (inMode .mount (mountU { sbA := some { variant := 1 } })); let f : MountFound := {}; let u0 : Units := { s.u with out := [] }; let sb : Superblock := { variant := 1 }; s.ctl.mode = .mount ∧ s.u.hng.mounted = false ∧ geometryOk s.u = true ∧ newestSb (countCopies (driftDefaults u0) f).keep = some sb ∧ sb.variant ≠ variantCode s.u.v) ∧
    (let s : State := (inMode .mount (mountU { sbA := some { variant := 3 } })); let f : MountFound := {}; let u0 : Units := { s.u with out := [] }; let sb : Superblock := { variant := 3 }; s.ctl.mode = .mount ∧ s.u.hng.mounted = false ∧ geometryOk s.u = true ∧ newestSb (countCopies (driftDefaults u0) f).keep = some sb ∧ sb.variant = variantCode s.u.v) ∧
    (let s : State := (run { descU (going (desc 0x32 [])) with boot := { spi := .imageVerify, writeDesc := some (63, 5), writeCopy := 1 } }); s.u.boot.spi = .imageVerify) ∧
    (let s : State := (run { descU (going (desc 0x32 [])) with boot := { spi := .imageVerify, writeDesc := some (63, 5), writeCopy := 1 } }); s.u.boot.spi = .imageVerify ∧ s.u.boot.writeCopy < 2) ∧
    (let s : State := (run { descU (going (desc 0x32 [])) with boot := { spi := .imageErase, writeDesc := some (63, 5), writeCopy := 1 } }); s.u.boot.spi = .imageErase) ∧
    (let s : State := (run { u0 with boot := { spi := .lcErase, lcNew := some { state := 1 } } }); let w : LcWrite := { state := 1 }; s.u.boot.lcNew = some w ∧ s.u.boot.spi = .lcErase) ∧
    (let s : State := (run { u0 with boot := { spi := .lcProgram, lcNew := some { state := 1 } } }); let w : LcWrite := { state := 1 }; s.u.boot.lcNew = some w ∧ s.u.boot.spi = .lcProgram) := by
  exact ⟨by decide, by decide, by decide, by decide, by decide, by decide, by decide, by decide, by decide, by decide⟩

theorem witness_StrayBeatsAreFlagged :
    (let s : State := run (setPort u0 63 port3); let p : ℕ := 63; p < nPorts s.u.v ∧ pdState s.u (pdCluster (p / 8)) ≠ 0 ∧ (port s.u p).state = 2) ∧
    (let s : State := run (setPort u0 63 { state := 1 }); let p : ℕ := 63; p < nPorts s.u.v ∧ pdState s.u (pdCluster (p / 8)) ≠ 0 ∧ (port s.u p).state ≠ 2 ∧ 3 < 4) ∧
    (∀ k, k < 16 → hCmd (hdrWord k 0 0 0 0 0) = k) := by
  decide

theorem witness_SliceWorkKeepsTheRest :
    (∃ t, exec (.lineReq 0 .none) (run (toSlice readPkt)) = .next t) ∧ (∃ t, exec (.lineWr 0 .none) (run (toSlice (writePkt false))) = .next t) ∧
    (∃ t, exec (.fillData 0 .none) (run (fillU { typ := .fillData })) = .next t) ∧ (∃ t, exec (.epochAck 15) (run u0) = .next t) :=
  ⟨⟨_, rfl⟩, ⟨_, rfl⟩, ⟨_, rfl⟩, ⟨_, rfl⟩⟩

theorem witness_LatchedStateHoldsUntilReset :
    (∃ t, step { State.reset with pending := [.trainOverrun] } = .next t ∧ ({ State.reset with pending := [.trainOverrun] } : State).pending.head? ≠ some .reset) ∧
    ∃ t, step { State.reset with ctl := { shutdown := true, bolts := 1 } } = .next t :=
  ⟨⟨_, rfl, by decide⟩, ⟨_, rfl⟩⟩

end Sys2Proof.Tests
end

section
/-! PROOF. What only RST_N clears stays over every other step. Two commands reach the latches of the mode machine: a write of GLB_DEADBOLT, which only adds bits (R16, R559), and a thermal reading at the shutdown level, which only sets the latch (R503). The life-cycle state is taken in LOAD alone (R519). Every other command moves the mode and its companions, or nothing of the mode machine. -/

namespace Sys2Proof.Machine

/-- No bolt is lost and a latched shutdown is not lost (R16, R503). -/
structure LatchesHold (c c' : Ctl) : Prop where
  bolts : ∀ b, c.bolts.getLsbD b = true → c'.bolts.getLsbD b = true
  shutdown : c.shutdown = true → c'.shutdown = true

/-- No latch is lost, and the life-cycle state in force is the same (R519). -/
structure LatchesKept (c c' : Ctl) : Prop extends LatchesHold c c' where
  lc : c'.lc = c.lc

namespace LatchesKept

theorem refl (c : Ctl) : LatchesKept c c := ⟨⟨fun _ h => h, id⟩, rfl⟩

theorem trans {a b c : Ctl} (h : LatchesKept a b) (h' : LatchesKept b c) : LatchesKept a c :=
  ⟨⟨fun i hi => h'.bolts i (h.bolts i hi), fun hs => h'.shutdown (h.shutdown hs)⟩, h'.lc.trans h.lc⟩

theorem enterMode (c : Ctl) (m : Mode) (k : Nat) : LatchesKept c (Machine.enterMode c m k) := ⟨⟨fun _ h => h, id⟩, rfl⟩

theorem drainFlags (c : Ctl) (d o : Bool) : LatchesKept c { c with drainDone := d, thermOff := o } := ⟨⟨fun _ h => h, id⟩, rfl⟩

theorem enterRun (c : Ctl) (k : Nat) : LatchesKept c (Machine.enterMode { c with drainDone := false } .run k) := ⟨⟨fun _ h => h, id⟩, rfl⟩

theorem addBolts (c : Ctl) (v : BitVec 14) : LatchesKept c { c with bolts := c.bolts ||| v } :=
  ⟨⟨fun b h => by simp [h], id⟩, rfl⟩

theorem latchShutdown (c : Ctl) : LatchesKept c { c with shutdown := true } := ⟨⟨fun _ h => h, fun _ => rfl⟩, rfl⟩

/-- Both branches of a conditional effect keep what the whole keeps. -/
theorem ite {p : Prop} [Decidable p] {c : Ctl} {a b : Ctl × Units} (ha : LatchesKept c a.1) (hb : LatchesKept c b.1) : LatchesKept c (if p then a else b).1 := by
  split
  · exact ha
  · exact hb

end LatchesKept

/-! ### The mode machine (the nesting of `.ite` below is that of each definition's branches) -/

theorem changeMode_kept (c : Ctl) (u : Units) (m : Mode) (k f : Nat) : LatchesKept c (changeMode c u m k f).1 := .enterMode c m k

theorem beginDrain_kept (c : Ctl) (u : Units) (k f : Nat) : LatchesKept c (beginDrain c u k f).1 := by
  rw [beginDrain_ctl]
  exact .enterMode ..

theorem settleMode_kept (c : Ctl) (u : Units) : LatchesKept c (settleMode c u).1 := by
  unfold settleMode
  split
  · exact .refl c
  · split
    · exact .ite (.enterMode ..) (.refl c)
    · exact .ite (.refl c) (.ite (.enterRun ..) (.refl c))
    · exact .ite (.refl c) (.ite (.enterRun ..) (.refl c))
    · exact .ite (.refl c) (.ite (.enterRun ..) (.refl c))
    · exact .ite (.refl c) (.refl c)
    · exact .refl c

theorem drainEnd_kept (c : Ctl) (u : Units) : LatchesKept c (drainEnd c u).1 :=
  (LatchesKept.drainFlags c true c.shutdown).trans (settleMode_kept ..)

theorem drainCompleteOp_kept (c : Ctl) (u : Units) : LatchesKept c (drainCompleteOp c u).1 :=
  .ite (.refl c) (.ite (drainEnd_kept ..) (.ite (.refl c) (.ite (.refl c) (drainEnd_kept ..))))

theorem drainTrigger_kept (c : Ctl) (u : Units) (k : Nat) : LatchesKept c (drainTrigger c u k).1 :=
  .ite (.refl c) (.ite (.refl c) (beginDrain_kept ..))

theorem pwrfailOp_kept (c : Ctl) (u : Units) : LatchesKept c (pwrfailOp c u).1 := .ite (.refl c) (drainTrigger_kept ..)

theorem hushEntryOp_kept (c : Ctl) (u : Units) : LatchesKept c (hushEntryOp c u).1 := .ite (.refl c) (.ite (.refl c) (.enterMode ..))

theorem wakeDoneOp_kept (c : Ctl) (u : Units) : LatchesKept c (wakeDoneOp c u).1 :=
  .ite (.refl c) (.ite (beginDrain_kept ..) (.enterMode ..))

theorem wakeOp_kept (c : Ctl) (u : Units) (e : WakeEvent) : LatchesKept c (wakeOp c u e).1 := by
  cases e with
  | pwrfail => exact .ite (pwrfailOp_kept ..) (.refl c)
  | _ => exact .refl c

/-! ### MODE_REQUEST -/

theorem acceptService_kept (c : Ctl) (u : Units) (r i : Nat) : LatchesKept c (acceptService c u r i).1 := settleMode_kept ..

theorem acceptRun_kept (c : Ctl) (u : Units) (r i : Nat) : LatchesKept c (acceptRun c u r i).1 := settleMode_kept ..

theorem drainToService_kept (c : Ctl) (u : Units) (r i : Nat) : LatchesKept c (drainToService c u r i).1 :=
  (LatchesKept.drainFlags c false c.thermOff).trans (.enterMode ..)

theorem requestMode_kept (c : Ctl) (u : Units) (r i : Nat) (m : Mode) : LatchesKept c (requestMode c u r i m).1 := by
  unfold requestMode
  dsimp only
  split
  · exact .ite (.refl c) (.refl c)
  · exact acceptService_kept ..
  · exact beginDrain_kept ..
  · exact .ite (.refl c) (beginDrain_kept ..)
  · exact .ite (.refl c) (acceptRun_kept ..)
  · exact .ite (acceptRun_kept ..) (.refl c)
  · exact .ite (drainToService_kept ..) (.refl c)
  · exact .refl c

theorem modeRequestOp_kept (m : Mode) (r i : Nat) (c : Ctl) (u : Units) : LatchesKept c (modeRequestOp m r i c u).1 := by
  unfold modeRequestOp
  split
  · exact .refl c
  · exact .ite (.refl c) (.ite (settleMode_kept ..) (.ite (.refl c) (.ite (.refl c) (.ite (.refl c) (.ite (.refl c) (requestMode_kept ..))))))

/-! ### Heat: the shutdown latch is set and never cleared (R503) -/

theorem shutdownOp_kept (c : Ctl) (u : Units) (i : Nat) : LatchesKept c (shutdownOp c u i).1 :=
  (LatchesKept.latchShutdown c).trans (.ite (.drainFlags ..) (drainTrigger_kept ..))

theorem thermalOp_kept (c : Ctl) (u : Units) (i : Nat) (t : BitVec 8) (v : Bool) : LatchesKept c (thermalOp c u i t v).1 :=
  .ite (.refl c) (.ite (shutdownOp_kept ..) (.refl c))

/-! ### LOAD, TRAIN and MOUNT -/

theorem failBoot_kept (c : Ctl) (u : Units) (k : Nat) : LatchesKept c (failBoot c u k).1 := ⟨⟨fun _ h => h, id⟩, rfl⟩

theorem failLoad_kept (c : Ctl) (u : Units) (k : Nat) : LatchesKept c (failLoad c u k).1 := failBoot_kept ..

theorem imageFound_kept (c : Ctl) (u : Units) : LatchesKept c (imageFound c u).1 := by
  unfold imageFound
  split
  · exact failLoad_kept ..
  · dsimp only
    split
    · exact failLoad_kept ..
    · exact .refl c

theorem spiEndOp_kept (c : Ctl) (u : Units) (e : SpiEnd) : LatchesKept c (spiEndOp c u e).1 := by
  unfold spiEndOp
  dsimp only
  split
  case h_2 => -- a read has ended: in LOAD the image is looked at
    exact .ite (imageFound_kept ..) (.refl c)
  all_goals exact .refl c

theorem loadHelloTimeoutOp_kept (c : Ctl) (u : Units) : LatchesKept c (loadHelloTimeoutOp c u).1 := .ite (failLoad_kept ..) (.refl c)

theorem loadCompleteOp_kept (c : Ctl) (u : Units) (l : List DimmFound) : LatchesKept c (loadCompleteOp c u l).1 :=
  .ite (changeMode_kept ..) (.refl c)

theorem trainFails_kept (c : Ctl) (u : Units) (ch : Nat) : LatchesKept c (trainFails c u ch).1 := .ite (failBoot_kept ..) (.refl c)

theorem poweredUp_kept (c : Ctl) (u : Units) (d : Nat) : LatchesKept c (poweredUp c u d).1 :=
  .ite (.refl c) (.ite (.refl c) (.ite (.refl c) (.ite (trainFails_kept ..) (.refl c))))

theorem upAckOp_kept (c : Ctl) (u : Units) (d : Nat) : LatchesKept c (upAckOp c u d).1 :=
  .ite (.refl c) (.ite (.refl c) ((poweredUp_kept c (switchOn (risen u d) d) d).trans (settleMode_kept ..)))

theorem stepTimeoutOp_kept (c : Ctl) (u : Units) (m : Bool) (ch step unit : Nat) : LatchesKept c (stepTimeoutOp c u m ch step unit).1 :=
  .ite (.refl c) (.ite (.ite (.refl c) (.ite (.refl c) (.refl c))) (.ite (.refl c) (.ite (trainFails_kept ..) (.refl c))))

theorem trainCompleteOp_kept (c : Ctl) (u : Units) (l : List TrainResult) : LatchesKept c (trainCompleteOp c u l).1 :=
  .ite (.refl c) (.ite (failBoot_kept ..) (changeMode_kept ..))

theorem trainOverrunOp_kept (c : Ctl) (u : Units) : LatchesKept c (trainOverrunOp c u).1 := .ite (failBoot_kept ..) (.refl c)

theorem mountCompleteOp_kept (c : Ctl) (u : Units) (f : MountFound) : LatchesKept c (mountCompleteOp c u f).1 := by
  refine .ite (.refl c) (.ite (failBoot_kept ..) ?_)
  dsimp only
  split
  · exact .ite (failBoot_kept ..) (settleMode_kept ..)
  · exact .ite (failBoot_kept ..) (settleMode_kept ..)

/-- LOAD takes the life-cycle state of the record found, and keeps the latches. -/
theorem loadOp_latches (c : Ctl) (u : Units) (x : BootOutcome) : LatchesHold c (loadOp c u x).1 := by
  unfold loadOp
  split
  · exact (LatchesKept.refl c).toLatchesHold
  · exact ⟨fun _ h => h, id⟩

/-! ### The register port: a write of GLB_DEADBOLT adds bolts, and no other access reaches the mode machine (R16, R559) -/

theorem regWrite_kept (c : Ctl) (u : Units) (r : Reg) (i j v : Nat) : LatchesKept c (regWrite c u r i j v).1 := by
  unfold regWrite
  split
  case h_1 => exact .addBolts .. -- GLB_DEADBOLT
  all_goals exact .refl c

theorem instWrite_kept (c : Ctl) (u : Units) (r : Reg) (i j v : Nat) : LatchesKept c (instWrite c u r i j v).1 :=
  .ite (regWrite_kept ..) (.refl c)

theorem bitWrite_kept (c : Ctl) (u : Units) (r : Reg) (i j b v : Nat) : LatchesKept c (bitWrite c u r i j b v).1 :=
  .ite (instWrite_kept ..) (.ite (instWrite_kept ..) (.ite (instWrite_kept ..) (.refl c)))

theorem writePlace_kept (c : Ctl) (u : Units) (p : Place) (v : Nat) : LatchesKept c (writePlace c u p v).1 := by
  unfold writePlace
  split
  · exact instWrite_kept ..
  · exact .refl c
  · exact bitWrite_kept ..
  · exact .refl c

theorem driverAccess_kept (c : Ctl) (u : Units) (w : Bool) (p : Place) (a v : Nat) : LatchesKept c (driverAccess c u w p a v).1 :=
  .ite (writePlace_kept c u p v) (.refl c)

theorem placeAccess_kept (c : Ctl) (u : Units) (w user : Bool) (p : Place) (a v : Nat) : LatchesKept c (placeAccess c u w user p a v).1 :=
  .ite (.refl c) (.ite (.refl c) (.ite (.refl c) (driverAccess_kept ..)))

theorem accessOp_kept (w user : Bool) (a v : Nat) (c : Ctl) (u : Units) : LatchesKept c (accessOp w user a v c u).1 := placeAccess_kept ..

theorem writeNamed_kept (r : Reg) (i v : Nat) (c : Ctl) (u : Units) : LatchesKept c (writeNamed r i v c u).1 :=
  .ite (placeAccess_kept ..) (.refl c)

theorem accesses_kept (l : List RegAcc) (x : Ctl × Units) :
    LatchesKept x.1 (l.foldl (fun (x : Ctl × Units) a => accessOp a.write a.user a.addr a.value.toNat x.1 x.2) x).1 := by
  induction l generalizing x with
  | nil => exact .refl _
  | cons a l ih => exact (accessOp_kept ..).trans (ih _)

theorem heldAccesses_kept (c : Ctl) (u : Units) : LatchesKept c (heldAccesses c u).1 := accesses_kept u.pwr.held (c, _)

theorem wakeCompleteOp_kept (c : Ctl) (u : Units) : LatchesKept c (wakeCompleteOp c u).1 :=
  (wakeDoneOp_kept c u).trans (.ite (.refl _) (heldAccesses_kept ..))

/-! ### Steps -/

theorem tickOp_kept (c : Ctl) (u : Units) : LatchesKept c (tickOp c u).1 := .ite (.refl c) (settleMode_kept ..)

/-- A next state keeps the latches where its mode machine does; a meaning on the units alone leaves the mode machine as it is. -/
theorem next_kept {s t : State} {c : Ctl} {x : Units} (h : (.next { s with ctl := c, u := x } : Host.Outcome State Fault Refusal) = .next t)
    (hc : LatchesKept s.ctl c) : LatchesKept s.ctl t.ctl := by
  rw [← Host.Outcome.next.inj h]
  exact hc

theorem execLoad_latches {x : BootOutcome} {s t : State} (h : exec (.load x) s = .next t) : LatchesHold s.ctl t.ctl := by
  rw [exec_load] at h
  rw [onBoth_inj h]
  exact loadOp_latches ..

/-- Of the commands but RESET and LOAD, those named here reach the mode machine; every other changes the units alone. -/
theorem exec_kept {i : Instr} {s t : State} (h : exec i s = .next t) (hr : i ≠ .reset) (hl : ∀ x, i ≠ .load x) : LatchesKept s.ctl t.ctl := by
  cases i with
  | reset => exact absurd rfl hr
  | load x => exact absurd rfl (hl x)
  | modeRequestRun | modeRequestHush | modeRequestDrain | modeRequestService => exact next_kept h (modeRequestOp_kept ..)
  | hushEntryComplete => exact next_kept h (hushEntryOp_kept ..)
  | wake => exact next_kept h (wakeOp_kept ..)
  | wakeComplete => exact next_kept h (wakeCompleteOp_kept ..)
  | pwrfail => exact next_kept h (pwrfailOp_kept ..)
  | drainComplete => exact next_kept h (drainCompleteOp_kept ..)
  | thermalReading => exact next_kept h (thermalOp_kept ..)
  | loadComplete => exact next_kept h (loadCompleteOp_kept ..)
  | loadHelloTimeout => exact next_kept h (loadHelloTimeoutOp_kept ..)
  | trainStepTimeout => exact next_kept h (stepTimeoutOp_kept ..)
  | trainComplete => exact next_kept h (trainCompleteOp_kept ..)
  | trainOverrun => exact next_kept h (trainOverrunOp_kept ..)
  | mountComplete => exact next_kept h (mountCompleteOp_kept ..)
  | pdUpAck => exact next_kept h (upAckOp_kept ..)
  | serialMemoryOperationEnd => exact next_kept h (spiEndOp_kept ..)
  | ctxCmdRead | hngCmdRead | reopen | ddr5SchedWrite | mntRankWrite | mntByeWrite | sqDoorbell | cqDoorbell | ntDoorbell | ringReset
  | noticeRingReset | irqMaskWrite | deadbolt | latchHold | unitResetTele | unitResetRings => exact next_kept h (writeNamed_kept ..)
  | teleCntLoRead => exact next_kept h (.ite (placeAccess_kept ..) (.refl _))
  | bitAliasWrite => exact next_kept h (.ite (accessOp_kept ..) (.refl _))
  | userAccess | registerWrite | unmappedAccess => exact next_kept h (accessOp_kept ..)
  | _ => exact next_kept h (.refl _)

theorem step_nil {s : State} (hp : s.pending = []) : step s = onBoth s tickOp := by
  unfold step
  rw [hp]

theorem step_cons {s : State} {i : Instr} {rest : List Instr} (hp : s.pending = i :: rest) : step s = exec i { s with pending := rest } := by
  unfold step
  rw [hp]

/-- Settles O60: the queue is empty and the step is a tick, or the command at its front is LOAD, which keeps the latches, or neither LOAD nor RESET. -/
theorem latchedStateHoldsUntilReset : Obligations.LatchedStateHoldsUntilReset := by
  unfold Obligations.LatchedStateHoldsUntilReset
  intro s t h hr
  cases hp : s.pending with
  | nil =>
    rw [step_nil hp] at h
    have k : LatchesKept s.ctl t.ctl := next_kept h (tickOp_kept ..)
    exact ⟨k.bolts, k.shutdown, fun _ => k.lc⟩
  | cons i rest =>
    rw [step_cons hp] at h
    have hi : i ≠ .reset := fun e => hr (by rw [hp, e]; rfl)
    by_cases hl : ∃ x, i = .load x
    · obtain ⟨x, rfl⟩ := hl
      have k := execLoad_latches h
      exact ⟨k.bolts, k.shutdown, fun hn => absurd rfl (hn x)⟩
    · have k := exec_kept h hi fun x e => hl ⟨x, e⟩
      exact ⟨k.bolts, k.shutdown, fun _ => k.lc⟩

end Sys2Proof.Machine
end

section
/-! PROOF. Beats that break the protocol of a port: KIND 0b11 on an open port (R89), and any beat while READY is low (R72). The first sets its error bit, makes an open request short and lets the cluster go on, none of which clears the bit or awaits data again; the second is a port fault and nothing else, whatever the beat carries. -/

namespace Sys2Proof.Machine

/-! ### Faults of a port and its error bits -/

theorem port_portFault (u : Units) (p b o q : Nat) : port (portFault u p b o) q = port u q := by simp [port]

/-- A port fault sets its own bit of PORT_n_ERR. -/
theorem portFault_sets_bit (u : Units) (p o : Nat) {b : Nat} (hp : p < nPorts u.v) (hb : b < 32) :
    nbits (rawReg (portFault u p b o) .PORT_n_ERR p 0) b 1 = 1 := by
  rw [portErr_portFault u p b o (Nat.lt_of_lt_of_le hp (nPorts_le u.v))]
  exact nbits_or_pow _ b hb

/-! ### KIND 0b11 on an open port (R89) -/

theorem badKindOp_open (c : Ctl) (u : Units) (p : Nat) (hp : p < nPorts u.v) (hd : pdState u (pdCluster (p / 8)) ≠ 0) (h2 : (port u p).state = 2) :
    getF (badKindOp c u p) F.PORT_n_ERR_bad_kind p = 1 ∧ (port (badKindOp c u p) p).ingress = .idle ∧
    (port (badKindOp c u p) p).state = 2 ∧ (port (badKindOp c u p) p).next = (port u p).next := by
  have hp64 : p < 64 := Nat.lt_of_lt_of_le hp (nPorts_le u.v)
  unfold badKindOp
  extract_lets q faulted idle
  rw [if_neg (by omega), if_neg (not_not_intro h2)]
  obtain ⟨short2, shortNext, shortBit⟩ := makeShort_open c faulted p hp64 (by rw [port_portFault]; exact h2)
  have idlePort : port idle p = { port (makeShort c faulted p) p with ingress := .idle } := port_setPort_same ..
  have steady : PumpSteady idle (pump c idle p) := .pump c idle p
  obtain ⟨pump2, pumpNext, -, pumpIngress⟩ := steady.port p (by rw [idlePort]; exact short2)
  refine ⟨?_, ?_, pump2, ?_⟩
  · show nbits (rawReg (pump c idle p) .PORT_n_ERR p 0) 3 1 = 1
    rw [portErr_steady steady p hp64]
    exact shortBit (portFault_sets_bit u p _ hp (by decide))
  · rw [pumpIngress, idlePort]
  · rw [pumpNext, idlePort]
    exact shortNext.trans (by rw [port_portFault])

/-! ### Beats while READY is low (R72) -/

/-- Port p exists, its cluster has power, and it is not open. -/
structure ReadyLow (u : Units) (p : Nat) : Prop where
  lt : p < nPorts u.v
  powered : pdState u (pdCluster (p / 8)) ≠ 0
  low : (port u p).state ≠ 2

/-- The arrival of a beat may wake the block; it opens no port and cuts no power. -/
theorem ReadyLow.beatSeen {u : Units} {p : Nat} (h : ReadyLow u p) (c : Ctl) (b : Bool) : ReadyLow (Machine.beatSeen c u p b) p := by
  obtain ⟨w, hw⟩ := beatSeen_frame c u p b
  rw [hw]
  exact ⟨h.lt, h.powered, h.low⟩

theorem badKindOp_readyLow {u : Units} {p : Nat} (h : ReadyLow u p) (c : Ctl) : badKindOp c u p = portFault u p 9 (port u p).next := by
  have := h.lt
  have := h.powered
  unfold badKindOp
  rw [if_neg (by omega), if_pos h.low]

theorem dataBeatOp_readyLow {u : Units} {p pool : Nat} (h : ReadyLow u p) (hk : pool < 4) (c : Ctl) (d : BitVec 256) (par : BitVec 32) :
    dataBeatOp c u p pool d par = portFault u p 9 (port u p).next := by
  have := h.lt
  have := h.powered
  unfold dataBeatOp
  rw [if_neg (by omega), if_pos h.low]

theorem headerBeat_readyLow {u : Units} {p pool : Nat} (h : ReadyLow u p) (hk : pool < 4) (c : Ctl) (hdr : BitVec 128) :
    headerBeat c u p pool hdr = portFault u p 9 (port u p).next := by
  have := h.lt
  have := h.powered
  unfold headerBeat
  rw [if_neg (by omega), if_pos h.low]

/-- The beat of command i is discarded by port p: ports, network and mode machine stay, nothing is presented (so no credit is returned), and PORT_n_ERR.not_ready stands. -/
def Discarded (s : State) (p : Nat) (i : Instr) : Prop :=
  ∃ t, exec i s = .next t ∧ t.ctl = s.ctl ∧ t.u.ports = s.u.ports ∧ t.u.net = s.u.net ∧ t.u.out = [] ∧ getF t.u F.PORT_n_ERR_not_ready p = 1

/-- A command that does nothing but see a beat and flag it not_ready discards it. -/
theorem discarded_of_fault {s : State} {p o : Nat} {i : Instr} {f : Ctl → Units → Units} {b : Bool} (hp : p < nPorts s.u.v)
    (hi : exec i s = onU s f) (hf : f s.ctl (fresh s) = portFault (beatSeen s.ctl (fresh s) p b) p 9 o) : Discarded s p i := by
  obtain ⟨w, hw⟩ := beatSeen_frame s.ctl (fresh s) p b
  rw [hw] at hf
  refine ⟨_, hi.trans (onU_next hf), rfl, portFault_ports .., portFault_net .., portFault_out .., ?_⟩
  exact portFault_sets_bit { fresh s with pwr := w } p o hp (by decide)

section
variable {s : State} {p : Nat} (h : ReadyLow s.u p)
include h

/-- The outputs of the command before do not matter to a port. -/
theorem readyLow_seen (b : Bool) : ReadyLow (beatSeen s.ctl (fresh s) p b) p :=
  ReadyLow.beatSeen (u := fresh s) ⟨h.lt, h.powered, h.low⟩ s.ctl b

theorem badKind_discarded : Discarded s p (.badKind p) :=
  discarded_of_fault h.lt (exec_badKind p s) (badKindOp_readyLow (readyLow_seen h false) s.ctl)

theorem dataBeat_discarded {pool : Nat} (hk : pool < 4) (d : BitVec 256) (par : BitVec 32) : Discarded s p (.dataBeat p pool d par) :=
  discarded_of_fault h.lt (exec_dataBeat p pool d par s) (dataBeatOp_readyLow (readyLow_seen h false) hk s.ctl d par)

/-- A header is discarded before its command is looked at: every command whose own test (`own`) the header passes discards it. -/
theorem header_discarded {pool : Nat} (hk : pool < 4) {hdr : BitVec 128} {i : Instr} {own : Prop} [Decidable own]
    (hi : exec i s = onU s fun c u => if own then headerOp c u p pool hdr else u) (ho : own) : Discarded s p i :=
  discarded_of_fault h.lt hi ((if_pos ho).trans (headerBeat_readyLow (readyLow_seen h true) hk s.ctl hdr))

end

/-- Settles O4: an open port goes through `badKindOp_open`; where READY is low each beat is discarded, headers of every command by the one lemma `header_discarded`. -/
theorem strayBeatsAreFlagged : Obligations.StrayBeatsAreFlagged := by
  unfold Obligations.StrayBeatsAreFlagged
  intro s p hp hd
  constructor
  · intro h2
    obtain ⟨w, hw⟩ := beatSeen_frame s.ctl (fresh s) p false
    have opened := badKindOp_open s.ctl { fresh s with pwr := w } p hp hd h2
    exact ⟨_, (exec_badKind p s).trans (onU_next (congrArg (badKindOp s.ctl · p) hw)), opened⟩
  · intro low pool hdr d par hk
    have h : ReadyLow s.u p := ⟨hp, hd, low⟩
    refine ⟨badKind_discarded h, dataBeat_discarded h hk d par, ?_, ?_, ?_, ?_, ?_, ?_⟩
    · exact header_discarded h hk (exec_read p pool hdr s)
    · exact header_discarded h hk (exec_write p pool hdr s)
    · exact header_discarded h hk (exec_writeMasked p pool hdr s)
    · exact header_discarded h hk (exec_prefetch p pool hdr s)
    · exact header_discarded h hk (exec_flush p pool hdr s)
    · intro hc
      exact header_discarded h hk (exec_flushAll p pool hdr s) (by omega)

end Sys2Proof.Machine
end

section
/-! PROOF. The doorbells of the rings (R448, R449, R469). A doorbell is a register write that reaches the ring engine at once; it either moves one index of its ring or is discarded, and a discarded one does nothing but set its doorbell flag, which stands outside the rings. -/

namespace Sys2Proof.Machine

/-! ### What a doorbell does to the units -/

/-- A tail inside a ring that runs or is in error, and outside the fetched range, is the new tail: where it is the present one, the ring stays as it is. -/
theorem sqDoorbellOp_takes {u : Units} {r t : Nat} (ht : t < sqSize u r) (hs : (ring u r).state = 1 ∨ (ring u r).state = 3)
    (hf : inFetched u r t = false) : ring (sqDoorbellOp u r t) r = { ring u r with tail := t } := by
  unfold sqDoorbellOp
  rw [if_neg (by omega)]
  by_cases same : t = (ring u r).tail
  · rw [if_pos same, same]
  · rw [if_neg same, if_neg (by simp [hf]), ring_setRing_same]

theorem sqDoorbellOp_discards {u : Units} {r t : Nat}
    (h : sqSize u r ≤ t ∨ (ring u r).state = 0 ∨ (ring u r).state = 2 ∨ (t ≠ (ring u r).tail ∧ inFetched u r t = true)) :
    sqDoorbellOp u r t = flag u F.RNG_r_ERR_doorbell r := by
  unfold sqDoorbellOp
  by_cases barred : sqSize u r ≤ t ∨ (ring u r).state = 0 ∨ (ring u r).state = 2
  · rw [if_pos barred]
  · obtain ⟨moved, fetched⟩ : t ≠ (ring u r).tail ∧ inFetched u r t = true := by tauto
    rw [if_neg barred, if_neg moved, if_pos fetched]

theorem cqDoorbellOp_takes {u : Units} {r h : Nat} (hh : h < cqSize u r)
    (hu : (h + cqSize u r - (ring u r).head) % cqSize u r ≤ (ring u r).cqUsed) (hs : (ring u r).state ≠ 2) :
    ring (cqDoorbellOp u r h) r =
      { ring u r with head := h, cqUsed := (ring u r).cqUsed - (h + cqSize u r - (ring u r).head) % cqSize u r } := by
  unfold cqDoorbellOp
  rw [if_neg (by omega), ring_setRing_same]

theorem cqDoorbellOp_discards {u : Units} {r h : Nat}
    (hd : cqSize u r ≤ h ∨ (ring u r).cqUsed < (h + cqSize u r - (ring u r).head) % cqSize u r ∨ (ring u r).state = 2) :
    cqDoorbellOp u r h = flag u F.RNG_r_ERR_doorbell r := if_pos hd

theorem ntDoorbellOp_takes {u : Units} {h : Nat} (hh : h < ntSize u) (hu : (h + ntSize u - u.rings.ntHead) % ntSize u ≤ u.rings.ntUsed) :
    (ntDoorbellOp u h).rings =
      { u.rings with ntHead := h, ntUsed := u.rings.ntUsed - (h + ntSize u - u.rings.ntHead) % ntSize u } := by
  unfold ntDoorbellOp
  rw [if_neg (by omega)]

theorem ntDoorbellOp_discards {u : Units} {h : Nat} (hd : ntSize u ≤ h ∨ u.rings.ntUsed < (h + ntSize u - u.rings.ntHead) % ntSize u) :
    ntDoorbellOp u h = flag u F.RNG_NT_ERR_doorbell := if_pos hd

/-! ### The doorbell commands -/

/-- The state once a register write has left the units `u`: its data beat answers the write. -/
def answered (s : State) (u : Units) : State := { s with u := present u (.regData 0) }

section
variable {s : State} {r : Nat}

theorem exec_sqDoorbell_reaches (h : reaches s.ctl s.u .RNG_r_SQ_TAIL r) (v : Word) :
    exec (.sqDoorbell r v) s = .next (answered s (sqDoorbellOp (noted s) r (v.toNat % 65536))) := by
  rw [exec_sqDoorbell, execSqDoorbell, writeNamed_reaches h, BitVec.toNat_mod_cancel]
  rfl

theorem exec_cqDoorbell_reaches (h : reaches s.ctl s.u .RNG_r_CQ_HEAD r) (v : Word) :
    exec (.cqDoorbell r v) s = .next (answered s (cqDoorbellOp (noted s) r (v.toNat % 65536))) := by
  rw [exec_cqDoorbell, execCqDoorbell, writeNamed_reaches h, BitVec.toNat_mod_cancel]
  rfl

theorem exec_ntDoorbell_reaches (h : reaches s.ctl s.u .RNG_NT_HEAD 0) (v : Word) :
    exec (.ntDoorbell v) s = .next (answered s (ntDoorbellOp (noted s) (v.toNat % 65536))) := by
  rw [exec_ntDoorbell, execNtDoorbell, writeNamed_reaches h, BitVec.toNat_mod_cancel]
  rfl

/-- A command that does nothing but set a flag keeps the rings and leaves its flag standing. -/
theorem flagged_of_exec {i : Instr} {u : Units} {f : Fld} (hi : exec i s = .next (answered s u)) (hu : u = flag (noted s) f r)
    (hf : f.lo + f.w ≤ 32) (hw : 0 < f.w) : ∃ t, exec i s = .next t ∧ t.u.rings = s.u.rings ∧ getF t.u f r = 1 :=
  ⟨_, hi, hu ▸ flag_rings (noted s) f r 0, hu ▸ getF_flag_same (noted s) f r 0 hf hw⟩

/-- The same for one ring. -/
theorem ringFlagged_of_exec {i : Instr} {u : Units} (hi : exec i s = .next (answered s u)) (hu : u = flag (noted s) F.RNG_r_ERR_doorbell r) :
    ∃ t, exec i s = .next t ∧ ring t.u r = ring s.u r ∧ getF t.u F.RNG_r_ERR_doorbell r = 1 := by
  obtain ⟨t, ht, kept, flagged⟩ := flagged_of_exec hi hu (by decide) (by decide)
  exact ⟨t, ht, ring_congr (congrArg Rings.ring kept) r, flagged⟩

end

/-- Settles O26: each doorbell is its operation on the units (`exec_sqDoorbell_reaches` and its two fellows), which takes the index or is a flag alone. -/
theorem doorbellsMoveTheRings : Obligations.DoorbellsMoveTheRings := by
  unfold Obligations.DoorbellsMoveTheRings
  intro s r v x n q gone away
  refine ⟨fun reached => ?_, fun reached => ?_, fun reached => ?_⟩
  · have rung := exec_sqDoorbell_reaches reached v
    constructor
    · intro inside running unfetched
      exact ⟨_, rung, congrArg Ring.tail (sqDoorbellOp_takes (u := noted s) inside running unfetched)⟩
    · intro bad
      exact ringFlagged_of_exec rung (sqDoorbellOp_discards (u := noted s) bad)
  · have rung := exec_cqDoorbell_reaches reached v
    constructor
    · intro inside written live
      exact ⟨_, rung, cqDoorbellOp_takes (u := noted s) inside written live⟩
    · intro bad
      exact ringFlagged_of_exec rung (cqDoorbellOp_discards (u := noted s) bad)
  · have rung := exec_ntDoorbell_reaches reached v
    constructor
    · intro inside written
      exact ⟨_, rung, ntDoorbellOp_takes (u := noted s) inside written⟩
    · intro bad
      exact flagged_of_exec rung (ntDoorbellOp_discards (u := noted s) bad) (by decide) (by decide)

end Sys2Proof.Machine
end

section
/-! PROOF. A header beat of an open port: it is accepted as a request (R49, R66, R73), and a request that nothing holds back leaves for transit in the same step (R37, R58, R109). The six commands differ in their own test of CMD alone, so each goes through `header_exec`. -/

namespace Sys2Proof.Machine

/-- A step with a command at the front of its queue carries that command out: `step_cons` at a queue written out. -/
theorem step_front (c : Instr) (s : State) (rest : List Instr) : step { s with pending := c :: rest } = exec c { s with pending := rest } :=
  step_cons rfl

/-- Settles O59: `step_front`. -/
theorem stepRunsTheFront : Obligations.StepRunsTheFront := step_front

/-- A header beat with the CMD of its command is judged as a header; its arrival may wake the block, and changes nothing else. -/
theorem header_exec {s : State} {p pool : Nat} {h : BitVec 128} {i : Instr} {own : Prop} [Decidable own] (hp : p < nPorts s.u.v)
    (hi : exec i s = onU s fun c u => if own then headerOp c u p pool h else u) (ho : own) :
    ∃ w, w.hushing = s.u.pwr.hushing ∧ exec i s = .next { s with u := headerBeat s.ctl { fresh s with pwr := w } p pool h } := by
  obtain ⟨w, hw, hush⟩ := beatSeen_run (c := s.ctl) (u := fresh s) (p := p) true hp
  refine ⟨w, hush, hi.trans (onU_next ?_)⟩
  rw [if_pos ho, headerOp, hw]

/-- Settles O1: whatever the command, `header_exec` leaves the judging to `headerBeat`, which accepts (`header_accepted`). -/
theorem headerAccepted : Obligations.HeaderAccepted := by
  unfold Obligations.HeaderAccepted
  intro s p pool h hp hk hd h2 hi hc hh hn accepted
  have all {i : Instr} {own : Prop} [Decidable own] (hx : exec i s = onU s fun c u => if own then headerOp c u p pool h else u) (ho : own) : accepted i := by
    obtain ⟨w, -, run⟩ := header_exec hp hx ho
    exact ⟨_, run, rfl, header_accepted s.ctl { fresh s with pwr := w } p pool h hp hk hd h2 hi hc hh hn⟩
  exact ⟨all (exec_read p pool h s), all (exec_write p pool h s), all (exec_writeMasked p pool h s), all (exec_prefetch p pool h s),
    all (exec_flush p pool h s), fun h6 => all (exec_flushAll p pool h s) (.inl h6)⟩

/-- What goes through a port does not depend on the arrival of its beat: only the inputs of the power unit differ. -/
theorem goesThrough_seen {s : State} {p : Nat} {h : BitVec 128} (g : goesThrough s.ctl s.u p h) {w : Pwr} (hw : w.hushing = s.u.pwr.hushing) :
    goesThrough s.ctl { fresh s with pwr := w } p h :=
  goesThrough_congr (u := s.u) rfl hw rfl rfl rfl rfl rfl g

/-- A header that nothing holds back and that awaits no data has its request injected in the same step. -/
theorem header_injects {s : State} {p pool : Nat} {h : BitVec 128} {i : Instr} {own : Prop} [Decidable own] (hp : p < nPorts s.u.v) (hk : pool < 4)
    (hd : pdState s.u (pdCluster (p / 8)) ≠ 0) (h2 : (port s.u p).state = 2) (hi : (port s.u p).ingress = .idle)
    (hc : 0 < tabGet (port s.u p).hdrCred pool) (hh : hcheckOk h = true) (hn : dataUnits (hCmd h) = 0) (h6 : hCmd h ≠ 6)
    (g : goesThrough s.ctl s.u p h) (hq : clusterStill s.u (p / 8)) (hs : standsAlone (port s.u p) h (port s.u p).next)
    (hx : exec i s = onU s fun c u => if own then headerOp c u p pool h else u) (ho : own) :
    ∃ t x y, exec i s = .next t ∧ (∀ k ∈ (injectReq x p y).net, k ∈ t.u.net) ∧ (∀ e l, lineSlice x e l = lineSlice s.u e l) ∧ y.hdr = h ∧
      y.ord = (port s.u p).next ∧ y.epoch = some s.u.regs.epoch ∧ y.prio = classPrio s.u p (portClass s.u p) := by
  obtain ⟨w, hush, run⟩ := header_exec hp hx ho
  obtain ⟨x, y, ⟨l, net⟩, core, yh, yo, ye, yp, -⟩ :=
    headerBeat_injects (c := s.ctl) (u := { fresh s with pwr := w }) hp hk hd h2 hi hc hh hn h6 (goesThrough_seen g hush) hq hs
  refine ⟨_, x, y, run, fun k hk => ?_, lineSlice_core (u := { fresh s with pwr := w }) core, yh, yo, ye, yp⟩
  rw [net]
  exact List.mem_append_left l hk

/-- Settles O2: the request becomes ready and is injected in the same step (`header_injects`); the packet is that of its command. -/
theorem headerLeavesForTransit : Obligations.HeaderLeavesForTransit := by
  unfold Obligations.HeaderLeavesForTransit
  intro s p pool h hp hk hd h2 hi hc hh g hq hs sent home
  have inject {i : Instr} {own : Prop} [Decidable own] (hn : dataUnits (hCmd h) = 0) (h6 : hCmd h ≠ 6) :=
    header_injects (i := i) (own := own) hp hk hd h2 hi hc hh hn h6 g hq hs
  refine ⟨fun h1 => ?_, fun h4 => ?_, fun h5 => ?_⟩
  · obtain ⟨t, x, y, run, net, slice, yh, yo, ye, yp⟩ := inject (by rw [h1]; rfl) (by omega) (exec_read p pool h s) h1
    obtain ⟨k, mem, typ, kind, src, dst, prio, epoch, lla, prt, ord⟩ := injectReq_lineReq x p y (.inl (yh ▸ h1))
    simp only [yh, ye, yo, yp, slice, h1, Option.getD_some, if_true] at *
    exact ⟨t, k, run, ⟨net k mem, src, prio, epoch, prt, ord⟩, typ, kind, dst, lla⟩
  · obtain ⟨t, x, y, run, net, slice, yh, yo, ye, yp⟩ := inject (by rw [h4]; rfl) (by omega) (exec_prefetch p pool h s) h4
    obtain ⟨k, mem, typ, kind, src, dst, prio, epoch, lla, prt, ord⟩ := injectReq_lineReq x p y (.inr (.inl (yh ▸ h4)))
    simp only [yh, ye, yo, yp, slice, h4, Option.getD_some] at *
    exact ⟨t, k, run, ⟨net k mem, src, prio, epoch, prt, ord⟩, typ, kind, dst, lla⟩
  · obtain ⟨t, x, y, run, net, slice, yh, yo, ye, yp⟩ := inject (by rw [h5]; rfl) (by omega) (exec_flush p pool h s) h5
    obtain ⟨k, mem, typ, src, dst, prio, epoch, prt, ord, handle⟩ := injectReq_flush x p y (.inl (yh ▸ h5))
    simp only [yh, ye, yo, yp, h5, Option.getD_some, if_true] at *
    exact ⟨t, k, run, ⟨net k mem, src, prio, epoch, prt, ord⟩, typ, dst, handle⟩

end Sys2Proof.Machine
end

section
/-! PROOF. A DATA beat of an open request (R54, R55): it is taken as the next data unit, and the last unit of a request that nothing holds back sends it on (R41, R84). -/

namespace Sys2Proof.Machine

section
variable {u : Units} {p pool ord : Nat}

theorem port_spendData_same (u : Units) (p pool : Nat) :
    port (spendData u p pool) p = { port u p with dataCred := tabPut (port u p).dataCred pool (tabGet (port u p).dataCred pool - 1) } :=
  port_setPort_same ..

theorem port_spendData_other {q : Nat} (hq : q ≠ p) : port (spendData u p pool) q = port u q := port_setPort_other _ _ hq

/-- A DATA beat of the open request, which finds its credit: the credit is spent and the request takes the unit. -/
theorem dataBeatOp_taking (c : Ctl) (hp : p < nPorts u.v) (hk : pool < 4) (hd : pdState u (pdCluster (p / 8)) ≠ 0) (h2 : (port u p).state = 2)
    (hi : (port u p).ingress = .taking ord) (hc : 0 < tabGet (port u p).dataCred pool) (d : BitVec 256) (par : BitVec 32) :
    dataBeatOp c u p pool d par = pump c (takeData c (spendData u p pool) p pool ord d par) p := by
  unfold dataBeatOp
  dsimp only
  rw [if_neg (by omega), if_neg (not_not_intro h2), hi]
  simp only [if_neg (Nat.ne_of_gt hc)]

/-- A DATA beat may wake the block; it is then judged, and changes nothing else. -/
theorem dataBeat_exec {s : State} (hp : p < nPorts s.u.v) (d : BitVec 256) (par : BitVec 32) :
    ∃ w, w.hushing = s.u.pwr.hushing ∧ exec (.dataBeat p pool d par) s = .next { s with u := dataBeatOp s.ctl { fresh s with pwr := w } p pool d par } := by
  obtain ⟨w, hw, hush⟩ := beatSeen_run (c := s.ctl) (u := fresh s) (p := p) false hp
  exact ⟨w, hush, (exec_dataBeat p pool d par s).trans (onU_next (by rw [hw]))⟩

/-- A cluster whose requests awaited data or were in transit is still once one port's requests do so again. -/
theorem clusterStill_of_port {x : Units} (h : clusterStill u (p / 8)) (same : ∀ q, q ≠ p → port x q = port u q)
    (here : ∀ r ∈ (port x p).reqs, r.phase = .data ∨ r.phase = .sent) : clusterStill x (p / 8) := by
  intro i hi r hr
  by_cases e : p / 8 * 8 + i = p
  · exact here r (e ▸ hr)
  · exact h i hi r (by rwa [same _ e] at hr)

theorem clusterStill.port_reqs (h : clusterStill u (p / 8)) : ∀ r ∈ (port u p).reqs, r.phase = .data ∨ r.phase = .sent := by
  intro r hr
  exact h (p % 8) (Nat.mod_lt _ (by decide)) r (by rwa [show p / 8 * 8 + p % 8 = p by omega])

theorem clusterStill.spendData (h : clusterStill u (p / 8)) (pool : Nat) : clusterStill (spendData u p pool) (p / 8) :=
  clusterStill_of_port h (fun _ hq => port_spendData_other hq) fun r hr => h.port_reqs r (by rwa [port_spendData_same] at hr)

theorem goesThrough.spendData {c : Ctl} {h : BitVec 128} (g : goesThrough c u p h) (pool : Nat) : goesThrough c (spendData u p pool) p h :=
  goesThrough_congr (u := u) rfl rfl (by rw [port_spendData_same]) (by rw [port_spendData_same]) rfl rfl rfl g

end

/-- A good data unit that is not the last stays with its request, which awaits the next one. -/
theorem takeData_awaits {c : Ctl} {u : Units} {p pool : Nat} {d : BitVec 256} {par : BitVec 32} {A B : List Req} {r : Req}
    (hr : (port u p).reqs = A ++ r :: B) (hAB : ∀ z ∈ A ++ B, z.ord ≠ r.ord) (hp : pool = r.pool) (hd : dparOk d par = true) (hph : r.phase = .data)
    (hq : clusterStill u (p / 8)) (hl : r.data.length + 1 < dataUnits (hCmd r.hdr)) :
    port (pump c (takeData c u p pool r.ord d par) p) p =
      { port u p with reqs := A ++ { r with data := r.data ++ [d], dataPools := r.dataPools ++ [pool] } :: B } := by
  obtain ⟨x, took, here, same, -⟩ := takeData_good (c := c) hr hAB hp hd
  rw [took, if_pos (by simpa using hl), pump_still, here]
  refine clusterStill_of_port hq same fun z hz => ?_
  rw [here] at hz
  have old : ∀ w ∈ A ++ B, w.phase = .data ∨ w.phase = .sent := fun w hw => hq.port_reqs w (by rw [hr]; simp at hw ⊢; tauto)
  rcases List.mem_append.mp hz with hz | hz
  · exact old z (List.mem_append_left _ hz)
  · rcases List.mem_cons.mp hz with rfl | hz
    · exact .inl hph
    · exact old z (List.mem_append_right _ hz)

/-- Settles O3: a unit that is not the last is `takeData_awaits`; the last one injects the request (`takeData_injects`), and the packet is that of its command. -/
theorem dataBeatTaken : Obligations.DataBeatTaken := by
  unfold Obligations.DataBeatTaken
  intro s p pool ord d par A B r hp hk hd h2 hi hr ho hph hAB hc hpool hpar hq
  subst ho
  obtain ⟨w, hush, run⟩ := dataBeat_exec (pool := pool) hp d par
  let v : Units := { fresh s with pwr := w }
  rw [dataBeatOp_taking (u := v) s.ctl hp hk hd h2 hi hc] at run
  have hr' : (port (spendData v p pool) p).reqs = A ++ r :: B := by rw [port_spendData_same]; exact hr
  have still : clusterStill (spendData v p pool) (p / 8) := clusterStill.spendData (u := v) hq pool
  constructor
  · intro hl
    have after := takeData_awaits (c := s.ctl) hr' hAB hpool hpar hph still hl
    refine ⟨_, run, ?_, ?_, ?_⟩ <;> rw [after, port_spendData_same]
    · exact hi
    · show tabGet (tabPut _ pool _) pool + 1 = _
      rw [tabGet_put_same]
      exact Nat.sub_add_cancel hc
  · intro hl hb hlab g hs sent key
    have g' : goesThrough s.ctl (spendData v p pool) p r.hdr := (goesThrough_seen g hush).spendData pool
    have inject (h6 : hCmd r.hdr ≠ 6) (h3 : hCmd r.hdr ≠ 3 ∨ hMask r.hdr ≠ 0 ∨ hP r.hdr ≠ 0) :
        ∃ x y, (∀ k ∈ (injectReq x p y).net, k ∈ (pump s.ctl (takeData s.ctl (spendData v p pool) p pool r.ord d par) p).net) ∧ (∀ e l, lineSlice x e l = lineSlice s.u e l) ∧
          x.keys = s.u.keys ∧ y.hdr = r.hdr ∧ y.ord = r.ord ∧ y.epoch = some s.u.regs.epoch ∧ y.prio = classPrio s.u p (portClass s.u p) ∧ y.data = r.data ++ [d] ∧
          y.keySlot = cBits (ctxRec s.u s.u.regs.epoch (hCtx r.hdr)) 7 10 := by
      obtain ⟨x, y, ⟨l, net⟩, core, rest⟩ := takeData_injects (c := s.ctl) (u := spendData v p pool) hp hr' hAB hpool hpar hl hb hlab h6 h3 g' still hs
      refine ⟨x, y, fun k hk => ?_, lineSlice_core (u := spendData v p pool) core, pumpCore_keys (u := spendData v p pool) core, rest⟩
      rw [net]
      exact List.mem_append_left l hk
    constructor
    · intro h2
      obtain ⟨x, y, net, slice, keys, yh, yo, ye, yp, yd, yk⟩ := inject (by omega) (.inl (by omega))
      obtain ⟨k, mem, typ, -, poison, data, src, dst, prio, epoch, lla, prt, ord⟩ := injectReq_lineWr x p y (yh ▸ h2)
      simp only [yh, ye, yo, yp, yd, yk, slice, keys, Option.getD_some] at *
      exact ⟨_, k, run, ⟨net k mem, src, dst, prio, epoch, prt, ord, lla⟩, typ, poison, data⟩
    · intro ⟨h3, mask, whole⟩
      obtain ⟨x, y, net, slice, keys, yh, yo, ye, yp, -⟩ := inject (by omega) (.inr (.inl mask))
      obtain ⟨k, mem, typ, kind, src, dst, prio, epoch, lla, prt, ord⟩ := injectReq_lineReq x p y (.inr (.inr (yh ▸ ⟨h3, whole⟩)))
      simp only [yh, ye, yo, yp, slice, h3, Option.getD_some] at *
      exact ⟨_, k, run, ⟨net k mem, src, dst, prio, epoch, prt, ord, lla⟩, typ, kind⟩

end Sys2Proof.Machine
end

section
/-! PROOF. The ports' own moments: an opening port raises READY with its credits (R68, R70), a refill raises its buckets (R133), and a write that lacks its ticket asks its slice (R208). -/

namespace Sys2Proof.Machine

/-! ### Opening (Table 2-3, step 2) -/

theorem creditReturns_append (a b : List Out) (p pool : Nat) (data : Bool) :
    creditReturns (a ++ b) p pool data = creditReturns a p pool data ++ creditReturns b p pool data := List.filterMap_append ..

/-- The returns of another pool or kind are none of this one's. -/
theorem creditReturns_other {p pool k : Nat} {data d : Bool} (h : ¬ (k = pool ∧ d = data)) (fuel n : Nat) :
    creditReturns (creditOuts p k d fuel n) p pool data = [] := by
  induction fuel generalizing n with
  | zero => rfl
  | succ fuel ih =>
    unfold creditOuts
    dsimp only
    split
    · rfl
    · have front : creditReturns (.credit p k d (min n (if d then 31 else 15)) :: creditOuts p k d fuel (n - if d then 31 else 15)) p pool data =
          creditReturns (creditOuts p k d fuel (n - if d then 31 else 15)) p pool data := List.filterMap_cons_none (if_neg fun e => h e.2)
      exact front.trans (ih _)

/-- n credits are returned whole, in steps of what the sideband carries. -/
theorem creditReturns_same (p k : Nat) (d : Bool) (fuel n : Nat) (hf : n ≤ fuel) :
    (creditReturns (creditOuts p k d fuel n) p k d).sum = n ∧ ∀ m ∈ creditReturns (creditOuts p k d fuel n) p k d, m ≤ if d then 31 else 15 := by
  induction fuel generalizing n with
  | zero => simp [creditOuts, creditReturns]; omega
  | succ fuel ih =>
    unfold creditOuts
    extract_lets most
    have positive : 0 < most := by cases d <;> decide
    by_cases hn : n = 0
    · simp [hn, creditReturns]
    · rw [if_neg hn]
      obtain ⟨sum, bound⟩ := ih (n - most) (by omega)
      have front : creditReturns (.credit p k d (min n most) :: creditOuts p k d fuel (n - most)) p k d =
          min n most :: creditReturns (creditOuts p k d fuel (n - most)) p k d := List.filterMap_cons_some (if_pos ⟨rfl, rfl, rfl⟩)
      rw [front]
      refine ⟨by rw [List.sum_cons, sum]; omega, fun m hm => ?_⟩
      rcases List.mem_cons.mp hm with rfl | hm
      · exact Nat.min_le_right ..
      · exact bound m hm

/-- The full counts of a list of pools, as the sideband returns them. -/
def fullReturns (u : Units) (p : Nat) (l : List Nat) : List Out :=
  l.flatMap fun k => creditOuts p k false (hdrFull u p k) (hdrFull u p k) ++ creditOuts p k true (dataFull u p k) (dataFull u p k)

/-- Giving a port its full credits adds the returns to the outputs. -/
theorem giveFull_eq (p : Nat) (l : List Nat) : ∀ u : Units,
    l.foldl (fun u k => giveCredits (giveCredits u p k false (hdrFull u p k)) p k true (dataFull u p k)) u = { u with out := u.out ++ fullReturns u p l } := by
  induction l with
  | nil => intro u; simp [fullReturns]
  | cons k l ih =>
    intro u
    rw [List.foldl_cons, ih]
    simp only [fullReturns, List.flatMap_cons, ← List.append_assoc]
    rfl

/-- The full count of a pool, of headers or data units. -/
def fullCount (u : Units) (p pool : Nat) (data : Bool) : Nat := if data then dataFull u p pool else hdrFull u p pool

/-- Among the returns of every pool, those of one are the steps of its full count. -/
theorem creditReturns_fullReturns (u : Units) (p pool : Nat) (data : Bool) (l : List Nat) (hn : l.Nodup) :
    creditReturns (fullReturns u p l) p pool data =
      if pool ∈ l then creditReturns (creditOuts p pool data (fullCount u p pool data) (fullCount u p pool data)) p pool data else [] := by
  induction l with
  | nil => rfl
  | cons k l ih =>
    obtain ⟨hk, hn⟩ := List.nodup_cons.mp hn
    have front : creditReturns (fullReturns u p (k :: l)) p pool data =
        creditReturns (creditOuts p k false (hdrFull u p k) (hdrFull u p k)) p pool data ++
          creditReturns (creditOuts p k true (dataFull u p k) (dataFull u p k)) p pool data ++ creditReturns (fullReturns u p l) p pool data := by
      rw [← creditReturns_append, ← creditReturns_append]; rfl
    rw [front, ih hn]
    by_cases e : pool = k
    · subst e
      rw [if_pos (List.mem_cons_self ..), if_neg hk, List.append_nil]
      cases data with
      | true => rw [creditReturns_other (by simp)]; rfl
      | false => rw [creditReturns_other (k := pool) (d := true) (by simp), List.append_nil]; rfl
    · rw [creditReturns_other (fun h => e h.1.symm), creditReturns_other (fun h => e h.1.symm)]
      simp [e]

/-- A table filled from a function over a list of keys. -/
theorem tabGet_fill (f : Nat → Nat) (l : List Nat) (j : Nat) : ∀ t : Tab Nat,
    tabGet (l.foldl (fun t k => tabPut t k (f k)) t) j = if j ∈ l then f j else tabGet t j := by
  induction l with
  | nil => intro t; simp
  | cons k l ih =>
    intro t
    rw [List.foldl_cons, ih, tabGet_put]
    by_cases e : j = k <;> simp [e]

theorem portReadyOp_opens (c : Ctl) (u : Units) (p : Nat) (h1 : (port u p).state = 1) :
    ∃ q, portReadyOp c u p = { setPort u p q with out := u.out ++ [.ready p true] ++ fullReturns u p (List.range 4) } ∧ q.state = 2 ∧
      ∀ pool, pool < 4 → tabGet q.hdrCred pool = hdrFull u p pool ∧ tabGet q.dataCred pool = dataFull u p pool := by
  unfold portReadyOp
  dsimp only
  rw [if_pos h1, giveFull_eq]
  refine ⟨{ port u p with state := 2, hdrCred := _, dataCred := _, hdrHold := _, dataHold := _, level := _ }, rfl, rfl, fun pool hk => ?_⟩
  simp only [tabGet_fill, List.mem_range, hk, if_true, and_self]

/-- Settles O5: `portReadyOp_opens`, and the returns of a pool among the outputs are those of its full counts. -/
theorem portReadyOpens : Obligations.PortReadyOpens := by
  unfold Obligations.PortReadyOpens
  intro s p hp h1
  obtain ⟨q, opens, q2, credits⟩ := portReadyOp_opens s.ctl (fresh s) p h1
  let x : Units := { setPort (fresh s) p q with out := [] ++ [.ready p true] ++ fullReturns (fresh s) p (List.range 4) }
  have same : port x p = q := port_setPort_same (fresh s) p q
  refine ⟨{ s with u := x }, (exec_portReady p s).trans (onU_next ((if_pos hp).trans opens)), ?_, List.mem_append_left _ (List.mem_singleton_self _), fun pool hk => ?_⟩
  · rw [same, q2]
  · have given (data : Bool) : creditReturns x.out p pool data =
        creditReturns (creditOuts p pool data (fullCount s.u p pool data) (fullCount s.u p pool data)) p pool data :=
      (creditReturns_append ..).trans ((creditReturns_fullReturns (fresh s) p pool data _ List.nodup_range).trans (if_pos (List.mem_range.mpr hk)))
    have whole (data : Bool) := creditReturns_same p pool data _ (fullCount s.u p pool data) (Nat.le_refl _)
    simp only [same, credits pool hk, given, whole]
    exact ⟨rfl, rfl, rfl, rfl, (whole false).2, (whole true).2⟩

/-! ### Refills (R133) -/

theorem refillOp_levels {u : Units} {p : Nat} (c : Ctl) (hs : (port u p).state = 2 ∨ (port u p).state = 3) (hq : clusterStill u (p / 8)) {k : Nat} (hk : k < 4) :
    levelOf (port (refillOp c u p) p) k =
      if bucketUnlimited u p k then levelOf (port u p) k else min (levelOf (port u p) k + effRate u p k) (bucketDepth u p k * 16 : Nat) := by
  unfold refillOp
  extract_lets q lv
  rw [if_neg (show ¬ ((port u p).state = 0 ∨ (port u p).state = 1) by omega), pump_still, port_setPort_same]
  · refine (fold_levels _ _ (fun k x => min (x + (effRate u p k : Int)) (bucketDepth u p k * 16 : Int)) _ List.nodup_range k).trans ?_
    cases bucketUnlimited u p k <;> simp [hk, levelOf, q]
  · exact clusterStill_of_port hq (fun i hi => port_setPort_other _ _ hi) fun r hr => hq.port_reqs r (by rwa [port_setPort_same] at hr)

/-- Settles O6: `refillOp_levels`; a still cluster takes no tokens. -/
theorem refillRaisesLevels : Obligations.RefillRaisesLevels := by
  unfold Obligations.RefillRaisesLevels
  intro s p k hp hk hs hq
  exact ⟨_, (exec_bucketRefill p s).trans (onU_next (if_pos hp)), refillOp_levels (u := fresh s) s.ctl hs hq hk⟩

/-! ### Rewrite checks (R208) -/

theorem findReq_setReq_same {u : Units} {p : Nat} {r y : Req} (h : findReq u p r.ord = some r) (hy : y.ord = r.ord) : findReq (setReq u p y) p r.ord = some y := by
  unfold findReq setReq at *
  rw [port_setPort_same, List.find?_map]
  have same : ((fun x : Req => x.ord == r.ord) ∘ fun x => if x.ord = y.ord then y else x) = fun x => x.ord == r.ord := by
    funext x
    by_cases e : x.ord = r.ord <;> simp [hy, e]
  rw [same, h]
  simp [hy]

section
variable {c : Ctl} {u : Units} {p : Nat} {r : Req}

theorem rewriteCheckOp_sends (hr : findReq u p r.ord = some r) (hp : r.phase = .ready) (hw : isWriteCmd (hCmd r.hdr) = true) (ho : r.checkOut = false) (hb : r.bound = false)
    (ht : r.tickets.contains (poolId 1 (epCluster (p / 8)) (epSlice (lineSlice u (r.epoch.getD 0) (hLla r.hdr)))) = false)
    (hf : routeRefused u (epCluster (p / 8)) (epSlice (lineSlice u (r.epoch.getD 0) (hLla r.hdr))) = false)
    (hc : canTake u (poolId 0 (epCluster (p / 8)) (epSlice (lineSlice u (r.epoch.getD 0) (hLla r.hdr)))) r.prio = true) :
    let sl := epSlice (lineSlice u (r.epoch.getD 0) (hLla r.hdr))
    let id := poolId 0 (epCluster (p / 8)) sl
    rewriteCheckOp c u p r.ord = sendPkt (setReq (takeTicket u id) p { r with checkOut := true })
      { typ := .lineReq, src := epCluster (p / 8), dst := sl, prio := r.prio, epoch := r.epoch.getD 0, pool := id, port := p, ord := r.ord, lla := hLla r.hdr, kind := .check, cls := r.cls } := by
  unfold rewriteCheckOp
  simp only [hr, hp, hw, ho, hb, ht, hf, hc]
  simp

theorem rewriteCheckOp_out (hr : findReq u p r.ord = some r) (ho : r.checkOut = true) : rewriteCheckOp c u p r.ord = u := by
  unfold rewriteCheckOp
  simp [hr, ho]

end

/-- Settles O7: `rewriteCheckOp_sends`, and `rewriteCheckOp_out` while a check is out. -/
theorem rewriteCheckIsSent : Obligations.RewriteCheckIsSent := by
  unfold Obligations.RewriteCheckIsSent
  intro s p ord r hp hr hph hw cl sl
  have ho : r.ord = ord := by simpa using List.find?_some hr
  subst ho
  have run := (exec_rewriteCheck p r.ord s).trans (onU_next (if_pos hp))
  constructor
  · intro hout hb ht hf hc
    rw [rewriteCheckOp_sends (u := fresh s) hr hph hw hout hb ht hf hc] at run
    refine ⟨_, _, run, mem_send _ _, rfl, rfl, rfl, rfl, rfl, rfl, rfl, ?_, ?_⟩
    · exact findReq_setReq_same (u := takeTicket (fresh s) (poolId 0 cl sl)) hr rfl
    · exact tabGet_put_same ..
  · intro hout
    rw [run, rewriteCheckOp_out (u := fresh s) hr hout]
    rfl

end Sys2Proof.Machine
end

section
/-! PROOF. What a packet does where it lands. The network has carried it there (`lands_netOnly`), and a command that takes it is its operation on those units (`exec_lands`). -/

namespace Sys2Proof.Machine

section
variable {s : State} {pkt : Nat} {ty : PktType} {k : Pkt} {w : Units}

theorem lands_netOnly (h : lands s pkt ty k w) : NetOnly (fresh s) w := (landing_cases h).1

/-- A command that takes a packet of a type does what that packet does where it lands. -/
theorem exec_lands {i : Instr} {f : Ctl → Pkt → Units → Units} (hi : exec i s = onU s fun c u => onPkt u pkt ty (f c)) (h : lands s pkt ty k w) :
    exec i s = .next { s with u := f s.ctl k w } := hi.trans (onU_next (onPkt_landed h _))

theorem findReq_lands (h : lands s pkt ty k w) (p ord id : Nat) : findReq (dropPkt w id) p ord = findReq s.u p ord := by
  obtain ⟨t, m, rfl⟩ := lands_netOnly h
  rfl

end

/-! ### Record fetches (R96, R177) -/

/-- Settles O8: at the context engine `recordSend` answers, at the cluster `recordBack` marks the record as at hand. -/
theorem recordFetchAnswers : Obligations.RecordFetchAnswers := by
  unfold Obligations.RecordFetchAnswers
  intro s pkt k w h
  have run : exec (.ctxRecordFetch ⟨pkt, .none⟩) s = .next { s with u := recordFetchOp s.ctl w k } := exec_lands (exec_ctxRecordFetch ⟨pkt, .none⟩ s) h
  constructor
  · intro far
    rw [recordFetchOp, if_neg (by omega)] at run
    obtain ⟨t, m, rfl⟩ := lands_netOnly h
    refine ⟨_, _, _, run, rfl, mem_send _ _, rfl, rfl, rfl, rfl, rfl, rfl, List.mem_append_left _ (mem_send _ _), rfl, rfl, rfl, rfl⟩
  · intro r near hr
    rw [run, recordFetchOp, if_pos near, recordBack, findReq_lands h, hr]

/-! ### Completions (R37, R38, R78, R79, R83) -/

section
variable {c : Ctl} {u : Units} {k : Pkt} {r : Req}

/-- What a completion presents stays presented while its cluster goes on. -/
theorem mem_completed {p st z m x : Nat} {line : BitVec 512} {o : Out} (h : o ∈ (completionBeats u p st r z m x line).out) :
    o ∈ (pump c (completeReq c u p r st z m x line) p).out :=
  mem_steady ((completeReq_after c u p r st z m x line).trans (.pump c _ p)) h

/-- A line or a zero-line indication that comes back to its READ presents the completion and both halves of the plaintext. -/
theorem lineBack_presents (hr : findReq u k.port k.ord = some r) (hp : r.phase = .sent) (hk : k.kind = .read) (h1 : hCmd r.hdr = 1) :
    let plain := if k.typ = .zero then 0 else xtsDecrypt (keyOf u r.keySlot) k.lla k.data
    .beat k.port 1 (completionWord 0 (hTag r.hdr) 1 (if k.typ = .zero then 1 else 0) (if k.m then 1 else 0) (if k.x then 1 else 0) r.pool r.ord) (plain.setWidth 256) ∈ (lineBack c u k false).out ∧
    .beat k.port 2 0 (BitVec.ofNat 256 (plain.toNat / 2 ^ 256)) ∈ (lineBack c u k false).out := by
  rw [lineBack_read hr hp hk]
  obtain ⟨front, back⟩ := beats_two u k.port r (if k.typ = .zero then 1 else 0) (if k.m then 1 else 0) (if k.x then 1 else 0)
    (if k.typ = .zero then 0 else xtsDecrypt (keyOf u r.keySlot) k.lla k.data) h1
  exact ⟨mem_completed front, mem_completed back⟩

theorem doneAtCluster_presents (hk : k.kind ≠ .check) (hr : findReq u k.port k.ord = some r) (hp : r.phase = .sent) (h1 : hCmd r.hdr ≠ 1) (h4 : hCmd r.hdr ≠ 4) :
    .beat k.port 1 (completionWord k.aux (hTag r.hdr) 0 0 0 0 r.pool r.ord) 0 ∈ (doneAtCluster c u k).out := by
  rw [doneAtCluster_sent hk hr hp h1 h4]
  exact mem_completed (beats_one u k.port k.aux r 0 0 0 0 fun h => h1 h.1)

end

/-- The lower half of the zero line, whatever the width. -/
theorem lower_zero (w n : Nat) : (0 : BitVec w).setWidth n = 0 := BitVec.setWidth_zero ..

/-- The upper half of the zero line, whatever the width. -/
theorem upper_zero (w n : Nat) : BitVec.ofNat 256 ((0 : BitVec w).toNat / n) = 0 := by simp

/-- Settles O9: `lineBack_presents` for a LINE_RET and a ZERO, `doneAtCluster_presents` for a DONE. -/
theorem completionsLeaveEgress : Obligations.CompletionsLeaveEgress := by
  unfold Obligations.CompletionsLeaveEgress
  intro s pkt k w r hr hp line word
  refine ⟨fun h hk h1 => ?_, fun h hk near h1 => ?_, fun h hk near h1 h4 => ?_⟩
  · have typ : k.typ = .lineRet := (landing_cases h).2.2.2.2
    have shown := lineBack_presents (c := s.ctl) (u := dropPkt w k.id) (k := k) ((findReq_lands h ..).trans hr) hp hk h1
    have key : keyOf (dropPkt w k.id) r.keySlot = (tabGet s.u.keys r.keySlot).key := by
      obtain ⟨t, m, rfl⟩ := lands_netOnly h
      rfl
    simp only [typ, key] at shown
    exact ⟨_, exec_lands (exec_lineRet pkt .none s) h, shown⟩
  · have typ : k.typ = .zero := (landing_cases h).2.2.2.2
    have run : exec (.zero ⟨pkt, .none⟩) s = .next { s with u := zeroOp s.ctl w k } := exec_lands (exec_zero ⟨pkt, .none⟩ s) h
    have shown := lineBack_presents (c := s.ctl) (u := dropPkt w k.id) (k := k) ((findReq_lands h ..).trans hr) hp hk h1
    rw [zeroOp, if_pos near] at run
    obtain ⟨front, back⟩ := shown
    rw [if_pos typ, if_pos typ] at front
    rw [if_pos typ] at back
    rw [lower_zero] at front
    rw [upper_zero] at back
    exact ⟨_, run, front, back⟩
  · have run := (exec_lands (exec_done ⟨pkt, .none⟩ s) h).trans (congrArg (fun u => Host.Outcome.next { s with u := u }) (if_neg (by unfold epCore; omega)))
    rw [doneOp, if_pos near] at run
    exact ⟨_, run, doneAtCluster_presents hk ((findReq_lands h ..).trans hr) hp h1 h4⟩

/-! ### Tickets (R178) -/

/-- Settles O10: the tickets go back to their pool, and a still cluster does nothing more. -/
theorem ticketsComeBack : Obligations.TicketsComeBack := by
  unfold Obligations.TicketsComeBack
  intro s pkt k w h holder
  have elsewhere : k.dst ≠ epCore 5 := by
    rcases holder with ⟨near, -⟩ | ⟨-, other⟩
    · unfold epCore; omega
    · exact other
  have run := (exec_lands (exec_ticket ⟨pkt, .none⟩ s) h).trans (congrArg (fun u => Host.Outcome.next { s with u := u }) (if_neg elsewhere))
  have alone : ticketOp s.ctl w k = returnTickets (dropPkt w k.id) k.pool (k.aux + 1) := by
    obtain ⟨t, m, rfl⟩ := lands_netOnly h
    unfold ticketOp
    dsimp only
    rcases holder with ⟨near, still⟩ | ⟨far, -⟩
    · have quiet := pumpCluster_still s.ctl (returnTickets (dropPkt { fresh s with transit := t, slotMode := m } k.id) k.pool (k.aux + 1)) k.dst still
      rw [if_pos near, quiet, quiet]
    · rw [if_neg (by omega), if_neg (by omega)]
  rw [alone] at run
  obtain ⟨t, m, rfl⟩ := lands_netOnly h
  exact ⟨_, run, rfl, tabGet_put_same .., fun id hid => tabGet_put_other hid .., rfl⟩

/-! ### Packets at a slice (R199, R200, R203, Table 5-7) -/

section
variable (c : Ctl) (u : Units) (k : Pkt)

theorem lineWrOp_none : lineWrOp c u k .none = arriveSlice c (dropPkt u k.id) (k.dst - 32) k := by
  unfold lineWrOp
  simp only [landFlit, Bool.or_false, Bool.false_eq_true, if_false]

/-- A line whose bytes were in error is written poisoned; a LINE_WR is never of one flit. -/
theorem lineWrOp_line (h : k.typ = .lineWr) :
    lineWrOp c u k .line = arriveSlice c (dropPkt (poisonMade u k.lla 5) k.id) (k.dst - 32) { k with poison := true } := by
  unfold lineWrOp
  simp only [landFlit, h, typCode, flitCount]
  simp

end

/-- Settles O11: each packet leaves the network and joins `waitq` (`arriveSlice`), where its slice goes on. -/
theorem packetsJoinTheirSlice : Obligations.PacketsJoinTheirSlice := by
  unfold Obligations.PacketsJoinTheirSlice
  intro s pkt k w joined
  have joins (x : Units) (y : Pkt) : arriveSlice s.ctl (dropPkt x k.id) (k.dst - 32) y = joined x y := rfl
  have next {x y : Units} (e : x = y) : (Host.Outcome.next { s with u := x } : Host.Outcome State Fault Refusal) = .next { s with u := y } := by rw [e]
  refine ⟨fun h => ?_, fun h => ?_, fun h => ?_⟩
  · exact (exec_lands (exec_lineReq pkt .none s) h).trans (next (joins w k))
  · exact (exec_lands (exec_lineWr pkt .none s) h).trans (next ((lineWrOp_none ..).trans (joins w k)))
  · exact (exec_lands (exec_lineWr pkt .line s) h).trans (next ((lineWrOp_line _ _ _ (landing_cases h).2.2.2.2).trans (joins ..)))

end Sys2Proof.Machine
end

section
/-! PROOF. Fills at a slice (R201, R402). A fill that is settled answers its askers one after another; each answer is a packet, and what the slice does after it takes no packet back (`Stays`). -/

namespace Sys2Proof.Machine

/-! ### Packets stay sent -/

/-- Every packet on its way is still on its way. -/
structure Stays (u x : Units) : Prop where
  mem : ∀ {y}, y ∈ u.net → y ∈ x.net

namespace Stays

theorem refl (u : Units) : Stays u u := ⟨id⟩

theorem trans {u x y : Units} (h : Stays u x) (k : Stays x y) : Stays u y := ⟨fun m => k.mem (h.mem m)⟩

theorem of_net {u x : Units} (h : x.net = u.net) : Stays u x := ⟨fun m => h ▸ m⟩

theorem send (u : Units) (k : Pkt) : Stays u (sendPkt u k) := ⟨List.mem_append_left _⟩

theorem unlock (u : Units) (s l : Nat) : Stays u (unlock u s l) := ⟨unlock_net⟩

theorem foldl {α : Type} {f : Units → α → Units} (h : ∀ u a, Stays u (f u a)) (l : List α) (u : Units) : Stays u (l.foldl f u) := by
  induction l generalizing u with
  | nil => exact .refl u
  | cons a l ih => exact (h u a).trans (ih _)

/-- What one element of a list sends, whatever the units it meets, has been sent in the end. -/
theorem foldl_sends {α : Type} {f : Units → α → Units} (h : ∀ u a, Stays u (f u a)) {P : Pkt → Prop} {a : α} (sends : ∀ u, ∃ y ∈ (f u a).net, P y)
    {l : List α} (ha : a ∈ l) (u : Units) : ∃ y ∈ (l.foldl f u).net, P y := by
  obtain ⟨before, after, rfl⟩ := List.append_of_mem ha
  rw [List.foldl_append, List.foldl_cons]
  obtain ⟨y, hy, p⟩ := sends (before.foldl f u)
  exact ⟨y, (foldl h after _).mem hy, p⟩

theorem answerAsker (u : Units) (s l : Nat) (a : Asker) (b : Bool) (d : BitVec 512) (z m x : Bool) (st : Nat) : Stays u (answerAsker u s l a b d z m x st) := by
  unfold Machine.answerAsker
  dsimp only
  split
  · exact .send ..
  · split
    · split
      · exact (send u _).trans (unlock _ s l)
      · exact .send ..
    · split
      · exact .refl u
      · split <;> exact .send ..

theorem makeRoom {u x : Units} {s n : Nat} (h : makeRoom u s n = some x) : Stays u x := by
  unfold Machine.makeRoom at h
  dsimp only at h
  split at h
  · cases h; exact .refl u
  · split at h
    · cases h
    · cases h
      split
      · exact .of_net (wqPut_net ..)
      · exact .of_net rfl

theorem fetchHeader {u x : Units} {s n : Nat} {k : Pkt} (h : fetchHeader u s n k = some x) : Stays u x := by
  unfold Machine.fetchHeader at h
  split at h
  · cases h
  · simp only [Option.map_eq_some_iff] at h
    obtain ⟨y, hy, rfl⟩ := h
    refine (makeRoom hy).trans (.of_net ?_)
    simp [rqPut]

theorem stageFill (u : Units) (s : Nat) (k : Pkt) : Stays u (stageFill u s k).2 := by
  cases h : hdrEntry u s (lineSet u k.lla) with
  | none =>
    simp only [Machine.stageFill, h]
    cases h : Machine.fetchHeader u s (lineSet u k.lla) k with
    | none => exact .refl u
    | some x => exact .fetchHeader h
  | some e =>
    obtain ⟨o, g, hc⟩ : ∃ o g, chooseWay e.hdr (fun w => wayBusy u s e w) (lineTag u k.lla) (k.lla % 8) = (o, g) := ⟨_, _, (Prod.eta _).symm⟩
    cases o with
    | none =>
      simp only [Machine.stageFill, h, hc]
      split <;> exact .of_net rfl
    | some w =>
      simp only [Machine.stageFill, h, hc]
      split
      · exact .refl u
      · split
        · exact .refl u
        · exact .of_net (by simp only [wqPut_net, writeHeader]; rfl)

end Stays

/-! ### The answers of a fill -/

/-- The status that a fill leaves its askers: CAPACITY_LOST at a sealed set (R216). -/
def fillStatus (u : Units) (s : Nat) (k : Pkt) (st : Nat) : Nat := if (slice u s).sealed.contains (lineSet u k.lla) then 7 else st

/-- The answer of a fill to one asker: the first may have its line or status from the media group or the hinge unit already. -/
def answerOf (u : Units) (s : Nat) (k : Pkt) (st : Nat) (v : Units) (a : Asker) (first : Bool) : Units :=
  answerAsker v s k.lla a first k.data k.zline k.m k.x (if first then st else fillStatus u s k st)

theorem answerOf_stays (u : Units) (s : Nat) (k : Pkt) (st : Nat) (v : Units) (a : Asker) (first : Bool) : Stays v (answerOf u s k st v a first) := .answerAsker ..

/-- The units once the readers of a fill have been answered. -/
def readersAnswered (u : Units) (s : Nat) (f : Fill) (k : Pkt) (st : Nat) (direct : Bool) : Units :=
  match f.askers with
  | [] => u
  | a :: t => (t.filter fun a => !isPrefetch a).foldl (fun v a => answerOf u s k st v a false)
      (if isPrefetch a then u else answerOf u s k st u a (direct && !f.early && f.got.isNone))

/-- The readers of a fill have their answers before its line is staged and those that prefetch are answered. -/
theorem settleFill_answers (u : Units) (s : Nat) (f : Fill) (k : Pkt) (st : Nat) (direct : Bool) :
    Stays (readersAnswered u s f k st direct) (settleFill u s f k st direct) := by
  unfold settleFill
  extract_lets st' answer first v g v2
  have answers (u : Units) (a : Asker) : Stays u (answer u a false) := .answerAsker ..
  have h3 : Stays v (if toStage v2 s g k st = true then stageFill v2 s k else (true, v2)).2 := by
    split
    · exact Stays.trans (x := v2) (.of_net rfl) (.stageFill v2 s k)
    · exact .of_net rfl
  generalize (if toStage v2 s g k st = true then stageFill v2 s k else (true, v2)) = w at h3
  obtain ⟨done, w⟩ := w
  refine Stays.trans (x := v) (.of_net ?_) (h3.trans ?_)
  · rfl
  · dsimp only
    split
    · exact Stays.trans (x := closeFill w s g) (.of_net rfl) (.foldl answers _ _)
    · exact .refl w

theorem readersAnswered_cons (u : Units) (s : Nat) (f : Fill) (k : Pkt) (st : Nat) (direct : Bool) {b : Asker} {t : List Asker} (h : f.askers = b :: t) :
    readersAnswered u s f k st direct = (t.filter fun a => !isPrefetch a).foldl (fun v a => answerOf u s k st v a false)
      (if isPrefetch b then u else answerOf u s k st u b (direct && !f.early && f.got.isNone)) := by
  unfold readersAnswered
  rw [h]

/-- A reader behind the first is answered by the fill. -/
theorem settleFill_sends {u : Units} {s : Nat} {f : Fill} {k : Pkt} {st : Nat} {direct : Bool} {b a : Asker} {t : List Asker} {P : Pkt → Prop}
    (hf : f.askers = b :: t) (ha : a ∈ t) (hr : a.kind = .read) (sends : ∀ v, ∃ y ∈ (answerOf u s k st v a false).net, P y) :
    ∃ y ∈ (settleFill u s f k st direct).net, P y := by
  have reader : a ∈ t.filter fun a => !isPrefetch a := List.mem_filter.mpr ⟨ha, by simp [isPrefetch, hr]⟩
  obtain ⟨y, hy, p⟩ := Stays.foldl_sends (fun v a => answerOf_stays u s k st v a false) sends reader (if isPrefetch b then u else answerOf u s k st u b (direct && !f.early && f.got.isNone))
  rw [← readersAnswered_cons u s f k st direct hf] at hy
  exact ⟨y, (settleFill_answers ..).mem hy, p⟩

/-- So is the first, where no one else has answered it. -/
theorem settleFill_sendsFirst {u : Units} {s : Nat} {f : Fill} {k : Pkt} {st : Nat} {a : Asker} {t : List Asker} {P : Pkt → Prop}
    (hf : f.askers = a :: t) (hr : a.kind = .read) (sends : ∀ v, ∃ y ∈ (answerOf u s k st v a false).net, P y) :
    ∃ y ∈ (settleFill u s f k st false).net, P y := by
  obtain ⟨y, hy, p⟩ := sends u
  refine ⟨y, (settleFill_answers ..).mem ?_, p⟩
  rw [readersAnswered_cons u s f k st false hf, if_neg (by simp [isPrefetch, hr])]
  exact (Stays.foldl (fun v a => answerOf_stays u s k st v a false) _ _).mem hy

section
variable {u : Units} {s : Nat} {k : Pkt} {st : Nat} {a : Asker} (hr : a.kind = .read)
include hr

theorem answerOf_status (hs : fillStatus u s k st ≠ 0) (v : Units) :
    ∃ y ∈ (answerOf u s k st v a false).net, y.typ = .done ∧ y.dst = a.src ∧ y.port = a.port ∧ y.ord = a.ord ∧ y.aux = fillStatus u s k st := by
  unfold answerOf answerAsker
  simp only [hr, hs, Bool.false_eq_true, if_false, reduceCtorEq, false_or, ne_eq, not_false_eq_true, if_true]
  exact ⟨_, mem_send _ _, rfl, rfl, rfl, rfl, rfl⟩

theorem answerOf_line (hs : fillStatus u s k st = 0) (hz : k.zline = false) (v : Units) :
    ∃ y ∈ (answerOf u s k st v a false).net, y.typ = .lineRet ∧ y.dst = a.src ∧ y.port = a.port ∧ y.ord = a.ord ∧ y.data = k.data := by
  unfold answerOf answerAsker
  simp only [hr, hs, hz, Bool.false_eq_true, if_false, reduceCtorEq, false_or, ne_eq, not_true_eq_false]
  exact ⟨_, mem_send _ _, rfl, rfl, rfl, rfl, rfl⟩

end

/-! ### What ends a fill -/

theorem endFill_open {c : Ctl} {u : Units} {s : Nat} {k : Pkt} {f : Fill} (hf : (slice u s).fills.find? (fun f => f.lla == k.lla && f.got.isNone) = some f)
    (hp : f.pending = false) (st : Nat) (direct : Bool) : endFill c u s k st direct = pumpSlice c (settleFill u s f k st direct) s := by
  unfold endFill
  rw [hf]
  simp only [hp, Bool.false_eq_true, if_false]

theorem fillDataOp_none (c : Ctl) (u : Units) (k : Pkt) :
    fillDataOp c u k .none = endFill c (dropPkt u k.id) (k.dst - 32) k (if k.poison then 1 else 0) (!k.poison) := by
  unfold fillDataOp
  simp only [landFlit, Bool.or_false, Bool.false_eq_true, if_false]

/-- Settles O12: the three packets end the open fill (`endFill_open`), and a fill that is settled answers its askers (`settleFill_sends`). -/
theorem fillsEndAtTheSlice : Obligations.FillsEndAtTheSlice := by
  unfold Obligations.FillsEndAtTheSlice
  refine ⟨?_, ?_, ?_⟩
  · intro s pkt k w f far near hf hp ended
    have next {x y : Units} (e : x = y) : (Host.Outcome.next { s with u := x } : Host.Outcome State Fault Refusal) = .next { s with u := y } := by rw [e]
    have ends {ty : PktType} (h : lands s pkt ty k w) (st : Nat) (direct : Bool) : endFill s.ctl (dropPkt w k.id) (k.dst - 32) k st direct = ended st direct := by
      refine endFill_open ?_ hp st direct
      obtain ⟨t, m, rfl⟩ := lands_netOnly h
      exact hf
    refine ⟨fun h => ?_, fun h => ?_, fun h => ?_⟩
    · exact (exec_lands (exec_fillData pkt .none s) h).trans (next ((fillDataOp_none ..).trans (ends h _ _)))
    · refine (exec_lands (exec_zero ⟨pkt, .none⟩ s) h).trans (next ?_)
      exact ((if_neg (by omega)).trans (if_pos near)).trans (ends h _ _)
    · refine (exec_lands (exec_done ⟨pkt, .none⟩ s) h).trans (next ((if_neg (by unfold epCore; omega)).trans ?_))
      exact ((if_neg (by omega)).trans (if_pos near)).trans (ends h _ _)
  · intro u sl f k st hst a ha hr
    have hs : fillStatus u sl k st ≠ 0 := by unfold fillStatus; split <;> omega
    cases e : f.askers with
    | nil => rw [e] at ha; cases ha
    | cons b t =>
      rw [e] at ha
      rcases List.mem_cons.mp ha with rfl | ha
      · exact settleFill_sendsFirst e hr (answerOf_status hr hs)
      · exact settleFill_sends e ha hr (answerOf_status hr hs)
  · intro u sl f k direct b rest hseal hz hf a ha hr
    have hs : fillStatus u sl k 0 = 0 := if_neg (by rw [hseal]; decide)
    exact settleFill_sends hf ha hr (answerOf_line hr hs hz)

end Sys2Proof.Machine
end

section
/-! PROOF. A slice serves a READ or a WRITE whose header is at hand (R199, R200, R203), and what lands at a slice leaves the other units alone. -/

namespace Sys2Proof.Machine

/-! ### READs (R199, R200) -/

section
variable {u x : Units} {sl : Nat} {k : Pkt} {e : HdrEntry}

/-- A packet that nothing holds back is served by its header. -/
theorem serve_afterHeader (held : heldBack u sl k = false) (unsealed : (slice u sl).sealed.contains (lineSet u k.lla) = false) (unlocked : lockOf (slice u sl) k.lla = none)
    (noFill : k.typ = .lineReq → fillOf (slice u sl) k.lla = none) (hx : needHeader u sl (lineSet u k.lla) k = (some e, x)) :
    serve u sl k = if k.typ = .lineWr then serveWrite x sl e k else if k.kind = .check then serveCheck x sl e k else
      match findWay e.hdr (lineTag x k.lla) (k.lla % 8) with
      | some w => serveHit x sl e w k
      | none => serveMiss x sl k := by
  have fill : (if k.typ = .lineReq ∧ k.kind ≠ .check ∧ earlyOf (slice u sl) k = none then fillOf (slice u sl) k.lla else none) = none := by
    split
    · rename_i h
      exact noFill h.1
    · rfl
  unfold serve
  dsimp only
  rw [if_neg (by rw [held]; decide), if_neg (by rw [unsealed]; decide), if_neg (by rw [unlocked]; simp), fill]
  dsimp only
  rw [hx] <;> rfl

theorem hdrEntry_set {set : Nat} (h : hdrEntry u sl set = some e) : e.set = set := by
  have := List.find?_some h
  simpa using this

/-- A read put into the queue is there, for its line and its use. -/
theorem rqPut_mem (u : Units) (c : Nat) (a : DAcc) : ∃ b ∈ (subOf (rqPut u c a) c (lineSub a.line)).rq, b.line = a.line ∧ b.use = a.use := by
  unfold rqPut
  dsimp only
  rw [subOf_setSub_same]
  exact ⟨_, List.mem_append_right _ (List.mem_singleton_self _), rfl, rfl⟩

/-- A READ served by a way that is not poisoned has the DRAM read of that way queued. -/
theorem serveHit_reads {w : Nat} (hk : k.kind = .read) (early : earlyOf (slice u sl) k = none) (hw : w < 15) (sound : wayState e.hdr w ≠ 3) (room : rqRoom u sl (e.set * 16) 1 = true)
    (alone : ((subOf u sl (lineSub (e.set * 16))).rq ++ (subOf u sl (lineSub (e.set * 16))).inflight).any (fun a => a.use == .ahead w k.id) = false) :
    ∃ y a, serveHit u sl e w k = (true, y) ∧ a ∈ (subOf y sl (lineSub (e.set * 16))).rq ∧ a.line = e.set * 16 + 1 + w ∧ a.use = .way w k := by
  unfold serveHit
  simp only [early, hk, sound, room, reduceCtorEq, false_or, if_false, Bool.true_eq_false]
  generalize hz : freeSlot (putEntry (count u (cDdr sl 10)) sl _) sl k = z
  have same : subOf z sl = subOf u sl := by
    rw [← hz]
    funext i
    refine subOf_congr ((freeSlot_ddr ..).trans ?_) sl i
    exact count_ddr ..
  unfold readWay
  simp only [same, alone, Bool.false_eq_true, if_false]
  obtain ⟨a, ha, line, use⟩ := rqPut_mem z sl { line := e.set * 16 + 1 + w, cls := k.cls, prio := k.prio, port := k.port, use := .way w k }
  rw [lineSub_way _ _ hw] at ha
  exact ⟨_, a, rfl, ha, line, use⟩

/-- A READ of a poisoned way is answered DATA_POISONED. -/
theorem serveHit_poisoned {w : Nat} (hk : k.kind = .read) (early : earlyOf (slice u sl) k = none) (poisoned : wayState e.hdr w = 3) :
    ∃ x y, serveHit u sl e w k = (true, x) ∧ y ∈ x.net ∧ y.typ = .done ∧ y.dst = k.src ∧ y.aux = 1 ∧ y.port = k.port ∧ y.ord = k.ord := by
  unfold serveHit
  simp only [early, hk, poisoned, reduceCtorEq, false_or, if_false, if_true]
  obtain ⟨y, hy, shape⟩ := endAt_done (u := putEntry u sl { e with hdr := setRef e.hdr w 1, soft := true }) (s := sl) (k := k) (st := 1)
  exact ⟨_, y, rfl, (count_net ..).symm ▸ hy, shape⟩

/-- A READ that misses asks the hinge unit, where its tickets can be taken, no fence stands on the way and no other packet comes before it. -/
theorem serveMiss_asks (hk : k.kind = .read) (early : earlyOf (slice u sl) k = none) (room : (slice u sl).fills.length < 64) (first : fillRival (slice u sl) k = false)
    (free : fillFenced u sl = false) (req : canTake u (poolId 0 (epSlice sl) (epCore 1)) k.prio = true) (ret : canTake u (poolId 4 (epSlice sl) (epSlice sl)) k.prio = true) :
    ∃ x y, serveMiss u sl k = (true, x) ∧ y ∈ x.net ∧ y.typ = .fillReq ∧ y.src = epSlice sl ∧ y.dst = epCore 1 ∧ y.lla = k.lla ∧ y.handle = k.src ∧ y.port = k.port ∧ y.ord = k.ord := by
  unfold serveMiss startFill
  simp only [early, free, req, ret, first, show ¬ 64 ≤ (slice u sl).fills.length by omega, Bool.false_eq_true, Bool.true_eq_false, or_self, if_false, leaveForFill, hk, reduceCtorEq]
  exact ⟨_, _, rfl, freeSlot_net (mem_send _ _), rfl, rfl, rfl, rfl, rfl, rfl, rfl⟩

end

/-- Settles O13: with the header at hand (`serve_afterHeader`) a READ is a hit on a sound or a poisoned way, or a miss. -/
theorem sliceServesReads : Obligations.SliceServesReads := by
  unfold Obligations.SliceServesReads
  intro u sl k e ht hk held unsealed unlocked noFill early he loaded set
  obtain ⟨x, m, l, hx, hs, hd, -, ht', hstg, hv, -⟩ := needHeader_hit (k := k) he loaded
  have hf : x.fences = u.fences := by
    have core := sliceCore_needHeader (pk := true) u sl (lineSet u k.lla) k
    rw [hx] at core
    exact show (sliceCore true x).fences = (sliceCore true u).fences by rw [core]
  have eset : e.set = set := hdrEntry_set he
  have early' : earlyOf (slice x sl) k = none := by rw [hs]; exact early
  have served := serve_afterHeader held unsealed unlocked (fun _ => noFill) hx
  rw [if_neg (by simp [ht]), if_neg (by simp [hk]), lineTag_congr hstg hv] at served
  refine ⟨fun w hw sound room alone => ?_, fun w hw poisoned => ?_, fun hw room first free req ret => ?_⟩ <;> rw [served, hw]
  · rw [← eset] at room alone ⊢
    exact serveHit_reads hk early' (findWay_lt hw) sound (by unfold rqRoom at *; rwa [subOf_congr hd]) (by rwa [subOf_congr hd])
  · exact serveHit_poisoned hk early' poisoned
  · refine serveMiss_asks hk early' (by rwa [hs]) (by rw [hs]; exact first) ?_ ?_ ?_
    · unfold fillFenced at *
      rwa [routeRefused_congr hv hf]
    · unfold canTake poolFree at *; rwa [ht']
    · unfold canTake poolFree at *; rwa [ht']

/-! ### WRITEs (R193, R194, R203, R207) -/

/-- Once a WRITE of a cluster has landed, its slot is withheld and its answer is OK; header and queues stay. -/
theorem landed_does {u : Units} {sl : Nat} {k : Pkt} (merge : k.merge = false) (bound : k.bound = false) (pool : k.pool / 65536 = 1) :
    (slice (landed u sl k) sl).cache = (slice u sl).cache ∧ (landed u sl k).ddr = u.ddr ∧
    tabGet (slice (landed u sl k) sl).withheld k.src = tabGet (slice u sl).withheld k.src + 1 ∧
    ∃ y ∈ (landed u sl k).net, y.typ = .done ∧ y.dst = k.src ∧ y.aux = 0 ∧ y.port = k.port ∧ y.ord = k.ord := by
  obtain ⟨cache, withheld, queues⟩ := freeSlot_keeps u sl k pool
  unfold landed unpin
  simp only [merge, bound, Bool.false_eq_true, if_false]
  refine ⟨cache, queues, ?_, _, mem_send _ _, rfl, rfl, rfl, rfl, rfl⟩
  show tabGet (slice (freeSlot u sl k) sl).withheld k.src = _
  rw [withheld, tabGet_put_same]

/-- Settles O14: the WRITE is a hit (`serveWrite_hit`), `landWrite_does` says what it leaves behind, and `landed_does` how it ends. -/
theorem sliceTakesWrites : Obligations.SliceTakesWrites := by
  unfold Obligations.SliceTakesWrites
  intro u sl k e w ht hk merge bound cluster pool held unsealed unlocked he loaded hw unread room
  obtain ⟨x, m, l, hx, hs, hd, -, -, hstg, hv, -⟩ := needHeader_hit (k := k) he loaded
  have served := serve_afterHeader held unsealed unlocked (fun h => by rw [ht] at h; cases h) hx
  have room' : wqRoom x sl [e.set * 16, e.set * 16 + 1 + w] = true := by unfold wqRoom at *; rwa [subOf_congr hd]
  have budget : budgetOk x sl k (!wayDirty e.hdr w) = true := by simp [budgetOk, cluster]
  rw [if_pos ht, serveWrite_hit (by rwa [lineTag_congr hstg hv]) unread room' budget] at served
  obtain ⟨e', entry, state, ref, data, header, withheld, -, -⟩ := landWrite_does (u := x) (s := sl) (e := e) (k := k) (findWay_lt hw)
  obtain ⟨cache, queues, slot, y, hy, shape⟩ := landed_does (u := landWrite x sl e e.hdr w k) (sl := sl) merge bound pool
  refine ⟨_, e', y, served, ?_, state, ref, ?_, ?_, ?_, hy, shape⟩
  · rwa [hdrEntry_congr cache]
  · rwa [subOf_congr queues]
  · rwa [subOf_congr queues]
  · rw [slot, withheld, hs]

/-! ### The frame of a slice -/

/-- What lands at a slice whole changes nothing outside the slice's work, and adds no pin. -/
structure SliceOnly (u x : Units) : Prop where
  core : sliceCore true x = sliceCore true u
  pins : x.hng.pins.Sublist u.hng.pins

namespace SliceOnly

theorem refl (u : Units) : SliceOnly u u := ⟨rfl, .refl _⟩

theorem trans {u x y : Units} (h : SliceOnly u x) (k : SliceOnly x y) : SliceOnly u y := ⟨k.core.trans h.core, k.pins.trans h.pins⟩

theorem of_false {u x : Units} (h : sliceCore false x = sliceCore false u) (k : sliceCore true x = sliceCore true u) : SliceOnly u x :=
  ⟨k, hng_of_sliceCore h ▸ .refl _⟩

theorem pumpSlice (c : Ctl) (u : Units) (s : Nat) : SliceOnly u (pumpSlice c u s) := ⟨sliceCore_pumpSlice c u s, pumpSlice_pins c u s⟩

theorem arriveSlice (c : Ctl) (u : Units) (s : Nat) (k : Pkt) : SliceOnly u (arriveSlice c u s k) :=
  trans (x := setSlice u s { slice u s with waitq := (slice u s).waitq ++ [k] }) (.of_false rfl rfl) (.pumpSlice c _ s)

theorem endFill (c : Ctl) (u : Units) (s : Nat) (k : Pkt) (st : Nat) (b : Bool) : SliceOnly u (endFill c u s k st b) := by
  unfold Machine.endFill
  refine trans ?_ (.pumpSlice c _ s)
  split
  · exact .refl u
  · split
    · exact .of_false rfl rfl
    · exact .of_false (sliceCore_settleFill ..) (sliceCore_settleFill ..)

end SliceOnly

/-- What the commands of a slice have in common: the inside of the network, the bookkeeping of the slices, and the work of a slice. -/
def SliceStep (u x : Units) : Prop := ∃ t m g, SliceOnly { u with transit := t, slotMode := m, stg := g } x

theorem onPkt_sliceStep {u : Units} {id : Nat} {ty : PktType} {f : Pkt → Units → Units} (h : ∀ k w, SliceOnly (dropPkt w k.id) (f k w)) : SliceStep u (onPkt u id ty f) := by
  unfold onPkt
  split
  · rename_i k w l
    obtain ⟨t, m, rfl⟩ := (landing_cases l).1
    exact ⟨t, m, u.stg, SliceOnly.trans (x := dropPkt { u with transit := t, slotMode := m } k.id) (.of_false rfl rfl) (h k _)⟩
  · exact ⟨u.transit, u.slotMode, u.stg, .refl u⟩

theorem epochAckOp_sliceStep (c : Ctl) (u : Units) (s : Nat) : SliceStep u (epochAckOp c u s) :=
  ⟨u.transit, u.slotMode, { u.stg with unacked := u.stg.unacked.filter fun i => i != s },
    SliceOnly.trans (x := { setSlice u s { slice u s with epochSeen := u.stg.e } with stg := { u.stg with unacked := u.stg.unacked.filter fun i => i != s } })
      (.of_false rfl rfl) (.pumpSlice c _ s)⟩

/-- Settles O15: each of the four commands is a `SliceStep`, which leaves all the listed parts as they were. -/
theorem sliceWorkKeepsTheRest : Obligations.SliceWorkKeepsTheRest := by
  unfold Obligations.SliceWorkKeepsTheRest
  intro s t i pkt sl hi h
  have step : ∃ f, exec i s = onU s f ∧ SliceStep (fresh s) (f s.ctl (fresh s)) := by
    rcases hi with rfl | rfl | rfl | rfl
    · exact ⟨_, exec_lineReq pkt .none s, onPkt_sliceStep fun k w => .arriveSlice ..⟩
    · exact ⟨_, exec_lineWr pkt .none s, onPkt_sliceStep fun k w => by rw [lineWrOp_none]; exact .arriveSlice ..⟩
    · exact ⟨_, exec_fillData pkt .none s, onPkt_sliceStep fun k w => by rw [fillDataOp_none]; exact .endFill ..⟩
    · refine ⟨_, exec_epochAck sl s, ?_⟩
      split
      · exact epochAckOp_sliceStep ..
      · exact ⟨_, _, _, .refl _⟩
  obtain ⟨f, run, a, m, g, core, pins⟩ := step
  rw [run] at h
  obtain rfl := onU_inj h
  generalize f s.ctl (fresh s) = x at core pins
  have part {α : Type} (p : Units → α) : p (sliceCore true x) = p (sliceCore true { fresh s with transit := a, slotMode := m, stg := g }) := congrArg p core
  exact ⟨rfl, rfl, part Units.ports, part Units.ctxEven, part Units.ctxOdd, part Units.keys, part Units.hng, pins, part Units.drf, part Units.keep, part Units.media, part Units.cex,
    part Units.grp, part Units.rings, part fun y => y.regs.staged, part fun y => y.regs.bankA, part fun y => y.regs.bankB, part fun y => y.regs.epoch,
    part Units.pd, part Units.fences, part Units.pwr, part Units.boot⟩

end Sys2Proof.Machine
end

section
/-! PROOF. Fills, placement and destage at the hinge unit and the media groups: what a FILL_REQ is answered (R37, R345, R360), how a direct read begins (R316), and how a destaged line enters its entry (R329). -/

namespace Sys2Proof.Machine

/-! ### FILL_REQ (R37, R38, R345, R360) -/

section
variable {u : Units} {k : Pkt}

/-- The hinge unit's answer to the slice that asked, with a status. -/
theorem hingeDone_back (u : Units) (k : Pkt) (st : Nat) : ∃ y ∈ (hingeDone u k st).net, (y.src = epCore 1 ∧ y.dst = k.src ∧ y.lla = k.lla ∧ y.port = k.port ∧ y.ord = k.ord) ∧ y.typ = .done ∧ y.aux = st :=
  ⟨_, mem_send .., ⟨rfl, rfl, rfl, rfl, rfl⟩, rfl, rfl⟩

/-- The zero-line indication to the slice that asked. -/
theorem hingeZero_back (u : Units) (k : Pkt) : ∃ y ∈ (hingeZero u k).net, (y.src = epCore 1 ∧ y.dst = k.src ∧ y.lla = k.lla ∧ y.port = k.port ∧ y.ord = k.ord) ∧ y.typ = .zero := by
  let z : Pkt := { typ := .zero, src := epCore 1, dst := k.src, prio := k.prio, epoch := k.epoch, port := k.port, ord := k.ord, lla := k.lla, kind := k.kind, cls := k.cls, zline := true }
  refine ⟨{ z with id := (count u (cCore 11)).nextPkt }, ?_, ⟨rfl, rfl, rfl, rfl, rfl⟩, rfl⟩
  have sent := mem_send (count u (cCore 11)) z
  unfold hingeZero
  dsimp only
  split
  · exact List.mem_append_left _ sent
  · exact sent

theorem fillReqOp_lost (h : badRegion u (k.lla / 131072) = true ∨ hLost (hingeEntry u (k.lla / 131072)) = true) :
    fillReqOp u k .none = hingeDone (releaseTicket (dropPkt u k.id) k.pool) k 7 := if_pos h

variable (sound : badRegion u (k.lla / 131072) = false) (kept : hLost (hingeEntry u (k.lla / 131072)) = false)
include sound kept

theorem fillReqOp_fresh (new : hFresh (hingeEntry u (k.lla / 131072)) = true) : fillReqOp u k .none = hingeZero (releaseTicket (dropPkt u k.id) k.pool) k :=
  (if_neg (by simp [sound, kept])).trans (if_pos new)

variable (old : hFresh (hingeEntry u (k.lla / 131072)) = false)
include old

theorem fillReqOp_fenced (fence : routeRefused u (epCore 1) (epGroup (prnGroup u.v (placeOf u (k.lla / 131072) (k.lla / 8 % 16384)) / 8)) = true) :
    fillReqOp u k .none = hingeDone (releaseTicket (dropPkt u k.id) k.pool) k 4 :=
  (if_neg (by simp [sound, kept])).trans ((if_neg (by simp [old])).trans (if_pos fence))

theorem fillReqOp_forward {p g : Nat} (place : placeOf u (k.lla / 131072) (k.lla / 8 % 16384) = p) (group : prnGroup u.v p = g) (fence : routeRefused u (epCore 1) (epGroup (g / 8)) = false)
    (free : canTake u (poolId 0 (epCore 1) (epGroup (g / 8))) k.prio = true) (first : fwdRival u (epGroup (g / 8)) k = false) :
    ∃ y ∈ (fillReqOp u k .none).net, y.typ = .fillFwd ∧ y.dst = epGroup (g / 8) ∧ y.group = g ∧ y.dla = stripeDla u p (k.lla / 8 % 16384) ∧
      y.pos = dataPos (stripeDla u p (k.lla / 8 % 16384)) (k.lla % 8) ∧ y.prn = p ∧ y.gen = pGen (pipEntry u p) ∧ y.lla = k.lla := by
  subst place group
  unfold fillReqOp
  dsimp only
  rw [if_neg (by simp [sound, kept]), if_neg (by simp [old]), if_neg (by simp [fence]), if_neg (by simp [free, first])]
  exact ⟨_, mem_send .., rfl, rfl, rfl, rfl, rfl, rfl, rfl, rfl⟩

end

/-- Settles O16: the four answers of `fillReqOp`, by the state of the region and of the way to its group. -/
theorem fillRequestAnswered : Obligations.FillRequestAnswered := by
  unfold Obligations.FillRequestAnswered
  intro s pkt k w h core mounted l e p g dla back
  have run := exec_lands (f := fun _ k u => if hingeRuns u then fillReqOp u k .none else u) (exec_fillReq ⟨pkt, .none⟩ s) h
  obtain ⟨t, m, rfl⟩ := lands_netOnly h
  have runs : hingeRuns { fresh s with transit := t, slotMode := m } = true := by
    unfold hingeRuns
    rw [Bool.and_eq_true]
    exact ⟨core, mounted⟩
  rw [if_pos runs] at run
  generalize hu : ({ fresh s with transit := t, slotMode := m } : Units) = u at run
  refine ⟨fun lost => ?_, fun sound kept new => ?_, fun sound kept old fence => ?_, fun sound kept old fence free first => ?_⟩
  · rw [fillReqOp_lost (by subst hu; exact lost)] at run
    obtain ⟨y, hy, shape, rest⟩ := hingeDone_back (releaseTicket (dropPkt u k.id) k.pool) k 7
    exact ⟨_, y, run, ⟨hy, shape⟩, rest⟩
  · rw [fillReqOp_fresh (by subst hu; exact sound) (by subst hu; exact kept) (by subst hu; exact new)] at run
    obtain ⟨y, hy, shape, rest⟩ := hingeZero_back (releaseTicket (dropPkt u k.id) k.pool) k
    exact ⟨_, y, run, ⟨hy, shape⟩, rest⟩
  · rw [fillReqOp_fenced (by subst hu; exact sound) (by subst hu; exact kept) (by subst hu; exact old) (by subst hu; exact fence)] at run
    obtain ⟨y, hy, shape, rest⟩ := hingeDone_back (releaseTicket (dropPkt u k.id) k.pool) k 4
    exact ⟨_, y, run, ⟨hy, shape⟩, rest⟩
  · obtain ⟨y, hy, shape⟩ := fillReqOp_forward (u := u) (p := p) (g := g) (by subst hu; exact sound) (by subst hu; exact kept) (by subst hu; exact old)
      (by subst hu; rfl) (by subst hu; rfl) (by subst hu; exact fence) (by subst hu; exact free) (by subst hu; exact first)
    subst hu
    exact ⟨_, y, run, hy, shape⟩

/-! ### A direct read (R282 to R284, R316, R317) -/

theorem fwdCode_lt (k : Pkt) : fwdCode k < 16 := by unfold fwdCode; omega

/-- A fill of an idle die that decodes frames, outside its window and with nothing before it there: the die senses the line with the code of the packet. -/
theorem startRead_senses {u : Units} {g n d : Nat} {k : Pkt} (hn : n = 9 * g + k.pos) (hd : d = k.group % 8) (hg : g < 8) (hpos : k.pos < 9) (hcls : 2 ≤ k.cls)
    (hbuf : bufAt u g k.group k.dla = none) (hfail : failedPos u k.group = []) (hdet : takesDetour u g k = false) (hw : (grp u g).phase ≠ k.pos) (hst : (dieOf u n d).st = .idle)
    (hres : (dieOf u n d).result = none) (hqu : (dieOf u n d).queue = []) (hpau : paused u n = false) (hecho : (dieOf u n d).chip.echo = 0) (hidle : (dieOf u n d).chip.state = .idle)
    (hdla : k.dla < 2 ^ 31) (hlines : k.dla < dieLines u n d) :
    (∃ slow, .cexus n (csMask [d]) slow (caBeats (frameWord 32 k.dla)) ∈ (startRead u g k .fill).out) ∧
      (dieOf (startRead u g k .fill) n d).st = .sensing ∧ (dieOf (startRead u g k .fill) n d).chip.op = .read k.dla (fwdCode k) ∧
      (fwdCode k ≠ tabGet (dieOf u n d).chip.refs (k.dla % 4) → ∃ slow, .cexus n (csMask [d]) slow (caBeats (frameWord 7 (fwdCode k + k.dla % 4 * 16))) ∈ (startRead u g k .fill).out) := by
  subst hn hd
  rw [startRead_direct hpos hcls hbuf hfail hdet]
  generalize hr : ({ id := (grp u g).nextRead, pkt := k, use := .fill, old := fwdOld k } : MRead) = r
  have hk : r.pkt = k := by rw [← hr]
  generalize hv : setGrp u g { grp u g with nextRead := (grp u g).nextRead + 1, reads := (grp u g).reads ++ [r] } = v
  have gv : grp v g = { grp u g with nextRead := (grp u g).nextRead + 1, reads := (grp u g).reads ++ [r] } := by rw [← hv]; exact grp_setGrp ..
  have dv : v.cex = u.cex := by rw [← hv]; rfl
  have ng : (9 * g + k.pos) / 9 = g := by omega
  have pv : paused v (9 * g + k.pos) = false := by
    rw [← hpau]
    refine paused_congr (by omega) ?_ ?_ ?_ ?_ (by rw [ng, gv]) (by rw [ng, gv]) (by rw [ng, gv]) (by rw [ng, gv]) fun _ _ _ => ?_ <;> rw [← hv] <;> rfl
  have same : dieOf v = dieOf u := by unfold dieOf cex; rw [dv]
  have lines : dieLines v = dieLines u := by unfold dieLines cex; rw [dv]
  obtain ⟨y, f, sensed, fdla, fcode, chip, ylines⟩ := beginDirect_reads (v := v) (g := g) (r := r) (c := fwdCode k) (by rw [← hr]) hg (by rwa [hk]) (by rw [gv, hk]; exact hw)
    (by rwa [hk]) (by rwa [hk, same]) (by rwa [hk, same]) (by rwa [hk, same])
  rw [hk] at sensed fdla chip ylines
  rw [same] at chip
  rw [lines] at ylines
  obtain ⟨⟨read, sensing, -, op⟩, setRef⟩ := senseRead_does (u := y) (e := f) (by rwa [chip]) (by rwa [chip]) (by rw [fcode]; exact fwdCode_lt k) (by rwa [fdla]) (by rwa [fdla, ylines])
  rw [fdla, fcode] at op
  rw [fdla, fcode, chip] at setRef
  rw [fdla] at read
  rw [sensed]
  exact ⟨read, sensing, op, setRef⟩

/-- Settles O17: `startRead_senses`, on the units in which the FILL_FWD has left its slot and given its ticket back. -/
theorem mediaReadBegins : Obligations.MediaReadBegins := by
  unfold Obligations.MediaReadBegins
  intro s pkt k w h g n d x code on hg hpos hcls hbuf hfail hdet hw hst hres hqu hpau hecho hidle hdla hlines
  have run := exec_lands (f := fun _ k u => if pdOn u (pdMedia (k.dst - 64)) then landOne u k .none fun u => fillFwdOp u k else u) (exec_fillFwd ⟨pkt, .none⟩ s) h
  obtain ⟨t, m, rfl⟩ := lands_netOnly h
  rw [if_pos (show pdOn { fresh s with transit := t, slotMode := m } (pdMedia (k.dst - 64)) = true from on)] at run
  obtain ⟨a, b, c, e, -⟩ := releaseTicket_keeps (dropPkt { fresh s with transit := t, slotMode := m } k.id) k.pool 1
  have begun : landOne { fresh s with transit := t, slotMode := m } k .none (fun u => fillFwdOp u k) = startRead (releaseTicket (dropPkt { fresh s with transit := t, slotMode := m } k.id) k.pool) g k .fill := rfl
  rw [begun, e] at run
  exact ⟨_, run, startRead_senses rfl rfl hg hpos hcls hbuf hfail hdet hw hst hres hqu hpau hecho hidle hdla hlines⟩

/-! ### A destaged line (R329, R330, R401) -/

/-- A line stored in an entry: it is held with the others, whose lines stay. -/
theorem storeLine_does {u : Units} {g j : Nat} {b : SBuf} {l : MLine} (hb : bufOf u g b.id = some b) (new : b.held.contains j = false) :
    bufOf (storeLine u g b j l) g b.id = some { b with lines := tabPut b.lines j l, held := b.held ++ [j] } := by
  unfold storeLine
  rw [new, if_neg (by decide)]
  exact bufOf_putBuf (b := { b with lines := tabPut b.lines j l, held := b.held ++ [j] }) hb

/-- A whole DESTAGE packet that finds its stripe's entry, which no read waits for and which it does not complete. -/
theorem destageOp_stores {u : Units} {k : Pkt} {b : SBuf} (quiet : (grp u (k.dst - 64)).reads = [])
    (mine : (grp u (k.dst - 64)).bufs.find? (fun b => b.group == k.group && b.dla == k.dla && b.use == .destage (k.src - 32) && !b.formed && b.held.length < b.want) = some b)
    (hb : bufOf u (k.dst - 64) b.id = some b) (new : b.held.contains (k.lla % 8) = false) (more : b.held.length + 1 < b.want) :
    destageOp u k .none = storeLine (releaseTicket (dropPkt u k.id) k.pool) (k.dst - 64) b (k.lla % 8)
      (if k.poison then poisonLine k.gen k.lla else { data := k.data, metaWord := metaOf k.gen false (addrCheck k.lla) }) := by
  obtain ⟨x, hx⟩ : ∃ x, x = releaseTicket (dropPkt u k.id) k.pool := ⟨_, rfl⟩
  have same : x.grp = u.grp := by
    obtain ⟨_, _, _, e, -⟩ := releaseTicket_keeps (dropPkt u k.id) k.pool 1
    rw [hx, e]
    rfl
  have hbx : bufOf x (k.dst - 64) b.id = some b := by unfold bufOf grp at *; rwa [same]
  have still (j : Nat) (l : MLine) : (grp (storeLine x (k.dst - 64) b j l) (k.dst - 64)).reads = [] := by
    unfold storeLine putBuf
    rw [grp_setGrp]
    unfold grp at *
    rwa [same]
  unfold destageOp
  dsimp only
  rw [mine]
  dsimp only [landFlit]
  rw [← hx, if_neg (by decide), hbx]
  dsimp only
  rw [storeLine_does hbx new]
  dsimp only
  rw [serveBuf_none (still ..), if_neg (by omega), Bool.or_false]

/-- Settles O18: `destageOp_stores`, and what `storeLine_does`. -/
theorem destagedLineEntersTheStripeBuffer : Obligations.DestagedLineEntersTheStripeBuffer := by
  unfold Obligations.DestagedLineEntersTheStripeBuffer
  intro s pkt k w b h g on quiet mine hb new more
  have run := exec_lands (f := fun _ k u => if pdOn u (pdMedia (k.dst - 64)) then destageOp u k .none else u) (exec_destage pkt .none s) h
  obtain ⟨t, m, rfl⟩ := lands_netOnly h
  rw [if_pos (show pdOn { fresh s with transit := t, slotMode := m } (pdMedia (k.dst - 64)) = true from on), destageOp_stores (u := { fresh s with transit := t, slotMode := m }) quiet mine hb new more] at run
  obtain ⟨_, _, _, e, -⟩ := releaseTicket_keeps (dropPkt { fresh s with transit := t, slotMode := m } k.id) k.pool 1
  rw [e] at run
  exact ⟨_, _, run, storeLine_does hb new, rfl, tabGet_put_same .., fun j hj => tabGet_put_other hj ..⟩

end Sys2Proof.Machine
end

section
/-! PROOF. The hinge unit places the stripe that a slice asks for and pins it (R345, R351, R372, R377). -/

namespace Sys2Proof.Machine

/-! ### What changing the tables leaves alone -/

/-- Units that differ in the hinge unit and in what notices, events and counts may change. -/
def HingeOnly (u x : Units) : Prop :=
  ∃ r w o c t h, x = { u with rings := r, pwr := { u.pwr with notices := w }, out := o, regs := { u.regs with cur := c }, tele := t, hng := h }

namespace HingeOnly

theorem hng (u : Units) (h : Hinge) : HingeOnly u { u with hng := h } := ⟨_, _, _, _, _, _, rfl⟩

theorem putReg (u : Units) (r : Reg) (i j x : Nat) : HingeOnly u (Machine.putReg u r i j x) := ⟨_, _, _, _, _, _, rfl⟩

theorem notices {u x : Units} (h : NoticeOnly u x) : HingeOnly u x := by
  obtain ⟨⟨_, _, _, _, _, rfl⟩, -⟩ := h
  exact ⟨_, _, _, _, _, _, rfl⟩

theorem trans {u x y : Units} (h : HingeOnly u x) (k : HingeOnly x y) : HingeOnly u y := by
  obtain ⟨_, _, _, _, _, _, rfl⟩ := h
  obtain ⟨_, _, _, _, _, _, rfl⟩ := k
  exact ⟨_, _, _, _, _, _, rfl⟩

variable {u x : Units}

theorem slices (h : HingeOnly u x) : x.slices = u.slices := by obtain ⟨_, _, _, _, _, _, rfl⟩ := h; rfl
theorem fences (h : HingeOnly u x) : x.fences = u.fences := by obtain ⟨_, _, _, _, _, _, rfl⟩ := h; rfl
theorem v (h : HingeOnly u x) : x.v = u.v := by obtain ⟨_, _, _, _, _, _, rfl⟩ := h; rfl
theorem drf (h : HingeOnly u x) : x.drf = u.drf := by obtain ⟨_, _, _, _, _, _, rfl⟩ := h; rfl

theorem closeBlock (u : Units) : HingeOnly u (closeBlock u) := by
  unfold Machine.closeBlock
  dsimp only
  split
  · exact .hng ..
  · exact .hng ..

theorem journal (u : Units) (t i v a : Nat) : HingeOnly u (journal u t i v a) := by
  unfold Machine.journal
  dsimp only
  split
  · exact trans (.hng ..) (.closeBlock _)
  · exact .hng ..

theorem journalWith (u : Units) (h : Hinge) (t i v a : Nat) : HingeOnly u (Machine.journal { u with hng := h } t i v a) := trans (.hng ..) (.journal ..)

theorem checkPool (u : Units) : HingeOnly u (checkPool u) := by
  unfold Machine.checkPool
  split
  · split
    · exact trans (.hng ..) (trans (.putReg ..) (trans (.notices (.counts (emitEvent_only ..))) (.notices (.notice ..))))
    · exact .hng ..
  · exact .hng ..

theorem putHinge (u : Units) (l e : Nat) : HingeOnly u (putHinge u l e) := .journalWith ..

theorem putPip (u : Units) (p e : Nat) (j : Bool) : HingeOnly u (putPip u p e j) := by
  unfold Machine.putPip
  dsimp only
  have written (h : Hinge) : HingeOnly u (Machine.journal { moveCounts u p (pState (pipEntry u p)) (pState e) j with hng := h } 2 p e 0) :=
    trans (x := moveCounts u p (pState (pipEntry u p)) (pState e) j) (.hng ..) (.journalWith ..)
  refine trans ?_ (.checkPool _)
  split
  · exact written _
  · exact trans (written _) (.putReg ..)

end HingeOnly

/-! ### Where no fence stands -/

section
variable {u : Units} (clear : u.fences = [])
include clear

theorem routeRefused_clear (a b : Nat) : routeRefused u a b = false := by
  unfold routeRefused fenced
  rw [clear]
  simp

theorem groupFenced_clear (n : Nat) : groupFenced u n = false := by
  unfold groupFenced fenced
  rw [clear]
  rfl

/-- Without a fence no job is given up, and the hinge unit keeps its pins. -/
theorem advanceJobs_clear (s p : Nat) : (advanceJobs u s p).hng = u.hng := by
  unfold advanceJobs
  generalize (slice u s).jobs = l
  induction l generalizing u with
  | nil => rfl
  | cons a t ih =>
    rw [List.foldl_cons]
    split
    · exact ih clear
    · rename_i j _
      rw [if_neg (by rw [routeRefused_clear clear]; simp)]
      have core := (sliceCore_sendJob (pk := false) (queueJobReads u s j p).1 s (queueJobReads u s j p).2 p).trans (sliceCore_queueJobReads u s j p)
      refine (ih ?_).trans (hng_of_sliceCore core)
      exact (congrArg Units.fences core).trans clear

theorem pumpSlice_clear (c : Ctl) (s : Nat) : (pumpSlice c u s).hng = u.hng := by
  have ends (v : Units) : (settleCeiling (returnWithheld s 136 (tidySlice v s)) s).hng = v.hng := by
    apply hng_of_sliceCore
    unfold settleCeiling tidySlice
    simp
  have starts : sliceCore false (settleFills (serveAll (serveAll (settleFills u s) s) s) s) = sliceCore false u := by simp
  rw [pumpSlice, ends]
  generalize settleFills (serveAll (serveAll (settleFills u s) s) s) s = y at starts
  rw [advanceJobs_clear (show y.fences = [] from (congrArg Units.fences starts).trans clear), hng_of_sliceCore starts]

end

/-! ### The answer (R345, R351, R372, R377) -/

section
variable {c : Ctl} {u : Units} {l t : Nat} (sound : badRegion u l = false) (kept : hLost (hingeEntry u l) = false) (free : regionHeld u l = false) (clear : u.fences = [])
include sound kept free clear

/-- A fresh region leaves the fresh state, and its physical region is occupied from now on. -/
theorem placementAnswer_fresh {p e n : Nat} (hp : hPrn (hingeEntry u l) = p) (he : pipEntry u p = e) (hn : u.drf.e % 32 = n) (new : hFresh (hingeEntry u l) = true) (formatted : pState e ≠ 3) :
    placementAnswer c u l t =
      (.at_ p (stripeDla (recount u l fun x => putPip (putHinge x l (nput (hingeEntry u l) 23 1 0)) p (nput (nput (nput e 46 5 n) 51 5 n) 56 3 2)) p t) (pGen e) true,
        count (pinStripe (recount u l fun x => putPip (putHinge x l (nput (hingeEntry u l) 23 1 0)) p (nput (nput (nput e 46 5 n) 51 5 n) 56 3 2)) l t) (cCore 10)) := by
  unfold placementAnswer
  dsimp only
  rw [if_neg (by simp [sound, kept]), if_neg (by simp [free]), if_neg (by simp [groupFenced_clear clear]), if_neg (by simp [hp, he, formatted]), if_pos new, hp, he, hn]

/-- A region that is not fresh, does not move and was last written in this age epoch. -/
theorem placementAnswer_kept (old : hFresh (hingeEntry u l) = false) (still : moveOf u l = none) (young : pNewest (pipEntry u (hPrn (hingeEntry u l))) = u.drf.e % 32) :
    placementAnswer c u l t = (.at_ (hPrn (hingeEntry u l)) (stripeDla u (hPrn (hingeEntry u l)) t) (pGen (pipEntry u (hPrn (hingeEntry u l)))) false, count (pinStripe u l t) (cCore 10)) := by
  have place : placeOf u l t = hPrn (hingeEntry u l) := by
    unfold placeOf
    dsimp only
    rw [still, ite_self]
  unfold placementAnswer
  dsimp only
  rw [if_neg (by simp [sound, kept]), if_neg (by simp [free]), if_neg (by simp [groupFenced_clear clear]), if_neg (by simp [old]), if_neg (by simp [old]), still]
  simp [young, place]

end

/-- The spin of a region whose ages and state have been written. -/
theorem pSpin_freshened (e n : Nat) : pSpin (nput (nput (nput e 46 5 n) 51 5 n) 56 3 2) = pSpin e := by
  unfold pSpin
  rw [nbits_nput_below (by decide), nbits_nput_below (by decide), nbits_nput_below (by decide)]

/-- What PLACEMENT_REQUEST does with an answer that gives a place. -/
theorem placementOp_placed {c : Ctl} {u x : Units} {sl prn dla gen : Nat} {fresh : Bool} {j : Destage} (hj : (slice u sl).jobs.find? (fun j => j.phase == .asking) = some j)
    (answer : placementAnswer c u (j.stripe / 16384) (j.stripe % 16384) = (.at_ prn dla gen fresh, x)) :
    placementOp c u sl = pumpSlice c (putJob x sl { j with phase := .placed, group := prnGroup x.v prn, prn := prn, dla := dla, gen := gen, fresh := fresh }) sl := by
  unfold placementOp
  rw [hj]
  dsimp only
  rw [answer]

/-- The job of a stripe that has been placed at a physical region. -/
def placedJob (u : Units) (j : Destage) (p : Nat) (fresh : Bool) : Destage :=
  { j with phase := .placed, group := prnGroup u.v p, prn := p, dla := stripeDla u p (j.stripe % 16384), gen := pGen (pipEntry u p), fresh := fresh }

section
variable {c : Ctl} {u : Units} {sl p : Nat} {j : Destage} (clear : u.fences = []) (hj : (slice u sl).jobs.find? (fun j => j.phase == .asking) = some j)
  (sound : badRegion u (j.stripe / 16384) = false) (kept : hLost (hingeEntry u (j.stripe / 16384)) = false) (free : regionHeld u (j.stripe / 16384) = false)
  (hp : hPrn (hingeEntry u (j.stripe / 16384)) = p)
include clear hj sound kept free hp

theorem placementOp_kept (old : hFresh (hingeEntry u (j.stripe / 16384)) = false) (still : moveOf u (j.stripe / 16384) = none) (young : pNewest (pipEntry u p) = u.drf.e % 32) :
    ∃ x, x.slices = u.slices ∧ placementOp c u sl = pumpSlice c (putJob x sl (placedJob u j p false)) sl ∧ (placementOp c u sl).hng.pins = u.hng.pins ++ [j.stripe] ∧
      (placementOp c u sl).hng.hinge = u.hng.hinge ∧ (placementOp c u sl).hng.pip = u.hng.pip := by
  subst hp
  have answer := placementAnswer_kept (c := c) (t := j.stripe % 16384) sound kept free clear old still young
  have stripe : j.stripe / 16384 * 16384 + j.stripe % 16384 = j.stripe := by omega
  obtain ⟨x, hx⟩ : ∃ x, x = count (pinStripe u (j.stripe / 16384) (j.stripe % 16384)) (cCore 10) := ⟨_, rfl⟩
  rw [← hx] at answer
  have xh : x.hng = { u.hng with pins := u.hng.pins ++ [j.stripe / 16384 * 16384 + j.stripe % 16384] } := by rw [hx, count_hng]; rfl
  have xv : x.v = u.v := by rw [hx, count_v]; rfl
  have xf : x.fences = [] := by rw [hx, count_fences]; exact clear
  rw [stripe] at xh
  rw [placementOp_placed hj answer, xv]
  have zh (z : Destage) : (pumpSlice c (putJob x sl z) sl).hng = { u.hng with pins := u.hng.pins ++ [j.stripe] } := (pumpSlice_clear (u := putJob x sl z) xf c sl).trans xh
  refine ⟨x, by rw [hx, count_slices]; rfl, rfl, ?_⟩
  rw [zh]
  exact ⟨rfl, rfl, rfl⟩

theorem placementOp_fresh (mounted : u.hng.mounted = true) (inside : p < nPhys u.v) (new : hFresh (hingeEntry u (j.stripe / 16384)) = true) (formatted : pState (pipEntry u p) ≠ 3) :
    ∃ x, x.slices = u.slices ∧ placementOp c u sl = pumpSlice c (putJob x sl (placedJob u j p true)) sl ∧ (placementOp c u sl).hng.pins = u.hng.pins ++ [j.stripe] ∧
      hingeEntry (placementOp c u sl) (j.stripe / 16384) = nput (hingeEntry u (j.stripe / 16384)) 23 1 0 ∧
      pipEntry (placementOp c u sl) p = nput (nput (nput (pipEntry u p) 46 5 (u.drf.e % 32)) 51 5 (u.drf.e % 32)) 56 3 2 := by
  have stripe : j.stripe / 16384 * 16384 + j.stripe % 16384 = j.stripe := by omega
  have answer := placementAnswer_fresh (c := c) (t := j.stripe % 16384) sound kept free clear hp rfl rfl new formatted
  have occupied : 1 < pState (nput (nput (nput (pipEntry u p) 46 5 (u.drf.e % 32)) 51 5 (u.drf.e % 32)) 56 3 2) := by rw [(freshened _ _).1]; decide
  have spun := pSpin_freshened (pipEntry u p) (u.drf.e % 32)
  generalize nput (nput (nput (pipEntry u p) 46 5 (u.drf.e % 32)) 51 5 (u.drf.e % 32)) 56 3 2 = ne at answer occupied spun ⊢
  generalize nput (hingeEntry u (j.stripe / 16384)) 23 1 0 = he at answer ⊢
  obtain ⟨ages, counted⟩ := recount_does u (j.stripe / 16384) fun x => putPip (putHinge x (j.stripe / 16384) he) p ne
  obtain ⟨y, hy⟩ : ∃ y, y = putPip (putHinge u (j.stripe / 16384) he) p ne := ⟨_, rfl⟩
  rw [← hy] at counted
  rw [counted] at answer
  have only : HingeOnly u y := hy ▸ .trans (.putHinge ..) (.putPip ..)
  have pins : y.hng.pins = u.hng.pins := hy ▸ (pins_written (prnGroup_lt _ _ inside)).1
  have tables (t : Units) (q : List Nat) (hh : t.hng = { y.hng with pins := q }) (hv : t.v = y.v) : hingeEntry t (j.stripe / 16384) = he ∧ pipEntry t p = ne :=
    tables_written mounted (prnGroup_lt _ _ inside) occupied (by rw [hh, hy]) (hv.trans only.v)
  have spin : stripeDla { y with drf := { y.drf with ages := ages } } p (j.stripe % 16384) = stripeDla u p (j.stripe % 16384) := by
    unfold stripeDla
    rw [(tables { y with drf := { y.drf with ages := ages } } y.hng.pins rfl rfl).2, spun, ← only.v]
  rw [spin] at answer
  obtain ⟨x, hx⟩ : ∃ x, x = count (pinStripe { y with drf := { y.drf with ages := ages } } (j.stripe / 16384) (j.stripe % 16384)) (cCore 10) := ⟨_, rfl⟩
  rw [← hx] at answer
  have xh : x.hng = { y.hng with pins := y.hng.pins ++ [j.stripe / 16384 * 16384 + j.stripe % 16384] } := by rw [hx, count_hng]; rfl
  have xv : x.v = y.v := by rw [hx, count_v]; rfl
  have xf : x.fences = [] := by rw [hx, count_fences]; exact only.fences.trans clear
  rw [stripe, pins] at xh
  have zh (z : Destage) : (pumpSlice c (putJob x sl z) sl).hng = { y.hng with pins := u.hng.pins ++ [j.stripe] } := (pumpSlice_clear (u := putJob x sl z) xf c sl).trans xh
  have zv (z : Destage) : (pumpSlice c (putJob x sl z) sl).v = y.v := (sliceCore_v (sliceCore_pumpSlice ..)).trans xv
  rw [placementOp_placed hj answer, xv, only.v]
  exact ⟨x, by rw [hx, count_slices]; exact only.slices, rfl, congrArg Hinge.pins (zh _), tables _ _ (zh _) (zv _)⟩

end

/-- Settles O19: `placementOp_fresh` and `placementOp_kept`. -/
theorem placementIsAnswered : Obligations.PlacementIsAnswered := by
  unfold Obligations.PlacementIsAnswered
  intro s sl j served core mounted clear hj l e p sound kept free inside placed
  have run : exec (.placementRequest sl) s = .next { s with u := placementOp s.ctl (fresh s) sl } :=
    (exec_placementRequest sl s).trans (onU_next (if_pos (by unfold hingeRuns; rw [Bool.and_eq_true, Bool.and_eq_true]; exact ⟨served, core, mounted⟩)))
  refine ⟨fun new formatted => ?_, fun old still young => ?_⟩
  · obtain ⟨x, slices, placedAt, pins, hinge, pip⟩ := placementOp_fresh (c := s.ctl) (u := fresh s) (p := p) clear hj sound kept free rfl mounted inside new formatted
    obtain ⟨state, oldest, newest, gen⟩ := freshened (pipEntry s.u p) (s.u.drf.e % 32)
    rw [Nat.mod_mod] at oldest newest
    refine ⟨_, ⟨run, pins, x, slices, placedAt⟩, hinge, ?_⟩
    dsimp only
    rw [pip]
    exact ⟨state, oldest, newest, gen⟩
  · obtain ⟨x, slices, placedAt, pins, tables⟩ := placementOp_kept (c := s.ctl) (u := fresh s) clear hj sound kept free rfl old still young
    exact ⟨_, ⟨run, pins, x, slices, placedAt⟩, tables⟩

end Sys2Proof.Machine
end

section
/-! PROOF. The end and the beginning of a destage: what a stripe written releases (R212, R330), and the stripe that comes first (R211). -/

namespace Sys2Proof.Machine

/-! ### A stripe written (R208, R212, R330) -/

/-- A way that stays dirty keeps its state, and the count stays. -/
theorem finishWay_dirty {u : Units} {s : Nat} {j : Destage} {x : Slice} {h : BitVec 512} {w : Nat} {d : Nat × Nat} (hw : w < 15) (hd : keptEpoch u s j h w = some d) :
    (finishWay u s j (x, h) w).1.dirty = x.dirty ∧ wayState (finishWay u s j (x, h) w).2 w = wayState h w := by
  unfold finishWay
  dsimp only
  rw [hd]
  exact ⟨rfl, (wayState_setWay _ _ _ _ _ _ hw).trans (Nat.mod_eq_of_lt (nbits_lt _ _ 2))⟩

theorem listFull_does (u : Units) (s set tag : Nat) : (slice (listFull u s set tag) s).cache = (slice u s).cache ∧ (slice (listFull u s set tag) s).dirty = (slice u s).dirty ∧
    (slice (listFull u s set tag) s).jobs = (slice u s).jobs := by
  unfold listFull
  dsimp only
  split
  · exact ⟨rfl, rfl, rfl⟩
  · split <;> rw [slice_setSlice_same] <;> exact ⟨rfl, rfl, rfl⟩

/-- The header written is the cached one; the rest of the slice stays. -/
theorem writeHeader_does (u : Units) (s : Nat) (e : HdrEntry) (a b c : Nat) : hdrEntry (writeHeader u s e a b c) s e.set = some { e with soft := false } ∧
    (slice (writeHeader u s e a b c) s).dirty = (slice u s).dirty ∧ (slice (writeHeader u s e a b c) s).jobs = (slice u s).jobs := by
  have same : slice (writeHeader u s e a b c) s = slice (putEntry u s { e with soft := false }) s := slice_congr (wqPut_slices ..) s
  rw [hdrEntry_congr (u := putEntry u s { e with soft := false }) (by rw [same]), same]
  refine ⟨hdrEntry_putEntry u s { e with soft := false }, ?_⟩
  unfold putEntry
  rw [slice_setSlice_same]
  exact ⟨rfl, rfl⟩

/-- The end of a destage whose header is at hand: its ways are finished in order, its job is gone, and the slice goes on. -/
theorem finishDestage_does {c : Ctl} {u : Units} {s : Nat} {j : Destage} {e : HdrEntry} (h : hdrEntry u s j.set = some e) (room : wqRoom u s [j.set * 16] = true) :
    ∃ y e', finishDestage c u s j = (true, pumpSlice c y s) ∧ hdrEntry y s j.set = some e' ∧
      e'.hdr = (j.ways.foldl (fun p w => finishWay u s j p w.1) (slice u s, e.hdr)).2 ∧
      (slice y s).dirty = (j.ways.foldl (fun p w => finishWay u s j p w.1) (slice u s, e.hdr)).1.dirty ∧ ∀ x ∈ (slice y s).jobs, x.stripe ≠ j.stripe := by
  have set : e.set = j.set := hdrEntry_set h
  unfold finishDestage
  rw [h]
  dsimp only
  rw [if_neg (by rw [room]; decide)]
  generalize j.ways.foldl (fun p w => finishWay u s j p w.1) (slice u s, e.hdr) = d
  obtain ⟨x, hdr⟩ := d
  dsimp only
  obtain ⟨entry, dirty, jobs⟩ := writeHeader_does (setSlice u s { x with jobs := x.jobs.filter fun y => y.stripe != j.stripe }) s
    { e with hdr := hdr, busy := e.busy.filter fun b => !(b.2 == .destage && j.ways.any fun w => w.1 == b.1) } 2 (destagePrio c) 64
  rw [slice_setSlice_same] at dirty jobs
  generalize writeHeader _ s _ 2 (destagePrio c) 64 = w at entry dirty jobs ⊢
  obtain ⟨v, hv⟩ : ∃ v, v = if stripeFull hdr j.tag then listFull w s j.set j.tag else w := ⟨_, rfl⟩
  have listed : (slice v s).cache = (slice w s).cache ∧ (slice v s).dirty = (slice w s).dirty ∧ (slice v s).jobs = (slice w s).jobs := by
    rw [hv]
    split
    · exact listFull_does ..
    · exact ⟨rfl, rfl, rfl⟩
  rw [← hv]
  refine ⟨_, { e with hdr := hdr, busy := e.busy.filter fun b => !(b.2 == .destage && j.ways.any fun w => w.1 == b.1), soft := false }, rfl, ?_⟩
  have same : slice (count (if c.mode = .drain then { v with pwr := { v.pwr with drainLines := v.pwr.drainLines + j.ways.length } } else v) (cDdr s 12)) s = slice v s := by
    refine slice_congr ((count_slices ..).trans ?_) s
    split <;> rfl
  obtain ⟨cache, vdirty, vjobs⟩ := listed
  rw [same, vdirty, vjobs, dirty, jobs, hdrEntry_congr (u := w) (by rw [same, cache]), ← set]
  refine ⟨entry, rfl, rfl, fun z hz => ?_⟩
  simpa using (List.mem_filter.mp hz).2

/-- A stripe written whose job's header is at hand: the entry and the pin go, and the slice ends the destage. -/
theorem stripeWrittenOp_ends {c : Ctl} {u y : Units} {s g : Nat} {b : SBuf} {j : Destage} (hb : (grp u g).bufs.find? (fun b => b.use == .destage s && b.formed && b.todo.isEmpty) = some b)
    (hj : (slice u s).jobs.find? (fun j => j.stripe == b.stripe) = some j) (ended : finishDestage c u s j = (true, y)) :
    stripeWrittenOp c u s g = unpinStripe (dropBuf (noteExposed y b) g b.id) (b.stripe / 16384) (b.stripe % 16384) := by
  unfold stripeWrittenOp
  rw [hb]
  dsimp only
  rw [hj]
  dsimp only
  rw [ended]

theorem bufOf_dropBuf (u : Units) (g id : Nat) : bufOf (dropBuf u g id) g id = none := by
  unfold dropBuf
  rw [bufOf_setBufs, List.find?_eq_none]
  intro b hb
  simpa using (List.mem_filter.mp hb).2

theorem noteExposed_slices (u : Units) (b : SBuf) : (noteExposed u b).slices = u.slices := by
  unfold noteExposed
  split
  · rfl
  · dsimp only
    split <;> rfl

/-- Settles O20: `finishDestage_does` for the slice, `stripeWrittenOp_ends` for the entry and the pin; a way by `finishWay_clean`, `finishWay_dirty` and `finishWay_kept`. -/
theorem stripeWrittenReleases : Obligations.StripeWrittenReleases := by
  unfold Obligations.StripeWrittenReleases
  refine ⟨?_, ?_⟩
  · intro s sl g b j e served core mounted hg hb hj he room done
    obtain ⟨y, e', ended, entry, hdr, dirty, jobs⟩ := finishDestage_does (c := s.ctl) (u := fresh s) he room
    obtain ⟨z, ended', -, pins, grps, -⟩ := finishDestage_core (c := s.ctl) (u := fresh s) he room
    have hz : pumpSlice s.ctl y sl = z := (Prod.mk.inj (ended.symm.trans ended')).2
    have run : exec (.stripeWritten sl g) s = .next { s with u := stripeWrittenOp s.ctl (fresh s) sl g } :=
      (exec_stripeWritten sl g s).trans (onU_next (if_pos (by
        unfold hingeRuns
        rw [Bool.and_eq_true, Bool.and_eq_true, Bool.and_eq_true, decide_eq_true_iff]
        exact ⟨⟨served, core, mounted⟩, hg⟩)))
    rw [stripeWrittenOp_ends (u := fresh s) hb hj ended'] at run
    have stripe : b.stripe / 16384 * 16384 + b.stripe % 16384 = b.stripe := by omega
    refine ⟨_, y, e', run, bufOf_dropBuf .., ?_, (noteExposed_slices z b).trans (by rw [hz]), entry, hdr, dirty, jobs⟩
    have gone : (unpinStripe (dropBuf (noteExposed z b) g b.id) (b.stripe / 16384) (b.stripe % 16384)).hng.pins = z.hng.pins.erase (b.stripe / 16384 * 16384 + b.stripe % 16384) := by
      rw [← (noteExposed_pins z b).1]
      rfl
    rw [stripe] at gone
    dsimp only
    rw [gone]
    exact pins.erase _
  · intro u s j x h w hw
    refine ⟨fun none free => finishWay_clean hw ?_, fun none held => finishWay_dirty (d := (w, (slice u s).epochSeen)) hw ?_, fun d found small => finishWay_kept hw ?_ small⟩
    · rw [keptEpoch, none, free]
      rfl
    · rw [keptEpoch, none, held]
      rfl
    · rw [keptEpoch, found]
      rfl

/-! ### The stripe that comes first (R211) -/

section
variable {c : Ctl} {u : Units} {s : Nat} {ok : Nat → Bool} {t : Nat × Nat × List (Nat × Nat)}

/-- In DRAIN: the oldest listed full stripe. -/
theorem nextStripe_full (drain : c.mode = .drain) (h : firstFull u s (fun t => ok (stripeOf u t.1 t.2.1)) = some t) : nextStripe c u s ok = some (false, t) := by
  unfold nextStripe
  dsimp only
  rw [if_pos drain, h]
  rfl

/-- In DRAIN without one: the next stripe of the dirty walk. -/
theorem nextStripe_walk (drain : c.mode = .drain) (none : firstFull u s (fun t => ok (stripeOf u t.1 t.2.1)) = none)
    (h : ((walkStripes u s).filter fun t => ok (stripeOf u t.1 t.2.1)).head? = some t) : nextStripe c u s ok = some (true, t) := by
  unfold nextStripe
  dsimp only
  rw [if_pos drain, none, h]
  rfl

/-- Otherwise a forced stripe. -/
theorem nextStripe_forced {rest : List (Nat × Nat × List (Nat × Nat))} (run : c.mode ≠ .drain)
    (h : ((slice u s).forced.filterMap fun f => stripeAt u s f.1 f.2.1).filter (fun t => ok (stripeOf u t.1 t.2.1)) = t :: rest) : nextStripe c u s ok = some (false, t) := by
  unfold nextStripe
  dsimp only
  rw [if_neg run, h]

/-- Then the next of the walk that holds a line of the epoch the slice works on. -/
theorem nextStripe_epoch {ep : Nat} (run : c.mode ≠ .drain) (none : ((slice u s).forced.filterMap fun f => stripeAt u s f.1 f.2.1).filter (fun t => ok (stripeOf u t.1 t.2.1)) = [])
    (work : epochWork u s = some ep) (h : ((walkStripes u s).filter fun t => ok (stripeOf u t.1 t.2.1)).find? (stripeHasEp u s ep) = some t) : nextStripe c u s ok = some (true, t) := by
  unfold nextStripe
  dsimp only
  rw [if_neg run, none, work, Option.bind_some, h]

end

theorem exec_destageStart_begins {s : State} {sl : Nat} {walked : Bool} {t : Nat × Nat × List (Nat × Nat)} (served : inService s.u sl = true) (core : pdOn s.u 2 = true)
    (mounted : s.u.hng.mounted = true) (due : movesRun s.ctl s.u = true ∨ s.ctl.mode = .drain) (next : nextStripe s.ctl (fresh s) sl (placeable s.ctl (fresh s)) = some (walked, t)) :
    exec (.destageStart sl) s = .next { s with u := startDestage s.ctl (fresh s) sl walked t } := by
  refine (exec_destageStart sl s).trans (onU_next ((if_pos ?_).trans ?_))
  · have serve : inService (fresh s) sl = true := served
    have runs : hingeRuns (fresh s) = true := by unfold hingeRuns; rw [Bool.and_eq_true]; exact ⟨core, mounted⟩
    have dues : (movesRun s.ctl (fresh s) || s.ctl.mode == .drain) = true := by rw [Bool.or_eq_true, beq_iff_eq]; exact due
    rw [serve, runs, dues]
    rfl
  · rw [next]

/-- Every way of a list is marked busy. -/
theorem mark_foldl (l : List (Nat × Nat)) (e : HdrEntry) : l.foldl (fun e w => mark e w.1 .destage) e = { e with busy := e.busy ++ l.map fun w => (w.1, .destage) } := by
  induction l generalizing e with
  | nil => simp
  | cons a t ih => rw [List.foldl_cons, ih]; simp [mark]

theorem stripeOf_congr {u x : Units} (hs : x.stg = u.stg) (hv : x.v = u.v) (set tag : Nat) : stripeOf x set tag = stripeOf u set tag := by
  unfold stripeOf stripeWidth setsLog2
  simp only [hs, hv]

/-- A slice that keeps its headers. -/
theorem hdrEntry_setSlice {u : Units} {s : Nat} {x : Slice} (set : Nat) (h : x.cache = (slice u s).cache) : hdrEntry (setSlice u s x) s set = hdrEntry u s set :=
  hdrEntry_congr (by rw [slice_setSlice_same, h]) set

/-- Settles O21: the branches of `nextStripe`; and a destage whose header is at hand begins as `startDestage` says. -/
theorem destageBeginsInOrder : Obligations.DestageBeginsInOrder := by
  unfold Obligations.DestageBeginsInOrder
  refine ⟨?_, ?_⟩
  · intro s sl served core mounted u good begins walk
    have awake (h : movesRun s.ctl s.u = true) : s.ctl.mode ≠ .drain := by
      intro e
      simp [movesRun, e] at h
    refine ⟨fun drain t full => ?_, fun drain none t head => ?_, fun run t rest forced => ?_, fun run none ep work t found => ?_⟩
    · exact exec_destageStart_begins served core mounted (.inr drain) (nextStripe_full drain full)
    · exact exec_destageStart_begins served core mounted (.inr drain) (nextStripe_walk drain none head)
    · exact exec_destageStart_begins served core mounted (.inl run) (nextStripe_forced (awake run) forced)
    · exact exec_destageStart_begins served core mounted (.inl run) (nextStripe_epoch (awake run) none work found)
  · intro c u sl walked t e he loaded
    obtain ⟨x, m, l, hx, hs, -, -, -, hstg, hv, -⟩ := needHeader_hit (k := { id := u.nextPkt, typ := .destage, cls := 2, prio := destagePrio c }) he loaded
    have set : e.set = t.1 := hdrEntry_set he
    unfold startDestage
    rw [hx]
    dsimp only
    rw [mark_foldl]
    generalize hm : ({ e with busy := e.busy ++ t.2.2.map fun w => (w.1, .destage) } : HdrEntry) = e'
    have entry : hdrEntry (putEntry x sl e') sl t.1 = some e' := by
      rw [← set, show e.set = e'.set by rw [← hm]]
      exact hdrEntry_putEntry ..
    have walk : (slice (putEntry x sl e') sl).walk = (slice u sl).walk := by
      unfold putEntry
      rw [slice_setSlice_same, hs]
    have stripe : stripeOf (putEntry x sl e') t.1 t.2.1 = stripeOf u t.1 t.2.1 := stripeOf_congr hstg hv ..
    generalize putEntry x sl e' = y at entry walk stripe ⊢
    refine ⟨_, { set := t.1, tag := t.2.1, stripe := stripeOf y t.1 t.2.1, ways := t.2.2, toRead := t.2.2.map (fun w => w.1), empties := ((slice y sl).forced.filter fun f => f.1 == t.1 && f.2.1 == t.2.1).flatMap fun f => f.2.2 },
      e', rfl, ?_⟩
    rw [slice_setSlice_same]
    refine ⟨List.mem_append_right _ (List.mem_singleton_self _), rfl, rfl, stripe, rfl, rfl, (hdrEntry_setSlice t.1 ?_).trans entry, fun w hw => ?_, ?_⟩
    · rfl
    · rw [← hm]
      exact List.mem_append_right _ (List.mem_map.mpr ⟨w, hw, rfl⟩)
    · rw [← walk]

end Sys2Proof.Machine
end

section
/-! PROOF. Router outputs, isolation, flushes and durability epochs, and the evacuation of a channel. -/

namespace Sys2Proof.Machine

/-! ### Outputs and isolation (R172, R183, R483) -/

section
variable {u : Units} {r o waited quiet worst : Nat}

theorem slotEnterOp_enters (ho : o < nOutputs u.v r) (hw : 512 ≤ waited) (x : Nat) : x ∈ (slotEnterOp u r o waited).slotMode ↔ x ∈ u.slotMode ∨ x = r * 32 + o := by
  unfold slotEnterOp
  by_cases h : u.slotMode.contains (r * 32 + o) = false
  · rw [if_pos ⟨ho, hw, h⟩]
    simp
  · rw [if_neg fun e => h e.2.2]
    simp only [Bool.not_eq_false, List.contains_iff_mem] at h
    constructor
    · exact .inl
    · rintro (hx | rfl)
      · exact hx
      · exact h

theorem slotEnterOp_early (hw : waited < 512) : slotEnterOp u r o waited = u := if_neg (by omega)

theorem slotExitOp_leaves (ho : o < nOutputs u.v r) (hq : 8192 ≤ quiet) (hw : worst ≤ 128) (x : Nat) :
    x ∈ (slotExitOp u r o quiet worst).slotMode ↔ x ∈ u.slotMode ∧ x ≠ r * 32 + o := by
  unfold slotExitOp
  rw [if_pos ⟨ho, hq, hw⟩]
  simp

end

theorem nClusters_le (v : Variant) : nClusters v ≤ 8 := by cases v <;> decide

/-- What switching a cluster off leaves: its domain is off and fenced, and no other domain's state changes. -/
theorem switchOff_cluster (u : Units) {d : Nat} (h : 11 ≤ d) (h' : d < 19) :
    pdState (switchOff u d) d = 0 ∧ fenced (switchOff u d) d = true ∧ ∀ e, e ≠ d → pdState (switchOff u d) e = pdState u e := by
  have pins (x : Units) : showPins x d = x := by
    unfold showPins
    rw [if_neg (by omega), if_neg (by omega)]
  have pd : (switchOff u d).pd = tabPut u.pd d 0 := by
    unfold switchOff
    rw [pins]
    unfold setPd
    rw [if_neg (by omega)]
    show tabPut (resetDomain u d).pd d 0 = _
    rw [resetDomain_pd]
  unfold pdState
  rw [pd, tabGet_put_same, if_neg (by omega)]
  refine ⟨rfl, ?_, fun e he => by rw [tabGet_put_other he]⟩
  unfold switchOff
  rw [pins]
  unfold fenced
  show ((resetDomain u d).fences.filter (fun x => x != d) ++ [d]).contains d = true
  simp

/-- Settles O22: `slotEnterOp`, `slotExitOp`, and `switchOff_cluster` where `isolationOp` isolates. -/
theorem outputsChangeModeAndClustersGoDark : Obligations.OutputsChangeModeAndClustersGoDark := by
  unfold Obligations.OutputsChangeModeAndClustersGoDark
  intro s r o waited quiet worst d
  refine ⟨fun ho hw => ⟨_, exec_slotModeEnter r o waited s, slotEnterOp_enters ho hw⟩, fun hw => ?_, fun ho hq hw => ⟨_, exec_slotModeExit r o quiet worst s, slotExitOp_leaves ho hq hw⟩, ?_⟩
  · exact ⟨_, (exec_slotModeEnter r o waited s).trans (onU_next (slotEnterOp_early hw)), rfl⟩
  · intro low high service on fence quietly closed
    have run : exec (.isolation d) s = .next { s with u := switchOff (fresh s) d } := by
      refine (exec_isolation d s).trans (onU_next (if_pos ⟨low, high, on, fence, ?_, quietly, .inl service⟩))
      simp only [List.all_eq_true, List.mem_range, beq_iff_eq]
      exact closed
    exact ⟨_, run, switchOff_cluster (fresh s) low (by have := nClusters_le s.u.v; omega)⟩

/-! ### Flushes and epochs (R110, R112, R114, R214) -/

/-- The epoch in force closes: E advances, or the advance waits while the next epoch is live. -/
theorem closeEpoch_stg {u : Units} (now : u.stg.advanceWait = false) :
    (epochLive u ((u.stg.e + 1) % 16) = true → (closeEpoch u).stg = { u.stg with advanceWait := true }) ∧
    (epochLive u ((u.stg.e + 1) % 16) = false → (closeEpoch u).stg = { u.stg with e := (u.stg.e + 1) % 16, advanceWait := false, unacked := (List.range (nDdr u.v)).filter (fun s => inService u s), waiters := u.stg.waiters.map fun w => { w with age := w.age + 1 } }) := by
  unfold closeEpoch
  rw [if_neg (by rw [now]; decide)]
  constructor <;> intro live
  · rw [if_pos live]
  · rw [if_neg (by rw [live]; decide)]
    exact advanceE_stg u

/-- What a completed flush leaves: the DONE of its request, with the status. -/
theorem flushDone_done (u : Units) (src p ord prio st : Nat) :
    ∃ y ∈ (flushDone u src p ord prio st).net, y.typ = .done ∧ y.dst = epCluster (p / 8) ∧ y.port = p ∧ y.ord = ord ∧ y.prio = prio ∧ y.aux = st :=
  ⟨_, mem_send .., rfl, rfl, rfl, rfl, rfl, rfl⟩

/-- A FLUSH that waits for its epoch: the waiter joins the list, and then the epoch in force closes. -/
theorem addWaiter_stg (u : Units) (w : FlushWait) : ∃ y w', addWaiter u w = closeEpoch y ∧ y.v = u.v ∧ y.slices = u.slices ∧ y.regs.cur = u.regs.cur ∧
    y.stg = { u.stg with waiters := u.stg.waiters ++ [w'], nextWaiter := u.stg.nextWaiter + 1 } ∧
    w'.target = u.stg.e ∧ w'.port = w.port ∧ w'.ord = w.ord ∧ w'.handle = w.handle ∧ w'.prio = w.prio := by
  obtain ⟨h, closed⟩ := closePoint_does u
  unfold addWaiter
  generalize closePoint u = p at closed
  obtain ⟨n, x⟩ := p
  dsimp only at closed ⊢
  subst closed
  exact ⟨_, _, rfl, rfl, rfl, rfl, rfl, rfl, rfl, rfl, rfl, rfl⟩

/-- A FLUSH at the context engine. -/
theorem flushArrivalOp_flush {u x : Units} {k : Pkt} {r : Req} (hx : releaseTicket (dropPkt u k.id) k.pool = x) (hr : findReq x k.port k.ord = some r) (flush : hCmd r.hdr = 5) :
    flushArrivalOp u k = if check2 x k.epoch r = false then flushDone x k.dst k.port k.ord k.prio 2
      else if r.dur = 0 then flushDone (flushCounts x false k.handle) k.dst k.port k.ord k.prio 0
      else addWaiter (setReq x k.port { r with closed := true }) { port := k.port, ord := k.ord, handle := k.handle, prio := k.prio, all := hCmd r.hdr = 6 } := by
  unfold flushArrivalOp
  dsimp only
  rw [hx, hr]
  simp only [flush, show ¬ (5 : Nat) = 6 by decide, not_false_eq_true, true_and, decide_false]

/-- Once a packet has landed, left its slot and given its ticket back, only the network differs. -/
theorem lands_released {s : State} {pkt : Nat} {ty : PktType} {k : Pkt} {w : Units} (h : lands s pkt ty k w) :
    ∃ a b c m, releaseTicket (dropPkt w k.id) k.pool = { s.u with out := [], net := a, nextPkt := b, transit := c, slotMode := m } := by
  obtain ⟨t, m, rfl⟩ := lands_netOnly h
  obtain ⟨a, b, c, hx, -⟩ := releaseTicket_keeps (dropPkt { fresh s with transit := t, slotMode := m } k.id) k.pool 1
  exact ⟨a, b, c, m, hx⟩

/-- Settles O23: `flushArrivalOp_flush`, where `addWaiter_stg` and `closeEpoch_stg` say how the epoch closes. -/
theorem flushesTakeTheirEpoch : Obligations.FlushesTakeTheirEpoch := by
  unfold Obligations.FlushesTakeTheirEpoch
  intro s pkt k v r h hr flush answered next
  have run : exec (.flushArrival ⟨pkt, .none⟩) s = .next { s with u := flushArrivalOp v k } := exec_lands (f := fun _ k u => landOne u k .none fun u => flushArrivalOp u k) (exec_flushArrival ⟨pkt, .none⟩ s) h
  obtain ⟨a, b, c, m, hx⟩ := lands_released h
  generalize hz : ({ s.u with out := [], net := a, nextPkt := b, transit := c, slotMode := m } : Units) = x at hx
  have ports : findReq x k.port k.ord = some r := by rw [← hz]; exact hr
  have check : check2 x k.epoch r = check2 s.u k.epoch r := by rw [← hz]; rfl
  have seq : x.flushSeq = s.u.flushSeq := by rw [← hz]
  have stg : x.stg = s.u.stg := by rw [← hz]
  have live (n : Nat) : epochLive x n = epochLive s.u n := by rw [← hz]; rfl
  have served (n : Nat) : inService x n = inService s.u n := by rw [← hz]; rfl
  have var : x.v = s.u.v := by rw [← hz]
  rw [flushArrivalOp_flush hx ports flush, check] at run
  refine ⟨fun closed => ?_, fun opened staged => ?_, fun opened media now => ?_⟩
  · rw [if_pos closed] at run
    obtain ⟨y, hy, typ, dst, port, ord, -, aux⟩ := flushDone_done x k.dst k.port k.ord k.prio 2
    exact ⟨_, run, ⟨y, hy, typ, dst, port, ord, aux⟩, seq⟩
  · rw [if_neg (by rw [opened]; decide), if_pos staged] at run
    obtain ⟨y, hy, typ, dst, port, ord, -, aux⟩ := flushDone_done (flushCounts x false k.handle) k.dst k.port k.ord k.prio 0
    refine ⟨_, run, ⟨y, hy, typ, dst, port, ord, aux⟩, ?_⟩
    show tabGet (flushCounts x false k.handle).flushSeq k.handle = _
    rw [show (flushCounts x false k.handle).flushSeq = tabPut x.flushSeq k.handle ((tabGet x.flushSeq k.handle + 1) % 65536) from count_flushSeq .., seq, tabGet_put_same]
  · rw [if_neg (by rw [opened]; decide), if_neg media] at run
    obtain ⟨y, w, added, yv, yslices, ycur, ystg, target, port, ord, handle, prio⟩ := addWaiter_stg (setReq x k.port { r with closed := true }) { port := k.port, ord := k.ord, handle := k.handle, prio := k.prio, all := hCmd r.hdr = 6 }
    have ylive (n : Nat) : epochLive y n = epochLive s.u n := (epochLive_congr yslices yv n).trans (live n)
    have yserved (n : Nat) : inService y n = inService s.u n := (inService_congr ycur yv n).trans (served n)
    have ystg' : y.stg = { s.u.stg with waiters := s.u.stg.waiters ++ [w], nextWaiter := s.u.stg.nextWaiter + 1 } := by rw [ystg, ← stg]; rfl
    obtain ⟨waits, advances⟩ := closeEpoch_stg (u := y) (by rw [ystg']; exact now)
    rw [ylive, ystg'] at waits advances
    rw [added] at run
    refine ⟨_, w, run, target.trans (congrArg Staging.e stg), port, ord, handle, prio, fun l => ?_, fun l => ?_⟩
    · dsimp only
      rw [waits l]
      exact ⟨rfl, rfl, rfl⟩
    · dsimp only
      rw [advances l]
      refine ⟨rfl, rfl, rfl, ?_⟩
      dsimp only
      rw [yv.trans var]
      simp only [yserved]

/-! ### The end of an epoch (R112, R114, R214) -/

theorem epochAckOp_stg (c : Ctl) (u : Units) (sl : Nat) : (epochAckOp c u sl).stg = { u.stg with unacked := u.stg.unacked.filter fun i => i != sl } := by
  unfold epochAckOp
  exact sliceCore_stg (sliceCore_pumpSlice ..)

/-- A FLUSH whose epoch is swept and whose journal blocks are durable, no stripe destaged above the last journalled cursor of a move, is answered. -/
theorem flushCompleteOp_ends {u : Units} {w : FlushWait} (hw : u.stg.waiters.find? (fun x => x.id == w.id) = some w) (swept : w.swept = true) (noDesc : w.desc = none) (one : w.all = false)
    (durable : durableBelow u w.journal = true) (hidden : ∀ i ∈ u.hng.active, (tabGet u.hng.slots i).exposed = false) (journalled : durableBelow u u.hng.expSeq = true) :
    flushCompleteOp u w.id = flushDone (flushCounts { u with stg := { u.stg with waiters := u.stg.waiters.filter fun y => y.id != w.id } } false w.handle) (epCore 0) w.port w.ord w.prio 0 := by
  have done : sweepWaiter u w = (w, u) := by unfold sweepWaiter; rw [if_pos swept]
  have ready : epochSwept u w = true := by unfold epochSwept; rw [swept]; rfl
  unfold flushCompleteOp
  rw [hw]
  dsimp only
  rw [if_neg (by rw [ready]; decide), done]
  dsimp only
  rw [if_neg (by rw [durable]; decide), journalCursor_none u _ hidden, if_neg (by rw [journalled]; decide), noDesc, one]
  rfl

/-- Settles O24: `advanceE_stg`, `epochAckOp_stg` and `flushCompleteOp_ends`. -/
theorem epochsAdvanceAndFlushesEnd : Obligations.EpochsAdvanceAndFlushesEnd := by
  unfold Obligations.EpochsAdvanceAndFlushesEnd
  refine ⟨fun s waits dead => ?_, fun s sl served => ?_, fun s w hw swept noDesc one durable hidden journalled others => ?_⟩
  · refine ⟨_, (exec_epochAdvance s).trans (onU_next (if_pos ?_)), ?_⟩
    · rw [Bool.and_eq_true, Bool.not_eq_true']
      exact ⟨waits, dead⟩
    · dsimp only
      rw [advanceE_stg]
      exact ⟨rfl, rfl, rfl⟩
  · refine ⟨_, (exec_epochAck sl s).trans (onU_next (if_pos served)), ?_⟩
    dsimp only
    rw [epochAckOp_stg]
    exact ⟨rfl, rfl⟩
  · have ended := flushCompleteOp_ends (u := fresh s) hw swept noDesc one durable hidden journalled
    obtain ⟨y, hy, typ, dst, port, ord, prio, aux⟩ := flushDone_done (flushCounts { fresh s with stg := { (fresh s).stg with waiters := (fresh s).stg.waiters.filter fun y => y.id != w.id } } false w.handle) (epCore 0) w.port w.ord w.prio 0
    have counted : CountsOnly { fresh s with stg := { (fresh s).stg with waiters := (fresh s).stg.waiters.filter fun y => y.id != w.id }, flushSeq := tabPut (fresh s).flushSeq w.handle ((tabGet (fresh s).flushSeq w.handle + 1) % 65536) }
        (flushCounts { fresh s with stg := { (fresh s).stg with waiters := (fresh s).stg.waiters.filter fun y => y.id != w.id } } false w.handle) := count_only ..
    generalize flushCounts { fresh s with stg := { (fresh s).stg with waiters := (fresh s).stg.waiters.filter fun y => y.id != w.id } } false w.handle = x at ended hy counted
    obtain ⟨⟨cur, tele, rfl⟩, -⟩ := counted
    refine ⟨_, (exec_flushEpochComplete w.id s).trans (onU_next ((congrArg _ ended).trans (settleDescs_none ?_))), rfl, ?_, y, hy, typ, dst, port, ord, prio, aux⟩
    · intro x hx
      obtain ⟨h5, h8⟩ := others x hx
      simpa using ⟨h5, h8⟩
    · exact tabGet_put_same ..

/-! ### Evacuation and restoration (R217) -/

theorem sliceCore_blankSlice (u : Units) (k : Nat) : sliceCore false (blankSlice u k) = sliceCore false u := by
  unfold blankSlice blankSpares
  dsimp only
  simp only [List.foldl_cons, List.foldl_nil, sliceCore_setSub, sliceCore_setSlice]

/-- Completion is a matter of the rings alone. -/
theorem posted_rings {u x y : Units} {r st r0 r1 : Nat} {d : Desc} (h : y.rings = x.rings) (p : posted u x r d st r0 r1) : posted u y r d st r0 r1 := by
  unfold posted at *
  rwa [findDesc_rings h, h]

theorem posted_from {u y x : Units} {r st r0 r1 : Nat} {d : Desc} (h : y.rings = u.rings) (b : cqBase y r = cqBase u r) (p : posted y x r d st r0 r1) : posted u x r d st r0 r1 :=
  posted_congr (by rw [ring_congr (congrArg Rings.ring h)]) (by rw [ring_congr (congrArg Rings.ring h)]) b p

/-- A slice's shares and its work keep the rings and the state of the evacuation. -/
theorem putShares_keeps (u : Units) : (putShares u).stg = u.stg ∧ (putShares u).rings = u.rings :=
  ⟨sliceCore_stg (sliceCore_putShares u), sliceCore_rings (sliceCore_putShares u)⟩

theorem pumpSlice_keeps (c : Ctl) (u : Units) (s : Nat) : (pumpSlice c u s).stg = u.stg ∧ (pumpSlice c u s).rings = u.rings :=
  ⟨sliceCore_stg (sliceCore_pumpSlice ..), sliceCore_rings (sliceCore_pumpSlice ..)⟩

/-- Step 3 of an evacuation whose test no ABORT has stopped. -/
theorem evacCompleteOp_stg {c : Ctl} {u : Units} {r : Nat} {d : Desc} (who : u.stg.evacDesc = some (r, d.idx)) (hd : findDesc u r d.idx = some d) (held : u.stg.evacHold = true)
    (on : u.stg.evac = 1) (clean : (slice u u.stg.evacCh).dirty = 0) (idle : slicePosIdle u u.stg.evacCh u.stg.evacCh = true) (young : olderAt u u.stg.evacCh = false) (goes : d.own.headD 0 ≠ 3) :
    (evacCompleteOp c u).stg.evac = 2 ∧ (evacCompleteOp c u).stg.evacHold = false := by
  unfold evacCompleteOp
  dsimp only
  rw [if_pos ⟨on, held, clean, idle, young⟩]
  have blank := sliceCore_blankSlice { u with stg := { u.stg with evac := 2, evacHold := false } } u.stg.evacCh
  generalize blankSlice { u with stg := { u.stg with evac := 2, evacHold := false } } u.stg.evacCh = x at blank ⊢
  obtain ⟨stg, rings⟩ := putShares_keeps (cause (putF x F.DDR5_n_STATE_state u.stg.evacCh 0 4) 4)
  generalize putShares (cause (putF x F.DDR5_n_STATE_state u.stg.evacCh 0 4) 4) = y at stg rings ⊢
  have xstg : x.stg = { u.stg with evac := 2, evacHold := false } := (show (sliceCore false x).stg = _ by rw [blank]; rfl)
  have ystg : y.stg = { u.stg with evac := 2, evacHold := false } := stg.trans xstg
  have xrings : x.rings = u.rings := (show (sliceCore false x).rings = _ by rw [blank]; rfl)
  have yrings : (ackless y u.stg.evacCh).rings = u.rings := rings.trans xrings
  have zstg : (ackless y u.stg.evacCh).stg = { u.stg with evac := 2, evacHold := false, unacked := u.stg.unacked.filter fun i => i != u.stg.evacCh } := by
    unfold ackless
    rw [ystg]
  generalize ackless y u.stg.evacCh = z at yrings zstg ⊢
  rw [show z.stg.evacDesc = some (r, d.idx) by rw [zstg]; exact who]
  have found : findDesc z r d.idx = some d := (findDesc_rings yrings ..).trans hd
  simp only [found]
  rw [if_neg (by simpa using goes), (pumpSlice_keeps ..).1]
  split
  · exact ⟨congrArg Staging.evac zstg, congrArg Staging.evacHold zstg⟩
  · exact ⟨congrArg Staging.evac zstg, congrArg Staging.evacHold zstg⟩

/-- Step 6: the restoration of a channel whose position its partner has given up. -/
theorem restoreCompleteOp_ends {c : Ctl} {u x : Units} {r : Nat} {d : Desc} (held : u.stg.evacHold = true) (on : u.stg.evac = 3)
    (idle : slicePosIdle u (u.stg.evacCh ^^^ 1) u.stg.evacCh = true) (young : olderAt u u.stg.evacCh = false) (clean : dirtyAt u (u.stg.evacCh ^^^ 1) u.stg.evacCh = 0)
    (emptied : emptyCleanAt c u (u.stg.evacCh ^^^ 1) u.stg.evacCh = (true, x)) (who : x.stg.evacDesc = some (r, d.idx)) (hd : findDesc x r d.idx = some d) :
    (restoreCompleteOp c u).stg.evac = 0 ∧ (restoreCompleteOp c u).stg.evacHold = false ∧ (restoreCompleteOp c u).stg.evacDesc = none ∧
      posted x (restoreCompleteOp c u) r d (ownAt d 1) d.r0 d.r1 := by
  unfold restoreCompleteOp
  dsimp only
  rw [if_pos ⟨on, held, idle, young, clean⟩, emptied]
  dsimp only
  rw [who]
  dsimp only
  generalize hw : cause (putF (freshEpoch { x with stg := { x.stg with evac := 0, evacHold := false, evacDesc := none } } u.stg.evacCh) F.DDR5_n_STATE_state u.stg.evacCh 0 2) 4 = w
  have core := sliceCore_putShares w
  generalize putShares w = y at core ⊢
  have wstg : w.stg = { x.stg with evac := 0, evacHold := false, evacDesc := none } := by rw [← hw]; rfl
  have wrings : w.rings = x.rings := by rw [← hw]; rfl
  have base : cqBase y r = cqBase x r := by
    refine (cqBase_banks (sliceCore_v core) (sliceCore_bankA core) (sliceCore_bankB core) (sliceCore_epoch core) r).trans ?_
    rw [← hw]
    exact cqBase_banks rfl rfl rfl rfl r
  have yrings : y.rings = x.rings := (sliceCore_rings core).trans wrings
  rw [findDesc_rings yrings, hd]
  dsimp only
  have done := complete_posted (ownAt d 1) d.r0 d.r1 ((findDesc_rings yrings ..).trans hd) rfl
  have notice := complete_keeps y r d.idx (ownAt d 1) d.r0 d.r1
  generalize complete y r d.idx (ownAt d 1) d.r0 d.r1 = z at done notice ⊢
  obtain ⟨stg, rings⟩ := pumpSlice_keeps c z u.stg.evacCh
  generalize pumpSlice c z u.stg.evacCh = q at stg rings ⊢
  obtain ⟨stg', rings'⟩ := pumpSlice_keeps c q (u.stg.evacCh ^^^ 1)
  rw [stg', stg, notice.stg, sliceCore_stg core, wstg]
  exact ⟨rfl, rfl, rfl, posted_from yrings base (posted_rings (rings'.trans rings) done)⟩

/-- Settles O25: `evacCompleteOp_stg` and `restoreCompleteOp_ends`. -/
theorem evacuationRunsItsSteps : Obligations.EvacuationRunsItsSteps := by
  unfold Obligations.EvacuationRunsItsSteps
  intro s r d k who hd held
  refine ⟨fun on clean idle young goes => ⟨_, exec_evacComplete s, ?_⟩, fun x on idle young clean emptied who' hd' => ⟨_, exec_restoreComplete s, ?_⟩⟩
  · exact evacCompleteOp_stg (u := fresh s) who hd held on clean idle young goes
  · have idle' : slicePosIdle (fresh s) (s.u.stg.evacCh ^^^ 1) s.u.stg.evacCh = true := idle
    have young' : olderAt (fresh s) s.u.stg.evacCh = false := young
    have clean' : dirtyAt (fresh s) (s.u.stg.evacCh ^^^ 1) s.u.stg.evacCh = 0 := clean
    have emptied' : emptyCleanAt s.ctl (fresh s) (s.u.stg.evacCh ^^^ 1) s.u.stg.evacCh = (true, x) := emptied
    have done := restoreCompleteOp_ends (c := s.ctl) (u := fresh s) held on idle' young' clean' emptied' who' hd'
    exact done

end Sys2Proof.Machine
end

section
/-! PROOF. Descriptor rings: fetching (R447, R452), completion entries and interrupt messages (R451, R471 to R473), and ring resets (R468, R474). -/

namespace Sys2Proof.Machine

/-! ### Fetching (R447, R452) -/

section
variable {u : Units} {r i : Nat} {bits : BitVec 512}

/-- A running ring with a descriptor to fetch, a place for it and a free CQ slot reads it. -/
theorem fetchOp_reads (run : (ring u r).state = 1) (more : fetchNext u r ≠ (ring u r).tail) (place : outstanding (ring u r) < 32)
    (slot : (ring u r).cqUsed + outstanding (ring u r) < cqSize u r) (port : u.rings.reads.length < 64) :
    (fetchOp u r).out = u.out ++ [.ringRead (sqBase u r + fetchNext u r * 64)] ∧ (fetchOp u r).rings.reads = u.rings.reads ++ [(r, fetchNext u r, 0)] ∧
      ring (fetchOp u r) r = { ring u r with fetching := (ring u r).fetching ++ [fetchNext u r] } := by
  unfold fetchOp
  dsimp only
  rw [if_pos ⟨run, more, place, slot, port⟩]
  exact ⟨rfl, rfl, tabGet_put_same ..⟩

/-- Nothing is taken of a ring that awaits no read. -/
theorem takeArrived_idle (h : (ring u r).fetching = []) (n : Nat) : takeArrived r n u = u := by
  cases n with
  | zero => rfl
  | succ n => unfold takeArrived; simp [h]

/-- No chain is dropped of a ring that has none open. -/
theorem dropOpenRun_none (h : (ring u r).fetchErr = false ∨ (ring u r).runLen = 0) : dropOpenRun u r = u := by
  unfold dropOpenRun
  dsimp only
  rw [if_neg]
  rintro ⟨err, -, run⟩
  rcases h with h | h
  · rw [h] at err; cases err
  · omega

/-- An unchained descriptor of a ring without a dead chain joins the outstanding ones. -/
theorem joinDesc_single (single : dChain { bits := bits } = false) (alive : (ring u r).runDead = false) :
    ring (joinDesc u r i bits) r = { ring u r with descs := (ring u r).descs ++ [{ idx := i, bits := bits, pos := (ring u r).runLen }], fetch := nextIdx (sqSize u r) i, runLen := 0, runDead := false } ∧
      (joinDesc u r i bits).rings.reads = u.rings.reads := by
  have chain : dChain { idx := i, bits := bits, pos := (ring u r).runLen } = false := single
  unfold joinDesc
  simp only [chain, alive, Bool.false_eq_true, if_false, show ¬ 0 = 16 by decide, Bool.false_and]
  refine ⟨(ring_count ..).trans (ring_setRing_same ..), ?_⟩
  rw [(count_only _ _).rings]
  rfl

variable (found : u.rings.reads.find? (fun k => k.1 == r && k.2.1 == i && (k.2.2 == 0 || k.2.2 == 2)) = some (r, i, 0)) (one : (ring u r).fetching = [i])
include found one

/-- The descriptor that a ring's one read returns. -/
theorem fetchReturnOp_joins (none : (ring u r).arrived = []) (good : (ring u r).fetchErr = false) (alive : (ring u r).runDead = false) (single : dChain { bits := bits } = false) :
    (fetchReturnOp u r i false bits).rings.reads = u.rings.reads.erase (r, i, 0) ∧
      (ring (fetchReturnOp u r i false bits) r).descs = (ring u r).descs ++ [{ idx := i, bits := bits, pos := (ring u r).runLen }] ∧
      (ring (fetchReturnOp u r i false bits) r).fetching = [] ∧ (ring (fetchReturnOp u r i false bits) r).fetch = nextIdx (sqSize u r) i := by
  have same : ring (endRead u (r, i, 0)) r = ring u r := rfl
  unfold fetchReturnOp
  rw [found]
  dsimp only
  rw [if_neg (by decide), if_neg (by decide), same, if_pos (by rw [one]; simp), none, List.nil_append,
    takeArrived_one _ _ _ _ 31 { ring u r with arrived := [(i, bits)] } one rfl]
  obtain ⟨z, hz⟩ : ∃ z, z = setRing (setRing (endRead u (r, i, 0)) r { ring u r with arrived := [(i, bits)] }) r { ring u r with fetching := [], arrived := [] } := ⟨_, rfl⟩
  have zr : ring z r = { ring u r with fetching := [], arrived := [] } := by rw [hz]; exact ring_setRing_same ..
  have zs : sqSize z r = sqSize u r := by rw [hz]; rfl
  have zreads : z.rings.reads = u.rings.reads.erase (r, i, 0) := by rw [hz]; rfl
  obtain ⟨joined, reads⟩ := joinDesc_single (u := z) (r := r) (i := i) single (by rw [zr]; exact alive)
  rw [← hz]
  rw [zr, zs] at joined
  rw [takeArrived_idle (by rw [joined]), dropOpenRun_none (.inl (by rw [joined]; exact good)), joined, reads, zreads]
  exact ⟨rfl, rfl, rfl, rfl⟩

/-- A running ring's one read, returned in error, with no chain open. -/
theorem fetchReturnOp_fails (run : (ring u r).state = 1) (whole : (ring u r).runLen = 0) :
    (ring (fetchReturnOp u r i true bits) r).state = 3 ∧ (ring (fetchReturnOp u r i true bits) r).descs = (ring u r).descs ∧ (ring (fetchReturnOp u r i true bits) r).fetching = [] ∧
      getF (fetchReturnOp u r i true bits) F.RNG_r_ERR_fetch r = 1 := by
  obtain ⟨z, hz⟩ : ∃ z, z = flag (ringError (endRead u (r, i, 0)) r) F.RNG_r_ERR_fetch r := ⟨_, rfl⟩
  have zr : ring z r = { ring u r with state := 3 } := by
    rw [hz, ring_congr (u := ringError (endRead u (r, i, 0)) r) (by rw [flag_rings])]
    unfold ringError sendRingError
    rw [ring_congr (sendMsg_ring ..), ring_setRing_same]
    show { ring u r with state := if (ring u r).state = 2 then 2 else 3 } = _
    rw [if_neg (by omega)]
  have flagged : getF z F.RNG_r_ERR_fetch r = 1 := by rw [hz]; exact getF_flag_same _ _ _ _ (by decide) (by decide)
  unfold fetchReturnOp
  rw [found]
  dsimp only
  rw [if_neg (by decide), if_pos rfl, ← hz, zr]
  simp only [one, List.takeWhile_cons, bne_self_eq_false, Bool.false_eq_true, if_false, List.contains_nil, List.filter_false]
  rw [takeArrived_idle (by rw [ring_setRing_same]), dropOpenRun_none (.inr (by rw [ring_setRing_same]; exact whole)), ring_setRing_same]
  exact ⟨rfl, rfl, rfl, flagged⟩

end

/-- Settles O27: `fetchOp_reads`, `fetchReturnOp_joins` and `fetchReturnOp_fails`. -/
theorem descriptorsAreFetchedInOrder : Obligations.DescriptorsAreFetchedInOrder := by
  unfold Obligations.DescriptorsAreFetchedInOrder
  intro s r i bits x on small
  refine ⟨fun clear mode awake run next more place slot port => ?_, fun found one none good => ⟨fun alive single => ?_, fun run whole => ?_⟩⟩
  · have reads := fetchOp_reads (u := fresh s) run (by rw [show fetchNext (fresh s) r = i from next]; exact more) place slot port
    rw [show fetchNext (fresh s) r = i from next] at reads
    obtain ⟨out, added, ring⟩ := reads
    exact ⟨_, (exec_descriptorFetch r s).trans (onU_next (if_pos ⟨small, on, clear, mode, awake⟩)), out, added, ring⟩
  · exact ⟨_, (exec_fetchReturn r i false bits s).trans (onU_next (if_pos on)), fetchReturnOp_joins (u := fresh s) found one none good alive single⟩
  · exact ⟨_, (exec_fetchReturn r i true bits s).trans (onU_next (if_pos on)), fetchReturnOp_fails (u := fresh s) found one run whole⟩

/-! ### Entries and messages (R451, R471 to R473, R571) -/

section
variable {u : Units} {r : Nat}

/-- An entry that asks for no message, on a ring that counts none. -/
theorem entryWritten_counts (hr : r < 64) (none : irqCount u r = 0) :
    (entryWritten u r false).rings.writes = u.rings.writes ∧ (ring (entryWritten u r false) r).pend = (ring u r).pend + 1 := by
  have other : r ≠ 64 := by omega
  unfold entryWritten
  simp only [pendOf, putPend, other, if_false]
  rw [if_neg]
  · rw [ring_setRing_same]
    exact ⟨rfl, rfl⟩
  · rintro (h | ⟨h, -⟩)
    · cases h
    · have counts : 0 < irqCount u r := h
      omega

/-- An entry that asks for a message, on a vector that is not masked. -/
theorem entryWritten_sends (hr : r < 64) (open_ : unmasked u (irqVector u r)) :
    (entryWritten u r true).rings.writes = u.rings.writes ∧ (ring (entryWritten u r true) r).pend = 0 ∧ BitVec.ofNat 32 (irqVector u r + r * 256) ∈ (entryWritten u r true).rings.msgs := by
  have other : r ≠ 64 := by omega
  unfold entryWritten
  simp only [pendOf, putPend, other, if_false, true_or, if_true]
  obtain ⟨sent, pend, writes, -⟩ := sendIrq_does (u := setRing u r { ring u r with pend := (ring u r).pend + 1, due := if (ring u r).pend + 1 = 1 then usec u + irqUsec u r else dueOf u r }) hr open_
  exact ⟨writes, pend, sent⟩

/-- Masking a vector sends nothing; the mask is taken. -/
theorem irqMaskOp_masks {vector source v : Nat} (held : u.rings.heldMsgs = [(vector, source)]) (masked : nbits v (vector % 32) 1 = 1) (k : Nat) :
    irqMaskOp u k v = putReg u .RNG_IRQ_MASK_k k 0 v := by
  unfold irqMaskOp
  dsimp only
  rw [show (putReg u .RNG_IRQ_MASK_k k 0 v).rings.heldMsgs = [(vector, source)] from held]
  simp [masked]

/-- Unmasking a vector sends the message held for it. -/
theorem irqMaskOp_sends {vector source v : Nat} (held : u.rings.heldMsgs = [(vector, source)]) (small : v < 2 ^ 32) (k : Nat) (hk : vector / 32 = k) (free : nbits v (vector % 32) 1 = 0) (bound : k < 8) :
    rawReg (irqMaskOp u k v) .RNG_IRQ_MASK_k k = v ∧ (irqMaskOp u k v).rings.heldMsgs = [] ∧ BitVec.ofNat 32 (vector + source * 256) ∈ (irqMaskOp u k v).rings.msgs := by
  have e : irqMaskOp u k v = sendMsg { putReg u .RNG_IRQ_MASK_k k 0 v with rings := { u.rings with heldMsgs := [] } } vector source := by
    unfold irqMaskOp
    dsimp only
    rw [show (putReg u .RNG_IRQ_MASK_k k 0 v).rings.heldMsgs = [(vector, source)] from held]
    simp only [hk, free, and_self, decide_true, List.filter_cons_of_pos, List.filter_nil, List.foldl_cons, List.foldl_nil, held, ne_eq, not_true_eq_false, decide_false, Bool.false_eq_true, not_false_eq_true, List.filter_cons_of_neg, putReg_rings]
  have reg : rawReg { putReg u .RNG_IRQ_MASK_k k 0 v with rings := { u.rings with heldMsgs := [] } } .RNG_IRQ_MASK_k k = v := (rawReg_putReg_same ..).trans (Nat.mod_eq_of_lt small)
  rw [e]
  obtain ⟨sent, -, -, heldMsgs⟩ := sendMsg_sent (u := { putReg u .RNG_IRQ_MASK_k k 0 v with rings := { u.rings with heldMsgs := [] } }) (v := vector) (s := source) (by unfold unmasked; rw [hk, reg]; exact free)
  exact ⟨((NoticeOnly.sendMsg ..).rawReg _ _ _ (by simp only [regAddr, Reg.info, teleAddr]; omega)).trans reg, heldMsgs, sent⟩

end

/-- Settles O28: `entryWritten_counts` and `entryWritten_sends` behind `takeWrite_front`, the timer and the queue, and the two effects of `irqMaskOp`. -/
theorem entriesRaiseMessages : Obligations.EntriesRaiseMessages := by
  unfold Obligations.EntriesRaiseMessages
  intro s r sent
  refine ⟨fun w rest writes hw short small on => ?_, fun small on some timed due open_ => ?_, fun m rest msgs on => ?_, fun k value vector source reached held hk => ?_⟩
  · have taken := takeWrite_front (u := fresh s) writes hw short
    have run (irq : Bool) (hi : w.irq = irq) : exec (.completionWritten r false) s = .next { s with u := entryWritten { fresh s with rings := { s.u.rings with writes := rest } } r irq } := by
      refine (exec_completionWritten r false s).trans (onU_next ((if_pos ⟨by omega, on⟩).trans ?_))
      unfold writtenOp
      rw [taken]
      dsimp only
      rw [if_neg (by omega), if_neg (by decide), hi]
      rfl
    refine ⟨fun silent none => ⟨_, run false silent, entryWritten_counts small none⟩, fun asks open_ => ⟨_, run true asks, entryWritten_sends small open_⟩⟩
  · have other : r ≠ 64 := by omega
    obtain ⟨message, pend, -⟩ := sendIrq_does (u := fresh s) small open_
    refine ⟨_, (exec_irqTimer r s).trans (onU_next ((if_pos ⟨by omega, on⟩).trans (if_pos ?_))), pend, message⟩
    unfold pendOf dueOf
    rw [if_neg other, if_neg other]
    exact ⟨some, timed, due⟩
  · refine ⟨_, (exec_intMsgDelivery s).trans (onU_next (if_pos on)), ?_⟩
    unfold msgDeliveryOp
    rw [show (fresh s).rings.msgs = m :: rest from msgs]
    exact ⟨rfl, rfl⟩
  · have run : exec (.irqMaskWrite k value) s = .next (answered s (irqMaskOp (noted s) k value.toNat)) := by
      rw [exec_irqMaskWrite, execIrqMaskWrite, writeNamed_reaches reached, BitVec.toNat_mod_cancel]
      rfl
    have bound : k < 8 := reached.1
    refine ⟨fun free => ⟨_, run, irqMaskOp_sends (u := noted s) held value.isLt k hk free bound⟩, fun masked => ⟨_, run, ?_⟩⟩
    unfold answered
    rw [irqMaskOp_masks (u := noted s) held masked]
    exact ⟨(rawReg_putReg_same ..).trans (Nat.mod_eq_of_lt value.isLt), rfl⟩

/-! ### Ring resets (R468, R474) -/

section
variable {c : Ctl} {u : Units} {r : Nat}

/-- The reset of a ring with one outstanding descriptor, unchained and not begun: its reads are dropped, and it is answered. -/
theorem ringResetOp_one {d : Desc} (live : (ring u r).state = 1 ∨ (ring u r).state = 3) (one : (ring u r).descs = [d]) (new : d.begun = false) :
    ∃ y, ringResetOp c u r = writeEntry y r d 5 0 0 [d.idx] ∧ (ring y r).state = 2 ∧ (ring y r).fetching = [] ∧ (ring y r).descs = [] ∧ (ring y r).cqTail = (ring u r).cqTail ∧ (ring y r).flip = (ring u r).flip ∧
      cqBase y r = cqBase u r ∧ ∀ k ∈ y.rings.reads, k.1 = r → k.2.2 ≠ 0 := by
  unfold ringResetOp
  dsimp only
  rw [if_neg (by omega), one]
  simp only [List.filter_cons, List.filter_nil, new, Bool.not_false, Bool.false_eq_true, if_true, if_false, List.foldl_nil, unbegunRuns, List.foldl_cons, resetEntry, List.map_cons, List.map_nil]
  obtain ⟨x, hx⟩ : ∃ x, x = setRing u r { ring u r with state := 2, fetching := [], arrived := [], runLen := 0, runDead := false, fetchErr := false, descs := [] } := ⟨_, rfl⟩
  have xr : ring x r = { ring u r with state := 2, fetching := [], arrived := [], runLen := 0, runDead := false, fetchErr := false, descs := [] } := by rw [hx]; exact ring_setRing_same ..
  have base : cqBase x r = cqBase u r := by rw [hx]; exact cqBase_congr rfl rfl r
  rw [← hx]
  refine ⟨{ x with rings := { x.rings with reads := x.rings.reads.map fun k => if k.1 = r ∧ k.2.2 = 0 then (k.1, k.2.1, 2) else k } }, rfl, ?_⟩
  rw [show ring { x with rings := { x.rings with reads := x.rings.reads.map fun k => if k.1 = r ∧ k.2.2 = 0 then (k.1, k.2.1, 2) else k } } r = ring x r from rfl, xr]
  refine ⟨rfl, rfl, rfl, rfl, rfl, base, fun k hk ofRing => ?_⟩
  obtain ⟨k', -, rfl⟩ := List.mem_map.mp hk
  by_cases h : k'.1 = r ∧ k'.2.2 = 0
  · rw [if_pos h]
    exact Nat.succ_ne_zero 1
  · rw [if_neg h] at ofRing ⊢
    exact fun e => h ⟨ofRing, e⟩

/-- The last step of a reset: indices at zero, and the ring runs again where it is enabled. -/
theorem ringResetDone_ring (hr : r < 64) (held : (ring u r).state = 2) (none : (ring u r).descs = []) (written : ∀ w ∈ u.rings.writes, w.ring ≠ r) :
    ring (ringResetDone u r) r = { state := if inF u F.RNG_r_CFG_enable r = 1 then 1 else 0 } := by
  have other : r ≠ 64 := by omega
  unfold ringResetDone
  dsimp only
  rw [if_pos ⟨held, none, by simpa using written⟩]
  unfold sendIrq dueOf putPend
  rw [if_neg other, if_neg other, ring_congr (sendMsg_ring ..), ring_setRing_same, ring_setRing_same]

end

/-- Settles O29: `ringResetOp_one`, whose entry `writeEntry_does`, and `ringResetDone_ring`. -/
theorem ringResetsEmptyARing : Obligations.RingResetsEmptyARing := by
  unfold Obligations.RingResetsEmptyARing
  intro s r x
  refine ⟨fun d reached live one new single => ?_, fun small on held none written => ?_, fun reached => ?_⟩
  · obtain ⟨y, reset, state, fetching, descs, tail, flip, base, reads⟩ := ringResetOp_one (c := s.ctl) (u := noted s) live one new
    have run : exec (.ringReset r) s = .next (answered s (ringResetOp s.ctl (noted s) r)) := by
      rw [exec_ringReset, execRingReset, writeNamed_reaches reached]
      rfl
    rw [reset] at run
    obtain ⟨⟨w, of, addr, entry, writes⟩, left, -⟩ := writeEntry_does y r d 5 0 0 [d.idx]
    obtain ⟨z, ring, kept⟩ := writeEntry_ring y r d 5 0 0 [d.idx]
    refine ⟨_, run, (congrArg Ring.state ring).trans state, (congrArg Ring.fetching ring).trans fetching, ?_, ?_, w, ?_, of, ?_, ?_⟩
    · show ∀ k ∈ (writeEntry y r d 5 0 0 [d.idx]).rings.reads, _
      rw [kept]
      exact reads
    · show ((Machine.ring (writeEntry y r d 5 0 0 [d.idx]) r).descs.find? _) = none
      rw [left, descs]
      rfl
    · show w ∈ (writeEntry y r d 5 0 0 [d.idx]).rings.writes
      rw [writes]
      exact List.mem_append_right _ (List.mem_singleton_self _)
    · rw [addr, tail, base]
      rfl
    · rw [entry, flip]
      rfl
  · exact ⟨_, (exec_ringResetComplete r s).trans (onU_next (if_pos ⟨small, on⟩)), ringResetDone_ring (u := fresh s) small held none written⟩
  · have run : exec .noticeRingReset s = .next (answered s (ntResetOp (noted s))) := by
      rw [exec_noticeRingReset, execNoticeRingReset, writeNamed_reaches reached]
      rfl
    exact ⟨_, run, rfl⟩

end Sys2Proof.Machine
end

section
/-! PROOF. Accesses of the register port: access codes and the single-bit space (R14, R541, R550), unmapped and user accesses (R532, R545), and the registers whose writes act (R70, R100, R370, R428, R556, R559, R561). -/

namespace Sys2Proof.Machine

/-! ### Access codes (R14, R541, R550, R559) -/

section
variable {s : State} {r : Reg} {i addr v : Nat} {p : Place} {write : Bool}

/-- The units as an access finds them: a write notes when it came. -/
def accessUnits (s : State) (write : Bool) : Units := if write then noted s else fresh s

/-- An access of the driver that nothing holds is carried out. -/
theorem placeAccess_driver (h : portOpen s.ctl s.u) : placeAccess s.ctl (fresh s) write false p addr v = driverAccess s.ctl (accessUnits s write) write p addr v := by
  unfold placeAccess
  rw [if_neg h.1, if_neg (by rw [open_through h]; decide)]
  cases write <;> rfl

/-- An access of a user that nothing holds is carried out. -/
theorem placeAccess_user (h : portOpen s.ctl s.u) : placeAccess s.ctl (fresh s) write true p addr v = (s.ctl, userAccessAt s.ctl (accessUnits s write) write p addr) := by
  unfold placeAccess
  rw [if_neg h.1, if_neg (by rw [open_through h]; decide)]
  cases write <;> rfl

theorem reaches.portOpen (h : reaches s.ctl s.u r i) : portOpen s.ctl s.u := by
  obtain ⟨-, -, run, awake, going, none, -⟩ := h
  exact ⟨run, awake, going, none⟩

/-- A write of a bit that writes set is one of its register, the other bits as they stand. -/
theorem bitWrite_set {k : Nat} (h : reaches s.ctl s.u r i) (set : (r.info.rw).testBit k = true) :
    bitWrite s.ctl (noted s) r i 0 k v = regWrite s.ctl (noted s) r i 0 (nput (rawReg s.u r i &&& (r.info.rw ||| r.info.rwb)) k 1 (v % 2) % 2 ^ 32) := by
  obtain ⟨-, exist, -, -, -, -, on⟩ := h
  have settable : nbits (r.info.rw ||| r.info.rwb) k 1 = 1 := by
    have := nbits_one (r.info.rw ||| r.info.rwb) k
    rw [Nat.testBit_or, set, Bool.true_or, beq_iff_eq] at this
    exact this
  unfold bitWrite
  dsimp only
  rw [if_pos settable]
  exact if_pos (by rw [Bool.and_eq_true]; exact ⟨exist, on⟩)

/-- A write through the single-bit space of a bit that writes set. -/
theorem access_bit {k : Nat} (h : reaches s.ctl s.u r i) (place : regPlaceOf addr = .bit r i 0 k) (set : (r.info.rw).testBit k = true) (plain : ordinary r = true) :
    onBoth s (accessOp true false addr v) = .next (answered s (codeWrite s.ctl (noted s) r i 0 (nput (rawReg s.u r i &&& (r.info.rw ||| r.info.rwb)) k 1 (v % 2) % 2 ^ 32))) := by
  refine onBoth_next ?_
  unfold accessOp
  rw [placeAccess_driver h.portOpen, place]
  unfold driverAccess
  rw [if_pos rfl]
  unfold writePlace
  dsimp only
  rw [show accessUnits s true = noted s from rfl, bitWrite_set h set, ordinary_write plain]

end

/-- Settles O30: the law of one bit is `codeWrite_bits`, for a write of the register (`access_write`) and for a write of one bit (`access_bit`). -/
theorem writesFollowTheAccessCodes : Obligations.WritesFollowTheAccessCodes := by
  unfold Obligations.WritesFollowTheAccessCodes
  intro s r i addr v plain reached
  refine ⟨fun place => ?_, fun k place low high hk staged set clear => ?_⟩
  · have run := (exec_registerWrite addr v s).trans (access_write (v := v.toNat) reached place)
    rw [BitVec.toNat_mod_cancel, ordinary_write plain] at run
    refine ⟨_, run, rfl, List.mem_append_right _ (List.mem_singleton_self _), fun b hb => ?_⟩
    refine (codeWrite_bits s.ctl (noted s) r i 0 v.toNat b hb).trans ?_
    rw [plainBits_bit]
    rfl
  · have run : exec (.bitAliasWrite addr v) s = _ := (exec_bitAliasWrite addr v s).trans ((congrArg (onBoth s) (funext fun c => funext fun u => if_pos ⟨low, high⟩)).trans (access_bit (v := v.toNat) reached place set plain))
    refine ⟨_, run, fun b hb => ?_⟩
    refine (codeWrite_bits s.ctl (noted s) r i 0 _ b hb).trans ?_
    have written : (nput (rawReg s.u r i &&& (r.info.rw ||| r.info.rwb)) k 1 (v.toNat % 2) % 2 ^ 32).testBit b = if b = k then v.getLsbD 0 else (rawReg s.u r i).testBit b && (r.info.rw ||| r.info.rwb).testBit b := by
      rw [Nat.testBit_mod_two_pow, nput_bit, Nat.testBit_and, decide_eq_true hb, Bool.true_and, ← Nat.pow_one 2, Nat.testBit_mod_two_pow]
      rfl
    have apart : ((r.info.w1c) &&& (r.info.rw ||| r.info.rwb)).testBit b = false := by rw [clear, Nat.zero_testBit]
    rw [Nat.testBit_and, Nat.testBit_or] at apart
    rw [written, plainBits_bit, Nat.testBit_or, rawReg_noted]
    by_cases hk : b = k
    · rw [hk, set]
      simp
    · rw [if_neg hk, if_neg hk]
      revert apart
      cases (r.info.rw).testBit b <;> cases (r.info.rwb).testBit b <;> cases (r.info.w1c).testBit b <;> cases (rawReg s.u r i).testBit b <;> simp

/-! ### Unmapped addresses, users and counters (R526, R532, R545) -/

section
variable {s : State} {addr : Nat} {v : Nat}

/-- An access of the driver to an address that names no register. -/
theorem access_nowhere (h : portOpen s.ctl s.u) (write : Bool) (place : regPlaceOf addr = .none false) :
    ∃ x, onBoth s (accessOp write false addr v) = .next (answered s (unmappedAt x write addr)) ∧ x.regs.cur = s.u.regs.cur ∧ x.v = s.u.v := by
  cases write
  · refine ⟨endCapture (fresh s) false, onBoth_next ?_, rfl, rfl⟩
    unfold accessOp
    rw [placeAccess_driver h, place]
    rfl
  · refine ⟨noted s, onBoth_next ?_, rfl, rfl⟩
    unfold accessOp
    rw [placeAccess_driver h, place]
    rfl

/-- A user access that is denied. -/
theorem access_denied (h : portOpen s.ctl s.u) {write : Bool} (denied : write = true ∨ inUserWindow addr = false ∨ getF s.u F.TELE_CFG_user_read = 0) :
    onBoth s (accessOp write true addr v) = .next (answered s (denyUser (accessUnits s write) write)) := by
  refine onBoth_next ?_
  unfold accessOp
  rw [placeAccess_user h]
  unfold userAccessAt
  rw [if_pos]
  cases write <;> exact denied

/-- A user read that is allowed. -/
theorem access_user (h : portOpen s.ctl s.u) (window : inUserWindow addr = true) (allowed : getF s.u F.TELE_CFG_user_read = 1) :
    onBoth s (accessOp false true addr v) = .next { s with u := present (readPlace s.ctl (fresh s) true (regPlaceOf addr)).2 (.regData (BitVec.ofNat 32 (readPlace s.ctl (fresh s) true (regPlaceOf addr)).1)) } := by
  refine onBoth_next ?_
  unfold accessOp
  rw [placeAccess_user h]
  unfold userAccessAt
  rw [if_neg]
  · rfl
  · rw [window, show getF (accessUnits s false) F.TELE_CFG_user_read = 1 from allowed]
    decide

end

/-- What a read returns, and that it presents nothing yet. -/
theorem readPlace_does (c : Ctl) (u : Units) (user : Bool) (p : Place) : (readPlace c u user p).1 = placeValue c u user p ∧ (readPlace c u user p).2.out = u.out := by
  unfold readPlace
  dsimp only
  split
  · refine ⟨rfl, ?_⟩
    dsimp only
    split <;> rfl
  · exact ⟨rfl, rfl⟩

/-- The low word of a counter, read by the driver, while the telemetry domain is on. -/
theorem readPlace_counter {c : Ctl} {u : Units} {n : Nat} (on : pdOn u 5 = true) (hn : n < 1472) :
    readPlace c u false (.reg .TELE_CNT_n_LO n 0 false) = (tabGet u.tele.counters n % 2 ^ 32, capture u false n) := by
  have exist : (instExists u.v .TELE_CNT_n_LO n 0 && pdOn u (accessDomain .TELE_CNT_n_LO n)) = true := by
    rw [Bool.and_eq_true]
    refine ⟨?_, on⟩
    unfold instExists
    rw [show (Reg.TELE_CNT_n_LO.info.n1.count u.v) = 1472 from rfl, decide_eq_true hn]
    rfl
  have shown : shownReg c u false false .TELE_CNT_n_LO n 0 = counterLo u n := by
    unfold shownReg
    dsimp only
    rw [show Reg.TELE_CNT_n_LO.info.rws = 0 from rfl, show Reg.TELE_CNT_n_LO.info.wo = 0 from rfl, show viewReg c u false .TELE_CNT_n_LO n 0 = counterLo u n from rfl]
    simp
  unfold readPlace placeValue instValue
  dsimp only
  rw [if_pos exist, if_pos ⟨hn, on⟩, shown]
  rfl

/-- What such a read of the driver answers. -/
theorem counter_answers {s : State} {n : Nat} (h : portOpen s.ctl s.u) (on : pdOn s.u 5 = true) (hn : n < 1472) :
    exec (.teleCntLoRead n false) s = .next { s with u := present (capture (fresh s) false n) (.regData (BitVec.ofNat 32 (tabGet s.u.tele.counters n % 2 ^ 32))) } := by
  refine (exec_teleCntLoRead n false s).trans (onBoth_next ?_)
  rw [if_pos hn, placeAccess_driver h]
  unfold driverAccess
  rw [if_neg (by decide)]
  rw [show accessUnits s false = fresh s from rfl, readPlace_counter (u := fresh s) on hn]
  rfl

/-- Settles O31: `access_nowhere` with `unmappedAt_does`; `access_denied` with `denyUser_on`, and `access_user`; `readPlace_counter`. -/
theorem accessesAreAnswered : Obligations.AccessesAreAnswered := by
  unfold Obligations.AccessesAreAnswered
  intro s addr v opened
  refine ⟨fun write place first => ?_, fun on => ⟨?_, fun denied => ?_, fun window allowed => ?_, fun n hn => ?_⟩⟩
  · obtain ⟨x, run, cur, var⟩ := access_nowhere (v := v.toNat) opened write place
    have same : getF x F.GLB_UNMAPPED_valid = getF s.u F.GLB_UNMAPPED_valid := by
      unfold getF rawReg
      rw [cur, var]
    have unset := same.trans first
    exact ⟨_, (exec_unmappedAccess write addr v s).trans run, List.mem_append_right _ (List.mem_singleton_self _), unmappedAt_does x write addr unset⟩
  · refine ⟨_, (exec_userAccess true addr v s).trans (access_denied opened (.inl rfl)), List.mem_append_right _ (List.mem_singleton_self _), ?_⟩
    rw [denyUser_on (u := accessUnits s true) on]
    exact getF_flag_same _ _ _ _ (by decide) (by decide)
  · refine ⟨_, (exec_userAccess false addr v s).trans (access_denied opened (.inr denied)), List.mem_append_right _ (List.mem_singleton_self _), ?_⟩
    rw [denyUser_on (u := accessUnits s false) on]
    exact getF_flag_same _ _ _ _ (by decide) (by decide)
  · have run := (exec_userAccess false addr v s).trans (access_user (v := v.toNat) opened window allowed)
    obtain ⟨value, out⟩ := readPlace_does s.ctl (fresh s) true (regPlaceOf addr)
    refine ⟨_, run, ?_⟩
    show (readPlace s.ctl (fresh s) true (regPlaceOf addr)).2.out ++ [_] = _
    rw [out, value]
    rfl
  · exact ⟨_, counter_answers opened on hn, rfl, rfl⟩

/-! ### Registers whose writes act (R70, R94, R130, R370, R428) -/

/-- Settles O32: the rules of the three registers are those of the laws (`reopen_acts`, `ctxCmd_acts`, `hngCmd_acts`). -/
theorem commandRegistersAct : Obligations.CommandRegistersAct := by
  unfold Obligations.CommandRegistersAct
  intro s
  refine ⟨fun p reached opened idle still => reopen_acts s p reached opened idle still, fun reached => ?_, fun reached => hngCmd_acts s reached⟩
  obtain ⟨t, run, ⟨w0, w1, w2, w3, w4⟩, read⟩ := ctxCmd_acts s reached
  exact ⟨t, run, w0, w1, w2, w3, w4, read⟩

section
variable {s : State} {v ch : Nat} {m : Bool}

theorem mod_of_mod_two_pow {n k : Nat} (x : Nat) (h : n ≤ k) : x % 2 ^ k % 2 ^ n = x % 2 ^ n :=
  Nat.mod_mod_of_dvd x (Nat.pow_dvd_pow 2 h)

theorem rankWriteOp_selected (sel : arbSelected s.u = some (m, ch)) :
    rankWriteOp (noted s) v = { noted s with arbs := tabPut s.u.arbs (chKey m ch) { tabGet s.u.arbs (chKey m ch) with rank := v % 2 ^ 18 } } := by
  unfold rankWriteOp
  rw [show arbSelected (noted s) = some (m, ch) from sel]
  rfl

/-- A bye interval of 0 is refused; any other is taken. -/
theorem byeWriteOp_selected (sel : arbSelected s.u = some (m, ch)) :
    byeWriteOp (noted s) v = if v % 16 = 0 then flag (noted s) F.MNT_ERR_cfg
      else { noted s with arbs := tabPut s.u.arbs (chKey m ch) { tabGet s.u.arbs (chKey m ch) with bye := v % 16, byeNext := (tabGet s.u.arbs (chKey m ch)).byeNext || decide (v % 16 ≤ (tabGet s.u.arbs (chKey m ch)).sinceBye) } } := by
  unfold byeWriteOp
  rw [show arbSelected (noted s) = some (m, ch) from sel]
  rfl

end

/-- A scheduler or thermal setting is taken where it is in range, and flagged where not. -/
theorem schedWriteOp_cases (u : Units) (ch : Nat) (therm : Bool) (v : Nat) :
    schedWriteOp u ch therm v = if (if therm then thermOk v else schedOk v) = true
      then putReg u (if therm then .DDR5_n_THERM else .DDR5_n_SCHED) ch 0 (nput (rawReg u (if therm then .DDR5_n_THERM else .DDR5_n_SCHED) ch) 0 (if therm then 12 else 28) v)
      else flag u F.DDR5_n_ERR_sched_cfg ch := by
  cases therm <;> rfl

/-- A write of either setting of a channel. -/
theorem sched_writes {s : State} {ch : Nat} {therm : Bool} {v : Word} (h : reaches s.ctl s.u (if therm then .DDR5_n_THERM else .DDR5_n_SCHED) ch) :
    exec (.ddr5SchedWrite ch therm v) s = .next (answered s (schedWriteOp (noted s) ch therm v.toNat)) := by
  refine ((exec_ddr5SchedWrite ch therm v s).trans (writeNamed_reaches (v := v.toNat) h)).trans ?_
  rw [BitVec.toNat_mod_cancel]
  cases therm <;> rfl

theorem sched_apart {therm : Bool} (ch : Nat) : regAddr (if therm then .DDR5_n_THERM else .DDR5_n_SCHED) ch 0 ≠ regAddr F.DDR5_n_ERR_sched_cfg.reg ch 0 := by
  cases therm <;> simp [regAddr, Reg.info, F.DDR5_n_ERR_sched_cfg]

/-- Settles O33: each write is one of its register (`writeNamed_reaches`), which its own rule gives. -/
theorem arbiterAndSchedulerSettings : Obligations.ArbiterAndSchedulerSettings := by
  unfold Obligations.ArbiterAndSchedulerSettings
  intro s v
  refine ⟨fun m ch sel => ⟨fun reached => ?_, fun reached => ⟨fun zero => ?_, fun some => ?_⟩⟩, fun ch therm => ?_⟩
  · refine ⟨_, (exec_mntRankWrite v s).trans (writeNamed_reaches (v := v.toNat) reached), ?_⟩
    show tabGet (rankWriteOp (noted s) _).arbs _ = _
    rw [rankWriteOp_selected sel, mod_of_mod_two_pow _ (by decide)]
    exact tabGet_put_same ..
  · refine ⟨_, (exec_mntByeWrite v s).trans (writeNamed_reaches (v := v.toNat) reached), ?_⟩
    show (byeWriteOp (noted s) _).arbs = _ ∧ getF (byeWriteOp (noted s) _) _ = 1
    rw [byeWriteOp_selected sel, BitVec.toNat_mod_cancel, if_pos zero]
    exact ⟨rfl, getF_flag_same _ _ _ _ (by decide) (by decide)⟩
  · refine ⟨_, (exec_mntByeWrite v s).trans (writeNamed_reaches (v := v.toNat) reached), ?_⟩
    show tabGet (byeWriteOp (noted s) _).arbs _ = _
    rw [byeWriteOp_selected sel, BitVec.toNat_mod_cancel, if_neg some]
    exact tabGet_put_same ..
  · intro r legal reached
    refine ⟨fun ok => ⟨_, sched_writes reached, ?_⟩, fun bad => ⟨_, sched_writes reached, ?_⟩⟩
    · show rawReg (schedWriteOp (noted s) ch therm v.toNat) _ ch = _
      rw [schedWriteOp_cases, if_pos ok, rawReg_putReg_same, rawReg_noted]
      exact Nat.mod_eq_of_lt (nput_lt (rawReg_lt ..) (by cases therm <;> decide))
    · show rawReg (schedWriteOp (noted s) ch therm v.toNat) _ ch = _ ∧ getF (schedWriteOp (noted s) ch therm v.toNat) _ ch = 1
      rw [schedWriteOp_cases, if_neg (by rw [show (if therm then thermOk v.toNat else schedOk v.toNat) = false from bad]; decide)]
      exact ⟨rawReg_putF_other (sched_apart ch) .., getF_flag_same _ _ _ _ (by decide) (by decide)⟩

/-! ### Unit resets (R561) -/

section
variable {c : Ctl} {u : Units} {d : Nat}

theorem pdState_setPd (u : Units) (h : d ≠ 0) (x : Nat) : pdState (setPd u d x) d = x := by
  unfold pdState setPd
  rw [if_neg h, if_neg h]
  exact tabGet_put_same ..

theorem dropRead_fences (u : Units) (g id : Nat) : (dropRead u g id).fences = u.fences := by
  unfold dropRead
  refine (foldl_same (g := Units.fences) (fun u q => ?_) ..).trans rfl
  dsimp only
  split <;> rfl

theorem orphanGroup_fences (u : Units) (g : Nat) : (orphanGroup u g).fences = u.fences := by
  unfold orphanGroup
  exact foldl_same (g := Units.fences) (f := fun u (x : MRead) => dropRead u g x.id) (fun u x => dropRead_fences u g x.id) _ u

theorem sliceCore_fences {b : Bool} {u x : Units} (h : sliceCore b x = sliceCore b u) : x.fences = u.fences :=
  show (sliceCore b x).fences = (sliceCore b u).fences by rw [h]

theorem beginRestore_fences (u : Units) : (beginRestore u).fences = u.fences :=
  sliceCore_fences (x := blankSlice u u.stg.evacCh) (sliceCore_blankSlice ..)

theorem startLc_fences (u : Units) : (startLc u).fences = u.fences := by
  unfold startLc
  split <;> rfl

theorem endImage_fences (u : Units) (status fault : Nat) : (endImage u status fault).fences = u.fences := by
  unfold endImage
  dsimp only
  have ends : ∀ (x : Units) (d : Option (Nat × Nat)), (completeOpt x d status 0).fences = x.fences := by
    intro x d
    unfold completeOpt
    split
    · exact (complete_keeps ..).fences
    · rfl
  split
  · rw [startLc_fences, ends]
    rfl
  · rw [ends]
    rfl

/-- The work that a reset of the ring engine orphans, and the reset itself, leave the fences as they stand. -/
theorem resetRings_fences (u : Units) : (resetRings u).fences = u.fences := by
  have image : ∀ y : Units, (if y.boot.writeDesc.isSome then endImage (onBoot y fun b => { b with writeDesc := none }) 8 0 else y).fences = y.fences := by
    intro y
    split
    · exact endImage_fences ..
    · rfl
  have restore : ∀ y : Units, (if y.stg.evac = 2 then beginRestore y else y).fences = y.fences := by
    intro y
    split
    · exact beginRestore_fences y
    · rfl
  have work : ∀ x : Units, (orphanWork x).fences = x.fences := fun x =>
    (foldl_same (g := Units.fences) orphanGroup_fences ..).trans ((image _).trans ((restore _).trans (foldl_same (g := Units.fences) (fun u s => setSlice_fences ..) ..)))
  exact work { u with rings := {} }

theorem enterUnitReset_fences (c : Ctl) (u : Units) (d : Nat) : (enterUnitReset c u d).fences = u.fences := by
  unfold enterUnitReset
  rw [setPd_fences]
  split
  · rw [foldl_same (g := Units.fences), resetRings_fences]
    intro x n
    split
    · exact sliceCore_fences (sliceCore_pumpSlice c x n)
    · rfl
  · rfl

/-- A unit reset that may begin: its fence is raised, and the domain is held in reset where its boundary is quiet. -/
theorem unitReset_goes (mode : c.mode = .run ∨ c.mode = .service) (idle : u.pwr.unitResets = []) (may : d = 4 ∨ u.audit = none) {v : Nat}
    (asks : ((if nbits v 1 1 = 1 then [(4, 0)] else []) ++ (if nbits v 0 1 = 1 then [(5, 0)] else []) : List (Nat × Nat)) = [(d, 0)]) (hd : d = 4 ∨ d = 5) :
    fenced (unitResetWrite c u v) d = true ∧ (unitQuiet u d = true → pdState (unitResetWrite c u v) d = 0) ∧
      (unitQuiet u d = false → (unitResetWrite c u v).pd = u.pd ∧ (unitResetWrite c u v).pwr.unitResets = [(d, 0)]) := by
  rw [unitReset_begins v mode idle d asks, unitResetGo]
  dsimp only
  rw [if_pos rfl, if_neg (by rintro ⟨rfl, held⟩; rw [may.resolve_left (by decide)] at held; exact absurd held (by decide))]
  have fence := fence_up { u with pwr := { u.pwr with unitResets := [(d, 0)] } } d
  have quiet : unitQuiet (setFence { u with pwr := { u.pwr with unitResets := [(d, 0)] } } d true) d = unitQuiet u d := rfl
  rw [quiet]
  generalize hy : setFence { u with pwr := { u.pwr with unitResets := [(d, 0)] } } d true = y at fence
  cases unitQuiet u d
  · rw [if_neg (by decide), ← hy]
    exact ⟨fence_up _ d, fun h => absurd h (by decide), fun _ => ⟨rfl, rfl⟩⟩
  · rw [if_pos rfl]
    refine ⟨?_, fun _ => ?_, fun h => absurd h (by decide)⟩
    · show (enterUnitReset c y d).fences.contains d = true
      rw [enterUnitReset_fences]
      exact fence
    · show pdState (enterUnitReset c y d) d = 0
      exact pdState_setPd _ (by omega) 0

/-- A unit reset that the mode or another one stops. -/
theorem unitReset_refused (stops : (c.mode ≠ .run ∧ c.mode ≠ .service) ∨ u.pwr.unitResets ≠ []) {v : Nat} (asks : nbits v 0 1 = 1 ∨ nbits v 1 1 = 1) :
    unitResetWrite c u v = flag u F.GLB_ERR_unit_reset := by
  unfold unitResetWrite
  dsimp only
  rw [if_neg (by rcases asks with h | h <;> rw [h] <;> simp), if_pos (stops.imp (fun h => not_or.mpr h) id)]

end

/-- Settles O34: each write is one of its register (`writeNamed_reaches`); `codeWrite_bits` for the hold of the latch, `unitReset_goes` and `unitReset_refused` for the unit resets. -/
theorem globalControlsAct : Obligations.GlobalControlsAct := by
  unfold Obligations.GlobalControlsAct
  intro s v
  refine ⟨fun reached => ?_, fun reached => ?_, fun reached mode idle i d asked may => ?_, fun reached stops i asked => ?_⟩
  · refine ⟨_, (exec_deadbolt v s).trans (writeNamed_reaches (v := v.toNat) reached), ?_⟩
    rw [BitVec.toNat_mod_cancel]
    rfl
  · refine ⟨_, (exec_latchHold v s).trans (writeNamed_reaches (v := v.toNat) reached), ?_⟩
    have bit := codeWrite_bits s.ctl (noted s) .GLB_LATCH_CTRL 0 0 v.toNat 0 (by decide)
    rw [if_pos (by rw [plainBits_bit]; rfl), ← nbits_one, ← nbits_one, Bool.eq_iff_iff, beq_iff_eq, beq_iff_eq] at bit
    rw [BitVec.toNat_mod_cancel]
    show nbits (rawReg (codeWrite s.ctl (noted s) .GLB_LATCH_CTRL 0 0 v.toNat) .GLB_LATCH_CTRL 0) 0 1 = _
    have value : nbits v.toNat 0 1 = v.toNat % 2 := by unfold nbits; omega
    rw [value] at bit
    have low : nbits (rawReg (codeWrite s.ctl (noted s) .GLB_LATCH_CTRL 0 0 v.toNat) .GLB_LATCH_CTRL 0) 0 1 < 2 := Nat.mod_lt _ (by decide)
    omega
  · have two : (i = .unitResetTele ∧ d = 5) ∨ (i = .unitResetRings ∧ d = 4) := by simpa using asked
    obtain ⟨rfl, rfl⟩ | ⟨rfl, rfl⟩ := two
    · exact ⟨_, (exec_unitResetTele s).trans (writeNamed_reaches (v := 1) reached), unitReset_goes (u := noted s) (v := 1) mode idle may (by decide) (by decide)⟩
    · exact ⟨_, (exec_unitResetRings s).trans (writeNamed_reaches (v := 2) reached), unitReset_goes (u := noted s) (v := 2) mode idle may (by decide) (by decide)⟩
  · have refused : ∀ x, nbits x 0 1 = 1 ∨ nbits x 1 1 = 1 → getF (unitResetWrite s.ctl (noted s) x) F.GLB_ERR_unit_reset = 1 ∧ (unitResetWrite s.ctl (noted s) x).pd = s.u.pd := by
      intro x asks
      rw [unitReset_refused (u := noted s) stops asks]
      exact ⟨getF_flag_same _ _ _ _ (by decide) (by decide), rfl⟩
    obtain rfl | rfl := asked
    · exact ⟨_, (exec_unitResetTele s).trans (writeNamed_reaches (v := 1) reached), refused 1 (by decide)⟩
    · exact ⟨_, (exec_unitResetRings s).trans (writeNamed_reaches (v := 2) reached), refused 2 (by decide)⟩

end Sys2Proof.Machine
end

section
/-! PROOF. Descriptors of tests, retraining, patches and audits (R217, R248, R267, R268, R272, R306, R418, R422, R440, R463). -/

namespace Sys2Proof.Machine

/-! ### The parts of a descriptor's meaning -/

section
variable {s : State} {r : Nat} {d : Desc} {names : Desc → Bool} {bad : Units → Desc → Bool} {modes : List Mode} {start step : Ctl → Units → Nat → Desc → Units}

/-- A descriptor at the head of its ring begins, in a mode that lets it. -/
theorem desc_begins (h : handed s.ctl s.u r d) (named : names d = true) (good : bad (fresh s) d = false) (mode : modes.contains s.ctl.mode = true) :
    onU s (descOp names bad modes start step r d.idx) = .next { s with u := start s.ctl (putDesc (fresh s) r { d with begun := true }) r { d with begun := true } } :=
  onU_next (descOp_start (handed_fresh h) named good mode)

/-- A descriptor under way goes on. -/
theorem desc_goes_on (h : started s.u r d) (named : names d = true) :
    onU s (descOp names bad modes start step r d.idx) = .next { s with u := step s.ctl (fresh s) r d } :=
  onU_next (descOp_step (started_fresh h) named)

/-- Counters of a descriptor under way. -/
theorem putOwn_found {u y : Units} {r : Nat} {d : Desc} (h : findDesc u r d.idx = some d) (k : RingsKept u y) (l : List Nat) :
    findDesc (putOwn y r d l) r d.idx = some { d with own := l } :=
  findDesc_putDesc (d := { d with own := l }) ((findDesc_rings k.rings ..).trans h)

end

/-! ### Tests (R268, R422, R463) -/

section
variable {u : Units} {r : Nat} {d : Desc} {x : TestResult} {c : Ctl}

theorem margin_kept : RingsKept u (endGrant (marginPoint u (testCh d) (testSub d) (testRank d)) (testCh d) 5) :=
  ((RingsKept.refl u).blackout _ _ _ _ _).endGrant _ _

/-- A passing point below the last one is counted. -/
theorem margin_passes (h : started u r d) (held : (tabGet u.arbs (testCh d)).holder = 5) (pass : x.pass = true) (more : ownAt d 1 < 31) :
    findDesc (readMarginStep x c u r d) r d.idx = some { d with own := [ownAt d 0, ownAt d 1 + 1, ownAt d 2] } := by
  rw [margin_steps u r d x c held, if_pos pass, if_pos ⟨pass, by omega⟩]
  exact putOwn_found h.1 margin_kept _

/-- The first side ends with its passing steps. -/
theorem margin_turns (h : started u r d) (held : (tabGet u.arbs (testCh d)).holder = 5) (last : x.pass = false ∨ 31 ≤ ownAt d 1) (first : ownAt d 0 = 0) :
    findDesc (readMarginStep x c u r d) r d.idx = some { d with own := [1, 0, ownAt d 1 + if x.pass then 1 else 0] } := by
  rw [margin_steps u r d x c held, if_neg, if_pos first]
  · exact putOwn_found h.1 margin_kept _
  · rintro ⟨pass, below⟩
    rw [if_pos pass] at below
    rcases last with fail | full
    · exact absurd (pass.symm.trans fail) (by decide)
    · omega

end

/-- Settles O35: `pattern_start` and `offline_ends` for the tests that take a channel, `margin_passes`, `margin_turns` and `margin_ends` for the sweep; the others end at once. -/
theorem selfTestsReport : Obligations.SelfTestsReport := by
  unfold Obligations.SelfTestsReport
  intro s r d x ch st
  refine ⟨pattern_start s r d x, fun h away idle => ⟨fun kind => ?_, fun kind => ?_⟩, fun h kind good held => ?_, fun h => ⟨fun kind => ?_, fun kind => ?_, fun kind => ?_, fun kind => ?_⟩⟩
  · exact ⟨_, (exec_selftestDramPattern r d.idx x s).trans (desc_goes_on h kind), offline_ends (u := fresh s) _ _ _ h away idle⟩
  · exact ⟨_, (exec_selftestDramWriteMargin r d.idx x s).trans (desc_goes_on h kind), offline_ends (u := fresh s) _ _ _ h away idle⟩
  · have run := (exec_selftestDramReadMargin r d.idx x s).trans (desc_goes_on h kind)
    refine ⟨fun pass more => ⟨_, _, run, margin_passes (c := s.ctl) (u := fresh s) h held pass more, rfl⟩, fun last first => ⟨_, _, run, margin_turns (c := s.ctl) (u := fresh s) h held last first, rfl⟩, fun last second => ⟨_, run, ?_⟩⟩
    exact margin_ends (fresh s) r d x s.ctl h (margin_addr _ (ch_below kind good)) held second last
  · exact ⟨_, (exec_selftestEcsReadout r d.idx x s).trans (desc_goes_on h kind), kept_posted (u := fresh s) _ _ _ h (.refl _)⟩
  · refine ⟨_, (exec_selftestMediaPattern r d.idx x s).trans (desc_goes_on h kind), started_ends (u := fresh s) _ _ _ h rfl rfl rfl rfl rfl, fun a low => ?_⟩
    show tabGet (complete (blankDie (fresh s) (testCh d) (testDie d)) r d.idx (testStatus x) x.r0).media _ = _
    rw [(complete_keeps ..).media]
    exact die_blank _ _ _ _ low
  · exact ⟨_, (exec_selftestMediaReadMargin r d.idx x s).trans (desc_goes_on h kind), kept_posted (u := fresh s) _ _ _ h (.refl _)⟩
  · exact ⟨_, (exec_selftestCodec r d.idx x s).trans (desc_goes_on h kind), codec_ends (fresh s) r d x s.ctl h⟩

/-! ### Retraining, patches, repairs and audits (R248, R267, R272, R306, R418, R440) -/

/-- Settles O36: `retrain_ends`, `retrainCex_ends`, `patch_begins` and `ppr_begins`; an audit is noted, and only one. -/
theorem repairsAndAuditsRun : Obligations.RepairsAndAuditsRun := by
  unfold Obligations.RepairsAndAuditsRun
  intro s r d x ch line table
  refine ⟨fun h kind good pass away => ?_, fun h kind mode fine => ?_, fun h mode kind good ready err => ?_, fun h kind k l read => ?_, fun h mode kind good => ?_, fun h mode op => ⟨fun free => ?_, fun taken => ?_⟩⟩
  · exact ⟨_, (exec_retrainDdr5 r d.idx x s).trans (desc_goes_on h kind), retrain_ends s.ctl (fresh s) r d x h (retrain_ch good kind) pass away⟩
  · exact ⟨_, (exec_retrainCexus r d.idx x s).trans (desc_goes_on h kind), retrainCex_ends s.ctl (fresh s) r d x h mode fine⟩
  · have run := (exec_patchAdd r d.idx err s).trans (desc_begins (bad := badPatch) (modes := runService) (start := patchStart err) (step := waits) h kind good (runService_has (.inr mode)))
    obtain ⟨room, full⟩ := patch_begins s.ctl (fresh s) r d err h.1 ready (badPatch_ch good)
    exact ⟨fun here => ⟨_, run, room here⟩, fun new many => ⟨_, run, full new many⟩⟩
  · refine ⟨_, (exec_patchAddMedia r d.idx s).trans (desc_goes_on h kind), ?_⟩
    show posted _ (mediaPatchStep s.ctl (fresh s) r d) _ _ _ _ _
    unfold mediaPatchStep
    rw [read]
    exact kept_posted (u := fresh s) _ _ _ h (.refl _)
  · have run := (exec_pprRepair r d.idx x s).trans (desc_begins (bad := badPatch) (modes := [.service]) (start := pprStart x) (step := waits) h kind good (by rw [mode]; rfl))
    obtain ⟨refused, repaired⟩ := ppr_begins s.ctl (fresh s) r d x h.1
    exact ⟨fun stop => ⟨_, run, refused stop⟩, fun ready has clean pass => ⟨_, run, repaired ready has clean pass⟩⟩
  · have run := (exec_ledgerAudit r d.idx s).trans (desc_begins (names := isOp 0x31) (bad := neverBad) (modes := runService) (start := auditStart) (step := waits) h (by rw [isOp, op]; rfl) rfl (runService_has (.inr mode)))
    refine ⟨_, run, ?_⟩
    show (auditStart s.ctl (putDesc (fresh s) r { d with begun := true }) r { d with begun := true }).audit = _
    unfold auditStart
    rw [if_neg (by rw [show (putDesc (fresh s) r { d with begun := true }).audit = none from free]; decide)]
  · have run := (exec_ledgerAudit r d.idx s).trans (desc_begins (names := isOp 0x31) (bad := neverBad) (modes := runService) (start := auditStart) (step := waits) h (by rw [isOp, op]; rfl) rfl (runService_has (.inr mode)))
    refine ⟨_, run, ?_⟩
    have busy : auditStart s.ctl (putDesc (fresh s) r { d with begun := true }) r { d with begun := true } = complete (putDesc (fresh s) r { d with begun := true }) r d.idx 3 := by
      unfold auditStart
      exact if_pos taken
    dsimp only
    rw [busy, (complete_keeps ..).audit]
    exact ⟨rfl, posted_begun (u := fresh s) 3 0 0 rfl rfl h.1 rfl rfl⟩

end Sys2Proof.Machine
end

section
/-! PROOF. Descriptors of contexts, of the cache and of staged settings (R101 to R103, R146, R414, R451, R452, R458 to R462). -/

namespace Sys2Proof.Machine

/-! ### Contexts (R101 to R103) -/

section
variable {s : State} {r : Nat} {d : Desc}

theorem isOp_of {op : Nat} (h : dOp d = op) : isOp op d = true := beq_iff_eq.mpr h

/-- A descriptor refused as it begins leaves the staged records alone. -/
theorem refused_ctx (u : Units) (st : Nat) (h : findDesc u r d.idx = some d) :
    (complete (putDesc u r { d with begun := true }) r d.idx st).ctxStaged = u.ctxStaged ∧ posted u (complete (putDesc u r { d with begun := true }) r d.idx st) r d st 0 0 :=
  ⟨(complete_keeps ..).ctxStaged, posted_begun st 0 0 rfl rfl h rfl rfl⟩

/-- A CTX_OPEN: staged, or rejected. -/
theorem ctxOpen_begins (h : handed s.ctl s.u r d) (mode : s.ctl.mode = .run ∨ s.ctl.mode = .service) (op : dOp d = 2) (good : badHandle s.u d = false) (whole : s.u.badCtx.contains (dHandle d / 2) = false) :
    (ctxState s.u (dHandle d) = 0 → nbits (dImage d) 2 2 ≠ 3 → windowLegal s.u.v (dImage d) 17 = true → windowLegal s.u.v (dImage d) 63 = true → ∃ t, exec (.ctxOpen r d.idx) s = .next t ∧
      t.u.ctxStaged = s.u.ctxStaged ++ [(dHandle d, BitVec.ofNat 160 (nput (dImage d) 0 2 1))] ∧ waitsForLatch t.u r d) ∧
    (ctxState s.u (dHandle d) ≠ 0 ∨ nbits (dImage d) 2 2 = 3 ∨ windowLegal s.u.v (dImage d) 17 = false ∨ windowLegal s.u.v (dImage d) 63 = false → ∃ t, exec (.ctxOpen r d.idx) s = .next t ∧
      t.u.ctxStaged = s.u.ctxStaged ∧ posted s.u t.u r d 4 0 0) := by
  have run := (exec_ctxOpen r d.idx s).trans (desc_begins (names := isOp 2) (bad := badHandle) (modes := runService) (start := ctxOpenStart) (step := waits) h (isOp_of op) good (runService_has mode))
  obtain ⟨opens, rejects⟩ := open_starts s.ctl (putDesc (fresh s) r { d with begun := true }) r { d with begun := true } (begun_found h.1) whole
  refine ⟨fun closed cipher reads writes => ⟨_, run, opens closed cipher reads writes⟩, fun stop => ⟨_, run, ?_⟩⟩
  dsimp only
  rw [rejects stop]
  exact refused_ctx (fresh s) 4 h.1

theorem close_open {y : Units} (c : Ctl) (h : ctxState y (dHandle d) = 1) : ctxCloseStart c y r d = stageCtx y (dHandle d) (nput (ctxView y (dHandle d)).toNat 0 2 2) :=
  if_neg (not_not.mpr h)

theorem close_other {y : Units} (c : Ctl) (h : ctxState y (dHandle d) ≠ 1) : ctxCloseStart c y r d = complete y r d.idx 4 := if_pos h

/-- A CTX_CLOSE: staged, or rejected. -/
theorem ctxClose_begins (h : handed s.ctl s.u r d) (mode : s.ctl.mode = .run ∨ s.ctl.mode = .service) (op : dOp d = 3) (good : badHandle s.u d = false) :
    (ctxState s.u (dHandle d) = 1 → ∃ t, exec (.ctxClose r d.idx) s = .next t ∧ t.u.ctxStaged = s.u.ctxStaged ++ [(dHandle d, BitVec.ofNat 160 (nput (ctxView s.u (dHandle d)).toNat 0 2 2))]) ∧
    (ctxState s.u (dHandle d) ≠ 1 → ∃ t, exec (.ctxClose r d.idx) s = .next t ∧ t.u.ctxStaged = s.u.ctxStaged ∧ posted s.u t.u r d 4 0 0) := by
  have run := (exec_ctxClose r d.idx s).trans (desc_begins (names := isOp 3) (bad := badHandle) (modes := runService) (start := ctxCloseStart) (step := waits) h (isOp_of op) good (runService_has mode))
  refine ⟨fun opened => ⟨_, run, ?_⟩, fun other => ⟨_, run, ?_⟩⟩
  · dsimp only
    rw [close_open (y := putDesc (fresh s) r { d with begun := true }) (d := { d with begun := true }) _ opened]
    rfl
  · dsimp only
    rw [close_other (y := putDesc (fresh s) r { d with begun := true }) (d := { d with begun := true }) _ other]
    exact refused_ctx (fresh s) 4 h.1

end

/-- Settles O37: `ctxOpen_begins` and `ctxClose_begins`, with `modify_starts`, `bind_starts` and `closeFinish_does`. -/
theorem contextRecordsChangeAtTheLatch : Obligations.ContextRecordsChangeAtTheLatch := by
  unfold Obligations.ContextRecordsChangeAtTheLatch
  intro s r d h x m was
  refine ⟨fun hand mode => ⟨fun op good whole => ctxOpen_begins hand mode op good whole, fun op good opened mask cipher reads writes => ?_, fun op good => ctxClose_begins hand mode op good, fun op good some opened => ?_⟩,
    fun k on below closing idle => ?_⟩
  · have run := (exec_ctxModify r d.idx s).trans (desc_begins (names := isOp 4) (bad := badHandle) (modes := runService) (start := ctxModifyStart) (step := waits) hand (isOp_of op) good (runService_has mode))
    exact ⟨_, run, modify_starts s.ctl (putDesc (fresh s) r { d with begun := true }) r { d with begun := true } (begun_found hand.1) opened mask cipher reads writes⟩
  · have run := (exec_keyBind r d.idx s).trans (desc_begins (names := isOp 0x12) (bad := badBind) (modes := runService) (start := keyBindStart) (step := waits) hand (isOp_of op) good (runService_has mode))
    exact ⟨_, run, bind_starts s.ctl (putDesc (fresh s) r { d with begun := true }) r { d with begun := true } (begun_found hand.1) some opened⟩
  · have run : exec (.ctxCloseFinish k) s = .next { s with u := closeFinishOp (fresh s) k } :=
      (exec_ctxCloseFinish k s).trans (onU_next (if_pos (by rw [show pdOn (fresh s) 2 = true from on, decide_eq_true (show k < nCtx (fresh s).v from below)]; rfl)))
    exact ⟨_, run, closeFinish_does (fresh s) k closing idle⟩

/-! ### The cache (R414, R458 to R460) -/

section
variable {u : Units} {c : Ctl} {r : Nat} {d : Desc}

/-- A FLUSH_ALL begins: it waits. -/
theorem flushStart_all (h : dOp d = 8) : flushStart c u r d = addWaiter (putDesc u r { d with committed := true }) { all := true, desc := some (r, d.idx) } := if_pos h

/-- A FLUSH of a context that is not open begins. -/
theorem flushStart_closed (h : dOp d = 5) (closed : cBits (ctxRec u u.regs.epoch (dHandle d)) 0 2 ≠ 1) : flushStart c u r d = complete (putDesc u r { d with committed := true }) r d.idx 4 :=
  (if_neg (by rw [h]; decide)).trans (if_pos closed)

/-- A FLUSH of an open context in staged mode begins. -/
theorem flushStart_staged (h : dOp d = 5) (opened : cBits (ctxRec u u.regs.epoch (dHandle d)) 0 2 = 1) (staged : cBits (ctxRec u u.regs.epoch (dHandle d)) 4 1 = 0) :
    flushStart c u r d = flushDescDone (putDesc u r { d with committed := true }) r { d with committed := true } :=
  (if_neg (by rw [h]; decide)).trans ((if_neg (not_not.mpr opened)).trans (if_pos staged))

/-- A FLUSH of an open context in media mode begins. -/
theorem flushStart_media (h : dOp d = 5) (opened : cBits (ctxRec u u.regs.epoch (dHandle d)) 0 2 = 1) (media : cBits (ctxRec u u.regs.epoch (dHandle d)) 4 1 ≠ 0) :
    flushStart c u r d = addWaiter (putDesc u r { d with committed := true }) { handle := dHandle d, desc := some (r, d.idx) } :=
  (if_neg (by rw [h]; decide)).trans ((if_neg (not_not.mpr opened)).trans (if_neg media))

/-- A FLUSH or FLUSH_ALL that has been told that its epoch is clean. -/
theorem flushStep_told (told : d.prog ≠ []) : flushStep c u r d = flushDescDone u r d := if_neg told

/-- A PREFETCH that is refused. -/
theorem prefetchStart_refused (h : cBits (ctxRec u u.regs.epoch (dHandle d)) 0 2 ≠ 1 ∨ windowCheck (ctxRec u u.regs.epoch (dHandle d)) (dRegion d) 1 = false ∨ crossesRegion d = true) :
    prefetchStart c u r d = complete u r d.idx 4 := if_pos h

/-- A PREFETCH with lines left sends the next one. -/
theorem prefetch_sends (more : d.prog.length < dCount d) (unsent : sentOf d < dCount d) (ticket : canTake u (ringPool (lineSlice u u.regs.epoch (dLine d + sentOf d))) 1 = true)
    (way : routeRefused u (epCore 5) (epSlice (lineSlice u u.regs.epoch (dLine d + sentOf d))) = false) :
    ∃ k ∈ (prefetchStep c u r d).net, k.typ = .lineReq ∧ k.lla = dLine d + sentOf d ∧ k.ord = d.idx := by
  unfold prefetchStep
  rw [if_neg (by omega)]
  exact sendLines_first (fun k => { typ := .lineReq, src := epCore 5, kind := .ringPrefetch, cls := 3, port := 100 + r, ord := d.idx, lla := dLine d + k }) 1 (dCount d) 4095 (sentOf d) u unsent ticket way

end

/-- Settles O38: the cases of `flushStart` and of the PREFETCH; `flushDone_ends`, `flushAll_ends` and `kept_posted` for what completes. -/
theorem descriptorsOfTheCacheComplete : Obligations.DescriptorsOfTheCacheComplete := by
  unfold Obligations.DescriptorsOfTheCacheComplete
  intro s r d
  refine ⟨fun h mode => ⟨fun op => ?_, fun op good => ?_, fun op good => ?_, fun op => ?_, fun op good small => ?_⟩, fun h => ⟨fun op told => ?_, fun op told => ?_, fun op all => ?_, fun op more unsent ticket way => ?_⟩,
    fun found fresh_ may reserved op => ?_, fun h mode op good small => ?_⟩
  · have run := (exec_nop r d.idx s).trans (desc_begins (names := isOp 1) (bad := neverBad) (modes := [.run, .service, .drain]) (start := fun _ u r d => complete u r d.idx 0) (step := waits) h (isOp_of op) rfl (by rw [mode]; rfl))
    exact ⟨_, run, posted_begun (u := fresh s) (d := d) (e := { d with begun := true }) 0 0 0 rfl rfl h.1 rfl rfl⟩
  · have run := (exec_scrubPass r d.idx s).trans (desc_begins (names := isOp 0x20) (bad := badChannel) (modes := runService) (start := scrubPassStart) (step := waits) h (isOp_of op) good (by rw [mode]; rfl))
    exact ⟨_, run, posted_begun (u := fresh s) (d := d) (e := { d with begun := true }) _ _ _ rfl rfl h.1 rfl rfl⟩
  · intro x
    have run := (exec_flushDescriptor r d.idx s).trans (desc_begins (names := isOp 5) (bad := badHandle) (modes := [.run, .service, .drain]) (start := flushStart) (step := flushStep) h (isOp_of op) good (by rw [mode]; rfl))
    have begun := CarriesOn.put (f := { d with begun := true }) (.refl (show findDesc (fresh s) r d.idx = some d from h.1)) rfl rfl
    have taken := CarriesOn.put (f := { d with begun := true, committed := true }) begun rfl rfl
    refine ⟨fun closed => ⟨_, run, ?_⟩, fun opened staged => ⟨_, run, ?_⟩, fun opened media => ⟨_, run, ?_⟩⟩
    · dsimp only
      rw [flushStart_closed (u := putDesc (fresh s) r { d with begun := true }) (d := { d with begun := true }) op closed]
      dsimp only
      exact taken.ends 4 0 0 rfl
    · dsimp only
      rw [flushStart_staged (u := putDesc (fresh s) r { d with begun := true }) (d := { d with begun := true }) op opened staged]
      dsimp only
      exact flushDone_ends (u := fresh s) taken op rfl ⟨rfl, rfl, rfl⟩ rfl
    · dsimp only
      rw [flushStart_media (u := putDesc (fresh s) r { d with begun := true }) (d := { d with begun := true }) op opened media]
      exact addWaiter_adds ..
  · have run := (exec_flushAllDescriptor r d.idx s).trans (desc_begins (names := isOp 8) (bad := neverBad) (modes := [.run, .service, .drain]) (start := flushStart) (step := flushStep) h (isOp_of op) rfl (by rw [mode]; rfl))
    refine ⟨_, run, ?_⟩
    dsimp only
    rw [flushStart_all (u := putDesc (fresh s) r { d with begun := true }) (d := { d with begun := true }) op]
    obtain ⟨w, mem, desc, -, all⟩ := addWaiter_adds (putDesc (putDesc (fresh s) r { d with begun := true }) r { d with begun := true, committed := true }) { all := true, desc := some (r, d.idx) }
    exact ⟨w, mem, desc, all⟩
  · intro x refused
    have run := (exec_prefetchDescriptor r d.idx s).trans (desc_begins (names := isOp 7) (bad := fun u d => badHandle u d || badCount d) (modes := [.run]) (start := prefetchStart) (step := prefetchStep) h (isOp_of op)
      (show (badHandle s.u d || badCount d) = false by rw [good, small]; rfl) (by rw [mode]; rfl))
    refine ⟨_, run, ?_⟩
    dsimp only
    rw [prefetchStart_refused (u := putDesc (fresh s) r { d with begun := true }) (d := { d with begun := true }) refused]
    exact posted_begun (u := fresh s) (d := d) (e := { d with begun := true }) 4 0 0 rfl rfl h.1 rfl rfl
  · refine ⟨_, (exec_flushDescriptor r d.idx s).trans (desc_goes_on h (isOp_of op)), ?_⟩
    dsimp only
    rw [flushStep_told told]
    exact flushDone_ends (u := fresh s) (.refl h.1) op rfl ⟨rfl, rfl, rfl⟩ rfl
  · refine ⟨_, (exec_flushAllDescriptor r d.idx s).trans (desc_goes_on h (isOp_of op)), ?_⟩
    dsimp only
    rw [flushStep_told told]
    exact flushAll_ends (u := fresh s) h op
  · refine ⟨_, (exec_prefetchDescriptor r d.idx s).trans (desc_goes_on h (isOp_of op)), ?_⟩
    dsimp only
    rw [show prefetchStep s.ctl (fresh s) r d = _ from if_pos all]
    exact kept_posted (u := fresh s) _ _ _ h (.refl _)
  · exact ⟨_, (exec_prefetchDescriptor r d.idx s).trans (desc_goes_on h (isOp_of op)), prefetch_sends (c := s.ctl) (u := fresh s) more unsent ticket way⟩
  · refine ⟨_, (exec_nop r d.idx s).trans (onU_next (descOp_bad (c := s.ctl) (u := fresh s) ⟨found, fresh_, may⟩ (isOp_of op) (.inl reserved))), ?_⟩
    exact posted_of (u := fresh s) 6 0 0 rfl rfl found
  · refine ⟨_, (exec_prefetchDescriptor r d.idx s).trans (onU_next (descOp_mode (c := s.ctl) (u := fresh s) (handed_fresh h) (isOp_of op) (show (badHandle s.u d || badCount d) = false by rw [good, small]; rfl) ?_)), ?_⟩
    · revert mode
      cases s.ctl.mode <;> simp
    · exact posted_of (u := fresh s) 7 0 0 rfl rfl h.1

/-! ### Payloads (R146, R451, R452, R461, R462) -/

section
variable {s : State} {r : Nat} {d : Desc}

/-- A descriptor with a payload begins by reading it. -/
theorem payload_asks {y : Units} (c : Ctl) (h : y.rings.reads = []) (fresh_ : d.payload = []) (own : d.own = []) (open_ : d.committed = false) (reads : 0 < payloadReads d) (op : dOp d ≠ 0x32) :
    .ringRead (dBuffer d / 64 * 64) ∈ (payloadStep c y r d).out ∧ (r, d.idx, 1) ∈ (payloadStep c y r d).rings.reads := by
  rw [payload_begins c y r d open_ fresh_ reads]
  exact issuePayload_first r 63 d y h own reads op

/-- A payload read that returns. -/
theorem payload_returns (on : pdOn s.u 4 = true) (err : Bool) (data : BitVec 512) :
    exec (.payloadReadReturn r d.idx err data) s = .next { s with u := payloadReturnOp s.ctl (fresh s) r d.idx err data } :=
  (exec_payloadReadReturn r d.idx err data s).trans (onU_next (if_pos on))

end

/-- Settles O39: `payload_asks`, then `change_checks` and `table_checks` once the payload is whole; `payload_fails` and `payload_adds` for its reads. -/
theorem payloadsAreReadCheckedAndStaged : Obligations.PayloadsAreReadCheckedAndStaged := by
  unfold Obligations.PayloadsAreReadCheckedAndStaged
  intro s r d
  refine ⟨fun h mode idle none own open_ => ⟨fun op good => ?_, fun op good => ?_⟩, fun h open_ whole => ⟨fun op => ?_, fun op => ?_⟩, fun data low h op open_ on out => ⟨?_, fun more asked => ?_⟩⟩
  · have run := (exec_changeset r d.idx s).trans (desc_begins (names := isOp 0x10) (bad := badChangeset) (modes := runService) (start := payloadStep) (step := payloadStep) h (isOp_of op) good (runService_has mode))
    exact ⟨_, run, payload_asks (d := { d with begun := true }) s.ctl idle none own open_ (changeset_reads (d := d) op good) (by rw [show dOp { d with begun := true } = 0x10 from op]; decide)⟩
  · have run := (exec_turnTableLoad r d.idx s).trans (desc_begins (names := isOp 0x11) (bad := badTableLoad) (modes := runService) (start := payloadStep) (step := payloadStep) h (isOp_of op) good (runService_has mode))
    exact ⟨_, run, payload_asks (d := { d with begun := true }) s.ctl idle none own open_ (table_reads (d := d) op) (by rw [show dOp { d with begun := true } = 0x11 from op]; decide)⟩
  · intro es
    have run := (exec_changeset r d.idx s).trans (desc_goes_on (names := isOp 0x10) (bad := badChangeset) (modes := runService) (start := payloadStep) (step := payloadStep) h (isOp_of op))
    obtain ⟨outside, inside⟩ := change_checks s.ctl (fresh s) r d h open_ whole op
    exact ⟨fun bad => ⟨_, run, outside bad⟩, fun good => ⟨fun w fails => ⟨_, run, (inside good).1 w fails⟩, fun passes => ⟨_, run, (inside good).2 passes⟩⟩⟩
  · intro image tables good
    have run := (exec_turnTableLoad r d.idx s).trans (desc_goes_on (names := isOp 0x11) (bad := badTableLoad) (modes := runService) (start := payloadStep) (step := payloadStep) h (isOp_of op))
    obtain ⟨refused, staged⟩ := table_checks s.ctl (fresh s) r d h open_ whole op good
    exact ⟨fun w fails => ⟨_, run, refused w fails⟩, fun passes => ⟨_, run, staged passes⟩⟩
  · exact ⟨_, payload_returns on true data, payload_fails s.ctl (fresh s) r d data low h (by rcases op with op | op <;> rw [op] <;> decide) out⟩
  · exact ⟨_, payload_returns on false data, payload_adds s.ctl (fresh s) r d data h op open_ out more asked⟩

end Sys2Proof.Machine
end

section
/-! PROOF. Requests for a mode (R464, R477, R486, R489). -/

namespace Sys2Proof.Machine

section
variable {s : State} {r : Nat} {d : Desc} {m : Mode}

theorem onBoth_pair {f : Ctl → Units → Ctl × Units} {p : Ctl × Units} (h : f s.ctl (fresh s) = p) : onBoth s f = .next { s with ctl := p.1, u := p.2 } := by
  subst h
  rfl

/-- A request, begun. -/
def asked (s : State) (r : Nat) (d : Desc) : Units := putDesc (fresh s) r { d with begun := true, committed := true }

/-- A request for the mode in force. -/
theorem request_there (h : handed s.ctl s.u r d) (op : dOp d = 0x33) (target : requestTarget d = modeCode m) (idle : s.u.pwr.trans = none) (mode : s.ctl.mode = m) :
    onBoth s (modeRequestOp m r d.idx) = .next { s with u := complete (asked s r d) r d.idx 0 (modeCode m) } := by
  have judged := request_judged (m := m) (handed_fresh h) op target idle
  rw [if_pos mode, mode] at judged
  exact onBoth_pair judged

/-- A request for another mode. -/
theorem request_else (h : handed s.ctl s.u r d) (op : dOp d = 0x33) (target : requestTarget d = modeCode m) (idle : s.u.pwr.trans = none) (mode : s.ctl.mode ≠ m) {p : Ctl × Units}
    (judged : requestMode s.ctl (asked s r d) r d.idx m = p) : onBoth s (modeRequestOp m r d.idx) = .next { s with ctl := p.1, u := p.2 } := by
  have run := request_judged (m := m) (handed_fresh h) op target idle
  rw [if_neg mode] at run
  exact onBoth_pair (run.trans judged)

theorem asked_ends (h : findDesc s.u r d.idx = some d) (st r0 : Nat) : posted s.u (complete (asked s r d) r d.idx st r0) r d st r0 0 :=
  posted_begun (u := fresh s) (d := d) (e := { d with begun := true, committed := true }) st r0 0 rfl rfl h rfl rfl

/-- What a request asks of each mode. -/
theorem request_service {c : Ctl} (u : Units) (r i : Nat) (mode : c.mode = .run) : requestMode c u r i .service = acceptService c u r i := by
  unfold requestMode
  rw [mode]

theorem request_failed {c : Ctl} (u : Units) (r i : Nat) (mode : c.mode = .service) (failed : c.failed = true) : requestMode c u r i .run = (c, complete u r i 4) := by
  unfold requestMode
  rw [mode]
  exact if_pos failed

theorem request_hush_service {c : Ctl} (u : Units) (r i : Nat) (mode : c.mode = .service) : requestMode c u r i .hush = (c, complete u r i 4) := by
  unfold requestMode
  rw [mode]

theorem request_drain {c : Ctl} (u : Units) (r i : Nat) (mode : c.mode = .run ∨ (c.mode = .service ∧ c.failed = false)) :
    requestMode c u r i .drain = beginDrain c (putTrans u (some { target := .drain, desc := some (r, i), cause := 2 })) 2 2 := by
  unfold requestMode
  obtain mode | ⟨mode, sound⟩ := mode
  · rw [mode]
  · rw [mode]
    exact if_neg (by rw [sound]; decide)

theorem request_leaves {c : Ctl} (u : Units) (r i : Nat) (mode : c.mode = .drain) (leaves : drainLeaves c u = true) (bare : bareDrain c = false) : requestMode c u r i .service = drainToService c u r i := by
  unfold requestMode
  rw [mode]
  exact if_pos (by rw [leaves, bare]; rfl)

end

/-- Settles O40: `request_there` and `request_else`, with `run_accepted`, `decideHush_on`, `beginDrain_ctl` and `service_accepted`. -/
theorem modeRequestsChangeTheMode : Obligations.ModeRequestsChangeTheMode := by
  unfold Obligations.ModeRequestsChangeTheMode
  intro s r d h op idle u'
  refine ⟨fun target => ⟨fun mode => ?_, fun mode failed => ?_, fun mode sound on => ?_, fun mode sound off => ?_⟩, fun target => ⟨fun mode ok => ?_, fun mode bad => ?_, fun mode => ?_⟩,
    fun target => ⟨fun mode => ?_, fun mode => ?_⟩, fun target => ⟨fun mode => ?_, fun mode leaves bare => ?_⟩⟩
  · exact ⟨_, (exec_modeRequestRun r d.idx s).trans (request_there (m := .run) h op target idle mode), rfl, asked_ends h.1 0 4⟩
  · exact ⟨_, (exec_modeRequestRun r d.idx s).trans (request_else (m := .run) h op target idle (by rw [mode]; decide) (request_failed _ r d.idx mode failed)), rfl, asked_ends h.1 4 0⟩
  · have judged := (run_accepted s.ctl (asked s r d) r d.idx mode).1 on
    refine ⟨_, (exec_modeRequestRun r d.idx s).trans (request_else (m := .run) h op target idle (by rw [mode]; decide) (request_run _ r d.idx mode sound)), ?_⟩
    dsimp only
    rw [judged]
    exact ⟨rfl, mode, rfl⟩
  · have judged := (request_run (asked s r d) r d.idx mode sound).trans ((run_accepted s.ctl (asked s r d) r d.idx mode).2 off)
    exact ⟨_, (exec_modeRequestRun r d.idx s).trans (request_else (m := .run) h op target idle (by rw [mode]; decide) judged), rfl, rfl⟩
  · have judged := (request_hush (asked s r d) r d.idx mode).trans (if_pos ok)
    exact ⟨_, (exec_modeRequestHush r d.idx s).trans (request_else (m := .hush) h op target idle (by rw [mode]; decide) judged), rfl, decideHush_on _ 2⟩
  · have judged := (request_hush (asked s r d) r d.idx mode).trans (if_neg (show ¬ hushOk (asked s r d) (some (r, d.idx)) = true from by rw [show hushOk (asked s r d) (some (r, d.idx)) = false from bad]; decide))
    exact ⟨_, (exec_modeRequestHush r d.idx s).trans (request_else (m := .hush) h op target idle (by rw [mode]; decide) judged), rfl, asked_ends h.1 4 0⟩
  · exact ⟨_, (exec_modeRequestHush r d.idx s).trans (request_else (m := .hush) h op target idle (by rw [mode]; decide) (request_hush_service _ r d.idx mode)), rfl, asked_ends h.1 4 0⟩
  · refine ⟨_, (exec_modeRequestDrain r d.idx s).trans (request_else (m := .drain) h op target idle ?_ (request_drain _ r d.idx mode)), ?_⟩
    · rcases mode with mode | ⟨mode, -⟩ <;> rw [mode] <;> decide
    · dsimp only
      rw [beginDrain_ctl]
      exact ⟨rfl, rfl, rfl⟩
  · exact ⟨_, (exec_modeRequestDrain r d.idx s).trans (request_there (m := .drain) h op target idle mode), rfl, asked_ends h.1 0 6⟩
  · have judged := request_service (asked s r d) r d.idx mode
    obtain ⟨enters, waits_⟩ := service_accepted s.ctl (asked s r d) r d.idx mode
    refine ⟨fun closed => ⟨_, (exec_modeRequestService r d.idx s).trans (request_else (m := .service) h op target idle (by rw [mode]; decide) judged), ?_⟩, fun still => ?_⟩
    · dsimp only
      rw [enters closed]
      exact ⟨rfl, mode, rfl⟩
    · exact (exec_modeRequestService r d.idx s).trans (request_else (m := .service) h op target idle (by rw [mode]; decide) (judged.trans (waits_ still)))
  · refine ⟨_, (exec_modeRequestService r d.idx s).trans (request_else (m := .service) h op target idle (by rw [mode]; decide) (request_leaves _ r d.idx mode leaves bare)), ?_⟩
    exact ⟨rfl, mode, rfl⟩

end Sys2Proof.Machine
end

section
/-! PROOF. Descriptors of regions and of lines, and aborts (R181, R349, R357, R359, R365, R369, R390, R405, R406, R434, R465, R467, R512). -/

namespace Sys2Proof.Machine

/-! ### Regions (R349, R357, R359, R365, R369, R390, R465) -/

section
variable {s : State} {r : Nat} {d : Desc} {c : Ctl} {u : Units}

/-- A descriptor that ends as it begins. -/
theorem begun_ends_at_once (h : findDesc s.u r d.idx = some d) (st r0 : Nat) : posted s.u (complete (putDesc (fresh s) r { d with begun := true }) r d.idx st r0) r d st r0 0 :=
  posted_begun (u := fresh s) (d := d) (e := { d with begun := true }) st r0 0 rfl rfl h rfl rfl

/-- A REGION_MOVE of a region that moves, is lost or has a bad table word. -/
theorem regionMoveStart_rejects (h : hMoving (hingeEntry u (moveRegion d)) = true ∨ hLost (hingeEntry u (moveRegion d)) = true ∨ badRegion u (moveRegion d) = true) :
    regionMoveStart c u r d = complete u r d.idx 4 :=
  if_pos (by rcases h with h | h | h <;> rw [h] <;> simp)

/-- A REBUILD of a group with no failed die, or in state 3. -/
theorem rebuildStart_rejects (h : failedDies u (rebuildGroup d) = [] ∨ groupState u (rebuildGroup d) = 3) : rebuildStart c u r d = complete u r d.idx 4 := if_pos h

/-- A REBUILD of a group that is rebuilt. -/
theorem rebuildStart_busy (failed : failedDies u (rebuildGroup d) ≠ []) (state : groupState u (rebuildGroup d) ≠ 3) (on : u.hng.rebuilding.contains (rebuildGroup d) = true) :
    rebuildStart c u r d = complete u r d.idx 3 :=
  (if_neg (not_or.mpr ⟨failed, state⟩)).trans (if_pos on)

/-- Any other REBUILD. -/
theorem rebuildStart_begins (failed : failedDies u (rebuildGroup d) ≠ []) (state : groupState u (rebuildGroup d) ≠ 3) (off : u.hng.rebuilding.contains (rebuildGroup d) = false) :
    rebuildStart c u r d = beginRebuild (putDesc u r { d with committed := true }) (rebuildGroup d) :=
  (if_neg (not_or.mpr ⟨failed, state⟩)).trans (if_neg (by rw [off]; decide))

/-- A CHECKPOINT waits for the one that runs. -/
theorem checkpointStart_waits (on : u.hng.ckptOn = true) : (r, d.idx) ∈ (checkpointStart c u r d).hng.ckptDescs := by
  unfold checkpointStart
  rw [if_pos on]
  exact List.mem_append_right _ (List.mem_singleton_self _)

/-- A DRIFT_CAL of a media group that is off. -/
theorem driftCalStart_rejects (off : ∃ g ∈ calGroups u d, pdOn u (pdMedia (g / 8)) = false) : driftCalStart c u r d = complete u r d.idx 4 := by
  obtain ⟨g, mem, off⟩ := off
  exact if_pos (List.any_eq_true.mpr ⟨g, mem, by rw [off]; rfl⟩)

end

/-- Settles O41: the steps of descriptors under way by their laws (`trim_batch`, `trim_done`, `move_done`, `rebuild_done`, `checkpoint_done`, `cal_done`, `sanitize_done`), and those that begin by the cases above. -/
theorem regionDescriptorsRun : Obligations.RegionDescriptorsRun := by
  unfold Obligations.RegionDescriptorsRun
  intro s r d
  refine ⟨fun h => ⟨fun op k n sk l y own count emptied mounted still => ?_, fun op ended durable => ?_, fun op n l prog durable => ?_, fun op off done state => ?_, fun op l prog => ?_, fun op done => ?_, fun op ended durable => ?_⟩,
    fun h mode => ⟨fun op good stop => ?_, fun op below => ?_, fun op on => ?_, fun op good => ?_⟩⟩
  · exact ⟨_, (exec_trim r d.idx s).trans (desc_goes_on h (isOp_of op)), trim_batch s.ctl (fresh s) r d k n sk l y own count emptied mounted still⟩
  · exact ⟨_, (exec_trim r d.idx s).trans (desc_goes_on h (isOp_of op)), trim_done s.ctl (fresh s) r d h ended durable⟩
  · exact ⟨_, (exec_regionMove r d.idx s).trans (desc_goes_on h (isOp_of op)), move_done s.ctl (fresh s) r d h n l prog durable⟩
  · exact ⟨_, (exec_rebuild r d.idx s).trans (desc_goes_on h (isOp_of op)), rebuild_done s.ctl (fresh s) r d h off done state⟩
  · exact ⟨_, (exec_checkpoint r d.idx s).trans (desc_goes_on h (isOp_of op)), checkpoint_done s.ctl (fresh s) r d h l prog⟩
  · exact ⟨_, (exec_driftCal r d.idx s).trans (desc_goes_on h (isOp_of op)), cal_done s.ctl (fresh s) r d h done⟩
  · exact ⟨_, (exec_sanitize r d.idx s).trans (desc_goes_on h (isOp_of op)), sanitize_done s.ctl (fresh s) r d h ended durable⟩
  · have run := (exec_regionMove r d.idx s).trans (desc_begins (names := isOp 0x24) (bad := badMove) (modes := runService) (start := regionMoveStart) (step := regionMoveStep) h (isOp_of op) good (runService_has mode))
    rw [regionMoveStart_rejects (u := putDesc (fresh s) r { d with begun := true }) (d := { d with begun := true }) stop] at run
    exact ⟨_, run, begun_ends_at_once h.1 4 0⟩
  · have run := (exec_rebuild r d.idx s).trans (desc_begins (names := isOp 0x25) (bad := fun u d => decide (nStripes u.v ≤ rebuildGroup d)) (modes := runService) (start := rebuildStart) (step := rebuildStep) h (isOp_of op)
      (decide_eq_false (Nat.not_le.mpr below)) (runService_has mode))
    refine ⟨fun stop => ⟨_, run, ?_⟩, fun failed state on => ⟨_, run, ?_⟩, fun failed state off => ⟨_, run, ?_⟩⟩
    · dsimp only
      rw [rebuildStart_rejects (u := putDesc (fresh s) r { d with begun := true }) (d := { d with begun := true }) stop]
      exact begun_ends_at_once h.1 4 0
    · dsimp only
      rw [rebuildStart_busy (u := putDesc (fresh s) r { d with begun := true }) (d := { d with begun := true }) failed state on]
      exact begun_ends_at_once h.1 3 0
    · dsimp only
      rw [rebuildStart_begins (u := putDesc (fresh s) r { d with begun := true }) (d := { d with begun := true }) failed state off]
      exact rebuild_begins _ (rebuildGroup d) (Nat.lt_of_lt_of_le below (nStripes_le _))
  · have run := (exec_checkpoint r d.idx s).trans (desc_begins (names := isOp 0x30) (bad := neverBad) (modes := runService) (start := checkpointStart) (step := checkpointStep) h (isOp_of op) rfl (runService_has mode))
    exact ⟨_, run, checkpointStart_waits (c := s.ctl) (d := { d with begun := true }) on⟩
  · have run := (exec_driftCal r d.idx s).trans (desc_begins (names := isOp 0x23) (bad := badCal) (modes := runService) (start := driftCalStart) (step := driftCalStep) h (isOp_of op) good (runService_has mode))
    refine ⟨fun off => ⟨_, run, ?_⟩, fun on alone none => ⟨_, run, cal_begins s.ctl (putDesc (fresh s) r { d with begun := true }) r { d with begun := true } on alone none⟩⟩
    dsimp only
    rw [driftCalStart_rejects (u := putDesc (fresh s) r { d with begun := true }) (d := { d with begun := true }) off]
    exact begun_ends_at_once h.1 4 0

/-! ### Lines and aborts (R181, R405, R406, R434, R467, R512) -/

section
variable {r : Nat} {d : Desc} {c : Ctl} {u : Units}

theorem poisonSetStart_rejects (h : crossesRegion d = true ∨ hLost (hingeEntry u (dRegion d)) = true) : poisonSetStart c u r d = complete u r d.idx 4 := if_pos h

theorem poisonClearStart_rejects (h : crossesRegion d = true ∨ hLost (hingeEntry u (dRegion d)) = true) : poisonClearStart c u r d = complete u r d.idx 4 := if_pos h

theorem imageStart_busy (h : u.boot.writeDesc.isSome = true) : imageStart c u r d = complete u r d.idx 3 := if_pos h

end

/-- Settles O42: `poison_done`, `poison_send`, `clear_done`, `abort_begins` and `image_begins`, and the rejections above. -/
theorem linesArePoisonedAndDescriptorsAborted : Obligations.LinesArePoisonedAndDescriptorsAborted := by
  unfold Obligations.LinesArePoisonedAndDescriptorsAborted
  intro s r d
  refine ⟨fun h mode good stop => ⟨fun op => ?_, fun op => ?_⟩, fun h => ⟨fun op first => ⟨fun all whole => ?_, fun more unsent ticket way => ?_⟩, fun op ended durable => ?_⟩, fun h op mode => ?_, fun h op mode good => ⟨fun busy => ?_, fun free idle own payload => ?_⟩⟩
  · have run := (exec_poisonSet r d.idx s).trans (desc_begins (names := isOp 0x27) (bad := badPoison) (modes := [.run]) (start := poisonSetStart) (step := poisonSetStep) h (isOp_of op) good (by rw [mode]; rfl))
    rw [poisonSetStart_rejects (u := putDesc (fresh s) r { d with begun := true }) (d := { d with begun := true }) stop] at run
    exact ⟨_, run, begun_ends_at_once h.1 4 0⟩
  · have run := (exec_poisonClear r d.idx s).trans (desc_begins (names := isOp 0x28) (bad := badPoison) (modes := runService) (start := poisonClearStart) (step := poisonClearStep) h (isOp_of op) good (by rw [mode]; rfl))
    rw [poisonClearStart_rejects (u := putDesc (fresh s) r { d with begun := true }) (d := { d with begun := true }) stop] at run
    exact ⟨_, run, begun_ends_at_once h.1 4 0⟩
  · exact ⟨_, (exec_poisonSet r d.idx s).trans (desc_goes_on h (isOp_of op)), poison_done s.ctl (fresh s) r d h first all whole⟩
  · exact ⟨_, (exec_poisonSet r d.idx s).trans (desc_goes_on h (isOp_of op)), poison_send s.ctl (fresh s) r d first more unsent ticket way⟩
  · exact ⟨_, (exec_poisonClear r d.idx s).trans (desc_goes_on h (isOp_of op)), clear_done s.ctl (fresh s) r d h ended durable⟩
  · intro q u'
    have run := (exec_abort r d.idx s).trans (desc_begins (names := isOp 0x3F) (bad := neverBad) (modes := [.run, .service, .drain]) (start := abortStart) (step := abortStep) h (isOp_of op) rfl (by rw [mode]; rfl))
    obtain ⟨gone, found⟩ := abort_begins s.ctl (fresh s) r d h.1
    refine ⟨fun none => ⟨_, run, gone none⟩, fun o here => ⟨fun abort => ⟨_, run, (found o here).1 abort⟩, fun other begun committed => ⟨_, run, (found o here).2.1 other begun committed⟩, fun other fresh_ _ => ⟨_, run, (found o here).2.2 other fresh_⟩⟩⟩
  · have run := (exec_imageWrite r d.idx s).trans (desc_begins (names := isOp 0x32) (bad := badImageWrite) (modes := [.service]) (start := imageStart) (step := imageStep) h (isOp_of op) good (by rw [mode]; rfl))
    rw [imageStart_busy (u := putDesc (fresh s) r { d with begun := true }) (d := { d with begun := true }) busy] at run
    exact ⟨_, run, begun_ends_at_once h.1 3 0⟩
  · have run := (exec_imageWrite r d.idx s).trans (desc_begins (names := isOp 0x32) (bad := badImageWrite) (modes := [.service]) (start := imageStart) (step := imageStep) h (isOp_of op) good (by rw [mode]; rfl))
    exact ⟨_, run, image_begins s.ctl (putDesc (fresh s) r { d with begun := true }) r { d with begun := true } op good free idle own payload⟩

end Sys2Proof.Machine
end

section
/-! PROOF. The event packer, level samples, and the test access port (R421, R528, R530, R533 to R538, R560, R584 to R586). -/

namespace Sys2Proof.Machine

/-! ### The event packer and level samples (R528, R530, R533 to R538) -/

section
variable {s : State}

/-- A command of the telemetry unit while its domain is on. -/
theorem onU_tele {f : Units → Units} (on : pdOn s.u 5 = true) : onU s (fun _ u => if pdOn u 5 then f u else u) = .next { s with u := f (fresh s) } :=
  onU_next (if_pos on)

theorem eventTaken_runs (on : pdOn s.u 5 = true) : exec .eventTaken s = .next { s with u := eventTakenOp (fresh s) } := (exec_eventTaken s).trans (onU_tele on)

theorem summaryBuild_runs (on : pdOn s.u 5 = true) : exec .summaryBuild s = .next { s with u := buildSummary (fresh s) } := (exec_summaryBuild s).trans (onU_tele on)

theorem evtPop_runs (on : pdOn s.u 5 = true) : exec .evtPop s = .next { s with u := evtPopOp (fresh s) } := (exec_evtPop s).trans (onU_tele on)

/-- A sample adds one to the bin of each media group that is on. -/
theorem sample_queue (u : Units) {g : Nat} (below : g < nGroups u.v) (on : pdOn u (pdMedia g) = true) :
    tabGet (levelSampleOp u).tele.mq (16 * g + min 15 ((grp u g).reads.length / 2 ^ inF u F.TELE_LVL_CFG_qshift)) =
      min (tabGet u.tele.mq (16 * g + min 15 ((grp u g).reads.length / 2 ^ inF u F.TELE_LVL_CFG_qshift)) + 1) (2 ^ 32 - 1) := by
  have once := bins_once (fun g => pdOn u (pdMedia g)) (fun g => min 15 ((grp u g).reads.length / 2 ^ inF u F.TELE_LVL_CFG_qshift)) (fun i => by omega) (List.range (nGroups u.v)) u.tele.mq List.nodup_range g
  rw [if_pos ⟨List.mem_range.mpr below, on⟩] at once
  exact once

/-- The bin of a slice's dirty share. -/
def shareBin (u : Units) (c : Nat) : Nat := if (slice u c).share = 0 then 15 else min 15 (16 * ((slice u c).dirty + booked u c) / (slice u c).share)

/-- A sample adds one to the bin of each slice in service. -/
theorem sample_share (u : Units) {c : Nat} (below : c < nDdr u.v) (on : inService u c = true) :
    tabGet (levelSampleOp u).tele.drt (16 * c + shareBin u c) = min (tabGet u.tele.drt (16 * c + shareBin u c) + 1) (2 ^ 32 - 1) := by
  have small : ∀ i, shareBin u i < 16 := by
    intro i
    unfold shareBin
    split <;> omega
  have once := bins_once (fun c => inService u c) (shareBin u) small (List.range (nDdr u.v)) u.tele.drt List.nodup_range c
  rw [if_pos ⟨List.mem_range.mpr below, on⟩] at once
  exact once

end

/-- Settles O43: the laws of the packer (`event_lost`, `event_summed`, `event_packed`, `buildSummary_does`, `pop_line`, `pop_empty`), and the two halves of a sample. -/
theorem eventsArePackedAndLevelsSampled : Obligations.EventsArePackedAndLevelsSampled := by
  unfold Obligations.EventsArePackedAndLevelsSampled
  intro s on t0
  refine ⟨fun e rest queue => ⟨fun full => ?_, fun near room held few => ?_, fun room held packing last tally short words => ?_⟩, fun counts => ?_, fun x rest fifo held quiet => ?_, fun x empty last => ?_, fun period => ?_⟩
  · exact ⟨_, eventTaken_runs on, event_lost (fresh s) e rest queue full⟩
  · exact ⟨_, eventTaken_runs on, event_summed (fresh s) e rest queue near room held few⟩
  · exact ⟨_, eventTaken_runs on, event_packed (fresh s) e (queue.trans (by rw [last])) room held packing tally short words⟩
  · exact ⟨_, summaryBuild_runs on, buildSummary_does (fresh s) counts⟩
  · exact ⟨_, evtPop_runs on, pop_line (fresh s) x rest fifo held quiet rfl⟩
  · exact ⟨_, evtPop_runs on, pop_empty (fresh s) x empty last rfl⟩
  · exact ⟨_, (exec_levelSample s).trans (onU_next (if_pos ⟨on, period⟩)), fun g below up => sample_queue (fresh s) below up, fun c below up => sample_share (fresh s) below up⟩

/-! ### The test access port (R421, R560, R584 to R586) -/

section
variable {s : State}

theorem variantCode_le (v : Variant) : variantCode v ≤ 3 := by cases v <;> decide

/-- The fields of the identity. -/
theorem idcodeWord_fields (u : Units) : nbits (idcodeWord u) 0 1 = 1 ∧ nbits (idcodeWord u) 1 11 = Config.manufacturer.toNat ∧ nbits (idcodeWord u) 12 16 = 0x7A50 + variantCode u.v ∧
    nbits (idcodeWord u) 28 4 = getF u F.BLOCK_ID_stepping := by
  have code := variantCode_le u.v
  have maker := Config.manufacturer.isLt
  have stepping : getF u F.BLOCK_ID_stepping < 2 ^ 4 := Nat.mod_lt _ (by decide)
  unfold idcodeWord nbits
  refine ⟨?_, ?_, ?_, ?_⟩ <;> omega

/-- A destructive instruction: refused, or run. -/
theorem test_cases {i : Instr} {code : Nat} (run : exec i s = .next { s with u := testOp s.ctl (fresh s) code }) :
    (testOpen s.ctl s.u = false → exec i s = .next { s with u := { s.u with tap := { s.u.tap with instr := 0xFF }, out := [.tap 0] } }) ∧
    (testOpen s.ctl s.u = true → ∃ t, exec i s = .next t ∧ t.u.tap.instr = code ∧ t.u.out = [.tap 0] ∧
      (s.ctl.mode ≠ .reset → t.u.keys = lostTab s.u.fresh .keys lostKey ∧ t.u.ctxEven = lostTab s.u.fresh .ctxEven (BitVec.ofNat 160))) :=
  ⟨fun shut => run.trans (by rw [test_refused shut]), fun opened => ⟨_, run, test_runs opened⟩⟩

end

/-- Settles O44: each instruction by its meaning; `idcodeWord_fields` and `test_cases`. -/
theorem theTapSelectsInstructions : Obligations.TheTapSelectsInstructions := by
  unfold Obligations.TheTapSelectsInstructions
  intro s pins code
  refine ⟨exec_samplePreload pins s, fun held => ?_, fun free => ?_, ⟨exec_idcode s, idcodeWord_fields s.u⟩, exec_tapReset s, fun small unknown => ?_, fun i c row => ?_⟩
  · exact (exec_extest pins s).trans (onU_next (if_pos held))
  · exact (exec_extest pins s).trans (onU_next (if_neg free))
  · exact (exec_bypass code s).trans (onU_next (if_neg (not_or.mpr ⟨by omega, by rw [show tapKnown s.ctl (fresh s) code = false from unknown]; decide⟩)))
  · have three : (i = .productionScan ∧ c = 0x10) ∨ (i = .sramSelfTest ∧ c = 0x11) ∨ (i = .codecVectors ∧ c = 0x12) := by simpa using row
    obtain ⟨rfl, rfl⟩ | ⟨rfl, rfl⟩ | ⟨rfl, rfl⟩ := three
    · exact test_cases (exec_productionScan s)
    · exact test_cases (exec_sramSelfTest s)
    · exact test_cases (exec_codecVectors s)

end Sys2Proof.Machine
end

section
/-! PROOF. A DDR5 subchannel: its cycle, the commands it issues, its reads, refreshes and alerts (R226 to R228, R234 to R236, R241, R270, R395, R396). -/

namespace Sys2Proof.Machine

/-! ### The start of a cycle (R226) -/

section
variable {u : Units} {c s : Nat} {x y : Sub}

/-- What the start of a cycle leaves of a subchannel: its cycle, its queues and what is laid down for it; no held write is added. -/
structure CycleKept (x y : Sub) : Prop where
  cyc : y.cyc = x.cyc
  rq : y.rq = x.rq
  wq : y.wq = x.wq
  laid : y.laid = x.laid
  held : ∀ a ∈ y.crcHeld, a ∈ x.crcHeld

theorem turnStart_keeps (u : Units) (c : Nat) (x : Sub) : CycleKept x (turnStart u c x) := by
  unfold turnStart
  dsimp only
  split
  · split <;> exact ⟨rfl, rfl, rfl, rfl, fun _ => id⟩
  · exact ⟨rfl, rfl, rfl, rfl, fun _ => id⟩

/-- A change of the DDR5 channels alone. -/
def DdrOnly (u w : Units) : Prop := ∃ t, w = { u with ddr := t }

theorem setSub_ddrOnly (u : Units) (c s : Nat) (x : Sub) : DdrOnly u (setSub u c s x) := by
  unfold setSub
  split <;> exact ⟨_, rfl⟩

theorem roundStart_does (u : Units) (c s : Nat) : subOf (roundStart u c) c s = subOf u c s ∧ DdrOnly u (roundStart u c) := by
  unfold roundStart
  dsimp only
  split
  · refine ⟨?_, _, rfl⟩
    unfold subOf ddr setDdr
    rw [tabGet_put_same]
  · exact ⟨rfl, u.ddr, rfl⟩

theorem ddr_addr_below (h : c < 16) (r : Reg) (i : Nat) (base : r.info.base ≤ 0x40FFFF) (step : r.info.s1 = 0x10000) (inner : i * r.info.s2 ≤ 0xFFFF) : regAddr r c i < teleAddr := by
  have h1 : c * r.info.s1 = c * 0x10000 := by rw [step]
  unfold regAddr teleAddr
  omega

/-- The table that governs the cycle is in force. -/
def cycleRound (u : Units) (c s : Nat) : Units := if s = 0 ∧ (subOf u c s).cyc % 512 = 0 then roundStart u c else u

/-- The subchannel once its turn, its write drain and its held writes are settled. -/
def cycleSub (u : Units) (c : Nat) (x : Sub) : Sub :=
  let kept := if x.crcHeld.isEmpty then [] else x.crcHeld.filter fun a => a.replay || x.cyc < a.entered + crcHold u c
  { x with drain := drainNow u c x, crcHeld := kept, crcTries := tabFilter x.crcTries fun l => hasLine kept l || hasLine x.wq l, backoffEnd := if x.backoffEnd ≤ x.cyc then 0 else x.backoffEnd }

/-- The flags of DDR5_n_STATE and the counts of the cycle. -/
def cycleFlags (u : Units) (c s : Nat) : Units :=
  let u := putF u F.DDR5_n_STATE_drain c 0 (if (subOf u c 0).drain || (subOf u c 1).drain then 1 else 0)
  let u := putF u F.DDR5_n_STATE_backoff c 0 (if (subOf u c 0).backoffEnd = 0 ∧ (subOf u c 1).backoffEnd = 0 then 0 else 1)
  if s ≠ 0 then u
  else
    let stalled := [subOf u c 0, subOf u c 1].any fun (y : Sub) => (y.rq ++ y.wq).any fun a => inStall y (bankKey u a.line) y.cyc
    countSignal (countSignal u (cDdr c 7) ((subOf u c 0).drain || (subOf u c 1).drain) 1) (cDdr c 14) stalled 1

theorem cycleStart_eq (u : Units) (c s : Nat) : cycleStart u c s =
    cycleFlags (setSub (cycleRound u c s) c s (cycleSub (cycleRound u c s) c (if (subOf u c s).cyc % 8 = 0 then turnStart (cycleRound u c s) c (subOf u c s) else subOf u c s))) c s := rfl

theorem cycleRound_ddrOnly (u : Units) (c s : Nat) : DdrOnly u (cycleRound u c s) := by
  unfold cycleRound
  split
  · exact (roundStart_does u c s).2
  · exact ⟨u.ddr, rfl⟩

theorem cycleSub_keeps (u : Units) (c : Nat) (x : Sub) : CycleKept x (cycleSub u c x) := by
  refine ⟨rfl, rfl, rfl, rfl, fun a mem => ?_⟩
  unfold cycleSub at mem
  dsimp only at mem
  split at mem
  · exact absurd mem List.not_mem_nil
  · exact (List.mem_filter.mp mem).1

theorem rfm_apart (c : Nat) : regAddr F.DDR5_n_RFM_required.reg c 0 ≠ regAddr .DDR5_n_STATE c 0 := by
  simp [regAddr, Reg.info, F.DDR5_n_RFM_required]

theorem cycleFlags_does (u : Units) (c s : Nat) :
    (cycleFlags u c s).ddr = u.ddr ∧ (cycleFlags u c s).out = u.out ∧ (c < 16 → getF (cycleFlags u c s) F.DDR5_n_RFM_required c = getF u F.DDR5_n_RFM_required c) := by
  unfold cycleFlags
  dsimp only
  split
  · exact ⟨rfl, rfl, fun _ => (getF_putF_other (rfm_apart c) ..).trans (getF_putF_other (rfm_apart c) ..)⟩
  · refine ⟨by rw [countSignal_ddr, countSignal_ddr]; rfl, by rw [countSignal_out, countSignal_out]; rfl, fun low => ?_⟩
    have addr : regAddr F.DDR5_n_RFM_required.reg c 0 < teleAddr := ddr_addr_below low .DDR5_n_RFM 0 (by decide) rfl (by decide)
    rw [(countSignal_only ..).getF _ _ _ addr, (countSignal_only ..).getF _ _ _ addr]
    exact (getF_putF_other (rfm_apart c) ..).trans (getF_putF_other (rfm_apart c) ..)

theorem cycleStart_does (u : Units) (c s : Nat) :
    CycleKept (subOf u c s) (subOf (cycleStart u c s) c s) ∧ (cycleStart u c s).out = u.out ∧ (c < 16 → getF (cycleStart u c s) F.DDR5_n_RFM_required c = getF u F.DDR5_n_RFM_required c) := by
  rw [cycleStart_eq]
  obtain ⟨t, round⟩ := cycleRound_ddrOnly u c s
  generalize cycleRound u c s = w at round ⊢
  have turn : CycleKept (subOf u c s) (if (subOf u c s).cyc % 8 = 0 then turnStart w c (subOf u c s) else subOf u c s) := by
    split
    · exact turnStart_keeps ..
    · exact ⟨rfl, rfl, rfl, rfl, fun _ => id⟩
  generalize (if (subOf u c s).cyc % 8 = 0 then turnStart w c (subOf u c s) else subOf u c s) = x at turn ⊢
  have settled := cycleSub_keeps w c x
  obtain ⟨ddr, out, rfm⟩ := cycleFlags_does (setSub w c s (cycleSub w c x)) c s
  refine ⟨?_, ?_, fun low => (rfm low).trans ?_⟩
  · rw [subOf_congr ddr, subOf_setSub_same]
    exact ⟨settled.cyc.trans turn.cyc, settled.rq.trans turn.rq, settled.wq.trans turn.wq, settled.laid.trans turn.laid, fun a mem => turn.held a (settled.held a mem)⟩
  · rw [out, setSub_out, round]
  · obtain ⟨t', only⟩ := setSub_ddrOnly w c s (cycleSub w c x)
    rw [only, round]
    rfl

/-- A cycle for which nothing is due and nothing waits. -/
theorem cycleIssue_idle (ct : Ctl) (u : Units) (c s : Nat) (reads : (subOf u c s).rq = []) (writes : (subOf u c s).wq = []) (held : ∀ a ∈ (subOf u c s).crcHeld, a.replay = false) :
    cycleIssue ct u c s = u := by
  have none_ : chooseOrder u (subOf u c s) (subOf u c s).entry ((subOf u c s).cyc / 8) = [] := by
    unfold chooseOrder
    rw [reads, writes, List.filter_eq_nil_iff.mpr fun a mem => by rw [held a mem]; decide]
    rfl
  unfold cycleIssue
  dsimp only
  rw [none_]
  have empty : throttled u c ((subOf u c s).cyc / 8) (subOf u c s) [] = [] := by
    unfold throttled
    split <;> rfl
  rw [empty]
  rfl

/-- One cycle, once it has begun. -/
theorem ddrCycle_eq (ct : Ctl) (u : Units) (c s : Nat) (y : Units) (hy : y = rfmOp (cycleStart u c s) c s) : ddrCycle ct u c s =
    (let w := match (subOf y c s).laid.find? fun l => decide (l.at_ ≤ (subOf y c s).cyc) with
      | some l => issueLaid y c s l
      | none => cycleIssue ct y c s
    setSub w c s { subOf w c s with cyc := (subOf w c s).cyc + 1 }) := by
  rw [hy]
  rfl

/-- The command laid down for the cycle issues. -/
theorem ddrCycle_laid {ct : Ctl} {y : Units} {l : Laid} (hy : y = rfmOp (cycleStart u c s) c s) (due : (subOf y c s).laid.find? (fun l => decide (l.at_ ≤ (subOf y c s).cyc)) = some l) :
    ddrCycle ct u c s = setSub (issueLaid y c s l) c s { subOf (issueLaid y c s l) c s with cyc := (subOf (issueLaid y c s l) c s).cyc + 1 } := by
  rw [ddrCycle_eq ct u c s y hy, due]

/-- No command is laid down for the cycle. -/
theorem ddrCycle_free {ct : Ctl} {y : Units} (hy : y = rfmOp (cycleStart u c s) c s) (none_ : noneLaid (subOf y c s)) :
    ddrCycle ct u c s = setSub (cycleIssue ct y c s) c s { subOf (cycleIssue ct y c s) c s with cyc := (subOf (cycleIssue ct y c s) c s).cyc + 1 } := by
  unfold noneLaid at none_
  rw [ddrCycle_eq ct u c s y hy, none_]

/-- A subchannel with nothing waiting, nothing laid down and no refresh management to do. -/
theorem ddrCycle_idle {ct : Ctl} (reads : (subOf u c s).rq = []) (writes : (subOf u c s).wq = []) (laid : (subOf u c s).laid = []) (held : ∀ a ∈ (subOf u c s).crcHeld, a.replay = false)
    (low : c < 16) (calm : getF u F.DDR5_n_RFM_required c ≠ 1) : (subOf (ddrCycle ct u c s) c s).cyc = (subOf u c s).cyc + 1 ∧ (ddrCycle ct u c s).out = u.out := by
  obtain ⟨kept, out, rfm⟩ := cycleStart_does u c s
  have quiet : rfmOp (cycleStart u c s) c s = cycleStart u c s := by
    unfold rfmOp
    exact if_pos (.inl (by rw [rfm low]; exact calm))
  have free : noneLaid (subOf (rfmOp (cycleStart u c s) c s) c s) := by
    unfold noneLaid
    rw [quiet, kept.laid, laid]
    rfl
  have issue := cycleIssue_idle ct (cycleStart u c s) c s (kept.rq.trans reads) (kept.wq.trans writes) fun a mem => held a (kept.held a mem)
  rw [ddrCycle_free rfl free, quiet, issue, subOf_setSub_same, setSub_out]
  exact ⟨congrArg (· + 1) kept.cyc, out⟩

/-! ### Commands that issue (R226, R227) -/

/-- A bank under a command laid down. -/
def laidBank (l : Laid) (raaimt : Nat) (x : Sub) (b : Nat) : Sub :=
  { x with
    openRow := (if l.closes then tabPut x.openRow b 0 else x.openRow),
    tPre := (if l.closes ∧ tabGet x.openRow b ≠ 0 then tabPut x.tPre b (x.cyc + 1) else x.tPre),
    stallEnd := (if l.len = 0 then x.stallEnd else tabPut x.stallEnd b (x.cyc + l.len + 1)),
    raa := if l.refresh then tabPut x.raa b (tabGet x.raa b - raaimt) else x.raa }

/-- A command that precharges closes its banks. -/
theorem laidBanks_close {l : Laid} (closes : l.closes = true) (raaimt : Nat) (banks : List Nat) (x : Sub) :
    (∀ b ∈ banks, tabGet (banks.foldl (laidBank l raaimt) x).openRow b = 0) ∧ ∀ b, tabGet x.openRow b = 0 → tabGet (banks.foldl (laidBank l raaimt) x).openRow b = 0 := by
  induction banks generalizing x with
  | nil => exact ⟨fun b mem => absurd mem List.not_mem_nil, fun b => id⟩
  | cons a rest ih =>
    obtain ⟨inside, kept⟩ := ih (laidBank l raaimt x a)
    have put : (laidBank l raaimt x a).openRow = tabPut x.openRow a 0 := if_pos closes
    refine ⟨fun b mem => ?_, fun b shut => kept b ?_⟩
    · rcases List.mem_cons.mp mem with rfl | mem
      · exact kept b (by rw [put]; exact tabGet_put_same ..)
      · exact inside b mem
    · rw [put]
      by_cases same : b = a
      · rw [same]
        exact tabGet_put_same ..
      · exact (tabGet_put_other same ..).trans shut

theorem ite_count (p : Prop) [Decidable p] (w : Units) (n : Nat) : (if p then count w n else w).ddr = w.ddr ∧ (if p then count w n else w).out = w.out := by
  split
  · exact ⟨count_ddr .., count_out ..⟩
  · exact ⟨rfl, rfl⟩

/-- A command laid down issues. -/
theorem issueLaid_does (u : Units) (c s : Nat) (l : Laid) :
    .ddr5 c s l.code l.rank l.bank l.row l.col ∈ (issueLaid u c s l).out ∧
      (subOf (issueLaid u c s l) c s).openRow = (l.banks.foldl (laidBank l (getF u F.DDR5_n_RFM_raaimt c)) (subOf u c s)).openRow := by
  obtain ⟨x, hx⟩ : ∃ x : Sub, x = l.banks.foldl (laidBank l (getF u F.DDR5_n_RFM_raaimt c)) (subOf u c s) := ⟨_, rfl⟩
  obtain ⟨y, hy⟩ : ∃ y : Sub, y = { x with laid := x.laid.erase l, rankBusy := (if l.busy = 0 then x.rankBusy else tabPut x.rankBusy l.rank (x.cyc + l.busy)), actBusy := if l.noAct = 0 then x.actBusy else tabPut x.actBusy l.rank (x.cyc + l.noAct) } := ⟨_, rfl⟩
  have shape : issueLaid u c s l =
      (let w := ddrOut (setSub u c s y) c s l.code l.rank l.bank l.row l.col
      let w := if (l.closes && l.banks.any fun b => tabGet (subOf u c s).openRow b != 0) = true then count w (cDdr c 3) else w
      let w := if l.code = 4 ∨ l.code = 5 then count w (cDdr c 4) else if l.code = 6 ∨ l.code = 7 then count w (cDdr c 5) else w
      if l.managed then addSat w F.DDR5_n_ALERT_rfms c 0 1 else w) := by
    rw [hy, hx]
    rfl
  have issued : .ddr5 c s l.code l.rank l.bank l.row l.col ∈ (ddrOut (setSub u c s y) c s l.code l.rank l.bank l.row l.col).out := List.mem_append_right _ (List.mem_singleton_self _)
  have stored : subOf (ddrOut (setSub u c s y) c s l.code l.rank l.bank l.row l.col) c s = y := subOf_setSub_same u c s y
  rw [shape]
  generalize ddrOut (setSub u c s y) c s l.code l.rank l.bank l.row l.col = w at issued stored ⊢
  dsimp only
  obtain ⟨d1, o1⟩ := ite_count ((l.closes && l.banks.any fun b => tabGet (subOf u c s).openRow b != 0) = true) w (cDdr c 3)
  generalize (if (l.closes && l.banks.any fun b => tabGet (subOf u c s).openRow b != 0) = true then count w (cDdr c 3) else w) = w1 at d1 o1 ⊢
  obtain ⟨d2, o2⟩ := ite_count (l.code = 6 ∨ l.code = 7) w1 (cDdr c 5)
  generalize (if l.code = 6 ∨ l.code = 7 then count w1 (cDdr c 5) else w1) = w2 at d2 o2 ⊢
  have d3 : (if l.code = 4 ∨ l.code = 5 then count w1 (cDdr c 4) else w2).ddr = w.ddr ∧ (if l.code = 4 ∨ l.code = 5 then count w1 (cDdr c 4) else w2).out = w.out := by
    split
    · exact ⟨(count_ddr ..).trans d1, (count_out ..).trans o1⟩
    · exact ⟨d2.trans d1, o2.trans o1⟩
  generalize (if l.code = 4 ∨ l.code = 5 then count w1 (cDdr c 4) else w2) = w3 at d3 ⊢
  have last : (if l.managed then addSat w3 F.DDR5_n_ALERT_rfms c 0 1 else w3).ddr = w.ddr ∧ (if l.managed then addSat w3 F.DDR5_n_ALERT_rfms c 0 1 else w3).out = w.out := by
    split
    · exact d3
    · exact d3
  rw [last.2, subOf_congr last.1, stored, hy, hx]
  exact ⟨issued, rfl⟩

theorem present_adds (u : Units) (o : Out) : (present u o).out = u.out ++ [o] := rfl

theorem storeDram_out (u : Units) (c line : Nat) (d : BitVec 512) : (storeDram u c line d).out = u.out := by
  unfold storeDram
  simp

/-- A column command presents itself. -/
theorem issueColumn_out (u : Units) (c s : Nat) (a : DAcc) :
    .ddr5 c s (if a.use = .write then 2 else 1) (bankKey u a.line / 32) (bankKey u a.line % 32) (lineRow u a.line) (lineCol a.line) ∈ (issueColumn u c s a).out := by
  have first : ∀ w : Units, (if a.opened then w else count w (cDdr c 6)).stg = w.stg ∧ (if a.opened then w else count w (cDdr c 6)).out = w.out := by
    intro w
    split
    · exact ⟨rfl, rfl⟩
    · exact ⟨count_stg .., count_out ..⟩
  unfold issueColumn
  dsimp only
  obtain ⟨stg, out⟩ := first u
  have row : lineRow (if a.opened then u else count u (cDdr c 6)) a.line = lineRow u a.line := by unfold lineRow rkLog; rw [stg]
  rw [row]
  by_cases write : a.use = .write
  · have is : (a.use == .write) = true := beq_iff_eq.mpr write
    rw [is, if_pos rfl, if_pos rfl, if_pos write, count_out, storeDram_out, present_adds, setSub_out]
    exact List.mem_append_left _ (List.mem_append_right _ (List.mem_singleton_self _))
  · have is : (a.use == .write) = false := by simpa using write
    simp only [is, Bool.false_eq_true, if_false]
    rw [if_neg write, count_out, setSub_out]
    exact List.mem_append_right _ (List.mem_singleton_self _)

theorem sliceCore_out {b : Bool} {u x : Units} (h : sliceCore b x = sliceCore b u) : x.out = u.out := show (sliceCore b x).out = (sliceCore b u).out by rw [h]

theorem pumpSlice_out (c : Ctl) (u : Units) (s : Nat) : (pumpSlice c u s).out = u.out := sliceCore_out (sliceCore_pumpSlice c u s)

/-- The access that the cycle is for issues its column command. -/
theorem cycleIssue_column {ct : Ctl} {a : DAcc} (first : chosen u c s a) (queued : forwarded (subOf u c s) a = false) (may : canColumn u c (subOf u c s) a (subOf u c s).cyc = true) :
    .ddr5 c s (if a.use = .write then 2 else 1) (bankKey u a.line / 32) (bankKey u a.line % 32) (lineRow u a.line) (lineCol a.line) ∈ (cycleIssue ct u c s).out := by
  obtain ⟨-, found⟩ := first
  unfold cycleIssue
  dsimp only at found ⊢
  rw [found]
  dsimp only
  rw [if_neg (by rw [queued]; decide), if_pos may]
  obtain ⟨t, only⟩ := setSub_ddrOnly u c s { subOf u c s with served := (subOf u c s).served || firstGroup u (subOf u c s).entry a }
  rw [only]
  have issued := issueColumn_out { u with ddr := t } c s a
  split
  · rw [pumpSlice_out]
    exact issued
  · exact issued

/-! ### Reads (R395, R396) -/

/-- What the code finds in a word with an error pattern over it. -/
theorem dramDecode_clean (u : Units) {err : BitVec 640} (h : errBytes err.toNat 80 = []) : dramDecode u err = (.clean, u) := by
  unfold dramDecode
  rw [h]

theorem dramDecode_device (u : Units) {err : BitVec 640} {i : Nat} {l : List Nat} (h : errBytes err.toNat 80 = i :: l) (one : ∀ k ∈ l, k / 8 = i / 8) : dramDecode u err = (.device (i / 8), u) := by
  unfold dramDecode
  rw [h]
  exact if_pos (List.all_eq_true.mpr fun k mem => beq_iff_eq.mpr (one k mem))

theorem dramDecode_general (u : Units) {err : BitVec 640} {i : Nat} {l : List Nat} (h : errBytes err.toNat 80 = i :: l) (more : ∃ k ∈ l, k / 8 ≠ i / 8) (few : l.length < 8) :
    dramDecode u err = (.general, u) := by
  obtain ⟨k, mem, other⟩ := more
  unfold dramDecode
  rw [h]
  exact (if_neg fun all => other (beq_iff_eq.mp (List.all_eq_true.mp all k mem))).trans (if_pos few)

/-- What a read without a patch gives, by what the code finds. -/
theorem settleRead_clean (ct : Ctl) (u : Units) (c : Nat) {a : DAcc} {err : BitVec 640} (plain : a.patched = false) (h : errBytes err.toNat 80 = []) :
    settleRead ct u c a err = dramAnswer ct u c a (some a.data) := by
  unfold settleRead
  rw [if_neg (by rw [plain]; decide)]
  simp only [dramDecode_clean u h]

theorem settleRead_device (ct : Ctl) (u : Units) (c : Nat) {a : DAcc} {err : BitVec 640} (plain : a.patched = false) {i : Nat} {l : List Nat} (h : errBytes err.toNat 80 = i :: l)
    (one : ∀ k ∈ l, k / 8 = i / 8) : settleRead ct u c a err = dramAnswer ct (count (addSat u F.INT_DDR_n_CNT_device c 0 1) (cDdr c 13)) c a (some a.data) := by
  unfold settleRead
  rw [if_neg (by rw [plain]; decide)]
  simp only [dramDecode_device u h one]

theorem settleRead_general (ct : Ctl) (u : Units) (c : Nat) {a : DAcc} {err : BitVec 640} (plain : a.patched = false) {i : Nat} {l : List Nat} (h : errBytes err.toNat 80 = i :: l)
    (more : ∃ k ∈ l, k / 8 ≠ i / 8) (few : l.length < 8) : settleRead ct u c a err = dramAnswer ct (generalPath u c) c a (some a.data) := by
  unfold settleRead
  rw [if_neg (by rw [plain]; decide)]
  simp only [dramDecode_general u h more few]

/-- The oldest RD in flight is captured. -/
theorem readReturn_settles {st : State} {a : DAcc} {rest : List DAcc} (sub : s < 2) (oldest : (subOf st.u c s).inflight = a :: rest) (err : BitVec 640) :
    exec (.ddr5ReadReturn c s err) st = .next { st with u := settleRead st.ctl (trackRead (setSub (fresh st) c s { subOf st.u c s with inflight := rest }) c s a) c a err } := by
  refine (exec_ddr5ReadReturn c s err st).trans (onU_next ?_)
  dsimp only
  rw [show (subOf (fresh st) c s).inflight = a :: rest from oldest]
  exact if_pos sub

/-! ### Refreshes (R234 to R236) -/

/-- The units of which a change leaves the timings alone: other outputs, other channel engines. -/
def timed (u : Units) (o : List Out) (t : Tab Ddr) : Units := { u with out := o, ddr := t }

/-- A subchannel of which only the timers and what is postponed differ. -/
def waiting (x : Sub) (t : Tab Nat) (p : List Nat) : Sub := { x with refAt := t, postponed := p }

theorem freeStart_congr {v : Units} {parts : List Laid} {step : Nat} (same : ∀ n, placed v c y parts n = placed u c x parts n) (laid : y.laid = x.laid) :
    ∀ k n, freeStart v c y parts step k n = freeStart u c x parts step k n := by
  intro k
  induction k with
  | zero => exact fun n => rfl
  | succ k ih =>
    intro n
    have free : cycleFree y = cycleFree x := by unfold cycleFree; rw [laid]
    unfold freeStart
    rw [same, ih, free]

theorem placed_timed (u : Units) (o : List Out) (d : Tab Ddr) (c : Nat) (x : Sub) (t : Tab Nat) (p : List Nat) (parts : List Laid) (n : Nat) :
    placed (timed u o d) c (waiting x t p) parts n = placed u c x parts n := rfl

theorem readyStart_timed (u : Units) (o : List Out) (d : Tab Ddr) (c : Nat) (x : Sub) (t : Tab Nat) (p : List Nat) (parts : List Laid) :
    readyStart (timed u o d) c (waiting x t p) parts = readyStart u c x parts :=
  freeStart_congr (placed_timed u o d c x t p parts) rfl 64 _

theorem apartStart_timed (u : Units) (o : List Out) (d : Tab Ddr) (c : Nat) (x : Sub) (t : Tab Nat) (p : List Nat) (parts : List Laid) :
    apartStart (timed u o d) c (waiting x t p) parts = apartStart u c x parts := by
  unfold apartStart
  rw [freeStart_congr (placed_timed u o d c x t p parts) rfl, readyStart_timed]
  rfl

theorem partsApart_timed (u : Units) (o : List Out) (d : Tab Ddr) (c : Nat) (x : Sub) (t : Tab Nat) (p : List Nat) (parts : List Laid) (n : Nat) :
    partsApart (timed u o d) c (waiting x t p) parts n = partsApart u c x parts n := rfl

theorem setSub_timed (u : Units) (o : List Out) (d : Tab Ddr) (c s : Nat) (x : Sub) : ∃ e, setSub (timed u o d) c s x = timed u o e := by
  obtain ⟨e, only⟩ := setSub_ddrOnly (timed u o d) c s x
  exact ⟨e, only⟩

/-- Commands laid down from a start, where only timers, outputs and channel engines have changed. -/
theorem layParts_timed (u : Units) (o : List Out) (d : Tab Ddr) (c s : Nat) (x : Sub) (t : Tab Nat) (p : List Nat) (parts : List Laid) (n : Nat) (here : subOf (timed u o d) c s = waiting x t p) :
    ∃ e, layParts (timed u o d) c s parts n = timed u o e ∧ subOf (timed u o e) c s = waiting { x with laid := x.laid ++ placed u c x parts n } t p := by
  unfold layParts
  dsimp only
  rw [here, placed_timed]
  obtain ⟨e, only⟩ := setSub_timed u o d c s { waiting x t p with laid := (waiting x t p).laid ++ placed u c x parts n }
  have same := subOf_setSub_same (timed u o d) c s { waiting x t p with laid := (waiting x t p).laid ++ placed u c x parts n }
  rw [only] at same ⊢
  exact ⟨e, rfl, same⟩

/-- A refresh that falls due: postponed once where the separation forbids it, laid down with the next one, or laid down. -/
theorem refreshOp_does (u : Units) (c s rank : Nat) : let x := subOf u c s
    let parts := refreshParts u c rank
    let first := x.laid ++ placed u c x parts (apartStart u c x parts)
    ∃ t d, refreshOp { u with out := [] } c s rank = timed u [] d ∧ subOf (timed u [] d) c s =
      if x.postponed.contains rank = true then waiting { x with laid := first ++ placed u c { x with laid := first } parts (apartStart u c { x with laid := first } parts) } t (x.postponed.filter fun r => r != rank)
      else if partsApart u c x parts (readyStart u c x parts) = true then waiting { x with laid := x.laid ++ placed u c x parts (readyStart u c x parts) } t x.postponed
      else waiting x t (x.postponed ++ [rank]) := by
  intro x parts first
  obtain ⟨t, ht⟩ : ∃ t, t = tabPut x.refAt rank ((if tabGet x.refAt rank = 0 then x.cyc else tabGet x.refAt rank) + refInterval { u with out := [] } c) := ⟨_, rfl⟩
  have shape : refreshOp { u with out := [] } c s rank =
      if x.postponed.contains rank = true then
        (let u1 := setSub (timed u [] u.ddr) c s (waiting x t (x.postponed.filter fun r => r != rank))
        let u2 := layParts u1 c s parts (apartStart u1 c (subOf u1 c s) parts)
        layParts u2 c s parts (apartStart u2 c (subOf u2 c s) parts))
      else if partsApart (timed u [] u.ddr) c (waiting x t x.postponed) parts (readyStart (timed u [] u.ddr) c (waiting x t x.postponed) parts) = true then
        layParts (setSub (timed u [] u.ddr) c s (waiting x t x.postponed)) c s parts (readyStart (timed u [] u.ddr) c (waiting x t x.postponed) parts)
      else setSub (timed u [] u.ddr) c s (waiting x t (x.postponed ++ [rank])) := by
    rw [ht]
    rfl
  rw [shape]
  refine ⟨t, ?_⟩
  split
  · obtain ⟨d1, e1⟩ := setSub_timed u [] u.ddr c s (waiting x t (x.postponed.filter fun r => r != rank))
    have s1 := subOf_setSub_same (timed u [] u.ddr) c s (waiting x t (x.postponed.filter fun r => r != rank))
    dsimp only
    rw [e1] at s1 ⊢
    rw [s1, apartStart_timed]
    obtain ⟨d2, e2, s2⟩ := layParts_timed u [] d1 c s x t _ parts (apartStart u c x parts) s1
    rw [e2, s2, apartStart_timed]
    obtain ⟨d3, e3, s3⟩ := layParts_timed u [] d2 c s { x with laid := first } t _ parts (apartStart u c { x with laid := first } parts) s2
    exact ⟨d3, e3, s3⟩
  · rw [partsApart_timed, readyStart_timed]
    split
    · obtain ⟨d1, e1⟩ := setSub_timed u [] u.ddr c s (waiting x t x.postponed)
      have s1 := subOf_setSub_same (timed u [] u.ddr) c s (waiting x t x.postponed)
      rw [e1] at s1 ⊢
      exact layParts_timed u [] d1 c s x t _ parts (readyStart u c x parts) s1
    · obtain ⟨d1, e1⟩ := setSub_timed u [] u.ddr c s (waiting x t (x.postponed ++ [rank]))
      have s1 := subOf_setSub_same (timed u [] u.ddr) c s (waiting x t (x.postponed ++ [rank]))
      rw [e1] at s1 ⊢
      exact ⟨d1, rfl, s1⟩

/-- PRE of a bank. -/
theorem issuePre_does (u : Units) (c s b : Nat) : tabGet (subOf (issuePre u c s b) c s).openRow b = 0 ∧ .ddr5 c s 3 (b / 32) (b % 32) 0 0 ∈ (issuePre u c s b).out := by
  unfold issuePre
  dsimp only
  rw [count_out, subOf_congr (count_ddr ..)]
  refine ⟨?_, List.mem_append_right _ (List.mem_singleton_self _)⟩
  show tabGet (subOf (setSub u c s _) c s).openRow b = 0
  rw [subOf_setSub_same]
  exact tabGet_put_same ..

/-! ### Alerts (R241, R270) -/

/-- A back-off is flagged. -/
theorem backoffOp_flags (u : Units) (low : c < 16) (s dimm : Nat) : getF (backoffOp u c s dimm) F.DDR5_n_STATE_backoff c = 1 ∧ getF (backoffOp u c s dimm) F.DDR5_n_ERR_backoff c = 1 := by
  unfold backoffOp
  dsimp only
  generalize (dimmRanks u c dimm).foldl (fun u r => backoffRank u c s r) u = w
  have state : regAddr .DDR5_n_STATE c 0 ≠ regAddr .DDR5_n_ERR c 0 ∧ regAddr .DDR5_n_STATE c 0 ≠ regAddr .DDR5_n_ALERT c 0 := by
    constructor <;> simp [regAddr, Reg.info]
  unfold ddrEvent
  constructor
  · rw [(emitEvent_only ..).getF _ _ _ (state_addr c low)]
    refine (getF_putF_other state.1 ..).trans ((getF_putF_other state.2 ..).trans ?_)
    exact getF_putF_same _ _ _ _ _ (by decide)
  · rw [(emitEvent_only ..).getF _ _ _ (err_addr c low)]
    exact getF_flag_same _ _ _ _ (by decide) (by decide)

/-- A held write of the DIMM that has been replayed three times. -/
def crcSpent (u : Units) (c s dimm : Nat) (a : DAcc) : Bool := dimmOf u c (lineRank u a.line) == dimm && decide (3 ≤ tabGet (subOf u c s).crcTries a.line)

/-- The subchannel once its held writes of the DIMM are marked. -/
def crcMarked (u : Units) (c s dimm : Nat) : Sub :=
  { subOf u c s with
    crcHeld := ((subOf u c s).crcHeld.filter fun a => !crcSpent u c s dimm a).map fun a => if dimmOf u c (lineRank u a.line) == dimm then { a with replay := true } else a,
    crcTries := ((subOf u c s).crcHeld.filter fun a => dimmOf u c (lineRank u a.line) == dimm && !crcSpent u c s dimm a).foldl (fun t a => tabPut t a.line (tabGet t a.line + 1)) (subOf u c s).crcTries }

/-- What follows the count of an alert. -/
theorem crcAlertOp_eq (ct : Ctl) (u v : Units) (c s dimm : Nat) (hv : v = addSat u F.DDR5_n_CRC_alerts c 0 1) : ∃ n, crcAlertOp ct u c s dimm =
    ((subOf v c s).crcHeld.filter (crcSpent v c s dimm)).foldl (fun u a => crcLost ct u c a) (addSat (setSub v c s (crcMarked v c s dimm)) F.DDR5_n_CRC_replays c 0 n) := by
  rw [hv]
  exact ⟨_, rfl⟩

theorem crcCount_dimms (u : Units) (c r : Nat) : dimmOf (addSat u F.DDR5_n_CRC_alerts c 0 1) c r = dimmOf u c r := by
  have apart : regAddr .DDR5_n_GEOM c 0 ≠ regAddr .DDR5_n_CRC c 0 := by simp [regAddr, Reg.info]
  unfold dimmOf
  rw [show getF (addSat u F.DDR5_n_CRC_alerts c 0 1) F.DDR5_n_GEOM_pranks_log2 c = getF u F.DDR5_n_GEOM_pranks_log2 c from getF_putF_other apart ..,
    show getF (addSat u F.DDR5_n_CRC_alerts c 0 1) F.DDR5_n_GEOM_lranks_log2 c = getF u F.DDR5_n_GEOM_lranks_log2 c from getF_putF_other apart ..]

/-- A CRC alert none of whose held writes has been replayed three times. -/
theorem crcAlertOp_replays (ct : Ctl) (u : Units) (c s dimm : Nat) (few : ∀ a ∈ (subOf u c s).crcHeld, tabGet (subOf u c s).crcTries a.line < 3) :
    (subOf (crcAlertOp ct u c s dimm) c s).crcHeld = (subOf u c s).crcHeld.map fun a => if dimmOf u c (lineRank u a.line) == dimm then { a with replay := true } else a := by
  obtain ⟨v, hv⟩ : ∃ v, v = addSat u F.DDR5_n_CRC_alerts c 0 1 := ⟨_, rfl⟩
  have shown : subOf v c s = subOf u c s := by rw [hv]; rfl
  have ours : ∀ a : DAcc, (dimmOf v c (lineRank v a.line) == dimm) = (dimmOf u c (lineRank u a.line) == dimm) := fun a => by rw [hv]; exact congrArg (· == dimm) (crcCount_dimms ..)
  have none_ : ∀ a ∈ (subOf v c s).crcHeld, crcSpent v c s dimm a = false := by
    intro a mem
    unfold crcSpent
    rw [shown] at mem ⊢
    rw [decide_eq_false (Nat.not_le.mpr (few a mem)), Bool.and_false]
  obtain ⟨n, shape⟩ := crcAlertOp_eq ct u v c s dimm hv
  rw [shape, List.filter_eq_nil_iff.mpr fun a mem => by rw [none_ a mem]; decide, List.foldl_nil, subOf_congr (addSat_ddr ..), subOf_setSub_same]
  unfold crcMarked
  dsimp only
  rw [List.filter_eq_self.mpr fun a mem => by rw [none_ a mem]; rfl, shown]
  exact List.map_congr_left fun a _ => by rw [ours]

end

/-- Settles O45: `ddrCycle_idle`, `issueLaid_does` and `cycleIssue_column` for a cycle, `readReturn_settles` for a read, `refreshOp_does` and `issuePre_does`, and the alerts. -/
theorem subchannelsIssueAndAnswer : Obligations.SubchannelsIssueAndAnswer := by
  unfold Obligations.SubchannelsIssueAndAnswer
  intro s ch sub runs u x y
  have below : sub < 2 ∧ inService s.u ch = true := by
    unfold subRuns at runs
    rwa [Bool.and_eq_true, decide_eq_true_eq] at runs
  have low : ch < 16 := by
    have served := below.2
    unfold inService at served
    rw [Bool.and_eq_true, decide_eq_true_eq] at served
    exact Nat.lt_of_lt_of_le served.1 (nDdr_le _)
  have cycle : exec (.ddr5CommandIssue ch sub) s = .next { s with u := ddrCycle s.ctl (fresh s) ch sub } := (exec_ddr5CommandIssue ch sub s).trans (onU_next (if_pos runs))
  refine ⟨fun reads writes laid held calm => ⟨_, cycle, ddrCycle_idle (u := fresh s) reads writes laid held low calm⟩, fun l due => ⟨_, cycle, ?_⟩, fun a first => ?_, fun a rest err oldest plain => ?_, fun rank small => ?_, fun dimm fitted => ⟨?_, fun off => ?_, fun on few => ?_⟩⟩
  · dsimp only
    obtain ⟨issued, rows⟩ := issueLaid_does y ch sub l
    rw [ddrCycle_laid (u := fresh s) (ct := s.ctl) rfl due, setSub_out, subOf_setSub_same]
    refine ⟨issued, fun closes b mem => ?_⟩
    show tabGet (subOf (issueLaid y ch sub l) ch sub).openRow b = 0
    rw [rows]
    exact (laidBanks_close closes _ _ _).1 b mem
  · intro b queued may
    refine ⟨_, cycle, ?_⟩
    dsimp only
    rw [ddrCycle_free (u := fresh s) (ct := s.ctl) rfl first.1, setSub_out]
    exact cycleIssue_column first queued may
  · intro z
    have run : exec (.ddr5ReadReturn ch sub err) s = .next { s with u := settleRead s.ctl z ch a err } := readReturn_settles below.1 oldest err
    refine ⟨fun clean => run.trans ?_, fun i l bytes one => run.trans ?_, fun i l bytes more few => run.trans ?_⟩
    · rw [settleRead_clean _ _ _ plain clean]
    · rw [settleRead_device _ _ _ plain bytes one]
    · rw [settleRead_general _ _ _ plain bytes more few]
  · intro parts start first
    have rankOn : rankRuns (fresh s) ch sub rank = true := by
      unfold rankRuns
      rw [show subRuns (fresh s) ch sub = true from runs, decide_eq_true (show rank < 2 ^ rkLog (fresh s) from small)]
      rfl
    have refresh : ∀ falls : refreshFalls x rank = true, exec (.refreshDue ch sub rank) s = .next { s with u := refreshOp (fresh s) ch sub rank } := fun falls =>
      (exec_refreshDue ch sub rank s).trans (onU_next (if_pos (by rw [rankOn, show refreshFalls (subOf (fresh s) ch sub) rank = true from falls]; rfl)))
    obtain ⟨t, d, done, shown⟩ := refreshOp_does s.u ch sub rank
    refine ⟨fun falls once apart => ⟨_, refresh falls, ?_⟩, fun falls once apart => ⟨_, refresh falls, ?_⟩, fun falls again => ⟨_, refresh falls, ?_⟩, fun bank few => ?_⟩
    · dsimp only
      rw [if_neg (by rw [once]; decide), if_neg (by rw [show partsApart s.u ch (subOf s.u ch sub) (refreshParts s.u ch rank) _ = false from apart]; decide)] at shown
      rw [show refreshOp (fresh s) ch sub rank = _ from done, shown]
      exact ⟨rfl, rfl, rfl⟩
    · dsimp only
      rw [if_neg (by rw [once]; decide), if_pos apart] at shown
      rw [show refreshOp (fresh s) ch sub rank = _ from done, shown]
      exact ⟨rfl, rfl⟩
    · dsimp only
      rw [if_pos again] at shown
      rw [show refreshOp (fresh s) ch sub rank = _ from done, shown]
      exact ⟨rfl, rfl⟩
    · intro b n may quiet read wrote
      refine ⟨_, (exec_rowCloseIdle ch sub rank bank s).trans (onU_next (if_pos ⟨rankOn, few, may, quiet, read, wrote⟩)), ?_⟩
      obtain ⟨shut, issued⟩ := issuePre_does (fresh s) ch sub b
      rw [show b / 32 = rank by omega, show b % 32 = bank by omega] at issued
      exact ⟨shut, issued⟩
  · exact ⟨_, (exec_alertBackoff ch sub dimm s).trans (onU_next (if_pos ⟨runs, fitted⟩)), backoffOp_flags (fresh s) low sub dimm⟩
  · refine ((exec_crcAlert ch sub dimm s).trans (onU_next ((if_pos ⟨runs, fitted⟩).trans (if_neg ?_)))).trans ((exec_alertBackoff ch sub dimm s).trans (onU_next (if_pos ⟨runs, fitted⟩))).symm
    rw [show writeCrc (fresh s) ch = false from off]
    decide
  · exact ⟨_, (exec_crcAlert ch sub dimm s).trans (onU_next ((if_pos ⟨runs, fitted⟩).trans (if_pos on))), crcAlertOp_replays s.ctl (fresh s) ch sub dimm few⟩

end Sys2Proof.Machine
end

section
/-! PROOF. Temperature polls, oscillator reads and write offsets of a DDR5 channel (R238, R239, R257, R264 to R266). -/

namespace Sys2Proof.Machine

section
variable {u x y : Units} {c s : Nat}

/-- A change of one DDR5 channel leaves the other channels, the slices and the media alone. -/
structure Aside (c : Nat) (u x : Units) : Prop where
  others : ∀ k, k ≠ c → ddr x k = ddr u k
  slices : x.slices = u.slices
  media : x.media = u.media

namespace Aside

theorem same (hd : x.ddr = u.ddr) (hs : x.slices = u.slices) (hm : x.media = u.media) : Aside c u x := ⟨fun k _ => by unfold ddr; rw [hd], hs, hm⟩

theorem refl (u : Units) : Aside c u u := same rfl rfl rfl

theorem trans (h : Aside c u x) (k : Aside c x y) : Aside c u y :=
  ⟨fun i hi => (k.others i hi).trans (h.others i hi), k.slices.trans h.slices, k.media.trans h.media⟩

theorem setDdr (u : Units) (d : Ddr) : Aside c u (setDdr u c d) := ⟨fun _ hk => tabGet_put_other hk _ _, rfl, rfl⟩

theorem notice (h : NoticeOnly u x) : Aside c u x := same h.ddr h.slices h.media

end Aside

/-! ### Commands laid down (R243, R264) -/

/-- A change of the subchannels of a channel alone. -/
structure SubsOnly (c : Nat) (u x : Units) : Prop where
  only : DdrOnly u x
  others : ∀ k, k ≠ c → ddr x k = ddr u k
  rate : (ddr x c).rate = (ddr u c).rate
  polls : (ddr x c).polls = (ddr u c).polls
  calNext : (ddr x c).calNext = (ddr u c).calNext

namespace SubsOnly

theorem refl (u : Units) : SubsOnly c u u := ⟨⟨u.ddr, rfl⟩, fun _ _ => rfl, rfl, rfl, rfl⟩

theorem trans (h : SubsOnly c u x) (k : SubsOnly c x y) : SubsOnly c u y := by
  obtain ⟨⟨t, rfl⟩, others, rate, polls, next⟩ := h
  obtain ⟨⟨t', rfl⟩, others', rate', polls', next'⟩ := k
  exact ⟨⟨t', rfl⟩, fun i hi => (others' i hi).trans (others i hi), rate'.trans rate, polls'.trans polls, next'.trans next⟩

theorem setSub (u : Units) (c s : Nat) (z : Sub) : SubsOnly c u (setSub u c s z) := by
  unfold Machine.setSub
  split
  · refine ⟨⟨_, rfl⟩, fun k hk => tabGet_put_other hk _ _, ?_, ?_, ?_⟩ <;> (unfold Machine.setDdr ddr; rw [tabGet_put_same])
  · refine ⟨⟨_, rfl⟩, fun k hk => tabGet_put_other hk _ _, ?_, ?_, ?_⟩ <;> (unfold Machine.setDdr ddr; rw [tabGet_put_same])

theorem foldl {α : Type} {f : Units → α → Units} (h : ∀ u a, SubsOnly c u (f u a)) (l : List α) (u : Units) : SubsOnly c u (l.foldl f u) := by
  induction l generalizing u with
  | nil => exact refl u
  | cons a l ih => exact (h u a).trans (ih _)

theorem layMrr (u : Units) (c s rank : Nat) (regs : List Nat) (n : Nat) : SubsOnly c u (layMrr u c s rank regs n) := foldl (fun _ _ => setSub ..) regs u

theorem aside (h : SubsOnly c u x) : Aside c u x := by
  obtain ⟨⟨t, rfl⟩, others, -, -, -⟩ := h
  exact ⟨others, rfl, rfl⟩

theorem getF (h : SubsOnly c u x) (f : Fld) (i j : Nat) : getF x f i j = Machine.getF u f i j := by
  obtain ⟨⟨t, rfl⟩, -, -, -, -⟩ := h
  rfl

end SubsOnly

/-! ### Temperature polls (R238, R239, R257) -/

/-- A refresh rate comes into force. -/
theorem putRate_does (u : Units) (c rate : Nat) : Aside c u (putRate u c rate) ∧ (ddr (putRate u c rate) c).rate = rate ∧ (ddr (putRate u c rate) c).polls = 0 ∧
    getF (putRate u c rate) F.DDR5_n_STATE_rate_2x c = (if 2 ≤ rate then 1 else 0) ∧ getF (putRate u c rate) F.DDR5_n_STATE_rate_4x c = (if 4 ≤ rate then 1 else 0) ∧
    getF (putRate u c rate) F.DDR5_n_ERR_rate_4x c = getF u F.DDR5_n_ERR_rate_4x c := by
  obtain ⟨w, hw⟩ : ∃ w, w = setDdr u c { ddr u c with rate := rate, polls := 0 } := ⟨_, rfl⟩
  obtain ⟨w1, hw1⟩ : ∃ w1, w1 = putF w F.DDR5_n_STATE_rate_2x c 0 (if 2 ≤ rate then 1 else 0) := ⟨_, rfl⟩
  obtain ⟨w2, hw2⟩ : ∃ w2, w2 = putF w1 F.DDR5_n_STATE_rate_4x c 0 (if 4 ≤ rate then 1 else 0) := ⟨_, rfl⟩
  obtain ⟨w3, hw3⟩ : ∃ w3, w3 = putF w2 F.DDR5_n_STATE_ref c 0 (refreshShare w2 c rate) := ⟨_, rfl⟩
  have shape : putRate u c rate = if ((ddr u c).rate = 1) = (rate = 1) then w3 else cause w3 0 := by rw [hw3, hw2, hw1, hw]; rfl
  have here : ddr w c = { ddr u c with rate := rate, polls := 0 } := by rw [hw]; exact tabGet_put_same ..
  have first : Aside c u w := by rw [hw]; exact .setDdr ..
  have second : Aside c w w3 := .same (by rw [hw3, putF_ddr, hw2, putF_ddr, hw1, putF_ddr]) (by rw [hw3, putF_slices, hw2, putF_slices, hw1, putF_slices]) (by rw [hw3, putF_media, hw2, putF_media, hw1, putF_media])
  have dd : ddr w3 c = ddr w c := by unfold ddr; rw [hw3, putF_ddr, hw2, putF_ddr, hw1, putF_ddr]
  have err : regAddr F.DDR5_n_ERR_rate_4x.reg c 0 ≠ regAddr .DDR5_n_STATE c 0 := by simp [regAddr, Reg.info, F.DDR5_n_ERR_rate_4x]
  have two : getF w3 F.DDR5_n_STATE_rate_2x c = if 2 ≤ rate then 1 else 0 := by
    rw [hw3, getF_putF_beside (f := F.DDR5_n_STATE_ref) (g := F.DDR5_n_STATE_rate_2x) w2 c 0 _ rfl (by decide) (by decide), hw2,
      getF_putF_beside (f := F.DDR5_n_STATE_rate_4x) (g := F.DDR5_n_STATE_rate_2x) w1 c 0 _ rfl (by decide) (by decide), hw1, getF_putF_same _ _ _ _ _ (by decide)]
    split <;> rfl
  have four : getF w3 F.DDR5_n_STATE_rate_4x c = if 4 ≤ rate then 1 else 0 := by
    rw [hw3, getF_putF_beside (f := F.DDR5_n_STATE_ref) (g := F.DDR5_n_STATE_rate_4x) w2 c 0 _ rfl (by decide) (by decide), hw2, getF_putF_same _ _ _ _ _ (by decide)]
    split <;> rfl
  have flagged : getF w3 F.DDR5_n_ERR_rate_4x c = getF u F.DDR5_n_ERR_rate_4x c := by
    rw [hw3, getF_putF_other err, hw2, getF_putF_other err, hw1, getF_putF_other err, hw]
    rfl
  rw [shape]
  clear hw hw1 hw2 hw3 shape
  split
  · exact ⟨first.trans second, by rw [dd, here], by rw [dd, here], two, four, flagged⟩
  · exact ⟨first.trans (second.trans (.same rfl rfl rfl)), (congrArg Ddr.rate dd).trans (by rw [here]), (congrArg Ddr.polls dd).trans (by rw [here]), two, four, flagged⟩

/-- The events and faults of a channel. -/
theorem ddrEvent_only (u : Units) (c : Nat) : NoticeOnly u (ddrEvent u c) := .counts (emitEvent_only ..)

/-- A hub's reading is recorded: the limit and the channel's rate are as they were. -/
theorem recordHub_does (u : Units) (low : c < 16) (k : Nat) (r : HubReading) :
    (recordHub u c k r).ddr = u.ddr ∧ (recordHub u c k r).slices = u.slices ∧ (recordHub u c k r).media = u.media ∧ getF (recordHub u c k r) F.DDR5_n_THERM_limit c = getF u F.DDR5_n_THERM_limit c := by
  have hub : ∀ f : Fld, f.reg = .DDR5_n_HUB ∨ f.reg = .DDR5_n_PHY_ERR → regAddr .DDR5_n_THERM c 0 ≠ regAddr f.reg c 0 := by
    rintro f (h | h) <;> rw [h] <;> simp [regAddr, Reg.info]
  have field : ∀ (f : Fld) (z : Units) (v : Nat), f.reg = .DDR5_n_HUB ∨ f.reg = .DDR5_n_PHY_ERR → getF (putF z f c 0 v) F.DDR5_n_THERM_limit c = getF z F.DDR5_n_THERM_limit c :=
    fun f z v h => getF_putF_other (hub f h) ..
  have temp : (if k = 0 then F.DDR5_n_HUB_temp_0 else F.DDR5_n_HUB_temp_1).reg = .DDR5_n_HUB := by split <;> rfl
  have lost : (if k = 0 then F.DDR5_n_HUB_lost_0 else F.DDR5_n_HUB_lost_1).reg = .DDR5_n_HUB := by split <;> rfl
  unfold recordHub
  dsimp only
  generalize (if k = 0 then F.DDR5_n_HUB_temp_0 else F.DDR5_n_HUB_temp_1) = tf at temp ⊢
  generalize (if k = 0 then F.DDR5_n_HUB_lost_0 else F.DDR5_n_HUB_lost_1) = lf at lost ⊢
  cases r with
  | absent => exact ⟨rfl, rfl, rfl, rfl⟩
  | celsius t => exact ⟨rfl, rfl, rfl, (field lf _ _ (.inl lost)).trans (field tf _ _ (.inl temp))⟩
  | noAnswer =>
    have event := ddrEvent_only (flag (putF (putF u tf c 0 (getF u F.DDR5_n_THERM_limit c)) lf c 0 1) F.DDR5_n_PHY_ERR_hub_lost c) c
    refine ⟨event.ddr, event.slices, event.media, (event.getF _ _ _ (ddr_addr_below low .DDR5_n_THERM 0 (by decide) rfl (by decide))).trans ?_⟩
    exact (field F.DDR5_n_PHY_ERR_hub_lost _ _ (.inr rfl)).trans ((field lf _ _ (.inl lost)).trans (field tf _ _ (.inl temp)))

/-- What a poll hands to the rule of the rates: the channel with commands laid down and its readings recorded. -/
theorem thermPollOp_settles (u : Units) (low : c < 16) (mr4 : List Nat) (h0 h1 : HubReading) :
    ∃ w, thermPollOp u c mr4 h0 h1 = settleRate w c mr4 ([slotReading u c 0 h0, slotReading u c 1 h1].filterMap (hubTemp (getF u F.DDR5_n_THERM_limit c))) ∧
      Aside c u w ∧ (ddr w c).rate = (ddr u c).rate ∧ (ddr w c).polls = (ddr u c).polls ∧ getF w F.DDR5_n_THERM_limit c = getF u F.DDR5_n_THERM_limit c := by
  have laid : SubsOnly c u ([0, 1].foldl (fun u s => (ranksOf u).foldl (fun u r => layMrr u c s r [4] (subOf u c s).cyc) u) u) :=
    .foldl (fun _ _ => .foldl (fun _ _ => .layMrr ..) _ _) _ _
  unfold thermPollOp
  dsimp only
  generalize [0, 1].foldl (fun u s => (ranksOf u).foldl (fun u r => layMrr u c s r [4] (subOf u c s).cyc) u) u = a at laid ⊢
  obtain ⟨d0, s0, m0, l0⟩ := recordHub_does a low 0 (slotReading u c 0 h0)
  generalize recordHub a c 0 (slotReading u c 0 h0) = b at d0 s0 m0 l0 ⊢
  obtain ⟨d1, s1, m1, l1⟩ := recordHub_does b low 1 (slotReading u c 1 h1)
  generalize recordHub b c 1 (slotReading u c 1 h1) = e at d1 s1 m1 l1 ⊢
  have limit : getF e F.DDR5_n_THERM_limit c = getF u F.DDR5_n_THERM_limit c := l1.trans (l0.trans (laid.getF ..))
  have here : ddr e c = ddr a c := by unfold ddr; rw [d1, d0]
  rw [limit]
  refine ⟨_, rfl, laid.aside.trans (.same (d1.trans d0) (s1.trans s0) (m1.trans m0)), (congrArg Ddr.rate here).trans laid.rate, (congrArg Ddr.polls here).trans laid.polls, ?_⟩
  exact (getF_putF_beside (f := F.DDR5_n_THERM_temp_max) (g := F.DDR5_n_THERM_limit) e c 0 _ rfl (by decide) (by decide)).trans limit

/-- A poll that finds a rank that requires more than 2×. -/
theorem settleRate_hot (u : Units) (low : c < 16) {mr4 : List Nat} (temps : List Nat) (hot : ∃ r ∈ mr4, 2 < r) : Aside c u (settleRate u c mr4 temps) ∧ (ddr (settleRate u c mr4 temps) c).rate = 4 ∧
    ((ddr u c).rate ≠ 4 → getF (settleRate u c mr4 temps) F.DDR5_n_STATE_rate_4x c = 1 ∧ getF (settleRate u c mr4 temps) F.DDR5_n_ERR_rate_4x c = 1) := by
  obtain ⟨r, mem, above⟩ := hot
  unfold settleRate
  dsimp only
  rw [if_pos (List.any_eq_true.mpr ⟨r, mem, decide_eq_true above⟩)]
  by_cases there : (ddr u c).rate = 4
  · rw [if_pos there]
    exact ⟨.refl u, there, fun other => absurd there other⟩
  · rw [if_neg there]
    obtain ⟨aside, rate, -, -, four, err⟩ := putRate_does (flag u F.DDR5_n_ERR_rate_4x c) c 4
    generalize putRate (flag u F.DDR5_n_ERR_rate_4x c) c 4 = w at aside rate four err ⊢
    have told := (ddrEvent_only w c).trans (.blockFault _ 2 c 0 0)
    refine ⟨(Aside.same (u := u) (x := flag u F.DDR5_n_ERR_rate_4x c) rfl rfl rfl).trans (aside.trans (.notice told)), ?_, fun _ => ⟨?_, ?_⟩⟩
    · unfold ddr
      rw [told.ddr]
      exact rate
    · rw [told.getF _ _ _ (state_addr c low)]
      exact four
    · rw [told.getF _ _ _ (err_addr c low), err]
      exact getF_flag_same _ _ _ _ (by decide) (by decide)

/-- A poll that finds a rank that requires more than 1×, or a hub at the limit. -/
theorem settleRate_warm (u : Units) {mr4 temps : List Nat} (mild : ∀ r ∈ mr4, r ≤ 2) (warm : (∃ r ∈ mr4, 1 < r) ∨ ∃ x ∈ temps, getF u F.DDR5_n_THERM_limit c ≤ x) : settleRate u c mr4 temps = putRate u c 2 := by
  unfold settleRate
  dsimp only
  rw [if_neg, if_pos]
  · rw [Bool.or_eq_true, List.any_eq_true, List.any_eq_true]
    exact warm.imp (fun ⟨r, mem, h⟩ => ⟨r, mem, decide_eq_true h⟩) fun ⟨x, mem, h⟩ => ⟨x, mem, decide_eq_true h⟩
  · rw [List.any_eq_true]
    rintro ⟨r, mem, h⟩
    have := mild r mem
    have := of_decide_eq_true h
    omega

/-- A poll at the 2× rate that finds every rank and hub well below. -/
theorem settleRate_cool (u : Units) {mr4 temps : List Nat} (mild : ∀ r ∈ mr4, r ≤ 1) (cool : ∀ x ∈ temps, x + 3 < getF u F.DDR5_n_THERM_limit c) (rate : (ddr u c).rate = 2) :
    settleRate u c mr4 temps = if 32 ≤ (ddr u c).polls + 1 then putRate u c 1 else setDdr u c { ddr u c with polls := (ddr u c).polls + 1 } := by
  have none_ : ∀ n, 1 ≤ n → (mr4.any fun r => decide (n < r)) = false := by
    intro n hn
    rw [List.any_eq_false]
    intro r mem
    have := mild r mem
    simpa using by omega
  have low : (temps.any fun t => decide (getF u F.DDR5_n_THERM_limit c ≤ t)) = false := by
    rw [List.any_eq_false]
    intro t mem
    have := cool t mem
    simpa using by omega
  have calm : ((mr4.all fun r => decide (r ≤ 1)) && temps.all fun t => decide (t + 3 < getF u F.DDR5_n_THERM_limit c)) = true := by
    rw [Bool.and_eq_true, List.all_eq_true, List.all_eq_true]
    exact ⟨fun r mem => decide_eq_true (mild r mem), fun t mem => decide_eq_true (cool t mem)⟩
  unfold settleRate
  dsimp only
  rw [none_ 2 (by decide), none_ 1 (by decide), low, calm]
  simp only [Bool.false_eq_true, Bool.or_self, if_false, if_true, show ¬ (ddr u c).rate = 4 by omega, show ¬ (ddr u c).rate = 1 by omega]

/-! ### The oscillator of a rank (R264) -/

/-- A poll of mode registers only adds commands laid down. -/
theorem layMrr_adds {l : Laid} (u : Units) (c s rank : Nat) (regs : List Nat) (n : Nat) (mem : l ∈ (subOf u c s).laid) : l ∈ (subOf (layMrr u c s rank regs n) c s).laid := by
  unfold layMrr
  induction regs generalizing u with
  | nil => exact mem
  | cons r regs ih =>
    refine ih _ ?_
    unfold layMaint layParts
    dsimp only
    rw [subOf_setSub_same]
    exact List.mem_append_left _ mem

/-- A command laid out from a start is among those laid down, at its offset. -/
theorem placed_mem {l : Laid} (u : Units) (c : Nat) (x : Sub) (parts : List Laid) (start : Nat) (mem : l ∈ parts) : { l with at_ := start + l.at_ } ∈ placed u c x parts start :=
  List.mem_flatMap.mpr ⟨l, mem, List.mem_append_right _ (List.mem_singleton.mpr rfl)⟩

/-- A blackout lays its PREab down, and each command inside it at its offset. -/
theorem blackoutOp_lays (u : Units) (c s rank len : Nat) (o : Laid) : ∃ n,
    ({ at_ := n, code := 8, rank := rank, banks := rankBanks rank, len := len } : Laid) ∈ (subOf (blackoutOp u c s rank len [o]) c s).laid ∧
    { o with rank := rank, at_ := n + o.at_ } ∈ (subOf (blackoutOp u c s rank len [o]) c s).laid := by
  unfold blackoutOp layMaint layParts
  dsimp only
  rw [subOf_setSub_same]
  exact ⟨_, List.mem_append_right _ (placed_mem _ _ _ _ _ (List.mem_cons_self ..)), List.mem_append_right _ (placed_mem _ _ _ _ _ (List.mem_cons_of_mem _ (List.mem_cons_self ..)))⟩

/-- The end of a calibration turn: the next rank of the channel is next. -/
theorem calDone_does (u : Units) (c : Nat) : Aside c u (calDone u c) ∧ (calDone u c).regs = u.regs ∧ (calDone u c).v = u.v ∧
    ddr (calDone u c) c = { ddr u c with calNext := ((ddr u c).calNext + 1) % (2 * 2 ^ rkLog u), calAt := u.now } := by
  have aside := Aside.setDdr (c := c) u { ddr u c with calNext := ((ddr u c).calNext + 1) % (2 * 2 ^ rkLog u), calAt := u.now }
  have here : ddr (setDdr u c { ddr u c with calNext := ((ddr u c).calNext + 1) % (2 * 2 ^ rkLog u), calAt := u.now }) c = { ddr u c with calNext := ((ddr u c).calNext + 1) % (2 * 2 ^ rkLog u), calAt := u.now } := tabGet_put_same ..
  unfold calDone endGrant
  dsimp only
  split
  · exact ⟨aside.trans (.same rfl rfl rfl), rfl, rfl, here⟩
  · exact ⟨aside, rfl, rfl, here⟩

/-- A field of a channel after a counter of it has been counted up. -/
theorem getF_addSat_same (u : Units) (f : Fld) (i j n : Nat) (h : f.lo + f.w ≤ 32) : getF (addSat u f i j n) f i j = min (getF u f i j + n) (2 ^ f.w - 1) := by
  rw [addSat, getF_putF_same _ _ _ _ _ h]
  exact Nat.mod_eq_of_lt (lt_of_le_of_lt (Nat.min_le_right ..) (Nat.sub_lt (Nat.two_pow_pos _) (by decide)))

/-- The oscillator of a rank runs inside its blackout. -/
theorem oscRetrain_lays (u : Units) (c s rank : Nat) : let x := calDone (oscRetrainOp u c s rank) c
    Aside c u x ∧ (∃ l ∈ (subOf x c s).laid, l.code = 8 ∧ l.rank = rank ∧ l.banks = rankBanks rank ∧ l.len = tRp u c + oscRun u c ∧
      ∃ o ∈ (subOf x c s).laid, o.code = 14 ∧ o.rank = rank ∧ o.at_ = l.at_ + tRp u c) ∧ (ddr x c).calNext = ((ddr u c).calNext + 1) % (2 * 2 ^ rkLog u) ∧
    getF x F.DDR5_n_OSC_u_r_runs c (s * 8 + rank) = min (getF u F.DDR5_n_OSC_u_r_runs c (s * 8 + rank) + 1) 65535 := by
  obtain ⟨n, first, second⟩ := blackoutOp_lays u c s rank (tRp u c + oscRun u c) { at_ := tRp u c, code := 14 }
  obtain ⟨w1, hw1⟩ : ∃ w, w = blackoutOp u c s rank (tRp u c + oscRun u c) [{ at_ := tRp u c, code := 14 }] := ⟨_, rfl⟩
  have only1 : SubsOnly c u w1 := by rw [hw1]; exact .setSub ..
  rw [← hw1] at first second
  obtain ⟨w2, hw2⟩ : ∃ w, w = layMrr w1 c s rank [46, 47] ((subOf w1 c s).cyc + 1) := ⟨_, rfl⟩
  have only : SubsOnly c u w2 := by rw [hw2]; exact only1.trans (.layMrr ..)
  replace first := layMrr_adds w1 c s rank [46, 47] ((subOf w1 c s).cyc + 1) first
  replace second := layMrr_adds w1 c s rank [46, 47] ((subOf w1 c s).cyc + 1) second
  rw [← hw2] at first second
  obtain ⟨w3, hw3⟩ : ∃ w, w = addSat w2 F.DDR5_n_OSC_u_r_runs c (s * 8 + rank) 1 := ⟨_, rfl⟩
  have shape : oscRetrainOp u c s rank = w3 := by rw [hw3, hw2, hw1]; rfl
  intro x
  obtain ⟨hx⟩ : Nonempty (x = calDone w3 c) := ⟨by rw [← shape]⟩
  obtain ⟨aside, regs, v, here⟩ := calDone_does w3 c
  rw [← hx] at aside regs v here
  clear_value x
  have dd : ddr w3 c = ddr w2 c := by rw [hw3]; rfl
  have sub : subOf x c s = subOf w2 c s := by unfold subOf; rw [here, dd]
  have counted : getF w3 F.DDR5_n_OSC_u_r_runs c (s * 8 + rank) = min (getF u F.DDR5_n_OSC_u_r_runs c (s * 8 + rank) + 1) 65535 := by
    rw [hw3, getF_addSat_same _ _ _ _ _ (by decide), only.getF]
    rfl
  have rk : rkLog w3 = rkLog u := by
    obtain ⟨⟨t, e⟩, -⟩ := only
    rw [hw3, e]
    rfl
  refine ⟨only.aside.trans ((Aside.same (x := w3) ?_ ?_ ?_).trans aside), ?_, ?_, ?_⟩
  · rw [hw3, addSat_ddr]
  · rw [hw3, addSat_slices]
  · rw [hw3, addSat_media]
  · rw [sub]
    exact ⟨_, first, rfl, rfl, rfl, rfl, _, second, rfl, rfl, rfl⟩
  · rw [here, rk, dd, only.calNext]
  · rw [← counted]
    unfold getF rawReg
    rw [regs, v]

/-! ### The count of a device (R265, R266) -/

theorem trimRaw_putTrim_same (u : Units) (a : Nat) (x : Word) : trimRaw (putTrim u a x) a = x := tabGetD_putD_same ..

theorem trimRaw_putTrim_other {a b : Nat} (h : b ≠ a) (u : Units) (x : Word) : trimRaw (putTrim u a x) b = trimRaw u b := tabGetD_putD_other h ..

theorem trimRaw_putF {f : Fld} {i j a : Nat} (h : a ≠ regAddr f.reg i j) (u : Units) (x : Nat) : trimRaw (putF u f i j x) a = trimRaw u a := tabGetD_putD_other h ..

/-- A trim word of a DDR5 channel lies apart from its fault and oscillator registers, below the telemetry's. -/
theorem oscTrim_apart {c s rank dev : Nat} (low : c < 16) (hs : s < 2) (hr : rank < 8) (hd : dev < 10) : ∀ a, a = trimWrite c (oscKey s rank dev) ∨ a = trimLast c (oscKey s rank dev) →
    a ≠ regAddr .DDR5_n_OSC_u_r c (s * 8 + rank) ∧ a ≠ regAddr .DDR5_n_PHY_ERR c 0 ∧ a < teleAddr := by
  intro a h
  unfold trimWrite trimLast dramTrim oscKey at h
  simp only [regAddr, Reg.info, teleAddr]
  omega

/-- The write offset that a count asks for: R265's target, two steps at most at a time. -/
def oscWant (u : Units) (c key cnt : Nat) : Int :=
  let target := roundDiv (offsetBase u c key * ((trimRaw u (trimBase c key)).toNat : Int)) cnt
  if offsetNow u c key < target then min target (offsetNow u c key + 2) else max target (offsetNow u c key - 2)

/-- The write offset that a count leaves. -/
def oscNew (u : Units) (c key cnt : Nat) : Int := max (Config.oscRange (c * 1024 + key)).1 (min (Config.oscRange (c * 1024 + key)).2 (oscWant u c key cnt))

/-- The rule for a count that is not zero, by the offsets it speaks of. -/
theorem oscResultOp_eq (u : Units) (c s rank dev : Nat) {cnt : Nat} (pos : ¬ cnt = 0) : oscResultOp u c s rank dev cnt =
    let key := oscKey s rank dev
    let w := showDrift (putTrim (putTrim u (trimLast c key) (BitVec.ofNat 32 cnt)) (trimWrite c key) (BitVec.ofInt 32 (oscNew u c key cnt))) c s rank
    if oscNew u c key cnt ≠ oscWant u c key cnt ∨ ((oscNew u c key cnt - offsetBase u c key).natAbs ≥ max 1 (getF u F.DDR5_n_RETRAIN_limit c) ∧
        (offsetNow u c key - offsetBase u c key).natAbs < max 1 (getF u F.DDR5_n_RETRAIN_limit c)) then
      notice (ddrEvent (flag w F.DDR5_n_PHY_ERR_drift c) c) 4 (c * 2 ^ 8 + (s + rank * 2) * 2 ^ 24 + dev * 2 ^ 32)
    else w := by
  unfold oscResultOp oscNew oscWant
  rw [if_neg pos]

theorem showDrift_keeps (u : Units) (c s rank : Nat) : (showDrift u c s rank).ddr = u.ddr ∧ (showDrift u c s rank).slices = u.slices ∧ (showDrift u c s rank).media = u.media := ⟨rfl, rfl, rfl⟩

/-- A count that is not zero: the device's offset and its last count are kept, and a move that the range stops is flagged. -/
theorem oscResultOp_keeps (u : Units) {c s rank dev cnt : Nat} (low : c < 16) (hs : s < 2) (hr : rank < 8) (hd : dev < 10) (some_ : 0 < cnt) : let key := oscKey s rank dev
    let x := oscResultOp u c s rank dev cnt
    x.ddr = u.ddr ∧ x.slices = u.slices ∧ x.media = u.media ∧ trimRaw x (trimWrite c key) = BitVec.ofInt 32 (oscNew u c key cnt) ∧ trimRaw x (trimLast c key) = BitVec.ofNat 32 cnt ∧
      (oscNew u c key cnt ≠ oscWant u c key cnt → getF x F.DDR5_n_PHY_ERR_drift c = 1) := by
  obtain ⟨w, hw⟩ : ∃ w, w = showDrift (putTrim (putTrim u (trimLast c (oscKey s rank dev)) (BitVec.ofNat 32 cnt)) (trimWrite c (oscKey s rank dev)) (BitVec.ofInt 32 (oscNew u c (oscKey s rank dev) cnt))) c s rank := ⟨_, rfl⟩
  obtain ⟨f, hf⟩ : ∃ f, f = flag w F.DDR5_n_PHY_ERR_drift c := ⟨_, rfl⟩
  have pos : ¬ cnt = 0 := by omega
  intro key x
  have shape : x = w ∧ oscNew u c key cnt = oscWant u c key cnt ∨ x = notice (ddrEvent f c) 4 (c * 2 ^ 8 + (s + rank * 2) * 2 ^ 24 + dev * 2 ^ 32) := by
    have eq : x = if oscNew u c key cnt ≠ oscWant u c key cnt ∨ ((oscNew u c key cnt - offsetBase u c key).natAbs ≥ max 1 (getF u F.DDR5_n_RETRAIN_limit c) ∧
        (offsetNow u c key - offsetBase u c key).natAbs < max 1 (getF u F.DDR5_n_RETRAIN_limit c)) then notice (ddrEvent f c) 4 (c * 2 ^ 8 + (s + rank * 2) * 2 ^ 24 + dev * 2 ^ 32) else w := by
      rw [hf, hw]
      exact oscResultOp_eq u c s rank dev pos
    split at eq
    case isTrue => exact .inr eq
    case isFalse h => exact .inl ⟨eq, not_not.mp fun n => h (.inl n)⟩
  clear_value x
  have apart := oscTrim_apart low hs hr hd
  have osc (z : Units) {a : Nat} (h : a = trimWrite c key ∨ a = trimLast c key) : trimRaw (showDrift z c s rank) a = trimRaw z a :=
    (trimRaw_putF (apart a h).1 ..).trans (trimRaw_putF (apart a h).1 ..)
  have differ : trimLast c key ≠ trimWrite c key := by
    unfold trimLast trimWrite dramTrim
    have : key < 512 := by simp only [key, oscKey]; omega
    omega
  have write : trimRaw w (trimWrite c key) = BitVec.ofInt 32 (oscNew u c key cnt) := by rw [hw, osc _ (.inl rfl), trimRaw_putTrim_same]
  have last : trimRaw w (trimLast c key) = BitVec.ofNat 32 cnt := by rw [hw, osc _ (.inr rfl), trimRaw_putTrim_other differ, trimRaw_putTrim_same]
  obtain ⟨dd, ss, mm⟩ : w.ddr = u.ddr ∧ w.slices = u.slices ∧ w.media = u.media := by rw [hw]; exact showDrift_keeps ..
  rcases shape with ⟨rfl, same⟩ | rfl
  · exact ⟨dd, ss, mm, write, last, fun other => absurd same other⟩
  · have told := (ddrEvent_only f c).trans (.notice (ddrEvent f c) 4 (c * 2 ^ 8 + (s + rank * 2) * 2 ^ 24 + dev * 2 ^ 32))
    have kept {a : Nat} (h : a = trimWrite c key ∨ a = trimLast c key) : trimRaw (notice (ddrEvent f c) 4 (c * 2 ^ 8 + (s + rank * 2) * 2 ^ 24 + dev * 2 ^ 32)) a = trimRaw w a := by
      obtain ⟨-, below, -⟩ := told
      refine (below _ _ (apart a h).2.2).trans ?_
      rw [hf]
      exact trimRaw_putF (apart a h).2.1 ..
    refine ⟨told.ddr.trans ?_, told.slices.trans ?_, told.media.trans ?_, (kept (.inl rfl)).trans write, (kept (.inr rfl)).trans last, fun _ => ?_⟩
    · rw [hf]; exact dd
    · rw [hf]; exact ss
    · rw [hf]; exact mm
    · rw [told.getF _ _ _ (ddr_addr_below low .DDR5_n_PHY_ERR 0 (by decide) rfl (by decide)), hf]
      exact getF_flag_same _ _ _ _ (by decide) (by decide)

/-- Settles O46: what a poll hands to the rule of the rates, what a blackout lays down, and what a count leaves. -/
theorem devicesAreFollowed : Obligations.DevicesAreFollowed := by
  unfold Obligations.DevicesAreFollowed
  intro s ch service d left
  have low : ch < 16 := by
    have := service
    unfold inService at this
    rw [Bool.and_eq_true, decide_eq_true_eq] at this
    exact lt_of_lt_of_le this.1 (nDdr_le _)
  have leaves {x : Units} (a : Aside ch (fresh s) x) : left { s with u := x } := ⟨rfl, a.others, a.slices, a.media⟩
  have polled (mr4 : List Nat) (h0 h1 : HubReading) : exec (.thermPoll ch mr4 h0 h1) s = .next { s with u := thermPollOp (fresh s) ch mr4 h0 h1 } := (exec_thermPoll ..).trans <| onU_next (if_pos service)
  refine ⟨fun mr4 h0 h1 => ?_, fun sub rank hs hr runs => ?_⟩
  · obtain ⟨w, settles, aside, rate, polls, limit⟩ := thermPollOp_settles (fresh s) low mr4 h0 h1
    intro lim temps
    refine ⟨fun hot => ?_, fun mild warm => ?_, fun mild cool two => ?_⟩
    · obtain ⟨aside', four, flags⟩ := settleRate_hot w low temps hot
      refine ⟨_, polled mr4 h0 h1, ?_⟩
      rw [settles]
      exact ⟨leaves (aside.trans aside'), four, fun other => flags (rate ▸ other)⟩
    · obtain ⟨aside', two, -, field2, field4, -⟩ := putRate_does w ch 2
      refine ⟨_, polled mr4 h0 h1, ?_⟩
      rw [settles, settleRate_warm w mild (by rw [limit]; exact warm)]
      exact ⟨leaves (aside.trans aside'), two, field2, field4⟩
    · refine ⟨_, polled mr4 h0 h1, ?_⟩
      rw [settles, settleRate_cool w mild (by rw [limit]; exact cool) (rate.trans two), polls]
      dsimp only
      split
      · next full =>
        obtain ⟨aside', one, none_, -⟩ := putRate_does w ch 1
        exact ⟨leaves (aside.trans aside'), one.trans (if_pos full).symm, none_.trans (if_pos full).symm⟩
      · next short =>
        have here : ddr (setDdr w ch { ddr w ch with polls := (ddr (fresh s) ch).polls + 1 }) ch = { ddr w ch with polls := (ddr (fresh s) ch).polls + 1 } := tabGet_put_same ..
        refine ⟨leaves (aside.trans (.setDdr ..)), ?_, ?_⟩
        · exact (congrArg Ddr.rate here).trans ((rate.trans two).trans (if_neg short).symm)
        · exact (congrArg Ddr.polls here).trans (if_neg short).symm
  · have rankRuns_ : rankRuns (fresh s) ch sub rank = true := by
      unfold rankRuns subRuns
      rw [show inService (fresh s) ch = true from service, show rkLog (fresh s) = rkLog s.u from rfl, decide_eq_true hs, decide_eq_true runs]
      rfl
    refine ⟨fun period holds_ => ?_, fun dev hd => ?_, fun dev cnt hd some_ => ?_⟩
    · obtain ⟨aside, laid, next, counted⟩ := oscRetrain_lays (fresh s) ch sub rank
      exact ⟨_, (exec_oscRetrain ..).trans (onU_next (if_pos ⟨rankRuns_, period, holds_⟩)), leaves aside, laid, next, counted⟩
    · refine ⟨{ s with u := flag (fresh s) F.DDR5_n_PHY_ERR_osc_zero ch }, (exec_oscResult ..).trans (onU_next (if_pos ⟨rankRuns_, hd⟩)), leaves (.same rfl rfl rfl), rfl, ?_⟩
      exact getF_flag_same _ _ _ _ (by decide) (by decide)
    · obtain ⟨dd, slices, media, write, last, flags⟩ := oscResultOp_keeps (fresh s) low hs hr hd some_
      exact ⟨_, (exec_oscResult ..).trans (onU_next (if_pos ⟨rankRuns_, hd⟩)), leaves (.same dd slices media), congrArg (tabGet · ch) dd, write, last, flags⟩

end

end Sys2Proof.Machine
end

section
/-! PROOF. Dies and their buses: BSY_N, the DQ bus, lines received and programs that complete (R281 to R324, R330, R397). -/

namespace Sys2Proof.Machine

section
variable {u x y : Units} {n d : Nat}

/-! ### Frames and orders to one die -/

/-- What a die that takes a frame is to its scheduler. -/
def tookFrame (x : Die) (lines op arg : Nat) : Die :=
  if isArrayFrame op then { x with chip := x.chip.frame lines op arg {} 0, prior := x.chip, last := (op, arg), resent := false } else { x with chip := x.chip.frame lines op arg {} 0 }

theorem frame_eq (u : Units) (n op d arg : Nat) : frame u n op d arg =
    setDie (present u (.cexus n (csMask [d]) (dieOf u n d).chip.safe (caBeats (frameWord op arg)))) n d (tookFrame (dieOf u n d) (dieLines u n d) op arg) := by
  unfold frame frameTo
  rw [show ([d].any fun d => (dieOf u n d).chip.safe) = (dieOf u n d).chip.safe by simp]
  rfl

theorem order_eq (u : Units) (n op d arg : Nat) (f : Die → Die) : order u n op d arg f = setDie (frame u n op d arg) n d (f (tookFrame (dieOf u n d) (dieLines u n d) op arg)) := by
  unfold order
  dsimp only
  rw [frame_eq, dieOf_setDie]

/-- Of a die that takes a frame only the device's own state and what is kept to send it again change. -/
theorem tookFrame_keeps (x : Die) (lines op arg : Nat) : ∃ c p l r, tookFrame x lines op arg = { x with chip := c, prior := p, last := l, resent := r } := by
  unfold tookFrame
  split
  · exact ⟨_, _, _, _, rfl⟩
  · exact ⟨_, _, _, _, rfl⟩

/-- A frame that is no FRAMING command leaves the framing in force. -/
theorem frame_safe (x : Chip) (lines : Nat) {op : Nat} (arg : Nat) (l : MLine) (b : BitVec 768) (which : op = 3 ∨ op = 7 ∨ op = 8) : (x.frame lines op arg l b).safe = x.safe := by
  unfold Chip.frame
  split
  · rfl
  · split
    · rfl
    · split
      · rcases which with rfl | rfl | rfl
        · rfl
        · show (if arg < 64 then _ else _ : Chip).safe = _
          split <;> rfl
        · rfl
      · rfl
      · rfl

theorem tookFrame_safe (x : Die) (lines : Nat) {op : Nat} (arg : Nat) (which : op = 3 ∨ op = 7 ∨ op = 8) : (tookFrame x lines op arg).chip.safe = x.chip.safe := by
  unfold tookFrame
  split
  · exact frame_safe _ _ _ _ _ which
  · exact frame_safe _ _ _ _ _ which

theorem cex_setDie (u : Units) (n d : Nat) (x : Die) : cex (setDie u n d x) n = { cex u n with dies := tabPut (cex u n).dies d x } := cex_setCex ..

theorem dieOf_frame (u : Units) (n op d arg : Nat) : dieOf (frame u n op d arg) n d = tookFrame (dieOf u n d) (dieLines u n d) op arg := by rw [frame_eq, dieOf_setDie]

theorem out_frame (u : Units) (n op d arg : Nat) : (frame u n op d arg).out = u.out ++ [.cexus n (csMask [d]) (dieOf u n d).chip.safe (caBeats (frameWord op arg))] := by rw [frame_eq]; rfl

theorem cex_frame (u : Units) (n op d arg : Nat) : ∃ t, cex (frame u n op d arg) n = { cex u n with dies := t } := by
  rw [frame_eq]
  exact ⟨_, cex_setDie ..⟩

theorem cex_order (u : Units) (n op d arg : Nat) (f : Die → Die) : ∃ t, cex (order u n op d arg f) n = { cex u n with dies := t } := by
  obtain ⟨t, eq⟩ := cex_frame u n op d arg
  rw [order_eq]
  exact ⟨_, by rw [cex_setDie, eq]⟩

/-- What an order to a die leaves: the frame on its line, the die as noted. -/
theorem order_does (u : Units) (n op d arg : Nat) (f : Die → Die) :
    (order u n op d arg f).out = u.out ++ [.cexus n (csMask [d]) (dieOf u n d).chip.safe (caBeats (frameWord op arg))] ∧ dieOf (order u n op d arg f) n d = f (tookFrame (dieOf u n d) (dieLines u n d) op arg) := by
  rw [order_eq, dieOf_setDie]
  exact ⟨out_frame .., rfl⟩

/-! ### Dies that have nothing to do -/

theorem dieGo_rests (quiet : (dieOf u n d).queue = []) : dieGo u n d = u := by
  have none_ : nextRead (holderOf u n) (dieOf u n d) = none := by unfold nextRead; rw [quiet]; rfl
  unfold dieGo
  dsimp only
  rw [none_, ite_self]

theorem tryResume_rests (going : (dieOf u n d).st ≠ .suspended) : tryResume u n d = u := if_neg fun h => going h.1

/-- A fold whose steps all leave a state as it is. -/
theorem foldl_rests {α : Type} {f : Units → α → Units} : ∀ {l : List α}, (∀ a ∈ l, f u a = u) → l.foldl f u = u
  | [], _ => rfl
  | a :: l, h => by
    rw [List.foldl_cons, h a (List.mem_cons_self ..)]
    exact foldl_rests fun b mem => h b (List.mem_cons_of_mem _ mem)

/-- The dies of a bus that no turn withholds, none suspended and none with a read waiting, stay as they are. -/
theorem retryDies_rests (free : paused u n = false) (rest : ∀ i, i < 8 → (dieOf u n i).queue = [] ∧ (dieOf u n i).st ≠ .suspended) : retryDies u n = u := by
  unfold retryDies
  refine foldl_rests fun i mem => ?_
  obtain ⟨quiet, going⟩ := rest i (List.mem_range.mp mem)
  rw [if_neg (by rw [free]; decide), dieGo_rests quiet, tryResume_rests going]

/-! ### What a pause depends on -/

/-- The pauses of a channel are those of the phases, the throttle step, the groups' states and the floors. -/
theorem paused_same {n : Nat} (low : n < 72) (stg : x.stg = u.stg) (adm : x.adm = u.adm) (v : x.v = u.v) (now : x.now = u.now) (here : x.grp = u.grp)
    (step : ∀ z, z < 13 → getF x F.PWR_ZONE_z_STATE_step z = getF u F.PWR_ZONE_z_STATE_step z) (state : ∀ s, s < 64 → getF x F.HNG_GROUP_s_state s = getF u F.HNG_GROUP_s_state s) : paused x n = paused u n := by
  have thr : thrOf x true n = thrOf u true n := congrArg (4 * ·) (step _ (show n / 9 < 13 by omega))
  have rebuilds : rebuildingAt x true n = rebuildingAt u true n := by
    have one (i : Nat) (mem : i ∈ List.range 8) : (getF x F.HNG_GROUP_s_state (8 * (n / 9) + i) == 1) = (getF u F.HNG_GROUP_s_state (8 * (n / 9) + i) == 1) := by
      have := List.mem_range.mp mem
      rw [state _ (by omega)]
    unfold rebuildingAt
    rw [Bool.eq_iff_iff, Bool.and_eq_true, Bool.and_eq_true, List.any_eq_true, List.any_eq_true]
    exact and_congr_right fun _ => exists_congr fun i => and_congr_right fun mem => by rw [one i mem]
  unfold paused mediaHeld mediaIdx mediaTurn withheld floorOf evacuating setFloor grp
  simp only [stg, adm, v, now, here, thr, rebuilds]

theorem cexRuns_lt (runs : cexRuns u n = true) : n < 72 := by
  unfold cexRuns at runs
  rw [Bool.and_eq_true, decide_eq_true_eq] at runs
  obtain ⟨low, -⟩ := runs
  unfold nCexus pick at low
  split at low <;> omega

/-! ### BSY_N (R281, R314) -/

/-- The end of a sensing: the line is in the read register, and its result waits for the bus. -/
theorem bsyRise_senses {c : Ctl} {r : DRead} (st : (dieOf u n d).st = .sensing) (cur : (dieOf u n d).cur = some r) (kept : r.cls < 2 ∨ ∀ z ∈ (dieOf u n d).queue, 2 ≤ z.cls) : let x := dieOf u n d
    let t := bsyRiseOp c u n d
    t.media = u.media ∧ dieOf t n d = { x with st := if x.pgm then .suspended else .idle, cur := none, result := some r, chip := x.chip.ends (tabGet u.media (mediaKey n d r.dla)) } ∧
      (cex t n).xq = (cex u n).xq ++ [{ die := d, cls := r.cls, prio := r.prio, port := r.port, seq := r.seq }] := by
  have ends : dieOf (dieEnds u n d (tabGet u.media (mediaKey n d r.dla))) n d = { dieOf u n d with chip := (dieOf u n d).chip.ends (tabGet u.media (mediaKey n d r.dla)) } := dieOf_setDie ..
  have keep : ¬ (2 ≤ r.cls ∧ ((dieOf u n d).queue.any fun y => decide (y.cls ≤ 1)) = true) := by
    rintro ⟨slow, fast⟩
    obtain ⟨z, mem, low⟩ := List.any_eq_true.mp fast
    have := of_decide_eq_true low
    rcases kept with h | h
    · omega
    · have := h z mem
      omega
  intro x t
  obtain ⟨w, hw⟩ : ∃ w, w = setDie (dieEnds u n d (tabGet u.media (mediaKey n d r.dla))) n d
    { x with st := if x.pgm then .suspended else .idle, cur := none, result := some r, chip := x.chip.ends (tabGet u.media (mediaKey n d r.dla)) } := ⟨_, rfl⟩
  have shape : t = setCex w n { cex w n with xq := (cex w n).xq ++ [{ die := d, cls := r.cls, prio := r.prio, port := r.port, seq := r.seq }] } := by
    simp only [t, bsyRiseOp, st, cur, Option.map_some, Option.getD_some, ends]
    rw [if_neg keep, hw]
  have queued : (cex w n).xq = (cex u n).xq := by
    rw [hw, cex_setDie]
    unfold dieEnds
    rw [cex_setDie]
  rw [shape]
  refine ⟨by rw [setCex_media, hw]; exact setCex_media .., ?_, ?_⟩
  · unfold dieOf
    rw [cex_setCex]
    exact (congrArg (dieOf · n d) hw).trans (dieOf_setDie ..)
  · rw [cex_setCex, queued]

/-- A READ goes out to a die: what stands on its line, and what the scheduler notes of it. -/
theorem senseRead_frames (u : Units) (n d : Nat) (r : DRead) : let t := senseRead u n d r
    (.cexus n (csMask [d]) (dieOf u n d).chip.safe (caBeats (frameWord 32 r.dla)) ∈ t.out) ∧ (dieOf t n d).st = .sensing ∧ (dieOf t n d).cur = some r ∧ (dieOf t n d).pgm = (dieOf u n d).pgm := by
  intro t
  obtain ⟨w, hw⟩ : ∃ w, w = if tabGet (dieOf u n d).chip.refs (r.dla % 4) = r.code then u else frame u n 7 d (r.code + r.dla % 4 * 16) := ⟨_, rfl⟩
  have here : (dieOf w n d).chip.safe = (dieOf u n d).chip.safe ∧ (dieOf w n d).pgm = (dieOf u n d).pgm := by
    rw [hw]
    split
    · exact ⟨rfl, rfl⟩
    · rw [dieOf_frame]
      obtain ⟨_, _, _, _, eq⟩ := tookFrame_keeps (dieOf u n d) (dieLines u n d) 7 (r.code + r.dla % 4 * 16)
      exact ⟨tookFrame_safe _ _ _ (.inr (.inl rfl)), by rw [eq]⟩
  obtain ⟨sent, noted⟩ := order_does w n 32 d r.dla fun x => { x with st := .sensing, cur := some r, since := w.now, queue := x.queue.erase r }
  have shape : t = count (order w n 32 d r.dla fun x => { x with st := .sensing, cur := some r, since := w.now, queue := x.queue.erase r }) (cCex n 0) := by rw [hw]; rfl
  obtain ⟨_, _, _, _, eq⟩ := tookFrame_keeps (dieOf w n d) (dieLines w n d) 32 r.dla
  rw [shape, count_out, dieOf_count, noted, sent, here.1, eq]
  exact ⟨List.mem_append_right _ (List.mem_singleton_self _), rfl, rfl, here.2⟩

/-- A suspended die with one waiting read takes it. -/
theorem dieGo_reads_suspended {r : DRead} (free : paused u n = false) (queue : (dieOf u n d).queue = [r]) (st : (dieOf u n d).st = .suspended) (result : (dieOf u n d).result = none) (owner : r.owner = 7) :
    dieGo u n d = senseRead u n d r := by
  unfold dieGo
  dsimp only
  rw [if_neg (by rw [free]; decide), nextRead_one _ _ _ queue owner]
  dsimp only
  rw [st, result]
  rfl

/-- A program stopped for the read that waits: the die senses it. -/
theorem bsyRise_suspends {c : Ctl} {r : DRead} (low : n < 72) (st : (dieOf u n d).st = .programming) (asked : (dieOf u n d).suspSent = true) (queue : (dieOf u n d).queue = [r]) (owner : r.owner = 7)
    (result : (dieOf u n d).result = none) (free : paused u n = false) : let t := bsyRiseOp c u n d
    (dieOf t n d).st = .sensing ∧ (dieOf t n d).cur = some r ∧ (dieOf t n d).pgm = (dieOf u n d).pgm ∧ .cexus n (csMask [d]) (dieOf u n d).chip.safe (caBeats (frameWord 32 r.dla)) ∈ t.out := by
  intro t
  obtain ⟨a, ha⟩ : ∃ a, a = addSat u F.CEX_n_SUSP_count n 0 1 := ⟨_, rfl⟩
  obtain ⟨w, hw⟩ : ∃ w, w = if getF a F.CEX_n_SUSP_longest n < min 65535 ((u.now - (dieOf u n d).since) * 16) then putF a F.CEX_n_SUSP_longest n 0 (min 65535 ((u.now - (dieOf u n d).since) * 16)) else a := ⟨_, rfl⟩
  obtain ⟨y, hy⟩ : ∃ y, y = count (setDie w n d { dieOf u n d with st := .suspended, suspSent := false, chip := (dieOf u n d).chip.suspends }) (cCex n 2) := ⟨_, rfl⟩
  have shape : t = tryResume (dieGo y n d) n d := by
    simp only [t, bsyRiseOp, st, asked, hy, hw, ha]
    rfl
  have same (f : Fld) (i : Nat) (apart : regAddr f.reg i 0 ≠ regAddr .CEX_n_SUSP n 0) (below : regAddr f.reg i 0 < teleAddr) : getF y f i = getF u f i := by
    have third : getF y f i = getF w f i := by rw [hy]; exact (count_only _ _).getF _ _ _ below
    have second : getF w f i = getF a f i := by
      rw [hw]
      split
      · exact getF_putF_other apart ..
      · rfl
    have first : getF a f i = getF u f i := by rw [ha]; exact getF_putF_other apart ..
    exact third.trans (second.trans first)
  have keeps {β : Type} (g : Units → β) (reg : ∀ (z : Units) (f : Fld) (i j v : Nat), g (putF z f i j v) = g z) (die : ∀ z d x, g (setDie z n d x) = g z) (counts : ∀ z k, g (count z k) = g z) : g y = g u := by
    rw [hy, counts, die, hw]
    split
    · rw [reg, ha]; exact reg ..
    · rw [ha]; exact reg ..
  have here : dieOf y n d = { dieOf u n d with st := .suspended, suspSent := false, chip := (dieOf u n d).chip.suspends } := by rw [hy, dieOf_count, dieOf_setDie]
  have going : paused y n = false := by
    rw [← free]
    refine paused_same low ?_ ?_ ?_ ?_ ?_ (fun z hz => same F.PWR_ZONE_z_STATE_step z ?_ ?_) fun s hs => same F.HNG_GROUP_s_state s ?_ ?_
    · exact keeps Units.stg (fun _ _ _ _ _ => rfl) (fun _ _ _ => rfl) fun _ _ => count_stg ..
    · exact keeps Units.adm (fun _ _ _ _ _ => rfl) (fun _ _ _ => rfl) fun _ _ => count_adm ..
    · exact keeps Units.v (fun _ _ _ _ _ => rfl) (fun _ _ _ => rfl) fun _ _ => count_v ..
    · exact keeps Units.now (fun _ _ _ _ _ => rfl) (fun _ _ _ => rfl) fun _ _ => count_now ..
    · exact keeps Units.grp (fun _ _ _ _ _ => rfl) (fun _ _ _ => rfl) fun _ _ => count_grp ..
    · simp only [regAddr, Reg.info, F.PWR_ZONE_z_STATE_step]; omega
    · simp only [regAddr, Reg.info, F.PWR_ZONE_z_STATE_step, teleAddr]; omega
    · simp only [regAddr, Reg.info, F.HNG_GROUP_s_state]; omega
    · simp only [regAddr, Reg.info, F.HNG_GROUP_s_state, teleAddr]; omega
  have goes : dieGo y n d = senseRead y n d r := dieGo_reads_suspended going (by rw [here]; exact queue) (by rw [here]) (by rw [here]; exact result) owner
  obtain ⟨sent, senses, cur, pgm⟩ := senseRead_frames y n d r
  rw [here] at sent pgm
  have safe : (dieOf u n d).chip.suspends.safe = (dieOf u n d).chip.safe := by
    unfold Chip.suspends
    split <;> rfl
  rw [shape, goes, tryResume_rests (by rw [senses]; decide)]
  exact ⟨senses, cur, pgm, safe ▸ sent⟩

/-! ### The DQ bus (R315, R324) -/

/-- A free bus takes the one transfer that waits, where it is ready. -/
theorem dqTransferOp_takes {z : Xfer} (lost : Bool) (free : (cex u n).cur = none) (one : (cex u n).xq = [z]) (ready : xferReady u n z = true) : dqTransferOp u n lost =
    let w := setCex u n { cex u n with xq := [] }
    if z.load then loadLine w n z lost
    else tryResume (count (countRun (frame (setCex w n { cex w n with cur := some z }) n 1 z.die 0) (cCex n 7) 24) (cCex n 3)) n z.die := by
  have sorted (le : Xfer → Xfer → Bool) : sortedBy le ((cex u n).xq.filter fun t => xferReady u n t) = [z] := by
    rw [one, List.filter_cons_of_pos (by exact ready)]
    rfl
  unfold dqTransferOp
  dsimp only
  rw [free, if_neg (by decide), sorted]
  dsimp only
  rw [one, List.erase_cons_head]

theorem countRun_only (u : Units) (n k : Nat) : CountsOnly u (countRun u n k) := by
  unfold countRun
  split
  · exact .refl u
  · exact countN_only ..

theorem CountsOnly.cex_same (h : CountsOnly u x) : x.cex = u.cex := by
  obtain ⟨⟨_, _, rfl⟩, -⟩ := h
  rfl

theorem CountsOnly.out_same (h : CountsOnly u x) : x.out = u.out := by
  obtain ⟨⟨_, _, rfl⟩, -⟩ := h
  rfl

/-- A DOUT starts: its frame goes out, the bus carries it, and none waits. -/
theorem dqTransferOp_dout {z : Xfer} (lost : Bool) (free : (cex u n).cur = none) (one : (cex u n).xq = [z]) (ready : xferReady u n z = true) (dout : z.load = false) (going : (dieOf u n z.die).st ≠ .suspended) :
    let t := dqTransferOp u n lost
    (cex t n).cur = some z ∧ (cex t n).xq = [] ∧ .cexus n (csMask [z.die]) (dieOf u n z.die).chip.safe (caBeats (frameWord 1 0)) ∈ t.out := by
  intro t
  obtain ⟨w, hw⟩ : ∃ w, w = setCex (setCex u n { cex u n with xq := [] }) n { cex (setCex u n { cex u n with xq := [] }) n with cur := some z } := ⟨_, rfl⟩
  have here : cex w n = { cex u n with xq := [], cur := some z } := by rw [hw, cex_setCex, cex_setCex]
  have die : dieOf w n z.die = dieOf u n z.die := by
    unfold dieOf
    rw [here]
  obtain ⟨y, hy⟩ : ∃ y, y = count (countRun (frame w n 1 z.die 0) (cCex n 7) 24) (cCex n 3) := ⟨_, rfl⟩
  have shape : t = tryResume y n z.die := by
    simp only [t, dqTransferOp_takes lost free one ready, dout, Bool.false_eq_true, if_false]
    rw [hy, hw]
  have counts : CountsOnly (frame w n 1 z.die 0) y := by rw [hy]; exact (countRun_only ..).trans (count_only ..)
  have cexes : cex y n = cex (frame w n 1 z.die 0) n := congrArg (tabGet · n) counts.cex_same
  have st : (dieOf y n z.die).st = (dieOf u n z.die).st := by
    obtain ⟨_, _, _, _, eq⟩ := tookFrame_keeps (dieOf w n z.die) (dieLines w n z.die) 1 0
    unfold dieOf
    rw [cexes]
    show (dieOf (frame w n 1 z.die 0) n z.die).st = _
    rw [dieOf_frame, eq, die]
    rfl
  obtain ⟨dies, eq⟩ := cex_frame w n 1 z.die 0
  rw [shape, tryResume_rests (by rw [st]; exact going), cexes, eq, here, counts.out_same, out_frame, die]
  exact ⟨rfl, rfl, List.mem_append_right _ (List.mem_singleton_self _)⟩

/-- A LOAD frame and its beats: the frame on its line, and of the die only the device's own state. -/
theorem loadFrame_does (u : Units) (n d arg : Nat) (line : MLine) (lost : Bool) :
    (.cexus n (csMask [d]) (dieOf u n d).chip.safe (caBeats (frameWord 2 arg)) ∈ (loadFrame u n d arg line lost).out) ∧ (∃ c, dieOf (loadFrame u n d arg line lost) n d = { dieOf u n d with chip := c }) ∧
    (∃ t, cex (loadFrame u n d arg line lost) n = { cex u n with dies := t }) ∧ (loadFrame u n d arg line lost).grp = u.grp := by
  have mem : .cexus n (csMask [d]) (dieOf u n d).chip.safe (caBeats (frameWord 2 arg)) ∈ (present (present u (.cexus n (csMask [d]) (dieOf u n d).chip.safe (caBeats (frameWord 2 arg))))
      (.dq n (lineBeats (mediaWord line.data (BitVec.ofNat 64 line.metaWord))))).out := List.mem_append_left _ (List.mem_append_right _ (List.mem_singleton_self _))
  unfold loadFrame
  dsimp only
  split
  · exact ⟨mem, ⟨_, dieOf_setDie ..⟩, ⟨_, cex_setDie ..⟩, rfl⟩
  · exact ⟨mem, ⟨_, dieOf_setDie ..⟩, ⟨_, cex_setDie ..⟩, rfl⟩

/-- A LOAD into a die without a loaded slot: the line goes into slot 0. -/
theorem loadLine_does {b : SBuf} {z : Xfer} (lost : Bool) (entry : bufOf u (n / 9) z.buf = some b) (none_ : (dieOf u n z.die).slots = []) : let t := loadLine u n z lost
    (cex t n).xq = (cex u n).xq ∧ (dieOf t n z.die).slots = [(0, z.buf, (grp u (n / 9)).round)] ∧ .cexus n (csMask [z.die]) (dieOf u n z.die).chip.safe (caBeats (frameWord 2 (b.dla % 2 ^ 23))) ∈ t.out := by
  obtain ⟨a, ha⟩ : ∃ a, a = if (dieOf u n z.die).chip.padr = b.dla / 2 ^ 23 % 256 then u else frame u n 3 z.die (b.dla / 2 ^ 23 % 256) := ⟨_, rfl⟩
  have first : (dieOf a n z.die).slots = [] ∧ (dieOf a n z.die).chip.safe = (dieOf u n z.die).chip.safe ∧ (cex a n).xq = (cex u n).xq ∧ a.grp = u.grp := by
    rw [ha]
    split
    · exact ⟨none_, rfl, rfl, rfl⟩
    · obtain ⟨_, _, _, _, eq⟩ := tookFrame_keeps (dieOf u n z.die) (dieLines u n z.die) 3 (b.dla / 2 ^ 23 % 256)
      obtain ⟨_, xq⟩ := cex_frame u n 3 z.die (b.dla / 2 ^ 23 % 256)
      have safe := tookFrame_safe (op := 3) (dieOf u n z.die) (dieLines u n z.die) (b.dla / 2 ^ 23 % 256) (.inl rfl)
      refine ⟨?_, ?_, ?_, ?_⟩
      · rw [dieOf_frame, eq]; exact none_
      · rw [dieOf_frame]; exact safe
      · rw [xq]
      · rw [frame_eq]; rfl
  obtain ⟨slots, safe, xq, groups⟩ := first
  obtain ⟨sent, ⟨chip, die⟩, ⟨dies, bus⟩, same⟩ := loadFrame_does a n z.die (b.dla % 2 ^ 23) (bufLine b z.pos) lost
  obtain ⟨w, hw⟩ : ∃ w, w = loadFrame a n z.die (b.dla % 2 ^ 23) (bufLine b z.pos) lost := ⟨_, rfl⟩
  rw [← hw] at sent die bus same
  obtain ⟨y, hy⟩ : ∃ y, y = setDie w n z.die { dieOf w n z.die with slots := (dieOf w n z.die).slots ++ [(0, z.buf, (grp w (n / 9)).round)] } := ⟨_, rfl⟩
  obtain ⟨e, he⟩ : ∃ e, e = endGrant (setCex y n { cex y n with patches := (cex y n).patches.map fun p => if p.1 = z.die ∧ p.2.1 = b.dla then (p.1, p.2.1, bufLine b z.pos) else p }) (chKey true n) (loadRequester
    (setCex y n { cex y n with patches := (cex y n).patches.map fun p => if p.1 = z.die ∧ p.2.1 = b.dla then (p.1, p.2.1, bufLine b z.pos) else p }) b) := ⟨_, rfl⟩
  intro t
  have lowest : ((List.range 8).find? fun i => !((dieOf u n z.die).slots.any fun s => s.1 == i)).getD 0 = 0 := by rw [none_]; rfl
  have shape : t = count (countRun e (cCex n 7) 24) (cCex n 4) := by
    simp only [t, loadLine, entry, lowest, Nat.zero_mul, Nat.zero_add]
    rw [he, hy, hw, ha]
  have counts : CountsOnly e t := by rw [shape]; exact (countRun_only ..).trans (count_only ..)
  have bus_e : cex e n = { cex y n with patches := (cex y n).patches.map fun p => if p.1 = z.die ∧ p.2.1 = b.dla then (p.1, p.2.1, bufLine b z.pos) else p } := by
    rw [he]
    unfold endGrant
    dsimp only
    split
    · exact cex_setCex ..
    · exact cex_setCex ..
  have out_e : e.out = w.out := by
    rw [he]
    unfold endGrant
    dsimp only
    split
    · rw [hy]; rfl
    · rw [hy]; rfl
  have final : cex t n = cex e n := congrArg (tabGet · n) counts.cex_same
  have bus_y : cex y n = { cex w n with dies := tabPut (cex w n).dies z.die { dieOf w n z.die with slots := (dieOf w n z.die).slots ++ [(0, z.buf, (grp w (n / 9)).round)] } } := by rw [hy, cex_setDie]
  refine ⟨?_, ?_, ?_⟩
  · rw [final, bus_e, bus_y, bus]
    exact xq
  · have held : dieOf t n z.die = { dieOf w n z.die with slots := (dieOf w n z.die).slots ++ [(0, z.buf, (grp w (n / 9)).round)] } := by
      unfold dieOf
      rw [final, bus_e, bus_y]
      exact tabGet_put_same ..
    have round : grp w (n / 9) = grp u (n / 9) := congrArg (tabGet · (n / 9)) (same.trans groups)
    rw [held, die, round, slots]
    rfl
  · rw [counts.out_same, out_e, ← safe]
    exact sent

/-! ### What the hinge unit's own work leaves alone -/

/-- A change of the tables of the hinge unit, its notices and its registers (0x600000 and above): the dies, the buses, the schedulers and the network stay. -/
structure HingeWork (u x : Units) : Prop where
  cex : x.cex = u.cex
  grp : x.grp = u.grp
  media : x.media = u.media
  net : x.net = u.net
  v : x.v = u.v
  regs : ∀ a d, a < 0x600000 → tabGetD x.regs.cur a d = tabGetD u.regs.cur a d

namespace HingeWork

theorem same (cex : x.cex = u.cex) (grp : x.grp = u.grp) (media : x.media = u.media) (net : x.net = u.net) (v : x.v = u.v) (regs : x.regs = u.regs) : HingeWork u x :=
  ⟨cex, grp, media, net, v, fun _ _ _ => by rw [regs]⟩

theorem refl (u : Units) : HingeWork u u := same rfl rfl rfl rfl rfl rfl

theorem hinge (u : Units) (h : Hinge) : HingeWork u { u with hng := h } := same rfl rfl rfl rfl rfl rfl

theorem trans (h : HingeWork u x) (k : HingeWork x y) : HingeWork u y :=
  ⟨k.cex.trans h.cex, k.grp.trans h.grp, k.media.trans h.media, k.net.trans h.net, k.v.trans h.v, fun a d low => (k.regs a d low).trans (h.regs a d low)⟩

theorem notice (h : NoticeOnly u x) : HingeWork u x := by
  obtain ⟨-, regs, -⟩ := id h
  exact ⟨h.cex, h.grp, h.media, h.net, h.v, fun a d low => regs a d (by unfold teleAddr; omega)⟩

theorem counts (h : CountsOnly u x) : HingeWork u x := notice (.counts h)

theorem putF (u : Units) (f : Fld) (i j v : Nat) (high : 0x600000 ≤ f.reg.info.base) : HingeWork u (putF u f i j v) :=
  ⟨rfl, rfl, rfl, rfl, rfl, fun a d low => tabGetD_putD_other (by have := regAddr_base_le f.reg i j; omega) ..⟩

theorem getF (h : HingeWork u x) (f : Fld) (i j : Nat) (low : regAddr f.reg i j < 0x600000) : getF x f i j = Machine.getF u f i j := by
  unfold Machine.getF rawReg
  rw [h.regs _ _ low, h.v]

theorem freed (u : Units) (k : Nat) : HingeWork u { u with fresh := k } := same rfl rfl rfl rfl rfl rfl

theorem closeBlock (u : Units) : HingeWork u (closeBlock u) := by
  unfold Machine.closeBlock
  dsimp only
  split
  · exact refl u
  · exact same rfl rfl rfl rfl rfl rfl

theorem journal (u : Units) (t i v a : Nat) : HingeWork u (journal u t i v a) := by
  unfold Machine.journal
  dsimp only
  split
  · exact (hinge u _).trans (closeBlock _)
  · exact same rfl rfl rfl rfl rfl rfl

theorem checkPool (u : Units) : HingeWork u (checkPool u) := by
  unfold Machine.checkPool
  split
  · split
    · refine (hinge u { u.hng with lowArmed := false }).trans ((putF _ F.HNG_ERR_pool_low 0 0 1 (by decide)).trans ?_)
      exact (counts (emitEvent_only ..)).trans (notice (.notice ..))
    · exact refl u
  · exact same rfl rfl rfl rfl rfl rfl

theorem putPip (u : Units) (p e : Nat) (joined : Bool) : HingeWork u (putPip u p e joined) := by
  unfold Machine.putPip
  dsimp only
  refine HingeWork.trans ?_ (checkPool _)
  have written : HingeWork u (Machine.journal { moveCounts u p (pState (pipEntry u p)) (pState e) joined with
      hng := { (moveCounts u p (pState (pipEntry u p)) (pState e) joined).hng with pip := tabPutD (moveCounts u p (pState (pipEntry u p)) (pState e) joined).hng.pip p (pipFirst (moveCounts u p (pState (pipEntry u p)) (pState e) joined) p) e } } 2 p e 0) :=
    (hinge u _).trans (journal ..)
  split
  · exact written
  · exact written.trans (putF _ _ _ _ _ (by decide))

theorem addWear (u : Units) (p : Nat) : HingeWork u (addWear u p) := by
  unfold Machine.addWear takeFree
  dsimp only
  split
  · split
    · exact (freed u _).trans (putPip ..)
    · exact freed u _
  · exact freed u _

theorem addWork (u : Units) (w : Work) : HingeWork u (addWork u w) := by
  unfold Machine.addWork
  dsimp only
  split
  · exact refl u
  · split
    · exact same rfl rfl rfl rfl rfl rfl
    · exact same rfl rfl rfl rfl rfl rfl

theorem addTally (u : Units) (p l n : Nat) : HingeWork u (addTally u p l n) := by
  unfold Machine.addTally
  dsimp only
  split
  · exact refl u
  · have first : HingeWork u (putTally u p (min 31 (pTally (pipEntry u p) + n))) := hinge ..
    split
    · exact first.trans ((addWork ..).trans (putF _ _ _ _ _ (by decide)))
    · exact first

end HingeWork

/-! ### Lines received (R38, R201, R397) -/

theorem tabFind_map (f : α → α) (k : Nat) (l : List (Nat × α)) : tabFind k (l.map fun c => (c.1, f c.2)) = (tabFind k l).map f := by
  induction l with
  | nil => rfl
  | cons c t ih =>
    obtain ⟨a, v⟩ := c
    by_cases h : a = k
    · simp [tabFind, h]
    · simpa [tabFind, h] using ih

/-- A table whose cells are all changed by one rule that leaves the default alone. -/
theorem tabGet_map [Inhabited α] (f : α → α) (keeps : f default = default) (t : Tab α) (k : Nat) : tabGet ⟨t.cells.map fun c => (c.1, f c.2)⟩ k = f (tabGet t k) := by
  unfold tabGet tabGetD
  rw [tabFind_map]
  cases tabFind k t.cells with
  | none => exact keeps.symm
  | some v => rfl

/-- What the end of a read leaves of the channels: only READs that wait at their dies fall away. -/
structure Unqueued (u x : Units) : Prop where
  cur : ∀ n, (cex x n).cur = (cex u n).cur
  die : ∀ n d, ∃ q, q.Sublist (dieOf u n d).queue ∧ dieOf x n d = { dieOf u n d with queue := q }
  grp : x.grp = u.grp
  net : x.net = u.net

namespace Unqueued

theorem refl (u : Units) : Unqueued u u := ⟨fun _ => rfl, fun _ _ => ⟨_, .refl _, rfl⟩, rfl, rfl⟩

theorem trans (h : Unqueued u x) (k : Unqueued x y) : Unqueued u y := by
  refine ⟨fun n => (k.cur n).trans (h.cur n), fun n d => ?_, k.grp.trans h.grp, k.net.trans h.net⟩
  obtain ⟨q, sub, eq⟩ := h.die n d
  obtain ⟨q', sub', eq'⟩ := k.die n d
  rw [eq] at sub' eq'
  exact ⟨q', sub'.trans sub, eq'⟩

theorem foldl {f : Units → Nat → Units} (h : ∀ u a, Unqueued u (f u a)) (l : List Nat) (u : Units) : Unqueued u (l.foldl f u) := by
  induction l generalizing u with
  | nil => exact refl u
  | cons a l ih => exact (h u a).trans (ih _)

/-- The READs of one read at the dies of a channel fall away. -/
theorem channel (u : Units) (n id : Nat) :
    Unqueued u (setCex u n { cex u n with dies := ⟨(cex u n).dies.cells.map fun c => (c.1, { c.2 with queue := c.2.queue.filter fun r => r.rid != id })⟩ }) := by
  refine ⟨fun k => ?_, fun k d => ?_, rfl, rfl⟩
  · by_cases h : k = n
    · rw [h, cex_setCex]
    · exact congrArg Cex.cur (tabGet_put_other h ..)
  · by_cases h : k = n
    · subst h
      refine ⟨(dieOf u k d).queue.filter fun r => r.rid != id, List.filter_sublist, ?_⟩
      unfold dieOf
      rw [cex_setCex]
      exact tabGet_map (fun x : Die => { x with queue := x.queue.filter fun r => r.rid != id }) rfl ..
    · refine ⟨_, .refl _, ?_⟩
      unfold dieOf
      rw [show cex (setCex u n _) k = cex u k from tabGet_put_other h ..]

end Unqueued

/-- A read that ends: it is dropped, with the READs it has waiting. -/
theorem dropRead_does (u : Units) (g id : Nat) : Unqueued (setGrp u g { grp u g with reads := (grp u g).reads.filter fun y => y.id != id }) (dropRead u g id) := by
  unfold dropRead
  refine Unqueued.foldl (fun u q => ?_) _ _
  dsimp only
  split
  · exact .channel ..
  · exact .refl _

theorem readOf_dropRead (u : Units) (g id : Nat) : readOf (dropRead u g id) g id = none := by
  have here : grp (dropRead u g id) g = { grp u g with reads := (grp u g).reads.filter fun y => y.id != id } := (congrArg (tabGet · g) (dropRead_does u g id).grp).trans (grp_setGrp ..)
  unfold readOf
  rw [here, List.find?_eq_none]
  intro r mem
  rw [List.mem_filter] at mem
  simpa using mem.2

theorem readOf_putRead {g : Nat} {r r' : MRead} (found : readOf u g r.id = some r') : readOf (putRead u g r) g r.id = some r := by
  unfold readOf putRead at *
  dsimp only
  rw [grp_setGrp]
  dsimp only
  generalize (grp u g).reads = l at found
  induction l with
  | nil => cases found
  | cons a t ih =>
    by_cases h : a.id = r.id
    · simp [h]
    · rw [List.find?_cons_of_neg (by simpa using h)] at found
      rw [List.map_cons, if_neg h, List.find?_cons_of_neg (by simpa using h)]
      exact ih found

/-- The answer of a clean fill: a LINE_RET to its requester carries the line. -/
theorem finishFill_answers {g : Nat} {k : Pkt} {l : MLine} (clean : nbits l.metaWord 24 1 = 0) (read : k.kind = .read) (direct : k.bound = false) :
    ∃ y ∈ (finishFill u g k (.line l false)).net, y.typ = .lineRet ∧ y.dst = k.handle ∧ y.lla = k.lla ∧ y.port = k.port ∧ y.ord = k.ord ∧ y.data = l.data := by
  unfold finishFill
  dsimp only
  rw [if_neg (by rw [clean]; decide)]
  unfold fillBack
  dsimp only
  rw [if_pos ⟨rfl, direct, .inl read⟩]
  exact ⟨_, mem_send .., rfl, rfl, rfl, rfl, rfl, rfl⟩

theorem fillBack_keeps (u : Units) (g : Nat) (k t : Pkt) (b : Bool) : (fillBack u g k t b).cex = u.cex ∧ (fillBack u g k t b).grp = u.grp := by
  unfold fillBack
  dsimp only
  split
  · exact ⟨rfl, rfl⟩
  · exact ⟨rfl, rfl⟩

theorem finishFill_keeps {g : Nat} {k : Pkt} (l : MLine) (x : Bool) : (finishFill u g k (.line l x)).cex = u.cex ∧ (finishFill u g k (.line l x)).grp = u.grp := by
  unfold finishFill
  dsimp only
  split
  · exact fillBack_keeps ..
  · exact fillBack_keeps ..

/-- A direct read whose line has been found good ends: its answer goes out, and it is dropped. -/
theorem resolveRead_serves {g : Nat} {r : MRead} (found : readOf u g r.id = some r) (use : r.use = .fill) (on : r.direct.on = true) (ended : r.direct.ended = true) (ok : r.direct.ok = true) (line : r.direct.zero = false) :
    ∃ w, HingeWork u w ∧ resolveRead u g r.id = finishFill (dropRead w g r.id) g r.pkt (.line r.direct.line false) := by
  obtain ⟨a, ha⟩ : ∃ a, a = if r.retried then addTally u r.pkt.prn (readRegion r) 2 else u := ⟨_, rfl⟩
  have first : HingeWork u a := by
    rw [ha]
    split
    · exact .addTally ..
    · exact .refl u
  have second : HingeWork a (servedOld a r) := by
    unfold servedOld
    split
    · exact .putF _ _ _ _ _ (by decide)
    · exact .refl a
  refine ⟨servedOld a r, first.trans second, ?_⟩
  unfold resolveRead finishRead
  simp only [found, use, on, ended, ok, line, and_self, if_true, Bool.false_eq_true, if_false]
  rw [ha]

/-- A good line of a direct read is settled. -/
theorem directLine_settles {g : Nat} {r : MRead} {l : MLine} (gen : nbits l.metaWord 0 16 = r.pkt.gen) (check : nbits l.metaWord 32 32 = addrCheck r.pkt.lla) :
    directLine u g r (some l) = putRead u g { r with direct := { r.direct with ended := true, ok := true, zero := false, line := l } } := by
  unfold directLine settleLine
  dsimp only
  rw [if_neg (not_not.mpr gen), if_neg (not_not.mpr check)]

theorem resolveRead_gone {g id : Nat} (gone : readOf u g id = none) : resolveRead u g id = u := by
  unfold resolveRead
  rw [gone]

theorem mediaDecode_clean (u : Units) : mediaDecode u 0 = (.clean, u) := by
  unfold mediaDecode
  dsimp only
  have weight (i : Nat) : innerWeight 0 i = 0 := by simp [innerWeight, bitCount, nbits]
  rw [if_pos (by simp [weight])]

theorem cex_congr (h : x.cex = u.cex) (n : Nat) : cex x n = cex u n := congrArg (tabGet · n) h

theorem dieOf_congr (h : x.cex = u.cex) (n d : Nat) : dieOf x n d = dieOf u n d := by unfold dieOf; rw [cex_congr h]

theorem readOf_congr (h : x.grp = u.grp) (g id : Nat) : readOf x g id = readOf u g id := by unfold readOf grp; rw [h]

/-- A direct read whose line has been found good: it is over, its answer is out, and of the channels only its READs that wait fall away. -/
theorem settleRead2_serves {g : Nat} {r : MRead} (found : readOf u g r.id = some r) (use : r.use = .fill) (on : r.direct.on = true) (ended : r.direct.ended = true) (ok : r.direct.ok = true) (line : r.direct.zero = false)
    (clean : nbits r.direct.line.metaWord 24 1 = 0) (read : r.pkt.kind = .read) (unbound : r.pkt.bound = false) : let t := settleRead2 u g r.id
    readOf t g r.id = none ∧ (∀ n, (cex t n).cur = (cex u n).cur) ∧ (∀ n d, ∃ q, q.Sublist (dieOf u n d).queue ∧ dieOf t n d = { dieOf u n d with queue := q }) ∧
      ∃ k ∈ t.net, k.typ = .lineRet ∧ k.dst = r.pkt.handle ∧ k.lla = r.pkt.lla ∧ k.port = r.pkt.port ∧ k.ord = r.pkt.ord ∧ k.data = r.direct.line.data := by
  obtain ⟨w, work, serves⟩ := resolveRead_serves found use on ended ok line
  obtain ⟨answered_cex, answered_grp⟩ := finishFill_keeps (u := dropRead w g r.id) (g := g) (k := r.pkt) r.direct.line false
  have answer := finishFill_answers (u := dropRead w g r.id) (g := g) clean read unbound
  rw [← serves] at answered_cex answered_grp answer
  have gone : readOf (resolveRead u g r.id) g r.id = none := (readOf_congr answered_grp ..).trans (readOf_dropRead ..)
  intro t
  have shape : t = resolveRead u g r.id := by
    simp only [t, settleRead2]
    rw [resolveRead_gone gone, resolveRead_gone gone]
  rw [shape]
  have dropped := dropRead_does w g r.id
  refine ⟨gone, fun n => ?_, fun n d => ?_, answer⟩
  · rw [cex_congr answered_cex, dropped.cur]
    exact congrArg Cex.cur (cex_congr work.cex n)
  · obtain ⟨q, sub, eq⟩ := dropped.die n d
    have same : dieOf (setGrp w g { grp w g with reads := (grp w g).reads.filter fun y => y.id != r.id }) n d = dieOf u n d := dieOf_congr work.cex n d
    rw [same] at sub eq
    exact ⟨q, sub, (dieOf_congr answered_cex n d).trans eq⟩

/-- The line of a fill comes in good: it goes to its requester, and the bus, the die's result and the read are done. -/
theorem lineReceivedOp_serves {z : Xfer} {dr : DRead} {r : MRead} (cur : (cex u n).cur = some z) (result : (dieOf u n z.die).result = some dr) (st : (dieOf u n z.die).st = .idle) (queue : (dieOf u n z.die).queue = [])
    (found : readOf u (n / 9) dr.rid = some r) (first : dr.detour = false) (use : r.use = .fill) (on : r.direct.on = true) (read : r.pkt.kind = .read) (unbound : r.pkt.bound = false)
    (good : ((patchOf u n z.die dr.dla).getD ((dieOf u n z.die).chip.reg.getD {})).bad = false) (gen : nbits ((patchOf u n z.die dr.dla).getD ((dieOf u n z.die).chip.reg.getD {})).metaWord 0 16 = r.pkt.gen)
    (clean : nbits ((patchOf u n z.die dr.dla).getD ((dieOf u n z.die).chip.reg.getD {})).metaWord 24 1 = 0)
    (check : nbits ((patchOf u n z.die dr.dla).getD ((dieOf u n z.die).chip.reg.getD {})).metaWord 32 32 = addrCheck r.pkt.lla) : let t := lineReceivedOp u n 0
    (cex t n).cur = none ∧ (dieOf t n z.die).result = none ∧ readOf t (n / 9) dr.rid = none ∧ ∃ k ∈ t.net, k.typ = .lineRet ∧ k.dst = r.pkt.handle ∧ k.lla = r.pkt.lla ∧ k.port = r.pkt.port ∧ k.ord = r.pkt.ord ∧
      k.data = ((patchOf u n z.die dr.dla).getD ((dieOf u n z.die).chip.reg.getD {})).data := by
  obtain ⟨l, hl⟩ : ∃ l, l = (patchOf u n z.die dr.dla).getD ((dieOf u n z.die).chip.reg.getD {}) := ⟨_, rfl⟩
  rw [← hl] at good gen clean check ⊢
  have rid : r.id = dr.rid := by
    unfold readOf at found
    simpa using List.find?_some found
  obtain ⟨a, ha⟩ : ∃ a, a = captureMove (setCex u n { cex u n with cur := none }) n z.die := ⟨_, rfl⟩
  have bus : cex a n = { cex u n with cur := none } := by rw [ha]; exact cex_setCex ..
  have die : dieOf a n z.die = dieOf u n z.die := by unfold dieOf; rw [bus]
  obtain ⟨b, hb⟩ : ∃ b, b = setDie a n z.die { dieOf u n z.die with result := none } := ⟨_, rfl⟩
  have bus_b : (cex b n).cur = none ∧ (cex b n).patches = (cex u n).patches := by rw [hb, cex_setDie, bus]; exact ⟨rfl, rfl⟩
  have die_b : dieOf b n z.die = { dieOf u n z.die with result := none } := by rw [hb, dieOf_setDie]
  have groups : b.grp = u.grp := by rw [hb, ha]; rfl
  have patch : patchOf b n z.die dr.dla = patchOf u n z.die dr.dla := by unfold patchOf; rw [bus_b.2]
  have found_b : readOf b (n / 9) r.id = some r := by unfold readOf grp; rw [groups, rid]; exact found
  obtain ⟨r', hr'⟩ : ∃ r', r' = { r with direct := { r.direct with ended := true, ok := true, zero := false, line := l } } := ⟨_, rfl⟩
  have id' : r'.id = r.id := by rw [hr']
  obtain ⟨p, hp⟩ : ∃ p, p = putRead b (n / 9) r' := ⟨_, rfl⟩
  have found_p : readOf p (n / 9) r'.id = some r' := by rw [hp]; exact readOf_putRead (id' ▸ found_b)
  have served := settleRead2_serves found_p (by rw [hr']; exact use) (by rw [hr']; exact on) (by rw [hr']) (by rw [hr']) (by rw [hr']) (by rw [hr']; exact clean) (by rw [hr']; exact read) (by rw [hr']; exact unbound)
  obtain ⟨e, he⟩ : ∃ e, e = settleRead2 p (n / 9) r'.id := ⟨_, rfl⟩
  rw [← he] at served
  obtain ⟨gone, cur_e, die_e, answer⟩ := served
  have p_cex : p.cex = b.cex := by rw [hp]; exact setGrp_cex ..
  obtain ⟨q, sub, die_e⟩ := die_e n z.die
  rw [dieOf_congr p_cex, die_b] at sub die_e
  have empty : q = [] := List.sublist_nil.mp (queue ▸ sub)
  intro t
  have shape : t = tryResume (dieGo e n z.die) n z.die := by
    have decoded : decodeLine b n l (if (patchOf u n z.die dr.dla).isSome then 0 else 0) = (some l, false, b) := by
      unfold decodeLine
      rw [good, ite_self, mediaDecode_clean]
      rfl
    have find : readOf b (n / 9) dr.rid = some r := rid ▸ found_b
    simp only [t, lineReceivedOp, cur, ← ha, die, result, ← hb, patch, find, ← hl, decoded, first, Bool.false_eq_true, false_and, if_false]
    rw [directLine_settles gen check, ← hr', ← hp, ← id', ← he]
  rw [shape, dieGo_rests (by rw [die_e]; exact empty), tryResume_rests (by rw [die_e]; show (dieOf u n z.die).st ≠ _; rw [st]; decide)]
  refine ⟨(cur_e n).trans ((congrArg Cex.cur (cex_congr p_cex n)).trans bus_b.1), by rw [die_e], by rw [← rid, ← id']; exact gone, ?_⟩
  rw [hr'] at answer
  exact answer

/-! ### Programs that complete (R287, R330) -/

theorem bufOf_congr (h : x.grp = u.grp) (g id : Nat) : bufOf x g id = bufOf u g id := by unfold bufOf grp; rw [h]

/-- A slot that has been programmed: its line lies in the die, and its entry waits for one die fewer. -/
theorem slotDone_passes {id : Nat} {b : SBuf} (entry : bufOf u (n / 9) id = some b) :
    slotDone u n d id false = putBuf { u with media := tabPut u.media (mediaKey n d b.dla) (bufLine b (n % 9)) } (n / 9) { b with todo := b.todo.erase (n % 9) } := by
  unfold slotDone
  simp only [entry, Bool.false_eq_true, false_and, if_false]

theorem stripeDone_waits {g id : Nat} {b : SBuf} (entry : bufOf u g id = some b) (waits : b.todo ≠ []) : stripeDone u g id = u := by
  unfold stripeDone
  simp only [entry]
  rw [if_pos (.inr (.inl waits))]

theorem stripeDone_full {g id sl : Nat} {b : SBuf} (entry : bufOf u g id = some b) (done : b.todo = []) (formed : b.formed = true) (full : b.want = 8) (use : b.use = .destage sl) :
    stripeDone u g id = addWear (count (addSat u F.MS_g_WRITES_full g 0 1) (cGrp g 4)) b.prn := by
  unfold stripeDone clearIdle
  simp only [entry, done, formed, use, full, Bool.true_eq_false, Bool.false_eq_true, not_true_eq_false, ne_eq, or_self, if_false, beq_self_eq_true, if_true]

/-- A program of one slot that passes, of a die with no read waiting. -/
theorem programCompleteOp_passes {pfail slot id : Nat} {b : SBuf} (st : (dieOf u n d).st = .programming) (running : (dieOf u n d).running = [(slot, id)]) (passed : nbits pfail slot 1 = 0)
    (entry : bufOf u (n / 9) id = some b) (queue : (dieOf u n d).queue = []) (low : n < 72) (known : b.todo.erase (n % 9) ≠ [] ∨ (b.formed = true ∧ b.want = 8 ∧ ∃ sl, b.use = .destage sl)) : let t := programCompleteOp u n d pfail
    (dieOf t n d).st = .idle ∧ (dieOf t n d).running = [] ∧ t.media = tabPut u.media (mediaKey n d b.dla) (bufLine b (n % 9)) ∧ bufOf t (n / 9) id = some { b with todo := b.todo.erase (n % 9) } ∧
      (b.todo.erase (n % 9) = [] → getF t F.MS_g_WRITES_full (n / 9) = min (getF u F.MS_g_WRITES_full (n / 9) + 1) 65535) := by
  have bid : b.id = id := by
    unfold bufOf at entry
    simpa using List.find?_some entry
  obtain ⟨a, ha⟩ : ∃ a, a = setDie u n d { dieOf u n d with st := .idle, pgm := false, suspSent := false, running := [], chip := (dieOf u n d).chip.completes pfail } := ⟨_, rfl⟩
  have entry_a : bufOf a (n / 9) id = some b := by rw [ha]; exact entry
  have die_a : dieOf a n d = { dieOf u n d with st := .idle, pgm := false, suspSent := false, running := [], chip := (dieOf u n d).chip.completes pfail } := by rw [ha, dieOf_setDie]
  obtain ⟨w, hw⟩ : ∃ w, w = putBuf { a with media := tabPut a.media (mediaKey n d b.dla) (bufLine b (n % 9)) } (n / 9) { b with todo := b.todo.erase (n % 9) } := ⟨_, rfl⟩
  have entry_w : bufOf w (n / 9) id = some { b with todo := b.todo.erase (n % 9) } := by
    rw [hw, ← bid]
    exact bufOf_putBuf (b := { b with todo := b.todo.erase (n % 9) }) (c := b) (by rw [← bid] at entry_a; exact entry_a)
  have media_w : w.media = tabPut u.media (mediaKey n d b.dla) (bufLine b (n % 9)) := by rw [hw, ha]; rfl
  have cex_w : w.cex = a.cex := by rw [hw]; exact setGrp_cex ..
  have regs_w : w.regs = u.regs ∧ w.v = u.v := by rw [hw, ha]; exact ⟨rfl, rfl⟩
  obtain ⟨y, hy⟩ : ∃ y, y = stripeDone w (n / 9) id := ⟨_, rfl⟩
  have after : y.cex = w.cex ∧ y.grp = w.grp ∧ y.media = w.media ∧ (b.todo.erase (n % 9) = [] → getF y F.MS_g_WRITES_full (n / 9) = min (getF u F.MS_g_WRITES_full (n / 9) + 1) 65535) := by
    by_cases waits : b.todo.erase (n % 9) = []
    · obtain ⟨formed, full, sl, use⟩ := known.resolve_left (not_not.mpr waits)
      rw [stripeDone_full entry_w waits formed full use] at hy
      have below : regAddr F.MS_g_WRITES_full.reg (n / 9) 0 < 0x600000 := by
        simp only [F.MS_g_WRITES_full, regAddr, Reg.info]
        omega
      have counted := HingeWork.counts (count_only (addSat w F.MS_g_WRITES_full (n / 9) 0 1) (cGrp (n / 9) 4))
      have worn := HingeWork.addWear (count (addSat w F.MS_g_WRITES_full (n / 9) 0 1) (cGrp (n / 9) 4)) b.prn
      have both := counted.trans worn
      rw [← hy] at both
      refine ⟨both.cex, both.grp, both.media, fun _ => ?_⟩
      rw [both.getF _ _ _ below, getF_addSat_same _ _ _ _ _ (by decide)]
      unfold getF rawReg
      rw [regs_w.1, regs_w.2]
      rfl
    · rw [stripeDone_waits entry_w waits] at hy
      rw [hy]
      exact ⟨rfl, rfl, rfl, fun done => absurd done waits⟩
  obtain ⟨cexes, groups, media, counts⟩ := after
  have die_y : dieOf y n d = dieOf a n d := (dieOf_congr cexes ..).trans (dieOf_congr cex_w ..)
  intro t
  have shape : t = y := by
    have pass : (nbits pfail slot 1 == 1) = false := by rw [passed]; rfl
    simp only [t, programCompleteOp, st, ne_eq, not_true_eq_false, if_false, running, List.foldl_cons, List.foldl_nil, pass]
    rw [← ha, slotDone_passes entry_a, ← hw, ← hy]
    exact dieGo_rests (by rw [die_y, die_a]; exact queue)
  rw [shape, die_y, die_a, media, media_w, bufOf_congr groups, entry_w]
  exact ⟨rfl, rfl, rfl, rfl, counts⟩

/-- Settles O47: how a die's BSY_N rises, what the free bus takes, what a line that comes in good answers, and what a program that passes leaves. -/
theorem diesAndBusesAdvance : Obligations.DiesAndBusesAdvance := by
  unfold Obligations.DiesAndBusesAdvance
  intro s n d runs hd x y framed
  have low := cexRuns_lt runs
  have rises : exec (.bsyNRise n d) s = .next { s with u := bsyRiseOp s.ctl (fresh s) n d } :=
    (exec_bsyNRise n d s).trans (onU_next (if_pos (by rw [show cexRuns (fresh s) n = true from runs, decide_eq_true hd]; rfl)))
  refine ⟨fun r st cur kept => ?_, fun r st asked queue owner result free => ?_, fun rest free none_ z lost one die ready => ⟨fun dout => ?_, fun b load entry slots => ?_⟩, ?_, ?_⟩
  · obtain ⟨media, die, queued⟩ := bsyRise_senses (u := fresh s) (c := s.ctl) st cur kept
    exact ⟨_, rises, rfl, media, die, queued⟩
  · obtain ⟨senses, cur, pgm, sent⟩ := bsyRise_suspends (u := fresh s) (c := s.ctl) low st asked queue owner result free
    exact ⟨_, rises, senses, cur, pgm, sent⟩
  · subst die
    have goes : exec (.dqTransfer ⟨n, lost⟩) s = .next { s with u := dqTransferOp (fresh s) n lost } :=
      (exec_dqTransfer ..).trans (onU_next ((if_pos runs).trans (congrArg (dqTransferOp · n lost) (retryDies_rests (u := fresh s) free rest))))
    obtain ⟨cur, xq, sent⟩ := dqTransferOp_dout (u := fresh s) lost none_ one ready dout (rest z.die hd).2
    exact ⟨_, goes, cur, xq, sent⟩
  · subst die
    have takes : dqTransferOp (fresh s) n lost = loadLine (setCex (fresh s) n { cex s.u n with xq := [] }) n z lost := by
      have := dqTransferOp_takes (u := fresh s) lost none_ one ready
      rw [load] at this
      exact this
    have goes : exec (.dqTransfer ⟨n, lost⟩) s = .next { s with u := loadLine (setCex (fresh s) n { cex s.u n with xq := [] }) n z lost } :=
      (exec_dqTransfer ..).trans (onU_next ((if_pos runs).trans ((congrArg (dqTransferOp · n lost) (retryDies_rests (u := fresh s) free rest)).trans takes)))
    obtain ⟨w, hw⟩ : ∃ w, w = setCex (fresh s) n { cex s.u n with xq := [] } := ⟨_, rfl⟩
    have bus : cex w n = { cex s.u n with xq := [] } := by rw [hw, cex_setCex]
    have die : dieOf w n z.die = dieOf s.u n z.die := by unfold dieOf; rw [bus]
    have groups : w.grp = s.u.grp := by rw [hw]; exact setCex_grp ..
    rw [← hw] at goes
    obtain ⟨xq, slots', sent⟩ := loadLine_does (u := w) lost ((bufOf_congr groups ..).trans entry) (by rw [die]; exact slots)
    rw [bus] at xq
    rw [die] at sent
    have round : grp w (n / 9) = grp s.u (n / 9) := congrArg (tabGet · (n / 9)) groups
    rw [round] at slots'
    exact ⟨_, goes, xq, slots', sent⟩
  · intro z dr r cur die result st queue found first use on read unbound l good gen clean check
    subst die
    obtain ⟨none_, taken, gone, k, mem, answer⟩ := lineReceivedOp_serves (u := fresh s) cur result st queue found first use on read unbound good gen clean check
    exact ⟨_, k, (exec_mediaLineReceived ..).trans (onU_next (if_pos runs)), none_, taken, gone, mem, answer⟩
  · intro pfail slot id b st running passed entry queue known
    obtain ⟨idle, stopped, media, buf, counts⟩ := programCompleteOp_passes (u := fresh s) st running passed entry queue low known
    refine ⟨_, (exec_programComplete ..).trans (onU_next (if_pos (by rw [show cexRuns (fresh s) n = true from runs, decide_eq_true hd]; rfl))), idle, stopped, ?_, fun k other => ?_, buf, counts⟩
    · exact (congrArg (tabGet · _) media).trans (tabGet_put_same ..)
    · exact (congrArg (tabGet · k) media).trans (tabGet_put_other other ..)

end

end Sys2Proof.Machine
end

section
/-! PROOF. The windows of a media group, programs, link checks, calibration, temperature readings and late dies (R303 to R307, R312, R313, R388). -/

namespace Sys2Proof.Machine

section
variable {u x y : Units} {n d : Nat}

/-! ### What work at the dies leaves of a scheduler -/

theorem frame_grp (u : Units) (n op d arg : Nat) : (frame u n op d arg).grp = u.grp := by rw [frame_eq]; rfl

theorem order_grp (u : Units) (n op d arg : Nat) (f : Die → Die) : (order u n op d arg f).grp = u.grp := by
  rw [order_eq]
  exact (setCex_grp ..).trans (frame_grp ..)

theorem senseRead_grp (u : Units) (n d : Nat) (r : DRead) : (senseRead u n d r).grp = u.grp := by
  unfold senseRead
  dsimp only
  rw [count_grp, order_grp]
  split
  · rfl
  · exact frame_grp ..

theorem dieGo_grp (u : Units) (n d : Nat) : (dieGo u n d).grp = u.grp := by
  unfold dieGo
  dsimp only
  split
  · rfl
  · split
    · split
      · rfl
      · exact senseRead_grp ..
    · split
      · rfl
      · exact senseRead_grp ..
    · split
      · rfl
      · exact order_grp ..
    · rfl
    · rfl

theorem ite_grp {p : Prop} [Decidable p] (h : x.grp = u.grp) : (if p then x else u).grp = u.grp := by
  split
  · exact h
  · rfl

theorem tryResume_grp (u : Units) (n d : Nat) : (tryResume u n d).grp = u.grp := by
  unfold tryResume
  exact ite_grp (order_grp ..)

theorem suspendDie_grp (u : Units) (n d : Nat) : (suspendDie u n d).grp = u.grp := by
  unfold suspendDie
  dsimp only
  split
  · exact order_grp ..
  · rfl

theorem capPrograms_grp (u : Units) (n : Nat) : (capPrograms u n).grp = u.grp := by
  refine foldl_same (g := Units.grp) (fun u d => ?_) ..
  split
  · exact suspendDie_grp ..
  · rfl

/-! ### Phases (R312) -/

/-- A scheduler whose next phase has begun. -/
def nextPhase (u : Units) (x : Grp) : Grp :=
  let p := (x.phase + 1) % 9
  let x := { x with phase := p, phaseAt := u.now, round := if p = 0 then x.round + 1 else x.round }
  if p = 0 then { x with table := ⟨x.nextTable.cells.foldl (fun t c => tabInsert c.1 c.2 t) x.table.cells⟩, nextTable := tabNil } else x

theorem nextPhase_does (u : Units) (x : Grp) : let p := (x.phase + 1) % 9
    (nextPhase u x).phase = p ∧ (nextPhase u x).phaseAt = u.now ∧ (nextPhase u x).round = (if p = 0 then x.round + 1 else x.round) ∧ (nextPhase u x).bufs = x.bufs ∧ (nextPhase u x).reads = x.reads := by
  unfold nextPhase
  dsimp only
  split <;> exact ⟨rfl, rfl, rfl, rfl, rfl⟩

theorem unblock_rests {g : Nat} (open_ : ∀ r ∈ (grp u g).reads, r.direct.blocked = false ∧ r.detour.blocked = false) : unblock u g = u := by
  have none_ : ((grp u g).reads.filter fun r => r.direct.blocked || r.detour.blocked) = [] := by
    rw [List.filter_eq_nil_iff]
    intro r mem
    obtain ⟨first, second⟩ := open_ r mem
    rw [first, second]
    decide
  unfold unblock
  rw [none_]
  rfl

theorem phaseStartOp_grp {g : Nat} (open_ : ∀ r ∈ (grp u g).reads, r.direct.blocked = false ∧ r.detour.blocked = false) : grp (phaseStartOp u g) g = nextPhase u (grp u g) := by
  obtain ⟨-, -, -, -, reads⟩ := nextPhase_does u (grp u g)
  obtain ⟨a, ha⟩ : ∃ a, a = setGrp u g (nextPhase u (grp u g)) := ⟨_, rfl⟩
  obtain ⟨b, hb⟩ : ∃ b, b = setCex a (9 * g + ((grp u g).phase + 1) % 9) { cex a (9 * g + ((grp u g).phase + 1) % 9) with
    dies := ⟨(cex a (9 * g + ((grp u g).phase + 1) % 9)).dies.cells.map fun c => (c.1, { c.2 with started := false })⟩ } := ⟨_, rfl⟩
  obtain ⟨e, he⟩ : ∃ e, e = capPrograms ((List.range 8).foldl (fun u d => tryResume (dieGo u (9 * g + (grp b g).phase) d) (9 * g + (grp b g).phase) d) b) (9 * g + (grp b g).phase) := ⟨_, rfl⟩
  obtain ⟨f, hf⟩ : ∃ f, f = capPrograms ((List.range 8).foldl (fun v d => tryResume (dieGo v (9 * g + (grp u g).phase) d) (9 * g + (grp u g).phase) d) b) (9 * g + (grp u g).phase) := ⟨_, rfl⟩
  have shape : phaseStartOp u g = unblock f g := by rw [hf, hb, ha]; rfl
  have groups : f.grp = a.grp := by
    rw [hf, capPrograms_grp]
    refine (foldl_same (g := Units.grp) (fun v d => (tryResume_grp ..).trans (dieGo_grp ..)) ..).trans ?_
    rw [hb, setCex_grp]
  have here : grp f g = nextPhase u (grp u g) := (congrArg (tabGet · g) groups).trans (by rw [ha]; exact grp_setGrp ..)
  rw [shape, unblock_rests (by rw [here, reads]; exact open_), here]

/-! ### Programs (R304, R313) -/

theorem frame_safe_status (x : Die) (lines arg : Nat) : (tookFrame x lines 8 arg).chip.safe = x.chip.safe := tookFrame_safe x lines arg (.inr (.inr rfl))

/-- A capture move changes a free number and its own trim word. -/
theorem captureMove_eq (u : Units) (n d : Nat) : ∃ w, captureMove u n d = putTrim { u with fresh := u.fresh + 1 } (readTrim n d) w := ⟨_, rfl⟩

theorem captureMove_cex (u : Units) (n d : Nat) : (captureMove u n d).cex = u.cex := by obtain ⟨w, h⟩ := captureMove_eq u n d; rw [h]; rfl
theorem captureMove_out (u : Units) (n d : Nat) : (captureMove u n d).out = u.out := by obtain ⟨w, h⟩ := captureMove_eq u n d; rw [h]; rfl
theorem captureMove_now (u : Units) (n d : Nat) : (captureMove u n d).now = u.now := by obtain ⟨w, h⟩ := captureMove_eq u n d; rw [h]; rfl
theorem captureMove_drf (u : Units) (n d : Nat) : (captureMove u n d).drf = u.drf := by obtain ⟨w, h⟩ := captureMove_eq u n d; rw [h]; rfl
theorem captureMove_hng (u : Units) (n d : Nat) : (captureMove u n d).hng = u.hng := by obtain ⟨w, h⟩ := captureMove_eq u n d; rw [h]; rfl

/-- STATUS of a die: its frame goes out, the word is the die's, and the die's own state alone changes. -/
theorem askStatus_does (u : Units) (n d : Nat) : ∃ x, askStatus u n d = ((dieOf u n d).chip.status, x) ∧ x.out = u.out ++ [.cexus n (csMask [d]) (dieOf u n d).chip.safe (caBeats (frameWord 8 0))] ∧
    dieOf x n d = tookFrame (dieOf u n d) (dieLines u n d) 8 0 ∧ x.now = u.now := by
  have cexes : (captureMove (frame u n 8 d 0) n d).cex = (frame u n 8 d 0).cex := captureMove_cex ..
  have out : (captureMove (frame u n 8 d 0) n d).out = _ := (captureMove_out ..).trans (out_frame ..)
  have now : (captureMove (frame u n 8 d 0) n d).now = u.now := (captureMove_now ..).trans (by rw [frame_eq]; rfl)
  have die : dieOf (captureMove (frame u n 8 d 0) n d) n d = _ := (dieOf_congr cexes n d).trans (dieOf_frame ..)
  unfold askStatus
  dsimp only
  refine ⟨_, rfl, ?_⟩
  split
  · exact ⟨out, die, now⟩
  · exact ⟨out, die, now⟩

/-- A die with enough loaded slots, of which its STATUS misses none, starts its program. -/
theorem tryProgram_starts {c : Ctl} (st : (dieOf u n d).st = .idle) (some_ : (dieOf u n d).slots ≠ []) (enough : getF u F.MS_g_CFG_batch_min (n / 9) ≤ (dieOf u n d).slots.length) (cool : deferredDie c u n d = false)
    (awake : u.pwr.hushing = false) (loaded : ∀ z ∈ (dieOf u n d).slots, nbits (dieOf u n d).chip.status (8 + z.1) 1 = 1) : let t := tryProgram c u n d
    (.cexus n (csMask [d]) (dieOf u n d).chip.safe (caBeats (frameWord 8 0)) ∈ t.out) ∧ .cexus n (csMask [d]) (dieOf u n d).chip.safe (caBeats (frameWord 4 ((dieOf u n d).slots.map fun z => 2 ^ z.1).sum)) ∈ t.out ∧
      (dieOf t n d).st = .programming ∧ (dieOf t n d).pgm = true ∧ (dieOf t n d).running = (dieOf u n d).slots.map (fun z => (z.1, z.2.1)) ∧ (dieOf t n d).slots = [] := by
  obtain ⟨w, asked, sent, die, -⟩ := askStatus_does u n d
  obtain ⟨_, _, _, _, keeps⟩ := tookFrame_keeps (dieOf u n d) (dieLines u n d) 8 0
  have safe := frame_safe_status (dieOf u n d) (dieLines u n d) 0
  have slots : (dieOf w n d).slots = (dieOf u n d).slots := by rw [die, keeps]
  have whole : missingSlots u n d = ([], w) := by
    unfold missingSlots
    rw [asked]
    dsimp only
    rw [slots]
    congr 1
    rw [List.filter_eq_nil_iff]
    intro z mem
    rw [loaded z mem]
    decide
  intro t
  obtain ⟨o, ho⟩ : ∃ o, o = order w n 4 d ((dieOf u n d).slots.map fun z => 2 ^ z.1).sum fun x => { x with st := .programming, pgm := true, suspSent := false, reloaded := false, running := x.slots.map (fun s => (s.1, s.2.1)), slots := [] } := ⟨_, rfl⟩
  have shape : t = count o (cCex n 1) := by
    simp only [t, tryProgram]
    rw [if_pos ⟨st, some_, .inl enough, cool, awake⟩, whole]
    dsimp only
    rw [if_pos rfl, ho]
  obtain ⟨out, die'⟩ := order_does w n 4 d ((dieOf u n d).slots.map fun z => 2 ^ z.1).sum fun x => { x with st := .programming, pgm := true, suspSent := false, reloaded := false, running := x.slots.map (fun s => (s.1, s.2.1)), slots := [] }
  rw [← ho] at out die'
  obtain ⟨_, _, _, _, keeps'⟩ := tookFrame_keeps (dieOf w n d) (dieLines w n d) 4 ((dieOf u n d).slots.map fun z => 2 ^ z.1).sum
  rw [keeps', slots] at die'
  rw [shape, count_out, dieOf_count, die', out, sent, die, safe]
  exact ⟨List.mem_append_left _ (List.mem_append_right _ (List.mem_singleton_self _)), List.mem_append_right _ (List.mem_singleton_self _), rfl, rfl, rfl, rfl⟩

/-! ### Link checks (R303) -/

theorem tload_eq (u : Units) (n d : Nat) (w : BitVec 768) : ∃ c o t, tload u n d w = { u with cex := c, out := o } ∧ cex (tload u n d w) n = { cex u n with dies := t } := by
  unfold tload frameTo dieTakes
  dsimp only [List.foldl_cons, List.foldl_nil]
  exact ⟨_, _, _, rfl, cex_setDie ..⟩

/-- One point of a link check: of the channel only its dies change, and no write offset does. -/
theorem probe_keeps (u : Units) (n d : Nat) : (∃ t, cex (probe u n d) n = { cex u n with dies := t }) ∧ (∀ a, a ≠ readTrim n d → trimRaw (probe u n d) a = trimRaw u a) := by
  unfold probe takeFree
  dsimp only
  obtain ⟨c, o, t, same, bus⟩ := tload_eq { u with fresh := u.fresh + 1 } n d (BitVec.ofNat 768 (Config.freeNat u.fresh))
  obtain ⟨w, hw⟩ : ∃ w, w = tload { u with fresh := u.fresh + 1 } n d (BitVec.ofNat 768 (Config.freeNat u.fresh)) := ⟨_, rfl⟩
  rw [← hw] at same bus ⊢
  obtain ⟨t', bus'⟩ := cex_frame w n 1 d 2
  refine ⟨⟨t', ?_⟩, fun a other => ?_⟩
  · rw [cex_congr (captureMove_cex ..), bus', bus]
    rfl
  · have regs : (frame w n 1 d 2).regs = u.regs := by rw [frame_eq, same]; rfl
    obtain ⟨v, moved⟩ := captureMove_eq (frame w n 1 d 2) n d
    rw [moved, trimRaw_putTrim_other other]
    unfold trimRaw
    rw [← regs]

/-! ### Late dies (R307) -/

theorem dieGo_other (st : (dieOf u n d).st = .other) : dieGo u n d = u := by
  unfold dieGo
  dsimp only
  split
  · rfl
  · rw [st]

theorem reloadSlots_keeps (u : Units) (n d : Nat) (l : List (Nat × Nat × Nat)) : dieOf (reloadSlots u n d l) n d = dieOf u n d ∧ (reloadSlots u n d l).out = u.out := by
  unfold reloadSlots dieOf
  dsimp only
  rw [cex_setCex]
  exact ⟨rfl, rfl⟩

/-- A die without a program is reset: its slots are to be loaded once more. -/
theorem resetDie_does (running : (dieOf u n d).running = []) : let t := resetDie u n d
    (dieOf t n d).st = .other ∧ (dieOf t n d).slots = [] ∧ .cexus n (csMask [d]) (dieOf u n d).chip.safe (caBeats (frameWord 16 0)) ∈ t.out := by
  obtain ⟨a, ha⟩ : ∃ a, a = setDie u n d { dieOf u n d with running := [], pgm := false } := ⟨_, rfl⟩
  have aborted : abortProgram u n d = a := by
    unfold abortProgram
    dsimp only
    rw [running, ha]
    rfl
  have die_a : dieOf a n d = { dieOf u n d with running := [], pgm := false } := by rw [ha, dieOf_setDie]
  obtain ⟨b, hb⟩ : ∃ b, b = reloadSlots (setCex a n { cex a n with xq := (cex a n).xq.filter (fun t => t.load || t.die != d) }) n d (dieOf a n d).slots := ⟨_, rfl⟩
  have die_b : dieOf b n d = dieOf a n d := by
    rw [hb, (reloadSlots_keeps ..).1]
    unfold dieOf
    rw [cex_setCex]
  have out_b : b.out = u.out := by
    rw [hb, (reloadSlots_keeps ..).2, setCex_out, ha]
    exact setCex_out ..
  intro t
  have shape : ∃ back, t = order b n 16 d 0 fun x => { x with st := .other, pgm := false, suspSent := false, cur := none, result := none, queue := x.queue ++ back, slots := [], running := [], calibrating := false, reloaded := false } := by
    cases h : (dieOf a n d).result with
    | none =>
      refine ⟨[], ?_⟩
      simp only [t, resetDie, aborted, h]
      rw [hb]
    | some r =>
      refine ⟨[r], ?_⟩
      simp only [t, resetDie, aborted, h]
      rw [hb]
  obtain ⟨back, shape⟩ := shape
  obtain ⟨out, die⟩ := order_does b n 16 d 0 fun x => { x with st := .other, pgm := false, suspSent := false, cur := none, result := none, queue := x.queue ++ back, slots := [], running := [], calibrating := false, reloaded := false }
  rw [← shape] at out die
  rw [die, out, die_b, die_a]
  exact ⟨rfl, rfl, List.mem_append_right _ (List.mem_singleton_self _)⟩

theorem cexEvent_only (u : Units) (n d : Nat) : CountsOnly u (cexEvent u n d) := emitEvent_only ..

theorem cex_addr_below (low : n < 72) (r : Reg) (j : Nat) (base : r.info.base < 0x501000) (step : r.info.s1 = 0x1000) (inner : j * r.info.s2 < 0x1000) : regAddr r n j < teleAddr := by
  unfold regAddr teleAddr
  rw [step]
  omega

/-- The first late case of a die within a second. -/
theorem lateCase_first (low : n < 72) (none_ : (dieOf u n d).lateAt = []) : getF (lateCase u n d) F.CEX_n_ERR_late n = 1 ∧ (dieOf (lateCase u n d) n d).lateAt = [usec u] := by
  obtain ⟨w, hw⟩ : ∃ w, w = cexEvent (flag (addSat u F.CEX_n_LATE_late n 0 1) F.CEX_n_ERR_late n) n d := ⟨_, rfl⟩
  have told := cexEvent_only (flag (addSat u F.CEX_n_LATE_late n 0 1) F.CEX_n_ERR_late n) n d
  rw [← hw] at told
  have die : dieOf w n d = dieOf u n d := dieOf_congr told.cex_same n d
  have time : usec w = usec u := by
    obtain ⟨⟨c, t, rfl⟩, -⟩ := told
    rfl
  have shape : lateCase u n d = setDie w n d { dieOf w n d with lateAt := [usec u] } := by
    unfold lateCase
    dsimp only
    rw [← hw, die, none_, time]
    rfl
  rw [shape, dieOf_setDie]
  refine ⟨?_, rfl⟩
  show getF w F.CEX_n_ERR_late n = 1
  rw [told.getF _ _ _ (cex_addr_below low .CEX_n_ERR 0 (by decide) rfl (by decide))]
  exact getF_flag_same _ _ _ _ (by decide) (by decide)

/-! ### Temperature readings (R305, R388) -/

/-- A change of the drift unit alone. -/
def DriftOnly (u x : Units) : Prop := ∃ r, x = { u with drf := r }

theorem settleDeferral_only (u : Units) (n d : Nat) (t : Option Int) : DriftOnly u (settleDeferral u n d t) := ⟨_, rfl⟩

theorem DriftOnly.trans (h : DriftOnly u x) (k : DriftOnly x y) : DriftOnly u y := by
  obtain ⟨r, rfl⟩ := h
  obtain ⟨r', rfl⟩ := k
  exact ⟨r', rfl⟩

/-- The deferral of another die stays as it is. -/
theorem settleDeferral_keeps {k : Nat} {t : Option Int} (other : k ≠ n * 8 + d) (held : k ∈ u.drf.deferred) : k ∈ (settleDeferral u n d t).drf.deferred := by
  have rest : k ∈ u.drf.deferred.filter fun i => i != n * 8 + d := List.mem_filter.mpr ⟨held, by simpa using other⟩
  unfold settleDeferral
  dsimp only
  split
  · split
    · exact List.mem_append_left _ rest
    · exact rest
  · split
    · exact List.mem_append_left _ rest
    · exact rest

/-- A reading at or above the limit defers its die. -/
theorem settleDeferral_hot {t : Int} (hot : asSigned (inF u F.DRF_TEMP_prog_hi) ≤ t) : n * 8 + d ∈ (settleDeferral u n d (some t)).drf.deferred := by
  unfold settleDeferral
  dsimp only
  rw [if_pos (by simp [hot])]
  exact List.mem_append_right _ (List.mem_singleton_self _)

theorem settleDies_defers (low : d < 8) {t : Int} (hot : asSigned (inF u F.DRF_TEMP_prog_hi) ≤ t) (reads : ∀ o, dieTemp u n d o = some t) : ∀ (l : List Nat) (x : Units), (∀ i ∈ l, i < 8) → DriftOnly u x →
    d ∈ l ∨ n * 8 + d ∈ x.drf.deferred → n * 8 + d ∈ (l.foldl (fun u d => settleDeferral u n d (dieTemp u n d (inF u F.PWR_THERM_offset))) x).drf.deferred
  | [], _, _, _, h => h.resolve_left List.not_mem_nil
  | a :: l, x, below, only, h => by
    rw [List.foldl_cons]
    refine settleDies_defers low hot reads l _ (fun i mem => below i (List.mem_cons_of_mem _ mem)) (only.trans (settleDeferral_only ..)) ?_
    by_cases e : a = d
    · subst e
      right
      obtain ⟨r, rfl⟩ := only
      rw [show dieTemp { u with drf := r } n a (inF { u with drf := r } F.PWR_THERM_offset) = some t from reads _]
      exact settleDeferral_hot hot
    · rcases h with h | h
      · exact .inl ((List.mem_cons.mp h).resolve_left (Ne.symm e))
      · refine .inr (settleDeferral_keeps ?_ h)
        have := below a (List.mem_cons_self ..)
        omega

theorem settleDies_only (u : Units) (n : Nat) : DriftOnly u (settleDies u n) := by
  unfold settleDies
  generalize liveDies u n = l
  induction l generalizing u with
  | nil => exact ⟨u.drf, rfl⟩
  | cons a l ih => exact (settleDeferral_only ..).trans (ih _)

/-- What follows a reading once the deferrals are settled: flags and events. -/
structure Noted (n : Nat) (u x : Units) : Prop where
  cex : x.cex = u.cex
  drf : x.drf = u.drf
  out : ∀ o ∈ u.out, o ∈ x.out
  die : ∀ f d, d < 8 → f.reg = .CEX_n_DIE_d → getF x f n d = getF u f n d

namespace Noted

theorem refl (u : Units) : Noted n u u := ⟨rfl, rfl, fun _ h => h, fun _ _ _ _ => rfl⟩

theorem trans (h : Noted n u x) (k : Noted n x y) : Noted n u y :=
  ⟨k.cex.trans h.cex, k.drf.trans h.drf, fun o mem => k.out o (h.out o mem), fun f d low is => (k.die f d low is).trans (h.die f d low is)⟩

theorem flag {f : Fld} {i : Nat} (apart : ∀ d, d < 8 → regAddr .CEX_n_DIE_d n d ≠ regAddr f.reg i 0) : Noted n u (flag u f i) :=
  ⟨rfl, rfl, fun _ h => h, fun g d hd is => getF_putF_other (by rw [is]; exact apart d hd) ..⟩

theorem counts (low : n < 72) (h : CountsOnly u x) : Noted n u x := by
  refine ⟨h.cex_same, ?_, fun o mem => h.out_same ▸ mem, fun f d hd is => ?_⟩
  · obtain ⟨⟨_, _, rfl⟩, -⟩ := h
    rfl
  · refine h.getF _ _ _ ?_
    rw [is]
    exact cex_addr_below low .CEX_n_DIE_d d (by decide) rfl (by simp only [Reg.info]; omega)

end Noted

/-- A configuration field in force is that of the bank of the epoch. -/
theorem inF_same (v : x.v = u.v) (epoch : x.regs.epoch = u.regs.epoch) (even : x.regs.bankA = u.regs.bankA) (odd : x.regs.bankB = u.regs.bankB) (f : Fld) (i j : Nat) : inF x f i j = inF u f i j := by
  unfold inF epF bankReg bankOf
  rw [v, epoch, even, odd]

/-- A TEMP reading of a live die: TEMP goes out, the reading is recorded, and where it is valid and at or above the limit its die is deferred. -/
theorem tempPollOp_records (runs : cexRuns u n = true) (low : d < 8) (live : dieFailed u n d = false) (temp : BitVec 8) (valid : Bool) : let t := tempPollOp u n d temp valid
    .cexus n (csMask [d]) (dieOf u n d).chip.safe (caBeats (frameWord 9 0)) ∈ t.out ∧ getF t F.CEX_n_DIE_d_temp n d = temp.toNat ∧ getF t F.CEX_n_DIE_d_temp_valid n d = (if valid then 1 else 0) ∧ d ∈ (cex t n).polled ∧
      (valid = true → asSigned (inF u F.DRF_TEMP_prog_hi) ≤ asSigned temp.toNat → n * 8 + d ∈ t.drf.deferred) ∧ (valid = false → getF t F.CEX_n_ERR_temp_invalid n = 1) := by
  have small := cexRuns_lt runs
  obtain ⟨a, ha⟩ : ∃ a, a = captureMove (frame u n 9 d 0) n d := ⟨_, rfl⟩
  obtain ⟨b, hb⟩ : ∃ b, b = setCex a n { cex a n with polled := if (cex a n).polled.contains d then (cex a n).polled else (cex a n).polled ++ [d] } := ⟨_, rfl⟩
  obtain ⟨p, hp⟩ : ∃ p, p = putF (putF b F.CEX_n_DIE_d_temp n d temp.toNat) F.CEX_n_DIE_d_temp_valid n d (if valid then 1 else 0) := ⟨_, rfl⟩
  obtain ⟨w, hw⟩ : ∃ w, w = settleDies p n := ⟨_, rfl⟩
  have out_p : .cexus n (csMask [d]) (dieOf u n d).chip.safe (caBeats (frameWord 9 0)) ∈ p.out := by
    rw [hp, putF_out, putF_out, hb, setCex_out, ha, captureMove_out, out_frame]
    exact List.mem_append_right _ (List.mem_singleton_self _)
  have temp_p : getF p F.CEX_n_DIE_d_temp n d = temp.toNat := by
    rw [hp, getF_putF_beside (f := F.CEX_n_DIE_d_temp_valid) (g := F.CEX_n_DIE_d_temp) _ n d _ rfl (by decide) (by decide), getF_putF_same _ _ _ _ _ (by decide)]
    exact Nat.mod_eq_of_lt temp.isLt
  have valid_p : getF p F.CEX_n_DIE_d_temp_valid n d = if valid then 1 else 0 := by
    rw [hp, getF_putF_same _ _ _ _ _ (by decide)]
    split <;> rfl
  have bus_b : cex b n = { cex a n with polled := if (cex a n).polled.contains d then (cex a n).polled else (cex a n).polled ++ [d] } := by rw [hb, cex_setCex]
  have cex_p : p.cex = b.cex := by rw [hp, putF_cex, putF_cex]
  have same_p : p.v = u.v ∧ p.regs.epoch = u.regs.epoch ∧ p.regs.bankA = u.regs.bankA ∧ p.regs.bankB = u.regs.bankB := by
    rw [hp, putF_v, putF_v, putF_regs_epoch, putF_regs_epoch, putF_regs_bankA, putF_regs_bankA, putF_regs_bankB, putF_regs_bankB, hb, setCex_v, setCex_regs]
    obtain ⟨_, moved⟩ := captureMove_eq (frame u n 9 d 0) n d
    rw [ha, moved, frame_eq]
    exact ⟨rfl, rfl, rfl, rfl⟩
  have polled_p : d ∈ (cex p n).polled := by
    rw [cex_congr cex_p, bus_b]
    dsimp only
    split
    · next h => simpa using h
    · exact List.mem_append_right _ (List.mem_singleton_self _)
  have live_p : d ∈ liveDies p n := by
    have failed : (cex p n).failed = (cex u n).failed := by
      obtain ⟨dies, bus⟩ := cex_frame u n 9 d 0
      rw [cex_congr cex_p, bus_b, ha, cex_congr (captureMove_cex ..), bus]
    have lost : p.hng = u.hng := by
      rw [hp, putF_hng, putF_hng, hb, setCex_hng, ha, captureMove_hng, frame_eq]
      rfl
    have same : dieFailed p n d = false := by
      unfold dieFailed at live ⊢
      rw [lost, failed]
      exact live
    exact List.mem_filter.mpr ⟨List.mem_range.mpr low, by rw [same]; rfl⟩
  obtain ⟨r, only⟩ := settleDies_only p n
  rw [← hw] at only
  have hot_w (ok : valid = true) (hot : asSigned (inF u F.DRF_TEMP_prog_hi) ≤ asSigned temp.toNat) : n * 8 + d ∈ w.drf.deferred := by
    have limit : inF p F.DRF_TEMP_prog_hi = inF u F.DRF_TEMP_prog_hi := inF_same same_p.1 same_p.2.1 same_p.2.2.1 same_p.2.2.2 ..
    have reads (o : Nat) : dieTemp p n d o = some (asSigned temp.toNat) := by
      unfold dieTemp
      rw [valid_p, ok, if_pos rfl, if_pos rfl, temp_p]
    rw [hw]
    exact settleDies_defers low (limit ▸ hot) reads (liveDies p n) p (fun i mem => List.mem_range.mp (List.mem_filter.mp mem).1) ⟨p.drf, rfl⟩ (.inl live_p)
  intro t
  have shape : ∃ x, Noted n w x ∧ t = x ∧ (valid = false → getF x F.CEX_n_ERR_temp_invalid n = 1) := by
    have eq : t = if valid then (if dieHot w n d ≤ asSigned temp.toNat then driftEvent (Machine.flag w F.DRF_ERR_hot) (dieGroup n d) else w)
        else (if dieTemp (cexEvent (Machine.flag w F.CEX_n_ERR_temp_invalid n) n d) n d 0 = none then driftEvent (Machine.flag (cexEvent (Machine.flag w F.CEX_n_ERR_temp_invalid n) n d) F.DRF_ERR_temp_blind) (dieGroup n d)
          else cexEvent (Machine.flag w F.CEX_n_ERR_temp_invalid n) n d) := by
      have go : ¬ (cexRuns u n = false ∨ 8 ≤ d ∨ dieFailed u n d = true) := by
        rw [runs, live]
        simp [low]
      simp only [t, tempPollOp]
      rw [if_neg go, hw, hp, hb, ha]
    have drift (z : Units) {f : Fld} (is : f.reg = .DRF_ERR) : Noted n z (driftEvent (Machine.flag z f) (dieGroup n d)) :=
      (Noted.flag fun i hi => by rw [is]; simp only [regAddr, Reg.info]; omega).trans (.counts small (emitEvent_only ..))
    cases valid with
    | true =>
      refine ⟨_, ?_, eq, nofun⟩
      rw [if_pos rfl]
      split
      · exact drift _ rfl
      · exact .refl w
    | false =>
      have err : regAddr .CEX_n_ERR n 0 < teleAddr := cex_addr_below small .CEX_n_ERR 0 (by decide) rfl (by decide)
      have told := cexEvent_only (Machine.flag w F.CEX_n_ERR_temp_invalid n) n d
      have noted : Noted n w (cexEvent (Machine.flag w F.CEX_n_ERR_temp_invalid n) n d) :=
        (Noted.flag fun i hi => by simp only [F.CEX_n_ERR_temp_invalid, regAddr, Reg.info]; omega).trans (.counts small told)
      have flagged : getF (cexEvent (Machine.flag w F.CEX_n_ERR_temp_invalid n) n d) F.CEX_n_ERR_temp_invalid n = 1 :=
        (told.getF _ _ _ err).trans (getF_flag_same _ _ _ _ (by decide) (by decide))
      generalize cexEvent (Machine.flag w F.CEX_n_ERR_temp_invalid n) n d = e at noted flagged eq
      refine ⟨_, ?_, eq, fun _ => ?_⟩
      · rw [if_neg Bool.false_ne_true]
        split
        · exact noted.trans (drift e rfl)
        · exact noted
      · rw [if_neg Bool.false_ne_true]
        split
        · refine ((emitEvent_only ..).getF _ _ _ err).trans ((getF_putF_other ?_ ..).trans flagged)
          simp only [F.CEX_n_ERR_temp_invalid, F.DRF_ERR_temp_blind, regAddr, Reg.info]
          omega
        · exact flagged
  obtain ⟨x, noted, is, invalid⟩ := shape
  rw [is]
  have die (f : Fld) (reg : f.reg = .CEX_n_DIE_d) : getF x f n d = getF p f n d := by
    rw [noted.die f d low reg, only]
    rfl
  refine ⟨noted.out _ (by rw [only]; exact out_p), (die _ rfl).trans temp_p, (die _ rfl).trans valid_p, ?_, fun ok hot => noted.drf ▸ hot_w ok hot, invalid⟩
  rw [cex_congr noted.cex, only]
  exact polled_p

/-! ### The link check as a whole -/

theorem trimRaw_notice {a : Nat} (h : NoticeOnly u x) (below : a < teleAddr) : trimRaw x a = trimRaw u a := by
  obtain ⟨-, regs, -⟩ := h
  exact regs _ _ below

theorem endGrant_keeps (u : Units) (key r : Nat) : (endGrant u key r).cex = u.cex ∧ (endGrant u key r).regs = u.regs := by
  unfold endGrant
  dsimp only
  split <;> exact ⟨rfl, rfl⟩

theorem trimRaw_congr (h : x.regs = u.regs) (a : Nat) : trimRaw x a = trimRaw u a := by unfold trimRaw; rw [h]

theorem healthNotice_only (u : Units) (media : Bool) (ch cause who device place : Nat) : NoticeOnly u (healthNotice u media ch cause who device place) := .notice ..

theorem moveTrim_cex (u : Units) (a : Nat) (k : Int) : (moveTrim u a k).cex = u.cex := rfl

theorem linkCheckOp_does (small : n < 72) (low : d < 8) (next : nextDie u n (cex u n).linkDie = some d) (below above : Bool) : let w := trimRaw u (writeTrim n d)
    let t := linkCheckOp u n below above
    (cex t n).linkDie = (d + 1) % 8 ∧ (cex t n).linkAt = u.now ∧ trimRaw t (writeTrim n d) = (if below = false ∧ above = true then w + 1 else if below = true ∧ above = false then w - 1 else w) ∧
      (below = false ∧ above = false → getF t F.CEX_n_ERR_drift n = 1) := by
  have addr : writeTrim n d < teleAddr ∧ writeTrim n d ≠ readTrim n d ∧ writeTrim n d ≠ regAddr .CEX_n_ERR n 0 := by
    simp only [writeTrim, readTrim, cexTrim, teleAddr, regAddr, Reg.info]
    omega
  obtain ⟨under, apart, off⟩ := addr
  obtain ⟨a, ha⟩ : ∃ a, a = countRun (setCex u n { cex u n with linkDie := (d + 1) % 8, linkAt := u.now }) (cCex n 6) 176 := ⟨_, rfl⟩
  have counts := countRun_only (setCex u n { cex u n with linkDie := (d + 1) % 8, linkAt := u.now }) (cCex n 6) 176
  rw [← ha] at counts
  have bus_a : cex a n = { cex u n with linkDie := (d + 1) % 8, linkAt := u.now } := (cex_congr counts.cex_same n).trans (cex_setCex ..)
  have trim_a : trimRaw a (writeTrim n d) = trimRaw (setCex u n { cex u n with linkDie := (d + 1) % 8, linkAt := u.now }) (writeTrim n d) := trimRaw_notice (.counts counts) under
  obtain ⟨⟨t1, bus1⟩, keep1⟩ := probe_keeps a n d
  obtain ⟨⟨t2, bus2⟩, keep2⟩ := probe_keeps (probe a n d) n d
  obtain ⟨b, hb⟩ : ∃ b, b = endGrant (probe (probe a n d) n d) (chKey true n) 3 := ⟨_, rfl⟩
  have freed : b.cex = (probe (probe a n d) n d).cex ∧ b.regs = (probe (probe a n d) n d).regs := by
    rw [hb]
    exact endGrant_keeps ..
  have bus_b : (cex b n).linkDie = (d + 1) % 8 ∧ (cex b n).linkAt = u.now := by rw [cex_congr freed.1, bus2, bus1, bus_a]; exact ⟨rfl, rfl⟩
  have trim_b : trimRaw b (writeTrim n d) = trimRaw u (writeTrim n d) := (trimRaw_congr freed.2 _).trans ((keep2 _ apart).trans ((keep1 _ apart).trans trim_a))
  intro w t
  have eq : t = if below = false ∧ above then moveTrim b (writeTrim n d) 1 else if below ∧ above = false then moveTrim b (writeTrim n d) (-1) else if below then b
      else healthNotice (cexEvent (flag b F.CEX_n_ERR_drift n) n d) true n 1 d 0 0 := by
    simp only [t, linkCheckOp, next]
    rw [hb, ha]
  have moved (k : Int) : trimRaw (moveTrim b (writeTrim n d) k) (writeTrim n d) = w + BitVec.ofInt 32 k := (trimRaw_putTrim_same ..).trans (by rw [trim_b])
  rcases below <;> rcases above
  · have told := (NoticeOnly.counts (cexEvent_only (flag b F.CEX_n_ERR_drift n) n d)).trans (healthNotice_only (cexEvent (flag b F.CEX_n_ERR_drift n) n d) true n 1 d 0 0)
    replace eq : t = healthNotice (cexEvent (flag b F.CEX_n_ERR_drift n) n d) true n 1 d 0 0 := eq
    rw [← eq] at told
    have trim_t : trimRaw t (writeTrim n d) = w := (trimRaw_notice told under).trans ((trimRaw_putF off ..).trans trim_b)
    have bus_t : cex t n = cex b n := cex_congr told.cex n
    refine ⟨by rw [bus_t]; exact bus_b.1, by rw [bus_t]; exact bus_b.2, trim_t, fun _ => ?_⟩
    rw [told.getF _ _ _ (cex_addr_below small .CEX_n_ERR 0 (by decide) rfl (by decide))]
    exact getF_flag_same _ _ _ _ (by decide) (by decide)
  · rw [if_pos (by decide)] at eq
    rw [eq, if_pos (by decide), cex_congr (moveTrim_cex ..)]
    exact ⟨bus_b.1, bus_b.2, (moved 1).trans (by rw [show BitVec.ofInt 32 1 = 1 by decide]), nofun⟩
  · rw [if_neg (by decide), if_pos (by decide)] at eq
    rw [eq, if_neg (by decide), if_pos (by decide), cex_congr (moveTrim_cex ..)]
    exact ⟨bus_b.1, bus_b.2, (moved (-1)).trans (by rw [BitVec.sub_eq_add_neg, show BitVec.ofInt 32 (-1) = -1 by decide]), nofun⟩
  · rw [if_neg (by decide), if_neg (by decide), if_pos rfl] at eq
    rw [eq, if_neg (by decide), if_neg (by decide)]
    exact ⟨bus_b.1, bus_b.2, trim_b, nofun⟩

/-- What a die does at its cycle of its window, once. -/
theorem programSlotOp_goes {c : Ctl} (go : ¬ (inWindow u n = false ∨ (dieOf u n d).started = true ∨ dieFailed u n d = true)) : programSlotOp c u n d =
    let w := setDie u n d { dieOf u n d with started := true }
    match (dieOf u n d).st with
    | .suspended => order w n 6 d 0 fun x => { x with st := .programming, suspSent := false }
    | .idle => if (dieOf u n d).zqDue ∧ holderOf w n = 3 then order w n 10 d 0 fun x => { x with st := .other, zqDue := false, calibrating := true, since := w.now } else tryProgram c w n d
    | _ => w := if_neg go

/-- Settles O48: the next phase of a scheduler, the orders of a die's cycle of its window, and what each check of a die leaves. -/
theorem windowsAndDieChecks : Obligations.WindowsAndDieChecks := by
  unfold Obligations.WindowsAndDieChecks
  intro s
  refine ⟨fun g hg on run open_ => ?_, fun n d runs low => ?_⟩
  · have guard : (decide (g < nGroups (fresh s).v) && pdOn (fresh s) (pdMedia g) && roundsRun (fresh s) g) = true := by
      rw [show nGroups (fresh s).v = nGroups s.u.v from rfl, decide_eq_true hg, show pdOn (fresh s) (pdMedia g) = true from on, show roundsRun (fresh s) g = true from run]
      rfl
    obtain ⟨phase, time, round, bufs, -⟩ := nextPhase_does (fresh s) (grp s.u g)
    refine ⟨_, (exec_phaseStart ..).trans (onU_next (if_pos guard)), ?_⟩
    rw [phaseStartOp_grp (u := fresh s) open_]
    exact ⟨phase, time, round, bufs⟩
  · have guard : (cexRuns (fresh s) n && decide (d < 8)) = true := by
      rw [show cexRuns (fresh s) n = true from runs, decide_eq_true low]
      rfl
    have small := cexRuns_lt runs
    intro x framed
    refine ⟨fun window waits live => ?_, fun below above window due holder free next => ?_, fun period next => ?_, fun temp valid live => ?_, ?_, fun st cur running => ?_, fun busy sent none_ => ?_⟩
    · obtain ⟨a, ha⟩ : ∃ a, a = setDie (fresh s) n d { x with started := true } := ⟨_, rfl⟩
      have die : dieOf a n d = { x with started := true } := by rw [ha, dieOf_setDie]
      have slot {y : Units} (h : programSlotOp s.ctl (fresh s) n d = y) : exec (.programSlot n d) s = .next { s with u := y } := (exec_programSlot ..).trans (onU_next ((if_pos guard).trans h))
      have go : ¬ (inWindow (fresh s) n = false ∨ (dieOf (fresh s) n d).started = true ∨ dieFailed (fresh s) n d = true) := by
        rw [show inWindow (fresh s) n = true from window, show (dieOf (fresh s) n d).started = false from waits, show dieFailed (fresh s) n d = false from live]
        decide
      refine ⟨fun st => ?_, fun st due holder => ?_, fun st rest some_ enough cool awake loaded => ?_⟩
      · have does : programSlotOp s.ctl (fresh s) n d = order a n 6 d 0 fun x => { x with st := .programming, suspSent := false } := by
          rw [programSlotOp_goes go, ha]
          split
          case h_1 => rfl
          case h_2 h => exact absurd (st.symm.trans h) (by decide)
          case h_3 h _ => exact absurd st h
        obtain ⟨out, die'⟩ := order_does a n 6 d 0 fun x => { x with st := .programming, suspSent := false }
        obtain ⟨_, _, _, _, keeps⟩ := tookFrame_keeps (dieOf a n d) (dieLines a n d) 6 0
        rw [keeps, die] at die'
        rw [die] at out
        refine ⟨_, slot does, ?_, ?_, ?_, ?_⟩
        · show _ ∈ Units.out _
          rw [out]
          exact List.mem_append_right _ (List.mem_singleton_self _)
        · rw [die']
        · rw [die']
        · rw [die']
      · have does : programSlotOp s.ctl (fresh s) n d = order a n 10 d 0 fun x => { x with st := .other, zqDue := false, calibrating := true, since := a.now } := by
          rw [programSlotOp_goes go, ha]
          split
          case h_1 h => exact absurd (st.symm.trans h) (by decide)
          case h_2 => exact if_pos ⟨due, holder⟩
          case h_3 _ h => exact absurd st h
        obtain ⟨out, die'⟩ := order_does a n 10 d 0 fun x => { x with st := .other, zqDue := false, calibrating := true, since := a.now }
        obtain ⟨_, _, _, _, keeps⟩ := tookFrame_keeps (dieOf a n d) (dieLines a n d) 10 0
        rw [keeps, die] at die'
        rw [die] at out
        refine ⟨_, slot does, ?_, ?_, ?_, ?_, ?_⟩
        · show _ ∈ Units.out _
          rw [out]
          exact List.mem_append_right _ (List.mem_singleton_self _)
        · rw [die']
        · rw [die']
        · rw [die']
        · rw [die']
      · have does : programSlotOp s.ctl (fresh s) n d = tryProgram s.ctl a n d := by
          rw [programSlotOp_goes go, ha]
          split
          case h_1 h => exact absurd (st.symm.trans h) (by decide)
          case h_2 => exact if_neg fun h => Bool.false_ne_true (rest.symm.trans h.1)
          case h_3 _ h => exact absurd st h
        have starts := tryProgram_starts (u := a) (n := n) (d := d) (c := s.ctl)
        rw [die] at starts
        obtain ⟨status, program, programs, pgm, running, slots⟩ := starts st some_ (by rw [ha]; exact enough) (by rw [ha]; exact cool) (by rw [ha]; exact awake) loaded
        exact ⟨_, slot does, status, program, programs, pgm, running, slots⟩
    · have guard' : (cexRuns (fresh s) n && inWindow (fresh s) n && linkDue (fresh s) n && (holderOf (fresh s) n == 3) && (cex (fresh s) n).cur.isNone) = true := by
        rw [show cexRuns (fresh s) n = true from runs, show inWindow (fresh s) n = true from window, show linkDue (fresh s) n = true from due, show holderOf (fresh s) n = 3 from holder, show (cex (fresh s) n).cur = none from free]
        rfl
      obtain ⟨die, time, trim, drift⟩ := linkCheckOp_does (u := fresh s) small low next below above
      exact ⟨_, (exec_linkCheck ..).trans (onU_next (if_pos guard')), die, time, trim, drift⟩
    · have guard' : (cexRuns (fresh s) n && getF (fresh s) F.CEX_n_LINK_zq_period n != 0) = true := by
        rw [show cexRuns (fresh s) n = true from runs]
        exact bne_iff_ne.mpr period
      obtain ⟨a, ha⟩ : ∃ a, a = setCex (fresh s) n { cex s.u n with zqDie := (d + 1) % 8 } := ⟨_, rfl⟩
      have bus : cex a n = { cex s.u n with zqDie := (d + 1) % 8 } := by rw [ha, cex_setCex]
      have die : dieOf a n d = x := by unfold dieOf; rw [bus]; rfl
      have does : zqOp (fresh s) n = setDie a n d { dieOf a n d with zqDue := true } := by
        unfold zqOp
        rw [show nextDie (fresh s) n (cex (fresh s) n).zqDie = some d from next, ha]
        rfl
      refine ⟨_, (exec_zqCalibrate ..).trans (onU_next ((if_pos guard').trans does)), ?_, ?_⟩
      · show dieOf (setDie a n d _) n d = _
        rw [dieOf_setDie, die]
      · show (cex (setDie a n d _) n).zqDie = _
        rw [cex_setDie, bus]
    · obtain ⟨sent, reading, ok, polled, deferred, invalid⟩ := tempPollOp_records (u := fresh s) runs low live temp valid
      exact ⟨_, (exec_mediaTempPoll ..).trans (onU_next rfl), sent, reading, ok, polled, deferred, invalid⟩
    · exact (exec_dieLateCheck ..).trans (onU_next (if_pos guard))
    · obtain ⟨other, slots, sent⟩ := resetDie_does (u := fresh s) (n := n) (d := d) running
      have does : lateCheckOp (fresh s) n d .stayedLow = resetDie (fresh s) n d := by
        unfold lateCheckOp
        dsimp only
        rw [show (dieOf (fresh s) n d).st = .sensing from st]
        dsimp only
        rw [show (dieOf (fresh s) n d).cur = none from cur]
        exact dieGo_other other
      exact ⟨_, (exec_dieLateCheck ..).trans (onU_next ((if_pos guard).trans does)), other, slots, sent⟩
    · have does : lateCheckOp (fresh s) n d .stayedHigh = stayedHighOp (fresh s) n d := by
        unfold lateCheckOp
        dsimp only
        rcases busy with h | h | h <;> rw [show (dieOf (fresh s) n d).st = _ from h]
      obtain ⟨w, late, fresh_, time⟩ : ∃ w, stayedHighOp (fresh s) n d = lateCase w n d ∧ (dieOf w n d).lateAt = [] ∧ w.now = s.u.now := by
        have sent_ : (dieOf (fresh s) n d).resent = true := sent
        unfold stayedHighOp
        dsimp only
        obtain ⟨y, asked, -, die, now⟩ := askStatus_does (setDie { fresh s with fresh := (fresh s).fresh + 2 } n d { dieOf (fresh s) n d with
          chip := if Config.freeBool (fresh s).fresh then (dieOf (fresh s) n d).prior.damaged (Config.freeBool ((fresh s).fresh + 1)) else (dieOf (fresh s) n d).prior }) n d
        rw [asked]
        dsimp only
        rw [if_neg (by rw [sent_]; exact fun h => Bool.true_eq_false_eq_False h.2)]
        refine ⟨y, rfl, ?_, now⟩
        obtain ⟨_, _, _, _, keeps⟩ := tookFrame_keeps (dieOf (setDie { fresh s with fresh := (fresh s).fresh + 2 } n d { dieOf (fresh s) n d with
          chip := if Config.freeBool (fresh s).fresh then (dieOf (fresh s) n d).prior.damaged (Config.freeBool ((fresh s).fresh + 1)) else (dieOf (fresh s) n d).prior }) n d)
          (dieLines (setDie { fresh s with fresh := (fresh s).fresh + 2 } n d { dieOf (fresh s) n d with
          chip := if Config.freeBool (fresh s).fresh then (dieOf (fresh s) n d).prior.damaged (Config.freeBool ((fresh s).fresh + 1)) else (dieOf (fresh s) n d).prior }) n d) 8 0
        rw [die, keeps, dieOf_setDie]
        exact none_
      obtain ⟨flagged, at_⟩ := lateCase_first small fresh_
      refine ⟨_, (exec_dieLateCheck ..).trans (onU_next ((if_pos guard).trans (does.trans late))), flagged, at_.trans ?_⟩
      unfold usec
      rw [time]

end

end Sys2Proof.Machine
end

section
/-! PROOF. A sweep whose source names no physical region (R356, R358): the register of its stripe group is another register of the block. -/

namespace Sys2Proof.Machine

/-- A PRN beyond those of the device: the address of its stripe group's register is that of TELE_AON_LOST. -/
def strayPrn : Nat := 2184978432

/-- RUN with PD_TELE off and the pool below its reserve; slot 15 sweeps the region of the stray PRN, which is worn to the end. -/
def strayState : State where
  ctl := { mode := .run }
  u := { pd := ⟨[(2, 1)]⟩, hng := { mounted := true, slots := ⟨[(15, { cause := 7, src := strayPrn })]⟩, active := [15], pip := ⟨[(strayPrn, 4 * 2 ^ 56 + (2 ^ 24 - 1))]⟩ } }

theorem strayGroup_is_telemetry : regAddr .HNG_GROUP_s (prnGroup strayState.u.v strayPrn) 0 = regAddr .TELE_AON_LOST 0 0 := by decide

/-- The region once its lines are blank: its stripe writes are counted, and add nothing to a wear at its end. -/
def strayBlank : Units := countN (addSat { fresh strayState with fresh := 1 } F.MS_g_WRITES_full 133104 0 16384) (cGrp 133104 4) 16384

theorem stray_blanked : blankRegion (fresh strayState) strayPrn = strayBlank := by
  have worn : pWear (pipEntry (fresh strayState) strayPrn) = 2 ^ 24 - 1 := by decide
  have full (k : Nat) : min (2 ^ 24 - 1) (pWear (pipEntry (fresh strayState) strayPrn) + k % 16385) = pWear (pipEntry (fresh strayState) strayPrn) := by
    rw [worn]
    omega
  exact if_pos (full (Config.freeNat 0))

/-- A sweep under way: the region is blank, free and at generation 0, and its slot is free. -/
theorem sweepOp_frees {u : Units} {slot : Nat} (busy : u.hng.active.contains slot = true) (sweep : (tabGet u.hng.slots slot).cause = 7) : let p := (tabGet u.hng.slots slot).src
    sweepOp u slot = freeMoveSlot (putPip (blankRegion u p) p (nput (nput (pipEntry (blankRegion u p) p) 24 16 0) 56 3 0)) slot := by
  unfold sweepOp
  dsimp only
  rw [if_neg (by rw [busy, sweep]; decide)]

/-- The swept region goes to the pool, whose low level is reported; PD_TELE is off, so the event is counted in TELE_AON_LOST, and the region's group no longer reads as healthy. -/
theorem stray_sweep_leaves_dead : pState (pipEntry (sweepOp (fresh strayState) 15) strayPrn) = 6 := by
  rw [sweepOp_frees (by decide) (by decide), show (tabGet (fresh strayState).hng.slots 15).src = strayPrn from rfl, stray_blanked]
  decide

/-- Refutes O49: a slot whose source names no physical region sweeps it, and the region is then dead (state 6), not free: the event that reports the low pool is counted in the register that its group's state is read from. -/
theorem not_movesSweepsAndScans : ¬ Obligations.MovesSweepsAndScans := by
  unfold Obligations.MovesSweepsAndScans
  intro h
  obtain ⟨moves, -⟩ := h strayState (by decide)
  obtain ⟨-, -, slots⟩ := moves (by decide)
  obtain ⟨sweeps, -⟩ := slots 15 (by decide) (by decide)
  obtain ⟨t, goes, -, -, free, -⟩ := sweeps rfl (show groupState strayState.u (prnGroup strayState.u.v strayPrn) = 0 by decide)
  have after : t.u = sweepOp (fresh strayState) 15 := by
    rw [onU_inj ((exec_sweep 15 strayState).symm.trans goes)]
    rfl
  rw [after] at free
  exact absurd (stray_sweep_leaves_dead.symm.trans free) (by decide)

end Sys2Proof.Machine
end

section
/-! PROOF. The journal, checkpoints, age epochs and the drift map (R364 to R366, R371, R381 to R383). -/

namespace Sys2Proof.Machine

section
variable {u x y : Units} {c : Ctl}

/-! ### The journal and checkpoints -/

/-- A fold of steps that each change the hinge unit alone, and keep what is named. -/
theorem foldl_keeps {α : Type} {P : Units → Units → Prop} (refl : ∀ u, P u u) (trans : ∀ {u x y}, P u x → P x y → P u y) {f : Units → α → Units} (step : ∀ u a, P u (f u a)) (l : List α) (u : Units) : P u (l.foldl f u) := by
  induction l generalizing u with
  | nil => exact refl u
  | cons a l ih => exact trans (step u a) (ih _)

/-- Regions that join the pool change the pool alone. -/
def PoolOnly (u x : Units) : Prop := ∃ l n, x = { u with hng := { u.hng with limbo := l, poolN := n } }

theorem joinPool_only (u : Units) : PoolOnly u (joinPool u) := by
  unfold joinPool
  refine foldl_keeps (P := PoolOnly) (fun u => ⟨u.hng.limbo, u.hng.poolN, rfl⟩) ?_ (fun u a => ?_) ..
  · rintro u x y ⟨l, n, rfl⟩ ⟨l', n', rfl⟩
    exact ⟨l', n', rfl⟩
  · dsimp only
    split
    · exact ⟨_, _, rfl⟩
    · exact ⟨u.hng.limbo, u.hng.poolN, rfl⟩

theorem settleDescs_rests {ops : List Nat} (rest : ringsRun c u = false) : settleDescs ops c u = u := if_pos rest

theorem ringsRun_same {x : Units} (pd : x.pd = u.pd) (fences : x.fences = u.fences) : ringsRun c x = ringsRun c u := by
  unfold ringsRun pdOn pdState fenced
  rw [pd, fences]

/-- A block that has been written is durable, and no checkpoint is due. -/
theorem blockWrittenOp_keeps {b : JBlock} {rest : List JBlock} (first : u.hng.writing = b :: rest) (early : u.hng.since < inF u F.HNG_CKPT_blocks) : let t := blockWrittenOp u
    t.keep = { u.keep with blocks := u.keep.blocks ++ [b] } ∧ t.hng.writing = rest ∧ t.hng.seq = u.hng.seq ∧ t.pd = u.pd ∧ t.fences = u.fences := by
  obtain ⟨a, ha⟩ : ∃ a, a = count { u with hng := { u.hng with writing := rest }, keep := { u.keep with blocks := u.keep.blocks ++ [b] } } (cCore 14) := ⟨_, rfl⟩
  obtain ⟨l, n, joined⟩ := joinPool_only a
  have hng_a : a.hng = { u.hng with writing := rest } := by rw [ha, count_hng]
  have keep_a : a.keep = { u.keep with blocks := u.keep.blocks ++ [b] } := by rw [ha, count_keep]
  have pd_a : a.pd = u.pd := by rw [ha, count_pd]
  have fences_a : a.fences = u.fences := by rw [ha, count_fences]
  have limit : inF (joinPool a) F.HNG_CKPT_blocks = inF u F.HNG_CKPT_blocks := by
    rw [joined]
    exact inF_same (x := { a with hng := { a.hng with limbo := l, poolN := n } }) (by rw [ha, count_v]) (by rw [ha, count_regs_epoch]) (by rw [ha, count_regs_bankA]) (by rw [ha, count_regs_bankB]) ..
  intro t
  have shape : t = joinPool a := by
    simp only [t, blockWrittenOp, first]
    rw [← ha]
    refine if_neg ?_
    rw [limit]
    rintro ⟨-, due⟩
    have since : (joinPool a).hng.since = u.hng.since := by rw [joined, hng_a]
    omega
  rw [shape, joined, hng_a, keep_a, pd_a, fences_a]
  exact ⟨rfl, rfl, rfl, rfl, rfl⟩

/-- The superblock that is written names the slot, and is the newest. -/
theorem writeSb_newest (u : Units) (j0 slot tail : Nat) (clean : Bool) : ∃ sb, newestSb (writeSb u j0 slot tail clean).keep = some sb ∧ sb.j0 = j0 ∧ sb.slot = slot ∧ sb.clean = clean ∧ sb.tail = tail ∧ sb.variant = variantCode u.v ∧
    sb.failed = u.hng.failed := by
  unfold writeSb newestSb
  dsimp only
  cases a : u.keep.sbA with
  | none =>
    cases b : u.keep.sbB with
    | none =>
      simp only [Option.isNone_none, Bool.or_true, if_true]
      exact ⟨_, rfl, rfl, rfl, rfl, rfl, rfl, rfl⟩
    | some b' =>
      simp only [Option.isNone_none, Bool.or_true, if_true]
      rw [if_neg (by omega)]
      exact ⟨_, rfl, rfl, rfl, rfl, rfl, rfl, rfl⟩
  | some a' =>
    cases b : u.keep.sbB with
    | none =>
      simp only [Option.isNone_some, Bool.or_false, Bool.false_eq_true, if_false]
      rw [if_pos (by omega)]
      exact ⟨_, rfl, rfl, rfl, rfl, rfl, rfl, rfl⟩
    | some b' =>
      by_cases later : a'.seq < b'.seq
      · simp only [Option.isNone_some, Bool.or_false, decide_eq_true later, if_true]
        rw [if_pos later, if_neg (Nat.not_lt.mpr (Nat.le_succ b'.seq))]
        exact ⟨_, rfl, rfl, rfl, rfl, rfl, rfl, rfl⟩
      · simp only [Option.isNone_some, Bool.or_false, decide_eq_false later, Bool.false_eq_true, if_false]
        rw [if_neg later, if_pos (Nat.lt_succ_self a'.seq)]
        exact ⟨_, rfl, rfl, rfl, rfl, rfl, rfl, rfl⟩

/-- Apart from the superblocks the keep area stays as it is. -/
theorem writeSb_keeps (u : Units) (j0 slot tail : Nat) (clean : Bool) : let t := writeSb u j0 slot tail clean
    t.keep.blocks = u.keep.blocks ∧ t.keep.ckA = u.keep.ckA ∧ t.keep.ckB = u.keep.ckB ∧ t.keep.refRows = u.keep.refRows ∧ t.hng = u.hng ∧ t.pd = u.pd ∧ t.fences = u.fences := by
  have flagged (z : Units) : (if 495 < z.patchLog.length then flag z F.INT_ERR_patch_rec else z).hng = z.hng ∧ (if 495 < z.patchLog.length then flag z F.INT_ERR_patch_rec else z).pd = z.pd ∧
      (if 495 < z.patchLog.length then flag z F.INT_ERR_patch_rec else z).fences = z.fences := by split <;> exact ⟨rfl, rfl, rfl⟩
  obtain ⟨hng, pd, fences⟩ := flagged u
  unfold writeSb
  dsimp only
  refine ⟨?_, ?_, ?_, ?_, hng, pd, fences⟩
  · split <;> split <;> rfl
  · split <;> split <;> rfl
  · split <;> split <;> rfl
  · split <;> split <;> rfl

theorem descMarks_keep (l : List (Nat × Nat)) (status : Nat) (u : Units) : let t := l.foldl (fun u d => descMark u d.1 d.2 status) u
    t.keep = u.keep ∧ t.hng = u.hng ∧ t.pd = u.pd ∧ t.fences = u.fences := by
  refine foldl_keeps (P := fun u t => t.keep = u.keep ∧ t.hng = u.hng ∧ t.pd = u.pd ∧ t.fences = u.fences) (f := fun u (d : Nat × Nat) => descMark u d.1 d.2 status) (fun u => ⟨rfl, rfl, rfl, rfl⟩) ?_ (fun u a => ⟨rfl, rfl, rfl, rfl⟩) ..
  rintro u x y ⟨k1, h1, p1, f1⟩ ⟨k2, h2, p2, f2⟩
  exact ⟨k2.trans k1, h2.trans h1, p2.trans p1, f2.trans f1⟩

/-- A checkpoint that meets no word out of use ends: its slot holds the tables, the superblock names it, and no block before its journal stands. -/
theorem checkpointEndOp_ends (on : u.hng.ckptOn = true) (hinge : u.hng.badHinge = []) (pip : u.hng.badPip = []) : let t := checkpointEndOp u
    t.hng.ckptOn = false ∧ (∃ sb, newestSb t.keep = some sb ∧ sb.j0 = u.hng.ckptJ0 ∧ sb.slot = u.hng.ckptSlot ∧ sb.clean = false) ∧
      (if u.hng.ckptSlot = 0 then t.keep.ckA else t.keep.ckB) = { hinge := u.hng.hinge, pip := u.hng.pip, epoch := u.hng.bootEpoch } ∧ (∀ b ∈ t.keep.blocks, u.hng.ckptJ0 ≤ b.seq ∧ b ∈ u.keep.blocks) ∧
      t.pd = u.pd ∧ t.fences = u.fences := by
  obtain ⟨k, hk⟩ : ∃ k, k = if u.hng.ckptSlot = 0 then { u.keep with ckA := { hinge := u.hng.hinge, pip := u.hng.pip, epoch := u.hng.bootEpoch } } else { u.keep with ckB := { hinge := u.hng.hinge, pip := u.hng.pip, epoch := u.hng.bootEpoch } } := ⟨_, rfl⟩
  obtain ⟨w, hw⟩ : ∃ w, w = writeSb { u with keep := { k with blocks := k.blocks.filter fun b => u.hng.ckptJ0 ≤ b.seq } } u.hng.ckptJ0 u.hng.ckptSlot 0 false := ⟨_, rfl⟩
  obtain ⟨sb, newest, j0, slot, clean, -⟩ := writeSb_newest { u with keep := { k with blocks := k.blocks.filter fun b => u.hng.ckptJ0 ≤ b.seq } } u.hng.ckptJ0 u.hng.ckptSlot 0 false
  obtain ⟨blocks, ckA, ckB, -, hng, pd, fences⟩ := writeSb_keeps { u with keep := { k with blocks := k.blocks.filter fun b => u.hng.ckptJ0 ≤ b.seq } } u.hng.ckptJ0 u.hng.ckptSlot 0 false
  rw [← hw] at newest blocks ckA ckB hng pd fences
  obtain ⟨m, hm⟩ : ∃ m, m = count { w with hng := { w.hng with ckptOn := false, ckptDescs := [] } } (cCore 15) := ⟨_, rfl⟩
  obtain ⟨keep_t, hng_t, pd_t, fences_t⟩ := descMarks_keep u.hng.ckptDescs 0 m
  intro t
  have shape : t = u.hng.ckptDescs.foldl (fun u d => descMark u d.1 d.2 0) m := by
    simp only [t, checkpointEndOp, on, hinge, pip, Bool.true_eq_false, ne_eq, not_true_eq_false, or_self, if_false]
    rw [hm, hw, hk]
  rw [← shape] at keep_t hng_t pd_t fences_t
  have keep_w : t.keep = w.keep := keep_t.trans (by rw [hm, count_keep])
  have held : k.blocks = u.keep.blocks := by rw [hk]; split <;> rfl
  rw [keep_w]
  refine ⟨?_, ⟨sb, newest, j0, slot, clean⟩, ?_, fun b mem => ?_, pd_t.trans (by rw [hm, count_pd]; exact pd), fences_t.trans (by rw [hm, count_fences]; exact fences)⟩
  · rw [hng_t, hm, count_hng]
  · by_cases zero : u.hng.ckptSlot = 0
    · rw [if_pos zero, ckA, hk, if_pos zero]
    · rw [if_neg zero, ckB, hk, if_neg zero]
  · rw [blocks] at mem
    obtain ⟨old, late⟩ := List.mem_filter.mp mem
    rw [held] at old
    exact ⟨of_decide_eq_true late, old⟩

/-! ### Age epochs -/

/-- The reference rows of an epoch are written, group by group. -/
theorem writeRows_does (u : Units) (e g : Nat) (known : g < nStripes u.v) : tabGet (writeRows u e).keep.refRows (g * 32 + e % 32) = e + 1 := by
  have fill : ∀ (l : List Nat) (t : Tab Nat), g ∈ l ∨ tabGet t (g * 32 + e % 32) = e + 1 → tabGet (l.foldl (fun t s => tabPut t (s * 32 + e % 32) (e + 1)) t) (g * 32 + e % 32) = e + 1 := by
    intro l
    induction l with
    | nil => exact fun t h => h.resolve_left List.not_mem_nil
    | cons a l ih =>
      intro t h
      refine ih _ ?_
      by_cases same : a = g
      · exact .inr (by rw [same]; exact tabGet_put_same ..)
      · rcases h with h | h
        · exact .inl ((List.mem_cons.mp h).resolve_left (Ne.symm same))
        · exact .inr ((tabGet_put_other (by omega) ..).trans h)
  exact fill _ _ (.inl (List.mem_range.mpr known))

theorem driftEvent_only (u : Units) (inst : Nat) : CountsOnly u (driftEvent u inst) := emitEvent_only ..

/-- A tick whose advance is held. -/
theorem epochTickOp_holds (awake : c.mode ≠ .hush) (held : advanceHeld c u = true) (first : u.drf.held = false) : let t := epochTickOp c u
    t.drf.e = u.drf.e ∧ t.drf.held = true ∧ t.drf.owed = u.drf.owed + 1 ∧ getF t F.DRF_ERR_held = 1 ∧ t.keep = u.keep := by
  obtain ⟨w, hw⟩ : ∃ w, w = flag { u with drf := { u.drf with periodAt := u.now, owed := u.drf.owed + 1, held := true } } F.DRF_ERR_held := ⟨_, rfl⟩
  have told := (NoticeOnly.counts (driftEvent_only w 0xFF)).trans (.notice _ 7 ((driftEvent w 0xFF).drf.e + tabGet (driftEvent w 0xFF).drf.ages (((driftEvent w 0xFF).drf.e + 1) % 32) * 2 ^ 32))
  intro t
  have shape : t = notice (driftEvent w 0xFF) 7 ((driftEvent w 0xFF).drf.e + tabGet (driftEvent w 0xFF).drf.ages (((driftEvent w 0xFF).drf.e + 1) % 32) * 2 ^ 32) := by
    have held' : advanceHeld c { u with drf := { u.drf with periodAt := u.now, owed := u.drf.owed + 1 } } = true := held
    simp only [t, epochTickOp]
    rw [if_neg awake, if_pos held', if_neg (by rw [first]; decide), hw]
  rw [← shape] at told
  rw [told.drf, told.keep, told.getF _ _ _ (by decide), hw]
  exact ⟨rfl, rfl, rfl, getF_flag_same _ _ _ _ (by decide) (by decide), rfl⟩

/-- One advance is owed and nothing holds it: it is made. -/
theorem settleEpoch_once (n : Nat) (awake : c.mode ≠ .hush) (free : advanceHeld c u = false) (one : u.drf.owed = 1) : settleEpoch c (n + 2) u = advanceEpoch { u with drf := { u.drf with owed := 0, held := false } } := by
  have first : ¬(u.drf.owed = 0 ∨ c.mode = .hush) := not_or.mpr ⟨by omega, awake⟩
  have held : ¬advanceHeld c u = true := by rw [free]; decide
  calc settleEpoch c (n + 2) u = settleEpoch c (n + 1) (advanceEpoch { u with drf := { u.drf with owed := u.drf.owed - 1, held := false } }) := (if_neg first).trans (if_neg held)
    _ = settleEpoch c (n + 1) (advanceEpoch { u with drf := { u.drf with owed := 0, held := false } }) := by rw [one]
    _ = _ := if_pos (.inl rfl)

/-- A tick whose advance is made at once, none being owed. -/
theorem epochTickOp_advances (awake : c.mode ≠ .hush) (free : advanceHeld c u = false) (none_ : u.drf.owed = 0) : let t := epochTickOp c u
    let e := (u.drf.e + 1) % 256
    t.drf.e = e ∧ t.drf.owed = 0 ∧ (∀ g, g < nStripes u.v → tabGet t.keep.refRows (g * 32 + e % 32) = e + 1) ∧ t.hng = u.hng := by
  obtain ⟨w, hw⟩ : ∃ w : Units, w = { u with drf := { u.drf with periodAt := u.now, owed := 0, held := false } } := ⟨_, rfl⟩
  intro t e
  have shape : t = advanceEpoch w := by
    have held : ¬advanceHeld c { u with drf := { u.drf with periodAt := u.now, owed := u.drf.owed + 1 } } = true := by
      rw [show advanceHeld c { u with drf := { u.drf with periodAt := u.now, owed := u.drf.owed + 1 } } = advanceHeld c u from rfl, free]
      decide
    simp only [t, epochTickOp]
    rw [if_neg awake, if_neg held, hw]
    exact settleEpoch_once 30 awake free (congrArg (· + 1) none_)
  rw [shape, hw]
  refine ⟨rfl, rfl, fun g known => ?_, rfl⟩
  have row := writeRows_does w e g (by rw [hw]; exact known)
  rw [hw] at row
  exact row

/-! ### Calibration -/

/-- A fold that rewrites one entry of a table for each name of a list. -/
theorem tabGet_rewrite (key : Nat → Nat) (f : Nat → Nat → Nat) (inj : ∀ a b, key a = key b → a = b) {l : List Nat} (distinct : l.Nodup) {a : Nat} (mem : a ∈ l) (t : Tab Nat) :
    tabGet (l.foldl (fun t a => tabPut t (key a) (f a (tabGet t (key a)))) t) (key a) = f a (tabGet t (key a)) := by
  have rest : ∀ (l : List Nat) (t : Tab Nat), a ∉ l → tabGet (l.foldl (fun t a => tabPut t (key a) (f a (tabGet t (key a)))) t) (key a) = tabGet t (key a) := by
    intro l
    induction l with
    | nil => exact fun t _ => rfl
    | cons b l ih =>
      intro t free
      rw [List.mem_cons, not_or] at free
      exact (ih _ free.2).trans (tabGet_put_other (fun same => free.1 (inj _ _ same)) ..)
  induction l generalizing t with
  | nil => exact absurd mem List.not_mem_nil
  | cons b l ih =>
    obtain ⟨fresh_, distinct⟩ := List.nodup_cons.mp distinct
    by_cases same : a = b
    · rw [← same] at fresh_ ⊢
      exact (rest _ _ fresh_).trans (tabGet_put_same ..)
    · refine (ih distinct ((List.mem_cons.mp mem).resolve_left same) _).trans ?_
      exact congrArg (f a) (tabGet_put_other (fun h => same (inj _ _ h)) ..)

/-- The code chosen is a candidate, or the present one. -/
theorem bestCode_below {cand : List Nat} {score : Nat → Nat} {now n : Nat} (all : ∀ a ∈ cand, a < n) (here : now < n) : bestCode cand score now < n := by
  have fold : ∀ (l : List Nat) (b : Nat), (∀ a ∈ l, a < n) → b < n → l.foldl (fun b c => if score c < score b ∨ (score c = score b ∧ b ≠ now ∧ (c = now ∨ c < b)) then c else b) b < n := by
    intro l
    induction l with
    | nil => exact fun b _ h => h
    | cons a l ih =>
      intro b all h
      refine ih _ (fun x mem => all x (List.mem_cons_of_mem _ mem)) ?_
      dsimp only
      split
      · exact all a List.mem_cons_self
      · exact h
  refine fold cand _ all ?_
  cases cand with
  | nil => exact here
  | cons a l => exact all a List.mem_cons_self

/-- Every new code of a calibration is a code. -/
theorem newCodes_below (u : Units) (g : Nat) (sweep : Bool) (scores : List Nat) : ∀ x ∈ newCodes u g sweep scores, x.1 < 16 := by
  intro x mem
  obtain ⟨b, -, rfl⟩ := List.mem_map.mp mem
  have now : driftCode u g 0 b < 16 := Nat.mod_lt _ (by decide)
  dsimp only
  split
  · exact now
  · refine bestCode_below (fun a mem => ?_) now
    split at mem
    · exact List.mem_range.mp mem
    · exact List.mem_range.mp (List.mem_filter.mp mem).1

/-- Under the one-step rule a row of codes never falls, rises by at most one, and stays among the codes. -/
theorem oneStep_climbs : ∀ (l : List Nat) (p : Nat), p < 16 → (∀ a ∈ l, a < 16) → (∀ a ∈ p :: oneStep p l, a < 16) ∧ (p :: oneStep p l).length = l.length + 1 ∧
    ∀ b, b < l.length → (p :: oneStep p l).getD b 0 ≤ (p :: oneStep p l).getD (b + 1) 0 ∧ (p :: oneStep p l).getD (b + 1) 0 ≤ (p :: oneStep p l).getD b 0 + 1
  | [], p, here, _ => ⟨fun a mem => (List.mem_singleton.mp mem) ▸ here, rfl, fun b h => absurd h (Nat.not_lt_zero b)⟩
  | c :: l, p, here, all => by
    obtain ⟨x, hx⟩ : ∃ x, x = min (max c p) (p + 1) := ⟨_, rfl⟩
    have code : c < 16 := all c List.mem_cons_self
    obtain ⟨codes, length, climbs⟩ := oneStep_climbs l x (by omega) fun a mem => all a (List.mem_cons_of_mem _ mem)
    have shape : p :: oneStep p (c :: l) = p :: x :: oneStep x l := by rw [hx]; rfl
    rw [shape]
    refine ⟨fun a mem => ?_, by rw [List.length_cons, length, List.length_cons], fun b h => ?_⟩
    · rcases List.mem_cons.mp mem with rfl | mem
      · exact here
      · exact codes a mem
    · cases b with
      | zero =>
        show p ≤ x ∧ x ≤ p + 1
        omega
      | succ b => exact climbs b (Nat.lt_of_succ_lt_succ h)

theorem sum_range_eight (f : Nat → Nat) : ((List.range 8).map f).sum = f 0 + (f 1 + (f 2 + (f 3 + (f 4 + (f 5 + (f 6 + f 7)))))) := by
  simp only [List.range, List.range.loop, List.map_cons, List.map_nil, List.sum_cons, List.sum_nil, Nat.add_zero]

/-- A field of a map word. -/
theorem nbits_mapWord (l : List Nat) {b : Nat} (h : b < 8) : nbits (mapWord l) (4 * b) 4 = l.getD b 0 % 16 := by
  rw [nbits, mapWord, sum_range_eight]
  interval_cases b <;> norm_num only <;> omega

/-- The codes of a row of the map before the one-step rule: those of wear 0, or those moved by the offsets of its wear (R381). -/
def rowCodes (u : Units) (zero : List Nat) (w : Nat) : List Nat :=
  if w = 0 then zero else (List.range 8).map fun b => (max 0 (min 15 ((zero.getD b 0 : Int) + wofs u w b))).toNat

theorem rowCodes_codes {zero : List Nat} (length : zero.length = 8) (codes : ∀ a ∈ zero, a < 16) (w : Nat) : (rowCodes u zero w).length = 8 ∧ ∀ a ∈ rowCodes u zero w, a < 16 := by
  unfold rowCodes
  split
  · exact ⟨length, codes⟩
  · refine ⟨List.length_map .., fun a mem => ?_⟩
    obtain ⟨b, -, rfl⟩ := List.mem_map.mp mem
    omega

theorem putCodes_map (u : Units) (g : Nat) (zero : List Nat) : (putCodes u g zero).drf.map =
    (List.range 4).foldl (fun t w => tabPut t (g * 4 + w) (mapWord ((rowCodes u zero w).headD 0 :: oneStep ((rowCodes u zero w).headD 0) (rowCodes u zero w).tail))) u.drf.map := by
  simp only [putCodes, rowCodes]

theorem getD_mem {l : List Nat} {b : Nat} (h : b < l.length) : l.getD b 0 ∈ l := by
  rw [List.getD_eq_getElem _ _ h]
  exact List.getElem_mem h

/-- The rows a calibration writes never fall from bucket to bucket, and rise by at most one. -/
theorem putCodes_steps (u : Units) (g : Nat) {zero : List Nat} (length : zero.length = 8) (codes : ∀ a ∈ zero, a < 16) {w b : Nat} (hw : w < 4) (hb : b < 7) : let t := putCodes u g zero
    driftCode t g w b ≤ driftCode t g w (b + 1) ∧ driftCode t g w (b + 1) ≤ driftCode t g w b + 1 := by
  obtain ⟨eight, below⟩ := rowCodes_codes (u := u) length codes w
  intro t
  have word : tabGet t.drf.map (g * 4 + w) = mapWord ((rowCodes u zero w).headD 0 :: oneStep ((rowCodes u zero w).headD 0) (rowCodes u zero w).tail) := by
    simp only [t]
    rw [putCodes_map]
    exact tabGet_rewrite (fun w => g * 4 + w) (fun w _ => mapWord ((rowCodes u zero w).headD 0 :: oneStep ((rowCodes u zero w).headD 0) (rowCodes u zero w).tail))
      (fun a b same => Nat.add_left_cancel same) List.nodup_range (List.mem_range.mpr hw) _
  generalize rowCodes u zero w = l at eight below word
  clear_value t
  obtain ⟨a, rest, split_⟩ : ∃ a rest, l = a :: rest := by
    cases l with
    | nil => exact absurd eight (by decide)
    | cons a rest => exact ⟨a, rest, rfl⟩
  rw [split_] at word eight below
  rw [List.headD_cons, List.tail_cons] at word
  obtain ⟨small, size, climbs⟩ := oneStep_climbs rest a (below a List.mem_cons_self) fun x mem => below x (List.mem_cons_of_mem _ mem)
  have code (b : Nat) (h : b < 8) : driftCode t g w b = (a :: oneStep a rest).getD b 0 := by
    unfold driftCode
    rw [word, nbits_mapWord _ h]
    refine Nat.mod_eq_of_lt ?_
    exact small _ (getD_mem (by rw [size]; rw [List.length_cons] at eight; omega))
  rw [code b (by omega), code (b + 1) (by omega)]
  exact climbs b (by rw [List.length_cons] at eight; omega)

theorem putCodes_only (u : Units) (g : Nat) (zero : List Nat) : ∃ m, putCodes u g zero = { u with drf := { u.drf with map := m } } := ⟨_, rfl⟩

/-- The operation flags at most, writes the rows and moves the read pointers. -/
theorem calibrateOp_shape (u : Units) (g : Nat) (sweep : Bool) (scores : List Nat) : ∃ y m, y.drf = u.drf ∧ y.keep = u.keep ∧
    putCodes y g ((newCodes u g sweep scores).map fun x => x.1) = { y with drf := { y.drf with map := m } } ∧
    calibrateOp u g sweep scores = { y with drf := { y.drf with
      map := m, pointer := (List.range 32).foldl (fun t r => tabPut t (g * 32 + r) ((tabGet t (g * 32 + r) + 2) % 128)) y.drf.pointer, cals := y.drf.cals.filter fun x => x.1 != g } } := by
  obtain ⟨x, hx⟩ : ∃ x, x = if (List.range 32).any fun r => 0 < tabGet u.keep.refRows (g * 32 + r) && !rowValid u g r scores then flag u F.DRF_ERR_ref_bad else u := ⟨_, rfl⟩
  obtain ⟨y, hy⟩ : ∃ y, y = if (newCodes u g sweep scores).any fun x => x.2 && (x.1 == 0 || x.1 == 15) then flag x F.DRF_ERR_edge else x := ⟨_, rfl⟩
  have same_x : x.drf = u.drf ∧ x.keep = u.keep := by rw [hx]; split <;> exact ⟨rfl, rfl⟩
  have same_y : y.drf = u.drf ∧ y.keep = u.keep := by rw [hy]; split <;> exact same_x
  obtain ⟨m, hm⟩ := putCodes_only y g ((newCodes u g sweep scores).map fun x => x.1)
  refine ⟨y, m, same_y.1, same_y.2, hm, ?_⟩
  unfold calibrateOp
  dsimp only
  rw [← hx, ← hy, hm]

/-- What a calibration of a group leaves: the codes of its rows step by at most one, its read pointers go two lines on, and it waits no more. -/
theorem calibrateOp_does (u : Units) (g : Nat) (sweep : Bool) (scores : List Nat) : let t := calibrateOp u g sweep scores
    (∀ z ∈ t.drf.cals, z.1 ≠ g) ∧ (∀ w b, w < 4 → b < 7 → driftCode t g w b ≤ driftCode t g w (b + 1) ∧ driftCode t g w (b + 1) ≤ driftCode t g w b + 1) ∧
      (∀ r, r < 32 → tabGet t.drf.pointer (g * 32 + r) = (tabGet u.drf.pointer (g * 32 + r) + 2) % 128) ∧ t.drf.e = u.drf.e ∧ t.keep = u.keep := by
  obtain ⟨y, m, drf, keep, rows, shape⟩ := calibrateOp_shape u g sweep scores
  have zero : ∀ a ∈ (newCodes u g sweep scores).map fun x => x.1, a < 16 := fun a mem => by
    obtain ⟨x, found, rfl⟩ := List.mem_map.mp mem
    exact newCodes_below u g sweep scores x found
  have length : ((newCodes u g sweep scores).map fun x => x.1).length = 8 := (List.length_map ..).trans (List.length_map ..)
  have steps (w b : Nat) (hw : w < 4) (hb : b < 7) := putCodes_steps y g length zero hw hb
  unfold driftCode at steps ⊢
  rw [rows] at steps
  intro t
  simp only [t]
  rw [shape]
  refine ⟨fun z mem => ?_, steps, fun r hr => ?_, by rw [← drf], keep⟩
  · exact bne_iff_ne.mp (List.mem_filter.mp mem).2
  · rw [← drf]
    have moved := tabGet_rewrite (fun r => g * 32 + r) (fun _ x => (x + 2) % 128) (fun a b same => Nat.add_left_cancel same) List.nodup_range (List.mem_range.mpr hr) y.drf.pointer
    dsimp only at moved ⊢
    exact moved

/-- Settles O50: the journal and the checkpoint by their operations, the age epoch by the tick that is held or made, the calibration by the rows it writes. -/
theorem journalAgesAndCalibration : Obligations.JournalAgesAndCalibration := by
  intro s h
  refine ⟨fun runs some_ => ?_, fun b rest runs first early quiet => ?_, fun runs on _ hinge pip quiet => ?_, fun awake => ⟨fun held first => ?_, fun free none_ => ?_⟩, fun g scores runs known lit => ?_⟩
  · refine (exec_journalFlushTimer ..).trans (onU_next ?_)
    rw [if_pos (show hingeRuns (fresh s) = true from runs)]
    exact if_neg some_
  · obtain ⟨keep, writing, seq, pd, fences⟩ := blockWrittenOp_keeps (u := fresh s) first early
    refine ⟨_, (exec_journalBlockWritten ..).trans (onU_next ((if_pos runs).trans (settleDescs_rests ((ringsRun_same pd fences).trans quiet)))), keep, writing, seq⟩
  · obtain ⟨off, ⟨sb, newest, j0, slot, clean⟩, held, blocks, pd, fences⟩ := checkpointEndOp_ends (u := fresh s) on hinge pip
    refine ⟨_, sb, (exec_checkpointEnd ..).trans (onU_next ((if_pos runs).trans (settleDescs_rests ((ringsRun_same pd fences).trans quiet)))), off, newest, j0, slot, clean, held, blocks⟩
  · exact ⟨_, (exec_ageEpochTick ..).trans (onU_next rfl), epochTickOp_holds (c := s.ctl) (u := fresh s) awake held first⟩
  · exact ⟨_, (exec_ageEpochTick ..).trans (onU_next rfl), epochTickOp_advances (c := s.ctl) (u := fresh s) awake free none_⟩
  · have may : (hingeRuns (fresh s) && decide (g < nStripes (fresh s).v) && pdOn (fresh s) (pdMedia (g / 8))) = true := by
      rw [Bool.and_eq_true, Bool.and_eq_true, decide_eq_true_iff]
      exact ⟨⟨runs, known⟩, lit⟩
    exact ⟨_, (exec_driftCalibrate ..).trans (onU_next (if_pos may)), calibrateOp_does ..⟩

end

end Sys2Proof.Machine
end

section
/-! PROOF. Scrubbers, arbiters and repairs (R408): a repair that names no die position. -/

namespace Sys2Proof.Machine

section

/-- A repair of a position that no stripe has: 9, one past the parity line's places. -/
def pastRepair : Repair := { pos := 9 }

/-- The stripe group has one die left, at position 8, and its scheduler holds an entry of another stripe group under the number that the next entry takes. -/
def pastState : State where
  ctl := { mode := .run }
  u := { pd := ⟨[(6, 1), (35, 1)]⟩, hng := { hinge := ⟨[(0, 0)]⟩, pip := ⟨[(0, 2 * 2 ^ 56)]⟩, failed := [0, 1, 2, 3, 4, 5, 6, 7] }, grp := ⟨[(0, { bufs := [{ use := .repair 0 0 0 false, group := 1, formed := true }] })]⟩, repairs := [pastRepair] }

/-- Its placement is still the one the repair names. -/
theorem past_placed : placementAnswer pastState.ctl (fresh pastState) 0 0 = (.at_ 0 0 0 false, count (pinStripe (fresh pastState) 0 0) (cCore 10)) := by
  decide

set_option maxRecDepth 2000 in
/-- Eight of the nine lines it asks for are gone, so that its reads end at once, and what it then writes goes to the entry that bore the number first: none is left of its own stripe group. -/
theorem past_overwritten : (grp (repairOp pastState.ctl (fresh pastState) 0) 0).bufs.all (fun b => b.group == 1) = true := by decide

/-- Refutes O51: a repair that names position 9 of a stripe with one die left, taken while another entry bears the next entry's number, leaves no entry of its stripe group. -/
theorem not_scrubbersArbitersAndRepairs : ¬ Obligations.ScrubbersArbitersAndRepairs := by
  unfold Obligations.ScrubbersArbitersAndRepairs
  intro h
  obtain ⟨-, -, -, -, -, repairs⟩ := h pastState
  obtain ⟨-, placed⟩ := repairs pastRepair 0 rfl (.inl rfl) (by decide) (by decide) (by decide)
  obtain ⟨-, taken⟩ := placed 0 0 0 false _ past_placed
  obtain ⟨t, b, goes, -, mem, group, -⟩ := taken rfl rfl rfl (by decide) ⟨8, by decide⟩
  have after : t.u = repairOp pastState.ctl (fresh pastState) 0 := by
    rw [onU_inj ((exec_repair 0 pastState).symm.trans goes)]
  rw [after] at mem
  have other := List.all_eq_true.mp past_overwritten b mem
  rw [group] at other
  exact absurd other (by decide)

end

end Sys2Proof.Machine
end

section
/-! PROOF. Latches, rechecks and bandwidth windows (R435, R553 to R555, R151, R157). -/

namespace Sys2Proof.Machine

section
variable {u x y : Units} {c : Ctl}

/-! ### Bandwidth windows -/

/-- A fold in which one step establishes a fact that every step keeps. -/
theorem foldl_writes {α : Type} {P Q : Units → Prop} {f : Units → α → Units} {a : α} (keeps : ∀ u b, Q u → Q (f u b)) (writes : ∀ u, Q u → P (f u a)) (stays : ∀ u b, Q u → P u → P (f u b))
    (l : List α) (u : Units) (start : Q u) (mem : a ∈ l ∨ P u) : P (l.foldl f u) := by
  classical
  induction l generalizing u with
  | nil => exact mem.resolve_left List.not_mem_nil
  | cons b l ih =>
    refine ih _ (keeps u b start) ?_
    by_cases same : a = b
    · rw [← same]
      exact .inr (writes u start)
    · rcases mem with mem | holds
      · exact .inl ((List.mem_cons.mp mem).resolve_left same)
      · exact .inr (stays u b start holds)

theorem tabFind_filter {α : Type} {p : Nat → Bool} {k : Nat} (kept : p k = true) (l : List (Nat × α)) : tabFind k (l.filter fun c => p c.1) = tabFind k l := by
  induction l with
  | nil => rfl
  | cons c l ih =>
    by_cases keep : p c.1 = true
    · rw [List.filter_cons_of_pos (p := fun c : Nat × α => p c.1) keep]
      unfold tabFind
      rw [ih]
    · rw [List.filter_cons_of_neg (p := fun c : Nat × α => p c.1) keep, ih]
      have other : c.1 ≠ k := fun same => keep (same ▸ kept)
      conv_rhs => unfold tabFind
      rw [if_neg other]

/-- Only the histograms and their registers change. -/
def HistogramsOnly (u x : Units) : Prop := x.ports = u.ports ∧ x.v = u.v ∧ ∀ r i j, regAddr r i j < 0xA04000 → rawReg x r i j = rawReg u r i j

theorem HistogramsOnly.trans (h : HistogramsOnly u x) (h' : HistogramsOnly x y) : HistogramsOnly u y := by
  obtain ⟨p, v, k⟩ := h
  obtain ⟨p', v', k'⟩ := h'
  exact ⟨p'.trans p, v'.trans v, fun r i j low => (k' r i j low).trans (k r i j low)⟩

theorem HistogramsOnly.putReg (u : Units) (r : Reg) (i j n : Nat) (high : 0xA04000 ≤ r.info.base) : HistogramsOnly u (Machine.putReg u r i j n) :=
  ⟨rfl, rfl, fun r' i' j' low => rawReg_putReg_other (by have := regAddr_base_le r i j; omega) ..⟩

theorem copyHistograms_only (u : Units) : HistogramsOnly u (copyHistograms u) := by
  have refl (u : Units) : HistogramsOnly u u := ⟨rfl, rfl, fun _ _ _ _ => rfl⟩
  have cleared : HistogramsOnly u { u with regs := { u.regs with cur := tabFilter u.regs.cur fun a => !inHistograms a } } := by
    refine ⟨rfl, rfl, fun r i j low => ?_⟩
    have kept : (!inHistograms (regAddr r i j)) = true := by
      unfold inHistograms
      rw [decide_eq_false (by omega), Bool.false_and, Bool.not_false]
    exact congrArg (fun o => BitVec.toNat (Option.getD o _)) (tabFind_filter (p := fun a => !inHistograms a) kept _)
  have stored {f : Units → Nat × Nat → Units} (step : ∀ u x, HistogramsOnly u (f u x)) (u : Units) (l : List (Nat × Nat)) : HistogramsOnly u (putAll u l f) :=
    foldl_keeps (P := HistogramsOnly) refl .trans step l u
  have told (u : Units) (t : Tele) : HistogramsOnly u { u with tele := t } := ⟨rfl, rfl, fun _ _ _ _ => rfl⟩
  unfold copyHistograms
  refine (((cleared.trans (stored (fun u x => ?_) _ _)).trans (stored (fun u x => ?_) _ _)).trans (stored (fun u x => ?_) _ _)).trans (told _ _)
  · split
    · exact ((HistogramsOnly.putReg _ _ _ _ _ (by decide)).trans (.putReg _ _ _ _ _ (by decide))).trans (.putReg _ _ _ _ _ (by decide))
    · exact .putReg _ _ _ _ _ (by decide)
  · exact .putReg _ _ _ _ _ (by decide)
  · exact .putReg _ _ _ _ _ (by decide)

/-- The counts of a port stand in its window registers. -/
def WindowShown (q : Port) (p : Nat) (u : Units) : Prop :=
  rawReg u .RGL_PORT_p_BW_RD p = q.rdLines % 2 ^ 32 ∧ rawReg u .RGL_PORT_p_BW_WR p = q.wrLines % 2 ^ 32 ∧ rawReg u .RGL_PORT_p_BW_HELD p = q.heldCycles % 2 ^ 32

/-- The counts of one port are copied. -/
def copyWindow (u : Units) (p : Nat) : Units :=
  putReg (putReg (putReg u .RGL_PORT_p_BW_RD p 0 (port u p).rdLines) .RGL_PORT_p_BW_WR p 0 (port u p).wrLines) .RGL_PORT_p_BW_HELD p 0 (port u p).heldCycles

theorem windowAddr (p : Nat) : regAddr .RGL_PORT_p_BW_RD p 0 = 0x14001C + p * 64 ∧ regAddr .RGL_PORT_p_BW_WR p 0 = 0x140020 + p * 64 ∧ regAddr .RGL_PORT_p_BW_HELD p 0 = 0x140024 + p * 64 :=
  ⟨rfl, rfl, rfl⟩

theorem copyWindow_shows (u : Units) (p : Nat) : WindowShown (port u p) p (copyWindow u p) := by
  obtain ⟨rd, wr, held⟩ := windowAddr p
  unfold copyWindow
  refine ⟨?_, ?_, rawReg_putReg_same ..⟩
  · rw [rawReg_putReg_other (by omega), rawReg_putReg_other (by omega), rawReg_putReg_same]
  · rw [rawReg_putReg_other (by omega), rawReg_putReg_same]

theorem copyWindow_other {p q : Nat} (other : q ≠ p) {z : Port} (shown : WindowShown z p u) : WindowShown z p (copyWindow u q) := by
  obtain ⟨rd, wr, held⟩ := windowAddr p
  obtain ⟨rd', wr', held'⟩ := windowAddr q
  unfold copyWindow WindowShown
  iterate 9 rw [rawReg_putReg_other (by omega)]
  exact shown

/-- Every port's counts are copied. -/
theorem copyWindows_show (u : Units) {p : Nat} {l : List Nat} (mem : p ∈ l) : WindowShown (port u p) p (l.foldl copyWindow u) := by
  refine foldl_writes (f := copyWindow) (P := WindowShown (port u p) p) (Q := fun x => x.ports = u.ports) (a := p) (fun x q same => same) (fun x same => ?_) (fun x q same shown => ?_) l u rfl (.inl mem)
  · have port_x : port x p = port u p := by unfold port; rw [same]
    exact port_x ▸ copyWindow_shows x p
  · by_cases other : q = p
    · rw [other]
      have port_x : port x p = port u p := by unfold port; rw [same]
      exact port_x ▸ copyWindow_shows x p
    · exact copyWindow_other other shown

theorem copyWindows_keep (u : Units) (l : List Nat) : (l.foldl copyWindow u).ports = u.ports ∧ (l.foldl copyWindow u).v = u.v :=
  ⟨foldl_same (f := copyWindow) (g := Units.ports) (fun _ _ => rfl) l u, foldl_same (f := copyWindow) (g := Units.v) (fun _ _ => rfl) l u⟩

/-- The counts of every port restart. -/
theorem restartWindow_restarts (u : Units) {p : Nat} (known : p < nPorts u.v) : port (restartWindow u) p = { port u p with rdLines := 0, wrLines := 0, heldCycles := 0 } := by
  have step (x : Units) (q : Nat) : port (setPort x q { port x q with rdLines := 0, wrLines := 0, heldCycles := 0 }) p = if p = q then { port x p with rdLines := 0, wrLines := 0, heldCycles := 0 } else port x p := by
    split
    case isTrue same => rw [← same, port_setPort_same]
    case isFalse other => exact port_setPort_other _ _ other
  refine foldl_writes (P := fun x => port x p = { port u p with rdLines := 0, wrLines := 0, heldCycles := 0 }) (Q := fun x => port x p = port u p ∨ port x p = { port u p with rdLines := 0, wrLines := 0, heldCycles := 0 })
    (a := p) (fun x q before => ?_) (fun x before => ?_) (fun x q _ after => ?_) _ u (.inl rfl) (.inl (List.mem_range.mpr known))
  · dsimp only
    rw [step]
    split
    · exact .inr (by rcases before with h | h <;> rw [h])
    · exact before
  · dsimp only
    rw [step, if_pos rfl]
    rcases before with h | h <;> rw [h]
  · dsimp only
    rw [step]
    split <;> rw [after]

theorem restartWindow_keeps (u : Units) : (restartWindow u).regs = u.regs ∧ (restartWindow u).v = u.v := by
  unfold restartWindow
  exact ⟨foldl_same (g := Units.regs) (fun u p => setPort_regs u p _) _ u, foldl_same (g := Units.v) (fun u p => setPort_v u p _) _ u⟩

/-- The end of a window copies the counts of a port and restarts them. -/
theorem windowEndOp_does (u : Units) {p : Nat} (known : p < nPorts u.v) : let t := windowEndOp u
    port t p = { port u p with rdLines := 0, wrLines := 0, heldCycles := 0 } ∧ WindowShown (port u p) p t := by
  obtain ⟨a, ha⟩ : ∃ a, a = (List.range (nPorts u.v)).foldl copyWindow u := ⟨_, rfl⟩
  obtain ⟨ports, v⟩ := copyWindows_keep u (List.range (nPorts u.v))
  have shown := copyWindows_show u (List.mem_range.mpr known)
  rw [← ha] at ports v shown
  obtain ⟨regs, v'⟩ := restartWindow_keeps a
  have port_a : port a p = port u p := by unfold port; rw [ports]
  have restarted := restartWindow_restarts a (v ▸ known)
  rw [port_a] at restarted
  have shown' : WindowShown (port u p) p (restartWindow a) := by
    unfold WindowShown rawReg at shown ⊢
    rw [regs, v']
    exact shown
  obtain ⟨rd, wr, held⟩ := windowAddr p
  intro t
  have small : p < 64 := Nat.lt_of_lt_of_le known (by cases u.v <;> decide)
  have shape : t = if pdOn (restartWindow a) 5 then copyHistograms (restartWindow a) else restartWindow a := by rw [ha]; rfl
  rw [shape]
  split
  · obtain ⟨ports, -, regs⟩ := copyHistograms_only (restartWindow a)
    obtain ⟨shown1, shown2, shown3⟩ := shown'
    refine ⟨?_, (regs _ _ _ (by omega)).trans shown1, (regs _ _ _ (by omega)).trans shown2, (regs _ _ _ (by omega)).trans shown3⟩
    rw [← restarted]
    unfold port
    rw [ports]
  · exact ⟨restarted, shown'⟩

/-! ### The switch of the banks -/

/-- The epoch in force and both banks stay. -/
def BanksKept (u x : Units) : Prop := x.regs.epoch = u.regs.epoch ∧ x.regs.bankA = u.regs.bankA ∧ x.regs.bankB = u.regs.bankB

theorem BanksKept.trans (h : BanksKept u x) (h' : BanksKept x y) : BanksKept u y := by
  obtain ⟨e, a, b⟩ := h
  obtain ⟨e', a', b'⟩ := h'
  exact ⟨e'.trans e, a'.trans a, b'.trans b⟩

theorem noteRefusal_banks (u old : Units) (a : Nat) : BanksKept u (noteRefusal u old a) := by
  unfold noteRefusal
  split
  · exact ⟨rfl, rfl, rfl⟩
  · dsimp only
    split
    · exact ⟨rfl, rfl, rfl⟩
    · split
      · exact ⟨rfl, rfl, rfl⟩
      · split <;> exact ⟨rfl, rfl, rfl⟩

theorem bringTables_banks (u : Units) : BanksKept u (bringTables u) := by
  have refl (u : Units) : BanksKept u u := ⟨rfl, rfl, rfl⟩
  refine foldl_keeps (P := BanksKept) refl .trans (fun u t => ?_) _ u
  refine foldl_keeps (P := BanksKept) refl .trans (fun u ch => ?_) _ u
  dsimp only
  split <;> exact ⟨rfl, rfl, rfl⟩

theorem bringContexts_banks (u : Units) : BanksKept u (bringContexts u) ∧ (bringContexts u).ctxStaged = [] := by
  unfold bringContexts
  dsimp only
  split <;> exact ⟨⟨rfl, rfl, rfl⟩, rfl⟩

/-- What the switch leaves of the banks: the one in force keeps what it held, the other is the new one and comes into force. -/
theorem switchBanks_does (u : Units) : (switchBanks u).regs.epoch = (u.regs.epoch + 1) % 4 ∧ (switchBanks u).regs.deferred = false ∧ (switchBanks u).regs.descStaged = [] ∧ (switchBanks u).ctxStaged = [] ∧
    bankOf (switchBanks u).regs u.regs.epoch = bankOf u.regs u.regs.epoch ∧ bankOf (switchBanks u).regs (u.regs.epoch + 1) = newBank u := by
  obtain ⟨noted, hn⟩ : ∃ noted, noted = if taking u then (tabKeys u.regs.staged).foldl (fun w a => noteRefusal w u a) u else u := ⟨_, rfl⟩
  have banks_n : BanksKept u noted := by
    rw [hn]
    split
    · exact foldl_keeps (P := BanksKept) (fun u => ⟨rfl, rfl, rfl⟩) .trans (fun w a => noteRefusal_banks w u a) _ u
    · exact ⟨rfl, rfl, rfl⟩
  obtain ⟨banks_c, staged⟩ := bringContexts_banks (bringTables noted)
  obtain ⟨-, bankA, bankB⟩ := (banks_n.trans (bringTables_banks noted)).trans banks_c
  unfold switchBanks
  dsimp only
  rw [← hn]
  unfold bankOf
  simp only [count_regs_epoch, count_regs_deferred, count_regs_descStaged, count_ctxStaged, count_regs_bankA, count_regs_bankB, keysAtLatch]
  rcases Nat.mod_two_eq_zero_or_one u.regs.epoch with even | odd
  · have next : ¬(u.regs.epoch + 1) % 4 % 2 = 0 := by omega
    have next' : ¬(u.regs.epoch + 1) % 2 = 0 := by omega
    simp only [if_pos even, if_neg next, if_neg next']
    exact ⟨trivial, trivial, trivial, staged, bankA, trivial⟩
  · have this_ : ¬u.regs.epoch % 2 = 0 := by omega
    have next : (u.regs.epoch + 1) % 4 % 2 = 0 := by omega
    have next' : (u.regs.epoch + 1) % 2 = 0 := by omega
    simp only [if_neg this_, if_pos next, if_pos next']
    exact ⟨trivial, trivial, trivial, staged, bankB, trivial⟩

/-! ### The latch -/

theorem pumpAll_still (still : ∀ cl, cl < nClusters u.v → clusterStill u cl) : pumpAll c u = u := by
  have fold : ∀ l : List Nat, (∀ cl ∈ l, clusterStill u cl) → l.foldl (fun u cl => pumpCluster c (pumpCluster c u cl) cl) u = u := by
    intro l
    induction l with
    | nil => exact fun _ => rfl
    | cons cl l ih =>
      intro all
      have idle := pumpCluster_still c u cl (all cl List.mem_cons_self)
      rw [List.foldl_cons, idle, idle]
      exact ih fun k mem => all k (List.mem_cons_of_mem _ mem)
  exact fold _ fun cl mem => still cl (List.mem_range.mp mem)

/-- The registers of the ledger, which stand above those of telemetry, keep their values. -/
def LedgerKept (u x : Units) : Prop := ∀ a d, 0xA80000 ≤ a → tabGetD x.regs.cur a d = tabGetD u.regs.cur a d

theorem LedgerKept.trans (h : LedgerKept u x) (h' : LedgerKept x y) : LedgerKept u y := fun a d high => (h' a d high).trans (h a d high)

theorem LedgerKept.putReg (u : Units) (r : Reg) (i j n : Nat) (low : regAddr r i j < 0xA80000) : LedgerKept u (Machine.putReg u r i j n) := fun a d high => tabGetD_putD_other (by omega) ..

theorem LedgerKept.flag (u : Units) (f : Fld) (low : regAddr f.reg 0 0 < 0xA80000) : LedgerKept u (Machine.flag u f) := fun a d high => tabGetD_putD_other (by omega) ..

theorem LedgerKept.tele (u : Units) (t : Tele) : LedgerKept u { u with tele := t } := fun _ _ _ => rfl

theorem countWrap_ledger (fuel n k : Nat) (known : n ≤ 1471) (u : Units) : LedgerKept u (countWrap u fuel n k) := by
  induction fuel generalizing u n k with
  | zero => exact fun _ _ _ => rfl
  | succ fuel ih =>
    simp only [countWrap]
    split
    · exact fun _ _ _ => rfl
    · split
      case isTrue chain => exact (LedgerKept.tele u _).trans (ih (n + 1) 1 (by omega) _)
      case isFalse =>
        refine (LedgerKept.tele u _).trans (.putReg _ .TELE_OVF_k (n / 32) 0 _ ?_)
        show 0xA13000 + n / 32 * 4 + 0 * 0 < 0xA80000
        omega

theorem count_ledger {n : Nat} (known : n ≤ 1471) (u : Units) : LedgerKept u (count u n) := by
  unfold count countN
  split
  · exact fun _ _ _ => rfl
  · exact countWrap_ledger 1472 n 1 known u

theorem emitEvent_ledger (u : Units) (code inst : Nat) (words : List Word) : LedgerKept u (emitEvent u code inst words) := by
  unfold emitEvent
  dsimp only
  split
  · split
    · exact (count_ledger (by decide) u).trans (.tele _ _)
    · exact (((count_ledger (by decide) u).trans (.flag _ _ (by decide))).trans (.tele _ _)).trans (count_ledger (by decide) _)
  · exact .putReg _ F.TELE_AON_LOST_count.reg 0 0 _ (by decide)

/-- What a deferral leaves: it is counted, and reported where it is the 256th; the banks and the changes that wait stay. -/
theorem deferLatch_does (u : Units) : let t := deferLatch u
    BanksKept u t ∧ t.regs.deferred = true ∧ t.regs.defers = u.regs.defers + 1 ∧ t.ctxStaged = u.ctxStaged ∧ t.v = u.v ∧ t.ports = u.ports ∧ t.adm = u.adm ∧ t.audit = u.audit ∧
      (256 ≤ u.regs.defers + 1 → u.regs.lateSeen = false → getF t F.LDG_ERR_latch_late = 1) := by
  obtain ⟨a, ha⟩ : ∃ a, a = count { u with regs := { u.regs with deferred := true, defers := u.regs.defers + 1 } } (cCore 4) := ⟨_, rfl⟩
  have late : a.regs.lateSeen = u.regs.lateSeen := by rw [ha, count_regs_lateSeen]
  have facts : BanksKept u a ∧ a.regs.deferred = true ∧ a.regs.defers = u.regs.defers + 1 ∧ a.ctxStaged = u.ctxStaged ∧ a.v = u.v ∧ a.ports = u.ports ∧ a.adm = u.adm ∧ a.audit = u.audit := by
    simp only [BanksKept, ha, count_regs_epoch, count_regs_bankA, count_regs_bankB, count_regs_deferred, count_regs_defers, count_ctxStaged, count_v, count_ports, count_adm, count_audit]
    exact ⟨⟨trivial, trivial, trivial⟩, trivial, trivial, trivial, trivial, trivial, trivial, trivial⟩
  intro t
  by_cases report : 256 ≤ u.regs.defers + 1 ∧ a.regs.lateSeen = false
  · obtain ⟨w, hw⟩ : ∃ w, w = flag { a with regs := { a.regs with lateSeen := true } } F.LDG_ERR_latch_late := ⟨_, rfl⟩
    obtain ⟨x, hx⟩ : ∃ x, x = emitEvent w 0xD 0 [BitVec.ofNat 32 (ldgState a)] := ⟨_, rfl⟩
    have shape : t = x := by
      simp only [t, deferLatch]
      rw [← ha, if_pos report, hx, hw]
    have told : CountsOnly w x := hx ▸ emitEvent_only ..
    have shown : getF x F.LDG_ERR_latch_late = 1 := by
      have kept : LedgerKept w x := by rw [hx]; exact emitEvent_ledger w _ _ _
      have same : getF x F.LDG_ERR_latch_late = getF w F.LDG_ERR_latch_late := by
        obtain ⟨⟨cur, tele, only⟩, -⟩ := told
        have v : x.v = w.v := by rw [only]
        unfold getF rawReg
        rw [v, kept _ _ (by decide)]
      rw [same, hw]
      exact getF_flag_same _ _ _ _ (by decide) (by decide)
    obtain ⟨⟨cur, tele, only⟩, -⟩ := told
    rw [hw] at only
    obtain ⟨banks, deferred, defers, staged, v, ports, adm, audit⟩ := facts
    rw [shape]
    refine ⟨?_, ?_, ?_, ?_, ?_, ?_, ?_, ?_, fun _ _ => shown⟩ <;> rw [only]
    · exact banks
    · exact deferred
    · exact defers
    · exact staged
    · exact v
    · exact ports
    · exact adm
    · exact audit
  · have shape : t = a := by
      simp only [t, deferLatch]
      rw [← ha, if_neg report]
    rw [shape]
    obtain ⟨banks, deferred, defers, staged, v, ports, adm, audit⟩ := facts
    exact ⟨banks, deferred, defers, staged, v, ports, adm, audit, fun many seen => absurd ⟨many, late.trans seen⟩ report⟩

/-- A state that comes of a latch without an advance, nothing of the clusters going on. -/
theorem endLatch_stays {x : Units} (due : x.adm.due = 0) (audit : x.audit = none) (still : ∀ cl, cl < nClusters x.v → clusterStill x cl) : pumpAll c (nextRound (auditLatched (bringOutcome c x false))) = nextRound x := by
  have brought : bringOutcome c x false = x := by
    unfold bringOutcome
    rw [if_neg (fun h => h due), if_neg Bool.false_ne_true]
  have audited : auditLatched x = x := by
    unfold auditLatched
    rw [audit]
  rw [brought, audited]
  exact pumpAll_still (u := nextRound x) still

/-- Settles O52: the latch in its three cases, the switch of the banks, the recheck and the window by their operations. -/
theorem latchesAndRechecks : Obligations.LatchesAndRechecks := by
  intro s
  refine ⟨fun may still due audit => ⟨fun wait live => ?_, fun idle => ?_⟩, switchBanks_does, fun may wait free => ?_, fun lit due => ?_, fun lit windows => ?_⟩
  · obtain ⟨⟨epoch, bankA, bankB⟩, deferred, defers, staged, v, ports, adm, audit', report⟩ := deferLatch_does (fresh s)
    have still' : ∀ cl, cl < nClusters (deferLatch (fresh s)).v → clusterStill (deferLatch (fresh s)) cl := by
      unfold clusterStill port
      rw [v, ports]
      exact still
    have stays := endLatch_stays (c := s.ctl) ((congrArg Adm.due adm).trans due) (audit'.trans audit) still'
    have op : latchOp s.ctl (fresh s) = nextRound (deferLatch (fresh s)) := by
      have want : changesWait (fresh s) = true := wait
      have older : oldLive (fresh s) = true := live
      unfold latchOp
      rw [want, older]
      exact stays
    exact ⟨_, (exec_latch ..).trans (onU_next ((if_pos may).trans op)), epoch, deferred, defers, bankA, bankB, staged, report⟩
  · have stays := endLatch_stays (c := s.ctl) (x := { fresh s with regs := { s.u.regs with deferred := false, defers := 0 } }) due audit still
    have op : latchOp s.ctl (fresh s) = nextRound { fresh s with regs := { s.u.regs with deferred := false, defers := 0 } } := by
      have want : changesWait (fresh s) = false := idle
      unfold latchOp
      rw [want]
      exact stays
    exact ⟨_, (exec_latch ..).trans (onU_next ((if_pos may).trans op)), rfl, rfl, rfl⟩
  · have op : latchOp s.ctl (fresh s) = pumpAll s.ctl (nextRound (auditLatched (advanceLatch s.ctl (fresh s)))) := by
      have want : changesWait (fresh s) = true := wait
      have older : oldLive (fresh s) = false := free
      unfold latchOp
      rw [want, older]
      rfl
    exact (exec_latch ..).trans (onU_next ((if_pos may).trans op))
  · exact ⟨_, _, (exec_recheck ..).trans (onU_next ((if_pos lit).trans (if_neg due))), rfl⟩
  · refine ⟨_, (exec_bwWindowEnd ..).trans (onU_next (if_pos ⟨lit, windows⟩)), fun p known => ?_⟩
    obtain ⟨restarted, rd, wr, held⟩ := windowEndOp_does (fresh s) known
    exact ⟨restarted, rd, wr, held⟩

end

end Sys2Proof.Machine
end

section
/-! PROOF. The supply and DRAIN (R477, R489 to R493). -/

namespace Sys2Proof.Machine

section
variable {u : Units} {c : Ctl}

theorem completeOpt_keeps (u : Units) (d : Option (Nat × Nat)) (st r0 r1 : Nat) : NoticeOnly u (completeOpt u d st r0 r1) := by
  unfold completeOpt
  split
  · exact complete_keeps ..
  · exact .refl u

/-- What DRAIN_DONE leaves: no transition but one into DRAIN is under way, and that one has its completion. -/
theorem drainEnd_done (mode : c.mode = .drain) (only : ∀ x, u.pwr.trans = some x → x.target = .drain) : let t := drainEnd c u
    t.1 = { c with drainDone := true, thermOff := c.shutdown } ∧ t.2.keep = u.keep := by
  obtain ⟨n, shape⟩ : ∃ n, drainEnd c u = settleMode { c with drainDone := true, thermOff := c.shutdown } (putReg u .PWR_DRAIN 0 0 n) := ⟨_, rfl⟩
  rw [shape]
  unfold settleMode
  cases under : u.pwr.trans with
  | none => simp only [putReg_pwr, under, putReg_keep, and_self]
  | some t =>
    simp only [putReg_pwr, under, only t under, mode, if_true]
    exact ⟨trivial, (completeOpt_keeps ..).keep⟩

theorem drainTrigger_begins (cause : Nat) (reset : c.mode ≠ .reset) (drain : c.mode ≠ .drain) (hush : c.mode ≠ .hush) (entering : u.pwr.hushing = false) : (drainTrigger c u cause).1 = enterMode c .drain cause := by
  unfold drainTrigger
  rw [if_neg (not_or.mpr ⟨reset, drain⟩), if_neg (not_or.mpr ⟨hush, by rw [entering]; decide⟩)]
  rfl

/-- In HUSH a trigger of DRAIN wakes the block. -/
theorem drainTrigger_wakes (cause : Nat) (hush : c.mode = .hush) (first : u.pwr.wakeDrain = 0) (asleep : u.pwr.waking = false) :
    drainTrigger c u cause = (c, { u with pwr := { u.pwr with wakeDrain := cause, waking := true, rising := wakeDomains u } }) := by
  unfold drainTrigger
  rw [if_neg (by rw [hush]; decide), if_pos (.inl hush)]
  dsimp only
  rw [first, if_pos rfl]
  exact congrArg (Prod.mk c) (if_pos ⟨hush, asleep⟩)

/-- The end of a DRAIN that the journal of RUN precedes: the superblock is clean and holds the tail. -/
theorem drainCompleteOp_writes (mode : c.mode = .drain) (first : c.drainDone = false) (bare : bareDrain c = false) (ready : drainReady u = true) (written : u.hng.writing = []) (closed : u.hng.open_ = [])
    (only : ∀ x, u.pwr.trans = some x → x.target = .drain) : let t := drainCompleteOp c u
    t.1 = { c with drainDone := true, thermOff := c.shutdown } ∧ t.2.keep.blocks = u.keep.blocks ∧ ∃ sb, newestSb t.2.keep = some sb ∧ sb.clean = true ∧ sb.tail = u.hng.seq := by
  have point : (closePoint u).2 = u := if_pos closed
  obtain ⟨w, hw⟩ : ∃ w, w = writeSb u (((newestSb u.keep).map fun s => s.j0).getD 0) (((newestSb u.keep).map fun s => s.slot).getD 0) u.hng.seq true := ⟨_, rfl⟩
  obtain ⟨sb, newest, -, -, clean, tail, -⟩ := writeSb_newest u (((newestSb u.keep).map fun s => s.j0).getD 0) (((newestSb u.keep).map fun s => s.slot).getD 0) u.hng.seq true
  obtain ⟨blocks, -⟩ := writeSb_keeps u (((newestSb u.keep).map fun s => s.j0).getD 0) (((newestSb u.keep).map fun s => s.slot).getD 0) u.hng.seq true
  rw [← hw] at newest blocks
  have pwr : w.pwr = u.pwr := by
    rw [hw]
    unfold writeSb
    dsimp only
    split <;> rfl
  have end_ := drainEnd_done (c := c) (u := w) mode (by rw [pwr]; exact only)
  have shape : drainCompleteOp c u = drainEnd c w := by
    unfold drainCompleteOp
    rw [if_neg (by rw [mode, first]; decide), if_neg (by rw [bare]; decide), if_neg (by rw [ready]; decide)]
    dsimp only
    rw [point, if_neg (not_not.mpr written), hw]
  intro t
  simp only [t]
  rw [shape]
  obtain ⟨ctl, keep⟩ := end_
  rw [keep]
  exact ⟨ctl, blocks, sb, newest, clean, tail⟩

/-- Settles O54: PWRFAIL_N by the trigger of DRAIN, and its end by what it writes. -/
theorem drainsAndTheSupply : Obligations.DrainsAndTheSupply := by
  intro s
  refine ⟨fun reset drain hush entering => ?_, fun hush first asleep => ?_, fun out => ?_, fun reset drain => ?_, fun mode first only => ⟨fun bare => ?_, fun bare ready written closed => ?_, fun bare busy => ?_⟩⟩
  · refine ⟨_, (exec_pwrfail ..).trans (onBoth_pair rfl), ?_⟩
    have op : pwrfailOp s.ctl (fresh s) = drainTrigger s.ctl { fresh s with pwr := { s.u.pwr with pwrfail := true } } 5 := if_neg (not_or.mpr ⟨reset, drain⟩)
    show (pwrfailOp s.ctl (fresh s)).1 = _
    rw [op]
    exact drainTrigger_begins 5 reset drain hush entering
  · have op : pwrfailOp s.ctl (fresh s) = drainTrigger s.ctl { fresh s with pwr := { s.u.pwr with pwrfail := true } } 5 := if_neg (by rw [hush]; decide)
    exact ⟨_, (exec_pwrfail ..).trans (onBoth_next (op.trans (drainTrigger_wakes 5 hush first asleep))), rfl, rfl⟩
  · exact (exec_pwrfail ..).trans (onBoth_next (if_pos out))
  · refine ⟨_, (exec_pwrfailGlitch ..).trans (onU_next (if_neg (not_or.mpr ⟨drain, reset⟩))), rfl, rfl, getF_flag_same _ _ _ _ (by decide) (by decide)⟩
  · have op : drainCompleteOp s.ctl (fresh s) = drainEnd s.ctl (fresh s) := by
      unfold drainCompleteOp
      rw [if_neg (by rw [mode, first]; decide), if_pos bare]
    exact ⟨_, (exec_drainComplete ..).trans (onBoth_pair op), drainEnd_done (u := fresh s) mode only⟩
  · obtain ⟨ctl, blocks, sb, newest, clean, tail⟩ := drainCompleteOp_writes (u := fresh s) mode first bare ready written closed only
    exact ⟨_, sb, (exec_drainComplete ..).trans (onBoth_pair rfl), ctl, newest, clean, tail, blocks⟩
  · refine (exec_drainComplete ..).trans (onBoth_next ?_)
    unfold drainCompleteOp
    rw [if_neg (by rw [mode, first]; decide), if_neg (by rw [bare]; decide)]
    exact if_pos busy

end

end Sys2Proof.Machine
end

section
/-! PROOF. From reset to training (R477, R512): LOAD in a block whose notice ring is enabled. -/

namespace Sys2Proof.Machine

section

/-- A block in RESET whose notice ring is enabled. -/
def noticingState : State where
  ctl := { mode := .reset }
  u := { rings := { ntEnabledOnce := true, ntState := 1 } }

/-- An answer of the serial memory: none. -/
def noAnswer : BootOutcome := ⟨false, 0, false, [], [], [], []⟩

/-- The change of mode writes its notice before the read of the serial memory begins. -/
theorem noticing_writes : (loadOp noticingState.ctl (fresh noticingState) noAnswer).2.out.length = 2 := by decide

/-- Refutes O57: in a block whose notice ring is enabled LOAD presents the write of the notice of its change of mode beside the read of the serial memory. -/
theorem not_bootReachesTraining : ¬ Obligations.BootReachesTraining := by
  unfold Obligations.BootReachesTraining
  intro h
  obtain ⟨load, -⟩ := h noticingState
  obtain ⟨t, goes, -, -, -, -, out⟩ := load noAnswer rfl
  have after : t.u = (loadOp noticingState.ctl (fresh noticingState) noAnswer).2 := by
    rw [onBoth_inj ((exec_load noAnswer noticingState).symm.trans goes)]
  rw [after] at out
  exact absurd (noticing_writes.symm.trans (congrArg List.length out)) (by decide)

end

end Sys2Proof.Machine
end

section
/-! PROOF. The key port (R120 to R128, R519, R574). -/

namespace Sys2Proof.Machine

section
variable {u : Units} {s : State} {ws : List Word} {typ : Nat} {effect : Units → Units}

/-- A RESULT changes the key port alone: it is queued and recorded. -/
theorem keyResult_only (u : Units) (hdr code : Nat) : ∃ q, keyResult u hdr code = { u with keyPort := { u.keyPort with outq := q, result := some (nbits hdr 8 8 + code * 2 ^ 8 + hdr % 256 * 2 ^ 16) } } := ⟨_, rfl⟩

theorem keyResult_keys (u : Units) (hdr code : Nat) : (keyResult u hdr code).keys = u.keys := by
  obtain ⟨q, h⟩ := keyResult_only u hdr code
  rw [h]

theorem keyResult_result (u : Units) (hdr code : Nat) : (keyResult u hdr code).keyPort.result = some (nbits hdr 8 8 + code * 2 ^ 8 + hdr % 256 * 2 ^ 16) := by
  obtain ⟨q, h⟩ := keyResult_only u hdr code
  rw [h]

theorem keyResult_boot (u : Units) (hdr code : Nat) : (keyResult u hdr code).boot = u.boot := by
  obtain ⟨q, h⟩ := keyResult_only u hdr code
  rw [h]

theorem keyWiped_only (u : Units) (slot cause : Nat) : NoticeOnly u (keyWiped u slot cause) := (NoticeOnly.counts (emitEvent_only ..)).trans (.notice ..)

/-- A message that the port takes is judged. -/
theorem keyMessage_judged (takes : keyTakes u = true) (some_ : ws ≠ []) (kind : keyType ws = typ) : keyMessage typ ws effect u = match keyJudge u ws with
    | some code => keyResult u (keyHdr ws) code
    | none => effect u :=
  if_neg (by rintro (h | h | h); exacts [absurd (h.symm.trans takes) (by decide), some_ h, h kind])

/-- A message that is stopped is answered by its code. -/
theorem keyMessage_stopped {code : Nat} (takes : keyTakes u = true) (some_ : ws ≠ []) (kind : keyType ws = typ) (stop : keyJudge u ws = some code) : keyMessage typ ws effect u = keyResult u (keyHdr ws) code := by
  rw [keyMessage_judged takes some_ kind]
  simp only [stop]

/-- A message that nothing stops has its effect. -/
theorem keyMessage_acts (takes : keyTakes u = true) (some_ : ws ≠ []) (kind : keyType ws = typ) (free : keyJudge u ws = none) : keyMessage typ ws effect u = effect u := by
  rw [keyMessage_judged takes some_ kind]
  simp only [free]

/-- The state after a RESULT as the statement names it. -/
theorem answered_of (hdr code : Nat) {t : Units} (keys : t.keys = s.u.keys) : let x : State := { s with u := keyResult t hdr code }
    (x.ctl = s.ctl ∧ x.u.keyPort.result = some (nbits hdr 8 8 + code * 2 ^ 8 + hdr % 256 * 2 ^ 16)) ∧ x.u.keys = s.u.keys :=
  ⟨⟨rfl, keyResult_result ..⟩, (keyResult_keys ..).trans keys⟩

/-! ### Erasing slots -/

theorem tabGet_mapKey (f : Nat → KeySlot → KeySlot) (zero : ∀ k, f k default = default) (t : Tab KeySlot) (k : Nat) : tabGet ⟨t.cells.map fun x => (x.1, f x.1 x.2)⟩ k = f k (tabGet t k) := by
  have cells : ∀ l : List (Nat × KeySlot), (tabFind k (l.map fun x => (x.1, f x.1 x.2))).getD default = f k ((tabFind k l).getD default) := by
    intro l
    induction l with
    | nil => exact (zero k).symm
    | cons x l ih =>
      by_cases same : x.1 = k
      · simp only [List.map_cons, tabFind, same, if_true, Option.getD_some]
      · simp only [List.map_cons, tabFind, if_neg same]
        exact ih
  exact cells t.cells

/-- Erasing takes a loaded slot that the test admits, and no other. -/
theorem eraseSlots_slot (u : Units) (p : Nat → Bool) (k : Nat) : tabGet (eraseSlots u p).keys k = if p k ∧ (tabGet u.keys k).state = 1 then { tabGet u.keys k with state := 2 } else tabGet u.keys k := by
  have cells : (eraseSlots u p).keys = ⟨u.keys.cells.map fun x => (x.1, if p x.1 ∧ x.2.state = 1 then { x.2 with state := 2 } else x.2)⟩ := by
    unfold eraseSlots
    refine congrArg Tab.mk (List.map_congr_left fun x _ => ?_)
    split <;> rfl
  rw [cells]
  exact tabGet_mapKey (fun k x => if p k ∧ x.state = 1 then { x with state := 2 } else x) (fun k => if_neg (fun h => absurd h.2 (by decide))) u.keys k

theorem tabFind_mem {α : Type} {k : Nat} {x : α} {l : List (Nat × α)} (h : tabFind k l = some x) : (k, x) ∈ l := by
  induction l with
  | nil => exact absurd h.symm (Option.some_ne_none x)
  | cons c l ih =>
    unfold tabFind at h
    split at h
    · next same => rw [← same, ← Option.some.inj h]; exact List.mem_cons_self
    · exact List.mem_cons_of_mem _ (ih h)

/-- What every cell and the default satisfy, every entry does. -/
theorem tabGet_all {P : KeySlot → Prop} {t : Tab KeySlot} (zero : P default) (all : ∀ x ∈ t.cells, P x.2) (k : Nat) : P (tabGet t k) := by
  unfold tabGet tabGetD
  cases found : tabFind k t.cells with
  | none => exact zero
  | some x => exact all (k, x) (tabFind_mem found)

/-! ### What the messages do -/

theorem keyLoadOp_loads (empty : (tabGet u.keys (keySlotOf ws)).state = 0) (strong : weakKey (keyBits ws) = false) : let t := keyLoadOp ws u
    t.keyPort.result = some (nbits (keyHdr ws) 8 8 + 0 * 2 ^ 8 + keyHdr ws % 256 * 2 ^ 16) ∧ t.regs.banked = true ∧ t.keys = tabPut u.keys (keySlotOf ws) { state := 1, key := keyBits ws } := by
  obtain ⟨w, hw⟩ : ∃ w, w = keyEvent (putKey u (keySlotOf ws) { state := 1, key := keyBits ws }) (keySlotOf ws) 0xFF := ⟨_, rfl⟩
  have keys : w.keys = tabPut u.keys (keySlotOf ws) { state := 1, key := keyBits ws } := by
    rw [hw]
    exact emitEvent_keys ..
  have shape : keyLoadOp ws u = keyResult (bankChange w) (keyHdr ws) 0 := by
    unfold keyLoadOp
    rw [if_neg (not_not.mpr empty), if_neg (by rw [strong]; decide), hw]
  obtain ⟨q, only⟩ := keyResult_only (bankChange w) (keyHdr ws) 0
  intro t
  simp only [t]
  rw [shape, only]
  exact ⟨rfl, rfl, keys⟩

theorem keyEraseOp_marks (loaded : (tabGet u.keys (keySlotOf ws)).state = 1) : let t := keyEraseOp ws u
    t.keyPort.erase = some (keyHdr ws, keySlotOf ws, false) ∧ t.regs.banked = true ∧ t.keys = (eraseSlots u fun k => k == keySlotOf ws).keys := by
  have shape : keyEraseOp ws u = { bankChange (eraseSlots u fun k => k == keySlotOf ws) with keyPort := { u.keyPort with erase := some (keyHdr ws, keySlotOf ws, false) } } := by
    unfold keyEraseOp
    rw [if_neg (by rw [loaded]; decide)]
    rfl
  intro t
  simp only [t]
  rw [shape]
  exact ⟨rfl, rfl, rfl⟩

theorem eraseAllOp_marks (some_ : ∃ z ∈ u.keys.cells, z.2.state ≠ 0) : (eraseAllOp ws u).keyPort.erase = some (keyHdr ws, 1024, false) ∧ (eraseAllOp ws u).keys = (eraseSlots u fun _ => true).keys := by
  have busy : ¬(u.keys.cells.all fun x => x.2.state == 0) = true := by
    obtain ⟨z, mem, live⟩ := some_
    exact fun all => live (beq_iff_eq.mp (List.all_eq_true.mp all z mem))
  unfold eraseAllOp
  rw [if_neg busy]
  exact ⟨rfl, rfl⟩

theorem lcChangeOp_begins {c : Ctl} (may : (ws.getD 1 0).toNat < 4 ∧ (ws.getD 2 0).toNat = u.boot.lcState ∧ lcPermits u.boot.lcState (ws.getD 1 0).toNat = true) (idle : u.boot.spi = .none) : let t := lcChangeOp c ws u
    t.keys.cells = [] ∧ t.keyPort.state = 0 ∧ t.boot.lcNew = some { state := (ws.getD 1 0).toNat, hdr := keyHdr ws } ∧ t.boot.spi = .lcErase ∧ t.boot.lcState = u.boot.lcState := by
  obtain ⟨low, recorded, permitted⟩ := may
  have told := keyWiped_only { u with keys := tabNil } 0x3FF 2
  obtain ⟨w, hw⟩ : ∃ w, w = keyWiped { u with keys := tabNil } 0x3FF 2 := ⟨_, rfl⟩
  rw [← hw] at told
  obtain ⟨x, hx⟩ : ∃ x, x = onBoot (sendHello c w 2) fun b => { b with lcNew := some { state := (ws.getD 1 0).toNat, hdr := keyHdr ws } } := ⟨_, rfl⟩
  have boot : x.boot = { u.boot with lcNew := some { state := (ws.getD 1 0).toNat, hdr := keyHdr ws } } := by
    rw [hx]
    have same : (sendHello c w 2).boot = u.boot := told.boot
    unfold onBoot
    rw [same]
  have keys : x.keys = tabNil := by
    rw [hx]
    exact told.keys
  have state : x.keyPort.state = 0 := by
    rw [hx]
    rfl
  have spi : x.boot.spi = .none := by
    rw [boot]
    exact idle
  have shape : lcChangeOp c ws u = startSpi x .lcErase := by
    unfold lcChangeOp
    dsimp only
    rw [if_neg (by rintro (h | h | h); exacts [absurd low (Nat.not_lt.mpr h), h recorded, absurd (permitted.symm.trans h) (by decide)]), ← hw, ← hx]
    exact if_pos spi
  intro t
  simp only [t]
  rw [shape]
  refine ⟨congrArg Tab.cells keys, state, ?_, rfl, ?_⟩
  · show x.boot.lcNew = _
    rw [boot]
  · show x.boot.lcState = _
    rw [boot]

theorem keyEraseDoneOp_ends {h k : Nat} (waits : u.keyPort.erase = some (h, k, true)) (retired : oldLive u = false) : let t := keyEraseDoneOp u
    t.keyPort.result = some (nbits h 8 8 + 0 * 2 ^ 8 + h % 256 * 2 ^ 16) ∧ t.keyPort.erase = none ∧ ∀ i, (tabGet t.keys i).state ≠ 2 := by
  obtain ⟨a, ha⟩ : ∃ a, a = { u with keys := ⟨u.keys.cells.filter fun x => x.2.state != 2⟩, keyPort := { u.keyPort with erase := none } } := ⟨_, rfl⟩
  obtain ⟨b, hb⟩ : ∃ b, b = if k = 1024 then keyWiped a 0x3FF 3 else keyWiped a k 4 := ⟨_, rfl⟩
  have told : NoticeOnly a b := by
    rw [hb]
    split <;> exact keyWiped_only ..
  have shape : keyEraseDoneOp u = keyResult b h 0 := by
    unfold keyEraseDoneOp
    simp only [waits]
    rw [if_neg (by rw [retired]; decide), ← ha, ← hb]
  obtain ⟨q, only⟩ := keyResult_only b h 0
  intro t
  simp only [t]
  rw [shape, only]
  refine ⟨rfl, ?_, fun i => ?_⟩
  · show b.keyPort.erase = none
    rw [told.keyPort, ha]
  · show (tabGet b.keys i).state ≠ 2
    rw [told.keys, ha]
    exact tabGet_all (P := fun x => x.state ≠ 2) (by decide) (fun x mem => bne_iff_ne.mp (List.mem_filter.mp mem).2) i

theorem helloLateOp_flags (late : u.keyPort.hello = true) : (helloLateOp u).keyPort.hello = false ∧ getF (helloLateOp u) F.KEY_PORT_STATE_ack_late = 1 := by
  obtain ⟨a, ha⟩ : ∃ a, a = flag { u with keyPort := { u.keyPort with hello := false } } F.KEY_PORT_STATE_ack_late := ⟨_, rfl⟩
  have told := keyWiped_only a 0x3FF 5
  have shape : helloLateOp u = keyWiped a 0x3FF 5 := by
    unfold helloLateOp
    rw [if_pos late, ha]
  rw [shape, told.keyPort, told.getF _ _ _ (by decide), ha]
  exact ⟨rfl, getF_flag_same _ _ _ _ (by decide) (by decide)⟩

/-- A word is taken; with the last one the RESULT shows. -/
theorem keyWordTakenOp_takes {w : Word} {last : Bool} {rest : List (Word × Bool)} (first : u.keyPort.outq = (w, last) :: rest) : let t := keyWordTakenOp u
    t.out = u.out ++ [.keyWord w last] ∧ t.keyPort.outq = rest ∧ t.keys = u.keys ∧
      (∀ x, rest = [] → u.keyPort.result = some x → x < 2 ^ 24 → t.keyPort.result = none ∧ rawReg t .KEY_PORT_STATE / 256 = x) := by
  intro t
  by_cases ends : rest = [] ∧ ∃ x, u.keyPort.result = some x
  · obtain ⟨none_, x, result⟩ := ends
    obtain ⟨a, ha⟩ : ∃ a, a = present { u with keyPort := { u.keyPort with outq := rest } } (.keyWord w last) := ⟨_, rfl⟩
    obtain ⟨n, hn⟩ : ∃ n, n = rawReg a .KEY_PORT_STATE % 256 + x * 256 := ⟨_, rfl⟩
    have shape : t = { putReg a .KEY_PORT_STATE 0 0 n with keyPort := { a.keyPort with result := none } } := by
      have result' : a.keyPort.result = some x := by rw [ha]; exact result
      simp only [t, keyWordTakenOp, first]
      rw [← ha, hn]
      simp only [none_, result']
      rfl
    rw [shape]
    refine ⟨by rw [ha]; rfl, by rw [ha]; rfl, by rw [ha]; rfl, fun y _ shown small => ⟨rfl, ?_⟩⟩
    have same : x = y := Option.some.inj (result.symm.trans shown)
    show rawReg (putReg a .KEY_PORT_STATE 0 0 n) .KEY_PORT_STATE / 256 = y
    rw [rawReg_putReg_same, hn]
    omega
  · have shape : t = present { u with keyPort := { u.keyPort with outq := rest } } (.keyWord w last) := by
      simp only [t, keyWordTakenOp, first]
      split
      · next h1 h2 => exact absurd ⟨rfl, _, h2⟩ ends
      · rfl
    rw [shape]
    exact ⟨rfl, rfl, rfl, fun x none_ result _ => absurd ⟨none_, x, result⟩ ends⟩

/-- Settles O56: each message by what its operation does, the judgement of a message first. -/
theorem keyMessagesAct : Obligations.KeyMessagesAct := by
  intro s ws hdr slot answered
  refine ⟨fun takes some_ => ⟨fun code stop => ⟨fun kind => ?_, fun kind => ?_, fun kind => ?_⟩, fun code form => ?_, fun free => ⟨fun kind => ⟨fun full => ?_, fun empty weak => ?_, fun empty strong => ?_⟩,
    fun kind => ⟨fun empty => ?_, fun loaded => ?_⟩, fun kind => ⟨fun all => ?_, fun some_loaded => ?_⟩, fun kind => ?_, fun kind mode => ?_⟩⟩,
    fun lit => ⟨fun h k waits => ⟨fun retired => ?_, fun live => ?_⟩, fun late => ?_, fun w last rest first => ?_⟩⟩
  · exact ⟨_, (exec_keyLoad ..).trans (onU_next (keyMessage_stopped (u := fresh s) takes some_ kind stop)), answered_of hdr code rfl⟩
  · exact ⟨_, (exec_keyErase ..).trans (onU_next (keyMessage_stopped (u := fresh s) takes some_ kind stop)), answered_of hdr code rfl⟩
  · exact ⟨_, (exec_eraseAll ..).trans (onU_next (keyMessage_stopped (u := fresh s) takes some_ kind stop)), answered_of hdr code rfl⟩
  · refine ⟨_, (exec_keyMessageBad ..).trans (onU_next (x := keyResult (fresh s) hdr code) ?_), answered_of hdr code rfl⟩
    rw [if_neg (by rintro (h | h); exacts [absurd (h.symm.trans takes) (by decide), some_ h])]
    simp only [form]
    rfl
  · exact ⟨_, (exec_keyLoad ..).trans (onU_next ((keyMessage_acts (u := fresh s) takes some_ kind free).trans (if_pos full))), answered_of hdr 4 rfl⟩
  · exact ⟨_, (exec_keyLoad ..).trans (onU_next ((keyMessage_acts (u := fresh s) takes some_ kind free).trans ((if_neg (not_not.mpr empty)).trans (if_pos weak)))), answered_of hdr 5 rfl⟩
  · obtain ⟨result, banked, keys⟩ := keyLoadOp_loads (u := fresh s) (ws := ws) empty strong
    refine ⟨_, (exec_keyLoad ..).trans (onU_next (keyMessage_acts (u := fresh s) takes some_ kind free)), ⟨rfl, result⟩, banked, ?_, fun k other => ?_⟩
    · exact (congrArg (tabGet · slot) keys).trans (tabGet_put_same ..)
    · exact (congrArg (tabGet · k) keys).trans (tabGet_put_other other ..)
  · exact ⟨_, (exec_keyErase ..).trans (onU_next ((keyMessage_acts (u := fresh s) takes some_ kind free).trans (if_pos empty))), answered_of hdr 0 rfl⟩
  · obtain ⟨erase, banked, keys⟩ := keyEraseOp_marks (u := fresh s) (ws := ws) loaded
    refine ⟨_, (exec_keyErase ..).trans (onU_next (keyMessage_acts (u := fresh s) takes some_ kind free)), rfl, erase, banked, ?_, fun k other => ?_⟩
    · exact (congrArg (tabGet · slot) keys).trans ((eraseSlots_slot ..).trans (if_pos ⟨beq_self_eq_true _, loaded⟩))
    · exact (congrArg (tabGet · k) keys).trans ((eraseSlots_slot ..).trans (if_neg fun h => other (beq_iff_eq.mp h.1)))
  · have told := keyWiped_only (fresh s) 0x3FF 3
    have empty : ((fresh s).keys.cells.all fun x => x.2.state == 0) = true := List.all_eq_true.mpr fun z mem => beq_iff_eq.mpr (all z mem)
    exact ⟨_, (exec_eraseAll ..).trans (onU_next ((keyMessage_acts (u := fresh s) takes some_ kind free).trans (if_pos empty))), answered_of hdr 0 told.keys⟩
  · obtain ⟨erase, keys⟩ := eraseAllOp_marks (u := fresh s) (ws := ws) some_loaded
    refine ⟨_, (exec_eraseAll ..).trans (onU_next (keyMessage_acts (u := fresh s) takes some_ kind free)), erase, fun k => ?_⟩
    have now : tabGet (eraseAllOp ws (fresh s)).keys k = _ := (congrArg (tabGet · k) keys).trans (eraseSlots_slot ..)
    show (tabGet (eraseAllOp ws (fresh s)).keys k).state ≠ 1
    rw [now]
    split
    · exact Nat.succ_ne_self 1
    · next not_ => exact fun loaded => not_ ⟨rfl, loaded⟩
  · refine ⟨_, (exec_helloAck ..).trans (onU_next (keyMessage_acts (u := fresh s) takes some_ kind free)), ⟨rfl, keyResult_result ..⟩, ?_⟩
    obtain ⟨q, only⟩ := keyResult_only (putF { fresh s with keyPort := { s.u.keyPort with state := 1, hello := false } } F.KEY_PORT_STATE_ack_late 0 0 0) hdr 0
    have shape : helloAckOp ws (fresh s) = _ := only
    show (helloAckOp ws (fresh s)).keyPort.state = 1 ∧ (helloAckOp ws (fresh s)).keyPort.hello = false ∧ getF (helloAckOp ws (fresh s)) F.KEY_PORT_STATE_ack_late = 0
    rw [shape]
    exact ⟨rfl, rfl, getF_putF_same { fresh s with keyPort := { s.u.keyPort with state := 1, hello := false } } F.KEY_PORT_STATE_ack_late 0 0 0 (by decide)⟩
  · intro target ok
    refine ⟨fun may idle => ?_, fun may => ?_⟩
    · exact ⟨_, (exec_lcChange ..).trans (onU_next ((if_neg mode).trans (keyMessage_acts (u := fresh s) takes some_ kind free))), lcChangeOp_begins (u := fresh s) may idle⟩
    · have refused : lcChangeOp s.ctl ws (fresh s) = keyResult (fresh s) hdr 2 := by
        refine if_pos ?_
        by_contra all
        obtain ⟨low, rest⟩ := not_or.mp all
        obtain ⟨recorded, permitted⟩ := not_or.mp rest
        exact may ⟨Nat.not_le.mp low, not_not.mp recorded, Bool.eq_true_of_not_eq_false permitted⟩
      obtain ⟨shown, keys⟩ := answered_of (s := s) hdr 2 (t := fresh s) rfl
      exact ⟨_, (exec_lcChange ..).trans (onU_next ((if_neg mode).trans ((keyMessage_acts (u := fresh s) takes some_ kind free).trans refused))), shown, keys, keyResult_boot (fresh s) hdr 2⟩
  · obtain ⟨result, erase, zero⟩ := keyEraseDoneOp_ends (u := fresh s) waits retired
    exact ⟨_, (exec_keyEraseDone ..).trans (onU_next (if_pos lit)), ⟨rfl, result⟩, erase, zero⟩
  · refine (exec_keyEraseDone ..).trans (onU_next ((if_pos lit).trans ?_))
    have waits' : (fresh s).keyPort.erase = some (h, k, true) := waits
    unfold keyEraseDoneOp
    simp only [waits']
    exact if_pos live
  · exact ⟨_, (exec_helloAckLate ..).trans (onU_next (if_pos lit)), helloLateOp_flags (u := fresh s) late⟩
  · exact ⟨_, (exec_keyOutWordTaken ..).trans (onU_next (if_pos lit)), keyWordTakenOp_takes (u := fresh s) first⟩

end

end Sys2Proof.Machine
end

section
/-! PROOF. Heat (R494 to R503). -/

namespace Sys2Proof.Machine

section
variable {u x : Units} {c : Ctl} {z i : Nat}

theorem thermReport_only (u : Units) (zone sensor cause step : Nat) : NoticeOnly u (thermReport u zone sensor cause step) := (NoticeOnly.counts (emitEvent_only ..)).trans (.notice ..)

/-! ### Readings -/

theorem sensorAddr (i : Nat) : regAddr .PWR_SENSOR_i i 0 = 0x900200 + i * 4 := rfl

theorem zoneAddr (z : Nat) : regAddr .PWR_ZONE_z_STATE z 0 = 0x900104 + z * 8 := rfl

/-- A sensor that fails shows it, and the flag is set. -/
theorem failSensor_shows (known : i < 32) : getF (failSensor u i) F.PWR_SENSOR_i_failed i = 1 ∧ getF (failSensor u i) F.PWR_ERR_sensor = 1 := by
  obtain ⟨a, ha⟩ : ∃ a, a = flag u F.PWR_SENSOR_i_failed i := ⟨_, rfl⟩
  obtain ⟨b, hb⟩ : ∃ b : Units, b = { flag a F.PWR_ERR_sensor with pwr := { u.pwr with sensors := tabPut u.pwr.sensors i { tabGet u.pwr.sensors i with good := 0 } } } := ⟨_, rfl⟩
  obtain ⟨zone, step, shape⟩ : ∃ zone step, failSensor u i = thermReport b zone i 1 step := by
    rw [hb, ha]
    exact ⟨_, _, rfl⟩
  have told := thermReport_only b zone i 1 step
  have low : regAddr F.PWR_SENSOR_i_failed.reg i 0 < teleAddr := by
    show 0x900200 + i * 4 + 0 * 0 < 0xA10000
    omega
  rw [shape, told.getF _ _ _ low, told.getF _ _ _ (by decide)]
  have first : getF a F.PWR_SENSOR_i_failed i = 1 := by
    rw [ha]
    exact getF_flag_same _ _ _ _ (by decide) (by decide)
  have other : regAddr F.PWR_SENSOR_i_failed.reg i 0 ≠ regAddr F.PWR_ERR_sensor.reg 0 0 := by
    show 0x900200 + i * 4 + 0 * 0 ≠ 0x900028
    omega
  rw [hb]
  exact ⟨(getF_putF_other (f := F.PWR_ERR_sensor) (g := F.PWR_SENSOR_i_failed) other a 1).trans first, getF_flag_same a _ _ _ (by decide) (by decide)⟩

theorem getF_pwr (u : Units) (w : Pwr) (f : Fld) (i j : Nat) : getF { u with pwr := w } f i j = getF u f i j := rfl

/-- A reading as it is recorded, before it is judged. -/
def recordReading (u : Units) (i : Nat) (temp : BitVec 8) (valid : Bool) : Units :=
  let x := putF (putF u F.PWR_SENSOR_i_temp i 0 temp.toNat) F.PWR_SENSOR_i_valid i 0 (if valid then 1 else 0)
  { x with pwr := { u.pwr with sensors := tabPut u.pwr.sensors i { at_ := u.now + 1, good := if goodReading temp valid then (tabGet u.pwr.sensors i).good + 1 else 0 } } }

theorem recordReading_shows (u : Units) (i : Nat) (temp : BitVec 8) (valid : Bool) : let t := recordReading u i temp valid
    getF t F.PWR_SENSOR_i_temp i = temp.toNat ∧ getF t F.PWR_SENSOR_i_valid i = (if valid then 1 else 0) ∧ getF t F.PWR_SENSOR_i_failed i = getF u F.PWR_SENSOR_i_failed i := by
  obtain ⟨a, ha⟩ : ∃ a, a = putF u F.PWR_SENSOR_i_temp i 0 temp.toNat := ⟨_, rfl⟩
  obtain ⟨n, hn⟩ : ∃ n, n = if valid = true then 1 else 0 := ⟨_, rfl⟩
  have small : n < 2 := by
    rw [hn]
    split <;> decide
  unfold recordReading
  dsimp only
  simp only [getF_pwr]
  rw [← ha, ← hn]
  refine ⟨?_, ?_, ?_⟩
  · rw [getF_putF_beside (f := F.PWR_SENSOR_i_valid) (g := F.PWR_SENSOR_i_temp) a i 0 n rfl (by decide) (.inl (by decide)), ha, getF_putF_same u F.PWR_SENSOR_i_temp _ _ _ (by decide)]
    exact Nat.mod_eq_of_lt temp.isLt
  · rw [getF_putF_same a F.PWR_SENSOR_i_valid _ _ _ (by decide)]
    exact Nat.mod_eq_of_lt small
  · rw [getF_putF_beside (f := F.PWR_SENSOR_i_valid) (g := F.PWR_SENSOR_i_failed) a i 0 n rfl (by decide) (.inr (by decide)), ha,
      getF_putF_beside (f := F.PWR_SENSOR_i_temp) (g := F.PWR_SENSOR_i_failed) u i 0 _ rfl (by decide) (.inr (by decide))]

/-- A reading is recorded, and then judged. -/
theorem takeReading_judged (u : Units) (i : Nat) (temp : BitVec 8) (valid : Bool) : takeReading u i temp valid = let x := recordReading u i temp valid
    if goodReading temp valid = false then (if getF x F.PWR_SENSOR_i_failed i = 1 then x else failSensor x i)
    else if getF x F.PWR_SENSOR_i_failed i = 1 ∧ 4 ≤ (tabGet u.pwr.sensors i).good + 1 then thermReport (putF x F.PWR_SENSOR_i_failed i 0 0) (sensorZone x i) i 2 (stepOf x (sensorZone x i))
    else x := by
  unfold takeReading recordReading
  rfl

/-- A good reading of a sensor that has not failed is recorded. -/
theorem takeReading_good {temp : BitVec 8} {valid : Bool} (good : goodReading temp valid = true) (sound : getF u F.PWR_SENSOR_i_failed i = 0) : takeReading u i temp valid = recordReading u i temp valid := by
  obtain ⟨-, -, failed⟩ := recordReading_shows u i temp valid
  have failed' : getF (recordReading u i temp valid) F.PWR_SENSOR_i_failed i = 0 := failed.trans sound
  rw [takeReading_judged]
  dsimp only
  rw [if_neg (by rw [good]; decide), if_neg (by rw [failed']; exact fun h => absurd h.1 (by decide))]

/-- A bad one fails it. -/
theorem takeReading_bad {temp : BitVec 8} {valid : Bool} (bad : goodReading temp valid = false) (sound : getF u F.PWR_SENSOR_i_failed i = 0) : takeReading u i temp valid = failSensor (recordReading u i temp valid) i := by
  obtain ⟨-, -, failed⟩ := recordReading_shows u i temp valid
  have failed' : getF (recordReading u i temp valid) F.PWR_SENSOR_i_failed i = 0 := failed.trans sound
  rw [takeReading_judged]
  dsimp only
  rw [if_pos bad, if_neg (by rw [failed']; decide)]

theorem goodReading_valid {temp : BitVec 8} {valid : Bool} (good : goodReading temp valid = true) : valid = true := (Bool.and_eq_true_iff.mp good).1

/-- A reading below the shutdown level, or a bad one, leaves the mode. -/
theorem thermalOp_cool {temp : BitVec 8} {valid : Bool} (mode : c.mode ≠ .reset) (known : i < 32) (cool : (goodReading temp valid && decide (115 ≤ asSigned temp.toNat)) = false) :
    thermalOp c u i temp valid = (c, takeReading u i temp valid) := by
  unfold thermalOp
  rw [if_neg (not_or.mpr ⟨mode, Nat.not_le.mpr known⟩)]
  refine if_neg fun h => ?_
  obtain ⟨hot, -⟩ := Bool.and_eq_true_iff.mp h
  obtain ⟨hot, high⟩ := Bool.and_eq_true_iff.mp hot
  obtain ⟨good, -⟩ := Bool.and_eq_true_iff.mp hot
  exact absurd (cool.symm.trans (Bool.and_eq_true_iff.mpr ⟨good, high⟩)) (by decide)

/-- One at the shutdown level of a sound sensor shuts the block down. -/
theorem thermalOp_hot {temp : BitVec 8} {valid : Bool} (mode : c.mode ≠ .reset) (known : i < 32) (good : goodReading temp valid = true) (high : 115 ≤ asSigned temp.toNat) (sound : getF u F.PWR_SENSOR_i_failed i = 0)
    (first : c.shutdown = false) : thermalOp c u i temp valid = shutdownOp c (recordReading u i temp valid) i := by
  obtain ⟨-, -, failed⟩ := recordReading_shows u i temp valid
  unfold thermalOp
  rw [if_neg (not_or.mpr ⟨mode, Nat.not_le.mpr known⟩)]
  dsimp only
  rw [takeReading_good good sound]
  refine if_pos ?_
  rw [good, failed.trans sound, decide_eq_true high, first]
  rfl

/-! ### The shutdown -/

/-- Step 12 is in force for a zone, and its own. -/
def AtTwelve (z : Nat) (u : Units) : Prop := getF u F.PWR_ZONE_z_STATE_step z = 12 ∧ getF u F.PWR_ZONE_z_STATE_own z = 12

/-- One zone goes to step 12. -/
def toTwelve (u : Units) (z : Nat) : Units :=
  putF (putF { u with pwr := { u.pwr with zones := tabPut u.pwr.zones z { rounds := 0 } } } F.PWR_ZONE_z_STATE_own z 0 12) F.PWR_ZONE_z_STATE_step z 0 12

theorem toTwelve_sets (u : Units) (z : Nat) : AtTwelve z (toTwelve u z) := by
  unfold toTwelve
  generalize { u with pwr := { u.pwr with zones := tabPut u.pwr.zones z { rounds := 0 } } } = a
  refine ⟨getF_putF_same _ F.PWR_ZONE_z_STATE_step z 0 12 (by decide), ?_⟩
  exact (getF_putF_beside (f := F.PWR_ZONE_z_STATE_step) (g := F.PWR_ZONE_z_STATE_own) (putF a F.PWR_ZONE_z_STATE_own z 0 12) z 0 12 rfl (by decide) (.inr (by decide))).trans
    (getF_putF_same a F.PWR_ZONE_z_STATE_own z 0 12 (by decide))

theorem toTwelve_other {q : Nat} (other : q ≠ z) (set : AtTwelve z u) : AtTwelve z (toTwelve u q) := by
  have apart : regAddr .PWR_ZONE_z_STATE z 0 ≠ regAddr .PWR_ZONE_z_STATE q 0 := by
    rw [zoneAddr, zoneAddr]
    omega
  obtain ⟨step, own⟩ := set
  unfold toTwelve
  have same : ∀ f : Fld, f.reg = .PWR_ZONE_z_STATE → getF (putF (putF { u with pwr := { u.pwr with zones := tabPut u.pwr.zones q { rounds := 0 } } } F.PWR_ZONE_z_STATE_own q 0 12) F.PWR_ZONE_z_STATE_step q 0 12) f z = getF u f z := by
    intro f reg
    rw [getF_putF_other (f := F.PWR_ZONE_z_STATE_step) (by rw [reg]; exact apart), getF_putF_other (f := F.PWR_ZONE_z_STATE_own) (by rw [reg]; exact apart), getF_pwr]
  exact ⟨(same _ rfl).trans step, (same _ rfl).trans own⟩

theorem allToTwelve_eq (u : Units) : ∃ a, allToTwelve u = { (zones u).foldl toTwelve u with adm := a } := ⟨_, rfl⟩

/-- Every zone of the variant goes to step 12; nothing of the power unit but the rounds of the zones is touched. -/
theorem allToTwelve_sets (known : z < 13) (there : zoneExists u.v z = true) : AtTwelve z (allToTwelve u) := by
  obtain ⟨a, shape⟩ := allToTwelve_eq u
  have fold : AtTwelve z ((zones u).foldl toTwelve u) := by
    refine foldl_writes (Q := fun _ => True) (a := z) (fun _ _ _ => trivial) (fun x _ => toTwelve_sets x z) (fun x q _ set => ?_) _ u trivial (.inl (List.mem_filter.mpr ⟨List.mem_range.mpr known, there⟩))
    by_cases same : q = z
    · rw [same]
      exact toTwelve_sets x z
    · exact toTwelve_other same set
  rw [shape]
  exact fold

theorem allToTwelve_hushing (u : Units) : (allToTwelve u).pwr.hushing = u.pwr.hushing := by
  obtain ⟨a, shape⟩ := allToTwelve_eq u
  rw [shape]
  exact foldl_same (f := toTwelve) (g := fun u => u.pwr.hushing) (fun _ _ => rfl) _ u

/-- In DRAIN the shutdown is latched, and every zone is at step 12. -/
theorem shutdownOp_drains (mode : c.mode = .drain) : (shutdownOp c u i).1 = { c with shutdown := true, thermOff := c.drainDone || c.thermOff } ∧ ∀ z, z < 13 → zoneExists u.v z = true → AtTwelve z (shutdownOp c u i).2 := by
  obtain ⟨w, hw⟩ : ∃ w, w = thermReport (allToTwelve u) (sensorZone u i) i 4 12 := ⟨_, rfl⟩
  have told : NoticeOnly (allToTwelve u) w := by
    rw [hw]
    exact thermReport_only ..
  have shape : shutdownOp c u i = ({ c with shutdown := true, thermOff := c.drainDone || c.thermOff }, w) := by
    unfold shutdownOp
    dsimp only
    rw [← hw]
    exact if_pos mode
  rw [shape]
  refine ⟨rfl, fun z known there => ?_⟩
  obtain ⟨step, own⟩ := allToTwelve_sets known there
  have low : regAddr .PWR_ZONE_z_STATE z 0 < teleAddr := by
    show 0x900104 + z * 8 + 0 * 0 < 0xA10000
    omega
  exact ⟨(told.getF F.PWR_ZONE_z_STATE_step z 0 low).trans step, (told.getF F.PWR_ZONE_z_STATE_own z 0 low).trans own⟩

/-- Elsewhere it begins DRAIN with cause 6. -/
theorem shutdownOp_begins (reset : c.mode ≠ .reset) (drain : c.mode ≠ .drain) (hush : c.mode ≠ .hush) (entering : u.pwr.hushing = false) :
    (shutdownOp c u i).1 = { c with shutdown := true, mode := .drain, prev := c.mode, cause := 6 } := by
  obtain ⟨w, hw⟩ : ∃ w, w = thermReport (allToTwelve u) (sensorZone u i) i 4 12 := ⟨_, rfl⟩
  obtain ⟨n, pwr⟩ : PwrKept (allToTwelve u) w := by
    rw [hw]
    exact .notice (thermReport_only ..)
  have shape : shutdownOp c u i = drainTrigger { c with shutdown := true } w 6 := by
    unfold shutdownOp
    dsimp only
    rw [← hw]
    exact if_neg drain
  rw [shape]
  exact drainTrigger_begins (c := { c with shutdown := true }) 6 reset drain hush (by rw [pwr]; exact (allToTwelve_hushing u).trans entering)

/-! ### Rounds of a zone -/

/-- The state register of a zone, the power of its zones and the configuration in force are kept. -/
structure ZoneKept (z : Nat) (u x : Units) : Prop where
  v : x.v = u.v
  epoch : x.regs.epoch = u.regs.epoch
  even : x.regs.bankA = u.regs.bankA
  odd : x.regs.bankB = u.regs.bankB
  zones : x.pwr.zones = u.pwr.zones
  field : ∀ f : Fld, f.reg = .PWR_ZONE_z_STATE → getF x f z = getF u f z

theorem ZoneKept.refl (z : Nat) (u : Units) : ZoneKept z u u := ⟨rfl, rfl, rfl, rfl, rfl, fun _ _ => rfl⟩

theorem ZoneKept.trans {y : Units} (h : ZoneKept z u x) (k : ZoneKept z x y) : ZoneKept z u y :=
  ⟨k.v.trans h.v, k.epoch.trans h.epoch, k.even.trans h.even, k.odd.trans h.odd, k.zones.trans h.zones, fun f r => (k.field f r).trans (h.field f r)⟩

theorem ZoneKept.conf (h : ZoneKept z u x) (f : Fld) (i : Nat) : inF x f i = inF u f i := inF_same h.v h.epoch h.even h.odd f i 0

theorem zone_low (known : z < 13) : regAddr .PWR_ZONE_z_STATE z 0 < teleAddr := by
  show 0x900104 + z * 8 + 0 * 0 < 0xA10000
  omega

theorem ZoneKept.notice (known : z < 13) (h : NoticeOnly u x) : ZoneKept z u x := by
  obtain ⟨n, pwr⟩ := PwrKept.notice h
  exact ⟨h.v, h.regs_epoch, h.regs_bankA, h.regs_bankB, by rw [pwr], fun f r => h.getF f z 0 (by rw [r]; exact zone_low known)⟩

theorem ZoneKept.putF {f : Fld} {j q : Nat} (apart : regAddr .PWR_ZONE_z_STATE z 0 ≠ regAddr f.reg q j) (n : Nat) : ZoneKept z u (Machine.putF u f q j n) :=
  ⟨rfl, rfl, rfl, rfl, rfl, fun g r => getF_putF_other (f := f) (g := g) (by rw [r]; exact apart) u n⟩

/-- A sensor that fails leaves the zones' registers alone. -/
theorem failSensor_zone (known : z < 13) (i : Nat) : ZoneKept z u (failSensor u i) := by
  obtain ⟨a, ha⟩ : ∃ a, a = flag u F.PWR_SENSOR_i_failed i := ⟨_, rfl⟩
  obtain ⟨b, hb⟩ : ∃ b, b = flag a F.PWR_ERR_sensor := ⟨_, rfl⟩
  obtain ⟨q, step, sensors, shape⟩ : ∃ q step sensors, failSensor u i = thermReport { b with pwr := { b.pwr with sensors := sensors } } q i 1 step := by
    rw [hb, ha]
    exact ⟨_, _, _, rfl⟩
  have sensor : ZoneKept z u a := by
    rw [ha]
    refine .putF (f := F.PWR_SENSOR_i_failed) ?_ 1
    show 0x900104 + z * 8 + 0 * 0 ≠ 0x900200 + i * 4 + 0 * 0
    omega
  have err : ZoneKept z a b := by
    rw [hb]
    refine .putF (f := F.PWR_ERR_sensor) ?_ 1
    show 0x900104 + z * 8 + 0 * 0 ≠ 0x900028
    omega
  have good : ZoneKept z b { b with pwr := { b.pwr with sensors := sensors } } := ⟨rfl, rfl, rfl, rfl, rfl, fun _ _ => rfl⟩
  rw [shape]
  exact ((sensor.trans err).trans good).trans (.notice known (thermReport_only ..))

theorem staleCheck_zone (known : z < 13) (u : Units) (i : Nat) : ZoneKept z u (staleCheck u i) := by
  have either : ∀ (p : Prop) [Decidable p], ZoneKept z u (if p then failSensor u i else u) := by
    intro p _
    split
    · exact failSensor_zone known i
    · exact .refl z u
  exact either _

theorem ownAfter_blind {own rounds : Nat} (blind : zoneBlind u z = true) : ownAfter u z own rounds = 12 := if_pos blind

/-- The own step of a zone that sees, by its excess. -/
theorem ownAfter_excess {own rounds : Nat} {e : Int} (sees : zoneBlind u z = false) (excess : excessOf u z = some e) : ownAfter u z own rounds =
    if (inF u F.PWR_ZONE_z_CFG_t_crit z : Int) - inF u F.PWR_ZONE_z_CFG_t_high z ≤ e then 12
    else if 0 ≤ e then min (own + 1) 12
    else if e < -(inF u F.PWR_ZONE_z_CFG_hyst z : Int) ∧ inputFailed u z = false ∧ 8 ≤ rounds then own - 1
    else own := by
  unfold ownAfter
  rw [if_neg (by rw [sees]; decide), excess]

/-- The own step never leaves its field. -/
theorem ownAfter_small {own rounds : Nat} (small : own < 16) : ownAfter u z own rounds < 16 := by
  unfold ownAfter
  repeat' split
  all_goals omega

/-- The state register of a zone shows its own step, and that it is blind. -/
theorem putZone_shows (known : z < 13) {own : Nat} (small : own < 16) : getF (putZone u z own) F.PWR_ZONE_z_STATE_own z = own ∧ (zoneBlind u z = true → getF (putZone u z own) F.PWR_ZONE_z_STATE_blind z = 1) := by
  obtain ⟨a, ha⟩ : ∃ a, a = getF u F.PWR_ZONE_z_STATE_blind z := ⟨_, rfl⟩
  obtain ⟨n, m, k, r, y, laid, shape⟩ : ∃ n m k r y, y = putF (putF (putF (putF (putF u F.PWR_ZONE_z_STATE_excess z 0 n) F.PWR_ZONE_z_STATE_own z 0 own) F.PWR_ZONE_z_STATE_failed z 0 m) F.PWR_ZONE_z_STATE_fast z 0 k) F.PWR_ZONE_z_STATE_blind z 0 (if zoneBlind u z = true then 1 else 0) ∧
      putZone u z own = if zoneBlind u z = true ∧ a = 0 then thermReport (flag y F.PWR_ERR_zone_blind) z 0 3 r else y := by
    rw [ha]
    exact ⟨_, _, _, _, _, rfl, rfl⟩
  obtain ⟨x₁, h₁⟩ : ∃ x, x = putF u F.PWR_ZONE_z_STATE_excess z 0 n := ⟨_, rfl⟩
  obtain ⟨x₂, h₂⟩ : ∃ x, x = putF x₁ F.PWR_ZONE_z_STATE_own z 0 own := ⟨_, rfl⟩
  obtain ⟨x₃, h₃⟩ : ∃ x, x = putF x₂ F.PWR_ZONE_z_STATE_failed z 0 m := ⟨_, rfl⟩
  obtain ⟨x₄, h₄⟩ : ∃ x, x = putF x₃ F.PWR_ZONE_z_STATE_fast z 0 k := ⟨_, rfl⟩
  obtain ⟨x₅, h₅⟩ : ∃ x, x = putF x₄ F.PWR_ZONE_z_STATE_blind z 0 (if zoneBlind u z = true then 1 else 0) := ⟨_, rfl⟩
  rw [← h₁, ← h₂, ← h₃, ← h₄, ← h₅] at laid
  rw [laid] at shape
  have step : getF x₅ F.PWR_ZONE_z_STATE_own z = own := by
    rw [h₅, getF_putF_beside (f := F.PWR_ZONE_z_STATE_blind) (g := F.PWR_ZONE_z_STATE_own) x₄ z 0 _ rfl (by decide) (.inl (by decide)), h₄,
      getF_putF_beside (f := F.PWR_ZONE_z_STATE_fast) (g := F.PWR_ZONE_z_STATE_own) x₃ z 0 _ rfl (by decide) (.inl (by decide)), h₃,
      getF_putF_beside (f := F.PWR_ZONE_z_STATE_failed) (g := F.PWR_ZONE_z_STATE_own) x₂ z 0 _ rfl (by decide) (.inl (by decide)), h₂, getF_putF_same x₁ F.PWR_ZONE_z_STATE_own z 0 own (by decide)]
    exact Nat.mod_eq_of_lt small
  have blind : zoneBlind u z = true → getF x₅ F.PWR_ZONE_z_STATE_blind z = 1 := by
    intro h
    rw [h₅, if_pos h]
    exact getF_putF_same x₄ F.PWR_ZONE_z_STATE_blind z 0 1 (by decide)
  have flagged : ZoneKept z x₅ (flag x₅ F.PWR_ERR_zone_blind) := by
    refine .putF (f := F.PWR_ERR_zone_blind) ?_ 1
    show 0x900104 + z * 8 + 0 * 0 ≠ 0x900028
    omega
  have kept : ZoneKept z x₅ (putZone u z own) := by
    rw [shape]
    split
    · exact flagged.trans (.notice known (thermReport_only ..))
    · exact .refl z x₅
  exact ⟨(kept.field _ rfl).trans step, fun h => (kept.field _ rfl).trans (blind h)⟩

theorem stepsMoved_eq (u : Units) : ∃ a, stepsMoved u = { u with adm := a } := by
  unfold stepsMoved
  split
  · exact ⟨_, rfl⟩
  · exact ⟨_, rfl⟩

/-- The end of a sampling round, with what its late readings leave made a name. -/
theorem zoneOp_shape (reset : c.mode ≠ .reset) (hush : c.mode ≠ .hush) (there : zoneExists u.v z = true) : let x := (sensorsOf u z).foldl staleCheck u
    let own := getF x F.PWR_ZONE_z_STATE_own z
    let rounds := (tabGet x.pwr.zones z).rounds + 1
    let new := ownAfter x z own rounds
    ∃ (a : Adm) (w : Pwr), zoneOp c u z = { putZone x z new with adm := a, pwr := { w with zones := tabPut w.zones z { rounds := if new = own then rounds else 0 } } } := by
  intro x own rounds new
  obtain ⟨a, shape⟩ := stepsMoved_eq { putZone x z new with pwr := { (putZone x z new).pwr with zones := tabPut (putZone x z new).pwr.zones z { rounds := if new = own then rounds else 0 } } }
  refine ⟨a, (putZone x z new).pwr, ?_⟩
  unfold zoneOp
  rw [if_neg (not_or.mpr ⟨reset, not_or.mpr ⟨hush, by rw [there]; decide⟩⟩)]
  exact shape

/-- The end of a sampling round leaves the own step and its rounds. -/
theorem zoneOp_leaves (reset : c.mode ≠ .reset) (hush : c.mode ≠ .hush) (known : z < 13) (there : zoneExists u.v z = true) : let x := (sensorsOf u z).foldl staleCheck u
    let own := getF u F.PWR_ZONE_z_STATE_own z
    let rounds := (tabGet u.pwr.zones z).rounds + 1
    let new := ownAfter x z own rounds
    getF (zoneOp c u z) F.PWR_ZONE_z_STATE_own z = new ∧ (tabGet (zoneOp c u z).pwr.zones z).rounds = (if new = own then rounds else 0) ∧
      (zoneBlind x z = true → getF (zoneOp c u z) F.PWR_ZONE_z_STATE_blind z = 1) := by
  intro x own rounds new
  have kept : ZoneKept z u x := foldl_keeps (P := ZoneKept z) (.refl z) ZoneKept.trans (staleCheck_zone known) _ u
  obtain ⟨a, w, shape⟩ := zoneOp_shape (c := c) reset hush there
  dsimp only at shape
  rw [show (sensorsOf u z).foldl staleCheck u = x from rfl, kept.field _ rfl, kept.zones, show ownAfter x z (getF u F.PWR_ZONE_z_STATE_own z) ((tabGet u.pwr.zones z).rounds + 1) = new from rfl] at shape
  obtain ⟨step, blind⟩ := putZone_shows (u := x) known (ownAfter_small (u := x) (z := z) (rounds := rounds) (nbits_lt (rawReg u F.PWR_ZONE_z_STATE_own.reg z 0) 12 4))
  rw [shape]
  refine ⟨step, ?_, blind⟩
  exact congrArg Zone.rounds (tabGet_put_same w.zones z _)

/-! ### The power budget -/

theorem budgetOp_other (v : u.v ≠ .v72) (n : Nat) : budgetOp c u n = u := if_pos (.inl v)

/-- The end of a slow round of the power budget. -/
theorem budgetOp_judges (v : u.v = .v72) (reset : c.mode ≠ .reset) (hush : c.mode ≠ .hush) (drain : c.mode ≠ .drain) (set : inF u F.PWR_BUDGET_watts ≠ 0) (estimate : Nat) : let w := min 255 estimate
    let b := inF u F.PWR_BUDGET_watts
    let k := u.pwr.budgetStep
    getF (budgetOp c u estimate) F.PWR_ESTIMATE_watts = w ∧ (budgetOp c u estimate).pwr.budgetStep = (if b < w then min 12 (k + 1) else if 10 * w < 9 * b then k - 1 else k) ∧
      (b < w → k = 12 → getF (budgetOp c u estimate) F.PWR_ERR_budget = 1) := by
  intro w b k
  obtain ⟨a, ha⟩ : ∃ a, a = if b < w ∧ k = 12 then flag u F.PWR_ERR_budget else u := ⟨_, rfl⟩
  obtain ⟨new, hnew⟩ : ∃ new, new = if b < w then min 12 (k + 1) else if 10 * w < 9 * b then k - 1 else k := ⟨_, rfl⟩
  have judged : b ≠ 0 ∧ c.mode ≠ .drain := ⟨set, drain⟩
  obtain ⟨m, shape⟩ : ∃ m, budgetOp c u estimate = { putReg a .PWR_ESTIMATE 0 0 (w + new * 2 ^ 8) with pwr := { a.pwr with budgetStep := new }, adm := m } := by
    obtain ⟨m, moved⟩ := stepsMoved_eq { putReg a .PWR_ESTIMATE 0 0 (w + new * 2 ^ 8) with pwr := { a.pwr with budgetStep := new } }
    refine ⟨m, ?_⟩
    unfold budgetOp
    rw [if_neg (not_or.mpr ⟨not_not.mpr v, not_or.mpr ⟨reset, hush⟩⟩)]
    refine Eq.trans ?_ moved
    dsimp only
    rw [if_neg (not_not.mpr judged), ← hnew]
    have same : (if (b ≠ 0 ∧ c.mode ≠ .drain) ∧ b < w ∧ k = 12 then flag u F.PWR_ERR_budget else u) = a := by
      rw [ha]
      exact if_congr (and_iff_right judged) rfl rfl
    rw [← same]
    rfl
  rw [shape, ← hnew]
  have small : w < 2 ^ 8 := Nat.lt_of_le_of_lt (Nat.min_le_left 255 estimate) (by decide)
  refine ⟨?_, rfl, fun exceeds top => ?_⟩
  · have raw : rawReg (putReg a .PWR_ESTIMATE 0 0 (w + new * 2 ^ 8)) .PWR_ESTIMATE 0 0 = (w + new * 2 ^ 8) % 2 ^ 32 := rawReg_putReg_same ..
    show nbits (rawReg (putReg a .PWR_ESTIMATE 0 0 (w + new * 2 ^ 8)) .PWR_ESTIMATE 0 0) 0 8 = w
    rw [raw]
    unfold nbits
    omega
  · rw [if_pos ⟨exceeds, top⟩] at ha
    have flagged : getF a F.PWR_ERR_budget = 1 := by
      rw [ha]
      exact getF_flag_same u _ _ _ (by decide) (by decide)
    refine Eq.trans ?_ flagged
    show nbits (rawReg (putReg a .PWR_ESTIMATE 0 0 (w + new * 2 ^ 8)) .PWR_ERR 0 0) 4 1 = nbits (rawReg a .PWR_ERR 0 0) 4 1
    rw [rawReg_putReg_other (by decide)]

/-! ### The claim -/

/-- A good reading below the shutdown level is recorded. -/
theorem reading_recorded {s : State} {temp : BitVec 8} {valid : Bool} (mode : s.ctl.mode ≠ .reset) (known : i < 32) (sound : getF s.u F.PWR_SENSOR_i_failed i = 0) (good : goodReading temp valid = true) (cool : asSigned temp.toNat < 115) :
    ∃ t, exec (.thermalReading i temp valid) s = .next t ∧ t.ctl = s.ctl ∧ getF t.u F.PWR_SENSOR_i_temp i = temp.toNat ∧ getF t.u F.PWR_SENSOR_i_valid i = 1 ∧ getF t.u F.PWR_SENSOR_i_failed i = 0 := by
  obtain ⟨reading, shown, failed⟩ := recordReading_shows (fresh s) i temp valid
  have low : (goodReading temp valid && decide (115 ≤ asSigned temp.toNat)) = false := by rw [decide_eq_false (Int.not_le.mpr cool), Bool.and_false]
  have ran : thermalOp s.ctl (fresh s) i temp valid = (s.ctl, recordReading (fresh s) i temp valid) := by rw [thermalOp_cool mode known low, takeReading_good (u := fresh s) good sound]
  exact ⟨_, (exec_thermalReading ..).trans (onBoth_pair ran), rfl, reading, shown.trans (if_pos (goodReading_valid good)), failed.trans sound⟩

/-- A bad one fails the sensor. -/
theorem reading_fails {s : State} {temp : BitVec 8} {valid : Bool} (mode : s.ctl.mode ≠ .reset) (known : i < 32) (sound : getF s.u F.PWR_SENSOR_i_failed i = 0) (bad : goodReading temp valid = false) :
    ∃ t, exec (.thermalReading i temp valid) s = .next t ∧ t.ctl = s.ctl ∧ getF t.u F.PWR_SENSOR_i_failed i = 1 ∧ getF t.u F.PWR_ERR_sensor = 1 := by
  have low : (goodReading temp valid && decide (115 ≤ asSigned temp.toNat)) = false := by rw [bad, Bool.false_and]
  have ran : thermalOp s.ctl (fresh s) i temp valid = (s.ctl, failSensor (recordReading (fresh s) i temp valid) i) := by rw [thermalOp_cool mode known low, takeReading_bad (u := fresh s) bad sound]
  obtain ⟨failed, err⟩ := failSensor_shows (u := recordReading (fresh s) i temp valid) known
  exact ⟨_, (exec_thermalReading ..).trans (onBoth_pair ran), rfl, failed, err⟩

theorem shutdown_begins {s : State} {temp : BitVec 8} {valid : Bool} (mode : s.ctl.mode ≠ .reset) (known : i < 32) (sound : getF s.u F.PWR_SENSOR_i_failed i = 0) (good : goodReading temp valid = true) (high : 115 ≤ asSigned temp.toNat)
    (first : s.ctl.shutdown = false) (drain : s.ctl.mode ≠ .drain) (hush : s.ctl.mode ≠ .hush) (entering : s.u.pwr.hushing = false) :
    ∃ t, exec (.thermalReading i temp valid) s = .next t ∧ t.ctl = { s.ctl with shutdown := true, mode := .drain, prev := s.ctl.mode, cause := 6 } :=
  ⟨_, (exec_thermalReading ..).trans (onBoth_pair (thermalOp_hot (c := s.ctl) (u := fresh s) mode known good high sound first)), shutdownOp_begins (c := s.ctl) (u := recordReading (fresh s) i temp valid) mode drain hush entering⟩

theorem shutdown_drains {s : State} {temp : BitVec 8} {valid : Bool} (mode : s.ctl.mode = .drain) (known : i < 32) (sound : getF s.u F.PWR_SENSOR_i_failed i = 0) (good : goodReading temp valid = true) (high : 115 ≤ asSigned temp.toNat)
    (first : s.ctl.shutdown = false) : ∃ t, exec (.thermalReading i temp valid) s = .next t ∧ t.ctl = { s.ctl with shutdown := true, thermOff := s.ctl.drainDone || s.ctl.thermOff } ∧
      ∀ z, z < 13 → zoneExists s.u.v z = true → getF t.u F.PWR_ZONE_z_STATE_step z = 12 ∧ getF t.u F.PWR_ZONE_z_STATE_own z = 12 := by
  obtain ⟨control, zones⟩ := shutdownOp_drains (c := s.ctl) (u := recordReading (fresh s) i temp valid) (i := i) mode
  exact ⟨_, (exec_thermalReading ..).trans (onBoth_pair (thermalOp_hot (c := s.ctl) (u := fresh s) (by rw [mode]; decide) known good high sound first)), control, zones⟩

end

/-- Settles O55: a reading is recorded before it is judged, a sampling round leaves the zone's registers to its own step, and the budget step moves on V72 alone. -/
theorem heatIsThrottled : Obligations.HeatIsThrottled := by
  unfold Obligations.HeatIsThrottled
  refine fun s => ⟨fun i temp valid mode known sound => ⟨reading_recorded mode known sound, reading_fails mode known sound, fun good high first => ⟨shutdown_begins mode known sound good high first, fun drain => shutdown_drains drain known sound good high first⟩⟩, ?_, ?_⟩
  · intro z reset hush known there x own rounds high
    obtain ⟨step, kept, blind⟩ := zoneOp_leaves (c := s.ctl) (u := fresh s) reset hush known there
    have start : ZoneKept z s.u (fresh s) := ⟨rfl, rfl, rfl, rfl, rfl, fun _ _ => rfl⟩
    have same : ZoneKept z s.u x := start.trans (foldl_keeps (P := ZoneKept z) (.refl z) ZoneKept.trans (staleCheck_zone known) (sensorsOf s.u z) (fresh s))
    refine ⟨_, (exec_zoneEvaluate ..).trans (onU_next rfl), rfl, ?_⟩
    intro new
    have is : new = ownAfter x z own rounds := step
    refine ⟨by rw [is]; exact kept, fun h => ⟨is.trans (ownAfter_blind h), blind h⟩, fun e sees excess => ?_⟩
    rw [is, ownAfter_excess sees excess, same.conf F.PWR_ZONE_z_CFG_t_crit, same.conf F.PWR_ZONE_z_CFG_t_high, same.conf F.PWR_ZONE_z_CFG_hyst]
    refine ⟨fun hot => if_pos hot, fun below warm => ?_, fun below cold fine long => ?_, fun below cold stays => ?_⟩
    · rw [if_neg (Int.not_le.mpr below), if_pos warm]
    · rw [if_neg (Int.not_le.mpr below), if_neg (by omega), if_pos ⟨cold, fine, long⟩]
    · rw [if_neg (Int.not_le.mpr below), if_neg (Int.not_le.mpr cold), if_neg]
      rintro ⟨low, fine, long⟩
      rcases stays with h | h | h
      · exact absurd low (Int.not_lt.mpr h)
      · exact absurd (fine.symm.trans h) (by decide)
      · exact absurd long (Nat.not_le.mpr h)
  · intro estimate
    refine ⟨fun other => (exec_budgetEvaluate ..).trans (onU_next (budgetOp_other (u := fresh s) other estimate)), ?_⟩
    intro v reset hush drain set w b k
    exact ⟨_, (exec_budgetEvaluate ..).trans (onU_next rfl), rfl, budgetOp_judges (c := s.ctl) (u := fresh s) v reset hush drain set estimate⟩

end Sys2Proof.Machine
end

section
/-! PROOF. Entry into HUSH and the wake (R486 to R488). -/

namespace Sys2Proof.Machine

section
variable {u x : Units} {c : Ctl}

/-! ### What DRAIN does to outstanding descriptors leaves the power unit's state -/

theorem PwrKept.core {b : Bool} (h : sliceCore b x = sliceCore b u) : PwrKept u x := .of (show (sliceCore b x).pwr = (sliceCore b u).pwr by rw [h])

theorem PwrKept.complete (u : Units) (r i st r0 r1 : Nat) : PwrKept u (Machine.complete u r i st r0 r1) := .notice (complete_keeps ..)

theorem PwrKept.foldl_snd {α β : Type} {f : β × Units → α → β × Units} (step : ∀ p a, PwrKept p.2 (f p a).2) (l : List α) (p : β × Units) : PwrKept p.2 (l.foldl f p).2 := by
  induction l generalizing p with
  | nil => exact .refl _
  | cons a l ih => exact (step p a).trans (ih _)

theorem hingeEvent_pwr (u : Units) (s q : Nat) : PwrKept u (hingeEvent u s q) := .notice (.counts (emitEvent_only ..))

theorem capacityNotice_pwr (u : Units) (a s q : Nat) : PwrKept u (capacityNotice u a s q) := .notice (.notice ..)

theorem checkPool_pwr (u : Units) : PwrKept u (checkPool u) := by
  unfold checkPool
  split
  · split
    · refine PwrKept.trans ?_ (capacityNotice_pwr _ 1 0 15)
      refine PwrKept.trans ?_ (hingeEvent_pwr _ 0 15)
      exact PwrKept.of (flag_pwr { u with hng := { u.hng with lowArmed := false } } F.HNG_ERR_pool_low 0 0)
    · exact .refl u
  · exact .of rfl

theorem putPip_pwr (u : Units) (p e : Nat) (joined : Bool) : PwrKept u (putPip u p e joined) := by
  unfold putPip
  dsimp only
  refine PwrKept.trans ?_ (checkPool_pwr _)
  split
  · exact .of (journal_pwr _ _ _ _ _)
  · exact .of (journal_pwr _ _ _ _ _)

theorem putHinge_pwr (u : Units) (l e : Nat) : PwrKept u (putHinge u l e) := by
  unfold putHinge
  exact .of (journal_pwr _ _ _ _ _)

theorem recount_pwr {l : Nat} {f : Units → Units} (step : PwrKept u (f u)) : PwrKept u (recount u l f) := step.trans (.of rfl)

theorem retire_pwr (u : Units) (s : Nat) : PwrKept u (hingeEvent (flag u F.HNG_ERR_retired) s 15) := PwrKept.trans (.of (flag_pwr ..)) (hingeEvent_pwr ..)

theorem releaseRegion_pwr (u : Units) (p : Nat) : PwrKept u (releaseRegion u p) := by
  unfold releaseRegion
  dsimp only
  split
  · exact putPip_pwr _ _ _ _
  · split
    · exact (putPip_pwr u p _ true).trans (retire_pwr _ _)
    · split
      · exact putPip_pwr _ _ _ _
      · exact PwrKept.trans (.of rfl) (putPip_pwr { u with hng := { u.hng with limbo := u.hng.limbo ++ [(p, u.hng.seq)], freed := u.hng.freed ++ [p] } } _ _ _)

theorem PwrKept.hng (u : Units) (h : Hinge) : PwrKept u { u with hng := h } := .of rfl

theorem freeMoveSlot_pwr (u : Units) (slot : Nat) : PwrKept u (freeMoveSlot u slot) := .of rfl

theorem descMark_pwr (u : Units) (r i st : Nat) : PwrKept u (descMark u r i st) := .of rfl

/-- The region and its target are given up. -/
theorem moveGivenUp_pwr (u : Units) (l tgt : Nat) : PwrKept u (releaseRegion (journal (recount u l fun u => setMoving u l false) 5 l 0 0) tgt) := by
  obtain ⟨a, ha⟩ : ∃ a, a = recount u l fun u => setMoving u l false := ⟨_, rfl⟩
  have kept : PwrKept u a := by
    rw [ha]
    exact recount_pwr (.hng u _)
  rw [← ha]
  exact (kept.trans (.of (journal_pwr a _ _ _ _))).trans (releaseRegion_pwr _ _)

theorem abandonMove_pwr (u : Units) (slot : Nat) (tell : Bool) : PwrKept u (abandonMove u slot tell) := by
  unfold abandonMove
  dsimp only
  refine PwrKept.trans ?_ (freeMoveSlot_pwr _ slot)
  refine PwrKept.trans ?_ (.hng _ _)
  refine (moveGivenUp_pwr u (tabGet u.hng.slots slot).region (tabGet u.hng.slots slot).tgt).trans ?_
  split
  · exact PwrKept.ite (descMark_pwr ..) (.refl _)
  · exact .refl _

theorem repoint_pwr (u : Units) (l tgt : Nat) (fresh : Bool) : PwrKept u (repoint u l tgt fresh) :=
  recount_pwr (((putPip_pwr ..).trans (putHinge_pwr ..)).trans (releaseRegion_pwr ..))

/-- A region loses its lines: it becomes fresh, or goes to the region held for it. -/
theorem trimRegion_pwr (u : Units) (l : Nat) : PwrKept u (let e := hingeEntry u l
    if hFresh e then u
    else recount u l fun u =>
      let p := hPrn e
      let q := pipEntry u p
      let u := putPip u p (nput q 24 16 (pGen q + 1))
      putHinge u l (nput e 23 1 1)) :=
  PwrKept.ite (.refl u) (recount_pwr ((putPip_pwr ..).trans (putHinge_pwr ..)))

theorem trimTables_pwr (u : Units) (l : Nat) (target : Option Nat) : PwrKept u (trimTables u l target) := by
  have step : ∀ a h, PwrKept u a → PwrKept u { a with hng := h } := fun a h kept => kept.trans (.hng a h)
  unfold trimTables
  dsimp only
  split
  · refine PwrKept.trans ?_ (repoint_pwr _ l _ true)
    refine step _ _ ?_
    split
    · exact abandonMove_pwr u _ true
    · exact .refl u
  · refine PwrKept.trans ?_ (trimRegion_pwr _ l)
    refine step _ _ ?_
    split
    · exact abandonMove_pwr u _ true
    · exact .refl u

theorem trimTablesOf_pwr (u : Units) (batch : List (Nat × Nat)) : PwrKept u (trimTablesOf u batch) :=
  (PwrKept.foldl (fun u b => trimTables_pwr u b.1 (if b.2 = 0 then none else some (b.2 - 1))) batch u).trans (.of rfl)

theorem releaseHolds_pwr (c : Ctl) (u : Units) (l : List (Nat × Nat)) : PwrKept u (releaseHolds c u l) := by
  unfold releaseHolds
  refine PwrKept.trans (x := { u with stg := { u.stg with holds := u.stg.holds.filter fun h => !l.contains h } }) (.of rfl) (.foldl (fun u s => ?_) _ _)
  exact PwrKept.ite (.core (sliceCore_pumpSlice c u s)) (.refl u)

theorem emptyLines_pwr (c : Ctl) (u : Units) (inRange : Nat → Bool) : PwrKept u (emptyLines c u inRange).2 := by
  unfold emptyLines
  refine PwrKept.foldl_snd (fun p s => ?_) _ (true, u)
  split
  · exact .core (sliceCore_emptySlice ..)
  · exact .refl _

theorem trimTake_pwr (first count : Nat) : ∀ (n next skipped : Nat) (batch : List (Nat × Nat)) (u : Units), PwrKept u (trimTake first count n next skipped batch u).2.2.2
  | 0, _, _, _, u => .refl u
  | n + 1, next, skipped, batch, u => by
    have swept : PwrKept u (sweepStale u) := .foldl (fun u _ => putPip_pwr ..) _ u
    unfold trimTake
    dsimp only
    split
    · exact .refl u
    · split
      · split
        · exact swept.trans (trimTake_pwr first count n ..)
        · exact (swept.trans (.of rfl)).trans (trimTake_pwr first count n ..)
      · exact PwrKept.trans (.of rfl) (trimTake_pwr first count n ..)

theorem closePoint_pwr (u : Units) : (closePoint u).2.pwr = u.pwr := by
  unfold closePoint closeBlock
  dsimp only
  split <;> rfl

theorem whenDurable_pwr {n : Nat} {done : Units → Units} (ends : PwrKept u (done u)) : PwrKept u (whenDurable u n done) :=
  PwrKept.ite ends (PwrKept.ite (.of (closePoint_pwr u)) (.refl u))

theorem trimGo_pwr (c : Ctl) (r : Nat) : ∀ (n : Nat) (d : Desc) (u : Units), PwrKept u (trimGo c r n d u)
  | 0, _, _ => .of rfl
  | n + 1, d, u => by
    unfold trimGo
    dsimp only
    split
    · exact PwrKept.trans (x := putDesc u r d) (.of rfl) (whenDurable_pwr (.complete ..))
    · split
      · split
        · exact PwrKept.trans (.of (closePoint_pwr u)) (trimGo_pwr c r n ..)
        · have taken := trimTake_pwr (trimFirst d) (trimCount d) 65537 (ownAt d 0) (ownAt d 2) [] u
          split
          · exact taken.trans (.of rfl)
          · exact taken.trans (trimGo_pwr c r n ..)
      · have emptied := emptyLines_pwr c u (inBatch (trimBatch d))
        split
        · next h => exact PwrKept.trans (by rw [h] at emptied; exact emptied) (.of rfl)
        · next h => exact PwrKept.trans (by rw [h] at emptied; exact emptied) (((trimTablesOf_pwr ..).trans (releaseHolds_pwr ..)).trans (trimGo_pwr c r n ..))

theorem regionMoveStep_pwr (c : Ctl) (u : Units) (r : Nat) (d : Desc) : PwrKept u (regionMoveStep c u r d) := by
  unfold regionMoveStep
  split
  · exact PwrKept.ite (.refl u) (.complete ..)
  · exact PwrKept.trans (x := putDesc u r { d with committed := true }) (.of rfl) (whenDurable_pwr (.complete ..))
  · exact .complete ..

theorem undoMove_pwr (c : Ctl) (u : Units) (r : Nat) (d : Desc) : PwrKept u (undoMove c u r d) := by
  unfold undoMove
  dsimp only
  split
  · next slot _ =>
    have freed := abandonMove_pwr u slot true
    split
    · exact freed.trans (regionMoveStep_pwr ..)
    · exact freed
  · exact (PwrKept.hng u _).trans (.complete ..)

theorem dropRead_pwr (u : Units) (g id : Nat) : PwrKept u (dropRead u g id) := by
  unfold dropRead
  refine PwrKept.trans (x := setGrp u g { grp u g with reads := (grp u g).reads.filter fun y => y.id != id }) (.of rfl) (.foldl (fun u q => ?_) _ _)
  exact PwrKept.ite (.of rfl) (.refl u)

theorem dropReads_pwr (u : Units) (g : Nat) (l : List MRead) : PwrKept u (l.foldl (fun u x => dropRead u g x.id) u) :=
  PwrKept.foldl (f := fun u (x : MRead) => dropRead u g x.id) (fun u x => dropRead_pwr u g x.id) l u

theorem undoPatch_pwr (u : Units) (r : Nat) (d : Desc) : PwrKept u (undoPatch u r d) := by
  obtain ⟨l, shape⟩ : ∃ l : List MRead, undoPatch u r d = complete (l.foldl (fun u x => dropRead u (testCh d / 9) x.id) u) r d.idx 2 := ⟨_, rfl⟩
  rw [shape]
  exact (dropReads_pwr u _ l).trans (.complete ..)

theorem blankSpares_pwr (u : Units) (k : Nat) : PwrKept u (blankSpares u k) := by
  unfold blankSpares
  exact .foldl (fun u s => .of (setSub_pwr ..)) _ u

theorem blankSlice_pwr (u : Units) (k : Nat) : PwrKept u (blankSlice u k) := by
  unfold blankSlice
  dsimp only
  refine PwrKept.trans ?_ (blankSpares_pwr _ k)
  exact .of ((setSub_pwr ..).trans (setSub_pwr ..))

theorem putOwn_pwr (u : Units) (r : Nat) (d : Desc) (l : List Nat) : PwrKept u (putOwn u r d l) := .of rfl

theorem beginRestore_pwr (u : Units) : PwrKept u (beginRestore u) := by
  unfold beginRestore
  have blanked := blankSlice_pwr u u.stg.evacCh
  generalize blankSlice u u.stg.evacCh = a at blanked ⊢
  exact blanked.trans (.of rfl)

theorem blankDie_pwr (u : Units) (n d : Nat) : PwrKept u (blankDie u n d) := .of rfl

theorem undoTest_pwr (u : Units) (r : Nat) (d : Desc) : PwrKept u (undoTest u r d) := by
  unfold undoTest
  split
  · have own := putOwn_pwr u r d [3, 2]
    exact PwrKept.ite (own.trans (beginRestore_pwr _)) own
  · split
    · exact (blankSlice_pwr u _).trans (.complete ..)
    · split
      · refine PwrKept.trans ?_ (.complete ..)
        have free : PwrKept u (takeFree u).2 := .of rfl
        exact PwrKept.ite free (free.trans (blankDie_pwr ..))
      · exact .complete ..

theorem undoDesc_pwr (c : Ctl) (u : Units) (r : Nat) (d : Desc) : PwrKept u (undoDesc c u r d) := by
  have close : PwrKept u (unstageClose u (dHandle d)) := by
    unfold unstageClose
    dsimp only
    split
    · exact .of rfl
    · exact .refl u
  have payload : PwrKept u (dropPayload u r d.idx) := .of rfl
  have put : ∀ e, PwrKept u (putDesc u r e) := fun e => .of rfl
  unfold undoDesc
  split
  · exact close.trans (.complete ..)
  · exact (put (stopTrim d)).trans (trimGo_pwr ..)
  · exact payload.trans (.complete ..)
  · exact payload.trans (.complete ..)
  · exact undoTest_pwr ..
  · exact PwrKept.ite (putOwn_pwr ..) (.complete ..)
  · exact undoMove_pwr ..
  · exact undoPatch_pwr ..
  · exact .complete ..

theorem drainDesc_pwr (c : Ctl) (u : Units) (r i : Nat) : PwrKept u (drainDesc c u r i) := by
  unfold drainDesc
  split
  · exact .refl u
  · exact PwrKept.ite (PwrKept.ite (.refl u) (undoDesc_pwr ..)) (PwrKept.ite (.refl u) (.complete ..))

theorem drainDescs_pwr (c : Ctl) (u : Units) : PwrKept u (drainDescs c u) := by
  unfold drainDescs
  refine .foldl (fun u x => ?_) _ u
  exact .foldl (fun u i => drainDesc_pwr c u x.1 i) _ u

/-- The accesses that wait for the wake are the same. -/
def HeldKept (u x : Units) : Prop := x.pwr.held = u.pwr.held

theorem PwrKept.held (h : PwrKept u x) : HeldKept u x := by
  obtain ⟨n, pwr⟩ := h
  unfold HeldKept
  rw [pwr]

theorem HeldKept.trans {y : Units} (h : HeldKept u x) (k : HeldKept x y) : HeldKept u y := Eq.trans k h

/-- What the beginning of DRAIN does once the mode has changed and a MODE_REQUEST under way is rejected. -/
def drainFrom (c : Ctl) (u : Units) : Units :=
  let u := if u.pwr.budgetStep = 0 then u else Sys2Proof.Machine.cause u 2
  let u := { u with pwr := { u.pwr with rising := [], budgetStep := 0, drainAt := u.now, drainLines := 0 } }
  stopMoves (drainDescs c (closeAll c u))

theorem drainFrom_held (c : Ctl) (u : Units) : HeldKept u (drainFrom c u) := by
  obtain ⟨m, shape⟩ : ∃ m, drainFrom c u = stopMoves (drainDescs c (closeAll c { u with adm := m, pwr := { u.pwr with rising := [], budgetStep := 0, drainAt := u.now, drainLines := 0 } })) := by
    unfold drainFrom
    split <;> exact ⟨_, rfl⟩
  rw [shape]
  refine HeldKept.trans (x := { u with adm := m, pwr := { u.pwr with rising := [], budgetStep := 0, drainAt := u.now, drainLines := 0 } }) rfl ?_
  exact (((closeAll_pwr ..).trans (drainDescs_pwr ..)).trans (stopMoves_pwr _)).held

theorem changeMode_pwr (c : Ctl) (u : Units) (m : Mode) (cause flags : Nat) : PwrKept u (changeMode c u m cause flags).2 := by
  refine (PwrKept.notice (x := modeReport u c.mode m flags) ((NoticeOnly.counts (emitEvent_only ..)).trans (.notice ..))).trans ?_
  exact PwrKept.ite (.refl _) (.of rfl)

theorem beginDrain_from (c : Ctl) (u : Units) (cause flags : Nat) : ∃ b, HeldKept u b ∧ (beginDrain c u cause flags).2 = drainFrom (enterMode c .drain cause) b := by
  have changed := (changeMode_pwr c u .drain cause flags).held
  cases under : u.pwr.trans with
  | none =>
    refine ⟨_, changed, ?_⟩
    unfold beginDrain
    rw [under]
    rfl
  | some t =>
    obtain ⟨a, ha⟩ : ∃ a, a = (changeMode c u .drain cause flags).2 := ⟨_, rfl⟩
    have shape : (beginDrain c u cause flags).2 = drainFrom (enterMode c .drain cause) (if t.target = .drain then a else completeOpt (putTrans a none) t.desc 4) := by
      unfold beginDrain
      rw [under, ha]
      rfl
    rw [shape]
    rw [← ha] at changed
    by_cases drain : t.target = .drain
    · exact ⟨a, changed, by rw [if_pos drain]⟩
    · refine ⟨completeOpt (putTrans a none) t.desc 4, changed.trans (HeldKept.trans (x := putTrans a none) rfl (PwrKept.notice (completeOpt_keeps ..)).held), by rw [if_neg drain]⟩

/-- The beginning of DRAIN leaves the accesses that wait for the wake. -/
theorem beginDrain_held (c : Ctl) (u : Units) (cause flags : Nat) : HeldKept u (beginDrain c u cause flags).2 := by
  obtain ⟨b, held, shape⟩ := beginDrain_from c u cause flags
  rw [shape]
  exact held.trans (drainFrom_held ..)

/-! ### The wake -/

/-- What the wake does to channels, dies and notices leaves the ports, the domains, the fences, the tables of the hinge and drift units and the power unit's state. -/
structure WakeKept (u x : Units) : Prop where
  v : x.v = u.v
  ports : x.ports = u.ports
  pd : x.pd = u.pd
  fences : x.fences = u.fences
  hng : x.hng = u.hng
  drf : x.drf = u.drf
  pwr : PwrKept u x

namespace WakeKept

theorem refl (u : Units) : WakeKept u u := ⟨rfl, rfl, rfl, rfl, rfl, rfl, .refl u⟩

theorem trans {y : Units} (h : WakeKept u x) (k : WakeKept x y) : WakeKept u y :=
  ⟨k.v.trans h.v, k.ports.trans h.ports, k.pd.trans h.pd, k.fences.trans h.fences, k.hng.trans h.hng, k.drf.trans h.drf, h.pwr.trans k.pwr⟩

theorem notice (h : NoticeOnly u x) : WakeKept u x := ⟨h.v, h.ports, h.pd, h.fences, h.hng, h.drf, .notice h⟩

theorem ite {a b : Units} {p : Prop} [Decidable p] (h : WakeKept u a) (k : WakeKept u b) : WakeKept u (if p then a else b) := by split <;> assumption

theorem foldl {α : Type} {f : Units → α → Units} (step : ∀ u a, WakeKept u (f u a)) (l : List α) (u : Units) : WakeKept u (l.foldl f u) := foldl_keeps refl trans step l u

theorem present (u : Units) (o : Out) : WakeKept u (Machine.present u o) := ⟨rfl, rfl, rfl, rfl, rfl, rfl, .of rfl⟩

theorem putF (u : Units) (f : Fld) (i j n : Nat) : WakeKept u (Machine.putF u f i j n) := ⟨rfl, rfl, rfl, rfl, rfl, rfl, .of rfl⟩

theorem setDdr (u : Units) (ch : Nat) (d : Ddr) : WakeKept u (Machine.setDdr u ch d) := ⟨rfl, rfl, rfl, rfl, rfl, rfl, .of rfl⟩

theorem setSub (u : Units) (ch s : Nat) (d : Sub) : WakeKept u (Machine.setSub u ch s d) := ite (.setDdr ..) (.setDdr ..)

theorem free (u : Units) : WakeKept u (takeFree u).2 := ⟨rfl, rfl, rfl, rfl, rfl, rfl, .of rfl⟩

theorem cause (u : Units) (b : Nat) : WakeKept u (Machine.cause u b) := ⟨rfl, rfl, rfl, rfl, rfl, rfl, .of rfl⟩

theorem ddrOut (u : Units) (ch s code rank bank row col : Nat) : WakeKept u (Machine.ddrOut u ch s code rank bank row col) := .present ..

theorem showPins (u : Units) (d : Nat) : WakeKept u (Machine.showPins u d) := by
  unfold Machine.showPins
  exact ite (.present ..) (ite (.foldl (fun u q => .present ..) _ u) (.refl u))

theorem putRate (u : Units) (ch rate : Nat) : WakeKept u (Machine.putRate u ch rate) := by
  unfold Machine.putRate
  dsimp only
  have set := (((WakeKept.setDdr u ch { ddr u ch with rate := rate, polls := 0 }).trans (.putF _ F.DDR5_n_STATE_rate_2x ch 0 (if 2 ≤ rate then 1 else 0))).trans (.putF _ F.DDR5_n_STATE_rate_4x ch 0 (if 4 ≤ rate then 1 else 0))).trans
    (.putF _ F.DDR5_n_STATE_ref ch 0 (refreshShare (Machine.putF (Machine.putF (Machine.setDdr u ch { ddr u ch with rate := rate, polls := 0 }) F.DDR5_n_STATE_rate_2x ch 0 (if 2 ≤ rate then 1 else 0)) F.DDR5_n_STATE_rate_4x ch 0 (if 4 ≤ rate then 1 else 0)) ch rate))
  exact ite set (set.trans (.cause ..))

theorem settleRate (u : Units) (ch : Nat) (mr4 temps : List Nat) : WakeKept u (Machine.settleRate u ch mr4 temps) := by
  unfold Machine.settleRate
  dsimp only
  split
  · refine ite (.refl u) ?_
    exact (((WakeKept.putF u F.DDR5_n_ERR_rate_4x ch 0 1).trans (.putRate _ ch 4)).trans (.notice (ddrEvent_only ..))).trans (.notice (NoticeOnly.blockFault ..))
  · refine ite (.putRate ..) (ite (.refl u) ?_)
    have slower : WakeKept u (if (ddr u ch).rate = 4 then Machine.putRate u ch 2 else u) := ite (.putRate ..) (.refl u)
    exact ite (slower.trans (.putRate ..)) (slower.trans (.setDdr ..))

theorem startRefresh (u : Units) (ch : Nat) : WakeKept u (Machine.startRefresh u ch) := by
  unfold Machine.startRefresh
  exact .foldl (fun u s => .setSub ..) _ u

theorem wakeSub (u : Units) (ch s : Nat) : WakeKept u (Machine.wakeSub u ch s) := by
  have each : ∀ (u : Units) (code row : Nat), WakeKept u ((ranksOf u).foldl (fun u r => Machine.ddrOut u ch s code r 0 row 0) u) := fun u code row => .foldl (fun u r => .ddrOut ..) _ u
  unfold Machine.wakeSub
  dsimp only
  exact ((((each u 11 0).trans (each _ 15 0)).trans (each _ 16 0)).trans (each _ 13 4)).trans (.setSub ..)

theorem wakeChannel (u : Units) (ch : Nat) : WakeKept u (Machine.wakeChannel u ch) := by
  unfold Machine.wakeChannel
  refine ite (.refl u) ?_
  dsimp only
  refine WakeKept.trans ?_ (.putF _ F.DDR5_n_STATE_state ch 0 2)
  refine WakeKept.trans ?_ (.startRefresh ..)
  refine WakeKept.trans ?_ (.setDdr ..)
  have out := ((WakeKept.wakeSub u ch 0).trans (.wakeSub _ ch 1)).trans (.free _)
  exact ite out (out.trans (.settleRate ..))

theorem setDie (u : Units) (n d : Nat) (y : Die) : WakeKept u (Machine.setDie u n d y) := ⟨rfl, rfl, rfl, rfl, rfl, rfl, .of rfl⟩

theorem frame (u : Units) (n op d arg : Nat) : WakeKept u (Machine.frame u n op d arg) := by
  unfold Machine.frame frameTo
  exact (WakeKept.present u _).trans (.foldl (fun u d => .setDie ..) _ _)

theorem captureMove (u : Units) (n d : Nat) : WakeKept u (Machine.captureMove u n d) := ⟨rfl, rfl, rfl, rfl, rfl, rfl, .of rfl⟩

theorem askStatus (u : Units) (n d : Nat) : WakeKept u (Machine.askStatus u n d).2 := by
  unfold Machine.askStatus
  dsimp only
  have asked := (WakeKept.frame u n 8 d 0).trans (.captureMove _ n d)
  exact ite (asked.trans ((WakeKept.putF _ F.CEX_n_LATE_parity n 0 _).trans (.putF _ F.CEX_n_ERR_ca_par n 0 1))) asked

theorem wakeDies (u : Units) : WakeKept u (Machine.wakeDies u) := by
  unfold Machine.wakeDies
  exact .foldl (fun u n => .foldl (fun u d => .askStatus ..) _ u) _ u

theorem lateNotice (u : Units) (n : Notice) : WakeKept u (Machine.lateNotice u n) := by
  unfold Machine.lateNotice
  exact ite (.notice (NoticeOnly.writeNotice ..)) (ite (.notice (.rings ..)) (.notice (NoticeOnly.loseNotice u)))

end WakeKept

/-- A step that lowers fences changes nothing else. -/
theorem fences_foldl {f : Units → Nat → Units} (step : ∀ u d, ∃ l, f u d = { u with fences := l }) (l : List Nat) (u : Units) : ∃ k, l.foldl f u = { u with fences := k } := by
  induction l generalizing u with
  | nil => exact ⟨u.fences, rfl⟩
  | cons d l ih =>
    obtain ⟨k, hk⟩ := step u d
    obtain ⟨m, hm⟩ := ih (f u d)
    exact ⟨m, by rw [List.foldl_cons, hm, hk]⟩

/-- A step that sets domains changes nothing else. -/
theorem pd_foldl {α : Type} {f : Units → α → Units} (step : ∀ u d, ∃ p, f u d = { u with pd := p }) (l : List α) (u : Units) : ∃ p, l.foldl f u = { u with pd := p } := by
  induction l generalizing u with
  | nil => exact ⟨u.pd, rfl⟩
  | cons d l ih =>
    obtain ⟨k, hk⟩ := step u d
    obtain ⟨m, hm⟩ := ih (f u d)
    exact ⟨m, by rw [List.foldl_cons, hm, hk]⟩

/-- The fence of a domain falls at the wake. -/
def lowerFence (u : Units) (d : Nat) : Units := if pdOn u d || pdState u d == 2 then setFence u d false else u

/-- A retained domain is on again. -/
def restoreDomain (u : Units) (x : Nat × Nat) : Units := if x.2 = 2 then setPd u x.1 1 else u

theorem lowerFence_shape (u : Units) (d : Nat) : ∃ l, lowerFence u d = { u with fences := l } := by
  unfold lowerFence
  split <;> exact ⟨_, rfl⟩

theorem restoreDomain_shape (u : Units) (x : Nat × Nat) : ∃ p, restoreDomain u x = { u with pd := p } := by
  unfold restoreDomain
  split <;> exact ⟨_, rfl⟩

theorem lowerFence_lowers {d : Nat} (on : pdOn u d = true) : fenced (lowerFence u d) d = false := by
  unfold lowerFence
  rw [if_pos (by rw [on]; rfl)]
  unfold fenced setFence
  simp

theorem lowerFence_stays {d : Nat} (u : Units) (b : Nat) (low : fenced u d = false) : fenced (lowerFence u b) d = false := by
  unfold lowerFence
  split
  · unfold fenced setFence at *
    simp at low ⊢
    exact fun h => absurd h low
  · exact low

theorem fences_lowered {l : List Nat} {d : Nat} (mem : d ∈ l) (on : pdOn u d = true) : fenced (l.foldl lowerFence u) d = false := by
  refine foldl_writes (Q := fun u => pdOn u d = true) (a := d) (fun u b on => ?_) (fun u on => lowerFence_lowers on) (fun u b _ low => lowerFence_stays u b low) l u on (.inl mem)
  obtain ⟨k, shape⟩ := lowerFence_shape u b
  rw [shape]
  exact on

theorem setPd_on {d b : Nat} (u : Units) (on : pdState u d = 1) : pdState (setPd u b 1) d = 1 := by
  unfold pdState at *
  by_cases zero : d = 0
  · rw [if_pos zero]
  · rw [if_neg zero] at *
    unfold setPd
    dsimp only
    split
    · exact on
    · by_cases same : d = b
      · rw [same]
        exact tabGet_put_same ..
      · rw [tabGet_put_other same]
        exact on

theorem domain_restored {d : Nat} (nonzero : d ≠ 0) (retained : pdState u d = 2) : pdState (u.pd.cells.foldl restoreDomain u) d = 1 := by
  have mem : (d, 2) ∈ u.pd.cells := by
    unfold pdState at retained
    rw [if_neg nonzero] at retained
    cases found : tabFind d u.pd.cells with
    | none =>
      rw [tabGet, tabGetD, found] at retained
      exact absurd retained (by decide)
    | some s =>
      rw [tabGet, tabGetD, found] at retained
      obtain rfl : s = 2 := retained
      exact tabFind_mem found
  refine foldl_writes (P := fun u => pdState u d = 1) (Q := fun _ => True) (a := (d, 2)) (fun _ _ _ => trivial) (fun u _ => ?_) (fun u b _ on => ?_) _ u trivial (.inl mem)
  · exact (congrArg (fun x => pdState x d) (if_pos rfl)).trans (pdState_setPd u nonzero 1)
  · unfold restoreDomain
    split
    · exact setPd_on u on
    · exact on

/-- The fences and domains of RUN stand again. -/
def domainsBack (u : Units) : Units :=
  let a := (hushFenced u).foldl lowerFence u
  a.pd.cells.foldl restoreDomain a

/-- Channels and dies follow. -/
def channelsBack (u : Units) : Units :=
  let a := ((List.range (nDdr u.v)).map pdDram).foldl showPins u
  wakeDies ((List.range (nDdr a.v)).foldl wakeChannel a)

/-- The notices that waited are written. -/
def noticesWritten (u : Units) : Units := u.pwr.notices.foldl lateNotice { u with pwr := { u.pwr with notices := [], waking := false } }

theorem wakeUp_eq (u : Units) : wakeUp u = noticesWritten (channelsBack (domainsBack u)) := by
  unfold wakeUp noticesWritten channelsBack domainsBack
  delta lowerFence restoreDomain
  dsimp only

theorem channelsBack_keeps (u : Units) : WakeKept u (channelsBack u) := by
  unfold channelsBack
  dsimp only
  refine WakeKept.trans ?_ (.wakeDies _)
  refine WakeKept.trans ?_ (.foldl WakeKept.wakeChannel _ _)
  exact .foldl WakeKept.showPins _ u

theorem noticesWritten_keeps (u : Units) : WakeKept { u with pwr := { u.pwr with notices := [], waking := false } } (noticesWritten u) := .foldl WakeKept.lateNotice _ _

theorem wakeUp_follows (u : Units) : ∃ y, WakeKept (domainsBack u) y ∧ WakeKept { y with pwr := { y.pwr with notices := [], waking := false } } (wakeUp u) := by
  rw [wakeUp_eq]
  have first := channelsBack_keeps (domainsBack u)
  generalize channelsBack (domainsBack u) = y at first ⊢
  exact ⟨y, first, noticesWritten_keeps y⟩

/-- What the wake leaves of the state it began in. -/
theorem wakeUp_does (u : Units) : let t := wakeUp u
    t.v = u.v ∧ t.ports = u.ports ∧ t.hng = u.hng ∧ t.drf = u.drf ∧ (∃ n, t.pwr = { u.pwr with notices := n, waking := false }) ∧ (∀ d, d ≠ 0 → pdState u d = 2 → pdState t d = 1) ∧
      ∀ d ∈ hushFenced u, pdOn u d = true → fenced t d = false := by
  obtain ⟨y, first, last⟩ := wakeUp_follows u
  obtain ⟨k, fences⟩ := fences_foldl lowerFence_shape (hushFenced u) u
  obtain ⟨p, back⟩ := pd_foldl restoreDomain_shape ((hushFenced u).foldl lowerFence u).pd.cells ((hushFenced u).foldl lowerFence u)
  obtain ⟨n, pwr⟩ := first.pwr
  obtain ⟨m, pwr'⟩ := last.pwr
  have whole : domainsBack u = { u with fences := k, pd := p } := by
    show ((hushFenced u).foldl lowerFence u).pd.cells.foldl restoreDomain ((hushFenced u).foldl lowerFence u) = _
    rw [back, fences]
  have pd : (wakeUp u).pd = (domainsBack u).pd := last.pd.trans first.pd
  have raised : (wakeUp u).fences = (domainsBack u).fences := last.fences.trans first.fences
  have v := last.v.trans first.v
  have ports := last.ports.trans first.ports
  have hng := last.hng.trans first.hng
  have drf := last.drf.trans first.drf
  rw [whole] at v ports hng drf pwr
  refine ⟨v, ports, hng, drf, ⟨m, by rw [pwr', pwr]⟩, fun d nonzero retained => ?_, fun d mem on => ?_⟩
  · have restored := domain_restored (u := (hushFenced u).foldl lowerFence u) nonzero (by rw [fences]; exact retained)
    unfold pdState at *
    rw [pd]
    exact restored
  · have low := fences_lowered mem on
    have same : (domainsBack u).fences = ((hushFenced u).foldl lowerFence u).fences := by
      show (((hushFenced u).foldl lowerFence u).pd.cells.foldl restoreDomain ((hushFenced u).foldl lowerFence u)).fences = _
      rw [back]
    unfold fenced at *
    rw [raised, same]
    exact low

theorem settleEpoch_none (c : Ctl) (n : Nat) (none : u.drf.owed = 0) : settleEpoch c n u = u := by
  cases n with
  | zero => rfl
  | succ n =>
    unfold settleEpoch
    exact if_pos (.inl none)

theorem heldAccesses_none (c : Ctl) (none : u.pwr.held = []) : heldAccesses c u = (c, { u with pwr := { u.pwr with held := [] } }) := by
  unfold heldAccesses
  rw [none]
  rfl

/-- With no access held, the end of a wake leaves the mode it comes to. -/
theorem wakeComplete_ctl {p : Ctl × Units} (done : wakeDoneOp c u = p) (none : p.2.pwr.held = []) : (wakeCompleteOp c u).1 = p.1 := by
  unfold wakeCompleteOp
  rw [done]
  dsimp only
  split
  · rfl
  · rw [heldAccesses_none _ none]

theorem keysUp_pwr (c : Ctl) (u : Units) (cause : Nat) : PwrKept u (keysUp c u cause) := by
  have hello : PwrKept u (sendHello c (resetKeys u) cause) := .of rfl
  unfold keysUp keyWiped keyEvent
  exact hello.trans (.notice ((NoticeOnly.counts (emitEvent_only ..)).trans (.notice ..)))

theorem modeReport_only (u : Units) (left entered : Mode) (flags : Nat) : NoticeOnly u (modeReport u left entered flags) := (NoticeOnly.counts (emitEvent_only ..)).trans (.notice ..)

/-- The wake of DRAIN: what woke the block begins it. -/
theorem wakeDone_drains (mode : c.mode = .hush) (waking : u.pwr.waking = true) (risen : u.pwr.rising = []) (drain : u.pwr.wakeDrain ≠ 0) :
    (wakeDoneOp c u).1 = { c with mode := .drain, prev := .hush, cause := u.pwr.wakeDrain } ∧ HeldKept u (wakeDoneOp c u).2 := by
  obtain ⟨-, -, -, -, ⟨n, pwr⟩, -, -⟩ := wakeUp_does u
  obtain ⟨a, ha⟩ : ∃ a, a = if inF u F.PWR_CFG_hush_keys_off = 1 then keysUp c (wakeUp u) 1 else wakeUp u := ⟨_, rfl⟩
  have keys : PwrKept (wakeUp u) a := by
    rw [ha]
    exact .ite (keysUp_pwr ..) (.refl _)
  obtain ⟨m, pwr'⟩ := keys
  have why : a.pwr.wakeDrain = u.pwr.wakeDrain := by rw [pwr', pwr]
  have held : a.pwr.held = u.pwr.held := by rw [pwr', pwr]
  have shape : wakeDoneOp c u = beginDrain c { a with pwr := { a.pwr with wakeDrain := 0 } } a.pwr.wakeDrain 0 := by
    unfold wakeDoneOp
    rw [if_neg (not_or.mpr ⟨not_not.mpr mode, not_or.mpr ⟨by rw [waking]; decide, not_not.mpr risen⟩⟩)]
    dsimp only
    rw [← ha]
    exact if_pos (by rw [why]; exact drain)
  rw [shape, why]
  refine ⟨?_, HeldKept.trans (x := { a with pwr := { a.pwr with wakeDrain := 0 } }) held (beginDrain_held ..)⟩
  show enterMode c .drain u.pwr.wakeDrain = _
  unfold enterMode
  rw [mode]

/-- The wake to RUN. -/
theorem wakeDone_runs (mode : c.mode = .hush) (waking : u.pwr.waking = true) (risen : u.pwr.rising = []) (drain : u.pwr.wakeDrain = 0) (idle : u.hng.active = []) (owed : u.drf.owed = 0) (keys : inF u F.PWR_CFG_hush_keys_off = 0)
    (still : ∀ cl, cl < nClusters u.v → clusterStill u cl) :
    ∃ y, wakeDoneOp c u = (enterMode c .run 4, y) ∧ y.pd = (wakeUp u).pd ∧ y.fences = (wakeUp u).fences ∧ y.pwr.held = u.pwr.held ∧ y.pwr.waking = false ∧ y.pwr.hushing = u.pwr.hushing := by
  obtain ⟨v, ports, hng, drf, ⟨n, pwr⟩, -, -⟩ := wakeUp_does u
  obtain ⟨b, hb⟩ : ∃ b, b = modeReport (wakeUp u) c.mode .run 0 := ⟨_, rfl⟩
  have told : NoticeOnly (wakeUp u) b := by
    rw [hb]
    exact modeReport_only ..
  obtain ⟨m, pwr'⟩ := PwrKept.notice told
  obtain ⟨a, changed⟩ : ∃ a, (changeMode c (wakeUp u) .run 4 0).2 = { b with adm := a } := by
    unfold changeMode serviceCause
    dsimp only
    rw [← hb]
    split <;> exact ⟨_, rfl⟩
  obtain ⟨y, hy⟩ : ∃ y : Units, y = { b with adm := a, pwr := { b.pwr with activeAt := b.now } } := ⟨_, rfl⟩
  have still' : ∀ cl, cl < nClusters y.v → clusterStill y cl := by
    have v' : y.v = u.v := by
      rw [hy]
      exact told.v.trans v
    have ports' : y.ports = u.ports := by
      rw [hy]
      exact told.ports.trans ports
    unfold clusterStill port at *
    rw [v', ports']
    exact still
  have owed' : y.drf.owed = 0 := by
    rw [hy]
    exact (congrArg Drift.owed (told.drf.trans drf)).trans owed
  have idle' : y.hng.active = [] := by
    rw [hy]
    exact (congrArg Hinge.active (told.hng.trans hng)).trans idle
  have shape : wakeDoneOp c u = (enterMode c .run 4, y) := by
    unfold wakeDoneOp
    rw [if_neg (not_or.mpr ⟨not_not.mpr mode, not_or.mpr ⟨by rw [waking]; decide, not_not.mpr risen⟩⟩)]
    dsimp only
    have kept : (if inF u F.PWR_CFG_hush_keys_off = 1 then keysUp c (wakeUp u) 1 else wakeUp u) = wakeUp u := if_neg (by rw [keys]; decide)
    rw [kept, if_neg (by rw [pwr]; exact not_not.mpr drain), changed, ← hy, settleEpoch_none _ 32 owed', idle']
    exact congrArg (Prod.mk _) (pumpAll_still still')
  refine ⟨y, shape, ?_, ?_, ?_, ?_, ?_⟩
  · rw [hy]
    exact told.pd
  · rw [hy]
    exact told.fences
  all_goals
    rw [hy]
    dsimp only
    rw [pwr', pwr]

/-! ### Entry into HUSH -/

namespace WakeKept

theorem count (u : Units) (n : Nat) : WakeKept u (Machine.count u n) := .notice (.counts (count_only ..))

theorem issueLaid (u : Units) (ch s : Nat) (l : Laid) : WakeKept u (Machine.issueLaid u ch s l) := by
  obtain ⟨y, was, shape⟩ : ∃ (y : Sub) (was : Bool), Machine.issueLaid u ch s l =
      (let w := Machine.ddrOut (Machine.setSub u ch s y) ch s l.code l.rank l.bank l.row l.col
      let w := if was then Machine.count w (cDdr ch 3) else w
      let w := if l.code = 4 ∨ l.code = 5 then Machine.count w (cDdr ch 4) else if l.code = 6 ∨ l.code = 7 then Machine.count w (cDdr ch 5) else w
      if l.managed then addSat w F.DDR5_n_ALERT_rfms ch 0 1 else w) := ⟨_, _, rfl⟩
  have closed : ∀ w : Units, WakeKept w (if was then Machine.count w (cDdr ch 3) else w) := fun w => ite (.count ..) (.refl w)
  have counted : ∀ w : Units, WakeKept w (if l.code = 4 ∨ l.code = 5 then Machine.count w (cDdr ch 4) else if l.code = 6 ∨ l.code = 7 then Machine.count w (cDdr ch 5) else w) :=
    fun w => ite (.count ..) (ite (.count ..) (.refl w))
  have managed : ∀ w : Units, WakeKept w (if l.managed then addSat w F.DDR5_n_ALERT_rfms ch 0 1 else w) := fun w => ite (.putF ..) (.refl w)
  rw [shape]
  exact ((((WakeKept.setSub u ch s y).trans (.ddrOut ..)).trans (closed _)).trans (counted _)).trans (managed _)

theorem sleepRank (u : Units) (ch s rank : Nat) : WakeKept u (Machine.sleepRank u ch s rank) := by
  unfold Machine.sleepRank
  dsimp only
  exact (WakeKept.foldl (fun u l => .issueLaid ..) _ u).trans (.ddrOut ..)

theorem sleepSub (u : Units) (ch s : Nat) : WakeKept u (Machine.sleepSub u ch s) := by
  unfold Machine.sleepSub
  dsimp only
  refine WakeKept.trans ?_ (.setSub ..)
  refine WakeKept.trans ?_ (.foldl (fun u r => .ddrOut ..) _ _)
  exact .foldl (fun u r => .sleepRank ..) _ u

theorem sleepChannel (u : Units) (ch : Nat) : WakeKept u (Machine.sleepChannel u ch) := by
  unfold Machine.sleepChannel
  exact ite (.refl u) (((WakeKept.sleepSub u ch 0).trans (.sleepSub _ ch 1)).trans (.putF _ F.DDR5_n_STATE_state ch 0 3))

end WakeKept

theorem pdState_setPd_other {d b n : Nat} (u : Units) (other : d ≠ b) : pdState (setPd u b n) d = pdState u d := by
  unfold pdState setPd
  by_cases zero : d = 0
  · rw [if_pos zero, if_pos zero]
  · rw [if_neg zero, if_neg zero]
    dsimp only
    split
    · rfl
    · exact tabGet_put_other other ..

/-- A list of domains goes to one state. -/
theorem pdState_foldl {n d : Nat} {l : List Nat} (nonzero : d ≠ 0) (u : Units) : pdState (l.foldl (fun u d => setPd u d n) u) d = if d ∈ l then n else pdState u d := by
  induction l generalizing u with
  | nil => rfl
  | cons b l ih =>
    rw [List.foldl_cons, ih]
    by_cases later : d ∈ l
    · rw [if_pos later, if_pos (List.mem_cons_of_mem b later)]
    · rw [if_neg later]
      by_cases same : d = b
      · rw [if_pos (same ▸ List.mem_cons_self), ← same]
        exact pdState_setPd u nonzero n
      · rw [if_neg (fun mem => (List.mem_cons.mp mem).elim same later)]
        exact pdState_setPd_other u same

/-- The core domains are switched off. -/
def coreOff (u : Units) : Units := [7, 8, 9, 10, 6, 2].foldl (fun u d => setPd u d 0) ((hushFenced u).foldl (fun u d => setFence u d true) u)

/-- The table domain and the media groups are retained at retention level. -/
def mediaAsleep (u : Units) : Units := ([3] ++ (List.range (nGroups u.v)).map pdMedia).foldl (fun u d => setPd u d 3) u

/-- The rings, telemetry and the DDR5 channels that are on are retained. -/
def channelsAsleep (u : Units) : Units := ([4, 5] ++ ((List.range (nDdr u.v)).map pdDram).filter fun d => pdOn u d).foldl (fun u d => setPd u d 2) u

/-- The pins follow, and the key domain. -/
def keysAsleep (u : Units) : Units :=
  let u := (((List.range (nDdr u.v)).map pdDram) ++ (List.range (nGroups u.v)).map pdMedia).foldl showPins u
  if inF u F.PWR_CFG_hush_keys_off = 1 then switchOff u 1 else setPd u 1 2

theorem hushDomains_eq (u : Units) : hushDomains u = keysAsleep (channelsAsleep (mediaAsleep (coreOff u))) := rfl

theorem setPds_v (n : Nat) (l : List Nat) (u : Units) : (l.foldl (fun u d => setPd u d n) u).v = u.v := foldl_same (f := fun u d => setPd u d n) (g := Units.v) (fun _ _ => rfl) l u

theorem coreOff_v (u : Units) : (coreOff u).v = u.v :=
  (setPds_v 0 _ _).trans (foldl_same (f := fun u d => setFence u d true) (g := Units.v) (fun _ _ => rfl) (hushFenced u) u)

theorem mediaAsleep_v (u : Units) : (mediaAsleep u).v = u.v := setPds_v ..

theorem keysAsleep_pd {d : Nat} (other : d ≠ 1) (u : Units) : pdState (keysAsleep u) d = pdState u d := by
  obtain ⟨a, ha⟩ : ∃ a, a = (((List.range (nDdr u.v)).map pdDram) ++ (List.range (nGroups u.v)).map pdMedia).foldl showPins u := ⟨_, rfl⟩
  have pins : a.pd = u.pd := by
    rw [ha]
    exact (WakeKept.foldl WakeKept.showPins _ u).pd
  have same : pdState a d = pdState u d := by
    unfold pdState
    rw [pins]
  have off : pdState (switchOff a 1) d = pdState a d := pdState_setPd_other (b := 1) (n := 0) (setFence (resetDomain a 1) 1 true) other
  have shape : keysAsleep u = if inF a F.PWR_CFG_hush_keys_off = 1 then switchOff a 1 else setPd a 1 2 := by
    rw [ha]
    rfl
  rw [shape, ← same]
  split
  · exact off
  · exact pdState_setPd_other a other

/-- The states of the domains in HUSH. -/
theorem hushDomains_states (u : Units) : (∀ d ∈ [2, 6, 7, 8, 9, 10], pdState (hushDomains u) d = 0) ∧ pdState (hushDomains u) 3 = 3 ∧ (∀ g, g < nGroups u.v → pdState (hushDomains u) (pdMedia g) = 3) ∧
    pdState (hushDomains u) 4 = 2 ∧ pdState (hushDomains u) 5 = 2 := by
  have notDram : ∀ {w : Units} {d : Nat}, d < 19 ∨ 35 ≤ d → d ≠ 4 → d ≠ 5 → d ∉ [4, 5] ++ ((List.range (nDdr w.v)).map pdDram).filter fun d => pdOn w d := by
    intro w d range four five mem
    rcases List.mem_append.mp mem with mem | mem
    · simp at mem
      omega
    · obtain ⟨k, low, rfl⟩ := List.mem_map.mp (List.mem_filter.mp mem).1
      have top := nDdr_le w.v
      have low := List.mem_range.mp low
      unfold pdDram at range
      omega
  have channels : ∀ {d : Nat}, d ≠ 0 → d ≠ 1 → d < 19 ∨ 35 ≤ d → d ≠ 4 → d ≠ 5 → pdState (hushDomains u) d = pdState (mediaAsleep (coreOff u)) d := by
    intro d nonzero keys range four five
    rw [hushDomains_eq, keysAsleep_pd keys]
    exact (pdState_foldl nonzero _).trans (if_neg (notDram range four five))
  have asleep : ∀ d ∈ [4, 5], pdState (hushDomains u) d = 2 := by
    intro d mem
    have nonzero : d ≠ 0 ∧ d ≠ 1 := by
      simp at mem
      omega
    rw [hushDomains_eq, keysAsleep_pd nonzero.2]
    exact (pdState_foldl nonzero.1 _).trans (if_pos (List.mem_append_left _ mem))
  have media : ∀ {d : Nat}, d ≠ 0 → (d ∈ [3] ++ (List.range (nGroups u.v)).map pdMedia) → pdState (mediaAsleep (coreOff u)) d = 3 := by
    intro d nonzero mem
    rw [← coreOff_v u] at mem
    exact (pdState_foldl nonzero _).trans (if_pos mem)
  refine ⟨fun d mem => ?_, ?_, fun g low => ?_, asleep 4 (by decide), asleep 5 (by decide)⟩
  · have bounds : 2 ≤ d ∧ d ≠ 3 ∧ d ≠ 4 ∧ d ≠ 5 ∧ d ≤ 10 := by
      simp at mem
      omega
    obtain ⟨above, three, four, five, low⟩ := bounds
    rw [channels (by omega) (by omega) (by omega) four five]
    refine (pdState_foldl (by omega) _).trans ((if_neg fun mem => ?_).trans ((pdState_foldl (by omega) _).trans (if_pos ?_)))
    · rcases List.mem_append.mp mem with mem | mem
      · exact three (List.mem_singleton.mp mem)
      · obtain ⟨k, -, is⟩ := List.mem_map.mp mem
        unfold pdMedia at is
        omega
    · simp at mem ⊢
      omega
  · rw [channels (by decide) (by decide) (by decide) (by decide) (by decide)]
    exact media (by decide) (List.mem_append_left _ (List.mem_singleton_self 3))
  · have at_ : pdMedia g = 35 + g := rfl
    rw [channels (by omega) (by omega) (by omega) (by omega) (by omega)]
    exact media (by omega) (List.mem_append_right _ (List.mem_map_of_mem (List.mem_range.mpr low)))

theorem closePoint_empty (none : u.hng.open_ = []) : (closePoint u).2 = u := if_pos none

/-- Asleep, with the entry made. -/
def slept (u : Units) : Units :=
  let u := hushDomains ((List.range (nDdr u.v)).foldl sleepChannel u)
  serviceCause { u with pwr := { u.pwr with hushing := false, trans := none } } .run .hush

theorem slept_states (u : Units) : (slept u).pwr.hushing = false ∧ (∀ d ∈ [2, 6, 7, 8, 9, 10], pdState (slept u) d = 0) ∧ pdState (slept u) 3 = 3 ∧ (∀ g, g < nGroups u.v → pdState (slept u) (pdMedia g) = 3) ∧
    pdState (slept u) 4 = 2 ∧ pdState (slept u) 5 = 2 := by
  obtain ⟨a, ha⟩ : ∃ a, a = (List.range (nDdr u.v)).foldl sleepChannel u := ⟨_, rfl⟩
  have asleep : WakeKept u a := by
    rw [ha]
    exact .foldl WakeKept.sleepChannel _ u
  obtain ⟨core, table, media, tele, rings⟩ := hushDomains_states a
  obtain ⟨b, hb⟩ : ∃ b, b = hushDomains a := ⟨_, rfl⟩
  rw [← hb] at core table media tele rings
  rw [asleep.v] at media
  have shape : slept u = serviceCause { b with pwr := { b.pwr with hushing := false, trans := none } } .run .hush := by
    rw [hb, ha]
    rfl
  rw [shape]
  exact ⟨rfl, core, table, media, tele, rings⟩

theorem wakeNow_keeps (c : Ctl) (u : Units) : (wakeNow c u).pd = u.pd ∧ (wakeNow c u).pwr.hushing = u.pwr.hushing := by
  unfold wakeNow
  split <;> exact ⟨rfl, rfl⟩

/-- Entry completes: the block is in HUSH with its domains as they stand there. -/
theorem hushEntryOp_sleeps (mode : c.mode = .run) (entering : u.pwr.hushing = true) (none : u.hng.open_ = []) (ready : hushReady u = true) : let t := hushEntryOp c u
    t.1 = enterMode c .hush ((u.pwr.trans.map fun x => x.cause).getD 3) ∧ t.2.pwr.hushing = false ∧ (∀ d ∈ [2, 6, 7, 8, 9, 10], pdState t.2 d = 0) ∧ pdState t.2 3 = 3 ∧ (∀ g, g < nGroups u.v → pdState t.2 (pdMedia g) = 3) ∧
      pdState t.2 4 = 2 ∧ pdState t.2 5 = 2 := by
  obtain ⟨a, ha⟩ : ∃ a, a = slept u := ⟨_, rfl⟩
  obtain ⟨gone, core, table, media, tele, rings⟩ := slept_states u
  rw [← ha] at gone core table media tele rings
  obtain ⟨wake, shape⟩ : ∃ wake : Bool, hushEntryOp c u = (enterMode c .hush ((u.pwr.trans.map fun x => x.cause).getD 3), if wake then wakeNow (enterMode c .hush ((u.pwr.trans.map fun x => x.cause).getD 3)) a else a) := by
    rw [ha]
    unfold hushEntryOp
    rw [if_neg (not_or.mpr ⟨not_not.mpr mode, by rw [entering]; decide⟩)]
    dsimp only
    rw [closePoint_empty none, if_neg (by rw [ready]; decide)]
    exact ⟨_, rfl⟩
  obtain ⟨pd, hushing⟩ := wakeNow_keeps (enterMode c .hush ((u.pwr.trans.map fun x => x.cause).getD 3)) a
  obtain ⟨y, hy⟩ : ∃ y, y = if wake then wakeNow (enterMode c .hush ((u.pwr.trans.map fun x => x.cause).getD 3)) a else a := ⟨_, rfl⟩
  have domains : y.pd = a.pd := by
    rw [hy]
    split
    · exact pd
    · rfl
  have same : ∀ d, pdState y d = pdState a d := by
    intro d
    unfold pdState
    rw [domains]
  have still : y.pwr.hushing = false := by
    rw [hy]
    split
    · exact hushing.trans gone
    · exact gone
  rw [shape, ← hy]
  exact ⟨rfl, still, fun d mem => (same d).trans (core d mem), (same 3).trans table, fun g low => (same _).trans (media g low), (same 4).trans tele, (same 5).trans rings⟩

/-- Entry into HUSH is decided. -/
theorem decideHush_does (u : Units) : (decideHush u 0).pwr.trans = some { target := .hush, cause := 3 } ∧ (decideHush u 0).pd = u.pd := by
  obtain ⟨a, ha⟩ : ∃ a, a = modeReport u .run .hush 0 := ⟨_, rfl⟩
  obtain ⟨b, hb⟩ : ∃ b : Units, b = { a with pwr := { a.pwr with hushing := true, wakeDrain := 0, trans := some { target := .hush, cause := 3 } } } := ⟨_, rfl⟩
  have shape : decideHush u 0 = stopMoves b := by
    rw [hb, ha]
    rfl
  obtain ⟨n, pwr⟩ := stopMoves_pwr b
  have told : a.pd = u.pd := by
    rw [ha]
    exact (modeReport_only ..).pd
  rw [shape]
  refine ⟨by rw [pwr, hb], ?_⟩
  have stopped : (stopMoves b).pd = b.pd := by
    unfold stopMoves
    refine foldl_same (g := Units.pd) (fun u i => ?_) b.hng.active b
    dsimp only
    split
    · unfold journalCursor journal closeBlock
      dsimp only
      split
      · split <;> rfl
      · rfl
    · rfl
  rw [stopped, hb]
  exact told

theorem hushTimerOp_decides (mode : c.mode = .run) (idle : inF u F.PWR_CFG_hush_idle ≠ 0) (past : u.pwr.activeAt + inF u F.PWR_CFG_hush_idle * 100000 ≤ u.now) (fine : hushOk u none = true) : hushTimerOp c u = decideHush u 0 :=
  if_pos ⟨mode, idle, past, fine⟩

/-! ### The claim -/

/-- A wake to RUN, as the command makes it. -/
theorem wakeCompleteOp_runs (mode : c.mode = .hush) (waking : u.pwr.waking = true) (risen : u.pwr.rising = []) (drain : u.pwr.wakeDrain = 0) (held : u.pwr.held = []) (entering : u.pwr.hushing = false) (idle : u.hng.active = []) (owed : u.drf.owed = 0)
    (keys : inF u F.PWR_CFG_hush_keys_off = 0) (still : ∀ cl, cl < nClusters u.v → clusterStill u cl) : let t := wakeCompleteOp c u
    t.1 = { c with mode := .run, prev := .hush, cause := 4 } ∧ t.2.pwr.waking = false ∧ (∀ d, d ≠ 0 → pdState u d = 2 → pdState t.2 d = 1) ∧ ∀ d ∈ hushFenced u, pdOn u d = true → fenced t.2 d = false := by
  obtain ⟨y, shape, pd, fences, kept, gone, hushing⟩ := wakeDone_runs mode waking risen drain idle owed keys still
  obtain ⟨-, -, -, -, -, back, low⟩ := wakeUp_does u
  have run : enterMode c .run 4 = { c with mode := .run, prev := .hush, cause := 4 } := by
    unfold enterMode
    rw [mode]
  have whole : wakeCompleteOp c u = (enterMode c .run 4, { y with pwr := { y.pwr with held := [] } }) := by
    unfold wakeCompleteOp
    rw [shape]
    dsimp only
    rw [if_neg (not_or.mpr ⟨fun h : (enterMode c .run 4).mode = .hush => absurd (show Mode.run = .hush from h) (by decide), by rw [hushing, entering]; decide⟩), heldAccesses_none _ (kept.trans held)]
  have same : ∀ d, pdState y d = pdState (wakeUp u) d := by
    intro d
    unfold pdState
    rw [pd]
  rw [whole]
  refine ⟨run, gone, fun d nonzero retained => (same d).trans (back d nonzero retained), fun d mem on => ?_⟩
  have lowered := low d mem on
  unfold fenced at *
  rw [← fences] at lowered
  exact lowered

end

/-- Settles O53: entry is decided and completes, a wake event begins the wake, and its end brings RUN back, or DRAIN. -/
theorem hushSleepsAndWakes : Obligations.HushSleepsAndWakes := by
  unfold Obligations.HushSleepsAndWakes
  refine fun s => ⟨fun mode idle past fine => ?_, fun mode entering none ready _ _ _ => ?_, fun mode waking => ?_, fun mode waking risen => ⟨fun drain held entering idle owed keys on still => ?_, fun drain _ held => ?_⟩⟩
  · obtain ⟨trans, pd⟩ := decideHush_does (fresh s)
    exact ⟨_, (exec_hushIdleTimer s).trans (onU_next (hushTimerOp_decides (c := s.ctl) (u := fresh s) mode idle past fine)), rfl, decideHush_on (fresh s) 0, trans, pd⟩
  · obtain ⟨control, rest⟩ := hushEntryOp_sleeps (c := s.ctl) (u := fresh s) mode entering none ready
    refine ⟨_, (exec_hushEntryComplete s).trans (onBoth_pair rfl), control.trans ?_, rest⟩
    unfold enterMode
    rw [mode]
    rfl
  · have woken : wakeNow s.ctl (fresh s) = { fresh s with pwr := { s.u.pwr with waking := true, rising := wakeDomains s.u } } := if_pos ⟨mode, waking⟩
    intro next
    refine ⟨(exec_wake ..).trans (onBoth_pair (p := (s.ctl, _)) (Prod.ext rfl woken)), fun r => (exec_wake ..).trans (onBoth_pair (p := (s.ctl, _)) (Prod.ext rfl woken)), fun p low => (exec_wake ..).trans (onBoth_pair (p := (s.ctl, _)) (Prod.ext rfl ?_))⟩
    exact (if_pos low).trans woken
  · obtain ⟨control, gone, back, low⟩ := wakeCompleteOp_runs (c := s.ctl) (u := fresh s) mode waking risen drain held entering idle owed keys still
    exact ⟨_, (exec_wakeComplete s).trans (onBoth_pair rfl), control, gone, back, fun d mem => low d (List.mem_append_right _ (by simp at mem ⊢; omega)) (on d mem)⟩
  · obtain ⟨control, kept⟩ := wakeDone_drains (c := s.ctl) (u := fresh s) mode waking risen drain
    exact ⟨_, (exec_wakeComplete s).trans (onBoth_pair rfl), (wakeComplete_ctl rfl (Eq.trans kept held)).trans control⟩

end Sys2Proof.Machine
end
